-- ==== Sys2Proof/Word.lean ====
section
/-! DEFINITION. The words of the machine: bytes, 32-bit and 64-bit words, and 32-bit logical timestamps with
the serial order of R348 (16_coherence_fabric.md). -/

namespace Sys2Proof

abbrev Byte := BitVec 8
abbrev W32 := BitVec 32
abbrev W64 := BitVec 64

/-- A 32-bit logical timestamp (R348). -/
abbrev Ts := BitVec 32

/-- `a` precedes `b` when `(b - a) mod 2^32` lies from 1 to `2^31 - 1` (R348). -/
def Ts.prec (a b : Ts) : Bool := decide (1 ≤ (b - a).toNat) && decide ((b - a).toNat < 2147483648)

/-- `a` equals or precedes `b` (R348). -/
def Ts.le (a b : Ts) : Bool := a == b || Ts.prec a b

/-- The serially later of two timestamps: `b` when `a` equals or precedes `b`, and `a` otherwise (R348). -/
def Ts.smax (a b : Ts) : Ts := if Ts.le a b then b else a

/-- A 32-bit lane mask: bit `L` stands for lane `L` (R9). -/
abbrev Mask := BitVec 32

/-- The lanes of a mask in ascending order (R7). -/
def Mask.lanes (m : Mask) : List Nat := (List.range 32).filter (fun l => m.getLsbD l)

/-- The mask of a list of lanes. -/
def Mask.ofLanes (ls : List Nat) : Mask := ls.foldl (fun m l => m ||| (1#32 <<< l)) 0

end Sys2Proof
end

