-- ==== Sys2Proof/Syntax.lean ====
section
/-! DEFINITION. The instructions and events of the machine: one constructor of `Instr` for each row of
spec/opcode_table.json. Instruction words hold their operands under names; the fields are those of R132
(full form) and R135 (paired form) of 05_encoding.md. A paired word is the constructor of its X half, and
carries its Y half. The rows without an encoding are the steps of the other agents (95_what_each_step_holds.md)
and carry what the step needs to know. -/

namespace Sys2Proof

/-- A register index as a field names it (R132). -/
abbrev Reg := BitVec 6

/-- The type codes of R147. -/
inductive Ty where
  | i8 | i16 | i32 | i64 | n8 | n16 | n32 | n64 | f16 | bf16 | f32 | f64 | f16x2 | bf16x2 | dx8 | dx4
  deriving DecidableEq, Repr

/-- The rounding modes of R85. -/
inductive Rnd where
  | rne | rz | ru | rd
  deriving DecidableEq, Repr

/-- The scopes of R48. -/
inductive Scope where
  | cr | gg | cl | dv | dm | sy
  deriving DecidableEq, Repr

/-- The order codes of R51: weak, relaxed, acquire or release (code 2), acq-rel (code 3). -/
inductive Order where
  | wk | rx | ar2 | ar3
  deriving DecidableEq, Repr

/-- The spaces of R45. -/
inductive Space where
  | gl | sp | pm
  deriving DecidableEq, Repr

/-- The fields every full word carries: STALL, PN and PRED (R132, R133). -/
structure Hdr where
  stall : BitVec 4
  pn : Bool
  pred : BitVec 3
  deriving DecidableEq, Repr

/-- A source operand: a vector register, a scalar register or an entry of the constant table (R134). -/
inductive Opnd where
  | v (n : Reg)
  | s (n : Reg)
  | k (n : Reg)
  deriving DecidableEq, Repr

/-- Integer and logic words (R155). -/
structure Alu where
  h : Hdr
  sc : Bool
  ty : Ty
  d : Reg
  a : Opnd
  b : Opnd
  c : Reg
  deriving DecidableEq, Repr

/-- Floating-point words in the arithmetic layout (R147, R162). -/
structure Flt where
  h : Hdr
  ty : Ty
  rnd : Rnd
  sat : Bool
  na : Bool
  aa : Bool
  nb : Bool
  ab : Bool
  nc : Bool
  ac : Bool
  d : Reg
  a : Opnd
  b : Opnd
  c : Reg
  deriving DecidableEq, Repr

/-- Memory words in the memory layout (R147, R181). -/
structure Mem where
  h : Hdr
  ty : Ty
  scope : Scope
  order : Order
  space : Space
  sh : BitVec 3
  d : Reg
  a : Opnd
  b : Opnd
  c : Reg
  deriving DecidableEq, Repr

/-- Barrier words (R198). -/
structure Bar where
  h : Hdr
  drop : Bool
  rank : BitVec 2
  rem : Bool
  scr : Bool
  scope : BitVec 3
  d : Reg
  a : Reg
  b : Opnd
  deriving DecidableEq, Repr

/-- Copy commands (R203). -/
structure Cpy where
  h : Hdr
  rb : Bool
  xb : Bool
  esz : BitVec 3
  dir : Bool
  bsp : Bool
  op : BitVec 4
  ty : Ty
  a : Reg
  b : Reg
  deriving DecidableEq, Repr

/-- Counter words (R215). -/
structure Ctr where
  h : Hdr
  d : Reg
  a : Reg
  b : Opnd
  deriving DecidableEq, Repr

/-- One half instruction of a paired word: its D, A, guard and HMOD fields (R135). -/
structure HOp where
  d : Reg
  a : Opnd
  pred : BitVec 3
  pn : Bool
  hm : BitVec 6
  deriving DecidableEq, Repr

/-- The half instructions of R149. -/
inductive Half where
  | hnop (o : HOp) | hmov (o : HOp) | hiadd (o : HOp) | hisub (o : HOp) | himul (o : HOp) | hand (o : HOp)
  | hor (o : HOp) | hxor (o : HOp) | hshl (o : HOp) | hshr (o : HOp) | hsar (o : HOp) | himin (o : HOp)
  | himax (o : HOp) | hfadd (o : HOp) | hfsub (o : HOp) | hfmul (o : HOp) | hfmin (o : HOp) | hfmax (o : HOp)
  | hicmp (o : HOp) | hfcmp (o : HOp) | hsel (o : HOp) | hneg (o : HOp) | habs (o : HOp) | hfneg (o : HOp)
  | hf2i (o : HOp) | hi2f (o : HOp) | hpopc (o : HOp) | hclz (o : HOp) | hmrd (o : HOp) | hs2v (o : HOp)
  | hshflx (o : HOp)
  deriving DecidableEq, Repr

/-- The target of a `call`: relative, or from a scalar register (R172). -/
inductive Target where
  | rel (off : BitVec 20)
  | reg (a : Reg)
  deriving DecidableEq, Repr

/-- The item a trap-window word names: by number, or by a scalar register (R251). -/
inductive ItemRef where
  | imm (n : BitVec 12)
  | reg (b : Reg)
  deriving DecidableEq, Repr

/-- Who waits at a barrier, a well or a poll: a split of a crew, a gang's pump, or a management core. -/
inductive Waiter where
  | split (crew entry : Nat)
  | pump (gid : Nat)
  | mgmt (cluster : Nat)
  deriving DecidableEq, Repr

/-- What happens at a switch: a contribution arrives, of this MZ-40's own command or of a peer, or the round's buffer overflows
(R212, R382). -/
inductive SwrIn where
  | own (cmd : Nat)
  | peer (rank size : Nat) (ty : BitVec 4) (op : BitVec 4) (len : Nat) (bytes : List Byte)
  | overflow
  deriving DecidableEq, Repr

/-- Where an error of R344 strikes. -/
inductive Ecc where
  | corrected (ukind unit array : Nat)
  | sector (array sector : Nat)
  | scratch (gid sector : Nat)
  | register (crew reg lane : Nat)
  | tile (gid tile : Nat)
  | escaped (sector : Nat) (bytes : List Byte)
  | cached (cluster : Bool) (unit line sector : Nat)
  deriving DecidableEq, Repr

/-- What an inbound domain access asks (R381); `bar` is an operation on a domain-scope barrier object (R107), or a read of a
timestamp (R197), and `poison` says that the data comes with the poison indication (R344): 0 init, 1 arrive, 2 arrive with DROP, 3 expect, 4 wait, 5 test, 6 credit, 7 a sector's `wts`, 8 the home's
clock. -/
inductive DomOp where
  | read (n : Nat)
  | write (bytes : List Byte) (poison : Bool)
  | atom (op : BitVec 4) (ty : Ty) (x : W64)
  | acas (ty : Ty) (expect new : W64)
  | put (token : W64) (slot expert chunk : Nat) (bytes : List Byte) (poison : Bool)
  | fill (excl : Bool)
  | wb (bytes : List Byte) (keep poison : Bool)
  | bar (op : BitVec 4) (n : W64)
  deriving DecidableEq, Repr

/-- The instructions and the events of the machine, in the order of spec/opcode_table.json (but for the two
rows that the fetch of a word makes, which stand before the other events). -/
inductive Instr where
  -- integer and logic (R155 to R161)
  | nop (h : Hdr)
  | mov (o : Alu)
  | movl (h : Hdr) (sc : Bool) (ty : Ty) (d : Reg) (lit : W64)
  | sel (o : Alu) (ps : BitVec 3) (psn : Bool)
  | iadd (o : Alu) | isub (o : Alu) | imul (o : Alu) | imulh (o : Alu) | imad (o : Alu)
  | idiv (o : Alu) | irem (o : Alu) | imin (o : Alu) | imax (o : Alu)
  | iabs (o : Alu) (sat : Bool)
  | iaddsat (o : Alu) | isubsat (o : Alu)
  | and (o : Alu) | or (o : Alu) | xor (o : Alu) | andn (o : Alu)
  | shl (o : Alu) | shr (o : Alu) | sar (o : Alu) | rot (o : Alu)
  | bfe (o : Alu) (len : BitVec 8) | bfi (o : Alu) (len : BitVec 8)
  | popc (o : Alu) | clz (o : Alu) | brev (o : Alu)
  | icmp (o : Alu) (cc : BitVec 3)
  | lea (o : Alu) (sh : BitVec 4) (sx : Bool)
  | prmt (o : Alu)
  -- floating point (R162 to R167)
  | fadd (o : Flt) | fsub (o : Flt) | fmul (o : Flt) | fma (o : Flt) | fmin (o : Flt) | fmax (o : Flt)
  | fdiv (o : Flt) | fsqrt (o : Flt) | frcp (o : Flt) | frsq (o : Flt)
  | fexp2 (o : Flt) | flog2 (o : Flt) | fsin (o : Flt) | fcos (o : Flt)
  | fcmp (o : Flt) (cc : BitVec 4)
  | fclass (o : Flt) | fscale (o : Flt) | fround (o : Flt)
  | f2f (o : Flt) (st : Ty) | f2i (o : Flt) (st : Ty) | i2f (o : Flt) (st : Ty) | fdot2 (o : Flt) (st : Ty)
  | fma2 (o : Flt)
  -- lane operations (R168 to R171)
  | shfl (h : Hdr) (ty : Ty) (mode : BitVec 2) (seg : BitVec 3) (d a : Reg) (b : Opnd)
  | vote (h : Hdr) (mode : BitVec 2) (negs : Bool) (d a : Reg)
  | redux (h : Hdr) (ty : Ty) (op : BitVec 4) (rnd : Rnd) (d a : Reg)
  | scan (h : Hdr) (ty : Ty) (op : BitVec 4) (rnd : Rnd) (excl : Bool) (d a : Reg)
  | mrd (h : Hdr) (ds : Bool) (d num : Reg)
  | s2v (h : Hdr) (ty : Ty) (d a : Reg)
  | v2s (h : Hdr) (ty : Ty) (first : Bool) (d a : Reg) (b : Opnd)
  | pmov (h : Hdr) (lut : BitVec 4) (dir : BitVec 2) (d a b : Reg)
  | rng (h : Hdr) (ty : Ty) (d a : Reg) (b : Opnd)
  | pack (o : Flt) | unpack (o : Flt)
  -- control (R172 to R179)
  | bra (h : Hdr) (off : BitVec 20)
  | brx (h : Hdr) (a : Opnd)
  | join (h : Hdr)
  | call (h : Hdr) (f : Reg) (t : Target)
  | ret (h : Hdr) (f a : Reg)
  | exit (h : Hdr)
  | yield (h : Hdr)
  | loop (h : Hdr) (d : Reg) (off : BitVec 20)
  | kill (h : Hdr)
  | trapi (h : Hdr) (n : BitVec 16)
  | tfence (h : Hdr) (mask : BitVec 5)
  -- memory (R181 to R197)
  | ld (o : Mem) (line : Bool)
  | st (o : Mem)
  | lds (o : Mem) (line : Bool)
  | sts (o : Mem)
  | ldp (o : Mem) (cc : BitVec 4)
  | atom (o : Mem) (op : BitVec 4)
  | acas (o : Mem)
  | red (o : Mem) (op : BitVec 4)
  | fence (h : Hdr) (scope : Scope) (order : Order)
  | prf (o : Mem) (line : Bool)
  | lease (o : Mem) (cls : BitVec 4)
  | tsget (h : Hdr) (f : Bool) (d a : Reg)
  -- barriers, wells and batches (R198 to R202)
  | barInit (o : Bar) | barArr (o : Bar) | barExp (o : Bar) | barWait (o : Bar) | barTry (o : Bar)
  | bsync (h : Hdr) (k : BitVec 2)
  | wellPush (h : Hdr) (well : BitVec 4) (nreg : BitVec 2) (c : Reg)
  | wellPop (h : Hdr) (well : BitVec 4) (nreg : BitVec 2) (pr : BitVec 3) (d : Reg)
  | wellTpush (h : Hdr) (well : BitVec 4) (a : Reg)
  | wellTpop (h : Hdr) (well : BitVec 4) (pr : BitVec 3) (d : Reg)
  | wellCfg (h : Hdr) (well : BitVec 4) (a b : Reg)
  | batchClose (h : Hdr) (d : Reg)
  | batchWait (h : Hdr) (d : Reg) (b : Opnd)
  -- copy engine (R203 to R214)
  | cpyG2s (o : Cpy) | cpyS2g (o : Cpy) | cpyG2g (o : Cpy) | cpyMcast (o : Cpy) | cpyT2d (o : Cpy)
  | cpyGather (o : Cpy) | cpyRed (o : Cpy) | cpyDom (o : Cpy) | cpySwr (o : Cpy)
  | cpyStat (h : Hdr) (d : Reg)
  -- split counters and cisterns (R215 to R219)
  | ctrInit (o : Ctr) | ctrTake (o : Ctr) | ctrGive (o : Ctr) | ctrRead (o : Ctr) | ctrReadx (o : Ctr)
  | ctrCap (o : Ctr) | ctrDrain (o : Ctr)
  | cmbOpen (h : Hdr) (dsp : Bool) (d a b : Reg)
  | cmbPut (h : Hdr) (lt : Bool) (d a b c : Reg)
  | cmbStat (h : Hdr) (lates : Bool) (d a : Reg) (b : Opnd)
  | cmbClose (h : Hdr) (d a : Reg) (b : Opnd)
  | cmbCfg (h : Hdr) (a b : Reg)
  -- tiles and matrix (R220 to R240)
  | tcfg (h : Hdr) (d a : Reg)
  | tcfgr (h : Hdr) (d a : Reg)
  | tld (h : Hdr) (scope : Scope) (order : Order) (space : Space) (zf : Bool) (d a b : Reg)
  | tst (h : Hdr) (scope : Scope) (order : Order) (space : Space) (hist : Bool) (d a b : Reg)
  | tzero (h : Hdr) (d : Reg)
  | tmov (h : Hdr) (d a : Reg)
  | tv2t (h : Hdr) (nreg : BitVec 2) (d a : Reg) (b : Opnd)
  | tt2v (h : Hdr) (nreg : BitVec 2) (hist : Bool) (d a : Reg) (b : Opnd)
  | mma (h : Hdr) (nsel : BitVec 2) (msk zc : Bool) (mq : BitVec 4) (scl : BitVec 3) (d a b c : Reg)
  | mtr (h : Hdr) (d a : Reg)
  | tquant (h : Hdr) (soff : BitVec 2) (d a b c : Reg)
  | tcvt (h : Hdr) (soff : BitVec 2) (d a b c : Reg)
  | hist (h : Hdr) (a b : Reg)
  | tred (h : Hdr) (op : BitVec 4) (rnd : Rnd) (d a : Reg) (b : Opnd)
  | tadd (h : Hdr) (op : BitVec 4) (rnd : Rnd) (sat : Bool) (d a b : Reg)
  | tmulv (h : Hdr) (colm : Bool) (rnd : Rnd) (sat : Bool) (d a b c : Reg)
  -- system (R241 to R252)
  | csrr (h : Hdr) (d : Reg) (num : BitVec 12)
  | csrw (h : Hdr) (num : BitVec 12) (a : Reg)
  | csrwSet (h : Hdr) (num : BitVec 12) (a : Reg)
  | csrwClr (h : Hdr) (num : BitVec 12) (a : Reg)
  | launch (h : Hdr) (d a : Reg) (b : Opnd)
  | reord (h : Hdr) (a b : Reg)
  | idemBegin (h : Hdr)
  | idemEnd (h : Hdr)
  | hret (h : Hdr)
  | hwinR (h : Hdr) (d : Reg) (item : ItemRef)
  | hwinW (h : Hdr) (a : Reg) (item : ItemRef)
  | hresume (h : Hdr)
  | hkill (h : Hdr) (launch : Bool)
  | sleep (h : Hdr) (b : Opnd)
  | clkr (h : Hdr) (k : BitVec 2) (d : Reg)
  -- access slices (R253 to R257)
  | axLoop (h : Hdr) (p : Bool) (n : BitVec 16)
  | axEnd (h : Hdr)
  | axBase (h : Hdr) (d : Reg) (g : BitVec 2) (off : BitVec 12)
  | axStrd (h : Hdr) (p : Bool) (d : Reg) (l : BitVec 2) (imm : BitVec 16)
  | axLd (h : Hdr) (d a : Reg)
  | axLdt (h : Hdr) (d a b c : Reg)
  | axSig (h : Hdr) (off : BitVec 16)
  | axHalt (h : Hdr)
  -- paired words by their X half (R135 to R138, R180): STALL, the X half, the Y half
  | hnop (st : BitVec 3) (x : HOp) (y : Half) | hmov (st : BitVec 3) (x : HOp) (y : Half)
  | hiadd (st : BitVec 3) (x : HOp) (y : Half) | hisub (st : BitVec 3) (x : HOp) (y : Half)
  | himul (st : BitVec 3) (x : HOp) (y : Half) | hand (st : BitVec 3) (x : HOp) (y : Half)
  | hor (st : BitVec 3) (x : HOp) (y : Half) | hxor (st : BitVec 3) (x : HOp) (y : Half)
  | hshl (st : BitVec 3) (x : HOp) (y : Half) | hshr (st : BitVec 3) (x : HOp) (y : Half)
  | hsar (st : BitVec 3) (x : HOp) (y : Half) | himin (st : BitVec 3) (x : HOp) (y : Half)
  | himax (st : BitVec 3) (x : HOp) (y : Half) | hfadd (st : BitVec 3) (x : HOp) (y : Half)
  | hfsub (st : BitVec 3) (x : HOp) (y : Half) | hfmul (st : BitVec 3) (x : HOp) (y : Half)
  | hfmin (st : BitVec 3) (x : HOp) (y : Half) | hfmax (st : BitVec 3) (x : HOp) (y : Half)
  | hicmp (st : BitVec 3) (x : HOp) (y : Half) | hfcmp (st : BitVec 3) (x : HOp) (y : Half)
  | hsel (st : BitVec 3) (x : HOp) (y : Half) | hneg (st : BitVec 3) (x : HOp) (y : Half)
  | habs (st : BitVec 3) (x : HOp) (y : Half) | hfneg (st : BitVec 3) (x : HOp) (y : Half)
  | hf2i (st : BitVec 3) (x : HOp) (y : Half) | hi2f (st : BitVec 3) (x : HOp) (y : Half)
  | hpopc (st : BitVec 3) (x : HOp) (y : Half) | hclz (st : BitVec 3) (x : HOp) (y : Half)
  | hmrd (st : BitVec 3) (x : HOp) (y : Half) | hs2v (st : BitVec 3) (x : HOp) (y : Half)
  | hshflx (st : BitVec 3) (x : HOp) (y : Half)
  -- words that are not instructions, and failing fetches (R150, R130)
  | illegalEncoding (w : W64)
  | fetchFault (va : W64) (tail : Bool)
  -- wake-ups of waiting splits (R109, R112, R116, R189, R247)
  | barrierWakeup (w : Waiter)
  | wellWakeup (w : Waiter)
  | batchWakeup (w : Waiter)
  | ldpAttempt (w : Waiter)
  | sleepExpiry (w : Waiter)
  -- split counters and cistern timers (R123, R127): the record's physical address, the core
  | ctrRefill (c : Nat)
  | ctrRecall (c core : Nat)
  | ctrRecallReply (c core : Nat)
  | ctrGrant (c core : Nat)
  | cmbTimeout (slot : Nat)
  -- copy engines and switch (R205, R207, R212, R382)
  | copyPartComplete (cmd part : Nat)
  | mcastLanding (cmd target part : Nat)
  | swrRound (group : Nat) (c : SwrIn)
  | swrRoundTimeout (group : Nat)
  -- home slices and L1s (R353, R354, R357): the packet
  | homeRenew (p : Nat) | homeWrite (p : Nat) | homeAtom (p : Nat) | homeWb (p : Nat) | homeHold (p : Nat)
  | data (p : Nat) | ext (p : Nat) | ack (p : Nat) | recall (p : Nat)
  -- fabric (R361 to R364, R381)
  | routerPacket (p : Nat)
  | bridgePacket (p : Nat)
  | flitError (cd hd c : Nat)
  | retrainTimeout (cd hd c : Nat)
  | retrainDone (cd hd c : Nat)
  | packetCrcError (p : Nat)
  | domainLinkTimeout (l : Nat)
  | mirrorWrite (p : Nat)
  | clockReconcile
  | rolloverSweep
  | imagePtsSweep (image : Nat)
  -- translation and traps (R334, R309, R313)
  | pageWalk (asid va : Nat)
  | trapDelivery (cluster : Nat)
  | watchdogExpiry (cluster : Nat)
  -- queues and placement (R292 to R302, R35)
  | doorbell (q : Nat) (v : W32)
  | dispatchConsume (q : Nat)
  | blockPlace (blk core : Nat)
  | gangStart (core : Nat)
  | stealRequest (idle victim : Nat)
  | donationArrival (idle : Nat)
  | launchComplete (lslot : Nat)
  | reorderFlush (lslot : Nat)
  -- pre-emption and driver control (R314 to R319, R330, R339, R340, R303, R366)
  | prectl (part : Nat) (v : W64)
  | gangSave (gid : Nat)
  | gangRestore (blk core : Nat)
  | resume (part : Nat) (v : W64)
  | fltnextRead (part : Nat)
  | fltdone (part : Nat) (v : W64)
  | engreqRead (part : Nat)
  | engdone (part : Nat) (v : W64)
  | asinv (asid : Nat) (v : W64)
  | asinvComplete (asid : Nat)
  | ptcfgWrite (part : Nat) (v : W64)
  | quotaWrite (part : Nat) (off : Nat) (size : Nat) (v : W64)
  | protEnable (k : Nat) (v : W64)
  | protMirrorReady (k : Nat)
  -- failures and errors (R368, R370, R344, R345)
  | homeDieFailure (hd : Nat)
  | coreOutOfService (core : Nat)
  | eccError (e : Ecc)
  | ecccInterval (ukind unit : Nat)
  -- CXL (R375, R377 to R380, R373)
  | snpinv (port line : Nat)
  | snpdata (port line : Nat)
  | snpcur (port line : Nat)
  | hostGrant (port line : Nat) (excl : Bool) (bytes : List Byte) (poison : Bool)
  | hostMemrd (port addr n : Nat) (hold : Option Bool)
  | hostMemwr (port addr : Nat) (bytes : List Byte) (wb keep poison : Bool)
  | bisnpResponse (slice line : Nat) (dirty : Option (List Byte × Bool))
  | heartbeat (agent : Nat)
  | hardHoldExpiry (slice line : Nat)
  | poolCompletion (req : Nat) (ok poison : Bool) (bytes : List Byte)
  | poolSideTimeout (req : Nat)
  -- domain (R381)
  | domainInbound (peer dtid va : Nat) (op : DomOp)
  | domainRecall (line : Nat)
  | cxlPortDown (port : Nat)
  -- power and telemetry (R388 to R391, R301)
  | powerInterval (vcore0 vcore1 vhome vhbm : Nat) (core : List (Nat × Nat)) (temps : List Int)
  | pcapWrite (v : W32)
  | thermalLimit (die : Nat) (temp : Int)
  | thermalTrip (temp : Int)
  | coreHot (core : Nat) (temp : Int)
  | droopEvent (core : Nat)
  | coreCool (core : Nat) (temp : Int)
  | tlmloRead
  -- firmware and reset (R393, R386, R394)
  | firmwareUpdate (image : Option (List Byte))
  | attestReport
  | identityPublicKey
  | atctlRefused (op : BitVec 2)
  | packageReset (v : W32) (failedCores failedHomes : List Nat)
  | cxlReset (failedCores failedHomes : List Nat)
  | registerWrite (bar off size : Nat) (v : W64)
  -- the scoreboard, and replies (R144, R381, R302)
  | resultWritten (crew idx : Nat)
  | peerReply (req : Nat) (ok poison : Bool) (bytes : List Byte)
  | stealRefusal (idle : Nat)
  -- power (R385, R384, R373)
  | powerLoss
  | powerOn (failedCores failedHomes : List Nat)
  | cxlPortUp (port : Nat)
  deriving DecidableEq, Repr

end Sys2Proof
end

