-- ==== Sys2Proof/WellFormed.lean ====
section
/-! DEFINITION. Which instructions have an encoding: the checks of R151 order 1 that depend on the word alone
(05_encoding.md R130 to R150; the entries of 06 to 09). Checks that depend on the crew (a register beyond its
window, R139) or on the issuing unit (R150, R249, R253) are made at issue. -/

namespace Sys2Proof

/-- The type codes of R147. -/
def Ty.code : Ty → Nat
  | .i8 => 0 | .i16 => 1 | .i32 => 2 | .i64 => 3 | .n8 => 4 | .n16 => 5 | .n32 => 6 | .n64 => 7
  | .f16 => 8 | .bf16 => 9 | .f32 => 10 | .f64 => 11 | .f16x2 => 12 | .bf16x2 => 13 | .dx8 => 14 | .dx4 => 15

def Ty.ofCode : Nat → Option Ty
  | 0 => some .i8 | 1 => some .i16 | 2 => some .i32 | 3 => some .i64
  | 4 => some .n8 | 5 => some .n16 | 6 => some .n32 | 7 => some .n64
  | 8 => some .f16 | 9 => some .bf16 | 10 => some .f32 | 11 => some .f64
  | 12 => some .f16x2 | 13 => some .bf16x2 | 14 => some .dx8 | 15 => some .dx4
  | _ => none

/-- The width in bits of an integer or floating type (R77, R78), and of the register a packed type fills (R81). -/
def Ty.bits : Ty → Nat
  | .i8 | .n8 | .dx8 => 8
  | .i16 | .n16 | .f16 | .bf16 => 16
  | .i32 | .n32 | .f32 | .f16x2 | .bf16x2 => 32
  | .i64 | .n64 | .f64 => 64
  | .dx4 => 4

def Ty.isInt (t : Ty) : Bool := decide (t.code < 8)
def Ty.signed (t : Ty) : Bool := decide (t.code < 4)
/-- f16, bf16, f32 and f64. -/
def Ty.isFlt (t : Ty) : Bool := decide (8 ≤ t.code) && decide (t.code < 12)
def Ty.packed (t : Ty) : Bool := t == .f16x2 || t == .bf16x2
/-- The element type of a packed type (R81). -/
def Ty.elem : Ty → Ty
  | .f16x2 => .f16
  | .bf16x2 => .bf16
  | t => t
def Ty.wide (t : Ty) : Bool := t == .i64 || t == .n64 || t == .f64
/-- The vector registers a value of the type takes (R77). -/
def Ty.regs (t : Ty) : Nat := if t.wide then 2 else 1

def Rnd.code : Rnd → Nat
  | .rne => 0 | .rz => 1 | .ru => 2 | .rd => 3
def Rnd.ofCode : Nat → Rnd
  | 0 => .rne | 1 => .rz | 2 => .ru | _ => .rd

def Scope.code : Scope → Nat
  | .cr => 0 | .gg => 1 | .cl => 2 | .dv => 3 | .dm => 4 | .sy => 5
def Scope.ofCode : Nat → Option Scope
  | 0 => some .cr | 1 => some .gg | 2 => some .cl | 3 => some .dv | 4 => some .dm | 5 => some .sy | _ => none

def Order.code : Order → Nat
  | .wk => 0 | .rx => 1 | .ar2 => 2 | .ar3 => 3
def Order.ofCode : Nat → Order
  | 0 => .wk | 1 => .rx | 2 => .ar2 | _ => .ar3

def Space.code : Space → Nat
  | .gl => 0 | .sp => 1 | .pm => 2
def Space.ofCode : Nat → Option Space
  | 0 => some .gl | 1 => some .sp | 2 => some .pm | _ => none

/-- `n` consecutive vector registers from `r` on: aligned, and inside v0 to v63 (R139). -/
def Reg.group (r : Reg) (n : Nat) : Bool := r.toNat % n == 0 && decide (r.toNat + n ≤ 64)

/-- An A operand of `n` registers: a vector group or a scalar register (R134). -/
def Opnd.fitsA (o : Opnd) (n : Nat) : Bool :=
  match o with
  | .v r => Reg.group r n
  | .s _ => true
  | .k _ => false

/-- A B operand of `n` registers; `flt` says that entries 48 to 63 of the constant table are usable (R142). -/
def Opnd.fitsB (o : Opnd) (n : Nat) (flt : Bool) : Bool :=
  match o with
  | .v r => Reg.group r n
  | .s _ => true
  | .k r => flt || decide (r.toNat < 48)

/-- A scalar register or an integer constant. -/
def Opnd.sk (o : Opnd) : Bool :=
  match o with
  | .v _ => false
  | .s _ => true
  | .k r => decide (r.toNat < 48)

/-- An unused operand: its field and its bits are 0 (R134). -/
def Opnd.none (o : Opnd) : Bool := o == .v 0

/-- A predicate source: p0 to p6 (R134). -/
def Reg.isP (r : Reg) : Bool := decide (r.toNat < 7)
/-- A predicate destination (7 discards), a tile name or a tile control register (R134). -/
def Reg.is7 (r : Reg) : Bool := decide (r.toNat < 8)

/-- The operands an integer or logic word uses (R156). -/
structure AluUse where
  a : Bool := true
  b : Bool := true
  c : Bool := false
  b32 : Bool := false
  pd : Bool := false
  deriving DecidableEq, Repr

/-- R155: the two forms of the integer and logic words. -/
def Alu.ok (o : Alu) (u : AluUse) : Bool :=
  o.ty.isInt
  && (if u.a then (if o.sc then (match o.a with | .s _ => true | _ => false) else o.a.fitsA o.ty.regs) else o.a.none)
  && (if u.b then (if o.sc then o.b.sk else o.b.fitsB (if u.b32 then 1 else o.ty.regs) false) else o.b.none)
  && (if u.c then o.sc || Reg.group o.c o.ty.regs else o.c == 0)
  && (if u.pd then o.d.is7 else o.sc || Reg.group o.d o.ty.regs)

/-- The operands a floating-point word uses, and the registers they take (R163). -/
structure FltUse where
  b : Bool := true
  c : Bool := false
  rnd : Bool := true
  deriving DecidableEq, Repr

/-- R162: `na`, `nb`, `nd` are the registers of A, of B and C, and of D. -/
def Flt.ok (o : Flt) (u : FltUse) (na nb nd : Nat) : Bool :=
  (u.rnd || (o.rnd == .rne && !o.sat))
  && o.a.fitsA na
  && (if u.b then o.b.fitsB nb true else o.b.none && !o.nb && !o.ab)
  && (if u.c then Reg.group o.c nb else o.c == 0 && !o.nc && !o.ac)
  && Reg.group o.d nd

def Ty.arith (t : Ty) : Bool := t.isFlt || t.packed
def Ty.trans (t : Ty) : Bool := t.isFlt && t != .f64

def Flt.plain (o : Flt) (u : FltUse) : Bool := o.ok u o.ty.regs o.ty.regs o.ty.regs
def Flt.arith (o : Flt) (u : FltUse) : Bool := o.ty.arith && o.plain u
def Flt.unary (o : Flt) : Bool := o.ty.isFlt && o.plain { b := false }
def Flt.trans (o : Flt) : Bool := o.ty.trans && o.plain { b := false }

/-- The 32-bit and 64-bit width codes of R168. -/
def Ty.width32or64 (t : Ty) : Bool :=
  t == .i32 || t == .n32 || t == .f32 || t == .f16x2 || t == .bf16x2 || t.wide

/-- The guard of `join`, `call` and `ret`: PRED 7 (R172). -/
def Hdr.always (h : Hdr) : Bool := h.pred == 7

/-- Bytes of an access of R182; none for TYPE 0xF. -/
def Ty.bytes? : Ty → Option Nat
  | .i8 | .n8 => some 1
  | .i16 | .n16 | .f16 | .bf16 => some 2
  | .i32 | .n32 | .f32 | .f16x2 | .bf16x2 => some 4
  | .i64 | .n64 | .f64 => some 8
  | .dx8 => some 16
  | .dx4 => none

/-- The registers of an access of R182. -/
def Ty.memRegs : Ty → Nat
  | .i64 | .n64 | .f64 => 2
  | .dx8 => 4
  | _ => 1

/-- R50: scratch space takes crew and gang scope only. -/
def Mem.scopeOk (o : Mem) : Bool := o.space != .sp || o.scope == .cr || o.scope == .gg
def Mem.isS (o : Opnd) : Bool := match o with | .s _ => true | _ => false

/-- The operations and types of R191. -/
def atomOk (op : Nat) (t : Ty) : Bool :=
  if op ≤ 2 then t == .i32 || t == .i64 || t == .n32 || t == .n64 || t == .f32 || t == .f16x2 || t == .bf16x2
  else if op ≤ 5 then t == .i32 || t == .i64 || t == .n32 || t == .n64
  else if op == 6 then t == .i32 || t == .i64 || t == .n32 || t == .n64 || t == .f32
  else if op ≤ 8 then t == .n32 || t == .n64
  else false

/-- R198: REM needs scratch space. -/
def Bar.ok (o : Bar) : Bool := !o.rem || o.scr
def Bar.noB (o : Bar) : Bool := o.b.none && !o.drop && o.scope == 0
def Bar.plainB (o : Bar) : Bool := o.b.sk && !o.drop && o.scope == 0 && o.d == 0

/-- R203: A names an aligned scalar quad; the MOD fields a command does not use are 0 (R206). -/
def Cpy.ok (o : Cpy) (rb xb esz dir optype : Bool) : Bool :=
  o.a.toNat % 4 == 0
  && (rb || !o.rb) && (xb || !o.xb) && (esz || o.esz == 0) && (dir || !o.dir)
  && (optype || (o.op == 0 && o.ty == .i8))

/-- The integer operations 0 to 5 and the float operations 0 to 2 of R210. -/
def redOk (op : Nat) (t : Ty) : Bool :=
  ((t == .i32 || t == .i64 || t == .n32 || t == .n64) && decide (op ≤ 5))
  || ((t == .f32 || t == .f16x2 || t == .bf16x2) && decide (op ≤ 2))

/-- R170: the operation codes of `redux` and `scan` with their types. -/
def reduxOk (op : Nat) (t : Ty) (rnd : Rnd) : Bool :=
  ((t.isInt && decide (op ≤ 5)) || (t == .f32 && decide (6 ≤ op) && decide (op ≤ 8)))
  && (op == 6 || rnd == .rne)

/-- R253: the fixed header of an access-slice word. -/
def Hdr.slice (h : Hdr) : Bool := h.stall == 0 && !h.pn && h.pred == 7

/-- The type codes of a half: HMOD [3:0] (R180). -/
def HOp.tyIn (o : HOp) (ok : Ty → Bool) : Bool :=
  match Ty.ofCode (o.hm.toNat % 16) with
  | some t => ok t
  | none => false
def HOp.untyped (o : HOp) : Bool := o.hm.toNat % 16 == 0
def HOp.noTop (o : HOp) : Bool := o.hm.toNat / 16 == 0
def HOp.intTy (o : HOp) : Bool := o.tyIn (fun t => t.isInt && !t.wide)
def HOp.fltTy (o : HOp) : Bool := o.tyIn (fun t => t.trans || t.packed)

/-- A half's A operand; `flt` as in `Opnd.fitsB` (R142, R180). -/
def HOp.aOk (o : HOp) (flt : Bool) : Bool :=
  match o.a with
  | .k r => flt || decide (r.toNat < 48)
  | _ => true

/-- R180: the entry of each half instruction. -/
def Half.ok : Half → Bool
  | .hnop o => o.d == 0 && o.a.none && o.hm == 0
  | .hmov o | .hand o | .hor o | .hxor o | .hshl o | .hshr o | .hsar o | .hpopc o | .hclz o =>
    o.aOk false && o.hm == 0
  | .hiadd o | .hisub o | .himul o | .himin o | .himax o | .hneg o => o.aOk false && o.intTy && o.noTop
  | .hfadd o | .hfsub o | .hfmul o => o.aOk true && o.fltTy
  | .hfmin o | .hfmax o | .hfneg o => o.aOk true && o.fltTy && o.noTop
  | .hicmp o => o.aOk false && o.intTy && o.d.is7
  | .hfcmp o => o.aOk true && o.tyIn Ty.trans && o.d.is7
  | .hsel o => o.aOk false && o.untyped
  | .habs o => o.aOk false && o.tyIn (fun t => t == .i8 || t == .i16 || t == .i32) && o.noTop
  | .hf2i o => o.aOk true && o.tyIn (fun t => t == .i32 || t == .n32)
  | .hi2f o => o.aOk false && o.tyIn (fun t => t == .i32 || t == .n32)
  | .hmrd o => (match o.a with | .v n => decide (n.toNat ≤ 9) | _ => false) && o.hm == 0
  | .hs2v o => Mem.isS o.a && o.hm == 0
  | .hshflx o => (match o.a with | .v _ => true | _ => false) && decide (o.hm.toNat < 32)

/-- The operands of a half. -/
def Half.o : Half → HOp
  | .hnop o | .hmov o | .hiadd o | .hisub o | .himul o | .hand o | .hor o | .hxor o | .hshl o | .hshr o
  | .hsar o | .himin o | .himax o | .hfadd o | .hfsub o | .hfmul o | .hfmin o | .hfmax o | .hicmp o
  | .hfcmp o | .hsel o | .hneg o | .habs o | .hfneg o | .hf2i o | .hi2f o | .hpopc o | .hclz o | .hmrd o
  | .hs2v o | .hshflx o => o

/-- What D names: nothing, a vector register or a predicate (R136). -/
inductive HDest where
  | none | vec | prd
  deriving DecidableEq, Repr

def Half.dest : Half → HDest
  | .hnop _ => .none
  | .hicmp _ | .hfcmp _ => .prd
  | _ => .vec

/-- The vector register A names, if it names one. -/
def Half.avec : Half → Option Nat
  | .hnop _ | .hmrd _ => Option.none
  | h => match h.o.a with
    | .v n => some n.toNat
    | _ => Option.none

/-- R137: when two halves form a legal pair. -/
def pairOk (x y : Half) : Bool :=
  x.ok && y.ok
  && !(x.dest == y.dest && x.dest != .none && x.o.d == y.o.d)
  && !(x.dest == .vec && y.dest == .vec && x.o.d.toNat % 4 == y.o.d.toNat % 4)
  && (match x.avec, y.avec with
      | some m, some n => m % 4 != n % 4
      | _, _ => true)

/-- The X half of a paired word. -/
def Instr.xHalf : Instr → Option (BitVec 3 × Half × Half)
  | .hnop sl x y => some (sl, .hnop x, y) | .hmov sl x y => some (sl, .hmov x, y)
  | .hiadd sl x y => some (sl, .hiadd x, y) | .hisub sl x y => some (sl, .hisub x, y)
  | .himul sl x y => some (sl, .himul x, y) | .hand sl x y => some (sl, .hand x, y)
  | .hor sl x y => some (sl, .hor x, y) | .hxor sl x y => some (sl, .hxor x, y)
  | .hshl sl x y => some (sl, .hshl x, y) | .hshr sl x y => some (sl, .hshr x, y)
  | .hsar sl x y => some (sl, .hsar x, y) | .himin sl x y => some (sl, .himin x, y)
  | .himax sl x y => some (sl, .himax x, y) | .hfadd sl x y => some (sl, .hfadd x, y)
  | .hfsub sl x y => some (sl, .hfsub x, y) | .hfmul sl x y => some (sl, .hfmul x, y)
  | .hfmin sl x y => some (sl, .hfmin x, y) | .hfmax sl x y => some (sl, .hfmax x, y)
  | .hicmp sl x y => some (sl, .hicmp x, y) | .hfcmp sl x y => some (sl, .hfcmp x, y)
  | .hsel sl x y => some (sl, .hsel x, y) | .hneg sl x y => some (sl, .hneg x, y)
  | .habs sl x y => some (sl, .habs x, y) | .hfneg sl x y => some (sl, .hfneg x, y)
  | .hf2i sl x y => some (sl, .hf2i x, y) | .hi2f sl x y => some (sl, .hi2f x, y)
  | .hpopc sl x y => some (sl, .hpopc x, y) | .hclz sl x y => some (sl, .hclz x, y)
  | .hmrd sl x y => some (sl, .hmrd x, y) | .hs2v sl x y => some (sl, .hs2v x, y)
  | .hshflx sl x y => some (sl, .hshflx x, y)
  | _ => none

/-- A paired word from its X half. -/
def Half.toInstr (st : BitVec 3) (x y : Half) : Instr :=
  match x with
  | .hnop o => .hnop st o y | .hmov o => .hmov st o y | .hiadd o => .hiadd st o y | .hisub o => .hisub st o y
  | .himul o => .himul st o y | .hand o => .hand st o y | .hor o => .hor st o y | .hxor o => .hxor st o y
  | .hshl o => .hshl st o y | .hshr o => .hshr st o y | .hsar o => .hsar st o y | .himin o => .himin st o y
  | .himax o => .himax st o y | .hfadd o => .hfadd st o y | .hfsub o => .hfsub st o y
  | .hfmul o => .hfmul st o y | .hfmin o => .hfmin st o y | .hfmax o => .hfmax st o y
  | .hicmp o => .hicmp st o y | .hfcmp o => .hfcmp st o y | .hsel o => .hsel st o y | .hneg o => .hneg st o y
  | .habs o => .habs st o y | .hfneg o => .hfneg st o y | .hf2i o => .hf2i st o y | .hi2f o => .hi2f st o y
  | .hpopc o => .hpopc st o y | .hclz o => .hclz st o y | .hmrd o => .hmrd st o y | .hs2v o => .hs2v st o y
  | .hshflx o => .hshflx st o y

/-- An instruction that a word encodes: every static rule of its entry holds. Events have no encoding. -/
def Instr.wf : Instr → Bool
  | .nop _ => true
  | .mov o => o.ok { a := false }
  | .movl _ sc ty d _ =>
    (ty == .i32 || ty == .i64 || ty == .n32 || ty == .n64 || ty == .f32 || ty == .f64)
    && (sc || Reg.group d ty.regs)
  | .sel o ps _ => o.ok {} && !o.sc && ps != 7
  | .iadd o | .isub o | .imul o | .imulh o | .idiv o | .irem o | .imin o | .imax o
  | .iaddsat o | .isubsat o | .and o | .or o | .xor o | .andn o => o.ok {}
  | .imad o => o.ok { c := true }
  | .iabs o _ => o.ok { b := false } && o.ty.signed
  | .shl o | .shr o | .sar o | .rot o => o.ok { b32 := true }
  | .bfe o len => o.ok { b32 := true } && decide (len.toNat ≤ o.ty.bits)
  | .bfi o len => o.ok { b32 := true, c := true } && decide (len.toNat ≤ o.ty.bits)
  | .popc o | .clz o | .brev o => o.ok { b := false }
  | .icmp o cc => o.ok { pd := true } && decide (cc.toNat < 6)
  | .lea o _ _ => o.ok { b32 := true } && (o.ty == .i64 || o.ty == .n64)
  | .prmt o => o.ok { c := true } && o.ty == .n32
  | .fadd o | .fsub o | .fmul o => o.arith {}
  | .fma o => o.arith { c := true }
  | .fmin o | .fmax o => o.arith { rnd := false }
  | .fdiv o => o.ty.isFlt && o.plain {}
  | .fsqrt o | .frcp o | .frsq o | .fround o => o.unary
  | .fexp2 o | .flog2 o | .fsin o | .fcos o => o.trans
  | .fcmp o cc => o.ty.isFlt && o.ok { rnd := false } o.ty.regs o.ty.regs 1 && o.d.is7 && decide (cc.toNat < 8)
  | .fclass o => o.ty.isFlt && o.ok { b := false, rnd := false } o.ty.regs 1 1 && !o.na && !o.aa
  | .fscale o =>
    o.ty.isFlt && o.ok { } o.ty.regs 1 o.ty.regs && !o.nb && !o.ab && o.b.fitsB 1 false
  | .f2f o src => o.ty.isFlt && src.isFlt && o.ty != src && o.ok { b := false } src.regs 1 o.ty.regs
  | .f2i o src => o.ty.isInt && src.isFlt && !o.sat && o.ok { b := false } src.regs 1 o.ty.regs
  | .i2f o src => o.ty.isFlt && src.isInt && !o.na && !o.aa && o.ok { b := false } src.regs 1 o.ty.regs
  | .fdot2 o src => o.ty == .f32 && src.packed && o.ok { c := true } 1 1 1
  | .fma2 o => o.ty == .f32 && o.ok { c := true } 2 2 2
  | .shfl _ ty _ seg d a b =>
    ty.width32or64 && decide (seg.toNat < 6) && Reg.group d ty.regs && Reg.group a ty.regs && b.fitsB 1 false
  | .vote _ mode _ d a => a.isP && (mode == 3 || d.is7)
  | .redux _ ty op rnd _ a => reduxOk op.toNat ty rnd && Reg.group a ty.regs
  | .scan _ ty op rnd _ d a => reduxOk op.toNat ty rnd && Reg.group a ty.regs && Reg.group d ty.regs
  | .mrd _ ds d num => decide (num.toNat ≤ 9) && !(ds && num == 0) && (ds || num != 9 || Reg.group d 2)
  | .s2v _ ty d _ => ty.width32or64 && Reg.group d ty.regs
  | .v2s _ ty first _ a b => ty.width32or64 && Reg.group a ty.regs && (if first then b.none else b.sk)
  | .pmov _ lut dir d a b =>
    (dir == 0 && d.is7 && a.isP && b.isP) || (dir == 1 && a.isP && b == 0 && lut == 0)
    || (dir == 2 && d.is7 && b == 0 && lut == 0)
  | .rng _ ty _ _ b => (ty == .n32 || ty == .f32) && b.fitsB 2 false
  | .pack o => o.ty.packed && o.ok {} 1 1 1 && !Mem.isS o.a
  | .unpack o => o.ty.packed && o.ok { b := false, rnd := false } 1 1 2 && !Mem.isS o.a
  | .bra _ _ => true
  | .brx _ a => a.fitsA 2
  | .join h => h.always
  | .call h f t => h.always && f.is7 && (match t with | .rel _ => true | .reg _ => true)
  | .ret h f _ => h.always && f.is7
  | .exit _ | .yield _ | .loop _ _ _ | .kill _ | .trapi _ _ | .tfence _ _ => true
  | .ld o _ =>
    o.ty != .dx4 && o.order != .ar3 && o.scopeOk && o.a.fitsA 2 && o.b.fitsB 1 false
    && Reg.group o.d o.ty.memRegs && o.c == 0
  | .st o =>
    o.ty != .dx4 && o.order != .ar3 && o.scopeOk && o.space != .pm && o.a.fitsA 2 && o.b.fitsB 1 false
    && Reg.group o.c o.ty.memRegs && o.d == 0
  | .lds o _ =>
    o.ty != .dx4 && o.ty != .dx8 && o.order != .ar3 && o.scopeOk && Mem.isS o.a && o.b.sk && o.c == 0
  | .sts o =>
    o.ty != .dx4 && o.ty != .dx8 && o.order != .ar3 && o.scopeOk && o.space != .pm && Mem.isS o.a && o.b.sk
    && o.c == 0
  | .ldp o cc =>
    o.ty.isInt && o.order != .ar3 && o.scopeOk && Mem.isS o.a && o.b.sk && o.c == 0 && o.sh == 0
    && decide (cc.toNat < 8)
  | .atom o op =>
    atomOk op.toNat o.ty && o.order != .wk && o.scopeOk && o.space != .pm && o.a.fitsA 2 && o.b.fitsB 1 false
    && Reg.group o.d o.ty.regs && Reg.group o.c o.ty.regs
  | .acas o =>
    (o.ty == .i32 || o.ty == .n32 || o.ty == .f32 || o.ty.wide) && o.order != .wk && o.scopeOk
    && o.space != .pm && o.a.fitsA 2 && o.b.fitsB 1 false && Reg.group o.d o.ty.regs
    && Reg.group o.c (2 * o.ty.regs)
  | .red o op =>
    atomOk op.toNat o.ty && op != 6 && o.order != .wk && o.scopeOk && o.space != .pm && o.a.fitsA 2
    && o.b.fitsB 1 false && o.d == 0 && Reg.group o.c o.ty.regs
  | .fence _ _ order => order == .ar2 || order == .ar3
  | .prf o _ =>
    o.ty != .dx4 && o.order == .wk && o.space == .gl && o.a.fitsA 2 && o.b.fitsB 1 false && o.d == 0 && o.c == 0
  | .lease o cls =>
    o.ty != .dx4 && o.order == .wk && o.space == .gl && o.a.fitsA 2 && o.b.fitsB 1 false && o.d == 0 && o.c == 0
    && o.scope == .cr && (decide (cls.toNat ≤ 10) || cls == 15)
  | .tsget _ _ _ _ => true
  | .barInit o => o.ok && o.b.sk && !o.drop && decide (o.scope.toNat < 6) && o.d == 0
  | .barArr o => o.ok && o.b.none && o.scope == 0
  | .barExp o | .barWait o => o.ok && o.plainB
  | .barTry o => o.ok && o.b.sk && !o.drop && o.scope == 0 && o.d.is7
  | .bsync _ _ => true
  | .wellPush _ _ nreg c => Reg.group c (2 ^ nreg.toNat)
  | .wellPop _ _ nreg _ d => Reg.group d (2 ^ nreg.toNat)
  | .wellTpush _ _ a => a.is7
  | .wellTpop _ _ _ d => d.is7
  | .wellCfg _ _ _ _ => true
  | .batchClose _ _ => true
  | .batchWait _ _ b => b.sk
  | .cpyG2s o | .cpyS2g o | .cpyG2g o => o.ok false false false false false && o.b == 0
  | .cpyMcast o => o.ok false false false false false && o.bsp
  | .cpyT2d o => o.ok false false false true false && o.b.toNat % 2 == 0
  | .cpyGather o => o.ok false true true true false && o.esz != 7 && o.b.toNat % 2 == 0
  | .cpyRed o => o.ok false false false true true && redOk o.op.toNat o.ty && o.b == 0
  | .cpyDom o => o.ok true false false true false && !(o.rb && o.bsp)
  | .cpySwr o =>
    o.ok false true false false true && o.b.toNat % 2 == 0 && decide (o.op.toNat ≤ 2)
    && (o.ty == .f32 || o.ty == .bf16 || o.ty == .f16 || o.ty == .i32 || o.ty == .n32)
  | .cpyStat _ _ => true
  | .ctrInit o => o.d == 0 && (match o.b with | .s r => r.toNat % 2 == 0 | _ => false)
  | .ctrTake o => o.d.is7 && o.b.sk
  | .ctrGive o | .ctrCap o => o.d == 0 && o.b.sk
  | .ctrRead o | .ctrReadx o | .ctrDrain o => o.b.none
  | .cmbOpen _ _ _ _ _ => true
  | .cmbPut _ _ _ _ b c => b.toNat % 2 == 0 && Reg.group c 2
  | .cmbStat _ lates _ _ b => if lates then b.none else b.sk
  | .cmbClose _ _ _ b => b.sk
  | .cmbCfg _ _ _ => true
  | .tcfg _ d _ => d.is7
  | .tcfgr _ _ a => a.is7
  | .tld _ scope order space _ d _ _ => d.is7 && order != .ar3 && (space != .sp || scope == .cr || scope == .gg)
  | .tst _ scope order space hs d _ b =>
    d.is7 && order != .ar3 && space != .pm && (space != .sp || scope == .cr || scope == .gg)
    && (!hs || b.toNat % 2 == 0)
  | .tzero _ d => d.is7
  | .tmov _ d a | .mtr _ d a => d.is7 && a.is7
  | .tv2t _ nreg d a b => d.is7 && Reg.group a (2 ^ nreg.toNat) && b.sk
  | .tt2v _ nreg hs d a b =>
    a.is7 && Reg.group d (2 ^ nreg.toNat)
    && (if hs then (match b with | .s r => r.toNat % 2 == 0 | _ => false) else b.sk)
  | .mma _ _ msk _ mq _ d a b _ => d.is7 && a.is7 && b.is7 && (msk || mq == 0)
  | .tquant _ _ d a b _ => d.is7 && a.is7 && Reg.group b 4
  | .tcvt _ _ d a b _ => d.is7 && a.is7 && Reg.group b 4
  | .hist _ a _ => a.is7
  | .tred _ op rnd _ a b => a.is7 && decide (op.toNat ≤ 8) && (decide (6 ≤ op.toNat) || rnd == .rne) && b.sk
  | .tadd _ op rnd sat d a b =>
    d.is7 && a.is7 && b.is7 && decide (op.toNat ≤ 4) && (decide (op.toNat ≤ 2) || (rnd == .rne && !sat))
  | .tmulv _ _ _ _ d a _ _ => d.is7 && a.is7
  | .csrr _ _ num => decide (num.toNat ≤ 5)
  | .csrw _ num _ | .csrwSet _ num _ | .csrwClr _ num _ => num == 0
  | .launch _ _ _ b => b.sk
  | .reord _ _ b => Reg.group b 2
  | .idemBegin _ | .idemEnd _ | .hret _ | .hresume _ | .hkill _ _ => true
  | .hwinR _ _ _ | .hwinW _ _ _ => true
  | .sleep _ b => b.sk
  | .clkr _ k _ => decide (k.toNat < 2)
  | .axLoop h p n => h.slice && (!p || decide (n.toNat < 4096)) && (p || n != 0)
  | .axEnd h | .axHalt h => h.slice
  | .axBase h d _ _ => h.slice && d.is7
  | .axStrd h p d _ imm => h.slice && d.is7 && (!p || decide (imm.toNat < 4096))
  | .axLd h d a => h.slice && decide (d.toNat < 16) && a.is7
  | .axLdt h d a b c => h.slice && decide (d.toNat < 16) && a.is7 && decide (b.toNat < 16) && c.is7
  | .axSig h _ => h.slice
  | i => match i.xHalf with
    | some (_, x, y) => pairOk x y
    | none => false

end Sys2Proof
end

