-- ==== Sys2Proof/Decode.lean ====
section
/-! DEFINITION. The decoder: from bytes to an instruction, or a rejection by name; and the encoder. The fields
of the full form are those of R132, of the paired form those of R135; MOD layouts are those of R147, R155, R162,
R181, R198, R203, R224 and of the entries. The decoder reads every field of a word, builds the instruction, and
accepts it when it is well formed and its encoding is the word: so a nonzero unused field or an undefined MOD bit
is refused (R4, R134, R150). -/

namespace Sys2Proof

/-- The fields of a full-form word (R132). -/
structure Raw where
  stall : BitVec 4
  pn : Bool
  pred : BitVec 3
  op : BitVec 8
  d : Reg
  a : Reg
  b : Reg
  c : Reg
  aS : Bool
  bS : Bool
  bK : Bool
  mod : BitVec 20
  deriving DecidableEq, Repr

/-- Bits `lo` to `lo + len - 1` of a number. -/
def bitsAt (w lo len : Nat) : Nat := w / 2 ^ lo % 2 ^ len

/-- Fields of the given lengths side by side, the first at bit 0. -/
def place : List (Nat × Nat) → Nat
  | [] => 0
  | (len, v) :: t => v + 2 ^ len * place t

/-- The full-form word of its fields; FORM is 0. -/
def Raw.pack (r : Raw) : W64 :=
  BitVec.ofNat 64 (place [(20, r.mod.toNat), (1, r.bK.toNat), (1, r.bS.toNat), (1, r.aS.toNat), (6, r.c.toNat),
    (6, r.b.toNat), (6, r.a.toNat), (6, r.d.toNat), (8, r.op.toNat), (3, r.pred.toNat), (1, r.pn.toNat),
    (4, r.stall.toNat)])

/-- The fields of a full-form word. -/
def Raw.unpack (w : W64) : Raw :=
  { mod := BitVec.ofNat 20 (bitsAt w.toNat 0 20), bK := bitsAt w.toNat 20 1 == 1, bS := bitsAt w.toNat 21 1 == 1,
    aS := bitsAt w.toNat 22 1 == 1, c := BitVec.ofNat 6 (bitsAt w.toNat 23 6),
    b := BitVec.ofNat 6 (bitsAt w.toNat 29 6), a := BitVec.ofNat 6 (bitsAt w.toNat 35 6),
    d := BitVec.ofNat 6 (bitsAt w.toNat 41 6), op := BitVec.ofNat 8 (bitsAt w.toNat 47 8),
    pred := BitVec.ofNat 3 (bitsAt w.toNat 55 3), pn := bitsAt w.toNat 58 1 == 1,
    stall := BitVec.ofNat 4 (bitsAt w.toNat 59 4) }

/-- The type of a 4-bit code (R147). -/
def Ty.ofBits (n : Nat) : Ty := (Ty.ofCode (n % 16)).getD .i8
/-- The scope of a 3-bit code; the codes 6 and 7 name none, and a word with one of them is refused. -/
def Scope.ofBits (n : Nat) : Scope := (Scope.ofCode n).getD .sy
/-- The space of a 2-bit code; the code 3 names none, and a word with it is refused. -/
def Space.ofBits (n : Nat) : Space := (Space.ofCode n).getD .pm

def Opnd.idx : Opnd → Reg
  | .v n | .s n | .k n => n
def Opnd.isS : Opnd → Bool
  | .s _ => true
  | _ => false
def Opnd.isK : Opnd → Bool
  | .k _ => true
  | _ => false

def Raw.hdr (r : Raw) : Hdr := { stall := r.stall, pn := r.pn, pred := r.pred }
def Raw.opA (r : Raw) : Opnd := if r.aS then .s r.a else .v r.a
def Raw.opB (r : Raw) : Opnd := if r.bK then .k r.b else if r.bS then .s r.b else .v r.b
/-- The MOD bits `lo` to `lo + len - 1`. -/
def Raw.m (r : Raw) (lo len : Nat) : Nat := bitsAt r.mod.toNat lo len
def Raw.mb (r : Raw) (lo : Nat) : Bool := r.m lo 1 == 1
def Raw.mv (r : Raw) (lo len : Nat) : BitVec len := BitVec.ofNat len (r.m lo len)
def Raw.ty (r : Raw) : Ty := Ty.ofBits (r.m 0 4)

/-- A word with the given header, opcode and MOD fields, and no operand. -/
def Raw.mk0 (h : Hdr) (op : Nat) (mod : List (Nat × Nat)) : Raw :=
  { stall := h.stall, pn := h.pn, pred := h.pred, op := BitVec.ofNat 8 op, d := 0, a := 0, b := 0, c := 0,
    aS := false, bS := false, bK := false, mod := BitVec.ofNat 20 (place mod) }
def Raw.wD (r : Raw) (d : Reg) : Raw := { r with d := d }
def Raw.wA (r : Raw) (a : Reg) : Raw := { r with a := a }
def Raw.wAs (r : Raw) (a : Reg) : Raw := { r with a := a, aS := true }
def Raw.wB (r : Raw) (b : Reg) : Raw := { r with b := b }
def Raw.wBs (r : Raw) (b : Reg) : Raw := { r with b := b, bS := true }
def Raw.wC (r : Raw) (c : Reg) : Raw := { r with c := c }
def Raw.wOA (r : Raw) (o : Opnd) : Raw := { r with a := o.idx, aS := o.isS }
def Raw.wOB (r : Raw) (o : Opnd) : Raw := { r with b := o.idx, bS := o.isS, bK := o.isK }

/-- Integer and logic words: [19] SC, [11:4] XM, [3:0] TYPE (R155). -/
def Alu.raw (op : Nat) (o : Alu) (xm : Nat) : Raw :=
  ((((Raw.mk0 o.h op [(4, o.ty.code), (8, xm), (7, 0), (1, o.sc.toNat)]).wD o.d).wOA o.a).wOB o.b).wC o.c
def Raw.alu (r : Raw) : Alu :=
  { h := r.hdr, sc := r.mb 19, ty := r.ty, d := r.d, a := r.opA, b := r.opB, c := r.c }

/-- Floating-point words: the arithmetic layout of R147, with bits [16:13] of the entry (R162). -/
def Flt.raw (op : Nat) (o : Flt) (ext : Nat) : Raw :=
  ((((Raw.mk0 o.h op [(4, o.ty.code), (2, o.rnd.code), (1, o.sat.toNat), (1, o.na.toNat), (1, o.aa.toNat),
    (1, o.nb.toNat), (1, o.ab.toNat), (1, o.nc.toNat), (1, o.ac.toNat), (4, ext)]).wD o.d).wOA o.a).wOB o.b).wC o.c
def Raw.flt (r : Raw) : Flt :=
  { h := r.hdr, ty := r.ty, rnd := Rnd.ofCode (r.m 4 2), sat := r.mb 6, na := r.mb 7, aa := r.mb 8, nb := r.mb 9,
    ab := r.mb 10, nc := r.mb 11, ac := r.mb 12, d := r.d, a := r.opA, b := r.opB, c := r.c }

/-- Memory words: the layout of R181. -/
def Mem.raw (op : Nat) (o : Mem) (line : Bool) (x : Nat) : Raw :=
  ((((Raw.mk0 o.h op [(4, o.ty.code), (3, o.scope.code), (2, o.order.code), (2, o.space.code), (3, o.sh.toNat),
    (1, line.toNat), (4, x)]).wD o.d).wOA o.a).wOB o.b).wC o.c
def Raw.mem (r : Raw) : Mem :=
  { h := r.hdr, ty := r.ty, scope := Scope.ofBits (r.m 4 3), order := Order.ofCode (r.m 7 2),
    space := Space.ofBits (r.m 9 2), sh := r.mv 11 3, d := r.d, a := r.opA, b := r.opB, c := r.c }

/-- Barrier words: the layout of R198. -/
def Bar.raw (op : Nat) (o : Bar) : Raw :=
  (((Raw.mk0 o.h op [(4, 0), (3, o.scope.toNat), (2, 0), (2, o.scr.toNat), (1, o.rem.toNat), (2, o.rank.toNat),
    (1, o.drop.toNat)]).wD o.d).wAs o.a).wOB o.b
def Raw.bar (r : Raw) : Bar :=
  { h := r.hdr, drop := r.mb 14, rank := r.mv 12 2, rem := r.mb 11, scr := r.mb 9, scope := r.mv 4 3, d := r.d,
    a := r.a, b := r.opB }

/-- Copy commands: the layout of R203; `hasB` when the command takes a B group (R206). -/
def Cpy.raw (op : Nat) (o : Cpy) (hasB : Bool) : Raw :=
  { ((Raw.mk0 o.h op [(4, o.ty.code), (4, o.op.toNat), (1, o.bsp.toNat), (1, o.dir.toNat), (3, o.esz.toNat),
      (1, o.xb.toNat), (1, o.rb.toNat)]).wAs o.a).wB o.b with bS := hasB }
def Raw.cpy (r : Raw) : Cpy :=
  { h := r.hdr, rb := r.mb 14, xb := r.mb 13, esz := r.mv 10 3, dir := r.mb 9, bsp := r.mb 8, op := r.mv 4 4,
    ty := r.ty, a := r.a, b := r.b }

/-- Counter words (R215). -/
def Ctr.raw (op : Nat) (o : Ctr) : Raw := (((Raw.mk0 o.h op []).wD o.d).wAs o.a).wOB o.b
def Raw.ctr (r : Raw) : Ctr := { h := r.hdr, d := r.d, a := r.a, b := r.opB }

def Target.raw (h : Hdr) (f : Reg) : Target → Raw
  | .rel off => (Raw.mk0 h 0x53 [(20, off.toNat)]).wD f
  | .reg a => ((Raw.mk0 h 0x53 []).wD f).wAs a
def ItemRef.raw (h : Hdr) (op : Nat) : ItemRef → Raw
  | .imm n => Raw.mk0 h op [(12, n.toNat)]
  | .reg b => (Raw.mk0 h op []).wBs b
def Raw.item (r : Raw) : ItemRef := if r.bS then .reg r.b else .imm (r.mv 0 12)

/-- The fields of a half instruction (R135). -/
structure HRaw where
  hop : BitVec 6
  d : Reg
  a : Reg
  ak : Bool
  aS : Bool
  pred : BitVec 3
  pn : Bool
  hm : BitVec 6
  deriving DecidableEq, Repr

def HRaw.pack (r : HRaw) : Nat :=
  place [(6, r.hm.toNat), (1, r.pn.toNat), (3, r.pred.toNat), (1, r.aS.toNat), (1, r.ak.toNat), (6, r.a.toNat),
    (6, r.d.toNat), (6, r.hop.toNat)]
def HRaw.unpack (n : Nat) : HRaw :=
  { hm := BitVec.ofNat 6 (bitsAt n 0 6), pn := bitsAt n 6 1 == 1, pred := BitVec.ofNat 3 (bitsAt n 7 3),
    aS := bitsAt n 10 1 == 1, ak := bitsAt n 11 1 == 1, a := BitVec.ofNat 6 (bitsAt n 12 6),
    d := BitVec.ofNat 6 (bitsAt n 18 6), hop := BitVec.ofNat 6 (bitsAt n 24 6) }

/-- The half opcodes of R149. -/
def Half.hop : Half → Nat
  | .hnop _ => 0x00 | .hmov _ => 0x01 | .hiadd _ => 0x02 | .hisub _ => 0x03 | .himul _ => 0x04 | .hand _ => 0x05
  | .hor _ => 0x06 | .hxor _ => 0x07 | .hshl _ => 0x08 | .hshr _ => 0x09 | .hsar _ => 0x0A | .himin _ => 0x0B
  | .himax _ => 0x0C | .hfadd _ => 0x0D | .hfsub _ => 0x0E | .hfmul _ => 0x0F | .hfmin _ => 0x10
  | .hfmax _ => 0x11 | .hicmp _ => 0x12 | .hfcmp _ => 0x13 | .hsel _ => 0x14 | .hneg _ => 0x15 | .habs _ => 0x16
  | .hfneg _ => 0x17 | .hf2i _ => 0x18 | .hi2f _ => 0x19 | .hpopc _ => 0x1A | .hclz _ => 0x1B | .hmrd _ => 0x1C
  | .hs2v _ => 0x1D | .hshflx _ => 0x1E

def Half.ofHop (o : HOp) : Nat → Option Half
  | 0x00 => some (.hnop o) | 0x01 => some (.hmov o) | 0x02 => some (.hiadd o) | 0x03 => some (.hisub o)
  | 0x04 => some (.himul o) | 0x05 => some (.hand o) | 0x06 => some (.hor o) | 0x07 => some (.hxor o)
  | 0x08 => some (.hshl o) | 0x09 => some (.hshr o) | 0x0A => some (.hsar o) | 0x0B => some (.himin o)
  | 0x0C => some (.himax o) | 0x0D => some (.hfadd o) | 0x0E => some (.hfsub o) | 0x0F => some (.hfmul o)
  | 0x10 => some (.hfmin o) | 0x11 => some (.hfmax o) | 0x12 => some (.hicmp o) | 0x13 => some (.hfcmp o)
  | 0x14 => some (.hsel o) | 0x15 => some (.hneg o) | 0x16 => some (.habs o) | 0x17 => some (.hfneg o)
  | 0x18 => some (.hf2i o) | 0x19 => some (.hi2f o) | 0x1A => some (.hpopc o) | 0x1B => some (.hclz o)
  | 0x1C => some (.hmrd o) | 0x1D => some (.hs2v o) | 0x1E => some (.hshflx o)
  | _ => none

def Half.raw (h : Half) : HRaw :=
  { hop := BitVec.ofNat 6 h.hop, d := h.o.d, a := h.o.a.idx, ak := h.o.a.isK, aS := h.o.a.isS, pred := h.o.pred,
    pn := h.o.pn, hm := h.o.hm }
def HRaw.half (r : HRaw) : Option Half :=
  Half.ofHop ⟨r.d, if r.ak then .k r.a else if r.aS then .s r.a else .v r.a, r.pred, r.pn, r.hm⟩ r.hop.toNat

/-- Opcodes 0x00 to 0x1F. -/
def Raw.instrInt (r : Raw) (lit : W64) : Nat → Option Instr
  | 0x00 => some (.nop r.hdr)
  | 0x01 => some (.mov r.alu)
  | 0x02 => some (.movl r.hdr (r.mb 19) r.ty r.d lit)
  | 0x03 => some (.sel r.alu (r.mv 4 3) (r.mb 7))
  | 0x04 => some (.iadd r.alu)
  | 0x05 => some (.isub r.alu)
  | 0x06 => some (.imul r.alu)
  | 0x07 => some (.imulh r.alu)
  | 0x08 => some (.imad r.alu)
  | 0x09 => some (.idiv r.alu)
  | 0x0A => some (.irem r.alu)
  | 0x0B => some (.imin r.alu)
  | 0x0C => some (.imax r.alu)
  | 0x0D => some (.iabs r.alu (r.mb 6))
  | 0x0E => some (.iaddsat r.alu)
  | 0x0F => some (.isubsat r.alu)
  | 0x10 => some (.and r.alu)
  | 0x11 => some (.or r.alu)
  | 0x12 => some (.xor r.alu)
  | 0x13 => some (.andn r.alu)
  | 0x14 => some (.shl r.alu)
  | 0x15 => some (.shr r.alu)
  | 0x16 => some (.sar r.alu)
  | 0x17 => some (.rot r.alu)
  | 0x18 => some (.bfe r.alu (r.mv 4 8))
  | 0x19 => some (.bfi r.alu (r.mv 4 8))
  | 0x1A => some (.popc r.alu)
  | 0x1B => some (.clz r.alu)
  | 0x1C => some (.brev r.alu)
  | 0x1D => some (.icmp r.alu (r.mv 4 3))
  | 0x1E => some (.lea r.alu (r.mv 4 4) (r.mb 8))
  | 0x1F => some (.prmt r.alu)
  | _ => none

/-- Opcodes 0x20 to 0x3F. -/
def Raw.instrFlt (r : Raw) : Nat → Option Instr
  | 0x20 => some (.fadd r.flt)
  | 0x21 => some (.fsub r.flt)
  | 0x22 => some (.fmul r.flt)
  | 0x23 => some (.fma r.flt)
  | 0x24 => some (.fmin r.flt)
  | 0x25 => some (.fmax r.flt)
  | 0x26 => some (.fdiv r.flt)
  | 0x27 => some (.fsqrt r.flt)
  | 0x28 => some (.frcp r.flt)
  | 0x29 => some (.frsq r.flt)
  | 0x2A => some (.fexp2 r.flt)
  | 0x2B => some (.flog2 r.flt)
  | 0x2C => some (.fsin r.flt)
  | 0x2D => some (.fcos r.flt)
  | 0x2E => some (.fcmp r.flt (r.mv 13 4))
  | 0x2F => some (.fclass r.flt)
  | 0x30 => some (.fscale r.flt)
  | 0x31 => some (.fround r.flt)
  | 0x32 => some (.f2f r.flt (Ty.ofBits (r.m 13 4)))
  | 0x33 => some (.f2i r.flt (Ty.ofBits (r.m 13 4)))
  | 0x34 => some (.i2f r.flt (Ty.ofBits (r.m 13 4)))
  | 0x35 => some (.fdot2 r.flt (Ty.ofBits (r.m 13 4)))
  | 0x36 => some (.fma2 r.flt)
  | _ => none

/-- Opcodes 0x40 to 0x5F. -/
def Raw.instrLane (r : Raw) : Nat → Option Instr
  | 0x40 => some (.shfl r.hdr r.ty (r.mv 4 2) (r.mv 6 3) r.d r.a r.opB)
  | 0x41 => some (.vote r.hdr (r.mv 4 2) (r.mb 6) r.d r.a)
  | 0x42 => some (.redux r.hdr r.ty (r.mv 4 4) (Rnd.ofCode (r.m 8 2)) r.d r.a)
  | 0x43 => some (.scan r.hdr r.ty (r.mv 4 4) (Rnd.ofCode (r.m 8 2)) (r.mb 10) r.d r.a)
  | 0x44 => some (.mrd r.hdr (r.mb 4) r.d r.a)
  | 0x45 => some (.s2v r.hdr r.ty r.d r.a)
  | 0x46 => some (.v2s r.hdr r.ty (r.mb 4) r.d r.a r.opB)
  | 0x47 => some (.pmov r.hdr (r.mv 0 4) (r.mv 4 2) r.d r.a r.b)
  | 0x48 => some (.rng r.hdr r.ty r.d r.a r.opB)
  | 0x49 => some (.pack r.flt)
  | 0x4A => some (.unpack r.flt)
  | 0x50 => some (.bra r.hdr r.mod)
  | 0x51 => some (.brx r.hdr r.opA)
  | 0x52 => some (.join r.hdr)
  | 0x53 => some (.call r.hdr r.d (if r.aS then .reg r.a else .rel r.mod))
  | 0x54 => some (.ret r.hdr r.d r.a)
  | 0x55 => some (.exit r.hdr)
  | 0x56 => some (.yield r.hdr)
  | 0x57 => some (.loop r.hdr r.d r.mod)
  | 0x58 => some (.kill r.hdr)
  | 0x59 => some (.trapi r.hdr (r.mv 0 16))
  | 0x5A => some (.tfence r.hdr (r.mv 0 5))
  | _ => none

/-- Opcodes 0x60 to 0x8F. -/
def Raw.instrMem (r : Raw) : Nat → Option Instr
  | 0x60 => some (.ld r.mem (r.mb 14))
  | 0x61 => some (.st r.mem)
  | 0x62 => some (.lds r.mem (r.mb 14))
  | 0x63 => some (.sts r.mem)
  | 0x64 => some (.ldp r.mem (r.mv 15 4))
  | 0x65 => some (.atom r.mem (r.mv 15 4))
  | 0x66 => some (.acas r.mem)
  | 0x67 => some (.red r.mem (r.mv 15 4))
  | 0x68 => some (.fence r.hdr (Scope.ofBits (r.m 4 3)) (Order.ofCode (r.m 7 2)))
  | 0x69 => some (.prf r.mem (r.mb 14))
  | 0x6A => some (.lease r.mem (r.mv 15 4))
  | 0x6B => some (.tsget r.hdr (r.mb 0) r.d r.a)
  | 0x80 => some (.barInit r.bar)
  | 0x81 => some (.barArr r.bar)
  | 0x82 => some (.barExp r.bar)
  | 0x83 => some (.barWait r.bar)
  | 0x84 => some (.barTry r.bar)
  | 0x85 => some (.bsync r.hdr (r.mv 0 2))
  | 0x86 => some (.wellPush r.hdr (r.mv 0 4) (r.mv 4 2) r.c)
  | 0x87 => some (.wellPop r.hdr (r.mv 0 4) (r.mv 4 2) (r.mv 6 3) r.d)
  | 0x88 => some (.wellTpush r.hdr (r.mv 0 4) r.a)
  | 0x89 => some (.wellTpop r.hdr (r.mv 0 4) (r.mv 6 3) r.d)
  | 0x8A => some (.wellCfg r.hdr (r.mv 0 4) r.a r.b)
  | 0x8B => some (.batchClose r.hdr r.d)
  | 0x8C => some (.batchWait r.hdr r.d r.opB)
  | _ => none

/-- Opcodes 0x90 to 0xAF. -/
def Raw.instrCpy (r : Raw) : Nat → Option Instr
  | 0x90 => some (.cpyG2s r.cpy)
  | 0x91 => some (.cpyS2g r.cpy)
  | 0x92 => some (.cpyG2g r.cpy)
  | 0x93 => some (.cpyMcast r.cpy)
  | 0x94 => some (.cpyT2d r.cpy)
  | 0x95 => some (.cpyGather r.cpy)
  | 0x96 => some (.cpyRed r.cpy)
  | 0x97 => some (.cpyDom r.cpy)
  | 0x98 => some (.cpySwr r.cpy)
  | 0x99 => some (.cpyStat r.hdr r.d)
  | 0xA0 => some (.ctrInit r.ctr)
  | 0xA1 => some (.ctrTake r.ctr)
  | 0xA2 => some (.ctrGive r.ctr)
  | 0xA3 => some (.ctrRead r.ctr)
  | 0xA4 => some (.ctrReadx r.ctr)
  | 0xA5 => some (.ctrCap r.ctr)
  | 0xA6 => some (.ctrDrain r.ctr)
  | 0xA7 => some (.cmbOpen r.hdr (r.mb 0) r.d r.a r.b)
  | 0xA8 => some (.cmbPut r.hdr (r.mb 0) r.d r.a r.b r.c)
  | 0xA9 => some (.cmbStat r.hdr (r.mb 0) r.d r.a r.opB)
  | 0xAA => some (.cmbClose r.hdr r.d r.a r.opB)
  | 0xAB => some (.cmbCfg r.hdr r.a r.b)
  | _ => none

/-- Opcodes 0xB0 to 0xFF. -/
def Raw.instrSys (r : Raw) : Nat → Option Instr
  | 0xB0 => some (.tcfg r.hdr r.d r.a)
  | 0xB1 => some (.tcfgr r.hdr r.d r.a)
  | 0xB2 => some (.tld r.hdr (Scope.ofBits (r.m 4 3)) (Order.ofCode (r.m 7 2)) (Space.ofBits (r.m 9 2)) (r.mb 11)
      r.d r.a r.b)
  | 0xB3 => some (.tst r.hdr (Scope.ofBits (r.m 4 3)) (Order.ofCode (r.m 7 2)) (Space.ofBits (r.m 9 2)) (r.mb 12)
      r.d r.a r.b)
  | 0xB4 => some (.tzero r.hdr r.d)
  | 0xB5 => some (.tmov r.hdr r.d r.a)
  | 0xB6 => some (.tv2t r.hdr (r.mv 0 2) r.d r.a r.opB)
  | 0xB7 => some (.tt2v r.hdr (r.mv 0 2) (r.mb 2) r.d r.a r.opB)
  | 0xB8 => some (.mma r.hdr (r.mv 0 2) (r.mb 2) (r.mb 3) (r.mv 4 4) (r.mv 8 3) r.d r.a r.b r.c)
  | 0xB9 => some (.mtr r.hdr r.d r.a)
  | 0xBA => some (.tquant r.hdr (r.mv 0 2) r.d r.a r.b r.c)
  | 0xBB => some (.tcvt r.hdr (r.mv 0 2) r.d r.a r.b r.c)
  | 0xBC => some (.hist r.hdr r.a r.b)
  | 0xBD => some (.tred r.hdr (r.mv 4 4) (Rnd.ofCode (r.m 8 2)) r.d r.a r.opB)
  | 0xBE => some (.tadd r.hdr (r.mv 4 4) (Rnd.ofCode (r.m 8 2)) (r.mb 10) r.d r.a r.b)
  | 0xBF => some (.tmulv r.hdr (r.mb 4) (Rnd.ofCode (r.m 8 2)) (r.mb 10) r.d r.a r.b r.c)
  | 0xD0 => some (.csrr r.hdr r.d (r.mv 0 12))
  | 0xD1 => match r.m 12 2 with
    | 0 => some (.csrw r.hdr (r.mv 0 12) r.a)
    | 1 => some (.csrwSet r.hdr (r.mv 0 12) r.a)
    | _ => some (.csrwClr r.hdr (r.mv 0 12) r.a)
  | 0xD2 => some (.launch r.hdr r.d r.a r.opB)
  | 0xD3 => some (.reord r.hdr r.a r.b)
  | 0xD4 => some (if r.mb 0 then .idemEnd r.hdr else .idemBegin r.hdr)
  | 0xD5 => some (.hret r.hdr)
  | 0xD6 => some (.hwinR r.hdr r.d r.item)
  | 0xD7 => some (.hwinW r.hdr r.a r.item)
  | 0xD8 => some (.hresume r.hdr)
  | 0xD9 => some (.hkill r.hdr (r.mb 0))
  | 0xDA => some (.sleep r.hdr r.opB)
  | 0xDB => some (.clkr r.hdr (r.mv 0 2) r.d)
  | 0xE0 => some (.axLoop r.hdr (r.mb 19) (r.mv 0 16))
  | 0xE1 => some (.axEnd r.hdr)
  | 0xE2 => some (.axBase r.hdr r.d (r.mv 12 2) (r.mv 0 12))
  | 0xE3 => some (.axStrd r.hdr (r.mb 19) r.d (r.mv 16 2) (r.mv 0 16))
  | 0xE4 => some (.axLd r.hdr r.d r.a)
  | 0xE5 => some (.axLdt r.hdr r.d r.a r.b r.c)
  | 0xE6 => some (.axSig r.hdr (r.mv 4 16))
  | 0xE7 => some (.axHalt r.hdr)
  | _ => none

/-- The instruction the opcode names, with the operands the fields give (R148). -/
def Raw.instr (r : Raw) (lit : W64) : Option Instr :=
  let n := r.op.toNat
  if n < 0x20 then r.instrInt lit n
  else if n < 0x40 then r.instrFlt n
  else if n < 0x60 then r.instrLane n
  else if n < 0x90 then r.instrMem n
  else if n < 0xB0 then r.instrCpy n
  else r.instrSys n

/-- The fields of an instruction's word; none for a paired word and for an event. -/
def Instr.raw : Instr → Option Raw
  | .nop h => some (Raw.mk0 h 0x00 [])
  | .mov o => some (o.raw 0x01 0)
  | .movl h sc ty d _ => some ((Raw.mk0 h 0x02 [(4, ty.code), (8, 0), (7, 0), (1, sc.toNat)]).wD d)
  | .sel o ps psn => some (o.raw 0x03 (place [(3, ps.toNat), (1, psn.toNat)]))
  | .iadd o => some (o.raw 0x04 0)
  | .isub o => some (o.raw 0x05 0)
  | .imul o => some (o.raw 0x06 0)
  | .imulh o => some (o.raw 0x07 0)
  | .imad o => some (o.raw 0x08 0)
  | .idiv o => some (o.raw 0x09 0)
  | .irem o => some (o.raw 0x0A 0)
  | .imin o => some (o.raw 0x0B 0)
  | .imax o => some (o.raw 0x0C 0)
  | .iabs o sat => some (o.raw 0x0D (4 * sat.toNat))
  | .iaddsat o => some (o.raw 0x0E 0)
  | .isubsat o => some (o.raw 0x0F 0)
  | .and o => some (o.raw 0x10 0)
  | .or o => some (o.raw 0x11 0)
  | .xor o => some (o.raw 0x12 0)
  | .andn o => some (o.raw 0x13 0)
  | .shl o => some (o.raw 0x14 0)
  | .shr o => some (o.raw 0x15 0)
  | .sar o => some (o.raw 0x16 0)
  | .rot o => some (o.raw 0x17 0)
  | .bfe o len => some (o.raw 0x18 len.toNat)
  | .bfi o len => some (o.raw 0x19 len.toNat)
  | .popc o => some (o.raw 0x1A 0)
  | .clz o => some (o.raw 0x1B 0)
  | .brev o => some (o.raw 0x1C 0)
  | .icmp o cc => some (o.raw 0x1D cc.toNat)
  | .lea o sh sx => some (o.raw 0x1E (place [(4, sh.toNat), (1, sx.toNat)]))
  | .prmt o => some (o.raw 0x1F 0)
  | .fadd o => some (o.raw 0x20 0)
  | .fsub o => some (o.raw 0x21 0)
  | .fmul o => some (o.raw 0x22 0)
  | .fma o => some (o.raw 0x23 0)
  | .fmin o => some (o.raw 0x24 0)
  | .fmax o => some (o.raw 0x25 0)
  | .fdiv o => some (o.raw 0x26 0)
  | .fsqrt o => some (o.raw 0x27 0)
  | .frcp o => some (o.raw 0x28 0)
  | .frsq o => some (o.raw 0x29 0)
  | .fexp2 o => some (o.raw 0x2A 0)
  | .flog2 o => some (o.raw 0x2B 0)
  | .fsin o => some (o.raw 0x2C 0)
  | .fcos o => some (o.raw 0x2D 0)
  | .fcmp o cc => some (o.raw 0x2E cc.toNat)
  | .fclass o => some (o.raw 0x2F 0)
  | .fscale o => some (o.raw 0x30 0)
  | .fround o => some (o.raw 0x31 0)
  | .f2f o src => some (o.raw 0x32 src.code)
  | .f2i o src => some (o.raw 0x33 src.code)
  | .i2f o src => some (o.raw 0x34 src.code)
  | .fdot2 o src => some (o.raw 0x35 src.code)
  | .fma2 o => some (o.raw 0x36 0)
  | .shfl h ty mode seg d a b =>
    some ((((Raw.mk0 h 0x40 [(4, ty.code), (2, mode.toNat), (3, seg.toNat)]).wD d).wA a).wOB b)
  | .vote h mode negs d a =>
    some (((Raw.mk0 h 0x41 [(4, 0), (2, mode.toNat), (1, negs.toNat)]).wD d).wA a)
  | .redux h ty op rnd d a =>
    some (((Raw.mk0 h 0x42 [(4, ty.code), (4, op.toNat), (2, rnd.code)]).wD d).wA a)
  | .scan h ty op rnd excl d a =>
    some (((Raw.mk0 h 0x43 [(4, ty.code), (4, op.toNat), (2, rnd.code), (1, excl.toNat)]).wD d).wA a)
  | .mrd h ds d num => some (((Raw.mk0 h 0x44 [(4, 0), (1, ds.toNat)]).wD d).wA num)
  | .s2v h ty d a => some (((Raw.mk0 h 0x45 [(4, ty.code)]).wD d).wAs a)
  | .v2s h ty first d a b => some ((((Raw.mk0 h 0x46 [(4, ty.code), (1, first.toNat)]).wD d).wA a).wOB b)
  | .pmov h lut dir d a b =>
    some { (((Raw.mk0 h 0x47 [(4, lut.toNat), (2, dir.toNat)]).wD d).wA a).wB b with aS := dir == 2 }
  | .rng h ty d a b => some ((((Raw.mk0 h 0x48 [(4, ty.code)]).wD d).wAs a).wOB b)
  | .pack o => some (o.raw 0x49 0)
  | .unpack o => some (o.raw 0x4A 0)
  | .bra h off => some (Raw.mk0 h 0x50 [(20, off.toNat)])
  | .brx h a => some ((Raw.mk0 h 0x51 []).wOA a)
  | .join h => some (Raw.mk0 h 0x52 [])
  | .call h f t => some (t.raw h f)
  | .ret h f a => some (((Raw.mk0 h 0x54 []).wD f).wAs a)
  | .exit h => some (Raw.mk0 h 0x55 [])
  | .yield h => some (Raw.mk0 h 0x56 [])
  | .loop h d off => some ((Raw.mk0 h 0x57 [(20, off.toNat)]).wD d)
  | .kill h => some (Raw.mk0 h 0x58 [])
  | .trapi h n => some (Raw.mk0 h 0x59 [(16, n.toNat)])
  | .tfence h mask => some (Raw.mk0 h 0x5A [(5, mask.toNat)])
  | .ld o line => some (o.raw 0x60 line 0)
  | .st o => some (o.raw 0x61 false 0)
  | .lds o line => some (o.raw 0x62 line 0)
  | .sts o => some (o.raw 0x63 false 0)
  | .ldp o cc => some (o.raw 0x64 false cc.toNat)
  | .atom o op => some (o.raw 0x65 false op.toNat)
  | .acas o => some (o.raw 0x66 false 0)
  | .red o op => some (o.raw 0x67 false op.toNat)
  | .fence h scope order => some (Raw.mk0 h 0x68 [(4, 0), (3, scope.code), (2, order.code)])
  | .prf o line => some (o.raw 0x69 line 0)
  | .lease o cls => some (o.raw 0x6A false cls.toNat)
  | .tsget h f d a => some (((Raw.mk0 h 0x6B [(1, f.toNat)]).wD d).wAs a)
  | .barInit o => some (o.raw 0x80)
  | .barArr o => some (o.raw 0x81)
  | .barExp o => some (o.raw 0x82)
  | .barWait o => some (o.raw 0x83)
  | .barTry o => some (o.raw 0x84)
  | .bsync h k => some (Raw.mk0 h 0x85 [(2, k.toNat)])
  | .wellPush h well nreg c => some ((Raw.mk0 h 0x86 [(4, well.toNat), (2, nreg.toNat)]).wC c)
  | .wellPop h well nreg pr d => some ((Raw.mk0 h 0x87 [(4, well.toNat), (2, nreg.toNat), (3, pr.toNat)]).wD d)
  | .wellTpush h well a => some ((Raw.mk0 h 0x88 [(4, well.toNat)]).wA a)
  | .wellTpop h well pr d => some ((Raw.mk0 h 0x89 [(4, well.toNat), (2, 0), (3, pr.toNat)]).wD d)
  | .wellCfg h well a b => some (((Raw.mk0 h 0x8A [(4, well.toNat)]).wAs a).wBs b)
  | .batchClose h d => some ((Raw.mk0 h 0x8B []).wD d)
  | .batchWait h d b => some (((Raw.mk0 h 0x8C []).wD d).wOB b)
  | .cpyG2s o => some (o.raw 0x90 false)
  | .cpyS2g o => some (o.raw 0x91 false)
  | .cpyG2g o => some (o.raw 0x92 false)
  | .cpyMcast o => some (o.raw 0x93 true)
  | .cpyT2d o => some (o.raw 0x94 true)
  | .cpyGather o => some (o.raw 0x95 true)
  | .cpyRed o => some (o.raw 0x96 false)
  | .cpyDom o => some (o.raw 0x97 true)
  | .cpySwr o => some (o.raw 0x98 true)
  | .cpyStat h d => some ((Raw.mk0 h 0x99 []).wD d)
  | .ctrInit o => some (o.raw 0xA0)
  | .ctrTake o => some (o.raw 0xA1)
  | .ctrGive o => some (o.raw 0xA2)
  | .ctrRead o => some (o.raw 0xA3)
  | .ctrReadx o => some (o.raw 0xA4)
  | .ctrCap o => some (o.raw 0xA5)
  | .ctrDrain o => some (o.raw 0xA6)
  | .cmbOpen h dsp d a b => some ((((Raw.mk0 h 0xA7 [(1, dsp.toNat)]).wD d).wAs a).wBs b)
  | .cmbPut h lt d a b c => some (((((Raw.mk0 h 0xA8 [(1, lt.toNat)]).wD d).wAs a).wBs b).wC c)
  | .cmbStat h lates d a b => some ((((Raw.mk0 h 0xA9 [(1, lates.toNat)]).wD d).wAs a).wOB b)
  | .cmbClose h d a b => some ((((Raw.mk0 h 0xAA []).wD d).wAs a).wOB b)
  | .cmbCfg h a b => some (((Raw.mk0 h 0xAB []).wAs a).wBs b)
  | .tcfg h d a => some (((Raw.mk0 h 0xB0 []).wD d).wAs a)
  | .tcfgr h d a => some (((Raw.mk0 h 0xB1 []).wD d).wA a)
  | .tld h scope order space zf d a b =>
    some ((((Raw.mk0 h 0xB2 [(4, 0), (3, scope.code), (2, order.code), (2, space.code), (1, zf.toNat)]).wD d).wAs
      a).wBs b)
  | .tst h scope order space hs d a b =>
    some ((((Raw.mk0 h 0xB3 [(4, 0), (3, scope.code), (2, order.code), (2, space.code), (1, 0), (1, hs.toNat)]).wD
      d).wAs a).wBs b)
  | .tzero h d => some ((Raw.mk0 h 0xB4 []).wD d)
  | .tmov h d a => some (((Raw.mk0 h 0xB5 []).wD d).wA a)
  | .tv2t h nreg d a b => some ((((Raw.mk0 h 0xB6 [(2, nreg.toNat)]).wD d).wA a).wOB b)
  | .tt2v h nreg hs d a b => some ((((Raw.mk0 h 0xB7 [(2, nreg.toNat), (1, hs.toNat)]).wD d).wA a).wOB b)
  | .mma h nsel msk zc mq scl d a b c =>
    some (((((Raw.mk0 h 0xB8 [(2, nsel.toNat), (1, msk.toNat), (1, zc.toNat), (4, mq.toNat), (3, scl.toNat)]).wD
      d).wA a).wB b).wC c)
  | .mtr h d a => some (((Raw.mk0 h 0xB9 []).wD d).wA a)
  | .tquant h soff d a b c => some (((((Raw.mk0 h 0xBA [(2, soff.toNat)]).wD d).wA a).wB b).wC c)
  | .tcvt h soff d a b c => some (((((Raw.mk0 h 0xBB [(2, soff.toNat)]).wD d).wA a).wB b).wC c)
  | .hist h a b => some (((Raw.mk0 h 0xBC []).wA a).wBs b)
  | .tred h op rnd d a b => some ((((Raw.mk0 h 0xBD [(4, 0), (4, op.toNat), (2, rnd.code)]).wD d).wA a).wOB b)
  | .tadd h op rnd sat d a b =>
    some ((((Raw.mk0 h 0xBE [(4, 0), (4, op.toNat), (2, rnd.code), (1, sat.toNat)]).wD d).wA a).wB b)
  | .tmulv h colm rnd sat d a b c =>
    some (((((Raw.mk0 h 0xBF [(4, 0), (1, colm.toNat), (3, 0), (2, rnd.code), (1, sat.toNat)]).wD d).wA a).wB b).wC c)
  | .csrr h d num => some ((Raw.mk0 h 0xD0 [(12, num.toNat)]).wD d)
  | .csrw h num a => some ((Raw.mk0 h 0xD1 [(12, num.toNat), (2, 0)]).wAs a)
  | .csrwSet h num a => some ((Raw.mk0 h 0xD1 [(12, num.toNat), (2, 1)]).wAs a)
  | .csrwClr h num a => some ((Raw.mk0 h 0xD1 [(12, num.toNat), (2, 2)]).wAs a)
  | .launch h d a b => some ((((Raw.mk0 h 0xD2 []).wD d).wAs a).wOB b)
  | .reord h a b => some (((Raw.mk0 h 0xD3 []).wA a).wB b)
  | .idemBegin h => some (Raw.mk0 h 0xD4 [(1, 0)])
  | .idemEnd h => some (Raw.mk0 h 0xD4 [(1, 1)])
  | .hret h => some (Raw.mk0 h 0xD5 [])
  | .hwinR h d item => some ((item.raw h 0xD6).wD d)
  | .hwinW h a item => some ((item.raw h 0xD7).wAs a)
  | .hresume h => some (Raw.mk0 h 0xD8 [])
  | .hkill h all => some (Raw.mk0 h 0xD9 [(1, all.toNat)])
  | .sleep h b => some ((Raw.mk0 h 0xDA []).wOB b)
  | .clkr h k d => some ((Raw.mk0 h 0xDB [(2, k.toNat)]).wD d)
  | .axLoop h p n => some (Raw.mk0 h 0xE0 [(16, n.toNat), (3, 0), (1, p.toNat)])
  | .axEnd h => some (Raw.mk0 h 0xE1 [])
  | .axBase h d g off => some ((Raw.mk0 h 0xE2 [(12, off.toNat), (2, g.toNat)]).wD d)
  | .axStrd h p d l imm => some ((Raw.mk0 h 0xE3 [(16, imm.toNat), (2, l.toNat), (1, 0), (1, p.toNat)]).wD d)
  | .axLd h d a => some (((Raw.mk0 h 0xE4 []).wD d).wA a)
  | .axLdt h d a b c => some (((((Raw.mk0 h 0xE5 []).wD d).wA a).wB b).wC c)
  | .axSig h off => some (Raw.mk0 h 0xE6 [(4, 0), (16, off.toNat)])
  | .axHalt h => some (Raw.mk0 h 0xE7 [])
  | _ => none

/-- The paired word of two halves: FORM 1, STALL, X, Y (R135). -/
def packPair (st : BitVec 3) (x y : Half) : W64 :=
  BitVec.ofNat 64 (place [(30, y.raw.pack), (30, x.raw.pack), (3, st.toNat), (1, 1)])

/-- The word of an instruction; 0 for an event, which has none. -/
def Instr.word (i : Instr) : W64 :=
  match i.raw with
  | some r => r.pack
  | none => match i.xHalf with
    | some (sl, x, y) => packPair sl x y
    | none => 0

/-- Why bytes are no instruction: fewer bytes than the instruction has, an opcode that is not assigned (R150), or
a field combination that no instruction has (R151 order 1). -/
inductive DecodeError where
  | short
  | unassigned (op : Nat)
  | illegalFields (op : Nat)
  deriving DecidableEq, Repr

/-- Whether a word is a full-form `movl`, which a literal word follows (R146). -/
def isMovl (w : W64) : Bool := !w.msb && (Raw.unpack w).op == 0x02

/-- The instruction a word encodes; `lit` is the word after it, which only `movl` reads (R146). -/
def decodeWord (w lit : W64) : Except DecodeError Instr :=
  if w.msb then
    let x := HRaw.unpack (bitsAt w.toNat 30 30)
    let y := HRaw.unpack (bitsAt w.toNat 0 30)
    match x.half, y.half with
    | some hx, some hy =>
      if pairOk hx hy && hx.raw == x && hy.raw == y then
        .ok (Half.toInstr (BitVec.ofNat 3 (bitsAt w.toNat 60 3)) hx hy)
      else .error (.illegalFields x.hop.toNat)
    | some _, none => .error (.unassigned y.hop.toNat)
    | none, _ => .error (.unassigned x.hop.toNat)
  else
    let r := Raw.unpack w
    match r.instr lit with
    | some i => if i.wf && i.raw == some r then .ok i else .error (.illegalFields r.op.toNat)
    | none => .error (.unassigned r.op.toNat)

/-- The bytes an instruction takes: 16 for `movl`, 8 for every other word (R130, R146). -/
def Instr.size : Instr → Nat
  | .movl _ _ _ _ _ => 16
  | _ => 8

/-- The little-endian word at the head of a byte list (R1, R130). -/
def wordOf : List Byte → Option (W64 × List Byte)
  | b0 :: b1 :: b2 :: b3 :: b4 :: b5 :: b6 :: b7 :: t =>
    some (b7 ++ b6 ++ b5 ++ b4 ++ b3 ++ b2 ++ b1 ++ b0, t)
  | _ => none

/-- The decoder: the instruction at the head of a byte list, and the bytes after it. -/
def decode (bs : List Byte) : Except DecodeError (Instr × List Byte) :=
  match wordOf bs with
  | none => .error .short
  | some (w, t) =>
    if isMovl w then
      match wordOf t with
      | none => .error .short
      | some (lit, u) => (decodeWord w lit).map (fun i => (i, u))
    else (decodeWord w 0).map (fun i => (i, t))

/-- The eight little-endian bytes of a word. -/
def bytesOf (w : W64) : List Byte := (List.range 8).map (fun k => w.extractLsb' (8 * k) 8)

/-- The encoder: the bytes of an instruction. -/
def encode (i : Instr) : List Byte :=
  match i with
  | .movl _ _ _ _ lit => bytesOf i.word ++ bytesOf lit
  | _ => bytesOf i.word

/-- The instruction whose bits are `w`: its first word is bits 63 to 0, its second, if it has one, bits 127 to 64;
every bit at `nbits` and above is 0. -/
def decodeTableWord (nbits w : Nat) : Option Instr :=
  let v := w % 2 ^ nbits
  match decode (bytesOf (BitVec.ofNat 64 v) ++ bytesOf (BitVec.ofNat 64 (v / 2 ^ 64))) with
  | .ok (i, _) => some i
  | .error _ => none

end Sys2Proof
end

