-- ==== Sys2Proof/Config.lean ====
section
/-! DEFINITION. What is fixed for one MZ-40 and the manual does not state: constants without a body, so that no
statement can rest on their values (18_fleet.md, 17_host_domain.md R384 to R386). -/

namespace Sys2Proof.Config

/-- The corrected response of the on-die PUF (R385). -/
opaque pufResponse : List Byte

/-- SHA-256 of the vendor's HSS public key, fused into the package (R384). -/
opaque vendorKeyHash : List Byte

/-- The digest of the ROM (R386). -/
opaque romDigest : List Byte

/-- The digest of the image a new package is shipped with (R386). -/
opaque factoryDigest : List Byte

/-- The fused security-version floor of a new package (R384). -/
opaque fusedFloor : BitVec 32

/-- The bytes that the manual leaves open in the part of an element past the end of a switch reduction whose LEN is not a
multiple of the element size (R212): by a counter of the state and the offset (log entry 4). -/
opaque swrTail : Nat → Nat → Byte

/-- The home die whose copy engine serves a command (R205, R368): the manual does not say how commands are spread over the
engines (log entry 4). -/
opaque engineDie : Nat → Nat

/-- Which of the clean spans leaves a cache that is full (R353): the manual gives no order; by a counter of the state and the
number of the eviction (log entry 4). -/
opaque evicted : Nat → Nat → Nat

/-- The blocks that a partition's block pool holds (R299): the driver allocates it with the partition, and no register gives its size
(log entry 28). -/
opaque blockPool : Nat → Nat

/-- The bytes of a gang's DET buffer area (R70, R315): its layout is the MZ-40's own; by entry and byte (log entry 27). -/
opaque detByte : Nat → Nat → Byte

/-- The vendor's 60-byte HSS public key (R384). -/
opaque vendorKey : List Byte

/-- The floor that the body of a configuration record names, if it names one; the manual gives no layout of a body (R384). -/
opaque recordFloor : List Byte → Option (BitVec 32)

/-- The randomizer of a signature (RFC 8554, chapter 4.5; R386), by level and index: the manual does not fix it. -/
opaque sigSalt : Nat → Nat → List Byte

end Sys2Proof.Config
end

