-- ==== Sys2Proof/Machine/Store.lean ====
section
/-! DEFINITION. The containers of the state: `Cells` (numbered words of which the unlisted ones are zero) and
`Tab` (numbered records of which the unlisted ones are absent). Both are lists of pairs in rising order of key;
a `Cells` lists no zero, so equal contents are equal lists. -/

namespace Sys2Proof.Machine

/-- Numbered words; a key that is not listed holds 0. Memory, register files and tiles are of this type. -/
abbrev Cells (w : Nat) := List (Nat × BitVec w)

/-- Numbered records; a key that is not listed holds none. -/
abbrev Tab (α : Type) := List (Nat × α)

def Cells.get {w : Nat} : Cells w → Nat → BitVec w
  | [], _ => 0
  | (k, v) :: t, a => if k = a then v else Cells.get t a

def Cells.erase {w : Nat} : Cells w → Nat → Cells w
  | [], _ => []
  | (k, v) :: t, a => if k = a then Cells.erase t a else (k, v) :: Cells.erase t a

/-- The pair put in front, unless its word is 0. -/
def Cells.consNZ {w : Nat} (a : Nat) (v : BitVec w) (t : Cells w) : Cells w :=
  if v = 0 then Cells.erase t a else (a, v) :: t

/-- The write: keeps the keys rising and lists no zero. -/
def Cells.set {w : Nat} : Cells w → Nat → BitVec w → Cells w
  | [], a, v => Cells.consNZ a v []
  | (k, x) :: t, a, v =>
    if a < k then Cells.consNZ a v ((k, x) :: t)
    else if a = k then Cells.consNZ a v t
    else (k, x) :: Cells.set t a v

/-- The keys from `lo` to `hi - 1` become 0. -/
def Cells.clear {w : Nat} (c : Cells w) (lo hi : Nat) : Cells w :=
  c.filter (fun e => decide (e.1 < lo) || decide (hi ≤ e.1))

/-- The canonical form: strictly rising keys, no zero listed. -/
def Cells.wfFrom {w : Nat} : Nat → Cells w → Bool
  | _, [] => true
  | lo, (k, v) :: t => decide (lo ≤ k) && decide (v ≠ 0) && Cells.wfFrom (k + 1) t

def Cells.wf {w : Nat} (c : Cells w) : Bool := Cells.wfFrom 0 c

/-- `n` bytes from address `a` on, ascending. -/
def Cells.bytes (m : Cells 8) (a : Nat) : Nat → List Byte
  | 0 => []
  | n + 1 => Cells.get m a :: Cells.bytes m (a + 1) n

/-- Stores bytes at ascending addresses from `a` on. -/
def Cells.putBytes (m : Cells 8) (a : Nat) : List Byte → Cells 8
  | [] => m
  | b :: bs => Cells.putBytes (Cells.set m a b) (a + 1) bs

/-- The little-endian value of a byte list (R1). -/
def leVal : List Byte → Nat
  | [] => 0
  | b :: bs => b.toNat + 256 * leVal bs

/-- The `n` little-endian bytes of a value (R1). -/
def leBytes (v : Nat) : Nat → List Byte
  | 0 => []
  | n + 1 => BitVec.ofNat 8 v :: leBytes (v / 256) n

/-- The little-endian value of `n` bytes at `a`. -/
def Cells.le (m : Cells 8) (a n : Nat) : Nat := leVal (Cells.bytes m a n)

/-- Stores a value little-endian in `n` bytes at `a`. -/
def Cells.putLe (m : Cells 8) (a n v : Nat) : Cells 8 := Cells.putBytes m a (leBytes v n)

def Tab.get {α : Type} : Tab α → Nat → Option α
  | [], _ => none
  | (k, v) :: t, a => if k = a then some v else Tab.get t a

def Tab.getD {α : Type} (t : Tab α) (a : Nat) (d : α) : α := (Tab.get t a).getD d

def Tab.set {α : Type} : Tab α → Nat → α → Tab α
  | [], a, v => [(a, v)]
  | (k, x) :: t, a, v =>
    if a < k then (a, v) :: (k, x) :: t
    else if a = k then (a, v) :: t
    else (k, x) :: Tab.set t a v

def Tab.erase {α : Type} : Tab α → Nat → Tab α
  | [], _ => []
  | (k, v) :: t, a => if k = a then Tab.erase t a else (k, v) :: Tab.erase t a

/-- The record at `a` changed by `f`, if there is one. -/
def Tab.upd {α : Type} (t : Tab α) (a : Nat) (f : α → α) : Tab α :=
  match Tab.get t a with
  | some v => Tab.set t a (f v)
  | none => t

/-- Every record changed by `f`. -/
def Tab.mapV {α : Type} (t : Tab α) (f : Nat → α → α) : Tab α := t.map (fun e => (e.1, f e.1 e.2))

def Tab.keys {α : Type} (t : Tab α) : List Nat := t.map Prod.fst

/-- The lowest number from `lo` to `hi - 1` that is not a key. -/
def Tab.firstFree {α : Type} (t : Tab α) (lo hi : Nat) : Option Nat :=
  ((List.range (hi - lo)).map (· + lo)).find? (fun k => (Tab.get t k).isNone)

end Sys2Proof.Machine
end

