-- ==== Sys2Proof/Machine/State.lean ====
section
/-! DEFINITION. The state of the MZ-40, as plain data. Every structure's docstring names the rules that give the
machine its fields; INVENTORY.md lists them one by one with their reset values. -/

namespace Sys2Proof.Machine

/-! ## Crews -/

/-- The unit whose word is now executed: none, a split of a crew, a management core, a pump (model; log entry 1). -/
inductive Issuer where
  | none
  | crew (key entry : Nat)
  | mgmt (cluster : Nat)
  | pump (gid : Nat)
  deriving DecidableEq, Repr

/-- A move of the agenda: the clock of the package advances by some core cycles, a unit issues, or an event comes
(model; log entry 1). -/
inductive Move where
  | clock (cycles : Nat)
  | pipe (core pipe : Nat)
  | mgmt (cluster : Nat)
  | pump (gid : Nat)
  | event (i : Instr)
  deriving DecidableEq, Repr

/-- A register name: vector (logical index), scalar, predicate. -/
inductive RegName where
  | v (n : Nat)
  | s (n : Nat)
  | p (n : Nat)
  deriving DecidableEq, Repr

/-- A write of one register: the lanes of `mask` for vectors and predicates; `vals` gives a value for each lane, or
one value for a scalar. -/
structure RegWrite where
  reg : RegName
  mask : Mask
  vals : List Nat
  deriving DecidableEq, Repr

/-- A fixed-latency result: readable at cycle `ready` (R144), written by a split, in the order `seq` of issue. -/
structure FixWrite where
  ready : Nat
  split : Nat
  seq : Nat
  w : RegWrite
  deriving DecidableEq, Repr

/-- A variable-latency result on the scoreboard: its split, its place in the order of issue, the registers it will write
(R144, R154, R398). -/
structure PendWrite where
  split : Nat
  seq : Nat
  ws : List RegWrite
  deriving DecidableEq, Repr

/-- Where a barrier object lies: in a gang's scratch, in device memory, in another MZ-40, or an implicit object of a
gang: 0 to 3 of `bsync`, 4 of `idem` (R106, R200, R246). -/
inductive BarLoc where
  | scr (gid off : Nat)
  | dev (o : Nat)
  | peer (p va : Nat)
  | imp (gid k : Nat)
  deriving DecidableEq, Repr

/-- What a split waits for (R29): a `join`, a barrier phase of the parity it holds, a barrier that it may not yet
arrive at, a well, a batch, a `sleep` begun at a cycle, a poll begun at a cycle, replies to requests of its word
(an atomic, a full recall, a domain access), a grant of a counter (R123), or the release of a held page (R317). -/
inductive Wait where
  | none
  | join
  | bar (b : BarLoc) (q : Bool)
  | arrive (b : BarLoc)
  | well (n : Nat)
  | batch
  | sleep (n since : Nat)
  | poll (since : Nat)
  | reply
  | ctr
  | held
  deriving DecidableEq, Repr

/-- A split-table entry (R9, R24, R29, R143): its PC, its lanes, its innermost record, what it waits for, the word
it waits with, the cycle before which its next word does not issue, the cycle of its last issue, the cycle at which
its word was last found unable to proceed, whether it has yielded its turn (R176), and the lines whose replies its waiting
word has received (R353). -/
structure Split where
  pc : Nat
  mask : Mask
  top : Option Nat
  wait : Wait
  word : Option Instr
  nextIssue : Nat
  lastIssue : Nat
  tried : Option Nat
  yielded : Bool
  got : List Nat
  deriving DecidableEq, Repr

/-- A reconvergence record (R23, R25, R26, R322), with the split-table entry of the split that parked its parked lanes, and
its place in the spill area when it lies beyond the on-chip depth of every split (R140; log entry 22). -/
structure Rec where
  mask : Mask
  pend : Mask
  pendPC : Nat
  park : Mask
  parkPC : Nat
  parkE : Option Nat
  parent : Option Nat
  slot : Option Nat
  deriving DecidableEq, Repr

/-- A request of a waiting word and its answer: the packet, the split entry, the lanes it serves, the values. -/
structure LaneReq where
  pkt : Nat
  entry : Nat
  lanes : List Nat
  answer : Option (List Nat)
  poison : Bool
  deriving DecidableEq, Repr

/-- A WRITE, ATOM or WB of the crew that is not yet acknowledged (R355). -/
structure AckWait where
  pkt : Nat
  line : Nat
  bytes : List Nat
  deriving DecidableEq, Repr

/-- A light fence that still holds back stores of its lanes (R194). -/
structure LightFence where
  lanes : Mask
  pkts : List Nat
  deriving DecidableEq, Repr

/-- One batch that no `batch.wait` has returned: its number, its uncompleted commands, its status bits (R112, R113,
R322), the record address of an aborted round that traps (R212), and the latest `pts` of its completed commands (R64). -/
structure Batch where
  num : W32
  left : Nat
  status : BitVec 4
  trapRec : Option Nat
  pts : Ts
  deriving DecidableEq, Repr

/-- A trap and its side buffer (R307, R309, R310): class, split entry, detail flags, lanes, addresses, flags per
lane, AUX; the cycle at which it arrived; queued or in service. -/
structure Trap where
  cls : Nat
  entry : Nat
  detail : Nat
  lanes : Mask
  addr : List Nat
  lflag : List Nat
  aux : Nat
  since : Nat
  inService : Bool
  deriving DecidableEq, Repr

/-- The capture of an idempotent region (R246). -/
structure Capture where
  sr : Cells 64
  wb : Nat
  lo : Nat
  pc : Nat
  status : W64
  live : Mask
  deriving DecidableEq, Repr

/-- A translation that failed for a waiting word: the page and how it failed (R338): 0 not present, 1 permission,
2 malformed, 3 held. -/
structure WalkFail where
  va : Nat
  kind : Nat
  how : Nat
  deriving DecidableEq, Repr

/-- A crew (R9, R139 to R145, R242, R243, R246, R322). `detRun` is the entry of the split that runs while the crew is the
running crew of its pipe (R31). `bad` lists the logical vector registers, with their lanes, whose
cells hold an uncorrectable error (R344); `tbusy` gives for each tile name the cycles until which an instruction writes,
and reads, it (R223). -/
structure Crew where
  gid : Nat
  idx : Nat
  core : Nat
  slot : Nat
  pipe : Nat
  role : Nat
  budget : Nat
  ntiles : Nat
  vr : Cells 32
  wb : Nat
  lo : Nat
  spillBase : Nat
  spillSz : Nat
  sr : Cells 64
  pr : Cells 32
  bind : List (Option Nat)
  tc : List W32
  status : W64
  pts : Ts
  live : Mask
  splits : List Split
  recs : Tab Rec
  seq : Nat
  fix : List FixWrite
  pend : List PendWrite
  reqs : List LaneReq
  acks : List AckWait
  fences : List LightFence
  walks : List WalkFail
  batchCtr : W32
  openCmds : Nat
  openStatus : BitVec 4
  openTrap : Option Nat
  openPts : Ts
  batches : List Batch
  trap : Option Trap
  pumpFault : Option Trap
  cap : Option Capture
  arr : Option (Nat × Bool)
  detRun : Option Nat
  bad : List (Nat × Nat)
  tbusy : List (Nat × Nat)
  deriving DecidableEq, Repr

/-! ## Gangs -/

/-- A well (R114 to R117, R323): `ents` are the FULL entries from the head on: for a data well nothing (the bytes lie
in scratch), for a tile well the physical tile and its control value; each with its producer. -/
structure Well where
  cfg0 : W64
  cfg1 : W64
  head : Nat
  ents : List (Nat × Nat × W32)
  closed : Bool
  deriving DecidableEq, Repr

/-- An implicit barrier object (R200, R246): the object and the crews that have arrived in the current phase. -/
structure ImpBar where
  obj : BitVec 128
  arrived : BitVec 32
  deriving DecidableEq, Repr

/-- A buffered store of a DET gang: logical lane, aligned 8-byte word of a physical location, byte mask, bytes (R70). -/
structure SbufEntry where
  lane : Nat
  space : Nat
  addr : Nat
  mask : BitVec 8
  bytes : List Byte
  order : Nat
  deriving DecidableEq, Repr

/-- The pump of a gang (R253, R323): a0 to a7, strd[i][l] at 4i + l, the open loops with n and c from the outermost on, a tile
popped and not yet pushed with its control value. -/
structure Pump where
  a : List W64
  strd : List W64
  loops : List (Nat × Nat)
  pc : Nat
  halted : Bool
  stopped : Bool
  held : Option (Nat × W32)
  pts : Ts
  wait : Wait
  word : Option Instr
  tried : Option Nat
  walks : List WalkFail
  deriving DecidableEq, Repr

/-- A gang on a core (R9 to R16, R70, R89, R114, R118, R200), with the AGE of its block (R299). -/
structure Gang where
  lslot : Nat
  gx : Nat
  gy : Nat
  rank : Nat
  n : Nat
  core : Nat
  cont : Bool
  scr : Cells 8
  scrSz : Nat
  scrPoison : List Nat
  scrBadChk : Cells 16
  ntiles : Nat
  tiles : Tab (Cells 8)
  tilePoison : List Nat
  wells : Tab Well
  bars : List ImpBar
  inIdem : Bool
  sbuf : List SbufEntry
  detBase : Nat
  detSz : Nat
  pump : Option Pump
  finished : BitVec 32
  stop : Bool
  heldFault : Option (Nat × Nat × Nat)
  issued : Bool
  age : Nat
  deriving DecidableEq, Repr

/-! ## Cores and clusters -/

/-- A TLB entry: address space, page size level, virtual and physical page base, rights, whether D is set (R336). -/
structure TlbEntry where
  asid : Nat
  lvl : Nat
  va : Nat
  pa : Nat
  r : Bool
  w : Bool
  x : Bool
  d : Bool
  deriving DecidableEq, Repr

/-- Dirty narrow bytes of one crew at one scope in a line, by offset, bit 8 set where a byte is; and the WB that
carries them once they are published (R353). -/
structure Dirty where
  crew : Nat
  scope : Scope
  bytes : Cells 9
  sent : Option Nat
  deriving DecidableEq, Repr

/-- A span held by an L1 or a cluster cache (R353): the physical line, the words it covers, its bytes, `wts` and `rts`
of each sector, poisoned sectors, the dirty bytes, the hold of a narrow atomic (0 none, 1 asked for, 2 held), and
whether a RENEW is outstanding. -/
structure Span where
  first : Nat
  cnt : Nat
  bytes : Cells 8
  wts : List Ts
  rts : List Ts
  poison : List Nat
  dirty : List Dirty
  hold : Nat
  pending : Option Nat
  order : Nat
  deriving DecidableEq, Repr

/-- A counter a core caches: record offset, allowance (R121), its outstanding refill (n and the name of the take that
sent it), and the takes that wait in issue order: name and n (R123). A core's list stands in order of use, the latest
first. -/
structure CtrEntry where
  addr : Nat
  allow : Nat
  refill : Option (Nat × Nat)
  queue : List (Nat × Nat)
  deriving DecidableEq, Repr

/-- A core; the launch it last ran and the partition it last served; its steal (the launch; 0 a request to the head of the list,
1 that victim's refusal under way, 2 blocks under way; the victims); `mWant` lists the pipes that the matrix unit has turned
away, each with the cycle (R29, R12, R20, R121, R234, R300 to R302, R336, R351, R353, R370, R388). -/
structure CoreSt where
  oos : Bool
  temp : Int
  droops : List Nat
  hot : Bool
  coolSince : Nat
  clkBase : Nat
  tlb : List TlbEntry
  l1 : Tab Span
  crf : Ts
  ctrs : List CtrEntry
  lastL : Option Nat
  part : Option Nat
  steal : Option (Nat × Nat × List Nat)
  mBusy : Nat
  mRot : Nat
  mWant : List (Nat × Nat)
  duty : Nat
  issuedAt : List (Option Nat)
  deriving DecidableEq, Repr

/-- A management core (R249, R309). -/
structure Mgmt where
  crew : Option Nat
  sr : Cells 64
  pr : BitVec 8
  pc : Nat
  pts : Ts
  since : Nat
  nextIssue : Nat
  wait : Wait
  word : Option Instr
  walks : List WalkFail
  deriving DecidableEq, Repr

/-- A cluster unit (R48, R309, R336, R351, R353, R370). -/
structure ClusterSt where
  oos : Bool
  tlb : List TlbEntry
  miss : List (Nat × Nat)
  cc : Tab Span
  crf : Ts
  trapq : List Nat
  mc : Mgmt
  deriving DecidableEq, Repr

/-! ## Fabric -/

/-- A unit that sends requests and receives replies. -/
inductive Agent where
  | core (n : Nat)
  | cluster (n : Nat)
  | mgmt (n : Nat)
  | engine (cmd : Nat)
  deriving DecidableEq, Repr

/-- Where a request is served: a home slice, a CXL port, or the domain agent (R347, R373, R381). -/
inductive Dest where
  | slice (n : Nat)
  | port (k : Nat)
  | peer (p : Nat)
  deriving DecidableEq, Repr

/-- Where a packet stands: a router of a compute die, a bridge on its way to a home die, a router of a home die, at
its server, a bridge on its way back, or at its receiver (R360 to R363). -/
inductive Place where
  | cd (die x y : Nat)
  | toHome (die hd ch : Nat)
  | home (hd x y : Nat)
  | server
  | toDie (hd die ch : Nat)
  | receiver
  deriving DecidableEq, Repr

/-- What a packet asks or answers (R360). -/
inductive PKind where
  | renew (w : Option Ts)
  | write
  | wb
  | atom (op : Nat) (cas : Bool) (ty : Ty) (ret : Bool)
  | hold (scope : Scope)
  | data (w r : Ts)
  | ext (r : Ts)
  | ack (w : Ts)
  | recall (all : Bool)
  deriving DecidableEq, Repr

/-- A packet (R360): kind, place, sender, server, physical line, first word and count of the span, `pts`, crew,
scope, bytes by offset in the line, operands of the lanes of an atomic (lane, offset, operand, new value), answers,
poisoned sectors (of an ACK: the lanes that met poison), the request a reply answers, its channel, its CRC failures on it,
the order of its arrival where it stands, and whether only its home may answer it. -/
structure Pkt where
  kind : PKind
  place : Place
  src : Agent
  dst : Dest
  line : Nat
  first : Nat
  cnt : Nat
  pts : Ts
  crew : Nat
  entry : Nat
  scope : Scope
  ord : Order
  bytes : Cells 9
  ops : List (Nat × Nat × Nat × Nat)
  ans : List (Nat × Nat)
  poison : List Nat
  req : Nat
  ch : Nat
  fails : Nat
  stamp : Nat
  fresh : Bool
  deriving DecidableEq, Repr

/-- A read-combining entry of a router (R361): the RENEW in flight through it with its line, span, `pts` and w, and the
packets it has absorbed. -/
structure Comb where
  die : Nat
  x : Nat
  y : Nat
  pkt : Nat
  line : Nat
  first : Nat
  cnt : Nat
  pts : Ts
  w : Option Ts
  absorbed : List Nat
  deriving DecidableEq, Repr

/-- A die-to-die channel (R362 to R364): up; retraining since a cycle; consecutive failed replays. -/
structure Chan where
  up : Bool
  retrain : Option Nat
  failed : Nat
  deriving DecidableEq, Repr

/-- A home die (R337, R356, R368). -/
structure Home where
  clock : Ts
  failed : Bool
  deriving DecidableEq, Repr

/-- A hard hold of an outside agent on a 64-byte line: a host port (0, 1) or peer 2 + P; exclusive or shared; when it was
asked to give it up, and whether wholly; when its holder's link agent last renewed it (R378, R379). -/
structure HardHold where
  line : Nat
  agent : Nat
  excl : Bool
  asked : Option Nat
  inv : Bool
  beat : Nat
  deriving DecidableEq, Repr

/-- An entry of a narrow-holder table (R357). -/
structure NHolder where
  line : Nat
  unit : Agent
  crew : Nat
  scope : Scope
  part : Nat
  asked : Bool
  deriving DecidableEq, Repr

/-- A predictor entry: its tag and its class (R352). -/
structure PredEntry where
  line : Nat
  first : Nat
  cls : Nat
  deriving DecidableEq, Repr

/-- A home slice (R349, R352, R357, R367, R378). -/
structure Slice where
  sect : Tab (Ts × Ts)
  mts : Ts
  pred : Tab PredEntry
  nht : List NHolder
  hard : List HardHold
  repl : List (Nat × Pkt)
  deriving DecidableEq, Repr

/-- A host, pool or peer line kept at a bridge or a domain agent (R375, R380, R381): state 0 I, 1 S, 2 E, 3 M;
4 marks a refused request of an engine. -/
structure FarLine where
  st : Nat
  bytes : Cells 8
  wts : List Ts
  rts : List Ts
  gr : Ts
  poison : List Nat
  dtid : Nat := 0
  deriving DecidableEq, Repr

/-- A CXL bridge, or the domain agent in the same role (R373, R375 to R379, R381). -/
structure Bridge where
  up : Bool
  clock : Ts
  lines : Tab FarLine
  nht : List NHolder
  deriving DecidableEq, Repr

/-- A request sent outside the package and not yet answered (R375, R378, R380, R381). -/
structure OutReq where
  port : Nat
  addr : Nat
  what : Nat
  since : Nat
  pkt : Nat
  crew : Nat
  entry : Nat
  bytes : List Byte
  poison : Bool := false
  dtid : Nat := 0
  deriving DecidableEq, Repr

/-! ## Engines -/

/-- A command of a copy engine (R203 to R212): opcode, crew, operands as read at issue, parts done, shares landed,
whether its engine has failed (R368). -/
structure Cmd where
  op : Nat
  crew : Nat
  gid : Nat
  asid : Nat
  lslot : Nat
  batch : Option W32
  dst : Nat
  src : Nat
  len : Nat
  bar : Nat
  b0 : Nat
  b1 : Nat
  rb : Bool
  xb : Bool
  esz : Nat
  dir : Bool
  bsp : Bool
  aop : Nat
  ty : Ty
  pts : Ts
  done : List Nat
  landed : List (Nat × Nat)
  total : Nat
  failed : Bool
  deriving DecidableEq, Repr

/-- A round of a switch reduction (R212, R382): its number, first arrival, contributions by rank (command or none for
a peer), with size, type, operation and bytes, and whether it has ended. -/
structure SwrContribution where
  rank : Nat
  size : Nat
  ty : Nat
  op : Nat
  len : Nat
  cmd : Option Nat
  bytes : List Byte
  deriving DecidableEq, Repr

structure SwrRound where
  num : Nat
  start : Nat
  got : List SwrContribution
  ended : Bool
  aborted : Bool
  deriving DecidableEq, Repr

structure SwrGroup where
  rounds : List SwrRound
  next : Tab Nat
  deriving DecidableEq, Repr

/-- An operation waiting at a counter's home: a refill (op 0) of n with allowance a by a core; `ctr.readx` (1),
`ctr.drain` (2) or `ctr.init` (3) with the name of its request in n, its crew and its operands (R123). -/
structure CtrReq where
  core : Nat
  op : Nat
  n : Nat
  a : Int
  crew : Nat
  entry : Nat
  b0 : Nat
  b1 : Nat
  deriving DecidableEq, Repr

/-- The home state of a split counter: 0 IDLE, 1 HALF, 2 REST, 3 EXACT; the request served, those queued, the cores
still to be visited, the replies on their way with what was recalled, and the grants (none: FAIL) on their way (R123).
A refill's `a` falls by what the home recalls from its core. -/
structure CtrHome where
  st : Nat
  cur : Option CtrReq
  queue : List CtrReq
  awaiting : List Nat
  replies : List (Nat × Nat)
  grants : List (Nat × Option Nat)
  deriving DecidableEq, Repr

/-- What a cistern engine keeps of a slot that is not FREE (R125 to R127): the record, the address space of the open, the
cycle of the open, and where each chunk was stored: 64 × position + chunk. -/
structure CmbSlot where
  record : Nat
  asid : Nat
  since : Nat
  chunks : Tab Nat
  deriving DecidableEq, Repr

/-- Work of an engine that waits on a held page (R339): 0 a copy part, 1 a cistern release, 2 a queue's record read,
3 a completion word, 4 a copy part of a killed launch, which is dropped. -/
structure EngWait where
  what : Nat
  id : Nat
  part : Nat
  asid : Nat
  page : Nat
  deriving DecidableEq, Repr

/-- A page-walk request (R336, R337): address space, virtual address, access kind (0 read, 1 write, 2 rmw, 3 fetch),
the waiting unit. -/
structure WalkReq where
  asid : Nat
  va : Nat
  kind : Nat
  who : Waiter
  deriving DecidableEq, Repr

/-! ## Dispatch -/

/-- A launch queue's registers (R291). -/
structure QueueRegs where
  qbase : W64
  qcfg : W64
  qhead : W32
  qtail : W32
  qstat : W64
  deriving DecidableEq, Repr

/-- A gang control block and where it is held: 0 the dispatcher, 1 a core's local queue, 2 in transit, 3 being
restored (R299). A saved gang keeps the model's name `gid`, by which commands and credits still know it; what its image
leaves to the machine stands in `side` (for each crew its records past the on-chip depth, which lie in the spill area,
and the status addresses and timestamps of its batches), in `was` (the gang with no scratch and no tiles, for the producers of
well entries and the pump's `pts`) and in `sbuf` (its DET buffer area). -/
structure Blk where
  lslot : Nat
  kind : Nat
  unit : Bool
  prio : Nat
  gx : Nat
  gy : Nat
  save : Option Nat
  age : Nat
  held : Bool
  place : Nat
  core : Nat
  cont : Option (Nat × Nat × List (Nat × Nat))
  gid : Option Nat
  side : Tab Crew
  was : Option Gang
  sbuf : List SbufEntry
  deriving DecidableEq, Repr

/-- A deposited entry: key, payload, logical lane of the depositor (R34, R36), and its place in the reorder storage (R304). -/
structure BinEntry where
  key : Nat
  payload : Nat
  lane : Nat
  idx : Nat := 0
  deriving DecidableEq, Repr

/-- A launch-table entry (R293 to R298, R304): the record, the descriptors, the parameters, its queue, and its
progress: the blocks made, the gangs, continuation crews and copy commands not ended. The descriptor is empty until the record
has been checked. -/
structure Launch where
  queue : Nat
  asid : Nat
  part : Nat
  index : W32
  record : List Byte
  desc : List Byte
  contDesc : List Byte
  params : List Byte
  nextG : Nat
  gangsLeft : Nat
  contLeft : Nat
  cmdsLeft : Nat
  nextAge : Nat
  bins : List BinEntry
  contCount : Tab Nat
  flushed : Bool
  status : Nat
  detail : Nat
  hold : Bool
  deriving DecidableEq, Repr

/-- A partition's registers and lists (R303, R314, R340). -/
structure Part where
  ptcfg : W64
  ptstat : W64
  quota : BitVec 256
  prestat : W64
  svbase : W64
  svcfg : W64
  preGangs : List Nat
  announce : List Nat
  engreq : List (Nat × Nat)
  engAnnounced : List (Nat × Nat)
  deriving DecidableEq, Repr

/-- An address-space block (R329, R330), with its outstanding invalidations. -/
structure AsidRegs where
  root : W64
  cfg : W64
  seq : W32
  pend : List W64
  deriving DecidableEq, Repr

/-- A trap block (R308). -/
structure TrapRegs where
  hbase : W64
  hen : W64
  deriving DecidableEq, Repr

/-- The error log (R345), and the corrected errors not yet recorded: UKIND, UNIT, array, and the interval of 1 ms they fell in. -/
structure ErrRegs where
  base : W64
  cfg : W64
  head : W32
  tail : W32
  lost : W32
  corrected : List (Nat × Nat × Nat × Nat)
  deriving DecidableEq, Repr

structure ProtRegs where
  base : W64
  size : W64
  mir : W64
  deriving DecidableEq, Repr

structure PoolRegs where
  base : W64
  size : W64
  dev : W64
  stat : W64
  deriving DecidableEq, Repr

/-- The domain registers and the domain agent (R377, R381). -/
structure Dom where
  cfg : W64
  dtout : Cells 8
  dtin : Cells 16
  linkUp : List Bool
  agent : Bridge
  inPts : Tab Ts
  unreachable : List Nat
  deriving DecidableEq, Repr

/-- A firmware slot: the image of a new package, which its ROM accepts and whose bytes are not modelled; nothing; or
an image of given bytes (log entry 2). -/
inductive FwSlot where
  | factory
  | empty
  | image (bytes : List Byte)
  deriving DecidableEq, Repr

/-- What a measurement was extended by (R386): the ROM's digest, the factory image's digest, a digest, the SHA-256 of bytes. -/
inductive MeasItem where
  | rom
  | factory
  | digest (bytes : List Byte)
  | hash (bytes : List Byte)
  deriving DecidableEq, Repr

/-- Firmware and trust (R383 to R386, R393): the two slots, whether the primary runs, the floor once a configuration
record has raised it, the signature index, the mailbox and its output buffer, the measurements as the lists of what
extended them. -/
structure Fw where
  primary : FwSlot
  backup : FwSlot
  runPrimary : Bool
  recovery : Bool
  floor : Option (BitVec 32)
  sigIndex : Nat
  atstat : W64
  nonce : List Byte
  out : List Byte
  meas : List (List MeasItem)
  atOp : Option (BitVec 2)
  fwBusy : Bool
  deriving DecidableEq, Repr

/-- The service capability (R387). -/
structure Svc where
  tlmidx : W32
  latch : W64
  pcap : W32
  pcapNew : W32
  pwrst : W32
  fwaddrl : W32
  fwaddrh : W32
  fwstat : W32
  deriving DecidableEq, Repr

/-- What the package last answered to an agent outside it (R375, R377, R378, R381): nothing yet; bytes, and whether they went
out poisoned; a plain acknowledgement; a refusal. -/
inductive Sent where
  | none
  | data (bytes : List Byte) (poison : Bool)
  | ack
  | nack
  deriving DecidableEq, Repr

/-- The power arbiter and telemetry (R388 to R391); `off` while the package has no power (R385). `therm` is for CD0, CD1, HD0 to
HD3. -/
structure Pwr where
  rails : List Nat
  pkgpwr : Nat
  capcnt : W64
  tripcnt : W64
  therm : List Bool
  degraded : Bool
  tempd : List Int
  tempm : List Int
  droop : W64
  retrain : W64
  off : Bool
  deriving DecidableEq, Repr

/-! ## The machine -/

/-- The whole machine. `sweep` holds T of a sweep, whether the units' part is still outstanding, and the images that the
package controller has not reached (R358). `arrivals` names the DET gangs whose crews have arrived in the current phase of a barrier object
(R72). -/
structure State where
  cur : Issuer
  agenda : List Move
  nextId : Nat
  now : Nat
  mem : Cells 8
  badChk : Tab (BitVec 16)
  poison : List Nat
  crews : Tab Crew
  gangs : Tab Gang
  cores : Tab CoreSt
  clusters : Tab ClusterSt
  net : Tab Pkt
  combs : List Comb
  chans : Tab Chan
  homes : List Home
  slices : Tab Slice
  bridges : List Bridge
  dom : Dom
  cmds : Tab Cmd
  swr : Tab SwrGroup
  cmbSlots : Tab CmbSlot
  arrivals : List (BarLoc × Nat)
  ctrHomes : Tab CtrHome
  walkq : List WalkReq
  engWaits : List EngWait
  queues : Tab QueueRegs
  launches : Tab Launch
  blocks : Tab Blk
  rr : Tab Nat
  parts : Tab Part
  asids : Tab AsidRegs
  traps : Tab TrapRegs
  err : ErrRegs
  prot : List ProtRegs
  pools : List PoolRegs
  msix : Cells 8
  irqs : List Nat
  rdata : W64
  sent : Sent
  outReqs : Tab OutReq
  sweep : Option (Ts × Bool × List Nat)
  lastRec : Ts
  fw : Fw
  svc : Svc
  pwr : Pwr
  deriving DecidableEq, Repr

/-! ## Reset (R394, R395): every register block at its reset value. A number that a table does not list has the
value given here, so the reset tables are empty. -/

def CoreSt.init : CoreSt :=
  { oos := false, temp := 0, droops := [], hot := false, coolSince := 0, clkBase := 0, tlb := [], l1 := [], crf := 0,
    ctrs := [], lastL := none, part := none, steal := none, mBusy := 0, mRot := 0, mWant := [], duty := 64, issuedAt := [] }

def Mgmt.init : Mgmt :=
  { crew := none, sr := [], pr := 0, pc := 0, pts := 0, since := 0, nextIssue := 0, wait := .none, word := none,
    walks := [] }

def ClusterSt.init : ClusterSt :=
  { oos := false, tlb := [], miss := [], cc := [], crf := 0, trapq := [], mc := Mgmt.init }

def Slice.init : Slice := { sect := [], mts := 0, pred := [], nht := [], hard := [], repl := [] }

def Bridge.init : Bridge := { up := true, clock := 0, lines := [], nht := [] }

def Dom.init : Dom :=
  { cfg := 0, dtout := [], dtin := [], linkUp := List.replicate 18 true, agent := Bridge.init, inPts := [], unreachable := [] }

def QueueRegs.init : QueueRegs := { qbase := 0, qcfg := 0, qhead := 0, qtail := 0, qstat := 0 }

def Part.init : Part :=
  { ptcfg := 0, ptstat := 0, quota := 0, prestat := 0, svbase := 0, svcfg := 0, preGangs := [], announce := [],
    engreq := [], engAnnounced := [] }

def AsidRegs.init : AsidRegs := { root := 0, cfg := 0, seq := 0, pend := [] }

def TrapRegs.init : TrapRegs := { hbase := 0, hen := 0 }

def ErrRegs.init : ErrRegs := { base := 0, cfg := 0, head := 0, tail := 0, lost := 0, corrected := [] }

def Chan.init : Chan := { up := true, retrain := none, failed := 0 }

def CtrHome.init : CtrHome := { st := 0, cur := none, queue := [], awaiting := [], replies := [], grants := [] }

def Fw.init : Fw :=
  { primary := .factory, backup := .empty, runPrimary := true, recovery := false, floor := none, sigIndex := 0,
    atstat := 0, nonce := List.replicate 32 0, out := [], meas := [[.rom], [.factory], [], [], [], [], [], []],
    atOp := none, fwBusy := false }

def Svc.init : Svc :=
  { tlmidx := 0, latch := 0, pcap := 2400, pcapNew := 2400, pwrst := 0, fwaddrl := 0, fwaddrh := 0, fwstat := 0 }

def Pwr.init : Pwr :=
  { rails := [0, 0, 0, 0], pkgpwr := 0, capcnt := 0, tripcnt := 0, therm := List.replicate 6 false, degraded := false,
    tempd := List.replicate 6 0, tempm := List.replicate 12 0, droop := 0, retrain := 0,
    off := false }

/-- The machine right after a package reset (R394): launches, gangs and crews none; every register at its reset
value; every byte of device memory 0 with a good check value; no packet, span, lease or hold. -/
def State.reset : State :=
  { cur := .none, agenda := [], nextId := 0, now := 0, mem := [], badChk := [], poison := [], crews := [], gangs := [],
    cores := [], clusters := [], net := [], combs := [], chans := [],
    homes := List.replicate 4 { clock := 0, failed := false }, slices := [], bridges := List.replicate 2 Bridge.init,
    dom := Dom.init, cmds := [], swr := [], cmbSlots := [], arrivals := [], ctrHomes := [], walkq := [], engWaits := [],
    queues := [], launches := [], blocks := [], rr := [], parts := [], asids := [], traps := [], err := ErrRegs.init,
    prot := List.replicate 8 { base := 0, size := 0, mir := 0 },
    pools := List.replicate 8 { base := 0, size := 0, dev := 0, stat := 0 }, msix := [], irqs := [], rdata := 0,
    sent := .none, outReqs := [], sweep := none, lastRec := 0, fw := Fw.init, svc := Svc.init, pwr := Pwr.init }

/-- Why a step stops with a fault. -/
inductive Fault where
  /-- An instruction word was executed while no resident unit is named as its issuer. Raised by every instruction
  word's meaning; safe: in the machine a word is executed only by the unit that fetched it (R29). -/
  | noIssuer
  deriving DecidableEq, Repr

/-- Why a step is refused. -/
inductive Refusal where
  /-- The instruction has no meaning in the model. Raised by the arms of `exec` only; safe. -/
  | notModelled (mnemonic : String)
  deriving DecidableEq, Repr

end Sys2Proof.Machine
end

