-- ==== Sys2Proof/Machine/Float.lean ====
section
/-! DEFINITION. Floating-point values and rounding (03_formats.md R78 to R88), the exact operations of R162 to R167,
and the roots and transcendental functions of R165. A finite value is held exactly as sign, magnitude and power of
two; every result is that exact value rounded once by `fRound`. -/

namespace Sys2Proof.Machine

/-- A set of the five flags of R88: bit 0 NV, 1 DZ, 2 OF, 3 UF, 4 NX. -/
abbrev Flags := BitVec 5

def Flags.nv : Flags := 1
def Flags.dz : Flags := 2
def Flags.ovf : Flags := 4
def Flags.unf : Flags := 8
def Flags.nx : Flags := 16
def Flags.any (fs : List Flags) : Flags := fs.foldl (· ||| ·) 0
def Flags.on (b : Bool) (f : Flags) : Flags := if b then f else 0

/-- A decoded value: a NaN (signalling or quiet), an infinity, or `(-1)^neg * m * 2^e` (R78). -/
inductive FVal where
  | nan (sig : Bool)
  | inf (neg : Bool)
  | num (neg : Bool) (m : Nat) (e : Int)
  deriving DecidableEq, Repr

/-- Fraction bits of a binary floating-point type: P - 1 (R78). -/
def Ty.frac : Ty → Nat
  | .f16 => 10 | .bf16 => 7 | .f32 => 23 | .f64 => 52 | _ => 23
/-- EMIN of R78. -/
def Ty.emin : Ty → Int
  | .f16 => -14 | .bf16 => -126 | .f32 => -126 | .f64 => -1022 | _ => -126
/-- The all-ones exponent field of R78. -/
def Ty.expMax : Ty → Nat
  | .f16 => 31 | .bf16 => 255 | .f32 => 255 | .f64 => 2047 | _ => 255

/-- The bits of an infinity, without its sign. -/
def fInf (t : Ty) : Nat := Ty.expMax t * 2 ^ Ty.frac t
/-- The canonical NaN of R78. -/
def fNaN (t : Ty) : Nat := fInf t + 2 ^ (Ty.frac t - 1)
/-- The bits of MAXF, without its sign. -/
def fMax (t : Ty) : Nat := fInf t - 1
/-- A magnitude with a sign bit. -/
def fSign (t : Ty) (neg : Bool) (mag : Nat) : Nat := if neg then mag + 2 ^ (t.bits - 1) else mag

/-- The value of the low bits of a register read as a floating-point type (R78, R79). -/
def fDec (t : Ty) (x : Nat) : FVal :=
  let f := Ty.frac t
  let neg := x / 2 ^ (t.bits - 1) % 2 == 1
  let ex := x / 2 ^ f % (Ty.expMax t + 1)
  let fr := x % 2 ^ f
  if ex = Ty.expMax t then
    if fr = 0 then .inf neg else .nan (decide (fr < 2 ^ (f - 1)))
  else if ex = 0 then .num neg fr (Ty.emin t - f)
  else .num neg (fr + 2 ^ f) (ex - 1 + Ty.emin t - f)

/-- A result: bits of the result type and the flags raised. -/
structure FRes where
  bits : Nat
  fl : Flags
  deriving DecidableEq, Repr

def fCanon (t : Ty) (fl : Flags) : FRes := { bits := fNaN t, fl := fl }

/-- An infinite result, or MAXF under saturation (R86). -/
def fInfRes (t : Ty) (sat neg : Bool) : FRes := { bits := fSign t neg (if sat then fMax t else fInf t), fl := 0 }

/-- `expo` of a nonzero magnitude (R85). -/
def fExpo (m : Nat) (e : Int) : Int := (Nat.log2 m : Int) + e

/-- The quotient `m * 2^e / 2^k` made an integer by the mode, and whether it is inexact (R85). -/
def fQuot (neg : Bool) (m : Nat) (e k : Int) (r : Rnd) : Nat × Bool :=
  if k ≤ e then (m * 2 ^ (e - k).toNat, false)
  else
    let s := 2 ^ (k - e).toNat
    let n := m / s
    let rem := m % s
    let up := match r with
      | .rne => decide (s < 2 * rem) || (decide (2 * rem = s) && n % 2 == 1)
      | .rz => false
      | .ru => !neg && decide (rem ≠ 0)
      | .rd => neg && decide (rem ≠ 0)
    (if up then n + 1 else n, decide (rem ≠ 0))

/-- `round` of R85: the value `(-1)^neg * m * 2^e` rounded to the type, with R86 on overflow. -/
def fRound (t : Ty) (r : Rnd) (sat neg : Bool) (m : Nat) (e : Int) : FRes :=
  if m = 0 then { bits := fSign t neg 0, fl := 0 }
  else
    let ex := fExpo m e
    let e' := if ex < Ty.emin t then Ty.emin t else ex
    let q := fQuot neg m e (e' - Ty.frac t) r
    let mag := q.1 + (e' - Ty.emin t).toNat * 2 ^ Ty.frac t
    let inex := Flags.on q.2 Flags.nx
    let tiny := Flags.on (q.2 && decide (ex < Ty.emin t)) Flags.unf
    if fInf t ≤ mag then
      let big := match r with
        | .rne => fInf t
        | .rz => fMax t
        | .ru => if neg then fMax t else fInf t
        | .rd => if neg then fInf t else fMax t
      { bits := fSign t neg (if sat then fMax t else big), fl := Flags.ovf ||| Flags.nx }
    else { bits := fSign t neg mag, fl := inex ||| tiny }

def FVal.isNaN : FVal → Bool
  | .nan _ => true
  | _ => false
def FVal.isSig : FVal → Bool
  | .nan s => s
  | _ => false
def FVal.isInf : FVal → Bool
  | .inf _ => true
  | _ => false
def FVal.isZero : FVal → Bool
  | .num _ m _ => m == 0
  | _ => false
def FVal.neg : FVal → Bool
  | .nan _ => false
  | .inf n => n
  | .num n _ _ => n

/-- The flag a signalling operand raises (R79). -/
def sigFlag (vs : List FVal) : Flags := Flags.on (vs.any FVal.isSig) Flags.nv

/-- A value already settled, delivered in a type. -/
def fDeliver (t : Ty) (r : Rnd) (sat : Bool) (v : FVal) : FRes :=
  match v with
  | .nan s => fCanon t (Flags.on s Flags.nv)
  | .inf n => fInfRes t sat n
  | .num n m e => fRound t r sat n m e

/-- A signed magnitude as an integer on the grid `2^g`; `g` is at or below the value's own exponent. -/
def FVal.onGrid (g : Int) : FVal → Int
  | .num n m e => if n then -((m * 2 ^ (e - g).toNat : Nat) : Int) else ((m * 2 ^ (e - g).toNat : Nat) : Int)
  | _ => 0

/-- The least exponent among finite values. -/
def gridOf : List FVal → Int
  | [] => 0
  | .num _ _ e :: t => t.foldl (fun g v => match v with | .num _ _ f => if f < g then f else g | _ => g) e
  | _ :: t => gridOf t

/-- The exact sum of values (R162, R170): NaN and infinity rules, NV for infinities of opposite sign
beside a quiet NaN too, then the exact sum with the sign rule of a zero
sum: -0 when every term is -0 and under RD, else +0. -/
def fSumV (r : Rnd) (vs : List FVal) : FVal × Flags :=
  let opp := vs.any (fun v => v.isInf && v.neg) && vs.any (fun v => v.isInf && !v.neg)
  if vs.any FVal.isNaN || opp then (.nan false, sigFlag vs ||| Flags.on opp Flags.nv)
  else match vs.find? FVal.isInf with
    | some v => (v, 0)
    | none =>
      let g := gridOf vs
      let s : Int := vs.foldl (fun (a : Int) v => a + v.onGrid g) 0
      if s = 0 then (.num (vs.all (fun v => v.isZero && v.neg) || r == .rd) 0 0, 0)
      else (.num (decide (s < 0)) s.natAbs g, 0)

/-- The exact product (R162); 0 times infinity is the invalid NaN. -/
def fMulV (a b : FVal) : FVal × Flags :=
  match a, b with
  | .nan _, _ | _, .nan _ =>
    (.nan false, sigFlag [a, b] ||| Flags.on ((a.isZero && b.isInf) || (a.isInf && b.isZero)) Flags.nv)
  | .inf x, .inf y => (.inf (x != y), 0)
  | .inf x, .num y m _ => if m = 0 then (.nan false, Flags.nv) else (.inf (x != y), 0)
  | .num x m _, .inf y => if m = 0 then (.nan false, Flags.nv) else (.inf (x != y), 0)
  | .num x m e, .num y n f => (.num (x != y) (m * n) (e + f), 0)

/-- The exact sum of products and terms, rounded once. -/
def fSum (t : Ty) (r : Rnd) (sat : Bool) (vs : List FVal) : FRes :=
  let s := fSumV r vs
  let d := fDeliver t r sat s.1
  { d with fl := d.fl ||| s.2 }

def FVal.negate : FVal → FVal
  | .nan s => .nan s
  | .inf n => .inf (!n)
  | .num n m e => .num (!n) m e

def fAdd (t : Ty) (r : Rnd) (sat : Bool) (a b : FVal) : FRes := fSum t r sat [a, b]
def fMul (t : Ty) (r : Rnd) (sat : Bool) (a b : FVal) : FRes :=
  let p := fMulV a b
  let d := fDeliver t r sat p.1
  { d with fl := d.fl ||| p.2 }
/-- R162: the fused multiply-add; NV for 0 times infinity even when C is a quiet NaN. -/
def fFma (t : Ty) (r : Rnd) (sat : Bool) (a b c : FVal) : FRes :=
  let p := fMulV a b
  let d := fSum t r sat [p.1, c]
  { d with fl := d.fl ||| p.2 ||| sigFlag [a, b, c] }

/-- R167: `a0 * b0 + a1 * b1 + c`, the exact sum rounded once. -/
def fDot2 (t : Ty) (r : Rnd) (sat : Bool) (a0 b0 a1 b1 c : FVal) : FRes :=
  let p := fMulV a0 b0
  let q := fMulV a1 b1
  let d := fSum t r sat [p.1, q.1, c]
  { d with fl := d.fl ||| p.2 ||| q.2 ||| sigFlag [a0, b0, a1, b1, c] }

/-- A magnitude with a nonzero remainder below its last place, as an exact value with the same rounding. -/
def sticky (m : Nat) (e : Int) (inexact : Bool) : Nat × Int := if inexact then (2 * m + 1, e - 1) else (m, e)

def fDiv (t : Ty) (r : Rnd) (sat : Bool) (a b : FVal) : FRes :=
  match a, b with
  | .nan _, _ | _, .nan _ => fCanon t (sigFlag [a, b])
  | .inf _, .inf _ => fCanon t Flags.nv
  | .inf x, .num y _ _ => fInfRes t sat (x != y)
  | .num x _ _, .inf y => { bits := fSign t (x != y) 0, fl := 0 }
  | .num x m e, .num y n f =>
    if n = 0 then
      if m = 0 then fCanon t Flags.nv
      else let i := fInfRes t sat (x != y); { i with fl := Flags.dz }
    else if m = 0 then { bits := fSign t (x != y) 0, fl := 0 }
    else
      let k := Nat.log2 n + Ty.frac t + 4
      let q := m * 2 ^ k / n
      let s := sticky q (e - f - k) (m * 2 ^ k % n != 0)
      fRound t r sat (x != y) s.1 s.2

/-- The integer square root, by `n` bits from the top. -/
def isqrtAux (x : Nat) : Nat → Nat → Nat
  | 0, acc => acc
  | n + 1, acc =>
    let c := acc + 2 ^ n
    isqrtAux x n (if c * c ≤ x then c else acc)
def isqrt (x : Nat) : Nat := isqrtAux x (Nat.log2 x / 2 + 1) 0

/-- R165. -/
def fSqrt (t : Ty) (r : Rnd) (sat : Bool) (a : FVal) : FRes :=
  match a with
  | .nan s => fCanon t (Flags.on s Flags.nv)
  | .inf true => fCanon t Flags.nv
  | .inf false => fInfRes t sat false
  | .num neg m e =>
    if m = 0 then { bits := fSign t neg 0, fl := 0 }
    else if neg then fCanon t Flags.nv
    else
      let k : Int := 2 * (Ty.frac t + 4)
      let k' := if (e - k) % 2 = 0 then k else k + 1
      let x := m * 2 ^ k'.toNat
      let q := isqrt x
      let s := sticky q ((e - k') / 2) (q * q != x)
      fRound t r sat false s.1 s.2

/-- R165: the reciprocal. -/
def fRcp (t : Ty) (r : Rnd) (sat : Bool) (a : FVal) : FRes := fDiv t r sat (.num false 1 0) a

/-- R165: the reciprocal square root. -/
def fRsq (t : Ty) (r : Rnd) (sat : Bool) (a : FVal) : FRes :=
  match a with
  | .nan s => fCanon t (Flags.on s Flags.nv)
  | .inf true => fCanon t Flags.nv
  | .inf false => { bits := 0, fl := 0 }
  | .num neg m e =>
    if m = 0 then let i := fInfRes t sat neg; { i with fl := Flags.dz }
    else if neg then fCanon t Flags.nv
    else
      let m' := if e % 2 = 0 then m else 2 * m
      let e' := if e % 2 = 0 then e else e - 1
      let k := Nat.log2 m' + Ty.frac t + 4
      let q := isqrt (2 ^ (2 * k) / m')
      let s := sticky q (-(e' / 2) - k) (q * q * m' != 2 ^ (2 * k))
      fRound t r sat false s.1 s.2

/-- The fractional bits of the fixed-point numbers behind the transcendental functions. -/
def fixBits : Nat := 448

/-- `Σ x^(2i+1) / (2i+1)` with alternating or equal signs: `atan` or `atanh` of a fixed-point number. -/
def fixAtan (alt : Bool) (x2 : Nat) : Nat → Nat → Nat → Int → Int
  | 0, _, _, acc => acc
  | n + 1, i, p, acc =>
    let term : Int := p / (2 * i + 1)
    let acc' := if alt && i % 2 == 1 then acc - term else acc + term
    fixAtan alt x2 n (i + 1) (p * x2 / 2 ^ fixBits) acc'

/-- `atan(1/k)` or `atanh(1/k)` in fixed point. -/
def fixAtanInv (alt : Bool) (k : Nat) : Int :=
  fixAtan alt (2 ^ fixBits / (k * k)) 300 0 (2 ^ fixBits / k) 0
/-- ln 2 = 2 atanh(1/3). -/
def fixLn2 : Int := 2 * fixAtanInv false 3
/-- π = 16 atan(1/5) - 4 atan(1/239). -/
def fixPi : Int := 16 * fixAtanInv true 5 - 4 * fixAtanInv true 239

/-- `e^x` for a fixed-point `x` from 0 to 1, by its series. -/
def fixExp (x : Nat) : Nat → Nat → Nat → Nat → Nat
  | 0, _, _, acc => acc
  | n + 1, i, p, acc => fixExp x n (i + 1) (p * x / 2 ^ fixBits / i) (acc + p)

/-- `sin x` for a fixed-point `x` from 0 to 2, by its series. -/
def fixSin (x2 : Nat) : Nat → Nat → Nat → Int → Int
  | 0, _, _, acc => acc
  | n + 1, i, p, acc =>
    let acc' := if i % 2 = 0 then acc + p else acc - p
    fixSin x2 n (i + 1) (p * x2 / 2 ^ fixBits / ((2 * i + 2) * (2 * i + 3))) acc'

/-- A finite value on the grid of the fixed-point numbers; the types of R165 hold no bit below it. -/
def toFix (m : Nat) (e : Int) : Nat :=
  if 0 ≤ e + fixBits then m * 2 ^ (e + fixBits).toNat else m / 2 ^ (-(e + fixBits)).toNat

/-- A nonzero fixed-point result that is not exact, rounded. -/
def fFix (t : Ty) (r : Rnd) (sat neg : Bool) (x : Nat) (e : Int) : FRes :=
  fRound t r sat neg (2 * x + 1) (e - 1 - fixBits)

/-- R165: 2^A; an integral A gives a power of two, every other finite A an inexact value. -/
def fExp2 (t : Ty) (r : Rnd) (sat : Bool) (a : FVal) : FRes :=
  match a with
  | .nan s => fCanon t (Flags.on s Flags.nv)
  | .inf true => { bits := 0, fl := 0 }
  | .inf false => fInfRes t sat false
  | .num neg m e =>
    if m = 0 then fRound t r sat false 1 0
    else if 10 ≤ fExpo m e then fRound t r sat false 1 (if neg then -1000 else 1000)
    else
      let x : Int := if neg then -(toFix m e : Int) else (toFix m e : Int)
      let i := x / (2 ^ fixBits : Nat)
      let f := (x % (2 ^ fixBits : Nat)).toNat
      if f = 0 then fRound t r sat false 1 i
      else fFix t r sat false (fixExp (f * fixLn2.toNat / 2 ^ fixBits) 110 1 (2 ^ fixBits) 0) i

/-- R165: log2 A; a power of two gives its exponent, every other positive A an inexact value. -/
def fLog2 (t : Ty) (r : Rnd) (sat : Bool) (a : FVal) : FRes :=
  match a with
  | .nan s => fCanon t (Flags.on s Flags.nv)
  | .inf true => fCanon t Flags.nv
  | .inf false => fInfRes t sat false
  | .num neg m e =>
    if m = 0 then let i := fInfRes t sat true; { i with fl := Flags.dz }
    else if neg then fCanon t Flags.nv
    else
      let k := fExpo m e
      let one := 2 ^ fixBits
      let x := m * one / 2 ^ Nat.log2 m
      if x = one then fRound t r sat (decide (k < 0)) k.natAbs 0
      else
        let y := (x - one) * one / (x + one)
        let l := 2 * fixAtan false (y * y / one) 200 0 y 0
        let v := k * (one : Int) + l * (one : Int) / fixLn2
        fFix t r sat (decide (v < 0)) v.natAbs 0

/-- sin of π times `q / 2^fixBits`, for `q` from 0 to half a turn: 0, 1 or an inexact value. -/
def fSinPos (t : Ty) (r : Rnd) (sat neg : Bool) (q : Nat) : FRes :=
  let half := 2 ^ (fixBits - 1)
  let q' := if q ≤ half then q else 2 * half - q
  if q' = 0 then { bits := fSign t neg 0, fl := 0 }
  else if q' = half then fRound t r sat neg 1 0
  else
    let x := q' * fixPi.toNat / 2 ^ fixBits
    fFix t r sat neg (fixSin (x * x / 2 ^ fixBits) 110 0 x 0).toNat 0

/-- R165: sin(πA). -/
def fSinPi (t : Ty) (r : Rnd) (sat : Bool) (a : FVal) : FRes :=
  match a with
  | .nan s => fCanon t (Flags.on s Flags.nv)
  | .inf _ => fCanon t Flags.nv
  | .num neg m e =>
    let x := toFix m e % 2 ^ (fixBits + 1)
    if x % 2 ^ fixBits = 0 then { bits := fSign t neg 0, fl := 0 }
    else if x < 2 ^ fixBits then fSinPos t r sat neg x
    else fSinPos t r sat (!neg) (x - 2 ^ fixBits)

/-- R165: cos(πA) = sin(π(|A| + 1/2)); +0 at every A = n + 1/2. -/
def fCosPi (t : Ty) (r : Rnd) (sat : Bool) (a : FVal) : FRes :=
  match a with
  | .nan s => fCanon t (Flags.on s Flags.nv)
  | .inf _ => fCanon t Flags.nv
  | .num _ m e =>
    let x := (toFix m e + 2 ^ (fixBits - 1)) % 2 ^ (fixBits + 1)
    if x % 2 ^ fixBits = 0 then { bits := 0, fl := 0 }
    else if x < 2 ^ fixBits then fSinPos t r sat false x
    else fSinPos t r sat true (x - 2 ^ fixBits)

/-- A × 2^b (R163). -/
def fScale (t : Ty) (r : Rnd) (sat : Bool) (a : FVal) (b : Int) : FRes :=
  match a with
  | .num n m e => fRound t r sat n m (e + b)
  | v => fDeliver t r sat v

/-- R166: A rounded to an integral value in its own type. -/
def fRoundInt (t : Ty) (r : Rnd) (sat : Bool) (a : FVal) : FRes :=
  match a with
  | .num n m e =>
    let q := fQuot n m e 0 r
    if 0 ≤ e then { bits := (fRound t r sat n m e).bits, fl := 0 }
    else { bits := (fRound t .rz sat n q.1 0).bits, fl := Flags.on q.2 Flags.nx }
  | v => fDeliver t r sat v

/-- The least and greatest values of an integer type (R153). -/
def tyLo (t : Ty) : Int := if t.signed then -(2 ^ (t.bits - 1) : Nat) else 0
def tyHi (t : Ty) : Int := if t.signed then (2 ^ (t.bits - 1) : Nat) - 1 else (2 ^ t.bits : Nat) - 1

/-- R87: a floating-point value to an integer type. -/
def fToInt (t : Ty) (r : Rnd) (a : FVal) : Int × Flags :=
  match a with
  | .nan _ => (0, Flags.nv)
  | .inf true => (tyLo t, Flags.nv)
  | .inf false => (tyHi t, Flags.nv)
  | .num n m e =>
    let q := fQuot n m e 0 r
    let v : Int := if n then -(q.1 : Int) else (q.1 : Int)
    if v < tyLo t then (tyLo t, Flags.nv)
    else if tyHi t < v then (tyHi t, Flags.nv)
    else (v, Flags.on q.2 Flags.nx)

/-- An integer as an exact value. -/
def fOfInt (x : Int) : FVal := .num (decide (x < 0)) x.natAbs 0

/-- Order of two values that are not NaN, with -0 below +0 when `z` (R164, R101). -/
def fLt (z : Bool) (a b : FVal) : Bool :=
  match a, b with
  | .nan _, _ | _, .nan _ => false
  | .inf x, .inf y => x && !y
  | .inf x, .num .. => x
  | .num .., .inf y => !y
  | .num x m e, .num y n f =>
    if m = 0 && n = 0 then z && x && !y
    else
      let g := if e < f then e else f
      decide (FVal.onGrid g (.num x m e) < FVal.onGrid g (.num y n f))

/-- Equality of values; -0 equals +0, a NaN equals nothing (R166). -/
def fEq (a b : FVal) : Bool := !a.isNaN && !b.isNaN && !fLt false a b && !fLt false b a

/-- R164: which operand `fmin` or `fmax` selects: 0 the canonical NaN, 1 the first, 2 the second. -/
def fPick (maxi : Bool) (a b : FVal) : Nat :=
  if a.isNaN && b.isNaN then 0
  else if a.isNaN then 2
  else if b.isNaN then 1
  else if maxi then (if fLt true a b then 2 else 1) else (if fLt true b a then 2 else 1)

/-- R164 on register bits of an element type. -/
def fMinMax (t : Ty) (maxi : Bool) (a b : Nat) : FRes :=
  let x := fDec t a
  let y := fDec t b
  { bits := match fPick maxi x y with | 0 => fNaN t | 1 => a | _ => b, fl := sigFlag [x, y] }

/-- R166: the condition codes of `fcmp`. -/
def fCmp (cc : Nat) (a b : FVal) : Bool :=
  let un := a.isNaN || b.isNaN
  match cc with
  | 0 => fEq a b
  | 1 => !fEq a b
  | 2 => !un && fLt false a b
  | 3 => !un && !fLt false b a
  | 4 => !un && fLt false b a
  | 5 => !un && !fLt false a b
  | 6 => !un
  | _ => un

/-- R166: the class bit of a value. -/
def fClass (t : Ty) (a : FVal) : Nat :=
  match a with
  | .nan true => 1
  | .nan false => 2
  | .inf true => 4
  | .inf false => 512
  | .num n m e =>
    if m = 0 then (if n then 32 else 64)
    else if fExpo m e < Ty.emin t then (if n then 16 else 128)
    else (if n then 8 else 256)

/-- ABS then NEG on the low `w` bits (R147). -/
def fSignOps (w : Nat) (ab ng : Bool) (x : Nat) : Nat :=
  let s := 2 ^ (w - 1)
  let y := if ab then x % s else x % (2 * s)
  if ng then (if y < s then y + s else y - s) else y

/-- ABS and NEG on a register of a type; a packed type on both elements (R147, R81). -/
def tySignOps (t : Ty) (ab ng : Bool) (x : Nat) : Nat :=
  if t.packed then fSignOps 16 ab ng (x % 65536) + 65536 * fSignOps 16 ab ng (x / 65536 % 65536)
  else fSignOps t.bits ab ng x

/-- An operation on a floating-point register, on each element of a packed type (R81). -/
def perElem (t : Ty) (f : Nat → FRes) : FRes :=
  if t.packed then
    let lo := f 0
    let hi := f 1
    { bits := lo.bits + 65536 * hi.bits, fl := lo.fl ||| hi.fl }
  else f 0

/-- Element `k` of a register of a type (R81). -/
def elemOf (t : Ty) (k x : Nat) : Nat := if t.packed then x / 65536 ^ k % 65536 else x % 2 ^ t.bits

end Sys2Proof.Machine
end

