-- ==== Sys2Proof/Machine/Arith.lean ====
section
/-! DEFINITION. Integer arithmetic of R155 to R161 on register bits, the inline constants of R142, the random
function of R104, and the check value of R74. -/

namespace Sys2Proof.Machine

/-- The low bits of a register read as integer type T (R77). -/
def iVal (t : Ty) (x : Nat) : Int :=
  let u := x % 2 ^ t.bits
  if t.signed && decide (2 ^ (t.bits - 1) ≤ u) then (u : Int) - (2 ^ t.bits : Nat) else u

/-- `wrap(x, T)` as W bits (R153). -/
def iWrap (t : Ty) (x : Int) : Nat := (x % (2 ^ t.bits : Nat)).toNat

/-- `sat(x, T)` (R153). -/
def iSat (t : Ty) (x : Int) : Int := if x < tyLo t then tyLo t else if tyHi t < x then tyHi t else x

/-- `ext(x, T)`: a W-bit result extended to 64 bits (R153); a vector register takes the low 32. -/
def iExt (t : Ty) (x : Nat) : Nat := (iVal t x % (2 ^ 64 : Nat)).toNat

/-- The 32-bit reading of a value as signed: `sext(B, 32)`. -/
def sext32 (x : Nat) : Int := iVal .i32 x

/-- R158: quotient and remainder with the flag DZ. -/
def iDivRem (t : Ty) (a b : Nat) : Nat × Nat × Flags :=
  let x := iVal t a
  let y := iVal t b
  if y = 0 then (2 ^ t.bits - 1, iWrap t x, Flags.dz)
  else if t.signed && decide (x = tyLo t) && decide (y = -1) then (iWrap t (tyLo t), 0, 0)
  else (iWrap t (Int.tdiv x y), iWrap t (Int.tmod x y), 0)

/-- R159: the shifts and bit fields on the low W bits; `n` is the unsigned 32-bit amount. -/
def iShl (t : Ty) (a n : Nat) : Nat := if t.bits ≤ n then 0 else a * 2 ^ n % 2 ^ t.bits
def iShr (t : Ty) (a n : Nat) : Nat := if t.bits ≤ n then 0 else a % 2 ^ t.bits / 2 ^ n
def iSar (t : Ty) (a n : Nat) : Nat :=
  let u := a % 2 ^ t.bits
  let s : Int := if 2 ^ (t.bits - 1) ≤ u then (u : Int) - (2 ^ t.bits : Nat) else u
  if t.bits ≤ n then (if s < 0 then 2 ^ t.bits - 1 else 0) else iWrap t (s / (2 ^ n : Nat))
def iRot (t : Ty) (a n : Nat) : Nat :=
  let u := a % 2 ^ t.bits
  let k := n % t.bits
  (u * 2 ^ k + u / 2 ^ (t.bits - k)) % 2 ^ t.bits
def iBfe (t : Ty) (len a n : Nat) : Nat :=
  let f := if t.bits ≤ n then 0 else a % 2 ^ t.bits / 2 ^ n % 2 ^ len
  if len ≠ 0 && t.signed && decide (2 ^ (len - 1) ≤ f) then iWrap t ((f : Int) - (2 ^ len : Nat)) else f
def iBfi (t : Ty) (len a n c : Nat) : Nat :=
  let u := c % 2 ^ t.bits
  if t.bits ≤ n then u
  else
    let hi := if n + len < t.bits then n + len else t.bits
    u % 2 ^ n + a % 2 ^ (hi - n) * 2 ^ n + u / 2 ^ hi * 2 ^ hi

/-- The number of 1 bits among the low `n`. -/
def popCount (x : Nat) : Nat → Nat
  | 0 => 0
  | n + 1 => x % 2 + popCount (x / 2) n
def iPopc (t : Ty) (a : Nat) : Nat := popCount a t.bits
def iClz (t : Ty) (a : Nat) : Nat :=
  let u := a % 2 ^ t.bits
  if u = 0 then t.bits else t.bits - 1 - Nat.log2 u
/-- The low `n` bits reversed. -/
def bitRev (x : Nat) : Nat → Nat
  | 0 => 0
  | n + 1 => x % 2 * 2 ^ n + bitRev (x / 2) n
def iBrev (t : Ty) (a : Nat) : Nat := bitRev a t.bits

/-- The comparisons of R157 (codes 0 to 5). -/
def iCmp (cc : Nat) (a b : Int) : Bool :=
  match cc with
  | 0 => decide (a = b)
  | 1 => decide (a ≠ b)
  | 2 => decide (a < b)
  | 3 => decide (a ≤ b)
  | 4 => decide (b < a)
  | _ => decide (b ≤ a)

/-- R160: the address of `lea`. -/
def iLea (t : Ty) (sh : Nat) (sx : Bool) (a b : Nat) : Nat :=
  let x : Int := if sx then sext32 b else (b % 2 ^ 32 : Nat)
  iWrap t (iVal t a + x * (2 ^ sh : Nat))

/-- R160: the byte permutation. -/
def iPrmt (a b c : Nat) : Nat :=
  let pool := a % 2 ^ 32 + b % 2 ^ 32 * 2 ^ 32
  let byteK (k : Nat) : Nat :=
    let sel := c / 16 ^ k % 16
    let p := pool / 256 ^ (sel % 8) % 256
    if sel < 8 then p else if 128 ≤ p then 255 else 0
  byteK 0 + byteK 1 * 256 + byteK 2 * 65536 + byteK 3 * 16777216

/-- The integer of a constant entry 0 to 47 (R142). -/
def kInt (n : Nat) : Int := if n < 32 then n else -((n : Int) - 31)

/-- The exact value of a constant entry; entries 56 to 63 are reciprocals of 3, 5, 6, 7, 9, 10, 12 and π. -/
def kFlt (t : Ty) (n : Nat) : Nat :=
  if n < 48 then (fRound t .rne false (decide (kInt n < 0)) (kInt n).natAbs 0).bits
  else if n < 56 then (fRound t .rne false false 1 (-((n : Int) - 47))).bits
  else if n = 63 then
    (fFix t .rne false false (2 ^ (2 * fixBits) / fixPi.toNat) 0).bits
  else
    let d := match n with | 56 => 3 | 57 => 5 | 58 => 6 | 59 => 7 | 60 => 9 | 61 => 10 | _ => 12
    (fDiv t .rne false (.num false 1 0) (.num false d 0)).bits

/-- The register value a constant entry supplies to an operand of the type (R142): an integer modulo its width, or
a value rounded RNE, in both elements of a packed type. -/
def kBits (t : Ty) (n : Nat) : Nat :=
  if t.isInt then iWrap t (kInt n)
  else if t.packed then kFlt t.elem n * 65537
  else kFlt t n

/-- Rotation of 32 bits to the left. -/
def rotl32 (x n : Nat) : Nat := (x * 2 ^ n + x % 2 ^ 32 / 2 ^ (32 - n)) % 2 ^ 32

/-- The random function of R104. -/
def rng32 (key ctr : Nat) : Nat :=
  let round (s : Nat × Nat × Nat × Nat) (c : Nat × Nat) : Nat × Nat × Nat × Nat :=
    let a := rotl32 ((s.1 + Nat.xor s.2.1 s.2.2.1) % 2 ^ 32) c.1
    let b := rotl32 ((s.2.1 + Nat.xor a s.2.2.2) % 2 ^ 32) c.2
    (a, b, (s.2.2.1 + 0x9E3779B9) % 2 ^ 32, (s.2.2.2 + 0xBB67AE85) % 2 ^ 32)
  let s := [(7, 19), (11, 23), (13, 5), (17, 9)].foldl round
    (ctr % 2 ^ 32, ctr / 2 ^ 32 % 2 ^ 32, key % 2 ^ 32, key / 2 ^ 32 % 2 ^ 32)
  Nat.xor s.1 s.2.1

/-- R171: the draw of `rng` as its type. -/
def rngVal (t : Ty) (key ctr : Nat) : Nat :=
  let w := rng32 key ctr
  if t == .f32 then (fRound .f32 .rne false false (w / 256) (-24)).bits else w

/-- One byte of the check value of R74. -/
def crcByte (c : Nat) (b : Byte) : Nat :=
  (List.range 8).foldl
    (fun c _ => if 32768 ≤ c then Nat.xor (c * 2) 0x1021 % 65536 else c * 2 % 65536) (Nat.xor c (b.toNat * 256))

/-- The 16-bit check value of a sector (R74). -/
def crc16 (bs : List Byte) : BitVec 16 := BitVec.ofNat 16 (bs.foldl crcByte 0xFFFF)

end Sys2Proof.Machine
end

