-- ==== Sys2Proof/Machine/TileFn.lean ====
section
/-! DEFINITION. Tile contents and the arithmetic of tiles: control registers (R90, R91), element placement (R84,
R92), format words (R93 to R95), blocks (R82, R83), matrix sums (R97 to R101), quantisation (R236), and histogram
bins (R103). A tile is worked on as an array of its 4,096 bytes. -/

namespace Sys2Proof.Machine

/-- The words from key `k` on, `n` of them, of a container whose keys rise. -/
def Cells.dump {w : Nat} : Cells w → Nat → Nat → List (BitVec w)
  | _, _, 0 => []
  | [], k, n + 1 => 0 :: Cells.dump [] (k + 1) n
  | (a, v) :: t, k, n + 1 =>
    if a = k then v :: Cells.dump t (k + 1) n else 0 :: Cells.dump ((a, v) :: t) (k + 1) n

/-- The container of a list of words at keys `k` on. -/
def Cells.ofList {w : Nat} : Nat → List (BitVec w) → Cells w
  | _, [] => []
  | k, v :: t => if v = 0 then Cells.ofList (k + 1) t else (k, v) :: Cells.ofList (k + 1) t

abbrev TileArr := Array Byte

def tileArr (c : Cells 8) : TileArr := (Cells.dump c 0 4096).toArray
def tileOfArr (a : TileArr) : Cells 8 := Cells.ofList 0 a.toList

/-- A tile control register (R90). -/
abbrev Tc := BitVec 32
def Tc.v (t : Tc) : Bool := t.getLsbD 22
def Tc.layout (t : Tc) : Nat := t.toNat / 2 ^ 20 % 4
def Tc.col (t : Tc) : Bool := Tc.layout t == 1
def Tc.code (t : Tc) : Nat := t.toNat / 2 ^ 16 % 16
def Tc.ty (t : Tc) : Ty := (Ty.ofCode (Tc.code t)).getD .i8
def Tc.rows (t : Tc) : Nat := t.toNat / 256 % 32 + 1
def Tc.cols (t : Tc) : Nat := t.toNat % 256 + 1

/-- The element types of tiles (R90). -/
def tileTy (t : Ty) : Bool :=
  t == .i8 || t == .i32 || t == .n8 || t == .f16 || t == .bf16 || t == .f32 || t == .dx8 || t == .dx4

/-- R91: the values `tcfg` accepts. A value with V = 0 unconfigures the tile. -/
def Tc.legal (t : Tc) : Bool :=
  t.toNat / 2 ^ 23 == 0 && t.toNat / 2 ^ 13 % 8 == 0 && decide (Tc.layout t ≤ 1) && tileTy (Tc.ty t)
  && decide (Tc.rows t * Tc.cols t * (Tc.ty t).bits ≤ 32768)
  && (!(Tc.ty t == .dx8 || Tc.ty t == .dx4) || (!Tc.col t && Tc.cols t % 32 == 0))

def Ty.isDx (t : Ty) : Bool := t == .dx8 || t == .dx4

/-- The element offset of (i, j) (R92). -/
def Tc.off (t : Tc) (i j : Nat) : Nat := if Tc.col t then j * Tc.rows t + i else i * Tc.cols t + j

def arrByte (a : TileArr) (n : Nat) : Nat := (a.getD n 0).toNat

/-- `el(t, i, j)` of R220. -/
def elGet (a : TileArr) (t : Tc) (i j : Nat) : Nat :=
  let o := Tc.off t i j
  match (Tc.ty t).bits with
  | 4 => arrByte a (o / 2) / 16 ^ (o % 2) % 16
  | 8 => arrByte a o
  | 16 => arrByte a (2 * o) + 256 * arrByte a (2 * o + 1)
  | _ => arrByte a (4 * o) + 256 * arrByte a (4 * o + 1) + 65536 * arrByte a (4 * o + 2)
      + 16777216 * arrByte a (4 * o + 3)

def arrPut (a : TileArr) (n v : Nat) : TileArr := a.setIfInBounds n (BitVec.ofNat 8 v)

/-- The element (i, j) replaced. -/
def elPut (a : TileArr) (t : Tc) (i j v : Nat) : TileArr :=
  let o := Tc.off t i j
  match (Tc.ty t).bits with
  | 4 =>
    let b := arrByte a (o / 2)
    arrPut a (o / 2) (if o % 2 = 0 then b / 16 * 16 + v % 16 else b % 16 + v % 16 * 16)
  | 8 => arrPut a o v
  | 16 => arrPut (arrPut a (2 * o) v) (2 * o + 1) (v / 256)
  | _ => arrPut (arrPut (arrPut (arrPut a (4 * o) v) (4 * o + 1) (v / 256)) (4 * o + 2) (v / 65536)) (4 * o + 3)
      (v / 16777216)

/-- Elements (i, j) with `i` in `is` and `j < n` replaced by `f i j`, where it gives a value. -/
def elFill (a : TileArr) (t : Tc) (is : List Nat) (n : Nat) (f : Nat → Nat → Option Nat) : TileArr :=
  is.foldl (fun a i => (List.range n).foldl (fun a j =>
    match f i j with
    | some v => elPut a t i j v
    | none => a) a) a

/-- The value of a dual-exponent element (R82, R83). -/
def dxVal (t : Ty) (x e0 e1 : Nat) : FVal :=
  if e0 = 255 || e1 = 255 then .nan false
  else if t == .dx8 then .num (x / 64 % 2 == 1) (x % 64) (((if x / 128 % 2 = 1 then e1 else e0 : Nat) : Int) - 127)
  else .num (x / 4 % 2 == 1) (x % 4) (((if x / 8 % 2 = 1 then e1 else e0 : Nat) : Int) - 127)

/-- The fields of a format word (R93). -/
def fmtA (w : Nat) : Ty := (Ty.ofCode (w / 2 ^ 24 % 16)).getD .i8
def fmtB (w : Nat) : Nat := w / 2 ^ 20 % 16
def fmtC (w : Nat) : Ty := (Ty.ofCode (w / 2 ^ 16 % 16)).getD .i8
def fmtSemi (w : Nat) : Nat := w / 2 ^ 13 % 8
def fmtRnd (w : Nat) : Rnd := Rnd.ofCode (w / 2 ^ 11 % 4)
def fmtSat (w : Nat) : Bool := w / 2 ^ 10 % 2 == 1
def fmtSA (w : Nat) : Nat := w / 2 ^ 9 % 2
def fmtSB (w : Nat) : Nat := w / 2 ^ 8 % 2
def fmtResv (w : Nat) : Bool := w % 256 == 0 && w / 2 ^ 28 % 16 == 0

/-- R95: the depth K of a legal `mma` word; none for an illegal one. -/
def fmtMma (w : Nat) : Option Nat :=
  let a := fmtA w
  let c := fmtC w
  let s := fmtSemi w
  let noS := fmtSA w == 0 && fmtSB w == 0
  if !(fmtResv w && fmtB w == a.code) then none
  else match a with
    | .f16 => if (c == .f16 || c == .f32) && decide (s ≤ 3) && noS then some 32 else none
    | .bf16 => if (c == .bf16 || c == .f32) && decide (s ≤ 3) && noS then some 32 else none
    | .f32 => if c == .f32 && decide (s ≤ 3) && noS then some 16 else none
    | .i8 => if c == .i32 && s == 0 && fmtRnd w == .rne && noS then some 64 else none
    | .n8 => if c == .n8 && s == 4 && fmtRnd w == .rne && !fmtSat w && noS then some 64 else none
    | .dx8 => if c == .f32 && s == 0 then some 64 else none
    | .dx4 => if c == .f32 && s == 0 && noS then some 128 else none
    | _ => none

/-- R235: the words `tquant` and `tcvt` accept. -/
def fmtQuant (w : Nat) : Bool :=
  fmtResv w && fmtB w == 0 && fmtSemi w == 0 && fmtSA w == 0 && fmtSB w == 0
  && (fmtA w).trans && Ty.isDx (fmtC w)
def fmtCvt (w : Nat) : Bool :=
  fmtResv w && fmtB w == 0 && fmtSemi w == 0 && fmtSA w == 0 && fmtSB w == 0
  && (((fmtA w).trans && (fmtC w).trans && fmtA w != fmtC w)
    || ((fmtA w).trans && fmtC w == .i8 && !fmtSat w)
    || (fmtA w == .i32 && (fmtC w).trans)
    || (Ty.isDx (fmtA w) && (fmtC w).trans))

/-- `trunc(x, 2^g)` of R98, on the grid, and whether bits were discarded. -/
def truncGrid (g : Int) : FVal → Int × Bool
  | .num n m e =>
    let q := fQuot n m e g .rz
    (if n then -(q.1 : Int) else (q.1 : Int), q.2)
  | _ => (0, false)

/-- `msum` of R98 on the exact products (with the flag of each) and the accumulator. -/
def msum (t : Ty) (r : Rnd) (sat : Bool) (xs : List (FVal × Flags)) (c : FVal) : FRes :=
  let vs := c :: xs.map Prod.fst
  if vs.any FVal.isNaN || (vs.any (fun v => v.isInf && v.neg) && vs.any (fun v => v.isInf && !v.neg)) then
    fCanon t Flags.nv
  else match vs.find? FVal.isInf with
    | some v => fInfRes t sat v.neg
    | none =>
      match vs.filter (fun v => !v.isZero) with
      | [] => { bits := fSign t (vs.all FVal.neg || r == .rd) 0, fl := 0 }
      | y :: ys =>
        let ex : FVal → Int := fun v => match v with | .num _ m e => fExpo m e | _ => 0
        let m := ys.foldl (fun a v => if a < ex v then ex v else a) (ex y)
        let ts := (y :: ys).map (truncGrid (m - 48))
        let s : Int := ts.foldl (fun (a : Int) p => a + p.1) 0
        let nx := Flags.on (ts.any Prod.snd) Flags.nx
        if s = 0 then { bits := fSign t (r == .rd) 0, fl := nx }
        else let d := fRound t r sat (decide (s < 0)) s.natAbs (m - 48); { d with fl := d.fl ||| nx }

/-- R101: the exact minimum or maximum of the accumulator and the combined terms. -/
def mpick (t : Ty) (maxi : Bool) (r : Rnd) (sat : Bool) (xs : List FVal) (c : FVal) : FRes :=
  if c.isNaN || xs.any FVal.isNaN then fCanon t Flags.nv
  else fDeliver t r sat (xs.foldl (fun a v => if maxi then (if fLt true a v then v else a)
    else (if fLt true v a then v else a)) c)

/-- The reduce identity of a semiring on the accumulator type (R100). -/
def semiId (semi : Nat) : FVal :=
  match semi with
  | 1 => .inf false
  | 2 | 3 => .inf true
  | _ => .num false 0 0

/-- One output element of `mma` with a floating accumulator (R97 to R101). -/
def mmaFlt (t : Ty) (semi : Nat) (r : Rnd) (sat : Bool) (xs : List (FVal × FVal)) (c : FVal) : FRes :=
  match semi with
  | 0 => msum t r sat (xs.map (fun p => fMulV p.1 p.2)) c
  | 1 => mpick t false r sat (xs.map (fun p => (fSumV r [p.1, p.2]).1)) c
  | 2 => mpick t true r sat (xs.map (fun p => (fSumV r [p.1, p.2]).1)) c
  | _ => mpick t true r sat (xs.map (fun p => (fMulV p.1 p.2).1)) c

/-- One output element of `mma` on i8 (R99): the 32 result bits and the flag OF. -/
def mmaInt (sat : Bool) (xs : List (Int × Int)) (c : Int) : FRes :=
  let s : Int := xs.foldl (fun (a : Int) p => a + p.1 * p.2) c
  if tyLo .i32 ≤ s ∧ s ≤ tyHi .i32 then { bits := iWrap .i32 s, fl := 0 }
  else { bits := iWrap .i32 (if sat then iSat .i32 s else s), fl := Flags.ovf }

/-- One output element of the or-and semiring (R99). -/
def mmaOr (xs : List (Nat × Nat)) (c : Nat) : FRes :=
  { bits := if c ≠ 0 || xs.any (fun p => p.1 != 0 && p.2 != 0) then 1 else 0, fl := 0 }

/-- The quantised block of R236: the 32 element codes, E0, E1 and the flags. -/
def quantBlock (a t : Ty) (r : Rnd) (sat : Bool) (xs : List Nat) : List Nat × Nat × Nat × Flags :=
  let b : Nat := if t == .dx8 then 6 else 2
  let mmax := 2 ^ b - 1
  let vs := xs.map (fun x => match fDec a x with
    | .inf n => if sat then fDec a (fSign a n (fMax a)) else .inf n
    | v => v)
  if vs.any (fun v => v.isNaN || v.isInf) then
    (xs.map (fun _ => 0), 255, 255, Flags.on (vs.any (fun v => v.isSig || v.isInf)) Flags.nv)
  else
    let q := vs.foldl (fun (acc : Option Int) v => match v with
      | .num _ m e => if m = 0 then acc else
          (match acc with
          | none => some (fExpo m e)
          | some x => some (if x < fExpo m e then fExpo m e else x))
      | _ => acc) none
    let n (v : FVal) (e : Int) : Nat × Bool := match v with
      | .num ng m x => fQuot ng m x (e - 127) r
      | _ => (0, false)
    let e1 : Int := match q with
      | none => b
      | some x => if x - b + 1 + 127 < b then b else x - b + 1 + 127
    let e1' := if vs.any (fun v => decide (mmax < (n v e1).1)) then e1 + 1 else e1
    let e0 := e1' - b
    let one (v : FVal) : Nat × Bool :=
      let n0 := n v e0
      let sg := if v.neg then mmax + 1 else 0
      if n0.1 ≤ mmax then (n0.1 + sg, n0.2)
      else let n1 := n v e1'; (n1.1 + sg + 2 * (mmax + 1), n1.2)
    let os := vs.map one
    (os.map Prod.fst, e0.toNat, e1'.toNat, Flags.on (os.any Prod.snd) Flags.nx)

/-- R237: one converted element. -/
def cvtElem (t : Ty) (r : Rnd) (sat : Bool) (v : FVal) : FRes :=
  if t == .i8 then
    let p := fToInt .i8 r v
    { bits := iWrap .i8 p.1, fl := p.2 }
  else fDeliver t r sat v

/-- R103: the histogram word a value counts in: 0 to 31 a bin, 32 ZERO, 33 SPECIAL. -/
def histBin (base : Int) (v : FVal) : Nat :=
  match v with
  | .num _ m e =>
    if m = 0 then 32
    else
      let x := fExpo m e - base
      if x < 0 then 0 else if 31 < x then 31 else x.toNat
  | _ => 33

/-- R228: a dual-exponent element counts without its scale bytes. -/
def histBinDx (t : Ty) (base : Int) (x : Nat) : Nat :=
  histBin base (.num false (if t == .dx8 then x % 64 else x % 4) 0)

end Sys2Proof.Machine
end

