-- ==== Sys2Proof/Machine/Access.lean ====
section
/-! DEFINITION. Accessors of the state: the numbered records of each table, and the fields of registers and records
(R90, R291, R295, R308, R314, R329, R340 and the descriptor of R268). -/

namespace Sys2Proof.Machine

/-- Bits `lo` to `lo + len - 1` of a number. -/
def fld (x lo len : Nat) : Nat := x / 2 ^ lo % 2 ^ len

/-- A number with bits `lo` to `lo + len - 1` replaced. -/
def setFld (x lo len v : Nat) : Nat := x - fld x lo len * 2 ^ lo + v % 2 ^ len * 2 ^ lo

def State.core (s : State) (c : Nat) : CoreSt := Tab.getD s.cores c CoreSt.init
def State.setCore (s : State) (c : Nat) (v : CoreSt) : State := { s with cores := Tab.set s.cores c v }
def State.updCore (s : State) (c : Nat) (f : CoreSt → CoreSt) : State := s.setCore c (f (s.core c))
def State.cluster (s : State) (k : Nat) : ClusterSt := Tab.getD s.clusters k ClusterSt.init
def State.setCluster (s : State) (k : Nat) (v : ClusterSt) : State := { s with clusters := Tab.set s.clusters k v }
def State.updCluster (s : State) (k : Nat) (f : ClusterSt → ClusterSt) : State := s.setCluster k (f (s.cluster k))
def State.mgmt (s : State) (k : Nat) : Mgmt := (s.cluster k).mc
def State.updMgmt (s : State) (k : Nat) (f : Mgmt → Mgmt) : State :=
  s.updCluster k (fun c => { c with mc := f c.mc })
def State.crew (s : State) (k : Nat) : Option Crew := Tab.get s.crews k
def State.setCrew (s : State) (k : Nat) (c : Crew) : State := { s with crews := Tab.set s.crews k c }
def State.updCrew (s : State) (k : Nat) (f : Crew → Crew) : State := { s with crews := Tab.upd s.crews k f }
def State.gang (s : State) (g : Nat) : Option Gang := Tab.get s.gangs g
def State.setGang (s : State) (g : Nat) (v : Gang) : State := { s with gangs := Tab.set s.gangs g v }
def State.updGang (s : State) (g : Nat) (f : Gang → Gang) : State := { s with gangs := Tab.upd s.gangs g f }
def State.slice (s : State) (n : Nat) : Slice := Tab.getD s.slices n Slice.init
def State.setSlice (s : State) (n : Nat) (v : Slice) : State := { s with slices := Tab.set s.slices n v }
def State.updSlice (s : State) (n : Nat) (f : Slice → Slice) : State := s.setSlice n (f (s.slice n))
def State.queue (s : State) (q : Nat) : QueueRegs := Tab.getD s.queues q QueueRegs.init
def State.setQueue (s : State) (q : Nat) (v : QueueRegs) : State := { s with queues := Tab.set s.queues q v }
def State.part (s : State) (p : Nat) : Part := Tab.getD s.parts p Part.init
def State.setPart (s : State) (p : Nat) (v : Part) : State := { s with parts := Tab.set s.parts p v }
def State.updPart (s : State) (p : Nat) (f : Part → Part) : State := s.setPart p (f (s.part p))
def State.asid (s : State) (a : Nat) : AsidRegs := Tab.getD s.asids a AsidRegs.init
def State.setAsid (s : State) (a : Nat) (v : AsidRegs) : State := { s with asids := Tab.set s.asids a v }
def State.trapRegs (s : State) (a : Nat) : TrapRegs := Tab.getD s.traps a TrapRegs.init
def State.launch (s : State) (l : Nat) : Option Launch := Tab.get s.launches l
def State.setLaunch (s : State) (l : Nat) (v : Launch) : State := { s with launches := Tab.set s.launches l v }
def State.updLaunch (s : State) (l : Nat) (f : Launch → Launch) : State :=
  { s with launches := Tab.upd s.launches l f }
def State.chan (s : State) (k : Nat) : Chan := Tab.getD s.chans k Chan.init
def State.setChan (s : State) (k : Nat) (v : Chan) : State := { s with chans := Tab.set s.chans k v }
def State.ctrHome (s : State) (o : Nat) : CtrHome := Tab.getD s.ctrHomes o CtrHome.init
def State.setCtrHome (s : State) (o : Nat) (v : CtrHome) : State := { s with ctrHomes := Tab.set s.ctrHomes o v }
def State.home (s : State) (h : Nat) : Home := s.homes.getD h { clock := 0, failed := false }
def State.setHome (s : State) (h : Nat) (v : Home) : State := { s with homes := s.homes.set h v }
def State.bridge (s : State) (k : Nat) : Bridge := s.bridges.getD k Bridge.init
def State.setBridge (s : State) (k : Nat) (v : Bridge) : State := { s with bridges := s.bridges.set k v }
/-- The serially greatest of the clocks of homes, bridges and the domain agent. -/
def State.clockAll (s : State) : Ts :=
  (s.homes.map (·.clock) ++ s.bridges.map (·.clock)).foldl Ts.smax s.dom.agent.clock

/-- The `pts` of a crew; what is written for a crew that has ended comes after everything performed so far. -/
def State.ptsOf (s : State) (key : Nat) : Ts :=
  match s.crew key with
  | some c => c.pts
  | none => s.clockAll

def State.fresh (s : State) : Nat × State := (s.nextId, { s with nextId := s.nextId + 1 })

/-- An interrupt vector raised (R297, R314, R345, R374). -/
def State.raiseIrq (s : State) (v : Nat) : State := { s with irqs := s.irqs ++ [v] }

/-! Names of crews: gang and index. -/
def crewKey (gid idx : Nat) : Nat := gid * 32 + idx
def keyGid (k : Nat) : Nat := k / 32
def keyIdx (k : Nat) : Nat := k % 32

/-- The crews of a gang that are still in the table, ascending (R9). -/
def State.gangCrews (s : State) (g : Nat) : List (Nat × Crew) := s.crews.filter (fun e => keyGid e.1 == g)
/-- The gangs on a core. -/
def State.coreGangs (s : State) (c : Nat) : List (Nat × Gang) := s.gangs.filter (fun e => e.2.core == c)
/-- The crews on a core. -/
def State.coreCrews (s : State) (c : Nat) : List (Nat × Crew) := s.crews.filter (fun e => e.2.core == c)

/-! Mesh positions: core (x, y) is number y × 32 + x (R12); compute die 0 holds columns 0 to 15; the hardware cluster
number of R301. -/
def coreX (c : Nat) : Nat := c % 32
def coreY (c : Nat) : Nat := c / 32
def coreDie (c : Nat) : Nat := coreX c / 16
def clusterOf (c : Nat) : Nat := 16 * (coreY c / 2) + coreX c / 2
/-- The four cores of a hardware cluster, ascending. -/
def clusterCores (k : Nat) : List Nat :=
  let x := k % 16 * 2
  let y := k / 16 * 2
  [y * 32 + x, y * 32 + x + 1, (y + 1) * 32 + x, (y + 1) * 32 + x + 1]

/-! The kernel descriptor (R268), as a little-endian number of 64 bytes. -/
def Launch.d (l : Launch) (lo len : Nat) : Nat := fld (leVal l.desc) lo len
def Launch.r (l : Launch) (lo len : Nat) : Nat := fld (leVal l.record) lo len
def Launch.det (l : Launch) : Bool := l.d 137 1 == 1
def Launch.clu (l : Launch) : Bool := l.d 136 1 == 1
def Launch.roled (l : Launch) : Bool := l.d 138 1 == 1
def Launch.reordN (l : Launch) : Nat := l.d 224 32
def Launch.rw (l : Launch) : Nat := l.r 112 16 + 1
def Launch.rh (l : Launch) : Nat := l.r 96 16 + 1
/-- Crews, registers per lane and tiles of role `k` of a descriptor (R268). -/
def roleOf (desc : List Byte) (k : Nat) : Nat × Nat × Nat :=
  let v := fld (leVal desc) (176 - 16 * k) 16
  (fld v 10 6, 8 * fld v 4 6, fld v 0 4)
/-- The crews of a descriptor in index order: role, registers, tiles (R17). -/
def crewPlan (desc : List Byte) : List (Nat × Nat × Nat) :=
  if fld (leVal desc) 138 1 = 1 then
    (List.range 3).flatMap (fun k => let p := roleOf desc k; List.replicate p.1 (k + 1, p.2.1, p.2.2))
  else let p := roleOf desc 0; List.replicate p.1 (0, p.2.1, p.2.2)

/-- The launch of a gang. -/
def State.gangLaunch (s : State) (g : Nat) : Option Launch :=
  match s.gang g with
  | some v => s.launch v.lslot
  | none => none
def State.gangAsid (s : State) (g : Nat) : Nat := match s.gangLaunch g with | some l => l.asid | none => 0
def State.gangPart (s : State) (g : Nat) : Nat := match s.gangLaunch g with | some l => l.part | none => 0
def State.gangDet (s : State) (g : Nat) : Bool := match s.gangLaunch g with | some l => l.det | none => false
/-- The descriptor a gang runs: its launch's, or the continuation kernel's (R304). -/
def State.gangDesc (s : State) (g : Nat) : List Byte :=
  match s.gang g, s.gangLaunch g with
  | some v, some l => if v.cont then l.contDesc else l.desc
  | _, _ => []
/-- %rw and %rh of a gang (R12, R304). -/
def State.gangRw (s : State) (g : Nat) : Nat :=
  match s.gang g, s.gangLaunch g with
  | some v, some l => if v.cont then 65536 else l.rw
  | _, _ => 1
def State.gangRh (s : State) (g : Nat) : Nat :=
  match s.gang g, s.gangLaunch g with
  | some v, some l => if v.cont then 65536 else l.rh
  | _, _ => 1
/-- The gang index G (R11, R304). -/
def State.gangG (s : State) (g : Nat) : Nat :=
  match s.gang g with
  | some v => v.gy * s.gangRw g + v.gx
  | none => 0
/-- The logical lane index of a lane (R11). -/
def State.logicalLane (s : State) (key lane : Nat) : Nat :=
  match s.gang (keyGid key) with
  | some v => (s.gangG (keyGid key) * v.n + keyIdx key) * 32 + lane
  | none => lane

/-- Partition settings (R340, R314). -/
def Part.mm (p : Part) : Bool := p.ptcfg.getLsbD 1
def Part.fvec (p : Part) : Nat := fld p.svcfg.toNat 32 8

/-- FVEC of a partition raised when FLTNEXT or ENGREQ becomes nonzero or DONE becomes 1 (R314, R340). -/
def State.raiseFvec (s : State) (p : Nat) : State := s.raiseIrq (s.part p).fvec

/-- One announcement for FLTNEXT (R314, R317). -/
def State.announce (s : State) (p v : Nat) : State :=
  let q := s.part p
  let s1 := s.setPart p { q with announce := q.announce ++ [v] }
  if q.announce.isEmpty then s1.raiseFvec p else s1

/-- Package time in ns (R248): core cycles at 2.7 GHz, 2.7 cycles per ns. -/
def State.pkgNs (s : State) : Nat := s.now * 10 / 27
/-- Microseconds in core cycles. -/
def usCycles (n : Nat) : Nat := n * 2700

end Sys2Proof.Machine
end

