-- ==== Sys2Proof/Machine/Lines.lean ====
section
/-! DEFINITION. Memory below the instructions: the physical map (R372), homes (R347), protected and lost lines (R366
to R369), check values and poison (R74 to R76), error records (R345, R346), the services of a home slice (R352,
R354, R357), spans of the L1s and cluster caches (R353), and the sending of packets (R360, R362). -/

namespace Sys2Proof.Machine

/-! ## Addresses -/

/-- The target of a physical address (R372). -/
inductive PTarget where
  | dev (o : Nat)
  | host (a : Nat)
  | pool (k off : Nat)
  | peer (p va : Nat)
  | nothing
  deriving DecidableEq, Repr

/-- The size of device memory: 576 GiB (00, R372). -/
def devSize : Nat := 0x9000000000

def PoolRegs.en (p : PoolRegs) : Bool := p.base.getLsbD 0
/-- Whether an offset of the pool window lies in a target (R380). -/
def PoolRegs.holds (p : PoolRegs) (x : Nat) : Bool :=
  let b := fld p.base.toNat 30 19 * 2 ^ 30
  p.en && decide (b ≤ x) && decide (x < b + fld p.size.toNat 0 19 * 2 ^ 30)

/-- R372. -/
def State.target (s : State) (pa : Nat) : PTarget :=
  if pa < devSize then .dev pa
  else if 2 ^ 48 ≤ pa ∧ pa < 2 ^ 49 then .host (pa - 2 ^ 48)
  else if 2 ^ 49 ≤ pa ∧ pa < 2 ^ 50 then
    match (List.range 8).find? (fun k => match s.pools[k]? with
      | some p => p.holds (pa - 2 ^ 49)
      | none => false) with
    | some k => .pool k (pa - 2 ^ 49 - (match s.pools[k]? with
        | some p => fld p.base.toNat 30 19 * 2 ^ 30
        | none => 0))
    | none => .nothing
  else if 2 ^ 51 ≤ pa ∧ pa < 2 ^ 51 + 432 * 2 ^ 40 then
    let p := (pa - 2 ^ 51) / 2 ^ 40
    if p = fld s.dom.cfg.toNat 1 9 && s.dom.cfg.getLsbD 0 then .nothing else .peer p (pa % 2 ^ 40)
  else .nothing

/-- The home die and slice of a device line (R347). -/
def lineDie (line : Nat) : Nat := Nat.xor (fld line 5 2) (fld line 13 2)
def lineSlice (line : Nat) : Nat := Nat.xor (fld line 0 5) (fld line 15 5)
/-- The HBM stack of a device line, of twelve (R347). -/
def lineStack (line : Nat) : Nat := 3 * lineDie line + fld line 7 26 % 3

/-- The PROT block that protects a device offset, if one does (R366, R367). -/
def State.protOf (s : State) (o : Nat) : Option ProtRegs :=
  s.prot.find? (fun p =>
    let b := fld p.base.toNat 30 10 * 2 ^ 30
    p.base.getLsbD 0 && p.base.getLsbD 1 && decide (b ≤ o) && decide (o < b + fld p.size.toNat 0 10 * 2 ^ 30))

/-- The mirror of an offset in a protected range (R367). -/
def ProtRegs.mirror (p : ProtRegs) (o : Nat) : Nat :=
  fld p.mir.toNat 30 10 * 2 ^ 30 + Nat.xor (o - fld p.base.toNat 30 10 * 2 ^ 30) 0x1000

def State.dieFailed (s : State) (h : Nat) : Bool := (s.home h).failed

/-- Whether a device line is lost (R369): its die has failed and it is unprotected, or its buddy has failed too. -/
def State.lost (s : State) (line : Nat) : Bool :=
  let h := lineDie line
  s.dieFailed h && ((s.protOf (line * 128)).isNone || s.dieFailed (Nat.xor h 1))

/-- The die that serves a line: its home, or the buddy of a failed one (R368). -/
def State.servDie (s : State) (line : Nat) : Nat :=
  let h := lineDie line
  if s.dieFailed h then Nat.xor h 1 else h

/-- The global slice number that serves a line (R347, R368). -/
def State.servSlice (s : State) (line : Nat) : Nat := 32 * s.servDie line + lineSlice line

/-! ## Error records -/

/-- The 64 bytes of an error record (R346). -/
def errBytes (time pa va count detail ukind unit lslot asid part cls kind : Nat) : List Byte :=
  leBytes (cls * 2 ^ 208 + kind * 2 ^ 200 + part * 2 ^ 214 + asid * 2 ^ 220 + lslot * 2 ^ 228 + unit * 2 ^ 240
    + ukind * 2 ^ 254 + detail * 2 ^ 256 + count * 2 ^ 288 + va * 2 ^ 320 + pa * 2 ^ 384 + time * 2 ^ 448) 64

/-- A request to the world outside (R375, R378, R380, R381). -/
def State.ask (s : State) (r : OutReq) : State :=
  { s with outReqs := Tab.set s.outReqs s.nextId r, nextId := s.nextId + 1 }

/-- The sectors of a line copied to its mirror when it is protected, with their timestamps (R367). -/
def State.mirrorSectors (s : State) (line : Nat) (secs : List Nat) (w : Ts) : State :=
  match s.protOf (line * 128) with
  | none => s
  | some p =>
    secs.foldl (fun s k =>
      let sec := line * 4 + k
      let m := p.mirror (sec * 32) / 32
      let n := 32 * lineDie (m / 4) + lineSlice (m / 4)
      let s1 := s.updSlice n (fun sl => { sl with sect := Tab.set sl.sect m (w, w) })
      { s1 with
        mem := Cells.putBytes s1.mem (m * 32) (Cells.bytes s1.mem (sec * 32) 32)
        poison := if s1.poison.contains sec then m :: s1.poison.filter (· != m) else s1.poison.filter (· != m)
        badChk := match Tab.get s1.badChk sec with
          | some v => Tab.set s1.badChk m v
          | none => Tab.erase s1.badChk m }) s

/-- Device memory that only the package and the driver reach, written: bytes, the poison of whole sectors, and the mirror. -/
def State.rawWrite (s : State) (o : Nat) (bs : List Byte) : State :=
  let lines := (List.range ((o + bs.length + 127) / 128 - o / 128)).map (· + o / 128)
  if lines.any s.lost then s
  else
    let whole (sec : Nat) : Bool := decide (o ≤ sec * 32) && decide (sec * 32 + 32 ≤ o + bs.length)
    let s1 := { s with mem := Cells.putBytes s.mem o bs, poison := s.poison.filter (fun k => !whole k),
                       badChk := s.badChk.filter (fun k => !whole k.1) }
    lines.foldl (fun s l => s.mirrorSectors l [0, 1, 2, 3] (s.home (lineDie l)).clock) s1

/-- Driver memory written by the package: device memory at once, other memory by a request (R345, R317). -/
def State.physWrite (s : State) (pa : Nat) (bs : List Byte) : State :=
  match s.target pa with
  | .dev o => s.rawWrite o bs
  | _ => s.ask { port := fld pa 12 1, addr := pa, what := 1, since := s.now, pkt := 0, crew := 0, entry := 0, bytes := bs }

/-- An error record written, or dropped and counted (R345). -/
def State.errRecord (s : State) (pa va count detail ukind unit lslot asid part cls kind : Nat) : State :=
  let e := s.err
  let k := fld e.cfg.toNat 1 5
  if !e.cfg.getLsbD 0 || (e.tail - e.head).toNat == 2 ^ k then
    { s with err := { e with lost := if e.lost.toNat = 2 ^ 32 - 1 then e.lost else e.lost + 1 } }
  else
    let a := e.base.toNat + 64 * (e.tail.toNat % 2 ^ k)
    let s1 := s.physWrite a (errBytes s.pkgNs pa va count detail ukind unit lslot asid part cls kind)
    ({ s1 with err := { e with tail := e.tail + 1 } }).raiseIrq (fld e.cfg.toNat 8 8)

/-! ## Error records of the links (R344, R346, R400) -/

/-- The unit of a link's records: CXL port 0 or 1, or the domain agent. -/
def linkUnit (k : Nat) : Nat := if k < 2 then k else 20

/-- INPOISON and EGRESS; `peer` tells the DETAIL. -/
def State.linkRecord (s : State) (k pa kind : Nat) : State :=
  s.errRecord pa 0 1 (if k < 2 then 0 else 1) 2 (linkUnit k) 0xFFF 0 0 0 kind

/-! ## Sectors of device memory (R74 to R76) -/

def State.secPoison (s : State) (sec : Nat) : Bool := s.poison.contains sec

/-- Whether a sector's bytes agree with its stored check value (R74, R75). -/
def State.chkOk (s : State) (sec : Nat) : Bool :=
  match Tab.get s.badChk sec with
  | none => true
  | some c => c == crc16 (Cells.bytes s.mem (sec * 32) 32)

/-- For whom an access is made, as an error record names it (R346): the core that finds an error, where that is not the
sector's home slice (R400), the virtual address when the finder has it, launch, address space, partition, and the class of
the trap that the access raises on an error. -/
structure Finder where
  core : Option Nat
  va : Nat
  lslot : Nat
  asid : Nat
  part : Nat
  cls : Nat
  deriving DecidableEq, Repr

/-- The finder at some bytes further on. -/
def Finder.shift (f : Finder) (d : Nat) : Finder := if f.va = 0 then f else { f with va := f.va + d }
/-- An access that no launch is involved in. -/
def Finder.nobody : Finder := { core := none, va := 0, lslot := 0xFFF, asid := 0, part := 0, cls := 0 }
/-- An access for a gang. -/
def State.finder (s : State) (gid cls : Nat) : Finder :=
  match s.gang gid with
  | some g => { core := none, va := 0, lslot := g.lslot, asid := s.gangAsid gid, part := s.gangPart gid, cls := cls }
  | none => { Finder.nobody with cls := cls }

/-- An access of the dispatcher or of a launch's end, for its launch. -/
def State.launchFinder (s : State) (lslot va : Nat) : Finder :=
  match s.launch lslot with
  | some l => { Finder.nobody with va := va, lslot := lslot, asid := l.asid, part := l.part }
  | none => Finder.nobody

/-- A sector whose check value fails is poisoned and recorded, once (R75, R344, R346, R400). -/
def State.verify (s : State) (sec : Nat) (f : Finder) : State :=
  if s.secPoison sec || s.chkOk sec then s
  else
    let stored := (Tab.getD s.badChk sec 0).toNat
    let comp := (crc16 (Cells.bytes s.mem (sec * 32) 32)).toNat
    ({ s with poison := sec :: s.poison }).errRecord (sec * 32) f.va 1 (stored + 65536 * comp)
      (if f.core.isSome then 0 else 1) (f.core.getD (s.servSlice (sec / 4))) f.lslot f.asid f.part f.cls 1

/-- Bytes merged into one sector (R75, R76): a part of a poisoned sector is dropped; a whole sector clears poison. -/
def State.mergeSector (s : State) (sec : Nat) (bs : List (Nat × Byte)) (f : Finder) : State :=
  if bs.length = 32 then
    { s with mem := bs.foldl (fun m e => Cells.set m (sec * 32 + e.1) e.2) s.mem,
             poison := s.poison.filter (· != sec), badChk := Tab.erase s.badChk sec }
  else
    let s1 := s.verify sec f
    if s1.secPoison sec then s1
    else { s1 with mem := bs.foldl (fun m e => Cells.set m (sec * 32 + e.1) e.2) s1.mem, badChk := Tab.erase s1.badChk sec }

/-- The bytes of a line by offset, bit 8 marking presence. -/
abbrev LineBytes := Cells 9

def LineBytes.mk (bs : List (Nat × Byte)) : LineBytes :=
  bs.foldl (fun m e => Cells.set m e.1 (BitVec.ofNat 9 (256 + e.2.toNat))) []
def LineBytes.list (b : LineBytes) : List (Nat × Byte) := b.map (fun e => (e.1, BitVec.ofNat 8 e.2.toNat))
/-- The bytes of sector `k` of the line, by offset in the sector. -/
def LineBytes.sector (b : LineBytes) (k : Nat) : List (Nat × Byte) :=
  (LineBytes.list b).filterMap (fun e => if e.1 / 32 = k then some (e.1 % 32, e.2) else none)
def LineBytes.sectors (b : LineBytes) : List Nat := (List.range 4).filter (fun k => b.any (fun e => e.1 / 32 == k))

/-! ## The services of a home slice -/

/-- `wts` and `rts` of a sector: held in the L2, or the slice's MTS (R349). -/
def Slice.ts (sl : Slice) (sec : Nat) : Ts × Ts := Tab.getD sl.sect sec (sl.mts, sl.mts)

/-- R349: a sector leaves the L2, and MTS takes its `rts`. -/
def Slice.leave (sl : Slice) (sec : Nat) : Slice :=
  { sl with sect := Tab.erase sl.sect sec, mts := Ts.smax sl.mts (sl.ts sec).2 }

/-- Sectors of other lines that leave a slice's L2 when it holds more than its 16 ways of 128 KiB (R341); which ones is a free
value (log entries 4 and 17). -/
def Slice.makeRoom (sl : Slice) (seed line : Nat) : Slice :=
  (List.range (sl.sect.length - 65536)).foldl (fun sl i =>
    let l := (Tab.keys sl.sect).filter (fun k => k / 4 != line)
    match l[Config.evicted seed i % l.length]? with
    | some k => sl.leave k
    | none => sl) sl

/-- R356: a clock raised. -/
def State.raiseClock (s : State) (h : Nat) (t : Ts) : State :=
  let v := s.home h
  s.setHome h { v with clock := Ts.smax v.clock t }

/-- R354 WRITE, once the holds on the line are resolved: the bytes merged, `wts` and `rts` set, the clock raised, the
classes of the line's predictor entries halved (R352). -/
def State.homeWrite (s : State) (line : Nat) (bs : LineBytes) (p : Ts) (f : Finder := Finder.nobody) : State × Ts :=
  if s.lost line then (s, p)
  else
    let n := s.servSlice line
    let sl := s.slice n
    let secs := LineBytes.sectors bs
    let w := secs.foldl (fun w k => Ts.smax w ((sl.ts (line * 4 + k)).2 + 1)) p
    let sl1 := { sl with
      sect := secs.foldl (fun t k => Tab.set t (line * 4 + k) (w, w)) sl.sect,
      pred := Tab.mapV sl.pred (fun _ e => if e.line = line then { e with cls := e.cls / 2 } else e) }
    let s1 := (s.setSlice n (sl1.makeRoom s.nextId line)).raiseClock (s.servDie line) w
    let s2 := secs.foldl (fun s k => s.mergeSector (line * 4 + k) (LineBytes.sector bs k) f) s1
    (s2.mirrorSectors line secs w, w)

/-- The sectors of a span (R353). -/
def spanSectors (first cnt : Nat) : List Nat :=
  (List.range 4).filter (fun k => decide (first / 4 ≤ k) && decide (k ≤ (first + cnt - 1) / 4))

/-- The predictor's place for a span (R352). -/
def predIdx (line first : Nat) : Nat := Nat.xor (fld (line * 128) 12 12) (first * 256) % 4096

/-- The lease class of a span, and the predictor with its entry (R352). -/
def Slice.classOf (sl : Slice) (line first : Nat) : Nat × Slice :=
  let i := predIdx line first
  match Tab.get sl.pred i with
  | some e =>
    if e.line = line && e.first = first then (e.cls, sl)
    else (0, { sl with pred := Tab.set sl.pred i { line := line, first := first, cls := 0 } })
  | none => (0, { sl with pred := Tab.set sl.pred i { line := line, first := first, cls := 0 } })

def Slice.setClass (sl : Slice) (line first cls : Nat) : Slice :=
  { sl with pred := Tab.set sl.pred (predIdx line first) { line := line, first := first, cls := cls } }

/-- R354 RENEW: leases extended; EXT with the least `rts`, or DATA with the greatest `wts` and the least `rts`. -/
def State.homeRenew (s : State) (line first cnt : Nat) (p : Ts) (w : Option Ts) : State × Bool × Ts × Ts :=
  let n := s.servSlice line
  let c := (s.slice n).classOf line first
  let sl := c.2
  let secs := spanSectors first cnt
  let lease : Ts := BitVec.ofNat 32 (16 * 2 ^ c.1)
  let sect := secs.foldl (fun t k =>
    let v := sl.ts (line * 4 + k)
    Tab.set t (line * 4 + k) (v.1, Ts.smax v.2 (p + lease))) sl.sect
  let sl1 := { sl with sect := sect }
  let ts := secs.map (fun k => sl1.ts (line * 4 + k))
  let gw := match ts with | [] => p | x :: t => t.foldl (fun a v => Ts.smax a v.1) x.1
  let lr := match ts with | [] => p | x :: t => t.foldl (fun a v => if Ts.prec v.2 a then v.2 else a) x.2
  let ext := match w with
    | none => false
    | some x => ts.all (fun v => !Ts.prec x v.1)
  let sl2 := if ext then sl1.setClass line first (if c.1 < 10 then c.1 + 1 else 10) else sl1
  ((s.setSlice n (sl2.makeRoom s.nextId line)).raiseClock (s.servDie line) p, ext, gw, lr)

/-- The new value of an atomic's location (R191): add, min, max, and, or, xor, exch, inc, dec; 16 is the histogram unit's addition,
which stops at the greatest value (R103). -/
def atomNew (op : Nat) (t : Ty) (m x : Nat) : Nat :=
  let w := 2 ^ t.bits
  if t.isFlt || t.packed then
    if op = 6 then x % w
    else (perElem t (fun k =>
      let a := elemOf t k m
      let b := elemOf t k x
      match op with
      | 0 => fAdd t.elem .rne false (fDec t.elem a) (fDec t.elem b)
      | 1 => fMinMax t.elem false a b
      | _ => fMinMax t.elem true a b)).bits
  else match op with
    | 0 => (m + x) % w
    | 1 => iWrap t (if iVal t x < iVal t m then iVal t x else iVal t m)
    | 2 => iWrap t (if iVal t m < iVal t x then iVal t x else iVal t m)
    | 3 => Nat.land m x % w
    | 4 => Nat.lor m x % w
    | 5 => Nat.xor m x % w
    | 6 => x % w
    | 7 => if x % w ≤ m then 0 else m + 1
    | 16 => if w ≤ m + x then w - 1 else m + x
    | _ => if m = 0 || x % w < m then x % w else m - 1

/-- A group of lanes at one location, in ascending lane order (R60, R192, R193): the old values by lane, the value
left, and whether a lane wrote. -/
def atomGroup (op : Nat) (cas : Bool) (t : Ty) : List (Nat × Nat × Nat) → Nat → List (Nat × Nat) × Nat × Bool
  | [], m => ([], m, false)
  | (lane, x, new) :: rest, m =>
    let hit := !cas || decide (m = x % 2 ^ t.bits)
    let m' := if cas then (if hit then new % 2 ^ t.bits else m) else atomNew op t m x
    let r := atomGroup op cas t rest m'
    ((lane, m) :: r.1, r.2.1, hit || r.2.2)

/-- The lanes of each offset of an atomic, in ascending offset. -/
def atomOffsets (ops : List (Nat × Nat × Nat × Nat)) : List Nat :=
  (ops.map (fun o => o.2.1)).foldl (fun l o => if l.contains o then l else l ++ [o]) []

/-- The groups of an atomic on bytes read through `get`: old values by lane, the bytes left, by offset, of the locations that
were written. -/
def atomGroups (op : Nat) (cas : Bool) (ty : Ty) (ops : List (Nat × Nat × Nat × Nat)) (get : Nat → Byte) :
    List (Nat × Nat) × List (Nat × Byte) :=
  let n := ty.bits / 8
  (atomOffsets ops).foldl (fun acc off =>
    let m := leVal ((List.range n).map (fun k => get (off + k)))
    let g := atomGroup op cas ty (ops.filterMap (fun o => if o.2.1 = off then some (o.1, o.2.2.1, o.2.2.2) else none)) m
    (acc.1 ++ g.1, if g.2.2 then acc.2 ++ ((List.range n).zip (leBytes g.2.1 n)).map (fun e => (off + e.1, e.2)) else acc.2)) ([], [])

/-- What an ATOM at the home gives: the old values by lane, the offsets that lie in poisoned sectors, w, the bytes it wrote. -/
structure AtomAns where
  olds : List (Nat × Nat)
  bad : List Nat
  w : Ts
  bytes : LineBytes
  deriving DecidableEq, Repr

/-- R354 ATOM at the home: the groups of one line performed and written at once. A location that no lane writes counts as a
RENEW, and its `wts` rises into w when the atomic acquires (R351). A returning atomic that meets poison performs nothing
(R76, R184). -/
def State.homeAtom (s : State) (line op : Nat) (cas : Bool) (t : Ty) (ops : List (Nat × Nat × Nat × Nat)) (p : Ts)
    (ret acquire : Bool) (f : Finder) : State × AtomAns :=
  let s1 := (atomOffsets ops).foldl (fun s off => s.verify ((line * 128 + off) / 32) f) s
  let bad := (atomOffsets ops).filter (fun off => s1.secPoison ((line * 128 + off) / 32))
  if ret && !bad.isEmpty then (s1, { olds := [], bad := bad, w := p, bytes := [] })
  else
    let live := ops.filter (fun o => !bad.contains o.2.1)
    let g := atomGroups op cas t live (fun k => Cells.get s1.mem (line * 128 + k))
    let bs := LineBytes.mk g.2
    let r := if bs.isEmpty then (s1, p) else s1.homeWrite line bs p f
    let kept := (atomOffsets live).filter (fun off => !g.2.any (fun b => b.1 == off))
    let q := kept.foldl (fun (acc : State × Ts) off =>
      let e := acc.1.homeRenew line (off / 8) ((t.bits + 63) / 64) p none
      (e.1, if acquire then Ts.smax acc.2 e.2.2.1 else acc.2)) r
    (q.1, { olds := g.1, bad := bad, w := q.2, bytes := bs })

/-! ## Spans held by a core or a cluster unit (R353) -/

def State.spans (s : State) : Agent → Tab Span
  | .core c => (s.core c).l1
  | .cluster k => (s.cluster k).cc
  | _ => []
def State.setSpans (s : State) (u : Agent) (t : Tab Span) : State :=
  match u with
  | .core c => s.updCore c (fun v => { v with l1 := t })
  | .cluster k => s.updCluster k (fun v => { v with cc := t })
  | _ => s
def State.span (s : State) (u : Agent) (line : Nat) : Option Span := Tab.get (s.spans u) line
def State.setSpan (s : State) (u : Agent) (line : Nat) (v : Span) : State := s.setSpans u (Tab.set (s.spans u) line v)
def State.dropSpan (s : State) (u : Agent) (line : Nat) : State := s.setSpans u (Tab.erase (s.spans u) line)

def Span.empty : Span :=
  { first := 0, cnt := 0, bytes := [], wts := List.replicate 4 0, rts := List.replicate 4 0, poison := [], dirty := [],
    hold := 0, pending := none, order := 0 }

/-- Whether the span's clean part covers the byte at an offset. -/
def Span.covers (v : Span) (off : Nat) : Bool := decide (v.first ≤ off / 8) && decide (off / 8 < v.first + v.cnt)

/-- The clean part of a span replaced by a reply's bytes; dirty bytes stay (R353 DATA). -/
def State.install (s : State) (u : Agent) (line first cnt : Nat) (bytes : Cells 8) (w r : Ts) (poison : List Nat) :
    State :=
  let v := (s.span u line).getD Span.empty
  let secs := spanSectors first cnt
  let ws := (List.range 4).map (fun k => if secs.contains k then w else v.wts.getD k 0)
  let rs := (List.range 4).map (fun k => if secs.contains k then r else v.rts.getD k 0)
  s.setSpan u line { v with first := first, cnt := cnt, bytes := bytes, poison := poison, pending := none, wts := ws, rts := rs }

/-- R353 EXT: every sector of the span takes `rts` = r. -/
def State.extend (s : State) (u : Agent) (line first cnt : Nat) (r : Ts) : State :=
  match s.span u line with
  | none => s
  | some v =>
    let secs := spanSectors first cnt
    let rs := (List.range 4).map (fun k => if secs.contains k then r else v.rts.getD k 0)
    s.setSpan u line { v with pending := none, rts := rs }

/-- A request for a span taken back. -/
def State.unask (s : State) (u : Agent) (line : Nat) : State :=
  match s.span u line with
  | some v => s.setSpan u line { v with pending := none }
  | none => s

/-- The clean part of a span given up, with a request for it that is out: a reply to it may be older than what the unit has seen. -/
def State.forgetClean (s : State) (u : Agent) (line : Nat) : State :=
  match s.span u line with
  | none => s
  | some v =>
    if v.dirty.isEmpty && v.hold = 0 then s.dropSpan u line
    else s.setSpan u line { v with cnt := 0, bytes := [], poison := [], pending := none }

/-- R353 ACK: bytes merged into a held span; the touched sectors take `wts` = `rts` = w. -/
def State.mergeAck (s : State) (u : Agent) (line : Nat) (bs : LineBytes) (w : Ts) : State :=
  match s.span u line with
  | none => s
  | some v =>
    let secs := LineBytes.sectors bs
    let m := (LineBytes.list bs).foldl (fun m e => if v.covers e.1 then Cells.set m e.1 e.2 else m) v.bytes
    let ws := (List.range 4).map (fun k => if secs.contains k then w else v.wts.getD k 0)
    let rs := (List.range 4).map (fun k => if secs.contains k then w else v.rts.getD k 0)
    s.setSpan u line { v with bytes := m, wts := ws, rts := rs }

/-! ## Packets -/

/-- The router a unit injects at (R360). -/
def Agent.router : Agent → Nat × Nat × Nat
  | .core c => (coreDie c, coreX c % 16, coreY c)
  | .cluster k | .mgmt k => let c := (clusterCores k).getD 0 0; (coreDie c, coreX c % 16, coreY c)
  | .engine _ => (0, 0, 0)

/-- A new packet (R360). -/
def Pkt.new (kind : PKind) (src : Agent) (dst : Dest) (line : Nat) (pts : Ts) (crew entry : Nat) : Pkt :=
  let r := src.router
  { kind := kind, place := .cd r.1 r.2.1 r.2.2, src := src, dst := dst, line := line, first := 0, cnt := 0, pts := pts,
    crew := crew, entry := entry, scope := .dv, ord := .wk, bytes := [], ops := [], ans := [], poison := [], req := 0,
    ch := 0, fails := 0, stamp := 0, fresh := false }

def State.send (s : State) (p : Pkt) : State :=
  { s with net := Tab.set s.net s.nextId { p with stamp := s.nextId }, nextId := s.nextId + 1 }

/-- The port a host or pool request uses (R373): PA[12] while both ports are up. -/
def State.portOf (s : State) (pa : Nat) : Nat :=
  let k := fld pa 12 1
  if (s.bridge k).up then k else 1 - k

/-- The server of a physical line (R347, R373, R381). -/
def State.destOf (s : State) (line : Nat) : Dest :=
  match s.target (line * 128) with
  | .dev _ => .slice (s.servSlice line)
  | .peer p _ => .peer p
  | _ => .port (s.portOf (line * 128))

/-- The dirty bytes of chosen records of a line are published: a WB for each, which the crew's releases then await
(R353, R355). -/
def State.publishLine (s : State) (u : Agent) (line : Nat) (sel : Dirty → Bool) : State :=
  match s.span u line with
  | none => s
  | some v =>
    let r := v.dirty.foldl (fun (acc : State × List Dirty) d =>
      if sel d && d.sent.isNone then
        let s0 := acc.1
        let id := s0.nextId
        let p := { Pkt.new .wb u (s0.destOf line) line (s0.ptsOf d.crew) d.crew 0 with bytes := d.bytes, scope := d.scope }
        let s1 := (s0.send p).updCrew d.crew (fun c => { c with acks := c.acks ++
          [{ pkt := id, line := line, bytes := d.bytes.map Prod.fst }] })
        (s1, acc.2 ++ [{ d with sent := some id }])
      else (acc.1, acc.2 ++ [d])) (s, [])
    r.1.setSpan u line { v with dirty := r.2 }

/-- The units that may hold dirty bytes of a crew: its cluster's cache, then its core's L1. -/
def crewUnits (core : Nat) : List Agent := [.cluster (clusterOf core), .core core]

/-- Every dirty narrow span of a crew that `sel` chooses is published (R54, R355). -/
def State.publishCrew (s : State) (key : Nat) (sel : Scope → Bool) : State :=
  match s.crew key with
  | none => s
  | some c =>
    (crewUnits c.core).foldl (fun s u => (Tab.keys (s.spans u)).foldl
      (fun s line => s.publishLine u line (fun d => d.crew == key && sel d.scope)) s) s

/-- Whether a crew has unpublished dirty spans that `sel` chooses. -/
def State.hasDirty (s : State) (key : Nat) (sel : Scope → Bool) : Bool :=
  match s.crew key with
  | none => false
  | some c => (crewUnits c.core).any (fun u => (s.spans u).any (fun e => e.2.dirty.any
      (fun d => d.crew == key && d.sent.isNone && sel d.scope)))

/-- Whether scope `a` includes every agent of scope `b` (R48). -/
def Scope.ge (a b : Scope) : Bool := decide (b.code ≤ a.code)

/-! ## Counter records and their full recall by a store (R121 to R123) -/

/-- The fields of a counter record; the reserved bits as they stand. -/
structure CtrRec where
  home : Nat
  chunk : Nat
  lost : Nat
  valid : Bool
  ovf : Bool
  frozen : Bool
  resv : Nat
  deriving DecidableEq, Repr

/-- 2^48 − 1, which HOME and each allowance do not pass. -/
def ctrMax : Nat := 2 ^ 48 - 1

def ctrOf (v : Nat) : CtrRec :=
  { home := fld v 0 48, chunk := fld v 64 48, lost := fld v 128 48, valid := fld v 192 1 == 1, ovf := fld v 193 1 == 1,
    frozen := fld v 194 1 == 1,
    resv := fld v 48 16 * 2 ^ 48 + fld v 112 16 * 2 ^ 112 + fld v 176 16 * 2 ^ 176 + fld v 195 61 * 2 ^ 195 }

def CtrRec.val (r : CtrRec) : Nat :=
  r.home + r.chunk * 2 ^ 64 + r.lost * 2 ^ 128 + r.valid.toNat * 2 ^ 192 + r.ovf.toNat * 2 ^ 193 + r.frozen.toNat * 2 ^ 194
    + r.resv

/-- A record that `ctr` instructions but `ctr.init` accept (R122). -/
def CtrRec.good (r : CtrRec) : Bool := r.valid && r.resv == 0 && r.chunk != 0

/-- An addition to HOME, which stops at 2^48 − 1 with OVF (R121). -/
def CtrRec.addHome (r : CtrRec) (n : Nat) : CtrRec :=
  if ctrMax < r.home + n then { r with home := ctrMax, ovf := true } else { r with home := r.home + n }
/-- An addition to LOST (R123). -/
def CtrRec.addLost (r : CtrRec) (n : Nat) : CtrRec := { r with lost := min ctrMax (r.lost + n) }

def State.ctrGet (s : State) (o : Nat) : CtrRec := ctrOf (Cells.le s.mem o 32)

/-- A record written at its home. -/
def State.ctrPut (s : State) (o : Nat) (r : CtrRec) (p : Ts) : State × Ts :=
  s.homeWrite (o / 128) (LineBytes.mk ((List.range 32).zip (leBytes r.val 32) |>.map (fun e => (o % 128 + e.1, e.2)))) p

/-- A record changed by its home slice, at the clock of its die. -/
def State.ctrUpd (s : State) (o : Nat) (f : CtrRec → CtrRec) : State :=
  (s.ctrPut o (f (s.ctrGet o)) (s.home (s.servDie (o / 128))).clock).1

/-- The entry of a counter at a core. -/
def CoreSt.ctr? (k : CoreSt) (o : Nat) : Option CtrEntry := k.ctrs.find? (fun e => e.addr == o)

/-- An entry changed and used: it becomes the latest (R121). -/
def State.ctrUse (s : State) (core o : Nat) (f : CtrEntry → CtrEntry) : State :=
  match (s.core core).ctr? o with
  | none => s
  | some e => s.updCore core (fun k => { k with ctrs := f e :: k.ctrs.filter (fun x => x.addr != o) })

/-- The cores with an allowance, with it, in descending order, the lower core first on a tie (R123). -/
def State.ctrHolders (s : State) (o : Nat) : List (Nat × Nat) :=
  let flying (c : Nat) : Nat := (s.ctrHome o).grants.foldl (fun n g => if g.1 = c then n + g.2.getD 0 else n) 0
  let all := s.cores.filterMap (fun k => match k.2.ctr? o with
    | some e => if k.2.oos || e.allow + flying k.1 = 0 then none else some (k.1, e.allow + flying k.1)
    | none => none)
  all.foldl (fun l h =>
    l.takeWhile (fun x => decide (h.2 ≤ x.2)) ++ h :: l.dropWhile (fun x => decide (h.2 ≤ x.2))) []

/-- What a recall takes at a core: the allowance falls, and with it what the home knows of the core's queued refill. -/
def State.ctrRecallAt (s : State) (o core : Nat) (half : Bool) : State × Nat :=
  match (s.core core).ctr? o with
  | none => (s, 0)
  | some e =>
    let x := if half then (e.allow + 1) / 2 else e.allow
    let s1 := s.ctrUse core o (fun e => { e with allow := e.allow - x })
    let h := s1.ctrHome o
    (s1.setCtrHome o { h with queue := h.queue.map (fun q => if q.op = 0 && q.core = core then { q with a := q.a - x } else q) }, x)

/-- Whether any core caches a counter whose record is the sector. -/
def State.ctrCached (s : State) (o : Nat) : Bool := s.cores.any (fun k => (k.2.ctr? o).isSome)

/-- The full recall that a plain store or atomic on a record performs first, at one instant (R122); false while the home
serves a request on the counter or a grant is on its way. -/
def State.ctrSync (s : State) (o : Nat) : State × Bool :=
  if !s.ctrCached o then (s, true)
  else if (s.ctrHome o).st ≠ 0 || !(s.ctrHome o).grants.isEmpty then (s, false)
  else
    ((s.ctrHolders o).foldl (fun s h =>
      let r := s.ctrRecallAt o h.1 false
      r.1.ctrUpd o (fun c => c.addHome r.2)) s, true)

/-- The recall for every record that a stored range touches. -/
def State.ctrSyncRange (s : State) (o n : Nat) : State × Bool :=
  if s.cores.all (fun k => k.2.ctrs.isEmpty) then (s, true)
  else (List.range ((o + n + 31) / 32 - o / 32)).foldl (fun acc i =>
    let r := acc.1.ctrSync ((o / 32 + i) * 32)
    (r.1, acc.2 && r.2)) (s, true)

/-- The records of cached counters that bytes of a line change. -/
def State.ctrHit (s : State) (line : Nat) (bs : LineBytes) : List Nat :=
  ((LineBytes.sectors bs).map (fun k => line * 128 + 32 * k)).filter s.ctrCached
/-- The full recall of each of them, as of a store (R122). -/
def State.ctrSyncBytes (s : State) (line : Nat) (bs : LineBytes) : State :=
  match s.target (line * 128) with
  | .dev _ => (s.ctrHit line bs).foldl (fun s o => (s.ctrSync o).1) s
  | _ => s
/-- Whether one of them is being served by its home. -/
def State.ctrBusy (s : State) (line : Nat) (bs : LineBytes) : Bool :=
  match s.target (line * 128) with
  | .dev _ => (s.ctrHit line bs).any (fun o => (s.ctrHome o).st != 0 || !(s.ctrHome o).grants.isEmpty)
  | _ => false

/-! ## Holds (R66 to R68, R357) -/

/-- Dirty bytes taken straight to the home: the WB of a recall served in the same step as the access that needs it. -/
def State.writeBackNow (s : State) (u : Agent) (line : Nat) (sel : Dirty → Bool) : State :=
  match s.span u line with
  | none => s
  | some v =>
    let r := v.dirty.foldl (fun (acc : State × List Dirty) d =>
      if sel d then
        let s0 := acc.1
        match d.sent with
        | some _ => (s0, acc.2 ++ [d])
        | none =>
          let r := (s0.ctrSyncBytes line d.bytes).homeWrite line d.bytes (s0.ptsOf d.crew) (s0.finder (keyGid d.crew) 0)
          let s1 := r.1.updCrew d.crew (fun c => { c with pts := Ts.smax c.pts r.2 })
          (s1.mergeAck u line d.bytes r.2, acc.2)
      else (acc.1, acc.2 ++ [d])) (s, [])
    match r.1.span u line with
    | some v' => r.1.setSpan u line { v' with dirty := r.2, hold := 0 }
    | none => r.1

/-- Whether the WB of a crew's dirty bytes of a unit's line is on its way. -/
def State.wbFlies (s : State) (u : Agent) (key line : Nat) : Bool :=
  match s.span u line with
  | some v => v.dirty.any (fun d => d.crew == key && d.sent.isSome)
  | none => false

/-- R68: the sticky SCOPEMISS bit of a crew. -/
def State.scopeMiss (s : State) (key : Nat) : State := s.updCrew key (fun c => { c with status := c.status ||| 0x100 })

/-- A narrow hold ends at its home. -/
def State.dropHolder (s : State) (n line : Nat) (u : Agent) (key : Nat) : State :=
  s.updSlice n (fun sl => { sl with nht := sl.nht.filter (fun h => !(h.line == line && h.unit == u && h.crew == key)) })

/-- Whether two gangs share the cluster scope (R14, R15): one launch on one hardware cluster, and in a CLU launch one
cluster of it. -/
def State.clusterMates (s : State) (a b : Nat) : Bool :=
  match s.gang a, s.gang b with
  | some g, some h =>
    g.lslot == h.lslot && clusterOf g.core == clusterOf h.core &&
    (match s.launch g.lslot with
    | some l => !l.clu || g.cont || h.cont || (g.gx / 2 == h.gx / 2 && g.gy / 2 == h.gy / 2)
    | none => true)
  | _, _ => false

/-- Whether a crew lies inside a scope of another crew (R48, R357): the same crew, gang or cluster. -/
def State.scopeHas (s : State) (sc : Scope) (holder crew : Nat) : Bool :=
  match sc with
  | .cr => holder == crew
  | .gg => keyGid holder == keyGid crew && (s.crew crew).isSome
  | .cl => (s.crew crew).isSome && (keyGid holder == keyGid crew || s.clusterMates (keyGid holder) (keyGid crew))
  | _ => true
def State.insideScope (s : State) (h : NHolder) (crew : Nat) : Bool := s.scopeHas h.scope h.crew crew

/-- Whether the access of a crew, or of an agent that is none, comes from inside a hold's scope. -/
def State.insideOf (s : State) (h : NHolder) (crew : Option Nat) : Bool :=
  match crew with
  | some k => s.insideScope h k
  | none => false

/-- The partition whose mode decides a recall (R67, R68): the requester's for one from outside the scope, the holder's for one
from inside it, and the holder's when the access is of no crew (DESIGN CHOICE, log entry 63). -/
def State.recallPart (s : State) (h : NHolder) (crew : Option Nat) : Nat :=
  match crew with
  | some k => if s.insideScope h k then h.part else s.gangPart (keyGid k)
  | none => h.part

/-- R68: in DROP an acquire from outside the scope sets SCOPEMISS in the acquiring crew and in the holder; across partitions
the holder's status is left alone (R343). -/
def State.missBits (s : State) (h : NHolder) (acquire : Bool) (crew : Option Nat) : State :=
  if !s.insideOf h crew && (s.part (s.recallPart h crew)).mm && acquire then
    let s1 := match crew with
      | some k => s.scopeMiss k
      | none => s
    if h.part = s.recallPart h crew then s1.scopeMiss h.crew else s1
  else s

/-- The recall of one hold, served at once (R66 to R68, R357): from inside the scope the line alone; from outside, in
WIDEN every dirty narrow span of the holder, the recalled line last, so that its `wts` passes those of the others (R67); in
DROP the line, with SCOPEMISS when an acquire meets it. -/
def State.recallNow (s : State) (n : Nat) (h : NHolder) (acquire : Bool) (crew : Option Nat) : State :=
  let mine (d : Dirty) : Bool := d.crew == h.crew
  let wide := !s.insideOf h crew && !(s.part (s.recallPart h crew)).mm
  let s1 : State := match wide, s.crew h.crew with
    | true, some c => (crewUnits c.core).foldl (fun (s : State) u => ((Tab.keys (s.spans u)).filter (fun l => l != h.line)).foldl
        (fun (s : State) l => s.writeBackNow u l mine) s) s
    | _, _ => s
  ((s1.writeBackNow h.unit h.line mine).dropHolder n h.line h.unit h.crew).missBits h acquire crew

/-- Whether a crew's dirty bytes of a unit's line change a counter record whose home serves a request (R122, R123). -/
def State.wbCounts (s : State) (u : Agent) (key line : Nat) : Bool :=
  match s.span u line with
  | some v => v.dirty.any (fun d => d.crew == key && s.ctrBusy line d.bytes)
  | none => false

/-- Whether a recall served at once must wait for a WB that is on its way (R66), or for the home of a counter whose record it
changes (R122): of the line, and for an acquire that publishes every span of the holder, of any of its lines. -/
def State.recallWaits (s : State) (h : NHolder) (acquire : Bool) (crew : Option Nat) : Bool :=
  s.wbFlies h.unit h.crew h.line || s.wbCounts h.unit h.crew h.line ||
  (acquire && !s.insideOf h crew && !(s.part (s.recallPart h crew)).mm &&
    (match s.crew h.crew with
    | some c => (crewUnits c.core).any (fun u => (Tab.keys (s.spans u)).any (fun l => s.wbFlies u h.crew l || s.wbCounts u h.crew l))
    | none => false))

/-- Of some holds on a line, those that a request must end: every other crew's for a write, those whose scope leaves the
requester out for a read (R66, R357). -/
def State.holdsMet (s : State) (hs : List NHolder) (line : Nat) (write : Bool) (crew : Option Nat) : List NHolder :=
  hs.filter (fun h => h.line == line &&
    (match crew with
    | none => true
    | some k => h.crew != k && (write || !s.insideScope h k)))
def State.holdersFor (s : State) (line : Nat) (write : Bool) (crew : Option Nat) : List NHolder :=
  s.holdsMet (s.slice (s.servSlice line)).nht line write crew

/-- The hard holds of a line that a request must resolve (R378). -/
def State.hardFor (s : State) (line : Nat) (write : Bool) : List HardHold :=
  (s.slice (s.servSlice line)).hard.filter (fun h => h.line / 2 == line && (write || h.excl))

/-- Back-invalidates sent for hard holds that have not been asked yet (R378). -/
def State.askHard (s : State) (line : Nat) (write : Bool) : State :=
  s.updSlice (s.servSlice line) (fun sl => { sl with hard := sl.hard.map (fun h =>
    if h.line / 2 == line && (write || h.excl) && h.asked.isNone then { h with asked := some s.now, inv := write }
    else if h.line / 2 == line && write then { h with inv := true } else h) })

/-- A request that would carry a clock past the bound of a sweep under way (R358). -/
def State.sweepHolds (s : State) (p : Ts) : Bool :=
  match s.sweep with
  | some (t, true, _) => Ts.prec (t + BitVec.ofNat 32 (2 ^ 26 - 1)) p
  | _ => false

/-- The timestamp past every lease on a line (R354). -/
def State.lineTop (s : State) (line : Nat) : Ts :=
  let sl := s.slice (s.servSlice line)
  [1, 2, 3].foldl (fun w k => Ts.smax w ((sl.ts (line * 4 + k)).2 + 1)) ((sl.ts (line * 4)).2 + 1)

/-- An access performed at the home in one step first ends the narrow holds it meets; false when a hard hold must be
answered first, with the back-invalidate sent, or a WB is on its way, or a write would carry the clock past a sweep (R358). -/
def State.clearLine (s : State) (line : Nat) (write acquire : Bool) (crew : Option Nat) : State × Bool :=
  let hs := s.holdersFor line write crew
  if write && s.sweepHolds (s.lineTop line) then (s, false)
  else if !(s.hardFor line write).isEmpty then (s.askHard line write, false)
  else if hs.any (fun h => s.recallWaits h acquire crew) then (s, false)
  else (hs.foldl (fun s h => s.recallNow (s.servSlice line) h acquire crew) s, true)

/-! ## Servers (R347, R373, R381) -/

/-- The home die of a domain link (R381). -/
def linkDie (l : Nat) : Nat := if l < 5 then 0 else if l < 10 then 1 else if l < 14 then 2 else 3

/-- The home die and router of a server (R347, R373, R381). -/
def Dest.router : Dest → Nat × Nat × Nat
  | .slice n => (n / 32, n % 4, n % 32 / 4)
  | .port k => (if k = 0 then 0 else 3, 0, 0)
  | .peer p => (linkDie (p % 18), 0, 0)

def Dest.place (d : Dest) : Place := .home d.router.1 d.router.2.1 d.router.2.2

/-- The narrow-holder table of a server (R357, R375). -/
def State.nhtOf (s : State) : Dest → List NHolder
  | .slice n => (s.slice n).nht
  | .port k => (s.bridge k).nht
  | .peer _ => s.dom.agent.nht
def State.setNht (s : State) (d : Dest) (l : List NHolder) : State :=
  match d with
  | .slice n => s.updSlice n (fun v => { v with nht := l })
  | .port k => s.setBridge k { s.bridge k with nht := l }
  | .peer _ => { s with dom := { s.dom with agent := { s.dom.agent with nht := l } } }

/-! ## Recalls by packet (R357) -/

/-- A RECALL sent to the unit of a hold. -/
def State.sendRecall (s : State) (d : Dest) (h : NHolder) (all : Bool) : State :=
  let s1 := s.setNht d ((s.nhtOf d).map (fun x => if x.line = h.line && x.unit = h.unit && x.crew = h.crew then { x with asked := true } else x))
  s1.send { Pkt.new (.recall all) h.unit d h.line 0 h.crew 0 with place := d.place, ch := 0 }

/-! ## Accesses of engines, barriers and drivers at the home, in one step -/

/-- The lines of a byte range of device memory. -/
def linesOf (o n : Nat) : List Nat := (List.range ((o + n + 127) / 128 - o / 128)).map (· + o / 128)

/-- Every hold on the lines of a range ended, and the counters it holds recalled for a write; false when an outside agent
or a counter's home must answer first. -/
def State.clearRange (s : State) (o n : Nat) (write acquire : Bool) (crew : Option Nat) : State × Bool :=
  let r0 := if write then s.ctrSyncRange o n else (s, true)
  (linesOf o n).foldl (fun acc l => let r := acc.1.clearLine l write acquire crew; (r.1, acc.2 && r.2)) r0

/-- A device range written at the home with timestamp p (R354); the holds are resolved. -/
def State.devWrite (s : State) (o : Nat) (bs : List Byte) (p : Ts) (f : Finder := Finder.nobody) : State × Ts :=
  (linesOf o bs.length).foldl (fun acc l =>
    let part := (List.range bs.length).zip bs |>.filterMap (fun e =>
      if (o + e.1) / 128 = l then some ((o + e.1) % 128, e.2) else none)
    let r := acc.1.homeWrite l (LineBytes.mk part) p f
    (r.1, Ts.smax acc.2 r.2)) (s, p)

/-- A device range read at the home with timestamp p: its leases are renewed, and the greatest of p and the `wts` is
returned. -/
def State.devRead (s : State) (o n : Nat) (p : Ts) : State × Ts :=
  (linesOf o n).foldl (fun acc l =>
    let lo := if l * 128 < o then o % 128 else 0
    let hi := if o + n < (l + 1) * 128 then (o + n - 1) % 128 else 127
    let r := acc.1.homeRenew l (lo / 8) (hi / 8 - lo / 8 + 1) p none
    (r.1, Ts.smax acc.2 r.2.2.1)) (s, p)

/-- Whether a byte of a range lies in a poisoned sector; sectors whose check value fails are poisoned first. -/
def State.checkRange (s : State) (o n : Nat) (f : Finder) : State × Bool :=
  (List.range ((o + n + 31) / 32 - o / 32)).foldl (fun acc i =>
    let sec := o / 32 + i
    let s1 := acc.1.verify sec (f.shift (if i = 0 then 0 else sec * 32 - o))
    (s1, acc.2 || s1.secPoison sec)) (s, false)

/-- The sectors of a range poisoned (R76), at timestamp p as a write of them is performed; their other holders learn of it as of a
write. -/
def State.devPoison (s : State) (o n : Nat) (p : Ts) : State × Ts :=
  (linesOf o n).foldl (fun acc l =>
    let secs := (List.range 4).filter (fun k => decide (o < (l * 4 + k + 1) * 32) && decide ((l * 4 + k) * 32 < o + n))
    if acc.1.lost l then acc
    else
      let bs := LineBytes.mk (secs.flatMap (fun k => (List.range 32).map (fun i => (32 * k + i, Cells.get acc.1.mem (l * 128 + 32 * k + i)))))
      let r := acc.1.homeWrite l bs p
      let s1 := { r.1 with poison := (secs.map (· + l * 4)) ++ r.1.poison.filter (fun k => !secs.contains (k - l * 4) || k < l * 4) }
      (s1.mirrorSectors l secs r.2, Ts.smax acc.2 r.2)) (s, p)

/-- Whether a range touches a lost line (R369). -/
def State.lostRange (s : State) (o n : Nat) : Bool := (linesOf o n).any s.lost

/-- The cluster unit of an agent. -/
def Agent.clusterUnit : Agent → Nat
  | .core c => clusterOf c
  | .cluster k | .mgmt k => k
  | .engine _ => 0

/-! ## Memory outside the package (R375, R380, R381): lines of 64 bytes kept at a bridge or at the domain agent -/

/-- The agent that keeps the lines of a physical address outside the package: port 0 or 1, or 2 the domain agent. -/
def State.farPort (s : State) (pa : Nat) : Nat :=
  match s.target pa with
  | .peer _ _ => 2
  | _ => s.portOf pa
def State.farAgent (s : State) (k : Nat) : Bridge := if k = 2 then s.dom.agent else s.bridge k
def State.setFarAgent (s : State) (k : Nat) (b : Bridge) : State :=
  if k = 2 then { s with dom := { s.dom with agent := b } } else s.setBridge k b
/-- The line at a physical address, if it is held. -/
def State.farLine (s : State) (pa : Nat) : Option FarLine :=
  match Tab.get (s.farAgent (s.farPort pa)).lines (pa / 64) with
  | some l => if l.st = 0 || l.st = 4 then none else some l
  | none => none
/-- The timestamp past every lease on a sector outside the package that is held, or that its agent's clock gives (R375, R380). -/
def State.farTop (s : State) (pa : Nat) : Ts :=
  match s.farLine pa with
  | some l => l.rts.getD (pa % 64 / 32) 0 + 1
  | none => (s.farAgent (s.farPort pa)).clock + 1
/-- Whether the last request for a line on behalf of an engine was refused (R211, R373, R381); the mark is taken away. -/
def State.farRefused (s : State) (pa : Nat) : Option State :=
  match s.target pa with
  | .dev _ | .nothing => none
  | _ =>
    let k := s.farPort pa
    let b := s.farAgent k
    match Tab.get b.lines (pa / 64) with
    | some l => if l.st = 4 then some (s.setFarAgent k { b with lines := Tab.erase b.lines (pa / 64) }) else none
    | none => none
/-- The DTID that a domain access of an address space carries (R381). -/
def State.dtidOf (s : State) (asid : Nat) : Nat := (Cells.get s.dom.dtout asid).toNat

/-- The address space of an access: its crew's, or of a unit that is no crew the one its finder names. -/
def State.asidOf (s : State) (crew : Option Nat) (f : Finder) : Nat :=
  match crew with
  | some key => s.gangAsid (keyGid key)
  | none => f.asid

/-- A line asked for, shared (0) or owned (2), for an address space, unless such a request is outstanding. -/
def State.askFarIn (s : State) (asid crew entry pa what : Nat) : State :=
  if s.outReqs.any (fun r => r.2.addr / 64 == pa / 64 && (r.2.what == what || r.2.what == 2) && r.2.what != 1) then s
  else s.ask { port := s.farPort pa, addr := pa / 64 * 64, what := what, since := s.now, pkt := 0, crew := crew, entry := entry,
               bytes := [], dtid := match s.target pa with | .peer _ _ => s.dtidOf asid | _ => 0 }
/-- A line asked for by a word of a crew. -/
def State.askFarFor (s : State) (crew entry pa what : Nat) : State := s.askFarIn (s.gangAsid (keyGid crew)) crew entry pa what
/-- A line asked for by a unit that is no crew. -/
def State.askFar (s : State) (asid pa what : Nat) : State := s.askFarIn asid 0 4 pa what

end Sys2Proof.Machine
end

