-- ==== Sys2Proof/Machine/Direct.lean ====
section
/-! DEFINITION. Accesses performed at their home within one step: those of management cores, pumps, engines, walkers,
barrier objects and the package controller. They resolve the holds they meet first (R66, R357, R378). -/

namespace Sys2Proof.Machine

/-- What a direct access gives. -/
inductive Dir where
  | ok (s : State) (bytes : List Byte) (ts : Ts) (poison : Bool)
  | later (s : State)
  deriving DecidableEq, Repr

/-- The part of a far line's bytes from a physical address on. -/
def FarLine.read (l : FarLine) (pa n : Nat) : List Byte := Cells.bytes l.bytes (pa % 64) n
/-- The serially greatest `wts` of the sectors of a far line that a range touches. -/
def FarLine.wtsOf (l : FarLine) (pa n : Nat) : Ts :=
  (List.range ((pa % 64 + n + 31) / 32 - pa % 64 / 32)).foldl (fun a k =>
    Ts.smax a (l.wts.getD (pa % 64 / 32 + k) 0)) (l.wts.getD (pa % 64 / 32) 0)

/-- Whether a range of a far line touches a poisoned sector (R76). -/
def FarLine.badAt (l : FarLine) (pa n : Nat) : Bool :=
  l.poison.any (fun k => decide (pa % 64 / 32 ≤ k) && decide (k < (pa % 64 + n + 31) / 32))

/-- A line outside the package is given up: a pool line is kept only until it has been read once (R380). -/
def State.dropFar (s : State) (pa : Nat) : State :=
  let k := s.farPort pa
  let b := s.farAgent k
  s.setFarAgent k { b with lines := Tab.erase b.lines (pa / 64) }

/-- The holds that an access performed in one step meets on a line outside the package: recalled by packets, and the access waits until
their WBs have come (R66, R375); a write waits for a sweep that it would pass (R358). -/
def State.clearFar (s : State) (pa : Nat) (write acquire : Bool) (crew : Option Nat) : State × Bool :=
  let d := s.destOf (pa / 128)
  let hs := s.holdsMet (s.nhtOf d) (pa / 128) write crew
  if write && s.sweepHolds (s.farTop pa) then (s, false)
  else (hs.foldl (fun s h =>
    if h.asked then s
    else (s.sendRecall d h (!s.insideOf h crew && !(s.part (s.recallPart h crew)).mm)).missBits h acquire crew) s, hs.isEmpty)

/-- A read of `n` bytes inside one 64-byte block, with timestamp p; `crew` and `acquire` for R68, `f` for R346. -/
def State.directRead (s : State) (pa n : Nat) (p : Ts) (acquire : Bool) (crew : Option Nat) (f : Finder := Finder.nobody) : Dir :=
  match s.target pa with
  | .dev o =>
    let r := s.clearRange o n false acquire crew
    if r.2 then
      let c := r.1.checkRange o n f
      let d := c.1.devRead o n p
      .ok d.1 (Cells.bytes d.1.mem o n) d.2 c.2
    else .later r.1
  | .nothing => .ok s (List.replicate n 0) p true
  | t =>
    let r := s.clearFar pa false acquire crew
    if !r.2 then .later r.1
    else match r.1.farLine pa with
      | some l =>
        let s1 := match t with | .pool _ _ => r.1.dropFar pa | _ => r.1
        .ok s1 (l.read pa n) (l.wtsOf pa n) (l.badAt pa n)
      | none => .later (r.1.askFar (r.1.asidOf crew f) pa 0)

/-- A write of some sectors of a held far line: the line changed, in state M, with the timestamp of R375. -/
def State.farTouch (s : State) (pa : Nat) (secs : List Nat) (p : Ts) (change : FarLine → FarLine) : State × Ts :=
  let k := s.farPort pa
  let b := s.farAgent k
  match Tab.get b.lines (pa / 64) with
  | none => (s, p)
  | some l =>
    let w := secs.foldl (fun w i => Ts.smax w (l.rts.getD i 0 + 1)) p
    let ts (old : List Ts) : List Ts := (List.range 2).map (fun i => if secs.contains i then w else old.getD i 0)
    let l1 := { change l with st := 3, wts := ts l.wts, rts := ts l.rts }
    (s.setFarAgent k { b with lines := Tab.set b.lines (pa / 64) l1, clock := Ts.smax b.clock w }, w)

/-- The sectors of a 64-byte line that bytes at some offsets touch, and those of them that the bytes cover whole. -/
def farSecs (es : List (Nat × Byte)) : List Nat := (List.range 2).filter (fun k => es.any (fun e => e.1 / 32 == k))
def farWhole (es : List (Nat × Byte)) : List Nat :=
  (List.range 2).filter (fun k => (List.range 32).all (fun i => es.any (fun e => e.1 == 32 * k + i)))

/-- Bytes put into a far line: those of a poisoned sector are dropped, unless they cover it whole, which clears it (R76). -/
def FarLine.put (l : FarLine) (es : List (Nat × Byte)) : FarLine :=
  let bad := l.poison.filter (fun k => !(farWhole es).contains k)
  { l with bytes := es.foldl (fun m e => if bad.contains (e.1 / 32) then m else Cells.set m e.1 e.2) l.bytes, poison := bad }

/-- Bytes, by their offset, written into a held far line at once (R354, R375). -/
def State.farPut (s : State) (pa : Nat) (es : List (Nat × Byte)) (p : Ts) : State × Ts :=
  s.farTouch pa (farSecs es) p (fun l => l.put es)

/-- A write of a range inside a held far line. -/
def State.farStore (s : State) (pa : Nat) (bs : List Byte) (p : Ts) : State × Ts :=
  s.farPut pa ((List.range bs.length).map (fun i => (pa % 64 + i, bs.getD i 0))) p

/-- A write of bytes inside one 64-byte block, with timestamp p. -/
def State.directWrite (s : State) (pa : Nat) (bs : List Byte) (p : Ts) (crew : Option Nat) (f : Finder := Finder.nobody) : Dir :=
  match s.target pa with
  | .dev o =>
    let r := s.clearRange o bs.length true false crew
    if r.2 then let d := r.1.devWrite o bs p f; .ok d.1 [] d.2 false else .later r.1
  | .nothing => .ok s [] p true
  | t =>
    let r := s.clearFar pa true false crew
    if !r.2 then .later r.1
    else
      let s := r.1
      match t with
      | .host _ => (match s.farLine pa with
        | some l => if 2 ≤ l.st then let d := s.farStore pa bs p; .ok d.1 [] d.2 false else .later (s.askFar (s.asidOf crew f) pa 2)
        | none => .later (s.askFar (s.asidOf crew f) pa 2))
      | .pool _ _ =>
        let k := s.farPort pa
        let b := s.farAgent k
        let w := Ts.smax p (b.clock + 1)
        .ok ((s.setFarAgent k { b with clock := w, lines := Tab.erase b.lines (pa / 64) }).physWrite pa bs) [] w false
      | _ => .ok (s.physWrite pa bs) [] p false

/-- A range of physical addresses cut at 64-byte blocks. -/
def cut64 (pa n : Nat) : List (Nat × Nat) :=
  (List.range ((pa + n + 63) / 64 - pa / 64)).map (fun i =>
    let lo := if i = 0 then pa else (pa / 64 + i) * 64
    let hi := if (pa / 64 + i + 1) * 64 < pa + n then (pa / 64 + i + 1) * 64 else pa + n
    (lo, hi - lo))

/-- Whether a block could be read now: a line outside the package must be held, one of this package has its holds ended. -/
def State.blockHeld (s : State) (b : Nat × Nat) (acquire : Bool) (crew : Option Nat) (f : Finder) : State × Bool :=
  match s.target b.1 with
  | .dev o => s.clearRange o b.2 false acquire crew
  | .nothing => (s, true)
  | _ =>
    let r := s.clearFar b.1 false acquire crew
    match r.1.farLine b.1 with
    | some _ => r
    | none => (r.1.askFar (r.1.asidOf crew f) b.1 0, false)

/-- Whether every block of a range could be read now; what is missing is asked for. -/
def State.rangeHeld (s : State) (pa n : Nat) (acquire : Bool) (crew : Option Nat) (f : Finder := Finder.nobody) : State × Bool :=
  (cut64 pa n).foldl (fun acc b => let r := acc.1.blockHeld b acquire crew f; (r.1, acc.2 && r.2)) (s, true)

/-- A read of a longer range, performed when every block can be: a pool line is given up only by the read that completes. -/
def State.rangeRead (s : State) (pa n : Nat) (p : Ts) (acquire : Bool) (crew : Option Nat) (f : Finder := Finder.nobody) : Dir :=
  let r := s.rangeHeld pa n acquire crew f
  if r.2 then
    (cut64 pa n).foldl (fun acc b => match acc with
      | .later s => .later s
      | .ok s bs t po => match s.directRead b.1 b.2 p acquire crew (f.shift (b.1 - pa)) with
        | .ok s1 b1 t1 p1 => .ok s1 (bs ++ b1) (Ts.smax t t1) (po || p1)
        | .later s1 => .later s1) (.ok r.1 [] p false)
  else .later r.1

/-- Whether a write of a range could be performed now. -/
def State.rangeReady (s : State) (pa n : Nat) (crew : Option Nat) (f : Finder := Finder.nobody) : State × Bool :=
  (cut64 pa n).foldl (fun acc b => match acc.1.target b.1 with
    | .dev o => let r := acc.1.clearRange o b.2 true false crew; (r.1, acc.2 && r.2)
    | .nothing => acc
    | t =>
      let r := acc.1.clearFar b.1 true false crew
      match t with
      | .host _ => (match r.1.farLine b.1 with
        | some l => if 2 ≤ l.st then (r.1, acc.2 && r.2) else (r.1.askFar (r.1.asidOf crew f) b.1 2, false)
        | none => (r.1.askFar (r.1.asidOf crew f) b.1 2, false))
      | _ => (r.1, acc.2 && r.2)) (s, true)

/-- A write of a longer range, performed when every block can be. -/
def State.rangeWrite (s : State) (pa : Nat) (bs : List Byte) (p : Ts) (crew : Option Nat) (f : Finder := Finder.nobody) : Dir :=
  let r := s.rangeReady pa bs.length crew f
  if r.2 then
    (cut64 pa bs.length).foldl (fun acc b => match acc with
      | .later s => .later s
      | .ok s _ t po => match s.directWrite b.1 ((bs.drop (b.1 - pa)).take b.2) p crew (f.shift (b.1 - pa)) with
        | .ok s1 _ t1 p1 => .ok s1 [] (Ts.smax t t1) (po || p1)
        | .later s1 => .later s1) (.ok r.1 [] p false)
  else .later r.1

/-- A poisoned write outside the package: sent with the poison indication, and recorded (R344). -/
def State.sendPoison (s : State) (pa n : Nat) : State :=
  (s.ask { port := s.farPort pa, addr := pa, what := 1, since := s.now, pkt := 0, crew := 0, entry := 0,
           bytes := List.replicate n 0, poison := true }).linkRecord (s.farPort pa) (pa / 32 * 32) 9

/-- The sectors of a range poisoned (R76), when every block can be written: in device memory, in the lines that a bridge owns, or
in memory outside, which is sent poison. -/
def State.rangePoison (s : State) (pa n : Nat) (p : Ts) (crew : Option Nat) (f : Finder := Finder.nobody) : Dir :=
  let r := s.rangeReady pa n crew f
  if r.2 then
    (cut64 pa n).foldl (fun acc b => match acc with
      | .later s => .later s
      | .ok s _ t _ => match s.target b.1 with
        | .dev o => let d := s.devPoison o b.2 p; .ok d.1 [] (Ts.smax t d.2) false
        | .nothing => .ok s [] t false
        | .host _ =>
          let secs := (List.range 2).filter (fun k => decide (b.1 % 64 / 32 ≤ k) && decide (k < (b.1 % 64 + b.2 + 31) / 32))
          let d := s.farTouch b.1 secs p (fun l => { l with poison := secs ++ l.poison.filter (fun k => !secs.contains k) })
          .ok d.1 [] (Ts.smax t d.2) false
        | _ => .ok (s.sendPoison b.1 b.2) [] t false) (.ok r.1 [] p false)
  else .later r.1

end Sys2Proof.Machine
end

