-- ==== Sys2Proof/Machine/Narrow.lean ====
section
/-! DEFINITION. Bytes held dirty in the L1s and cluster caches (R54, R353): who sees them, stores into them, and the releases that
publish them (R56, R355). -/

namespace Sys2Proof.Machine

/-- Whether a place lies in a sector that its home holds as poisoned (R76). -/
def State.homePoison (s : State) (line off : Nat) : Bool :=
  match s.target (line * 128) with
  | .dev _ => s.secPoison (line * 4 + off / 32)
  | .nothing => true
  | _ => match s.farLine (line * 128 + off) with
    | some l => l.badAt off 1
    | none => false

/-! ## Dirty bytes (R54, R353) -/

/-- Whether a crew's accesses see another crew's dirty bytes: they lie in their scope. -/
def State.seesDirty (s : State) (key : Nat) (d : Dirty) : Bool := s.scopeHas d.scope d.crew key

def Dirty.has (d : Dirty) (off : Nat) : Bool := Cells.get d.bytes off != 0
def Dirty.byte (d : Dirty) (off : Nat) : Byte := BitVec.ofNat 8 (Cells.get d.bytes off).toNat

/-- The latest dirty byte of a span that a crew sees. -/
def State.spanDirty (s : State) (key : Nat) (v : Span) (off : Nat) : Option Byte :=
  v.dirty.foldl (fun a d => if d.has off && s.seesDirty key d then some (d.byte off) else a) none

/-! ## Stores -/

/-- The stored bytes by line; the highest lane wins a byte (R47). -/
def byLine (bs : List (Nat × Byte)) : List (Nat × LineBytes) :=
  bs.foldl (fun acc b =>
    let l := b.1 / 128
    let put (m : LineBytes) : LineBytes := Cells.set m (b.1 % 128) (BitVec.ofNat 9 (256 + b.2.toNat))
    if acc.any (fun a => a.1 == l) then acc.map (fun a => if a.1 = l then (l, put a.2) else a)
    else acc ++ [(l, put [])]) []

/-- Earlier bytes of other records of the unit at these offsets give way to a later store. -/
def Span.coverDirty (v : Span) (bs : LineBytes) : List Dirty :=
  (v.dirty.map (fun d => { d with bytes := d.bytes.filter (fun b => Cells.get bs b.1 == 0) })).filter
    (fun d => !d.bytes.isEmpty || d.sent.isSome)

/-- The core that reports for a unit (R400). -/
def Agent.reporter : Agent → Nat
  | .core c => c
  | u => (clusterCores u.clusterUnit).getD 0 0

/-- The check values of the sectors that a narrow store covers in part verified, and the bytes that are not dropped with a
poisoned sector (R75, R76). -/
def State.narrowKept (s : State) (u : Agent) (key line : Nat) (bs : LineBytes) : State × LineBytes :=
  (LineBytes.sectors bs).foldl (fun (acc : State × LineBytes) k =>
    if (LineBytes.sector bs k).length = 32 then acc
    else
      let s1 := match acc.1.target (line * 128) with
        | .dev _ => acc.1.verify (line * 4 + k) { acc.1.finder (keyGid key) 0 with core := some u.reporter }
        | _ => acc.1
      let held := match s1.span u line with
        | some v => v.poison.contains k || v.poison.contains (k + 4)
        | none => false
      if held || s1.homePoison line (32 * k) then (s1, acc.2.filter (fun b => b.1 / 32 != k)) else (s1, acc.2)) (s, bs)

/-- Narrow bytes put into a unit (R54, R353): a HOLD goes to the home with the line's first dirty byte of the crew. -/
def State.narrowPut (s : State) (u : Agent) (key : Nat) (sc : Scope) (line : Nat) (bs : LineBytes) : State :=
  let v := (s.span u line).getD Span.empty
  let mine := v.dirty.find? (fun d => d.crew == key && d.scope == sc && d.sent.isNone)
  let first := !v.dirty.any (fun d => d.crew == key && d.sent.isNone)
  let old := match mine with | some d => d.bytes | none => []
  let new : LineBytes := bs.foldl (fun m b => Cells.set m b.1 b.2) old
  let rest := (v.coverDirty bs).filter (fun d => !(d.crew == key && d.scope == sc && d.sent.isNone))
  let v1 := { v with dirty := rest ++ [{ crew := key, scope := sc, bytes := new, sent := none }],
                     order := if v.dirty.isEmpty then s.nextId else v.order }
  let s1 := { s.setSpan u line v1 with nextId := s.nextId + 1 }
  if first then
    s1.send (Pkt.new (.hold sc) u (s.destOf line) line (s.ptsOf key) key 0)
  else s1

/-- A narrow store held in a unit. -/
def State.narrowStore (s : State) (u : Agent) (key : Nat) (sc : Scope) (line : Nat) (bs : LineBytes) : State :=
  let r := s.narrowKept u key line bs
  if r.2.isEmpty then r.1 else r.1.narrowPut u key sc line r.2

/-- The line with the oldest dirty bytes of a unit that are not yet published. -/
def State.oldestDirty (s : State) (u : Agent) : Option Nat :=
  ((s.spans u).filter (fun e => e.2.dirty.any (fun d => d.sent.isNone))).foldl (fun a e => match a with
    | none => some (e.1, e.2.order)
    | some b => if e.2.order < b.2 then some (e.1, e.2.order) else some b) (none : Option (Nat × Nat)) |>.map Prod.fst

/-- The lines in which a unit holds dirty bytes, published or not (R353: until the ACK). -/
def State.dirtyLines (s : State) (u : Agent) : List Nat :=
  ((s.spans u).filter (fun e => !e.2.dirty.isEmpty)).map Prod.fst

/-- The lines of dirty bytes that a unit may hold: 64 of an L1 (R353), every line of a cluster cache. -/
def Agent.dirtyMax : Agent → Nat
  | .core _ => 64
  | _ => 2048

/-- Within one word that stores to more lines than a unit may hold, each further line first publishes the oldest (R353). -/
def State.roomForDirty (s : State) (u : Agent) (line : Nat) : State :=
  let open1 := (s.spans u).filter (fun e => e.2.dirty.any (fun d => d.sent.isNone))
  if open1.any (fun e => e.1 == line) || open1.length < u.dirtyMax then s
  else match s.oldestDirty u with
    | some l => s.publishLine u l (fun _ => true)
    | none => s

/-- The unit that holds a crew's bytes of a narrow scope, and the other one on its path (R48, R54). -/
def narrowUnit (core : Nat) (sc : Scope) : Agent := if sc == .cl then .cluster (clusterOf core) else .core core
def narrowOther (core : Nat) (sc : Scope) : Agent := if sc == .cl then .core core else .cluster (clusterOf core)

/-- Whether narrow bytes may go into their unit now. Bytes that the other unit of the path holds dirty are published first, so
that the later store is seen at once and stays later at the home (R53, R54; log entry 64); and when the unit would hold dirty
bytes of too many lines, its oldest are published first (R353). -/
def State.narrowReady (s : State) (core : Nat) (sc : Scope) (ls : List (Nat × LineBytes)) : State × Bool :=
  let u := narrowUnit core sc
  let v := narrowOther core sc
  let clash := ls.filter (fun l => match s.span v l.1 with
    | some w => w.dirty.any (fun d => l.2.any (fun b => d.has b.1))
    | none => false)
  if !clash.isEmpty then (clash.foldl (fun s l => s.publishLine v l.1 (fun _ => true)) s, false)
  else
    let held := s.dirtyLines u
    let total := held.length + (ls.filter (fun l => !held.contains l.1)).length
    if ls.isEmpty || total ≤ u.dirtyMax || held.isEmpty then (s, true)
    else
      let going := (held.filter (fun l => match s.span u l with | some w => w.dirty.all (fun d => d.sent.isSome) | none => false)).length
      ((List.range (total - u.dirtyMax - going)).foldl (fun s _ => match s.oldestDirty u with
        | some l => s.publishLine u l (fun _ => true)
        | none => s) s, false)

/-! ## Releases -/

/-- R351: a release in scratch, in the L1 or at the cluster unit raises a release floor. -/
def State.releaseFloor (s : State) (core : Nat) (sc : Scope) (p : Ts) : State :=
  match sc with
  | .cr | .gg => s.updCore core (fun k => { k with crf := Ts.smax k.crf p })
  | .cl => s.updCluster (clusterOf core) (fun k => { k with crf := Ts.smax k.crf p })
  | _ => s

/-- The WBs of chosen dirty bytes of a unit's line become ones that a crew's release awaits. -/
def State.awaitLine (s : State) (key : Nat) (u : Agent) (line : Nat) (sel : Dirty → Bool) : State :=
  match s.span u line with
  | none => s
  | some v => s.updCrew key (fun c => { c with acks := c.acks ++ (v.dirty.filterMap (fun d =>
      if sel d then d.sent else none)).filterMap (fun i =>
        if c.acks.any (fun a => a.pkt == i) then none else some { pkt := i, line := line, bytes := [] }) })

/-- The dirty bytes of chosen scopes that a crew sees are published: its own, and those of the crews whose scope it lies in,
which it may have acquired (R56). -/
def State.publishSeen (s : State) (key : Nat) (sel : Scope → Bool) : State :=
  match s.crew key with
  | none => s
  | some c =>
    (crewUnits c.core).foldl (fun s u => (Tab.keys (s.spans u)).foldl (fun s line =>
      let mine (d : Dirty) : Bool := sel d.scope && s.seesDirty key d
      (s.publishLine u line mine).awaitLine key u line mine) s) s

/-- A release waits until the crew's requests are acknowledged and the dirty bytes of narrower scopes that it has written or may
have acquired are published (R56, R355); the second value says that it may go on. -/
def State.releaseReady (s : State) (key : Nat) (sc : Scope) : State × Bool :=
  let narrow (d : Scope) : Bool := !Scope.ge d sc
  let s1 := s.publishSeen key narrow
  (s1, match s1.crew key with | some c => c.acks.isEmpty | none => true)

end Sys2Proof.Machine
end

