-- ==== Sys2Proof/Machine/Images.lean ====
section
/-! DEFINITION. Saved gangs as engines and merges see them (R320 to R323, R327): the scratch area, the barrier objects
and the batch tables inside a save image. -/

namespace Sys2Proof.Machine

/-- The saved block of a gang: KIND 1 or 2, with its image (R299). -/
def State.savedBlk (s : State) (gid : Nat) : Option (Nat × Blk × Nat) :=
  s.blocks.findSome? (fun b => match b.2.save with
    | some a => if b.2.gid == some gid && (b.2.kind == 1 || b.2.kind == 2) then some (b.1, b.2, a) else none
    | none => none)

/-- Bytes of an image stored: images lie in device memory (R314). -/
def State.imgPut (s : State) (a : Nat) (bs : List Byte) : State :=
  if a + bs.length ≤ devSize then s.rawWrite a bs else s
/-- Bytes stored into the data areas of an image (R327), sector by sector as in scratch (R75, R76). -/
def State.imgMerge (s : State) (a : Nat) (bs : List Byte) : State :=
  if devSize < a + bs.length || s.lostRange a bs.length then s
  else
    let es := (List.range bs.length).zip bs |>.map (fun e => (a + e.1, e.2))
    let s1 := ((List.range ((a + bs.length + 31) / 32 - a / 32)).map (· + a / 32)).foldl (fun s sec =>
      s.mergeSector sec (es.filterMap (fun e => if e.1 / 32 = sec then some (e.1 % 32, e.2) else none)) Finder.nobody) s
    (linesOf a bs.length).foldl (fun s l => s.mirrorSectors l [0, 1, 2, 3] (s.home (lineDie l)).clock) s1

/-- Sectors of an image's data areas poisoned (R76, R327). -/
def State.imgPoisonPut (s : State) (a n : Nat) : State := (s.devPoison a n (s.home (lineDie (a / 128))).clock).1

def State.imgLe (s : State) (a n : Nat) : Nat := Cells.le s.mem a n

/-- SCROFF and SCRSZ of an image (R321). -/
def State.imgScrOff (s : State) (a : Nat) : Nat := s.imgLe (a + 112) 4
def State.imgScrSz (s : State) (a : Nat) : Nat := s.imgLe (a + 104) 4

/-- The descriptor of a block's gang. -/
def State.blkDesc (s : State) (b : Blk) : List Byte :=
  match s.launch b.lslot with
  | some l => if b.cont.isSome then l.contDesc else l.desc
  | none => []

/-- The offset of the section of crew `idx` in an image, from the register budgets of the crews below it (R320); a discard
image holds no registers (R326). -/
def imgCrewOff (kind : Nat) (desc : List Byte) (idx : Nat) : Nat :=
  ((crewPlan desc).take idx).foldl (fun a p => a + 8192 + (if kind = 3 then 0 else 128 * p.2.1)) 0x2000

/-- A scratch range of a gang as engines see it: resident, or in its image (R327). -/
def State.engScrBytes (s : State) (gid off n : Nat) : Option (List Byte) :=
  match s.gang gid with
  | some g => some (Cells.bytes g.scr off n)
  | none => match s.savedBlk gid with
    | some (_, _, a) => some (Cells.bytes s.mem (a + s.imgScrOff a + off) n)
    | none => none

/-- The 1,024 bytes of a batch table (R322): the batches that no `batch.wait` has returned; the open batch stands at the
counter's own place. -/
def Crew.batchBytes (c : Crew) : List Byte :=
  let put (m : Tab Nat) (num v : Nat) : Tab Nat := Tab.set m (num % 256) v
  let t := c.batches.foldl (fun m b => put m b.num.toNat (b.left % 256 + b.status.toNat * 256 + 2 ^ 31)) ([] : Tab Nat)
  let t1 := if c.openCmds = 0 && c.openStatus = 0 then t
    else put t c.batchCtr.toNat (c.openCmds % 256 + c.openStatus.toNat * 256)
  (List.range 256).flatMap (fun k => leBytes (Tab.getD t1 k 0) 4)

/-- A crew, resident or saved. -/
def State.anyCrew (s : State) (key : Nat) : Option Crew :=
  match s.crew key with
  | some c => some c
  | none => match s.savedBlk (keyGid key) with
    | some (_, b, _) => Tab.get b.side (keyIdx key)
    | none => none

/-- A change of a crew's batches, resident or saved; the table in the image follows (R327). -/
def State.updBatches (s : State) (key : Nat) (f : Crew → Crew) : State :=
  match s.crew key with
  | some c => s.setCrew key (f c)
  | none => match s.savedBlk (keyGid key) with
    | some (id, b, a) => match Tab.get b.side (keyIdx key) with
      | some c =>
        let c1 := f c
        let s1 := { s with blocks := Tab.set s.blocks id { b with side := Tab.set b.side (keyIdx key) c1 } }
        s1.imgPut (a + imgCrewOff b.kind (s.blkDesc b) (keyIdx key) + 0x1100) c1.batchBytes
      | none => s
    | none => s

/-- The `pts` in the crew sections of an image (R322). -/
def State.imgPts (s : State) (b : Blk) (a : Nat) : List Ts :=
  let desc := s.blkDesc b
  (List.range (crewPlan desc).length).map (fun i => BitVec.ofNat 32 (s.imgLe (a + imgCrewOff b.kind desc i + 0x208) 4))

/-- A `pts` raised in every crew section of an image (R351). -/
def State.imgRaisePts (s : State) (b : Blk) (a : Nat) (p : Ts) : State :=
  let desc := s.blkDesc b
  (List.range (crewPlan desc).length).foldl (fun s i =>
    let o := a + imgCrewOff b.kind desc i + 0x208
    s.imgPut o (leBytes (Ts.smax (BitVec.ofNat 32 (s.imgLe o 4)) p).toNat 4)) s

end Sys2Proof.Machine
end

