-- ==== Sys2Proof/Machine/Regs.lean ====
section
/-! DEFINITION. A crew's registers (R139, R141), the times at which results become readable (R144, R145, R154), and
its split table with the reconvergence records (R22 to R27). -/

namespace Sys2Proof.Machine

/-! ## Registers -/

/-- The window width W of R139. -/
def Crew.win (c : Crew) : Nat := if c.budget < 64 then c.budget else 64

/-- Logical vector register `n` of a lane. -/
def Crew.logical (c : Crew) (n lane : Nat) : Nat := (Cells.get c.vr (n * 32 + lane)).toNat
/-- vN of a lane (R139). -/
def Crew.rv (c : Crew) (n lane : Nat) : Nat := c.logical (c.wb + n) lane
/-- sN: s63 reads 0 (R141). -/
def Crew.rs (c : Crew) (n : Nat) : Nat := if n = 63 then 0 else (Cells.get c.sr n).toNat
/-- pN of a lane. -/
def Crew.rp (c : Crew) (n lane : Nat) : Bool := (Cells.get c.pr n).getLsbD lane
/-- The value of `n` consecutive vector registers from vN on, the first lowest. -/
def Crew.rvs (c : Crew) (r lane : Nat) : Nat → Nat
  | 0 => 0
  | n + 1 => c.rv r lane + 2 ^ 32 * c.rvs (r + 1) lane n

def Crew.setV (c : Crew) (n lane v : Nat) : Crew :=
  { c with vr := Cells.set c.vr (n * 32 + lane) (BitVec.ofNat 32 v), bad := c.bad.filter (· != (n, lane)) }
def Crew.setS (c : Crew) (n v : Nat) : Crew := if n = 63 then c else { c with sr := Cells.set c.sr n (BitVec.ofNat 64 v) }
/-- pN in some lanes; p7 discards (R134). -/
def Crew.setP (c : Crew) (n : Nat) (m : Mask) (f : Nat → Bool) : Crew :=
  if n = 7 then c
  else
    let ones := Mask.ofLanes (m.lanes.filter f)
    { c with pr := Cells.set c.pr n ((Cells.get c.pr n &&& ~~~m) ||| ones) }

/-- One register write performed: vectors and predicates in the lanes of its mask, scalars once. -/
def Crew.put (c : Crew) (w : RegWrite) : Crew :=
  match w.reg with
  | .v n => w.mask.lanes.foldl (fun c l => c.setV n l (w.vals.getD l 0)) c
  | .s n => c.setS n (w.vals.getD 0 0)
  | .p n => c.setP n w.mask (fun l => w.vals.getD l 0 != 0)

/-- The values of 32 lanes. -/
def lanesOf (f : Nat → Nat) : List Nat := (List.range 32).map f

/-- The writes of a per-lane result of `n` registers from vD on. -/
def Crew.vecWrites (c : Crew) (d n : Nat) (m : Mask) (f : Nat → Nat) : List RegWrite :=
  let xs := lanesOf f
  (List.range n).map (fun k => { reg := .v (c.wb + d + k), mask := m, vals := xs.map (fun x => x / 2 ^ (32 * k) % 2 ^ 32) })
def sWrite (d v : Nat) : RegWrite := { reg := .s d, mask := 0, vals := [v] }
def pWrite (d : Nat) (m : Mask) (f : Nat → Bool) : RegWrite := { reg := .p d, mask := m, vals := lanesOf (fun l => (f l).toNat) }

/-! ## When results become readable -/

/-- Whether a pending result precedes another in taking effect: by the cycle it becomes readable, then by split
entry, then by program order (R154). -/
def FixWrite.before (a b : FixWrite) : Bool :=
  decide (a.ready < b.ready) || (a.ready == b.ready &&
    (decide (a.split < b.split) || (a.split == b.split && decide (a.seq < b.seq))))

def fixInsert (w : FixWrite) : List FixWrite → List FixWrite
  | [] => [w]
  | x :: t => if w.before x then w :: x :: t else x :: fixInsert w t

/-- Writes to one register take effect in program order (R145): a write that takes effect ends the earlier ones of
its register that have not: of its lanes, or of its split for a scalar. -/
def RegWrite.supersede (split seq : Nat) (w : RegWrite) (x : FixWrite) : Option FixWrite :=
  if x.w.reg == w.reg && decide (x.seq < seq) then
    match w.reg with
    | .s _ => if x.split = split then none else some x
    | _ =>
      let m := x.w.mask &&& ~~~w.mask
      if m = 0 then none else some { x with w := { x.w with mask := m } }
  else some x

/-- Fixed-latency results taken in their order; `n` bounds their number. -/
def Crew.applyFix : Nat → List FixWrite → Crew → Crew
  | 0, _, c => c
  | _, [], c => c
  | n + 1, x :: t, c =>
    let d := c.put x.w
    Crew.applyFix n (t.filterMap (x.w.supersede x.split x.seq))
      { d with fix := c.fix.filterMap (x.w.supersede x.split x.seq) }

/-- Every fixed-latency result readable at cycle `t` is written. -/
def Crew.settle (c : Crew) (t : Nat) : Crew :=
  let now := c.fix.filter (fun x => decide (x.ready ≤ t))
  if now.isEmpty then c
  else
    let rest := c.fix.filter (fun x => !decide (x.ready ≤ t))
    Crew.applyFix now.length (now.foldr fixInsert []) { c with fix := rest }

/-- The writes of a variable-latency result, readable from a cycle on (R144, R154). -/
def PendWrite.fixes (p : PendWrite) (t : Nat) : List FixWrite :=
  p.ws.map (fun w => { ready := t, split := p.split, seq := p.seq, w := w })

/-- A variable-latency result is written at a cycle: it leaves the scoreboard, and from that cycle on it is readable, in its
place among the other results of its registers (R145, R154). -/
def Crew.putPend (c : Crew) (p : PendWrite) (t : Nat) : Crew :=
  { c with fix := c.fix ++ p.fixes t, pend := c.pend.filter (· != p) }

/-- Every issued result is written, by cycle `t`: at a trap entry, a pre-emption or a `call` (R145, R174, R185). -/
def Crew.settleAll (c : Crew) (t : Nat) : Crew :=
  let d := c.settle t
  let all := d.fix ++ d.pend.flatMap (·.fixes t)
  Crew.applyFix all.length (all.foldr fixInsert []) { d with fix := [], pend := [] }

/-- A fixed-latency result of the word just issued. -/
def Crew.addFix (c : Crew) (e ready : Nat) (ws : List RegWrite) : Crew :=
  let seq := c.seq
  { c with fix := c.fix ++ ws.map (fun w => { ready := ready, split := e, seq := seq, w := w }), seq := seq + 1 }

/-- A variable-latency result of the word that split `e` has just issued (R144). -/
def Crew.addPend (c : Crew) (e : Nat) (ws : List RegWrite) : Crew :=
  { c with pend := c.pend ++ [{ split := e, seq := c.seq, ws := ws }], seq := c.seq + 1 }

def Crew.orFlags (c : Crew) (f : Flags) : Crew := { c with status := c.status ||| BitVec.zeroExtend 64 f }

/-! ## The split table (R9, R22 to R27) -/

def Split.free : Split :=
  { pc := 0, mask := 0, top := none, wait := .none, word := none, nextIssue := 0, lastIssue := 0, tried := none,
    yielded := false, got := [] }

def Crew.split (c : Crew) (e : Nat) : Split := c.splits.getD e Split.free
def Crew.setSplit (c : Crew) (e : Nat) (v : Split) : Crew := { c with splits := c.splits.set e v }
def Crew.updSplit (c : Crew) (e : Nat) (f : Split → Split) : Crew := c.setSplit e (f (c.split e))
/-- The lowest entry without lanes. -/
def Crew.freeEntry (c : Crew) : Option Nat := (List.range 4).find? (fun e => (c.split e).mask == 0)
def Crew.rcd (c : Crew) (r : Nat) : Rec := Tab.getD c.recs r
  { mask := 0, pend := 0, pendPC := 0, park := 0, parkPC := 0, parkE := none, parent := none, slot := none }

/-- A new record, named by the crew's counter. -/
def Crew.newRec (c : Crew) (r : Rec) : Crew × Nat :=
  ({ c with recs := Tab.set c.recs c.seq r, seq := c.seq + 1 }, c.seq)

/-- The records of a split's stack, innermost first; `n` bounds the walk. -/
def Crew.stack (c : Crew) : Nat → Option Nat → List Nat
  | 0, _ => []
  | _, none => []
  | n + 1, some r => match Tab.get c.recs r with
    | none => []
    | some v => r :: Crew.stack c n v.parent

/-! ### Records in the spill area (R21, R23, R140) -/

/-- The records held on chip: the 16 innermost of each split (R23). -/
def Crew.onChip (c : Crew) : List Nat :=
  (List.range 4).flatMap (fun e => if (c.split e).mask = 0 then [] else (c.stack c.recs.length (c.split e).top).take 16)

/-- The bytes at the top of the spill area that records take: place k is the k-th 32 bytes downward (R140). -/
def Crew.recRoom (c : Crew) : Nat :=
  c.recs.foldl (fun n r => match r.2.slot with | some k => max n (32 * (k + 1)) | none => n) 0

/-- Whether the spill area holds the records that lie there and the registers below LO (R23, R140). -/
def Crew.spillFits (c : Crew) : Bool := decide (128 * c.lo + c.recRoom ≤ c.spillSz)

/-- The address of place `k`. -/
def Crew.slotEa (c : Crew) (k : Nat) : Nat := (c.spillBase + c.spillSz + (2 ^ 64 - 32 * (k + 1) % 2 ^ 64)) % 2 ^ 64

/-- The lowest place that no record has. -/
def Crew.freeSlot (c : Crew) : Nat :=
  ((List.range (c.recs.length + 1)).find? (fun k => !c.recs.any (fun r => r.2.slot == some k))).getD 0

/-- The records that come back on chip, with their places. -/
def Crew.fillsOf (c : Crew) : List (Nat × Nat) :=
  let on := c.onChip
  c.recs.filterMap (fun r => match r.2.slot with
    | some k => if on.contains r.1 then some (r.1, k) else none
    | none => none)

/-- The records that now lie beyond the on-chip depth of every split move to the lowest free places, a record that several
splits share to one (log entry 22): the crew with the places given, and the records that moved. -/
def Crew.spillsOf (c : Crew) : Crew × List (Nat × Nat) :=
  let on := c.onChip
  c.recs.foldl (fun acc r =>
    if r.2.slot.isNone && !on.contains r.1 then
      let k := acc.1.freeSlot
      ({ acc.1 with recs := Tab.set acc.1.recs r.1 { acc.1.rcd r.1 with slot := some k } }, acc.2 ++ [(r.1, k)])
    else acc) (c, [])

/-- Whether no record moves between the chip and the spill area. -/
def Crew.recsStay (c : Crew) : Bool := c.fillsOf.isEmpty && c.spillsOf.2.isEmpty

/-- A record's 32 bytes (R322), as a number. -/
def Rec.val (v : Rec) : Nat :=
  v.mask.toNat + v.pend.toNat * 2 ^ 32 + v.pendPC * 2 ^ 64 + v.park.toNat * 2 ^ 128 + v.parkPC * 2 ^ 192

/-- A record that comes back on chip with the contents of its bytes; lanes that have ended meanwhile have left it (R27). -/
def Rec.filled (v : Rec) (n : Nat) (live : Mask) : Rec :=
  { v with mask := BitVec.ofNat 32 n &&& live, pend := BitVec.ofNat 32 (n / 2 ^ 32) &&& live, pendPC := n / 2 ^ 64 % 2 ^ 64,
           park := BitVec.ofNat 32 (n / 2 ^ 128) &&& live, parkPC := n / 2 ^ 192 % 2 ^ 64, slot := none }

/-- The records that have come back on chip without an access of the spill area. -/
def Crew.rechip (c : Crew) : Crew :=
  c.fillsOf.foldl (fun c f => { c with recs := Tab.set c.recs f.1 { c.rcd f.1 with slot := none } }) c

/-- A split set to run at a PC with a mask and an innermost record. -/
def Split.run (sp : Split) (pc : Nat) (m : Mask) (top : Option Nat) : Split :=
  { sp with pc := pc, mask := m, top := top, wait := .none, word := none, tried := none, yielded := false, got := [] }

/-- The split in an entry that waits at a `join` on record `r`. -/
def Crew.joined (c : Crew) (r e : Nat) : Bool :=
  let sp := c.split e
  sp.mask != 0 && sp.top == some r && sp.wait == .join

/-- A split that no longer holds an entry is no longer known as the one that parked lanes (R26). -/
def Crew.unpark (c : Crew) : Crew :=
  { c with recs := Tab.mapV c.recs (fun _ v => match v.parkE with
    | some e => if (c.split e).mask = 0 then { v with parkE := none } else v
    | none => v) }

/-- R26, the last part: a record whose live lanes all wait or are parked is resolved. -/
def Crew.resolve (c : Crew) (r : Nat) : Crew :=
  match Tab.get c.recs r with
  | none => c
  | some v =>
    let ws := (List.range 4).filter (c.joined r)
    let held := ws.foldl (fun m e => m ||| (c.split e).mask) v.park
    if v.mask = 0 && held = 0 then
      if c.recs.any (fun x => x.2.parent == some r) || c.splits.any (fun sp => sp.mask != 0 && sp.top == some r) then c
      else { c with recs := Tab.erase c.recs r }
    else if held &&& v.mask ≠ v.mask then c
    else
      let pcs := ws.map (fun e => (c.split e).pc) ++ (if v.park = 0 then [] else [v.parkPC])
      let j := pcs.getD 0 0
      let c0 := { c with recs := Tab.erase c.recs r }
      if pcs.all (· == j) then
        match (match ws with | e :: _ => some e | [] => c0.freeEntry) with
        | none => c
        | some e =>
          let c1 := (ws.foldl (fun c e => c.setSplit e Split.free) c0).setSplit e ((c0.split e).run (j + 8) held v.parent)
          c1.unpark
      else
        let c1 := ws.foldl (fun c e => c.updSplit e (fun sp => sp.run (sp.pc + 8) sp.mask v.parent)) c0
        if v.park = 0 then c1
        else match c1.freeEntry with
          | some e => c1.setSplit e (Split.free.run (v.parkPC + 8) v.park v.parent)
          | none =>
            let e := match v.parkE with
              | some e => if ws.contains e then e else ws.getD 0 0
              | none => ws.getD 0 0
            let sp := c1.split e
            let n := c1.newRec ⟨sp.mask ||| v.park, v.park, v.parkPC + 8, 0, 0, none, v.parent, none⟩
            n.1.setSplit e { sp with top := some n.2 }

def Crew.resolveAll (c : Crew) : Crew := (Tab.keys c.recs).reverse.foldl Crew.resolve c

/-- A split left with no lanes continues with the pending lanes of its innermost record; a record that has lost all
its lanes leaves the stack first (R27). `n` bounds the walk. -/
def Crew.refill (c : Crew) (e : Nat) : Nat → Crew
  | 0 => c.setSplit e Split.free
  | n + 1 =>
    let sp := c.split e
    match sp.top with
    | none => c.setSplit e Split.free
    | some r =>
      let v := c.rcd r
      if v.pend ≠ 0 then
        ({ c with recs := Tab.set c.recs r { v with pend := 0 } }).setSplit e (sp.run v.pendPC v.pend (some r))
      else if v.mask = 0 then Crew.refill (c.setSplit e { sp with top := v.parent }) e n
      else c.setSplit e Split.free

/-- A record without some lanes. -/
def Rec.without (v : Rec) (m : Mask) : Rec :=
  let k := ~~~m
  { v with mask := v.mask &&& k, pend := v.pend &&& k, park := v.park &&& k }

/-- R27: lanes leave the crew: their splits and every record. -/
def Crew.endLanes (c : Crew) (m : Mask) : Crew :=
  let c1 := { c with live := c.live &&& ~~~m, recs := Tab.mapV c.recs (fun _ v => v.without m) }
  let c2 := (List.range 4).foldl (fun c e =>
    let sp := c.split e
    if sp.mask = 0 then c
    else
      let c' := c.setSplit e { sp with mask := sp.mask &&& ~~~m }
      if sp.mask &&& ~~~m = 0 then c'.refill e (c'.recs.length + 1) else c') c1
  c2.unpark.resolveAll

/-- The lanes of a crew's splits and parked parts: its live lanes. -/
def Crew.parked (c : Crew) : Mask := c.recs.foldl (fun m e => m ||| e.2.park ||| e.2.pend) 0

/-- A crew's splits after the window moved past them: every waiting word is forgotten with what it asked, for it is reissued (R185). A `sleep` has
retired, and goes on (R247). -/
def Crew.reissue (c : Crew) : Crew :=
  { c with splits := c.splits.map (fun sp => match sp.wait with
    | .join | .reply | .sleep _ _ => sp
    | _ => { sp with wait := .none, word := none, tried := none, got := [] }),
           reqs := c.reqs.filter (fun r => (c.split r.entry).wait == .reply), walks := [] }

end Sys2Proof.Machine
end

