-- ==== Sys2Proof/Machine/Ending.lean ====
section
/-! DEFINITION. Scratch memory (R45, R75, R76), the fields of barrier objects (R106, R108), the merge of the store
buffers of DET gangs (R72), and the end of crews, gangs and launches (R27, R44, R110, R116, R175, R200, R298). -/

namespace Sys2Proof.Machine

/-! ## Scratch -/

def Gang.scrBytes (g : Gang) (off n : Nat) : List Byte := Cells.bytes g.scr off n
def Gang.scrChkOk (g : Gang) (sec : Nat) : Bool := Cells.get g.scrBadChk sec == 0
/-- The 32-byte sectors of a range. -/
def sectorsOf (o n : Nat) : List Nat := (List.range ((o + n + 31) / 32 - o / 32)).map (· + o / 32)

/-- A scratch sector whose check value fails is poisoned and recorded (R75, R344, R400). `scrBadChk` holds the
difference of the stored value from the right one, so a listed sector fails. -/
def State.scrVerify (s : State) (gid sec : Nat) : State :=
  match s.gang gid with
  | none => s
  | some g =>
    if g.scrPoison.contains sec || g.scrChkOk sec then s
    else
      let comp := (crc16 (Cells.bytes g.scr (sec * 32) 32)).toNat
      let stored := Nat.xor comp (Cells.get g.scrBadChk sec).toNat
      (s.setGang gid { g with scrPoison := sec :: g.scrPoison }).errRecord 0 (sec * 32) 1 (stored + 65536 * comp) 0 g.core
        g.lslot (s.gangAsid gid) (s.gangPart gid) 8 1

/-- Whether a scratch range holds a poisoned sector, once its check values are verified. -/
def State.scrCheck (s : State) (gid off n : Nat) : State × Bool :=
  (sectorsOf off n).foldl (fun acc sec =>
    let s1 := acc.1.scrVerify gid sec
    (s1, acc.2 || (match s1.gang gid with | some g => g.scrPoison.contains sec | none => false))) (s, false)

/-- Bytes of one scratch sector stored: part of a poisoned sector is dropped, a whole sector clears poison (R76). -/
def State.scrSector (s : State) (gid sec : Nat) (bs : List (Nat × Byte)) : State :=
  let put (g : Gang) : Gang :=
    { g with scr := bs.foldl (fun m e => Cells.set m e.1 e.2) g.scr, scrBadChk := Cells.set g.scrBadChk sec 0 }
  if bs.length = 32 then
    s.updGang gid (fun g => put { g with scrPoison := g.scrPoison.filter (· != sec) })
  else
    let s1 := s.scrVerify gid sec
    s1.updGang gid (fun g => if g.scrPoison.contains sec then g else put g)

/-- Bytes stored at scratch addresses, one pair for each address (R47). -/
def State.scrPutAll (s : State) (gid : Nat) (bs : List (Nat × Byte)) : State :=
  let secs := bs.foldl (fun l e => if l.contains (e.1 / 32) then l else l ++ [e.1 / 32]) ([] : List Nat)
  secs.foldl (fun s sec => s.scrSector gid sec (bs.filter (fun e => e.1 / 32 == sec))) s

def State.scrPut (s : State) (gid off : Nat) (bs : List Byte) : State :=
  s.scrPutAll gid ((List.range bs.length).zip bs |>.map (fun e => (off + e.1, e.2)))

/-! ## Barrier objects (R106) -/

/-- The fields of a barrier object. -/
structure BarObj where
  scope : Nat
  phase : Bool
  err : Bool
  exp : Nat
  left : Nat
  resv : Nat
  pend : Int
  deriving DecidableEq, Repr

def barOf (v : Nat) : BarObj :=
  let p := fld v 0 36
  { scope := fld v 125 3, phase := fld v 124 1 == 1, err := fld v 123 1 == 1, exp := fld v 103 20, left := fld v 83 20,
    resv := fld v 36 47, pend := if p < 2 ^ 35 then p else (p : Int) - (2 ^ 36 : Nat) }

def BarObj.val (b : BarObj) : Nat :=
  b.scope * 2 ^ 125 + b.phase.toNat * 2 ^ 124 + b.err.toNat * 2 ^ 123 + b.exp * 2 ^ 103 + b.left * 2 ^ 83
    + b.resv * 2 ^ 36 + (b.pend % (2 ^ 36 : Nat)).toNat

/-- A fresh object (R106). -/
def BarObj.init (scope exp : Nat) : BarObj :=
  { scope := scope, phase := false, err := false, exp := exp, left := exp, resv := 0, pend := 0 }

/-- Whether the phase completes (R108). -/
def BarObj.complete (b : BarObj) : Bool := b.left == 0 && b.pend == 0
/-- The phase completed: ARRIVE_LEFT := ARRIVE_EXP and PHASE inverted (R108). -/
def BarObj.flip (b : BarObj) : BarObj := { b with left := b.exp, phase := !b.phase }
/-- The check after an arrival, an expect or a credit (R108). -/
def BarObj.settle (b : BarObj) : BarObj := if b.complete then b.flip else b
/-- R106: an object whose SCOPE suits scratch or global memory, with no reserved bit set (R4). -/
def BarObj.shaped (b : BarObj) (scratch : Bool) : Bool :=
  (if scratch then b.scope == 1 || b.scope == 2 else b.scope == 3 || b.scope == 4) && b.resv == 0
/-- R106: ARRIVE_EXP is not 0 either; the phase in which an arrival with DROP has brought it to 0 still waits for credits, and the
object is malformed from the next phase on (R108, log entry 66). -/
def BarObj.good (b : BarObj) (scratch : Bool) : Bool :=
  b.shaped scratch && (b.exp != 0 || (b.left == 0 && b.pend != 0))

/-! ## The merge of DET store buffers (R70 to R73) -/

/-- The merged bytes of a set of buffers, as (lane, space, place, byte): for each place the byte of the highest logical lane. -/
def mergeLanes (es : List SbufEntry) : List (Nat × Nat × Nat × Byte) :=
  let ins (acc : List (Nat × Nat × Nat × Byte)) (lane sp a : Nat) (b : Byte) : List (Nat × Nat × Nat × Byte) :=
    match acc.find? (fun x => x.2.1 == sp && x.2.2.1 == a) with
    | some x => if lane < x.1 then acc else acc.map (fun y => if y.2.1 == sp && y.2.2.1 == a then (lane, sp, a, b) else y)
    | none => acc ++ [(lane, sp, a, b)]
  es.foldl (fun acc e => (List.range 8).foldl (fun acc k =>
    if e.mask.getLsbD k then ins acc e.lane e.space (e.addr + k) (e.bytes.getD k 0) else acc) acc) []
/-- The merged bytes by space and place. -/
def mergeBytes (es : List SbufEntry) : List (Nat × Nat × Byte) := (mergeLanes es).map (fun x => (x.2.1, x.2.2.1, x.2.2.2))

/-- The DET buffer of a gang, resident or saved (R70, R327). -/
def State.bufferOf (s : State) (gid : Nat) : List SbufEntry :=
  match s.gang gid with
  | some g => g.sbuf
  | none => match s.savedBlk gid with
    | some (_, b, _) => b.sbuf
    | none => []

/-- The merged bytes of a buffer at physical addresses, and those in scratch. -/
def physMerged (es : List SbufEntry) : List (Nat × Byte) :=
  (mergeBytes es).filterMap (fun b => if b.1 = 0 then some b.2 else none)
def scrMerged (es : List SbufEntry) : List (Nat × Byte) :=
  (mergeBytes es).filterMap (fun b => if b.1 = 0 then none else some b.2)

/-- The bytes of a line cut into runs of consecutive bytes inside 64-byte blocks, by address. -/
def lineRuns (line : Nat) (bs : LineBytes) : List (Nat × List Byte) :=
  (LineBytes.list bs).foldr (fun b acc => match acc with
    | (a, l) :: t => if line * 128 + b.1 + 1 = a && a % 64 ≠ 0 then (line * 128 + b.1, b.2 :: l) :: t
        else (line * 128 + b.1, [b.2]) :: acc
    | [] => [(line * 128 + b.1, [b.2])]) []

/-- The scope of a release order in a buffer entry. -/
def SbufEntry.release (e : SbufEntry) : Option Scope := if e.order = 0 then none else Scope.ofCode (e.order - 1)
/-- The crew of a gang that a logical lane belongs to (R11). -/
def Gang.crewOf (g : Gang) (gid lane : Nat) : Nat := crewKey gid (lane / 32 % g.n)

/-- Whether a gang's buffer can be merged now at a scope: the releases in it have published what they must (R56, R72), and its places
can be stored to; false while something must be answered first. -/
def State.mergeReady (s : State) (gid : Nat) (sc : Scope) : State × Bool :=
  let buf := s.bufferOf gid
  let ls := byLine (physMerged buf)
  let far (s : State) : State × Bool := ls.foldl (fun acc l => (lineRuns l.1 l.2).foldl (fun (acc : State × Bool) r =>
    let q := acc.1.rangeReady r.1 r.2.length none (acc.1.finder gid 0)
    (q.1, acc.2 && q.2)) acc) (s, true)
  match s.gang gid with
  | none => far s
  | some g =>
    let r := buf.foldl (fun (acc : State × Bool) e => match e.release with
      | none => acc
      | some rs => let q := acc.1.releaseReady (g.crewOf gid e.lane) rs; (q.1, acc.2 && q.2)) (s, true)
    if !r.2 then r else if sc.code < 3 then r.1.narrowReady g.core sc ls else far r.1

/-- The greatest of a gang's crews' `pts`; of a saved gang, in its image. -/
def State.gangPts (s : State) (gid : Nat) : Ts :=
  let top (l : List Ts) : Ts := match l with | [] => s.clockAll | x :: t => t.foldl Ts.smax x
  match s.gang gid, s.savedBlk gid with
  | none, some (_, b, a) => top (s.imgPts b a)
  | _, _ => top ((s.gangCrews gid).map (·.2.pts))

/-- Bytes at physical addresses stored by a gang where they are homed, with timestamp p; the greatest w. -/
def State.gangStore (s : State) (gid : Nat) (bs : List (Nat × Byte)) (p : Ts) : State × Ts :=
  (byLine bs).foldl (fun acc l => match acc.1.target (l.1 * 128) with
    | .dev _ =>
      let r := acc.1.homeWrite l.1 l.2 p (acc.1.finder gid 0)
      (r.1, Ts.smax acc.2 r.2)
    | _ => (lineRuns l.1 l.2).foldl (fun (acc : State × Ts) r => match acc.1.directWrite r.1 r.2 p none (acc.1.finder gid 0) with
      | .ok s1 _ t _ => (s1, Ts.smax acc.2 t)
      | .later s1 => (s1, acc.2)) acc) (s, p)

/-- Merged bytes held in the units of a gang's core: each as a narrow store of the crew whose lane wins, or of the gang's lowest
crew when that crew has finished. -/
def State.gangNarrow (s : State) (gid : Nat) (g : Gang) (sc : Scope) (bs : List (Nat × Nat × Nat × Byte)) : State :=
  let low := ((s.gangCrews gid).map Prod.fst).getD 0 (crewKey gid 0)
  let who (lane : Nat) : Nat := if (s.crew (g.crewOf gid lane)).isSome then g.crewOf gid lane else low
  let u := narrowUnit g.core sc
  ((s.gangCrews gid).map Prod.fst).foldl (fun s key =>
    (byLine (bs.filterMap (fun b => if b.2.1 = 0 && who b.1 = key then some b.2.2 else none))).foldl (fun (s : State) l =>
      (s.roomForDirty u l.1).narrowStore u key sc l.1 l.2) s) s

/-- R72: the buffer of a gang merged at a barrier's scope, and emptied; the releases in it take effect with it. A saved gang's goes
to the homes and into its image (R327), whose `pts` take the timestamp of its stores as crews' do. -/
def State.merge (s : State) (gid : Nat) (sc : Scope) : State :=
  let buf := s.bufferOf gid
  if buf.isEmpty then s
  else
    let p := s.gangPts gid
    match s.gang gid with
    | some g =>
      let s1 := if sc.code < 3 then s.gangNarrow gid g sc (mergeLanes buf)
        else
          let r := s.gangStore gid (physMerged buf) p
          (r.1.gangCrews gid).foldl (fun s c => s.updCrew c.1 (fun c => { c with pts := Ts.smax c.pts r.2 })) r.1
      let s2 := (s1.scrPutAll gid (scrMerged buf)).updGang gid (fun g => { g with sbuf := [] })
      buf.foldl (fun s e => match e.release with
        | some rs => s.releaseFloor g.core (if e.space = 0 then rs else .gg) p
        | none => s) s2
    | none => match s.savedBlk gid with
      | some (id, b, a) =>
        let r := s.gangStore gid (physMerged buf) p
        let s2 := ((scrMerged buf).foldl (fun s e => s.imgMerge (a + s.imgScrOff a + e.1) [e.2]) r.1).imgRaisePts b a r.2
        { s2 with blocks := Tab.upd s2.blocks id (fun b => { b with sbuf := [] }) }
      | none => s

/-! ## Ends -/

/-- R200: an implicit barrier when a crew finishes. -/
def ImpBar.finish (b : ImpBar) (idx : Nat) : ImpBar :=
  let o := barOf b.obj.toNat
  let e := o.exp - 1
  let o1 := { o with exp := e, left := if b.arrived.getLsbD idx then o.left else o.left - 1 }
  let done := o1.complete && decide (e ≠ 0)
  { obj := BitVec.ofNat 128 (if done then o1.flip else o1).val, arrived := if done then 0 else b.arrived }

/-- Whether the finish of a crew completes a phase of one of the four barriers of `bsync` or of `idem`. -/
def ImpBar.finishes (b : ImpBar) (idx : Nat) : Bool :=
  let o := barOf b.obj.toNat
  !b.arrived.getLsbD idx && o.left == 1 && o.exp != 1

/-- R116: a well whose producers have all exited is closed. -/
def Well.close (w : Well) (finished : BitVec 32) : Well :=
  let prod : BitVec 32 := w.cfg1.extractLsb' 0 32
  if prod ≠ 0 && (prod &&& ~~~finished) = 0 then { w with closed := true } else w

/-- R316: the request is done once no gang remains to be dealt with. -/
def State.preDone (s : State) (p : Nat) : State :=
  let q := s.part p
  if q.prestat.getLsbD 0 && q.preGangs.isEmpty then
    (s.setPart p { q with prestat := (q.prestat &&& ~~~1#64) ||| 2#64 }).raiseFvec p
  else s

/-- A gang leaves the list of a pre-emption under way; `saved` counts it (R314). -/
def State.preDrop (s : State) (gid : Nat) (saved leftRunning : Bool) : State :=
  let p := s.gangPart gid
  let q := s.part p
  if q.preGangs.contains gid then
    let st1 := if saved then q.prestat + 0x10000#64 else q.prestat
    let st2 := if leftRunning then (st1 + 0x100000000#64) ||| 4#64 else st1
    (s.setPart p { q with preGangs := q.preGangs.filter (· != gid), prestat := st2 }).preDone p
  else s

/-- The end of a gang (R118, R175): its DET buffer merged at device scope, its resources freed. -/
def State.endGang (s : State) (gid : Nat) : State :=
  match s.gang gid with
  | none => s
  | some g =>
    let s1 := (s.merge gid .dv).preDrop gid false false
    let s2 := { s1 with gangs := Tab.erase s1.gangs gid, crews := s1.crews.filter (fun e => keyGid e.1 != gid),
                        arrivals := s1.arrivals.filter (fun a => a.2 != gid) }
    s2.updLaunch g.lslot (fun l => if g.cont then { l with contLeft := l.contLeft - 1 }
      else { l with gangsLeft := l.gangsLeft - 1 })

/-- The management core of a crew's cluster stops serving it. -/
def State.leaveTrap (s : State) (key core : Nat) : State :=
  s.updCluster (clusterOf core) (fun k =>
    let mc := if k.mc.crew = some key then Mgmt.init else k.mc
    { k with trapq := k.trapq.filter (· != key), mc := mc })

/-- A phase of the idempotence barrier completes: the gang enters the region, or leaves it, and then keeps no capture
and no slot of a crew that has ended (R41, R44, R243, R246; log entry 14). -/
def State.flipIdem (s : State) (gid : Nat) : State :=
  match s.gang gid with
  | none => s
  | some g =>
    if g.inIdem then
      let kept := s.crews.filter (fun e => !(keyGid e.1 == gid && e.2.live == 0))
      let s1 := { s with crews := Tab.mapV kept (fun key c =>
        if keyGid key = gid then { c with cap := none, status := c.status &&& ~~~0x200000#64 } else c) }
      s1.setGang gid { g with inIdem := false }
    else
      let s1 := { s with crews := Tab.mapV s.crews (fun key c =>
        if keyGid key = gid then { c with status := c.status ||| 0x200000#64 } else c) }
      s1.setGang gid { g with inIdem := true }

/-- R175: a crew whose last live lane has ended; its registers and tiles are released. Inside an idempotent region its slot and capture stay (R44). -/
def State.finishCrew (s : State) (key : Nat) : State :=
  match s.crew key, s.gang (keyGid key) with
  | some c, some g =>
    let idx := c.idx
    let s0 := if g.bars.any (·.finishes idx) then s.merge (keyGid key) .gg else s
    let s1 := (s0.publishCrew key (fun _ => true)).leaveTrap key c.core
    let flips := match g.bars[4]? with | some b => b.finishes idx | none => false
    let fin := g.finished ||| (1#32 <<< idx)
    let kept := { c with splits := List.replicate 4 Split.free, recs := [], vr := [], tc := List.replicate 8 0, live := 0,
                         fix := [], pend := [], reqs := [], walks := [], trap := none, pumpFault := none,
                         bind := List.replicate 8 none, ntiles := 0 }
    let s2 := if g.inIdem then s1.setCrew key kept else { s1 with crews := Tab.erase s1.crews key }
    let mine (t : Nat) : Bool := c.bind.any (· == some t)
    let s2 := s2.updGang (keyGid key) (fun g =>
      { g with finished := fin, tiles := g.tiles.filter (fun t => !mine t.1), tilePoison := g.tilePoison.filter (fun t => !mine t), bars := g.bars.map (·.finish idx), wells := Tab.mapV g.wells (fun _ w => w.close fin) })
    let s3 := if flips then s2.flipIdem (keyGid key) else s2
    if (List.range g.n).all (fun k => fin.getLsbD k) then s3.endGang (keyGid key) else s3
  | _, _ => s

/-- The scope at which the end of a crew merges its gang's buffer: device scope as the gang's last crew, gang scope where its end
completes a phase of an implicit barrier (R72, R175, R200). -/
def State.exitMerge (s : State) (key : Nat) : Option Scope :=
  match s.gang (keyGid key) with
  | none => none
  | some g =>
    let idx := keyIdx key
    let fin := g.finished ||| (1#32 <<< idx)
    if (List.range g.n).all (fun k => fin.getLsbD k) then some .dv
    else if g.bars.any (·.finishes idx) then some .gg else none

/-- Whether the merge that a crew's end performs can be performed now. -/
def State.exitReady (s : State) (key : Nat) : State × Bool :=
  match s.exitMerge key with
  | some sc => s.mergeReady (keyGid key) sc
  | none => (s, true)

/-- Lanes of a crew end (R27); the crew finishes with its last live lane (R175). -/
def State.endLanes (s : State) (key : Nat) (m : Mask) : State :=
  let s1 := s.updCrew key (fun c => c.endLanes m)
  match s1.crew key with
  | some c => if c.live = 0 then s1.finishCrew key else s1
  | none => s1

/-- A gang whose launch is killed (R44, R298): every crew ends as under `kill`. -/
def State.killGang (s : State) (gid : Nat) : State :=
  let s0 := s.updGang gid (fun g => { g with inIdem := false })
  let s1 := (s0.gangCrews gid).foldl (fun s e => s.finishCrew e.1) s0
  s1.endGang gid

/-- Whether an announced value stands for a launch: a held block's save address, or a resident-hold token (R317). -/
def announceOf (blks : Tab Blk) (lslot v : Nat) : Bool :=
  if fld v 1 1 = 1 then fld v 4 12 == lslot
  else blks.any (fun b => b.2.lslot == lslot && b.2.save == some v)

/-- R298: a launch is killed; parts of its commands that wait on a held page are dropped (R339). -/
def State.killLaunch (s : State) (lslot detail : Nat) : State :=
  match s.launch lslot with
  | none => s
  | some l =>
    let s1 := (s.gangs.filter (fun g => g.2.lslot == lslot)).foldl (fun s g => s.killGang g.1) s
    let s2 := s1.updPart l.part (fun p => { p with announce := p.announce.filter (fun v => !announceOf s1.blocks lslot v) })
    let s3 := { s2 with
      blocks := s2.blocks.filter (fun b => b.2.lslot != lslot)
      engWaits := s2.engWaits.map (fun (w : EngWait) => match Tab.get s2.cmds w.id with
        | some k => if w.what = 0 && k.lslot = lslot then { w with what := 4 } else w
        | none => w) }
    s3.updLaunch lslot (fun l => { l with bins := [], nextG := l.rw * l.rh, gangsLeft := 0, contLeft := 0, flushed := true,
                                          status := 2, detail := detail })

end Sys2Proof.Machine
end

