-- ==== Sys2Proof/Machine/Operands.lean ====
section
/-! DEFINITION. The operands of a word: the registers each part of it reads and writes (R134, R139, R145), and the
values a lane's operands have (R134, R142, R147). -/

namespace Sys2Proof.Machine

/-- Registers a field names: their kind and first number as the field has it, and how many follow on. -/
structure Span1 where
  reg : RegName
  n : Nat
  deriving DecidableEq, Repr

/-- A part of a word with its own guard: the word itself, or one half of a pair; what it reads in the order of R307
(A, B, C, D), what it writes, and the AUX value of a DET trap when R33 forbids it. -/
structure WUse where
  pred : BitVec 3
  pn : Bool
  src : List Span1
  dst : List Span1
  det : Option Nat
  deriving DecidableEq, Repr

def vReg (r : Reg) (n : Nat) : Span1 := { reg := .v r.toNat, n := n }
def sReg (r : Reg) : Span1 := { reg := .s r.toNat, n := 1 }
def sRegs (r : Reg) (n : Nat) : Span1 := { reg := .s r.toNat, n := n }
def pReg (k : Nat) : Span1 := { reg := .p k, n := 1 }
def Opnd.span (o : Opnd) (n : Nat) : List Span1 :=
  match o with
  | .v r => [vReg r n]
  | .s r => [sReg r]
  | .k _ => []

/-- The part of a full word. -/
def Hdr.use (h : Hdr) (src dst : List Span1) : WUse := { pred := h.pred, pn := h.pn, src := src, dst := dst, det := none }
def WUse.inDet (p : WUse) (b : Bool) (aux : Nat) : WUse := { p with det := if b then some aux else none }

/-- The lanes of a mask whose guard passes (R133). -/
def Crew.guard (c : Crew) (pred : BitVec 3) (pn : Bool) (m : Mask) : Mask :=
  if pred = 7 then (if pn then 0 else m)
  else
    let p : Mask := Cells.get c.pr pred.toNat
    m &&& (if pn then ~~~p else p)

/-- The value of an operand of `n` registers in a lane, for the type whose constant entries it may name (R134, R142). -/
def Crew.opnd (c : Crew) (o : Opnd) (n : Nat) (t : Ty) (lane : Nat) : Nat :=
  match o with
  | .v r => c.rvs r.toNat lane n
  | .s r => c.rs r.toNat
  | .k r => kBits t r.toNat

/-- A scalar operand or constant, read as a 64-bit integer. -/
def Crew.sval (c : Crew) (o : Opnd) : Nat :=
  match o with
  | .v _ => 0
  | .s r => c.rs r.toNat
  | .k r => kBits .i64 r.toNat

/-! The parts of the words of each layout. -/

def Alu.use (o : Alu) (u : AluUse) : WUse :=
  let n := o.ty.regs
  Hdr.use o.h ((if u.a then Opnd.span o.a n else []) ++ (if u.b then Opnd.span o.b (if u.b32 then 1 else n) else [])
      ++ (if u.c then (if o.sc then [sReg o.c] else [vReg o.c n]) else []))
    [if u.pd then pReg o.d.toNat else if o.sc then sReg o.d else vReg o.d n]

def Flt.use (o : Flt) (u : FltUse) (na nb nd : Nat) (pd : Bool) : WUse :=
  Hdr.use o.h (Opnd.span o.a na ++ (if u.b then Opnd.span o.b nb else []) ++ (if u.c then [vReg o.c nb] else []))
    [if pd then pReg o.d.toNat else vReg o.d nd]

/-- A half reads A, then D unless its result does not depend on it, then the predicate of `hsel`. -/
def Half.use (hf : Half) (y : Bool) : WUse :=
  let o := hf.o
  let a : List Span1 := match hf with
    | .hnop _ | .hmrd _ => []
    | _ => Opnd.span o.a 1
  let d : List Span1 := match hf with
    | .hnop _ | .hmov _ | .hicmp _ | .hfcmp _ | .hneg _ | .habs _ | .hfneg _ | .hf2i _ | .hi2f _ | .hpopc _ | .hclz _
    | .hmrd _ | .hs2v _ | .hshflx _ => []
    | _ => [vReg o.d 1]
  let q : List Span1 := match hf with
    | .hsel _ => [pReg (fld o.hm.toNat 4 2)]
    | _ => []
  let w : List Span1 := match hf with
    | .hnop _ => []
    | .hicmp _ | .hfcmp _ => [pReg o.d.toNat]
    | _ => [vReg o.d 1]
  let det : Option Nat := match hf with
    | .hmrd o => (match o.a with
      | .v r => if 6 ≤ r.toNat then some (0x1C + 256 + (if y then 512 else 0)) else none
      | _ => none)
    | _ => none
  { pred := o.pred, pn := o.pn, src := a ++ d ++ q, dst := w, det := det }

/-- Memory words: base, index, data (R187 to R196). -/
def Mem.use (o : Mem) (vec : Bool) (dn cn : Nat) : WUse :=
  Hdr.use o.h (Opnd.span o.a 2 ++ Opnd.span o.b 1 ++ (if cn = 0 then [] else [vReg o.c cn]))
    (if dn = 0 then [] else [if vec then vReg o.d dn else sReg o.d])

/-! Which registers two spans share. -/
def Span1.meets (a b : Span1) : Bool :=
  match a.reg, b.reg with
  | .v x, .v y | .s x, .s y | .p x, .p y => decide (x < y + b.n) && decide (y < x + a.n)
  | _, _ => false

/-- A span of vector registers in logical indices (R139). -/
def Span1.logical (a : Span1) (wb : Nat) : Span1 :=
  match a.reg with
  | .v x => { a with reg := .v (wb + x) }
  | _ => a

/-- R139: every vector register a part names lies in the window. -/
def WUse.fits (p : WUse) (w : Nat) : Bool :=
  (p.src ++ p.dst).all (fun a => match a.reg with
    | .v x => decide (x + a.n ≤ w)
    | _ => true)

/-- The guarding predicate as a source. -/
def WUse.guards (p : WUse) : List Span1 := if p.pred = 7 then [] else [pReg p.pred.toNat]
def WUse.reads (p : WUse) : List Span1 := p.guards ++ p.src

/-- The scoreboard holds none of the part's registers (R29, R144). -/
def Crew.boardFree (c : Crew) (p : WUse) : Bool :=
  (p.reads ++ p.dst).all (fun a =>
    let b := a.logical c.wb
    c.pend.all (fun x => x.ws.all (fun w => !(Span1.meets b { reg := w.reg, n := 1 }))))

/-- The first source of a part that an earlier fixed-latency result of its own split has not reached (R145, R154), as
the AUX of R307. -/
def Crew.shortRead (c : Crew) (e : Nat) (p : WUse) : Option Nat :=
  (p.reads.find? (fun a => c.fix.any (fun x => x.split == e && (a.logical c.wb).meets { reg := x.w.reg, n := 1 }))).map
    (fun a => match a.reg with
      | .v n => n % 64
      | .s n => n % 64 + 64
      | .p n => n % 64 + 128)

/-- The lanes of a part that read a register cell with an uncorrectable error (R344). -/
def Crew.badLanes (c : Crew) (p : WUse) (m : Mask) : List Nat :=
  if c.bad.isEmpty then []
  else m.lanes.filter (fun l => p.src.any (fun a => match (a.logical c.wb).reg with
    | .v n => c.bad.any (fun b => decide (n ≤ b.1) && decide (b.1 < n + a.n) && b.2 == l)
    | _ => false))

end Sys2Proof.Machine
end

