-- ==== Sys2Proof/Machine/Ops.lean ====
section
/-! DEFINITION. The operations every word shares: taking a trap (R307 to R311), the boundary after a word (R311), the
checks of R151 at issue, retirement, and the issue of words by crews, management cores (R249) and pumps (R253).
The return from a trap is `State.resumeCrew` (R252, R312). -/

namespace Sys2Proof.Machine

/-! ## Traps -/

/-- A trap of a split with the same address flags in every lane of `lanes` (R307, R310). -/
def mkTrap (cls e : Nat) (lanes : Mask) (detail aux : Nat) : Trap :=
  { cls := cls, entry := e, detail := detail, lanes := lanes, addr := [],
    lflag := lanesOf (fun l => if lanes.getLsbD l then cls * 4096 + detail else 0), aux := aux, since := 0, inService := false }

/-- A trap whose lanes have addresses of their own: (lane, address, flags). -/
def laneTrap (cls e : Nat) (fs : List (Nat × Nat × Nat)) (aux : Nat) : Trap :=
  let get (l : Nat) : Option (Nat × Nat) := (fs.find? (fun f => f.1 == l)).map Prod.snd
  { cls := cls, entry := e, detail := fs.foldl (fun d f => Nat.lor d f.2.2) 0, lanes := Mask.ofLanes (fs.map Prod.fst),
    addr := lanesOf (fun l => match get l with | some x => x.1 | none => 0),
    lflag := lanesOf (fun l => match get l with | some x => cls * 4096 + x.2 | none => 0),
    aux := aux, since := 0, inService := false }

/-- CAUSE [19:8], by bit from CAUSE bit 8 on (R310). -/
def dFetch : Nat := 1
def dFetchTail : Nat := 2
def dMisalign : Nat := 4
def dNoncanon : Nat := 8
def dPump : Nat := 16
def dWrite : Nat := 32
def dPerm : Nat := 64
def dPost : Nat := 128
def dSpill : Nat := 256
def dEngine : Nat := 512

/-- Whether a crew's trap stays when a split of entry `e` faults: of two splits that fault in one cycle the lower traps (R311). -/
def Crew.trapStays (c : Crew) (now e : Nat) : Bool :=
  match c.trap with
  | none => false
  | some o => o.inService || o.since != now || decide (o.entry ≤ e) || Nat.land o.detail (dPost + dPump) != 0

/-- TAKING A TRAP (R307 to R309, R145, R185): the crew's issued results are written; with no handler for the class
the launch is killed; otherwise the crew is trapped and its trap joins the queue of its cluster's management core. -/
def State.takeTrap (s : State) (key : Nat) (t : Trap) : State :=
  match s.crew key, s.gang (keyGid key) with
  | some c, some g =>
    if c.trapStays s.now t.entry then s
    else if (s.trapRegs (s.gangAsid (keyGid key))).hen.getLsbD t.cls then
      let c1 := { c.settleAll s.now with trap := some { t with since := s.now }, walks := [] }
      (s.setCrew key c1).updCluster (clusterOf c.core) (fun k =>
        if c.trap.isSome then k else { k with trapq := k.trapq ++ [key] })
    else s.killLaunch g.lslot t.cls
  | _, _ => s

/-- A fault inside a handler (R313): the launch of the trapped crew is killed, with ESC and, for the watchdog, WDOG. -/
def State.escalate (s : State) (k : Nat) (wdog : Bool) : State :=
  match (s.mgmt k).crew with
  | none => s.updMgmt k (fun _ => Mgmt.init)
  | some key =>
    let s1 := s.updMgmt k (fun _ => Mgmt.init)
    match s.crew key, s.gang (keyGid key) with
    | some c, some g =>
      let cls := match c.trap with | some t => t.cls | none => 0
      let detail := cls + 16 + (if wdog then 32 else 0)
      let s2 := s1.errRecord 0 0 1 detail 3 0 g.lslot (s.gangAsid (keyGid key)) (s.gangPart (keyGid key)) cls 6
      s2.killLaunch g.lslot detail
    | _, _ => s1

/-- The lowest-indexed live crew of a gang (R120, R253). -/
def State.lowestCrew (s : State) (gid : Nat) : Option (Nat × Crew) := (s.gangCrews gid).find? (fun e => e.2.live != 0)

/-- The wells a halted or stopped pump leaves closed (R116, R253). -/
def Gang.closePumped (g : Gang) : Gang :=
  { g with wells := Tab.mapV g.wells (fun _ w => if w.cfg0.getLsbD 44 then { w with closed := true } else w) }

/-- A fault of a gang's pump (R120, R253): the pump stops, and the trap is delivered to the gang's lowest-indexed live
crew, at its next boundary when it is trapped already. -/
def State.pumpTrap (s : State) (gid cls detail addr aux : Nat) : State :=
  let s1 := s.updGang gid (fun g => { g.closePumped with pump := g.pump.map (fun p => { p with stopped := true }) })
  match s1.lowestCrew gid with
  | none => s1
  | some (key, c) =>
    let e := ((List.range 4).find? (fun e => (c.split e).mask != 0)).getD 0
    let t := { mkTrap cls e 0 (Nat.lor detail dPump) aux with addr := lanesOf (fun _ => addr) }
    if c.trap.isSome then s1.updCrew key (fun c => { c with pumpFault := some t }) else s1.takeTrap key t

/-- R311: the boundary after a word that retired. -/
def State.boundary (s : State) (key : Nat) : State :=
  match s.crew key with
  | none => s
  | some c => match c.trap, c.pumpFault with
    | none, some t => (s.updCrew key (fun c => { c with pumpFault := none })).takeTrap key t
    | _, _ => s

/-! ## Retirement -/

/-- The pipe of a crew has used its issue opportunity of this cycle (R29). -/
def State.markIssued (s : State) (c : Crew) : State :=
  s.updCore c.core (fun k =>
    let l := if k.issuedAt.length < 4 then List.replicate 4 none else k.issuedAt
    { k with issuedAt := l.set c.pipe (some s.now) })

/-- A split whose word has retired: when its next word may issue (R143). -/
def Split.after (sp : Split) (now stall : Nat) : Split :=
  { sp with wait := .none, word := none, nextIssue := now + 1 + stall, lastIssue := now, tried := none, yielded := false,
            got := [] }

/-- The word of a split has retired and its successor follows `size` bytes on. -/
def Crew.retire (c : Crew) (e now size stall : Nat) : Crew :=
  let sp := c.split e
  { (c.setSplit e { sp.after now stall with pc := sp.pc + size }) with walks := [] }

def State.retire (s : State) (key e size stall : Nat) : State :=
  match s.crew key with
  | none => s
  | some c => (s.setCrew key (c.retire e s.now size stall)).markIssued c

/-- A word that set its own splits has retired: those of `es` go on. -/
def State.retireAt (s : State) (key : Nat) (es : List Nat) (stall : Nat) : State :=
  match s.crew key with
  | none => s
  | some c =>
    let c1 := es.foldl (fun c e => c.updSplit e (fun sp => sp.after s.now stall)) c
    (s.setCrew key { c1 with walks := [] }).markIssued c

/-- A word that cannot proceed now: its split tries again at a later cycle. -/
def State.tryLater (s : State) (key e : Nat) : State :=
  s.updCrew key (fun c => c.updSplit e (fun sp => { sp with tried := some s.now }))

/-- A word that has begun and waits (R29, R185). -/
def State.holdWord (s : State) (key e : Nat) (i : Instr) (w : Wait) : State :=
  match s.crew key with
  | none => s
  | some c =>
    let c1 := c.updSplit e (fun sp => { sp with wait := w, word := some i, tried := none, lastIssue := s.now })
    (s.setCrew key c1).markIssued c

/-! ## The issue of a word -/

/-- What a word meets at its own checks (R151, order 5): its crew and split, ACTIVE of the word or of each half, and
whether its launch is DET. -/
structure Ctx where
  key : Nat
  e : Nat
  act : Mask
  acts : List Mask
  det : Bool
  deriving DecidableEq, Repr

/-- What a word does: it retires and goes on to the next word; retires with its splits set; retires and then traps;
begins to wait; cannot proceed yet; traps. -/
inductive Act where
  | done (s : State)
  | jump (s : State) (es : List Nat)
  | post (s : State) (t : Trap)
  | wait (s : State) (w : Wait)
  | blocked (s : State)
  | trap (s : State) (t : Trap)
  deriving DecidableEq, Repr

/-- The meaning of a word for a crew. -/
abbrev Body := Ctx → Crew → State → Act
/-- The meaning of a word for a management core: cluster, its core, the state. -/
abbrev MBody := Nat → Mgmt → State → Act

/-- A word's outcome applied to its split. -/
def State.finish (s : State) (i : Instr) (key e size stall : Nat) : Act → State
  | .done t => (t.retire key e size stall).boundary key
  | .jump t es => (t.retireAt key es stall).boundary key
  | .post t tr => (t.retire key e size stall).takeTrap key { tr with detail := Nat.lor tr.detail dPost }
  | .wait t w => t.holdWord key e i w
  | .blocked t => t.tryLater key e
  | .trap t tr => match t.crew key with
    | some c => (t.markIssued c).takeTrap key tr
    | none => s

/-- ILL: AUX is the word (R307). -/
def illTrap (i : Instr) (e : Nat) (act : Mask) : Trap := mkTrap 0 e act 0 i.word.toNat
/-- The opcode of a full word. -/
def Instr.opcode (i : Instr) : Nat := fld (Instr.word i).toNat 47 8

/-- A crew issues a word: the scoreboard (R29), then the checks of R151 in order; the rest is the word's own. -/
def State.issue (s : State) (i : Instr) (us : List WUse) (stall size : Nat) (body : Body) (key e : Nat) (c0 : Crew) :
    State :=
  if us.all c0.boardFree then
    let c := c0.settle s.now
    let s1 := s.setCrew key c
    let acts := us.map (fun u => c.guard u.pred u.pn (c.split e).mask)
    let act := acts.foldl (· ||| ·) 0
    let det := s.gangDet (keyGid key)
    let live := (us.zip acts).filter (fun u => u.2 != 0)
    if !(us.all (fun u => u.fits c.win)) then s1.finish i key e size stall (.trap s1 (illTrap i e act))
    else match (if det then live.find? (fun u => u.1.det.isSome) else none) with
    | some u => s1.finish i key e size stall (.trap s1 (mkTrap 9 e u.2 0 (u.1.det.getD 0)))
    | none => match (if det || c.status.getLsbD 9 then live.find? (fun u => (c.shortRead e u.1).isSome) else none) with
      | some u => s1.finish i key e size stall (.trap s1 (mkTrap 4 e u.2 0 ((c.shortRead e u.1).getD 0)))
      | none =>
        if act = 0 then s1.finish i key e size stall (.done s1)
        else
          let bad := live.flatMap (fun u => c.badLanes u.1 u.2)
          if !bad.isEmpty then
            s1.finish i key e size stall (.trap s1 (laneTrap 8 e (bad.map (fun l => (l, 2 ^ 64 - 1, 0))) 0))
          else s1.finish i key e size stall (body { key := key, e := e, act := act, acts := acts, det := det } c s1)
  else s.tryLater key e

/-- A word's outcome on a management core: a trap is a fault inside the handler (R313). -/
def State.mgmtFinish (s : State) (k size stall : Nat) (i : Instr) : Act → State
  | .done t => t.updMgmt k (fun m => { m with pc := m.pc + size, nextIssue := s.now + 1 + stall, wait := .none, word := none })
  | .jump t _ => if (t.mgmt k).crew.isNone then t
    else t.updMgmt k (fun m => { m with nextIssue := s.now + 1 + stall, wait := .none, word := none })
  | .post t _ => t
  | .wait t w => t.updMgmt k (fun m => { m with wait := w, word := some i })
  | .blocked t => t
  | .trap t _ => t.escalate k false

/-- The guard of a one-lane word (R249). -/
def Mgmt.passes (m : Mgmt) (pred : BitVec 3) (pn : Bool) : Bool :=
  if pred = 7 then !pn else (m.pr.getLsbD pred.toNat) != pn

/-- A management core executes a word. -/
def State.mgmtIssue (s : State) (k : Nat) (i : Instr) (h : Hdr) (size : Nat) (f : MBody) : State :=
  let m := s.mgmt k
  if m.crew.isNone then s
  else if m.passes h.pred h.pn then s.mgmtFinish k size h.stall.toNat i (f k m s)
  else s.mgmtFinish k size h.stall.toNat i (.done s)

/-- A word that is not slice code reaches a pump: ILL with PUMP (R253). -/
def State.pumpIll (s : State) (i : Instr) (g : Nat) : State := s.pumpTrap g 0 0 0 i.word.toNat

/-- The meaning of a full word, for whichever unit issues it. -/
def fullWord (i : Instr) (h : Hdr) (u : WUse) (size : Nat) (body : Body) (mg : Option MBody) (s : State) :
    Host.Outcome State Fault Refusal :=
  match s.cur with
  | .none => .fault .noIssuer
  | .crew key e => match s.crew key with
    | none => .fault .noIssuer
    | some c => .next (s.issue i [u] h.stall.toNat size body key e c)
  | .mgmt k => .next (match mg with
    | some f => s.mgmtIssue k i h size f
    | none => s.escalate k false)
  | .pump g => .next (s.pumpIll i g)

/-- A word that only crews may execute. -/
def word (i : Instr) (h : Hdr) (u : WUse) (body : Body) (s : State) : Host.Outcome State Fault Refusal :=
  fullWord i h u 8 body none s

/-- A paired word (R135 to R138). -/
def pairWord (i : Instr) (stall : BitVec 3) (x y : Half) (body : Body) (s : State) : Host.Outcome State Fault Refusal :=
  match s.cur with
  | .none => .fault .noIssuer
  | .crew key e => match s.crew key with
    | none => .fault .noIssuer
    | some c => .next (s.issue i [Half.use x false, Half.use y true] stall.toNat 8 body key e c)
  | .mgmt k => .next (s.escalate k false)
  | .pump g => .next (s.pumpIll i g)

/-- A word that no crew may execute: class `cls`, raised whether or not a lane is active (R150, R151). -/
def refusedWord (i : Instr) (h : Hdr) (cls : Nat) (mg : Option MBody) (s : State) : Host.Outcome State Fault Refusal :=
  match s.cur with
  | .none => .fault .noIssuer
  | .crew key e => match s.crew key with
    | none => .fault .noIssuer
    | some c0 =>
      let c := c0.settle s.now
      let s1 := s.setCrew key c
      let act := c.guard h.pred h.pn (c.split e).mask
      .next (s1.finish i key e 8 0 (.trap s1 (mkTrap cls e act 0 (if cls = 10 then Instr.opcode i else i.word.toNat))))
  | .mgmt k => .next (match mg with
    | some f => s.mgmtIssue k i h 8 f
    | none => s.escalate k false)
  | .pump g => .next (s.pumpIll i g)

/-! ## Results -/

/-- A fixed-latency result of ACTIVE lanes (R144, R152). -/
def Ctx.fix (x : Ctx) (c : Crew) (s : State) (lat : Nat) (ws : List RegWrite) (fl : Flags) : Act :=
  .done (s.setCrew x.key ((c.orFlags fl).addFix x.e (s.now + lat) ws))

/-- A variable-latency result (R144). -/
def Ctx.pend (x : Ctx) (c : Crew) (s : State) (ws : List RegWrite) (fl : Flags) : Act :=
  .done (s.setCrew x.key ((c.orFlags fl).addPend x.e ws))

/-- A crew whose masks a handler has edited: an entry without lanes is free, and a record whose lanes all wait or are
parked is resolved (R26, R250). -/
def Crew.tidy (c : Crew) : Crew :=
  ({ c with splits := c.splits.map (fun sp => if sp.mask = 0 then Split.free else sp) } : Crew).unpark.resolveAll.rechip

/-- RETURNING FROM A TRAP: `hresume` on an accepted window (R252, R309, R312): the crew runs on from its window state,
words that waited are reissued, and the management core is free for its next entry. -/
def State.resumeCrew (s : State) (k key : Nat) : State :=
  let p := (s.mgmt k).pts
  let s1 := s.updCrew key (fun c => { c.reissue.tidy with trap := none, pts := Ts.smax c.pts p })
  s1.updCluster k (fun v => { v with trapq := v.trapq.filter (· != key), mc := Mgmt.init })

end Sys2Proof.Machine
end

