-- ==== Sys2Proof/Machine/Flags.lean ====
section
/-! DEFINITION. The sticky flags of a crew (R88): the flags of a per-lane result are those of its active lanes. -/

namespace Sys2Proof.Machine

/-- A per-lane result: the values of 32 lanes and the flags of the active ones. -/
def laneResults (m : Mask) (f : Nat → FRes) : List Nat × Flags :=
  let rs := (List.range 32).map (fun l => if m.getLsbD l then f l else { bits := 0, fl := 0 })
  (rs.map FRes.bits, Flags.any (rs.map FRes.fl))

/-- The sticky flags of a status word. -/
def statusFlags (st : W64) : Flags := st.extractLsb' 0 5

end Sys2Proof.Machine
end

