-- ==== Sys2Proof/Machine/IntAlu.lean ====
section
/-! DEFINITION. The integer and logic words (R155 to R161), opcodes 0x00 to 0x1F, for crews and, in the scalar form, for
management cores (R249). -/

namespace Sys2Proof.Machine

/-- A management core's scalar register (R141, R249). -/
def Mgmt.rs (m : Mgmt) (n : Nat) : Nat := if n = 63 then 0 else (Cells.get m.sr n).toNat
def Mgmt.setS (m : Mgmt) (n v : Nat) : Mgmt :=
  if n = 63 then m else { m with sr := Cells.set m.sr n (BitVec.ofNat 64 v) }
def Mgmt.setP (m : Mgmt) (n : Nat) (v : Bool) : Mgmt :=
  if n = 7 then m
  else
    let bit : BitVec 8 := 1#8 <<< n
    { m with pr := if v then m.pr ||| bit else m.pr &&& ~~~bit }
def Mgmt.sval (m : Mgmt) (o : Opnd) : Nat :=
  match o with
  | .v _ => 0
  | .s r => m.rs r.toNat
  | .k r => kBits .i64 r.toNat

/-- What an integer word computes on the register values of A, B and C: W result bits and flags. -/
abbrev AluFn := Nat → Nat → Nat → Nat × Flags

/-- A plain result without flags. -/
def noFl (x : Nat) : Nat × Flags := (x, 0)

/-- The operands of an integer word in a lane; a scalar C in the scalar form (R155). A B of 32 bits whatever TYPE is
one register (R152). -/
def aluA (o : Alu) (u : AluUse) (c : Crew) (l : Nat) : Nat := if u.a then c.opnd o.a o.ty.regs o.ty l else 0
def aluB (o : Alu) (u : AluUse) (c : Crew) (l : Nat) : Nat :=
  if u.b then (if u.b32 then c.opnd o.b 1 .i32 l else c.opnd o.b o.ty.regs o.ty l) else 0
def aluC (o : Alu) (u : AluUse) (c : Crew) (l : Nat) : Nat :=
  if u.c then (if o.sc then c.rs o.c.toNat else c.rvs o.c.toNat l o.ty.regs) else 0

/-- The result of a lane. -/
def aluLane (o : Alu) (u : AluUse) (f : AluFn) (c : Crew) (l : Nat) : Nat × Flags :=
  f (aluA o u c l) (aluB o u c l) (aluC o u c l)

/-- The register writes and the flags of an integer word (R152, R155). -/
def aluWrites (o : Alu) (u : AluUse) (f : AluFn) (x : Ctx) (c : Crew) : List RegWrite × Flags :=
  if o.sc then
    let r := aluLane o u f c 0
    ([sWrite o.d.toNat (iExt o.ty r.1)], r.2)
  else
    let rs := laneResults x.act (fun l => let r := aluLane o u f c l
                                          { bits := iExt o.ty r.1, fl := r.2 })
    (c.vecWrites o.d.toNat o.ty.regs x.act (fun l => rs.1.getD l 0), rs.2)

/-- The scalar form on a management core. -/
def aluMgmt (o : Alu) (u : AluUse) (f : AluFn) : MBody := fun k m s =>
  let a := if u.a then m.sval o.a else 0
  let b := if u.b then (match o.b with
    | .k r => if u.b32 then kBits .i32 r.toNat else kBits o.ty r.toNat
    | v => m.sval v) else 0
  let r := f a b (if u.c then m.rs o.c.toNat else 0)
  .done (s.updMgmt k (fun m => m.setS o.d.toNat (iExt o.ty r.1)))

/-- An integer word with a fixed latency (R144, R156). -/
def aluFixed (i : Instr) (o : Alu) (u : AluUse) (lat : Nat) (f : AluFn) (s : State) : Host.Outcome State Fault Refusal :=
  fullWord i o.h (Alu.use o u) 8
    (fun x c s => let r := aluWrites o u f x c
                  x.fix c s lat r.1 r.2)
    (if o.sc then some (aluMgmt o u f) else none) s

/-- An integer word whose result is on the scoreboard (R144, R398). -/
def aluVar (i : Instr) (o : Alu) (u : AluUse) (f : AluFn) (s : State) : Host.Outcome State Fault Refusal :=
  fullWord i o.h (Alu.use o u) 8
    (fun x c s => let r := aluWrites o u f x c
                  x.pend c s r.1 r.2)
    (if o.sc then some (aluMgmt o u f) else none) s

/-- Latencies of R144. -/
def latSimple : Nat := 4
def latMul : Nat := 6

def aluAB : AluUse := {}
def aluA1 : AluUse := { b := false }
def aluShift : AluUse := { b32 := true }

/-- `nop` (R156). -/
def execNop (h : Hdr) (s : State) : Host.Outcome State Fault Refusal :=
  fullWord (.nop h) h (Hdr.use h [] []) 8 (fun _ _ s => .done s) (some (fun _ _ s => .done s)) s

/-- `mov` (R156). -/
def execMov (o : Alu) (s : State) : Host.Outcome State Fault Refusal :=
  aluFixed (.mov o) o { a := false } latSimple (fun _ b _ => noFl (b % 2 ^ o.ty.bits)) s

/-- `movl` (R161): the literal, copied exactly; the next PC is past the literal word (R146). -/
def movlVal (ty : Ty) (lit : W64) : Nat :=
  if ty.isInt then iExt ty (lit.toNat % 2 ^ ty.bits) else lit.toNat % 2 ^ ty.bits

def execMovl (h : Hdr) (sc : Bool) (ty : Ty) (d : Reg) (lit : W64) (s : State) : Host.Outcome State Fault Refusal :=
  fullWord (.movl h sc ty d lit) h (Hdr.use h [] [if sc then sReg d else vReg d ty.regs]) 16
    (fun x c s => x.fix c s latSimple
      (if sc then [sWrite d.toNat (movlVal ty lit)] else c.vecWrites d.toNat ty.regs x.act (fun _ => movlVal ty lit)) 0)
    (if sc then some (fun k _ s => .done (s.updMgmt k (fun m => m.setS d.toNat (movlVal ty lit)))) else none) s

/-- `sel` (R156, R157). -/
def execSel (o : Alu) (ps : BitVec 3) (psn : Bool) (s : State) : Host.Outcome State Fault Refusal :=
  let u := Alu.use o aluAB
  word (.sel o ps psn) o.h { u with src := u.src ++ [pReg ps.toNat] }
    (fun x c s => x.fix c s latSimple
      (c.vecWrites o.d.toNat o.ty.regs x.act (fun l =>
        iExt o.ty (if c.rp ps.toNat l != psn then aluA o aluAB c l else aluB o aluAB c l))) 0) s

def execIadd (o : Alu) (s : State) : Host.Outcome State Fault Refusal :=
  aluFixed (.iadd o) o aluAB latSimple (fun a b _ => noFl (iWrap o.ty (iVal o.ty a + iVal o.ty b))) s
def execIsub (o : Alu) (s : State) : Host.Outcome State Fault Refusal :=
  aluFixed (.isub o) o aluAB latSimple (fun a b _ => noFl (iWrap o.ty (iVal o.ty a - iVal o.ty b))) s
def execImul (o : Alu) (s : State) : Host.Outcome State Fault Refusal :=
  aluFixed (.imul o) o aluAB latMul (fun a b _ => noFl (iWrap o.ty (iVal o.ty a * iVal o.ty b))) s
/-- Bits [2W-1:W] of the exact product. -/
def execImulh (o : Alu) (s : State) : Host.Outcome State Fault Refusal :=
  aluFixed (.imulh o) o aluAB latMul (fun a b _ => noFl (iWrap o.ty (iVal o.ty a * iVal o.ty b / (2 ^ o.ty.bits : Nat)))) s
def execImad (o : Alu) (s : State) : Host.Outcome State Fault Refusal :=
  aluFixed (.imad o) o { c := true } latMul
    (fun a b c => noFl (iWrap o.ty (iVal o.ty a * iVal o.ty b + iVal o.ty c))) s

/-- `idiv`, `irem` (R158). -/
def execIdiv (o : Alu) (s : State) : Host.Outcome State Fault Refusal :=
  aluVar (.idiv o) o aluAB (fun a b _ => let r := iDivRem o.ty a b; (r.1, r.2.2)) s
def execIrem (o : Alu) (s : State) : Host.Outcome State Fault Refusal :=
  aluVar (.irem o) o aluAB (fun a b _ => let r := iDivRem o.ty a b; (r.2.1, r.2.2)) s

def execImin (o : Alu) (s : State) : Host.Outcome State Fault Refusal :=
  aluFixed (.imin o) o aluAB latSimple
    (fun a b _ => noFl (iWrap o.ty (if iVal o.ty b < iVal o.ty a then iVal o.ty b else iVal o.ty a))) s
def execImax (o : Alu) (s : State) : Host.Outcome State Fault Refusal :=
  aluFixed (.imax o) o aluAB latSimple
    (fun a b _ => noFl (iWrap o.ty (if iVal o.ty a < iVal o.ty b then iVal o.ty b else iVal o.ty a))) s
def execIabs (o : Alu) (sat : Bool) (s : State) : Host.Outcome State Fault Refusal :=
  aluFixed (.iabs o sat) o aluA1 latSimple (fun a _ _ =>
    let x : Int := (iVal o.ty a).natAbs
    noFl (iWrap o.ty (if sat then iSat o.ty x else x))) s
def execIaddsat (o : Alu) (s : State) : Host.Outcome State Fault Refusal :=
  aluFixed (.iaddsat o) o aluAB latSimple (fun a b _ => noFl (iWrap o.ty (iSat o.ty (iVal o.ty a + iVal o.ty b)))) s
def execIsubsat (o : Alu) (s : State) : Host.Outcome State Fault Refusal :=
  aluFixed (.isubsat o) o aluAB latSimple (fun a b _ => noFl (iWrap o.ty (iSat o.ty (iVal o.ty a - iVal o.ty b)))) s

def execAnd (o : Alu) (s : State) : Host.Outcome State Fault Refusal :=
  aluFixed (.and o) o aluAB latSimple (fun a b _ => noFl (Nat.land a b % 2 ^ o.ty.bits)) s
def execOr (o : Alu) (s : State) : Host.Outcome State Fault Refusal :=
  aluFixed (.or o) o aluAB latSimple (fun a b _ => noFl (Nat.lor a b % 2 ^ o.ty.bits)) s
def execXor (o : Alu) (s : State) : Host.Outcome State Fault Refusal :=
  aluFixed (.xor o) o aluAB latSimple (fun a b _ => noFl (Nat.xor a b % 2 ^ o.ty.bits)) s
def execAndn (o : Alu) (s : State) : Host.Outcome State Fault Refusal :=
  aluFixed (.andn o) o aluAB latSimple
    (fun a b _ => noFl (Nat.land (a % 2 ^ o.ty.bits) (2 ^ o.ty.bits - 1 - b % 2 ^ o.ty.bits))) s

/-- The shifts and bit fields (R159): B is a 32-bit operand. -/
def execShl (o : Alu) (s : State) : Host.Outcome State Fault Refusal :=
  aluFixed (.shl o) o aluShift latSimple (fun a b _ => noFl (iShl o.ty a (b % 2 ^ 32))) s
def execShr (o : Alu) (s : State) : Host.Outcome State Fault Refusal :=
  aluFixed (.shr o) o aluShift latSimple (fun a b _ => noFl (iShr o.ty a (b % 2 ^ 32))) s
def execSar (o : Alu) (s : State) : Host.Outcome State Fault Refusal :=
  aluFixed (.sar o) o aluShift latSimple (fun a b _ => noFl (iSar o.ty a (b % 2 ^ 32))) s
def execRot (o : Alu) (s : State) : Host.Outcome State Fault Refusal :=
  aluFixed (.rot o) o aluShift latSimple (fun a b _ => noFl (iRot o.ty a (b % 2 ^ 32))) s
def execBfe (o : Alu) (len : BitVec 8) (s : State) : Host.Outcome State Fault Refusal :=
  aluFixed (.bfe o len) o aluShift latSimple (fun a b _ => noFl (iBfe o.ty len.toNat a (b % 2 ^ 32))) s
def execBfi (o : Alu) (len : BitVec 8) (s : State) : Host.Outcome State Fault Refusal :=
  aluFixed (.bfi o len) o { b32 := true, c := true } latSimple
    (fun a b c => noFl (iBfi o.ty len.toNat a (b % 2 ^ 32) c)) s

def execPopc (o : Alu) (s : State) : Host.Outcome State Fault Refusal :=
  aluFixed (.popc o) o aluA1 latSimple (fun a _ _ => noFl (iPopc o.ty a)) s
def execClz (o : Alu) (s : State) : Host.Outcome State Fault Refusal :=
  aluFixed (.clz o) o aluA1 latSimple (fun a _ _ => noFl (iClz o.ty a)) s
def execBrev (o : Alu) (s : State) : Host.Outcome State Fault Refusal :=
  aluFixed (.brev o) o aluA1 latSimple (fun a _ _ => noFl (iBrev o.ty a)) s

/-- `icmp` (R156, R157); the scalar form exists on a management core only (R249). -/
def execIcmp (o : Alu) (cc : BitVec 3) (s : State) : Host.Outcome State Fault Refusal :=
  let cmp (a b : Nat) : Bool := iCmp cc.toNat (iVal o.ty a) (iVal o.ty b)
  if o.sc then
    refusedWord (.icmp o cc) o.h 0 (some (fun k m s =>
      let b := match o.b with
        | .k r => kBits o.ty r.toNat
        | v => m.sval v
      .done (s.updMgmt k (fun m => m.setP o.d.toNat (cmp (m.sval o.a) b))))) s
  else
    word (.icmp o cc) o.h (Alu.use o { pd := true })
      (fun x c s => x.fix c s latSimple
        [pWrite o.d.toNat x.act (fun l => cmp (aluA o aluAB c l) (aluB o aluAB c l))] 0) s

/-- `lea` (R160). -/
def execLea (o : Alu) (sh : BitVec 4) (sx : Bool) (s : State) : Host.Outcome State Fault Refusal :=
  aluFixed (.lea o sh sx) o aluShift latSimple (fun a b _ => noFl (iLea o.ty sh.toNat sx a (b % 2 ^ 32))) s

/-- `prmt` (R160): not among the words of a management core (R249). -/
def execPrmt (o : Alu) (s : State) : Host.Outcome State Fault Refusal :=
  word (.prmt o) o.h (Alu.use o { c := true })
    (fun x c s =>
      let r := aluWrites o { c := true } (fun a b c => noFl (iPrmt a b c)) x c
      x.fix c s latSimple r.1 r.2) s

end Sys2Proof.Machine
end

