-- ==== Sys2Proof/Machine/FloatAlu.lean ====
section
/-! DEFINITION. The floating-point words (R162 to R167), opcodes 0x20 to 0x36, and `pack` and `unpack` of R171. -/

namespace Sys2Proof.Machine

/-- The operands of a floating-point word in a lane, after ABS and NEG (R147), read as type `t`. -/
def fltA (o : Flt) (t : Ty) (c : Crew) (l : Nat) : Nat := tySignOps t o.aa o.na (c.opnd o.a t.regs t l)
def fltB (o : Flt) (t : Ty) (c : Crew) (l : Nat) : Nat := tySignOps t o.ab o.nb (c.opnd o.b t.regs t l)
def fltC (o : Flt) (t : Ty) (c : Crew) (l : Nat) : Nat := tySignOps t o.ac o.nc (c.rvs o.c.toNat l t.regs)

/-- The latency of a fixed-class word (R144, R162): 10 cycles where f64 takes part. -/
def fltLat (t : Ty) (n : Nat) : Nat := if t == .f64 then 10 else n

/-- A floating-point word with a result of `n` registers in each active lane: fixed latency, or on the scoreboard. -/
def fltWord (i : Instr) (o : Flt) (u : WUse) (n : Nat) (lat : Option Nat) (f : Crew → Nat → FRes) (s : State) :
    Host.Outcome State Fault Refusal :=
  word i o.h u (fun x c s =>
    let r := laneResults x.act (f c)
    let ws := c.vecWrites o.d.toNat n x.act (fun l => r.1.getD l 0)
    match lat with
    | some k => x.fix c s k ws r.2
    | none => x.pend c s ws r.2) s

/-- The registers of a word whose operands and result have its own type. -/
def fltSame (o : Flt) (u : FltUse) : WUse := Flt.use o u o.ty.regs o.ty.regs o.ty.regs false

/-- An elementwise word on A and B with the latency of an addition. -/
def fltTwo (i : Instr) (o : Flt) (f : Ty → Nat → Nat → FRes) (s : State) : Host.Outcome State Fault Refusal :=
  fltWord i o (fltSame o {}) o.ty.regs (some (fltLat o.ty 5)) (fun c l =>
    let a := fltA o o.ty c l
    let b := fltB o o.ty c l
    perElem o.ty (fun k => f o.ty.elem (elemOf o.ty k a) (elemOf o.ty k b))) s

/-- A word on A alone. -/
def fltOne (i : Instr) (o : Flt) (lat : Option Nat) (f : Ty → Rnd → Bool → FVal → FRes) (s : State) :
    Host.Outcome State Fault Refusal :=
  fltWord i o (fltSame o { b := false }) o.ty.regs lat
    (fun c l => f o.ty o.rnd o.sat (fDec o.ty (fltA o o.ty c l))) s

def execFadd (o : Flt) (s : State) : Host.Outcome State Fault Refusal :=
  fltTwo (.fadd o) o (fun t a b => fAdd t o.rnd o.sat (fDec t a) (fDec t b)) s
def execFsub (o : Flt) (s : State) : Host.Outcome State Fault Refusal :=
  fltTwo (.fsub o) o (fun t a b => fAdd t o.rnd o.sat (fDec t a) (fDec t b).negate) s
def execFmul (o : Flt) (s : State) : Host.Outcome State Fault Refusal :=
  fltTwo (.fmul o) o (fun t a b => fMul t o.rnd o.sat (fDec t a) (fDec t b)) s
def execFma (o : Flt) (s : State) : Host.Outcome State Fault Refusal :=
  fltWord (.fma o) o (fltSame o { c := true }) o.ty.regs (some (fltLat o.ty 5)) (fun c l =>
    let a := fltA o o.ty c l
    let b := fltB o o.ty c l
    let d := fltC o o.ty c l
    let t := o.ty.elem
    perElem o.ty (fun k => fFma t o.rnd o.sat (fDec t (elemOf o.ty k a)) (fDec t (elemOf o.ty k b))
      (fDec t (elemOf o.ty k d)))) s
/-- `fmin`, `fmax` (R164). -/
def execFmin (o : Flt) (s : State) : Host.Outcome State Fault Refusal :=
  fltTwo (.fmin o) o (fun t a b => fMinMax t false a b) s
def execFmax (o : Flt) (s : State) : Host.Outcome State Fault Refusal :=
  fltTwo (.fmax o) o (fun t a b => fMinMax t true a b) s
def execFdiv (o : Flt) (s : State) : Host.Outcome State Fault Refusal :=
  fltWord (.fdiv o) o (fltSame o {}) o.ty.regs none
    (fun c l => fDiv o.ty o.rnd o.sat (fDec o.ty (fltA o o.ty c l)) (fDec o.ty (fltB o o.ty c l))) s
/-- The roots, reciprocals and transcendentals (R165). -/
def execFsqrt (o : Flt) (s : State) : Host.Outcome State Fault Refusal := fltOne (.fsqrt o) o none fSqrt s
def execFrcp (o : Flt) (s : State) : Host.Outcome State Fault Refusal := fltOne (.frcp o) o none fRcp s
def execFrsq (o : Flt) (s : State) : Host.Outcome State Fault Refusal := fltOne (.frsq o) o none fRsq s
def execFexp2 (o : Flt) (s : State) : Host.Outcome State Fault Refusal := fltOne (.fexp2 o) o none fExp2 s
def execFlog2 (o : Flt) (s : State) : Host.Outcome State Fault Refusal := fltOne (.flog2 o) o none fLog2 s
def execFsin (o : Flt) (s : State) : Host.Outcome State Fault Refusal := fltOne (.fsin o) o none fSinPi s
def execFcos (o : Flt) (s : State) : Host.Outcome State Fault Refusal := fltOne (.fcos o) o none fCosPi s

/-- `fcmp` (R166): a predicate; a signalling NaN raises NV. -/
def execFcmp (o : Flt) (cc : BitVec 4) (s : State) : Host.Outcome State Fault Refusal :=
  word (.fcmp o cc) o.h (Flt.use o {} o.ty.regs o.ty.regs 1 true) (fun x c s =>
    let r := laneResults x.act (fun l =>
      let a := fDec o.ty (fltA o o.ty c l)
      let b := fDec o.ty (fltB o o.ty c l)
      { bits := (fCmp cc.toNat a b).toNat, fl := sigFlag [a, b] })
    x.fix c s (fltLat o.ty 5) [pWrite o.d.toNat x.act (fun l => r.1.getD l 0 != 0)] r.2) s

/-- `fclass` (R166). -/
def execFclass (o : Flt) (s : State) : Host.Outcome State Fault Refusal :=
  fltWord (.fclass o) o (Flt.use o { b := false } o.ty.regs 1 1 false) 1 (some (fltLat o.ty 5))
    (fun c l => { bits := fClass o.ty (fDec o.ty (fltA o o.ty c l)), fl := 0 }) s

/-- `fscale` (R163): B is a 32-bit integer. -/
def execFscale (o : Flt) (s : State) : Host.Outcome State Fault Refusal :=
  fltWord (.fscale o) o (Flt.use o {} o.ty.regs 1 o.ty.regs false) o.ty.regs (some (fltLat o.ty 5))
    (fun c l => fScale o.ty o.rnd o.sat (fDec o.ty (fltA o o.ty c l)) (sext32 (c.opnd o.b 1 .i32 l))) s

def execFround (o : Flt) (s : State) : Host.Outcome State Fault Refusal :=
  fltOne (.fround o) o (some (fltLat o.ty 6)) fRoundInt s

/-- The conversions (R167). -/
def cvtLat (a b : Ty) : Nat := if a == .f64 || b == .f64 then 10 else 6

def execF2f (o : Flt) (st : Ty) (s : State) : Host.Outcome State Fault Refusal :=
  fltWord (.f2f o st) o (Flt.use o { b := false } st.regs 1 o.ty.regs false) o.ty.regs (some (cvtLat o.ty st))
    (fun c l => fDeliver o.ty o.rnd o.sat (fDec st (fltA o st c l))) s
def execF2i (o : Flt) (st : Ty) (s : State) : Host.Outcome State Fault Refusal :=
  fltWord (.f2i o st) o (Flt.use o { b := false } st.regs 1 o.ty.regs false) o.ty.regs (some (cvtLat o.ty st))
    (fun c l => let r := fToInt o.ty o.rnd (fDec st (fltA o st c l))
                { bits := iExt o.ty (iWrap o.ty r.1), fl := r.2 }) s
def execI2f (o : Flt) (st : Ty) (s : State) : Host.Outcome State Fault Refusal :=
  fltWord (.i2f o st) o (Flt.use o { b := false } st.regs 1 o.ty.regs false) o.ty.regs (some (cvtLat o.ty st))
    (fun c l => fDeliver o.ty o.rnd o.sat (fOfInt (iVal st (c.opnd o.a st.regs st l)))) s

/-- `fdot2` (R167). -/
def execFdot2 (o : Flt) (st : Ty) (s : State) : Host.Outcome State Fault Refusal :=
  fltWord (.fdot2 o st) o (Flt.use o { c := true } 1 1 1 false) 1 (some 5) (fun c l =>
    let a := fltA o st c l
    let b := tySignOps st o.ab o.nb (c.opnd o.b 1 st l)
    let t := st.elem
    fDot2 .f32 o.rnd o.sat (fDec t (elemOf st 0 a)) (fDec t (elemOf st 0 b)) (fDec t (elemOf st 1 a))
      (fDec t (elemOf st 1 b)) (fDec .f32 (fltC o .f32 c l))) s

/-- An operand of `fma2`: two f32 values; a constant entry supplies both (log entry 8). -/
def fma2Opnd (c : Crew) (o : Opnd) (l : Nat) : Nat :=
  match o with
  | .k r => kBits .f32 r.toNat * (2 ^ 32 + 1)
  | v => c.opnd v 2 .n64 l

/-- `fma2` (R163). -/
def execFma2 (o : Flt) (s : State) : Host.Outcome State Fault Refusal :=
  fltWord (.fma2 o) o (Flt.use o { c := true } 2 2 2 false) 2 (some 5) (fun c l =>
    let a := fma2Opnd c o.a l
    let b := fma2Opnd c o.b l
    let d := c.rvs o.c.toNat l 2
    let el (x k : Nat) (ab ng : Bool) : FVal := fDec .f32 (tySignOps .f32 ab ng (x / 2 ^ (32 * k) % 2 ^ 32))
    let one (k : Nat) : FRes := fFma .f32 o.rnd o.sat (el a k o.aa o.na) (el b k o.ab o.nb) (el d k o.ac o.nc)
    { bits := (one 0).bits + 2 ^ 32 * (one 1).bits, fl := (one 0).fl ||| (one 1).fl }) s

/-- `pack` and `unpack` (R171). -/
def execPack (o : Flt) (s : State) : Host.Outcome State Fault Refusal :=
  fltWord (.pack o) o (Flt.use o {} 1 1 1 false) 1 (some 6) (fun c l =>
    let t := o.ty.elem
    let a := fDeliver t o.rnd o.sat (fDec .f32 (fltA o .f32 c l))
    let b := fDeliver t o.rnd o.sat (fDec .f32 (fltB o .f32 c l))
    { bits := a.bits + 65536 * b.bits, fl := a.fl ||| b.fl }) s
def execUnpack (o : Flt) (s : State) : Host.Outcome State Fault Refusal :=
  fltWord (.unpack o) o (Flt.use o { b := false } 1 1 2 false) 2 (some 6) (fun c l =>
    let a := fltA o o.ty c l
    let one (k : Nat) : FRes := fDeliver .f32 .rne false (fDec o.ty.elem (elemOf o.ty k a))
    { bits := (one 0).bits + 2 ^ 32 * (one 1).bits, fl := (one 0).fl ||| (one 1).fl }) s

end Sys2Proof.Machine
end

