-- ==== Sys2Proof/Machine/LaneOps.lean ====
section
/-! DEFINITION. Lane operations (R168 to R171), opcodes 0x40 to 0x48. -/

namespace Sys2Proof.Machine

/-- A value of `n` registers in a vector register group. -/
def vecVal (c : Crew) (r : Reg) (n l : Nat) : Nat := c.rvs r.toNat l n

/-- The source lane of `shfl` (R168). -/
def shflLane (mode : Nat) (w l b : Nat) : Nat :=
  let base := l - l % w
  match mode with
  | 0 => base + b % w
  | 1 => if base + b ≤ l then l - b else l
  | 2 => if l + b < base + w then l + b else l
  | _ => base + Nat.xor (l % w) (b % w)

def execShfl (h : Hdr) (ty : Ty) (mode : BitVec 2) (seg : BitVec 3) (d a : Reg) (b : Opnd) (s : State) :
    Host.Outcome State Fault Refusal :=
  word (.shfl h ty mode seg d a b) h (Hdr.use h (vReg a ty.regs :: Opnd.span b 1) [vReg d ty.regs]) (fun x c s =>
    x.fix c s 6 (c.vecWrites d.toNat ty.regs x.act (fun l =>
      let j := shflLane mode.toNat (2 ^ seg.toNat) l (c.opnd b 1 .i32 l % 2 ^ 32)
      vecVal c a ty.regs (if x.act.getLsbD j then j else l))) 0) s

/-- `vote` (R169). -/
def execVote (h : Hdr) (mode : BitVec 2) (negs : Bool) (d a : Reg) (s : State) : Host.Outcome State Fault Refusal :=
  word (.vote h mode negs d a) h
    (Hdr.use h [pReg a.toNat] [if mode = 3 then sReg d else pReg d.toNat]) (fun x c s =>
      let q (l : Nat) : Bool := c.rp a.toNat l != negs
      let ls := x.act.lanes
      let r : Bool := match mode.toNat with
        | 0 => ls.all q
        | 1 => ls.any q
        | _ => ls.all q || ls.all (fun l => !q l)
      x.fix c s 6 (if mode = 3 then [sWrite d.toNat (Mask.ofLanes (ls.filter q)).toNat]
        else [pWrite d.toNat x.act (fun _ => r)]) 0) s

/-- The integer operations of `redux` and `scan` on W-bit values (R170). -/
def reduxInt (op : Nat) (t : Ty) (a b : Nat) : Nat :=
  match op with
  | 0 => iWrap t (iVal t a + iVal t b)
  | 1 => if iVal t b < iVal t a then b else a
  | 2 => if iVal t a < iVal t b then b else a
  | 3 => Nat.land a b
  | 4 => Nat.lor a b
  | _ => Nat.xor a b

/-- The value of no term (R170). -/
def reduxId (op : Nat) (t : Ty) : Nat :=
  match op with
  | 1 => iWrap t (tyHi t)
  | 2 => iWrap t (tyLo t)
  | 3 => 2 ^ t.bits - 1
  | 7 => fInf .f32
  | 8 => fSign .f32 true (fInf .f32)
  | _ => 0

/-- The combination of the terms in ascending lane order, with its flags (R170, R164). -/
def reduxTerms (op : Nat) (t : Ty) (rnd : Rnd) (xs : List Nat) : FRes :=
  match xs with
  | [] => { bits := reduxId op t, fl := 0 }
  | y :: ys =>
    if op < 6 then { bits := ys.foldl (reduxInt op t) (y % 2 ^ t.bits), fl := 0 }
    else if op = 6 then fSum .f32 rnd false (xs.map (fDec .f32))
    else
      let r := ys.foldl (fun (a : FRes) b => let m := fMinMax .f32 (op == 8) a.bits b
                                             { bits := m.bits, fl := a.fl ||| m.fl })
        { bits := y % 2 ^ 32, fl := sigFlag [fDec .f32 y] }
      if (fDec .f32 r.bits).isNaN then { r with bits := fNaN .f32 } else r

/-- A result of `redux` and `scan` extended (R153); f32 with zeros. -/
def reduxExt (t : Ty) (x : Nat) : Nat := if t.isInt then iExt t x else x

def execRedux (h : Hdr) (ty : Ty) (op : BitVec 4) (rnd : Rnd) (d a : Reg) (s : State) :
    Host.Outcome State Fault Refusal :=
  word (.redux h ty op rnd d a) h (Hdr.use h [vReg a ty.regs] [sReg d]) (fun x c s =>
    let r := reduxTerms op.toNat ty rnd (x.act.lanes.map (fun l => vecVal c a ty.regs l % 2 ^ ty.bits))
    x.pend c s [sWrite d.toNat (reduxExt ty r.bits)] r.fl) s

def execScan (h : Hdr) (ty : Ty) (op : BitVec 4) (rnd : Rnd) (excl : Bool) (d a : Reg) (s : State) :
    Host.Outcome State Fault Refusal :=
  word (.scan h ty op rnd excl d a) h (Hdr.use h [vReg a ty.regs] [vReg d ty.regs]) (fun x c s =>
    let r := laneResults x.act (fun l =>
      let ls := x.act.lanes.filter (fun j => decide (j < l) || (!excl && j == l))
      reduxTerms op.toNat ty rnd (ls.map (fun j => vecVal c a ty.regs j % 2 ^ ty.bits)))
    x.pend c s (c.vecWrites d.toNat ty.regs x.act (fun l => reduxExt ty (r.1.getD l 0))) r.2) s

/-- A special register of a lane (R12, R141). -/
def specialReg (s : State) (key : Nat) (c : Crew) (n lane : Nat) : Nat :=
  let g := keyGid key
  match n with
  | 0 => lane
  | 1 => c.idx
  | 2 => (match s.gang g with | some v => v.gx | none => 0)
  | 3 => (match s.gang g with | some v => v.gy | none => 0)
  | 4 => s.gangRw g
  | 5 => s.gangRh g
  | 6 => c.core
  | 7 => coreDie c.core
  | 8 => c.pts.toNat
  | _ => (s.now - (s.core c.core).clkBase) % 2 ^ 64

/-- `mrd` (R171); placement and time raise DET in DET (R33). -/
def execMrd (h : Hdr) (ds : Bool) (d num : Reg) (s : State) : Host.Outcome State Fault Refusal :=
  let n := num.toNat
  word (.mrd h ds d num) h
    ((Hdr.use h [] [if ds then sReg d else vReg d (if n = 9 then 2 else 1)]).inDet (decide (6 ≤ n)) 0x44) (fun x c s =>
      x.fix c s latSimple
        (if ds then [sWrite d.toNat (specialReg s x.key c n 0)]
         else c.vecWrites d.toNat (if n = 9 then 2 else 1) x.act (specialReg s x.key c n)) 0) s

def execS2v (h : Hdr) (ty : Ty) (d a : Reg) (s : State) : Host.Outcome State Fault Refusal :=
  word (.s2v h ty d a) h (Hdr.use h [sReg a] [vReg d ty.regs]) (fun x c s =>
    x.fix c s latSimple (c.vecWrites d.toNat ty.regs x.act (fun _ => c.rs a.toNat)) 0) s

/-- The scalar a vector value becomes: extended as its type (R153). -/
def scalarOf (t : Ty) (x : Nat) : Nat := if t.isInt then iExt t x else x % 2 ^ t.bits

def execV2s (h : Hdr) (ty : Ty) (first : Bool) (d a : Reg) (b : Opnd) (s : State) : Host.Outcome State Fault Refusal :=
  word (.v2s h ty first d a b) h
    (Hdr.use h (vReg a ty.regs :: (if first then [] else Opnd.span b 1)) [sReg d]) (fun x c s =>
      let j := if first then x.act.lanes.getD 0 0 else c.sval b % 2 ^ 32 % 32
      x.fix c s latSimple
        [sWrite d.toNat (if x.act.getLsbD j then scalarOf ty (vecVal c a ty.regs j) else 0)] 0) s

/-- `pmov` (R171). -/
def execPmov (h : Hdr) (lut : BitVec 4) (dir : BitVec 2) (d a b : Reg) (s : State) : Host.Outcome State Fault Refusal :=
  word (.pmov h lut dir d a b) h
    (match dir.toNat with
     | 0 => Hdr.use h [pReg a.toNat, pReg b.toNat] [pReg d.toNat]
     | 1 => Hdr.use h [pReg a.toNat] [sReg d]
     | _ => Hdr.use h [sReg a] [pReg d.toNat]) (fun x c s =>
      x.fix c s latSimple
        (match dir.toNat with
         | 0 => [pWrite d.toNat x.act (fun l => lut.getLsbD (2 * (c.rp a.toNat l).toNat + (c.rp b.toNat l).toNat))]
         | 1 => [sWrite d.toNat (Mask.ofLanes (x.act.lanes.filter (c.rp a.toNat))).toNat]
         | _ => [pWrite d.toNat x.act (fun l => (c.rs a.toNat) / 2 ^ l % 2 == 1)]) 0) s

/-- `rng` (R104, R171). -/
def execRng (h : Hdr) (ty : Ty) (d a : Reg) (b : Opnd) (s : State) : Host.Outcome State Fault Refusal :=
  word (.rng h ty d a b) h (Hdr.use h (sReg a :: Opnd.span b 2) [vReg d 1]) (fun x c s =>
    x.fix c s 6 (c.vecWrites d.toNat 1 x.act (fun l => rngVal ty (c.rs a.toNat) (c.opnd b 2 .i64 l))) 0) s

end Sys2Proof.Machine
end

