-- ==== Sys2Proof/Machine/Halves.lean ====
section
/-! DEFINITION. Half instructions and paired words (R135 to R138, R180). -/

namespace Sys2Proof.Machine

/-- The type a half names in HMOD [3:0], and its mode in HMOD [5:4] (R180). -/
def hTy (o : HOp) : Ty := (Ty.ofCode (o.hm.toNat % 16)).getD .i8
def hMode (o : HOp) : Nat := o.hm.toNat / 16 % 4

/-- A half's A operand in a lane, for the type whose constant entries it may name (R136, R142). -/
def hA (o : HOp) (t : Ty) (c : Crew) (l : Nat) : Nat :=
  match o.a with
  | .v r => c.rv r.toNat l
  | .s r => c.rs r.toNat % 2 ^ 32
  | .k r => kBits t r.toNat

/-- The first source D of a half. -/
def hD (o : HOp) (c : Crew) (l : Nat) : Nat := c.rv o.d.toNat l

/-- A half that writes vD. -/
def hVec (o : HOp) (c : Crew) (act : Mask) (f : Nat → FRes) : List RegWrite × Flags :=
  let r := laneResults act f
  (c.vecWrites o.d.toNat 1 act (fun l => r.1.getD l 0), r.2)

/-- An integer or untyped half: the 32 bits of its result. -/
def hInt (o : HOp) (c : Crew) (act : Mask) (f : Nat → Nat) : List RegWrite × Flags :=
  hVec o c act (fun l => { bits := f l, fl := 0 })

/-- A typed integer half on D and A: a W-bit result, extended. -/
def hArith (o : HOp) (c : Crew) (act : Mask) (f : Int → Int → Int) : List RegWrite × Flags :=
  let t := hTy o
  hInt o c act (fun l => iExt t (iWrap t (f (iVal t (hD o c l)) (iVal t (hA o t c l)))))

/-- A float half on D and A, by element. -/
def hFlt (o : HOp) (c : Crew) (act : Mask) (f : Ty → Nat → Nat → FRes) : List RegWrite × Flags :=
  let t := hTy o
  hVec o c act (fun l => perElem t (fun k => f t.elem (elemOf t k (hD o c l)) (elemOf t k (hA o t c l))))

/-- The latency of a half: that of its full counterpart (R136, R144, R180). -/
def Half.lat : Half → Nat
  | .himul _ => 6
  | .hfadd _ | .hfsub _ | .hfmul _ | .hfmin _ | .hfmax _ | .hfcmp _ => 5
  | .hf2i _ | .hi2f _ | .hshflx _ => 6
  | _ => 4

/-- The effect of a half on its active lanes (R180). -/
def halfResult (hf : Half) (key : Nat) (c : Crew) (s : State) (act : Mask) : List RegWrite × Flags :=
  match hf with
  | .hnop _ => ([], 0)
  | .hmov o => hInt o c act (hA o .i32 c)
  | .hiadd o => hArith o c act (fun d a => d + a)
  | .hisub o => hArith o c act (fun d a => d - a)
  | .himul o => hArith o c act (fun d a => d * a)
  | .hand o => hInt o c act (fun l => Nat.land (hD o c l) (hA o .i32 c l))
  | .hor o => hInt o c act (fun l => Nat.lor (hD o c l) (hA o .i32 c l))
  | .hxor o => hInt o c act (fun l => Nat.xor (hD o c l) (hA o .i32 c l))
  | .hshl o => hInt o c act (fun l => iShl .n32 (hD o c l) (hA o .i32 c l))
  | .hshr o => hInt o c act (fun l => iShr .n32 (hD o c l) (hA o .i32 c l))
  | .hsar o => hInt o c act (fun l => iSar .n32 (hD o c l) (hA o .i32 c l))
  | .himin o => hArith o c act (fun d a => if a < d then a else d)
  | .himax o => hArith o c act (fun d a => if d < a then a else d)
  | .hfadd o => hFlt o c act (fun t d a => fAdd t (Rnd.ofCode (hMode o)) false (fDec t d) (fDec t a))
  | .hfsub o => hFlt o c act (fun t d a => fAdd t (Rnd.ofCode (hMode o)) false (fDec t d) (fDec t a).negate)
  | .hfmul o => hFlt o c act (fun t d a => fMul t (Rnd.ofCode (hMode o)) false (fDec t d) (fDec t a))
  | .hfmin o => hFlt o c act (fun t d a => fMinMax t false d a)
  | .hfmax o => hFlt o c act (fun t d a => fMinMax t true d a)
  | .hicmp o =>
    let cc := match hMode o with | 3 => 5 | n => n
    ([pWrite o.d.toNat act (fun l => iCmp cc (iVal (hTy o) (hA o (hTy o) c l)) 0)], 0)
  | .hfcmp o =>
    let cc := match hMode o with | 3 => 5 | n => n
    let r := laneResults act (fun l =>
      let a := fDec (hTy o) (hA o (hTy o) c l)
      { bits := (fCmp cc a (.num false 0 0)).toNat, fl := sigFlag [a] })
    ([pWrite o.d.toNat act (fun l => r.1.getD l 0 != 0)], r.2)
  | .hsel o => hInt o c act (fun l => if c.rp (hMode o) l then hA o .i32 c l else hD o c l)
  | .hneg o => hArith o c act (fun _ a => -a)
  | .habs o => hArith o c act (fun _ a => a.natAbs)
  | .hfneg o => hInt o c act (fun l => tySignOps (hTy o) false true (hA o (hTy o) c l))
  | .hf2i o => hVec o c act (fun l =>
      let r := fToInt (hTy o) (Rnd.ofCode (hMode o)) (fDec .f32 (hA o .f32 c l))
      { bits := iExt (hTy o) (iWrap (hTy o) r.1), fl := r.2 })
  | .hi2f o => hVec o c act (fun l =>
      fDeliver .f32 (Rnd.ofCode (hMode o)) false (fOfInt (iVal (hTy o) (hA o (hTy o) c l))))
  | .hpopc o => hInt o c act (fun l => iPopc .n32 (hA o .i32 c l))
  | .hclz o => hInt o c act (fun l => iClz .n32 (hA o .i32 c l))
  | .hmrd o => hInt o c act (fun l => specialReg s key c (match o.a with | .v r => r.toNat | _ => 0) l % 2 ^ 32)
  | .hs2v o => hInt o c act (hA o .i32 c)
  | .hshflx o => hInt o c act (fun l =>
      let j := Nat.xor l (o.hm.toNat % 32)
      hA o .i32 c (if act.getLsbD j then j else l))

/-- Both halves read their sources at the pair's issue, before either writes (R138). -/
def pairBody (x y : Half) : Body := fun ctx c s =>
  let rx := halfResult x ctx.key c s (ctx.acts.getD 0 0)
  let ry := halfResult y ctx.key c s (ctx.acts.getD 1 0)
  let c1 := (c.orFlags (rx.2 ||| ry.2)).addFix ctx.e (s.now + Half.lat x) rx.1
  .done (s.setCrew ctx.key (c1.addFix ctx.e (s.now + Half.lat y) ry.1))

def execHnop (st : BitVec 3) (x : HOp) (y : Half) (s : State) : Host.Outcome State Fault Refusal :=
  pairWord (.hnop st x y) st (.hnop x) y (pairBody (.hnop x) y) s
def execHmov (st : BitVec 3) (x : HOp) (y : Half) (s : State) : Host.Outcome State Fault Refusal :=
  pairWord (.hmov st x y) st (.hmov x) y (pairBody (.hmov x) y) s
def execHiadd (st : BitVec 3) (x : HOp) (y : Half) (s : State) : Host.Outcome State Fault Refusal :=
  pairWord (.hiadd st x y) st (.hiadd x) y (pairBody (.hiadd x) y) s
def execHisub (st : BitVec 3) (x : HOp) (y : Half) (s : State) : Host.Outcome State Fault Refusal :=
  pairWord (.hisub st x y) st (.hisub x) y (pairBody (.hisub x) y) s
def execHimul (st : BitVec 3) (x : HOp) (y : Half) (s : State) : Host.Outcome State Fault Refusal :=
  pairWord (.himul st x y) st (.himul x) y (pairBody (.himul x) y) s
def execHand (st : BitVec 3) (x : HOp) (y : Half) (s : State) : Host.Outcome State Fault Refusal :=
  pairWord (.hand st x y) st (.hand x) y (pairBody (.hand x) y) s
def execHor (st : BitVec 3) (x : HOp) (y : Half) (s : State) : Host.Outcome State Fault Refusal :=
  pairWord (.hor st x y) st (.hor x) y (pairBody (.hor x) y) s
def execHxor (st : BitVec 3) (x : HOp) (y : Half) (s : State) : Host.Outcome State Fault Refusal :=
  pairWord (.hxor st x y) st (.hxor x) y (pairBody (.hxor x) y) s
def execHshl (st : BitVec 3) (x : HOp) (y : Half) (s : State) : Host.Outcome State Fault Refusal :=
  pairWord (.hshl st x y) st (.hshl x) y (pairBody (.hshl x) y) s
def execHshr (st : BitVec 3) (x : HOp) (y : Half) (s : State) : Host.Outcome State Fault Refusal :=
  pairWord (.hshr st x y) st (.hshr x) y (pairBody (.hshr x) y) s
def execHsar (st : BitVec 3) (x : HOp) (y : Half) (s : State) : Host.Outcome State Fault Refusal :=
  pairWord (.hsar st x y) st (.hsar x) y (pairBody (.hsar x) y) s
def execHimin (st : BitVec 3) (x : HOp) (y : Half) (s : State) : Host.Outcome State Fault Refusal :=
  pairWord (.himin st x y) st (.himin x) y (pairBody (.himin x) y) s
def execHimax (st : BitVec 3) (x : HOp) (y : Half) (s : State) : Host.Outcome State Fault Refusal :=
  pairWord (.himax st x y) st (.himax x) y (pairBody (.himax x) y) s
def execHfadd (st : BitVec 3) (x : HOp) (y : Half) (s : State) : Host.Outcome State Fault Refusal :=
  pairWord (.hfadd st x y) st (.hfadd x) y (pairBody (.hfadd x) y) s
def execHfsub (st : BitVec 3) (x : HOp) (y : Half) (s : State) : Host.Outcome State Fault Refusal :=
  pairWord (.hfsub st x y) st (.hfsub x) y (pairBody (.hfsub x) y) s
def execHfmul (st : BitVec 3) (x : HOp) (y : Half) (s : State) : Host.Outcome State Fault Refusal :=
  pairWord (.hfmul st x y) st (.hfmul x) y (pairBody (.hfmul x) y) s
def execHfmin (st : BitVec 3) (x : HOp) (y : Half) (s : State) : Host.Outcome State Fault Refusal :=
  pairWord (.hfmin st x y) st (.hfmin x) y (pairBody (.hfmin x) y) s
def execHfmax (st : BitVec 3) (x : HOp) (y : Half) (s : State) : Host.Outcome State Fault Refusal :=
  pairWord (.hfmax st x y) st (.hfmax x) y (pairBody (.hfmax x) y) s
def execHicmp (st : BitVec 3) (x : HOp) (y : Half) (s : State) : Host.Outcome State Fault Refusal :=
  pairWord (.hicmp st x y) st (.hicmp x) y (pairBody (.hicmp x) y) s
def execHfcmp (st : BitVec 3) (x : HOp) (y : Half) (s : State) : Host.Outcome State Fault Refusal :=
  pairWord (.hfcmp st x y) st (.hfcmp x) y (pairBody (.hfcmp x) y) s
def execHsel (st : BitVec 3) (x : HOp) (y : Half) (s : State) : Host.Outcome State Fault Refusal :=
  pairWord (.hsel st x y) st (.hsel x) y (pairBody (.hsel x) y) s
def execHneg (st : BitVec 3) (x : HOp) (y : Half) (s : State) : Host.Outcome State Fault Refusal :=
  pairWord (.hneg st x y) st (.hneg x) y (pairBody (.hneg x) y) s
def execHabs (st : BitVec 3) (x : HOp) (y : Half) (s : State) : Host.Outcome State Fault Refusal :=
  pairWord (.habs st x y) st (.habs x) y (pairBody (.habs x) y) s
def execHfneg (st : BitVec 3) (x : HOp) (y : Half) (s : State) : Host.Outcome State Fault Refusal :=
  pairWord (.hfneg st x y) st (.hfneg x) y (pairBody (.hfneg x) y) s
def execHf2i (st : BitVec 3) (x : HOp) (y : Half) (s : State) : Host.Outcome State Fault Refusal :=
  pairWord (.hf2i st x y) st (.hf2i x) y (pairBody (.hf2i x) y) s
def execHi2f (st : BitVec 3) (x : HOp) (y : Half) (s : State) : Host.Outcome State Fault Refusal :=
  pairWord (.hi2f st x y) st (.hi2f x) y (pairBody (.hi2f x) y) s
def execHpopc (st : BitVec 3) (x : HOp) (y : Half) (s : State) : Host.Outcome State Fault Refusal :=
  pairWord (.hpopc st x y) st (.hpopc x) y (pairBody (.hpopc x) y) s
def execHclz (st : BitVec 3) (x : HOp) (y : Half) (s : State) : Host.Outcome State Fault Refusal :=
  pairWord (.hclz st x y) st (.hclz x) y (pairBody (.hclz x) y) s
def execHmrd (st : BitVec 3) (x : HOp) (y : Half) (s : State) : Host.Outcome State Fault Refusal :=
  pairWord (.hmrd st x y) st (.hmrd x) y (pairBody (.hmrd x) y) s
def execHs2v (st : BitVec 3) (x : HOp) (y : Half) (s : State) : Host.Outcome State Fault Refusal :=
  pairWord (.hs2v st x y) st (.hs2v x) y (pairBody (.hs2v x) y) s
def execHshflx (st : BitVec 3) (x : HOp) (y : Half) (s : State) : Host.Outcome State Fault Refusal :=
  pairWord (.hshflx st x y) st (.hshflx x) y (pairBody (.hshflx x) y) s

end Sys2Proof.Machine
end

