-- ==== Sys2Proof/Machine/Translate.lean ====
section
/-! DEFINITION. Translation of addresses through the TLBs (R336), page-walk requests (R337), what a failed walk does to
a word (R338), and long-service holds (R40, R317). -/

namespace Sys2Proof.Machine

/-- What a translation gives: a physical address, a failure (0 not present, 1 permission, 2 malformed, 3 held), or
nothing yet. -/
inductive Xl where
  | ok (pa : Nat)
  | fail (how : Nat)
  | miss
  deriving DecidableEq, Repr

/-- The page size of a leaf level (R331). -/
def pageSize (lvl : Nat) : Nat := match lvl with | 0 => 2 ^ 16 | 1 => 2 ^ 21 | _ => 2 ^ 30

/-- Whether a TLB entry serves an access: kind 0 read, 1 write, 2 rmw, 3 fetch; an entry made without D serves no
write (R334, R335). -/
def TlbEntry.serves (t : TlbEntry) (asid va kind : Nat) : Bool :=
  t.asid == asid && decide (t.va ≤ va) && decide (va < t.va + pageSize t.lvl) &&
  (match kind with
  | 0 => t.r
  | 1 => t.w && t.d
  | 2 => t.r && t.w && t.d
  | _ => t.x)

def TlbEntry.map (t : TlbEntry) (va : Nat) : Nat := t.pa + (va - t.va)

/-- The TLBs an agent's accesses look in: its core's and its cluster's (R336). -/
def State.tlbOf (s : State) : Agent → List TlbEntry
  | .core c => (s.core c).tlb ++ (s.cluster (clusterOf c)).tlb
  | .cluster k | .mgmt k => (s.cluster k).tlb
  | .engine _ => []

/-- An address space whose root is disabled has no page present (R329). -/
def State.asidOn (s : State) (asid : Nat) : Bool := (s.asid asid).root.getLsbD 0

/-- Translation for a waiting word, whose failed walks are `walks` (R338). -/
def State.xlate (s : State) (u : Agent) (asid va kind : Nat) (walks : List WalkFail) : Xl :=
  if !s.asidOn asid then .fail 0
  else match walks.find? (fun w => w.va == va / 65536 && w.kind == kind) with
    | some w => .fail w.how
    | none => match (s.tlbOf u).find? (fun t => t.serves asid va kind) with
      | some t => .ok (t.map va)
      | none => .miss

/-- The home die that walks for a page (R337). -/
def walkDie (asid va : Nat) : Nat := Nat.xor (fld va 30 2) (asid % 4)

/-- The home die whose walkers serve a page: that of R337, or its buddy once it has failed (R368). -/
def State.walkHome (s : State) (asid va : Nat) : Nat :=
  let d := walkDie asid va
  if s.dieFailed d then Nat.xor d 1 else d

/-- The requests at a home die: one for each cluster unit and page (R336, R337). -/
def State.walkLoad (s : State) (hd : Nat) : Nat :=
  s.clusters.foldl (fun n k => n + (k.2.miss.filter (fun m => s.walkHome m.1 (m.2 * 65536) == hd)).length) 0

/-- A walk request, through the miss table of the cluster unit (R336): 64 entries, merged by ASID and VA[56:16]. A full
table holds the request back, and so does a home die with 32 walks under way and 1,024 requests queued (R337). -/
def State.askWalk (s : State) (u : Agent) (who : Waiter) (asid va kind : Nat) : State :=
  let r : WalkReq := { asid := asid, va := va, kind := kind, who := who }
  if s.walkq.any (fun w => w.asid == asid && w.va / 65536 == va / 65536 && w.kind == kind && w.who == who) then s
  else
    let k := u.clusterUnit
    let cl := s.cluster k
    let page := (asid, va / 65536)
    if cl.miss.contains page then { s with walkq := s.walkq ++ [r] }
    else if 64 ≤ cl.miss.length || decide (1056 ≤ s.walkLoad (s.walkHome asid va)) then s
    else
      let s1 := s.setCluster k { cl with miss := cl.miss ++ [page] }
      { s1 with walkq := s1.walkq ++ [r] }

/-- The free slots of a partition's save pool (R314, R320): the lowest free slot's address. -/
def State.freeSlot (s : State) (p size : Nat) : Option Nat :=
  let q := s.part p
  let n := fld q.svcfg.toNat 0 16
  let sz := fld q.svcfg.toNat 16 16 * 65536
  if sz < size then none
  else ((List.range n).map (fun i => q.svbase.toNat + i * sz)).find?
    (fun a => !s.blocks.any (fun b => b.2.save == some a))

/-- The gangs that are saved and restored together (R14, R40): a gang alone, or the gangs of its CLU cluster. -/
def State.unitOf (s : State) (gid : Nat) : List Nat :=
  match s.gang gid, s.gangLaunch gid with
  | some g, some l =>
    if l.clu && !g.cont then
      s.gangs.filter (fun x => x.2.lslot == g.lslot && !x.2.cont && x.2.gx / 2 == g.gx / 2 && x.2.gy / 2 == g.gy / 2) |>.map Prod.fst
    else [gid]
  | _, _ => []

/-- A long-service fault (R40, R317): the crew's word stays unretired, and its gang, or whole CLU cluster, has a save
pending; one that has such a fault already, or is held resident for one, only waits. -/
def State.longService (s : State) (gid idx va detail : Nat) : State :=
  let unit := s.unitOf gid
  if unit.any (fun m => match s.gang m with | some g => g.heldFault.isSome | none => false) then s
  else
    let s1 := unit.foldl (fun s m => s.updGang m (fun v => { v with stop := true })) s
    s1.updGang gid (fun v => { v with heldFault := some (idx, va, detail) })

/-- The bytes of an instruction word at a physical address: of device memory, or of a line held from outside. -/
def State.codeBytes (s : State) (pa n : Nat) : Option (List Byte) :=
  match s.target pa with
  | .dev o => some (Cells.bytes s.mem o n)
  | .nothing => none
  | _ => match s.farLine pa with
    | some l => some (Cells.bytes l.bytes (pa % 64) n)
    | none => none

end Sys2Proof.Machine
end

