-- ==== Sys2Proof/Machine/Sched.lean ====
section
/-! DEFINITION. What a move of the agenda does: which split of a pipe issues (R29 to R31), the fetch of a word (R130,
R146), and the words of management cores (R249) and pumps (R253). -/

namespace Sys2Proof.Machine

/-- A move resolved: the state after it, or the word that the unit now named executes. -/
inductive Sel where
  | idle (s : State)
  | exec (i : Instr) (s : State)
  deriving DecidableEq, Repr

/-! ## Choosing a split -/

/-- A crew whose splits may issue: it is not trapped, waits on no held page, and its gang has no save or discard pending (R309,
R311, R317). -/
def State.runnable (s : State) (key : Nat) (c : Crew) : Bool :=
  c.trap.isNone && !c.splits.any (fun sp => sp.mask != 0 && sp.wait == .held) && (match s.gang (keyGid key) with
    | some g => !g.stop
    | none => false)

/-- A split that may issue now (R29, R143). -/
def Split.ready (sp : Split) (now : Nat) : Bool :=
  sp.mask != 0 && sp.wait == .none && decide (sp.nextIssue ≤ now) && sp.tried != some now

/-- The logical crew index (R11). -/
def State.crewIndex (s : State) (key : Nat) : Nat := s.logicalLane key 0 / 32

/-- Whether the clock of a core is withheld by its duty g/64: the clocks from g on of each run of 64 are (R389, log entry 38). -/
def CoreSt.withheld (k : CoreSt) (now : Nat) : Bool := decide (k.duty ≤ (now - k.clkBase) % 64)

/-- Whether a split that yielded gives up this opportunity: the next clock of its pipe after the `yield` (R176). -/
def CoreSt.passes (k : CoreSt) (sp : Split) (now : Nat) : Bool :=
  sp.yielded && decide (now ≤ sp.lastIssue + 64) &&
    (List.range (now - sp.lastIssue - 1)).all (fun i => k.withheld (sp.lastIssue + 1 + i))

/-- A candidate for an issue opportunity. -/
structure Cand where
  last : Nat
  idx : Nat
  key : Nat
  e : Nat
  yielded : Bool
  deriving DecidableEq, Repr

/-- R30: longest since its last issue, then lower logical crew index, then lower entry. A split that has not issued since it
started or was restored counts from cycle 0; splits of two launches that tie in everything go by crew key (log entry 61). -/
def Cand.before (a b : Cand) : Bool :=
  decide (a.last < b.last) || (a.last == b.last && (decide (a.idx < b.idx) || (a.idx == b.idx &&
    (decide (a.e < b.e) || (a.e == b.e && decide (a.key < b.key))))))

def bestOf : List Cand → Option Cand
  | [] => none
  | c :: t => match bestOf t with
    | none => some c
    | some b => some (if c.before b then c else b)

def State.candsOf (s : State) (key : Nat) (c : Crew) (es : List Nat) : List Cand :=
  if s.runnable key c then
    es.filterMap (fun e => let sp := c.split e
      if sp.ready s.now then
        some { last := sp.lastIssue, idx := s.crewIndex key, key := key, e := e, yielded := (s.core c.core).passes sp s.now }
      else none)
  else []

/-- The waits that block a crew in DET (R31). -/
def Wait.blocks : Wait → Bool
  | .bar _ _ | .arrive _ | .well _ | .batch => true
  | _ => false

/-- Whether a DET crew is blocked: it has yielded, or every split waits at a `join` or blocks (R31). -/
def Crew.detBlocked (c : Crew) : Bool :=
  let es := (List.range 4).filter (fun e => (c.split e).mask != 0)
  es.any (fun e => (c.split e).yielded) ||
  es.all (fun e => (c.split e).wait.blocks || (c.split e).wait == .join)

/-- Whether a split of a running DET crew may run: it neither waits at a `join` nor blocks (R31). -/
def Split.detOpen (sp : Split) : Bool := sp.mask != 0 && sp.wait != .join && !sp.wait.blocks

/-- The split entry that a DET crew runs: the one it runs already, until that split waits at a `join`, blocks or exits; then the
lowest that does not (R31). -/
def Crew.detEntry (c : Crew) : Nat :=
  let low := ((List.range 4).find? (fun e => (c.split e).detOpen)).getD 0
  match c.detRun with
  | some e => if (c.split e).detOpen then e else low
  | none => low

def Crew.unyield (c : Crew) : Crew := { c with splits := c.splits.map (fun sp => { sp with yielded := false }) }

/-- The running DET crew of a pipe (R31): the one that runs on until it blocks or exits, or else the unblocked one with
the lowest logical crew index; of two launches' crews with one index, the one with the lower crew key (log entry 61).
A trapped crew holds its pipe (R309). -/
def State.chooseDet (s : State) (ds : List (Nat × Crew)) : State × Option Nat :=
  if ds.any (fun d => d.2.trap.isSome) then (s, none)
  else match ds.find? (fun d => d.2.detRun.isSome && !d.2.detBlocked) with
  | some d => (s, some d.1)
  | none =>
    let prev := (ds.find? (fun d => d.2.detRun.isSome)).map Prod.fst
    let s1 := ds.foldl (fun s d => if prev == some d.1 then s else s.updCrew d.1 Crew.unyield) s
    let open1 (s : State) : List Nat := (ds.map Prod.fst).filter (fun k => match s.crew k with
      | some c => !c.detBlocked
      | none => false)
    let s2 := if (open1 s1).isEmpty then ds.foldl (fun s d => s.updCrew d.1 Crew.unyield) s1 else s1
    let best := (open1 s2).foldl (fun a k => match a with
      | none => some k
      | some b => if s2.crewIndex k < s2.crewIndex b || (s2.crewIndex k == s2.crewIndex b && decide (k < b)) then some k
        else some b) (none : Option Nat)
    let s3 := ds.foldl (fun s d => s.updCrew d.1 (fun c =>
      { c with detRun := if best == some d.1 then some c.detEntry else none })) s2
    (s3, best)

/-- The split of the running DET crew that may take the opportunity; the crew notes it (R31). -/
def State.detCand (s : State) (k : Option Nat) : State × List Cand :=
  match k with
  | none => (s, [])
  | some k => match s.crew k with
    | some c =>
      let s1 := if c.detRun = some c.detEntry then s else s.setCrew k { c with detRun := some c.detEntry }
      (s1, (s1.candsOf k c [c.detEntry]).map (fun x => { x with yielded := false }))
    | none => (s, [])

/-- The split that takes a pipe's issue opportunity (R30, R31, R176). -/
def State.pick (s : State) (core pipe : Nat) : State × Option Cand :=
  let on := (s.coreCrews core).filter (fun c => c.2.pipe == pipe && c.2.live != 0)
  let ds := on.filter (fun c => s.gangDet (keyGid c.1))
  let r := s.chooseDet ds
  let free := (on.filter (fun c => !s.gangDet (keyGid c.1))).flatMap (fun c => s.candsOf c.1 c.2 (List.range 4))
  let d := r.1.detCand r.2
  let all := free ++ d.2
  match bestOf (all.filter (fun c => !c.yielded)) with
  | some c => (d.1, some c)
  | none => (d.1, bestOf all)

/-! ## Fetch -/

/-- What a fetch at a virtual address gives: an instruction, a failing translation (of the literal when `tail`), a held
page, or nothing yet. -/
inductive Fetched where
  | word (i : Instr)
  | fault (va : Nat) (tail : Bool)
  | held (va : Nat)
  | later (s : State)
  deriving DecidableEq, Repr

/-- One instruction word read at a virtual address. -/
def State.fetchWord (s : State) (u : Agent) (who : Waiter) (asid va : Nat) (walks : List WalkFail) (tail : Bool) :
    Fetched ⊕ List Byte :=
  if 2 ^ 57 ≤ va then .inl (.fault va tail)
  else match s.xlate u asid va 3 walks with
    | .fail 3 => .inl (.held va)
    | .fail _ => .inl (.fault va tail)
    | .miss => .inl (.later (s.askWalk u who asid va 3))
    | .ok pa => match s.codeBytes pa 8 with
      | some bs => .inr bs
      | none => .inl (match s.target pa with
        | .nothing => .fault va tail
        | _ => .later (s.askFar asid pa 0))

/-- The instruction at a virtual address (R130, R146, R150). DESIGN CHOICE (log entry 70): of a `movl` that is itself illegal and whose
literal's page fails, the fetch fault is taken. -/
def State.fetch (s : State) (u : Agent) (who : Waiter) (asid va : Nat) (walks : List WalkFail) : Fetched :=
  match s.fetchWord u who asid va walks false with
  | .inl f => f
  | .inr bs =>
    let w := BitVec.ofNat 64 (leVal bs)
    let go (rest : List Byte) : Fetched := match decode (bs ++ rest) with
      | .ok i => .word i.1
      | .error _ => .word (.illegalEncoding w)
    if isMovl w then
      match s.fetchWord u who asid (va + 8) walks true with
      | .inl f => f
      | .inr lit => go lit
    else go []

/-! ## Moves -/

/-- The gang issues its first word, and its pump starts the slice (R118, R350). -/
def State.startGang (s : State) (gid : Nat) : State :=
  match s.gang gid with
  | none => s
  | some g =>
    if g.issued then s
    else
      let p := match s.gangCrews gid with | c :: _ => c.2.pts | [] => 0
      s.setGang gid { g with issued := true, pump := g.pump.map (fun v => { v with pts := p }) }

def State.pipeMove (s : State) (core pipe : Nat) : Sel :=
  if (s.core core).issuedAt.getD pipe none = some s.now || (s.core core).withheld s.now then .idle s
  else
    let r := s.pick core pipe
    match r.2 with
    | none => .idle r.1
    | some c =>
      let s1 := { r.1 with cur := .crew c.key c.e }
      match s1.crew c.key with
      | none => .idle r.1
      | some cr =>
        let gid := keyGid c.key
        match s1.fetch (.core core) (.split c.key c.e) (s1.gangAsid gid) (cr.split c.e).pc cr.walks with
        | .word i => .exec i (s1.startGang gid)
        | .fault va tail => .exec (.fetchFault (BitVec.ofNat 64 va) tail) (s1.startGang gid)
        | .held va => .idle ((r.1.longService gid cr.idx va 1).holdWord c.key c.e (.illegalEncoding 0) .held)
        | .later s2 => .idle ({ s2 with cur := .none }.tryLater c.key c.e)

/-- The address space a management core works in: its crew's tenant's (R249). -/
def State.mgmtAsid (s : State) (k : Nat) : Nat :=
  match (s.mgmt k).crew with
  | some key => s.gangAsid (keyGid key)
  | none => 0

def State.mgmtMove (s : State) (k : Nat) : Sel :=
  let m := s.mgmt k
  if m.crew.isNone || m.wait != .none || decide (s.now < m.nextIssue) then .idle s
  else
    let s1 := { s with cur := .mgmt k }
    match s1.fetch (.mgmt k) (.mgmt k) (s.mgmtAsid k) m.pc m.walks with
    | .word i => .exec i s1
    | .fault va tail => .exec (.fetchFault (BitVec.ofNat 64 va) tail) s1
    | .held va => .exec (.fetchFault (BitVec.ofNat 64 va) false) s1
    | .later s2 => .idle { s2 with cur := .none }

def State.pumpMove (s : State) (gid : Nat) : Sel :=
  match s.gang gid with
  | none => .idle s
  | some g => match g.pump with
    | none => .idle s
    | some p =>
      if p.halted || p.stopped || p.wait != .none || !g.issued || g.stop || p.tried == some s.now then .idle s
      else
        let s1 := { s with cur := .pump gid }
        match s1.fetch (.core g.core) (.pump gid) (s.gangAsid gid) p.pc p.walks with
        | .word i => .exec i s1
        | .fault va tail => .exec (.fetchFault (BitVec.ofNat 64 va) tail) s1
        | .held va => .idle (s.longService gid (match s.lowestCrew gid with | some c => c.2.idx | none => 0) va (1 + dPump))
        | .later s2 => .idle { s2 with cur := .none }

/-- The clock of the package advances (R248). -/
def State.tick (s : State) (n : Nat) : State := { s with now := s.now + n }

/-- The one event that a package without power takes part in (R385). -/
def Move.powers : Move → Bool
  | .event (.powerOn _ _) => true
  | _ => false

/-- The next move of the agenda; an empty agenda lets a cycle pass (log entry 1). -/
def State.nextMove (s : State) : Sel :=
  match s.agenda with
  | [] => .idle (s.tick 1)
  | m :: rest =>
    let s1 := { s with agenda := rest }
    if s.pwr.off && !m.powers then .idle s1
    else match m with
    | .clock n => .idle (s1.tick n)
    | .pipe c p => s1.pipeMove c p
    | .mgmt k => s1.mgmtMove k
    | .pump g => s1.pumpMove g
    | .event i => .exec i { s1 with cur := .none }

end Sys2Proof.Machine
end

