-- ==== Sys2Proof/Machine/MemPath.lean ====
section
/-! DEFINITION. The path of a crew's accesses: addresses and their checks (R45, R46, R183, R184), loads through the L1
and the cluster cache (R353), stores at each scope (R54, R353, R355), and the DET store buffer (R70, R71). -/

namespace Sys2Proof.Machine

/-! ## Addresses and checks -/

/-- A byte range an access names: physical, or an offset of scratch or of the parameters. -/
inductive Loc where
  | phys (pa : Nat)
  | scr (off : Nat)
  | prm (off : Nat)
  deriving DecidableEq, Repr

/-- What the checks of R184 say: which lanes trap, that a page is held or not yet translated, or where each lane's
access goes. -/
inductive Chk where
  | fail (cls : Nat) (lanes : List (Nat × Nat × Nat)) (aux : Nat)
  | held (va : Nat)
  | miss (s : State)
  | ok (locs : List (Nat × Loc))
  deriving DecidableEq, Repr

/-- The parameters of a gang's launch. -/
def State.params (s : State) (gid : Nat) : List Byte :=
  match s.gangLaunch gid with
  | some l => l.params
  | none => []

/-- A lane's own check: its class and flags, a held page, a miss, or its place. -/
inductive LaneChk where
  | bad (cls flags aux : Nat)
  | held
  | miss
  | at (l : Loc)
  deriving DecidableEq, Repr

/-- Whether a CXL port is up (R373). -/
def State.cxlUp (s : State) : Bool := (s.bridge 0).up || (s.bridge 1).up

/-- Whether a physical address can be reached: a lost line raises HOME with the failed die (R369); a place without a
target, a pool whose sides are all dead and an unreachable peer fail as a page that is not present (R372, R380). -/
def State.reach (s : State) (pa wr : Nat) : LaneChk :=
  match s.target pa with
  | .dev o => if s.lost (o / 128) then .bad 11 wr (lineDie (o / 128)) else .at (.phys pa)
  | .host _ => if s.cxlUp then .at (.phys pa) else .bad 1 wr 0
  | .pool k _ =>
    let p := s.pools.getD k { base := 0, size := 0, dev := 0, stat := 0 }
    if !s.cxlUp || p.stat.getLsbD 0 && (!p.dev.getLsbD 1 || p.stat.getLsbD 1) then .bad 1 wr 0 else .at (.phys pa)
  | .peer p va => if devSize ≤ va || s.dom.unreachable.contains p then .bad 1 wr 0 else .at (.phys pa)
  | .nothing => .bad 1 wr 0

/-- R184 for one lane's access of `n` bytes, kind as in `TlbEntry.serves`. -/
def State.checkLane (s : State) (u : Agent) (gid : Nat) (walks : List WalkFail) (space : Space) (kind ea n : Nat) : LaneChk :=
  let wr := if kind = 1 || kind = 2 then dWrite else 0
  match space with
  | .gl =>
    if 2 ^ 57 ≤ ea then .bad 1 (dNoncanon + wr) 0
    else if ea % n ≠ 0 then .bad 1 (dMisalign + wr) 0
    else match s.xlate u (s.gangAsid gid) ea kind walks with
      | .ok pa => s.reach pa wr
      | .fail 3 => .held
      | .fail 1 => .bad 1 (dPerm + wr) 0
      | .fail _ => .bad 1 wr 0
      | .miss => .miss
  | .sp =>
    let sz := match s.gang gid with | some g => g.scrSz | none => 0
    if sz < ea + n then .bad 6 wr 0 else if ea % n ≠ 0 then .bad 1 (dMisalign + wr) 0 else .at (.scr ea)
  | .pm =>
    if (s.params gid).length < ea + n then .bad 6 0 0 else if ea % n ≠ 0 then .bad 1 dMisalign 0 else .at (.prm ea)

/-- R184: every active lane is checked before any access is performed; the trap is that of the lowest failing lane. -/
def State.checkAll (s : State) (u : Agent) (who : Waiter) (gid : Nat) (walks : List WalkFail) (space : Space)
    (kind n : Nat) (eas : List (Nat × Nat)) : Chk :=
  let rs := eas.map (fun e => (e.1, e.2, s.checkLane u gid walks space kind e.2 n))
  let miss := rs.filter (fun r => r.2.2 == .miss)
  let ask : Chk := .miss (miss.foldl (fun s r => s.askWalk u who (s.gangAsid gid) r.2.1 kind) s)
  let bad := rs.filterMap (fun r => match r.2.2 with
    | .bad cls fl aux => some (cls, aux, r.1, r.2.1, fl)
    | .held => some (16, 0, r.1, r.2.1, 0)
    | _ => none)
  match bad with
  | b :: _ =>
    let fail : Chk := .fail b.1 (bad.filterMap (fun x => if x.1 = b.1 then some x.2.2 else none)) b.2.1
    if b.1 = 6 then fail else if !miss.isEmpty then ask else if b.1 = 16 then .held b.2.2.2.1 else fail
  | [] =>
    if miss.isEmpty then .ok (rs.filterMap (fun r => match r.2.2 with | .at l => some (r.1, l) | _ => none)) else ask

/-- A place in a peer's memory that a write may not reach yet: this MZ-40 does not own its line (R381), and a refusal must
find the word unretired. -/
def State.notOwned (s : State) (pa : Nat) : Option Nat :=
  match s.target pa with
  | .peer _ _ => (match s.farLine pa with
    | some l => if 2 ≤ l.st then none else some pa
    | none => some pa)
  | _ => none

/-- The effective address of a per-lane access (R183). -/
def memEa (o : Mem) (c : Crew) (l : Nat) : Nat :=
  ((((c.opnd o.a 2 .n64 l : Nat) : Int) + sext32 (c.opnd o.b 1 .i32 l) * (2 ^ o.sh.toNat : Nat)) % (2 ^ 64 : Nat)).toNat

/-- The accesses (lane, address, place) that would meet poison now: their sectors' check values are verified, by the core, at
their homes and in scratch (R75, R184); a place whose line the crew's core or cluster unit holds dirty is left to the access. -/
def State.poisonMet (s : State) (key core n : Nat) (as : List (Nat × Nat × Loc)) : State × List (Nat × Nat) :=
  let gid := keyGid key
  as.foldl (fun acc a => match a.2.2 with
    | .phys pa =>
      if (crewUnits core).any (fun u => match acc.1.span u (pa / 128) with | some v => !v.dirty.isEmpty | none => false) then acc
      else
        let s1 := match acc.1.target pa with
          | .dev o => acc.1.verify (o / 32) { acc.1.finder gid 8 with core := some core, va := a.2.1 }
          | _ => acc.1
        (s1, if s1.homePoison (pa / 128) (pa % 128) then acc.2 ++ [(a.1, a.2.1)] else acc.2)
    | .scr off =>
      let r := acc.1.scrCheck gid off n
      (r.1, if r.2 then acc.2 ++ [(a.1, a.2.1)] else acc.2)
    | .prm _ => acc) (s, [])

/-- The trap of accesses (lane, address) that meet poison (R76, R307): the sector's address. -/
def poisonTrap (e : Nat) (bad : List (Nat × Nat)) : Trap :=
  laneTrap 8 e (bad.map (fun b => (b.1, b.2 / 32 * 32, 0))) 0

/-- The trap of a word that fails the checks of R184: that of its lowest failing lane, INTEGRITY among them for a word that
`reads`. -/
def failTrap (x : Ctx) (c : Crew) (s : State) (space : Space) (kind n : Nat) (reads : Bool) (eas : List (Nat × Nat)) (cls : Nat)
    (ls : List (Nat × Nat × Nat)) (aux : Nat) : Act :=
  let u : Agent := .core c.core
  let good := eas.filterMap (fun e => match s.checkLane u (keyGid x.key) c.walks space kind e.2 n with
    | .at l => some (e.1, e.2, l)
    | _ => none)
  let first : Nat := (ls.map (·.1)).getD 0 0
  if reads && good.any (fun (g : Nat × Nat × Loc) => decide (g.1 < first)) then
    let r := s.poisonMet x.key c.core n good
    if r.2.any (fun b => decide (b.1 < first)) then .trap r.1 (poisonTrap x.e r.2) else .trap r.1 (laneTrap cls x.e ls aux)
  else .trap s (laneTrap cls x.e ls aux)

/-- The checks of a word and what to do when they do not let it go on; `reads` says that the word loads what it names, `own` that a
write into a peer's memory is made in a line that this MZ-40 owns, not by a request to the peer. -/
def checked (x : Ctx) (c : Crew) (s : State) (space : Space) (kind n : Nat) (eas : List (Nat × Nat))
    (k : List (Nat × Loc) → Act) (reads : Bool := false) (own : Bool := true) : Act :=
  match s.checkAll (.core c.core) (.split x.key x.e) (keyGid x.key) c.walks space kind n eas with
  | .fail cls ls aux => failTrap x c s space kind n reads eas cls ls aux
  | .held va => .wait (s.longService (keyGid x.key) c.idx va (if kind = 1 || kind = 2 then dWrite else 0)) .held
  | .miss s1 => .blocked s1
  | .ok ls =>
    let owed := if kind = 0 || !own then [] else ls.filterMap (fun l => match l.2 with
      | .phys pa => s.notOwned pa
      | _ => none)
    if owed.isEmpty then k ls else .blocked (owed.foldl (fun s pa => s.askFarFor x.key x.e pa 2) s)

/-! ## Dirty bytes seen by loads (R54, R353) -/

/-- The dirty byte that a crew's loads see: its L1's, else its cluster cache's. -/
def State.dirtyByte (s : State) (key core line off : Nat) : Option Byte :=
  let inUnit (u : Agent) : Option Byte := match s.span u line with
    | some v => s.spanDirty key v off
    | none => none
  match inUnit (.core core) with
  | some b => some b
  | none => inUnit (.cluster (clusterOf core))

/-- A dirty byte outside the crew's sight: the access goes to the home, which recalls it (R66). -/
def State.hiddenDirty (s : State) (key core line off : Nat) : Bool :=
  (crewUnits core).any (fun u => match s.span u line with
    | some v => v.dirty.any (fun d => d.has off && !s.seesDirty key d)
    | none => false)

/-- A byte of a line that the crew's own unacknowledged requests write (R52, R355). -/
def Crew.ackPending (c : Crew) (line off : Nat) : Bool := c.acks.any (fun a => a.line == line && a.bytes.contains off)

/-- Whether a load of one byte is served by the L1 (R353): dirty, or clean under a lease that reaches `pts`. -/
def State.byteReady (s : State) (key : Nat) (c : Crew) (line off : Nat) : Bool :=
  !c.ackPending line off &&
  ((s.dirtyByte key c.core line off).isSome ||
   (!s.hiddenDirty key c.core line off &&
    (match s.span (.core c.core) line with
     | some v => v.covers off && Ts.le c.pts (v.rts.getD (off / 32) 0)
     | none => false)))

/-- The byte a ready load returns. -/
def State.l1Byte (s : State) (key core line off : Nat) : Byte :=
  match s.dirtyByte key core line off with
  | some b => b
  | none => match s.span (.core core) line with
    | some v => Cells.get v.bytes off
    | none => 0

/-- Whether a load of a byte meets poison, or a failing check value (R75, R76): of a clean byte, in the span's sector; of a dirty
byte, in the sector it is a part of, unless the dirty bytes cover the sector. -/
def State.l1Poison (s : State) (key core line off : Nat) : Bool :=
  let k := off / 32
  (match s.dirtyByte key core line off, s.span (.core core) line with
  | none, some v => v.poison.contains k || v.poison.contains (k + 4)
  | none, none => false
  | some _, _ => s.homePoison line off) &&
  !(List.range 32).all (fun i => (s.dirtyByte key core line (32 * k + i)).isSome)

/-- The recorded `wts` of a sector of a span (R351). -/
def State.l1Wts (s : State) (core line off : Nat) : Ts :=
  match s.span (.core core) line with
  | some v => if v.covers off then v.wts.getD (off / 32) 0 else 0
  | none => 0

/-! ## Loads -/

/-- The lines that accesses at physical addresses touch, with the first and last byte offset touched (R190). -/
def touched (n : Nat) (pas : List Nat) : List (Nat × Nat × Nat) :=
  pas.foldl (fun acc pa =>
    let l := pa / 128
    let lo := pa % 128
    let hi := lo + n - 1
    if acc.any (fun a => a.1 == l) then
      acc.map (fun a => if a.1 = l then (l, if lo < a.2.1 then lo else a.2.1, if a.2.2 < hi then hi else a.2.2) else a)
    else acc ++ [(l, lo, hi)]) []

/-- Whether an access at a scope is served outside the package afresh: host and pool memory at system scope, a peer's
at domain scope or wider (R375, R380, R381). -/
def State.freshOnly (s : State) (sc : Scope) (line : Nat) : Bool :=
  match s.target (line * 128) with
  | .dev _ | .nothing => false
  | .peer _ _ => decide (4 ≤ sc.code)
  | _ => sc == .sy

/-- What a polling load notes among the lines it asked for when an attempt fails: the home serves every later attempt
(R189). No line has this number. -/
def pollMark : Nat := 2 ^ 64

/-- A RENEW for a span of a line, unless one is outstanding (R353); the split notes that it asked. -/
def State.askLine (s : State) (key e : Nat) (c : Crew) (line lo hi : Nat) (whole : Bool) (sc : Scope) (ord : Order) : State :=
  let u : Agent := .core c.core
  let fresh := s.freshOnly sc line || (c.split e).got.contains (2 * line) || (c.split e).got.contains pollMark
  let s1 := s.updCrew key (fun c => c.updSplit e (fun sp =>
    { sp with got := if sp.got.contains (2 * line) then sp.got else sp.got ++ [2 * line] }))
  match s.span u line with
  | some v =>
    if v.pending.isSome then s1
    else
      let inside := v.covers lo && v.covers hi
      let first := if inside then v.first else if whole then 0 else lo / 8
      let cnt := if inside then v.cnt else if whole then 16 else hi / 8 - lo / 8 + 1
      let w : Option Ts := if inside then
          (spanSectors first cnt).foldl (fun a k => let x := v.wts.getD k 0
                                                    match a with
                                                    | none => some x
                                                    | some y => some (if Ts.prec x y then x else y)) none
        else none
      let p := { Pkt.new (.renew w) u (s.destOf line) line c.pts key e with
                 first := first, cnt := cnt, scope := sc, ord := ord, fresh := fresh }
      (s1.send p).setSpan u line { v with pending := some s1.nextId }
  | none =>
    let first := if whole then 0 else lo / 8
    let cnt := if whole then 16 else hi / 8 - lo / 8 + 1
    let p := { Pkt.new (.renew none) u (s.destOf line) line c.pts key e with
               first := first, cnt := cnt, scope := sc, ord := ord, fresh := fresh }
    (s1.send p).setSpan u line { Span.empty with pending := some s1.nextId }

/-- Whether the split has received a reply for a line since it asked. -/
def Crew.gotLine (c : Crew) (e line : Nat) : Bool := (c.split e).got.contains (2 * line + 1)

/-- The lines of a load that are not ready, each with its span. -/
def State.notReady (s : State) (key e : Nat) (c : Crew) (sc : Scope) (n : Nat) (pas : List Nat) : List (Nat × Nat × Nat) :=
  (touched n pas).filter (fun t =>
    pas.any (fun pa => pa / 128 == t.1 && (List.range n).any (fun k => !s.byteReady key c t.1 (pa % 128 + k)))
    || (s.freshOnly sc t.1 && !c.gotLine e t.1))

/-- The bytes of a physical place, as loads of the crew see them. -/
def State.loadBytes (s : State) (key core n pa : Nat) : List Byte :=
  (List.range n).map (fun k => s.l1Byte key core (pa / 128) (pa % 128 + k))

/-- Whether an access at one of the places reads a dirty byte that a unit holds and the crew sees. -/
def State.readsDirty (s : State) (key : Nat) (u : Agent) (n : Nat) (pas : List Nat) : Bool :=
  pas.any (fun pa => match s.span u (pa / 128) with
    | some v => (List.range n).any (fun i => (s.spanDirty key v (pa % 128 + i)).isSome)
    | none => false)

/-- What an acquire of `n` bytes at each place raises `pts` to (R351): the `wts` of the sectors read; the release floor of the core
at crew and gang scope, and of the cluster unit at cluster scope; and that of a unit whose dirty bytes it reads, whatever its
scope, since a narrower release lies there (R55, log entry 12). -/
def State.acquirePts (s : State) (key core : Nat) (sc : Scope) (n : Nat) (pas : List Nat) (p : Ts) : Ts :=
  let a := pas.foldl (fun a pa => Ts.smax a (s.l1Wts core (pa / 128) (pa % 128))) p
  let inL1 := decide (sc.code < 3) || s.readsDirty key (.core core) n pas
  let inCl := sc == .cl || s.readsDirty key (.cluster (clusterOf core)) n pas
  let b := if inL1 then Ts.smax a (s.core core).crf else a
  if inCl then Ts.smax b (s.cluster (clusterOf core)).crf else b

/-- The value of a buffered byte of a lane in DET (R71). -/
def State.buffered (s : State) (gid lane sp' a : Nat) : Option Byte :=
  match s.gang gid with
  | none => none
  | some g => match g.sbuf.find? (fun e => e.lane == lane && e.space == sp' && e.addr == a / 8 * 8) with
    | some e => if e.mask.getLsbD (a % 8) then some (e.bytes.getD (a % 8) 0) else none
    | none => none

/-- Bytes from a physical address on as a lane's loads see them in DET: its own buffered ones, else those of memory (R71). -/
def State.ownBytes (s : State) (gid lane pa : Nat) (bs : List Byte) : List Byte :=
  ((List.range bs.length).zip bs).map (fun b => (s.buffered gid lane 0 (pa + b.1)).getD b.2)

/-- What a load gives: bytes by lane; the accesses (lane, address) that meet poison; or nothing yet. -/
inductive Loaded where
  | bytes (s : State) (bs : List (Nat × List Byte))
  | poison (s : State) (bad : List (Nat × Nat))
  | later (s : State)
  deriving DecidableEq, Repr

/-- A sector whose check value a load finds wrong is poisoned and recorded by the core that loads it (R75, R346, R400). -/
def State.loadVerify (s : State) (key core pa va : Nat) : State :=
  match s.target pa with
  | .dev o => s.verify (o / 32) { s.finder (keyGid key) 8 with core := some core, va := va }
  | _ => s

/-- A load of `n` bytes by each lane from its place, which `eas` names by lane and address (R187, R353, R71). -/
def State.load (s : State) (key e : Nat) (c : Crew) (sc : Scope) (ord : Order) (whole det : Bool) (n : Nat)
    (eas : List (Nat × Nat)) (locs : List (Nat × Loc)) : Loaded :=
  let gid := keyGid key
  let pas := locs.filterMap (fun l => match l.2 with | .phys pa => some pa | _ => none)
  let no := s.notReady key e c sc n pas
  if !no.isEmpty then .later (no.foldl (fun s t => s.askLine key e c t.1 t.2.1 t.2.2 whole sc ord) s)
  else
    let chk := (locs.zip eas).foldl (fun (acc : State × List (Nat × Nat)) l => match l.1.2 with
      | .phys pa =>
        if (List.range n).any (fun k => acc.1.l1Poison key c.core (pa / 128) (pa % 128 + k)) then
          (acc.1.loadVerify key c.core pa l.2.2, acc.2 ++ [l.2])
        else acc
      | .scr off =>
        let r := acc.1.scrCheck gid off n
        (r.1, if r.2 then acc.2 ++ [l.2] else acc.2)
      | .prm _ => acc) (s, [])
    if !chk.2.isEmpty then .poison chk.1 chk.2
    else
      let s1 := chk.1
      let own (lane sp a : Nat) (b : Byte) : Byte :=
        if det then (s1.buffered gid (s1.logicalLane key lane) sp a).getD b else b
      .bytes s1 (locs.map (fun l => (l.1, match l.2 with
        | .phys pa => (List.range n).map (fun k => own l.1 0 (pa + k) (s1.l1Byte key c.core (pa / 128) (pa % 128 + k)))
        | .scr off => (List.range n).map (fun k => own l.1 1 (off + k)
            (match s1.gang gid with | some g => Cells.get g.scr (off + k) | none => 0))
        | .prm off => (List.range n).map (fun k => (s1.params gid).getD (off + k) 0))))

/-- The `pts` after a load with its order (R351). -/
def State.loadPts (s : State) (key : Nat) (c : Crew) (sc : Scope) (ord : Order) (n : Nat) (locs : List (Nat × Loc)) : Ts :=
  if ord.code < 2 then c.pts
  else
    let pas := locs.filterMap (fun l => match l.2 with | .phys pa => some pa | _ => none)
    let a := s.acquirePts key c.core sc n pas c.pts
    if locs.any (fun l => match l.2 with | .scr _ => true | _ => false) then Ts.smax a (s.core c.core).crf else a

/-! ## Stores -/

/-- A WRITE of a crew sent to the home of its line, after the dirty narrow bytes of the line (R353, R355). -/
def State.sendWrite (s : State) (key e : Nat) (core line : Nat) (bs : LineBytes) (sc : Scope) (ord : Order) : State :=
  let s1 := (crewUnits core).foldl (fun s u => s.publishLine u line (fun _ => true)) s
  let id := s1.nextId
  let p := { Pkt.new .write (.core core) (s1.destOf line) line (s1.ptsOf key) key e with bytes := bs, scope := sc, ord := ord }
  (s1.send p).updCrew key (fun c => { c with acks := c.acks ++ [{ pkt := id, line := line, bytes := bs.map Prod.fst }] })

/-- Whether a WRITE or ATOM of a crew may leave for its line: dirty bytes of the line at the cluster unit are published and
acknowledged first, since packets of two units keep no order (R66, R353). -/
def State.writeReady (s : State) (core : Nat) (lines : List Nat) : State × Bool :=
  let cu := Agent.cluster (clusterOf core)
  let held := lines.filter (fun l => match s.span cu l with | some v => !v.dirty.isEmpty | none => false)
  (held.foldl (fun s l => s.publishLine cu l (fun _ => true)) s, held.isEmpty)

/-- Whether a store at some scope of bytes by line may be performed now. -/
def State.storeReady (s : State) (core : Nat) (sc : Scope) (ls : List (Nat × LineBytes)) : State × Bool :=
  if sc.code < 3 then s.narrowReady core sc ls else s.writeReady core (ls.map Prod.fst)

/-- A store of bytes at physical addresses, by scope (R48, R54). -/
def State.storePhys (s : State) (key e : Nat) (core : Nat) (sc : Scope) (ord : Order) (bs : List (Nat × Byte)) : State :=
  (byLine bs).foldl (fun s l =>
    if sc.code < 3 then (s.roomForDirty (narrowUnit core sc) l.1).narrowStore (narrowUnit core sc) key sc l.1 l.2 else s.sendWrite key e core l.1 l.2 sc ord) s

/-- A light fence still holds back stores of these lanes (R194, R355). -/
def Crew.fenced (c : Crew) (m : Mask) : Bool := c.fences.any (fun f => f.lanes &&& m != 0 && !f.pkts.isEmpty)

/-- The DET buffer takes a lane's bytes at a place (R70): none when every place is taken. -/
def Gang.bufferByte (g : Gang) (lane sp a : Nat) (b : Byte) (order : Nat) : Option Gang :=
  let w := a / 8 * 8
  let bit : BitVec 8 := 1#8 <<< (a % 8)
  if g.sbuf.any (fun e => e.lane == lane && e.space == sp && e.addr == w) then
    some { g with sbuf := g.sbuf.map (fun e => if e.lane == lane && e.space == sp && e.addr == w then
      { e with mask := e.mask ||| bit, bytes := e.bytes.set (a % 8) b, order := if e.order < order then order else e.order }
      else e) }
  else if g.detSz / 32 ≤ g.sbuf.length then none
  else
    let e : SbufEntry := { lane := lane, space := sp, addr := w, mask := bit,
                           bytes := (List.replicate 8 (0 : Byte)).set (a % 8) b, order := order }
    some { g with sbuf := g.sbuf ++ [e] }

/-- The bytes of a store buffered lane by lane, and the lanes that find no place (R70). -/
def Gang.bufferAll (g : Gang) (order : Nat) (es : List (Nat × Nat × Nat × Nat × List Byte)) : Gang × List (Nat × Nat) :=
  es.foldl (fun acc x =>
    let bs := x.2.2.2.2
    let r := ((List.range bs.length).zip bs).foldl (fun (g : Option Gang) b => match g with
      | some g => g.bufferByte x.2.1 x.2.2.1 (x.2.2.2.1 + b.1) b.2 order
      | none => none) (some acc.1)
    match r with
    | some g1 => (g1, acc.2)
    | none => (acc.1, acc.2 ++ [(x.1, x.2.2.2.1)])) (g, [])

/-- The address a lane names. -/
def eaOf (eas : List (Nat × Nat)) (lane : Nat) : Nat := ((eas.find? (fun e => e.1 == lane)).map Prod.snd).getD 0

/-- A store by some lanes, each with its place and bytes (R187, R188). -/
def storeAct (x : Ctx) (c : Crew) (s : State) (sc : Scope) (ord : Order) (eas : List (Nat × Nat))
    (ls : List (Nat × Loc × List Byte)) : Act :=
  let gid := keyGid x.key
  if x.det then
    match s.gang gid with
    | none => .done s
    | some g =>
      let es := ls.map (fun l => (l.1, s.logicalLane x.key l.1, (match l.2.1 with
        | .phys pa => (0, pa)
        | .scr off | .prm off => (1, off)), l.2.2))
      let r := g.bufferAll (if ord.code < 2 then 0 else sc.code + 1)
        (es.map (fun e => (e.1, e.2.1, e.2.2.1.1, e.2.2.1.2, e.2.2.2)))
      if r.2.isEmpty then .done (s.setGang gid r.1)
      else .trap s (laneTrap 6 x.e (r.2.map (fun f => (f.1, eaOf eas f.1, dWrite))) 0)
  else if c.fenced x.act then .blocked s
  else
    let rel := decide (2 ≤ ord.code)
    let r := if rel then s.releaseReady x.key sc else (s, true)
    if !r.2 then .blocked r.1
    else
      let flat (f : Loc → Option Nat) : List (Nat × Byte) := ls.flatMap (fun l => match f l.2.1 with
        | some a => (List.range l.2.2.length).zip l.2.2 |>.map (fun b => (a + b.1, b.2))
        | none => [])
      let phys := flat (fun l => match l with | .phys pa => some pa | _ => none)
      let g := r.1.storeReady c.core sc (byLine phys)
      if !g.2 then .blocked g.1
      else
      let s1 := g.1.storePhys x.key x.e c.core sc ord phys
      let scrBs := (flat (fun l => match l with | .scr off => some off | _ => none)).foldl
        (fun (m : Tab Byte) b => Tab.set m b.1 b.2) []
      let s2 := s1.scrPutAll gid scrBs
      .done (if rel then s2.releaseFloor c.core (if scrBs.isEmpty then sc else .gg) c.pts else s2)

end Sys2Proof.Machine
end

