-- ==== Sys2Proof/Machine/Mem.lean ====
section
/-! DEFINITION. Memory words (R181 to R197), opcodes 0x60 to 0x6B. -/

namespace Sys2Proof.Machine

/-- A management core's access checked (R183, R184): any failure is a fault inside the handler (R338). -/
def State.mgmtCheck (s : State) (k : Nat) (m : Mgmt) (kind ea n : Nat) : Option (Except State Nat) :=
  if 2 ^ 57 ≤ ea || ea % n ≠ 0 then none
  else match s.xlate (.mgmt k) (s.mgmtAsid k) ea kind m.walks with
    | .ok pa => (match s.reach pa 0 with
      | .at _ => some (.ok pa)
      | _ => none)
    | .fail _ => none
    | .miss => some (.error (s.askWalk (.mgmt k) (.mgmt k) (s.mgmtAsid k) ea kind))

/-- The bytes of an access (R182). -/
def memBytes (t : Ty) : Nat := (Ty.bytes? t).getD 1

/-- The lanes of a mask with their effective addresses. -/
def laneEas (o : Mem) (c : Crew) (m : Mask) : List (Nat × Nat) := m.lanes.map (fun l => (l, memEa o c l))
/-- A per-crew access, attributed to the lowest active lane (R186). -/
def crewEa (o : Mem) (c : Crew) (m : Mask) : List (Nat × Nat) := [(m.lanes.getD 0 0, memEa o c 0)]

/-- A loaded value extended to 32 bits or more (R182). -/
def loadExt (t : Ty) (x : Nat) : Nat := if t == .i8 || t == .i16 then iExt t x else x
/-- A loaded value extended to 64 bits in a scalar register (R182, R188). -/
def loadExtS (t : Ty) (x : Nat) : Nat := if t.isInt then iExt t x else x

/-- A load word: the checks, the bytes of each lane, and what is done with them. -/
def loadAct (x : Ctx) (c : Crew) (s : State) (o : Mem) (line : Bool) (eas : List (Nat × Nat))
    (k : State → List (Nat × Nat) → Act) : Act :=
  let n := memBytes o.ty
  checked x c s o.space 0 n eas (fun locs =>
    match s.load x.key x.e c o.scope o.order line x.det n eas locs with
    | .later s1 => .blocked s1
    | .poison s1 bad => .trap s1 (poisonTrap x.e bad)
    | .bytes s1 bs =>
      let p := s1.loadPts x.key c o.scope o.order n locs
      k (s1.updCrew x.key (fun c => { c with pts := p })) (bs.map (fun b => (b.1, leVal b.2)))) true

def laneVal (vs : List (Nat × Nat)) (l : Nat) : Nat := ((vs.find? (fun v => v.1 == l)).map Prod.snd).getD 0

/-- A variable-latency result added to the crew as the state now has it. -/
def pendNow (x : Ctx) (s : State) (ws : List RegWrite) : Act := .done (s.updCrew x.key (fun c => c.addPend x.e ws))

/-- `ld` (R187). -/
def execLd (o : Mem) (line : Bool) (s : State) : Host.Outcome State Fault Refusal :=
  word (.ld o line) o.h (Mem.use o true (Ty.memRegs o.ty) 0) (fun x c s =>
    loadAct x c s o line (laneEas o c x.act) (fun s1 vs =>
      pendNow x s1 (c.vecWrites o.d.toNat (Ty.memRegs o.ty) x.act (fun l => loadExt o.ty (laneVal vs l))))) s

/-- Writes to memory outside the package that no crew sent are still on their way: a management core's release and its fences wait
for them (R249, R355). -/
def State.posted (s : State) : Bool := s.outReqs.any (fun r => r.2.what == 1 && r.2.crew == 0 && r.2.pkt == 0)

/-- For whom a management core's access is made (R346, R400). -/
def State.mgmtFinder (s : State) (k : Nat) (m : Mgmt) (ea : Nat) : Finder :=
  { s.finder (keyGid (m.crew.getD 0)) 8 with core := some (Agent.cluster k).reporter, va := ea }

/-- A management core's load (R249): in global space. Its home performs it, whatever its scope: no L1 stands between, and the holds it
meets are ended, so that it sees what any scope lets it see. -/
def mgmtLoad (o : Mem) (k : Nat) (m : Mgmt) (s : State) (f : State → Nat → Act) : Act :=
  let n := memBytes o.ty
  let ea := ((((m.sval o.a : Nat) : Int) + sext32 (m.sval o.b) * (2 ^ o.sh.toNat : Nat)) % (2 ^ 64 : Nat)).toNat
  if o.space != .gl then .trap s (mkTrap 0 0 0 0 0)
  else match s.mgmtCheck k m 0 ea n with
    | none => .trap s (mkTrap 1 0 0 0 0)
    | some (.error s1) => .blocked s1
    | some (.ok pa) => match s.directRead pa n m.pts (decide (2 ≤ o.order.code)) none (s.mgmtFinder k m ea) with
      | .later s1 => .blocked s1
      | .ok s1 bs ts po =>
        if po then .trap s1 (mkTrap 8 0 0 0 0)
        else f (s1.updMgmt k (fun m => { m with pts := if o.order.code < 2 then m.pts else Ts.smax m.pts ts })) (leVal bs)

/-- `lds` (R188). -/
def execLds (o : Mem) (line : Bool) (s : State) : Host.Outcome State Fault Refusal :=
  fullWord (.lds o line) o.h (Hdr.use o.h (Opnd.span o.a 1 ++ Opnd.span o.b 1) [sReg o.d]) 8 (fun x c s =>
    loadAct x c s o line (crewEa o c x.act) (fun s1 vs =>
      pendNow x s1 [sWrite o.d.toNat (loadExtS o.ty (laneVal vs (x.act.lanes.getD 0 0)))]))
    (some (fun k m s => mgmtLoad o k m s (fun s1 v =>
      .done (s1.updMgmt k (fun m => m.setS o.d.toNat (loadExtS o.ty v)))))) s

/-- A store word: the checks, then the bytes of each lane (R187, R188). -/
def storeWord (x : Ctx) (c : Crew) (s : State) (o : Mem) (eas : List (Nat × Nat)) (f : Nat → Nat) : Act :=
  let n := memBytes o.ty
  checked x c s o.space 1 n eas (fun locs =>
    storeAct x c s o.scope o.order eas (locs.map (fun l => (l.1, l.2, leBytes (f l.1) n))))

/-- `st` (R187). -/
def execSt (o : Mem) (s : State) : Host.Outcome State Fault Refusal :=
  word (.st o) o.h (Mem.use o true 0 (Ty.memRegs o.ty)) (fun x c s =>
    storeWord x c s o (laneEas o c x.act) (fun l => c.rvs o.c.toNat l (Ty.memRegs o.ty))) s

/-- `sts` (R188): D names the scalar data. -/
def execSts (o : Mem) (s : State) : Host.Outcome State Fault Refusal :=
  fullWord (.sts o) o.h (Hdr.use o.h (Opnd.span o.a 1 ++ Opnd.span o.b 1 ++ [sReg o.d]) []) 8 (fun x c s =>
    storeWord x c s o (crewEa o c x.act) (fun _ => c.rs o.d.toNat))
    (some (fun k m s =>
      let n := memBytes o.ty
      let ea := ((((m.sval o.a : Nat) : Int) + sext32 (m.sval o.b) * (2 ^ o.sh.toNat : Nat)) % (2 ^ 64 : Nat)).toNat
      if o.space != .gl then .trap s (mkTrap 0 0 0 0 0)
      else match s.mgmtCheck k m 1 ea n with
        | none => .trap s (mkTrap 1 0 0 0 0)
        | some (.error s1) => .blocked s1
        | some (.ok pa) => if 2 ≤ o.order.code && s.posted then .blocked s else match s.directWrite pa (leBytes (m.rs o.d.toNat) n) m.pts none (s.mgmtFinder k m ea) with
          | .later s1 => .blocked s1
          | .ok s1 _ ts _ => .done (s1.updMgmt k (fun m => { m with pts := Ts.smax m.pts ts })))) s

/-- The comparisons of `ldp` (R189). -/
def ldpCond (cc : Nat) (t : Ty) (v b : Nat) : Bool :=
  match cc with
  | 6 => Nat.land (v % 2 ^ t.bits) (b % 2 ^ t.bits) != 0
  | 7 => Nat.land (v % 2 ^ t.bits) (b % 2 ^ t.bits) == 0
  | n => iCmp n (iVal t v) (iVal t b)

/-- `ldp` (R189): an attempt that the comparison fails waits for the next; an attempt after the first is served by the
home. -/
def execLdp (o : Mem) (cc : BitVec 4) (s : State) : Host.Outcome State Fault Refusal :=
  fullWord (.ldp o cc) o.h (Hdr.use o.h (Opnd.span o.a 1 ++ Opnd.span o.b 1) [sReg o.d]) 8 (fun x c s =>
    let ea := c.sval o.a
    let eas := [(x.act.lanes.getD 0 0, ea)]
    let n := memBytes o.ty
    checked x c s o.space 0 n eas (fun locs =>
      let lines := locs.filterMap (fun l => match l.2 with | .phys pa => some (pa / 128, pa % 128) | _ => none)
      let stale := lines.filter (fun l => (c.split x.e).got.contains pollMark && !c.gotLine x.e l.1)
      if !stale.isEmpty then
        .blocked (stale.foldl (fun s l => s.askLine x.key x.e c l.1 l.2 (l.2 + n - 1) false o.scope .rx) s)
      else match s.load x.key x.e c o.scope .rx false x.det n eas locs with
        | .later s1 => .blocked s1
        | .poison s1 bad => .trap s1 (poisonTrap x.e bad)
        | .bytes s1 bs =>
          let v := leVal ((bs.map Prod.snd).getD 0 [])
          if ldpCond cc.toNat o.ty v (c.sval o.b) then
            let p := s1.loadPts x.key c o.scope o.order n locs
            pendNow x (s1.updCrew x.key (fun c => { c with pts := p })) [sWrite o.d.toNat (iExt o.ty v)]
          else .wait (s1.updCrew x.key (fun c => c.updSplit x.e (fun sp => { sp with got := [] }))) (.poll s1.now)) true)
    (some (fun k m s =>
      let o1 := { o with b := .k 0, sh := 0 }
      mgmtLoad o1 k m s (fun s1 v =>
        if ldpCond cc.toNat o.ty v (m.sval o.b) then .done (s1.updMgmt k (fun m => m.setS o.d.toNat (iExt o.ty v)))
        else .wait s1 (.poll s1.now)))) s

/-! ## Atomics (R191 to R193) -/

/-- An order that releases, or acquires, in a returning atomic (R51). -/
def ordRel (ret : Bool) (o : Order) : Bool := if ret then o.code == 3 else decide (2 ≤ o.code)
def ordAcq (ret : Bool) (o : Order) : Bool := ret && decide (2 ≤ o.code)

/-- One lane's request: lane, place, operand, new value of a swap. -/
structure AtomLane where
  lane : Nat
  loc : Loc
  x : Nat
  new : Nat
  deriving DecidableEq, Repr

/-- What an atomic word does with the old values: `ret` writes them. -/
structure AtomOp where
  op : Nat
  cas : Bool
  ret : Bool
  ty : Ty
  d : Reg
  scope : Scope
  order : Order
  deriving DecidableEq, Repr

/-- The old values written to vD (R191, R193). -/
def AtomOp.result (a : AtomOp) (c : Crew) (act : Mask) (olds : List (Nat × Nat)) : List RegWrite :=
  if a.ret then c.vecWrites a.d.toNat a.ty.regs act (fun l => laneVal olds l) else []

/-- The lanes grouped by place (R60), in ascending order of first lane: place, (lane, operand, new). -/
def atomPlaces (ls : List AtomLane) : List (Loc × List (Nat × Nat × Nat)) :=
  ls.foldl (fun acc l =>
    if acc.any (fun a => a.1 == l.loc) then
      acc.map (fun a => if a.1 = l.loc then (a.1, a.2 ++ [(l.lane, l.x, l.new)]) else a)
    else acc ++ [(l.loc, [(l.lane, l.x, l.new)])]) []

/-- Atomics in scratch (R48): performed at once at the bank. -/
def atomScratch (x : Ctx) (c : Crew) (s : State) (a : AtomOp) (eas : List (Nat × Nat)) (ls : List AtomLane) : Act :=
  let gid := keyGid x.key
  let n := a.ty.bits / 8
  let off (l : Loc) : Nat := match l with | .scr o => o | .phys o | .prm o => o
  let chk := ls.foldl (fun (acc : State × List Nat) l =>
    let r := acc.1.scrCheck gid (off l.loc) n
    (r.1, if r.2 then acc.2 ++ [l.lane] else acc.2)) (s, [])
  if a.ret && !chk.2.isEmpty then .trap chk.1 (poisonTrap x.e (chk.2.map (fun l => (l, eaOf eas l))))
  else
    let r := (atomPlaces ls).foldl (fun (acc : State × List (Nat × Nat)) p =>
      let m := match acc.1.gang gid with | some g => leVal (g.scrBytes (off p.1) n) | none => 0
      let g := atomGroup a.op a.cas a.ty p.2 m
      (if g.2.2 then acc.1.scrPut gid (off p.1) (leBytes g.2.1 n) else acc.1, acc.2 ++ g.1)) (chk.1, [])
    let s1 := if ordRel a.ret a.order then r.1.releaseFloor c.core .gg c.pts else r.1
    let p := if ordAcq a.ret a.order then Ts.smax c.pts (s1.core c.core).crf else c.pts
    let s2 := s1.updCrew x.key (fun c => { c with pts := p })
    if a.ret then pendNow x s2 (a.result c x.act r.2) else .done s2

/-- A narrow atomic's site given up, for one of another scope (R59). -/
def State.disarm (s : State) (u : Agent) (line : Nat) : State :=
  match s.span u line with
  | some v => s.setSpan u line { v with hold := 0 }
  | none => s

/-- Whether a location that a narrow atomic reads in its unit lies in a poisoned sector, or one whose check value fails; dirty bytes
that cover the sector have cleared it (R76). -/
def State.unitPoison (s : State) (u : Agent) (key line off : Nat) : Bool :=
  match s.span u line with
  | none => false
  | some v =>
    let k := off / 32
    let dirty (i : Nat) : Bool := (s.spanDirty key v i).isSome
    (v.poison.contains k || v.poison.contains (k + 4) || (dirty off && s.homePoison line off)) &&
    !(List.range 32).all (fun i => dirty (32 * k + i))

/-- The `wts` of the sectors that a narrow atomic reads in its unit (R351). -/
def State.unitWts (s : State) (u : Agent) (pas : List Nat) (p : Ts) : Ts :=
  pas.foldl (fun a pa => match s.span u (pa / 128) with
    | some v => if v.covers (pa % 128) then Ts.smax a (v.wts.getD (pa % 128 / 32) 0) else a
    | none => a) p

/-- Atomics at crew, gang or cluster scope on global memory (R48): under a narrow hold, in the L1 or at the cluster
unit. The hold and the current bytes are asked for first (log entry 13). -/
def atomNarrow (x : Ctx) (c : Crew) (s : State) (a : AtomOp) (eas : List (Nat × Nat)) (ls : List AtomLane) : Act :=
  let u := narrowUnit c.core a.scope
  let n := a.ty.bits / 8
  let pas := ls.filterMap (fun l => match l.loc with | .phys pa => some pa | _ => none)
  let others := if a.scope == .cl then (clusterCores (clusterOf c.core)).map Agent.core else [.cluster (clusterOf c.core)]
  let blockers := (touched n pas).filter (fun t => others.any (fun v => match s.span v t.1 with
    | some sp => !sp.dirty.isEmpty
    | none => false))
  let s0 := blockers.foldl (fun s t => others.foldl (fun s v => (s.publishLine v t.1 (fun _ => true)).disarm v t.1)
    (s.forgetClean u t.1)) s
  let room := s.narrowReady c.core a.scope ((touched n pas).map (fun t => (t.1, [])))
  let hidden (sp : Span) : Bool := sp.dirty.any (fun d => !s.seesDirty x.key d)
  let armed (t : Nat × Nat × Nat) : Bool := match s.span u t.1 with
    | some sp => sp.hold == 2 && !hidden sp && (List.range (t.2.2 + 1 - t.2.1)).all (fun k =>
        (s.spanDirty x.key sp (t.2.1 + k)).isSome ||
        (sp.covers (t.2.1 + k) && Ts.le c.pts (sp.rts.getD ((t.2.1 + k) / 32) 0)))
    | none => false
  let ord : Order := if ordAcq a.ret a.order then .ar2 else .rx
  let pendingAck (t : Nat × Nat × Nat) : Bool := (List.range (t.2.2 + 1 - t.2.1)).any (fun k => c.ackPending t.1 (t.2.1 + k))
  let waits := (touched n pas).filter (fun t => !armed t || pendingAck t)
  if !blockers.isEmpty then .blocked s0
  else if !room.2 then .blocked room.1
  else if !waits.isEmpty then
    .blocked (waits.foldl (fun s t => match s.span u t.1 with
      | some sp =>
        if sp.pending.isSome then s
        else
          let s1 := if sp.hold = 0 then s.send { Pkt.new (.hold a.scope) u (s.destOf t.1) t.1 c.pts x.key x.e with scope := a.scope }
                    else s
          let s2 := s1.send { Pkt.new (.renew none) u (s1.destOf t.1) t.1 c.pts x.key x.e with cnt := 16, scope := a.scope, ord := ord }
          s2.setSpan u t.1 { sp with hold := if sp.hold = 0 then 1 else sp.hold, pending := some s1.nextId }
      | none =>
        let s1 := s.send { Pkt.new (.hold a.scope) u (s.destOf t.1) t.1 c.pts x.key x.e with scope := a.scope }
        let s2 := s1.send { Pkt.new (.renew none) u (s1.destOf t.1) t.1 c.pts x.key x.e with cnt := 16, scope := a.scope, ord := ord }
        s2.setSpan u t.1 { Span.empty with hold := 1, pending := some s1.nextId }) s)
  else
    let byte (s : State) (pa : Nat) : Byte := match s.span u (pa / 128) with
      | some sp => (s.spanDirty x.key sp (pa % 128)).getD (Cells.get sp.bytes (pa % 128))
      | none => 0
    let bad := ls.filter (fun l => match l.loc with
      | .phys pa => s.unitPoison u x.key (pa / 128) (pa % 128)
      | _ => false)
    if a.ret && !bad.isEmpty then
      .trap (bad.foldl (fun s l => match l.loc with | .phys pa => s.loadVerify x.key c.core pa (eaOf eas l.lane) | _ => s) s)
        (poisonTrap x.e (bad.map (fun l => (l.lane, eaOf eas l.lane))))
    else
      let r := (atomPlaces (ls.filter (fun l => !bad.contains l))).foldl (fun (acc : State × List (Nat × Nat)) p => match p.1 with
        | .phys pa =>
          let m := leVal ((List.range n).map (fun k => byte acc.1 (pa + k)))
          let g := atomGroup a.op a.cas a.ty p.2 m
          let bs := LineBytes.mk ((List.range n).zip (leBytes g.2.1 n) |>.map (fun b => (pa % 128 + b.1, b.2)))
          (if g.2.2 then acc.1.narrowStore u x.key a.scope (pa / 128) bs else acc.1, acc.2 ++ g.1)
        | _ => acc) (s, [])
      let s1 := if ordRel a.ret a.order then r.1.releaseFloor c.core a.scope c.pts else r.1
      let p := if ordAcq a.ret a.order then Ts.smax (s1.acquirePts x.key c.core a.scope n pas c.pts) (s.unitWts u pas c.pts) else c.pts
      let s2 := s1.updCrew x.key (fun c => { c with pts := p })
      if a.ret then pendNow x s2 (a.result c x.act r.2) else .done s2

/-- An ATOM for each line to its home, after the dirty bytes of the line in the crew's units (R353, R354); the requests of a returning
word. -/
def sendAtoms (x : Ctx) (c : Crew) (s : State) (a : AtomOp) (ls : List AtomLane) : State × List LaneReq :=
  let pa (l : AtomLane) : Nat := match l.loc with | .phys p => p | .scr p | .prm p => p
  let lines := ls.foldl (fun acc l => if acc.contains (pa l / 128) then acc else acc ++ [pa l / 128]) ([] : List Nat)
  let n := a.ty.bits / 8
  lines.foldl (fun (acc : State × List LaneReq) line =>
    let s1 := (crewUnits c.core).foldl (fun s u => s.publishLine u line (fun _ => true)) acc.1
    let mine := ls.filter (fun l => pa l / 128 == line)
    let id := s1.nextId
    let p := { Pkt.new (.atom a.op a.cas a.ty a.ret) (.core c.core) (s1.destOf line) line c.pts x.key x.e with
               scope := a.scope, ord := a.order, ops := mine.map (fun l => (l.lane, pa l % 128, l.x, l.new)) }
    let bytes := mine.flatMap (fun l => (List.range n).map (· + pa l % 128))
    let s2 := (s1.send p).updCrew x.key (fun c => { c with acks := c.acks ++ [{ pkt := id, line := line, bytes := bytes }] })
    (s2, acc.2 ++ [{ pkt := id, entry := x.e, lanes := mine.map (·.lane), answer := none, poison := false }])) (s, [])

/-- The counts of a histogram record added (R102, R103): device-scope relaxed reductions on its words, whose sectors lie at `ps`. -/
def sendCounts (x : Ctx) (c : Crew) (s : State) (ps : List Nat) (cs : List (Nat × Nat)) : State :=
  (sendAtoms x c s { op := 16, cas := false, ret := false, ty := .n32, d := 0, scope := .dv, order := .rx }
    (cs.map (fun w => { lane := x.act.lanes.getD 0 0, loc := .phys (ps.getD (w.1 / 8) 0 + 4 * (w.1 % 8)), x := w.2, new := 0 }))).1

/-- Atomics at device scope or wider (R48, R354): an ATOM for each line, after the dirty bytes of the line. A returning word
whose lanes would meet poison now performs none of them (R184). -/
def atomHome (x : Ctx) (c : Crew) (s0 : State) (a : AtomOp) (eas : List (Nat × Nat)) (ls : List AtomLane) : Act :=
  let pa (l : AtomLane) : Nat := match l.loc with | .phys p => p | .scr p | .prm p => p
  let lines := ls.foldl (fun acc l => if acc.contains (pa l / 128) then acc else acc ++ [pa l / 128]) ([] : List Nat)
  let n := a.ty.bits / 8
  let met := if a.ret then s0.poisonMet x.key c.core n ((ls.filter (fun l => c.acks.all (fun k => k.line != pa l / 128))).map
    (fun l => (l.lane, eaOf eas l.lane, l.loc))) else (s0, [])
  let ready := met.1.writeReady c.core lines
  if !met.2.isEmpty then .trap met.1 (poisonTrap x.e met.2)
  else if !ready.2 then .blocked ready.1
  else
  let r := sendAtoms x c ready.1 a ls
  if a.ret then .wait (r.1.updCrew x.key (fun c => { c with reqs := c.reqs ++ r.2 })) .reply else .done r.1

/-- An atomic word (R191 to R193): checks, ordering, then the level of its scope. -/
def atomWord (x : Ctx) (c : Crew) (s : State) (o : Mem) (a : AtomOp) (f : Nat → Nat × Nat) : Act :=
  let eas := laneEas o c x.act
  checked x c s o.space 2 (a.ty.bits / 8) eas (fun locs =>
    if c.fenced x.act then .blocked s
    else
      let r := if ordRel a.ret a.order then s.releaseReady x.key (if o.space == .sp then .gg else a.scope) else (s, true)
      if !r.2 then .blocked r.1
      else
        let ls : List AtomLane := locs.map (fun l => let v := f l.1
                                                     { lane := l.1, loc := l.2, x := v.1, new := v.2 })
        if o.space == .sp then atomScratch x c r.1 a eas ls
        else if a.scope.code < 3 then atomNarrow x c r.1 a eas ls
        else atomHome x c r.1 a eas ls) a.ret

/-- `atom` (R191): DET in DET, whatever its address (R33). -/
def execAtom (o : Mem) (op : BitVec 4) (s : State) : Host.Outcome State Fault Refusal :=
  word (.atom o op) o.h ((Mem.use o true o.ty.regs o.ty.regs).inDet true 0x65) (fun x c s =>
    atomWord x c s o { op := op.toNat, cas := false, ret := true, ty := o.ty, d := o.d, scope := o.scope, order := o.order }
      (fun l => (c.rvs o.c.toNat l o.ty.regs, 0))) s

/-- `acas` (R193). -/
def execAcas (o : Mem) (s : State) : Host.Outcome State Fault Refusal :=
  word (.acas o) o.h ((Mem.use o true o.ty.regs (2 * o.ty.regs)).inDet true 0x66) (fun x c s =>
    atomWord x c s o { op := 6, cas := true, ret := true, ty := o.ty, d := o.d, scope := o.scope, order := o.order }
      (fun l => (c.rvs o.c.toNat l o.ty.regs, c.rvs (o.c.toNat + o.ty.regs) l o.ty.regs))) s

/-- `red` (R191): a float reduction raises DET in DET. -/
def execRed (o : Mem) (op : BitVec 4) (s : State) : Host.Outcome State Fault Refusal :=
  word (.red o op) o.h ((Mem.use o true 0 o.ty.regs).inDet (!o.ty.isInt) 0x67) (fun x c s =>
    atomWord x c s o { op := op.toNat, cas := false, ret := false, ty := o.ty, d := 0, scope := o.scope, order := o.order }
      (fun l => (c.rvs o.c.toNat l o.ty.regs, 0))) s

/-! ## Fences, prefetch, leases, timestamps (R194 to R197) -/

/-- `fence` (R194, R355). A full fence publishes and waits at every scope, so that later accesses are not seen before earlier ones
in its scope either (R52); a light one notes what holds back the later stores of its lanes. -/
def execFence (h : Hdr) (scope : Scope) (order : Order) (s : State) : Host.Outcome State Fault Refusal :=
  fullWord (.fence h scope order) h (Hdr.use h [] []) 8 (fun x _ s =>
    let r := s.releaseReady x.key scope
    if order == .ar3 then
      if r.2 then .done r.1 else .blocked r.1
    else
      .done (r.1.updCrew x.key (fun c =>
        if c.acks.isEmpty then c else { c with fences := c.fences ++ [{ lanes := x.act, pkts := c.acks.map (·.pkt) }] })))
    (some (fun _ _ s => if s.posted then .blocked s else .done s)) s

/-- `prf` (R195): requests for the spans of the lanes that translate now; never a fault. -/
def execPrf (o : Mem) (line : Bool) (s : State) : Host.Outcome State Fault Refusal :=
  word (.prf o line) o.h (Mem.use o true 0 0) (fun x c s =>
    let n := memBytes o.ty
    let pas := (laneEas o c x.act).filterMap (fun e =>
      match s.checkLane (.core c.core) (keyGid x.key) c.walks .gl 0 e.2 n with
      | .at (.phys pa) => some pa
      | _ => none)
    .done ((s.notReady x.key x.e c o.scope n pas).foldl (fun s t =>
      s.askLine x.key x.e c t.1 t.2.1 t.2.2 line o.scope o.order) s)) s

/-- `lease` (R196): a RENEW that carries the class, or the drop of the span after its dirty bytes are published. -/
def execLease (o : Mem) (cls : BitVec 4) (s : State) : Host.Outcome State Fault Refusal :=
  word (.lease o cls) o.h (Mem.use o true 0 0) (fun x c s =>
    let n := memBytes o.ty
    checked x c s .gl 0 n (laneEas o c x.act) (fun locs =>
      let pas := locs.filterMap (fun l => match l.2 with | .phys pa => some pa | _ => none)
      let u : Agent := .core c.core
      .done ((touched n pas).foldl (fun s t =>
        if cls = 15 then
          let s1 := s.publishLine u t.1 (fun _ => true)
          match s1.span u t.1 with
          | some v => if v.dirty.isEmpty && v.pending.isNone then s1.dropSpan u t.1 else s1.setSpan u t.1 { v with cnt := 0 }
          | none => s1
        else
          let v := (s.span u t.1).getD Span.empty
          let s1 := s.send { Pkt.new (.renew none) u (s.destOf t.1) t.1 c.pts x.key x.e with
                     first := t.2.1 / 8, cnt := t.2.2 / 8 - t.2.1 / 8 + 1, ops := [(cls.toNat, 0, 0, 0)] }
          if v.pending.isSome then s1 else s1.setSpan u t.1 { v with pending := some s.nextId }) s))) s

/-- `tsget` (R197): the `wts` of a sector or the clock of its home; a peer's is asked for over the domain. -/
def execTsget (h : Hdr) (f : Bool) (d a : Reg) (s : State) : Host.Outcome State Fault Refusal :=
  word (.tsget h f d a) h ((Hdr.use h [sReg a] [sReg d]).inDet true 0x6B) (fun x c s =>
    checked x c s .gl 0 1 [(x.act.lanes.getD 0 0, c.rs a.toNat)] (fun locs => match locs with
      | (_, .phys pa) :: _ => (match s.target pa with
        | .dev o =>
          let v := if f then (s.home (s.servDie (o / 128))).clock else ((s.slice (s.servSlice (o / 128))).ts (o / 32)).1
          pendNow x s [sWrite d.toNat v.toNat]
        | .peer p va =>
          let r : OutReq := { port := 3 + p, addr := va, what := if f then 6 else 5, since := s.now, pkt := s.nextId,
                              crew := x.key, entry := x.e, bytes := [], dtid := s.dtidOf (s.gangAsid (keyGid x.key)) }
          .wait ((s.ask r).updCrew x.key (fun c => { c with reqs := c.reqs ++
            [{ pkt := s.nextId, entry := x.e, lanes := [x.act.lanes.getD 0 0], answer := none, poison := false }] })) .reply
        | _ =>
          let v := if f then (s.bridge (s.portOf pa)).clock else (match s.farLine pa with
            | some l => l.wts.getD (pa % 64 / 32) 0
            | none => (s.bridge (s.portOf pa)).clock)
          pendNow x s [sWrite d.toNat v.toNat])
      | _ => .done s)) s

end Sys2Proof.Machine
end

