-- ==== Sys2Proof/Machine/Control.lean ====
section
/-! DEFINITION. Control words (R172 to R179), opcodes 0x50 to 0x5A: the division of splits (R22 to R27), the register
window (R139, R140), the end of lanes (R175). -/

namespace Sys2Proof.Machine

/-! ## Divisions -/

/-- A relative target (R172). -/
def relTarget (pc : Nat) (off : BitVec 20) : Nat := ((((pc + 8 : Nat) : Int) + 8 * off.toInt) % (2 ^ 64 : Nat)).toNat

/-- The PC of a split. -/
def Ctx.pc (x : Ctx) (c : Crew) : Nat := (c.split x.e).pc

/-- A new split in a free entry. -/
def Crew.place (c : Crew) (e pc : Nat) (m : Mask) (top : Option Nat) : Crew := c.setSplit e (Split.free.run pc m top)

/-- A split set to a PC with some lanes. -/
def Crew.goTo (c : Crew) (e pc : Nat) (m : Mask) (top : Option Nat) : Crew := c.setSplit e ((c.split e).run pc m top)

/-- A division by `bra` (R24, R25): the crew after it, and the entries that issued. -/
def Crew.divide2 (c : Crew) (e target : Nat) (go : Mask) : Crew × List Nat :=
  let sp := c.split e
  let stay := sp.mask &&& ~~~go
  let r : Rec := { mask := sp.mask, pend := 0, pendPC := 0, park := 0, parkPC := 0, parkE := none, parent := sp.top,
                   slot := none }
  match c.freeEntry with
  | some f =>
    let n := c.newRec r
    ((n.1.goTo e (sp.pc + 8) stay (some n.2)).place f target go (some n.2), [e, f])
  | none =>
    let n := c.newRec { r with pend := stay, pendPC := sp.pc + 8 }
    (n.1.goTo e target go (some n.2), [e])

/-- The groups of a multi-way division in ascending order of PC (R24). -/
def groupsOf (ts : List (Nat × Nat)) : List (Nat × Mask) :=
  ts.foldl (fun (acc : Tab Mask) t => Tab.set acc t.2 (Tab.getD acc t.2 0 ||| Mask.ofLanes [t.1])) []

/-- A division by `brx` (R24, R25): lanes with their PCs, two groups or more. -/
def Crew.divideN (c : Crew) (e : Nat) (gs : List (Nat × Mask)) : Crew × List Nat :=
  let sp := c.split e
  match gs with
  | [] => (c, [e])
  | low :: rest =>
    let n := c.newRec { mask := sp.mask, pend := 0, pendPC := 0, park := 0, parkPC := 0, parkE := none, parent := sp.top, slot := none }
    let c1 := n.1.goTo e low.1 low.2 (some n.2)
    let frees := (List.range 4).filter (fun f => (c1.split f).mask == 0)
    let placed := frees.zip rest
    let c2 := placed.foldl (fun c p => c.place p.1 p.2.1 p.2.2 (some n.2)) c1
    let left := (rest.drop frees.length).reverse
    let c3 := left.foldl (fun c g =>
      let sp := c.split e
      let m := c.newRec { mask := g.2 ||| low.2, pend := g.2, pendPC := g.1, park := 0, parkPC := 0, parkE := none,
                          parent := sp.top, slot := none }
      m.1.setSplit e { sp with top := some m.2 }) c2
    (c3, e :: placed.map Prod.fst)

/-! ## The spill area (R21, R140) -/

/-- The checks of a spill or fill, row by row: a failing access traps as `tr` says, a held page is a long-service fault. -/
def spillRows (x : Ctx) (c : Crew) (s : State) (kind : Nat) (rows : List (Nat × List (Nat × Nat)))
    (tr : Nat → List (Nat × Nat × Nat) → Nat → Trap) (f : List (Nat × List (Nat × Loc)) → Act) : Act :=
  let r : Except Act (List (Nat × List (Nat × Loc))) := rows.foldl (fun acc row => match acc with
    | .error a => .error a
    | .ok ls => match s.checkAll (.core c.core) (.split x.key x.e) (keyGid x.key) c.walks .gl kind 4 row.2 with
      | .fail cls es aux => .error (.trap s (tr cls es aux))
      | .held va => .error (.wait (s.longService (keyGid x.key) c.idx va (Nat.lor dSpill (if kind = 1 then dWrite else 0))) .held)
      | .miss s1 => .error (.blocked s1)
      | .ok l => .ok (ls ++ [(row.1, l)])) (.ok [])
  match r with
  | .error a => a
  | .ok ls => f ls

/-- The eight words of a record at a place of the spill area. -/
def Crew.recEas (c : Crew) (k : Nat) : List (Nat × Nat) := (List.range 8).map (fun i => (i, (c.slotEa k + 4 * i) % 2 ^ 64))

/-- A failing access of a record: in every active lane, with the address that failed first. -/
def recTrap (x : Ctx) (cls : Nat) (es : List (Nat × Nat × Nat)) (aux : Nat) : Trap :=
  let f := es.getD 0 (0, 0, 0)
  laneTrap cls x.e (x.act.lanes.map (fun l => (l, f.2.1, Nat.lor f.2.2 dSpill))) aux

/-- The bytes of words of 4 bytes at their places. -/
def wordBytes (ws : List (Loc × Nat)) : List (Nat × Byte) :=
  ws.flatMap (fun w => match w.1 with
    | .phys pa => (List.range 4).map (fun k => (pa + k, (leBytes w.2 4).getD k 0))
    | _ => [])

/-- Words of 4 bytes stored as crew-scope weak accesses (R140). -/
def spillWords (x : Ctx) (c : Crew) (s : State) (ws : List (Loc × Nat)) (f : State → Act) : Act :=
  let bs := wordBytes ws
  let g := s.storeReady c.core .cr (byLine bs)
  if ws.isEmpty then f s
  else if g.2 then f (g.1.storePhys x.key x.e c.core .cr .wk bs) else .blocked g.1

/-- The records of a crew as it will be after a word: those that come back on chip are read from the spill area, those that
move past the on-chip depth are stored there (R23, R140), or BOUNDS where it is full. `f` gets the records that moved. -/
def recMoves (x : Ctx) (c : Crew) (s : State) (after : Crew) (f : State → List (Nat × Rec) → Act) : Act :=
  let fills := after.fillsOf
  let sp := after.spillsOf
  if !sp.2.isEmpty && !sp.1.spillFits then .trap s (mkTrap 6 x.e x.act 0 0)
  else spillRows x c s 0 (fills.map (fun p => (p.1, c.recEas p.2))) (recTrap x) (fun rows =>
    match s.load x.key x.e c .cr .wk false false 4
        (fills.flatMap (fun p => (c.recEas p.2).map (fun a => (8 * p.1 + a.1, a.2))))
        (rows.flatMap (fun r => r.2.map (fun l => (8 * r.1 + l.1, l.2)))) with
    | .later s1 => .blocked s1
    | .poison s1 bad => .trap s1 (recTrap x 8 [(0, (bad.getD 0 (0, 0)).2 / 32 * 32, 0)] 0)
    | .bytes s1 bs =>
      let got (r : Nat) : Nat := leVal ((List.range 8).flatMap (fun i =>
        ((bs.find? (fun b => b.1 == 8 * r + i)).map Prod.snd).getD []))
      spillRows x c s1 1 (sp.2.map (fun p => (p.1, c.recEas p.2))) (recTrap x) (fun rows =>
        spillWords x c s1 (rows.flatMap (fun r => r.2.map (fun l => (l.2, (after.rcd r.1).val / 2 ^ (32 * l.1) % 2 ^ 32)))) (fun s2 =>
          f s2 (fills.map (fun p => (p.1, (after.rcd p.1).filled (got p.1) after.live)) ++ sp.2.map (fun p => (p.1, sp.1.rcd p.1))))))

def Crew.putRecs (c : Crew) (rs : List (Nat × Rec)) : Crew := { c with recs := rs.foldl (fun t r => Tab.set t r.1 r.2) c.recs }

/-- The splits and records that a word leaves. -/
def Crew.dividedAs (c after : Crew) (rs : List (Nat × Rec)) : Crew :=
  ({ c with splits := after.splits, recs := after.recs, seq := after.seq } : Crew).putRecs rs

/-- A word that set the splits and records of its crew. -/
def reshaped (x : Ctx) (c : Crew) (s : State) (after : Crew) (f : State → Act) : Act :=
  if after.recsStay then f (s.setCrew x.key after)
  else recMoves x c s after (fun s1 rs => f (s1.updCrew x.key (fun v => v.dividedAs after rs)))

/-- A division: the crew after it, and the entries that issued. -/
def divided (x : Ctx) (c : Crew) (s : State) (r : Crew × List Nat) : Act := reshaped x c s r.1 (fun s1 => .jump s1 r.2)

/-- The whole split goes to a PC. -/
def goWhole (x : Ctx) (c : Crew) (s : State) (pc : Nat) : Act :=
  .jump (s.setCrew x.key (c.updSplit x.e (fun sp => { sp with pc := pc }))) [x.e]

/-- `bra` (R173). -/
def execBra (h : Hdr) (off : BitVec 20) (s : State) : Host.Outcome State Fault Refusal :=
  fullWord (.bra h off) h (Hdr.use h [] []) 8 (fun x c s =>
    let sp := c.split x.e
    let t := relTarget sp.pc off
    if x.act = sp.mask || t = sp.pc + 8 then goWhole x c s t else divided x c s (c.divide2 x.e t x.act))
    (some (fun k m s => .jump (s.updMgmt k (fun v => { v with pc := relTarget m.pc off })) [])) s

/-- `brx` (R173). -/
def execBrx (h : Hdr) (a : Opnd) (s : State) : Host.Outcome State Fault Refusal :=
  word (.brx h a) h (Hdr.use h (Opnd.span a 2) []) (fun x c s =>
    let sp := c.split x.e
    let ts := sp.mask.lanes.map (fun l => (l, if x.act.getLsbD l then c.opnd a 2 .n64 l else sp.pc + 8))
    if ts.any (fun t => t.2 % 8 != 0) then .trap s (illTrap (.brx h a) x.e x.act)
    else match groupsOf ts with
      | [g] => goWhole x c s g.1
      | gs => divided x c s (c.divideN x.e gs)) s

/-- `join` (R26): the PC of a split that waits is the address of its `join`. -/
def Crew.join (c : Crew) (e : Nat) : Crew × List Nat :=
  let sp := c.split e
  match sp.top with
  | none => (c.setSplit e { sp with pc := sp.pc + 8 }, [e])
  | some r =>
    let v := c.rcd r
    if v.pend ≠ 0 then
      let c1 := { c with recs := Tab.set c.recs r { v with pend := 0, park := v.park ||| sp.mask, parkPC := sp.pc,
                                                           parkE := some e } }
      (c1.goTo e v.pendPC v.pend (some r), [e])
    else if v.mask &&& ~~~sp.mask = 0 then
      ({ (c.setSplit e { sp with pc := sp.pc + 8, top := v.parent }) with recs := Tab.erase c.recs r }, [e])
    else
      let others := (List.range 4).filter (fun f => c.joined r f)
      let c1 := (c.setSplit e { sp with wait := .join }).resolve r
      (c1, (e :: others).filter (fun f => (c1.split f).mask != 0 && (c1.split f).wait != .join))

def execJoin (h : Hdr) (s : State) : Host.Outcome State Fault Refusal :=
  word (.join h) h (Hdr.use h [] []) (fun x c s =>
    let r := c.join x.e
    reshaped x c s r.1 (fun s1 =>
      if r.2.isEmpty then .jump (s1.updCrew x.key (fun c => c.updSplit x.e (fun sp => { sp with lastIssue := s.now }))) []
      else .jump s1 r.2)) s

/-! ## The window (R140, R174) -/

/-- Every issued result is written (R174): nothing variable is pending, and no fixed-latency result is unread. -/
def Crew.drained (c : Crew) : Bool := c.pend.isEmpty && c.fix.isEmpty && c.reqs.isEmpty

/-- The places of logical registers `lo` to `hi - 1` in the spill area: (register, lane, address) by register. -/
def Crew.spillEas (c : Crew) (k : Nat) : List (Nat × Nat) :=
  (List.range 32).map (fun l => (l, (c.spillBase + 128 * k + 4 * l) % 2 ^ 64))

/-- The checks of a spill or fill, register by register (R140): a trap carries SPILL. -/
def spillChecked (x : Ctx) (c : Crew) (s : State) (kind lo hi : Nat) (f : List (Nat × List (Nat × Loc)) → Act) : Act :=
  spillRows x c s kind ((List.range (hi - lo)).map (fun i => (lo + i, c.spillEas (lo + i))))
    (fun cls es aux => laneTrap cls x.e (es.map (fun t => (t.1, t.2.1, Nat.lor t.2.2 dSpill))) aux) f

/-- The window moved by a `call`: the registers it exposes read 0. -/
def Crew.slide (c : Crew) (f lo : Nat) : Crew :=
  let w := c.win
  { c with vr := Cells.clear (Cells.clear c.vr (c.lo * 32) (lo * 32)) ((c.wb + w) * 32) ((c.wb + f + w) * 32),
           wb := c.wb + f, lo := lo }

/-- `call` (R140, R174): LO after the move. -/
def Crew.callLo (c : Crew) (f : Nat) : Nat :=
  let top := c.wb + f + c.win
  if c.lo + c.budget < top then top - c.budget else c.lo

/-- Spilled registers stored as crew-scope weak accesses (R140). -/
def spillOut (x : Ctx) (c : Crew) (s : State) (ls : List (Nat × List (Nat × Loc))) (f : State → Act) : Act :=
  spillWords x c s (ls.flatMap (fun r => r.2.map (fun l => (l.2, c.logical r.1 l.1)))) f

def callWord (x : Ctx) (c : Crew) (s : State) (i : Instr) (f target : Nat) : Act :=
  let sp := c.split x.e
  if sp.mask ≠ c.live then .trap s (mkTrap 7 x.e x.act 0 0)
  else if target % 8 ≠ 0 then .trap s (illTrap i x.e x.act)
  else if !c.drained then .blocked s
  else
    let lo := c.callLo f
    if lo ≠ c.lo && !({ c with lo := lo } : Crew).spillFits then .trap s (mkTrap 6 x.e x.act 0 0)
    else spillChecked x c s 1 c.lo lo (fun ls =>
      spillOut x c s ls (fun s1 => .jump (s1.updCrew x.key (fun v =>
        ((v.setS 62 (sp.pc + 8)).slide f lo).updSplit x.e (fun p => { p with pc := target }))) [x.e]))

/-- `call` (R140, R174, R249): D is 0 on a management core, and only there. -/
def execCall (h : Hdr) (f : Reg) (t : Target) (s : State) : Host.Outcome State Fault Refusal :=
  let src := match t with
    | .rel _ => []
    | .reg a => [sReg a]
  if f = 0 then
    refusedWord (.call h f t) h 0 (match t with
      | .rel off => some (fun k m s => .jump (s.updMgmt k (fun v => { v.setS 62 (m.pc + 8) with pc := relTarget m.pc off })) [])
      | .reg _ => none) s
  else
    word (.call h f t) h (Hdr.use h src [sReg 62]) (fun x c s =>
      callWord x c s (.call h f t) (8 * f.toNat) (match t with
        | .rel off => relTarget (x.pc c) off
        | .reg a => c.rs a.toNat)) s

/-- The window moved back: registers past the budget are discarded. -/
def Crew.slideBack (c : Crew) (f : Nat) : Crew :=
  let wb := c.wb - f
  if wb < c.lo then
    { c with wb := wb, lo := wb, vr := c.vr.filter (fun r => decide (r.1 < (wb + c.budget) * 32)) }
  else { c with wb := wb }

def retWord (x : Ctx) (c : Crew) (s : State) (i : Instr) (f target : Nat) : Act :=
  let sp := c.split x.e
  if sp.mask ≠ c.live then .trap s (mkTrap 7 x.e x.act 0 0)
  else if target % 8 ≠ 0 then .trap s (illTrap i x.e x.act)
  else if !c.drained then .blocked s
  else if c.wb < f then .trap s (mkTrap 6 x.e x.act 0 0)
  else
    let go (s : State) (c1 : Crew) : Act :=
      .jump (s.updCrew x.key (fun v => { v with vr := c1.vr, wb := c1.wb, lo := c1.lo }.updSplit x.e
        (fun p => { p with pc := target }))) [x.e]
    let wb := c.wb - f
    if c.lo ≤ wb then go s (c.slideBack f)
    else spillChecked x c s 0 wb c.lo (fun ls =>
      let locs := ls.flatMap (fun r => r.2.map (fun l => (r.1 * 32 + l.1, l.2)))
      match s.load x.key x.e c .cr .wk false false 4 (locs.map (fun l => (l.1, (c.spillBase + 4 * l.1) % 2 ^ 64))) locs with
      | .later s1 => .blocked s1
      | .poison s1 bad =>
        let r := (bad.getD 0 (0, 0)).1 / 32
        .trap s1 (laneTrap 8 x.e ((bad.filter (fun k => k.1 / 32 == r)).map (fun k => (k.1 % 32, k.2 / 32 * 32, dSpill))) 0)
      | .bytes s1 bs =>
        let c1 := c.slideBack f
        go s1 (bs.foldl (fun c b => c.setV (b.1 / 32) (b.1 % 32) (leVal b.2)) c1))

/-- `ret` (R140, R174, R249): as `call`. -/
def execRet (h : Hdr) (f a : Reg) (s : State) : Host.Outcome State Fault Refusal :=
  if f = 0 then
    refusedWord (.ret h f a) h 0 (some (fun k m s =>
      if m.rs a.toNat % 8 = 0 then .jump (s.updMgmt k (fun v => { v with pc := m.rs a.toNat })) []
      else .trap s (mkTrap 0 0 0 0 0))) s
  else
    word (.ret h f a) h (Hdr.use h [sReg a] []) (fun x c s => retWord x c s (.ret h f a) (8 * f.toNat) (c.rs a.toNat)) s

/-! ## The rest (R175 to R179) -/

/-- The lanes of ACTIVE end; the others of the split go on (R27, R175). Where the crew's end completes a phase of an
implicit barrier, the holds on its merged bytes are ended first (R72). -/
def endSome (x : Ctx) (c : Crew) (s : State) (m : Mask) : Act :=
  let sp := c.split x.e
  let last := c.live &&& ~~~m = 0
  let r := if last && x.det then s.exitReady x.key else (s, true)
  if !r.2 then .blocked r.1
  else
    let stays := sp.mask &&& ~~~m ≠ 0
    let go (s : State) : Act :=
      .jump ((s.updCrew x.key (fun c => if stays then c.updSplit x.e (fun p => { p with pc := p.pc + 8 }) else c)).endLanes x.key m) [x.e]
    let after := c.endLanes m
    if last || after.recsStay then go r.1
    else recMoves x c r.1 after (fun s1 rs => go (s1.updCrew x.key (fun c => c.putRecs rs)))

/-- `exit` (R175). -/
def execExit (h : Hdr) (s : State) : Host.Outcome State Fault Refusal :=
  word (.exit h) h (Hdr.use h [] []) (fun x c s => endSome x c s x.act) s

/-- `kill` (R175): every live lane. -/
def execKill (h : Hdr) (s : State) : Host.Outcome State Fault Refusal :=
  word (.kill h) h (Hdr.use h [] []) (fun x c s => endSome x c s c.live) s

/-- `yield` (R176): the split gives up its turn; in DET the crew blocks. -/
def execYield (h : Hdr) (s : State) : Host.Outcome State Fault Refusal :=
  word (.yield h) h (Hdr.use h [] []) (fun x c s =>
    .jump ((s.setCrew x.key (c.updSplit x.e (fun sp =>
      { sp.after s.now h.stall.toNat with pc := sp.pc + 8, yielded := true }))).markIssued c) []) s

/-- `loop` (R177): once per crew; a simple integer result. -/
def execLoop (h : Hdr) (d : Reg) (off : BitVec 20) (s : State) : Host.Outcome State Fault Refusal :=
  fullWord (.loop h d off) h (Hdr.use h [sReg d] [sReg d]) 8 (fun x c s =>
    let v := (c.rs d.toNat + 2 ^ 64 - 1) % 2 ^ 64
    let pc := x.pc c
    goWhole x (c.addFix x.e (s.now + latSimple) [sWrite d.toNat v]) s (if v = 0 then pc + 8 else relTarget pc off))
    (some (fun k m s =>
      let v := (m.rs d.toNat + 2 ^ 64 - 1) % 2 ^ 64
      .jump (s.updMgmt k (fun n => { n.setS d.toNat v with pc := if v = 0 then m.pc + 8 else relTarget m.pc off })) [])) s

/-- `trapi` (R178): SOFT, with n. -/
def execTrapi (h : Hdr) (n : BitVec 16) (s : State) : Host.Outcome State Fault Refusal :=
  word (.trapi h n) h (Hdr.use h [] []) (fun x _ s => .trap s (mkTrap 5 x.e x.act 0 n.toNat)) s

/-- `tfence` (R179): the flags of issued words are in the status already. -/
def execTfence (h : Hdr) (mask : BitVec 5) (s : State) : Host.Outcome State Fault Refusal :=
  word (.tfence h mask) h (Hdr.use h [] []) (fun x c s =>
    let f := statusFlags c.status
    if f &&& mask = 0 then .done s else .trap s (mkTrap 2 x.e x.act 0 f.toNat)) s

end Sys2Proof.Machine
end

