-- ==== Sys2Proof/Machine/Barriers.lean ====
section
/-! DEFINITION. Barrier objects (R106 to R111, R198, R199), `bsync` (R200), the completion of a phase (R72, R108), and
the wake-ups of those that wait for one. -/

namespace Sys2Proof.Machine

/-! ## Operations on an object -/

/-- An operation of R108 on an object; a look is a wait's or a test's. -/
inductive BarAct where
  | arr (drop : Bool)
  | exp (n : Nat)
  | credit (n : Nat)
  | look
  deriving DecidableEq, Repr

/-- What an operation makes of a good object: the object after it, an arrival that must wait, or PENDING out of range. -/
inductive BarStep where
  | ok (o : BarObj)
  | waits
  | bad (o : BarObj)
  deriving DecidableEq, Repr

/-- R108, R111. -/
def BarObj.act (o : BarObj) : BarAct → BarStep
  | .arr d => if o.left = 0 then .waits else .ok { o with left := o.left - 1, exp := if d then o.exp - 1 else o.exp }
  | .exp n => if (2 ^ 35 : Int) ≤ o.pend + n then .bad { o with err := true } else .ok { o with pend := o.pend + n }
  | .credit n => if o.pend - n < -(2 ^ 35 : Int) then .bad { o with err := true } else .ok { o with pend := o.pend - n }
  | .look => .ok o

/-- What an access of an object gives. -/
inductive BarOut where
  | ok (s : State) (old : BarObj) (ts : Ts)
  | waits (s : State)
  | sync (s : State)
  | poison (s : State)
  | later (s : State)
  deriving DecidableEq, Repr

def BarLoc.scratch : BarLoc → Bool
  | .scr _ _ | .imp _ _ => true
  | _ => false

/-- The bits of an object, in a saved gang's image too (R327), read for a crew that waits or tests (`who`), or to be written; for
device memory the holds of its line are ended first, and the look of a crew is an acquire (R68, R342). -/
def State.barFetch (s : State) (b : BarLoc) (p : Ts) (who : Option Nat) (write : Bool) : Except BarOut (State × Nat × Ts) :=
  match b with
  | .scr gid off => match s.gang gid with
    | none => match s.savedBlk gid with
      | some (_, _, a) =>
        let r := s.checkRange (a + s.imgScrOff a + off) 16 Finder.nobody
        if r.2 then .error (.poison r.1) else .ok (r.1, r.1.imgLe (a + s.imgScrOff a + off) 16, p)
      | none => .error (.sync s)
    | some _ =>
      let r := s.scrCheck gid off 16
      if r.2 then .error (.poison r.1)
      else match r.1.gang gid with
        | none => .error (.sync s)
        | some g => .ok (r.1, leVal (g.scrBytes off 16), p)
  | .dev o =>
    let f := match who with | some k => s.finder (keyGid k) 8 | none => Finder.nobody
    let r := if write then s.clearRange o 16 true false none
      else
        let a := s.clearRange o 16 false true who
        if a.2 then a.1.clearRange o 16 false false none else a
    if !r.2 then .error (.later r.1)
    else
      let c := r.1.checkRange o 16 f
      let d := c.1.devRead o 16 p
      if c.2 then .error (.poison d.1) else .ok (d.1, Cells.le d.1.mem o 16, d.2)
  | .imp gid k => match s.gang gid with
    | none => .error (.sync s)
    | some g => match g.bars[k]? with
      | none => .error (.sync s)
      | some v => .ok (s, v.obj.toNat, p)
  | .peer _ _ => .error (.sync s)

def Gang.bar (g : Gang) (k : Nat) : ImpBar := g.bars.getD k { obj := 0, arrived := 0 }
def Gang.setBar (g : Gang) (k : Nat) (v : ImpBar) : Gang := { g with bars := g.bars.set k v }

/-- The bits of an object stored; the timestamp of a store to device memory. -/
def State.barStore (s : State) (b : BarLoc) (v : Nat) (p : Ts) : State × Ts :=
  match b with
  | .scr gid off => match s.gang gid with
    | some _ => (s.scrPut gid off (leBytes v 16), 0)
    | none => match s.savedBlk gid with
      | some (_, _, a) => (s.imgMerge (a + s.imgScrOff a + off) (leBytes v 16), 0)
      | none => (s, 0)
  | .dev o => s.devWrite o (leBytes v 16) p
  | .imp gid k => (s.updGang gid (fun g => g.setBar k { g.bar k with obj := BitVec.ofNat 128 v }), 0)
  | .peer _ _ => (s, 0)

/-- The place of a gang's lanes in the logical order of its launch (R11, R304), whether it is resident or saved. -/
def State.gangRank (s : State) (gid : Nat) : Nat :=
  match s.gang gid, s.savedBlk gid with
  | none, some (_, b, _) =>
    b.gy * (if b.cont.isSome then 65536 else match s.launch b.lslot with | some l => l.rw | none => 1) + b.gx
  | _, _ => s.gangG gid

/-- The DET gangs with a crew that arrived in the current phase of an object, in the order of their logical lanes: merged one after
another, the highest lane's byte stays (R72). -/
def State.arrivedAt (s : State) (b : BarLoc) : List Nat :=
  ((s.arrivals.filter (fun a => a.1 == b)).map Prod.snd).foldl (fun l g =>
    l.takeWhile (fun x => decide (s.gangRank x ≤ s.gangRank g)) ++ g :: l.dropWhile (fun x => decide (s.gangRank x ≤ s.gangRank g))) []

/-- The scope code of an object as a scope. -/
def scopeOf (n : Nat) : Scope := match n with | 1 => .gg | 2 => .cl | 3 => .dv | _ => .dm

/-- Whether the store buffers of gangs can be merged now at a scope. -/
def State.mergesReady (s : State) (gs : List Nat) (sc : Scope) : State × Bool :=
  gs.foldl (fun acc g => let r := acc.1.mergeReady g sc; (r.1, acc.2 && r.2)) (s, true)

/-- The buffers of gangs merged one after another at a barrier's scope; what each has stored is released there (R72), and the second
value is the greatest timestamp of them all. -/
def State.mergeAll (s : State) (gs : List Nat) (sc : Scope) (p : Ts) : State × Ts :=
  gs.foldl (fun acc g =>
    let s1 := acc.1.merge g sc
    let q := s1.gangPts g
    ((match s1.gang g with | some v => s1.releaseFloor v.core sc q | none => s1), Ts.smax acc.2 q)) (s, p)

/-- The flip of an implicit barrier: nobody has arrived in the next phase; the idempotence barrier moves its gang in or
out of the region. -/
def State.impFlip (s : State) (b : BarLoc) : State :=
  match b with
  | .imp gid k =>
    let s1 := s.updGang gid (fun g => g.setBar k { g.bar k with arrived := 0 })
    if k = 4 then s1.flipIdem gid else s1
  | _ => s

/-- An operation on an object, indivisibly (R107, R108): `det` names the DET gang of an arriving crew, `idx` the crew
that arrives at an implicit object, `who` the crew that looks. -/
def State.barDo (s : State) (b : BarLoc) (a : BarAct) (p : Ts) (det : Option Nat) (idx : Nat) (who : Option Nat := none) : BarOut :=
  match s.barFetch b p who (a != .look) with
  | .error e => e
  | .ok (s1, v, ts) =>
    let o := barOf v
    if !o.good b.scratch || o.err then .sync s1
    else match o.act a with
    | .waits => .waits s1
    | .bad o1 => .sync (s1.barStore b o1.val p).1
    | .ok o1 =>
      if a = .look then .ok s1 o ts
      else
        let arrives := match a with | .arr _ => true | _ => false
        let s2 := match det with
          | some g => if arrives && !s1.arrivals.contains (b, g) then { s1 with arrivals := s1.arrivals ++ [(b, g)] } else s1
          | none => s1
        if o1.complete then
          let gs := s2.arrivedAt b
          let sc := scopeOf o.scope
          let r := s2.mergesReady gs sc
          if r.2 then
            let m := r.1.mergeAll gs sc p
            let w := { m.1 with arrivals := m.1.arrivals.filter (fun x => x.1 != b) }.barStore b o1.flip.val m.2
            .ok (w.1.impFlip b) o w.2
          else .later { r.1 with arrivals := s1.arrivals }
        else
          let s3 := match b with
            | .imp gid k =>
              if arrives then s2.updGang gid (fun g => g.setBar k { g.bar k with arrived := (g.bar k).arrived ||| (1#32 <<< idx) })
              else s2
            | _ => s2
          let w := s3.barStore b o1.val p
          .ok w.1 o w.2

/-- What a wait that has begun finds (R109, R111): the flip it waits for, though the object be malformed from then on; that the object
has died or is no object any more; or that it waits on. -/
def State.barSee (s : State) (b : BarLoc) (q : Bool) (p : Ts) (who : Option Nat) : BarOut :=
  match s.barFetch b p who false with
  | .error e => e
  | .ok (s1, v, ts) =>
    let o := barOf v
    if o.err || !o.shaped b.scratch then .sync s1
    else if o.phase ≠ q then .ok s1 o ts
    else if o.good b.scratch then .waits s1 else .sync s1

/-! ## The memory effects of arrivals and observations (R108, R351) -/

/-- The scope an object names, before an operation on it. -/
def State.barScope (s : State) (b : BarLoc) : Scope :=
  match b with
  | .scr gid off => (match s.gang gid, s.savedBlk gid with
    | some g, _ => scopeOf (barOf (leVal (g.scrBytes off 16))).scope
    | none, some (_, _, a) => scopeOf (barOf (s.imgLe (a + s.imgScrOff a + off) 16)).scope
    | none, none => .gg)
  | .dev o => scopeOf (barOf (Cells.le s.mem o 16)).scope
  | .imp _ _ => .gg
  | .peer _ _ => .dm

/-- The core whose scratch or table holds an object (R351), for a crew of some core. -/
def State.barCore (s : State) (b : BarLoc) (core : Nat) : Nat :=
  match b with
  | .scr gid _ | .imp gid _ => (match s.gang gid with | some g => g.core | none => core)
  | _ => core

/-- After an arrival: the release floor, or the crew's `pts` at the home. -/
def State.barReleased (s : State) (key core : Nat) (sc : Scope) (ts : Ts) : State :=
  match s.crew key with
  | none => s
  | some c => if sc.code < 3 then s.releaseFloor core sc c.pts else s.updCrew key (fun c => { c with pts := Ts.smax c.pts ts })

/-- The acquire of a wait that returns or of a test that reports the flip: below device scope the release floors of the core that
holds the object, of the crew's own, and at cluster scope of the cluster unit (R62, R351). -/
def State.barAcquired (s : State) (key core : Nat) (b : BarLoc) (sc : Scope) (ts : Ts) : State :=
  let own := Ts.smax (s.core core).crf (s.core (s.barCore b core)).crf
  s.updCrew key (fun c => { c with pts := match sc with
    | .cr | .gg => Ts.smax c.pts own
    | .cl => Ts.smax (Ts.smax c.pts (s.cluster (clusterOf core)).crf) own
    | _ => Ts.smax c.pts ts })

/-! ## Barrier words -/

/-- The gang of a cluster rank (R14, R107); none when it has ended (DESIGN CHOICE, log entry 66). -/
def State.clusterMate (s : State) (gid rank : Nat) : Option Nat :=
  match s.gang gid, s.gangLaunch gid with
  | some g, some l =>
    if l.clu && !g.cont then
      (s.gangs.find? (fun x => x.2.lslot == g.lslot && !x.2.cont && x.2.gx / 2 == g.gx / 2 && x.2.gy / 2 == g.gy / 2
        && 2 * (x.2.gy % 2) + x.2.gx % 2 == rank)).map Prod.fst
    else none
  | _, _ => none

/-- SYNC, with the object's address or offset (R307). -/
def syncTrap (x : Ctx) (a : Nat) : Trap := mkTrap 7 x.e x.act 0 a

/-- The object that a barrier word names, checked (R184, R198). DESIGN CHOICE (log entry 66): SYNC for a rank whose gang has ended and
for a global address in host or pool memory; a remote form that meets a gang-scope object is performed. -/
def barAt (x : Ctx) (c : Crew) (s : State) (o : Bar) (kind : Nat) (k : BarLoc → Act) : Act :=
  let ea := c.rs o.a.toNat
  let lane := x.act.lanes.getD 0 0
  let wr := if kind = 0 then 0 else dWrite
  let gid := keyGid x.key
  if o.scr then
    match (if o.rem then s.clusterMate gid o.rank.toNat else some gid) with
    | none => .trap s (syncTrap x ea)
    | some owner =>
      let sz := match s.gang owner with | some g => g.scrSz | none => 0
      if sz < ea + 16 then .trap s (laneTrap 6 x.e [(lane, ea, wr)] 0)
      else if ea % 16 ≠ 0 then .trap s (laneTrap 1 x.e [(lane, ea, dMisalign + wr)] 0)
      else k (.scr owner ea)
  else checked x c s .gl kind 16 [(lane, ea)] (fun locs => match locs with
    | (_, .phys pa) :: _ => (match s.target pa with
      | .dev d => k (.dev d)
      | .peer p va => k (.peer p va)
      | _ => .trap s (syncTrap x ea))
    | _ => .trap s (syncTrap x ea)) false false

/-- An operation on an object that another MZ-40 owns: a request over the domain (R107, R381), with what the split does until the
answer comes. `what`: 7 init, 8 arrive, 9 arrive with DROP, 10 expect, 11 wait, 12 test. -/
def barPeer (x : Ctx) (s : State) (p va what n : Nat) (w : Wait := .reply) : Act :=
  let r : OutReq := { port := 3 + p, addr := va, what := what, since := s.now, pkt := s.nextId, crew := x.key,
                      entry := x.e, bytes := leBytes n 8, dtid := s.dtidOf (s.gangAsid (keyGid x.key)) }
  .wait ((s.ask r).updCrew x.key (fun c => { c with reqs := c.reqs ++
    [{ pkt := s.nextId, entry := x.e, lanes := [x.act.lanes.getD 0 0], answer := none, poison := false }] })) w

/-- INTEGRITY at an object. -/
def barPoison (x : Ctx) (ea : Nat) : Trap := laneTrap 8 x.e [(x.act.lanes.getD 0 0, ea / 32 * 32, 0)] 0

def barSpan (o : Bar) : List Span1 := [sReg o.a] ++ Opnd.span o.b 1

/-- `bar.init` (R106, R199). -/
def execBarInit (o : Bar) (s : State) : Host.Outcome State Fault Refusal :=
  word (.barInit o) o.h (Hdr.use o.h (barSpan o) []) (fun x c s =>
    barAt x c s o 1 (fun b =>
      let n := c.sval o.b
      let sc := o.scope.toNat
      let fit := if o.scr then sc == 1 || sc == 2 else sc == 3 || sc == 4
      if !fit || n = 0 || 2 ^ 20 ≤ n then .trap s (syncTrap x (c.rs o.a.toNat))
      else if c.fenced x.act then .blocked s
      else match b with
        | .peer p va => barPeer x s p va 7 (n + sc * 2 ^ 20)
        | .dev d => (match s.rangeWrite d (leBytes (BarObj.init sc n).val 16) c.pts none with
          | .later s1 => .blocked s1
          | .ok s1 _ ts _ => .done (s1.updCrew x.key (fun c => { c with pts := Ts.smax c.pts ts })))
        | _ => .done (s.barStore b (BarObj.init sc n).val c.pts).1)) s

/-- The outcome of an operation for the word of a crew. -/
def barFinish (x : Ctx) (ea : Nat) (b : BarLoc) (r : BarOut) (k : State → BarObj → Ts → Act) : Act :=
  match r with
  | .ok s o ts => k s o ts
  | .waits s => .wait s (.arrive b)
  | .sync s => .trap s (syncTrap x ea)
  | .poison s => .trap s (barPoison x ea)
  | .later s => .blocked s

/-- The gang whose DET buffer an arrival stands for. -/
def Ctx.detGang (x : Ctx) : Option Nat := if x.det then some (keyGid x.key) else none

/-- `bar.arr` (R108, R199). In DET the gang's buffer is merged before an arrival at a peer's object leaves, since the completion of
the phase is the peer's (DESIGN CHOICE, log entry 66). -/
def execBarArr (o : Bar) (s : State) : Host.Outcome State Fault Refusal :=
  word (.barArr o) o.h (Hdr.use o.h [sReg o.a] [sReg o.d]) (fun x c s =>
    barAt x c s o 2 (fun b =>
      let sc := s.barScope b
      let r := s.releaseReady x.key sc
      if !r.2 then .blocked r.1
      else match b with
        | .peer p va =>
          let m := if x.det then r.1.mergeReady (keyGid x.key) .dm else r
          if !m.2 then .blocked m.1
          else barPeer x (if x.det then m.1.merge (keyGid x.key) .dm else m.1) p va (if o.drop then 9 else 8) 0
        | _ => barFinish x (c.rs o.a.toNat) b (r.1.barDo b (.arr o.drop) c.pts x.detGang c.idx) (fun s1 old ts =>
          pendNow x (s1.barReleased x.key c.core sc ts) [sWrite o.d.toNat old.phase.toNat]))) s

/-- `bar.exp` (R108, R199). -/
def execBarExp (o : Bar) (s : State) : Host.Outcome State Fault Refusal :=
  word (.barExp o) o.h (Hdr.use o.h (barSpan o) []) (fun x c s =>
    barAt x c s o 2 (fun b =>
      let n := c.sval o.b
      if 2 ^ 35 ≤ n then .trap s (syncTrap x (c.rs o.a.toNat))
      else if c.fenced x.act then .blocked s
      else match b with
        | .peer p va => barPeer x s p va 10 n
        | _ => barFinish x (c.rs o.a.toNat) b (s.barDo b (.exp n) c.pts none c.idx) (fun s1 _ _ => .done s1))) s

/-- `bar.wait` (R108, R109, R199). -/
def execBarWait (o : Bar) (s : State) : Host.Outcome State Fault Refusal :=
  word (.barWait o) o.h (Hdr.use o.h (barSpan o) []) (fun x c s =>
    barAt x c s o 0 (fun b =>
      let q := c.sval o.b % 2 == 1
      match b with
      | .peer p va => barPeer x s p va 11 q.toNat (.bar b q)
      | _ => barFinish x (c.rs o.a.toNat) b (s.barDo b .look c.pts none c.idx (some x.key)) (fun s1 old ts =>
        if old.phase = q then .wait s1 (.bar b q) else .done (s1.barAcquired x.key c.core b (s1.barScope b) ts)))) s

/-- `bar.try` (R108, R199). -/
def execBarTry (o : Bar) (s : State) : Host.Outcome State Fault Refusal :=
  word (.barTry o) o.h (Hdr.use o.h (barSpan o) [pReg o.d.toNat]) (fun x c s =>
    barAt x c s o 0 (fun b =>
      let q := c.sval o.b % 2 == 1
      match b with
      | .peer p va => barPeer x s p va 12 q.toNat
      | _ => barFinish x (c.rs o.a.toNat) b (s.barDo b .look c.pts none c.idx (some x.key)) (fun s1 old ts =>
        let s2 := if old.phase = q then s1 else s1.barAcquired x.key c.core b (s1.barScope b) ts
        pendNow x s2 [pWrite o.d.toNat x.act (fun _ => old.phase != q)]))) s

/-! ## Waits of words that have begun -/

/-- The STALL field of a full word (R132). -/
def Instr.stallOf (i : Instr) : Nat := fld (Instr.word i).toNat 59 4

/-- A waiting word completes (R29, R143): its split goes on to the next word. -/
def State.wakeSplit (s : State) (key e : Nat) (ws : List RegWrite) : State :=
  (s.updCrew key (fun c =>
    let sp := c.split e
    let stall := match sp.word with | some i => Instr.stallOf i | none => 0
    let next := if sp.lastIssue + 1 + stall < s.now then s.now else sp.lastIssue + 1 + stall
    let c1 := c.setSplit e { sp with pc := sp.pc + 8, wait := .none, word := none, nextIssue := next, tried := none, got := [] }
    (if ws.isEmpty then c1 else c1.addPend e ws))).boundary key

/-- The trap of a word that waits. -/
def State.waitTrap (s : State) (key : Nat) (t : Trap) : State := s.takeTrap key t

/-- The lanes for which a waiting word acts. -/
def Crew.waitAct (c : Crew) (e : Nat) : Mask :=
  let sp := c.split e
  match sp.word with
  | some i => c.guard (BitVec.ofNat 3 (fld (Instr.word i).toNat 55 3)) (fld (Instr.word i).toNat 58 1 == 1) sp.mask
  | none => sp.mask

/-- The context of a waiting word. -/
def State.waitCtx (s : State) (key e : Nat) (c : Crew) : Ctx :=
  { key := key, e := e, act := c.waitAct e, acts := [c.waitAct e], det := s.gangDet (keyGid key) }

/-- The outcome of a word that had begun to wait, when the wait ends: it retires, goes on waiting, or traps. -/
def State.resumeWord (s : State) (key e : Nat) (a : Act) : State :=
  match a with
  | .done t => t.wakeSplit key e []
  | .jump t _ => t.boundary key
  | .post t tr => (t.wakeSplit key e []).takeTrap key { tr with detail := Nat.lor tr.detail dPost }
  | .wait t w => t.updCrew key (fun c => c.updSplit e (fun sp => { sp with wait := w }))
  | .blocked t => t
  | .trap t tr => t.takeTrap key tr

/-! ## `bsync` (R200) and the arrival-and-wait of the `idem` forms (R246) -/

/-- The wait after an arrival at an implicit object: done once the phase is no longer `q`. -/
def impWait (x : Ctx) (c : Crew) (s : State) (k : Nat) (q : Bool) : Act :=
  let gid := keyGid x.key
  match s.gang gid with
  | none => .done s
  | some g =>
    if (barOf (g.bar k).obj.toNat).phase = q then .wait s (.bar (.imp gid k) q)
    else .done ((s.updCrew x.key (fun c => { c with arr := none })).barAcquired x.key c.core (.imp gid k) .gg 0)

/-- The arrival, and the wait with the parity it returned; a crew that has arrived already resumes its wait (R185). -/
def impArrive (x : Ctx) (c : Crew) (s : State) (k : Nat) : Act :=
  let gid := keyGid x.key
  match c.arr with
  | some (j, q) =>
    if j = k then impWait x c s k q else .done (s.updCrew x.key (fun c => { c with arr := none }))
  | none =>
    let r := s.releaseReady x.key .gg
    if !r.2 then .blocked r.1
    else barFinish x 0 (.imp gid k) (r.1.barDo (.imp gid k) (.arr false) c.pts x.detGang c.idx) (fun s1 old ts =>
      let s2 := (s1.barReleased x.key c.core .gg ts).updCrew x.key (fun c => { c with arr := some (k, old.phase) })
      impWait x c s2 k old.phase)

/-- `bsync` (R200). -/
def execBsync (h : Hdr) (k : BitVec 2) (s : State) : Host.Outcome State Fault Refusal :=
  word (.bsync h k) h (Hdr.use h [] []) (fun x c s =>
    if (c.split x.e).mask ≠ c.live then .trap s (mkTrap 7 x.e x.act 0 0) else impArrive x c s k.toNat) s

/-! ## The wake-up (R109, R111) -/

/-- A split that waits for a flip, or to arrive. -/
def State.wakeBar (s : State) (key e : Nat) (c : Crew) : State :=
  let sp := c.split e
  let x := s.waitCtx key e c
  match sp.wait with
  | .bar (.imp _ k) q => (match impWait x c s k q with
    | .wait _ _ => s
    | a => s.resumeWord key e a)
  | .bar (.peer _ _) _ => s
  | .bar b q => (match sp.word with
    | some (.barWait o) => (match s.barSee b q c.pts (some key) with
      | .ok s1 _ ts => s1.resumeWord key e (.done (s1.barAcquired key c.core b (s1.barScope b) ts))
      | .sync s1 => s1.resumeWord key e (.trap s1 (syncTrap x (c.rs o.a.toNat)))
      | .poison s1 => s1.resumeWord key e (.trap s1 (barPoison x (c.rs o.a.toNat)))
      | .waits _ => s
      | .later s1 => s1)
    | _ => s)
  | .arrive (.peer p va) => (match sp.word with
    | some (.barArr o) =>
      if c.reqs.any (fun r => r.entry == e) then s else s.resumeWord key e (barPeer x s p va (if o.drop then 9 else 8) 0)
    | _ => s)
  | .arrive b => (match sp.word with
    | some (.barArr o) =>
      let sc := s.barScope b
      (match s.barDo b (.arr o.drop) c.pts x.detGang c.idx with
      | .ok s1 old ts => (s1.barReleased key c.core sc ts).wakeSplit key e [sWrite o.d.toNat old.phase.toNat]
      | .sync s1 => s1.resumeWord key e (.trap s1 (syncTrap x (c.rs o.a.toNat)))
      | .poison s1 => s1.resumeWord key e (.trap s1 (barPoison x (c.rs o.a.toNat)))
      | .waits _ => s
      | .later s1 => s1)
    | some (.bsync _ k) => s.resumeWord key e (impArrive x c s k.toNat)
    | some (.idemBegin _) | some (.idemEnd _) => s.resumeWord key e (impArrive x c s 4)
    | _ => s)
  | _ => s

/-- The arrival of a pump's `ax.sig` (R120, R256): a gang-scope release. -/
def State.pumpArrive (s : State) (b : BarLoc) (p : Pump) : BarOut := s.barDo b (.arr false) p.pts none 0

/-- A pump's word has retired. -/
def State.pumpRetire (s : State) (gid : Nat) : State :=
  s.updGang gid (fun g => { g with pump := g.pump.map (fun p =>
    { p with pc := p.pc + 8, wait := .none, word := none, tried := none, walks := [] }) })

/-- A pump whose `ax.sig` waits to arrive. -/
def State.wakePumpBar (s : State) (gid : Nat) (g : Gang) (p : Pump) : State :=
  match p.wait with
  | .arrive (.scr _ off) => (match s.pumpArrive (.scr gid off) p with
    | .ok s1 _ _ => (s1.releaseFloor g.core .gg p.pts).pumpRetire gid
    | .sync s1 => s1.pumpTrap gid 7 0 0 off
    | .poison s1 => s1.pumpTrap gid 8 0 (off / 32 * 32) 0
    | .waits _ => s
    | .later s1 => s1)
  | _ => s

/-- BARRIER_WAKEUP (R109, R111): disabled while nothing has changed for the waiter, or its crew is trapped. -/
def execBarrierWakeup (w : Waiter) (s : State) : Host.Outcome State Fault Refusal :=
  match w with
  | .split key e => (match s.crew key with
    | some c => if c.trap.isSome then .next s else .next (s.wakeBar key e c)
    | none => .next s)
  | .pump gid => (match s.gang gid with
    | some g => (match g.pump with
      | some p => if p.stopped || p.halted then .next s else .next (s.wakePumpBar gid g p)
      | none => .next s)
    | none => .next s)
  | .mgmt _ => .next s

end Sys2Proof.Machine
end

