-- ==== Sys2Proof/Machine/Wells.lean ====
section
/-! DEFINITION. Wells (R114 to R117, R201) and batches (R112, R113, R202), opcodes 0x86 to 0x8C, and the wake-ups of
those that wait for them. -/

namespace Sys2Proof.Machine

/-! ## The fields of a well (R114) -/

def Well.kind (w : Well) : Nat := fld w.cfg0.toNat 32 4
def Well.depth (w : Well) : Nat := fld w.cfg0.toNat 38 6 + 1
def Well.pumped (w : Well) : Bool := w.cfg0.getLsbD 44
def Well.allow (w : Well) : Nat := fld w.cfg0.toNat 46 6
def Well.base (w : Well) : Nat := fld w.cfg0.toNat 0 20
/-- The bytes of an entry of a data well. -/
def Well.size (w : Well) : Nat := 128 * 2 ^ w.kind
def Well.tiles (w : Well) : Bool := w.kind == 8
def Well.producers (w : Well) : BitVec 32 := w.cfg1.extractLsb' 0 32
def Well.consumers (w : Well) : BitVec 32 := w.cfg1.extractLsb' 32 32

/-- The producer number of the pump. -/
def pumpIdx : Nat := 32

/-- Whether a push by a producer must wait (R116). -/
def Well.full (w : Well) (who : Nat) : Bool :=
  decide (w.depth ≤ w.ents.length) ||
  (w.allow != 0 && decide (w.allow ≤ (w.ents.filter (fun e => e.1 == who)).length))

/-- The ring index of the next entry a push takes. -/
def Well.tail (w : Well) : Nat := (w.head + w.ents.length) % w.depth
/-- The scratch offset of a ring entry. -/
def Well.entry (w : Well) (i : Nat) : Nat := w.base + i * w.size
/-- The head entry popped. -/
def Well.popped (w : Well) : Well := { w with head := (w.head + 1) % w.depth, ents := w.ents.drop 1 }

def State.setWell (s : State) (gid k : Nat) (w : Well) : State :=
  s.updGang gid (fun g => { g with wells := Tab.set g.wells k w })
def State.well (s : State) (gid k : Nat) : Option Well := match s.gang gid with | some g => Tab.get g.wells k | none => none

/-- R115: the cases that raise SYNC, but for a well in use. -/
def wellBad (g : Gang) (w : Well) : Bool :=
  let c := w.cfg0.toNat
  fld c 52 12 != 0 || fld c 45 1 != 0 || fld c 36 2 != 0 || fld c 20 12 != 0 ||
  !(decide (w.kind ≤ 3) || w.tiles) || w.base % 128 != 0 || (w.tiles && w.base != 0) ||
  (!w.tiles && decide (g.scrSz < w.base + w.depth * w.size)) ||
  w.consumers == 0 || (w.producers == 0) != w.pumped || (w.pumped && g.pump.isNone)

/-- Whether a crew or the pump of a gang waits on a well. -/
def State.waitsOn (s : State) (gid k : Nat) : Bool :=
  (s.gangCrews gid).any (fun c => c.2.splits.any (fun sp => sp.mask != 0 && sp.wait == .well k)) ||
  (match s.gang gid with
  | some g => (match g.pump with | some p => p.wait == .well k | none => false)
  | none => false)

/-- `well.cfg` (R115). Where both apply in DET, SYNC comes before DET (DESIGN CHOICE, log entry 66). -/
def execWellCfg (h : Hdr) (well : BitVec 4) (a b : Reg) (s : State) : Host.Outcome State Fault Refusal :=
  word (.wellCfg h well a b) h (Hdr.use h [sReg a, sReg b] []) (fun x c s =>
    let gid := keyGid x.key
    let k := well.toNat
    match s.gang gid with
    | none => .done s
    | some g =>
      let w : Well := { cfg0 := BitVec.ofNat 64 (c.rs a.toNat), cfg1 := BitVec.ofNat 64 (c.rs b.toNat), head := 0, ents := [],
                        closed := false }
      let used := match Tab.get g.wells k with | some v => !v.ents.isEmpty || s.waitsOn gid k | none => false
      if wellBad g w || used then .trap s (mkTrap 7 x.e x.act 0 k)
      else if x.det && (decide (1 < (Mask.lanes w.producers).length) || decide (1 < (Mask.lanes w.consumers).length)) then
        .trap s (mkTrap 9 x.e x.act 0 0x8A)
      else
        let ended := match g.pump with | some p => w.pumped && (p.halted || p.stopped) | none => false
        .done (s.setWell gid k { w.close g.finished with closed := (w.close g.finished).closed || ended })) s

/-! ## Pushes and pops -/

/-- A data push's bytes: each lane's share, 0 from an inactive lane (R117). -/
def pushBytes (c : Crew) (r n : Nat) (act : Mask) : List Byte :=
  (List.range 32).flatMap (fun l => leBytes (if act.getLsbD l then c.rvs r l n else 0) (4 * n))

/-- The checks and the reservation of a push by a crew (R115, R116, R201): the well, or SYNC, or a wait. -/
def pushTo (x : Ctx) (c : Crew) (s : State) (k : Nat) (fits : Well → Bool) (f : State → Well → Act) : Act :=
  let sync : Act := .trap s (mkTrap 7 x.e x.act 0 k)
  match s.well (keyGid x.key) k with
  | none => sync
  | some w =>
    if !fits w || !w.producers.getLsbD c.idx then sync
    else
      let r := s.releaseReady x.key .gg
      if w.full c.idx then .wait s (.well k)
      else if !r.2 then .blocked r.1
      else f (r.1.releaseFloor c.core .gg c.pts) w

def pushAct (x : Ctx) (c : Crew) (s : State) (k nreg r : Nat) : Act :=
  let gid := keyGid x.key
  pushTo x c s k (fun w => !w.tiles && w.kind == nreg) (fun s1 w =>
    let s2 := s1.scrPut gid (w.entry w.tail) (pushBytes c r (2 ^ nreg) x.act)
    .done (s2.setWell gid k { w with ents := w.ents ++ [(c.idx, 0, 0)] }))

/-- `well.push` (R116, R117, R201). -/
def execWellPush (h : Hdr) (well : BitVec 4) (nreg : BitVec 2) (r : Reg) (s : State) : Host.Outcome State Fault Refusal :=
  word (.wellPush h well nreg r) h (Hdr.use h [vReg r (2 ^ nreg.toNat)] []) (fun x c s =>
    pushAct x c s well.toNat nreg.toNat r.toNat) s

/-- A tile name that a crew may use (R89, R221): its physical tile and its control register. -/
def Crew.tile? (c : Crew) (t : Nat) : Option (Nat × W32) :=
  if c.ntiles ≤ t then none
  else match c.bind.getD t none with
    | some p => let v := c.tc.getD t 0; if Tc.v v then some (p, v) else none
    | none => none

/-- Whether a word that reads and writes tiles of these names waits for an earlier one (R223). -/
def Crew.tileWait (c : Crew) (now : Nat) (reads writes : List Nat) : Bool :=
  reads.any (fun t => decide (now < (c.tbusy.getD t (0, 0)).1)) ||
  writes.any (fun t => decide (now < (c.tbusy.getD t (0, 0)).1) || decide (now < (c.tbusy.getD t (0, 0)).2))

def tpushAct (x : Ctx) (c : Crew) (s : State) (i : Instr) (k t : Nat) : Act :=
  if c.tileWait s.now [] [t] then .blocked s
  else match c.tile? t with
  | none => .trap s (illTrap i x.e x.act)
  | some (p, v) =>
    pushTo x c s k Well.tiles (fun s1 w =>
      let s2 := s1.updCrew x.key (fun c => { c with bind := c.bind.set t none, tc := c.tc.set t 0 })
      .done (s2.setWell (keyGid x.key) k { w with ents := w.ents ++ [(c.idx, p, v)] }))

/-- `well.tpush` (R117, R201). -/
def execWellTpush (h : Hdr) (well : BitVec 4) (a : Reg) (s : State) : Host.Outcome State Fault Refusal :=
  word (.wellTpush h well a) h (Hdr.use h [] []) (fun x c s => tpushAct x c s (.wellTpush h well a) well.toNat a.toNat) s

/-- The write of pP by a pop. -/
def popFlag (pr : BitVec 3) (act : Mask) (v : Bool) : List RegWrite :=
  if pr = 7 then [] else [pWrite pr.toNat act (fun _ => v)]

/-- A pop is a gang-scope acquire (R116, R351). -/
def State.popAcquire (s : State) (key core : Nat) : State :=
  s.updCrew key (fun c => { c with pts := Ts.smax c.pts (s.core core).crf })

/-- The checks of a pop and its wait; `f` takes the head entry (R115, R116, R201). -/
def popFrom (x : Ctx) (c : Crew) (s : State) (k : Nat) (pr : BitVec 3) (fits : Well → Bool)
    (f : State → Well → (Nat × Nat × W32) → Act) : Act :=
  let sync : Act := .trap s (mkTrap 7 x.e x.act 0 k)
  match s.well (keyGid x.key) k with
  | none => sync
  | some w =>
    if !fits w || !w.consumers.getLsbD c.idx then sync
    else match w.ents with
    | [] =>
      if !w.closed then .wait s (.well k)
      else if pr = 7 then sync
      else pendNow x s (popFlag pr x.act false)
    | ent :: _ => f s w ent

def popAct (x : Ctx) (c : Crew) (s : State) (k nreg d : Nat) (pr : BitVec 3) : Act :=
  let gid := keyGid x.key
  popFrom x c s k pr (fun w => !w.tiles && w.kind == nreg) (fun s1 w _ =>
    let share := 4 * 2 ^ nreg
    let at0 := w.entry w.head
    let r := s1.scrCheck gid at0 w.size
    let bad := x.act.lanes.filter (fun l => (match r.1.gang gid with
      | some g => g.scrPoison.contains ((at0 + l * share) / 32)
      | none => false))
    if !bad.isEmpty then
      .trap r.1 (laneTrap 8 x.e (bad.map (fun l => (l, (at0 + l * share) / 32 * 32, 0))) 0)
    else
      let bytes := match r.1.gang gid with | some g => g.scrBytes at0 w.size | none => []
      let val (l : Nat) : Nat := leVal ((bytes.drop (l * share)).take share)
      pendNow x ((r.1.setWell gid k w.popped).popAcquire x.key c.core) (c.vecWrites d (2 ^ nreg) x.act val ++ popFlag pr x.act true))

/-- `well.pop` (R116, R117, R201). -/
def execWellPop (h : Hdr) (well : BitVec 4) (nreg : BitVec 2) (pr : BitVec 3) (d : Reg) (s : State) :
    Host.Outcome State Fault Refusal :=
  word (.wellPop h well nreg pr d) h
    (Hdr.use h [] (vReg d (2 ^ nreg.toNat) :: (if pr = 7 then [] else [pReg pr.toNat]))) (fun x c s =>
    popAct x c s well.toNat nreg.toNat d.toNat pr) s

def tpopAct (x : Ctx) (c : Crew) (s : State) (k t : Nat) (pr : BitVec 3) : Act :=
  popFrom x c s k pr Well.tiles (fun s1 w ent =>
    if c.ntiles ≤ t || Tc.v (c.tc.getD t 0) then .trap s (mkTrap 7 x.e x.act 0 k)
    else
      let s2 := ((s1.setWell (keyGid x.key) k w.popped).popAcquire x.key c.core).updCrew x.key (fun c =>
        { c with bind := c.bind.set t (some ent.2.1), tc := c.tc.set t ent.2.2 })
      if pr = 7 then .done s2 else pendNow x s2 (popFlag pr x.act true))

/-- `well.tpop` (R117, R201). A name with V = 0 that a tile is still bound to loses that tile, which then has no name (log entry
62). -/
def execWellTpop (h : Hdr) (well : BitVec 4) (pr : BitVec 3) (d : Reg) (s : State) : Host.Outcome State Fault Refusal :=
  word (.wellTpop h well pr d) h (Hdr.use h [] (if pr = 7 then [] else [pReg pr.toNat])) (fun x c s =>
    tpopAct x c s well.toNat d.toNat pr) s

/-! ## Batches (R112, R113, R202) -/

/-- Batch number `m` is later than `n` (R112). -/
def batchLater (m n : W32) : Bool := decide (1 ≤ (m - n).toNat) && decide ((m - n).toNat < 2 ^ 31)

/-- The uncompleted batches and commands of a crew. -/
def Crew.openBatches (c : Crew) : Nat := (c.batches.filter (fun b => b.left != 0)).length
def Crew.cmdsLeft (c : Crew) : Nat := c.batches.foldl (fun n b => n + b.left) c.openCmds

/-- `batch.close` (R112, R202). -/
def execBatchClose (h : Hdr) (d : Reg) (s : State) : Host.Outcome State Fault Refusal :=
  word (.batchClose h d) h (Hdr.use h [] [sReg d]) (fun x c s =>
    if 256 ≤ c.openBatches then .blocked s
    else
      let n := c.batchCtr
      let b : Batch := { num := n, left := c.openCmds, status := c.openStatus, trapRec := c.openTrap, pts := c.openPts }
      let c1 := { c with batchCtr := n + 1, openCmds := 0, openStatus := 0, openTrap := none, openPts := c.pts,
                         batches := c.batches ++ [b] }
      let cmds := Tab.mapV s.cmds (fun _ v => if v.crew = x.key && v.batch.isNone then { v with batch := some n } else v)
      pendNow x { s.setCrew x.key c1 with cmds := cmds } [sWrite d.toNat n.toNat]) s

def batchAct (x : Ctx) (c : Crew) (s : State) (d : Nat) (n : W32) : Act :=
  if batchLater n (c.batchCtr - 1) then .trap s (mkTrap 7 x.e x.act 0 0)
  else
    let mine := c.batches.filter (fun b => !batchLater b.num n)
    if mine.any (fun b => b.left != 0) then .wait s .batch
    else match mine.findSome? (·.trapRec) with
      | some r => .trap s (mkTrap 12 x.e x.act 0 r)
      | none =>
        let st := mine.foldl (fun a b => a ||| b.status) 0
        let p := mine.foldl (fun a b => Ts.smax a b.pts) c.pts
        pendNow x (s.updCrew x.key (fun c => { c with pts := p, batches := c.batches.filter (fun b => batchLater b.num n) }))
          [sWrite d st.toNat]

/-- `batch.wait` (R64, R112, R113, R202). -/
def execBatchWait (h : Hdr) (d : Reg) (b : Opnd) (s : State) : Host.Outcome State Fault Refusal :=
  word (.batchWait h d b) h (Hdr.use h (Opnd.span b 1) [sReg d]) (fun x c s =>
    batchAct x c s d.toNat (BitVec.ofNat 32 (c.sval b))) s

/-! ## Wake-ups -/

/-- A waiting word tried again: it completes, traps, goes on waiting unchanged, or waits for what its release publishes. -/
def State.retryWord (s : State) (key e : Nat) (a : Act) : State :=
  match a with
  | .wait _ _ => s
  | .blocked t => t
  | a => s.resumeWord key e a

/-- The word of a split that waits on a well. -/
def State.wakeWell (s : State) (key e : Nat) (c : Crew) : State :=
  let x := s.waitCtx key e c
  match (c.split e).wait with
  | .well _ => (match (c.split e).word with
    | some (.wellPush _ well nreg r) => s.retryWord key e (pushAct x c s well.toNat nreg.toNat r.toNat)
    | some (.wellTpush h well a) => s.retryWord key e (tpushAct x c s (.wellTpush h well a) well.toNat a.toNat)
    | some (.wellPop _ well nreg pr d) => s.retryWord key e (popAct x c s well.toNat nreg.toNat d.toNat pr)
    | some (.wellTpop _ well pr d) => s.retryWord key e (tpopAct x c s well.toNat d.toNat pr)
    | _ => s)
  | _ => s

/-- A pump whose push waits tries again: its word is fetched once more. -/
def State.wakePumpWell (s : State) (gid : Nat) (g : Gang) (p : Pump) : State :=
  match p.wait with
  | .well k => (match Tab.get g.wells k with
    | some w =>
      if w.full pumpIdx && !w.tiles then s
      else s.setGang gid { g with pump := some { p with wait := .none, word := none } }
    | none => s)
  | _ => s

/-- WELL_WAKEUP (R116): disabled while the well has not changed for the waiter, or its crew is trapped. -/
def execWellWakeup (w : Waiter) (s : State) : Host.Outcome State Fault Refusal :=
  match w with
  | .split key e => (match s.crew key with
    | some c => if c.trap.isSome then .next s else .next (s.wakeWell key e c)
    | none => .next s)
  | .pump gid => (match s.gang gid with
    | some g => (match g.pump with
      | some p => if p.stopped || p.halted then .next s else .next (s.wakePumpWell gid g p)
      | none => .next s)
    | none => .next s)
  | .mgmt _ => .next s

/-- BATCH_WAKEUP (R112): disabled while a command of the batches awaited is uncompleted, or the crew is trapped. -/
def execBatchWakeup (w : Waiter) (s : State) : Host.Outcome State Fault Refusal :=
  match w with
  | .split key e => (match s.crew key with
    | some c =>
      if c.trap.isSome || (c.split e).wait != .batch then .next s
      else match (c.split e).word with
        | some (.batchWait _ d b) =>
          .next (s.retryWord key e (batchAct (s.waitCtx key e c) c s d.toNat (BitVec.ofNat 32 (c.sval b))))
        | _ => .next s
    | none => .next s)
  | .pump _ | .mgmt _ => .next s

end Sys2Proof.Machine
end

