-- ==== Sys2Proof/Machine/Walk.lean ====
section
/-! DEFINITION. Page tables and walks (R329 to R338), the event PAGE_WALK, and translation by engines, which walk for
themselves (R338, R339). -/

namespace Sys2Proof.Machine

/-! ## Entries (R331 to R333) -/

/-- The index of a virtual address at a level (R331). -/
def walkIdx (lvl va : Nat) : Nat :=
  match lvl with
  | 0 => fld va 16 5
  | n => fld va (12 + 9 * n) 9

def pteV (e : Nat) : Bool := fld e 0 1 == 1
def pteLeaf (e : Nat) : Bool := fld e 1 1 == 1
def pteR (e : Nat) : Bool := fld e 2 1 == 1
def pteW (e : Nat) : Bool := fld e 3 1 == 1
def pteX (e : Nat) : Bool := fld e 4 1 == 1
def pteHeld (e : Nat) : Bool := fld e 5 1 == 1
def pteA (e : Nat) : Bool := fld e 6 1 == 1
def pteD (e : Nat) : Bool := fld e 7 1 == 1
/-- The physical address of the next table, or of the page. -/
def pteAddr (e : Nat) : Nat := fld e 8 44 * 256

/-- R333. -/
def pteMalformed (lvl e : Nat) : Bool :=
  fld e 56 8 != 0 || pteHeld e ||
  (if pteLeaf e then decide (3 ≤ lvl) || (pteW e && !pteR e) || pteAddr e % pageSize lvl != 0
   else lvl == 0 || fld e 2 6 != 0 || pteAddr e % (if lvl = 1 then 256 else 4096) != 0 || decide (devSize ≤ pteAddr e))

/-- Whether a leaf allows an access: 0 read, 1 write, 2 rmw, 3 fetch (R334). -/
def pteAllows (e kind : Nat) : Bool :=
  match kind with
  | 0 => pteR e
  | 1 => pteW e
  | 2 => pteR e && pteW e
  | _ => pteX e

/-- What a walk gives: a TLB entry; a failure (0 not present, 1 permission, 2 malformed, 3 held); or nothing yet. -/
inductive Walked where
  | ok (s : State) (t : TlbEntry)
  | fail (s : State) (how : Nat)
  | later (s : State)
  deriving DecidableEq, Repr

/-- The partition that owns an address space (R329). -/
def State.asidPart (s : State) (asid : Nat) : Nat := fld (s.asid asid).cfg.toNat 0 6

/-- R334 from a level's table down; A and D set by a compare-and-swap that meets no change within the step (R335). A
poisoned or lost entry counts as one that is not present (log entry 15). A malformed entry is recorded with the launch that the walk
is for, by the walker's home die (R400, log entry 67). -/
def State.walkAt (s : State) (asid va kind cls lslot : Nat) : Nat → Nat → Walked
  | 0, _ => .fail s 0
  | n + 1, t =>
    let a := t + 8 * walkIdx n va
    match s.target a with
    | .dev o =>
      if s.lost (o / 128) then .fail s 0
      else match s.rangeRead a 8 (s.home (s.servDie (o / 128))).clock true none with
      | .later s1 => .later s1
      | .ok s1 bs _ po =>
        let e := leVal bs
        if po then .fail s1 0
        else if !pteV e then .fail s1 (if pteHeld e then 3 else 0)
        else if pteMalformed n e then
          .fail (s1.errRecord a va 1 n 1 (32 * s1.walkHome asid va + lineSlice (o / 128)) lslot asid (s1.asidPart asid) cls 4) 2
        else if !pteLeaf e then s1.walkAt asid va kind cls lslot n (pteAddr e)
        else if !pteAllows e kind then .fail s1 1
        else
          let e1 := Nat.lor e (if kind = 1 || kind = 2 then 0xC0 else 0x40)
          let sz := pageSize n
          let tlb : TlbEntry := { asid := asid, lvl := n, va := va / sz * sz, pa := pteAddr e, r := pteR e, w := pteW e,
                                  x := pteX e, d := pteD e1 }
          if e1 = e then .ok s1 tlb
          else match s1.rangeWrite a (leBytes e1 8) (s1.home (s1.servDie (o / 128))).clock none with
            | .later s2 => .later s2
            | .ok s2 _ _ _ => .ok s2 tlb
    | _ => .fail s 0

/-- Translation of an address by a walk (R334). -/
def State.walk (s : State) (asid va kind cls : Nat) (lslot : Nat := 0xFFF) : Walked :=
  if !s.asidOn asid || decide (2 ^ 57 ≤ va) then .fail s 0
  else s.walkAt asid va kind cls lslot 5 (fld (s.asid asid).root.toNat 12 40 * 4096)

/-! ## PAGE_WALK (R336, R337) -/

/-- A TLB with an entry put in front, at most `n` long; what it replaced leaves (log entry 16). -/
def tlbPut (l : List TlbEntry) (t : TlbEntry) (n : Nat) : List TlbEntry :=
  (t :: l.filter (fun x => !(x.asid == t.asid && x.lvl == t.lvl && x.va == t.va))).take n

/-- The unit whose TLBs take the result of a walk. -/
def State.waiterUnit (s : State) (w : Waiter) : Agent :=
  match w with
  | .split key _ => (match s.crew key with | some c => .core c.core | none => .engine 0)
  | .pump gid => (match s.gang gid with | some g => .core g.core | none => .engine 0)
  | .mgmt k => .mgmt k

def State.fillTlb (s : State) (u : Agent) (t : TlbEntry) : State :=
  match u with
  | .core c => (s.updCore c (fun k => { k with tlb := tlbPut k.tlb t 64 })).updCluster (clusterOf c)
      (fun k => { k with tlb := tlbPut k.tlb t 2048 })
  | .cluster k | .mgmt k => s.updCluster k (fun v => { v with tlb := tlbPut v.tlb t 2048 })
  | .engine _ => s

/-- A failed walk is told to the waiting word (R338). -/
def State.walkFailed (s : State) (w : Waiter) (f : WalkFail) : State :=
  match w with
  | .split key _ => s.updCrew key (fun c => { c with walks := c.walks ++ [f] })
  | .pump gid => s.updGang gid (fun g => { g with pump := g.pump.map (fun p => { p with walks := p.walks ++ [f] }) })
  | .mgmt k => s.updMgmt k (fun m => { m with walks := m.walks ++ [f] })

/-- The launch that a waiting unit works for. -/
def State.waiterSlot (s : State) (w : Waiter) : Nat :=
  let of (gid : Nat) : Nat := match s.gang gid with | some g => g.lslot | none => 0xFFF
  match w with
  | .split key _ => of (keyGid key)
  | .pump gid => of gid
  | .mgmt k => match (s.mgmt k).crew with | some key => of (keyGid key) | none => 0xFFF

/-- The pages that wait at a home die, in the order of their arrival (R337). -/
def State.walkPages (s : State) (hd : Nat) : List (Nat × Nat) :=
  s.walkq.foldl (fun l r =>
    if s.walkHome r.asid r.va = hd && !l.contains (r.asid, r.va / 65536) then l ++ [(r.asid, r.va / 65536)] else l) []

/-- PAGE_WALK: a walk of a page by one of the 32 walkers of its home die (R337). Every request of the page takes its result: the TLB
entry, or a failure, that of a permission only for accesses of its kind (log entry 67). Disabled while 32 pages are ahead of it. -/
def execPageWalk (asid va : Nat) (s : State) : Host.Outcome State Fault Refusal :=
  let page := (asid, va / 65536)
  let same (r : WalkReq) : Bool := (r.asid, r.va / 65536) == page
  let mine := s.walkq.filter same
  .next (match mine with
    | [] => s
    | r :: _ =>
      if !((s.walkPages (s.walkHome asid va)).take 32).contains page then s
      else
        let free (s : State) (gone : WalkReq → Bool) : State :=
          let q := s.walkq.filter (fun w => !(same w && gone w))
          { s with
            walkq := q
            clusters := if q.any same then s.clusters
              else Tab.mapV s.clusters (fun _ k => { k with miss := k.miss.filter (· != page) }) }
        match s.walk r.asid r.va r.kind 1 (s.waiterSlot r.who) with
        | .later s1 => s1
        | .ok s1 t => mine.foldl (fun s q => s.fillTlb (s.waiterUnit q.who) t) (free s1 (fun _ => true))
        | .fail s1 how =>
          let takes (q : WalkReq) : Bool := how != 1 || q.kind == r.kind
          (mine.filter takes).foldl (fun s q => s.walkFailed q.who { va := q.va / 65536, kind := q.kind, how := how }) (free s1 takes))

/-! ## Engines (R338, R339) -/

/-- An engine's part waits for a held page, which the partition announces once (R339, R340). -/
def State.engWait (s : State) (w : EngWait) : State :=
  let p := s.asidPart w.asid
  let q := s.part p
  let page := (w.asid, w.page)
  let s1 := { s with engWaits := if s.engWaits.contains w then s.engWaits else s.engWaits ++ [w] }
  if q.engreq.contains page || q.engAnnounced.contains page then s1
  else
    let s2 := s1.setPart p { q with engreq := q.engreq ++ [page] }
    if q.engreq.isEmpty then s2.raiseFvec p else s2

/-- Where an engine's access goes: a physical address; a failure; a held page; nothing yet. -/
inductive EngX where
  | ok (s : State) (pa : Nat)
  | fail (s : State)
  | held (s : State) (page : Nat)
  | later (s : State)
  deriving DecidableEq, Repr

def State.engXlate (s : State) (asid va kind : Nat) (lslot : Nat := 0xFFF) : EngX :=
  match s.walk asid va kind 0 lslot with
  | .later s1 => .later s1
  | .fail s1 3 => .held s1 (va / 65536)
  | .fail s1 _ => .fail s1
  | .ok s1 t =>
    let pa := t.map va
    match s1.reach pa 0 with
    | .at _ => (match s1.farRefused pa with
      | some s2 => .fail s2
      | none => .ok s1 pa)
    | _ => .fail s1

/-- A virtual range cut at the 64 KiB pages. -/
def cutPages (va n : Nat) : List (Nat × Nat) :=
  (List.range ((va + n + 65535) / 65536 - va / 65536)).map (fun i =>
    let lo := if i = 0 then va else (va / 65536 + i) * 65536
    let hi := if (va / 65536 + i + 1) * 65536 < va + n then (va / 65536 + i + 1) * 65536 else va + n
    (lo, hi - lo))

/-- The physical pieces of a virtual range. -/
inductive EngR where
  | ok (s : State) (ps : List (Nat × Nat))
  | fail (s : State)
  | held (s : State) (page : Nat)
  | later (s : State)
  deriving DecidableEq, Repr

def State.engRange (s : State) (asid va n kind : Nat) (lslot : Nat := 0xFFF) : EngR :=
  (cutPages va n).foldl (fun acc c => match acc with
    | .ok s ps => (match s.engXlate asid c.1 kind lslot with
      | .ok s1 pa => .ok s1 (ps ++ [(pa, c.2)])
      | .fail s1 => .fail s1
      | .held s1 p => .held s1 p
      | .later s1 => .later s1)
    | r => r) (.ok s [])

/-- Whether every piece could be read now. -/
def State.piecesHeld (s : State) (ps : List (Nat × Nat)) (f : Finder) : State × Bool :=
  ps.foldl (fun acc c => let r := acc.1.rangeHeld c.1 c.2 false none f; (r.1, acc.2 && r.2)) (s, true)

/-- Physical pieces read, when every one can be; `f` names the first byte. -/
def State.piecesRead (s : State) (ps : List (Nat × Nat)) (p : Ts) (f : Finder := Finder.nobody) : Dir :=
  let r := s.piecesHeld ps f
  if r.2 then
    ps.foldl (fun acc c => match acc with
      | .ok s bs t po => (match s.rangeRead c.1 c.2 p false none (f.shift bs.length) with
        | .ok s1 b1 t1 p1 => .ok s1 (bs ++ b1) (Ts.smax t t1) (po || p1)
        | .later s1 => .later s1)
      | r => r) (.ok r.1 [] p false)
  else .later r.1

/-- Whether every piece could be written now. -/
def State.piecesReady (s : State) (ps : List (Nat × Nat)) (f : Finder) : State × Bool :=
  ps.foldl (fun acc c => let r := acc.1.rangeReady c.1 c.2 none f; (r.1, acc.2 && r.2)) (s, true)

/-- Physical pieces written, when every one can be. -/
def State.piecesWrite (s : State) (ps : List (Nat × Nat)) (bs : List Byte) (p : Ts) (f : Finder := Finder.nobody) : Dir :=
  let r := s.piecesReady ps f
  if r.2 then
    (ps.foldl (fun (acc : Dir × List Byte) c => match acc.1 with
      | .ok s _ t po => (match s.rangeWrite c.1 (acc.2.take c.2) p none (f.shift (bs.length - acc.2.length)) with
        | .ok s1 _ t1 p1 => (.ok s1 [] (Ts.smax t t1) (po || p1), acc.2.drop c.2)
        | .later s1 => (.later s1, []))
      | d => (d, [])) (.ok r.1 [] p false, bs)).1
  else .later r.1

/-- The sectors of physical pieces poisoned (R76), when every one can be written. -/
def State.piecesPoison (s : State) (ps : List (Nat × Nat)) (p : Ts) (f : Finder) : Dir :=
  let r := s.piecesReady ps f
  if r.2 then
    ps.foldl (fun acc c => match acc with
      | .ok s _ t _ => (match s.rangePoison c.1 c.2 p none f with
        | .ok s1 _ t1 _ => .ok s1 [] (Ts.smax t t1) false
        | .later s1 => .later s1)
      | r => r) (.ok r.1 [] p false)
  else .later r.1

end Sys2Proof.Machine
end

