-- ==== Sys2Proof/Machine/Copy.lean ====
section
/-! DEFINITION. Copy-engine commands (R203 to R212, R214), opcodes 0x90 to 0x99: their issue, and the completion of
their parts (R205, R62, R327). -/

namespace Sys2Proof.Machine

/-! ## Commands -/

/-- A signed 64-bit register value, and the signed high half. -/
def sext64 (x : Nat) : Int := if x < 2 ^ 63 then x else (x : Int) - (2 ^ 64 : Nat)

def Cmd.rows (k : Cmd) : Nat := fld k.b1 0 32
/-- Bytes of an element of `cpy.gather` or `cpy.red`. -/
def Cmd.elem (k : Cmd) : Nat := if k.op = 5 then 4 * 2 ^ k.esz else k.ty.bits / 8

/-- Whether the destination, and the source, lie in scratch (R206). -/
def Cmd.dstScr (k : Cmd) : Bool := k.op == 0 || k.op == 3 || ((k.op == 4 || k.op == 5) && !k.dir)
def Cmd.srcScr (k : Cmd) : Bool := k.op == 1 || ((k.op == 4 || k.op == 6) && k.dir)

/-- The rectangle of `cpy.mcast`: origin and sides (R207). -/
structure McRect where
  clu : Bool
  ranks : Nat
  lw : Nat
  lh : Nat
  ox : Nat
  oy : Nat
  deriving DecidableEq, Repr

def mcRect (b : Nat) : McRect :=
  { clu := fld b 40 1 == 1, ranks := fld b 41 4, lw := fld b 32 4, lh := fld b 36 4, ox := fld b 0 16, oy := fld b 16 16 }

/-- R207: a descriptor that keeps the rules. -/
def McRect.good (r : McRect) (b : Nat) (clu : Bool) : Bool :=
  fld b 45 19 == 0 &&
  (if r.clu then clu && r.ox == 0 && r.oy == 0 && r.lw == 0 && r.lh == 0
   else r.ranks == 0 && r.ox % 2 ^ r.lw == 0 && r.oy % 2 ^ r.lh == 0)

/-- The sides of the rectangle inside a launch of `rw` by `rh` gangs (R13). -/
def McRect.width (r : McRect) (rw : Nat) : Nat := min (2 ^ r.lw) (rw - r.ox)
def McRect.height (r : McRect) (rh : Nat) : Nat := min (2 ^ r.lh) (rh - r.oy)

/-- The number of target gangs. -/
def McRect.targets (r : McRect) (rw rh : Nat) : Nat :=
  if r.clu then ((List.range 4).filter (fun k => fld r.ranks k 1 == 1)).length else r.width rw * r.height rh

/-- Target `t`: a cluster rank, or gy × 65,536 + gx. -/
def McRect.has (r : McRect) (rw rh t : Nat) : Bool :=
  if r.clu then decide (t < 4) && fld r.ranks t 1 == 1
  else
    let x := t % 65536
    let y := t / 65536
    decide (r.ox ≤ x) && decide (x < r.ox + r.width rw) && decide (r.oy ≤ y) && decide (y < r.oy + r.height rh)

/-- A part: where its bytes go, where they come from, how many. -/
structure Part1 where
  dst : Nat
  src : Nat
  n : Nat
  deriving DecidableEq, Repr

/-- The part of a run of `len` bytes that starts at offset `i` (R205). -/
def runPart (dst src len i : Nat) : Option Part1 :=
  if i < len && (i = 0 || (dst + i) % 4096 = 0 || (src + i) % 4096 = 0) then
    let a := 4096 - (dst + i) % 4096
    let b := 4096 - (src + i) % 4096
    some { dst := (dst + i) % 2 ^ 64, src := (src + i) % 2 ^ 64, n := min (min a b) (len - i) }
  else none

/-- The part of a command that `part` names: a byte offset of a run, row × LEN + offset of a 2D copy, or an element. -/
def Cmd.part (k : Cmd) (part : Nat) : Option Part1 :=
  match k.op with
  | 4 =>
    if k.len = 0 then none
    else
      let r := part / k.len
      let d := (((k.dst : Int) + r * sext32 (fld k.b1 32 32)) % (2 ^ 64 : Nat)).toNat
      let c := (((k.src : Int) + r * sext64 k.b0) % (2 ^ 64 : Nat)).toNat
      if r < k.rows then runPart d c k.len (part % k.len) else none
  | 5 => if part < k.len then some { dst := (k.dst + part * k.elem) % 2 ^ 64, src := part, n := k.elem } else none
  | 6 => if part * k.elem < k.len then
      some { dst := (k.dst + part * k.elem) % 2 ^ 64, src := (k.src + part * k.elem) % 2 ^ 64, n := k.elem } else none
  | 8 => none
  | _ => runPart k.dst k.src k.len part

/-! ## Issue (R204) -/

/-- A gang's position as gy × 65,536 + gx, and the sides of a launch (R12, R295). -/
def State.gangXY (s : State) (gid : Nat) : Nat := match s.gang gid with | some g => g.gy * 65536 + g.gx | none => 0
def State.launchSides (s : State) (lslot : Nat) : Nat × Nat :=
  match s.launch lslot with
  | some l => (l.rw, l.rh)
  | none => (0, 0)

/-- The operands of a command, as read from its quad and its B group; a multicast keeps its gang's position in `b1`. -/
def cpyCmd (x : Ctx) (c : Crew) (s : State) (o : Cpy) (op : Nat) (hasB : Bool) : Cmd :=
  let q := o.a.toNat
  let k : Cmd :=
    { op := op, crew := x.key, gid := keyGid x.key, asid := s.gangAsid (keyGid x.key),
      lslot := (match s.gang (keyGid x.key) with | some g => g.lslot | none => 0), batch := none, dst := c.rs q,
      src := c.rs (q + 1), len := c.rs (q + 2), bar := c.rs (q + 3), b0 := if hasB then c.rs o.b.toNat else 0,
      b1 := if op = 3 then s.gangXY (keyGid x.key) else if hasB then c.rs (o.b.toNat + 1) else 0, rb := o.rb, xb := o.xb, esz := o.esz.toNat, dir := o.dir,
      bsp := o.bsp, aop := o.op.toNat, ty := o.ty, pts := c.pts, done := [], landed := [], total := 0,
      failed := false }
  let n := match op with
    | 3 => k.len * (mcRect k.b0).targets (s.launchSides k.lslot).1 (s.launchSides k.lslot).2
    | 4 => k.len * k.rows
    | 5 => k.len * k.elem
    | _ => k.len
  { k with total := n }

/-- The ranges a command names: scratch or global, first byte, length (R204). -/
def Cmd.ranges (k : Cmd) : List (Bool × Int × Nat) :=
  let last (base : Nat) (st : Int) : Int := (base : Int) + (k.rows - 1 : Nat) * st
  let r (scr : Bool) (a : Int) (n : Nat) : Bool × Int × Nat := (scr, a, n)
  let main : List (Bool × Int × Nat) := match k.op with
    | 4 => [r k.dstScr k.dst k.len, r k.dstScr (last k.dst (sext32 (fld k.b1 32 32))) k.len,
            r k.srcScr k.src k.len, r k.srcScr (last k.src (sext64 k.b0)) k.len]
    | 5 => [r k.dstScr k.dst k.total, r false k.src 1, r k.xb k.b0 (4 * k.len)]
    | 8 => [r false k.dst k.len, r false k.src k.len] ++ (if k.b1 = 0 then [] else [r false k.b1 64])
    | _ => [r k.dstScr k.dst k.len, r k.srcScr k.src k.len]
  main ++ (if k.bar = 0 then [] else [r k.bsp k.bar 16])

/-- The checks at issue, in the order of R204: the class, flags and address of the trap. -/
def Cmd.check (k : Cmd) (scrSz : Nat) (clu : Bool) : Option (Nat × Nat × Nat) :=
  let rs := k.ranges
  let a64 (a : Int) : Nat := (a % (2 ^ 64 : Nat)).toNat
  match rs.find? (fun r => r.1 && (decide (r.2.1 < 0) || decide ((scrSz : Int) < r.2.1 + r.2.2))) with
  | some r => some (6, 0, a64 r.2.1)
  | none => match rs.find? (fun r => !r.1 && (decide (2 ^ 57 ≤ a64 r.2.1))) with
    | some r => some (1, dNoncanon, a64 r.2.1)
    | none =>
      let g := mcRect k.b0
      let bad := decide (2 ^ 32 ≤ k.len) || decide (2 ^ 35 ≤ k.total) ||
        (k.op == 3 && !g.good k.b0 clu) || (k.op == 4 && (k.rows == 0 || decide (65536 < k.rows))) ||
        (k.op == 6 && k.len % k.elem != 0) || (k.op == 7 && decide (512 ≤ k.b0)) ||
        (k.op == 8 && (decide (2 ^ 34 ≤ k.b0) || decide (432 < fld k.b0 25 9 + 1) || fld k.b0 25 9 == 0 ||
          decide (fld k.b0 25 9 < fld k.b0 16 9)))
      if bad then some (7, 0, 0)
      else if k.bar % 16 ≠ 0 then some (1, dMisalign, k.bar)
      else if k.op = 6 && k.dst % k.elem ≠ 0 then some (1, dMisalign, k.dst)
      else if k.op = 6 && k.src % k.elem ≠ 0 then some (1, dMisalign, k.src)
      else if k.op = 8 && k.b1 % 64 ≠ 0 then some (1, dMisalign, k.b1)
      else none

/-- The trap of a failed check: lane of the lowest active one (R186). -/
def cpyTrap (x : Ctx) (f : Nat × Nat × Nat) : Trap :=
  if f.1 = 7 then mkTrap 7 x.e x.act 0 0 else laneTrap f.1 x.e [(x.act.lanes.getD 0 0, f.2.2, f.2.1)] 0

/-- A command ends for its crew's batch and its launch (R112, R113, R297). -/
def State.cmdEnd (s : State) (id : Nat) (k : Cmd) : State :=
  let s1 := s.updBatches k.crew (fun c => match k.batch with
    | none => { c with openCmds := c.openCmds - 1, openPts := Ts.smax c.openPts k.pts }
    | some n => { c with batches := c.batches.map (fun b =>
        if b.num = n then { b with left := b.left - 1, pts := Ts.smax b.pts k.pts } else b) })
  let s2 := { s1 with cmds := Tab.erase s1.cmds id, engWaits := s1.engWaits.filter (fun w => !((w.what == 0 || w.what == 4) && w.id == id)) }
  s2.updLaunch k.lslot (fun l => { l with cmdsLeft := l.cmdsLeft - 1 })

/-- Status bits for the batch of a command (R113). -/
def State.cmdStatus (s : State) (k : Cmd) (st : BitVec 4) : State :=
  if st = 0 then s
  else s.updBatches k.crew (fun c => match k.batch with
    | none => { c with openStatus := c.openStatus ||| st }
    | some n => { c with batches := c.batches.map (fun b => if b.num = n then { b with status := b.status ||| st } else b) })

/-- A copy command (R203, R204): its checks, the release of R61, and its departure; a switch reduction notes the round
that its rank's counter gives it (R212). -/
def copyAct (x : Ctx) (c : Crew) (s : State) (o : Cpy) (op : Nat) (hasB : Bool) : Act :=
  let k := cpyCmd x c s o op hasB
  let g := keyGid x.key
  let clu := match s.gangLaunch g with | some l => l.clu && !(match s.gang g with | some v => v.cont | none => false) | none => false
  match k.check (match s.gang g with | some v => v.scrSz | none => 0) clu with
  | some f => .trap s (cpyTrap x f)
  | none =>
    if 64 ≤ c.cmdsLeft then .blocked s
    else
      let r := s.releaseReady x.key .dv
      if !r.2 then .blocked r.1
      else
        let s1 := r.1.updCrew x.key (fun c => { c with openCmds := c.openCmds + 1 })
        let s2 := s1.updLaunch k.lslot (fun l => { l with cmdsLeft := l.cmdsLeft + 1 })
        let g := Tab.getD s2.swr (fld k.b0 0 16) { rounds := [], next := [] }
        let rank := fld k.b0 16 9
        let k1 := if op = 8 then { k with landed := [(Tab.getD g.next rank 0, 0)] } else k
        let swr := if op = 8 then
            Tab.set s2.swr (fld k.b0 0 16) { g with next := Tab.set g.next rank (Tab.getD g.next rank 0 + 1) }
          else s2.swr
        let s3 := { s2 with cmds := Tab.set s2.cmds s2.nextId k1, nextId := s2.nextId + 1, swr := swr }
        .done (if k.total = 0 && op != 8 then s3.cmdEnd s2.nextId k else s3)

/-- The scalar registers a command reads. -/
def cpyUse (o : Cpy) (nb : Nat) : WUse :=
  Hdr.use o.h (sRegs o.a 4 :: (if nb = 0 then [] else [sRegs o.b nb])) []

def execCpyG2s (o : Cpy) (s : State) : Host.Outcome State Fault Refusal :=
  word (.cpyG2s o) o.h (cpyUse o 0) (fun x c s => copyAct x c s o 0 false) s
def execCpyS2g (o : Cpy) (s : State) : Host.Outcome State Fault Refusal :=
  word (.cpyS2g o) o.h (cpyUse o 0) (fun x c s => copyAct x c s o 1 false) s
def execCpyG2g (o : Cpy) (s : State) : Host.Outcome State Fault Refusal :=
  word (.cpyG2g o) o.h (cpyUse o 0) (fun x c s => copyAct x c s o 2 false) s
/-- `cpy.mcast` (R207). -/
def execCpyMcast (o : Cpy) (s : State) : Host.Outcome State Fault Refusal :=
  word (.cpyMcast o) o.h (cpyUse o 1) (fun x c s => copyAct x c s o 3 true) s
/-- `cpy.t2d` (R208). -/
def execCpyT2d (o : Cpy) (s : State) : Host.Outcome State Fault Refusal :=
  word (.cpyT2d o) o.h (cpyUse o 2) (fun x c s => copyAct x c s o 4 true) s
/-- `cpy.gather` (R209). -/
def execCpyGather (o : Cpy) (s : State) : Host.Outcome State Fault Refusal :=
  word (.cpyGather o) o.h (cpyUse o 2) (fun x c s => copyAct x c s o 5 true) s
/-- `cpy.red` (R210); a float reduction raises DET in DET (R33). -/
def execCpyRed (o : Cpy) (s : State) : Host.Outcome State Fault Refusal :=
  word (.cpyRed o) o.h ((cpyUse o 0).inDet (!o.ty.isInt) 0x96) (fun x c s => copyAct x c s o 6 false) s
/-- `cpy.dom` (R211). -/
def execCpyDom (o : Cpy) (s : State) : Host.Outcome State Fault Refusal :=
  word (.cpyDom o) o.h (cpyUse o 1) (fun x c s => copyAct x c s o 7 true) s
/-- `cpy.swr` (R212). -/
def execCpySwr (o : Cpy) (s : State) : Host.Outcome State Fault Refusal :=
  word (.cpySwr o) o.h (cpyUse o 2) (fun x c s => copyAct x c s o 8 true) s

/-- `cpy.stat` (R214). -/
def execCpyStat (h : Hdr) (d : Reg) (s : State) : Host.Outcome State Fault Refusal :=
  word (.cpyStat h d) h (Hdr.use h [] [sReg d]) (fun x c s =>
    let low := if x.det then 0 else c.openBatches * 65536 + c.cmdsLeft
    pendNow x s [sWrite d.toNat (c.batchCtr.toNat * 2 ^ 32 + low)]) s

/-! ## Parts -/

/-- What reading or writing one side of a part gives. -/
inductive EngIO where
  | ok (s : State) (bs : List Byte)
  | poison (s : State)
  | fail (s : State)
  | held (s : State) (page : Nat)
  | later (s : State)
  deriving DecidableEq, Repr

/-- Whom an engine's accesses serve, for error records (R346, R400). -/
def State.cmdFinder (s : State) (k : Cmd) (va : Nat) : Finder :=
  { core := none, va := va, lslot := k.lslot, asid := k.asid, part := (match s.launch k.lslot with | some l => l.part | none => 0), cls := 0 }

/-- The bytes of a source (R75, R76). -/
def State.engRead (s : State) (k : Cmd) (scr : Bool) (a n : Nat) : EngIO :=
  if scr then
    let r := match s.gang k.gid, s.savedBlk k.gid with
      | some _, _ => s.scrCheck k.gid a n
      | none, some (_, _, im) => s.checkRange (im + s.imgScrOff im + a) n (s.cmdFinder k 0)
      | none, none => (s, false)
    if r.2 then .poison r.1
    else match r.1.engScrBytes k.gid a n with
      | some bs => .ok r.1 bs
      | none => .fail s
  else match s.engRange k.asid a n 0 k.lslot with
    | .fail s1 => .fail s1
    | .held s1 p => .held s1 p
    | .later s1 => .later s1
    | .ok s1 ps => match s1.piecesRead ps k.pts (s1.cmdFinder k a) with
      | .later s2 => .later s2
      | .ok s2 bs _ po => if po then .poison s2 else .ok s2 bs

/-- Bytes stored in a gang's scratch, in its image, or dropped (R327); the second value says that they landed. -/
def State.engScrPut (s : State) (gid a : Nat) (bs : List Byte) : State × Bool :=
  match s.gang gid with
  | some _ => (s.scrPut gid a bs, true)
  | none => match s.savedBlk gid with
    | some (_, _, im) => (s.imgMerge (im + s.imgScrOff im + a) bs, true)
    | none => (s, false)

/-- The element of a reduction at one place (R210): in a poisoned sector it is dropped (R76). -/
def State.engRed (s : State) (k : Cmd) (pa : Nat) (x : Nat) : Dir :=
  let n := k.elem
  match s.target pa with
  | .dev o =>
    let r := s.clearRange o n true false none
    if r.2 then
      let a := r.1.homeAtom (o / 128) k.aop false k.ty [(0, o % 128, x, 0)] k.pts false false (r.1.cmdFinder k 0)
      .ok a.1 [] a.2.w false
    else .later r.1
  | _ => match s.rangeReady pa n none (s.cmdFinder k 0) with
    | (s1, false) => .later s1
    | (s1, true) => match s1.directRead pa n k.pts false none (s1.cmdFinder k 0) with
      | .later s2 => .later s2
      | .ok s2 bs _ po =>
        if po then .ok s2 [] k.pts false
        else s2.directWrite pa (leBytes (atomNew k.aop k.ty (leVal bs) x) n) k.pts none (s2.cmdFinder k 0)

/-- The bytes of a destination written. -/
def State.engWrite (s : State) (k : Cmd) (a : Nat) (bs : List Byte) : EngIO × Ts :=
  if k.dstScr then (.ok (s.engScrPut k.gid a bs).1 [], k.pts)
  else match s.engRange k.asid a bs.length 1 k.lslot with
    | .fail s1 => (.fail s1, k.pts)
    | .held s1 p => (.held s1 p, k.pts)
    | .later s1 => (.later s1, k.pts)
    | .ok s1 ps =>
      let w := if k.op = 6 then s1.engRed k (match ps with | p :: _ => p.1 | [] => 0) (leVal bs)
        else s1.piecesWrite ps bs k.pts (s1.cmdFinder k a)
      match w with
      | .later s2 => (.later s2, k.pts)
      | .ok s2 _ ts _ => (.ok s2 [], Ts.smax k.pts ts)

/-- The destination sectors of a part poisoned (R76), in a saved gang's image too (R327): its destination must translate like any
other (R338, R339). -/
def State.engPoison (s : State) (k : Cmd) (a n : Nat) : EngIO × Ts :=
  if k.dstScr then
    (.ok (match s.gang k.gid, s.savedBlk k.gid with
      | none, some (_, _, im) => s.imgPoisonPut (im + s.imgScrOff im + a) n
      | _, _ => s.updGang k.gid (fun g =>
        let l := (sectorsOf a n).foldl (fun l sec => if l.contains sec then l else sec :: l) g.scrPoison
        { g with scrPoison := l })) [], k.pts)
  else match s.engRange k.asid a n 1 k.lslot with
    | .fail s1 => (.fail s1, k.pts)
    | .held s1 p => (.held s1 p, k.pts)
    | .later s1 => (.later s1, k.pts)
    | .ok s1 ps => match s1.piecesPoison ps k.pts (s1.cmdFinder k a) with
      | .later s2 => (.later s2, k.pts)
      | .ok s2 _ ts _ => (.ok s2 [], Ts.smax k.pts ts)

/-- The barrier object a command credits: none; a place; a place that does not translate; a held page; nothing yet. -/
inductive BarAt where
  | none
  | loc (s : State) (b : BarLoc)
  | bad (s : State)
  | held (s : State) (page : Nat)
  | later (s : State)
  deriving DecidableEq, Repr

/-- Engines reach an object by its address, in this MZ-40's memory or in a peer's (R107). -/
def State.cmdBar (s : State) (asid gid bar : Nat) (bsp : Bool) (lslot : Nat := 0xFFF) : BarAt :=
  if bar = 0 then .none
  else if bsp then .loc s (.scr gid bar)
  else match s.engXlate asid bar 2 lslot with
    | .ok s1 pa => (match s1.target pa with
      | .dev o => .loc s1 (.dev o)
      | .peer p va => .loc s1 (.peer p va)
      | _ => .bad s1)
    | .fail s1 => .bad s1
    | .held s1 p => .held s1 p
    | .later s1 => .later s1

/-- After a credit to a scratch object (R351): the release floors where it is executed, of the core and, at cluster scope, of the
cluster unit; or the `pts` of the crews in the image. -/
def State.creditFloor (s : State) (b : BarLoc) (p : Ts) : State :=
  match b with
  | .scr gid _ => (match s.gang gid with
    | some g =>
      let s1 := s.releaseFloor g.core .gg p
      if s.barScope b == .cl then s1.releaseFloor g.core .cl p else s1
    | none => (match s.savedBlk gid with
      | some (_, v, a) => s.imgRaisePts v a p
      | none => s))
  | _ => s

/-- What a command finds at its object (R205, R327): an object that takes credits, or is malformed; nothing, its gang having ended
or been discarded, so that the credit is dropped; or nothing yet. What stands at a peer only the answer tells (log entry 66). -/
inductive BarLive where
  | live
  | malformed
  | gone
  | later (s : State)
  deriving DecidableEq, Repr

def State.barLive (s : State) (b : BarLoc) : BarLive :=
  match b with
  | .peer _ _ => .live
  | _ =>
    let gone := match b with
      | .scr gid _ => (s.gang gid).isNone && (s.savedBlk gid).isNone
      | _ => false
    if gone then .gone
    else match s.barFetch b 0 none true with
      | .ok r => if (barOf r.2.1).good b.scratch then .live else .malformed
      | .error (.later s1) => .later s1
      | .error _ => .malformed

/-- What a part's work gives: status bits, or a wait. -/
inductive PartOut where
  | ok (s : State) (st : BitVec 4) (p : Ts)
  | held (s : State) (page : Nat)
  | later (s : State)
  deriving DecidableEq, Repr

/-- The source bytes of a part: of a gather, the element that its index names (R209). -/
def State.partBytes (s : State) (k : Cmd) (p : Part1) : EngIO :=
  if k.op = 5 then
    match s.engRead k k.xb ((k.b0 + 4 * p.src) % 2 ^ 64) 4 with
    | .ok s1 bs =>
      let x := leVal bs
      if x < fld k.b1 0 32 then s1.engRead k false ((k.src + x * k.elem) % 2 ^ 64) k.elem
      else .ok s1 (List.replicate k.elem 0)
    | r => r
  else s.engRead k k.srcScr p.src p.n

/-- One side's outcome as a part's, with the status bits it ends with. -/
def EngIO.ends (r : EngIO × Ts) (st : BitVec 4) : PartOut :=
  match r with
  | (.later s, _) => .later s
  | (.held s pg, _) => .held s pg
  | (.fail s, ts) | (.poison s, ts) => .ok s (st ||| 4) ts
  | (.ok s _, ts) => .ok s st ts

/-- A part's bytes moved (R205): FAULT is bit 2, POISON bit 1; an engine that has failed serves nothing (R368). -/
def State.partMove (s : State) (k : Cmd) (p : Part1) : PartOut :=
  if k.failed then .ok s 4 k.pts
  else match s.partBytes k p with
  | .later s1 => .later s1
  | .held s1 pg => .held s1 pg
  | .fail s1 => .ok s1 4 k.pts
  | .poison s1 => EngIO.ends (s1.engPoison k p.dst p.n) 2
  | .ok s1 bs => EngIO.ends (s1.engWrite k p.dst bs) 0

/-- What a credit gives: whether the object took it, and the timestamp its ACK brings (R350); or nothing yet. -/
inductive Credited where
  | ok (s : State) (good : Bool) (ts : Ts)
  | later (s : State)
  deriving DecidableEq, Repr

/-- Bytes credited to an object of this MZ-40 (R62, R108, R111). -/
def State.credit (s : State) (b : BarLoc) (n : Nat) (p : Ts) : Credited :=
  match s.barDo b (.credit n) p none 0 with
  | .ok s1 _ ts => .ok (s1.creditFloor b (Ts.smax p ts)) true (Ts.smax p ts)
  | .sync s1 | .poison s1 | .waits s1 => .ok s1 false p
  | .later s1 => .later s1

/-- The outcome of a part recorded: status, timestamp, the parts done; the command ends with its last byte (R205). -/
def State.partDone (s : State) (id : Nat) (k : Cmd) (part : Nat) (st : BitVec 4) (p : Ts) : State :=
  let k1 := { k with done := k.done ++ [part], pts := p }
  let s1 := (s.cmdStatus k st)
  let left : Nat := k1.done.foldl (fun n q => match k1.part q with | some v => n + v.n | none => n) 0
  if k1.total ≤ left then s1.cmdEnd id k1 else { s1 with cmds := Tab.set s1.cmds id k1 }

/-- A peer that can be reached (R211, R381). -/
def State.peerReach (s : State) (p : Nat) : Bool :=
  s.dom.cfg.getLsbD 0 && decide (p ≤ fld s.dom.cfg.toNat 10 9) && p != fld s.dom.cfg.toNat 1 9 &&
  !s.dom.unreachable.contains p

/-- A credit sent to a peer (R107, R381): request 15, which carries the part's status bits; the part is done when it is answered. -/
def State.creditPeer (s : State) (id : Nat) (k : Cmd) (part p va n : Nat) (st : BitVec 4) : State :=
  ({ s with cmds := Tab.set s.cmds id k }).ask
    { port := 3 + p, addr := va, what := 15, since := s.now, pkt := id, crew := k.crew, entry := part,
      bytes := leBytes n 8 ++ [BitVec.ofNat 8 st.toNat], dtid := s.dtidOf k.asid }

/-- Whether a request of a part to a peer is unanswered: 13 writes, 14 reads, 15 credits. -/
def State.partOut (s : State) (id part : Nat) : Bool :=
  s.outReqs.any (fun r => (r.2.what == 13 || r.2.what == 14 || r.2.what == 15) && r.2.pkt == id && r.2.entry == part)

/-- A part whose bytes are dealt with is credited and done. -/
def State.partCredit (s : State) (id : Nat) (k : Cmd) (part n : Nat) (b : Option BarLoc) (st : BitVec 4) (ts : Ts) : State :=
  match b with
  | none => s.partDone id k part st ts
  | some (.peer p va) =>
    if s.peerReach p then s.creditPeer id { k with pts := ts } part p va n st else s.partDone id k part (st ||| 4) ts
  | some b => match s.credit b n ts with
    | .ok s2 good t => s2.partDone id k part (if good then st else st ||| 4) t
    | .later s2 => s2

/-- A part with a barrier: with a malformed one it writes nothing, with one that is gone it is credited nothing (R327); otherwise it is
moved and then credited (R205), once the object could take the credit. -/
def State.partWith (s : State) (id : Nat) (k : Cmd) (part : Nat) (p : Part1) (b : Option BarLoc) : State :=
  let move (s : State) (b : Option BarLoc) : State := match s.partMove k p with
    | .ok s1 st ts => s1.partCredit id k part p.n b st ts
    | .held s1 pg => s1.engWait { what := 0, id := id, part := part, asid := k.asid, page := pg }
    | .later s1 => s1
  match b with
  | none => move s none
  | some b => match s.barLive b with
    | .later s1 => s1
    | .malformed => s.partDone id k part 4 k.pts
    | .gone => move s none
    | .live => match b, s.credit b p.n k.pts with
      | .peer _ _, _ => move s (some b)
      | _, .later s1 => s1
      | _, .ok _ _ _ => move s (some b)

/-- A part of `cpy.dom` credited and done (R211): at the peer with RB. -/
def State.domFinish (s : State) (id : Nat) (k : Cmd) (part n : Nat) (st : BitVec 4) : State :=
  if k.rb then
    if k.bar ≠ 0 && s.peerReach k.b0 then s.creditPeer id k part k.b0 k.bar n st else s.partDone id k part st k.pts
  else match s.cmdBar k.asid k.gid k.bar k.bsp k.lslot with
    | .none => s.partDone id k part st k.pts
    | .loc s1 b => (match s1.barLive b with
      | .gone => s1.partDone id k part st k.pts
      | _ => s1.partCredit id k part n (some b) st k.pts)
    | .bad s1 => s1.partDone id k part (st ||| 4) k.pts
    | .held s1 pg => s1.engWait { what := 0, id := id, part := part, asid := k.asid, page := pg }
    | .later s1 => s1

/-- A part of `cpy.dom` (R211): a request to the peer, whose answer completes the part; 13 writes, 14 reads. A poisoned source
travels flagged (R344). -/
def State.domPart (s : State) (id : Nat) (k : Cmd) (part : Nat) (p : Part1) : State :=
  let r : OutReq := { port := 3 + k.b0, addr := 0, what := 13, since := s.now, pkt := id, crew := k.crew, entry := part, bytes := [],
                      dtid := s.dtidOf k.asid }
  if s.partOut id part then s
  else if k.failed || !s.peerReach k.b0 then s.domFinish id k part p.n 4
  else if k.dir then s.ask { r with addr := p.src, what := 14, bytes := leBytes p.n 8 }
  else match s.engRead k false p.src p.n with
    | .ok s1 bs => s1.ask { r with addr := p.dst, bytes := bs }
    | .later s1 => s1
    | .held s1 pg => s1.engWait { what := 0, id := id, part := part, asid := k.asid, page := pg }
    | .fail s1 => s1.domFinish id k part p.n 4
    | .poison s1 => (s1.ask { r with addr := p.dst, bytes := List.replicate p.n 0, poison := true }).linkRecord 2 (2 ^ 51 + k.b0 * 2 ^ 40 + p.dst % 2 ^ 40) 9

/-- A part of a killed launch that waited on a held page (R339): it is dropped. -/
def State.partDropped (s : State) (id part : Nat) : Bool :=
  s.engWaits.any (fun w => w.what == 4 && w.id == id && w.part == part)

/-- COPY_PART_COMPLETE (R205): disabled for a part that the command has not, has completed, or that waits on a held
page. -/
def execCopyPartComplete (cmd part : Nat) (s : State) : Host.Outcome State Fault Refusal :=
  match Tab.get s.cmds cmd with
  | none => .next s
  | some k => match k.part part with
    | none => .next s
    | some p =>
      if k.op = 3 || k.done.contains part || s.partOut cmd part || s.engWaits.any (fun w => w.what == 0 && w.id == cmd && w.part == part) then .next s
      else if s.partDropped cmd part then .next (s.partDone cmd k part 0 k.pts)
      else if k.op = 7 then .next (s.domPart cmd k part p)
      else match s.cmdBar k.asid k.gid k.bar k.bsp k.lslot with
        | .none => .next (s.partWith cmd k part p none)
        | .loc s1 b => .next (s1.partWith cmd k part p (some b))
        | .bad s1 => .next (s1.partDone cmd k part 4 k.pts)
        | .held s1 pg => .next (s1.engWait { what := 0, id := cmd, part := part, asid := k.asid, page := pg })
        | .later s1 => .next s1

/-! ## MCAST_LANDING (R207, R327) -/

/-- The gang that a multicast target names: its own name, if it is resident or saved. -/
def State.mcTarget (s : State) (k : Cmd) (t : Nat) : Option Nat :=
  let r := mcRect k.b0
  let own := (k.b1 % 65536, k.b1 / 65536)
  let x := if r.clu then own.1 / 2 * 2 + t % 2 else t % 65536
  let y := if r.clu then own.2 / 2 * 2 + t / 2 else t / 65536
  match s.gangs.find? (fun g => g.2.lslot == k.lslot && !g.2.cont && g.2.gx == x && g.2.gy == y) with
  | some g => some g.1
  | none => (s.blocks.findSome? (fun b =>
      if b.2.lslot == k.lslot && b.2.cont.isNone && (b.2.kind == 1 || b.2.kind == 2) && b.2.gx == x && b.2.gy == y then b.2.gid
      else none))

/-- A share's part recorded; the command ends with its last byte. -/
def State.landDone (s : State) (id : Nat) (k : Cmd) (t part : Nat) (st : BitVec 4) : State :=
  let k1 := { k with landed := k.landed ++ [(t, part)] }
  let s1 := s.cmdStatus k st
  let got : Nat := k1.landed.foldl (fun n q => match k1.part q.2 with | some v => n + v.n | none => n) 0
  if k1.total ≤ got then s1.cmdEnd id k1 else { s1 with cmds := Tab.set s1.cmds id k1 }

/-- A part of a target's share arrives. LANDMISS is bit 0. -/
def State.land (s : State) (id : Nat) (k : Cmd) (t part : Nat) (p : Part1) : State :=
  match s.mcTarget k t with
  | none => s.landDone id k t part 1
  | some gid =>
    let k1 := { k with gid := gid }
    let b := BarLoc.scr gid k.bar
    let move (s : State) (credits : Bool) : State := match s.partMove k1 p with
      | .held s1 pg => s1.engWait { what := 0, id := id, part := part, asid := k.asid, page := pg }
      | .later s1 => s1
      | .ok s1 st _ =>
        if !credits then s1.landDone id k t part st
        else match s1.credit b p.n k.pts with
          | .ok s2 good _ => s2.landDone id k t part (if good then st else st ||| 4)
          | .later s2 => s2
    if k.bar = 0 then move s false
    else match s.barLive b with
      | .later s1 => s1
      | .malformed => s.landDone id k t part 4
      | .gone => move s false
      | .live => match s.credit b p.n k.pts with
        | .later s1 => s1
        | .ok _ _ _ => move s true

def execMcastLanding (cmd target part : Nat) (s : State) : Host.Outcome State Fault Refusal :=
  match Tab.get s.cmds cmd with
  | none => .next s
  | some k => match k.part part with
    | none => .next s
    | some p =>
      if k.op != 3 || !(mcRect k.b0).has (s.launchSides k.lslot).1 (s.launchSides k.lslot).2 target || k.landed.contains (target, part)
          || s.engWaits.any (fun w => w.what == 0 && w.id == cmd && w.part == part) then .next s
      else if s.partDropped cmd part then .next (s.landDone cmd k target part 0)
      else .next (s.land cmd k target part p)

end Sys2Proof.Machine
end

