-- ==== Sys2Proof/Machine/Switch.lean ====
section
/-! DEFINITION. Switch reductions (R212, R213, R382): the rounds of a group, their completion and their abort. -/

namespace Sys2Proof.Machine

def SwrGroup.empty : SwrGroup := { rounds := [], next := [] }
def State.swrGroup (s : State) (g : Nat) : SwrGroup := Tab.getD s.swr g SwrGroup.empty
def State.setSwr (s : State) (g : Nat) (v : SwrGroup) : State := { s with swr := Tab.set s.swr g v }

/-- The element type of a switch reduction. -/
def swrTy (n : Nat) : Ty := (Ty.ofCode n).getD .i32

/-- The contributions in rank order. -/
def SwrRound.byRank (r : SwrRound) : List SwrContribution :=
  (List.range 432).filterMap (fun k => r.got.find? (fun c => c.rank == k))

/-- The result of a round (R212); bytes past the last whole element are open (log entry 4). -/
def swrResult (ctr : Nat) (cs : List SwrContribution) : List Byte :=
  match cs with
  | [] => []
  | c :: rest =>
    let t := swrTy c.ty
    let n := t.bits / 8
    let whole := (List.range (c.len / n)).flatMap (fun j =>
      let el (x : SwrContribution) : Nat := leVal ((x.bytes.drop (j * n)).take n)
      leBytes (rest.foldl (fun a x => atomNew c.op t a (el x)) (el c)) n)
    whole ++ (List.range (c.len % n)).map (fun j => Config.swrTail ctr j)

/-- The status record (R213). -/
def swrRecord (r : SwrRound) (lenMis : Bool) : List Byte :=
  leBytes (r.got.foldl (fun a c => Nat.lor a (2 ^ c.rank)) 0 + r.num % 2 ^ 32 * 2 ^ 448 + r.aborted.toNat * 2 ^ 480
    + lenMis.toNat * 2 ^ 481) 64

/-- Whether two contributions disagree (R382). -/
def SwrContribution.mismatch (a b : SwrContribution) : Bool :=
  a.size != b.size || a.ty != b.ty || a.op != b.op || a.len != b.len

def SwrRound.lenMis (r : SwrRound) : Bool :=
  match r.got with
  | [] => false
  | c :: rest => rest.any (fun d => c.mismatch d)

def SwrRound.full (r : SwrRound) : Bool :=
  match r.got with
  | [] => false
  | c :: _ => (List.range c.size).all (fun k => r.got.any (fun d => d.rank == k))

/-- A switch reduction ends with its status bits; with TRAP an aborted one leaves its record for `batch.wait` (R212). -/
def State.swrClose (s : State) (id : Nat) (k : Cmd) (st : BitVec 4) : State :=
  let s1 := s.cmdStatus k st
  let s2 := if st.getLsbD 3 && k.xb then s1.updBatches k.crew (fun c => match k.batch with
      | none => { c with openTrap := some k.b1 }
      | some n => { c with batches := c.batches.map (fun b => if b.num = n then { b with trapRec := some k.b1 } else b) })
    else s1
  s2.cmdEnd id k

/-- Its full length credited, and its end. -/
def State.swrCredit (s : State) (id : Nat) (k : Cmd) (st : BitVec 4) : State :=
  match s.cmdBar k.asid k.gid k.bar k.bsp k.lslot with
  | .none => s.swrClose id k st
  | .bad s1 => s1.swrClose id k (st ||| 4)
  | .held s1 pg => s1.engWait { what := 0, id := id, part := 0, asid := k.asid, page := pg }
  | .later s1 => s1
  | .loc s1 (.peer p va) =>
    if s1.peerReach p then s1.creditPeer id k 0 p va k.len st else s1.swrClose id k (st ||| 4)
  | .loc s1 b => match s1.barLive b with
    | .gone => s1.swrClose id k st
    | .later s2 => s2
    | _ => match s1.credit b k.len k.pts with
      | .ok s2 good ts => s2.swrClose id { k with pts := ts } (if good then st else st ||| 4)
      | .later s2 => s2

/-- A command's part of a round's end: the status record, the result unless the round was aborted, the credit, and the
command's end (R205, R212). DOMAIN is bit 3. It waits on a held page, and is then tried again. -/
def State.swrDeliver (s : State) (id : Nat) (k : Cmd) (r : SwrRound) : State :=
  let wait (s : State) (pg : Nat) : State := s.engWait { what := 0, id := id, part := 0, asid := k.asid, page := pg }
  let rec1 : EngIO × Ts := if k.b1 = 0 then (.ok s [], k.pts) else
    match s.engRange k.asid k.b1 64 1 k.lslot with
    | .ok s1 ps => (match s1.piecesWrite ps (swrRecord r r.lenMis) k.pts (s1.cmdFinder k k.b1) with
      | .ok s2 _ ts _ => (.ok s2 [], Ts.smax k.pts ts)
      | .later s2 => (.later s2, k.pts))
    | .fail s1 => (.fail s1, k.pts)
    | .held s1 pg => (.held s1 pg, k.pts)
    | .later s1 => (.later s1, k.pts)
  if s.partOut id 0 then s
  else match EngIO.ends rec1 0 with
  | .held s1 pg => wait s1 pg
  | .later s1 => s1
  | .ok s1 st1 ts1 =>
    let k1 := { k with pts := ts1 }
    match EngIO.ends (if r.aborted then (.ok s1 [], ts1) else s1.engWrite k1 k.dst (swrResult id r.byRank)) (if r.aborted then 8 else 0) with
    | .held s2 pg => wait s2 pg
    | .later s2 => s2
    | .ok s2 st2 ts2 => s2.swrCredit id { k with pts := ts2 } (st1 ||| st2)

/-- A round replaced in its group. -/
def SwrGroup.setRound (g : SwrGroup) (r : SwrRound) : SwrGroup :=
  if g.rounds.any (fun x => x.num == r.num) then { g with rounds := g.rounds.map (fun x => if x.num = r.num then r else x) }
  else { g with rounds := g.rounds ++ [r] }

/-- A round ends: aborted, every rank's counter passes it; each of this MZ-40's commands in it is served (R382). -/
def State.swrEnd (s : State) (grp : Nat) (r : SwrRound) (abort : Bool) : State :=
  let r1 := { r with ended := true, aborted := abort }
  let g := s.swrGroup grp
  let size := match r.got with | c :: _ => c.size | [] => 0
  let next := if abort then (List.range size).foldl (fun t k =>
      if Tab.getD t k 0 ≤ r.num then Tab.set t k (r.num + 1) else t) g.next else g.next
  let s1 := s.setSwr grp { g.setRound r1 with next := next }
  r1.got.foldl (fun s c => match c.cmd with
    | some id => (match Tab.get s.cmds id with
      | some k => s.swrDeliver id k r1
      | none => s)
    | none => s) s1

/-- A contribution reaches the switch (R212, R382). -/
def State.swrTake (s : State) (grp num : Nat) (c : SwrContribution) : State :=
  let g := s.swrGroup grp
  match g.rounds.find? (fun r => r.num == num) with
  | some r =>
    if r.ended then (match c.cmd with
      | some id => (match Tab.get s.cmds id with
        | some k => s.swrDeliver id k r
        | none => s)
      | none => s)
    else
      let r1 := { r with got := r.got ++ [c] }
      let s1 := s.setSwr grp (g.setRound r1)
      if r1.lenMis then s1.swrEnd grp r1 true else if r1.full then s1.swrEnd grp r1 false else s1
  | none =>
    let r1 : SwrRound := { num := num, start := s.now, got := [c], ended := false, aborted := false }
    s.setSwr grp (g.setRound r1)

/-- This MZ-40's command: its bytes read and contributed, once; after the round's end, its delivery tried again. -/
def State.swrOwn (s : State) (grp id : Nat) (k : Cmd) : State :=
  let num := match k.landed with | r :: _ => r.1 | [] => 0
  let g := s.swrGroup grp
  if s.engWaits.any (fun w => w.what == 0 && w.id == id) || s.partOut id 0 then s
  else if s.engWaits.any (fun w => w.what == 4 && w.id == id) then s.cmdEnd id k
  else match g.rounds.find? (fun r => r.got.any (fun c => c.cmd == some id)) with
  | some r => if r.ended then s.swrDeliver id k r else s
  | none =>
    let rank := fld k.b0 16 9
    if k.failed then s.swrCredit id k 4
    else match s.engRead k false k.src k.len with
    | .later s1 => s1
    | .held s1 pg => s1.engWait { what := 0, id := id, part := 0, asid := k.asid, page := pg }
    | .fail s1 => s1.swrCredit id k 4
    | .poison s1 => (match EngIO.ends (s1.engPoison k k.dst k.len) 2 with
      | .held s2 pg => s2.engWait { what := 0, id := id, part := 0, asid := k.asid, page := pg }
      | .later s2 => s2
      | .ok s2 st ts => s2.swrCredit id { k with pts := ts } st)
    | .ok s1 bs => s1.swrTake grp num { rank := rank, size := fld k.b0 25 9 + 1, ty := k.ty.code, op := k.aop, len := k.len,
                                        cmd := some id, bytes := bs }

/-- SWR_ROUND (R212): a contribution, or the overflow of the switch's buffer, which aborts the oldest open round; disabled for a
command that is not a switch reduction of the group. -/
def execSwrRound (group : Nat) (c : SwrIn) (s : State) : Host.Outcome State Fault Refusal :=
  match c with
  | .overflow => (match (s.swrGroup group).rounds.find? (fun r => !r.ended) with
    | some r => .next (s.swrEnd group r true)
    | none => .next s)
  | .own id => (match Tab.get s.cmds id with
    | some k => if k.op = 8 && fld k.b0 0 16 = group then .next (s.swrOwn group id k) else .next s
    | none => .next s)
  | .peer rank size ty op len bytes =>
    let g := s.swrGroup group
    let num := Tab.getD g.next rank 0
    let s1 := s.setSwr group { g with next := Tab.set g.next rank (num + 1) }
    .next (s1.swrTake group num { rank := rank, size := size, ty := ty.toNat, op := op.toNat, len := len, cmd := none,
                                  bytes := bytes })

/-- SWR_ROUND_TIMEOUT (R212): the oldest open round whose first arrival was 20 µs ago is aborted. -/
def execSwrRoundTimeout (group : Nat) (s : State) : Host.Outcome State Fault Refusal :=
  match (s.swrGroup group).rounds.find? (fun r => !r.ended && decide (r.start + usCycles 20 ≤ s.now)) with
  | some r => .next (s.swrEnd group r true)
  | none => .next s

end Sys2Proof.Machine
end

