-- ==== Sys2Proof/Machine/Replies.lean ====
section
/-! DEFINITION. Words that wait for replies to their requests: what the answers write, and when the word completes
(R185, R191, R193, R197, R199, R215, R218). -/

namespace Sys2Proof.Machine

/-- The requests of a split's word. -/
def Crew.reqsOf (c : Crew) (e : Nat) : List LaneReq := c.reqs.filter (fun r => r.entry == e)
def Crew.dropReqs (c : Crew) (e : Nat) : Crew := { c with reqs := c.reqs.filter (fun r => r.entry != e) }

/-- The first answer of a split's word. -/
def Crew.answer (c : Crew) (e : Nat) : Nat :=
  match (c.reqsOf e).findSome? (·.answer) with
  | some (v :: _) => v
  | _ => 0

/-- The answers by lane. -/
def Crew.laneAnswers (c : Crew) (e : Nat) : List (Nat × Nat) :=
  (c.reqsOf e).flatMap (fun r => r.lanes.zip (r.answer.getD []))

/-- Every request of the word has its answer. -/
def Crew.answered (c : Crew) (e : Nat) : Bool := (c.reqsOf e).all (fun r => r.answer.isSome)

/-- An atomic word's old values, or its trap: at a place that has failed since it issued, at poisoned sectors (R76, R191, R369,
R380). -/
def atomReply (x : Ctx) (c : Crew) (s : State) (o : Mem) (a : AtomOp) : Act :=
  let bad := (c.reqsOf x.e).flatMap (fun r => if r.poison then r.lanes else [])
  if bad.isEmpty then pendNow x s (a.result c x.act (c.laneAnswers x.e))
  else
    let eas := laneEas o c x.act
    match bad.findSome? (fun l => match s.checkLane (.core c.core) (keyGid x.key) c.walks o.space 2 (eaOf eas l) (a.ty.bits / 8) with
      | .bad cls fl aux => some (cls, fl, aux)
      | _ => none) with
    | some (cls, fl, aux) => .trap s (laneTrap cls x.e (bad.map (fun l => (l, eaOf eas l, fl))) aux)
    | none => .trap s (poisonTrap x.e (bad.map (fun l => (l, eaOf eas l))))

/-- A request refused by a peer: MEM with PERM (R381). -/
def refusedTrap (x : Ctx) (ea : Nat) : Trap := laneTrap 1 x.e [(x.act.lanes.getD 0 0, ea, dPerm)] 0

/-- Whether the peer has refused a split's request: an answer without a value. -/
def Crew.refused (c : Crew) (e : Nat) : Bool := (c.reqsOf e).any (fun r => r.answer == some [])

/-- A one-value answer of a peer; its refusal; or poison at the place (R76). -/
def peerAnswer (x : Ctx) (c : Crew) (s : State) (ea : Nat) (f : Nat → Act) : Act :=
  if c.refused x.e then .trap s (refusedTrap x ea)
  else if (c.reqsOf x.e).any (·.poison) then .trap s (barPoison x ea)
  else f (c.answer x.e)

/-- The acquire of an answer from a peer's object: past every clock of this MZ-40, which the peer's releases into its memory have
raised (log entry 66). -/
def State.peerAcquire (s : State) (key : Nat) : State := s.updCrew key (fun c => { c with pts := Ts.smax c.pts s.clockAll })

/-- The answer of a peer about one of its objects (R107 to R111): bit 0 the parity or the report, bit 1 SYNC, bit 2 that the arrival
must wait; then the peer and the address asked (log entry 66). -/
def barAnswer (x : Ctx) (c : Crew) (s : State) (ea : Nat) (f : Nat → Act) : Act :=
  peerAnswer x c s ea (fun v =>
    if v / 2 % 2 = 1 then .trap s (syncTrap x ea)
    else if v / 4 % 2 = 1 then
      match (c.reqsOf x.e).findSome? (·.answer) with
      | some (_ :: p :: va :: _) => .wait s (.arrive (.peer p va))
      | _ => .done s
    else f (v % 2))

/-- The status of a put written, and class LATE at the boundary after it with LT = 1 (R218). -/
def putDone (x : Ctx) (c : Crew) (s : State) (lt : Bool) (d : Reg) (st : Nat) : Act :=
  let s1 := s.updCrew x.key (fun c => c.addPend x.e [sWrite d.toNat st])
  if lt && st = 1 then .post s1 (mkTrap 13 x.e x.act 0 (x.pc c)) else .done s1

/-- The counts of a word whose data has reached its homes (R227): the last request of the word holds the five sectors of the record,
then word and count by turns. -/
def countsNow (x : Ctx) (c : Crew) (s : State) : Act :=
  match (c.reqsOf x.e).getLast? with
  | some r =>
    let w := r.lanes.drop 5
    .done (sendCounts x c s (r.lanes.take 5) ((List.range (w.length / 2)).map (fun i => (w.getD (2 * i) 0, w.getD (2 * i + 1) 0))))
  | none => .done s

/-- What the answers of a waiting word do. -/
def replyAct (x : Ctx) (c : Crew) (s : State) (i : Instr) : Act :=
  match i with
  | .atom o op => atomReply x c s o { op := op.toNat, cas := false, ret := true, ty := o.ty, d := o.d, scope := o.scope, order := o.order }
  | .acas o => atomReply x c s o { op := 6, cas := true, ret := true, ty := o.ty, d := o.d, scope := o.scope, order := o.order }
  | .tsget _ _ d a => peerAnswer x c s (c.rs a.toNat) (fun v => pendNow x s [sWrite d.toNat (v % 2 ^ 32)])
  | .barArr o => barAnswer x c s (c.rs o.a.toNat) (fun v => pendNow x s [sWrite o.d.toNat v])
  | .barTry o => barAnswer x c s (c.rs o.a.toNat) (fun v =>
      pendNow x (if v = 1 then s.peerAcquire x.key else s) [pWrite o.d.toNat x.act (fun _ => v == 1)])
  | .barInit o | .barExp o => barAnswer x c s (c.rs o.a.toNat) (fun _ => .done s)
  | .barWait o => barAnswer x c s (c.rs o.a.toNat) (fun _ => .done (s.peerAcquire x.key))
  | .tst _ _ _ _ _ _ _ _ => countsNow x c s
  | .ctrReadx o | .ctrDrain o => pendNow x s [sWrite o.d.toNat (c.answer x.e)]
  | .cmbPut _ lt d a _ _ =>
    peerAnswer x c s (c.rs a.toNat) (fun v => putDone x c s lt d (v % 256))
  | _ => .done s

/-- A word whose every request is answered completes (R185); a trapped crew's too (R309). -/
def State.tryReply (s : State) (key e : Nat) : State :=
  match s.crew key with
  | none => s
  | some c =>
    let sp := c.split e
    match sp.word with
    | some i =>
      let asks := match sp.wait with
        | .reply => true
        | .bar (.peer _ _) _ => !(c.reqsOf e).isEmpty
        | _ => false
      if asks && c.answered e then
        let x := s.waitCtx key e c
        match replyAct x c s i with
        | .trap t tr =>
          let t1 := t.updCrew key (fun c => c.dropReqs e)
          (t1.updCrew key (fun c => c.updSplit e (fun sp => { sp with wait := .none, word := none }))).takeTrap key tr
        | a => (s.resumeWord key e a).updCrew key (fun c => c.dropReqs e)
      else s
    | none => s

/-- An answer arrives for a request; its word completes with the last one. -/
def State.replyTo (s : State) (key pkt : Nat) (vals : List Nat) (poison : Bool) : State :=
  match s.crew key with
  | none => s
  | some c =>
    match c.reqs.find? (fun r => r.pkt == pkt) with
    | none => s
    | some r =>
      let c1 := { c with reqs := c.reqs.map (fun q => if q.pkt = pkt then { q with answer := some vals, poison := poison } else q) }
      (s.setCrew key c1).tryReply key r.entry

end Sys2Proof.Machine
end

