-- ==== Sys2Proof/Machine/Counters.lean ====
section
/-! DEFINITION. Split counters (R121 to R124, R215), opcodes 0xA0 to 0xA6, and the events CTR_REFILL, CTR_RECALL and
CTR_RECALL_REPLY at a counter's home. -/

namespace Sys2Proof.Machine

/-! ## The home of a counter (R123) -/

/-- What a request still needs at the home: n less the allowance the home knows. -/
def CtrReq.need (q : CtrReq) : Nat := (q.n - q.a).toNat

/-- The home becomes IDLE after a request. -/
def CtrHome.idle (h : CtrHome) : CtrHome := { h with st := 0, cur := none, awaiting := [] }

/-- A refill answered: a grant lowers HOME; none is FAIL. A core out of service receives nothing (R370). -/
def State.ctrAnswer (s : State) (o : Nat) (q : CtrReq) (g : Option Nat) : State :=
  let h := (s.ctrHome o).idle
  if (s.core q.core).oos then s.setCtrHome o h
  else
    let s1 := match g with
      | some g => s.ctrUpd o (fun r => { r with home := r.home - g })
      | none => s
    s1.setCtrHome o { h with grants := h.grants ++ [(q.core, g)] }

/-- The operation of a request that waited for a full recall (R122): 1 `readx`, 2 `drain`, 3 `init`. -/
def CtrReq.apply (q : CtrReq) (r : CtrRec) : CtrRec :=
  match q.op with
  | 1 => { r with frozen := false }
  | 2 => { r with home := 0, frozen := false }
  | _ => { home := q.b0, chunk := q.b1, lost := 0, valid := true, ovf := false, frozen := false, resv := 0 }

/-- A full recall is complete: the operation is performed and its crew answered. -/
def State.ctrExact (s : State) (o : Nat) (q : CtrReq) : State :=
  let r := s.ctrGet o
  let p := match s.crew q.crew with | some c => c.pts | none => (s.home (s.servDie (o / 128))).clock
  let w := s.ctrPut o (q.apply r) p
  let s1 := w.1.setCtrHome o (w.1.ctrHome o).idle
  (s1.updCrew q.crew (fun c => { c with pts := Ts.smax c.pts w.2 })).replyTo q.crew q.n [r.home] false

/-- Every reply of a round is in: the table of R123. `n` bounds the rounds. -/
def State.ctrEval (s : State) (o : Nat) : Nat → State
  | 0 => s
  | n + 1 =>
    let h := s.ctrHome o
    match h.cur with
    | none => s
    | some q =>
      if !h.awaiting.isEmpty || !h.replies.isEmpty then s
      else if h.st = 3 then s.ctrExact o q
      else
        let r := s.ctrGet o
        let want := max r.chunk q.need
        if q.need ≤ r.home then s.ctrAnswer o q (some (min r.home want))
        else if h.st = 1 then
          let rest := ((s.ctrHolders o).map Prod.fst).filter (· != q.core)
          (s.setCtrHome o { h with st := 2, awaiting := rest }).ctrEval o n
        else s.ctrAnswer o q none

/-- A request begins to be served (R123). -/
def State.ctrBegin (s : State) (o : Nat) (q : CtrReq) : State :=
  let h := s.ctrHome o
  let r := s.ctrGet o
  let holders := (s.ctrHolders o).map Prod.fst
  if q.op = 0 then
    if max r.chunk q.need ≤ r.home then s.ctrAnswer o q (some (max r.chunk q.need))
    else (s.setCtrHome o { h with st := 1, cur := some q, awaiting := holders.filter (· != q.core) }).ctrEval o 3
  else
    let s1 := s.ctrUpd o (fun r => { r with frozen := true })
    let who := if q.op = 3 && !r.valid then [] else holders
    (s1.setCtrHome o { s1.ctrHome o with st := 3, cur := some q, awaiting := who }).ctrEval o 3

/-- The next queued request that is no refill begins once the home is IDLE; a refill begins with CTR_REFILL. -/
def State.ctrPump (s : State) (o : Nat) : Nat → State
  | 0 => s
  | n + 1 =>
    let h := s.ctrHome o
    match h.queue with
    | q :: rest =>
      if h.st = 0 && q.op ≠ 0 then ((s.setCtrHome o { h with queue := rest }).ctrBegin o q).ctrPump o n else s
    | [] => s

/-- A request arrives at the home. -/
def State.ctrEnqueue (s : State) (o : Nat) (q : CtrReq) : State :=
  let h := s.ctrHome o
  let s1 := s.setCtrHome o { h with queue := h.queue ++ [q] }
  s1.ctrPump o (h.queue.length + 1)

/-- CTR_REFILL: disabled unless the home is IDLE and a refill is the first request. -/
def execCtrRefill (o : Nat) (s : State) : Host.Outcome State Fault Refusal :=
  let h := s.ctrHome o
  match h.queue with
  | q :: rest =>
    if h.st = 0 && q.op = 0 then
      let s1 := (s.setCtrHome o { h with queue := rest }).ctrBegin o q
      .next (s1.ctrPump o (rest.length + 1))
    else .next s
  | [] => .next s

/-- CTR_RECALL: a recall reaches the holder whose turn it is; disabled for any other core, and while a grant is on its
way to the holder. -/
def execCtrRecall (o core : Nat) (s : State) : Host.Outcome State Fault Refusal :=
  let h := s.ctrHome o
  match h.awaiting with
  | c :: rest =>
    if c = core && !h.grants.any (fun g => g.1 == core) then
      let r := (s.setCtrHome o { h with awaiting := rest }).ctrRecallAt o core (h.st == 1)
      let h1 := r.1.ctrHome o
      .next (r.1.setCtrHome o { h1 with replies := h1.replies ++ [(core, r.2)] })
    else .next s
  | [] => .next s

/-- CTR_RECALL_REPLY: what was recalled adds to HOME; with the last reply the round ends. -/
def execCtrRecallReply (o core : Nat) (s : State) : Host.Outcome State Fault Refusal :=
  let h := s.ctrHome o
  match h.replies.find? (fun r => r.1 == core) with
  | none => .next s
  | some r =>
    let s1 := (s.setCtrHome o { h with replies := h.replies.erase r }).ctrUpd o (fun c => c.addHome r.2)
    .next ((s1.ctrEval o 3).ctrPump o (h.queue.length + 1))

/-! ## The counters of a core -/

/-- An allowance added to at a core, which stops at 2^48 − 1 with OVF (R121). -/
def State.ctrAllow (s : State) (core o : Nat) (f : Nat → Nat) : State :=
  let s1 := s.ctrUse core o (fun e => { e with allow := min ctrMax (f e.allow) })
  match (s.core core).ctr? o with
  | some e => if ctrMax < f e.allow then s1.ctrUpd o (fun r => { r with ovf := true }) else s1
  | none => s1

/-- The allowance of a core for a counter returned to HOME, and the entry dropped (R121, R124). -/
def State.ctrReturn (s : State) (core o : Nat) : State :=
  match (s.core core).ctr? o with
  | none => s
  | some e =>
    let s1 := s.updCore core (fun k => { k with ctrs := k.ctrs.filter (fun x => x.addr != o) })
    if e.allow = 0 then s1 else s1.ctrUpd o (fun r => r.addHome e.allow)

/-- Every allowance of a core returned: the core passes to another partition (R124). -/
def State.ctrReturnAll (s : State) (core : Nat) : State :=
  (s.core core).ctrs.foldl (fun s e => s.ctrReturn core e.addr) s

/-- Room for a counter at a core: a 65th evicts the one used least recently (R121); false when every one awaits a
grant. -/
def State.ctrRoom (s : State) (core o : Nat) : State × Bool :=
  let k := s.core core
  if (k.ctr? o).isSome then (s, true)
  else
    let add (s : State) : State :=
      s.updCore core (fun k => { k with ctrs := { addr := o, allow := 0, refill := none, queue := [] } :: k.ctrs })
    if k.ctrs.length < 64 then (add s, true)
    else match k.ctrs.reverse.find? (fun e => e.refill.isNone && e.queue.isEmpty) with
      | some e => (add (s.ctrReturn core e.addr), true)
      | none => (s, false)

/-- A refill sent to the home (R123). -/
def State.ctrRefill (s : State) (core o n id : Nat) : State :=
  let a := match (s.core core).ctr? o with | some e => e.allow | none => 0
  let s1 := s.ctrUse core o (fun e => { e with refill := some (n, id) })
  s1.ctrEnqueue o { core := core, op := 0, n := n, a := a, crew := 0, entry := 0, b0 := 0, b1 := 0 }

/-- What a take does at once (R123). -/
inductive CtrTake where
  | took (s : State)
  | waits (s : State)
  | full (s : State)
  deriving DecidableEq, Repr

/-- A take of n by a word named `id`. -/
def State.ctrTake (s : State) (core o n id : Nat) : CtrTake :=
  if n = 0 then .took (s.ctrUse core o (fun e => e))
  else
    let r := s.ctrRoom core o
    if !r.2 then .full r.1
    else match (r.1.core core).ctr? o with
    | none => .full r.1
    | some e =>
      if e.refill.isSome then .waits (r.1.ctrUse core o (fun e => { e with queue := e.queue ++ [(id, n)] }))
      else if n ≤ e.allow then .took (r.1.ctrUse core o (fun e => { e with allow := e.allow - n }))
      else .waits (r.1.ctrRefill core o n id)

/-- A give of n (R122). -/
def State.ctrGive (s : State) (core o n : Nat) : State :=
  if ((s.core core).ctr? o).isSome then s.ctrAllow core o (· + n) else s.ctrUpd o (fun r => r.addHome n)

/-! ## The words (R215) -/

/-- BOUNDS at a record or descriptor (R122, R215 to R219): the lane of a per-crew word, and the address. -/
def boundsTrap (x : Ctx) (ea : Nat) : Trap := laneTrap 6 x.e [(x.act.lanes.getD 0 0, ea, dWrite)] 0

/-- A record in this MZ-40's memory that a word names: its offset in device memory. One that lies in a peer's memory is BOUNDS, so
no line of it is asked for. -/
def recordAt (x : Ctx) (c : Crew) (s : State) (ea align n : Nat) (k : Nat → Act) : Act :=
  if ea % align ≠ 0 then .trap s (boundsTrap x ea)
  else checked x c s .gl 2 n [(x.act.lanes.getD 0 0, ea)] (fun ls => match ls with
    | (_, .phys pa) :: _ => (match s.target pa with
      | .dev o => k o
      | _ => .trap s (boundsTrap x ea))
    | _ => .trap s (boundsTrap x ea)) false false

/-- The crew's own requests and fences that a relaxed device-scope access of a range must follow (R52, R122, R194). -/
def Crew.mustWait (c : Crew) (act : Mask) (o n : Nat) : Bool :=
  c.fenced act || c.acks.any (fun a => (linesOf o n).contains a.line)

/-- INTEGRITY at a poisoned record (R76). -/
def recordPoison (x : Ctx) (ea : Nat) : Trap := laneTrap 8 x.e [(x.act.lanes.getD 0 0, ea / 32 * 32, dWrite)] 0

/-- How a counter word meets its record: it writes every field, reads it, changes it at the home, or may be served by the core's
own allowance (R122, R124). -/
inductive CtrUse where
  | init
  | read
  | change
  | local (now : CtrEntry → Bool)

/-- Whether a word is served by the core's own allowance, which waits for no home (R124). -/
def CtrUse.here (u : CtrUse) (s : State) (core o : Nat) : Bool :=
  match u with
  | .local now => (match (s.core core).ctr? o with
    | some e => e.refill.isNone && now e
    | none => false)
  | _ => false

/-- A counter word on a record (R122): every word but `ctr.init` needs a good record; a use of the counter by the core. -/
def ctrWord (x : Ctx) (c : Crew) (s : State) (a : Reg) (u : CtrUse) (k : State → Nat → Act) : Act :=
  let ea := c.rs a.toNat
  recordAt x c s ea 32 1 (fun o =>
    if c.mustWait x.act o 32 then .blocked s
    else
      let r := if u.here s c.core o then (s, true) else s.clearLine (o / 128) (match u with | .read => false | _ => true) false none
      if !r.2 then .blocked r.1
      else
        let init := match u with | .init => true | _ => false
        let v := r.1.checkRange o 32 { r.1.finder (keyGid x.key) 8 with va := ea }
        if v.2 && !init then .trap v.1 (recordPoison x ea)
        else if !init && !(v.1.ctrGet o).good then .trap v.1 (boundsTrap x ea)
        else k (v.1.ctrUse c.core o (fun e => e)) o)

/-- The registers a counter word reads and writes. -/
def Ctr.use (o : Ctr) (nb : Nat) (dst : List Span1) : WUse :=
  Hdr.use o.h (sReg o.a :: (if nb = 2 then (match o.b with | .s r => [sRegs r 2] | _ => []) else
    if nb = 1 then Opnd.span o.b 1 else [])) dst

/-- A word that asks for a full recall (R122): it waits for its answer unless the home gives it at once. -/
def ctrExactWord (x : Ctx) (c : Crew) (s : State) (i : Instr) (o op b0 b1 : Nat) : Act :=
  let id := s.nextId
  let s1 := ({ s with nextId := id + 1 } : State).updCrew x.key (fun c =>
    { c with reqs := c.reqs ++ [{ pkt := id, entry := x.e, lanes := [x.act.lanes.getD 0 0], answer := none, poison := false }] })
  let s2 := s1.ctrEnqueue o { core := c.core, op := op, n := id, a := 0, crew := x.key, entry := x.e, b0 := b0, b1 := b1 }
  match s2.crew x.key with
  | none => .done s2
  | some c2 =>
    if c2.answered x.e then replyAct x c2 (s2.updCrew x.key (fun c => c.dropReqs x.e)) i else .wait s2 .reply

/-- `ctr.init`. -/
def execCtrInit (o : Ctr) (s : State) : Host.Outcome State Fault Refusal :=
  word (.ctrInit o) o.h (Ctr.use o 2 []) (fun x c s =>
    ctrWord x c s o.a .init (fun s1 r =>
      let q := match o.b with | .s n => n.toNat | _ => 0
      let total := c.rs q
      let chunk := c.rs (q + 1)
      if ctrMax < total || ctrMax < chunk || chunk = 0 then .trap s (boundsTrap x (c.rs o.a.toNat))
      else ctrExactWord x c s1 (.ctrInit o) r 3 total chunk)) s

/-- A word that takes names itself, and forgets the names of its earlier tries (R185). -/
def State.nameTake (s : State) (x : Ctx) : State × Nat :=
  let id := s.nextId
  (({ s with nextId := id + 1 } : State).updCrew x.key (fun c =>
    let c1 := c.dropReqs x.e
    { c1 with reqs := c1.reqs ++ [{ pkt := id, entry := x.e, lanes := [], answer := none, poison := false }] }), id)

/-- `ctr.take`. -/
def execCtrTake (o : Ctr) (s : State) : Host.Outcome State Fault Refusal :=
  word (.ctrTake o) o.h (Ctr.use o 1 [pReg o.d.toNat]) (fun x c s =>
    ctrWord x c s o.a (.local (fun e => decide (c.sval o.b ≤ e.allow))) (fun s1 r =>
      let n := c.sval o.b
      if ctrMax < n then .trap s (boundsTrap x (c.rs o.a.toNat))
      else
        let t := s1.nameTake x
        match t.1.ctrTake c.core r n t.2 with
        | .took s2 => pendNow x (s2.updCrew x.key (fun c => c.dropReqs x.e)) [pWrite o.d.toNat x.act (fun _ => true)]
        | .waits s2 => .wait s2 .ctr
        | .full s2 => .blocked s2)) s

/-- `ctr.give`. -/
def execCtrGive (o : Ctr) (s : State) : Host.Outcome State Fault Refusal :=
  word (.ctrGive o) o.h (Ctr.use o 1 []) (fun x c s =>
    ctrWord x c s o.a (.local (fun e => decide (e.allow + c.sval o.b ≤ ctrMax))) (fun s1 r =>
      let n := c.sval o.b
      if ctrMax < n then .trap s (boundsTrap x (c.rs o.a.toNat)) else .done (s1.ctrGive c.core r n))) s

/-- `ctr.read`. -/
def execCtrRead (o : Ctr) (s : State) : Host.Outcome State Fault Refusal :=
  word (.ctrRead o) o.h (Ctr.use o 0 [sReg o.d]) (fun x c s =>
    ctrWord x c s o.a .read (fun s1 r => pendNow x s1 [sWrite o.d.toNat (s1.ctrGet r).home])) s

/-- `ctr.readx`. -/
def execCtrReadx (o : Ctr) (s : State) : Host.Outcome State Fault Refusal :=
  word (.ctrReadx o) o.h (Ctr.use o 0 [sReg o.d]) (fun x c s =>
    ctrWord x c s o.a .change (fun s1 r => ctrExactWord x c s1 (.ctrReadx o) r 1 0 0)) s

/-- `ctr.cap`. -/
def execCtrCap (o : Ctr) (s : State) : Host.Outcome State Fault Refusal :=
  word (.ctrCap o) o.h (Ctr.use o 1 []) (fun x c s =>
    ctrWord x c s o.a .change (fun s1 r =>
      let n := c.sval o.b
      if ctrMax < n || n = 0 then .trap s (boundsTrap x (c.rs o.a.toNat))
      else
        let w := s1.ctrPut r { s1.ctrGet r with chunk := n } c.pts
        .done (w.1.updCrew x.key (fun c => { c with pts := Ts.smax c.pts w.2 })))) s

/-- `ctr.drain`. -/
def execCtrDrain (o : Ctr) (s : State) : Host.Outcome State Fault Refusal :=
  word (.ctrDrain o) o.h (Ctr.use o 0 [sReg o.d]) (fun x c s =>
    ctrWord x c s o.a .change (fun s1 r => ctrExactWord x c s1 (.ctrDrain o) r 2 0 0)) s

end Sys2Proof.Machine
end

