-- ==== Sys2Proof/Machine/Cistern.lean ====
section
/-! DEFINITION. The cistern (R125 to R129, R216 to R219, R399), opcodes 0xA7 to 0xAB, CMB_TIMEOUT, and the event
CTR_GRANT, which ends the wait of a `ctr.take` or of the take of a `cmb.open`. -/

namespace Sys2Proof.Machine

/-! ## Records and headers (R125, R126) -/

/-- The fields of a cistern record. -/
structure CmbRec where
  slots : Nat
  ctr : Nat
  nslots : Nat
  nch : Nat
  itype : Nat
  otype : Nat
  sat : Bool
  ordered : Bool
  domain : Bool
  timeout : Nat
  next : Nat
  lates : Nat
  resv : Bool
  deriving DecidableEq, Repr

def cmbOf (v : Nat) : CmbRec :=
  { slots := fld v 0 64, ctr := fld v 64 64, nslots := fld v 128 16, nch := fld v 144 6 + 1, itype := fld v 150 2,
    otype := fld v 152 2, sat := fld v 154 1 == 1, ordered := fld v 155 1 == 1, domain := fld v 156 1 == 1,
    timeout := fld v 160 16, next := fld v 192 64, lates := fld v 256 32,
    resv := fld v 157 3 != 0 || fld v 176 16 != 0 || fld v 288 224 != 0 }

/-- A record without an illegal field (R125). -/
def CmbRec.good (r : CmbRec) : Bool :=
  !r.resv && r.timeout != 0 && r.nslots != 0 && r.itype != 3 && r.otype != 3 && r.ctr % 32 == 0 && decide (r.ctr < 2 ^ 57)
    && r.slots % 4096 == 0 && decide (r.slots < 2 ^ 57)

/-- The virtual address of a slot's header, and of the chunk of a position. -/
def CmbRec.slotAt (r : CmbRec) (i : Nat) : Nat := r.slots + i * (256 * (1 + 8 * r.nch))
def CmbRec.chunkAt (r : CmbRec) (i e c : Nat) : Nat := r.slotAt i + 256 + (e * r.nch + c) * 256

/-- The types of R125: 0 f32, 1 bf16, 2 f16. -/
def cmbTy (n : Nat) : Ty := match n with | 0 => .f32 | 1 => .bf16 | _ => .f16
/-- The elements of a row, and the bytes of the output row. -/
def CmbRec.elems (r : CmbRec) : Nat := r.nch * 256 / ((cmbTy r.itype).bits / 8)
def CmbRec.rowBytes (r : CmbRec) : Nat := r.elems * ((cmbTy r.otype).bits / 8)

/-- Slot states. -/
def slotFree : Nat := 0
def slotOpen : Nat := 1
def slotComplete : Nat := 2
def slotHeld : Nat := 3
def slotReleased : Nat := 4

/-- The fields of a header, as a number of 2,048 bits. -/
def hdrState (h : Nat) : Nat := fld h 580 4
def hdrToken (h : Nat) : Nat := fld h 0 64
def hdrNexp (h : Nat) : Nat := fld h 576 3 + 1
def hdrExp (h e : Nat) : Nat := fld h (448 + 16 * e) 16
def hdrGate (h e : Nat) : Nat := fld h (192 + 32 * e) 32
def hdrArrived (h e c : Nat) : Bool := fld h (1536 + 64 * e + c) 1 == 1
/-- Every chunk of a position has arrived. -/
def hdrWhole (h e nch : Nat) : Bool := (List.range nch).all (hdrArrived h e)

/-- A slot's header, at its device offset, read and written by its engine. -/
def State.hdr (s : State) (o : Nat) : Nat := Cells.le s.mem o 256
def State.cmbRec (s : State) (o : Nat) : CmbRec := cmbOf (Cells.le s.mem o 64)
/-- The clock of the home die of an offset, which timestamps the engine's writes (R350). -/
def State.homeClock (s : State) (o : Nat) : Ts := (s.home (s.servDie (o / 128))).clock
def State.hdrPut (s : State) (o h : Nat) (p : Ts) : State × Ts := s.devWrite o (leBytes h 256) p
def State.hdrUpd (s : State) (o : Nat) (f : Nat → Nat) : State := (s.hdrPut o (f (s.hdr o)) (s.homeClock o)).1
def State.recUpd (s : State) (o : Nat) (f : Nat → Nat) : State :=
  (s.devWrite o (leBytes (f (Cells.le s.mem o 64)) 64) (s.homeClock o)).1

/-! ## The combine (R128) -/

/-- A number with its flags. -/
abbrev FAcc := Nat × Flags

def FAcc.step (a : FAcc) (r : FRes) : FAcc := (r.bits, a.2 ||| r.fl)

/-- The weights of the positions that are there, and the flags of their renormalisation. -/
def cmbWeights (h : Nat) (ps : List Nat) : List Nat × Flags :=
  let gates := ps.map (hdrGate h)
  if fld h 579 1 = 1 && fld h 584 8 ≠ 0 then
    let sum := gates.foldl (fun (a : FAcc) g => a.step (fAdd .f32 .rne false (fDec .f32 a.1) (fDec .f32 g))) (0, 0)
    if (fDec .f32 sum.1).isZero then (gates, sum.2)
    else
      let ds := gates.map (fun g => fDiv .f32 .rne false (fDec .f32 g) (fDec .f32 sum.1))
      (ds.map FRes.bits, Flags.any (sum.2 :: ds.map FRes.fl))
  else (gates, 0)

/-- One output element: the input of each position that is there, with its weight. -/
def cmbElem (it ot : Ty) (sat : Bool) (wy : List (Nat × Nat)) : FAcc :=
  let acc := wy.foldl (fun (a : FAcc) x =>
    let y := if it = .f32 then { bits := x.2, fl := 0 } else fDeliver .f32 .rne false (fDec it x.2)
    let r := fFma .f32 .rne false (fDec .f32 x.1) (fDec .f32 y.bits) (fDec .f32 a.1)
    (r.bits, a.2 ||| y.fl ||| r.fl)) (0, 0)
  if ot = .f32 && !sat then acc else acc.step (fDeliver ot .rne sat (fDec .f32 acc.1))

/-- The bytes of a position's row, chunk by chunk from where they were stored. -/
def State.cmbRow (s : State) (k : CmbSlot) (nch e : Nat) : List Byte :=
  (List.range nch).flatMap (fun c => match Tab.get k.chunks (64 * e + c) with
    | some o => Cells.bytes s.mem o 256
    | none => List.replicate 256 0)

/-- The output row of a slot and the flags of its combine. -/
def State.combine (s : State) (k : CmbSlot) (r : CmbRec) (h : Nat) : List Byte × Flags :=
  let ps := (List.range (hdrNexp h)).filter (fun e => fld h (584 + e) 1 == 0)
  let w := cmbWeights h ps
  let it := cmbTy r.itype
  let ot := cmbTy r.otype
  let rows := ps.map (s.cmbRow k r.nch)
  let n := it.bits / 8
  let outs := (List.range r.elems).map (fun j =>
    cmbElem it ot r.sat (w.1.zip (rows.map (fun y => leVal ((y.drop (j * n)).take n)))))
  (outs.flatMap (fun a => leBytes a.1 (ot.bits / 8)), Flags.any (w.2 :: outs.map Prod.snd))

/-- Whether a contributing chunk lies in a poisoned sector, once its check values are verified (R75, R400). -/
def State.cmbPoison (s : State) (k : CmbSlot) (h : Nat) : State × Bool :=
  k.chunks.foldl (fun acc c =>
    if fld h (584 + c.1 / 64) 1 = 0 then
      let v := acc.1.checkRange c.2 256 { Finder.nobody with asid := k.asid, part := acc.1.asidPart k.asid }
      (v.1, acc.2 || v.2)
    else acc) (s, false)

/-! ## Release (R127, R399) -/

/-- What translating DEST or BAR at a release gives. -/
inductive CmbTo where
  | at (s : State) (ps : List (Nat × Nat))
  | fault (s : State)
  | held (s : State) (page : Nat)
  | later (s : State)
  deriving DecidableEq, Repr

/-- A range translated by the engine; memory outside this MZ-40 is a failure. -/
def State.cmbTo (s : State) (asid va n kind : Nat) : CmbTo :=
  match s.engRange asid va n kind with
  | .fail s1 => .fault s1
  | .held s1 p => .held s1 p
  | .later s1 => .later s1
  | .ok s1 ps => if ps.all (fun p => match s1.target p.1 with | .dev _ => true | _ => false) then .at s1 ps else .fault s1

/-- The row written, poisoned when a contributing chunk is (R76), and BAR credited, once the object could take the credit. The
second value tells whether something failed; none that an outside agent or a counter's home must answer first. -/
def State.cmbWrite (s : State) (o : Nat) (k : CmbSlot) (h : Nat) (out : List Byte) (dest bar : CmbTo) : State × Option Bool :=
  let p := s.homeClock o
  let c := s.cmbPoison k h
  let tried : Credited := match bar with
    | .at _ ((pa, _) :: _) => c.1.credit (.dev pa) out.length p
    | _ => .ok c.1 true p
  match tried with
  | .later s1 => (s1, none)
  | .ok _ _ _ =>
    let w : Dir := match dest with
      | .at _ ps =>
        let f := { Finder.nobody with va := fld h 64 64, asid := k.asid, part := s.asidPart k.asid }
        if c.2 then c.1.piecesPoison ps p f else c.1.piecesWrite ps out p f
      | _ => .ok c.1 [] p false
    let f := match dest with | .at _ _ => false | _ => true
    match w with
    | .later s1 => (s1, none)
    | .ok s1 _ ts _ => match bar with
      | .at _ ((pa, _) :: _) => (match s1.credit (.dev pa) out.length ts with
        | .ok s2 good _ => (s2, some (f || !good))
        | .later s2 => (s2, none))
      | _ => (s1, some (f || fld h 128 64 != 0))

/-- A slot that may release does so: COMPLETE, or HELD with its token next. In ORDERED mode the next token's slot follows
it; `n` bounds their number. -/
def State.cmbRelease (s : State) (o : Nat) : Nat → State
  | 0 => s
  | n + 1 =>
    match Tab.get s.cmbSlots o with
    | none => s
    | some k =>
      let r := s.cmbRec k.record
      let h := s.hdr o
      let turn := !r.ordered || hdrToken h == r.next
      if hdrState h = slotComplete && !turn then s.hdrUpd o (fun h => setFld h 580 4 slotHeld)
      else if !turn || !(hdrState h == slotComplete || hdrState h == slotHeld) then s
      else
        let wait (s : State) (pg : Nat) : State := s.engWait { what := 1, id := o, part := 0, asid := k.asid, page := pg }
        match s.cmbTo k.asid (fld h 64 64) r.rowBytes 1 with
        | .held s1 pg => wait s1 pg
        | .later s1 => s1
        | dest =>
          let s1 := match dest with | .at t _ | .fault t => t | _ => s
          let bar : CmbTo := if fld h 128 64 = 0 then .fault s1
            else if fld h 128 64 % 16 ≠ 0 then .fault s1 else s1.cmbTo k.asid (fld h 128 64) 16 2
          match bar with
          | .held s2 pg => wait s2 pg
          | .later s2 => s2
          | bar =>
            let s2 := match bar with | .at t _ | .fault t => t | _ => s1
            match s2.cmbWrite o k h (s2.combine k r h).1 dest bar with
            | (s3, none) => s3
            | (s3, some f) =>
              let s4 := s3.hdrUpd o (fun h => setFld (setFld h 597 1 f.toNat) 580 4 slotReleased)
              if r.ordered then
                let s5 := s4.recUpd k.record (fun v => setFld v 192 64 (r.next + 1))
                let nx := (r.next + 1) % 2 ^ 64
                match s5.cmbSlots.find? (fun q => q.2.record == k.record && hdrState (s5.hdr q.1) == slotHeld
                    && hdrToken (s5.hdr q.1) == nx) with
                | some q => s5.cmbRelease q.1 n
                | none => s5
              else s4

/-- A slot is combined (R127, R128): its flags noted, COMPLETE, and its release tried at once. -/
def State.cmbComplete (s : State) (o miss : Nat) : State :=
  match Tab.get s.cmbSlots o with
  | none => s
  | some k =>
    let h := setFld (s.hdr o) 584 8 miss
    let fl := (s.combine k (s.cmbRec k.record) h).2
    let s1 := (s.hdrPut o (setFld (setFld h 592 5 fl.toNat) 580 4 slotComplete) (s.homeClock o)).1
    s1.cmbRelease o (s1.cmbSlots.length + 1)

/-- The positions of a slot that have not arrived whole. -/
def State.cmbMissing (s : State) (o nch : Nat) : Nat :=
  (List.range (hdrNexp (s.hdr o))).foldl (fun m e => if hdrWhole (s.hdr o) e nch then m else m + 2 ^ e) 0

/-- Before an event on a slot: the timer of an OPEN slot has expired 10 µs after TIMEOUT at the latest (R127). -/
def State.cmbDue (s : State) (o : Nat) : State :=
  match Tab.get s.cmbSlots o with
  | none => s
  | some k =>
    let r := s.cmbRec k.record
    if hdrState (s.hdr o) = slotOpen && decide (k.since + usCycles (r.timeout + 10) < s.now) then s.cmbComplete o (s.cmbMissing o r.nch)
    else s

/-- CMB_TIMEOUT (R127): the timer of an OPEN slot expires; a slot that could not yet release tries again. Disabled before
TIMEOUT has passed, for a slot in any other state, and while the release waits on a held page. -/
def execCmbTimeout (slot : Nat) (s : State) : Host.Outcome State Fault Refusal :=
  match Tab.get s.cmbSlots slot with
  | none => .next s
  | some k =>
    let h := s.hdr slot
    let r := s.cmbRec k.record
    if s.lost (slot / 128) || s.engWaits.any (fun w => w.what == 1 && w.id == slot) then .next s
    else if hdrState h = slotOpen then
      if k.since + usCycles r.timeout ≤ s.now then
        .next (s.cmbComplete slot (s.cmbMissing slot r.nch))
      else .next s
    else .next (s.cmbRelease slot (s.cmbSlots.length + 1))

/-! ## Puts (R129) -/

/-- The status of a put and its position, in the order of the tests; `peer` for a put over the domain. -/
def State.cmbTest (s : State) (r : CmbRec) (o token expert chunk : Nat) (peer : Bool) : Nat × Nat :=
  let h := s.hdr o
  if peer && !r.domain then (5, 0)
  else if hdrState h = slotFree || hdrToken h ≠ token then (2, 0)
  else match (List.range (hdrNexp h)).find? (fun e => hdrExp h e == expert) with
    | none => (4, 0)
    | some e =>
      if r.nch ≤ chunk then (4, 0)
      else if hdrArrived h e chunk then (3, e)
      else if hdrState h = slotOpen then (0, e)
      else (1, e)

/-- A LATE put counted in the slot and in the record. -/
def State.cmbLate (s : State) (rec o : Nat) : State :=
  (s.hdrUpd o (fun h => setFld h 608 16 (min 0xFFFF (fld h 608 16 + 1)))).recUpd rec
    (fun v => setFld v 256 32 (min 0xFFFFFFFF (fld v 256 32 + 1)))

/-- A chunk stored, poisoned when it came so over the domain (R344), and the slot combined with its last one; the timestamp of the
store. -/
def State.cmbStore (s : State) (r : CmbRec) (o e chunk off : Nat) (bytes : List Byte) (p : Ts) (poison : Bool := false) : State × Ts :=
  let w := if poison then s.devPoison off 256 p else s.devWrite off bytes p
  let s1 := w.1.hdrUpd o (fun h => setFld h (1536 + 64 * e + chunk) 1 1)
  let s2 := { s1 with cmbSlots := Tab.upd s1.cmbSlots o (fun k => { k with chunks := Tab.set k.chunks (64 * e + chunk) off }) }
  let h := s2.hdr o
  (if (List.range (hdrNexp h)).all (fun e => hdrWhole h e r.nch) then s2.cmbComplete o 0 else s2, w.2)

/-! ## The words -/

/-- Where an address that a cistern word names lies, or how the word stops there. -/
inductive CmbPlace where
  | at (s : State) (pa : Nat)
  | stop (a : Act)
  deriving DecidableEq, Repr

/-- An address that a word names, by the core's TLBs or by a walk of its own, whose entry they take (R334, log entry 67); in this
MZ-40's memory unless it may lie `anywhere`. -/
def placeAt (x : Ctx) (c : Crew) (s : State) (kind n : Nat) (anywhere : Bool) (va : Nat) : CmbPlace :=
  let gid := keyGid x.key
  let wr := if kind = 1 || kind = 2 then dWrite else 0
  let go (s : State) (l : LaneChk) : CmbPlace := match l with
    | .bad cls fl aux => .stop (.trap s (laneTrap cls x.e [(x.act.lanes.getD 0 0, va, fl)] aux))
    | .held => .stop (.wait (s.longService gid c.idx va wr) .held)
    | .at (.phys pa) => (match s.target pa, anywhere with
      | .dev _, _ | _, true => .at s pa
      | _, false => .stop (.trap s (boundsTrap x va)))
    | .at _ | .miss => .stop (.trap s (boundsTrap x va))
  match s.checkLane (.core c.core) gid c.walks .gl kind va n with
  | .miss => (match s.walk (s.gangAsid gid) va kind 1 (match s.gang gid with | some g => g.lslot | none => 0xFFF) with
    | .later s1 => .stop (.blocked s1)
    | .ok s1 t => go (s1.fillTlb (.core c.core) t) (s1.reach (t.map va) wr)
    | .fail s1 3 => go s1 .held
    | .fail s1 how => go s1 (.bad 1 (if how = 1 then dPerm + wr else wr) 0))
  | l => go s l

/-- Places in this MZ-40's memory that a word names by virtual addresses of `n` bytes each; BOUNDS elsewhere. -/
def placesAt (x : Ctx) (c : Crew) (s : State) (kind n : Nat) (vas : List Nat) (k : State → List Nat → Act) : Act :=
  let r := vas.foldl (fun (a : (State × List Nat) × Option Act) va => match a.2 with
    | some _ => a
    | none => match placeAt x c a.1.1 kind n false va with
      | .at s1 pa => ((s1, a.1.2 ++ [pa]), none)
      | .stop t => (a.1, some t)) ((s, []), none)
  match r.2 with
  | some t => t
  | none => k r.1.1 r.1.2

/-- A range whose holds can be ended now, for a word: its bytes are its home's, and unpoisoned. -/
def atHome (x : Ctx) (c : Crew) (s : State) (write : Bool) (ps : List (Nat × Nat × Nat)) (k : State → Act) : Act :=
  if ps.any (fun p => c.mustWait x.act p.1 p.2.1) then .blocked s
  else
    let r := ps.foldl (fun (a : State × Bool) p => let r := a.1.clearRange p.1 p.2.1 write false none; (r.1, a.2 && r.2)) (s, true)
    if !r.2 then .blocked r.1
    else
      let v := ps.foldl (fun (a : State × Option Nat) p =>
        let v := a.1.checkRange p.1 p.2.1 { a.1.finder (keyGid x.key) 8 with va := p.2.2 }
        (v.1, if a.2.isSome then a.2 else if v.2 then some p.2.2 else none)) (r.1, none)
      match v.2 with
      | some va => .trap v.1 (recordPoison x va)
      | none => k v.1

/-- A valid cistern record that a word names (R217, R218). -/
def cmbWord (x : Ctx) (c : Crew) (s : State) (a : Reg) (k : State → Nat → CmbRec → Act) : Act :=
  let ea := c.rs a.toNat
  recordAt x c s ea 64 1 (fun o => atHome x c s false [(o, 64, ea)] (fun s1 =>
    let r := s1.cmbRec o
    if r.good then k s1 o r else .trap s1 (boundsTrap x ea)))

/-- A slot of the record that a word names: its header's offset, its timer expired if it is overdue. -/
def slotWord (x : Ctx) (c : Crew) (s : State) (a : Reg) (r : CmbRec) (slot : Nat) (k : State → Nat → Act) : Act :=
  if r.nslots ≤ slot then .trap s (boundsTrap x (c.rs a.toNat))
  else placesAt x c s 2 1 [r.slotAt slot] (fun s1 os =>
    let o := os.getD 0 0
    atHome x c s1 true [(o, 256, r.slotAt slot)] (fun s2 => k (s2.cmbDue o) o))

/-- `cmb.cfg` (R125, R216). -/
def execCmbCfg (h : Hdr) (a b : Reg) (s : State) : Host.Outcome State Fault Refusal :=
  word (.cmbCfg h a b) h (Hdr.use h [sReg a, sReg b] []) (fun x c s =>
    let ea := c.rs a.toNat
    recordAt x c s ea 64 1 (fun o => match placeAt x c s 2 64 true (c.rs b.toNat) with
      | .stop t => t
      | .at s1 im =>
        let q := s1.releaseReady x.key .dv
        if !q.2 then .blocked q.1
        else atHome x c q.1 true [(o, 64, ea)] (fun s2 =>
          match s2.rangeRead im 64 c.pts false none { s2.finder (keyGid x.key) 8 with va := c.rs b.toNat } with
          | .later s3 => .blocked s3
          | .ok s3 bs _ po =>
            let v := setFld (leVal bs) 256 32 0
            let r := cmbOf v
            if po then .trap s3 (recordPoison x (c.rs b.toNat))
            else if !r.good then .trap s3 (boundsTrap x ea)
            else placesAt x c s3 2 1 ((List.range r.nslots).map r.slotAt) (fun s4 os =>
              if os.any (fun p => hdrState (s4.hdr p) != slotFree) then .trap s4 (boundsTrap x ea)
              else
                let w := s4.devWrite o (leBytes v 64) c.pts
                .done (w.1.updCrew x.key (fun c => { c with pts := Ts.smax c.pts w.2 })))))) s

/-- The unit of an open given back (R127). -/
def giveBack (core ctr : Nat) : Act → Act
  | .trap s t => .trap (s.ctrGive core ctr 1) t
  | .blocked s => .blocked (s.ctrGive core ctr 1)
  | .wait s w => .wait (s.ctrGive core ctr 1) w
  | a => a

/-- The 64 KiB pages of a range, by the first byte in each. -/
def pagesOf (va n : Nat) : List Nat := (cutPages va n).map Prod.fst

/-- The lowest-numbered FREE slot among the last `n` of a record: its index and its header's offset. -/
def seekFree (x : Ctx) (c : Crew) (r : CmbRec) (full : State → Act) (k : State → Nat → Nat → Act) : Nat → State → Act
  | 0, s => full s
  | n + 1, s =>
    let i := r.nslots - (n + 1)
    match placeAt x c s 2 1 false (r.slotAt i) with
    | .stop t => t
    | .at s1 o => if hdrState (s1.hdr o) = slotFree then k s1 i o else seekFree x c r full k n s1

/-- The open after its take has succeeded (R127, R217, R399). A stop gives the unit back: see `giveBack`. -/
def openAct (x : Ctx) (c : Crew) (s : State) (rec : Nat) (r : CmbRec) (desc d ea : Nat) : Act :=
  let nexp := fld desc 576 3 + 1
  let exps := (List.range nexp).map (hdrExp desc)
  let gates := (List.range nexp).map (hdrGate desc)
  let rising := (exps.zip (exps.drop 1)).all (fun p => decide (p.1 < p.2))
  let finite := gates.all (fun g => fld g 23 8 != 255)
  let dest := fld desc 64 64
  let bar := fld desc 128 64
  if fld desc 580 60 ≠ 0 || !rising || !finite then .trap s (boundsTrap x ea)
  else placesAt x c s 1 1 (pagesOf dest r.rowBytes) (fun s _ =>
      placesAt x c s 2 16 (if bar = 0 then [] else [bar]) (fun s _ =>
        seekFree x c r (fun s => .trap s (boundsTrap x ea)) (fun s i o =>
          if c.mustWait x.act o 256 then .blocked s
          else
            let q := s.clearRange o 256 true false none
            if !q.2 then .blocked q.1
            else
              let asid := s.gangAsid (keyGid x.key)
              let h := setFld (setFld (fld desc 0 580) 624 8 asid) 580 4 slotOpen
              let w := q.1.hdrPut o h c.pts
              let s1 := { w.1 with cmbSlots := Tab.set w.1.cmbSlots o { record := rec, asid := asid, since := s.now, chunks := [] } }
              pendNow x (s1.updCrew x.key (fun c => { c with pts := Ts.smax c.pts w.2 })) [sWrite d i]) r.nslots s))

/-- The descriptor of an open (R217): 80 bytes of scratch or of global memory. -/
def descWord (x : Ctx) (c : Crew) (s : State) (dsp : Bool) (va : Nat) (k : State → Nat → Act) : Act :=
  let lane := x.act.lanes.getD 0 0
  if dsp then
    let gid := keyGid x.key
    let sz := match s.gang gid with | some g => g.scrSz | none => 0
    if sz < va + 80 then .trap s (laneTrap 6 x.e [(lane, va, 0)] 0)
    else if va % 16 ≠ 0 then .trap s (laneTrap 1 x.e [(lane, va, dMisalign)] 0)
    else
      let r := s.scrCheck gid va 80
      if r.2 then .trap r.1 (laneTrap 8 x.e [(lane, va / 32 * 32, 0)] 0)
      else k r.1 (match r.1.gang gid with | some g => leVal (g.scrBytes va 80) | none => 0)
  else checked x c s .gl 2 16 ((List.range 5).map (fun i => (lane, va + 16 * i))) (fun ls =>
    let r := ls.foldl (fun (a : Dir) l => match a, l.2 with
      | .ok s bs t po, .phys pa => (match s.directRead pa 16 c.pts false none { s.finder (keyGid x.key) 8 with va := va + bs.length } with
        | .ok s1 b1 t1 p1 => .ok s1 (bs ++ b1) (Ts.smax t t1) (po || p1)
        | .later s1 => .later s1)
      | a, _ => a) (Dir.ok s [] 0 false)
    match r with
    | .later s1 => .blocked s1
    | .ok s1 bs _ po => if po then .trap s1 (laneTrap 8 x.e [(lane, va / 32 * 32, 0)] 0) else k s1 (leVal bs)) false false

/-- The open's own words up to its take: record, descriptor, counter. -/
def openWord (x : Ctx) (c : Crew) (s : State) (dsp : Bool) (a b : Reg)
    (k : State → Nat → Nat → CmbRec → Nat → Act) : Act :=
  let q := s.releaseReady x.key .dv
  if !q.2 then .blocked q.1
  else cmbWord x c q.1 a (fun s1 rec r => descWord x c s1 dsp (c.rs b.toNat) (fun s2 desc =>
    recordAt x c s2 r.ctr 32 1 (fun ctr => atHome x c s2 false [(ctr, 32, r.ctr)] (fun s3 =>
      if (s3.ctrGet ctr).good then k s3 rec ctr r desc else .trap s3 (boundsTrap x (c.rs a.toNat))))))

/-- FULL. -/
def openFull : Nat := 2 ^ 64 - 1

/-- `cmb.open` (R127, R217, R399). -/
def execCmbOpen (h : Hdr) (dsp : Bool) (d a b : Reg) (s : State) : Host.Outcome State Fault Refusal :=
  word (.cmbOpen h dsp d a b) h (Hdr.use h [sReg a, sReg b] [sReg d]) (fun x c s =>
    openWord x c s dsp a b (fun s1 rec ctr r desc =>
      let t := s1.nameTake x
      match t.1.ctrTake c.core ctr 1 t.2 with
      | .took s2 => giveBack c.core ctr
        (openAct x c (s2.updCrew x.key (fun c => c.dropReqs x.e)) rec r desc d.toNat (c.rs a.toNat))
      | .waits s2 => .wait s2 .ctr
      | .full s2 => .blocked s2)) s

/-- A put of this MZ-40's own crew (R218). -/
def putAct (x : Ctx) (c : Crew) (s : State) (lt : Bool) (d a : Reg) (token w : Nat) (bytes : List Byte) : Act :=
  let slot := fld w 0 16
  let chunk := fld w 32 6
  cmbWord x c s a (fun s1 rec r =>
    if r.nslots ≤ slot then putDone x c s1 lt d 2
    else slotWord x c s1 a r slot (fun s2 o =>
      let t := s2.cmbTest r o token (fld w 16 16) chunk false
      match t.1 with
      | 0 =>
        let va := r.chunkAt slot t.2 chunk
        placesAt x c s2 2 1 [va] (fun s2 ps =>
          let off := ps.getD 0 0
          if c.mustWait x.act off 256 then .blocked s2
          else
            let q := s2.clearRange off 256 true false none
            if !q.2 then .blocked q.1
            else
              let v := q.1.cmbStore r o t.2 chunk off bytes c.pts
              putDone x c (v.1.updCrew x.key (fun c => { c with pts := Ts.smax c.pts v.2 })) lt d 0)
      | 1 => putDone x c (s2.cmbLate rec o) lt d 1
      | st => putDone x c s2 lt d st))

/-- `cmb.put` (R129, R218): with PEER a request over the domain, which carries token, slot word and bytes. -/
def execCmbPut (h : Hdr) (lt : Bool) (d a b r : Reg) (s : State) : Host.Outcome State Fault Refusal :=
  word (.cmbPut h lt d a b r) h (Hdr.use h [sReg a, sRegs b 2, vReg r 2] [sReg d]) (fun x c s =>
    let token := c.rs b.toNat
    let w := c.rs (b.toNat + 1)
    let bytes := (List.range 32).flatMap (fun l => leBytes (if x.act.getLsbD l then c.rvs r.toNat l 2 else 0) 8)
    if fld w 38 2 ≠ 0 || fld w 50 14 ≠ 0 then .trap s (boundsTrap x (c.rs a.toNat))
    else if fld w 40 1 = 1 then
      let p := fld w 41 9
      let q := s.releaseReady x.key .dv
      if !q.2 then .blocked q.1
      else if !q.1.peerReach p then .trap q.1 (refusedTrap x (c.rs a.toNat))
      else
        let id := q.1.nextId
        let s1 := q.1.ask { port := 3 + p, addr := c.rs a.toNat, what := 16, since := q.1.now, pkt := id, crew := x.key,
                            entry := x.e, bytes := leBytes token 8 ++ leBytes w 8 ++ bytes, dtid := q.1.dtidOf (q.1.gangAsid (keyGid x.key)) }
        .wait (s1.updCrew x.key (fun c => { c with reqs := c.reqs ++
          [{ pkt := id, entry := x.e, lanes := [x.act.lanes.getD 0 0], answer := none, poison := false }] })) .reply
    else putAct x c s lt d a token w bytes) s

/-- `cmb.stat` (R219). -/
def execCmbStat (h : Hdr) (lates : Bool) (d a : Reg) (b : Opnd) (s : State) : Host.Outcome State Fault Refusal :=
  word (.cmbStat h lates d a b) h (Hdr.use h (sReg a :: (if lates then [] else Opnd.span b 1)) [sReg d]) (fun x c s =>
    cmbWord x c s a (fun s1 _ r =>
      if lates then pendNow x s1 [sWrite d.toNat r.lates]
      else slotWord x c s1 a r (c.sval b) (fun s2 o => pendNow x s2 [sWrite d.toNat (fld (s2.hdr o) 576 64)]))) s

/-- `cmb.close` (R127, R219). -/
def execCmbClose (h : Hdr) (d a : Reg) (b : Opnd) (s : State) : Host.Outcome State Fault Refusal :=
  word (.cmbClose h d a b) h (Hdr.use h (sReg a :: Opnd.span b 1) [sReg d]) (fun x c s =>
    cmbWord x c s a (fun s1 _ r => slotWord x c s1 a r (c.sval b) (fun s2 o =>
      if hdrState (s2.hdr o) ≠ slotReleased then pendNow x s2 [sWrite d.toNat 1]
      else recordAt x c s2 r.ctr 32 1 (fun ctr => atHome x c s2 false [(ctr, 32, r.ctr)] (fun s3 =>
        let s4 := s3.hdrUpd o (fun h => setFld h 580 4 slotFree)
        let s5 := { s4 with cmbSlots := Tab.erase s4.cmbSlots o }
        pendNow x (s5.ctrGive c.core ctr 1) [sWrite d.toNat 0]))))) s

/-! ## CTR_GRANT (R123, R124) -/

/-- The crew and split whose word waits for a take of this name; none once it is trapped, saved or ended. -/
def State.takerOf (s : State) (core id : Nat) : Option (Nat × Nat × Crew) :=
  (s.coreCrews core).findSome? (fun k => match k.2.reqs.find? (fun q => q.pkt == id) with
    | some q => if (k.2.split q.entry).wait == .ctr && k.2.trap.isNone then some (k.1, q.entry, k.2) else none
    | none => none)

/-- A waiting take is over: its word completes, or the open it belongs to goes on. -/
def State.takeOver (s : State) (o key e : Nat) (c : Crew) (ok : Bool) : State :=
  let x := s.waitCtx key e c
  let s1 := s.updCrew key (fun c => c.dropReqs e)
  match (c.split e).word with
  | some (.ctrTake o) => s1.wakeSplit key e [pWrite o.d.toNat x.act (fun _ => ok)]
  | some (.cmbOpen _ dsp d a b) =>
    if !ok then s1.wakeSplit key e [sWrite d.toNat openFull]
    else (match giveBack c.core o (openWord x c s1 dsp a b (fun s2 rec _ r desc =>
        openAct x c s2 rec r desc d.toNat (c.rs a.toNat))) with
      | .blocked t => t.updCrew key (fun c => c.updSplit e (fun sp => { sp with wait := .none, word := none }))
      | a => s1.resumeWord key e a)
  | _ => s1

/-- The takes that wait behind a refill, in issue order (R123). -/
def State.nextTakes (s : State) (core o : Nat) : Nat → State
  | 0 => s
  | n + 1 =>
    match (s.core core).ctr? o with
    | none => s
    | some e => match e.queue with
      | [] => s
      | (id, k) :: rest =>
        let s1 := s.ctrUse core o (fun e => { e with queue := rest })
        match s1.takerOf core id with
        | none => s1.nextTakes core o n
        | some (key, en, c) =>
          if k ≤ e.allow then
            ((s1.ctrUse core o (fun e => { e with allow := e.allow - k })).takeOver o key en c true).nextTakes core o n
          else s1.ctrRefill core o k id

/-- CTR_GRANT: a grant or FAIL reaches its core; a grant to a core out of service is forfeited (R370). -/
def execCtrGrant (o core : Nat) (s : State) : Host.Outcome State Fault Refusal :=
  let h := s.ctrHome o
  match h.grants.find? (fun g => g.1 == core) with
  | none => .next s
  | some g =>
    let s1 := s.setCtrHome o { h with grants := h.grants.erase g }
    if (s.core core).oos then .next (s1.ctrUpd o (fun r => r.addLost (g.2.getD 0)))
    else match (s1.core core).ctr? o with
    | none => .next (s1.ctrUpd o (fun r => r.addHome (g.2.getD 0)))
    | some e =>
      let s2 := s1.ctrUse core o (fun e => { e with refill := none })
      let taker := match e.refill with | some (_, id) => s2.takerOf core id | none => none
      let n := match e.refill with | some (n, _) => n | none => 0
      let s3 := match g.2, taker with
        | some g, some (key, en, c) => (s2.ctrAllow core o (fun a => a + g - n)).takeOver o key en c true
        | some g, none => s2.ctrAllow core o (· + g)
        | none, some (key, en, c) => s2.takeOver o key en c false
        | none, none => s2
      .next (s3.nextTakes core o (e.queue.length + 1))

end Sys2Proof.Machine
end

