-- ==== Sys2Proof/Machine/System.lean ====
section
/-! DEFINITION. Status and control registers (R242, R243), `launch` (R244), the reorder unit (R34 to R36, R245),
idempotent regions (R246), `sleep` and `clkr` (R247, R248): opcodes 0xD0 to 0xD4, 0xDA and 0xDB. -/

namespace Sys2Proof.Machine

/-! ## Control registers -/

/-- The window register (R242). -/
def Crew.winReg (c : Crew) : Nat := c.wb % 65536 + c.lo % 65536 * 2 ^ 16 + c.budget % 512 * 2 ^ 32

/-- The status word as it reads: SBCHK is 1 in DET (R243). -/
def Crew.statusReg (c : Crew) (det : Bool) : Nat := Nat.lor c.status.toNat (if det then 2 ^ 9 else 0)

/-- The fields of the status word that a write changes: FLAGS, SCOPEMISS, SBCHK (R243). -/
def statusMask : W64 := 0x31F

/-- The status word written whole, or its bits set or cleared (R242, R243). -/
def Crew.putStatus (c : Crew) (det : Bool) (v : W64) : Crew :=
  let st := (c.status &&& ~~~statusMask) ||| (v &&& statusMask)
  { c with status := if det then st ||| 0x200 else st }

/-- The control register of a number (R242). -/
def csrValue (s : State) (key : Nat) (c : Crew) (num : Nat) : Nat :=
  let g (f : Gang → Nat) : Nat := match s.gang (keyGid key) with | some v => f v | none => 0
  match num with
  | 0 => c.statusReg (s.gangDet (keyGid key))
  | 1 => c.spillBase
  | 2 => c.spillSz
  | 3 => c.winReg
  | 4 => g (·.scrSz)
  | _ => if s.gangDet (keyGid key) then g (·.detSz) else 0

/-- `csrr` (R242): the flags of every issued word are in the status already. -/
def execCsrr (h : Hdr) (d : Reg) (num : BitVec 12) (s : State) : Host.Outcome State Fault Refusal :=
  word (.csrr h d num) h (Hdr.use h [] [sReg d]) (fun x c s =>
    if 5 < num.toNat then .trap s (illTrap (.csrr h d num) x.e x.act)
    else pendNow x s [sWrite d.toNat (csrValue s x.key c num.toNat)]) s

/-- A `csrw` form: `f` makes the new value of the old one and sA. -/
def csrWrite (i : Instr) (h : Hdr) (num : BitVec 12) (a : Reg) (f : W64 → W64 → W64) (s : State) :
    Host.Outcome State Fault Refusal :=
  word i h (Hdr.use h [sReg a] []) (fun x _ s =>
    if num ≠ 0 then .trap s (illTrap i x.e x.act)
    else .done (s.updCrew x.key (fun c => c.putStatus x.det (f c.status (BitVec.ofNat 64 (c.rs a.toNat)))))) s

/-- `csrw` (R242). -/
def execCsrw (h : Hdr) (num : BitVec 12) (a : Reg) (s : State) : Host.Outcome State Fault Refusal :=
  csrWrite (.csrw h num a) h num a (fun _ v => v) s

/-- `csrw.set` (R242). -/
def execCsrwSet (h : Hdr) (num : BitVec 12) (a : Reg) (s : State) : Host.Outcome State Fault Refusal :=
  csrWrite (.csrwSet h num a) h num a (fun o v => o ||| v) s

/-- `csrw.clr` (R242). -/
def execCsrwClr (h : Hdr) (num : BitVec 12) (a : Reg) (s : State) : Host.Outcome State Fault Refusal :=
  csrWrite (.csrwClr h num a) h num a (fun o v => o &&& ~~~v) s

/-! ## `launch` (R244) -/

/-- Fields of QCFG (R291). -/
def QueueRegs.en (q : QueueRegs) : Bool := q.qcfg.getLsbD 31
def QueueRegs.dev (q : QueueRegs) : Bool := q.qcfg.getLsbD 30
def QueueRegs.k (q : QueueRegs) : Nat := fld q.qcfg.toNat 25 5
def QueueRegs.pmax (q : QueueRegs) : Nat := fld q.qcfg.toNat 22 3
def QueueRegs.part (q : QueueRegs) : Nat := fld q.qcfg.toNat 16 6
def QueueRegs.asid (q : QueueRegs) : Nat := fld q.qcfg.toNat 8 8
def QueueRegs.vec (q : QueueRegs) : Nat := fld q.qcfg.toNat 0 8
/-- The virtual address of record `i` (R291). -/
def QueueRegs.slot (q : QueueRegs) (i : Nat) : Nat := (q.qbase.toNat + 64 * (i % 2 ^ q.k)) % 2 ^ 64

/-- Whether a queue is assigned to a tenant (R244). -/
def QueueRegs.assigned (q : QueueRegs) (asid part : Nat) : Bool := q.en && q.dev && q.asid == asid && q.part == part

/-- The status of a `launch` that queued nothing, or its ring index. -/
def launchDone (x : Ctx) (s : State) (d : Reg) (seq st : Nat) : Act :=
  pendNow x s [sWrite d.toNat ((if x.det then 0 else seq * 2 ^ 32) + st)]

/-- `launch` (R244): the record is read in the crew's address space and stored in the ring's next slot, and the doorbell
is rung, in one step; the release comes first. -/
def execLaunch (h : Hdr) (d a : Reg) (b : Opnd) (s : State) : Host.Outcome State Fault Refusal :=
  word (.launch h d a b) h (Hdr.use h ([sReg a] ++ Opnd.span b 1) [sReg d]) (fun x c s =>
    let gid := keyGid x.key
    let lane := x.act.lanes.getD 0 0
    let va := c.rs a.toNat
    let n := c.sval b
    if 16384 ≤ n then .trap s (mkTrap 6 x.e x.act 0 0)
    else if va % 64 ≠ 0 then
      .trap s (laneTrap 1 x.e [(lane, va, if 2 ^ 57 ≤ va then dNoncanon else dMisalign)] 0)
    else checked x c s .gl 0 64 [(lane, va)] (fun locs => match locs with
      | (_, .phys pa) :: _ =>
        let r := s.releaseReady x.key .dv
        if !r.2 then .blocked r.1
        else
          let s1 := r.1
          let q := s1.queue n
          if !q.assigned (s1.gangAsid gid) (s1.gangPart gid) then launchDone x s1 d 0 2
          else if (q.qtail - q.qhead).toNat = 2 ^ q.k then launchDone x s1 d 0 1
          else
            let slot := q.slot q.qtail.toNat
            checked x c s1 .gl 1 64 [(lane, slot)] (fun ring => match ring with
              | (_, .phys dst) :: _ => (match s1.directRead pa 64 c.pts false (some x.key) with
                | .later s2 => .blocked s2
                | .ok s2 bs _ po =>
                  if po then .trap s2 (laneTrap 8 x.e [(lane, va, 0)] 0)
                  else match s2.directWrite dst (if x.det then s2.ownBytes (keyGid x.key) (s2.logicalLane x.key lane) pa bs else bs) c.pts (some x.key) with
                    | .later s3 => .blocked s3
                    | .ok s3 _ ts _ =>
                      let s4 := s3.updCrew x.key (fun c => { c with pts := Ts.smax c.pts ts })
                      launchDone x (s4.setQueue n { q with qtail := q.qtail + 1 }) d q.qtail.toNat 0)
              | _ => .done s1)
      | _ => .done s)) s

/-! ## The reorder unit (R34 to R36, R304) -/

/-- A continuation crew is started with entries of one key: its block is made (R35, R304). -/
def State.startCont (s : State) (lslot key : Nat) (es : List BinEntry) : State :=
  match s.launch lslot with
  | none => s
  | some l =>
    let c := Tab.getD l.contCount key 0
    let b : Blk := { lslot := lslot, kind := 0, unit := false, prio := l.r 56 3, gx := key, gy := c % 65536, save := none,
                     age := l.nextAge, held := false, place := 0, core := 0,
                     cont := some (key, c, es.map (fun e => (e.payload, e.lane))), gid := none, side := [], was := none, sbuf := [] }
    let s1 := s.setLaunch lslot { l with nextAge := l.nextAge + 1, contLeft := l.contLeft + 1,
                                         contCount := Tab.set l.contCount key (c + 1) }
    { s1 with blocks := Tab.set s1.blocks s1.nextId b, nextId := s1.nextId + 1 }

/-- The entries of a key's bin, in the order they reached it. -/
def Launch.bin (l : Launch) (key : Nat) : List BinEntry := l.bins.filter (fun e => e.key == key)
/-- The keys of the bins that are not empty, ascending. -/
def Launch.keys (l : Launch) : List Nat :=
  (l.bins.foldl (fun (t : Tab Nat) e => Tab.set t e.key 0) []).map Prod.fst

/-- A whole bin emptied into a crew (R35). -/
def State.emptyBin (s : State) (lslot key : Nat) : State :=
  match s.launch lslot with
  | none => s
  | some l => (s.setLaunch lslot { l with bins := l.bins.filter (fun e => e.key != key) }).startCont lslot key (l.bin key)

/-- The lowest place of the reorder storage without an entry. -/
def Launch.freeIdx (l : Launch) : Nat :=
  ((List.range l.bins.length).find? (fun i => !l.bins.any (fun e => e.idx == i))).getD l.bins.length

/-- An entry put into its bin, and its ten bytes into its place at RBASE (R304); the second value is the address of a place that must
be answered for first. A place that does not translate is left unwritten, since a deposit never fails (log entry 69). -/
def State.binPut (s : State) (lslot : Nat) (e : BinEntry) (p : Ts) : State × Option Nat :=
  match s.launch lslot with
  | none => (s, none)
  | some l =>
    let i := l.freeIdx
    let va := l.r 192 64 + 10 * i
    let s1 := s.setLaunch lslot { l with bins := l.bins ++ [{ e with idx := i }] }
    match s1.engRange l.asid va 10 1 lslot with
    | .later _ => (s, some va)
    | .fail s2 | .held s2 _ => (s2, none)
    | .ok s2 ps => match s2.piecesWrite ps (leBytes e.key 2 ++ leBytes e.payload 8) p (s2.launchFinder lslot va) with
      | .later _ => (s, some va)
      | .ok s3 _ _ _ => (s3, none)

/-- The holds on a place of the storage asked to end. -/
def State.binAsk (s : State) (lslot va : Nat) : State :=
  match s.launch lslot with
  | none => s
  | some l => match s.engRange l.asid va 10 1 lslot with
    | .ok s1 ps => (s1.piecesReady ps (s1.launchFinder lslot va)).1
    | .later s1 => s1
    | _ => s

/-- The bin with the most entries, the lowest key on a tie. -/
def Launch.fullest (l : Launch) : Nat :=
  l.keys.foldl (fun a k => if (l.bin a).length < (l.bin k).length then k else a) (l.keys.getD 0 0)

/-- A deposit outside DET (R35). -/
def State.deposit (s : State) (lslot : Nat) (e : BinEntry) (p : Ts) : State × Option Nat :=
  match s.launch lslot with
  | none => (s, none)
  | some l =>
    let s1 := if l.reordN ≤ l.bins.length then s.emptyBin lslot l.fullest else s
    let s2 := s1.binPut lslot e p
    (match s2.1.launch lslot with
    | some l2 => if (l2.bin e.key).length = 32 then s2.1.emptyBin lslot e.key else s2.1
    | none => s2.1, s2.2)

/-- Entries deposited one after another with `put`, up to one whose place must be answered for first. -/
def State.deposits (s : State) (put : State → BinEntry → State × Option Nat) (es : List BinEntry) : State × Option Nat :=
  es.foldl (fun a e => if a.2.isSome then a else put a.1 e) (s, none)

/-- `reord` (R245, R34): the deposits of the active lanes, in ascending lane order, then their exit. -/
def execReord (h : Hdr) (a b : Reg) (s : State) : Host.Outcome State Fault Refusal :=
  word (.reord h a b) h (Hdr.use h [vReg a 1, vReg b 2] []) (fun x c s =>
    let gid := keyGid x.key
    match s.gang gid, s.gangLaunch gid with
    | some g, some l =>
      if l.contDesc.isEmpty || l.reordN = 0 || g.cont || g.inIdem then .trap s (mkTrap 7 x.e x.act 0 0)
      else
        let r := s.releaseReady x.key .dv
        if !r.2 then .blocked r.1
        else
          let es := x.act.lanes.map (fun n =>
            { key := c.rv a.toNat n % 65536, payload := c.rvs b.toNat n 2, lane := s.logicalLane x.key n : BinEntry })
          let s1 := r.1
          if x.det && decide (l.reordN < l.bins.length + es.length) then .jump (s1.killLaunch g.lslot 9) []
          else
            let d := s1.deposits (fun s e => if x.det then s.binPut g.lslot e c.pts else s.deposit g.lslot e c.pts) es
            match d.2 with
            | some va => .blocked (s1.binAsk g.lslot va)
            | none => endSome x c d.1 x.act
    | _, _ => .done s) s

/-! ## Idempotent regions (R41, R44, R246) -/

/-- The values of a crew captured at its begin form (R246). -/
def Crew.capture (c : Crew) (e now : Nat) : Capture :=
  let d := c.settleAll now
  { sr := d.sr, wb := c.wb, lo := c.lo, pc := (c.split e).pc, status := c.status, live := c.live }

/-- An `idem` form (R246): the cases of ILL, then of SYNC, then the arrival and wait; the begin form captures when its
crew arrives. -/
def idemWord (x : Ctx) (c : Crew) (s : State) (i : Instr) (ending : Bool) : Act :=
  match s.gang (keyGid x.key) with
  | none => .done s
  | some g =>
    let waits := match c.arr with | some (4, _) => true | _ => false
    if !waits && ((if ending then !g.inIdem else g.inIdem) || (!ending && g.pump.isSome)) then .trap s (illTrap i x.e x.act)
    else if (c.split x.e).mask ≠ c.live then .trap s (mkTrap 7 x.e x.act 0 0)
    else
      let r := s.releaseReady x.key .gg
      if !r.2 then .blocked r.1
      else
        let s1 := if ending || waits then r.1 else r.1.updCrew x.key (fun c => { c with cap := some (c.capture x.e s.now) })
        impArrive x c s1 4

/-- `idem.begin` (R246). -/
def execIdemBegin (h : Hdr) (s : State) : Host.Outcome State Fault Refusal :=
  word (.idemBegin h) h (Hdr.use h [] []) (fun x c s => idemWord x c s (.idemBegin h) false) s

/-- `idem.end` (R246). -/
def execIdemEnd (h : Hdr) (s : State) : Host.Outcome State Fault Refusal :=
  word (.idemEnd h) h (Hdr.use h [] []) (fun x c s => idemWord x c s (.idemEnd h) true) s

/-! ## Time -/

/-- `sleep` (R247): the split stands at PC + 8 and is not ready until its expiry. -/
def execSleep (h : Hdr) (b : Opnd) (s : State) : Host.Outcome State Fault Refusal :=
  word (.sleep h b) h (Hdr.use h (Opnd.span b 1) []) (fun x c s =>
    let n := c.sval b % 2 ^ 32
    .jump ((s.setCrew x.key (c.updSplit x.e (fun sp =>
      { sp.after s.now h.stall.toNat with pc := sp.pc + 8, wait := .sleep n s.now }))).markIssued c) []) s

/-- The clock that `clkr` reads: of a core, or of the package (R248). -/
def clock (s : State) (core : Nat) (k : BitVec 2) : Nat :=
  if k = 0 then (s.now - (s.core core).clkBase) % 2 ^ 64 else s.pkgNs % 2 ^ 64

/-- `clkr` (R248); a management core counts as the lowest core of its cluster. -/
def execClkr (h : Hdr) (k : BitVec 2) (d : Reg) (s : State) : Host.Outcome State Fault Refusal :=
  let i : Instr := .clkr h k d
  fullWord i h ((Hdr.use h [] [sReg d]).inDet true 0xDB) 8 (fun x c s =>
    if 1 < k.toNat then .trap s (illTrap i x.e x.act) else pendNow x s [sWrite d.toNat (clock s c.core k)])
    (some (fun n _ s =>
      if 1 < k.toNat then .trap s (mkTrap 0 0 0 0 0)
      else .done (s.updMgmt n (fun m => m.setS d.toNat (clock s ((clusterCores n).getD 0 0) k))))) s

/-- SLEEP_EXPIRY (R247): the split is ready again n cycles or more after its issue. -/
def execSleepExpiry (w : Waiter) (s : State) : Host.Outcome State Fault Refusal :=
  match w with
  | .split key e => .next (s.updCrew key (fun c =>
    let sp := c.split e
    match sp.wait with
    | .sleep n since => if n + since ≤ s.now && c.trap.isNone then c.setSplit e { sp with wait := .none } else c
    | _ => c))
  | _ => .next s

/-- LDP_ATTEMPT (R189): 64 cycles or more after an attempt the word issues again, and then asks the home. -/
def execLdpAttempt (w : Waiter) (s : State) : Host.Outcome State Fault Refusal :=
  match w with
  | .split key e => .next (s.updCrew key (fun c =>
    let sp := c.split e
    match sp.wait with
    | .poll since =>
      if 64 + since ≤ s.now && c.trap.isNone then
        c.setSplit e { sp with wait := .none, word := none, tried := none, got := [pollMark] }
      else c
    | _ => c))
  | .mgmt k => .next (s.updMgmt k (fun m => match m.wait with
    | .poll since => if 64 + since ≤ s.now then { m with wait := .none, word := none } else m
    | _ => m))
  | .pump _ => .next s

end Sys2Proof.Machine
end

