-- ==== Sys2Proof/Machine/Handler.lean ====
section
/-! DEFINITION. The delivery of traps to management cores (R309), the trap window (R250), the handler words (R251, R252,
R312), opcodes 0xD5 to 0xD9, and the watchdog (R313). -/

namespace Sys2Proof.Machine

/-! ## The trap window (R250) -/

/-- CAUSE (R250, R310). -/
def Trap.cause (t : Trap) : Nat := t.cls + t.entry * 16 + t.detail % 1024 * 256

/-- SLOT (R250): crew slot, core within the cluster, crew index, gang index. -/
def State.slotItem (s : State) (key : Nat) (c : Crew) : Nat :=
  let pos := (clusterCores (clusterOf c.core)).findIdx (· == c.core)
  c.slot % 32 + pos % 16 * 2 ^ 5 + c.idx * 2 ^ 16 + s.gangG (keyGid key) % 2 ^ 32 * 2 ^ 32

/-- The lane, 0 to 31, of an item in a group that begins at `base`. -/
def itemLane (item base n : Nat) : Option Nat := if base ≤ item && item < base + n then some (item - base) else none

/-- An item read: none where the item is not listed. -/
def State.itemRead (s : State) (key : Nat) (c : Crew) (t : Trap) (item : Nat) : Option Nat :=
  match item with
  | 0 => some t.cause
  | 1 => some (s.slotItem key c)
  | 2 => some t.lanes.toNat
  | 3 => some c.pts.toNat
  | 4 => some (c.statusReg (s.gangDet (keyGid key)))
  | 5 => some c.wb
  | 6 => some c.winReg
  | 0x60 => some t.aux
  | _ =>
    match itemLane item 0x10 4, itemLane item 0x14 4, itemLane item 0x20 32, itemLane item 0x40 32 with
    | some e, _, _, _ => some (c.split e).pc
    | _, some e, _, _ => some (c.split e).mask.toNat
    | _, _, some l, _ => some (t.addr.getD l 0)
    | _, _, _, some l => some (t.lflag.getD l 0)
    | none, none, none, none =>
      match itemLane item 0x80 64, itemLane item 0xC0 7, itemLane item 0x800 (32 * c.win) with
      | some k, _, _ => some (c.rs k)
      | _, some k, _ => some (Cells.get c.pr k).toNat
      | _, _, some x => some (c.rv (x / 32) (x % 32))
      | none, none, none => none

/-- A split whose PC a handler writes runs from there (R252). -/
def Crew.setPc (c : Crew) (e pc : Nat) : Crew :=
  let sp := c.split e
  c.setSplit e (if sp.pc = pc then sp else sp.run pc sp.mask sp.top)

/-- An item written: none where the item is not listed or is read only. -/
def Crew.itemWrite (c : Crew) (det : Bool) (item v : Nat) : Option Crew :=
  match item with
  | 3 => some { c with pts := Ts.smax c.pts (BitVec.ofNat 32 v) }
  | 4 => some (c.putStatus det (BitVec.ofNat 64 v))
  | 5 => some { c with wb := v }
  | _ =>
    match itemLane item 0x10 4, itemLane item 0x14 4, itemLane item 0x80 64, itemLane item 0xC0 7,
      itemLane item 0x800 (32 * c.win) with
    | some e, _, _, _, _ => some (c.setPc e v)
    | _, some e, _, _, _ => some (c.updSplit e (fun sp => { sp with mask := BitVec.ofNat 32 v }))
    | _, _, some k, _, _ => some (c.setS k v)
    | _, _, _, some k, _ => some { c with pr := Cells.set c.pr k (BitVec.ofNat 32 v) }
    | _, _, _, _, some x => some (c.setV (c.wb + x / 32) (x % 32) (v % 2 ^ 32))
    | none, none, none, none, none => none

/-- The checks of `hresume` (R252, R139). -/
def Crew.windowGood (c : Crew) : Bool :=
  let used := (List.range 4).filter (fun e => (c.split e).mask != 0)
  let apart := used.all (fun e => used.all (fun f => e == f || (c.split e).mask &&& (c.split f).mask == 0))
  let all := used.foldl (fun m e => m ||| (c.split e).mask) (0 : Mask)
  apart && c.recs.all (fun r => r.2.pendPC % 8 == 0 && r.2.parkPC % 8 == 0) && (all &&& c.parked) == 0 && (all ||| c.parked) == c.live && (List.range 4).all (fun e => (c.split e).pc % 8 == 0) &&
    c.wb % 8 == 0 && decide (c.lo ≤ c.wb) && decide (c.wb + c.win ≤ c.lo + c.budget)

/-! ## Handler words (R251) -/

/-- A handler word of the crew in service: ILL without one. -/
def served (k : Nat) (s : State) (f : Nat → Crew → Trap → Act) : Act :=
  match (s.mgmt k).crew with
  | none => .trap s (mkTrap 0 0 0 0 0)
  | some key => match s.crew key with
    | none => .trap s (mkTrap 0 0 0 0 0)
    | some c => match c.trap with
      | none => .trap s (mkTrap 0 0 0 0 0)
      | some t => f key c t

/-- The item a word names. -/
def ItemRef.of (m : Mgmt) : ItemRef → Nat
  | .imm n => n.toNat
  | .reg b => m.rs b.toNat % 4096

/-- `hwin.r` (R251). -/
def execHwinR (h : Hdr) (d : Reg) (item : ItemRef) (s : State) : Host.Outcome State Fault Refusal :=
  refusedWord (.hwinR h d item) h 10 (some (fun k m s => served k s (fun key c t =>
    match s.itemRead key c t (ItemRef.of m item) with
    | some v => .done (s.updMgmt k (fun m => m.setS d.toNat v))
    | none => .trap s (mkTrap 0 0 0 0 0)))) s

/-- `hwin.w` (R251). -/
def execHwinW (h : Hdr) (a : Reg) (item : ItemRef) (s : State) : Host.Outcome State Fault Refusal :=
  refusedWord (.hwinW h a item) h 10 (some (fun k m s => served k s (fun key c _ =>
    match c.itemWrite (s.gangDet (keyGid key)) (ItemRef.of m item) (m.rs a.toNat) with
    | some c1 => .done (s.setCrew key c1)
    | none => .trap s (mkTrap 0 0 0 0 0)))) s

/-- `hresume` (R251, R252). -/
def execHresume (h : Hdr) (s : State) : Host.Outcome State Fault Refusal :=
  refusedWord (.hresume h) h 10 (some (fun k _ s => served k s (fun key c _ =>
    if c.windowGood then .jump (s.resumeCrew k key) [] else .trap s (mkTrap 0 0 0 0 0)))) s

/-- `hkill` (R251): the crew, as `kill`, or the launch. -/
def execHkill (h : Hdr) (all : Bool) (s : State) : Host.Outcome State Fault Refusal :=
  refusedWord (.hkill h all) h 10 (some (fun k _ s => served k s (fun key c t =>
    let gid := keyGid key
    if all then
      match s.gang gid with
      | some g => .jump ((s.updMgmt k (fun _ => Mgmt.init)).killLaunch g.lslot t.cls) []
      | none => .done s
    else
      let r := if s.gangDet gid then s.exitReady key else (s, true)
      if r.2 then .jump ((r.1.leaveTrap key c.core).endLanes key c.live) [] else .blocked r.1))) s

/-- The gang of a crew that `hret` leaves trapped has a save pending, with its cluster, as held by it (R318), whatever else holds
it. -/
def State.holdTrapped (s : State) (gid idx detail : Nat) : State :=
  ((s.unitOf gid).foldl (fun s m => s.updGang m (fun v => { v with stop := true })) s).updGang gid
    (fun v => { v with heldFault := some (idx, 0, detail) })

/-- `hret` (R251, R318): the crew stays trapped, its gang has a save pending as of a long-service fault, and the
management core is free. The trap stays marked as in service: so the save knows an `hret`. -/
def execHret (h : Hdr) (s : State) : Host.Outcome State Fault Refusal :=
  refusedWord (.hret h) h 10 (some (fun k _ s => served k s (fun key c t =>
    .jump (((s.leaveTrap key c.core).updMgmt k (fun _ => Mgmt.init)).holdTrapped (keyGid key) c.idx t.detail) []))) s

/-! ## Delivery (R309) and the watchdog (R313) -/

/-- Whether a queued trap comes before another: arrival, then core, then slot (R309). -/
def Crew.trapBefore (a b : Crew) : Bool :=
  let t (c : Crew) : Nat := match c.trap with | some t => t.since | none => 0
  decide (t a < t b) || (t a == t b && (decide (a.core < b.core) || (a.core == b.core && decide (a.slot < b.slot))))

/-- The queued trap that is served next: of a crew without an unanswered request, whose gang has no save pending. -/
def State.nextTrap (s : State) (k : Nat) : Option (Nat × Crew) :=
  let ready := (s.cluster k).trapq.filterMap (fun key => match s.crew key, s.gang (keyGid key) with
    | some c, some g =>
      if c.trap.isSome && !g.stop && !c.splits.any (fun sp => sp.wait == .reply && sp.mask != 0) then some (key, c) else none
    | _, _ => none)
  ready.foldl (fun a x => match a with
    | none => some x
    | some y => some (if x.2.trapBefore y.2 then x else y)) none

/-- TRAP_DELIVERY (R309, R307, R351): the handler is entered. -/
def execTrapDelivery (cluster : Nat) (s : State) : Host.Outcome State Fault Refusal :=
  if (s.mgmt cluster).crew.isSome then .next s
  else match s.nextTrap cluster with
    | none => .next s
    | some (key, c) => match c.trap with
      | none => .next s
      | some t =>
        let s1 := s.setCrew key { c with trap := some { t with inService := true } }
        let m0 := { Mgmt.init with crew := some key, pts := c.pts, since := s.now, nextIssue := s.now,
                                   pc := (s.trapRegs (s.gangAsid (keyGid key))).hbase.toNat + 256 * t.cls }
        let m1 := (m0.setS 0 t.cause).setS 1 (s.slotItem key c)
        .next (s1.updCluster cluster (fun v => { v with trapq := v.trapq.filter (· != key), mc := m1 }))

/-- WATCHDOG_EXPIRY (R313): 100 µs after the entry. -/
def execWatchdogExpiry (cluster : Nat) (s : State) : Host.Outcome State Fault Refusal :=
  let m := s.mgmt cluster
  if m.crew.isSome && decide (m.since + usCycles 100 ≤ s.now) then .next (s.escalate cluster true) else .next s

end Sys2Proof.Machine
end

