-- ==== Sys2Proof/Machine/Tiles.lean ====
section
/-! DEFINITION. Tile instructions but for the matrix multiply and conversion (R220 to R230), opcodes 0xB0 to 0xB7, 0xB9
and 0xBC, and histogram records (R102, R103). -/

namespace Sys2Proof.Machine

/-! ## Tiles of a crew (R89, R221 to R223) -/

/-- A tile a word names: its physical tile and its control register. -/
structure TRef where
  name : Nat
  phys : Nat
  tc : Tc
  deriving DecidableEq, Repr

/-- The tiles of a word, each below the budget, bound and configured (R222 b); none when one is not. -/
def Crew.tref? (c : Crew) : List Nat → Option (List TRef)
  | [] => some []
  | n :: rest => match c.tile? n, c.tref? rest with
    | some (p, v), some l => some ({ name := n, phys := p, tc := v } :: l)
    | _, _ => none

def State.tile (s : State) (gid : Nat) (t : TRef) : TileArr :=
  tileArr (match s.gang gid with | some g => Tab.getD g.tiles t.phys [] | none => [])

/-- A tile's bytes stored. -/
def State.setTile (s : State) (gid : Nat) (t : TRef) (a : TileArr) : State :=
  s.updGang gid (fun g => { g with tiles := Tab.set g.tiles t.phys (tileOfArr a) })

/-- A tile whose every row is overwritten has no uncorrectable error left (R344). -/
def State.freshTile (s : State) (gid : Nat) (t : TRef) (act : Mask) : State :=
  if (List.range (Tc.rows t.tc)).all (fun i => act.getLsbD i) then
    s.updGang gid (fun g => { g with tilePoison := g.tilePoison.filter (· != t.phys) })
  else s

/-- The rows of a tile that a word moves: those of lanes in ACTIVE (R220). -/
def TRef.rowsIn (t : TRef) (act : Mask) : List Nat := act.lanes.filter (fun i => decide (i < Tc.rows t.tc))

/-- The tiles of a word are busy until a cycle (R223). -/
def Crew.holdTiles (c : Crew) (till : Nat) (reads writes : List Nat) : Crew :=
  let up (w r : Bool) (p : Nat × Nat) : Nat × Nat := (if w then max p.1 till else p.1, if r then max p.2 till else p.2)
  { c with tbusy := (List.range 8).map (fun t => up (writes.contains t) (reads.contains t) (c.tbusy.getD t (0, 0))) }

/-- INTEGRITY for a word that reads a tile with an uncorrectable error (R344). -/
def tilesBad (x : Ctx) (s : State) (ts : List TRef) : Option Trap :=
  match s.gang (keyGid x.key) with
  | none => none
  | some g => if ts.any (fun t => g.tilePoison.contains t.phys) then
      some (laneTrap 8 x.e (x.act.lanes.map (fun l => (l, 2 ^ 64 - 1, 0))) 0) else none

/-- A word on tiles: the wait of R223, the tiles it names (R222 b), then its own checks and effect. -/
def tileAct (x : Ctx) (c : Crew) (s : State) (i : Instr) (reads writes : List Nat) (f : List TRef → Act) : Act :=
  if c.tileWait s.now reads writes then .blocked s
  else match c.tref? (reads ++ writes) with
  | none => .trap s (illTrap i x.e x.act)
  | some ts => f ts

/-- The tiles of a list by position. -/
def trefAt (ts : List TRef) (k : Nat) : TRef := ts.getD k { name := 0, phys := 0, tc := 0 }

/-- A tile result: the bytes stored, the flags, the end of the word. -/
def tileDone (x : Ctx) (s : State) (t : TRef) (a : TileArr) (fl : Flags) : Act :=
  .done ((((s.setTile (keyGid x.key) t a)).freshTile (keyGid x.key) t x.act).updCrew x.key (fun c => c.orFlags fl))

/-! ## Configuration (R225) -/

/-- `tcfg`. -/
def execTcfg (h : Hdr) (d a : Reg) (s : State) : Host.Outcome State Fault Refusal :=
  word (.tcfg h d a) h (Hdr.use h [sReg a] []) (fun x c s =>
    let t := d.toNat
    let v : Tc := BitVec.ofNat 32 (c.rs a.toNat)
    if c.tileWait s.now [] [t] then .blocked s
    else if c.ntiles ≤ t || !Tc.legal v then .trap s (illTrap (.tcfg h d a) x.e x.act)
    else if Tc.v v && (c.bind.getD t none).isNone then .trap s (mkTrap 7 x.e x.act 0 0)
    else .done (s.updCrew x.key (fun c => { c with tc := c.tc.set t v }))) s

/-- `tcfgr`: 0 for a name that is unbound or has V = 0. -/
def execTcfgr (h : Hdr) (d a : Reg) (s : State) : Host.Outcome State Fault Refusal :=
  word (.tcfgr h d a) h (Hdr.use h [] [sReg d]) (fun x c s =>
    let t := a.toNat
    if c.ntiles ≤ t then .trap s (illTrap (.tcfgr h d a) x.e x.act)
    else pendNow x s [sWrite d.toNat (if (c.bind.getD t none).isNone || !Tc.v (c.tc.getD t 0) then 0 else (c.tc.getD t 0).toNat)]) s

/-! ## Tile to tile, tile to register (R229, R230) -/

/-- `tzero`. -/
def execTzero (h : Hdr) (d : Reg) (s : State) : Host.Outcome State Fault Refusal :=
  word (.tzero h d) h (Hdr.use h [] []) (fun x c s =>
    tileAct x c s (.tzero h d) [] [d.toNat] (fun ts =>
      let t := trefAt ts 0
      tileDone x s t (elFill (s.tile (keyGid x.key) t) t.tc (t.rowsIn x.act) (Tc.cols t.tc) (fun _ _ => some 0)) 0)) s

/-- Same TYPE, ROWS and COLS. -/
def sameShape (a b : Tc) : Bool := Tc.ty a == Tc.ty b && Tc.rows a == Tc.rows b && Tc.cols a == Tc.cols b

/-- `tmov`. -/
def execTmov (h : Hdr) (d a : Reg) (s : State) : Host.Outcome State Fault Refusal :=
  word (.tmov h d a) h (Hdr.use h [] []) (fun x c s =>
    tileAct x c s (.tmov h d a) [a.toNat] [d.toNat] (fun ts =>
      let ta := trefAt ts 0
      let td := trefAt ts 1
      if !sameShape ta.tc td.tc then .trap s (illTrap (.tmov h d a) x.e x.act)
      else match tilesBad x s [ta] with
      | some t => .trap s t
      | none =>
        let src := s.tile (keyGid x.key) ta
        tileDone x s td (elFill (s.tile (keyGid x.key) td) td.tc (td.rowsIn x.act) (Tc.cols td.tc)
          (fun i j => some (elGet src ta.tc i j))) 0)) s

/-- Whether the matrix unit grants a pipe now (R29): it is free, and no pipe before it in the rotation that was turned
away a cycle ago or less wants it. -/
def CoreSt.grants (k : CoreSt) (pipe now : Nat) : Bool :=
  decide (k.mBusy ≤ now) &&
  !k.mWant.any (fun w => decide (now ≤ w.2 + 1) && w.1 != pipe && decide ((w.1 + 4 - k.mRot) % 4 < (pipe + 4 - k.mRot) % 4))

/-- The grant: the unit is busy for some cycles, and the next pipe in the rotation comes first. -/
def State.grantMatrix (s : State) (core pipe cycles : Nat) : State :=
  s.updCore core (fun k => { k with mBusy := s.now + cycles, mRot := (pipe + 1) % 4,
                                    mWant := k.mWant.filter (fun w => w.1 != pipe) })
/-- A pipe turned away. -/
def State.wantMatrix (s : State) (core pipe : Nat) : State :=
  s.updCore core (fun k => { k with mWant := (pipe, s.now) :: k.mWant.filter (fun w => w.1 != pipe) })

/-- A word that needs the matrix unit: it is held back until the grant. -/
def matrixAct (c : Crew) (s : State) (cycles : Nat) (f : State → Act) : Act :=
  if (s.core c.core).grants c.pipe s.now then f (s.grantMatrix c.core c.pipe cycles) else .blocked (s.wantMatrix c.core c.pipe)

/-- `mtr` (R229, R234). -/
def execMtr (h : Hdr) (d a : Reg) (s : State) : Host.Outcome State Fault Refusal :=
  word (.mtr h d a) h (Hdr.use h [] []) (fun x c s =>
    tileAct x c s (.mtr h d a) [a.toNat] [d.toNat] (fun ts =>
      let ta := trefAt ts 0
      let td := trefAt ts 1
      let bad := Tc.ty ta.tc != Tc.ty td.tc || Ty.isDx (Tc.ty ta.tc) || Tc.rows td.tc != Tc.cols ta.tc ||
        Tc.cols td.tc != Tc.rows ta.tc || (d == a && Tc.rows ta.tc != Tc.cols ta.tc)
      if bad then .trap s (illTrap (.mtr h d a) x.e x.act)
      else match tilesBad x s [ta] with
      | some t => .trap s t
      | none => matrixAct c s (Tc.rows ta.tc) (fun s1 =>
        let src := s1.tile (keyGid x.key) ta
        let s2 := s1.updCrew x.key (fun c => c.holdTiles (s.now + Tc.rows ta.tc) [a.toNat] [d.toNat])
        tileDone x s2 td (elFill (s2.tile (keyGid x.key) td) td.tc (td.rowsIn x.act) (Tc.cols td.tc)
          (fun i j => some (elGet src ta.tc j i))) 0))) s

/-- The columns a register move maps (R230): elements per register, and whether column j0 on are in range. -/
def colsFit (t : TRef) (n j0 : Nat) : Bool :=
  let epr := 32 / (Tc.ty t.tc).bits
  j0 % epr == 0 && decide (j0 + n * epr ≤ Tc.cols t.tc)

/-- BOUNDS at a column start. -/
def colTrap (x : Ctx) (j0 : Nat) : Trap := laneTrap 6 x.e (x.act.lanes.map (fun l => (l, j0, 0))) 0

/-- `tv2t`. -/
def execTv2t (h : Hdr) (nreg : BitVec 2) (d a : Reg) (b : Opnd) (s : State) : Host.Outcome State Fault Refusal :=
  let n := 2 ^ nreg.toNat
  word (.tv2t h nreg d a b) h (Hdr.use h (vReg a n :: Opnd.span b 1) []) (fun x c s =>
    tileAct x c s (.tv2t h nreg d a b) [] [d.toNat] (fun ts =>
      let t := trefAt ts 0
      let j0 := c.sval b % 2 ^ 32
      if !colsFit t n j0 then .trap s (colTrap x j0)
      else
        let w := (Tc.ty t.tc).bits
        let m := n * (32 / w)
        let a1 := (t.rowsIn x.act).foldl (fun arr i =>
          let v := c.rvs a.toNat i n
          (List.range m).foldl (fun arr e => elPut arr t.tc i (j0 + e) (v / 2 ^ (w * e) % 2 ^ w)) arr)
          (s.tile (keyGid x.key) t)
        .done ((s.setTile (keyGid x.key) t a1)))) s

/-! ## Histogram records (R102, R103) -/

/-- The counts to be added: for each word of the record (0 to 31 a bin, 32 ZERO, 33 SPECIAL) how many values. -/
def histCounts (bins : List Nat) : Tab Nat := bins.foldl (fun t b => Tab.set t b (Tab.getD t b 0 + 1)) []

/-- BASE of a record, and whether its reserved bits are 0, from its last sector, bits 1024 to 1279. -/
def histBase (v : Nat) : Int := let b := fld v 64 16; if b < 2 ^ 15 then b else (b : Int) - 2 ^ 16
def histGood (v : Nat) : Bool := fld v 80 176 == 0

/-- The physical pieces of a record, checked (R222 e): five sectors of a write. -/
def histAt (x : Ctx) (c : Crew) (s : State) (va : Nat) (k : List Nat → Act) : Act :=
  let lane := x.act.lanes.getD 0 0
  if va < 2 ^ 57 && va % 32 ≠ 0 then .trap s (laneTrap 1 x.e [(lane, va, dMisalign + dWrite)] 0)
  else checked x c s .gl 1 32 ((List.range 5).map (fun i => (lane, va + 32 * i))) (fun ls =>
    k (ls.map (fun l => match l.2 with | .phys pa => pa | _ => 0)))

/-- Dirty bytes of lines in the crew's own units are published first: the record is read and counted at its home (R66). -/
def State.unitsClean (s : State) (core : Nat) (lines : List Nat) : State × Bool :=
  (crewUnits core).foldl (fun acc u =>
    let held := lines.filter (fun l => match acc.1.span u l with | some v => !v.dirty.isEmpty | none => false)
    (held.foldl (fun s l => s.publishLine u l (fun _ => true)) acc.1, acc.2 && held.isEmpty)) (s, true)

/-- The counts after a word's data (R227): at once, or once the WRITEs of the data have been acknowledged. -/
def countsAfter (x : Ctx) (c : Crew) (s : State) (ps : List Nat) (cs : List (Nat × Nat)) : Act :=
  let now := match s.crew x.key with | some c => c.acks | none => []
  let new := now.filter (fun a => !a.bytes.isEmpty && !c.acks.any (fun b => b.pkt == a.pkt))
  if new.isEmpty then .done (sendCounts x c s ps cs)
  else
    let req (p : Nat) (ls : List Nat) (a : Option (List Nat)) : LaneReq :=
      { pkt := p, entry := x.e, lanes := ls, answer := a, poison := false }
    let s1 := { s with nextId := s.nextId + 1 }
    .wait (s1.updCrew x.key (fun c => { c with reqs := c.reqs ++ new.map (fun a => req a.pkt [] none) ++
      [req s.nextId (ps ++ cs.flatMap (fun w => [w.1, w.2])) (some [])] })) .reply

/-- A word whose values are counted: the last sector of the record is read at its home, with INTEGRITY when it is poisoned (log
entry 65); then the word's own effect, and the counts after it, each a reduction of its own. A malformed record counts nothing
and raises BOUNDS at the boundary (R103, R227). -/
def histThen (x : Ctx) (c : Crew) (s : State) (va : Nat) (bins : Int → List Nat) (data : State → Act) : Act :=
  histAt x c s va (fun ps =>
    let lane := x.act.lanes.getD 0 0
    let g := s.unitsClean c.core (ps.map (· / 128))
    if ps.any (fun p => c.mustWait x.act p 32) then .blocked s
    else if !g.2 then .blocked g.1
    else match g.1.directRead (ps.getD 4 0) 32 c.pts false (some x.key)
        { s.finder (keyGid x.key) 8 with core := some c.core, va := va + 128 } with
      | .later s1 => .blocked s1
      | .ok s1 bs _ po =>
        let v := leVal bs
        if po then .trap s1 (poisonTrap x.e [(lane, va + 128)])
        else match data s1 with
          | .done s2 =>
            if !histGood v then .post s2 { laneTrap 6 x.e [(lane, va, dWrite)] va with aux := va }
            else countsAfter x c s2 ps (histCounts (bins (histBase v)))
          | a => a)

/-- The bin of an element: of its value, an integer's too; of a dx element without its scale (R103, R227, R228). -/
def elBin (t : Ty) (base : Int) (raw : Nat) : Nat := 
  if Ty.isDx t then histBinDx t base raw
  else if t.isFlt then histBin base (fDec t raw)
  else histBin base (.num (decide (iVal t raw < 0)) (iVal t raw).natAbs 0)

/-- The types `hist` counts. -/
def histTy (t : Ty) : Bool := t == .f16 || t == .bf16 || t == .f32 || Ty.isDx t

/-- `hist` (R228). -/
def execHist (h : Hdr) (a b : Reg) (s : State) : Host.Outcome State Fault Refusal :=
  word (.hist h a b) h (Hdr.use h [sReg b] []) (fun x c s =>
    tileAct x c s (.hist h a b) [a.toNat] [] (fun ts =>
      let t := trefAt ts 0
      if !histTy (Tc.ty t.tc) then .trap s (illTrap (.hist h a b) x.e x.act)
      else match tilesBad x s [t] with
      | some tr => .trap s tr
      | none =>
        let arr := s.tile (keyGid x.key) t
        histThen x c s (c.rs b.toNat) (fun base => (t.rowsIn x.act).flatMap (fun i =>
          (List.range (Tc.cols t.tc)).map (fun j => elBin (Tc.ty t.tc) base (elGet arr t.tc i j)))) (fun s1 => .done s1))) s

/-- `tt2v` (R230). -/
def execTt2v (h : Hdr) (nreg : BitVec 2) (hs : Bool) (d a : Reg) (b : Opnd) (s : State) : Host.Outcome State Fault Refusal :=
  let n := 2 ^ nreg.toNat
  let bs : List Span1 := match b with | .s r => if hs then [sRegs r 2] else [sReg r] | _ => []
  word (.tt2v h nreg hs d a b) h (Hdr.use h bs [vReg d n]) (fun x c s =>
    tileAct x c s (.tt2v h nreg hs d a b) [a.toNat] [] (fun ts =>
      let t := trefAt ts 0
      let j0 := c.sval b % 2 ^ 32
      if !colsFit t n j0 then .trap s (colTrap x j0)
      else match tilesBad x s [t] with
      | some tr => .trap s tr
      | none =>
        let arr := s.tile (keyGid x.key) t
        let w := (Tc.ty t.tc).bits
        let m := n * (32 / w)
        let rows := t.rowsIn x.act
        let val (i : Nat) : Nat := (List.range m).foldl (fun v e => v + elGet arr t.tc i (j0 + e) * 2 ^ (w * e)) 0
        let data (s : State) : Act := pendNow x s (c.vecWrites d.toNat n (Mask.ofLanes rows) val)
        if hs then
          histThen x c s (c.rs ((match b with | .s r => r.toNat | _ => 0) + 1)) (fun base => rows.flatMap (fun i =>
            (List.range m).map (fun e => elBin (Tc.ty t.tc) base (elGet arr t.tc i (j0 + e))))) data
        else data s)) s

/-! ## Memory transfers (R226, R227) -/

/-- The moved accesses of a lane: (column, address), those that fail an earlier check of R184 first. -/
def rowMoves (t : TRef) (space : Space) (scrSz n base : Nat) (stride : Int) (cn i : Nat) : List (Nat × Nat) :=
  let w := (Tc.ty t.tc).bits
  let js := if w = 4 then (List.range (cn / 2)).map (2 * ·) else List.range cn
  let ea (j : Nat) : Nat :=
    ((if Tc.col t.tc then (base : Int) + j * stride + (i * w / 8 : Nat) else (base : Int) + i * stride + (j * w / 8 : Nat))
      % (2 ^ 64 : Nat)).toNat
  let ms := js.map (fun j => (j, ea j))
  let rank (a : Nat) : Nat := match space with
    | .gl => if 2 ^ 57 ≤ a then 0 else if a % n ≠ 0 then 1 else 2
    | _ => if scrSz < a + n then 0 else if a % n ≠ 0 then 1 else 2
  ms.filter (fun m => rank m.2 == 0) ++ ms.filter (fun m => rank m.2 == 1) ++ ms.filter (fun m => rank m.2 == 2)

/-- The transfer that a word asks for: its moves as (lane, column, address), the bytes of a move, the columns moved. -/
def tileMoves (x : Ctx) (c : Crew) (s : State) (t : TRef) (space : Space) (a b : Reg) : List (Nat × Nat × Nat) × Nat × Nat :=
  let w := (Tc.ty t.tc).bits
  let n := if w = 4 then 1 else w / 8
  let sb := c.rs b.toNat
  let cn0 := min (fld sb 32 9) (Tc.cols t.tc)
  let cn := if w = 4 then (cn0 + 1) / 2 * 2 else cn0
  let sz := match space with
    | .sp => (match s.gang (keyGid x.key) with | some g => g.scrSz | none => 0)
    | _ => (s.params (keyGid x.key)).length
  ((t.rowsIn x.act).flatMap (fun i =>
    (rowMoves t space sz n (c.rs a.toNat) (sext32 (sb % 2 ^ 32)) cn i).map (fun m => (i, m.1, m.2))), n, cn)

/-- `tld`. -/
def execTld (h : Hdr) (scope : Scope) (order : Order) (space : Space) (zf : Bool) (d a b : Reg) (s : State) :
    Host.Outcome State Fault Refusal :=
  word (.tld h scope order space zf d a b) h (Hdr.use h [sReg a, sReg b] []) (fun x c s =>
    tileAct x c s (.tld h scope order space zf d a b) [] [d.toNat] (fun ts =>
      let t := trefAt ts 0
      let mv := tileMoves x c s t space a b
      let eas := mv.1.map (fun m => (m.1, m.2.2))
      checked x c s space 0 mv.2.1 eas (fun locs =>
        match s.load x.key x.e c scope order false x.det mv.2.1 eas locs with
        | .later s1 => .blocked s1
        | .poison s1 bad => .trap s1 (poisonTrap x.e bad)
        | .bytes s1 bs =>
          let p := s1.loadPts x.key c scope order mv.2.1 locs
          let dx4 := (Tc.ty t.tc).bits == 4
          let arr := (mv.1.zip bs).foldl (fun arr m =>
            let v := leVal m.2.2
            if dx4 then elPut (elPut arr t.tc m.1.1 m.1.2.1 (v % 16)) t.tc m.1.1 (m.1.2.1 + 1) (v / 16)
            else elPut arr t.tc m.1.1 m.1.2.1 v) (s1.tile (keyGid x.key) t)
          let arr1 := if zf then elFill arr t.tc (t.rowsIn x.act) (Tc.cols t.tc)
              (fun _ j => if mv.2.2 ≤ j then some 0 else none) else arr
          .done ((s1.setTile (keyGid x.key) t arr1).updCrew x.key (fun c => { c with pts := p }))) true)) s

/-- `tst`. -/
def execTst (h : Hdr) (scope : Scope) (order : Order) (space : Space) (hs : Bool) (d a b : Reg) (s : State) :
    Host.Outcome State Fault Refusal :=
  word (.tst h scope order space hs d a b) h (Hdr.use h [sReg a, if hs then sRegs b 2 else sReg b] []) (fun x c s =>
    tileAct x c s (.tst h scope order space hs d a b) [d.toNat] [] (fun ts =>
      let t := trefAt ts 0
      let mv := tileMoves x c s t space a b
      let eas := mv.1.map (fun m => (m.1, m.2.2))
      let ty := Tc.ty t.tc
      checked x c s space 1 mv.2.1 eas (fun locs =>
        match tilesBad x s [t] with
        | some tr => .trap s tr
        | none =>
          let arr := s.tile (keyGid x.key) t
          let byteOf (i j : Nat) : Nat :=
            if ty.bits = 4 then elGet arr t.tc i j + 16 * elGet arr t.tc i (j + 1) else elGet arr t.tc i j
          let ls := (mv.1.zip locs).map (fun m => (m.1.1, m.2.2, leBytes (byteOf m.1.1 m.1.2.1) mv.2.1))
          if hs then
            histThen x c s (c.rs (b.toNat + 1)) (fun base => mv.1.flatMap (fun m =>
              if ty.bits = 4 then [elBin ty base (elGet arr t.tc m.1 m.2.1), elBin ty base (elGet arr t.tc m.1 (m.2.1 + 1))]
              else [elBin ty base (elGet arr t.tc m.1 m.2.1)])) (fun s1 => storeAct x c s1 scope order eas ls)
          else storeAct x c s scope order eas ls))) s

end Sys2Proof.Machine
end

