-- ==== Sys2Proof/Machine/Matrix.lean ====
section
/-! DEFINITION. The matrix multiply, tile conversion, reduction and arithmetic (R231 to R240), opcodes 0xB8, 0xBA, 0xBB
and 0xBD to 0xBF. -/

namespace Sys2Proof.Machine

/-! ## Format words and scale bytes (R93 to R96) -/

/-- The agreed format word of the active lanes, or FMTDIV (R94). -/
def fmtWord (x : Ctx) (c : Crew) (s : State) (r : Reg) (f : Nat → Act) : Act :=
  let ws := x.act.lanes.map (fun l => (l, c.rv r.toNat l))
  let w := (ws.getD 0 (0, 0)).2
  if ws.all (fun v => v.2 == w) then f w else .trap s (laneTrap 3 x.e (ws.map (fun v => (v.1, v.2, 0))) 0)

/-- Byte `b` of a lane's vector group from vR on (R96). -/
def Crew.scaleByte (c : Crew) (r lane b : Nat) : Nat := fld (c.rv (r + b / 4) lane) (8 * (b % 4)) 8

/-- The value of an element: with scale bytes for a dx type, its own for a float. -/
def elVal (t : Ty) (raw e0 e1 : Nat) : FVal := if Ty.isDx t then dxVal t raw e0 e1 else fDec t raw

/-- Registers that a word reads only for some types: `none` while the scoreboard holds one. -/
def Crew.groupFree (c : Crew) (r n : Nat) : Bool :=
  c.pend.all (fun p => p.ws.all (fun w => match w.reg with
    | .v k => decide (k < c.wb + r) || decide (c.wb + r + n ≤ k)
    | _ => true))
/-- And no issued fixed-latency result is on its way to them (R240). -/
def Crew.groupQuiet (c : Crew) (r n : Nat) : Bool :=
  c.groupFree r n && c.fix.all (fun p => match p.w.reg with
    | .v k => decide (k < c.wb + r) || decide (c.wb + r + n ≤ k)
    | _ => true)

/-- Whether the scoreboard holds a scalar register. -/
def Crew.scalarFree (c : Crew) (n : Nat) : Bool := c.pend.all (fun p => p.ws.all (fun w => w.reg != .s n))

/-- Registers that a word is found to read only once it has issued: it waits for the scoreboard, then a short read is as any other
(R29, R145, R151), then a cell with an uncorrectable error (R344). -/
def lateReads (x : Ctx) (c : Crew) (s : State) (us : List Span1) (free : Bool) (k : Act) : Act :=
  let u : WUse := { pred := 7, pn := false, src := us, dst := [], det := none }
  if !free then .blocked s
  else match (if x.det || c.status.getLsbD 9 then c.shortRead x.e u else none) with
    | some aux => .trap s (mkTrap 4 x.e x.act 0 aux)
    | none =>
      let bad := c.badLanes u (2 ^ 32 - 1)
      if bad.isEmpty then k else .trap s (laneTrap 8 x.e (bad.map (fun l => (l, 2 ^ 64 - 1, 0))) 0)

/-! ## `mma` (R231 to R234) -/

/-- The operands of an `mma` as read at issue. -/
structure MmaIn where
  ty : Ty
  cty : Ty
  k : Nat
  n : Nat
  nd : Nat
  fmt : Nat
  scl : Nat
  deps : List Nat
  cols : List Nat
  deriving DecidableEq, Repr

/-- The busy cycles (R234). -/
def mmaCycles (t : Ty) (n : Nat) : Nat :=
  (match t with | .f16 | .bf16 => 32 | .f32 => 64 | _ => 16) * n / 64

/-- The value of an accumulator's element, or the reduce identity with ZC. -/
def mmaCin (t : Ty) (zc : Bool) (semi raw : Nat) : FVal := if zc then semiId semi else fDec t raw

/-- One output element (R233): the row of A and the column of B as raw elements at the enabled depths, with their scale
bytes. -/
def mmaOut (m : MmaIn) (zc : Bool) (as bs : List (Nat × Nat × Nat)) (raw : Nat) : FRes :=
  let rnd := fmtRnd m.fmt
  let sat := fmtSat m.fmt
  match m.cty with
  | .i32 => mmaInt sat ((as.zip bs).map (fun p => (iVal .i8 p.1.1, iVal .i8 p.2.1))) (if zc then 0 else iVal .i32 raw)
  | .n8 => mmaOr ((as.zip bs).map (fun p => (p.1.1, p.2.1))) (if zc then 0 else raw)
  | t => mmaFlt t (fmtSemi m.fmt) rnd sat ((as.zip bs).map (fun p =>
      (elVal m.ty p.1.1 p.1.2.1 p.1.2.2, elVal m.ty p.2.1 p.2.2.1 p.2.2.2))) (mmaCin t zc (fmtSemi m.fmt) raw)

/-- Scale bytes at a depth: `b` the first byte of block 0. -/
def Crew.scalesAt (c : Crew) (dx : Bool) (r lane b k : Nat) : Nat × Nat :=
  if dx then (c.scaleByte r lane (b + 2 * (k / 32)), c.scaleByte r lane (b + 2 * (k / 32) + 1)) else (0, 0)

/-- The new bytes of the D tiles, one after another, and the flags. -/
def mmaRun (x : Ctx) (c : Crew) (m : MmaIn) (zc : Bool) (a : TileArr × Tc) (bs ds : List (TileArr × Tc)) :
    List TileArr × Flags :=
  let dx := Ty.isDx m.ty
  let arow (i : Nat) : List (Nat × Nat × Nat) := m.deps.map (fun k =>
    (elGet a.1 a.2 i k, c.scalesAt dx m.scl i (4 * fmtSA m.fmt) k))
  let none : TileArr × Tc := (#[], 0)
  let bcol (y : Nat) : List (Nat × Nat × Nat) := m.deps.map (fun k =>
    let b := bs.getD (y / 32) none
    (elGet b.1 b.2 (y % 32) k, c.scalesAt dx (m.scl + 4) (y % 32) (8 * (y / 32) + 4 * fmtSB m.fmt) k))
  let cols := m.cols.map (fun y => (y, bcol y))
  let rows := x.act.lanes.map (fun i => (i, arow i))
  let outs := (List.range ds.length).map (fun q =>
    let d := ds.getD q none
    rows.foldl (fun (acc : TileArr × Flags) r => cols.foldl (fun (acc : TileArr × Flags) y =>
      if y.1 / m.nd = q then
        let o := mmaOut m zc r.2 y.2 (elGet d.1 d.2 r.1 (y.1 % m.nd))
        (elPut acc.1 d.2 r.1 (y.1 % m.nd) o.bits, acc.2 ||| o.fl)
      else acc) acc) (d.1, 0))
  (outs.map Prod.fst, Flags.any (outs.map Prod.snd))

/-- The tiles of an operand group from `t` on. -/
def tileGroup (t n : Nat) : List Nat := (List.range n).map (· + t)

def mmaAct (x : Ctx) (c : Crew) (s : State) (i : Instr) (nsel : BitVec 2) (msk zc : Bool) (mq : BitVec 4) (scl : BitVec 3)
    (d a b w k : Nat) : Act :=
  let ill : Act := .trap s (illTrap i x.e x.act)
  let ty := fmtA w
  let cty := fmtC w
  let n := 8 * 2 ^ nsel.toNat
  let gb := if n = 64 then 2 else 1
  let gd := if n = 64 && (cty == .f32 || cty == .i32) then 2 else 1
  let bs := tileGroup b gb
  let ds := tileGroup d gd
  let q := 4 * mq.toNat
  if c.tileWait s.now (a :: bs) ds then .blocked s
  else match c.tref? [a], c.tref? bs, c.tref? ds with
  | some [ta], some tbs, some tds =>
    let shape (t : TRef) (ty : Ty) (r c : Nat) : Bool := Tc.ty t.tc == ty && Tc.rows t.tc == r && Tc.cols t.tc == c
    let apart := !bs.contains a && !ds.contains a && !bs.any ds.contains
    let fits := shape ta ty 32 k && tbs.all (fun t => shape t ty (min n 32) k) && tds.all (fun t => shape t cty 32 (n / gd))
    let dx := Ty.isDx ty
    let g := 8 * scl.toNat
    if !fits || !apart || b % gb != 0 || d % gd != 0 || (dx && decide (c.win < g + 8)) then ill
    else match tilesBad x s ((ta :: tbs) ++ (if zc then [] else tds)) with
    | some t => .trap s t
    | none => matrixAct c s (mmaCycles ty n) (fun s1 =>
      let on (v bit : Nat) : Bool := !msk || fld v bit 1 == 1
      let m : MmaIn :=
        { ty := ty, cty := cty, k := k, n := n, nd := n / gd, fmt := w, scl := g,
          deps := (List.range k).filter (fun j => if j < 64 then on (c.rs (q + 1)) j else on (c.rs (q + 2)) (j - 64)),
          cols := (List.range n).filter (fun j => on (c.rs q) j) }
      let get (t : TRef) : TileArr × Tc := (s1.tile (keyGid x.key) t, t.tc)
      let o := mmaRun x c m zc (get ta) (tbs.map get) (tds.map get)
      let s2 := (tds.zip o.1).foldl (fun s t => s.setTile (keyGid x.key) t.1 t.2) s1
      .done (s2.updCrew x.key (fun c =>
        (c.orFlags o.2).holdTiles (s.now + mmaCycles ty n) (a :: bs) ds)))
  | _, _, _ => ill

/-- `mma`. -/
def execMma (h : Hdr) (nsel : BitVec 2) (msk zc : Bool) (mq : BitVec 4) (scl : BitVec 3) (d a b r : Reg) (s : State) :
    Host.Outcome State Fault Refusal :=
  let i : Instr := .mma h nsel msk zc mq scl d a b r
  let q : Reg := BitVec.ofNat 6 (4 * mq.toNat)
  let qs : List Span1 := if msk then [sRegs q 2] else []
  word i h (Hdr.use h (vReg r 1 :: qs) []) (fun x c s =>
    fmtWord x c s r (fun w =>
      let k := fmtMma w
      let g : Reg := BitVec.ofNat 6 (8 * scl.toNat)
      let dx := Ty.isDx (fmtA w) && decide (g.toNat + 8 ≤ c.win)
      let far := msk && (match k with | some n => decide (64 < n) | none => false)
      lateReads x c s ((if dx then [vReg g 8] else []) ++ (if far then [sReg (q + 2)] else []))
        ((!dx || c.groupFree g.toNat 8) && (!far || c.scalarFree (q.toNat + 2))) (match k with
        | none => .trap s (illTrap i x.e x.act)
        | some k => mmaAct x c s i nsel msk zc mq scl d.toNat a.toNat b.toNat w k))) s

/-! ## Conversion (R235 to R237) -/

/-- The two tiles of a conversion, and its format word, checked; `scales` are the scale registers that the format word reads. -/
def cvtTiles (x : Ctx) (c : Crew) (s : State) (i : Instr) (d a r : Reg) (scales : Nat → List Span1)
    (ok : Nat → Bool) (f : Nat → TRef → TRef → Act) : Act :=
  if c.tileWait s.now [a.toNat] [d.toNat] then .blocked s
  else fmtWord x c s r (fun w =>
    let ill : Act := .trap s (illTrap i x.e x.act)
    lateReads x c s (scales w) ((scales w).all (fun u => match u.reg with | .v n => c.groupFree n u.n | _ => true)) <|
    if !ok w then ill
    else match c.tref? [a.toNat, d.toNat] with
    | some [ta, td] =>
      if Tc.ty ta.tc != fmtA w || Tc.ty td.tc != fmtC w || Tc.rows ta.tc != Tc.rows td.tc || Tc.cols ta.tc != Tc.cols td.tc
          || d == a then ill
      else f w ta td
    | _ => ill)

/-- A byte of a vector quad replaced. -/
def putByte (ws : List Nat) (b v : Nat) : List Nat := ws.set (b / 4) (setFld (ws.getD (b / 4) 0) (8 * (b % 4)) 8 v)

/-- `tquant` (R236). -/
def execTquant (h : Hdr) (soff : BitVec 2) (d a b r : Reg) (s : State) : Host.Outcome State Fault Refusal :=
  let i : Instr := .tquant h soff d a b r
  word i h (Hdr.use h [vReg b 4, vReg r 1] [vReg b 4]) (fun x c s =>
    cvtTiles x c s i d a r (fun _ => []) fmtQuant (fun w ta td =>
      let nb := Tc.cols ta.tc / 32
      if 16 < 4 * soff.toNat + 2 * nb then .trap s (illTrap i x.e x.act)
      else match tilesBad x s [ta] with
      | some t => .trap s t
      | none =>
        let src := s.tile (keyGid x.key) ta
        let rows := ta.rowsIn x.act
        let blocks := rows.map (fun i => (i, (List.range nb).map (fun q =>
          quantBlock (fmtA w) (fmtC w) (fmtRnd w) (fmtSat w) ((List.range 32).map (fun j => elGet src ta.tc i (32 * q + j))))))
        let arr := blocks.foldl (fun arr row => ((List.range nb).zip row.2).foldl (fun arr q =>
          ((List.range 32).zip q.2.1).foldl (fun arr e => elPut arr td.tc row.1 (32 * q.1 + e.1) e.2) arr) arr)
          (s.tile (keyGid x.key) td)
        let fl := Flags.any (blocks.flatMap (fun row => row.2.map (fun q => q.2.2.2)))
        let quad (i : Nat) : List Nat :=
          let old := (List.range 4).map (fun k => c.rv (b.toNat + k) i)
          match blocks.find? (fun row => row.1 == i) with
          | none => old
          | some row => ((List.range nb).zip row.2).foldl (fun ws q =>
              putByte (putByte ws (4 * soff.toNat + 2 * q.1) q.2.2.1) (4 * soff.toNat + 2 * q.1 + 1) q.2.2.2.1) old
        let val (i : Nat) : Nat := (quad i).foldr (fun w v => w + 2 ^ 32 * v) 0
        match tileDone x s td arr fl with
        | .done s1 => pendNow x s1 (c.vecWrites b.toNat 4 (Mask.ofLanes rows) val)
        | a => a)) s

/-- `tcvt` (R237). -/
def execTcvt (h : Hdr) (soff : BitVec 2) (d a b r : Reg) (s : State) : Host.Outcome State Fault Refusal :=
  let i : Instr := .tcvt h soff d a b r
  word i h (Hdr.use h [vReg r 1] []) (fun x c s =>
    cvtTiles x c s i d a r (fun w => if Ty.isDx (fmtA w) && decide (b.toNat + 4 ≤ c.win) then [vReg b 4] else []) fmtCvt (fun w ta td =>
      let at0 := fmtA w
      let dx := Ty.isDx at0
      let nb := Tc.cols ta.tc / 32
      if (dx && (decide (16 < 4 * soff.toNat + 2 * nb) || decide (c.win < b.toNat + 4))) || (!dx && b != 0) then
        .trap s (illTrap i x.e x.act)
      else match tilesBad x s [ta] with
      | some t => .trap s t
      | none =>
        let src := s.tile (keyGid x.key) ta
        let out (i j : Nat) : FRes :=
          let raw := elGet src ta.tc i j
          let v : FVal :=
            if dx then
              let e := c.scalesAt true b.toNat i (4 * soff.toNat) j
              dxVal at0 raw e.1 e.2
            else if at0 == .i32 then .num (decide (iVal .i32 raw < 0)) (iVal .i32 raw).natAbs 0
            else fDec at0 raw
          cvtElem (fmtC w) (fmtRnd w) (fmtSat w) v
        let r := (ta.rowsIn x.act).foldl (fun (acc : TileArr × Flags) i =>
          (List.range (Tc.cols td.tc)).foldl (fun (acc : TileArr × Flags) j =>
            let o := out i j
            (elPut acc.1 td.tc i j o.bits, acc.2 ||| o.fl)) acc) (s.tile (keyGid x.key) td, 0)
        tileDone x s td r.1 r.2)) s

/-! ## Reduction and elementwise arithmetic (R238 to R240) -/

/-- A tile element as an f32 (R238). -/
def toF32 (t : Ty) (raw : Nat) : FRes :=
  match t with
  | .f32 => { bits := raw, fl := 0 }
  | .dx8 => fDeliver .f32 .rne false (.num (fld raw 6 1 == 1) (raw % 64) 0)
  | .dx4 => fDeliver .f32 .rne false (.num (fld raw 2 1 == 1) (raw % 4) 0)
  | t => fDeliver .f32 .rne false (fDec t raw)

/-- The reduction of one row. -/
def tredRow (t : Ty) (op : Nat) (rnd : Rnd) (xs : List Nat) : FRes :=
  if t.isInt then reduxTerms op (if t == .n8 then .n32 else .i32) rnd (xs.map (fun v => iExt t v % 2 ^ 32))
  else
    let fs := xs.map (toF32 t)
    let r := reduxTerms op .f32 rnd (fs.map FRes.bits)
    { r with fl := Flags.any (r.fl :: fs.map FRes.fl) }

/-- `tred`. -/
def execTred (h : Hdr) (op : BitVec 4) (rnd : Rnd) (d a : Reg) (b : Opnd) (s : State) : Host.Outcome State Fault Refusal :=
  let i : Instr := .tred h op rnd d a b
  word i h (Hdr.use h (Opnd.span b 1) [vReg d 1]) (fun x c s =>
    tileAct x c s i [a.toNat] [] (fun ts =>
      let t := trefAt ts 0
      let ty := Tc.ty t.tc
      if ty.isInt != decide (op.toNat < 6) then .trap s (illTrap i x.e x.act)
      else match tilesBad x s [t] with
      | some tr => .trap s tr
      | none =>
        let arr := s.tile (keyGid x.key) t
        let cn := min (c.sval b % 2 ^ 32) (Tc.cols t.tc)
        let rows := t.rowsIn x.act
        let rs := (List.range 32).map (fun i => if rows.contains i then
          tredRow ty op.toNat rnd ((List.range cn).map (fun j => elGet arr t.tc i j)) else { bits := 0, fl := 0 })
        pendNow x (s.updCrew x.key (fun c => c.orFlags (Flags.any (rs.map FRes.fl))))
          (c.vecWrites d.toNat 1 (Mask.ofLanes rows) (fun i => (rs.getD i { bits := 0, fl := 0 }).bits)))) s

/-- One element of `tadd` (R239). -/
def taddElem (t : Ty) (op : Nat) (rnd : Rnd) (sat : Bool) (a b : Nat) : FRes :=
  if t == .i32 then
    let x := iVal .i32 a
    let y := iVal .i32 b
    let v : Int := match op with
      | 0 => x + y
      | 1 => x - y
      | 2 => x * y
      | 3 => min x y
      | _ => max x y
    { bits := iWrap .i32 (if sat then iSat .i32 v else v), fl := 0 }
  else match op with
    | 0 => fAdd t rnd sat (fDec t a) (fDec t b)
    | 1 => fAdd t rnd sat (fDec t a) (fDec t b).negate
    | 2 => fMul t rnd sat (fDec t a) (fDec t b)
    | 3 => fMinMax t false a b
    | _ => fMinMax t true a b

/-- `tadd`. -/
def execTadd (h : Hdr) (op : BitVec 4) (rnd : Rnd) (sat : Bool) (d a b : Reg) (s : State) : Host.Outcome State Fault Refusal :=
  let i : Instr := .tadd h op rnd sat d a b
  word i h (Hdr.use h [] []) (fun x c s =>
    tileAct x c s i [a.toNat, b.toNat] [d.toNat] (fun ts =>
      let ta := trefAt ts 0
      let tb := trefAt ts 1
      let td := trefAt ts 2
      let ty := Tc.ty td.tc
      let o := op.toNat
      let bad := !sameShape ta.tc td.tc || !sameShape tb.tc td.tc || !(ty == .i32 || ty == .f16 || ty == .bf16 || ty == .f32) ||
        (decide (3 ≤ o) && (rnd != .rne || sat)) || (ty == .i32 && (rnd != .rne || (o == 2 && sat)))
      if bad then .trap s (illTrap i x.e x.act)
      else match tilesBad x s [ta, tb] with
      | some t => .trap s t
      | none =>
        let xa := s.tile (keyGid x.key) ta
        let xb := s.tile (keyGid x.key) tb
        let r := (td.rowsIn x.act).foldl (fun (acc : TileArr × Flags) i =>
          (List.range (Tc.cols td.tc)).foldl (fun (acc : TileArr × Flags) j =>
            let v := taddElem ty o rnd sat (elGet xa ta.tc i j) (elGet xb tb.tc i j)
            (elPut acc.1 td.tc i j v.bits, acc.2 ||| v.fl)) acc) (s.tile (keyGid x.key) td, 0)
        tileDone x s td r.1 r.2)) s

/-- `tmulv` (R240). -/
def execTmulv (h : Hdr) (colm : Bool) (rnd : Rnd) (sat : Bool) (d a b r : Reg) (s : State) : Host.Outcome State Fault Refusal :=
  let i : Instr := .tmulv h colm rnd sat d a b r
  word i h (Hdr.use h (if colm then [] else [vReg b 1, vReg r 1]) []) (fun x c s =>
    tileAct x c s i [a.toNat] [d.toNat] (fun ts =>
      let ta := trefAt ts 0
      let td := trefAt ts 1
      let ty := Tc.ty td.tc
      let n := (Tc.cols ta.tc + 31) / 32
      if !sameShape ta.tc td.tc || !(ty == .f16 || ty == .bf16 || ty == .f32) ||
          (colm && (decide (c.win < b.toNat + n) || decide (c.win < r.toNat + n))) then .trap s (illTrap i x.e x.act)
      else if colm && (!c.groupQuiet b.toNat n || !c.groupQuiet r.toNat n) then .blocked s
      else lateReads x c s (if colm then [vReg b n, vReg r n] else []) true <| match tilesBad x s [ta] with
      | some t => .trap s t
      | none =>
        let src := s.tile (keyGid x.key) ta
        let reg (g : Reg) (i j : Nat) : FVal :=
          fDec .f32 (if colm then c.rv (g.toNat + j / 32) (j % 32) else c.rv g.toNat i)
        let o := (td.rowsIn x.act).foldl (fun (acc : TileArr × Flags) i =>
          (List.range (Tc.cols td.tc)).foldl (fun (acc : TileArr × Flags) j =>
            let v := fFma ty rnd sat (fDec ty (elGet src ta.tc i j)) (reg b i j) (reg r i j)
            (elPut acc.1 td.tc i j v.bits, acc.2 ||| v.fl)) acc) (s.tile (keyGid x.key) td, 0)
        tileDone x s td o.1 o.2)) s

end Sys2Proof.Machine
end

