-- ==== Sys2Proof/Machine/Slices.lean ====
section
/-! DEFINITION. Access slices (R118 to R120, R253 to R257), opcodes 0xE0 to 0xE7, as a gang's pump executes them. -/

namespace Sys2Proof.Machine

/-- The meaning of a slice word for a pump: gang, its data, its pump, the state. -/
abbrev PBody := Nat → Gang → Pump → State → State

/-- A slice word: a pump executes it, a crew or a management core raises ILL (R150). -/
def sliceWord (i : Instr) (h : Hdr) (f : PBody) (s : State) : Host.Outcome State Fault Refusal :=
  match s.cur with
  | .pump gid => (match s.gang gid with
    | some g => (match g.pump with
      | some p => .next (f gid g p s)
      | none => .fault .noIssuer)
    | none => .fault .noIssuer)
  | _ => refusedWord i h 0 none s

/-- A pump changed. -/
def State.setPump (s : State) (gid : Nat) (p : Pump) : State := s.updGang gid (fun g => { g with pump := some p })

/-- A word retired with the pump's new registers, at the next word or at `pc`. -/
def State.pumpDone (s : State) (gid : Nat) (p : Pump) (pc : Nat) : State :=
  s.setPump gid { p with pc := pc, wait := .none, word := none, tried := none, walks := [] }
def State.pumpNext (s : State) (gid : Nat) (p : Pump) : State := s.pumpDone gid p (p.pc + 8)
/-- A word that cannot proceed in this cycle. -/
def State.pumpLater (s : State) (gid : Nat) : State :=
  s.updGang gid (fun g => { g with pump := g.pump.map (fun p => { p with tried := some s.now }) })
/-- A word that waits. -/
def State.pumpWait (s : State) (gid : Nat) (i : Instr) (w : Wait) : State :=
  s.updGang gid (fun g => { g with pump := g.pump.map (fun p => { p with wait := w, word := some i }) })

/-- The gang's lowest-indexed live crew, as FCREW names it (R253, R321). -/
def State.pumpCrew (s : State) (gid : Nat) : Nat := match s.lowestCrew gid with | some c => c.2.idx | none => 0

/-- `pm(x, k)`: none outside the parameters (R254). -/
def State.pm (s : State) (gid x k : Nat) : Option Nat :=
  let ps := s.params gid
  if ps.length < x + k then none else some (leVal ((ps.drop x).take k))

/-! ## Loops (R254) -/

/-- What a search of the slice finds: the address of a word, nothing within bounds, or a fetch that is not ready, fails
or meets a held page. -/
inductive Found where
  | addr (va : Nat)
  | none
  | later (s : State)
  | fault (va : Nat)
  | held (va : Nat)
  deriving DecidableEq, Repr

/-- 1 for an `ax.loop`, 2 for an `ax.end`, 0 for another word of opcode 0xE0 to 0xE7, 3 for any other word, which lies past the end
of the slice (R254, R266; log entry 68). -/
def loopWord (bs : List Byte) : Nat :=
  match decode bs with
  | .ok (.axLoop _ _ _, _) => 1
  | .ok (.axEnd _, _) => 2
  | _ => if fld (leVal bs) 63 1 = 0 && fld (leVal bs) 50 5 = 0x1C then 0 else 3

/-- The word that closes (`back = false`) or opens the loop level at depth 0, in steps of one word from `va`; `n` bounds
the search, which stays in the slice. -/
def State.findLoop (s : State) (gid : Nat) (g : Gang) (p : Pump) (back : Bool) : Nat → Nat → Nat → Found
  | 0, _, _ => .none
  | n + 1, va, depth =>
    match s.fetchWord (.core g.core) (.pump gid) (s.gangAsid gid) va p.walks false with
    | .inl (.later s1) => .later s1
    | .inl (.held v) => .held v
    | .inl (.fault v _) => .fault v
    | .inl (.word _) => .none
    | .inr bs =>
      let k := loopWord bs
      let next := if back then va - 8 else va + 8
      let opens := if back then 2 else 1
      let closes := if back then 1 else 2
      if k = closes && depth = 0 then .addr va
      else if k = 3 || (back && va < 8) then .none
      else s.findLoop gid g p back n next (if k = opens then depth + 1 else if k = closes then depth - 1 else depth)

/-- The words of an address space (R331): a search ends within them. -/
def sliceWords : Nat := 2 ^ 54

/-- A search's outcome for the word that needs it. -/
def State.withFound (s : State) (gid : Nat) (i : Instr) (r : Found) (f : Nat → State) : State :=
  match r with
  | .addr va => f va
  | .none => s.pumpIll i gid
  | .later s1 => s1.pumpLater gid
  | .fault va => s.pumpTrap gid 1 1 va 0
  | .held va => s.longService gid (s.pumpCrew gid) va (1 + dPump)

/-- `ax.loop` (R254). -/
def execAxLoop (h : Hdr) (p : Bool) (n : BitVec 16) (s : State) : Host.Outcome State Fault Refusal :=
  let i : Instr := .axLoop h p n
  sliceWord i h (fun gid g u s =>
    match (if p then s.pm gid (4 * n.toNat) 4 else some n.toNat) with
    | none => s.pumpTrap gid 6 0 (4 * n.toNat) 0
    | some c =>
      if 4 ≤ u.loops.length then s.pumpIll i gid
      else if c = 0 then
        s.withFound gid i (s.findLoop gid g u false sliceWords (u.pc + 8) 0) (fun va => s.pumpDone gid u (va + 8))
      else s.pumpNext gid { u with loops := u.loops ++ [(c, 0)] }) s

/-- strd[i][l]. -/
def Pump.stride (p : Pump) (i l : Nat) : W64 := p.strd.getD (4 * i + l) 0

/-- `ax.end` (R254). -/
def execAxEnd (h : Hdr) (s : State) : Host.Outcome State Fault Refusal :=
  let i : Instr := .axEnd h
  sliceWord i h (fun gid g u s =>
    match u.loops.getLast? with
    | none => s.pumpIll i gid
    | some (n, c) =>
      let l := u.loops.length - 1
      let a := (List.range 8).map (fun k => u.a.getD k 0 + u.stride k l)
      if c + 1 < n then
        s.withFound gid i (s.findLoop gid g u true sliceWords (u.pc - 8) 0) (fun va =>
          s.pumpDone gid { u with a := a, loops := u.loops.dropLast ++ [(n, c + 1)] } (va + 8))
      else
        let b := (List.range 8).map (fun k => a.getD k 0 - BitVec.ofNat 64 n * u.stride k l)
        s.pumpNext gid { u with a := b, loops := u.loops.dropLast }) s

/-- `ax.base` (R254). -/
def execAxBase (h : Hdr) (d : Reg) (k : BitVec 2) (off : BitVec 12) (s : State) : Host.Outcome State Fault Refusal :=
  sliceWord (.axBase h d k off) h (fun gid g u s =>
    let mul := match k.toNat with | 0 => 0 | 1 => g.gx | 2 => g.gy | _ => s.gangG gid
    match s.pm gid (8 * off.toNat) 8, (if k = 0 then some 0 else s.pm gid (8 * off.toNat + 8) 8) with
    | some x, some y => s.pumpNext gid { u with a := u.a.set d.toNat (BitVec.ofNat 64 (x + mul * y)) }
    | none, _ => s.pumpTrap gid 6 0 (8 * off.toNat) 0
    | some _, none => s.pumpTrap gid 6 0 (8 * off.toNat + 8) 0) s

/-- `ax.strd` (R254). -/
def execAxStrd (h : Hdr) (p : Bool) (d : Reg) (l : BitVec 2) (imm : BitVec 16) (s : State) : Host.Outcome State Fault Refusal :=
  sliceWord (.axStrd h p d l imm) h (fun gid _ u s =>
    match (if p then (s.pm gid (8 * imm.toNat) 8).map (BitVec.ofNat 64) else some (imm.signExtend 64)) with
    | none => s.pumpTrap gid 6 0 (8 * imm.toNat) 0
    | some v => s.pumpNext gid { u with strd := u.strd.set (4 * d.toNat + l.toNat) v }) s

/-! ## Reads of a pump (R119, R255) -/

/-- What the reads of a word give. -/
inductive PumpRead where
  | ok (s : State) (bs : List (List Byte))
  | stop (s : State)
  deriving DecidableEq, Repr

/-- Reads of `n` bytes at each address in turn: relaxed device-scope loads (R119). One that cannot go on stops the word: its
page is asked for, its gang saved, or its fault raised. -/
def State.pumpReads (s : State) (gid : Nat) (g : Gang) (p : Pump) (n : Nat) (vas : List Nat) : PumpRead :=
  vas.foldl (fun acc va => match acc with
    | .stop s => .stop s
    | .ok s bs => match s.checkLane (.core g.core) gid p.walks .gl 0 va n with
      | .bad cls fl aux => .stop (s.pumpTrap gid cls fl va aux)
      | .held => .stop (s.longService gid (s.pumpCrew gid) va dPump)
      | .miss => .stop ((s.askWalk (.core g.core) (.pump gid) (s.gangAsid gid) va 0).pumpLater gid)
      | .at (.phys pa) => (match s.directRead pa n p.pts false none
          { s.finder gid 8 with core := some g.core, va := va } with
        | .later s1 => .stop (s1.pumpLater gid)
        | .ok s1 b _ po => if po then .stop (s1.pumpTrap gid 8 0 (va / 32 * 32) 0) else .ok s1 (bs ++ [b]))
      | .at _ => .ok s (bs ++ [[]])) (.ok s [])

/-- `ax.ld` (R255). -/
def execAxLd (h : Hdr) (d a : Reg) (s : State) : Host.Outcome State Fault Refusal :=
  let i : Instr := .axLd h d a
  sliceWord i h (fun gid g u s =>
    let k := d.toNat
    match Tab.get g.wells k with
    | none => s.pumpTrap gid 7 0 0 k
    | some w =>
      if !w.pumped || w.tiles then s.pumpTrap gid 7 0 0 k
      else if w.full pumpIdx then s.pumpWait gid i (.well k)
      else
        let va := (u.a.getD a.toNat 0).toNat
        match s.pumpReads gid g u 16 ((List.range (w.size / 16)).map (fun j => (va + 16 * j) % 2 ^ 64)) with
        | .stop s1 => s1
        | .ok s1 bs =>
          let s2 := (s1.scrPut gid (w.entry w.tail) bs.flatten).releaseFloor g.core .gg u.pts
          (s2.setWell gid k { w with ents := w.ents ++ [(pumpIdx, 0, 0)] }).pumpNext gid u) s

/-- The pump halts: its wells close (R116, R257). -/
def State.pumpHalt (s : State) (gid : Nat) : State :=
  s.updGang gid (fun g => { g.closePumped with pump := g.pump.map (fun p => { p with halted := true, wait := .none, word := none }) })

/-- The load of a held tile from memory (R256): every row, with ZF = 1. -/
def State.pumpTile (s : State) (gid : Nat) (g : Gang) (u : Pump) (t : TRef) (base : Nat) (sb : Nat) : Except State State :=
  let w := (Tc.ty t.tc).bits
  let n := if w = 4 then 1 else w / 8
  let cn0 := min (fld sb 32 9) (Tc.cols t.tc)
  let cn := if w = 4 then (cn0 + 1) / 2 * 2 else cn0
  let rows := List.range (Tc.rows t.tc)
  let mv := rows.flatMap (fun i => (rowMoves t .gl 0 n base (sext32 (sb % 2 ^ 32)) cn i).map (fun m => (i, m.1, m.2)))
  match s.pumpReads gid g u n (mv.map (fun m => m.2.2)) with
  | .stop s1 => .error s1
  | .ok s1 bs =>
    let arr := (mv.zip bs).foldl (fun arr m =>
      let v := leVal m.2
      if w = 4 then elPut (elPut arr t.tc m.1.1 m.1.2.1 (v % 16)) t.tc m.1.1 (m.1.2.1 + 1) (v / 16)
      else elPut arr t.tc m.1.1 m.1.2.1 v) (s1.tile gid t)
    let arr1 := elFill arr t.tc rows (Tc.cols t.tc) (fun _ j => if cn ≤ j then some 0 else none)
    .ok ((s1.setTile gid t arr1).freshTile gid t (BitVec.ofNat 32 (2 ^ 32 - 1)))

/-- `ax.ldt` (R256): the tile popped is held until it is pushed. -/
def execAxLdt (h : Hdr) (d a b c : Reg) (s : State) : Host.Outcome State Fault Refusal :=
  let i : Instr := .axLdt h d a b c
  sliceWord i h (fun gid g u s =>
    match Tab.get g.wells d.toNat, Tab.get g.wells b.toNat with
    | none, _ => s.pumpTrap gid 7 0 0 d.toNat
    | some _, none => s.pumpTrap gid 7 0 0 b.toNat
    | some wd, some wb =>
      if !wd.pumped || !wd.tiles then s.pumpTrap gid 7 0 0 d.toNat
      else if wb.pumped || !wb.tiles then s.pumpTrap gid 7 0 0 b.toNat
      else
        let got : Option (State × Gang × Pump × Nat × W32) := match u.held with
          | some (t, v) => some (s, g, u, t, v)
          | none => match wb.ents with
            | [] => none
            | e :: _ =>
              let u1 := { u with held := some (e.2.1, e.2.2), pts := Ts.smax u.pts (s.core g.core).crf }
              let s1 := (s.setWell gid b.toNat wb.popped).setPump gid u1
              some (s1, (match s1.gang gid with | some v => v | none => g), u1, e.2.1, e.2.2)
        match got with
        | none => if wb.closed then s.pumpHalt gid else s.pumpWait gid i (.well b.toNat)
        | some (s1, g1, u1, t, v) =>
          if !Tc.v v then s1.pumpTrap gid 7 0 0 b.toNat
          else if wd.full pumpIdx then s1.pumpWait gid i (.well d.toNat)
          else
            let tr : TRef := { name := 0, phys := t, tc := v }
            match s1.pumpTile gid g1 u1 tr (u1.a.getD a.toNat 0).toNat (u1.a.getD c.toNat 0).toNat with
            | .error s2 => s2
            | .ok s2 =>
              let s3 := (s2.releaseFloor g.core .gg u1.pts).setWell gid d.toNat { wd with ents := wd.ents ++ [(pumpIdx, t, v)] }
              s3.pumpNext gid { u1 with held := none }) s

/-- `ax.sig` (R257): one arrival, a gang-scope release. -/
def execAxSig (h : Hdr) (off : BitVec 16) (s : State) : Host.Outcome State Fault Refusal :=
  let i : Instr := .axSig h off
  sliceWord i h (fun gid g u s =>
    let o := 16 * off.toNat
    if g.scrSz < o + 16 then s.pumpTrap gid 6 0 o 0
    else
      let r := s.scrCheck gid o 16
      if r.2 then r.1.pumpTrap gid 8 0 (o / 32 * 32) 0
      else if r.1.barScope (.scr gid o) != .gg then r.1.pumpTrap gid 7 0 0 o
      else match r.1.pumpArrive (.scr gid o) u with
        | .ok s1 _ _ => (s1.releaseFloor g.core .gg u.pts).pumpRetire gid
        | .waits s1 => s1.pumpWait gid i (.arrive (.scr gid o))
        | .sync s1 => s1.pumpTrap gid 7 0 0 o
        | .poison s1 => s1.pumpTrap gid 8 0 (o / 32 * 32) 0
        | .later s1 => s1.pumpLater gid) s

/-- `ax.halt` (R257). -/
def execAxHalt (h : Hdr) (s : State) : Host.Outcome State Fault Refusal :=
  sliceWord (.axHalt h) h (fun gid _ _ s => s.pumpHalt gid) s

/-! ## Words that are not instructions, and failing fetches (R130, R146, R150, R338) -/

/-- ILLEGAL_ENCODING: ILL, whether or not a lane is active (R150, R151). -/
def execIllegalEncoding (w : W64) (s : State) : Host.Outcome State Fault Refusal :=
  match s.cur with
  | .none => .fault .noIssuer
  | .crew key e => match s.crew key with
    | none => .fault .noIssuer
    | some c0 =>
      let c := c0.settle s.now
      let s1 := s.setCrew key c
      let guard (lo : Nat) (pn : Nat) : Mask := c.guard (BitVec.ofNat 3 (fld w.toNat lo 3)) (fld w.toNat pn 1 == 1) (c.split e).mask
      let act := if fld w.toNat 63 1 = 0 then guard 55 58 else guard 37 36 ||| guard 7 6
      .next (s1.finish (.illegalEncoding w) key e 8 0 (.trap s1 (mkTrap 0 e act 0 w.toNat)))
  | .mgmt k => .next (s.escalate k false)
  | .pump g => .next (s.pumpTrap g 0 0 0 w.toNat)

/-- FETCH_FAULT: MEM with FETCH, or FETCHTAIL for a literal, at the word's address in every lane of the split (R130, R307). -/
def execFetchFault (va : W64) (tail : Bool) (s : State) : Host.Outcome State Fault Refusal :=
  match s.cur with
  | .none => .fault .noIssuer
  | .crew key e => match s.crew key with
    | none => .fault .noIssuer
    | some c =>
      let f := if tail then dFetchTail else dFetch
      .next (s.finish (.fetchFault va tail) key e 8 0
        (.trap s (laneTrap 1 e ((c.split e).mask.lanes.map (fun l => (l, va.toNat, f))) 0)))
  | .mgmt k => .next (s.escalate k false)
  | .pump g => .next (s.pumpTrap g 1 dFetch va.toNat 0)

end Sys2Proof.Machine
end

