-- ==== Sys2Proof/Machine/Homes.lean ====
section
/-! DEFINITION. The service of requests by home slices, CXL bridges and the domain agent (R352, R354, R357, R375, R380, R381),
and what replies do at the unit that asked (R353, R355). -/

namespace Sys2Proof.Machine

/-! ## Servers -/

def PKind.request : PKind → Bool
  | .renew _ | .write | .wb | .atom _ _ _ _ | .hold _ => true
  | _ => false

/-- Whether a request on a line waits for WBs: a RECALL on the line is out, or the request awaits a forced publish. -/
def State.lineWaits (s : State) (d : Dest) (line : Nat) : Bool :=
  (s.nhtOf d).any (fun h => h.line == line && h.asked) ||
  s.net.any (fun q => q.2.place == .server && q.2.kind.request && q.2.dst == d && q.2.line == line && !q.2.ans.isEmpty)

/-- A request at its server whose turn has come: those on one line are served in their order of arrival (R359), but for a WB
that finds the line waiting for WBs (R357): it passes the requests of other crews, which could otherwise never be served. -/
def State.turn (s : State) (p : Pkt) : Bool :=
  p.place == .server && p.kind.request &&
  !s.net.any (fun q => q.2.place == .server && q.2.kind.request && q.2.dst == p.dst && q.2.line == p.line &&
    decide (q.2.stamp < p.stamp) &&
    !(p.kind == .wb && s.lineWaits p.dst p.line && q.2.crew != p.crew && q.2.kind != .wb))

/-- A packet put back changed, last in the order of the place it now stands at. -/
def State.putPkt (s : State) (id : Nat) (p : Pkt) : State :=
  { s with net := Tab.set s.net id { p with stamp := s.nextId }, nextId := s.nextId + 1 }
def State.dropPkt (s : State) (id : Nat) : State := { s with net := Tab.erase s.net id }

/-- A request answered: the reply takes its place in the network, at once or after the buddy die has acknowledged (R367). -/
def State.reply (s : State) (id : Nat) (p : Pkt) : State :=
  let waits := match p.kind with
    | .ack _ => (match p.dst with
      | .slice n => (s.protOf (p.line * 128)).isSome && !s.dieFailed (Nat.xor (n / 32) 1) && !s.dieFailed (n / 32)
      | _ => false)
    | _ => false
  (s.dropPkt id).send { p with place := if waits then .server else p.dst.place, req := id }

/-! ## Narrow holds met by a request (R66 to R68, R357) -/

/-- Whether a request acquires (R51): a load with that order, or a returning atomic with it. -/
def Pkt.acquires (p : Pkt) : Bool :=
  match p.kind with
  | .renew _ | .atom _ _ _ true => decide (2 ≤ p.ord.code)
  | _ => false

/-- Whether a request reads for its crew, so that a forced publish must reach it whole (R67). -/
def Pkt.reads (p : Pkt) : Bool :=
  match p.kind with
  | .renew _ | .atom _ _ _ true => true
  | _ => false

/-- The holds of others that a request must see ended: recalls are sent, with their mode and, in DROP, the SCOPEMISS bits; a
reading request notes the holders whose forced publish it awaits, as (crew, 0). A WB that answers a RECALL meets none. -/
def State.meetNarrow (s : State) (id : Nat) (p : Pkt) (write : Bool) : State × Bool :=
  let l := s.nhtOf p.dst
  if p.kind == .wb && l.any (fun h => h.line == p.line && h.unit == p.src && h.crew == p.crew && h.asked) then (s, true)
  else
    let hs := s.holdsMet l p.line write (some p.crew)
    let forced (h : NHolder) : Bool := !s.insideScope h p.crew && !(s.part (s.recallPart h (some p.crew))).mm
    let s1 := (hs.filter (fun h => !h.asked)).foldl (fun s h =>
      (s.sendRecall p.dst h (forced h)).missBits h p.acquires (some p.crew)) s
    let marks := if p.reads then (hs.filter (fun h => forced h && !p.ans.contains (h.crew, 0))).map (fun h => (h.crew, 0)) else []
    (if marks.isEmpty then s1 else { s1 with net := Tab.set s1.net id { p with ans := p.ans ++ marks } }, hs.isEmpty)

/-- Sectors of a line take the timestamp that a WB by a releasing holder would have given them: past every WB performed so far
(R67, R355). -/
def State.relStamp (s : State) (d : Dest) (line : Nat) : State :=
  let t := s.clockAll
  match d with
  | .slice n =>
    let put (sl : Slice) (m : Tab (Ts × Ts)) (k : Nat) : Tab (Ts × Ts) :=
      let w := Ts.smax t ((sl.ts (line * 4 + k)).2 + 1)
      Tab.set m (line * 4 + k) (w, w)
    s.updSlice n (fun sl => { sl with sect := (List.range 4).foldl (put sl) sl.sect })
  | _ =>
    let k := match d with | .port k => k | _ => 2
    let b := s.farAgent k
    s.setFarAgent k { b with clock := Ts.smax b.clock t, lines := Tab.mapV b.lines (fun a l =>
      if a / 2 = line then { l with wts := l.wts.map (Ts.smax t), rts := l.rts.map (Ts.smax t), gr := Ts.smax t l.gr } else l) }

/-- The wait of a reading request for a forced publish (R67): once the holds have ended, it awaits the WBs of those holders that
are on their way to other lines, as (packet, 1); then the line takes its timestamp past theirs. -/
def State.awaitWbs (s : State) (id : Nat) (p : Pkt) : State × Bool :=
  let owed := (p.ans.filter (fun a => a.2 == 0)).map Prod.fst
  let flying := (s.net.filter (fun q => q.2.kind == .wb && q.2.line != p.line && owed.contains q.2.crew)).map (fun q => (q.1, 1))
  let marks := if owed.isEmpty then p.ans else (0, 2) :: flying
  let left := marks.filter (fun a => a.2 != 1 || (match Tab.get s.net a.1 with | some q => q.kind == .wb | none => false))
  if left.isEmpty then (s, true)
  else if left.any (fun a => a.2 == 1) then ({ s with net := Tab.set s.net id { p with ans := left } }, false)
  else ({ s with net := Tab.set s.net id { p with ans := [] } }.relStamp p.dst p.line, true)

/-- The timestamp to which a request raises its server's clock (R354, R375, R380): its `pts`, and for a write of some places of its line
the w that it will take. -/
def State.clockOf (s : State) (p : Pkt) (write : Bool) (offs : List Nat) : Ts :=
  if !write then p.pts
  else match p.dst with
    | .slice n => offs.foldl (fun w o => Ts.smax w (((s.slice n).ts (p.line * 4 + o / 32)).2 + 1)) p.pts
    | _ => offs.foldl (fun w o => Ts.smax w (s.farTop (p.line * 128 + o))) p.pts

/-- Everything a request on a line must wait for (R354, R357, R358, R378), and for a write the counters it touches (R122). -/
def State.meet (s : State) (id : Nat) (p : Pkt) (write : Bool) (offs : List Nat) : State × Bool :=
  if s.sweepHolds (s.clockOf p write offs) then (s, false)
  else
    let r0 := s.meetNarrow id p write
    let r := if r0.2 then r0.1.awaitWbs id p else r0
    match p.dst with
    | .slice _ =>
      let hard := !(r.1.hardFor p.line write).isEmpty
      let s1 := if hard then r.1.askHard p.line write else r.1
      let c := if write then offs.foldl (fun acc o => let q := acc.1.ctrSyncRange (p.line * 128 + o) 1; (q.1, acc.2 && q.2)) (s1, true)
        else (s1, true)
      (c.1, r.2 && !hard && c.2)
    | _ => r

/-! ## Lines outside the package (R375, R380, R381) -/

/-- The 64-byte lines that offsets of a line touch: their physical addresses. -/
def farBlocks (line : Nat) (offs : List Nat) : List Nat :=
  offs.foldl (fun l o => let a := line * 128 + o / 64 * 64; if l.contains a then l else l ++ [a]) []

/-- Lines that are not held, or not owned when they must be, asked for on behalf of the packet's word. -/
def State.farReady (s : State) (p : Pkt) (own : Bool) (bs : List Nat) : State × Bool :=
  bs.foldl (fun acc a => match acc.1.farLine a with
    | some l => if own && decide (l.st < 2) then (acc.1.askFarFor p.crew p.entry a 2, false) else acc
    | none => (acc.1.askFarFor p.crew p.entry a (if own then 2 else 0), false)) (s, true)

def State.isPool (s : State) (line : Nat) : Bool := match s.target (line * 128) with | .pool _ _ => true | _ => false
def State.isNothing (s : State) (line : Nat) : Bool := match s.target (line * 128) with | .nothing => true | _ => false

/-- RENEW of a held far line (R354, R375): its sectors of the span renewed under class 0; greatest `wts`, least `rts`. -/
def State.farRenew (s : State) (a : Nat) (secs : List Nat) (p : Ts) (acc : Ts × Ts) : State × Ts × Ts :=
  let k := s.farPort a
  let b := s.farAgent k
  match Tab.get b.lines (a / 64) with
  | none => (s, acc.1, acc.2)
  | some l =>
    let rts := (List.range 2).map (fun i => if secs.contains i then Ts.smax (l.rts.getD i 0) (p + 16) else l.rts.getD i 0)
    let gr := secs.foldl (fun g i => Ts.smax g (rts.getD i 0)) l.gr
    let s1 := s.setFarAgent k { b with lines := Tab.set b.lines (a / 64) { l with rts := rts, gr := gr }, clock := Ts.smax b.clock p }
    (s1, secs.foldl (fun w i => Ts.smax w (l.wts.getD i 0)) acc.1,
      secs.foldl (fun r i => let v := rts.getD i 0; if Ts.prec v r then v else r) acc.2)

/-- The byte of a far line at an offset of a 128-byte line. -/
def State.farByte (s : State) (line o : Nat) : Byte :=
  match s.farLine (line * 128 + o) with
  | some l => Cells.get l.bytes (o % 64)
  | none => 0

/-- Whether the sector of a far line at an offset of a 128-byte line is poisoned. -/
def State.farPoison (s : State) (line o : Nat) : Bool :=
  match s.farLine (line * 128 + o) with
  | some l => l.badAt o 1
  | none => false

/-- RENEW at a bridge or the domain agent. -/
def State.serveFarRenew (s : State) (id : Nat) (p : Pkt) (w : Option Ts) : State :=
  let offs := (List.range (8 * p.cnt)).map (· + 8 * p.first)
  let bs := farBlocks p.line offs
  let data (s : State) (bytes : LineBytes) (gw lr : Ts) (poison : List Nat) : State :=
    s.reply id { p with kind := .data gw lr, bytes := bytes, poison := poison }
  if s.isNothing p.line then data s (LineBytes.mk (offs.map (fun o => (o, 0)))) p.pts p.pts [0, 1, 2, 3]
  else
    let r := s.farReady p false bs
    if !r.2 then r.1
    else
      let s1 := r.1
      let bytes := LineBytes.mk (offs.map (fun o => (o, s1.farByte p.line o)))
      let bad := (spanSectors p.first p.cnt).filter (fun k =>
        s1.farPoison p.line (32 * k))
      if s1.isPool p.line then
        let k := s1.farPort (p.line * 128)
        let b := s1.farAgent k
        let c := Ts.smax b.clock p.pts
        let s2 := bs.foldl (fun s a => s.dropFar a) (s1.setFarAgent k { b with clock := c })
        data s2 bytes c c bad
      else
        let secs (a : Nat) : List Nat := (List.range 2).filter (fun i => (spanSectors p.first p.cnt).contains (a % 128 / 32 + i))
        let first := match s1.farLine (bs.getD 0 0) with
          | some l => let i := (secs (bs.getD 0 0)).getD 0 0; (l.wts.getD i 0, Ts.smax (l.rts.getD i 0) (p.pts + 16))
          | none => (0, p.pts)
        let t := bs.foldl (fun (acc : State × Ts × Ts) a => acc.1.farRenew a (secs a) p.pts acc.2) (s1, first)
        let same := match w with | some x => !Ts.prec x t.2.1 | none => false
        if same then t.1.reply id { p with kind := .ext t.2.2 } else data t.1 bytes t.2.1 t.2.2 bad

/-- Bytes stored in held far lines, those of one line at once (R354, R375); the timestamp. -/
def State.farWrite (s : State) (line : Nat) (bs : LineBytes) (p : Ts) : State × Ts :=
  (farBlocks line (bs.map Prod.fst)).foldl (fun acc a =>
    let es := (LineBytes.list bs).filterMap (fun e => if (line * 128 + e.1) / 64 * 64 = a then some (e.1 % 64, e.2) else none)
    let r := acc.1.farPut a es p
    (r.1, Ts.smax acc.2 r.2)) (s, p)

/-- The sectors of a line that some places touch renewed for an atomic that writes nothing there (R354). -/
def State.farKeep (s : State) (line : Nat) (offs : List Nat) (p : Ts) : State :=
  (farBlocks line offs).foldl (fun s a =>
    let secs := (List.range 2).filter (fun i => offs.any (fun o => (line * 128 + o) / 32 == a / 32 + i))
    (s.farRenew a secs p (p, p)).1) s

/-- What an acquire of bytes of held far lines raises a timestamp to (R351): the `wts` of their sectors. -/
def State.farWts (s : State) (line : Nat) (offs : List Nat) (p : Ts) : Ts :=
  offs.foldl (fun w o => match s.farLine (line * 128 + o) with
    | some l => Ts.smax w (l.wts.getD (o % 64 / 32) 0)
    | none => w) p

/-- Requests to the sides of a pool target for a packet: 1 a write, 3 an atomic; to every live side (R380). -/
def State.askPool (s : State) (id : Nat) (p : Pkt) (what : Nat) (bytes : List Byte) : State :=
  match s.target (p.line * 128) with
  | .pool k _ =>
    let v := s.pools.getD k { base := 0, size := 0, dev := 0, stat := 0 }
    let sides := (if v.stat.getLsbD 0 then [] else [0]) ++ (if v.dev.getLsbD 1 && !v.stat.getLsbD 1 then [1] else [])
    sides.foldl (fun s side => s.ask { port := s.portOf (p.line * 128), addr := p.line * 128, what := what, since := s.now,
                                       pkt := id, crew := p.crew, entry := side, bytes := bytes }) s
  | _ => s

/-- The clock of a pool request (R380): w. -/
def State.poolClock (s : State) (line : Nat) (p : Ts) : State × Ts :=
  let k := s.farPort (line * 128)
  let b := s.farAgent k
  let w := Ts.smax p (b.clock + 1)
  (s.setFarAgent k { b with clock := w }, w)

/-! ## The requests (R354) -/

/-- HOME_RENEW: the reply names the poisoned sectors of its span, and as k + 4 those whose check value fails, which the unit
that loads them finds (R75, R400). -/
def execHomeRenew (id : Nat) (s : State) : Host.Outcome State Fault Refusal :=
  .next (match Tab.get s.net id with
    | none => s
    | some p => match p.kind with
      | .renew w =>
        if !s.turn p then s
        else
          let r := s.meet id p false []
          if !r.2 then r.1
          else match p.dst with
            | .slice n =>
              let s1 := match p.ops with
                | (cls, _) :: _ => r.1.updSlice n (fun sl =>
                    let c := sl.classOf p.line p.first
                    if c.1 < cls then c.2.setClass p.line p.first cls else c.2)
                | [] => r.1
              let secs := spanSectors p.first p.cnt
              let h := s1.homeRenew p.line p.first p.cnt p.pts w
              if h.2.1 then h.1.reply id { p with kind := .ext h.2.2.2, ans := [] }
              else
                let offs := (List.range (8 * p.cnt)).map (· + 8 * p.first)
                let bytes := LineBytes.mk (offs.map (fun o => (o, Cells.get h.1.mem (p.line * 128 + o))))
                let bad := if h.1.lost p.line then secs else secs.filter (fun k => h.1.secPoison (p.line * 4 + k))
                let failing := secs.filter (fun k => !h.1.chkOk (p.line * 4 + k))
                h.1.reply id { p with kind := .data h.2.2.1 h.2.2.2, ans := [], bytes := bytes, poison := bad ++ failing.map (· + 4) }
            | _ => r.1.serveFarRenew id p w
      | _ => s)

/-- A WRITE or WB performed: its ACK, and the end of the hold that a WB publishes. -/
def State.serveWrite (s : State) (id : Nat) (p : Pkt) (wb : Bool) : State :=
  if !s.turn p then s
  else
    let r := s.meet id p true (p.bytes.map Prod.fst)
    if !r.2 then r.1
    else
      let free (s : State) : State := if wb then
        s.setNht p.dst ((s.nhtOf p.dst).filter (fun h => !(h.line == p.line && h.unit == p.src && h.crew == p.crew))) else s
      match p.dst with
      | .slice _ =>
        let w := r.1.homeWrite p.line p.bytes p.pts (r.1.finder (keyGid p.crew) 0)
        (free w.1).reply id { p with kind := .ack w.2 }
      | _ =>
        if s.isPool p.line && !p.bytes.isEmpty then
          if r.1.outReqs.any (fun q => q.2.pkt == id) then r.1
          else
            let c := r.1.poolClock p.line p.pts
            let s1 := (free c.1).askPool id p 1 ((LineBytes.list p.bytes).map Prod.snd)
            let s2 := { s1 with net := Tab.set s1.net id { p with pts := c.2 } }
            if s2.outReqs.any (fun q => q.2.pkt == id) then s2 else s2.reply id { p with kind := .ack c.2 }
        else if s.isNothing p.line then (free r.1).reply id { p with kind := .ack p.pts }
        else
          let f := r.1.farReady p true (farBlocks p.line (p.bytes.map Prod.fst))
          if !f.2 then f.1
          else
            let w := f.1.farWrite p.line p.bytes p.pts
            (free w.1).reply id { p with kind := .ack w.2 }

/-- HOME_WRITE. -/
def execHomeWrite (id : Nat) (s : State) : Host.Outcome State Fault Refusal :=
  .next (match Tab.get s.net id with
    | none => s
    | some p => if p.kind = .write then s.serveWrite id p false else s)

/-- HOME_WB: as a WRITE, then the hold ends. -/
def execHomeWb (id : Nat) (s : State) : Host.Outcome State Fault Refusal :=
  .next (match Tab.get s.net id with
    | none => s
    | some p => if p.kind = .wb then s.serveWrite id p true else s)

/-- The lanes of an atomic at some offsets. -/
def lanesAt (ops : List (Nat × Nat × Nat × Nat)) (offs : List Nat) : List Nat :=
  ops.filterMap (fun o => if offs.contains o.2.1 then some o.1 else none)

/-- HOME_ATOM. -/
def execHomeAtom (id : Nat) (s : State) : Host.Outcome State Fault Refusal :=
  .next (match Tab.get s.net id with
    | none => s
    | some p => match p.kind with
      | .atom op cas ty ret =>
        if !s.turn p then s
        else
          let r := s.meet id p true (atomOffsets p.ops)
          if !r.2 then r.1
          else match p.dst with
            | .slice _ =>
              if r.1.lost p.line then r.1.reply id { p with kind := .ack p.pts, ans := [], poison := p.ops.map (·.1) }
              else
                let h := r.1.homeAtom p.line op cas ty p.ops p.pts ret p.acquires (r.1.finder (keyGid p.crew) (if ret then 8 else 0))
                h.1.reply id { p with kind := .ack h.2.w, ans := h.2.olds, poison := lanesAt p.ops h.2.bad, bytes := h.2.bytes }
            | _ =>
              if s.isPool p.line then
                if r.1.outReqs.any (fun q => q.2.pkt == id) then r.1
                else
                  let c := r.1.poolClock p.line p.pts
                  let s1 := c.1.askPool id p 3 []
                  let s2 := { s1 with net := Tab.set s1.net id { p with pts := c.2 } }
                  if s2.outReqs.any (fun q => q.2.pkt == id) then s2
                  else s2.reply id { p with kind := .ack c.2, poison := p.ops.map (·.1) }
              else if s.isNothing p.line then r.1.reply id { p with kind := .ack p.pts, poison := p.ops.map (·.1) }
              else
                let f := r.1.farReady p true (farBlocks p.line (atomOffsets p.ops))
                if !f.2 then f.1
                else
                  let bad := (atomOffsets p.ops).filter (f.1.farPoison p.line)
                  let ops := if ret && !bad.isEmpty then [] else p.ops.filter (fun o => !bad.contains o.2.1)
                  let g := atomGroups op cas ty ops (f.1.farByte p.line)
                  let w0 := f.1.farWrite p.line (LineBytes.mk g.2) p.pts
                  let kept := (atomOffsets ops).filter (fun off => !g.2.any (fun b => b.1 == off))
                  let w := (w0.1.farKeep p.line kept p.pts, w0.2)
                  let seen := if p.acquires then f.1.farWts p.line (atomOffsets ops) w.2 else w.2
                  w.1.reply id { p with kind := .ack seen, ans := g.1, poison := lanesAt p.ops bad, bytes := LineBytes.mk g.2 }
      | _ => s)

/-- HOME_HOLD (R66, R357): an entry of the narrow-holder table; a full one first has its oldest published. -/
def execHomeHold (id : Nat) (s : State) : Host.Outcome State Fault Refusal :=
  .next (match Tab.get s.net id with
    | none => s
    | some p => match p.kind with
      | .hold sc =>
        if !s.turn p then s
        else
          let l := s.nhtOf p.dst
          let same (h : NHolder) : Bool := h.line == p.line && h.unit == p.src && h.crew == p.crew
          let h : NHolder := { line := p.line, unit := p.src, crew := p.crew, scope := sc, part := s.gangPart (keyGid p.crew), asked := false }
          if l.any same then
            (s.dropPkt id).setNht p.dst (l.map (fun x => if same x then { x with scope := if Scope.ge sc x.scope then sc else x.scope } else x))
          else if 256 ≤ l.length then
            (match l with
            | o :: _ => if o.asked then s else s.sendRecall p.dst o (!(s.part o.part).mm)
            | [] => s)
          else (s.dropPkt id).setNht p.dst (l ++ [h])
      | _ => s)

/-! ## Replies at the unit that asked (R353, R355) -/

/-- A reply to a request also goes to those that were absorbed on its way and not yet served (R361). -/
def State.forkTo (s : State) (p : Pkt) (ids : List Nat) (place : Place) : State :=
  ids.foldl (fun s i => match Tab.get s.net i with
    | none => s
    | some q => (s.dropPkt i).send { p with src := q.src, crew := q.crew, entry := q.entry, req := i, place := place }) s

def State.forkRest (s : State) (p : Pkt) : State :=
  let cs := s.combs.filter (fun c => c.pkt == p.req)
  let s1 := { s with combs := s.combs.filter (fun c => c.pkt != p.req) }
  cs.foldl (fun s c => s.forkTo p c.absorbed .receiver) s1

/-- The splits of a unit's crews that asked for a line have its reply. -/
def State.noteReply (s : State) (u : Agent) (line : Nat) : State :=
  match u with
  | .core k => { s with crews := Tab.mapV s.crews (fun _ c =>
      if c.core = k then { c with splits := c.splits.map (fun sp =>
        if sp.got.contains (2 * line) && !sp.got.contains (2 * line + 1) then { sp with got := sp.got ++ [2 * line + 1] } else sp) }
      else c) }
  | _ => s

/-- The home has the hold that a narrow atomic asked for (log entry 13). -/
def State.armHold (s : State) (u : Agent) (line : Nat) : State :=
  match s.span u line with
  | some v => if v.hold = 1 then s.setSpan u line { v with hold := 2 } else s
  | none => s

/-- The bytes of a reply without their marks. -/
def LineBytes.plain (b : LineBytes) : Cells 8 := (LineBytes.list b).foldl (fun m e => Cells.set m e.1 e.2) []

/-- The lines that an L1 has room for, the SRAM that is no scratchpad (R20), or a cluster cache of 256 KiB (R14). -/
def State.cacheLines (s : State) : Agent → Nat
  | .core k => (match s.coreGangs k with
    | [] => 4096
    | g :: _ => 4096 - 512 * fld (leVal (s.gangDesc g.1)) 256 3)
  | .cluster _ => 2048
  | _ => 0

/-- Evictions after a span has come into a cache (R353): while it holds too many lines, a clean span that waits for nothing leaves;
which one is a free value (log entries 4 and 17). -/
def State.makeRoom (s : State) (u : Agent) (line : Nat) : State :=
  if (s.spans u).length ≤ 512 then s
  else (List.range ((s.spans u).length - s.cacheLines u)).foldl (fun s i =>
    let l := (s.spans u).filter (fun e => e.1 != line && e.2.dirty.isEmpty && e.2.hold == 0 && e.2.pending.isNone)
    match l[Config.evicted s.nextId i % l.length]? with
    | some e => s.dropSpan u e.1
    | none => s) s

/-- A reply installed in a unit, and room made for it. -/
def State.putData (s : State) (u : Agent) (p : Pkt) (bytes : Cells 8) (w r : Ts) (poison : List Nat) : State :=
  (s.install u p.line p.first p.cnt bytes w r poison).makeRoom u p.line

/-- Whether a unit still waits for a reply (R353 P): a request that a later event has taken back is not answered. -/
def State.awaits (s : State) (u : Agent) (p : Pkt) : Bool :=
  match s.span u p.line with
  | some v => v.pending == some p.req
  | none => false

/-- The clean bytes of a DATA reply at the unit that asked, and at the cluster unit it passes (R353), where dirty bytes, a hold and
another request stay as they are. -/
def State.dataAt (s : State) (p : Pkt) (w r : Ts) : State :=
  let put (s : State) (u : Agent) : State := s.putData u p (LineBytes.plain p.bytes) w r p.poison
  let s1 := if s.awaits p.src p then put s p.src else s
  match p.src with
  | .core k =>
    let cu := Agent.cluster (clusterOf k)
    (match s1.span cu p.line with
    | some v => if v.pending == some p.req || (v.dirty.isEmpty && v.pending.isNone && v.hold = 0) then put s1 cu else s1
    | none => put s1 cu)
  | _ => s1

/-- DATA: the clean bytes installed, in the cluster cache too for a core. -/
def execData (id : Nat) (s : State) : Host.Outcome State Fault Refusal :=
  .next (match Tab.get s.net id with
    | none => s
    | some p => match p.kind with
      | .data w r =>
        if p.place != .receiver then s
        else
          let s0 := (s.dropPkt id).forkRest p
          let s1 := s0.dataAt p w r
          if s0.awaits p.src p then (s1.armHold p.src p.line).noteReply p.src p.line else s1
      | _ => s)

/-- The least `wts` over some sectors of a span (R353). -/
def Span.minWts (v : Span) (secs : List Nat) : Ts :=
  secs.foldl (fun a k => let x := v.wts.getD k 0; if Ts.prec x a then x else a) (v.wts.getD (secs.getD 0 0) 0)

/-- Whether the clean part of a span holds the words that a packet names. -/
def Span.holds (v : Span) (p : Pkt) : Bool :=
  decide (0 < v.cnt) && decide (v.first ≤ p.first) && decide (p.first + p.cnt ≤ v.first + v.cnt)

/-- EXT at the unit that asked (R353). A core whose L1 does not hold the span had it asked for by its cluster unit, whose bytes it then
gets; the cluster unit's span is renewed when it is no older than what was asked about. -/
def State.extAt (s : State) (p : Pkt) (r : Ts) : State :=
  let secs := spanSectors p.first p.cnt
  let own (v : Span) : Bool := v.holds p
  match p.src with
  | .core k =>
    let cu := Agent.cluster (clusterOf k)
    let asked : Option Ts := match s.span p.src p.line with
      | some v => if own v then some (v.minWts secs) else none
      | none => none
    let s1 := match s.span cu p.line with
      | some v =>
        if v.pending == some p.req then
          if own v && (match asked with | some x => !Ts.prec (v.minWts secs) x | none => true) then s.extend cu p.line p.first p.cnt r
          else s.setSpan cu p.line { v with pending := none }
        else s
      | none => s
    if !s.awaits p.src p then s1
    else if asked.isSome then s1.extend p.src p.line p.first p.cnt r
    else (match s1.span cu p.line with
      | some v =>
        if own v then
          let bytes : Cells 8 := (List.range (8 * p.cnt)).foldl (fun m i => Cells.set m (8 * p.first + i) (Cells.get v.bytes (8 * p.first + i))) []
          s1.putData p.src p bytes (v.minWts secs) r (v.poison.filter (fun k => secs.contains (k % 4)))
        else s1.unask p.src p.line
      | none => s1.unask p.src p.line)
  | u => if s.awaits u p then s.extend u p.line p.first p.cnt r else s

/-- EXT: the leases renewed. -/
def execExt (id : Nat) (s : State) : Host.Outcome State Fault Refusal :=
  .next (match Tab.get s.net id with
    | none => s
    | some p => match p.kind with
      | .ext r =>
        if p.place != .receiver then s
        else
          let s0 := (s.dropPkt id).forkRest p
          let s1 := s0.extAt p r
          if s0.awaits p.src p then (s1.armHold p.src p.line).noteReply p.src p.line else s1
      | _ => s)

/-- A crew's request acknowledged (R194, R355): its own, or a WB of bytes that its release publishes with its own. -/
def Crew.acked (c : Crew) (pkt : Nat) : Crew :=
  { c with acks := c.acks.filter (fun a => a.pkt != pkt),
           fences := (c.fences.map (fun f => { f with pkts := f.pkts.filter (· != pkt) })).filter (fun f => !f.pkts.isEmpty) }

/-- The dirty records that a WB carried are clean (R353). Those of a cluster unit have been read by its cores, whose L1 copies
of the line are older and go (R53). -/
def State.cleaned (s : State) (u : Agent) (line pkt : Nat) : State :=
  match s.span u line with
  | none => s
  | some v =>
    let d := v.dirty.filter (fun d => d.sent != some pkt)
    let s1 := if d.isEmpty && v.cnt = 0 && v.pending.isNone && v.hold = 0 then s.dropSpan u line
      else s.setSpan u line { v with dirty := d }
    match u with
    | .cluster k =>
      if d.length = v.dirty.length then s1 else (clusterCores k).foldl (fun s c => s.forgetClean (.core c) line) s1
    | _ => s1

/-- What an ACK does at its unit, for its crew, and for the crews whose release waits for it; a peer's changes no `pts` (R381). -/
def State.ackAt (s : State) (p : Pkt) (w : Ts) : State :=
  let s1 := (s.mergeAck p.src p.line p.bytes w).cleaned p.src p.line p.req
  let far := match p.dst with | .peer _ => true | _ => false
  let took (c : Crew) : Crew := { c.acked p.req with pts := if far then c.pts else Ts.smax c.pts w }
  let s2 := { s1 with crews := Tab.mapV s1.crews (fun key c =>
    if key = p.crew || c.acks.any (fun a => a.pkt == p.req) then took c else c) }
  match s2.crew p.crew with
  | none => s2
  | some c => match c.reqs.find? (fun r => r.pkt == p.req) with
    | none => s2
    | some r =>
      if p.poison.isEmpty then
        s2.replyTo p.crew p.req (r.lanes.map (fun l => ((p.ans.find? (fun a => a.1 == l)).map Prod.snd).getD 0)) false
      else
        (s2.setCrew p.crew { c with reqs := c.reqs.map (fun q => if q.pkt = p.req then { q with lanes := p.poison } else q) }).replyTo
          p.crew p.req [] true

/-- ACK. -/
def execAck (id : Nat) (s : State) : Host.Outcome State Fault Refusal :=
  .next (match Tab.get s.net id with
    | none => s
    | some p => match p.kind with
      | .ack w => if p.place != .receiver then s else (s.dropPkt id).ackAt p w
      | _ => s)

/-- RECALL (R353, R357): the holder's WBs; one without bytes when it has none left, which ends the hold. -/
def execRecall (id : Nat) (s : State) : Host.Outcome State Fault Refusal :=
  .next (match Tab.get s.net id with
    | none => s
    | some p => match p.kind with
      | .recall all =>
        if p.place != .receiver then s
        else
          let s0 := s.dropPkt id
          let mine (d : Dirty) : Bool := d.crew == p.crew
          let had := match s0.span p.src p.line with | some v => v.dirty.any mine | none => false
          let s1 := match s0.span p.src p.line with
            | some v => s0.setSpan p.src p.line { v with hold := 0 }
            | none => s0
          let s2 := if all then s1.publishCrew p.crew (fun _ => true) else s1
          let s3 := s2.publishLine p.src p.line mine
          if had then s3
          else
            s3.send (Pkt.new .wb p.src p.dst p.line (s3.ptsOf p.crew) p.crew 0)
      | _ => s)

end Sys2Proof.Machine
end

