-- ==== Sys2Proof/Machine/Fabric.lean ====
section
/-! DEFINITION. The meshes with read combining (R360, R361), the die-to-die channels (R362 to R364), the mirror's
acknowledgement (R367), the reconciliation of clocks and the sweep (R356, R358). -/

namespace Sys2Proof.Machine

/-! ## Routes -/

/-- The number of a channel: compute die, home die, 0 to 5. -/
def chanNum (cd hd c : Nat) : Nat := (cd * 4 + hd) * 6 + c

/-- The first live channel from `c` on, modulo 6 (R362); `c` itself when none is live. -/
def State.liveChan (s : State) (cd hd c : Nat) : Nat :=
  match ((List.range 6).map (fun i => (c + i) % 6)).find? (fun k => (s.chan (chanNum cd hd k)).up) with
  | some k => k
  | none => c % 6

/-- The slice number within its die, for the choice of a channel. -/
def Dest.sub : Dest → Nat
  | .slice n => n % 32
  | _ => 0

/-- The channel of a unit's requests to a server (R362). -/
def State.chanFor (s : State) (u : Agent) (d : Dest) : Nat := s.liveChan u.router.1 d.router.1 (u.router.2.1 + d.sub)

/-- The local column of a channel's bridge. -/
def bridgeCol (hd c : Nat) : Nat := 2 * c + hd % 2
/-- The row of a compute die next to the bridges of a home die. -/
def edgeRow (hd : Nat) : Nat := if hd < 2 then 0 else 15

/-- One step toward a coordinate. -/
def step1 (a b : Nat) : Nat := if a < b then a + 1 else a - 1

/-- A step of a request: X, then Y; of a reply: Y, then X (R360). None at the goal. -/
def hop (request : Bool) (x y gx gy : Nat) : Option (Nat × Nat) :=
  if request then (if x ≠ gx then some (step1 x gx, y) else if y ≠ gy then some (x, step1 y gy) else none)
  else (if y ≠ gy then some (x, step1 y gy) else if x ≠ gx then some (step1 x gx, y) else none)

/-- Where a packet goes next from a router (R360, R362). -/
def State.nextPlace (s : State) (p : Pkt) : Option Place :=
  match p.place with
  | .cd die x y =>
    if p.kind.request then
      let hd := p.dst.router.1
      let c := s.chanFor p.src p.dst
      match hop true x y (bridgeCol hd c) (edgeRow hd) with
      | some n => some (.cd die n.1 n.2)
      | none => some (.toHome die hd c)
    else match hop false x y p.src.router.2.1 p.src.router.2.2 with
      | some n => some (.cd die n.1 n.2)
      | none => some .receiver
  | .home hd x y =>
    if p.kind.request then match hop true x y p.dst.router.2.1 p.dst.router.2.2 with
      | some n => some (.home hd n.1 n.2)
      | none => some .server
    else
      let die := p.src.router.1
      let c := match p.kind with
        | .recall _ => s.chanFor p.src p.dst
        | _ => s.liveChan die hd p.ch
      match hop false x y (if die = 0 then 0 else 3) (c + 1) with
      | some n => some (.home hd n.1 n.2)
      | none => some (.toDie hd die c)
  | _ => none

/-- Whether a packet is held in a combining table. -/
def State.absorbed (s : State) (id : Nat) : Bool := s.combs.any (fun c => c.absorbed.contains id)

/-- Whether a RENEW of a core stands at its core, where it passes the cluster unit (R353); one that must be fresh, and a `lease`'s,
go past it. -/
def Pkt.atCluster (p : Pkt) : Bool :=
  match p.src, p.kind with
  | .core _, .renew _ => !p.fresh && p.ops.isEmpty && p.place == .cd p.src.router.1 p.src.router.2.1 p.src.router.2.2
  | _, _ => false

def Pkt.clusterUnit (p : Pkt) : Agent := .cluster p.src.clusterUnit

/-- A RENEW waits at a cluster unit that has asked for the line itself (R353 P). -/
def State.clusterHolds (s : State) (id : Nat) (p : Pkt) : Bool :=
  p.atCluster &&
  (match s.span p.clusterUnit p.line with
  | some v => (match v.pending with
    | some q => q != id && s.net.any (fun n => n.1 == q || n.2.req == q)
    | none => false)
  | none => false)

/-- Whether a slice has no room for a request that comes to it (R359): 64 WRITE and WB and 128 RENEW requests of one line, and 512
atomics, are held at most. A WB for which the line waits is let in, since what is held could never be served without it. -/
def State.sliceFull (s : State) (p : Pkt) : Bool :=
  let held (f : Pkt → Bool) : Nat := (s.net.filter (fun q => q.2.place == .server && q.2.dst == p.dst && f q.2)).length
  let stores (q : Pkt) : Bool := q.line == p.line && (q.kind == .write || q.kind == .wb)
  match p.dst, p.kind with
  | .slice _, .renew _ => decide (128 ≤ held (fun q => q.line == p.line && (match q.kind with | .renew _ => true | _ => false)))
  | .slice _, .write => decide (64 ≤ held stores)
  | .slice _, .wb => !s.lineWaits p.dst p.line && decide (64 ≤ held stores)
  | .slice _, .atom _ _ _ _ => decide (512 ≤ held (fun q => match q.kind with | .atom _ _ _ _ => true | _ => false))
  | _, _ => false

/-- Whether a packet waits off the mesh, where it keeps no other back: at its cluster unit (R353), or before a full slice (R359). -/
def State.aside (s : State) (id : Nat) (p : Pkt) : Bool :=
  s.clusterHolds id p || (s.nextPlace p == some .server && s.sliceFull p)

/-- Whether a packet is the oldest that its output port could serve (R360). -/
def State.firstOut (s : State) (id : Nat) (p : Pkt) : Bool :=
  !s.net.any (fun q => decide (q.1 < id) && q.2.place == p.place && q.2.kind.request == p.kind.request && !s.absorbed q.1 &&
    s.nextPlace q.2 == s.nextPlace p && !s.aside q.1 q.2)

/-! ## Read combining (R361) and the cluster cache (R353) -/

/-- Whether an entry absorbs a RENEW. -/
def Comb.absorbs (c : Comb) (p : Pkt) (w : Option Ts) : Bool :=
  c.line == p.line && decide (c.first ≤ p.first) && decide (p.first + p.cnt ≤ c.first + c.cnt) && Ts.le p.pts c.pts &&
  (c.w == none || c.w == w)

/-- A RENEW at a router of a compute die: absorbed, or entered into the table when there is room. -/
def State.absorb (s : State) (id : Nat) (p : Pkt) (w : Option Ts) (die x y : Nat) : State × Bool :=
  let here (c : Comb) : Bool := c.die == die && c.x == x && c.y == y
  if s.combs.any (fun c => here c && c.pkt != id && c.absorbs p w) then
    let hit (c : Comb) : Bool := here c && c.pkt != id && c.absorbs p w
    match s.combs.find? hit with
    | some f => ({ s with combs := s.combs.map (fun c => if c = f then { c with absorbed := c.absorbed ++ [id] } else c) }, true)
    | none => (s, false)
  else if (s.combs.filter here).length < 8 && !s.combs.any (fun c => here c && c.pkt == id) then
    ({ s with combs := s.combs ++ [⟨die, x, y, id, p.line, p.first, p.cnt, p.pts, w, []⟩] }, false)
  else (s, false)

/-- A reply at a router of a compute die: it is forked to those absorbed there, and the entry is freed. -/
def State.fork (s : State) (p : Pkt) (die x y : Nat) : State :=
  let here (c : Comb) : Bool := c.die == die && c.x == x && c.y == y && c.pkt == p.req
  let cs := s.combs.filter here
  cs.foldl (fun s c => s.forkTo p c.absorbed p.place) { s with combs := s.combs.filter (fun c => !here c) }

/-- Whether the cluster cache of a core serves its RENEW: a clean span under a lease (R353). -/
def State.clusterServes (s : State) (p : Pkt) : Option Span :=
  if !p.atCluster then none
  else match s.span p.clusterUnit p.line with
    | some v =>
      if v.dirty.isEmpty && v.hold = 0 && v.holds p && (spanSectors p.first p.cnt).all (fun i => Ts.le p.pts (v.rts.getD i 0))
      then some v else none
    | none => none

/-- A RENEW forwarded by the cluster unit, which waits for the reply too (R353): with the `wts` of its own span, when it has one
whose lease has ended and the L1 names none. -/
def State.clusterAsks (s : State) (id : Nat) (p : Pkt) : State × Pkt :=
  if !p.atCluster then (s, p)
  else
    let v := (s.span p.clusterUnit p.line).getD Span.empty
    if (match v.pending with | some q => s.net.any (fun n => n.1 == q || n.2.req == q) | none => false) then (s, p)
    else
      let p1 := if v.holds p && v.dirty.isEmpty && v.hold = 0 && p.kind == .renew none
        then { p with kind := .renew (some (v.minWts (spanSectors p.first p.cnt))) } else p
      (s.setSpan p.clusterUnit p.line { v with pending := some id }, p1)

/-- The DATA reply of a cluster cache. -/
def Span.answer (v : Span) (p : Pkt) : Pkt :=
  let secs := spanSectors p.first p.cnt
  let k0 := secs.getD 0 0
  let w := secs.foldl (fun a k => Ts.smax a (v.wts.getD k 0)) (v.wts.getD k0 0)
  let r := secs.foldl (fun a k => let x := v.rts.getD k 0; if Ts.prec x a then x else a) (v.rts.getD k0 0)
  let offs := (List.range (8 * p.cnt)).map (· + 8 * p.first)
  { p with kind := .data w r, bytes := LineBytes.mk (offs.map (fun o => (o, Cells.get v.bytes o))),
           poison := v.poison.filter (fun k => secs.contains (k % 4)), place := .receiver }

/-- ROUTER_PACKET: one hop of a packet (R360, R361). -/
def execRouterPacket (id : Nat) (s : State) : Host.Outcome State Fault Refusal :=
  .next (match Tab.get s.net id with
    | none => s
    | some p =>
      if s.absorbed id || !s.firstOut id p then s
      else match s.clusterServes p with
        | some v => (s.dropPkt id).send { v.answer p with req := id }
        | none =>
          if s.aside id p then s
          else
            let q := s.clusterAsks id p
            let r : State × Bool := match q.2.place, q.2.kind with
              | .cd die x y, .renew w => q.1.absorb id q.2 w die x y
              | .cd die x y, .data _ _ | .cd die x y, .ext _ => (q.1.fork q.2 die x y, false)
              | _, _ => (q.1, false)
            if r.2 then r.1
            else match s.nextPlace q.2 with
              | some pl => r.1.putPkt id { q.2 with place := pl }
              | none => s)

/-! ## Channels -/

/-- Packets of one source and destination pair cross in order (R363). -/
def State.crossesFirst (s : State) (id : Nat) (p : Pkt) : Bool :=
  !s.net.any (fun q => decide (q.1 < id) && q.2.src == p.src && q.2.dst == p.dst && q.2.kind.request == p.kind.request &&
    !s.absorbed q.1 && !s.clusterHolds q.1 q.2 && (match q.2.place, p.place with
      | .toHome _ _ _, .toHome _ _ _ | .toDie _ _ _, .toDie _ _ _ => true
      | .cd _ _ _, .toHome _ _ _ | .home _ _ _, .toDie _ _ _ => true
      | _, _ => false))

/-- A channel that works. -/
def Chan.works (c : Chan) : Bool := c.up && c.retrain.isNone

/-- BRIDGE_PACKET: a whole packet crosses its channel (R363). -/
def execBridgePacket (id : Nat) (s : State) : Host.Outcome State Fault Refusal :=
  .next (match Tab.get s.net id with
    | none => s
    | some p =>
      let cross (k : Nat) (f : Pkt) : State :=
        if (s.chan k).works && s.crossesFirst id p then
          (s.setChan k { s.chan k with failed := 0 }).putPkt id { f with fails := 0 }
        else s
      match p.place with
      | .toHome die hd c => cross (chanNum die hd c) { p with place := .home hd (if die = 0 then 0 else 3) (c + 1), ch := c }
      | .toDie hd die c => cross (chanNum die hd c) { p with place := .cd die (bridgeCol hd c) (edgeRow hd) }
      | _ => s)

/-- A channel goes down: its packets are re-sent over the next live one (R364). -/
def State.chanDown (s : State) (cd hd c : Nat) : State :=
  let k := chanNum cd hd c
  let s1 := s.setChan k { up := false, retrain := none, failed := 0 }
  let n := s1.liveChan cd hd c
  { s1 with net := Tab.mapV s1.net (fun _ p => match p.place with
    | .toHome d h x => if d = cd && h = hd && x = c then { p with place := .toHome d h n, fails := 0 } else p
    | .toDie h d x => if d = cd && h = hd && x = c then { p with place := .toDie h d n, fails := 0 } else p
    | _ => p) }

/-- FLIT_ERROR: a failed replay; the eighth in a row starts a retrain, which telemetry counts (R364, R391). -/
def execFlitError (cd hd c : Nat) (s : State) : Host.Outcome State Fault Refusal :=
  let k := chanNum cd hd c
  let v := s.chan k
  .next (if !v.works || 1 < cd || 3 < hd || 5 < c then s
    else if v.failed + 1 < 8 then s.setChan k { v with failed := v.failed + 1 }
    else { s.setChan k { v with failed := 0, retrain := some s.now } with pwr := { s.pwr with retrain := s.pwr.retrain + 1 } })

/-- RETRAIN_TIMEOUT: 8 µs without success. -/
def execRetrainTimeout (cd hd c : Nat) (s : State) : Host.Outcome State Fault Refusal :=
  .next (match (s.chan (chanNum cd hd c)).retrain with
    | some t => if t + usCycles 8 ≤ s.now then s.chanDown cd hd c else s
    | none => s)

/-- RETRAIN_DONE. -/
def execRetrainDone (cd hd c : Nat) (s : State) : Host.Outcome State Fault Refusal :=
  let k := chanNum cd hd c
  .next (if (s.chan k).retrain.isSome then s.setChan k { s.chan k with retrain := none, failed := 0 } else s)

/-- PACKET_CRC_ERROR: the packet is re-sent from the store; the third failure on a channel takes it down (R364). -/
def execPacketCrcError (id : Nat) (s : State) : Host.Outcome State Fault Refusal :=
  .next (match Tab.get s.net id with
    | none => s
    | some p =>
      let bad (cd hd c : Nat) : State :=
        if 3 ≤ p.fails + 1 then s.chanDown cd hd c
        else { s with net := Tab.set s.net id { p with fails := p.fails + 1 } }
      match p.place with
      | .toHome die hd c => bad die hd c
      | .toDie hd die c => bad die hd c
      | _ => s)

/-- MIRROR_WRITE: the buddy acknowledges a mirrored request; its slice keeps the reply, the last 1,024, and the ACK goes out
(R367). -/
def execMirrorWrite (id : Nat) (s : State) : Host.Outcome State Fault Refusal :=
  .next (match Tab.get s.net id with
    | none => s
    | some p => match p.kind, p.place, p.dst with
      | .ack _, .server, .slice n =>
        let m := 32 * Nat.xor (n / 32) 1 + n % 32
        let s1 := s.updSlice m (fun sl => { sl with repl := (sl.repl ++ [(p.req, p)]).drop (sl.repl.length + 1 - 1024) })
        s1.putPkt id { p with place := p.dst.place }
      | _, _, _ => s)

/-! ## Clocks (R356, R358, R376) -/

/-- CLOCK_RECONCILE: the clocks of the live home dies, of the bridges and of the domain agent become their serial maximum; one
that crosses a multiple of 2^26 starts a sweep. -/
def execClockReconcile (s : State) : Host.Outcome State Fault Refusal :=
  let hs := (s.homes.filter (fun h => !h.failed)).map (·.clock)
  let cs := hs ++ s.bridges.map (·.clock) ++ [s.dom.agent.clock]
  let t : Ts := cs.foldl Ts.smax (cs.getD 0 0)
  let s1 : State := { s with
    homes := s.homes.map (fun h => if h.failed then h else { h with clock := t })
    bridges := s.bridges.map (fun b => { b with clock := t })
    dom := { s.dom with agent := { s.dom.agent with clock := t } }
    lastRec := t }
  let imgs := (s.blocks.filter (fun b => b.2.save.isSome)).map Prod.fst
  let crossed : Bool := t.toNat / 2 ^ 26 != s.lastRec.toNat / 2 ^ 26
  .next (if crossed then { s1 with sweep := some (t, true, imgs) } else s1)

/-- R358: a live timestamp that lags is raised. -/
def sweepTs (t x : Ts) : Ts :=
  let lag := (t - x).toNat
  if 2 ^ 29 < lag && lag < 2 ^ 31 then t - BitVec.ofNat 32 (2 ^ 29) else x

def sweepLags (t x : Ts) : Bool := sweepTs t x != x

/-- Spans of a unit that lag: published if dirty, then dropped. -/
def State.sweepUnit (s : State) (t : Ts) (u : Agent) : State :=
  let old := (s.spans u).filter (fun e => e.2.wts.any (sweepLags t) || e.2.rts.any (sweepLags t))
  old.foldl (fun s e =>
    let s1 := s.publishLine u e.1 (fun _ => true)
    match s1.span u e.1 with
    | some v =>
      if v.dirty.isEmpty && v.pending.isNone && v.hold = 0 then s1.dropSpan u e.1
      else s1.setSpan u e.1 { v with cnt := 0, bytes := [], poison := [], wts := v.wts.map (sweepTs t), rts := v.rts.map (sweepTs t) }
    | none => s1) s

def sweepCrew (t : Ts) (c : Crew) : Crew :=
  { c with pts := sweepTs t c.pts, openPts := sweepTs t c.openPts,
           batches := c.batches.map (fun b => { b with pts := sweepTs t b.pts }) }

def Slice.swept (t : Ts) (v : Slice) : Slice :=
  { v with sect := Tab.mapV v.sect (fun _ e => (sweepTs t e.1, sweepTs t e.2)), mts := sweepTs t v.mts }

def Bridge.swept (t : Ts) (b : Bridge) : Bridge :=
  { b with lines := Tab.mapV b.lines (fun _ l =>
      { l with wts := l.wts.map (sweepTs t), rts := l.rts.map (sweepTs t), gr := sweepTs t l.gr }) }

/-- The units' part of a sweep (R358, R376). -/
def State.sweepAll (s : State) (t : Ts) : State :=
  let s1 := (Tab.keys s.cores).foldl (fun s k => s.sweepUnit t (.core k)) s
  let s2 := (Tab.keys s.clusters).foldl (fun s k => s.sweepUnit t (.cluster k)) s1
  let s3 := (List.range 128).foldl (fun s n => s.updSlice n (Slice.swept t)) s2
  let s4 := (List.range 512).foldl (fun s k => s.updCore k (fun c => { c with crf := sweepTs t c.crf })) s3
  let s5 := (List.range 128).foldl (fun s k => s.updCluster k (fun c =>
    { c with crf := sweepTs t c.crf, mc := { c.mc with pts := sweepTs t c.mc.pts } })) s4
  { s5 with
    crews := Tab.mapV s5.crews (fun _ c => sweepCrew t c)
    gangs := Tab.mapV s5.gangs (fun _ g => { g with pump := g.pump.map (fun p => { p with pts := sweepTs t p.pts }) })
    cmds := Tab.mapV s5.cmds (fun _ c => { c with pts := sweepTs t c.pts })
    bridges := s5.bridges.map (Bridge.swept t)
    dom := { s5.dom with agent := s5.dom.agent.swept t, inPts := Tab.mapV s5.dom.inPts (fun _ x => sweepTs t x) } }

/-- ROLLOVER_SWEEP. -/
def execRolloverSweep (s : State) : Host.Outcome State Fault Refusal :=
  .next (match s.sweep with
    | some (t, true, imgs) => { s.sweepAll t with sweep := if imgs.isEmpty then none else some (t, false, imgs) }
    | _ => s)

/-- The `pts` fields of an image raised by a sweep (R324). -/
def State.sweepImage (s : State) (t : Ts) (b : Blk) (a : Nat) : State :=
  let desc := s.blkDesc b
  (List.range (crewPlan desc).length).foldl (fun s i =>
    let o := a + imgCrewOff b.kind desc i + 0x208
    s.imgPut o (leBytes (sweepTs t (BitVec.ofNat 32 (s.imgLe o 4))).toNat 4)) s

/-- An image that a sweep has not reached yet is raised (R358). -/
def State.sweepBlock (s : State) (id : Nat) : State :=
  match s.sweep, Tab.get s.blocks id with
  | some (t, u, imgs), some b =>
    if imgs.contains id then
      let s1 := match b.save with | some a => s.sweepImage t b a | none => s
      let rest := imgs.filter (· != id)
      { s1 with sweep := if rest.isEmpty && !u then none else some (t, u, rest),
                blocks := Tab.upd s1.blocks id (fun b => { b with
                  side := Tab.mapV b.side (fun _ c => sweepCrew t c)
                  was := b.was.map (fun g => { g with pump := g.pump.map (fun p => { p with pts := sweepTs t p.pts }) }) }) }
    else s
  | _, _ => s

/-- IMAGE_PTS_SWEEP: the package controller reaches the image of a block; one without an image is passed over. -/
def execImagePtsSweep (image : Nat) (s : State) : Host.Outcome State Fault Refusal :=
  .next (match Tab.get s.blocks image with
    | some _ => s.sweepBlock image
    | none => match s.sweep with
      | some (t, u, imgs) =>
        let rest := imgs.filter (· != image)
        { s with sweep := if rest.isEmpty && !u then none else some (t, u, rest) }
      | none => s)

end Sys2Proof.Machine
end

