-- ==== Sys2Proof/Machine/Place.lean ====
section
/-! DEFINITION. A state in which a given word is the next to issue (log entry 5): what a driver, a launch queue and a
placement would have set up, in one stroke. -/

namespace Sys2Proof.Machine

/-- Where the placed program lies. -/
def placePC : Nat := 0x1000

/-- A kernel descriptor (R268) of one general crew of 256 registers and 8 tiles, 64 KiB of scratch. -/
def placeDesc : List Byte := leBytes (1 * 2 ^ 186 + 32 * 2 ^ 180 + 8 * 2 ^ 176) 64

/-- The launch of the placed program: address space 1, partition 0, one gang. -/
def placeLaunch : Launch :=
  { queue := 0, asid := 1, part := 0, index := 0, record := List.replicate 64 0, desc := placeDesc, contDesc := [],
    params := [], nextG := 1, gangsLeft := 1, contLeft := 0, cmdsLeft := 0, nextAge := 1, bins := [], contCount := [],
    flushed := false, status := 0, detail := 0, hold := false }

def placeGang (core lslot : Nat) : Gang :=
  { lslot := lslot, gx := 0, gy := 0, rank := 0, n := 1, core := core, cont := false, scr := [], scrSz := 65536,
    scrPoison := [], scrBadChk := [], ntiles := 8, tiles := [], tilePoison := [], wells := [],
    bars := List.replicate 5 { obj := BitVec.ofNat 128 (BarObj.init 1 1).val, arrived := 0 }, inIdem := false, sbuf := [],
    detBase := 0, detSz := 0, pump := none, finished := 0, stop := false, heldFault := none, issued := true, age := 0 }

/-- A split that runs from a PC. -/
def Split.start (pc : Nat) (m : Mask) : Split := Split.free.run pc m none

/-- A crew as it first becomes resident (R139, R141, R90, R112, R243). -/
def Crew.start (gid idx core slot pipe role budget ntiles pc spillBase spillSz : Nat) (pts : Ts) (det : Bool)
    (m : Mask) : Crew :=
  { gid := gid, idx := idx, core := core, slot := slot, pipe := pipe, role := role, budget := budget, ntiles := ntiles,
    vr := [], wb := 0, lo := 0, spillBase := spillBase, spillSz := spillSz, sr := [], pr := [],
    bind := List.replicate 8 none, tc := List.replicate 8 0,
    status := BitVec.ofNat 64 (role * 2 ^ 22 + (if det then 2 ^ 20 + 2 ^ 9 else 0)), pts := pts, live := m,
    splits := Split.start pc m :: List.replicate 3 Split.free, recs := [], seq := 0, fix := [], pend := [], reqs := [],
    acks := [], fences := [], walks := [], batchCtr := 0, openCmds := 0, openStatus := 0, openTrap := none, openPts := pts, batches := [],
    trap := none, pumpFault := none, cap := none, arr := none, detRun := none,
    bad := [], tbusy := List.replicate 8 (0, 0) }

/-- The placed crew: general role, every lane live. -/
def placeCrew (gid : Nat) : Crew := Crew.start gid 0 0 0 0 0 256 8 placePC 0 0 0 false (BitVec.ofNat 32 (2 ^ 32 - 1))

/-- The TLB entry that maps the first 2 MiB of address space 1 to the first 2 MiB of device memory. -/
def placeTlb : TlbEntry := { asid := 1, lvl := 1, va := 0, pa := 0, r := true, w := true, x := true, d := true }

/-- The placed state: the bytes at the PC, the crew resident on core 0, and its pipe the next to move. -/
def State.placed (s : State) (bs : List Byte) : State :=
  let gid := s.nextId
  let core := { s.core 0 with tlb := placeTlb :: (s.core 0).tlb, issuedAt := [] }
  { (s.setCore 0 core).setAsid 1 { s.asid 1 with root := 1 } with
    cur := .none
    agenda := [.pipe 0 0]
    nextId := gid + 1
    mem := Cells.putBytes s.mem placePC bs
    crews := Tab.set (s.crews.filter (fun c => c.2.core != 0)) (crewKey gid 0) (placeCrew gid)
    gangs := Tab.set (s.gangs.filter (fun g => g.2.core != 0)) gid (placeGang 0 0)
    launches := Tab.set s.launches 0 placeLaunch }

end Sys2Proof.Machine
end

