-- ==== Sys2Proof/Machine/Launching.lean ====
section
/-! DEFINITION. Launch queues and the launch table (R291 to R298), quotas (R303), placement (R16, R18, R301), donation (R302)
and the reorder flush (R35). -/

namespace Sys2Proof.Machine

/-! ## Doorbells (R292) -/

/-- Whether no queue accepts a record: in recovery, or with a home die that failed its probe (R384, R395). -/
def State.closed (s : State) : Bool := s.fw.recovery || s.pwr.degraded

/-- A doorbell write of QTAIL. -/
def State.doorbell (s : State) (q : Nat) (v : W32) : State :=
  let r := s.queue q
  if r.en && !s.closed && !r.dev && decide ((v - r.qhead).toNat ≤ 2 ^ r.k) && decide ((v - r.qtail).toNat < 2 ^ 31) then
    s.setQueue q { r with qtail := v }
  else s.setQueue q { r with qstat := r.qstat ||| 1 }

/-- DOORBELL. -/
def execDoorbell (q : Nat) (v : W32) (s : State) : Host.Outcome State Fault Refusal :=
  .next (if q < 16384 && !s.fw.recovery then s.doorbell q v else s)

/-! ## What a gang needs of a core (R16, R18, R118) -/

/-- The crew count and the registers per lane in use on each pipe of a core. -/
def State.pipeUse (s : State) (core : Nat) : List (Nat × Nat) :=
  (List.range 4).map (fun p =>
    let cs := (s.coreCrews core).filter (fun c => c.2.pipe == p)
    (cs.length, cs.foldl (fun n c => if c.2.live = 0 then n else n + c.2.budget) 0))

/-- The pipes of crews placed in ascending index (R16), or none when one does not fit (R18). -/
def placePipes : List (Nat × Nat) → List Nat → Option (List Nat)
  | _, [] => some []
  | us, b :: rest =>
    let best := (List.range 4).foldl (fun (a : Option Nat) p =>
      let u := us.getD p (8, 512)
      if 8 ≤ u.1 then a
      else match a with
        | none => some p
        | some q => if u.2 < (us.getD q (8, 512)).2 then some p else some q) none
    match best with
    | none => none
    | some p =>
      let u := us.getD p (8, 512)
      if 512 < u.2 + b then none
      else (placePipes (us.set p (u.1 + 1, u.2 + b)) rest).map (p :: ·)

/-- Figures of a descriptor's gang: crews, tiles, scratch bytes, registers per lane; the split and the slice (R268). -/
def descCrews (d : List Byte) : Nat := (crewPlan d).length
def descTiles (d : List Byte) : Nat := (crewPlan d).foldl (fun n c => n + c.2.2) 0
def descRegs (d : List Byte) : Nat := (crewPlan d).foldl (fun n c => n + c.2.1) 0
def descScr (d : List Byte) : Nat := fld (leVal d) 272 16 * 1024
def descSplit (d : List Byte) : Nat := fld (leVal d) 256 3
def descSlice (d : List Byte) : Nat := fld (leVal d) 384 64
def descCode (d : List Byte) : Nat := fld (leVal d) 448 64
def descSpill (d : List Byte) : Nat := fld (leVal d) 320 32
def descDetbuf (d : List Byte) : Nat := fld (leVal d) 288 32

/-- Whether a gang of a descriptor fits beside these resident figures. -/
def fitsWith (us : List (Nat × Nat)) (gangs crews tiles scr pumps : Nat) (d : List Byte) : Bool :=
  (placePipes us ((crewPlan d).map (·.2.1))).isSome && decide (gangs < 32) && decide (crews + descCrews d ≤ 32) &&
  decide (tiles + descTiles d ≤ 16) && decide (scr + descScr d ≤ 65536 * descSplit d) && (descSlice d == 0 || decide (pumps < 4))

/-- Whether it fits an empty core (R269). -/
def fitsEmpty (d : List Byte) : Bool := fitsWith (List.replicate 4 (0, 0)) 0 0 0 0 0 d

/-- The tiles of the core that a gang takes: those that its live crews own, or those that are still bound, in a well or held by the
pump, whichever are more; a finished crew's are released (R18, R175). -/
def State.tileUse (s : State) (gid : Nat) (g : Gang) : Nat :=
  let live := (s.gangCrews gid).filter (fun c => c.2.live != 0)
  let own := live.foldl (fun n c => n + c.2.ntiles) 0
  let pumped : List Nat := match g.pump with | some p => (match p.held with | some h => [h.1] | none => []) | none => []
  let refs := live.flatMap (fun c => c.2.bind.filterMap id) ++ pumped ++
    g.wells.flatMap (fun w => if w.2.tiles then w.2.ents.map (·.2.1) else [])
  max own (refs.foldl (fun l t => if l.contains t then l else t :: l) ([] : List Nat)).length

/-- Whether it fits on a core now. -/
def State.fits (s : State) (core : Nat) (d : List Byte) : Bool :=
  let gs := s.coreGangs core
  fitsWith (s.pipeUse core) gs.length (s.coreCrews core).length (gs.foldl (fun n g => n + s.tileUse g.1 g.2) 0)
    (gs.foldl (fun n g => n + g.2.scrSz) 0) (gs.filter (fun g => g.2.pump.isSome)).length d

/-! ## Consuming a record (R293, R295, R296) -/

/-- A read of driver or tenant memory by the dispatcher: bytes, a failure, a held page, or nothing yet. -/
inductive DispRead where
  | ok (s : State) (bs : List Byte)
  | fail (s : State)
  | held (s : State) (page : Nat)
  | later (s : State)
  deriving DecidableEq, Repr

def State.dispRead (s : State) (asid va n : Nat) : DispRead :=
  if n = 0 then .ok s []
  else match s.engRange asid va n 0 with
    | .fail s1 => .fail s1
    | .held s1 p => .held s1 p
    | .later s1 => .later s1
    | .ok s1 ps => match s1.piecesRead ps 0 { Finder.nobody with va := va, asid := asid, part := s1.asidPart asid } with
      | .later s2 => .later s2
      | .ok s2 bs _ po => if po then .fail s2 else .ok s2 bs

/-- The fields of the record (R295). -/
def Launch.desca (l : Launch) : Nat := l.r 448 64
def Launch.parama (l : Launch) : Nat := l.r 384 64
def Launch.spillb (l : Launch) : Nat := l.r 320 64
def Launch.detb (l : Launch) : Nat := l.r 256 64
def Launch.rbase (l : Launch) : Nat := l.r 192 64
def Launch.donea (l : Launch) : Nat := l.r 128 64
def Launch.tag (l : Launch) : Nat := l.r 64 32
def Launch.prio (l : Launch) : Nat := l.r 56 3
def Launch.ser (l : Launch) : Bool := l.r 51 1 == 1
def Launch.irq (l : Launch) : Bool := l.r 48 1 == 1

/-- Check 1. -/
def Launch.check1 (l : Launch) : Bool :=
  l.r 59 5 == 0 && l.r 52 4 == 0 && l.r 0 48 == 0 &&
  [l.desca, l.parama, l.spillb, l.detb, l.rbase, l.donea].all (fun a => decide (a < 2 ^ 57)) &&
  l.desca % 64 == 0 && l.parama % 8 == 0 && l.rbase % 64 == 0 && l.donea % 8 == 0

/-- Check 2 of a descriptor: a role's register budget is checked where it has crews. -/
def check2 (d : List Byte) : Bool :=
  let v := leVal d
  let role (k : Nat) : Nat := fld v (176 - 16 * k) 16
  let roled := fld v 138 1 == 1
  let used := if roled then [0, 1, 2] else [0]
  let n := used.foldl (fun n k => n + fld (role k) 10 6) 0
  fld v 259 13 == 0 && fld v 140 4 == 0 && fld v 96 40 == 0 && decide (1 ≤ n) && decide (n ≤ 32) &&
  (roled || (role 1 == 0 && role 2 == 0)) &&
  used.all (fun k => fld (role k) 10 6 == 0 || (decide (1 ≤ fld (role k) 4 6) && decide (fld (role k) 4 6 ≤ 32))) &&
  [0, 1, 2].all (fun k => decide (fld (role k) 0 4 ≤ 8)) && decide (fld v 272 16 ≤ 448) &&
  decide (fld v 352 32 ≤ 32768) && fld v 352 32 % 8 == 0

/-- A quota field in units, 0 for no limit (R303). -/
def within (limit unit n : Nat) : Bool := limit == 0 || decide (n ≤ limit * unit)
def Part.q (p : Part) (lo : Nat) : Nat := fld p.quota.toNat lo 16

/-- Checks 3 to 7; the number of the first that fails, or 0. -/
def State.checks3to7 (s : State) (l : Launch) (pmax : Nat) (d : List Byte) : Nat :=
  let v := leVal d
  let p := s.part l.part
  if l.r 50 1 ≠ fld v 136 1 || l.r 49 1 ≠ fld v 137 1 || pmax < l.prio then 3
  else if fld v 136 1 = 1 && (l.rw % 2 == 1 || l.rh % 2 == 1) then 4
  else if !fitsEmpty d then 5
  else if !(within (p.q 96) 1 (descCrews d) && within (p.q 64) 4096 (descScr d) && within (p.q 32) 32 (descRegs d)) then 6
  else if (l.parama == 0 && fld v 352 32 != 0) || (fld v 137 1 == 0 && l.detb != 0) || (fld v 224 32 == 0 && l.rbase != 0) then 7
  else 0

/-- Check 8, with the reserved bits of the descriptor (R4, R268). -/
def check8 (d k : List Byte) : Bool :=
  let v := leVal k
  fld v 259 13 == 0 && fld v 140 4 == 0 && fld v 96 40 == 0 && fld v 138 1 == 0 && (roleOf k 0).1 == 1 && fld v 136 1 == 0 && descSpill k == 0 && fld v 224 32 == 0 && descDetbuf k == 0 &&
  descSplit k == descSplit d && fld v 137 1 == fld (leVal d) 137 1

/-- A launch that completes at once without a gang. -/
def Launch.stopped (l : Launch) (d : List Byte) (status detail : Nat) : Launch :=
  { l with desc := if d.isEmpty then List.replicate 64 0 else d, status := status, detail := detail, gangsLeft := 0, flushed := true,
           nextG := l.rw * l.rh }

/-- The blocks of a launch: gangs, or clusters of four. -/
def Launch.units (l : Launch) : Nat := if l.clu then l.rw * l.rh / 4 else l.rw * l.rh

/-- The checks of a consumed record (R296). -/
def State.checkRecord (s : State) (lslot : Nat) (l : Launch) : State :=
  let q := l.queue
  let wait (s : State) (page : Nat) : State := s.engWait { what := 2, id := q, part := 0, asid := l.asid, page := page }
  let stop (s : State) (d : List Byte) (st n : Nat) : State := s.setLaunch lslot (l.stopped d st n)
  if !l.check1 then stop s [] 1 1
  else match s.dispRead l.asid l.desca 64 with
  | .later s1 => s1
  | .held s1 p => wait s1 p
  | .fail s1 => stop s1 [] 3 0
  | .ok s1 d =>
    if !check2 d then stop s1 d 1 2
    else
      let k := s1.checks3to7 l (s1.queue q).pmax d
      if k ≠ 0 then stop s1 d 1 k
      else
        let v := leVal d
        let cont := fld v 192 32
        let ca := ((l.desca : Int) + 64 * ((cont : Int) - fld v 64 32)) % (2 ^ 64 : Nat)
        match (if cont = 2 ^ 32 - 1 then .ok s1 [] else if 2 ^ 57 ≤ ca.toNat then .fail s1 else s1.dispRead l.asid ca.toNat 64) with
        | .later s2 => s2
        | .held s2 p => wait s2 p
        | .fail s2 => stop s2 d 3 0
        | .ok s2 kd =>
          if !kd.isEmpty && !check8 d kd then stop s2 d 1 8
          else match s2.dispRead l.asid l.parama (fld v 352 32) with
            | .later s3 => s3
            | .held s3 p => wait s3 p
            | .fail s3 => stop s3 d 3 0
            | .ok s3 ps =>
              let l1 := { l with desc := d, contDesc := kd, params := ps, gangsLeft := l.rw * l.rh,
                                 flushed := kd.isEmpty || fld v 224 32 == 0 }
              s3.setLaunch lslot l1

/-- The launch of a queue's previous record, if it has not completed. -/
def State.prevLaunch (s : State) (q : Nat) (i : W32) : Option (Nat × Launch) :=
  s.launches.find? (fun l => l.2.queue == q && l.2.index == i - 1)

/-- Whether every block of a launch has been handed out (R293). -/
def State.dispatched (s : State) (lslot : Nat) (l : Launch) : Bool :=
  !l.desc.isEmpty && (l.status != 0 || (decide (l.units ≤ l.nextG) &&
    !s.blocks.any (fun b => b.2.lslot == lslot && b.2.kind == 0 && b.2.cont.isNone && b.2.place == 0)))

/-- DISPATCH_CONSUME: a record that waits for its checks has them; else the next posted record enters the launch table. -/
def execDispatchConsume (q : Nat) (s : State) : Host.Outcome State Fault Refusal :=
  let r := s.queue q
  .next (if 16384 ≤ q || s.closed || s.engWaits.any (fun w => w.what == 2 && w.id == q) then s
  else match s.launches.find? (fun l => l.2.queue == q && l.2.desc.isEmpty) with
  | some (lslot, l) => s.checkRecord lslot l
  | none =>
    if !r.en || r.qstat.getLsbD 1 || r.qhead == r.qtail then s
    else match Tab.firstFree s.launches 0 4096 with
    | none => s
    | some lslot =>
      match s.dispRead r.asid (r.slot r.qhead.toNat) 64 with
      | .later s1 => s1
      | .held s1 p => s1.engWait { what := 2, id := q, part := 0, asid := r.asid, page := p }
      | .fail s1 => s1.setQueue q { r with qstat := r.qstat ||| 2 }
      | .ok s1 bs =>
        let l : Launch := { queue := q, asid := r.asid, part := r.part, index := r.qhead, record := bs, desc := [], contDesc := [],
                            params := [], nextG := 0, gangsLeft := 0, contLeft := 0, cmdsLeft := 0, nextAge := 0, bins := [],
                            contCount := [], flushed := true, status := 0, detail := 0, hold := false }
        match s1.prevLaunch q r.qhead with
        | some (pslot, pl) =>
          if l.ser || !s1.dispatched pslot pl then s1
          else (s1.setLaunch lslot l).setQueue q { r with qhead := r.qhead + 1 }
        | none => (s1.setLaunch lslot l).setQueue q { r with qhead := r.qhead + 1 })

/-! ## The blocks of a launch (R299, R300) -/

/-- Whether the block pool of a partition is full (R299): its size, of one block at least, is the driver's and stands in no register
(log entry 28). -/
def State.poolFull (s : State) (part : Nat) : Bool :=
  let n := (s.blocks.filter (fun b => match s.launch b.2.lslot with | some l => l.part == part | none => false)).length
  n != 0 && decide (Config.blockPool part ≤ n)

/-- The dispatcher makes the launch's next block, in ascending gang index, once the last one has been handed out and the pool has
room. -/
def State.makeBlock (s : State) (lslot : Nat) : State :=
  match s.launch lslot with
  | none => s
  | some l =>
    if l.desc.isEmpty || l.status ≠ 0 || l.units ≤ l.nextG ||
        s.blocks.any (fun b => b.2.lslot == lslot && b.2.kind == 0 && b.2.cont.isNone && b.2.place == 0) || s.poolFull l.part then s
    else
      let w := if l.clu then l.rw / 2 else l.rw
      let m := if l.clu then 2 else 1
      let b : Blk := { lslot := lslot, kind := 0, unit := l.clu, prio := l.prio, gx := m * (l.nextG % w), gy := m * (l.nextG / w),
                       save := none, age := l.nextAge, held := false, place := 0, core := 0, cont := none, gid := none, side := [],
                       was := none, sbuf := [] }
      let s1 := s.setLaunch lslot { l with nextG := l.nextG + 1, nextAge := l.nextAge + 1 }
      { s1 with blocks := Tab.set s1.blocks s1.nextId b, nextId := s1.nextId + 1 }

/-- The blocks that start together: one, or the saved gangs of one cluster (R14). -/
def State.unitBlocks (s : State) (id : Nat) (b : Blk) : List (Nat × Blk) :=
  match s.launch b.lslot with
  | some l =>
    if l.clu && b.cont.isNone && b.kind ≠ 0 then
      s.blocks.filter (fun x => x.2.lslot == b.lslot && x.2.kind != 0 && x.2.cont.isNone && x.2.gx / 2 == b.gx / 2 && x.2.gy / 2 == b.gy / 2)
    else [(id, b)]
  | none => [(id, b)]

/-- Whether a block may start (R299, R315): its launch is not held, and no gang of its cluster is. -/
def State.eligible (s : State) (id : Nat) (b : Blk) : Bool :=
  (s.unitBlocks id b).all (fun x => !x.2.held) &&
  (match s.launch b.lslot with | some l => !l.hold && l.status == 0 | none => false)

/-- R300: the order in which blocks start. -/
def Blk.before (a b : Nat × Blk) : Bool :=
  let rank (x : Blk) : Nat := if x.kind = 0 then 1 else 0
  decide (b.2.prio < a.2.prio) || (a.2.prio == b.2.prio && (decide (rank a.2 < rank b.2) || (rank a.2 == rank b.2 &&
    (decide (a.2.age < b.2.age) || (a.2.age == b.2.age && decide (a.1 < b.1))))))

def bestBlk : List (Nat × Blk) → Option (Nat × Blk)
  | [] => none
  | b :: t => match bestBlk t with
    | none => some b
    | some c => some (if Blk.before b c then b else c)

/-- Whether a block needs a whole cluster. -/
def State.needsCluster (s : State) (b : Blk) : Bool :=
  match s.launch b.lslot with | some l => l.clu && b.cont.isNone | none => false

/-! ## Placement (R301, R303) -/

/-- Resident figures of gangs: crews that keep a slot, scratch bytes, registers per lane of the live crews (R175). -/
def State.gangFigs (s : State) (gs : List (Nat × Gang)) : Nat × Nat × Nat :=
  gs.foldl (fun a g =>
    let cs := s.gangCrews g.1
    (a.1 + cs.length, a.2.1 + g.2.scrSz, cs.foldl (fun n c => if c.2.live = 0 then n else n + c.2.budget) a.2.2)) (0, 0, 0)

/-- Whether `n` more gangs keep the partition and the launch within quota (R303). -/
def State.quotaOk (s : State) (lslot : Nat) (l : Launch) (d : List Byte) (n : Nat) : Bool :=
  let p := s.part l.part
  let mine := s.gangFigs (s.gangs.filter (fun g => s.gangPart g.1 == l.part))
  let own := s.gangFigs (s.gangs.filter (fun g => g.2.lslot == lslot))
  within (p.q 112) 1 (mine.1 + n * descCrews d) && within (p.q 96) 1 (own.1 + n * descCrews d) &&
  within (p.q 80) 4096 (mine.2.1 + n * descScr d) && within (p.q 64) 4096 (own.2.1 + n * descScr d) &&
  within (p.q 48) 32 (mine.2.2 + n * descRegs d) && within (p.q 32) 32 (own.2.2 + n * descRegs d)

/-- Whether a core may take a gang of a launch (R20, R301), quotas apart. -/
def State.coreTakes (s : State) (core : Nat) (l : Launch) (d : List Byte) : Bool :=
  !(s.core core).oos && fld (s.part l.part).quota.toNat (128 + clusterOf core) 1 == 1 &&
  (s.coreGangs core).all (fun g => s.gangPart g.1 == l.part && descSplit (s.gangDesc g.1) == descSplit d) && s.fits core d

/-- The blocks of a core's local queue. -/
def State.localQueue (s : State) (core : Nat) : List (Nat × Blk) := s.blocks.filter (fun b => b.2.place == 1 && b.2.core == core)

/-- Resident crews of a core. -/
def State.residents (s : State) (core : Nat) : Nat := (s.coreCrews core).length

/-- Whether core `a` is chosen before core `b`: not hot, fewest crews, lowest. -/
def State.coreBefore (s : State) (a b : Nat) : Bool :=
  let h (c : Nat) : Nat := (s.core c).hot.toNat
  decide (h a < h b) || (h a == h b && (decide (s.residents a < s.residents b) || (s.residents a == s.residents b && decide (a < b))))

def pickBy (f : Nat → Nat → Bool) : List Nat → Option Nat
  | [] => none
  | x :: t => match pickBy f t with
    | none => some x
    | some y => some (if f x y then x else y)

/-- The hot cores and the crews of a cluster. -/
def State.clusterBefore (s : State) (a b : Nat) : Bool :=
  let h (k : Nat) : Nat := ((clusterCores k).any (fun c => (s.core c).hot)).toNat
  let n (k : Nat) : Nat := (clusterCores k).foldl (fun m c => m + s.residents c) 0
  decide (h a < h b) || (h a == h b && (decide (n a < n b) || (n a == n b && decide (a < b))))

/-- Blocks on their way to a core as donations. -/
def State.inTransit (s : State) (core : Nat) : Nat := (s.blocks.filter (fun b => b.2.place == 2 && b.2.core == core)).length

/-- Of the places that qualify, those that may receive a block: while one is not hot, only such (R301). -/
def preferCool (hot : Nat → Bool) (l : List Nat) : List Nat := if l.all hot then l else l.filter (fun c => !hot c)

/-- The core that a block is handed to (R301): for one that needs a cluster, the lowest core of that cluster. A local queue holds 8
blocks, with those on their way to it (R300). -/
def State.chooseCore (s : State) (id : Nat) (b : Blk) : Option Nat :=
  match s.launch b.lslot with
  | none => none
  | some l =>
    let d := s.blkDesc b
    let n := (s.unitBlocks id b).length
    let room (c : Nat) : Bool := decide ((s.localQueue c).length + s.inTransit c + n ≤ 8)
    let hotCl (k : Nat) : Bool := (clusterCores k).any (fun c => (s.core c).hot)
    if s.needsCluster b then
      if s.quotaOk b.lslot l d (if b.kind = 0 then 4 else n) then
        (pickBy s.clusterBefore ((preferCool hotCl ((List.range 128).filter (fun k =>
          (clusterCores k).all (fun c => s.coreTakes c l d)))).filter (fun k => room ((clusterCores k).getD 0 0)))).map
            (fun k => (clusterCores k).getD 0 0)
      else none
    else if s.quotaOk b.lslot l d 1 then
      pickBy s.coreBefore ((preferCool (fun c => (s.core c).hot) ((List.range 512).filter (fun c => s.coreTakes c l d))).filter room)
    else none

/-- The dispatcher's next block of a launch: its first eligible one (R300). -/
def State.headBlock (s : State) (lslot : Nat) : Option (Nat × Blk) :=
  bestBlk (s.blocks.filter (fun b => b.2.lslot == lslot && b.2.place == 0 && s.eligible b.1 b.2))

/-- How far a launch stands after the one served last in its partition (R300). -/
def State.turnOf (s : State) (lslot part : Nat) : Nat :=
  match Tab.get s.rr part with
  | some r => (lslot + 4096 - r - 1) % 4096
  | none => lslot

/-- Whether a launch's block is the dispatcher's to hand out: no launch of higher PRIO, and none of equal PRIO of its partition
that comes first in the rotation, has a block that finds a core. -/
def State.served (s : State) (lslot : Nat) (b : Blk) : Bool :=
  let part := match s.launch lslot with | some l => l.part | none => 0
  (Tab.keys s.launches).all (fun o =>
    if o = lslot then true
    else match s.headBlock o with
      | none => true
      | some x =>
        let opart := match s.launch o with | some l => l.part | none => 0
        let first := decide (b.prio < x.2.prio) || (x.2.prio == b.prio && opart == part && decide (s.turnOf o part < s.turnOf lslot part))
        !first || (s.chooseCore x.1 x.2).isNone)

/-- BLOCK_PLACE: a block is handed to a core's local queue (R300, R301). -/
def execBlockPlace (blk core : Nat) (s0 : State) : Host.Outcome State Fault Refusal :=
  let s := (Tab.keys s0.launches).foldl State.makeBlock s0
  .next (match Tab.get s.blocks blk with
    | none => s
    | some b =>
      match s.headBlock b.lslot with
      | none => s
      | some h =>
        if h.1 = blk && s.served b.lslot b && s.chooseCore blk b = some core then
          let mates := (s.unitBlocks blk b).map Prod.fst
          let part := match s.launch b.lslot with | some l => l.part | none => 0
          { s with blocks := Tab.mapV s.blocks (fun k v => if mates.contains k && v.place = 0 then { v with place := 1, core := core } else v),
                   rr := Tab.set s.rr part b.lslot }
        else s)

/-! ## Starting a gang -/

/-- The serial maximum of the home clocks (R350). -/
def State.clockMax (s : State) : Ts :=
  match (s.homes.filter (fun h => !h.failed)).map (·.clock) with
  | [] => 0
  | c :: t => t.foldl Ts.smax c

/-- The free crew slots of a core. -/
def State.freeSlots (s : State) (core : Nat) : List Nat :=
  (List.range 32).filter (fun k => !(s.coreCrews core).any (fun c => c.2.slot == k))

/-- A core serves a partition and a launch; the allowances it holds go back when the partition is new (R124). -/
def State.coreServes (s : State) (core part lslot : Nat) : State :=
  let k := s.core core
  let s1 := if k.part.isSome && k.part != some part then s.ctrReturnAll core else s
  s1.updCore core (fun k => { k with part := some part, lastL := some lslot })

/-- The first tile of crew `i` in its gang. -/
def tileBase (d : List Byte) (i : Nat) : Nat := ((crewPlan d).take i).foldl (fun n c => n + c.2.2) 0

/-- The names of a crew bound at its first residence (R89). -/
def firstBind (base n : Nat) : List (Option Nat) := (List.range 8).map (fun k => if k < n then some (base + k) else none)

/-- The empty gang of a descriptor at a place of the launch (R114, R200, R253). -/
def newGang (l : Launch) (b : Blk) (gx gy core : Nat) (d : List Byte) (rw : Nat) : Gang :=
  let cont := b.cont.isSome
  let n := descCrews d
  let det := fld (leVal d) 137 1 == 1
  let g := gy * rw + gx
  let pump : Pump := { a := List.replicate 8 0, strd := List.replicate 32 0, loops := [], pc := descSlice d, halted := false,
                       stopped := false, held := none, pts := 0, wait := .none, word := none, tried := none, walks := [] }
  { lslot := b.lslot, gx := gx, gy := gy, rank := if l.clu && !cont then 2 * (gy % 2) + gx % 2 else 0, n := n, core := core, cont := cont,
    scr := [], scrSz := descScr d, scrPoison := [], scrBadChk := [], ntiles := descTiles d, tiles := [], tilePoison := [], wells := [],
    bars := List.replicate 5 { obj := BitVec.ofNat 128 (BarObj.init 1 n).val, arrived := 0 }, inIdem := false, sbuf := [],
    detBase := if det then l.detb + g * descDetbuf d else 0, detSz := if det then descDetbuf d else 0,
    pump := if descSlice d = 0 then none else some pump, finished := 0, stop := false, heldFault := none, issued := false,
    age := b.age }

/-- The crews of a gang with their pipes, slots and budgets (R16, R139, R273). -/
def newCrews (l : Launch) (gid core : Nat) (d : List Byte) (pipes slots : List Nat) (pts : Ts) (g : Nat) : List Crew :=
  let n := descCrews d
  let det := fld (leVal d) 137 1 == 1
  ((crewPlan d).zip (List.range n)).map (fun p =>
    let i := p.2
    let spill := (l.spillb + (g * n + i) * descSpill d) % 2 ^ 64
    { Crew.start gid i core (slots.getD i 0) (pipes.getD i 0) p.1.1 p.1.2.1 p.1.2.2 (descCode d) spill (descSpill d) pts det
        (BitVec.ofNat 32 (2 ^ 32 - 1)) with bind := firstBind (tileBase d i) p.1.2.2 })

/-- A continuation crew's start values (R35). -/
def Crew.contStart (c : Crew) (key n : Nat) (es : List (Nat × Nat)) : Crew :=
  let m := Mask.ofLanes (List.range es.length)
  let c1 : Crew := { c with live := m, splits := c.splits.map (fun (sp : Split) => if sp.mask = 0 then sp else { sp with mask := m }) }
  let c2 : Crew := ((List.range es.length).zip es).foldl (fun (c : Crew) e =>
    (c.setV 0 e.1 (e.2.1 % 2 ^ 32)).setV 1 e.1 (e.2.1 / 2 ^ 32)) c1
  (c2.setS 0 key).setS 1 n

/-- A gang comes to residence on a core for the first time. -/
def State.residentNew (s : State) (b : Blk) (l : Launch) (gx gy core : Nat) : State :=
  let d := s.blkDesc b
  let rw := if b.cont.isSome then 65536 else l.rw
  match placePipes (s.pipeUse core) ((crewPlan d).map (·.2.1)) with
  | none => s
  | some pipes =>
    let s0 := s.coreServes core l.part b.lslot
    let gid := s0.nextId
    let cs : List Crew := newCrews l gid core d pipes (s0.freeSlots core) s0.clockMax (gy * rw + gx)
    let cs1 : List Crew := match b.cont with
      | some (key, n, es) => cs.map (fun (c : Crew) => c.contStart key n es)
      | none => cs
    let s1 := { s0 with nextId := gid + 1 }.setGang gid (newGang l b gx gy core d rw)
    cs1.foldl (fun (s : State) (c : Crew) => s.setCrew (crewKey gid c.idx) c) s1

/-- The gangs of a unit and the cores they go to: one block's gang, or the four of a cluster. -/
def unitGangs (b : Blk) (core : Nat) : List (Nat × Nat × Nat) :=
  if b.unit then
    let cs := clusterCores (clusterOf core)
    [(b.gx, b.gy, cs.getD 0 0), (b.gx + 1, b.gy, cs.getD 1 0), (b.gx, b.gy + 1, cs.getD 2 0), (b.gx + 1, b.gy + 1, cs.getD 3 0)]
  else [(b.gx, b.gy, core)]

/-- Whether a block can start on its core now: it fits, with its cluster; the quotas hold (R301). -/
def State.canStart (s : State) (id : Nat) (b : Blk) (core : Nat) : Bool :=
  match s.launch b.lslot with
  | none => false
  | some l =>
    let d := s.blkDesc b
    let cs := if s.needsCluster b then clusterCores (clusterOf core) else [core]
    cs.all (fun c => s.coreTakes c l d) && s.quotaOk b.lslot l d (if b.kind = 0 then cs.length else (s.unitBlocks id b).length)

/-- A block that has not started yet starts (R14, R300). -/
def State.startBlock (s : State) (id : Nat) (b : Blk) (core : Nat) : State :=
  match s.launch b.lslot with
  | none => s
  | some l =>
    let s1 := { s with blocks := Tab.erase s.blocks id }
    (unitGangs b core).foldl (fun s g => s.residentNew b l g.1 g.2.1 g.2.2) s1

/-! ## Donation (R302) -/

/-- The mesh distance of two cores. -/
def meshDist (a b : Nat) : Nat :=
  let d (x y : Nat) : Nat := if x < y then y - x else x - y
  d (coreX a) (coreX b) + d (coreY a) (coreY b)

/-- The cores an idle core asks: those of its die at distance 1 to 3, nearest first, then lowest. -/
def victims (core : Nat) : List Nat :=
  [1, 2, 3].flatMap (fun k => (List.range 512).filter (fun c => coreDie c == coreDie core && meshDist c core == k))

/-- Whether a core is idle for a launch: nothing waits for it or is on its way to it, and it could take a gang; a hot one only while
no cool core qualifies (R301). -/
def State.idleFor (s : State) (core : Nat) (lslot : Nat) : Bool :=
  match s.launch lslot with
  | none => false
  | some l =>
    (s.localQueue core).isEmpty && s.inTransit core == 0 && s.coreTakes core l l.desc &&
    (!(s.core core).hot || !(List.range 512).any (fun c => !(s.core c).hot && s.coreTakes c l l.desc))

/-- Whether a core's request stands for its cluster unit, which asks on behalf of four idle cores through the lowest (R302). -/
def State.unitAsks (s : State) (core lslot : Nat) : Bool :=
  (clusterCores (clusterOf core)).getD 0 0 == core && (clusterCores (clusterOf core)).all (fun c => s.idleFor c lslot)

/-- The blocks that a victim ships: the half with the highest AGE of its eligible blocks of the launch, with the blocks that
start with each; those that need a cluster only to a cluster unit. -/
def State.shipped (s : State) (victim lslot : Nat) (cluster : Bool) : List Nat :=
  let bs := (s.localQueue victim).filter (fun b => b.2.lslot == lslot && s.eligible b.1 b.2 && (cluster || !s.needsCluster b.2) &&
    ((s.unitBlocks b.1 b.2).map Prod.fst).getD 0 0 == b.1)
  let sorted := bs.foldl (fun l b => l.takeWhile (fun x => decide (b.2.age < x.2.age)) ++ b :: l.dropWhile (fun x => decide (b.2.age < x.2.age))) []
  (sorted.take ((sorted.length + 1) / 2)).flatMap (fun b => (s.unitBlocks b.1 b.2).map Prod.fst)

/-- STEAL_REQUEST: the victim answers the request of a core that is still idle. -/
def execStealRequest (idle victim : Nat) (s : State) : Host.Outcome State Fault Refusal :=
  let k := s.core idle
  let asked : Option (Nat × List Nat) := match k.steal with
    | none => (match k.lastL with
      | some l => if s.idleFor idle l then some (l, victims idle) else none
      | none => none)
    | some (l, 0, vs) => if s.idleFor idle l then some (l, vs) else none
    | some _ => none
  .next (match asked with
    | some (l, v :: rest) =>
      if v ≠ victim || 512 ≤ idle then s
      else
        let out := s.shipped victim l (s.unitAsks idle l)
        if out.isEmpty then s.updCore idle (fun k => { k with steal := some (l, 1, v :: rest) })
        else
          let s1 := { s with blocks := Tab.mapV s.blocks (fun i b => if out.contains i then { b with place := 2, core := idle } else b) }
          s1.updCore idle (fun k => { k with steal := some (l, 2, []) })
    | _ => (match k.steal with
      | some (_, 0, _) => s.updCore idle (fun k => { k with steal := none })
      | _ => s))

/-- STEAL_REFUSAL: the idle core asks the next. -/
def execStealRefusal (idle : Nat) (s : State) : Host.Outcome State Fault Refusal :=
  .next (match (s.core idle).steal with
    | some (l, 1, _ :: rest) =>
      s.updCore idle (fun k => { k with steal := if rest.isEmpty then none else some (l, 0, rest) })
    | _ => s)

/-- DONATION_ARRIVAL: the blocks of a killed launch are gone already (R298). -/
def execDonationArrival (idle : Nat) (s : State) : Host.Outcome State Fault Refusal :=
  .next (match (s.core idle).steal with
    | some (_, 2, _) =>
      let s1 := { s with blocks := Tab.mapV s.blocks (fun _ b => if b.place = 2 && b.core = idle then { b with place := 1 } else b) }
      s1.updCore idle (fun k => { k with steal := none })
    | _ => s)

/-! ## The flush and the completion (R35, R297) -/

/-- A list cut in pieces of 32; `n` bounds their number. -/
def chunks32 {α : Type} : Nat → List α → List (List α)
  | 0, _ => []
  | _, [] => []
  | n + 1, l => l.take 32 :: chunks32 n (l.drop 32)

/-- The entries of a bin in the order they take lanes: by depositing lane in DET (R36). -/
def Launch.binOrder (l : Launch) (key : Nat) : List BinEntry :=
  if l.det then (l.bin key).foldl (fun acc e =>
    acc.takeWhile (fun x => decide (x.lane ≤ e.lane)) ++ e :: acc.dropWhile (fun x => decide (x.lane ≤ e.lane))) []
  else l.bin key

/-- REORDER_FLUSH: once every gang of the launch has ended. -/
def execReorderFlush (lslot : Nat) (s : State) : Host.Outcome State Fault Refusal :=
  .next (match s.launch lslot with
    | none => s
    | some l =>
      if l.flushed || l.gangsLeft ≠ 0 || l.status ≠ 0 then s
      else
        let s1 := s.setLaunch lslot { l with bins := [], flushed := true }
        l.keys.foldl (fun s key =>
          let es := l.binOrder key
          (chunks32 es.length es).foldl (fun s c => s.startCont lslot key c) s) s1)

/-- A request of a crew that has ended and is not yet acknowledged: a launch's release waits for those (R297). -/
def State.strayWrites (s : State) : Bool :=
  let gone (key : Nat) : Bool := (s.gang (keyGid key)).isNone
  s.net.any (fun p => gone p.2.crew && (match p.2.kind with
    | .write | .wb | .atom _ _ _ _ | .ack _ => true
    | _ => false))

/-- LAUNCH_COMPLETE (R297): the completion word, the interrupt, the entry freed. A held page of DONE is waited for. -/
def execLaunchComplete (lslot : Nat) (s : State) : Host.Outcome State Fault Refusal :=
  .next (match s.launch lslot with
    | none => s
    | some l =>
      let q := s.queue l.queue
      if l.desc.isEmpty || l.gangsLeft ≠ 0 || l.contLeft ≠ 0 || l.cmdsLeft ≠ 0 || !l.flushed || s.strayWrites ||
          s.engWaits.any (fun w => w.what == 3 && w.id == lslot) then s
      else
        let fin (s : State) : State :=
          let s1 := { s with launches := Tab.erase s.launches lslot,
                             cores := Tab.mapV s.cores (fun _ k => if k.lastL = some lslot then { k with lastL := none } else k) }
          if l.irq then s1.raiseIrq q.vec else s1
        let word := l.tag * 2 ^ 32 + l.detail % 65536 * 2 ^ 16 + l.status
        if l.donea = 0 then fin s
        else
          let bad (s : State) : State := fin (s.setQueue l.queue { s.queue l.queue with qstat := (s.queue l.queue).qstat ||| 2 })
          if 2 ^ 57 ≤ l.donea then bad s
          else match s.engXlate l.asid l.donea 1 with
          | .later s1 => s1
          | .held s1 p => s1.engWait { what := 3, id := lslot, part := 0, asid := l.asid, page := p }
          | .fail s1 => bad s1
          | .ok s1 pa => match s1.directWrite pa (leBytes word 8) s1.clockMax none (s1.launchFinder lslot l.donea) with
            | .later s2 => s2
            | .ok s2 _ _ _ => fin s2)

end Sys2Proof.Machine
end

