-- ==== Sys2Proof/Machine/Saves.lean ====
section
/-! DEFINITION. Save images written: the layout of R320 to R323 and R326, and the stop and drain of a gang before it (R315). -/

namespace Sys2Proof.Machine

/-! ## The image as bytes at offsets -/

/-- Bytes of an area, at their offsets. -/
abbrev Area := List (Nat × List Byte)

/-- `k` values of `n` bytes each. -/
def packLe (k n : Nat) (f : Nat → Nat) : List Byte := (List.range k).flatMap (fun i => leBytes (f i) n)

/-- The areas written from address `a` on. -/
def State.putArea (s : State) (a : Nat) (ps : Area) : State := ps.foldl (fun s p => s.imgPut (a + p.1) p.2) s

/-- What a header says of a held gang (R317, R318): FADDR, FPC, FDET, FCLS, FCREW, HRET. -/
structure HeldInfo where
  faddr : Nat
  fpc : Nat
  fdet : Nat
  fcls : Nat
  fcrew : Nat
  hret : Bool
  deriving DecidableEq, Repr

/-- The sizes of an image (R320, R326): IMGSZ, SCROFF, TILEOFF; a discard image has neither area (log entry 29). -/
def imgSizes (kind : Nat) (desc : List Byte) : Nat × Nat × Nat :=
  let n := (crewPlan desc).length
  let t := imgCrewOff kind desc n
  if kind = 3 then (t, 0, 0) else (t + 4096 * descTiles desc + descScr desc, t + 4096 * descTiles desc, t)

/-- The gang header (R321). -/
def headerBytes (g : Gang) (kind : Nat) (det : Bool) (desc : List Byte) (live : Nat) (h : HeldInfo) : List Byte :=
  let z := imgSizes kind desc
  leBytes (g.lslot + kind * 2 ^ 12 + g.gx * 2 ^ 16 + g.gy * 2 ^ 32 + (g.n - 1) * 2 ^ 50 + det.toNat * 2 ^ 55
    + g.pump.isSome.toNat * 2 ^ 56 + (kind == 3).toNat * 2 ^ 57 + g.rank * 2 ^ 58 + live * 2 ^ 96 + g.ntiles * 2 ^ 800
    + g.scrSz * 2 ^ 832 + z.2.2 * 2 ^ 864 + z.2.1 * 2 ^ 896 + z.1 * 2 ^ 928 + g.detBase * 2 ^ 960 + h.hret.toNat * 2 ^ 1130
    + h.fcrew * 2 ^ 1131 + h.fcls * 2 ^ 1136 + h.fdet * 2 ^ 1140 + h.fpc * 2 ^ 1152 + h.faddr * 2 ^ 1216) 256

/-- A reconvergence record's 32 bytes (R322). -/
def Rec.bytes (v : Rec) : List Byte :=
  leBytes v.val 32

/-- The on-chip records of a split, the outermost first (R23, R322). -/
def Crew.chipRecs (c : Crew) (e : Nat) : List Rec :=
  ((c.stack c.recs.length (c.split e).top).take 16).reverse.map c.rcd

/-- A split entry's 16 bytes. -/
def Crew.splitVal (c : Crew) (e : Nat) : Nat :=
  let sp := c.split e
  if sp.mask = 0 then 0
  else sp.pc + sp.mask.toNat * 2 ^ 64 + (c.chipRecs e).length * 2 ^ 96 + (sp.wait == .join).toNat * 2 ^ 104

/-- The arrival state of a waiting crew. -/
def Crew.arrVal (c : Crew) : Nat := match c.arr with | some (k, q) => 1 + q.toNat * 2 + k * 4 | none => 0

/-- The trap that a crew is saved with: one queued and not in service (R315). -/
def Crew.queuedTrap (c : Crew) : Option Trap :=
  match c.trap with
  | some t => if t.inService then none else some t
  | none => none

/-- The on-chip logical registers, LO to LO + b − 1, that are not zero, at their offsets. -/
def Crew.regArea (c : Crew) : Area :=
  c.vr.filterMap (fun e =>
    if 32 * c.lo ≤ e.1 ∧ e.1 < 32 * (c.lo + c.budget) then some (0x2000 + 4 * (e.1 - 32 * c.lo), leBytes e.2.toNat 4) else none)

/-- A crew's section (R322). -/
def Crew.section (c : Crew) (det : Bool) (regs : Bool) : Area :=
  let t := c.queuedTrap
  let cap := match c.cap with | some k => k | none => { sr := [], wb := 0, lo := 0, pc := 0, status := 0, live := 0 }
  let trapVal (f : Trap → Nat) : Nat := match t with | some t => f t | none => 0
  let capped := c.cap.isSome
  [(0, packLe 64 8 c.rs), (0x200, leBytes (c.statusReg det) 8), (0x208, leBytes c.pts.toNat 4), (0x210, leBytes c.winReg 8),
   (0x218, leBytes c.spillBase 8), (0x220, leBytes c.batchCtr.toNat 4), (0x230, packLe 4 16 c.splitVal),
   (0x300, packLe 7 4 (fun k => (Cells.get c.pr k).toNat)), (0x320, packLe 8 4 (fun k => (c.tc.getD k 0).toNat)),
   (0x340, packLe 4 8 (fun k => match k with
      | 0 => trapVal Trap.cause | 1 => trapVal (fun t => t.lanes.toNat) | 2 => trapVal (·.aux) | _ => t.isSome.toNat)),
   (0x360, leBytes c.arrVal 8), (0xF00, packLe 32 4 (fun l => trapVal (fun t => t.lflag.getD l 0))),
   (0x1000, packLe 32 8 (fun l => trapVal (fun t => t.addr.getD l 0))), (0x1100, c.batchBytes)]
  ++ (List.range 4).map (fun e => (0x400 + 512 * e, (c.chipRecs e).flatMap Rec.bytes))
  ++ (if capped then [(0xC00, packLe 64 8 (fun k => if k = 63 then 0 else (Cells.get cap.sr k).toNat)),
        (0xE00, packLe 5 8 (fun k => match k with
          | 0 => cap.wb | 1 => cap.lo | 2 => cap.pc | 3 => cap.status.toNat | _ => cap.live.toNat))] else [])
  ++ (if regs then c.regArea else [])

/-- A well table entry (R323). -/
def Well.bytes (w : Well) : List Byte :=
  leBytes (w.cfg0.toNat + w.cfg1.toNat * 2 ^ 64 + w.head * 2 ^ 128 + w.tail * 2 ^ 136 + w.ents.length * 2 ^ 144
    + w.closed.toNat * 2 ^ 152) 24
  ++ packLe 32 1 (fun i => (w.ents.filter (fun e => e.1 == i)).length)

/-- A tile entry: control value, tile, and the top bit. -/
def tileEntry (tile : Nat) (tc : W32) (valid : Bool) : Nat := tc.toNat % 2 ^ 23 + tile % 32 * 2 ^ 23 + valid.toNat * 2 ^ 31

/-- The well table and the well tile entries; a discard image has none (R326). -/
def Gang.wellArea (g : Gang) (kind : Nat) : Area :=
  g.wells.map (fun w => (0x100 + 64 * w.1, w.2.bytes)) ++
  (if kind = 3 then [] else g.wells.filter (fun w => w.2.tiles)).flatMap (fun w =>
    ((List.range w.2.ents.length).zip w.2.ents).map (fun e =>
      (0x1000 + 4 * (64 * w.1 + (w.2.head + e.1) % w.2.depth), leBytes (tileEntry e.2.2.1 e.2.2.2 false) 4)))

/-- The pump area (R323). -/
def Pump.area (p : Pump) : Area :=
  [(0x580, packLe 8 8 (fun k => (p.a.getD k 0).toNat)), (0x5C0, packLe 32 8 (fun k => (p.strd.getD k 0).toNat)),
   (0x6C0, p.loops.flatMap (fun l => leBytes l.1 8 ++ leBytes l.2 8)), (0x700, leBytes p.pc 8),
   (0x708, leBytes (p.loops.length + p.halted.toNat * 8 + p.stopped.toNat * 16) 4),
   (0x70C, leBytes (match p.held with | some (t, tc) => tileEntry t tc true | none => 0) 4)]

/-- The areas of the gang itself. -/
def Gang.area (g : Gang) (kind : Nat) (binds : Tab (List (Option Nat))) : Area :=
  g.wellArea kind ++ [(0x500, packLe 5 16 (fun k => (g.bars.getD k { obj := 0, arrived := 0 }).obj.toNat))]
  ++ binds.map (fun b => (0x780 + 8 * b.1, b.2.flatMap (fun x => leBytes (match x with | some t => 128 + t | none => 0) 1)))
  ++ (if kind = 3 then [] else match g.pump with | some p => p.area | none => [])

/-- The scratchpad and the tiles, with their poison and failing check values, copied into an image. -/
def State.putStores (s : State) (g : Gang) (tiles scr : Nat) : State :=
  let m1 := g.scr.foldl (fun m e => Cells.set m (scr + e.1) e.2) s.mem
  let m2 := g.tiles.foldl (fun m t => t.2.foldl (fun m e => Cells.set m (tiles + 4096 * t.1 + e.1) e.2) m) m1
  let bad := g.scrPoison.map (· + scr / 32) ++ g.tilePoison.flatMap (fun t => (List.range 128).map (· + (tiles + 4096 * t) / 32))
  let chk := g.scrBadChk.foldl (fun t e =>
    Tab.set t (scr / 32 + e.1) (crc16 (Cells.bytes m2 (scr + 32 * e.1) 32) ^^^ e.2)) s.badChk
  { s with mem := m2, poison := bad ++ s.poison.filter (fun k => !bad.contains k), badChk := chk }

/-- An image written at a slot (R315 step 6, R320, R326). -/
def State.writeImage (s : State) (a gid kind : Nat) (h : HeldInfo) : State :=
  match s.gang gid with
  | none => s
  | some g =>
    let desc := s.gangDesc gid
    let det := s.gangDet gid
    let z := imgSizes kind desc
    let crews := s.gangCrews gid
    let live := crews.foldl (fun n c => if c.2.live = 0 then n else n + 2 ^ c.2.idx) 0
    if devSize < a + z.1 then s
    else
      let whole (k : Nat) : Bool := decide (a ≤ 32 * k) && decide (32 * k < a + z.1)
      let s0 := { s with mem := Cells.clear s.mem a (a + z.1), poison := s.poison.filter (fun k => !whole k),
                         badChk := s.badChk.filter (fun k => !whole k.1) }
      let s1 := s0.putArea a ((0, headerBytes g kind det desc live h) ::
        g.area kind (crews.map (fun c => (c.2.idx, c.2.bind))))
      let s2 := crews.foldl (fun s c => s.putArea (a + imgCrewOff kind desc c.2.idx) (c.2.section det (kind != 3))) s1
      let s3 := if kind = 3 then s2 else s2.putStores g (a + z.2.2) (a + z.2.1)
      if s3.prot.any (fun p => p.base.getLsbD 0) then
        (linesOf a z.1).foldl (fun s l => s.mirrorSectors l [0, 1, 2, 3] (s.home (lineDie l)).clock) s3
      else s3

/-! ## The stop and the drain (R315, R317, R318, R326) -/

/-- Whether a crew is in service on its management core. -/
def State.inService (s : State) (key : Nat) (c : Crew) : Bool := (s.mgmt (clusterOf c.core)).crew == some key

/-- Steps 2 to 5 for one crew: its narrow spans are published; true once nothing of it is outstanding. -/
def State.drainCrew (s : State) (key : Nat) : State × Bool :=
  match s.crew key with
  | none => (s, true)
  | some c =>
    if s.inService key c || c.splits.any (fun sp => sp.wait == .reply && sp.mask != 0) then (s, false)
    else
      let s1 := s.publishCrew key (fun _ => true)
      match s1.crew key with
      | some c1 => (s1, c1.acks.isEmpty)
      | none => (s1, true)

def State.drain (s : State) (gids : List Nat) : State × Bool :=
  (gids.flatMap (fun g => (s.gangCrews g).map Prod.fst)).foldl (fun acc k =>
    let r := acc.1.drainCrew k
    (r.1, acc.2 && r.2)) (s, true)

/-- What the header says of the fault or of the `hret` that holds a gang. -/
def State.heldInfo (s : State) (gid : Nat) (g : Gang) : HeldInfo :=
  match g.heldFault with
  | none => ⟨0, 0, 0, 0, 0, false⟩
  | some (idx, va, det) =>
    let fault (pc : Nat) : HeldInfo :=
      ⟨va, if det / dPump % 2 = 1 then (match g.pump with | some p => p.pc | none => 0) else pc, det, 1, idx, false⟩
    match s.crew (crewKey gid idx) with
    | none => fault 0
    | some c =>
      let e := ((List.range 4).find? (fun e => (c.split e).wait == .held)).getD 0
      match c.trap with
      | some t => if t.inService then ⟨0, (c.split t.entry).pc, t.detail, t.cls, idx, true⟩ else fault (c.split e).pc
      | none => fault (c.split e).pc

/-- The KIND of a gang's block (R299, R315, R317, R326): one that `hret` holds keeps its edited state, in a region too (R318). -/
def State.saveKind (s : State) (gid : Nat) (g : Gang) : Nat :=
  if g.inIdem && !(s.heldInfo gid g).hret then 3 else if g.heldFault.isSome then 2 else 1

/-- The DET buffer area of a gang as its save leaves it (R315 step 4): one place of 32 bytes for each entry, in a layout of the MZ-40's
own, where the area translates (R70, log entry 27). -/
def State.putDetbuf (s : State) (gid : Nat) (g : Gang) : State :=
  let n := 32 * g.sbuf.length
  let p := match s.gangCrews gid with | c :: _ => c.2.pts | [] => s.clockMax
  if n = 0 then s
  else match s.engRange (s.gangAsid gid) g.detBase n 1 g.lslot with
    | .ok s1 ps => (match s1.piecesWrite ps ((List.range n).map (Config.detByte s1.nextId)) p (s1.finder gid 0) with
      | .ok s2 _ _ _ => s2
      | .later s2 => s2)
    | .fail s1 | .held s1 _ | .later s1 => s1

/-- What a saved crew leaves outside its image. -/
def Crew.aside (c : Crew) : Crew :=
  let d := c.settleAll 0
  { d with vr := [], fix := [], pend := [], reqs := [], acks := [], fences := [], walks := [] }

/-- A gang written to a slot, its block made, its core resources freed (steps 6 and 7). A sweep that has not reached the gang raises
its image (R324). Each gang of a cluster has a block of its own, since a block names one image (log entry 28). -/
def State.saveTo (s : State) (gid a : Nat) : State :=
  match s.gang gid, s.gangLaunch gid with
  | some g, some l =>
    let kind := s.saveKind gid g
    let s0 := { s with crews := Tab.mapV s.crews (fun k c => if keyGid k = gid then c.settleAll s.now else c) }
    let s1 := (if kind = 3 then s0 else s0.putDetbuf gid g).writeImage a gid kind (s0.heldInfo gid g)
    let b : Blk :=
      { lslot := g.lslot, kind := kind, unit := false, prio := l.prio, gx := g.gx, gy := g.gy, save := some a, age := g.age,
        held := g.heldFault.isSome, place := 0, core := 0,
        cont := if g.cont then some (g.gx, g.gy, []) else none, gid := some gid,
        side := (s1.gangCrews gid).map (fun c => (c.2.idx, c.2.aside)),
        was := some { g with scr := [], tiles := [], scrPoison := [], tilePoison := [], scrBadChk := [], sbuf := [] },
        sbuf := if kind = 3 then [] else g.sbuf }
    let s2 := (s1.gangCrews gid).foldl (fun s c => s.leaveTrap c.1 c.2.core) s1
    { s2 with
      gangs := Tab.erase s2.gangs gid
      crews := s2.crews.filter (fun c => keyGid c.1 != gid)
      blocks := Tab.set s2.blocks s2.nextId b
      nextId := s2.nextId + 1
      sweep := match s2.sweep with | some (t, true, imgs) => some (t, true, imgs ++ [s2.nextId]) | w => w
      arrivals := if kind = 3 then s2.arrivals.filter (fun x => x.2 != gid) else s2.arrivals
      walkq := s2.walkq.filter (fun w => match w.who with
        | .split k _ => keyGid k != gid
        | .pump g => g != gid
        | .mgmt _ => true) }
  | _, _ => s

/-- The commands of a gang that is discarded are dropped (R42, R326). -/
def State.dropCmds (s : State) (gid : Nat) : State :=
  (s.cmds.filter (fun k => keyGid k.2.crew == gid)).foldl (fun s k => s.cmdEnd k.1 k.2) s

/-- A free slot for each gang, in order; none when one finds none. -/
def State.saveAll (s : State) : List Nat → Option State
  | [] => some s
  | g :: rest =>
    let kind := match s.gang g with | some v => s.saveKind g v | none => 0
    match s.freeSlot (s.gangPart g) (imgSizes kind (s.gangDesc g)).1 with
    | none => none
    | some a => ((if kind = 3 then s.dropCmds g else s).saveTo g a).saveAll rest

/-- The token of a gang held resident (R317): the G of its cluster's origin in a CLU launch. -/
def State.tokenOf (s : State) (gid : Nat) : Nat :=
  match s.gang gid, s.gangLaunch gid with
  | some g, some l =>
    let m := if l.clu && !g.cont then 2 else 1
    2 + g.lslot * 16 + ((g.gy / m * m) * s.gangRw gid + g.gx / m * m) % 2 ^ 32 * 2 ^ 16
  | _, _ => 0

/-- No slot is free (R316, R317): a gang with a long-service fault, or an `hret`, is held resident and announced by its token;
the gangs run on, and a pre-emption counts them. -/
def State.leaveRunning (s : State) (unit : List Nat) (part : Nat) : State :=
  let faulty := unit.find? (fun g => match s.gang g with | some v => v.heldFault.isSome | none => false)
  let s1 := unit.foldl (fun s g => s.updGang g (fun v => { v with stop := false })) s
  let s2 := unit.foldl (fun s g => s.preDrop g false true) s1
  match faulty with
  | some g => s2.announce part (s2.tokenOf g)
  | none => s2

/-- Whether a switch reduction of a gang that is discarded is still to complete. -/
def State.swrOpen (s : State) (gid : Nat) : Bool := s.cmds.any (fun k => keyGid k.2.crew == gid && k.2.op == 8)

/-- GANG_SAVE (R315, R317, R326): a gang, or a whole CLU cluster, with a save pending. -/
def execGangSave (gid : Nat) (s : State) : Host.Outcome State Fault Refusal :=
  .next (match s.gang gid with
    | none => s
    | some g =>
      if !g.stop then s
      else
        let unit := s.unitOf gid
        let r := s.drain unit
        if !r.2 || unit.any (fun g => (match s.gang g with | some v => s.saveKind g v == 3 | none => false) && s.swrOpen g) then r.1
        else
          let part := s.gangPart gid
          match r.1.saveAll unit with
          | none => r.1.leaveRunning unit part
          | some s1 =>
            let held := unit.filter (fun g => match s.gang g with | some v => v.heldFault.isSome | none => false)
            let count : State := unit.foldl (fun s g =>
              let q := s.part part
              if q.preGangs.contains g then
                s.setPart part { q with preGangs := q.preGangs.filter (· != g), prestat := q.prestat + 0x10000#64 }
              else s) s1
            let done := if unit.any (fun g => (s1.part part).preGangs.contains g) then count.preDone part else count
            held.foldl (fun t h => match s1.blocks.find? (fun b => b.2.gid == some h) with
              | some b => (match b.2.save with | some a => t.announce part a | none => t)
              | none => t) done)

end Sys2Proof.Machine
end

