-- ==== Sys2Proof/Machine/Restores.lean ====
section
/-! DEFINITION. Save images read: the checks of R325, restore (R319, R351) and restart (R42, R326). -/

namespace Sys2Proof.Machine

/-! ## Fields of an image -/

/-- Bits of the gang header. -/
def State.imgHdr (s : State) (a lo len : Nat) : Nat := fld (s.imgLe a 256) lo len
/-- Whether `n` bytes at an address are 0. -/
def State.imgZero (s : State) (a n : Nat) : Bool := !s.mem.any (fun e => decide (a ≤ e.1) && decide (e.1 < a + n))

/-- Whether the reserved fields of the header and the gang's areas are 0 (R320, R321, R323). -/
def State.gangAreaGood (s : State) (a kind n : Nat) : Bool :=
  [(1280, 768), (1024, 106), (805, 27), (128, 672), (60, 36), (48, 2)].all (fun f => s.imgHdr a f.1 f.2 == 0) &&
  s.imgZero (a + 0x550) 48 && s.imgZero (a + 0x880) 1920 && s.imgZero (a + 0x710) 112 && s.imgZero (a + 0x780 + 8 * n) (8 * (32 - n)) &&
  (List.range 5).all (fun k => (barOf (s.imgLe (a + 0x500 + 16 * k) 16)).resv == 0) &&
  (List.range 16).all (fun k => let o := a + 0x100 + 64 * k
    [(52, 12), (45, 1), (36, 2), (20, 12)].all (fun f => fld (s.imgLe o 8) f.1 f.2 == 0) && s.imgLe (o + 20) 4 == 0 && s.imgLe (o + 56) 8 == 0 && decide (s.imgLe (o + 19) 1 < 2)) &&
  (List.range 256).all (fun k => s.imgLe (a + 0x780 + k) 1 / 32 % 4 == 0) &&
  (List.range 1024).all (fun k => decide (s.imgLe (a + 0x1000 + 4 * k) 4 < 2 ^ 28)) &&
  (fld (s.imgLe (a + 0x708) 4) 5 27 == 0) && decide (fld (s.imgLe (a + 0x708) 4) 0 3 ≤ 4) && (fld (s.imgLe (a + 0x70C) 4) 28 3 == 0) &&
  (kind != 3 || (s.imgZero (a + 0x580) 512 && s.imgZero (a + 0x1000) 4096))

/-- Whether the reserved bytes and bits of a crew section are 0: of STATUS, WIN, tc, CAUSE, LANES, LFLAG and the batch table too (R90,
R112, R242, R243, R310, R322). -/
def State.sectionGood (s : State) (o : Nat) : Bool :=
  [(0x20C, 4), (0x224, 12), (0x270, 144), (0x31C, 4), (0x368, 152), (0xE28, 216), (0xF80, 128), (0x1500, 2816)].all
    (fun r => s.imgZero (o + r.1) r.2) &&
  (List.range 4).all (fun e =>
    decide (s.imgLe (o + 0x230 + 16 * e + 13) 1 < 2) && s.imgLe (o + 0x230 + 16 * e + 14) 2 == 0 &&
    decide (s.imgLe (o + 0x230 + 16 * e + 12) 1 ≤ 16) &&
    (List.range (s.imgLe (o + 0x230 + 16 * e + 12) 1)).all (fun d => s.imgLe (o + 0x400 + 512 * e + 32 * d + 20) 4 == 0)) &&
  [(24, 40), (10, 10), (5, 3)].all (fun f => fld (s.imgLe (o + 0x200) 8) f.1 f.2 == 0) &&
  decide (s.imgLe (o + 0x210) 8 < 2 ^ 41) &&
  (List.range 8).all (fun k => let t := s.imgLe (o + 0x320 + 4 * k) 4
    decide (t < 2 ^ 23) && fld t 13 3 == 0) &&
  decide (s.imgLe (o + 0x340) 8 < 2 ^ 18) && decide (s.imgLe (o + 0x348) 8 < 2 ^ 32) &&
  (List.range 32).all (fun l => decide (s.imgLe (o + 0xF00 + 4 * l) 4 < 2 ^ 16)) &&
  (List.range 256).all (fun m => fld (s.imgLe (o + 0x1100 + 4 * m) 4) 12 19 == 0) &&
  decide (s.imgLe (o + 0x358) 8 < 2) && decide (s.imgLe (o + 0x360) 8 < 32)

/-! ## Crews of an image -/

/-- A record of an image. -/
def State.imgRec (s : State) (a : Nat) : Rec :=
  { mask := BitVec.ofNat 32 (s.imgLe a 4), pend := BitVec.ofNat 32 (s.imgLe (a + 4) 4), pendPC := s.imgLe (a + 8) 8,
    park := BitVec.ofNat 32 (s.imgLe (a + 16) 4), parkPC := s.imgLe (a + 24) 8, parkE := none, parent := none,
    slot := none }

/-- Whether two records have the same contents. -/
def Rec.same (x y : Rec) : Bool :=
  x.mask == y.mask && x.pend == y.pend && x.pendPC == y.pendPC && x.park == y.park && x.parkPC == y.parkPC

/-- The records of split `e` from the outermost on: those in the spill area, then those of the image. -/
def State.imgStack (s : State) (o : Nat) (side : Crew) (e : Nat) : List Rec :=
  let old := side.stack side.recs.length (side.split e).top
  (old.drop 16).reverse.map side.rcd ++
    (List.range (s.imgLe (o + 0x230 + 16 * e + 12) 1)).map (fun d => s.imgRec (o + 0x400 + 512 * e + 32 * d))

/-- A stack put into a crew's records: a record that another split has at the same level, alike, is that one. -/
def Crew.putStack (side : Crew) : List Rec → Nat → Option Nat → Crew × List (Nat × Nat) → Crew × List (Nat × Nat) × Option Nat
  | [], _, top, acc => (acc.1, acc.2, top)
  | r :: rest, lvl, top, acc =>
    match acc.2.find? (fun x => x.1 == lvl && (acc.1.rcd x.2).same r) with
    | some x => Crew.putStack side rest (lvl + 1) (some x.2) acc
    | none =>
      let old := side.recs.find? (fun x => x.2.same r)
      let n := acc.1.newRec { r with parent := top, parkE := (match old with | some x => x.2.parkE | none => none),
                                     slot := (match old with | some x => x.2.slot | none => none) }
      Crew.putStack side rest (lvl + 1) (some n.2) (n.1, acc.2 ++ [(lvl, n.2)])

/-- The splits and records of a crew read from its section. -/
def State.imgSplits (s : State) (o : Nat) (side : Crew) : Crew :=
  let c0 := { side with splits := List.replicate 4 Split.free, recs := [] }
  ((List.range 4).foldl (fun (acc : Crew × List (Nat × Nat)) e =>
    let m : Mask := BitVec.ofNat 32 (s.imgLe (o + 0x230 + 16 * e + 8) 4)
    if m = 0 then acc
    else
      let r := Crew.putStack side (s.imgStack o side e) 0 none acc
      let sp := Split.free.run (s.imgLe (o + 0x230 + 16 * e) 8) m r.2.2
      (r.1.setSplit e (if s.imgLe (o + 0x230 + 16 * e + 13) 1 = 1 then { sp with wait := .join } else sp), r.2.1)) (c0, [])).1

/-- The logical registers of a section. -/
def State.imgRegs (s : State) (o lo b : Nat) : Cells 32 :=
  (List.range (32 * b)).foldl (fun m k => Cells.set m (32 * lo + k) (BitVec.ofNat 32 (s.imgLe (o + 0x2000 + 4 * k) 4))) []

/-- A crew's batches with the contents of the table. -/
def State.imgBatches (s : State) (o : Nat) (side : Crew) : List Batch :=
  side.batches.map (fun b =>
    let v := s.imgLe (o + 0x1100 + 4 * (b.num.toNat % 256)) 4
    if 2 ^ 31 ≤ v then { b with left := v % 256, status := BitVec.ofNat 4 (v / 256) } else b)

/-- The scalar registers at an address. -/
def State.imgScalars (s : State) (a : Nat) : Cells 64 :=
  (List.range 63).foldl (fun m k => Cells.set m k (BitVec.ofNat 64 (s.imgLe (a + 8 * k) 8))) []

/-- The capture of a section. -/
def State.imgCapture (s : State) (o : Nat) : Capture :=
  { sr := s.imgScalars (o + 0xC00), wb := s.imgLe (o + 0xE00) 8, lo := s.imgLe (o + 0xE08) 8, pc := s.imgLe (o + 0xE10) 8,
    status := BitVec.ofNat 64 (s.imgLe (o + 0xE18) 8), live := BitVec.ofNat 32 (s.imgLe (o + 0xE20) 8) }

/-- The tile names of crew `idx`. -/
def State.imgBind (s : State) (a idx : Nat) : List (Option Nat) :=
  (List.range 8).map (fun k => let v := s.imgLe (a + 0x780 + 8 * idx + k) 1; if 128 ≤ v then some (v % 32) else none)

/-- The queued trap of a section. -/
def State.imgTrap (s : State) (o : Nat) : Option Trap :=
  if s.imgLe (o + 0x358) 8 = 1 then
    let c := s.imgLe (o + 0x340) 8
    some { cls := fld c 0 4, entry := fld c 4 4, detail := fld c 8 10, lanes := BitVec.ofNat 32 (s.imgLe (o + 0x348) 8),
           addr := lanesOf (fun l => s.imgLe (o + 0x1000 + 8 * l) 8), lflag := lanesOf (fun l => s.imgLe (o + 0xF00 + 4 * l) 4),
           aux := s.imgLe (o + 0x350) 8, since := s.now, inService := false }
  else none

/-- What a crew is called on the core that it comes to: core, slot, pipe. -/
structure Seat where
  core : Nat
  slot : Nat
  pipe : Nat
  deriving DecidableEq, Repr

/-- A crew that first becomes resident in a seat, with the plan of its descriptor, as the ground of a restored one. -/
def seatCrew (side : Crew) (t : Seat) : Crew :=
  { side with core := t.core, slot := t.slot, pipe := t.pipe, fix := [], pend := [], reqs := [], acks := [], fences := [],
              walks := [], trap := none, tbusy := List.replicate 8 (0, 0) }

/-- A saved crew restored (R319, R322). -/
def State.imgCrew (s : State) (a o idx : Nat) (side : Crew) (t : Seat) : Crew :=
  let c := s.imgSplits o (seatCrew side t)
  let win := s.imgLe (o + 0x210) 8
  let lo := fld win 16 16
  let av := s.imgLe (o + 0x360) 8
  let all := c.splits.foldl (fun m sp => m ||| sp.mask) c.parked
  ({ c with
    vr := s.imgRegs o lo c.budget, wb := fld win 0 16, lo := lo, spillBase := s.imgLe (o + 0x218) 8, sr := s.imgScalars o
    pr := (List.range 7).foldl (fun m k => Cells.set m k (BitVec.ofNat 32 (s.imgLe (o + 0x300 + 4 * k) 4))) []
    bind := s.imgBind a idx
    tc := (List.range 8).map (fun k => BitVec.ofNat 32 (s.imgLe (o + 0x320 + 4 * k) 4))
    status := BitVec.ofNat 64 (s.imgLe (o + 0x200) 8), pts := BitVec.ofNat 32 (s.imgLe (o + 0x208) 4), live := all
    batchCtr := BitVec.ofNat 32 (s.imgLe (o + 0x220) 4), batches := s.imgBatches o side, trap := s.imgTrap o
    openPts := Ts.smax side.openPts (BitVec.ofNat 32 (s.imgLe (o + 0x208) 4))
    arr := if av % 2 = 1 then some (av / 4, av / 2 % 2 == 1) else none
    cap := if side.cap.isSome || (av % 2 == 1 && av / 4 == 4) then some (s.imgCapture o) else none } : Crew).tidy

/-- A discarded crew restarted from its capture (R42, R326). -/
def State.imgRestart (s : State) (o idx : Nat) (d : List Byte) (side : Crew) (t : Seat) : Crew :=
  let k := s.imgCapture o
  let b := s.imgBatches o side
  { seatCrew side t with
    vr := [], wb := k.wb, lo := k.lo, spillBase := s.imgLe (o + 0x218) 8, sr := k.sr, pr := []
    ntiles := ((crewPlan d).getD idx (0, 0, 0)).2.2, bind := firstBind (tileBase d idx) ((crewPlan d).getD idx (0, 0, 0)).2.2, tc := List.replicate 8 0, status := k.status ||| 0x200000
    pts := BitVec.ofNat 32 (s.imgLe (o + 0x208) 4), live := k.live
    splits := Split.start (k.pc + 8) k.live :: List.replicate 3 Split.free, recs := []
    batchCtr := BitVec.ofNat 32 (s.imgLe (o + 0x220) 4), openCmds := 0, detRun := none,
    openPts := BitVec.ofNat 32 (s.imgLe (o + 0x208) 4), batches := b.map (fun x => { x with left := 0 })
    pumpFault := none, arr := none, cap := some k, bad := [] }

/-! ## The gang of an image -/

/-- The producers of a well's entries: as they were, when the counts of the image agree, or else in ascending order of crew. -/
def producersOf (cnts : List Nat) (was : List Nat) : List Nat :=
  let same := (List.range 32).all (fun i => (was.filter (· == i)).length == cnts.getD i 0)
  if same then was else (List.range 32).flatMap (fun i => List.replicate (cnts.getD i 0) i)

/-- Well `k` of an image (R323); none where its entry is all zero. -/
def State.imgWell (s : State) (a k : Nat) (was : Option Well) : Option Well :=
  let o := a + 0x100 + 64 * k
  if s.imgZero o 64 then none
  else
    let w : Well := { cfg0 := BitVec.ofNat 64 (s.imgLe o 8), cfg1 := BitVec.ofNat 64 (s.imgLe (o + 8) 8), head := s.imgLe (o + 16) 1,
                      ents := [], closed := s.imgLe (o + 19) 1 % 2 == 1 }
    let old := match was with | some v => v.ents.map (·.1) | none => []
    let ps := producersOf ((List.range 32).map (fun i => s.imgLe (o + 24 + i) 1)) old
    some { w with ents := (List.range (s.imgLe (o + 18) 1)).map (fun i =>
      let p := ps.getD i pumpIdx
      if w.tiles then
        let v := s.imgLe (a + 0x1000 + 4 * (64 * k + (w.head + i) % w.depth)) 4
        (p, fld v 23 5, BitVec.ofNat 32 (v % 2 ^ 23))
      else (p, 0, 0)) }

/-- The pump of an image. -/
def State.imgPump (s : State) (a : Nat) (p : Ts) : Pump :=
  let st := s.imgLe (a + 0x708) 4
  let h := s.imgLe (a + 0x70C) 4
  { a := (List.range 8).map (fun k => BitVec.ofNat 64 (s.imgLe (a + 0x580 + 8 * k) 8))
    strd := (List.range 32).map (fun k => BitVec.ofNat 64 (s.imgLe (a + 0x5C0 + 8 * k) 8))
    loops := (List.range (fld st 0 3)).map (fun l => (s.imgLe (a + 0x6C0 + 16 * l) 8, s.imgLe (a + 0x6C8 + 16 * l) 8))
    pc := s.imgLe (a + 0x700) 8, halted := fld st 3 1 == 1, stopped := fld st 4 1 == 1
    held := if 2 ^ 31 ≤ h then some (fld h 23 5, BitVec.ofNat 32 (h % 2 ^ 23)) else none
    pts := p, wait := .none, word := none, tried := none, walks := [] }

/-- Cells of a range of memory, numbered from its start. -/
def State.imgCells (s : State) (a n : Nat) : Cells 8 :=
  s.mem.filterMap (fun e => if a ≤ e.1 ∧ e.1 < a + n then some (e.1 - a, e.2) else none)

/-- The poisoned sectors of a range, numbered from its start. -/
def State.imgPoison (s : State) (a n : Nat) : List Nat :=
  (List.range (n / 32)).filter (fun k => s.secPoison (a / 32 + k) || s.lost ((a / 32 + k) / 4))

/-- The crews that have arrived at implicit barrier `k` and whose phase has not completed (R200). -/
def arrivedBits (crews : List Crew) (k : Nat) (phase : Bool) : BitVec 32 :=
  crews.foldl (fun m c => match c.arr with
    | some (j, q) => if j = k && q = phase then m ||| (1#32 <<< c.idx) else m
    | none => m) 0

/-- The gang of an image, with its crews (R319 to R323), or its restart (R326). -/
def State.imgGang (s : State) (b : Blk) (a core : Nat) (d : List Byte) (crews : List Crew) : Gang :=
  let z := imgSizes b.kind d
  let n := descCrews d
  let fin : BitVec 32 := (List.range n).foldl (fun m i => if crews.any (fun c => c.idx == i) then m else m ||| (1#32 <<< i)) 0
  let was (k : Nat) : Option Well := match b.was with | some g => Tab.get g.wells k | none => none
  let wells : Tab Well := (List.range 16).filterMap (fun k => (s.imgWell a k (was k)).map (fun w => (k, w)))
  let idem := b.kind == 3
  let bar (k : Nat) : ImpBar :=
    let v := s.imgLe (a + 0x500 + 16 * k) 16
    if idem then { obj := BitVec.ofNat 128 { barOf v with left := crews.length, exp := crews.length : BarObj }.val, arrived := 0 }
    else { obj := BitVec.ofNat 128 v, arrived := arrivedBits crews k (barOf v).phase }
  let ps := s.imgPts b a
  let p0 : Ts := match b.was with
    | some g => (match g.pump with | some p => ps.foldl Ts.smax p.pts | none => ps.foldl Ts.smax (ps.getD 0 0))
    | none => ps.foldl Ts.smax (ps.getD 0 0)
  let old (i : Nat) : Cells 8 := if idem then [] else s.imgCells (a + z.2.2 + 4096 * i) 4096
  { lslot := b.lslot, gx := b.gx, gy := b.gy, rank := s.imgHdr a 58 2, n := n, core := core, cont := b.cont.isSome,
    scr := if idem then [] else s.imgCells (a + z.2.1) (descScr d), scrSz := descScr d,
    scrPoison := if idem then [] else s.imgPoison (a + z.2.1) (descScr d),
    scrBadChk := if idem then [] else s.badChk.filterMap (fun e =>
      if (a + z.2.1) / 32 ≤ e.1 ∧ e.1 < (a + z.1) / 32 then
        some (e.1 - (a + z.2.1) / 32, crc16 (Cells.bytes s.mem (32 * e.1) 32) ^^^ e.2) else none),
    ntiles := descTiles d, tiles := (List.range (descTiles d)).map (fun i => (i, old i)),
    tilePoison := if idem then [] else (List.range (descTiles d)).filter (fun i => !(s.imgPoison (a + z.2.2 + 4096 * i) 4096).isEmpty),
    wells := if idem then Tab.mapV wells (fun _ w => { w with ents := [], closed := w.closed && (w.producers &&& ~~~fin) == 0 }) else wells,
    bars := (List.range 5).map bar, inIdem := idem || (match b.was with | some g => g.inIdem | none => false), sbuf := if idem then [] else b.sbuf, detBase := s.imgHdr a 960 64,
    detSz := if s.imgHdr a 55 1 = 1 then descDetbuf d else 0,
    pump := if s.imgHdr a 56 1 = 1 then some (s.imgPump a p0) else none, finished := fin, stop := false, heldFault := none,
    issued := true, age := b.age }

/-! ## The checks of R325 -/

/-- Whether every tile that an image names exists. -/
def State.imgTiles (s : State) (a kind n t : Nat) : Bool :=
  (List.range n).all (fun i => (s.imgBind a i).all (fun x => match x with | some v => decide (v < t) | none => true)) &&
  (kind == 3 || ((List.range 16).all (fun k => match s.imgWell a k none with
    | some w => !w.tiles || w.ents.all (fun e => decide (e.2.1 < t))
    | none => true)
    && (let h := s.imgLe (a + 0x70C) 4; decide (h < 2 ^ 31) || decide (fld h 23 5 < t))))

/-- Whether an image could be read: no lost line, and no poisoned sector outside its data areas. -/
def State.imgReadable (s : State) (a n : Nat) : Bool := (s.imgPoison a n).isEmpty

/-- The crews of an image, seated. -/
def State.imgCrews (s : State) (b : Blk) (a : Nat) (d : List Byte) (seats : List Seat) (idxs : List Nat) : List Crew :=
  (idxs.zip seats).filterMap (fun p =>
    let o := a + imgCrewOff b.kind d p.1
    (Tab.get b.side p.1).map (fun side => if b.kind = 3 then s.imgRestart o p.1 d side p.2 else s.imgCrew a o p.1 side p.2))

/-- The crews that an image brings back: the live ones, or after a discard those with a capture. -/
def State.imgLive (s : State) (b : Blk) (a : Nat) (d : List Byte) : List Nat :=
  (List.range (descCrews d)).filter (fun i =>
    (Tab.get b.side i).isSome &&
    (if b.kind = 3 then s.imgLe (a + imgCrewOff 3 d i + 0xE20) 4 != 0 else s.imgHdr a (96 + i) 1 == 1))

/-- R325. -/
def State.imgGood (s : State) (b : Blk) (a : Nat) (d : List Byte) : Bool :=
  let z := imgSizes b.kind d
  let n := descCrews d
  let crews := s.imgCrews b a d ((List.range n).map (fun i => { core := 0, slot := i, pipe := 0 })) (s.imgLive b a d)
  s.imgReadable a (imgCrewOff b.kind d n) && s.gangAreaGood a b.kind n &&
  (List.range n).all (fun i => s.sectionGood (a + imgCrewOff b.kind d i)) &&
  s.imgHdr a 0 12 == b.lslot && s.imgHdr a 12 4 == b.kind && s.imgHdr a 50 5 + 1 == n && s.imgHdr a 800 5 == descTiles d &&
  s.imgHdr a 832 32 == descScr d && s.imgHdr a 864 32 == z.2.2 && s.imgHdr a 896 32 == z.2.1 && s.imgHdr a 928 32 == z.1 &&
  crews.all Crew.windowGood && s.imgTiles a b.kind n (descTiles d)

/-! ## Restore -/

/-- No span of a core's L1 survives a restore (R38): clean bytes are dropped. -/
def State.clearL1 (s : State) (core : Nat) : State :=
  let u := Agent.core core
  (s.spans u).foldl (fun s e => match s.span u e.1 with
    | some v => if v.dirty.isEmpty && v.pending.isNone && v.hold = 0 then s.dropSpan u e.1
        else s.setSpan u e.1 { v with first := 0, cnt := 0, poison := [] }
    | none => s) s

/-- A rejected image (R325): the launch is killed, and the package controller writes a record. -/
def State.rejectImage (s : State) (b : Blk) (a : Nat) : State :=
  let l := s.launch b.lslot
  let asid := match l with | some v => v.asid | none => 0
  let part := match l with | some v => v.part | none => 0
  (s.errRecord a 0 1 0 3 0 b.lslot asid part 0 7).killLaunch b.lslot 16

/-- The core of a saved gang: the core itself, or its own place in the cluster. -/
def State.restoreCore (s : State) (b : Blk) (core : Nat) : Nat :=
  if s.needsCluster b then (clusterCores (clusterOf core)).getD (2 * (b.gy % 2) + b.gx % 2) core else core

/-- One gang restored or restarted on a core (R319). -/
def State.restoreGang (s : State) (id : Nat) (b : Blk) (core : Nat) : State :=
  match b.save, b.gid, s.launch b.lslot with
  | some a, some gid, some l =>
    let d := s.blkDesc b
    let live := s.imgLive b a d
    let budgets := live.map (fun i => ((crewPlan d).getD i (0, 0, 0)).2.1)
    match placePipes (s.pipeUse core) budgets with
    | none => s
    | some pipes =>
      let slots := s.freeSlots core
      let seats := (List.range live.length).map (fun i => { core := core, slot := slots.getD i 0, pipe := pipes.getD i 0 : Seat })
      let crews := s.imgCrews b a d seats live
      let g := s.imgGang b a core d crews
      let s1 := ((s.clearL1 core).coreServes core l.part b.lslot).setGang gid g
      let s2 := crews.foldl (fun (s : State) (c : Crew) =>
        let s1 := (s.setCrew (crewKey gid c.idx) c).updCore core (fun k => { k with crf := Ts.smax k.crf c.pts })
        if c.trap.isSome then s1.updCluster (clusterOf core) (fun k => { k with trapq := k.trapq ++ [crewKey gid c.idx] }) else s1) s1
      { s2 with blocks := Tab.erase s2.blocks id }
  | _, _, _ => s

/-- A block and those that start with it brought back: images that a sweep has not reached are raised first (R358), every image is
checked, then each gang is restored. -/
def State.restoreUnit (s : State) (id : Nat) (b : Blk) (core : Nat) : State :=
  let unit := (s.unitBlocks id b).map Prod.fst
  let s1 := unit.foldl (fun s i => s.sweepBlock i) s
  let bad := unit.findSome? (fun i => match Tab.get s1.blocks i with
    | some x => (match x.save with
      | some a => if s1.imgGood x a (s1.blkDesc x) then none else some (x, a)
      | none => none)
    | none => none)
  match bad with
  | some x => s1.rejectImage x.1 x.2
  | none => unit.foldl (fun s i => match Tab.get s.blocks i with
    | some x => s.restoreGang i x (s.restoreCore x core)
    | none => s) s1

/-- The next block of a core's local queue (R300). -/
def State.nextLocal (s : State) (core : Nat) : Option (Nat × Blk) :=
  bestBlk ((s.localQueue core).filter (fun b => s.eligible b.1 b.2))

/-- GANG_START: the core's next block starts; a discarded one restarts (R42, R326). -/
def execGangStart (core : Nat) (s : State) : Host.Outcome State Fault Refusal :=
  .next (match s.nextLocal core with
    | none => s
    | some (id, b) =>
      if !s.canStart id b core then s
      else if b.kind = 0 then s.startBlock id b core
      else if b.kind = 3 then s.restoreUnit id b core
      else s)

/-- GANG_RESTORE: the core's next block is a saved one (R319). -/
def execGangRestore (blk core : Nat) (s : State) : Host.Outcome State Fault Refusal :=
  .next (match s.nextLocal core with
    | none => s
    | some (id, b) =>
      if id = blk && (b.kind = 1 || b.kind = 2) && s.canStart id b core then s.restoreUnit id b core else s)

end Sys2Proof.Machine
end

