-- ==== Sys2Proof/Machine/Preempt.lean ====
section
/-! DEFINITION. The partition control block's writes and reads (R314 to R318), and the engine request list (R339, R340). -/

namespace Sys2Proof.Machine

/-- The partition of a launch-table entry. -/
def State.launchPart (s : State) (lslot : Nat) : Option Nat := (s.launch lslot).map (·.part)

/-- The launches that a PRECTL or RESUME value names. -/
def State.named (s : State) (part : Nat) (v : W64) : List Nat :=
  (Tab.keys s.launches).filter (fun k => s.launchPart k == some part && (v.getLsbD 12 || k == fld v.toNat 0 12))

/-- Whether a gang is held resident (R317): it has its fault and no save pending. -/
def Gang.residentHold (g : Gang) : Bool := g.heldFault.isSome && !g.stop

/-- Whether the unit of a gang is held resident. -/
def State.unitHeld (s : State) (gid : Nat) : Bool :=
  (s.unitOf gid).any (fun m => match s.gang m with | some g => g.residentHold | none => false)

/-- PRECTL (R314 to R316): gangs held resident stay so, and count as left running (log entry 30). -/
def State.prectl (s : State) (part : Nat) (v : W64) : State :=
  let q := s.part part
  if q.prestat.getLsbD 0 then s
  else
    let ls := s.named part v
    let gs := (s.gangs.filter (fun g => ls.contains g.2.lslot)).map Prod.fst
    let stay := gs.filter (fun g => s.unitHeld g)
    let go := gs.filter (fun g => !s.unitHeld g)
    let s1 := if v.getLsbD 13 then ls.foldl (fun s k => s.updLaunch k (fun l => { l with hold := true })) s else s
    let s2 := go.foldl (fun s g => s.updGang g (fun x => { x with stop := true })) s1
    let st : W64 := if stay.isEmpty then 1 else 5 + BitVec.ofNat 64 (stay.length * 2 ^ 32)
    (s2.setPart part { s2.part part with prestat := st, preGangs := go }).preDone part

/-- A PRECTL write. -/
def execPrectl (part : Nat) (v : W64) (s : State) : Host.Outcome State Fault Refusal :=
  .next (if part < 64 && !s.fw.recovery then s.prectl part v else s)

/-- A RESUME write. -/
def execResume (part : Nat) (v : W64) (s : State) : Host.Outcome State Fault Refusal :=
  .next (if s.fw.recovery then s else (s.named part v).foldl (fun s k => s.updLaunch k (fun l => { l with hold := false })) s)

/-- A read of FLTNEXT; 0 in recovery (R384). -/
def execFltnextRead (part : Nat) (s : State) : Host.Outcome State Fault Refusal :=
  .next (if 64 ≤ part then s
  else if s.fw.recovery then { s with rdata := 0 }
  else match (s.part part).announce with
    | [] => { s with rdata := 0 }
    | v :: rest => { s.updPart part (fun q => { q with announce := rest }) with rdata := BitVec.ofNat 64 v })

/-- The crews of a gang held resident go on: a word that met the held page is reissued, a crew that an `hret` held continues from
its window state, which must be as R252 says. -/
def State.releaseHeld (s : State) (gid : Nat) : State :=
  let free (key : Nat) (c : Crew) : Crew :=
    if c.trap.isSome then
      (match c.trap with
      | some t => if t.inService && !s.inService key c then { c.reissue.tidy with trap := none } else c
      | none => c)
    else { c with walks := [], splits := c.splits.map (fun sp => if sp.wait = .held then { sp with wait := .none, word := none } else sp) }
  let s1 := { s with crews := Tab.mapV s.crews (fun k c => if keyGid k = gid then free k c else c) }
  s1.updGang gid (fun g => { g with heldFault := none, pump := g.pump.map (fun p => { p with walks := [] }) })

/-- A crew held by an `hret` whose window R252 does not accept. -/
def State.badWindow (s : State) (gid : Nat) : Option Nat :=
  (s.gangCrews gid).findSome? (fun c => match c.2.trap with
    | some t => if t.inService && !s.inService c.1 c.2 && !c.2.reissue.windowGood then some t.cls else none
    | none => none)

/-- FLTDONE with a resident-hold token. -/
def State.fltdoneToken (s : State) (part v : Nat) (kill : Bool) : State :=
  match s.gangs.find? (fun g => g.2.residentHold && s.gangPart g.1 == part && s.tokenOf g.1 == v) with
  | none => s
  | some (gid, g) =>
    let s1 := s.updPart part (fun q => { q with announce := q.announce.filter (· != v) })
    if kill then s1.killLaunch g.lslot (s1.heldInfo gid g).fcls
    else
      let unit := s1.unitOf gid
      match unit.findSome? (fun m => s1.badWindow m) with
      | some cls =>
        (s1.errRecord 0 0 1 (cls + 16) 3 0 g.lslot (s1.gangAsid gid) part cls 6).killLaunch g.lslot (cls + 16)
      | none => unit.foldl (fun s m => s.releaseHeld m) s1

/-- FLTDONE with a SAVE address: the header's FCLS is the class of a kill. -/
def State.fltdoneBlock (s : State) (part v : Nat) (kill : Bool) : State :=
  match s.blocks.find? (fun b => b.2.held && b.2.save == some v && s.launchPart b.2.lslot == some part) with
  | none => s
  | some (id, b) =>
    let s1 := s.updPart part (fun q => { q with announce := q.announce.filter (· != v) })
    if kill then s1.killLaunch b.lslot (s1.imgHdr v 1136 4)
    else { s1 with blocks := Tab.set s1.blocks id { b with held := false } }

def State.fltdone (s : State) (part : Nat) (v : W64) : State :=
  let x := v.toNat / 2 * 2
  if v.getLsbD 1 then s.fltdoneToken part x (v.getLsbD 0) else s.fltdoneBlock part x (v.getLsbD 0)

/-- A FLTDONE write. -/
def execFltdone (part : Nat) (v : W64) (s : State) : Host.Outcome State Fault Refusal :=
  .next (if 64 ≤ part || s.fw.recovery then s else s.fltdone part v)

/-! ## Held pages of engines (R339, R340) -/

/-- The value that ENGREQ gives for a page. -/
def engValue (page : Nat × Nat) : Nat := page.1 % 256 + page.2 % 2 ^ 41 * 256 + 2 ^ 63

/-- A read of ENGREQ. -/
def execEngreqRead (part : Nat) (s : State) : Host.Outcome State Fault Refusal :=
  .next (if 64 ≤ part then s
  else if s.fw.recovery then { s with rdata := 0 }
  else match (s.part part).engreq with
    | [] => { s with rdata := 0 }
    | p :: rest =>
      { s.updPart part (fun q => { q with engreq := rest, engAnnounced := q.engAnnounced ++ [p] }) with
        rdata := BitVec.ofNat 64 (engValue p) })

/-- An ENGDONE write: what waits on the page walks again; a cistern's release goes on by itself, everything else with its own
event. -/
def State.engdone (s : State) (part : Nat) (v : W64) : State :=
  let hit (p : Nat × Nat) : Bool := engValue p == v.toNat
  let mine (w : EngWait) : Bool := hit (w.asid, w.page) && s.asidPart w.asid == part && w.what != 4
  if !s.engWaits.any mine then s
  else
    let cmb := s.engWaits.filter (fun w => mine w && w.what == 1)
    let s1 := s.updPart part (fun q => { q with engAnnounced := q.engAnnounced.filter (fun p => !hit p) })
    let s2 := { s1 with engWaits := s1.engWaits.filter (fun w => !mine w) }
    cmb.foldl (fun s w => s.cmbRelease w.id (s.cmbSlots.length + 1)) s2

/-- ENGDONE. -/
def execEngdone (part : Nat) (v : W64) (s : State) : Host.Outcome State Fault Refusal :=
  .next (if 64 ≤ part || s.fw.recovery then s else s.engdone part v)

end Sys2Proof.Machine
end

