-- ==== Sys2Proof/Machine/Driver.lean ====
section
/-! DEFINITION. The registers of the BAR space and of the service capability (R4, R291, R308, R314, R329, R340, R345, R366, R374,
R380, R381, R386, R387): their writes and their reads; TLB invalidations (R330); the mirror's first copy (R366). -/

namespace Sys2Proof.Machine

/-! ## Writes on the bus -/

/-- A write of `n` bytes inside one 8-byte word of the register space: the word, the first byte written, the value. -/
structure BusW where
  word : Nat
  sh : Nat
  n : Nat
  v : Nat
  deriving DecidableEq, Repr

/-- The whole register after the write: the bytes that it does not carry stay (log entry 31). -/
def BusW.over (w : BusW) (old : W64) : W64 := BitVec.ofNat 64 (setFld old.toNat (8 * w.sh) (8 * w.n) w.v)

/-- The value written, with the bytes that the write does not carry 0: for registers on which a write acts (log entry 31). -/
def BusW.alone (w : BusW) : W64 := BitVec.ofNat 64 (fld w.v 0 (8 * w.n) * 2 ^ (8 * w.sh))

/-- The bytes written, each with its offset in the word. -/
def BusW.bytes (w : BusW) : List (Nat × Byte) :=
  (List.range w.n).map (fun i => (w.sh + i, BitVec.ofNat 8 (w.v / 256 ^ i)))

/-- A field of bits `lo` to `hi`. -/
def bitsOf (hi lo : Nat) : W64 := BitVec.ofNat 64 (2 ^ (hi + 1) - 2 ^ lo)

/-! ## Launch queues (R291) -/

/-- Whether a QCFG value with EN = 1 names a ring of legal size and an address space of its partition (R291, R329). -/
def State.qcfgGood (s : State) (v : W64) : Bool :=
  let k := fld v.toNat 25 5
  let a := s.asid (fld v.toNat 8 8)
  decide (4 ≤ k) && decide (k ≤ 16) && a.root.getLsbD 0 && fld a.cfg.toNat 0 6 == fld v.toNat 16 6

def State.queueWrite (s : State) (q : Nat) (w : BusW) : State :=
  let r := s.queue q
  match w.word with
  | 0 => if r.en then s else s.setQueue q { r with qbase := w.over r.qbase &&& bitsOf 56 12 }
  | 8 =>
    let v := w.over r.qcfg &&& bitsOf 31 0
    if v.getLsbD 31 && (r.en || !s.qcfgGood v) then s else s.setQueue q { r with qcfg := v }
  | 16 => if w.sh = 4 && w.n = 4 then s.doorbell q (BitVec.ofNat 32 w.v) else s
  | _ => s.setQueue q { r with qstat := r.qstat &&& ~~~(w.alone &&& 3) }

/-! ## Trap blocks (R308) -/

def State.trapWrite (s : State) (a : Nat) (w : BusW) : State :=
  let r := s.trapRegs a
  let put (v : TrapRegs) : State := { s with traps := Tab.set s.traps a v }
  match w.word with
  | 0 => put { r with hbase := w.over r.hbase &&& bitsOf 56 12 }
  | _ => put { r with hen := w.over r.hen &&& bitsOf 13 0 }

/-! ## Address spaces (R329, R330) -/

/-- ASINV: served in write order (R330). At most 16 are outstanding; the writes behind the first 16 of the list are held on the
bus, and each is taken when one completes. -/
def State.asinv (s : State) (a : Nat) (v : W64) : State :=
  let r := s.asid a
  s.setAsid a { r with pend := r.pend ++ [v &&& bitsOf 58 16] }

def State.asidWrite (s : State) (a : Nat) (w : BusW) : State :=
  let r := s.asid a
  let en := r.root.getLsbD 0
  match w.word with
  | 0 =>
    let v := w.over r.root &&& (bitsOf 51 12 ||| 1)
    if en && v.getLsbD 0 then s else s.setAsid a { r with root := v }
  | 8 => if en then s else s.setAsid a { r with cfg := w.over r.cfg &&& bitsOf 5 0 }
  | 16 => s.asinv a w.alone
  | _ => s

/-- ASINV. -/
def execAsinv (asid : Nat) (v : W64) (s : State) : Host.Outcome State Fault Refusal :=
  .next (if asid < 256 && !s.fw.recovery then s.asinv asid v else s)

/-- The virtual range that an invalidation names: first byte and size (R329). -/
def invRange (v : W64) : Nat × Nat :=
  let va := fld v.toNat 16 41 * 65536
  match fld v.toNat 57 2 with
  | 0 => (va, 2 ^ 16)
  | 1 => (va / 2 ^ 21 * 2 ^ 21, 2 ^ 21)
  | 2 => (va / 2 ^ 30 * 2 ^ 30, 2 ^ 30)
  | _ => (0, 2 ^ 57)

def TlbEntry.overlaps (t : TlbEntry) (asid : Nat) (r : Nat × Nat) : Bool :=
  t.asid == asid && decide (t.va < r.1 + r.2) && decide (r.1 < t.va + pageSize t.lvl)

/-- The physical pages of the TLB entries that an invalidation removes. -/
def State.invPages (s : State) (asid : Nat) (r : Nat × Nat) : List (Nat × Nat) :=
  let pages (l : List TlbEntry) : List (Nat × Nat) := (l.filter (·.overlaps asid r)).map (fun t => (t.pa, pageSize t.lvl))
  s.cores.flatMap (fun k => pages k.2.tlb) ++ s.clusters.flatMap (fun k => pages k.2.tlb)

def inPages (ps : List (Nat × Nat)) (pa : Nat) : Bool := ps.any (fun p => decide (p.1 ≤ pa) && decide (pa < p.1 + p.2))

/-- The crews of an address space. -/
def State.asidCrews (s : State) (asid : Nat) : List (Nat × Crew) := s.crews.filter (fun c => s.gangAsid (keyGid c.1) == asid)

/-- Whether some access through a page is not yet performed: a request on its way or unacknowledged, dirty bytes that are not
published, a buffered DET store (log entry 32). -/
def State.accessLeft (s : State) (asid : Nat) (ps : List (Nat × Nat)) : Bool :=
  let hit (line : Nat) : Bool := inPages ps (line * 128)
  (s.asidCrews asid).any (fun c => c.2.acks.any (fun a => hit a.line)) ||
  s.net.any (fun p => hit p.2.line && (match p.2.kind with
    | .write | .wb | .atom _ _ _ _ => true
    | _ => false)) ||
  (s.asidCrews asid).any (fun c => (crewUnits c.2.core).any (fun u => (s.spans u).any (fun e => hit e.1 &&
    e.2.dirty.any (fun d => d.crew == c.1)))) ||
  s.gangs.any (fun g => s.gangAsid g.1 == asid && g.2.sbuf.any (fun b => b.space == 0 && inPages ps b.addr)) ||
  s.blocks.any (fun b => b.2.sbuf.any (fun e => e.space == 0 && inPages ps e.addr))

/-- The dirty bytes of an address space's crews in some pages published. -/
def State.publishPages (s : State) (asid : Nat) (ps : List (Nat × Nat)) : State :=
  (s.asidCrews asid).foldl (fun s c => (crewUnits c.2.core).foldl (fun s u => (Tab.keys (s.spans u)).foldl (fun s line =>
    if inPages ps (line * 128) then s.publishLine u line (fun d => d.crew == c.1) else s) s) s) s

/-- Failed walks of a range are forgotten. -/
def dropWalks (r : Nat × Nat) (l : List WalkFail) : List WalkFail :=
  l.filter (fun w => !(decide (r.1 ≤ w.va * 65536) && decide (w.va * 65536 < r.1 + r.2)))

/-- A split that waits at an object in a page runs its word again. -/
def Split.unbar (sp : Split) (ps : List (Nat × Nat)) : Split :=
  match sp.wait with
  | .bar (.dev o) _ | .arrive (.dev o) => if inPages ps o then { sp with wait := .none, word := none } else sp
  | _ => sp

/-- The translations of an address space in a range forgotten: TLB entries, walks under way, failed walks. -/
def State.forget (s : State) (asid : Nat) (r : Nat × Nat) (ps : List (Nat × Nat)) : State :=
  let gone (l : List TlbEntry) : List TlbEntry := l.filter (fun t => !t.overlaps asid r)
  { s with
    cores := Tab.mapV s.cores (fun _ k => { k with tlb := gone k.tlb })
    clusters := Tab.mapV s.clusters (fun n k =>
      let mc : Mgmt := if s.mgmtAsid n = asid then { k.mc with walks := dropWalks r k.mc.walks } else k.mc
      { k with tlb := gone k.tlb, miss := k.miss.filter (fun m => m.1 != asid), mc := mc })
    walkq := s.walkq.filter (fun w => w.asid != asid)
    crews := Tab.mapV s.crews (fun key c => if s.gangAsid (keyGid key) = asid then
        { c with walks := dropWalks r c.walks, splits := c.splits.map (fun (sp : Split) => sp.unbar ps) } else c)
    gangs := Tab.mapV s.gangs (fun gid g => if s.gangAsid gid = asid then
        { g with pump := g.pump.map (fun (p : Pump) => { p with walks := dropWalks r p.walks }) } else g) }

/-- ASINV_COMPLETE (R330): the oldest invalidation of the address space, once every access through its entries is performed. -/
def execAsinvComplete (asid : Nat) (s : State) : Host.Outcome State Fault Refusal :=
  let r := s.asid asid
  .next (match r.pend with
    | [] => s
    | v :: rest =>
      let rg := invRange v
      let ps := s.invPages asid rg
      let s1 := s.publishPages asid ps
      if s1.accessLeft asid ps then s1
      else (s1.forget asid rg ps).setAsid asid { r with pend := rest, seq := r.seq + 1 })

/-! ## Partitions (R303, R314, R340) -/

def State.ctlWrite (s : State) (p : Nat) (w : BusW) : State :=
  let q := s.part p
  match w.word with
  | 0x00 => s.prectl p w.alone
  | 0x10 => (s.named p w.alone).foldl (fun s k => s.updLaunch k (fun l => { l with hold := false })) s
  | 0x20 => s.fltdone p w.alone
  | 0x28 => s.setPart p { q with svbase := w.over q.svbase &&& bitsOf 51 16 }
  | 0x30 => s.setPart p { q with svcfg := w.over q.svcfg &&& bitsOf 39 0 }
  | _ => s

/-- MEAS3 extended by the SHA-256 of a record (R386). -/
def State.measure (s : State) (i : Nat) (x : MeasItem) : State :=
  { s with fw := { s.fw with meas := s.fw.meas.set i (s.fw.meas.getD i [] ++ [x]) } }

/-- A PTCFG write (R340). -/
def State.ptcfg (s : State) (p : Nat) (v : W64) : State :=
  let q := s.part p
  let x := v &&& (bitsOf 30 8 ||| 3)
  let carve := ((List.range 64).filter (· != p)).foldl (fun n k => n + fld (s.part k).ptcfg.toNat 24 7) (fld x.toNat 24 7)
  if (x.getLsbD 0 && fld x.toNat 8 16 == 0) || decide (64 < carve) then s.setPart p { q with ptstat := 1 }
  else
    let s1 := s.setPart p { q with ptcfg := x }
    if q.ptcfg.getLsbD 0 || x.getLsbD 0 then s1.measure 3 (.hash (leBytes x.toNat 8)) else s1

/-- A write to the quota record: bytes 0 to 3 are reserved (R303). -/
def State.quotaPut (s : State) (p : Nat) (bs : List (Nat × Byte)) : State :=
  let q := s.part p
  let v := bs.foldl (fun v b => if 4 ≤ b.1 ∧ b.1 < 32 then setFld v (8 * b.1) 8 b.2.toNat else v) q.quota.toNat
  let s1 := s.setPart p { q with quota := BitVec.ofNat 256 v }
  if q.ptcfg.getLsbD 0 then s1.measure 3 (.hash (leBytes v 32)) else s1

def State.partWrite (s : State) (p : Nat) (w : BusW) : State :=
  let q := s.part p
  match w.word with
  | 0x00 => s.ptcfg p (w.over q.ptcfg)
  | 0x08 => s.setPart p { q with ptstat := q.ptstat &&& ~~~(w.alone &&& 1) }
  | 0x10 => s
  | 0x18 => s.engdone p w.alone
  | r => s.quotaPut p (w.bytes.map (fun b => (r - 0x20 + b.1, b.2)))

/-- PTCFG_WRITE. -/
def execPtcfgWrite (part : Nat) (v : W64) (s : State) : Host.Outcome State Fault Refusal :=
  .next (if part < 64 && !s.fw.recovery then s.ptcfg part v else s)

/-- QUOTA_WRITE: `size` bytes at byte `off` of the record. -/
def execQuotaWrite (part off size : Nat) (v : W64) (s : State) : Host.Outcome State Fault Refusal :=
  .next (if part < 64 && off + size ≤ 32 && size ≤ 8 && !s.fw.recovery then
    s.quotaPut part ((List.range size).map (fun i => (off + i, BitVec.ofNat 8 (v.toNat / 256 ^ i)))) else s)

/-! ## Protected ranges (R366, R367) -/

def ProtRegs.en (p : ProtRegs) : Bool := p.base.getLsbD 0
def ProtRegs.lo (p : ProtRegs) : Nat := fld p.base.toNat 30 10
def ProtRegs.gib (p : ProtRegs) : Nat := fld p.size.toNat 0 10
def ProtRegs.mlo (p : ProtRegs) : Nat := fld p.mir.toNat 30 10

/-- Whether two ranges of `n` and `m` GiB overlap. -/
def overlap (a n b m : Nat) : Bool := decide (a < b + m) && decide (b < a + n)

/-- Whether a block could be enabled beside the others (log entry 33: sizes and places that R366 does not name). -/
def State.protFits (s : State) (k : Nat) (p : ProtRegs) : Bool :=
  let n := p.gib
  decide (1 ≤ n) && decide (n ≤ 288) && decide (p.lo + n ≤ 576) && decide (p.mlo + n ≤ 576) && !overlap p.lo n p.mlo n &&
  ((List.range 8).filter (· != k)).all (fun j => match s.prot[j]? with
    | some q => !q.en || !(overlap p.lo n q.lo q.gib || overlap p.lo n q.mlo q.gib || overlap p.mlo n q.lo q.gib ||
        overlap p.mlo n q.mlo q.gib)
    | none => true)

def State.setProt (s : State) (k : Nat) (p : ProtRegs) : State := { s with prot := s.prot.set k p }
def State.protReg (s : State) (k : Nat) : ProtRegs := s.prot.getD k { base := 0, size := 0, mir := 0 }

/-- A PRBASE write; RDY is 0 until the copy is made. -/
def State.prbase (s : State) (k : Nat) (v : W64) : State :=
  let p := s.protReg k
  let x := v &&& (bitsOf 39 30 ||| 1)
  let p1 := { p with base := x }
  if x.getLsbD 0 then (if p.en || !s.protFits k p1 then s else s.setProt k p1) else s.setProt k p1

def State.protWrite (s : State) (k : Nat) (w : BusW) : State :=
  let p := s.protReg k
  match w.word with
  | 0 => s.prbase k (w.over p.base)
  | 8 => if p.en then s else s.setProt k { p with size := w.over p.size &&& bitsOf 9 0 }
  | 16 => if p.en then s else s.setProt k { p with mir := w.over p.mir &&& bitsOf 39 30 }
  | _ => s

/-- PROT_ENABLE: a write of PRBASE. -/
def execProtEnable (k : Nat) (v : W64) (s : State) : Host.Outcome State Fault Refusal :=
  .next (if k < 8 && !s.fw.recovery then s.prbase k v else s)

/-- A slice's timestamps of the sectors of a range at their mirrors. -/
def State.mirrorTs (s : State) (p : ProtRegs) (inRange : Nat → Bool) : State :=
  (List.range 128).foldl (fun s n =>
    let sl := s.slice n
    let m := 32 * Nat.xor (n / 32) 1 + n % 32
    let s1 := s.updSlice m (fun v => { v with mts := Ts.smax v.mts sl.mts })
    sl.sect.foldl (fun s e => if inRange (e.1 * 32) then
      let sec := p.mirror (e.1 * 32) / 32
      s.updSlice (32 * lineDie (sec / 4) + lineSlice (sec / 4)) (fun v => { v with sect := Tab.set v.sect sec e.2 }) else s) s1) s

/-- PROT_MIRROR_READY: the range has been copied into the mirror, and RDY is set. -/
def execProtMirrorReady (k : Nat) (s : State) : Host.Outcome State Fault Refusal :=
  let p := s.protReg k
  let lo := p.lo * 2 ^ 30
  let hi := lo + p.gib * 2 ^ 30
  let mlo := p.mlo * 2 ^ 30
  let mhi := mlo + p.gib * 2 ^ 30
  let inR (o : Nat) : Bool := decide (lo ≤ o) && decide (o < hi)
  let outM (o : Nat) : Bool := decide (o < mlo) || decide (mhi ≤ o)
  let msec (sec : Nat) : Nat := p.mirror (sec * 32) / 32
  .next (if 8 ≤ k || !p.en || p.base.getLsbD 1 then s
  else
    let s1 : State := { s with
      mem := (s.mem.filter (fun c => inR c.1)).foldl (fun m c => Cells.set m (p.mirror c.1) c.2) (Cells.clear s.mem mlo mhi)
      poison := s.poison.filter (fun x => outM (x * 32)) ++ (s.poison.filter (fun x => inR (x * 32))).map msec
      badChk := (s.badChk.filter (fun c => inR (c.1 * 32))).foldl (fun m c => Tab.set m (msec c.1) c.2)
        (s.badChk.filter (fun c => outM (c.1 * 32))) }
    (s1.mirrorTs p inR).setProt k { p with base := p.base ||| 2 })

/-! ## Error log, domain, pool targets (R345, R380, R381) -/

/-- The error log block (R345). DESIGN CHOICE (log entry 31): bits [7:6] of ERRCFG stand in no row of the table; they are stored and
read back. -/
def State.errWrite (s : State) (w : BusW) : State :=
  let e := s.err
  let put (v : ErrRegs) : State := { s with err := v }
  match w.word with
  | 0 => put { e with base := w.over e.base &&& bitsOf 51 16 }
  | 8 => put { e with cfg := w.over e.cfg &&& bitsOf 15 0 }
  | 16 => put { e with head := BitVec.ofNat 32 (w.over (BitVec.ofNat 64 e.head.toNat)).toNat }
  | _ => put { e with lost := 0 }

def State.domWrite (s : State) (w : BusW) : State :=
  let d := s.dom
  let put (v : Dom) : State := { s with dom := v }
  if w.word = 0 then put { d with cfg := w.over d.cfg &&& bitsOf 18 0 }
  else if 0x100 ≤ w.word && w.word < 0x200 then
    put { d with dtout := w.bytes.foldl (fun m b => Cells.set m (w.word - 0x100 + b.1) b.2) d.dtout }
  else if 0x200 ≤ w.word && w.word < 0x400 then
    put { d with dtin := w.bytes.foldl (fun m b =>
      let a := w.word - 0x200 + b.1
      let old := (Cells.get m (a / 2)).toNat
      let x := if a % 2 = 1 then b.2.toNat % 4 else b.2.toNat
      Cells.set m (a / 2) (BitVec.ofNat 16 (setFld old (a % 2 * 8) 8 x))) d.dtin }
  else s

def State.poolReg (s : State) (k : Nat) : PoolRegs := s.pools.getD k { base := 0, size := 0, dev := 0, stat := 0 }

def State.poolWrite (s : State) (k : Nat) (w : BusW) : State :=
  let p := s.poolReg k
  let put (v : PoolRegs) : State := { s with pools := s.pools.set k v }
  match w.word with
  | 0 =>
    let v := w.over p.base &&& (bitsOf 48 30 ||| 1)
    if p.en && v.getLsbD 0 then s else put { p with base := v }
  | 8 => put { p with size := w.over p.size &&& bitsOf 18 0 }
  | 16 => if p.en then s else put { p with dev := w.over p.dev &&& bitsOf 33 0 }
  | _ => put { p with stat := p.stat &&& ~~~(w.alone &&& 3) }

/-! ## Trust mailbox and service capability (R386, R387, R388) -/

/-- The identity key has signed as often as it may (R385). -/
def Fw.spent (f : Fw) : Bool := decide (2 ^ 40 ≤ f.sigIndex)

/-- ATCTL: GO sets BUSY, unless it is set; the index of a signature is taken before anything leaves the package (R385). A report
that the spent key cannot sign is refused as an OP 3 is. -/
def State.atctl (s : State) (v : W64) : State :=
  let f := s.fw
  if !v.getLsbD 0 || f.atOp.isSome then s
  else
    let op := BitVec.ofNat 2 (fld v.toNat 1 2)
    { s with fw := { f with atOp := some (if op = 0 && f.spent then 3 else op), atstat := 1, out := [],
                            sigIndex := if op = 0 && !f.spent then f.sigIndex + 1 else f.sigIndex } }

def State.mailWrite (s : State) (w : BusW) : State :=
  if w.word = 0 then s.atctl w.alone
  else if 0x20 ≤ w.word && w.word < 0x40 then
    { s with fw := { s.fw with nonce := w.bytes.foldl (fun l b => l.set (w.word - 0x20 + b.1) b.2) s.fw.nonce } }
  else s

/-- A PCAP write (R387): a cap outside 1,200 to 2,400 W is ignored. -/
def State.pcapSet (s : State) (v : W32) : State :=
  let x := v.toNat % 2 ^ 12
  if 1200 ≤ x ∧ x ≤ 2400 then { s with svc := { s.svc with pcapNew := BitVec.ofNat 32 x } } else s

/-- FWCTL with GO (R393): BUSY, unless it is set. -/
def State.fwGo (s : State) (v : W32) : State :=
  if !v.getLsbD 0 || s.fw.fwBusy then s
  else { s with fw := { s.fw with fwBusy := true }, svc := { s.svc with fwstat := (s.svc.fwstat &&& 0x100) ||| 1 } }

/-- A write to the service capability, at an offset from its start; RSTCTL acts through PACKAGE_RESET. -/
def State.svcWrite (s : State) (w : BusW) : State :=
  let v := s.svc
  let half (off : Nat) (old : W32) : Option W32 :=
    let lo := off % 8
    if lo < w.sh + w.n && w.sh < lo + 4 && w.word = off / 8 * 8 then
      some (BitVec.ofNat 32 (fld (w.over (BitVec.ofNat 64 (old.toNat * 2 ^ (8 * lo)))).toNat (8 * lo) 32))
    else none
  let on (s : State) (off : Nat) (old : W32) (f : State → W32 → State) : State :=
    match half off old with
    | some x => f s x
    | none => s
  let s1 := on s 0x0C v.tlmidx (fun s x => { s with svc := { s.svc with tlmidx := x &&& 0xFFFF } })
  let s2 := on s1 0x18 v.pcapNew State.pcapSet
  let s3 := on s2 0x20 v.fwaddrl (fun s x => { s with svc := { s.svc with fwaddrl := x &&& 0xFFFFFFC0 } })
  let s4 := on s3 0x24 v.fwaddrh (fun s x => { s with svc := { s.svc with fwaddrh := x } })
  on s4 0x28 0 State.fwGo

/-- PCAP_WRITE. -/
def execPcapWrite (v : W32) (s : State) : Host.Outcome State Fault Refusal := .next (s.pcapSet v)

/-! ## The map (R374) -/

/-- A write inside BAR0: the block, and the word in it. In recovery only the mailbox takes it (R384). -/
def State.bar0Write (s : State) (off n v : Nat) : State :=
  let w (base size : Nat) : BusW := { word := (off - base) % size / 8 * 8, sh := off % 8, n := n, v := v }
  if 0x86000 ≤ off && off < 0x87000 then s.mailWrite (w 0x86000 0x1000)
  else if s.fw.recovery then s
  else if off < 0x80000 then s.queueWrite (off / 32) (w 0 32)
  else if off < 0x81000 then s.trapWrite ((off - 0x80000) / 16) (w 0x80000 16)
  else if off < 0x83000 then s.asidWrite ((off - 0x81000) / 32) (w 0x81000 32)
  else if off < 0x84000 then s.ctlWrite ((off - 0x83000) / 64) (w 0x83000 64)
  else if off < 0x85000 then s.partWrite ((off - 0x84000) / 64) (w 0x84000 64)
  else if off < 0x85100 then s.protWrite ((off - 0x85000) / 32) (w 0x85000 32)
  else if off < 0x85120 then s.errWrite (w 0x85100 32)
  else if 0x85200 ≤ off && off < 0x85600 then s.domWrite (w 0x85200 0x400)
  else if 0x85600 ≤ off && off < 0x85700 then s.poolWrite ((off - 0x85600) / 32) (w 0x85600 32)
  else if 0x90000 ≤ off && off < 0x91000 then
    { s with msix := (w 0x90000 0x1000).bytes.foldl (fun m b => Cells.set m (off / 8 * 8 - 0x90000 + b.1) b.2) s.msix }
  else s

/-- A register write: BAR 0 or 2, or 1 for the service capability by the offset from its start (log entry 34); 1, 2, 4 or 8
aligned bytes. -/
def State.regWrite (s : State) (bar off n v : Nat) : State :=
  if !(n == 1 || n == 2 || n == 4 || n == 8) || off % n != 0 then s
  else match bar with
  | 0 => s.bar0Write off n v
  | 1 => s.svcWrite { word := off / 8 * 8, sh := off % 8, n := n, v := v }
  | 2 => if off < 2 ^ 26 && off % 4096 = 0x14 && n = 4 && !s.fw.recovery then s.doorbell (off / 4096) (BitVec.ofNat 32 v) else s
  | _ => s

/-! ## Reads -/

/-- LINKST (R381): the links, while the domain is enabled (log entry 53). -/
def Dom.linkst (d : Dom) : Nat := if !d.cfg.getLsbD 0 then 0 else (List.range 18).foldl (fun v l => if d.linkUp.getD l false then v + 2 ^ l else v) 0

/-- The aligned 8-byte word at an offset of BAR0 (R374), as a read finds it; what a read of FLTNEXT or ENGREQ removes is the
matter of its own event. -/
def State.bar0Word (s : State) (a : Nat) : W64 :=
  let f := s.fw
  if 0x86000 ≤ a && a < 0x87000 then
    (if a = 0x86008 then f.atstat ||| (if f.recovery then 8 else 0)
     else if 0x86020 ≤ a && a < 0x86040 then BitVec.ofNat 64 (leVal ((f.nonce.drop (a - 0x86020)).take 8))
     else 0)
  else if f.recovery && !(0x87000 ≤ a && a < 0x88000) then 0
  else if a < 0x80000 then
    let q := a / 32
    let r := s.queue q
    (match a % 32 with
    | 0 => r.qbase
    | 8 => r.qcfg
    | 16 => BitVec.ofNat 64 (r.qhead.toNat + r.qtail.toNat * 2 ^ 32)
    | _ => r.qstat ||| (if s.launches.any (fun l => l.2.queue == q) then 4 else 0))
  else if a < 0x81000 then (let r := s.trapRegs ((a - 0x80000) / 16); if a % 16 = 0 then r.hbase else r.hen)
  else if a < 0x83000 then
    let r := s.asid ((a - 0x81000) / 32)
    (match a % 32 with
    | 0 => r.root
    | 8 => r.cfg
    | 16 => 0
    | _ => BitVec.ofNat 64 r.seq.toNat)
  else if a < 0x84000 then
    let q := s.part ((a - 0x83000) / 64)
    (match a % 64 with
    | 0x08 => q.prestat
    | 0x18 => BitVec.ofNat 64 (q.announce.getD 0 0)
    | 0x28 => q.svbase
    | 0x30 => q.svcfg
    | _ => 0)
  else if a < 0x85000 then
    let q := s.part ((a - 0x84000) / 64)
    (match a % 64 with
    | 0x00 => q.ptcfg
    | 0x08 => q.ptstat
    | 0x10 => (match q.engreq with | p :: _ => BitVec.ofNat 64 (engValue p) | [] => 0)
    | 0x18 => 0
    | r => BitVec.ofNat 64 (fld q.quota.toNat (8 * (r - 0x20)) 64))
  else if a < 0x85100 then
    let p := s.protReg ((a - 0x85000) / 32)
    (match a % 32 with | 0 => p.base | 8 => p.size | 16 => p.mir | _ => 0)
  else if a < 0x85120 then
    let e := s.err
    (match a % 32 with
    | 0 => e.base
    | 8 => e.cfg
    | 16 => BitVec.ofNat 64 (e.head.toNat + e.tail.toNat * 2 ^ 32)
    | _ => BitVec.ofNat 64 e.lost.toNat)
  else if a < 0x85200 then 0
  else if a < 0x85600 then
    let d := s.dom
    (if a = 0x85200 then d.cfg
     else if a = 0x85208 then BitVec.ofNat 64 d.linkst
     else if a < 0x85300 then 0
     else if a < 0x85400 then BitVec.ofNat 64 (Cells.le d.dtout (a - 0x85300) 8)
     else BitVec.ofNat 64 ((List.range 4).foldl (fun v i =>
       v + (Cells.get d.dtin ((a - 0x85400) / 2 + i)).toNat * 2 ^ (16 * i)) 0))
  else if a < 0x85700 then
    let p := s.poolReg ((a - 0x85600) / 32)
    (match a % 32 with | 0 => p.base | 8 => p.size | 16 => p.dev | _ => p.stat)
  else if 0x87000 ≤ a && a < 0x88000 then BitVec.ofNat 64 (leVal ((f.out.drop (a - 0x87000)).take 8))
  else if 0x90000 ≤ a && a < 0x91000 then BitVec.ofNat 64 (Cells.le s.msix (a - 0x90000) 8)
  else 0

/-- The 4-byte word at an offset of the service capability (R387); TLMLO gives the latched item. -/
def State.svcWord (s : State) (a : Nat) : W32 :=
  let v := s.svc
  match a with
  | 0x0C => v.tlmidx
  | 0x10 => BitVec.ofNat 32 v.latch.toNat
  | 0x14 => BitVec.ofNat 32 (v.latch.toNat / 2 ^ 32)
  | 0x18 => v.pcapNew
  | 0x1C => v.pwrst
  | 0x20 => v.fwaddrl
  | 0x24 => v.fwaddrh
  | 0x2C => v.fwstat
  | _ => 0

/-- The value that a read of `n` bytes finds. -/
def State.readReg (s : State) (bar off n : Nat) : Nat :=
  let cut (w : Nat) : Nat := fld w (8 * (off % 8)) (8 * n)
  match bar with
  | 0 => if off < 2 ^ 20 then cut (s.bar0Word (off / 8 * 8)).toNat else 0
  | 1 => cut ((s.svcWord (off / 8 * 8)).toNat + (s.svcWord (off / 8 * 8 + 4)).toNat * 2 ^ 32)
  | 2 =>
    let q := s.queue (off / 4096)
    if off < 2 ^ 26 && off % 4096 / 8 * 8 = 0x10 && !s.fw.recovery then cut (q.qhead.toNat + q.qtail.toNat * 2 ^ 32) else 0
  | _ => 0

end Sys2Proof.Machine
end

