-- ==== Sys2Proof/Machine/Failures.lean ====
section
/-! DEFINITION. The loss of a home die and the failover to its buddy (R368, R369), cores out of service (R370), and ECC errors
with their records (R344, R345, R400). -/

namespace Sys2Proof.Machine

/-! ## A home die fails (R368, R369) -/

/-- Whether a device line is served by a home die. -/
def State.servedBy (s : State) (hd line : Nat) : Bool :=
  (match s.target (line * 128) with | .dev _ => true | _ => false) && s.servDie line == hd

/-- The clean part of a span dropped; the span stays while it has dirty bytes. -/
def State.dropClean (s : State) (u : Agent) (line : Nat) : State :=
  match s.span u line with
  | none => s
  | some v =>
    if v.dirty.isEmpty && v.pending.isNone then s.dropSpan u line
    else s.setSpan u line { v with cnt := 0, bytes := [], poison := [], hold := 0 }

/-- The units that hold spans. -/
def State.cacheUnits (s : State) : List Agent := s.cores.map (fun k => Agent.core k.1) ++ s.clusters.map (fun k => Agent.cluster k.1)

/-- The spans of the lines that a die served: clean parts dropped; dirty bytes published to the buddy, or discarded with a lost
line. -/
def State.spansFail (s : State) (hit : Nat → Bool) : State :=
  s.cacheUnits.foldl (fun s u => (Tab.keys (s.spans u)).foldl (fun s line =>
    if !hit line then s
    else
      let s1 := s.dropClean u line
      if s1.lost line then
        match s1.span u line with
        | none => s1
        | some v => s1.setSpan u line { v with dirty := v.dirty.filter (fun d => d.sent.isSome), pending := none }
      else s1.publishLine u line (fun _ => true)) s) s

/-- Protected lines at the buddy: their bytes, poison and check values are those of the mirror (R367). -/
def State.takeMirror (s : State) (hit : Nat → Bool) : State :=
  let prot (o : Nat) : Option ProtRegs := if hit (o / 128) then s.protOf o else none
  let mirrorSec (sec : Nat) : Option Nat := (prot (sec * 32)).map (fun p => p.mirror (sec * 32) / 32)
  /- Places whose protected original a mirror offset stands for, among those that list something. -/
  let orig (m : Nat) : List Nat := s.prot.filterMap (fun p =>
    let o := Nat.xor (m - fld p.mir.toNat 30 10 * 2 ^ 30) 0x1000 + fld p.base.toNat 30 10 * 2 ^ 30
    if fld p.mir.toNat 30 10 * 2 ^ 30 ≤ m && prot o == some p && p.mirror o == m then some o else none)
  let mem0 := s.mem.filter (fun c => (prot c.1).isNone)
  let poison0 := s.poison.filter (fun x => (mirrorSec x).isNone)
  let chk0 := s.badChk.filter (fun c => (mirrorSec c.1).isNone)
  { s with
    mem := s.mem.foldl (fun m c => (orig c.1).foldl (fun m o => Cells.set m o c.2) m) mem0
    poison := s.poison.foldl (fun l x => l ++ (orig (x * 32)).map (· / 32)) poison0
    badChk := s.badChk.foldl (fun m c => (orig (c.1 * 32)).foldl (fun m o => Tab.set m (o / 32) c.2) m) chk0 }

/-- The slices of a failed die: their hard holds on protected lines, with the mirrors' timestamps, pass to the buddy's. -/
def State.slicesFail (s : State) (hd : Nat) : State :=
  (List.range 32).foldl (fun s k =>
    let n := 32 * hd + k
    let m := 32 * Nat.xor hd 1 + k
    let v := s.slice n
    let b := s.slice m
    let keep := v.sect.filter (fun e => !s.lost (e.1 / 4))
    let sect := keep.foldl (fun t e => match s.protOf (e.1 * 32) with
      | some p => Tab.set t e.1 (b.ts (p.mirror (e.1 * 32) / 32))
      | none => t) b.sect
    let s1 := s.setSlice m { b with sect := sect, hard := b.hard ++ v.hard.filter (fun h => !s.lost (h.line / 2)) }
    s1.setSlice n Slice.init) s

/-- A packet of a line that has failed over: back at its sender's router, bound for the buddy; a reply lost on the way is answered
from the replay table, or asked for again (R368, R371). -/
def State.repack (s : State) (id : Nat) (p : Pkt) : State :=
  let d := s.destOf p.line
  let start := (Pkt.new p.kind p.src d p.line p.pts p.crew p.entry).place
  let early := match p.place with | .cd _ _ _ => true | _ => false
  match p.kind with
  | .recall _ => s.dropPkt id
  | .data _ _ | .ext _ =>
    let q := { p with kind := .renew none, place := start, dst := d, bytes := [], poison := [], req := 0, fresh := true }
    { s with net := Tab.set (Tab.erase s.net id) p.req q }
  | .ack _ =>
    (match p.place with
    | .cd _ _ _ | .receiver => s
    | _ => { s with net := Tab.set s.net id { p with dst := d, place := d.place } })
  | _ => { s with net := Tab.set s.net id { p with dst := d, place := if early then p.place else start, fails := 0 } }

/-- A request that will never be served (R369, R380): a RENEW is taken back, a write counts as done, an atomic that returns finds
its place failed. -/
def State.failPkt (s : State) (id : Nat) (p : Pkt) : State :=
  let req := if p.kind.request then id else p.req
  let cu : Agent := .cluster p.src.clusterUnit
  let s := match s.span cu p.line with
    | some v => if v.pending = some req then s.unask cu p.line else s
    | none => s
  let back : State := match s.span p.src p.line with
    | some v =>
      let s1 := s.dropPkt id
      if v.dirty.isEmpty && v.cnt = 0 then s1.dropSpan p.src p.line else s1.setSpan p.src p.line { v with pending := none, hold := 0 }
    | none => s.dropPkt id
  let ack (bad : List Nat) : State :=
    (s.dropPkt id).send { p with kind := .ack p.pts, req := id, place := .receiver, bytes := [], poison := bad, ans := [] }
  match p.kind with
  | .renew _ | .data _ _ | .ext _ | .hold _ => back
  | .write | .wb => ack []
  | .atom _ _ _ _ => ack (p.ops.map (·.1))
  | .ack _ => { s with net := Tab.set s.net id { p with place := .receiver } }
  | .recall _ => s.dropPkt id

/-- The packets of the lines that a die served. -/
def State.packetsFail (s : State) (hit : Nat → Bool) : State :=
  let s1 := s.net.foldl (fun s e =>
    match Tab.get s.net e.1 with
    | none => s
    | some p =>
      if !hit p.line then s
      else if s.lost p.line then s.failPkt e.1 p else s.repack e.1 p) s
  { s1 with combs := s1.combs.filter (fun c => !(hit c.line && s1.lost c.line)) }

/-- A word that waits for a counter's home begins again. -/
def Crew.restartWait (c : Crew) (e : Nat) : Crew :=
  (c.dropReqs e).updSplit e (fun sp => match sp.wait with
    | .ctr | .reply => { sp with wait := .none, word := none }
    | _ => sp)

/-- Counters whose records are lost: the words that wait for them begin again, and find the record lost. -/
def State.countersFail (s : State) (lostRec : Nat → Bool) : State :=
  let gone := s.ctrHomes.filter (fun h => lostRec h.1)
  let asked := gone.flatMap (fun h => (h.2.queue ++ h.2.cur.toList).filter (fun q => q.op ≠ 0))
  let s1 := asked.foldl (fun s q => s.updCrew q.crew (fun c => c.restartWait q.entry)) s
  let takes := s1.cores.flatMap (fun k => (k.2.ctrs.filter (fun e => lostRec e.addr)).flatMap (fun e =>
    (e.queue.map Prod.fst ++ (e.refill.map Prod.snd).toList).map (fun id => (k.1, id))))
  let s2 := takes.foldl (fun s t => match s.takerOf t.1 t.2 with
    | some (key, e, _) => s.updCrew key (fun c => c.restartWait e)
    | none => s) s1
  { s2 with
    ctrHomes := s2.ctrHomes.filter (fun h => !lostRec h.1)
    cores := Tab.mapV s2.cores (fun _ k => { k with ctrs := k.ctrs.filter (fun e => !lostRec e.addr) }) }

/-- Cistern slots: an OPEN slot of a protected line restarts its timer at TIMEOUT; a lost one is gone (R368). -/
def State.slotsFail (s : State) (hit : Nat → Bool) : State :=
  let gone (o : Nat) : Bool := hit (o / 128) && s.lost (o / 128)
  { s with
    cmbSlots := (s.cmbSlots.filter (fun k => !gone k.1)).map (fun (k : Nat × CmbSlot) =>
      if hit (k.1 / 128) then (k.1, { k.2 with since := s.now }) else k)
    engWaits := s.engWaits.filter (fun w => !(w.what == 1 && gone w.id)) }

/-- HOME_DIE_FAILURE: a die is declared failed, once. -/
def execHomeDieFailure (hd : Nat) (s : State) : Host.Outcome State Fault Refusal :=
  .next (if 4 ≤ hd || s.dieFailed hd then s
  else
    let hit (line : Nat) : Bool := s.servedBy hd line
    let b := Nat.xor hd 1
    let s1 := s.setHome hd { s.home hd with failed := true }
    let s2 := s1.setHome b { s1.home b with clock := Ts.smax (s1.home b).clock s1.lastRec }
    let s3 := ((s2.takeMirror (fun l => hit l && !s2.lost l)).slicesFail hd).packetsFail hit
    let s4 := ((s3.spansFail hit).slotsFail hit).countersFail (fun o => hit (o / 128) && s3.lost (o / 128))
    let s5 : State := { s4 with cmds := Tab.mapV s4.cmds (fun id (k : Cmd) => if Config.engineDie id = hd then { k with failed := true } else k) }
    s5.errRecord 0 0 1 hd 3 0 0xFFF 0 0 0 5)

/-! ## Cores out of service (R370) -/

/-- The allowances of a core are forfeited into LOST, and no home waits for the core any more (R123). -/
def State.forfeit (s : State) (core : Nat) : State :=
  let s1 := (s.core core).ctrs.foldl (fun s e => if e.allow = 0 then s else s.ctrUpd e.addr (fun r => r.addLost e.allow)) s
  let s2 := s1.updCore core (fun k => { k with ctrs := [] })
  (Tab.keys s2.ctrHomes).foldl (fun s o =>
    let h := s.ctrHome o
    let lostNow := h.grants.foldl (fun n g => if g.1 = core then n + g.2.getD 0 else n) 0
    let s1 := s.setCtrHome o { h with awaiting := h.awaiting.filter (· != core), grants := h.grants.filter (fun g => g.1 != core) }
    let s2 := if lostNow = 0 then s1 else s1.ctrUpd o (fun r => r.addLost lostNow)
    if h.awaiting.contains core then (s2.ctrEval o 3).ctrPump o (h.queue.length + 1) else s2) s2

/-- The narrow holds of a unit removed; its dirty bytes are gone. -/
def State.unhold (s : State) (u : Agent) : State :=
  let drop (l : List NHolder) : List NHolder := l.filter (fun h => h.unit != u)
  let s1 := s.setSpans u []
  { s1 with
    slices := Tab.mapV s1.slices (fun _ v => { v with nht := drop v.nht })
    bridges := s1.bridges.map (fun (b : Bridge) => { b with nht := drop b.nht })
    dom := { s1.dom with agent := { s1.dom.agent with nht := drop s1.dom.agent.nht } } }

/-- One core leaves service: its gangs' launches are killed with class HOME and LOSS, its blocks go back to the dispatcher. -/
def State.coreOut (s : State) (core : Nat) : State :=
  if (s.core core).oos || 512 ≤ core then s
  else
    let old := s.core core
    let s1 := (s.forfeit core).unhold (.core core)
    let ls := (s1.coreGangs core).foldl (fun l g => if l.contains g.2.lslot then l else l ++ [g.2.lslot]) ([] : List Nat)
    let s2 := s1.updCore core (fun k => { k with oos := true })
    let s3 := ls.foldl (fun s l => s.killLaunch l (11 + 64)) s2
    let low := (clusterCores (clusterOf core)).getD 0 0
    let s4 : State := { s3 with blocks := Tab.mapV s3.blocks (fun _ b =>
      if (b.place = 1 || b.place = 2) && (b.core = core || (b.core = low && s3.needsCluster b)) then { b with place := 0 } else b) }
    s4.setCore core { CoreSt.init with oos := true, temp := old.temp, hot := old.hot, coolSince := old.coolSince }

/-- CORE_OUT_OF_SERVICE: a core, or by a number from 512 on a cluster unit with its four cores. -/
def execCoreOutOfService (core : Nat) (s : State) : Host.Outcome State Fault Refusal :=
  .next (if core < 512 then s.coreOut core
  else if core < 640 then
    let k := core - 512
    let s1 := (clusterCores k).foldl State.coreOut (s.unhold (.cluster k))
    s1.setCluster k { ClusterSt.init with oos := true }
  else s)

/-! ## ECC (R344, R345, R400) -/

/-- An ECCU record of a gang's storage; the class that a read of a register or tile then raises (R344, R346). -/
def State.eccuGang (s : State) (gid va array cls : Nat) : State :=
  match s.gang gid with
  | some g => s.errRecord 0 va 1 array 0 g.core g.lslot (s.gangAsid gid) (s.gangPart gid) cls 2
  | none => s

/-- A sector of device memory poisoned by an ECC error, with its record. -/
def State.eccSector (s : State) (sec array ukind unit : Nat) : State :=
  if devSize ≤ sec * 32 || s.lost (sec / 4) || s.secPoison sec then s
  else ({ s with poison := sec :: s.poison }).errRecord (sec * 32) 0 1 array ukind unit 0xFFF 0 0 0 2

/-- A sector of a span in an L1 or a cluster cache: its dirty bytes are lost with it, and then the sector at the home is poisoned
too (log entry 35). -/
def State.eccSpan (s : State) (u : Agent) (unit array line k : Nat) : State :=
  match s.span u line with
  | none => s
  | some v =>
    let inS (o : Nat) : Bool := o / 32 == k
    let dirty := v.dirty.any (fun d => d.bytes.any (fun b => inS b.1))
    if v.poison.contains k || 4 ≤ k then s
    else
      let v1 := { v with poison := k :: v.poison,
                         dirty := v.dirty.map (fun (d : Dirty) => { d with bytes := d.bytes.filter (fun b => !inS b.1) }) }
      let s1 := (s.setSpan u line v1).errRecord (line * 128 + 32 * k) 0 1 array 0 unit 0xFFF 0 0 0 2
      match dirty, s1.target (line * 128) with
      | true, .dev o => if s1.secPoison (o / 32 + k) then s1 else { s1 with poison := (o / 32 + k) :: s1.poison }
      | _, _ => s1

/-- ECC_ERROR: a corrected error is counted; an uncorrectable one poisons its sector, register or tile; one that escapes leaves
bytes that the check value finds. -/
def execEccError (e : Ecc) (s : State) : Host.Outcome State Fault Refusal :=
  .next (match e with
    | .corrected ukind unit array =>
      { s with err := { s.err with corrected := s.err.corrected ++ [(ukind, unit, array, s.now / usCycles 1000)] } }
    | .sector array sec => s.eccSector sec array 1 (s.servSlice (sec / 4))
    | .scratch gid sec =>
      (match s.gang gid with
      | some g => if g.scrPoison.contains sec || g.scrSz ≤ sec * 32 then s
        else (s.setGang gid { g with scrPoison := sec :: g.scrPoison }).eccuGang gid (sec * 32) 4 0
      | none => s)
    | .register key r lane =>
      (match s.crew key with
      | some c => if c.bad.contains (r, lane) || 32 ≤ lane then s
        else (s.setCrew key { c with bad := (r, lane) :: c.bad }).eccuGang (keyGid key) 0 5 8
      | none => s)
    | .tile gid t =>
      (match s.gang gid with
      | some g => if g.tilePoison.contains t || g.ntiles ≤ t then s
        else (s.setGang gid { g with tilePoison := t :: g.tilePoison }).eccuGang gid 0 6 8
      | none => s)
    | .escaped sec bytes =>
      if devSize ≤ sec * 32 || s.lost (sec / 4) then s
      else
        let stored := (Tab.get s.badChk sec).getD (crc16 (Cells.bytes s.mem (sec * 32) 32))
        { s with mem := Cells.putBytes s.mem (sec * 32) ((bytes ++ List.replicate 32 0).take 32), badChk := Tab.set s.badChk sec stored }
    | .cached cl unit line k =>
      if cl then s.eccSpan (.cluster unit) ((clusterCores unit).getD 0 0) 2 line k else s.eccSpan (.core unit) unit 3 line k)

/-- Whether two corrections are of one unit and interval: a cluster unit's cache, array 2, is not its lowest core's (R345, R400). -/
def sameEccc (a b : Nat × Nat × Nat × Nat) : Bool :=
  a.1 == b.1 && a.2.1 == b.2.1 && (a.1 == 0 && a.2.2.1 == 2) == (b.1 == 0 && b.2.2.1 == 2) && a.2.2.2 == b.2.2.2

/-- The record of the oldest past interval in which a unit that reports under these numbers corrected errors; `n` bounds their
number. DETAIL names the array corrected first. -/
def State.ecccRecords (s : State) (ukind unit : Nat) : Nat → State
  | 0 => s
  | n + 1 =>
    match s.err.corrected.find? (fun c => c.1 == ukind && c.2.1 == unit && decide (c.2.2.2 < s.now / usCycles 1000)) with
    | none => s
    | some c =>
      let l := s.err.corrected.filter (sameEccc c)
      let s1 := { s with err := { s.err with corrected := s.err.corrected.filter (fun x => !sameEccc c x) } }
      (s1.errRecord 0 0 l.length c.2.2.1 ukind unit 0xFFF 0 0 0 3).ecccRecords ukind unit n

/-- ECCC_INTERVAL: one record for each interval of 1 ms, now over, in which a unit corrected errors (R345). -/
def execEcccInterval (ukind unit : Nat) (s : State) : Host.Outcome State Fault Refusal :=
  .next (s.ecccRecords ukind unit s.err.corrected.length)

end Sys2Proof.Machine
end

