-- ==== Sys2Proof/Machine/Sha.lean ====
section
/-! DEFINITION. SHA-256 (FIPS 180-4) and the hash-based signatures of RFC 8554 with the types of R383: LM-OTS over SHA-256 with
32-byte hashes and w = 8, LMS with trees of height 20, and HSS with two levels. The manual names these formats and does not
repeat them (log entry 39). -/

namespace Sys2Proof.Machine

/-! ## SHA-256 -/

/-- Eight 32-bit words as natural numbers. -/
structure Sha where
  a : Nat
  b : Nat
  c : Nat
  d : Nat
  e : Nat
  f : Nat
  g : Nat
  h : Nat
  deriving DecidableEq, Repr

/-- The greatest x below `2 ^ bits + acc` with `x ^ k ≤ n`, by its bits from the highest on. -/
def rootBits (k n : Nat) : Nat → Nat → Nat
  | 0, acc => acc
  | b + 1, acc => rootBits k n b (if (acc + 2 ^ b) ^ k ≤ n then acc + 2 ^ b else acc)

/-- The first 32 bits of the fractional part of the k-th root of `p`, which is below 2^5. -/
def rootFrac (k p : Nat) : Nat := rootBits k (p * 2 ^ (32 * k)) 37 0 % 2 ^ 32

/-- The primes below 312: the first 64. -/
def shaPrimes : List Nat :=
  ((List.range 312).drop 2).filter (fun n => ((List.range 18).drop 2).all (fun d => d == n || n % d != 0))

/-- The initial hash value: from the square roots of the first eight primes (FIPS 180-4, 5.3.3). -/
def shaInit : Sha :=
  let r (i : Nat) : Nat := rootFrac 2 (shaPrimes.getD i 0)
  { a := r 0, b := r 1, c := r 2, d := r 3, e := r 4, f := r 5, g := r 6, h := r 7 }

/-- The round constants: from the cube roots of the first 64 primes (FIPS 180-4, 4.2.2). -/
def shaK : List Nat := shaPrimes.map (rootFrac 3)

def rotr32 (x n : Nat) : Nat := Nat.lor (Nat.shiftRight x n) (Nat.shiftLeft x (32 - n) % 2 ^ 32)

def xor3 (a b c : Nat) : Nat := Nat.xor a (Nat.xor b c)

/-- One round with its constant and its word of the schedule. -/
def Sha.round (s : Sha) (k w : Nat) : Sha :=
  let t1 := (s.h + xor3 (rotr32 s.e 6) (rotr32 s.e 11) (rotr32 s.e 25) +
    Nat.xor (Nat.land s.e s.f) (Nat.land (2 ^ 32 - 1 - s.e) s.g) + k + w) % 2 ^ 32
  let t2 := xor3 (rotr32 s.a 2) (rotr32 s.a 13) (rotr32 s.a 22) +
    xor3 (Nat.land s.a s.b) (Nat.land s.a s.c) (Nat.land s.b s.c)
  { a := (t1 + t2) % 2 ^ 32, b := s.a, c := s.b, d := s.c, e := (s.d + t1) % 2 ^ 32, f := s.e, g := s.f, h := s.g }

/-- The next word of the schedule after its last 16, oldest first. -/
def shaNext (w : List Nat) : Nat :=
  let x := w.getD 1 0
  let y := w.getD 14 0
  (w.getD 0 0 + xor3 (rotr32 x 7) (rotr32 x 18) (Nat.shiftRight x 3) + w.getD 9 0 +
    xor3 (rotr32 y 17) (rotr32 y 19) (Nat.shiftRight y 10)) % 2 ^ 32

/-- The rounds of one block: the window of the schedule moves by one word a round. -/
def shaRounds : List Nat → List Nat → Sha → Sha
  | [], _, s => s
  | k :: ks, w, s => shaRounds ks (w.drop 1 ++ [shaNext w]) (s.round k (w.getD 0 0))

/-- One block of 16 big-endian words. -/
def Sha.block (s : Sha) (w : List Nat) : Sha :=
  let t := shaRounds shaK w s
  let add (x y : Nat) : Nat := (x + y) % 2 ^ 32
  { a := add s.a t.a, b := add s.b t.b, c := add s.c t.c, d := add s.d t.d,
    e := add s.e t.e, f := add s.f t.f, g := add s.g t.g, h := add s.h t.h }

/-- A big-endian value of bytes, and the `n` big-endian bytes of a value. -/
def beVal (bs : List Byte) : Nat := bs.foldl (fun v b => v * 256 + b.toNat) 0
def beBytes (v n : Nat) : List Byte := (leBytes v n).reverse

/-- Big-endian words of the first `n` groups of four bytes. -/
def beWords : Nat → List Byte → List Nat
  | 0, _ => []
  | n + 1, bs => beVal (bs.take 4) :: beWords n (bs.drop 4)

/-- The blocks of a padded message. -/
def shaBlocks : Nat → List Byte → Sha → Sha
  | 0, _, s => s
  | n + 1, bs, s => shaBlocks n (bs.drop 64) (s.block (beWords 16 (bs.take 64)))

/-- SHA-256 of bytes: 32 bytes. -/
def sha256 (bs : List Byte) : List Byte :=
  let n := bs.length
  let pad := bs ++ [0x80] ++ List.replicate ((119 - n % 64) % 64) 0 ++ beBytes (8 * n) 8
  let s := shaBlocks (pad.length / 64) pad shaInit
  [s.a, s.b, s.c, s.d, s.e, s.f, s.g, s.h].flatMap (fun x => beBytes x 4)

/-! ## LM-OTS with w = 8: 34 chains of 255 steps -/

def dPblc : List Byte := [0x80, 0x80]
def dMesg : List Byte := [0x81, 0x81]
def dLeaf : List Byte := [0x82, 0x82]
def dIntr : List Byte := [0x83, 0x83]

/-- A chain from step `j` on, `n` steps. -/
def otsChain (pre : List Byte) : Nat → Nat → List Byte → List Byte
  | 0, _, t => t
  | n + 1, j, t => otsChain pre n (j + 1) (sha256 (pre ++ beBytes j 1 ++ t))

/-- The 34 digits of a message: the bytes of its hash and of the checksum. -/
def otsDigits (idn : List Byte) (q : Nat) (c msg : List Byte) : List Nat :=
  let h := (sha256 (idn ++ beBytes q 4 ++ dMesg ++ c ++ msg)).map BitVec.toNat
  h ++ (beBytes (h.foldl (fun n x => n + (255 - x)) 0) 2).map BitVec.toNat

/-- The hash of the public key from the ends of the chains. -/
def otsPub (idn : List Byte) (q : Nat) (zs : List (List Byte)) : List Byte :=
  sha256 (idn ++ beBytes q 4 ++ dPblc ++ zs.flatten)

/-- What stands before the step number in chain `i`. -/
def otsPre (idn : List Byte) (q i : Nat) : List Byte := idn ++ beBytes q 4 ++ beBytes i 2

/-- The secret that chain `i` starts from (RFC 8554, appendix A). -/
def otsSecret (idn seed : List Byte) (q i : Nat) : List Byte := sha256 (otsPre idn q i ++ [0xFF] ++ seed)

/-- The public key of leaf `q` of a tree. -/
def otsKey (idn seed : List Byte) (q : Nat) : List Byte :=
  otsPub idn q ((List.range 34).map (fun i => otsChain (otsPre idn q i) 255 0 (otsSecret idn seed q i)))

/-- A one-time signature: type 4, the randomizer, 34 chain values. -/
def otsSign (idn seed : List Byte) (q : Nat) (c msg : List Byte) : List Byte :=
  let ds := otsDigits idn q c msg
  beBytes 4 4 ++ c ++ (List.range 34).flatMap (fun i => otsChain (otsPre idn q i) (ds.getD i 0) 0 (otsSecret idn seed q i))

/-- The public key that a one-time signature of 1,124 bytes leads to, if its type is right. -/
def otsRecover (idn : List Byte) (q : Nat) (sig msg : List Byte) : Option (List Byte) :=
  if beVal (sig.take 4) ≠ 4 then none
  else
    let ds := otsDigits idn q ((sig.drop 4).take 32) msg
    some (otsPub idn q ((List.range 34).map (fun i =>
      let a := ds.getD i 0
      otsChain (otsPre idn q i) (255 - a) a ((sig.drop (36 + 32 * i)).take 32))))

/-! ## LMS with height 20, and HSS with two levels -/

def lmsHeight : Nat := 20

def lmsLeaf (idn : List Byte) (r : Nat) (k : List Byte) : List Byte := sha256 (idn ++ beBytes r 4 ++ dLeaf ++ k)
def lmsInner (idn : List Byte) (r : Nat) (left right : List Byte) : List Byte :=
  sha256 (idn ++ beBytes r 4 ++ dIntr ++ left ++ right)

/-- Node `r`, `k` levels above the leaves. -/
def lmsNode (idn seed : List Byte) : Nat → Nat → List Byte
  | 0, r => lmsLeaf idn r (otsKey idn seed (r - 2 ^ lmsHeight))
  | k + 1, r => lmsInner idn r (lmsNode idn seed k (2 * r)) (lmsNode idn seed k (2 * r + 1))

/-- The root that a leaf and its path lead to: `n` levels from node `r` on. -/
def lmsClimb (idn : List Byte) : Nat → Nat → List Byte → List Byte → List Byte
  | 0, _, _, t => t
  | n + 1, r, path, t =>
    let p := path.take 32
    lmsClimb idn n (r / 2) (path.drop 32) (if r % 2 = 1 then lmsInner idn (r / 2) p t else lmsInner idn (r / 2) t p)

/-- The 56 bytes of a tree's public key: types 8 and 4, identifier, root. -/
def lmsPub (idn seed : List Byte) : List Byte := beBytes 8 4 ++ beBytes 4 4 ++ idn ++ lmsNode idn seed lmsHeight 1

/-- A signature of leaf `q`: 1,772 bytes. -/
def lmsSign (idn seed : List Byte) (q : Nat) (c msg : List Byte) : List Byte :=
  beBytes q 4 ++ otsSign idn seed q c msg ++ beBytes 8 4 ++
    (List.range lmsHeight).flatMap (fun k => lmsNode idn seed k (Nat.xor ((2 ^ lmsHeight + q) / 2 ^ k) 1))

/-- Whether a signature of 1,772 bytes verifies under a public key of 56 bytes. -/
def lmsVerify (pub sig msg : List Byte) : Bool :=
  let idn := (pub.drop 8).take 16
  let q := beVal (sig.take 4)
  pub.length == 56 && sig.length == 1772 && beVal (pub.take 4) == 8 && beVal ((pub.drop 4).take 4) == 4 &&
  beVal ((sig.drop 1128).take 4) == 8 && decide (q < 2 ^ lmsHeight) &&
  (match otsRecover idn q ((sig.drop 4).take 1124) msg with
  | some k => lmsClimb idn lmsHeight (2 ^ lmsHeight + q) (sig.drop 1132) (lmsLeaf idn (2 ^ lmsHeight + q) k) == pub.drop 24
  | none => false)

/-- Whether a two-level signature of 3,604 bytes verifies under a public key of 60 bytes. -/
def hssVerify (pub sig msg : List Byte) : Bool :=
  let mid := (sig.drop 1776).take 56
  pub.length == 60 && sig.length == 3604 && beVal (pub.take 4) == 2 && beVal (sig.take 4) == 1 &&
  lmsVerify (pub.drop 4) ((sig.drop 4).take 1772) mid && lmsVerify mid (sig.drop 1832) msg

end Sys2Proof.Machine
end

