-- ==== Sys2Proof/Machine/Trust.lean ====
section
/-! DEFINITION. Firmware images and configuration records (R383, R384, R393), the identity key (R385), measurements and the trust
mailbox (R386). -/

namespace Sys2Proof.Machine

/-! ## Images (R383, R384) -/

/-- What a check of an image answers: accepted, with the header's KIND and DIGEST and the body; or the number of the first
failing check, 5 where bytes are missing. -/
inductive ImgCheck where
  | accepted (kind : Nat) (digest body : List Byte)
  | failed (n : Nat)
  deriving DecidableEq, Repr

def State.svnFloor (s : State) : BitVec 32 := s.fw.floor.getD Config.fusedFloor

/-- The four checks of R384 in their order, on a header, its body and its signature. -/
def checkImage (floor : BitVec 32) (bs : List Byte) : ImgCheck :=
  let hdr := bs.take 64
  let v := leVal hdr
  let len := fld v 384 32
  let body := (bs.drop 64).take len
  let sig := (bs.drop (64 + len)).take 3604
  let digest := (hdr.drop 16).take 32
  let kind := fld v 464 16
  if bs.length < 64 then .failed 5
  else if fld v 480 32 ≠ 0x585A4657 || !(kind == 1 || kind == 2) || fld v 448 16 ≠ 0 || fld v 0 128 ≠ 0 || len == 0 || 2 ^ 24 < len then
    .failed 1
  else if bs.length < 64 + len + 3604 then .failed 5
  else if sha256 body ≠ digest then .failed 2
  else if sha256 Config.vendorKey ≠ Config.vendorKeyHash || !hssVerify Config.vendorKey sig hdr then .failed 3
  else if fld v 416 32 < floor.toNat then .failed 4
  else .accepted kind digest body

/-- What the ROM finds in a slot: the measurement of the image it boots, if it accepts it (R384). -/
def slotBoots (floor : BitVec 32) : FwSlot → Option MeasItem
  | .factory => some .factory
  | .empty => none
  | .image bs => match checkImage floor bs with
    | .accepted 1 d _ => some (.digest d)
    | _ => none

/-- The ROM boots: the primary slot, else the backup slot, else recovery (R384); the measurements begin again (R386). -/
def State.romBoot (s : State) : State :=
  let f := s.fw
  let go (items : List MeasItem) (primary recovery : Bool) : State :=
    { s with fw := { f with runPrimary := primary, recovery := recovery, meas := [[.rom], items, [], [], [], [], [], []] } }
  match slotBoots s.svnFloor f.primary with
  | some m => go [m] true false
  | none => match slotBoots s.svnFloor f.backup with
    | some m => go [m] false false
    | none => go [] true true

/-- An accepted image of KIND 1: to the slot that is not running, in recovery to the primary slot (R387, R393). -/
def Fw.stage (f : Fw) (bs : List Byte) : Fw :=
  if f.recovery || !f.runPrimary then { f with primary := .image bs } else { f with backup := .image bs }

/-- The floor that an accepted configuration record leaves: it never falls (R384). -/
def State.raiseFloor (s : State) (body : List Byte) : State :=
  match Config.recordFloor body with
  | some n => { s with fw := { s.fw with floor := some (if s.svnFloor.toNat < n.toNat then n else s.svnFloor) } }
  | none => s

/-- The end of an update: BUSY cleared, DONE, and the bits that the outcome sets; PENDING stays. -/
def State.fwEnd (s : State) (bits : W32) : State :=
  { s with fw := { s.fw with fwBusy := false }, svc := { s.svc with fwstat := (s.svc.fwstat &&& 0x100) ||| 2 ||| bits } }

/-- FIRMWARE_UPDATE (R393): GO where no update is under way, and the update itself, on the bytes that the controller reads at
FWADDR; none is a failed read. -/
def execFirmwareUpdate (image : Option (List Byte)) (s : State) : Host.Outcome State Fault Refusal :=
  let s1 := s.fwGo 1
  .next (match image with
    | none => s1.fwEnd (4 ||| 0x50)
    | some bs => match checkImage s1.svnFloor bs with
      | .failed n => s1.fwEnd (4 ||| BitVec.ofNat 32 (16 * n))
      | .accepted 1 _ _ => ({ s1 with fw := s1.fw.stage bs }).fwEnd 0x100
      | .accepted _ d body => ((s1.raiseFloor body).measure 2 (.digest d)).fwEnd 0)

/-! ## The identity key (R385) -/

def idSeed : List Byte := sha256 Config.pufResponse

/-- A tree's identifier, from its seed. -/
def treeId (seed : List Byte) : List Byte := (sha256 (seed ++ [1])).take 16

/-- The seed of second-level tree `j`. -/
def treeSeed (j : Nat) : List Byte := sha256 (idSeed ++ [2] ++ beBytes j 4)

/-- The identity key's HSS public key: 60 bytes (R386). -/
def identityKey : List Byte := beBytes 2 4 ++ lmsPub (treeId idSeed) idSeed

/-- The randomizer of a signature: 32 bytes that the manual does not fix. -/
def saltOf (level index : Nat) : List Byte := (Config.sigSalt level index ++ List.replicate 32 0).take 32

/-- The signature with an index: leaf index / 2^20 of the top tree signs the second-level tree, whose leaf index mod 2^20
signs the message. -/
def identitySign (index : Nat) (msg : List Byte) : List Byte :=
  let j := index / 2 ^ lmsHeight
  let seed := treeSeed j
  let pub := lmsPub (treeId seed) seed
  beBytes 1 4 ++ lmsSign (treeId idSeed) idSeed j (saltOf 0 j) pub ++ pub ++
    lmsSign (treeId seed) seed (index % 2 ^ lmsHeight) (saltOf 1 index) msg

/-! ## Measurements and the mailbox (R386) -/

def MeasItem.bytes : MeasItem → List Byte
  | .rom => (Config.romDigest ++ List.replicate 32 0).take 32
  | .factory => (Config.factoryDigest ++ List.replicate 32 0).take 32
  | .digest d => d
  | .hash b => sha256 b

/-- A measurement: 32 zero bytes, extended by each item in turn. -/
def measValue (items : List MeasItem) : List Byte :=
  items.foldl (fun m x => sha256 (m ++ x.bytes)) (List.replicate 32 0)

/-- Bytes 0 to 351 of a report with a signature index. -/
def State.reportBody (s : State) (index : Nat) : List Byte :=
  leBytes 1 4 ++ leBytes s.fw.recovery.toNat 4 ++ leBytes s.svnFloor.toNat 4 ++ leBytes 0 4 ++ leBytes index 8 ++ leBytes 0 8 ++
    s.fw.nonce ++ (List.range 8).flatMap (fun i => measValue (s.fw.meas.getD i [])) ++ sha256 identityKey

/-- The end of a mailbox operation: BUSY cleared, DONE, the output and its length. -/
def State.atEnd (s : State) (out : List Byte) : State :=
  { s with fw := { s.fw with atOp := none, out := out, atstat := BitVec.ofNat 64 (2 + out.length * 2 ^ 16) } }

/-- An operation refused: ERR, with no output. -/
def State.atError (s : State) : State :=
  { s with fw := { s.fw with atOp := none, out := [], atstat := 6 } }

/-- ATTEST_REPORT: GO with OP 0 where no operation is under way, and its end: the report, signed with the index that GO took;
once the key can sign nothing more, ERR. -/
def execAttestReport (s : State) : Host.Outcome State Fault Refusal :=
  let s1 := s.atctl 1
  .next (match s1.fw.atOp with
    | some 0 =>
      let body := s1.reportBody (s1.fw.sigIndex - 1)
      s1.atEnd (body ++ identitySign (s1.fw.sigIndex - 1) body)
    | some 3 => if s1.fw.spent then s1.atError else s1
    | _ => s1)

/-- IDENTITY_PUBLIC_KEY: GO with OP 1 where no operation is under way, and its end. -/
def execIdentityPublicKey (s : State) : Host.Outcome State Fault Refusal :=
  let s1 := s.atctl 3
  .next (match s1.fw.atOp with
    | some 1 => s1.atEnd identityKey
    | _ => s1)

/-- ATCTL_REFUSED: GO with OP 2 or 3 where no operation is under way, and its end. -/
def execAtctlRefused (op : BitVec 2) (s : State) : Host.Outcome State Fault Refusal :=
  let s1 := if 2 ≤ op.toNat then s.atctl (BitVec.ofNat 64 (1 + 2 * op.toNat)) else s
  .next (match s1.fw.atOp with
    | some 2 | some 3 => s1.atError
    | _ => s1)

end Sys2Proof.Machine
end

