-- ==== Sys2Proof/Machine/Fleet.lean ====
section
/-! DEFINITION. Power and duties (R388 to R390), hot cores (R301), telemetry (R391), and resets, the loss and the return of power
(R384, R385, R394 to R396). -/

namespace Sys2Proof.Machine

/-! ## Power (R388, R390) -/

/-- Degrees Celsius in the units of a sensor, 1/16 °C (R391). -/
def celsius (n : Nat) : Int := 16 * n

/-- The grant of an interval in 64ths, before requests: from the budget and the cores' draw at full duty, in mW (R388). -/
def coreGrant (budget draw : Nat) : Nat := max 8 (if draw ≤ budget then 64 else 64 * budget / draw)

/-- A duty request, held to 8/64 to 64/64. -/
def dutyRequest (d : Nat) : Nat := min 64 (max 8 d)

/-- A die's thermal limiting (log entry 40): whether it was limiting, and its sensor. A limited core's grant is halved at 100 °C, kept
from 97 °C on, and below that recovers by 8/64 an interval. -/
def limitedDuty (limiting : Bool) (temp : Int) (prev grant : Nat) : Nat :=
  if celsius 100 ≤ temp then min grant (max 8 (prev / 2))
  else if !limiting then grant
  else if celsius 97 ≤ temp then min grant prev
  else min grant (prev + 8)

/-- The duties of the 512 cores for an interval: in order, each core's previous duty and its new one beside its plain grant. -/
def State.newDuty (s : State) (g : Nat) (core : List (Nat × Nat)) (temps : List Int) (c : Nat) : Nat × Nat :=
  let grant := min g (dutyRequest (core.getD c (0, 64)).2)
  let d := coreDie c
  (limitedDuty (s.pwr.therm.getD d false) (temps.getD d 0) (s.core c).duty grant, grant)

/-- Bits CAPPED, THERM and DEGRADED (R387). -/
def pwrstOf (capped therm degraded : Bool) : W32 := BitVec.ofNat 32 (capped.toNat + 2 * therm.toNat + 4 * degraded.toNat)

/-- POWER_INTERVAL: the start of an interval, with the draws of the last one in mW, the cores' draws at full duty and requests,
and the sensors: the six dies, the twelve HBM stacks. -/
def execPowerInterval (vcore0 vcore1 vhome vhbm : Nat) (core : List (Nat × Nat)) (temps : List Int) (s : State) :
    Host.Outcome State Fault Refusal :=
  let cap := s.svc.pcapNew
  let draw := ((List.range 512).map (fun c => (core.getD c (0, 64)).1)).foldl (· + ·) 0
  let g := coreGrant (cap.toNat * 1000 - (vhome + vhbm) - 40000) draw
  let td := (List.range 6).map (fun d => temps.getD d (s.pwr.tempd.getD d 0))
  let tm := (List.range 12).map (fun k => temps.getD (6 + k) (s.pwr.tempm.getD k 0))
  let duties := (List.range 512).map (fun c => (c, s.newDuty g core td c))
  let capped := duties.any (fun e => decide (e.2.1 < dutyRequest (core.getD e.1 (0, 64)).2))
  let therm := (List.range 6).map (fun d =>
    let t := td.getD d 0
    decide (celsius 100 ≤ t) || (s.pwr.therm.getD d false &&
      (decide (celsius 97 ≤ t) || duties.any (fun e => coreDie e.1 == d && decide (e.2.1 < e.2.2)))))
  let s1 := duties.foldl (fun s e => if (s.core e.1).duty = e.2.1 then s else s.updCore e.1 (fun k => { k with duty := e.2.1 })) s
  .next { s1 with
    svc := { s1.svc with pcap := cap, pwrst := pwrstOf capped (therm.any id) s1.pwr.degraded }
    pwr := { s1.pwr with
      rails := [vcore0, vcore1, vhome, vhbm], pkgpwr := vcore0 + vcore1 + vhome + vhbm, tempd := td, tempm := tm, therm := therm,
      capcnt := if capped then s1.pwr.capcnt + 1 else s1.pwr.capcnt } }

/-- THERMAL_LIMIT: a die's hottest sensor reads 100 °C or more; a die that was not limiting halves its cores' duties. -/
def execThermalLimit (die : Nat) (temp : Int) (s : State) : Host.Outcome State Fault Refusal :=
  .next (if 6 ≤ die || temp < celsius 100 then s
  else
    let s1 := if s.pwr.therm.getD die false then s
      else ((List.range 512).filter (fun c => coreDie c == die)).foldl (fun s c =>
        s.updCore c (fun k => { k with duty := max 8 (k.duty / 2) })) s
    { s1 with
      pwr := { s1.pwr with therm := s1.pwr.therm.set die true, tempd := s1.pwr.tempd.set die temp }
      svc := { s1.svc with pwrst := s1.svc.pwrst ||| 2 } })

/-! ## Hot cores (R301) -/

/-- A core's sensor read: `coolSince` is the start of its stretch below 89 °C with no droop. -/
def CoreSt.sense (k : CoreSt) (now : Nat) (temp : Int) : CoreSt :=
  { k with temp := temp, coolSince := if celsius 89 ≤ temp || celsius 89 ≤ k.temp then now else k.coolSince }

/-- The droops of the last 100 µs. -/
def CoreSt.recent (k : CoreSt) (now : Nat) : List Nat := k.droops.filter (fun t => decide (now ≤ t + usCycles 100))

def CoreSt.judge (k : CoreSt) (now : Nat) : CoreSt :=
  { k with hot := k.hot || decide (celsius 95 ≤ k.temp) || decide (4 ≤ (k.recent now).length) }

/-- CORE_HOT: a core's sensor is read; at 95 °C, or with four droops within 100 µs, the core is hot. -/
def execCoreHot (core : Nat) (temp : Int) (s : State) : Host.Outcome State Fault Refusal :=
  .next (if 512 ≤ core then s else s.updCore core (fun k => (k.sense s.now temp).judge s.now))

/-- DROOP_EVENT. -/
def execDroopEvent (core : Nat) (s : State) : Host.Outcome State Fault Refusal :=
  .next (if 512 ≤ core then s
  else
    let s1 := s.updCore core (fun k => ({ k with droops := s.now :: k.recent s.now, coolSince := s.now }).judge s.now)
    { s1 with pwr := { s1.pwr with droop := s1.pwr.droop + 1 } })

/-- CORE_COOL: a core's sensor is read; after 2 ms below 89 °C with no droop the core is no longer hot. -/
def execCoreCool (core : Nat) (temp : Int) (s : State) : Host.Outcome State Fault Refusal :=
  .next (if 512 ≤ core then s else s.updCore core (fun k =>
    let k1 := k.sense s.now temp
    if celsius 89 ≤ temp then k1.judge s.now
    else if k1.coolSince + usCycles 2000 ≤ s.now then { k1 with hot := false } else k1))

/-! ## Telemetry (R391) -/

/-- 64 bits of a predicate on core numbers. -/
def coreBits (w : Nat) (f : Nat → Bool) : Nat := (List.range 64).foldl (fun v k => if f (64 * w + k) then v + 2 ^ k else v) 0

/-- A sensor's 16 bits. -/
def tempBits (t : Int) : Nat := (BitVec.ofInt 16 t).toNat

/-- An item as it reads now. -/
def State.tlmItem (s : State) (i : Nat) : W64 :=
  let p := s.pwr
  let watts (k : Nat) : Nat := p.rails.getD k 0 / 1000 % 2 ^ 16
  BitVec.ofNat 64 (
    if i = 0x000 then p.pkgpwr
    else if i = 0x001 then watts 0 + watts 1 * 2 ^ 16 + watts 2 * 2 ^ 32 + watts 3 * 2 ^ 48
    else if i = 0x002 then p.capcnt.toNat
    else if i = 0x003 then p.tripcnt.toNat
    else if 0x010 ≤ i ∧ i ≤ 0x015 then tempBits (p.tempd.getD (i - 0x010) 0)
    else if 0x018 ≤ i ∧ i ≤ 0x023 then tempBits (p.tempm.getD (i - 0x018) 0)
    else if 0x040 ≤ i ∧ i ≤ 0x047 then coreBits (i - 0x040) (fun c => (s.core c).hot)
    else if 0x048 ≤ i ∧ i ≤ 0x04F then coreBits (i - 0x048) (fun c => (s.core c).oos)
    else if i = 0x050 then p.droop.toNat
    else if i = 0x060 then (List.range 48).foldl (fun v k => if (s.chan k).up then v + 2 ^ k else v) 0
    else if i = 0x061 then p.retrain.toNat
    else if i = 0x062 then s.dom.linkst
    else if i = 0x063 then (List.range 4).foldl (fun v d => if s.dieFailed d then v + 2 ^ d else v) 0
    else 0)

/-- TLMLO_READ: the whole item is latched, and its low half is read. -/
def execTlmloRead (s : State) : Host.Outcome State Fault Refusal :=
  let x := s.tlmItem (fld s.svc.tlmidx.toNat 0 16)
  .next { s with svc := { s.svc with latch := x }, rdata := BitVec.ofNat 64 (fld x.toNat 0 32) }

/-! ## Resets (R394 to R396) -/

/-- The slots after a reset: a pending image comes first; the slot that an update was being written to is invalid (R393, R396). -/
def Fw.settleSlots (f : Fw) (pending : Bool) : Fw :=
  let f1 : Fw := if f.fwBusy then (if f.recovery || !f.runPrimary then { f with primary := .empty } else { f with backup := .empty }) else f
  if pending && f.runPrimary && !f.recovery && !f.fwBusy then { f1 with primary := f1.backup, backup := f1.primary } else f1

/-- The machine with every register at its reset value and memory zero (R394). What stays: the slots, the floor, the signature
index, TRIPCNT; the sensors; what has already left the package, and what is outside it. -/
def State.wiped (s : State) : State :=
  let f := s.fw.settleSlots (s.svc.fwstat.getLsbD 8)
  { State.reset with
    agenda := s.agenda
    nextId := s.nextId
    irqs := s.irqs
    outReqs := (s.outReqs.filter (fun r => r.2.what == 1 && r.2.pkt == 0)).map (fun (r : Nat × OutReq) => (r.1, { r.2 with since := 0 }))
    swr := Tab.mapV s.swr (fun _ g => { g with rounds := g.rounds.map (fun (r : SwrRound) => { r with start := 0 }) })
    cores := Tab.mapV s.cores (fun _ k => { CoreSt.init with temp := k.temp, hot := decide (celsius 95 ≤ k.temp) })
    fw := { Fw.init with primary := f.primary, backup := f.backup, floor := f.floor, sigIndex := f.sigIndex }
    pwr := { Pwr.init with tripcnt := s.pwr.tripcnt, tempd := s.pwr.tempd, tempm := s.pwr.tempm } }

/-- The probes (R395): a core, a cluster unit by a number from 512 on, home dies. -/
def State.probe (s : State) (failedCores failedHomes : List Nat) : State :=
  let s1 := failedCores.foldl (fun s c =>
    if c < 512 then s.updCore c (fun k => { k with oos := true })
    else if c < 640 then (clusterCores (c - 512)).foldl (fun s k => s.updCore k (fun v => { v with oos := true }))
      (s.updCluster (c - 512) (fun v => { v with oos := true }))
    else s) s
  let dies := failedHomes.filter (fun h => decide (h < 4))
  let s2 := dies.foldl (fun s h => s.setHome h { s.home h with failed := true }) s1
  if dies.isEmpty then s2
  else { s2 with pwr := { s2.pwr with degraded := true }, svc := { s2.svc with pwrst := pwrstOf false false true } }

/-- A package reset: the state wiped, the probes, the ROM. -/
def State.rebooted (s : State) (failedCores failedHomes : List Nat) : State := (s.wiped.probe failedCores failedHomes).romBoot

/-- RSTCTL resets with bit 0 and the key 0xA5 (R387, R394). -/
def resetKey (v : W32) : Bool := v.getLsbD 0 && fld v.toNat 8 8 == 0xA5

/-- PACKAGE_RESET: a write to RSTCTL. -/
def execPackageReset (v : W32) (failedCores failedHomes : List Nat) (s : State) : Host.Outcome State Fault Refusal :=
  .next (if resetKey v then s.rebooted failedCores failedHomes else s)

/-- CXL_RESET: a conventional reset performs the same reset. -/
def execCxlReset (failedCores failedHomes : List Nat) (s : State) : Host.Outcome State Fault Refusal :=
  .next (s.rebooted failedCores failedHomes)

/-- REGISTER_WRITE: any register by its place (R4, R374, R387); a write that resets finds every probe passed. -/
def execRegisterWrite (bar off size : Nat) (v : W64) (s : State) : Host.Outcome State Fault Refusal :=
  let w : BusW := { word := off / 8 * 8, sh := off % 8, n := size, v := v.toNat }
  let legal := (size == 1 || size == 2 || size == 4 || size == 8) && off % size == 0
  .next (if bar = 1 && legal && w.word = 0x30 && w.sh = 0 && resetKey (BitVec.ofNat 32 w.alone.toNat) then s.rebooted [] []
  else s.regWrite bar off size v.toNat)

/-- A launch that a thermal trip killed: its completion word, where its address translates, and its interrupt (R297, R390). -/
def State.tripComplete (s : State) (l : Launch) : State :=
  let word := l.tag * 2 ^ 32 + l.detail % 65536 * 2 ^ 16 + l.status
  let s1 := if l.donea = 0 || 2 ^ 57 ≤ l.donea then s else match s.engXlate l.asid l.donea 1 with
    | .ok s1 pa => s1.physWrite pa (leBytes word 8)
    | _ => s
  if l.irq then s1.raiseIrq (s1.queue l.queue).vec else s1

/-- THERMAL_TRIP (R390): a sensor at 110 °C kills every launch with DETAIL 15, and the package resets; an update under way is
abandoned and marks no slot (R396). -/
def execThermalTrip (temp : Int) (s : State) : Host.Outcome State Fault Refusal :=
  .next (if temp < celsius 110 then s
  else
    let s1 := (Tab.keys s.launches).foldl (fun s k => s.killLaunch k 15) s
    let s2 := s1.launches.foldl (fun s l => s.tripComplete l.2) s1
    let s3 : State := { s2 with fw := { s2.fw with fwBusy := false }, pwr := { s2.pwr with tripcnt := s2.pwr.tripcnt + 1 } }
    s3.rebooted [] [])

/-- POWER_LOSS (R385): everything but the nonvolatile storage is lost; a signature index already taken is skipped. -/
def execPowerLoss (s : State) : Host.Outcome State Fault Refusal :=
  let t := s.wiped
  .next { t with cores := [], pwr := { Pwr.init with tripcnt := t.pwr.tripcnt, off := true } }

/-- POWER_ON (R384): the package without power starts as after a package reset. -/
def execPowerOn (failedCores failedHomes : List Nat) (s : State) : Host.Outcome State Fault Refusal :=
  .next (if s.pwr.off then s.rebooted failedCores failedHomes else s)

end Sys2Proof.Machine
end

