-- ==== Sys2Proof/Machine/Outside.lean ====
section
/-! DEFINITION. The world outside the package: host lines and snoops (R373, R375), reads and writes of device memory from outside,
with hard holds (R377 to R379), the pool (R380), the domain (R381). -/

namespace Sys2Proof.Machine

/-! ## Requests that fail (R373, R380, R381) -/

/-- The virtual pages by which a unit reaches a physical address. -/
def State.pagesTo (s : State) (u : Agent) (asid pa : Nat) : List Nat :=
  ((s.tlbOf u).filter (fun t => t.asid == asid && decide (t.pa ≤ pa) && decide (pa < t.pa + pageSize t.lvl))).map
    (fun t => (t.va + (pa - t.pa)) / 65536)

def walkFails (pages kinds : List Nat) (how : Nat) : List WalkFail :=
  pages.flatMap (fun p => kinds.map (fun k => { va := p, kind := k, how := how }))

/-- The next try of a crew's word finds the page of a physical address failing. -/
def State.failCrew (s : State) (key pa how : Nat) (kinds : List Nat) : State :=
  match s.crew key with
  | none => s
  | some c => s.setCrew key { c with walks := c.walks ++ walkFails (s.pagesTo (.core c.core) (s.gangAsid (keyGid key)) pa) kinds how }

/-- A refused request of a unit that is no crew: pumps and management cores find the page failing, and crews that fetch from it; an
engine finds the line's mark (log entry 36). -/
def State.failOthers (s : State) (pa how : Nat) : State :=
  let s1 : State := { s with
    gangs := Tab.mapV s.gangs (fun gid g => { g with pump := g.pump.map (fun (p : Pump) =>
      { p with walks := p.walks ++ walkFails (s.pagesTo (.core g.core) (s.gangAsid gid) pa) [0, 1, 2, 3] how }) })
    clusters := Tab.mapV s.clusters (fun k v =>
      let mc : Mgmt := { v.mc with walks := v.mc.walks ++ walkFails (s.pagesTo (.mgmt k) (s.mgmtAsid k) pa) [0, 1, 2, 3] how }
      if v.mc.crew.isSome then { v with mc := mc } else v) }
  let s2 := (Tab.keys s1.crews).foldl (fun s key => s.failCrew key pa how [3]) s1
  let k := s2.farPort pa
  let b := s2.farAgent k
  if s2.cmds.isEmpty && s2.cmbSlots.isEmpty || (Tab.get b.lines (pa / 64)).isSome then s2
  else
    let mark : FarLine := { st := 4, bytes := [], wts := [0, 0], rts := [0, 0], gr := 0, poison := [] }
    s2.setFarAgent k { b with lines := Tab.set b.lines (pa / 64) mark }

/-- Whether a packet that waits at a bridge or the domain agent needs a line for its request. -/
def Pkt.needs (p : Pkt) (block : Nat) (own : Bool) : Bool :=
  match p.kind with
  | .renew _ => !own && (farBlocks p.line ((List.range (8 * p.cnt)).map (· + 8 * p.first))).contains block
  | .write | .wb => own && (farBlocks p.line (p.bytes.map Prod.fst)).contains block
  | .atom _ _ _ _ => own && (farBlocks p.line (atomOffsets p.ops)).contains block
  | _ => false

/-- A request for a line is refused or lost: what waits for it ends. `how` is 0 for a place that cannot be reached, 1 for a
refusal. -/
def State.farFailed (s : State) (r : OutReq) (how : Nat) : State :=
  let own := r.what == 2
  let kinds := if own then [1, 2] else [0, 2]
  let ps := s.net.filter (fun e => e.2.place == .server && e.2.needs r.addr own)
  let s1 := ps.foldl (fun s e => (s.failPkt e.1 e.2).failCrew e.2.crew r.addr how kinds) s
  let gone (id : Nat) : Bool := ps.any (fun e => e.1 == id)
  let kids := (s1.combs.filter (fun c => gone c.pkt)).flatMap (·.absorbed)
  let s2 := kids.foldl (fun s id => match Tab.get s.net id with
    | some p => s.failPkt id p
    | none => s) { s1 with combs := s1.combs.filter (fun c => !gone c.pkt) }
  if r.entry < 4 then s2.failCrew r.crew r.addr how kinds else s2.failOthers r.addr how

/-! ## Lines of the host and of peers (R375, R381) -/

/-- An agent's line given up: DirtyEvict or CleanEvict, and the clock passes every lease granted on it; poison goes out with dirty
bytes (R344). -/
def State.evictFar (s : State) (k line : Nat) : State :=
  let b := s.farAgent k
  match Tab.get b.lines line with
  | none => s
  | some l =>
    let s1 := s.setFarAgent k { b with lines := Tab.erase b.lines line, clock := Ts.smax b.clock (l.gr + 1) }
    if l.st = 3 then
      let s2 := s1.ask { port := k, addr := line * 64, what := 1, since := s.now, pkt := 0, crew := 0, entry := 4,
                         bytes := Cells.bytes l.bytes 0 64, poison := !l.poison.isEmpty, dtid := l.dtid }
      if !l.poison.isEmpty then s2.linkRecord k (line * 64) 9 else s2
    else if l.st = 0 || l.st = 4 then s1
    else s1.ask { port := k, addr := line * 64, what := 4, since := s.now, pkt := 0, crew := 0, entry := 4, bytes := [],
                   dtid := l.dtid }

/-- A line comes in, for a request that it answers: 16,384 are held at most; which one is evicted for it, the manual leaves open. -/
def State.fillFar (s : State) (k line st dtid : Nat) (bytes : List Byte) (poison : Bool) : State :=
  let b0 := s.farAgent k
  let old := match Tab.get b0.lines line with | some l => if l.st = 0 || l.st = 4 then none else some l | none => none
  let s0 := match old, b0.lines with
    | none, e :: _ => if 16384 ≤ b0.lines.length then s.evictFar k e.1 else s
    | _, _ => s
  let b := s0.farAgent k
  let v : FarLine := match old with
    | some l => { l with st := if l.st < st then st else l.st }
    | none => { st := st, bytes := Cells.putBytes [] 0 ((bytes ++ List.replicate 64 0).take 64), wts := [b.clock, b.clock],
                rts := [b.clock, b.clock], gr := b.clock, poison := (if poison then [0, 1] else []), dtid := dtid }
  let s1 := s0.setFarAgent k { b with lines := Tab.set b.lines line v }
  if poison && old.isNone then s1.linkRecord k (line * 64) 10 else s1

def State.dropReq (s : State) (id : Nat) : State := { s with outReqs := Tab.erase s.outReqs id }

/-- HOST_GRANT: the host's answer to RdShared, RdOwn or ItoMWr for a line of host memory; the oldest request for it is answered,
and what waits is served with its own event. -/
def execHostGrant (port line : Nat) (excl : Bool) (bytes : List Byte) (poison : Bool) (s : State) :
    Host.Outcome State Fault Refusal :=
  let pl := 2 ^ 42 + line
  .next (match s.outReqs.find? (fun r => r.2.port == port && r.2.addr == pl * 64 && (r.2.what == 0 || r.2.what == 2)) with
    | none => s
    | some (id, r) =>
      if 2 ≤ port || 2 ^ 42 ≤ line || !(s.bridge port).up then s
      else (s.dropReq id).fillFar port pl (if r.what = 2 || excl then 2 else 1) 0 bytes poison)

/-- Whether the narrow holds on a far line are gone; if not, their holders are asked for their bytes (R357, R375). -/
def State.recallFar (s : State) (d : Dest) (line : Nat) : State × Bool :=
  let hs := (s.nhtOf d).filter (fun h => h.line == line)
  (hs.foldl (fun s h => if h.asked then s else s.sendRecall d h (!(s.part h.part).mm)) s, hs.isEmpty)

/-- A snoop, or a peer's recall, of a line that an agent holds: 0 invalidates, 1 shares, 2 looks. -/
def State.snoop (s : State) (k : Nat) (d : Dest) (line mode : Nat) : State :=
  let r := s.recallFar d (line / 2)
  if !r.2 then r.1
  else
    let b := r.1.farAgent k
    match Tab.get b.lines line with
    | none => { r.1 with sent := .ack }
    | some l =>
      let bytes := Cells.bytes l.bytes 0 64
      let b1 : Bridge := match mode with
        | 0 => { b with lines := Tab.erase b.lines line, clock := Ts.smax b.clock (l.gr + 1) }
        | 1 => { b with lines := Tab.set b.lines line { l with st := 1 }, clock := Ts.smax b.clock (l.gr + 1) }
        | _ => b
      let s1 := r.1.setFarAgent k b1
      if l.st = 4 then { s1 with sent := .ack }
      else if l.st = 3 || mode = 2 then
        let s2 := if l.poison.isEmpty then s1 else s1.linkRecord k (line * 64) 9
        { s2 with sent := .data bytes (!l.poison.isEmpty) }
      else { s1 with sent := .ack }

/-- SNPINV: `line` numbers the 64-byte lines of host memory. -/
def execSnpinv (port line : Nat) (s : State) : Host.Outcome State Fault Refusal :=
  .next (if port < 2 then s.snoop port (.port port) (2 ^ 42 + line) 0 else s)
/-- SNPDATA. -/
def execSnpdata (port line : Nat) (s : State) : Host.Outcome State Fault Refusal :=
  .next (if port < 2 then s.snoop port (.port port) (2 ^ 42 + line) 1 else s)
/-- SNPCUR. -/
def execSnpcur (port line : Nat) (s : State) : Host.Outcome State Fault Refusal :=
  .next (if port < 2 then s.snoop port (.port port) (2 ^ 42 + line) 2 else s)

/-- DOMAIN_RECALL: a peer's recall of its line that the domain agent holds; `line` numbers the 64-byte lines of physical
addresses. -/
def execDomainRecall (line : Nat) (s : State) : Host.Outcome State Fault Refusal :=
  .next (match s.target (line * 64) with
    | .peer p _ => s.snoop 2 (.peer p) line 0
    | _ => s)

/-! ## Device memory reached from outside (R377 to R379) -/

/-- The inbound `pts` of an agent: a host's is its bridge's clock; a peer's is kept by the domain agent, from its clock on. -/
def State.inPts (s : State) (agent : Nat) : Ts :=
  if agent < 2 then (s.bridge agent).clock else Tab.getD s.dom.inPts (agent - 2) s.dom.agent.clock
def State.raiseIn (s : State) (agent : Nat) (w : Ts) : State :=
  if agent < 2 then s.setBridge agent { s.bridge agent with clock := Ts.smax (s.bridge agent).clock w }
  else { s with dom := { s.dom with inPts := Tab.set s.dom.inPts (agent - 2) (Ts.smax (s.inPts agent) w) } }

/-- The hard holds of a 64-byte line. -/
def State.hardOf (s : State) (l64 : Nat) : List HardHold := (s.slice (s.servSlice (l64 / 2))).hard.filter (fun h => h.line == l64)

def State.mapHard (s : State) (l64 : Nat) (f : List HardHold → List HardHold) : State :=
  s.updSlice (s.servSlice (l64 / 2)) (fun v => { v with hard := f v.hard })

/-- The holds that an agent's access of a line meets ended, its own apart (R357, R378); false while a holder must answer. -/
def State.clearOwn (s : State) (agent line : Nat) (write : Bool) : State × Bool :=
  let n := s.servSlice line
  let mine (h : HardHold) : Bool := h.agent == agent && h.line / 2 == line
  let own := (s.slice n).hard.filter mine
  let s0 := s.updSlice n (fun v => { v with hard := v.hard.filter (fun h => !mine h) })
  let r := s0.clearLine line write false none
  (r.1.updSlice n (fun v => { v with hard := v.hard ++ own }), r.2)

def State.clearOwnRange (s : State) (agent o n : Nat) (write : Bool) : State × Bool :=
  let r0 := if write then s.ctrSyncRange o n else (s, true)
  (linesOf o n).foldl (fun acc l => let r := acc.1.clearOwn agent l write; (r.1, acc.2 && r.2)) r0

/-- Whom an inbound access serves, for error records: of a peer, the address space and the virtual address. -/
def State.inFinder (s : State) (asid va : Nat) : Finder := { Finder.nobody with va := va, asid := asid, part := s.asidPart asid }

/-- The agent of a link's record. -/
def inPort (agent : Nat) : Nat := if agent < 2 then agent else 2

/-- An inbound read (R377): the current bytes, and whether they go out poisoned (R344, R378); none while a hold must end. -/
def State.inRead (s : State) (agent o n : Nat) (f : Finder := Finder.nobody) : State × Option (List Byte × Bool) :=
  if s.lostRange o n then (s, some (List.replicate n 0, true))
  else
    let r := s.clearOwnRange agent o n false
    if !r.2 then (r.1, none)
    else
      let c := r.1.checkRange o n f
      let s1 := match (sectorsOf o n).find? c.1.secPoison with
        | some k => c.1.linkRecord (inPort agent) (k * 32) 9
        | none => c.1
      (s1, some (Cells.bytes s1.mem o n, c.2))

/-- An inbound write (R377): performed at the home with the agent's inbound `pts`, which takes its w; a lost line drops it. False
while a hold must end. -/
def State.inWrite (s : State) (agent o : Nat) (bs : List Byte) (f : Finder := Finder.nobody) : State × Bool :=
  if s.lostRange o bs.length then (s, true)
  else
    let r := s.clearOwnRange agent o bs.length true
    if !r.2 then (r.1, false)
    else
      let w := r.1.devWrite o bs (s.inPts agent) f
      (w.1.raiseIn agent w.2, true)

/-- Poison that comes in with written bytes goes into their sectors, and is recorded (R344). -/
def State.inPoison (s : State) (agent o n : Nat) : State :=
  let secs := (sectorsOf o n).filter (fun k => !s.lost (k / 4))
  let s1 : State := { s with poison := secs ++ s.poison.filter (fun k => !secs.contains k) }
  let s2 := secs.foldl (fun s k => s.mirrorSectors (k / 4) [k % 4] ((s.slice (s.servSlice (k / 4))).ts k).1) s1
  match secs with
  | k :: _ => s2.linkRecord (inPort agent) (k * 32) 10
  | [] => s2

/-- A hard hold recorded for an agent (R378): 1,024 in a slice, the oldest of a full table asked for first; other agents' holds that
exclude it are asked for. False while one must answer. -/
def State.addHard (s : State) (agent l64 : Nat) (excl : Bool) : State × Bool :=
  let others := (s.hardOf l64).filter (fun h => h.agent != agent && (excl || h.excl))
  if !others.isEmpty then (s.askHard (l64 / 2) excl, false)
  else
    let new : HardHold := { line := l64, agent := agent, excl := excl, asked := none, inv := false, beat := s.now }
    let mine (h : HardHold) : Bool := h.line == l64 && h.agent == agent
    if (s.hardOf l64).any mine then
      (s.mapHard l64 (fun l => l.map (fun h => if mine h then { h with excl := h.excl || excl, beat := s.now } else h)), true)
    else match (s.slice (s.servSlice (l64 / 2))).hard with
      | h :: _ =>
        if 1024 ≤ (s.slice (s.servSlice (l64 / 2))).hard.length then
          (if h.asked.isSome then s else s.mapHard l64 (fun l => l.map (fun x =>
            if x == h then { x with asked := some s.now, inv := true } else x)), false)
        else (s.mapHard l64 (fun l => l ++ [new]), true)
      | [] => (s.mapHard l64 (fun l => l ++ [new]), true)

/-- HOST_MEMRD: a host reads device memory, with a hold when it asks for a cached copy, E for true. -/
def execHostMemrd (port addr n : Nat) (hold : Option Bool) (s : State) : Host.Outcome State Fault Refusal :=
  .next (if 2 ≤ port || devSize < addr + n || n = 0 || 64 < addr % 64 + n then s
  else match hold with
    | none => (match s.inRead port addr n with
      | (s1, some (bs, po)) => { s1 with sent := .data bs po }
      | (s1, none) => s1)
    | some excl =>
      if s.lostRange addr n then { s with sent := .data (List.replicate n 0) true }
      else match s.inRead port addr n with
        | (s1, none) => s1
        | (s1, some (bs, po)) => match s1.addHard port (addr / 64) excl with
          | (s2, false) => s2
          | (s2, true) => { s2 with sent := .data bs po })

/-- HOST_MEMWR: an inbound write, or the write-back of a line that the host holds, which then ends the hold or keeps it shared
(R377, R378). The write-back of an expired hold is dropped (R379); poison goes into the sectors (R344). -/
def execHostMemwr (port addr : Nat) (bytes : List Byte) (wb keep poison : Bool) (s : State) : Host.Outcome State Fault Refusal :=
  let l64 := addr / 64
  let mine (h : HardHold) : Bool := h.line == l64 && h.agent == port
  .next (if 2 ≤ port || devSize < addr + bytes.length || bytes.isEmpty || 64 < addr % 64 + bytes.length then s
  else if wb && !(s.hardOf l64).any (fun h => mine h && h.excl) then s
  else match s.inWrite port addr bytes with
    | (s1, false) => s1
    | (s1, true) =>
      let s2 := if poison then s1.inPoison port addr bytes.length else s1
      let s3 := if !wb then s2
        else if keep then s2.mapHard l64 (fun l => l.map (fun h => if mine h then { h with excl := false } else h))
        else s2.mapHard l64 (fun l => l.filter (fun h => !mine h))
      { s3 with sent := .ack })

/-- BISNP_RESPONSE: an answer to a back-invalidate or a domain recall, with the agent's dirty data of the 64-byte line, which is
performed as its WRITE, poisoned when the second part says so (R344); the hold ends, or becomes S (R378). -/
def execBisnpResponse (slice line : Nat) (dirty : Option (List Byte × Bool)) (s : State) : Host.Outcome State Fault Refusal :=
  .next (if s.servSlice (line / 2) ≠ slice then s
  else match (s.hardOf line).find? (fun h => h.asked.isSome) with
    | none => s
    | some h =>
      let w := match dirty with
        | some (bs, _) => s.inWrite h.agent (line * 64) ((bs ++ List.replicate 64 0).take 64)
        | none => (s, true)
      if !w.2 then w.1
      else
        let s1 := if (match dirty with | some (_, po) => po | none => false) then w.1.inPoison h.agent (line * 64) 64 else w.1
        s1.mapHard line (fun l => if h.inv || !h.excl then l.filter (· != h)
        else l.map (fun x => if x == h then { x with excl := false, asked := none } else x)))

/-- HEARTBEAT: an agent's link agent renews all its holds (R379). -/
def execHeartbeat (agent : Nat) (s : State) : Host.Outcome State Fault Refusal :=
  .next { s with slices := Tab.mapV s.slices (fun _ v => { v with hard := v.hard.map (fun h =>
    if h.agent = agent then { h with beat := s.now } else h) }) }

/-- HARD_HOLD_EXPIRY (R379): 50 µs without a heartbeat end the agent's holds of the 64 KiB region; 2 µs without an answer end the
hold. One record is written. -/
def execHardHoldExpiry (slice line : Nat) (s : State) : Host.Outcome State Fault Refusal :=
  let still (h : HardHold) : Bool := decide (h.beat + usCycles 50 ≤ s.now)
  let mute (h : HardHold) : Bool := match h.asked with | some t => decide (t + usCycles 2 ≤ s.now) | none => false
  .next (if s.servSlice (line / 2) ≠ slice then s
  else match (s.hardOf line).find? (fun h => still h || mute h) with
    | none => s
    | some h =>
      let gone (x : HardHold) : Bool := x == h || (still h && still x && x.agent == h.agent && x.line / 1024 == h.line / 1024)
      let s1 : State := { s with slices := Tab.mapV s.slices (fun _ v => { v with hard := v.hard.filter (fun x => !gone x) }) }
      s1.errRecord (line / 1024 * 65536) 0 1 (if h.agent < 2 then h.agent else 0x100 + (h.agent - 2)) 2
        (if h.agent < 2 then h.agent else 20) 0xFFF 0 0 0 8)

/-! ## The pool (R380) -/

/-- The pool target of a physical address. -/
def State.poolOf (s : State) (pa : Nat) : Option Nat := match s.target pa with | .pool k _ => some k | _ => none

/-- A side of a target marked dead: 0 the primary, 1 the mirror. -/
def State.sideDead (s : State) (k side : Nat) : State :=
  let p := s.poolReg k
  { s with pools := s.pools.set k { p with stat := p.stat ||| (if side = 0 then 1 else 2) } }

/-- Whether every side of a target is dead. -/
def State.poolDead (s : State) (k : Nat) : Bool :=
  let p := s.poolReg k
  p.stat.getLsbD 0 && (!p.dev.getLsbD 1 || p.stat.getLsbD 1)

/-- A write or an atomic of the pool is acknowledged when its last side has answered; an atomic that no side has performed fails. -/
def State.poolAck (s : State) (pkt : Nat) : State :=
  match Tab.get s.net pkt with
  | none => s
  | some p =>
    if s.outReqs.any (fun r => r.2.pkt == pkt && (r.2.what == 1 || r.2.what == 3)) then s
    else match p.kind with
      | .atom _ _ _ _ =>
        s.reply pkt { p with kind := .ack p.pts, poison := if p.ans.isEmpty then p.ops.map (·.1) else p.poison }
      | _ => s.reply pkt { p with kind := .ack p.pts }

/-- The old values that a side returns, in the order of the offsets: the answers of the lanes, and the bytes left. -/
def poolAnswer (p : Pkt) (bytes : List Byte) : Pkt :=
  match p.kind with
  | .atom op cas ty _ =>
    let n := ty.bits / 8
    let offs := atomOffsets p.ops
    let get (o : Nat) : Byte := (offs.zip (List.range offs.length)).foldl (fun b e =>
      if e.1 ≤ o && o < e.1 + n then bytes.getD (e.2 * n + (o - e.1)) 0 else b) 0
    let g := atomGroups op cas ty p.ops get
    { p with ans := g.1, bytes := LineBytes.mk g.2 }
  | _ => p

/-- A pool request of a target answered by one side. -/
def State.poolDone (s : State) (id : Nat) (r : OutReq) (ok poison : Bool) (bytes : List Byte) : State :=
  let s0 := s.dropReq id
  match s.poolOf r.addr with
  | none => s0.poolAck r.pkt
  | some k =>
    if r.what = 0 then
      let side := if (s.poolReg k).stat.getLsbD 0 then 1 else 0
      if ok then s0.fillFar (s0.farPort r.addr) (r.addr / 64) 1 0 bytes poison
      else
        let s1 := s0.sideDead k side
        if s1.poolDead k then s1.farFailed r 0 else s1
    else
      let s1 := if ok then s0 else s0.sideDead k r.entry
      let s2 := match Tab.get s1.net r.pkt with
        | some p =>
          if ok && r.what = 3 && p.ans.isEmpty then
            if poison then s1.linkRecord (inPort r.port) r.addr 10
            else { s1 with net := Tab.set s1.net r.pkt (poolAnswer p bytes) }
          else s1
        | none => s1
      s2.poolAck r.pkt

/-- POOL_COMPLETION: a pool request, or a posted write to memory outside, completes. -/
def execPoolCompletion (req : Nat) (ok poison : Bool) (bytes : List Byte) (s : State) : Host.Outcome State Fault Refusal :=
  .next (match Tab.get s.outReqs req with
    | none => s
    | some r =>
      if r.what = 4 then s.dropReq req
      else if (r.what == 0 && (s.poolOf r.addr).isSome) || r.what == 1 || r.what == 3 then s.poolDone req r ok poison bytes else s)

/-- POOL_SIDE_TIMEOUT: 10 ms without an answer. -/
def execPoolSideTimeout (req : Nat) (s : State) : Host.Outcome State Fault Refusal :=
  .next (match Tab.get s.outReqs req with
    | none => s
    | some r =>
      if (s.poolOf r.addr).isSome && (r.what == 0 || r.what == 1 || r.what == 3) && r.since + usCycles 10000 ≤ s.now then
        s.poolDone req r false false []
      else s)

/-! ## CXL ports (R373) -/

/-- The packets that wait at a port go to the live one. -/
def State.moveServers (s : State) : State :=
  { s with net := Tab.mapV s.net (fun _ p => match p.dst with
    | .port _ =>
      let d := s.destOf p.line
      if p.place = .server && p.dst ≠ d then { p with dst := d, place := d.place } else { p with dst := d }
    | _ => p) }

/-- CXL_PORT_DOWN: requests in flight fail as those of a failed pool side; the host takes back the lines that the port's bridge
held (log entry 37). -/
def execCxlPortDown (port : Nat) (s : State) : Host.Outcome State Fault Refusal :=
  .next (if 2 ≤ port || !(s.bridge port).up then s
  else
    let b := s.bridge port
    let top := b.lines.foldl (fun (t : Ts) l => Ts.smax t (l.2.gr + 1)) b.clock
    let o := s.bridge (1 - port)
    let s1 := (s.setBridge port { b with up := false, clock := top, lines := [], nht := [] }).setBridge (1 - port)
      { o with clock := Ts.smax o.clock top, nht := o.nht ++ b.nht }
    let mine := s.outReqs.filter (fun r => r.2.port == port && decide (r.2.what < 4))
    let s2 := mine.foldl (fun s r =>
      if r.2.what = 2 || (r.2.what = 0 && (s.poolOf r.2.addr).isNone) then (s.dropReq r.1).farFailed r.2 0
      else s.poolDone r.1 r.2 false false []) s1
    if s2.cxlUp then s2.moveServers
    else (s2.net.filter (fun p => match p.2.dst with | .port _ => true | _ => false)).foldl (fun s p => s.failPkt p.1 p.2) s2)

/-- CXL_PORT_UP. -/
def execCxlPortUp (port : Nat) (s : State) : Host.Outcome State Fault Refusal :=
  .next (if 2 ≤ port || (s.bridge port).up then s
  else (s.setBridge port { s.bridge port with up := true }).moveServers)

/-! ## The domain (R381) -/

/-- An answer to a peer. -/
def State.nack (s : State) : State := { s with sent := .nack }

/-- The device pieces of a virtual range of an inbound access. -/
inductive InAt where
  | at (s : State) (ps : List (Nat × Nat))
  | nack (s : State)
  | later (s : State)
  deriving DecidableEq, Repr

/-- R381: translated under the local address space; a page marked HELD, and memory that is not this MZ-40's, is refused. -/
def State.inXlate (s : State) (asid va n kind : Nat) : InAt :=
  match s.engRange asid va n kind with
  | .fail s1 => .nack s1
  | .held s1 _ => .nack s1
  | .later s1 => .later s1
  | .ok s1 ps => if ps.all (fun p => match s1.target p.1 with | .dev _ => true | _ => false) then .at s1 ps else .nack s1

/-- Pieces read by a peer. -/
def State.inReadAll (s : State) (agent : Nat) (ps : List (Nat × Nat)) (f : Finder) : State × Option (List Byte × Bool) :=
  ps.foldl (fun acc p => match acc with
    | (s, some (bs, po)) => (match s.inRead agent p.1 p.2 (f.shift bs.length) with
      | (s1, some (b1, p1)) => (s1, some (bs ++ b1, po || p1))
      | (s1, none) => (s1, none))
    | a => a) (s, some ([], false))

/-- Pieces written by a peer, when all of them can be, poisoned when they come so. -/
def State.inWriteAll (s : State) (agent : Nat) (ps : List (Nat × Nat)) (bs : List Byte) (poison : Bool) (f : Finder) : State × Bool :=
  let r := ps.foldl (fun (a : State × Bool) p => let r := a.1.clearOwnRange agent p.1 p.2 true; (r.1, a.2 && r.2)) (s, true)
  if !r.2 then r
  else
    let w := ps.foldl (fun (a : State × List Byte) p =>
      ((a.1.inWrite agent p.1 (a.2.take p.2) (f.shift (bs.length - a.2.length))).1, a.2.drop p.2)) (r.1, bs)
    (if poison then ps.foldl (fun s p => s.inPoison agent p.1 p.2) w.1 else w.1, true)

/-- A peer's atomic (R377, R192, R193). -/
def State.inAtom (s : State) (agent o op : Nat) (cas : Bool) (ty : Ty) (x new : Nat) (f : Finder) : State :=
  let n := ty.bits / 8
  if s.lostRange o n then { s with sent := .data (List.replicate n 0) true }
  else
    let r := s.clearOwnRange agent o n true
    if !r.2 then r.1
    else
      let h := r.1.homeAtom (o / 128) op cas ty [(0, o % 128, x, new)] (s.inPts agent) true true f
      let s1 := h.1.raiseIn agent h.2.w
      { s1 with sent := .data (leBytes ((h.2.olds.map Prod.snd).getD 0 0) n) (!h.2.bad.isEmpty) }

/-- A peer's put (R129, R218): the status is the answer; DENIED for an address that names no valid cistern record, poison for a
record that lies in poisoned bytes. -/
def State.inPut (s : State) (agent asid va token slot expert chunk : Nat) (bytes : List Byte) (poison : Bool) : State :=
  let status (s : State) (v : Nat) : State := { s with sent := .data [BitVec.ofNat 8 v] false }
  if va % 64 ≠ 0 then status s 5
  else match s.inXlate asid va 64 2 with
  | .nack s1 => s1.nack
  | .later s1 => s1
  | .at s1 ps =>
    let rec1 := (ps.getD 0 (0, 0)).1
    let c := s1.clearOwnRange agent rec1 64 true
    let v := c.1.checkRange rec1 64 (c.1.inFinder asid va)
    let r := v.1.cmbRec rec1
    if !c.2 then c.1
    else if v.2 then { v.1 with sent := .data [0] true }
    else if !r.good || !r.domain then status v.1 5
    else if r.nslots ≤ slot then status v.1 2
    else match v.1.inXlate asid (r.slotAt slot) 256 2 with
      | .nack s2 => s2.nack
      | .later s2 => s2
      | .at s2 qs =>
        let o := (qs.getD 0 (0, 0)).1
        let h := s2.clearOwnRange agent o 256 true
        if !h.2 then h.1
        else
          let s2 := h.1.cmbDue o
          let t := s2.cmbTest r o token expert chunk true
          match t.1 with
          | 0 => (match s2.inXlate asid (r.chunkAt slot t.2 chunk) 256 2 with
            | .nack s3 => s3.nack
            | .later s3 => s3
            | .at s3 cs =>
              let off := (cs.getD 0 (0, 0)).1
              let q := s3.clearOwnRange agent off 256 true
              if !q.2 then q.1
              else
                let w := q.1.cmbStore r o t.2 chunk off ((bytes ++ List.replicate 256 0).take 256) (s.inPts agent) poison
                status (w.1.raiseIn agent w.2) 0)
          | 1 => status (s2.cmbLate rec1 o) 1
          | st => status s2 st

/-- A peer's operation on a barrier object, its word's value, or a read of a timestamp: 0 init (ARRIVE_EXP with SCOPE from bit 20),
1 arrive, 2 arrive with DROP, 3 expect, 4 wait, 5 test, 6 credit, 7 the `wts` of a sector, 8 the home's clock. The answer is 8
bytes: bit 0 the parity or the report, bit 1 SYNC, bit 2 that the arrival must wait. DESIGN CHOICE (log entry 66): these codes, and
that an object whose SCOPE is device takes a peer's operation. -/
def State.inBar (s : State) (agent o op n : Nat) : State :=
  let p := s.inPts agent
  let ans (s : State) (v : Nat) : State := { s with sent := .data (leBytes v 8) false }
  let done (r : BarOut) (f : State → BarObj → State) : State := match r with
    | .ok s1 old ts => f (s1.raiseIn agent ts) old
    | .waits s1 => ans s1 4
    | .later s1 => s1
    | .sync s1 => ans s1 2
    | .poison s1 => { s1 with sent := .data (List.replicate 8 0) true }
  match op with
  | 0 => (match s.inWrite agent o (leBytes (BarObj.init (n / 2 ^ 20) (n % 2 ^ 20)).val 16) with
    | (s1, true) => { s1 with sent := .ack }
    | (s1, false) => s1)
  | 1 => done (s.barDo (.dev o) (.arr false) p none 0) (fun s old => ans s old.phase.toNat)
  | 2 => done (s.barDo (.dev o) (.arr true) p none 0) (fun s old => ans s old.phase.toNat)
  | 3 => done (s.barDo (.dev o) (.exp n) p none 0) (fun s _ => { s with sent := .ack })
  | 4 => (match s.barSee (.dev o) (n % 2 == 1) p none with
    | .waits _ => s
    | r => done r (fun s1 _ => { s1 with sent := .ack }))
  | 5 => done (s.barDo (.dev o) .look p none 0) (fun s old => ans s (if old.phase.toNat = n % 2 then 0 else 1))
  | 6 => done (s.barDo (.dev o) (.credit n) p none 0) (fun s _ => { s with sent := .ack })
  | 7 => ans s ((s.slice (s.servSlice (o / 128))).ts (o / 32)).1.toNat
  | _ => ans s (s.home (s.servDie (o / 128))).clock.toNat

/-- Whether an inbound operation needs WR (R381). -/
def DomOp.writes : DomOp → Bool
  | .write _ _ | .atom _ _ _ | .acas _ _ _ | .put _ _ _ _ _ _ | .wb _ _ _ => true
  | .bar op _ => decide (op.toNat < 4) || op.toNat == 6
  | .read _ | .fill _ => false

/-- The bytes that an inbound operation covers, and the kind of access (R334). -/
def DomOp.span : DomOp → Nat × Nat
  | .read n => (n, 0)
  | .write bs _ => (bs.length, 1)
  | .atom _ ty _ | .acas ty _ _ => (ty.bits / 8, 2)
  | .put _ _ _ _ _ _ => (64, 2)
  | .fill _ => (64, 0)
  | .wb bs _ _ => (bs.length, 1)
  | .bar op _ => (16, if op.toNat = 4 || op.toNat = 5 || decide (7 ≤ op.toNat) then 0 else if op.toNat = 0 then 1 else 2)

/-- An inbound operation at its places. -/
def State.inDo (s : State) (agent asid va : Nat) (op : DomOp) (ps : List (Nat × Nat)) : State :=
  let o := (ps.getD 0 (0, 0)).1
  let f := s.inFinder asid va
  let send (r : State × Option (List Byte × Bool)) : State := match r with
    | (s1, some (bs, po)) => { s1 with sent := .data bs po }
    | (s1, none) => s1
  match op with
  | .read _ => send (s.inReadAll agent ps f)
  | .write bs po => (match s.inWriteAll agent ps bs po f with
    | (s1, true) => { s1 with sent := .ack }
    | (s1, false) => s1)
  | .atom op ty x => if va % (ty.bits / 8) ≠ 0 then s.nack else s.inAtom agent o op.toNat false ty x.toNat 0 f
  | .acas ty e n => if va % (ty.bits / 8) ≠ 0 then s.nack else s.inAtom agent o 6 true ty e.toNat n.toNat f
  | .put token slot expert chunk bs po => s.inPut agent asid va token.toNat slot expert chunk bs po
  | .fill excl =>
    (match s.inReadAll agent ps f with
    | (s1, none) => s1
    | (s1, some d) => if s1.lost (o / 128) then send (s1, some d) else match s1.addHard agent (o / 64) excl with
      | (s2, true) => send (s2, some d)
      | (s2, false) => s2)
  | .wb bs keep po =>
    let mine (h : HardHold) : Bool := h.line == o / 64 && h.agent == agent
    if !(s.hardOf (o / 64)).any (fun h => mine h && h.excl) then { s with sent := .ack }
    else (match s.inWriteAll agent ps bs po f with
      | (s1, false) => s1
      | (s1, true) =>
        let s2 := s1.mapHard (o / 64) (fun l => if keep then l.map (fun h => if mine h then { h with excl := false } else h)
          else l.filter (fun h => !mine h))
        { s2 with sent := .ack })
  | .bar op n => if va % 16 ≠ 0 && op.toNat < 7 then s.nack else s.inBar agent o op.toNat n.toNat

/-- DOMAIN_INBOUND: an access of a peer, under the address space that its DTID names; a refusal is answered NACK. -/
def execDomainInbound (peer dtid va : Nat) (op : DomOp) (s : State) : Host.Outcome State Fault Refusal :=
  let e := Cells.get s.dom.dtin dtid
  let asid := fld e.toNat 0 8
  .next (if !s.peerReach peer || 256 ≤ dtid then s
  else if !e.getLsbD 8 || (DomOp.writes op && !e.getLsbD 9) || devSize ≤ va then s.nack
  else match s.inXlate asid va (DomOp.span op).1 (DomOp.span op).2 with
    | .nack s1 => s1.nack
    | .later s1 => s1
    | .at s1 ps => s1.inDo (2 + peer) asid va op ps)

/-- The answer to a request for a peer's memory arrives: ACK or data, or NACK. Poison that comes with it is recorded (R344). The
answer to a credit completes its part, with FAULT unless the object took it (R111, R113). -/
def State.peerAnswer (s : State) (id : Nat) (r : OutReq) (ok poison : Bool) (bytes : List Byte) : State :=
  let s0 := s.dropReq id
  let came (s : State) : State := if poison then s.linkRecord 2 (2 ^ 51 + (r.port - 3) * 2 ^ 40 + r.addr % 2 ^ 40) 10 else s
  let part (f : Cmd → Part1 → State) : State := match Tab.get s0.cmds r.pkt with
    | none => s0
    | some k => match k.part r.entry with
      | some p => f k p
      | none => s0
  match r.what with
  | 0 | 2 => if ok then s0.fillFar 2 (r.addr / 64) (if r.what = 2 then 2 else 1) r.dtid bytes poison else s0.farFailed r 1
  | 1 | 4 => s0
  | 15 =>
    let bad := !ok || poison || fld (leVal bytes) 1 1 = 1
    let st : BitVec 4 := BitVec.ofNat 4 (r.bytes.getD 8 0).toNat ||| (if bad then 4 else 0)
    (match Tab.get s0.cmds r.pkt with
    | none => s0
    | some k => if k.op = 8 then s0.swrClose r.pkt k st else s0.partDone r.pkt k r.entry st k.pts)
  | 13 => part (fun k p => s0.domFinish r.pkt k r.entry p.n (if ok then 0 else 4))
  | 14 => part (fun k p =>
    if !ok then s0.domFinish r.pkt k r.entry p.n 4
    else match (if poison then EngIO.ends (s.engPoison k p.dst p.n) 2
        else EngIO.ends (s.engWrite k p.dst ((bytes ++ List.replicate p.n 0).take p.n)) 0) with
      | .later s1 => s1
      | .held s1 pg => (s1.dropReq id).engWait { what := 0, id := r.pkt, part := r.entry, asid := k.asid, page := pg }
      | .ok s1 st ts =>
        (came (s1.dropReq id)).domFinish r.pkt { k with pts := ts } r.entry p.n st)
  | _ =>
    if ok then (came s0).replyTo r.crew r.pkt [leVal bytes, r.port - 3, r.addr] poison
    else s0.replyTo r.crew r.pkt [] false

/-- PEER_REPLY. -/
def execPeerReply (req : Nat) (ok poison : Bool) (bytes : List Byte) (s : State) : Host.Outcome State Fault Refusal :=
  .next (match Tab.get s.outReqs req with
    | none => s
    | some r => if 2 ≤ r.port then s.peerAnswer req r ok poison bytes else s)

/-- DOMAIN_LINK_TIMEOUT: a link's retrain has not succeeded within 8 µs, and it goes down; with no link left no peer can be
reached, and what was asked of them fails. -/
def execDomainLinkTimeout (l : Nat) (s : State) : Host.Outcome State Fault Refusal :=
  .next (if 18 ≤ l || !s.dom.linkUp.getD l false then s
  else
    let s1 : State := { s with dom := { s.dom with linkUp := s.dom.linkUp.set l false }, pwr := { s.pwr with retrain := s.pwr.retrain + 1 } }
    if s1.dom.linkUp.any id then s1
    else
      let s2 : State := { s1 with dom := { s1.dom with unreachable := List.range 432 } }
      (s2.outReqs.filter (fun r => decide (2 ≤ r.2.port))).foldl (fun s r => s.peerAnswer r.1 r.2 false false []) s2)

/-! ## The scoreboard (R144) -/

/-- The first cycle at which a word of a crew can read a result written now: the next one once the crew's pipe has issued (R29,
R154). -/
def State.readyAt (s : State) (c : Crew) : Nat :=
  if (s.core c.core).issuedAt.getD c.pipe none = some s.now then s.now + 1 else s.now

/-- RESULT_WRITTEN: the result at a place of a crew's scoreboard is written, and its registers are released. -/
def execResultWritten (crew idx : Nat) (s : State) : Host.Outcome State Fault Refusal :=
  .next (match s.crew crew with
    | none => s
    | some c => match c.pend[idx]? with
      | none => s
      | some p => s.setCrew crew (c.putPend p (s.readyAt c)))

end Sys2Proof.Machine
end

