-- ==== Sys2Proof/Machine/Dispatch.lean ====
section
/-! DEFINITION. The dispatch of every instruction and event to its meaning. -/

namespace Sys2Proof.Machine

/-- The meaning of an instruction word or an event. -/
def exec (i : Instr) (s : State) : Host.Outcome State Fault Refusal :=
  match i with
  | .nop h => Sys2Proof.Machine.execNop h s
  | .mov o => Sys2Proof.Machine.execMov o s
  | .movl h sc ty d lit => Sys2Proof.Machine.execMovl h sc ty d lit s
  | .sel o ps psn => Sys2Proof.Machine.execSel o ps psn s
  | .iadd o => Sys2Proof.Machine.execIadd o s
  | .isub o => Sys2Proof.Machine.execIsub o s
  | .imul o => Sys2Proof.Machine.execImul o s
  | .imulh o => Sys2Proof.Machine.execImulh o s
  | .imad o => Sys2Proof.Machine.execImad o s
  | .idiv o => Sys2Proof.Machine.execIdiv o s
  | .irem o => Sys2Proof.Machine.execIrem o s
  | .imin o => Sys2Proof.Machine.execImin o s
  | .imax o => Sys2Proof.Machine.execImax o s
  | .iabs o sat => Sys2Proof.Machine.execIabs o sat s
  | .iaddsat o => Sys2Proof.Machine.execIaddsat o s
  | .isubsat o => Sys2Proof.Machine.execIsubsat o s
  | .and o => Sys2Proof.Machine.execAnd o s
  | .or o => Sys2Proof.Machine.execOr o s
  | .xor o => Sys2Proof.Machine.execXor o s
  | .andn o => Sys2Proof.Machine.execAndn o s
  | .shl o => Sys2Proof.Machine.execShl o s
  | .shr o => Sys2Proof.Machine.execShr o s
  | .sar o => Sys2Proof.Machine.execSar o s
  | .rot o => Sys2Proof.Machine.execRot o s
  | .bfe o len => Sys2Proof.Machine.execBfe o len s
  | .bfi o len => Sys2Proof.Machine.execBfi o len s
  | .popc o => Sys2Proof.Machine.execPopc o s
  | .clz o => Sys2Proof.Machine.execClz o s
  | .brev o => Sys2Proof.Machine.execBrev o s
  | .icmp o cc => Sys2Proof.Machine.execIcmp o cc s
  | .lea o sh sx => Sys2Proof.Machine.execLea o sh sx s
  | .prmt o => Sys2Proof.Machine.execPrmt o s
  | .fadd o => Sys2Proof.Machine.execFadd o s
  | .fsub o => Sys2Proof.Machine.execFsub o s
  | .fmul o => Sys2Proof.Machine.execFmul o s
  | .fma o => Sys2Proof.Machine.execFma o s
  | .fmin o => Sys2Proof.Machine.execFmin o s
  | .fmax o => Sys2Proof.Machine.execFmax o s
  | .fdiv o => Sys2Proof.Machine.execFdiv o s
  | .fsqrt o => Sys2Proof.Machine.execFsqrt o s
  | .frcp o => Sys2Proof.Machine.execFrcp o s
  | .frsq o => Sys2Proof.Machine.execFrsq o s
  | .fexp2 o => Sys2Proof.Machine.execFexp2 o s
  | .flog2 o => Sys2Proof.Machine.execFlog2 o s
  | .fsin o => Sys2Proof.Machine.execFsin o s
  | .fcos o => Sys2Proof.Machine.execFcos o s
  | .fcmp o cc => Sys2Proof.Machine.execFcmp o cc s
  | .fclass o => Sys2Proof.Machine.execFclass o s
  | .fscale o => Sys2Proof.Machine.execFscale o s
  | .fround o => Sys2Proof.Machine.execFround o s
  | .f2f o st => Sys2Proof.Machine.execF2f o st s
  | .f2i o st => Sys2Proof.Machine.execF2i o st s
  | .i2f o st => Sys2Proof.Machine.execI2f o st s
  | .fdot2 o st => Sys2Proof.Machine.execFdot2 o st s
  | .fma2 o => Sys2Proof.Machine.execFma2 o s
  | .shfl h ty mode seg d a b => Sys2Proof.Machine.execShfl h ty mode seg d a b s
  | .vote h mode negs d a => Sys2Proof.Machine.execVote h mode negs d a s
  | .redux h ty op rnd d a => Sys2Proof.Machine.execRedux h ty op rnd d a s
  | .scan h ty op rnd excl d a => Sys2Proof.Machine.execScan h ty op rnd excl d a s
  | .mrd h ds d num => Sys2Proof.Machine.execMrd h ds d num s
  | .s2v h ty d a => Sys2Proof.Machine.execS2v h ty d a s
  | .v2s h ty first d a b => Sys2Proof.Machine.execV2s h ty first d a b s
  | .pmov h lut dir d a b => Sys2Proof.Machine.execPmov h lut dir d a b s
  | .rng h ty d a b => Sys2Proof.Machine.execRng h ty d a b s
  | .pack o => Sys2Proof.Machine.execPack o s
  | .unpack o => Sys2Proof.Machine.execUnpack o s
  | .bra h off => Sys2Proof.Machine.execBra h off s
  | .brx h a => Sys2Proof.Machine.execBrx h a s
  | .join h => Sys2Proof.Machine.execJoin h s
  | .call h f t => Sys2Proof.Machine.execCall h f t s
  | .ret h f a => Sys2Proof.Machine.execRet h f a s
  | .exit h => Sys2Proof.Machine.execExit h s
  | .yield h => Sys2Proof.Machine.execYield h s
  | .loop h d off => Sys2Proof.Machine.execLoop h d off s
  | .kill h => Sys2Proof.Machine.execKill h s
  | .trapi h n => Sys2Proof.Machine.execTrapi h n s
  | .tfence h mask => Sys2Proof.Machine.execTfence h mask s
  | .ld o line => Sys2Proof.Machine.execLd o line s
  | .st o => Sys2Proof.Machine.execSt o s
  | .lds o line => Sys2Proof.Machine.execLds o line s
  | .sts o => Sys2Proof.Machine.execSts o s
  | .ldp o cc => Sys2Proof.Machine.execLdp o cc s
  | .atom o op => Sys2Proof.Machine.execAtom o op s
  | .acas o => Sys2Proof.Machine.execAcas o s
  | .red o op => Sys2Proof.Machine.execRed o op s
  | .fence h scope order => Sys2Proof.Machine.execFence h scope order s
  | .prf o line => Sys2Proof.Machine.execPrf o line s
  | .lease o cls => Sys2Proof.Machine.execLease o cls s
  | .tsget h f d a => Sys2Proof.Machine.execTsget h f d a s
  | .barInit o => Sys2Proof.Machine.execBarInit o s
  | .barArr o => Sys2Proof.Machine.execBarArr o s
  | .barExp o => Sys2Proof.Machine.execBarExp o s
  | .barWait o => Sys2Proof.Machine.execBarWait o s
  | .barTry o => Sys2Proof.Machine.execBarTry o s
  | .bsync h k => Sys2Proof.Machine.execBsync h k s
  | .wellPush h well nreg c => Sys2Proof.Machine.execWellPush h well nreg c s
  | .wellPop h well nreg pr d => Sys2Proof.Machine.execWellPop h well nreg pr d s
  | .wellTpush h well a => Sys2Proof.Machine.execWellTpush h well a s
  | .wellTpop h well pr d => Sys2Proof.Machine.execWellTpop h well pr d s
  | .wellCfg h well a b => Sys2Proof.Machine.execWellCfg h well a b s
  | .batchClose h d => Sys2Proof.Machine.execBatchClose h d s
  | .batchWait h d b => Sys2Proof.Machine.execBatchWait h d b s
  | .cpyG2s o => Sys2Proof.Machine.execCpyG2s o s
  | .cpyS2g o => Sys2Proof.Machine.execCpyS2g o s
  | .cpyG2g o => Sys2Proof.Machine.execCpyG2g o s
  | .cpyMcast o => Sys2Proof.Machine.execCpyMcast o s
  | .cpyT2d o => Sys2Proof.Machine.execCpyT2d o s
  | .cpyGather o => Sys2Proof.Machine.execCpyGather o s
  | .cpyRed o => Sys2Proof.Machine.execCpyRed o s
  | .cpyDom o => Sys2Proof.Machine.execCpyDom o s
  | .cpySwr o => Sys2Proof.Machine.execCpySwr o s
  | .cpyStat h d => Sys2Proof.Machine.execCpyStat h d s
  | .ctrInit o => Sys2Proof.Machine.execCtrInit o s
  | .ctrTake o => Sys2Proof.Machine.execCtrTake o s
  | .ctrGive o => Sys2Proof.Machine.execCtrGive o s
  | .ctrRead o => Sys2Proof.Machine.execCtrRead o s
  | .ctrReadx o => Sys2Proof.Machine.execCtrReadx o s
  | .ctrCap o => Sys2Proof.Machine.execCtrCap o s
  | .ctrDrain o => Sys2Proof.Machine.execCtrDrain o s
  | .cmbOpen h dsp d a b => Sys2Proof.Machine.execCmbOpen h dsp d a b s
  | .cmbPut h lt d a b c => Sys2Proof.Machine.execCmbPut h lt d a b c s
  | .cmbStat h lates d a b => Sys2Proof.Machine.execCmbStat h lates d a b s
  | .cmbClose h d a b => Sys2Proof.Machine.execCmbClose h d a b s
  | .cmbCfg h a b => Sys2Proof.Machine.execCmbCfg h a b s
  | .tcfg h d a => Sys2Proof.Machine.execTcfg h d a s
  | .tcfgr h d a => Sys2Proof.Machine.execTcfgr h d a s
  | .tld h scope order space zf d a b => Sys2Proof.Machine.execTld h scope order space zf d a b s
  | .tst h scope order space hist d a b => Sys2Proof.Machine.execTst h scope order space hist d a b s
  | .tzero h d => Sys2Proof.Machine.execTzero h d s
  | .tmov h d a => Sys2Proof.Machine.execTmov h d a s
  | .tv2t h nreg d a b => Sys2Proof.Machine.execTv2t h nreg d a b s
  | .tt2v h nreg hist d a b => Sys2Proof.Machine.execTt2v h nreg hist d a b s
  | .mma h nsel msk zc mq scl d a b c => Sys2Proof.Machine.execMma h nsel msk zc mq scl d a b c s
  | .mtr h d a => Sys2Proof.Machine.execMtr h d a s
  | .tquant h soff d a b c => Sys2Proof.Machine.execTquant h soff d a b c s
  | .tcvt h soff d a b c => Sys2Proof.Machine.execTcvt h soff d a b c s
  | .hist h a b => Sys2Proof.Machine.execHist h a b s
  | .tred h op rnd d a b => Sys2Proof.Machine.execTred h op rnd d a b s
  | .tadd h op rnd sat d a b => Sys2Proof.Machine.execTadd h op rnd sat d a b s
  | .tmulv h colm rnd sat d a b c => Sys2Proof.Machine.execTmulv h colm rnd sat d a b c s
  | .csrr h d num => Sys2Proof.Machine.execCsrr h d num s
  | .csrw h num a => Sys2Proof.Machine.execCsrw h num a s
  | .csrwSet h num a => Sys2Proof.Machine.execCsrwSet h num a s
  | .csrwClr h num a => Sys2Proof.Machine.execCsrwClr h num a s
  | .launch h d a b => Sys2Proof.Machine.execLaunch h d a b s
  | .reord h a b => Sys2Proof.Machine.execReord h a b s
  | .idemBegin h => Sys2Proof.Machine.execIdemBegin h s
  | .idemEnd h => Sys2Proof.Machine.execIdemEnd h s
  | .hret h => Sys2Proof.Machine.execHret h s
  | .hwinR h d item => Sys2Proof.Machine.execHwinR h d item s
  | .hwinW h a item => Sys2Proof.Machine.execHwinW h a item s
  | .hresume h => Sys2Proof.Machine.execHresume h s
  | .hkill h launch => Sys2Proof.Machine.execHkill h launch s
  | .sleep h b => Sys2Proof.Machine.execSleep h b s
  | .clkr h k d => Sys2Proof.Machine.execClkr h k d s
  | .axLoop h p n => Sys2Proof.Machine.execAxLoop h p n s
  | .axEnd h => Sys2Proof.Machine.execAxEnd h s
  | .axBase h d g off => Sys2Proof.Machine.execAxBase h d g off s
  | .axStrd h p d l imm => Sys2Proof.Machine.execAxStrd h p d l imm s
  | .axLd h d a => Sys2Proof.Machine.execAxLd h d a s
  | .axLdt h d a b c => Sys2Proof.Machine.execAxLdt h d a b c s
  | .axSig h off => Sys2Proof.Machine.execAxSig h off s
  | .axHalt h => Sys2Proof.Machine.execAxHalt h s
  | .hnop st x y => Sys2Proof.Machine.execHnop st x y s
  | .hmov st x y => Sys2Proof.Machine.execHmov st x y s
  | .hiadd st x y => Sys2Proof.Machine.execHiadd st x y s
  | .hisub st x y => Sys2Proof.Machine.execHisub st x y s
  | .himul st x y => Sys2Proof.Machine.execHimul st x y s
  | .hand st x y => Sys2Proof.Machine.execHand st x y s
  | .hor st x y => Sys2Proof.Machine.execHor st x y s
  | .hxor st x y => Sys2Proof.Machine.execHxor st x y s
  | .hshl st x y => Sys2Proof.Machine.execHshl st x y s
  | .hshr st x y => Sys2Proof.Machine.execHshr st x y s
  | .hsar st x y => Sys2Proof.Machine.execHsar st x y s
  | .himin st x y => Sys2Proof.Machine.execHimin st x y s
  | .himax st x y => Sys2Proof.Machine.execHimax st x y s
  | .hfadd st x y => Sys2Proof.Machine.execHfadd st x y s
  | .hfsub st x y => Sys2Proof.Machine.execHfsub st x y s
  | .hfmul st x y => Sys2Proof.Machine.execHfmul st x y s
  | .hfmin st x y => Sys2Proof.Machine.execHfmin st x y s
  | .hfmax st x y => Sys2Proof.Machine.execHfmax st x y s
  | .hicmp st x y => Sys2Proof.Machine.execHicmp st x y s
  | .hfcmp st x y => Sys2Proof.Machine.execHfcmp st x y s
  | .hsel st x y => Sys2Proof.Machine.execHsel st x y s
  | .hneg st x y => Sys2Proof.Machine.execHneg st x y s
  | .habs st x y => Sys2Proof.Machine.execHabs st x y s
  | .hfneg st x y => Sys2Proof.Machine.execHfneg st x y s
  | .hf2i st x y => Sys2Proof.Machine.execHf2i st x y s
  | .hi2f st x y => Sys2Proof.Machine.execHi2f st x y s
  | .hpopc st x y => Sys2Proof.Machine.execHpopc st x y s
  | .hclz st x y => Sys2Proof.Machine.execHclz st x y s
  | .hmrd st x y => Sys2Proof.Machine.execHmrd st x y s
  | .hs2v st x y => Sys2Proof.Machine.execHs2v st x y s
  | .hshflx st x y => Sys2Proof.Machine.execHshflx st x y s
  | .barrierWakeup w => Sys2Proof.Machine.execBarrierWakeup w s
  | .wellWakeup w => Sys2Proof.Machine.execWellWakeup w s
  | .batchWakeup w => Sys2Proof.Machine.execBatchWakeup w s
  | .ldpAttempt w => Sys2Proof.Machine.execLdpAttempt w s
  | .sleepExpiry w => Sys2Proof.Machine.execSleepExpiry w s
  | .ctrRefill c => Sys2Proof.Machine.execCtrRefill c s
  | .ctrRecall c core => Sys2Proof.Machine.execCtrRecall c core s
  | .ctrRecallReply c core => Sys2Proof.Machine.execCtrRecallReply c core s
  | .ctrGrant c core => Sys2Proof.Machine.execCtrGrant c core s
  | .cmbTimeout slot => Sys2Proof.Machine.execCmbTimeout slot s
  | .copyPartComplete cmd part => Sys2Proof.Machine.execCopyPartComplete cmd part s
  | .mcastLanding cmd target part => Sys2Proof.Machine.execMcastLanding cmd target part s
  | .swrRound group c => Sys2Proof.Machine.execSwrRound group c s
  | .swrRoundTimeout group => Sys2Proof.Machine.execSwrRoundTimeout group s
  | .homeRenew p => Sys2Proof.Machine.execHomeRenew p s
  | .homeWrite p => Sys2Proof.Machine.execHomeWrite p s
  | .homeAtom p => Sys2Proof.Machine.execHomeAtom p s
  | .homeWb p => Sys2Proof.Machine.execHomeWb p s
  | .homeHold p => Sys2Proof.Machine.execHomeHold p s
  | .data p => Sys2Proof.Machine.execData p s
  | .ext p => Sys2Proof.Machine.execExt p s
  | .ack p => Sys2Proof.Machine.execAck p s
  | .recall p => Sys2Proof.Machine.execRecall p s
  | .routerPacket p => Sys2Proof.Machine.execRouterPacket p s
  | .bridgePacket p => Sys2Proof.Machine.execBridgePacket p s
  | .flitError cd hd c => Sys2Proof.Machine.execFlitError cd hd c s
  | .retrainTimeout cd hd c => Sys2Proof.Machine.execRetrainTimeout cd hd c s
  | .retrainDone cd hd c => Sys2Proof.Machine.execRetrainDone cd hd c s
  | .packetCrcError p => Sys2Proof.Machine.execPacketCrcError p s
  | .domainLinkTimeout l => Sys2Proof.Machine.execDomainLinkTimeout l s
  | .mirrorWrite p => Sys2Proof.Machine.execMirrorWrite p s
  | .clockReconcile => Sys2Proof.Machine.execClockReconcile s
  | .rolloverSweep => Sys2Proof.Machine.execRolloverSweep s
  | .imagePtsSweep image => Sys2Proof.Machine.execImagePtsSweep image s
  | .pageWalk asid va => Sys2Proof.Machine.execPageWalk asid va s
  | .trapDelivery cluster => Sys2Proof.Machine.execTrapDelivery cluster s
  | .watchdogExpiry cluster => Sys2Proof.Machine.execWatchdogExpiry cluster s
  | .doorbell q v => Sys2Proof.Machine.execDoorbell q v s
  | .dispatchConsume q => Sys2Proof.Machine.execDispatchConsume q s
  | .blockPlace blk core => Sys2Proof.Machine.execBlockPlace blk core s
  | .gangStart core => Sys2Proof.Machine.execGangStart core s
  | .stealRequest idle victim => Sys2Proof.Machine.execStealRequest idle victim s
  | .donationArrival idle => Sys2Proof.Machine.execDonationArrival idle s
  | .launchComplete lslot => Sys2Proof.Machine.execLaunchComplete lslot s
  | .reorderFlush lslot => Sys2Proof.Machine.execReorderFlush lslot s
  | .prectl part v => Sys2Proof.Machine.execPrectl part v s
  | .gangSave gid => Sys2Proof.Machine.execGangSave gid s
  | .gangRestore blk core => Sys2Proof.Machine.execGangRestore blk core s
  | .resume part v => Sys2Proof.Machine.execResume part v s
  | .fltnextRead part => Sys2Proof.Machine.execFltnextRead part s
  | .fltdone part v => Sys2Proof.Machine.execFltdone part v s
  | .engreqRead part => Sys2Proof.Machine.execEngreqRead part s
  | .engdone part v => Sys2Proof.Machine.execEngdone part v s
  | .asinv asid v => Sys2Proof.Machine.execAsinv asid v s
  | .asinvComplete asid => Sys2Proof.Machine.execAsinvComplete asid s
  | .ptcfgWrite part v => Sys2Proof.Machine.execPtcfgWrite part v s
  | .quotaWrite part off size v => Sys2Proof.Machine.execQuotaWrite part off size v s
  | .protEnable k v => Sys2Proof.Machine.execProtEnable k v s
  | .protMirrorReady k => Sys2Proof.Machine.execProtMirrorReady k s
  | .homeDieFailure hd => Sys2Proof.Machine.execHomeDieFailure hd s
  | .coreOutOfService core => Sys2Proof.Machine.execCoreOutOfService core s
  | .eccError e => Sys2Proof.Machine.execEccError e s
  | .ecccInterval ukind unit => Sys2Proof.Machine.execEcccInterval ukind unit s
  | .snpinv port line => Sys2Proof.Machine.execSnpinv port line s
  | .snpdata port line => Sys2Proof.Machine.execSnpdata port line s
  | .snpcur port line => Sys2Proof.Machine.execSnpcur port line s
  | .hostGrant port line excl bytes poison => Sys2Proof.Machine.execHostGrant port line excl bytes poison s
  | .hostMemrd port addr n hold => Sys2Proof.Machine.execHostMemrd port addr n hold s
  | .hostMemwr port addr bytes wb keep poison => Sys2Proof.Machine.execHostMemwr port addr bytes wb keep poison s
  | .bisnpResponse slice line dirty => Sys2Proof.Machine.execBisnpResponse slice line dirty s
  | .heartbeat agent => Sys2Proof.Machine.execHeartbeat agent s
  | .hardHoldExpiry slice line => Sys2Proof.Machine.execHardHoldExpiry slice line s
  | .poolCompletion req ok poison bytes => Sys2Proof.Machine.execPoolCompletion req ok poison bytes s
  | .poolSideTimeout req => Sys2Proof.Machine.execPoolSideTimeout req s
  | .domainInbound peer dtid va op => Sys2Proof.Machine.execDomainInbound peer dtid va op s
  | .domainRecall line => Sys2Proof.Machine.execDomainRecall line s
  | .cxlPortDown port => Sys2Proof.Machine.execCxlPortDown port s
  | .powerInterval vcore0 vcore1 vhome vhbm core temps => Sys2Proof.Machine.execPowerInterval vcore0 vcore1 vhome vhbm core temps s
  | .pcapWrite v => Sys2Proof.Machine.execPcapWrite v s
  | .thermalLimit die temp => Sys2Proof.Machine.execThermalLimit die temp s
  | .thermalTrip temp => Sys2Proof.Machine.execThermalTrip temp s
  | .coreHot core temp => Sys2Proof.Machine.execCoreHot core temp s
  | .droopEvent core => Sys2Proof.Machine.execDroopEvent core s
  | .coreCool core temp => Sys2Proof.Machine.execCoreCool core temp s
  | .tlmloRead => Sys2Proof.Machine.execTlmloRead s
  | .firmwareUpdate image => Sys2Proof.Machine.execFirmwareUpdate image s
  | .attestReport => Sys2Proof.Machine.execAttestReport s
  | .identityPublicKey => Sys2Proof.Machine.execIdentityPublicKey s
  | .atctlRefused op => Sys2Proof.Machine.execAtctlRefused op s
  | .packageReset v failedCores failedHomes => Sys2Proof.Machine.execPackageReset v failedCores failedHomes s
  | .cxlReset failedCores failedHomes => Sys2Proof.Machine.execCxlReset failedCores failedHomes s
  | .registerWrite bar off size v => Sys2Proof.Machine.execRegisterWrite bar off size v s
  | .illegalEncoding w => Sys2Proof.Machine.execIllegalEncoding w s
  | .fetchFault va tail => Sys2Proof.Machine.execFetchFault va tail s
  | .resultWritten crew idx => Sys2Proof.Machine.execResultWritten crew idx s
  | .peerReply req ok poison bytes => Sys2Proof.Machine.execPeerReply req ok poison bytes s
  | .stealRefusal idle => Sys2Proof.Machine.execStealRefusal idle s
  | .powerLoss => Sys2Proof.Machine.execPowerLoss s
  | .powerOn failedCores failedHomes => Sys2Proof.Machine.execPowerOn failedCores failedHomes s
  | .cxlPortUp port => Sys2Proof.Machine.execCxlPortUp port s

end Sys2Proof.Machine
end

