-- ==== Sys2Proof/Machine/Step.lean ====
section
/-! DEFINITION. One step of the machine: the next move of the agenda. -/

namespace Sys2Proof.Machine

/-- The unit that issued is no longer named. -/
def endWord : Host.Outcome State Fault Refusal → Host.Outcome State Fault Refusal
  | .next t => .next { t with cur := .none }
  | .fault r => .fault r
  | .refused r => .refused r

/-- One step. -/
def step (s : State) : Host.Outcome State Fault Refusal :=
  match s.nextMove with
  | .idle t => .next t
  | .exec i t => endWord (exec i t)

/-- The bytes of an opcode-table word: `w` in the bytes of an 8-byte word, or of a word and its literal. -/
def State.withFetchWord (s : State) (_nbits w : Nat) : State := s.placed (leBytes w 16)

end Sys2Proof.Machine
end

