-- ==== Sys2Proof/Safety.lean ====
section
/-! DEFINITION. The terms that the statements use: memory in its canonical form, the legal agenda, a word that issues with nothing in
its way (R29, R151), and the state it leaves when it retires (R29, R143). -/

namespace Sys2Proof.Machine

/-! ## Memory -/

/-- Device memory is in canonical form: strictly rising addresses, no zero byte listed. -/
def Memory.wf (m : Cells 8) : Bool := Cells.wf m

/-- The invariant that every step keeps. -/
def State.inv (s : State) : Prop := Memory.wf s.mem = true

/-! ## Words and events -/

/-- The constructors that are words of a program, illegal words and failing fetches: a unit issues them. -/
def isWordOrFetch (i : Instr) : Bool :=
  match i with
  | .illegalEncoding _ | .fetchFault _ _ => true
  | i => i.raw.isSome || i.xHalf.isSome

/-- A move that can come to the machine: words come from a fetch and never as events. -/
def Move.legal : Move → Bool
  | .event i => !isWordOrFetch i
  | _ => true

/-! ## A word that issues with nothing in its way -/

/-- What a word finds that a crew's split issues, when its registers are free on the scoreboard, every register lies in the
window, DET forbids no part of it, no source is read too early where that is a trap, some lane is active, no register read
holds an uncorrectable error, and no fault of the gang's pump is due (R29, R139, R151, R344): its context, the crew with its
due results written, and the state with that crew. -/
def State.ready (s : State) (us : List WUse) : Option (Ctx × Crew × State) :=
  match s.cur with
  | .crew key e => match s.crew key with
    | none => none
    | some c0 =>
      let c := c0.settle s.now
      let acts := us.map (fun u => c.guard u.pred u.pn (c.split e).mask)
      let act := acts.foldl (· ||| ·) 0
      let det := s.gangDet (keyGid key)
      let live := (us.zip acts).filter (fun u => u.2 != 0)
      if us.all c0.boardFree && us.all (fun u => u.fits c.win) && !(det && live.any (fun u => u.1.det.isSome)) &&
          !((det || c.status.getLsbD 9) && live.any (fun u => (c.shortRead e u.1).isSome)) && act != 0 &&
          (live.flatMap (fun u => c.badLanes u.1 u.2)).isEmpty && c.pumpFault.isNone then
        some ({ key := key, e := e, act := act, acts := acts, det := det }, c, s.setCrew key c)
      else none
  | _ => none

/-- The state after a word that retires, from the state with its effect: the split goes on `size` bytes further, STALL cycles
later at the earliest (R143). -/
def Ctx.retires (x : Ctx) (size stall : Nat) (t : State) : State := (t.retire x.key x.e size stall).boundary x.key

/-- The state after a word that set its own splits, of which those of `es` go on. -/
def Ctx.jumps (x : Ctx) (es : List Nat) (stall : Nat) (t : State) : State := (t.retireAt x.key es stall).boundary x.key

/-- The state with a crew's results of fixed latency issued. -/
def Ctx.fixes (x : Ctx) (c : Crew) (s : State) (lat : Nat) (ws : List RegWrite) (fl : Flags) : State :=
  s.setCrew x.key ((c.orFlags fl).addFix x.e (s.now + lat) ws)

/-- The state with a crew's results issued and held by the scoreboard. -/
def Ctx.pends (x : Ctx) (c : Crew) (s : State) (ws : List RegWrite) (fl : Flags) : State :=
  s.setCrew x.key ((c.orFlags fl).addPend x.e ws)

/-- Register writes that give the `n` vector registers from vD on the value `f l` in each lane `l` of a mask, the first register
lowest (R77, R139). -/
def VecGives (c : Crew) (m : Mask) (d n : Nat) (f : Nat → Nat) (ws : List RegWrite) : Prop :=
  ws.length = n ∧ ∀ k, k < n → ∃ w, ws[k]? = some w ∧ w.reg = .v (c.wb + d + k) ∧ w.mask = m ∧
    ∀ l, m.getLsbD l = true → w.vals.getD l 0 = f l / 2 ^ (32 * k) % 2 ^ 32

/-- Register writes that give predicate pD the value `f l` in each lane `l` of a mask. -/
def PredGives (m : Mask) (d : Nat) (f : Nat → Bool) (ws : List RegWrite) : Prop :=
  ∃ w, ws = [w] ∧ w.reg = .p d ∧ w.mask = m ∧ ∀ l, m.getLsbD l = true → (w.vals.getD l 0 != 0) = f l

/-- The word completes with the results `ws` of fixed latency, and the flags `fl`. -/
def Fixed (i : Instr) (s : State) (x : Ctx) (c : Crew) (t : State) (size stall lat : Nat) (ws : List RegWrite) (fl : Flags) : Prop :=
  exec i s = .next (x.retires size stall (x.fixes c t lat ws fl))

/-- The word completes with the results `ws` on the scoreboard, and the flags `fl`. -/
def Pending (i : Instr) (s : State) (x : Ctx) (c : Crew) (t : State) (stall : Nat) (ws : List RegWrite) (fl : Flags) : Prop :=
  exec i s = .next (x.retires 8 stall (x.pends c t ws fl))

/-- An integer word completes (R155): the vector form with the value `f l` of each active lane, extended as its type; the scalar
form with the value of the scalar operands. -/
def AluGives (i : Instr) (s : State) (x : Ctx) (c : Crew) (t : State) (o : Alu) (lat : Nat) (f : Nat → Nat) : Prop :=
  if o.sc then Fixed i s x c t 8 o.h.stall.toNat lat [sWrite o.d.toNat (iExt o.ty (f 0))] 0
  else ∃ ws, Fixed i s x c t 8 o.h.stall.toNat lat ws 0 ∧ VecGives c x.act o.d.toNat o.ty.regs (fun l => iExt o.ty (f l)) ws

/-- A floating-point word completes with the results `f l` of the active lanes in `n` registers from vD on, and their flags: with
a fixed latency, or on the scoreboard where `lat` is none (R88, R144). -/
def FltGives (i : Instr) (s : State) (x : Ctx) (c : Crew) (t : State) (o : Flt) (n : Nat) (lat : Option Nat) (f : Nat → FRes) : Prop :=
  ∃ ws, (match lat with
    | some k => Fixed i s x c t 8 o.h.stall.toNat k ws (Flags.any (x.act.lanes.map (fun l => (f l).fl)))
    | none => Pending i s x c t o.h.stall.toNat ws (Flags.any (x.act.lanes.map (fun l => (f l).fl)))) ∧
    VecGives c x.act o.d.toNat n (fun l => (f l).bits) ws

/-- A word leaves the splits and records of the crew `r.1` and the entries `r.2` that issue (R23, R24, R140): it completes where no
record moves on or off the chip; where records move out that the spill area has no room for, it raises BOUNDS; else it completes
in the state that the moved records leave, wherever their accesses to the spill area succeed. -/
def Reshapes (i : Instr) (s : State) (x : Ctx) (c : Crew) (t : State) (stall : Nat) (r : Crew × List Nat) : Prop :=
  (r.1.recsStay = true → exec i s = .next (x.jumps r.2 stall (t.setCrew x.key r.1))) ∧
  (r.1.recsStay = false → r.1.spillsOf.2 ≠ [] → r.1.spillsOf.1.spillFits = false →
    exec i s = .next ((t.markIssued c).takeTrap x.key (mkTrap 6 x.e x.act 0 0))) ∧
  (r.1.recsStay = false → ∀ u, recMoves x c t r.1 (fun s1 rs => .jump (s1.updCrew x.key (fun v => v.dividedAs r.1 rs)) r.2) = .jump u r.2 →
    exec i s = .next (x.jumps r.2 stall u))

/-- The lanes `m` end with a word (R27, R175), from the state `t`: at once where no record moves between the chip and the spill area; in
the state that moved records leave, wherever their accesses to the spill area succeed; and for the crew's last lanes at once, but in
DET once no hold stands on the bytes that a phase it completes merges (R72). The split's other lanes go on behind the word. -/
def Ends (i : Instr) (s : State) (x : Ctx) (c : Crew) (t : State) (stall : Nat) (m : Mask) : Prop :=
  let ends (t : State) : State := x.jumps [x.e] stall ((t.updCrew x.key (fun v =>
    if (c.split x.e).mask &&& ~~~m ≠ 0 then v.updSplit x.e (fun p => { p with pc := p.pc + 8 }) else v)).endLanes x.key m)
  (c.live &&& ~~~m ≠ 0 → (c.endLanes m).recsStay = true → exec i s = .next (ends t)) ∧
  (c.live &&& ~~~m ≠ 0 → (c.endLanes m).recsStay = false → ∀ v es,
    recMoves x c t (c.endLanes m) (fun s1 rs => .jump (s1.updCrew x.key (fun c => c.putRecs rs)) []) = .jump v es →
      exec i s = .next (ends v)) ∧
  (c.live &&& ~~~m = 0 → x.det = false → exec i s = .next (ends t)) ∧
  (c.live &&& ~~~m = 0 → x.det = true → ∀ u, t.exitReady x.key = (u, true) → exec i s = .next (ends u))

/-- A word arrives at implicit barrier `k` of its gang from the state `v`, once its crew has nothing left to release: it waits with the
parity that it found, or goes on where its arrival completed the phase (R200, R246). -/
def ImpArrives (i : Instr) (s : State) (x : Ctx) (c : Crew) (stall : Nat) (v : State) (k : Nat) : Prop :=
  ∀ u u1 old g, v.releaseReady x.key .gg = (u, true) →
    u.barDo (.imp (keyGid x.key) k) (.arr false) c.pts x.detGang c.idx = .ok u1 old 0 →
    let w := (u1.barReleased x.key c.core .gg 0).updCrew x.key (fun v => { v with arr := some (k, old.phase) })
    w.gang (keyGid x.key) = some g →
      if (barOf (g.bar k).obj.toNat).phase = old.phase then
        exec i s = .next (w.holdWord x.key x.e i (.bar (.imp (keyGid x.key) k) old.phase))
      else exec i s = .next (x.retires 8 stall ((w.updCrew x.key (fun v => { v with arr := none })).barAcquired x.key c.core (.imp (keyGid x.key) k) .gg 0))

end Sys2Proof.Machine
end

