-- ==== Sys2Proof/Certificates/Slice0/Obligations.lean ====
section
/-! DEFINITION. The statements about the model. `s.ready us = some (x, c, t)` says that a crew's word with the parts `us` issues in `s`
with nothing in its way (R29, R151): `x` is its context, `c` the crew with its due results written, `t` the state with that crew. -/

open Sys2Proof Sys2Proof.Machine

/-! ## Integer and logic words (R155 to R161) -/

/-- R156: `iadd`, `isub`, `imul`, `imulh`, `imad` give the wrapped exact results; `imulh` bits [2W-1:W] of the product.
R156, R153: `imin`, `imax`, `iabs` and the saturating forms.
R153, R77: an integer type reads the low W bits of a register, signed for the types i8 to i64, and `ext` extends a W-bit result
to 64 bits by its sign or by zeros. -/
def Obligations.IntegerArithmetic : Prop :=
  (∀ (s : State) (x : Ctx) (c : Crew) (t : State) (o : Alu),
    (s.ready [Alu.use o {}] = some (x, c, t) →
      let a (l : Nat) : Int := iVal o.ty (aluA o {} c l)
      let b (l : Nat) : Int := iVal o.ty (aluB o {} c l)
      AluGives (.iadd o) s x c t o 4 (fun l => iWrap o.ty (a l + b l)) ∧
      AluGives (.isub o) s x c t o 4 (fun l => iWrap o.ty (a l - b l)) ∧
      AluGives (.imul o) s x c t o 6 (fun l => iWrap o.ty (a l * b l)) ∧
      AluGives (.imulh o) s x c t o 6 (fun l => iWrap o.ty (a l * b l / (2 ^ o.ty.bits : Nat)))) ∧
    (s.ready [Alu.use o { c := true }] = some (x, c, t) →
      AluGives (.imad o) s x c t o 6 (fun l => iWrap o.ty
        (iVal o.ty (aluA o {} c l) * iVal o.ty (aluB o {} c l) + iVal o.ty (aluC o { c := true } c l))))) ∧
  (∀ (s : State) (x : Ctx) (c : Crew) (t : State) (o : Alu) (sat : Bool),
    let a (l : Nat) : Int := iVal o.ty (aluA o {} c l)
    let b (l : Nat) : Int := iVal o.ty (aluB o {} c l)
    let clamp (z : Int) : Int := max (tyLo o.ty) (min (tyHi o.ty) z)
    (s.ready [Alu.use o {}] = some (x, c, t) →
      AluGives (.imin o) s x c t o 4 (fun l => iWrap o.ty (min (a l) (b l))) ∧
      AluGives (.imax o) s x c t o 4 (fun l => iWrap o.ty (max (a l) (b l))) ∧
      AluGives (.iaddsat o) s x c t o 4 (fun l => iWrap o.ty (clamp (a l + b l))) ∧
      AluGives (.isubsat o) s x c t o 4 (fun l => iWrap o.ty (clamp (a l - b l)))) ∧
    (s.ready [Alu.use o { b := false }] = some (x, c, t) →
      AluGives (.iabs o sat) s x c t o 4 (fun l => iWrap o.ty (if sat then clamp |a l| else |a l|)))) ∧
  (∀ (ty : Ty) (v : Nat), ty.isInt = true →
    iVal ty v = (if ty.signed then (BitVec.ofNat ty.bits v).toInt else ((v % 2 ^ ty.bits : Nat) : Int)) ∧
    iExt ty v = (if ty.signed then ((BitVec.ofNat ty.bits v).signExtend 64).toNat else v % 2 ^ ty.bits))

/-- R158: `idiv` and `irem`: towards zero; division by 0 gives all ones and the dividend, with flag DZ; the most negative
dividend by -1 gives itself and 0. The flags are those of the active lanes. -/
def Obligations.IntegerDivision : Prop :=
  ∀ (s : State) (x : Ctx) (c : Crew) (t : State) (o : Alu), s.ready [Alu.use o {}] = some (x, c, t) →
    let a (l : Nat) : Int := iVal o.ty (aluA o {} c l)
    let b (l : Nat) : Int := iVal o.ty (aluB o {} c l)
    let fl : Flags := Flags.any ((if o.sc then [0] else x.act.lanes).map (fun l => if b l = 0 then Flags.dz else 0))
    let q (l : Nat) : Int := if b l = 0 then -1 else Int.tdiv (a l) (b l)
    let r (l : Nat) : Int := if b l = 0 then a l else Int.tmod (a l) (b l)
    let gives (f : Nat → Int) (ws : List RegWrite) : Prop :=
      if o.sc then ws = [sWrite o.d.toNat (iExt o.ty (iWrap o.ty (f 0)))]
      else VecGives c x.act o.d.toNat o.ty.regs (fun l => iExt o.ty (iWrap o.ty (f l))) ws
    (∃ ws, Pending (.idiv o) s x c t o.h.stall.toNat ws fl ∧ gives q ws) ∧
    (∃ ws, Pending (.irem o) s x c t o.h.stall.toNat ws fl ∧ gives r ws)

/-- R156, R157, R161, R146: `nop`, `mov`, `movl`, `sel` and the bitwise words; `movl` goes on 16 bytes further.
R159: shifts, rotation and bit fields; B is an unsigned 32-bit amount or position, and an amount of W or
more gives 0, or the sign in every bit for `sar`.
R156, R157: `popc`, `clz`, `brev` and `icmp`, whose scalar form no crew has (R150). -/
def Obligations.LogicShiftsAndFields : Prop :=
  (∀ (s : State) (x : Ctx) (c : Crew) (t : State) (o : Alu) (h : Hdr) (ps : BitVec 3) (psn : Bool) (lit : W64),
    let w := o.ty.bits
    (s.ready [Hdr.use h [] []] = some (x, c, t) → exec (.nop h) s = .next (x.retires 8 h.stall.toNat t)) ∧
    (s.ready [Alu.use o { a := false }] = some (x, c, t) → AluGives (.mov o) s x c t o 4 (fun l => aluB o {} c l % 2 ^ w)) ∧
    (s.ready [Hdr.use o.h [] [if o.sc then sReg o.d else vReg o.d o.ty.regs]] = some (x, c, t) →
      let v := if o.ty.isInt then iExt o.ty (lit.toNat % 2 ^ w) else lit.toNat % 2 ^ w
      if o.sc then Fixed (.movl o.h true o.ty o.d lit) s x c t 16 o.h.stall.toNat 4 [sWrite o.d.toNat v] 0
      else ∃ ws, Fixed (.movl o.h false o.ty o.d lit) s x c t 16 o.h.stall.toNat 4 ws 0 ∧
        VecGives c x.act o.d.toNat o.ty.regs (fun _ => v) ws) ∧
    (s.ready [{ Alu.use o {} with src := (Alu.use o {}).src ++ [pReg ps.toNat] }] = some (x, c, t) →
      ∃ ws, Fixed (.sel o ps psn) s x c t 8 o.h.stall.toNat 4 ws 0 ∧ VecGives c x.act o.d.toNat o.ty.regs
        (fun l => iExt o.ty (if (c.rp ps.toNat l) ^^ psn then aluA o {} c l else aluB o {} c l)) ws) ∧
    (s.ready [Alu.use o {}] = some (x, c, t) →
      AluGives (.and o) s x c t o 4 (fun l => (aluA o {} c l &&& aluB o {} c l) % 2 ^ w) ∧
      AluGives (.or o) s x c t o 4 (fun l => (aluA o {} c l ||| aluB o {} c l) % 2 ^ w) ∧
      AluGives (.xor o) s x c t o 4 (fun l => (aluA o {} c l ^^^ aluB o {} c l) % 2 ^ w) ∧
      AluGives (.andn o) s x c t o 4 (fun l => (aluA o {} c l % 2 ^ w) &&& (2 ^ w - 1 - aluB o {} c l % 2 ^ w)))) ∧
  (∀ (s : State) (x : Ctx) (c : Crew) (t : State) (o : Alu) (len : BitVec 8),
    let w := o.ty.bits
    let u : AluUse := { b32 := true }
    let a (l : Nat) : Nat := aluA o u c l % 2 ^ w
    let n (l : Nat) : Nat := aluB o u c l % 2 ^ 32
    (s.ready [Alu.use o u] = some (x, c, t) →
      AluGives (.shl o) s x c t o 4 (fun l => if w ≤ n l then 0 else a l * 2 ^ n l % 2 ^ w) ∧
      AluGives (.shr o) s x c t o 4 (fun l => if w ≤ n l then 0 else a l / 2 ^ n l) ∧
      AluGives (.sar o) s x c t o 4 (fun l => iSar o.ty (a l) (n l)) ∧
      AluGives (.rot o) s x c t o 4 (fun l => (a l * 2 ^ (n l % w) + a l / 2 ^ (w - n l % w)) % 2 ^ w) ∧
      AluGives (.bfe o len) s x c t o 4 (fun l => iBfe o.ty len.toNat (a l) (n l))) ∧
    (s.ready [Alu.use o { b32 := true, c := true }] = some (x, c, t) →
      AluGives (.bfi o len) s x c t o 4 (fun l => iBfi o.ty len.toNat (aluA o u c l) (n l) (aluC o { c := true } c l)))) ∧
  (∀ (s : State) (x : Ctx) (c : Crew) (t : State) (o : Alu) (cc : BitVec 3),
    (s.ready [Alu.use o { b := false }] = some (x, c, t) →
      AluGives (.popc o) s x c t o 4 (fun l => (List.range o.ty.bits).countP (fun k => (aluA o {} c l).testBit k)) ∧
      AluGives (.clz o) s x c t o 4 (fun l => iClz o.ty (aluA o {} c l)) ∧
      AluGives (.brev o) s x c t o 4 (fun l => bitRev (aluA o {} c l) o.ty.bits)) ∧
    (s.ready [Alu.use o { pd := true }] = some (x, c, t) → o.sc = false →
      ∃ ws, Fixed (.icmp o cc) s x c t 8 o.h.stall.toNat 4 ws 0 ∧ PredGives x.act o.d.toNat
        (fun l => iCmp cc.toNat (iVal o.ty (aluA o {} c l)) (iVal o.ty (aluB o {} c l))) ws) ∧
    (s.cur = .crew x.key x.e → s.crew x.key = some c → o.sc = true →
      let c1 := c.settle s.now
      exec (.icmp o cc) s = .next (((s.setCrew x.key c1).markIssued c1).takeTrap x.key
        (mkTrap 0 x.e (c1.guard o.h.pred o.h.pn (c1.split x.e).mask) 0 (Instr.word (.icmp o cc)).toNat))))

/-- R160: `lea` adds B times 2^SH to A, B read as a signed or an unsigned 32-bit value, modulo the width; a constant -1 to -16 contributes its 32-bit
pattern. `prmt` picks byte k of its result out of the pool of A's and B's bytes by C[4k+3:4k], or repeats that byte's top bit. -/
def Obligations.LeaAndPermute : Prop :=
  (∀ (s : State) (x : Ctx) (c : Crew) (t : State) (o : Alu) (sh : BitVec 4) (sx : Bool), s.ready [Alu.use o { b32 := true }] = some (x, c, t) →
    let n (l : Nat) : Nat := c.opnd o.b 1 .i32 l % 2 ^ 32
    AluGives (.lea o sh sx) s x c t o 4 (fun l => iWrap o.ty (iVal o.ty (aluA o { b32 := true } c l) +
      (if sx then (BitVec.ofNat 32 (n l)).toInt else (n l : Int)) * (2 ^ sh.toNat : Nat)))) ∧
  (∀ k, 32 ≤ k → k < 48 → kBits .i32 k % 2 ^ 32 = 2 ^ 32 - (k - 31)) ∧
  (∀ (s : State) (x : Ctx) (c : Crew) (t : State) (o : Alu), s.ready [Alu.use o { c := true }] = some (x, c, t) →
    AluGives (.prmt o) s x c t o 4 (fun l => iPrmt (aluA o {} c l) (aluB o {} c l) (aluC o { c := true } c l))) ∧
  (∀ a b c k, k < 4 → iPrmt a b c < 2 ^ 32 ∧
    let sel := c / 16 ^ k % 16
    let p := (a % 2 ^ 32 + b % 2 ^ 32 * 2 ^ 32) / 256 ^ (sel % 8) % 256
    iPrmt a b c / 256 ^ k % 256 = if sel < 8 then p else if 128 ≤ p then 255 else 0)

/-! ## Floating-point words (R162 to R167) -/

/-- R163, R85 to R88: elementwise sums, differences, products and fused products, rounded by RND after ABS and NEG of the
operands (R147), with a latency of 5 cycles, or 10 for f64.
R165, R144: division, roots, reciprocals and transcendentals complete with their results on the scoreboard.
The model's choice or reading: the upper half of a 16-bit result, the sign of an exact zero, the precision of transcendentals (log entries 9 to 11). -/
def Obligations.FloatArithmetic : Prop :=
  (∀ (s : State) (x : Ctx) (c : Crew) (t : State) (o : Flt),
    let ty := o.ty.elem
    let lat := if o.ty = .f64 then 10 else 5
    let a (l k : Nat) : Nat := elemOf o.ty k (fltA o o.ty c l)
    let b (l k : Nat) : Nat := elemOf o.ty k (fltB o o.ty c l)
    let gives (i : Instr) (f : Nat → Nat → FRes) : Prop := FltGives i s x c t o o.ty.regs (some lat) (fun l => perElem o.ty (f l))
    (s.ready [fltSame o {}] = some (x, c, t) →
      gives (.fadd o) (fun l k => fSum ty o.rnd o.sat [fDec ty (a l k), fDec ty (b l k)]) ∧
      gives (.fsub o) (fun l k => fSum ty o.rnd o.sat [fDec ty (a l k), (fDec ty (b l k)).negate]) ∧
      gives (.fmul o) (fun l k => fMul ty o.rnd o.sat (fDec ty (a l k)) (fDec ty (b l k)))) ∧
    (s.ready [fltSame o { c := true }] = some (x, c, t) →
      gives (.fma o) (fun l k => fFma ty o.rnd o.sat (fDec ty (a l k)) (fDec ty (b l k))
        (fDec ty (elemOf o.ty k (fltC o o.ty c l)))))) ∧
  (∀ (s : State) (x : Ctx) (c : Crew) (t : State) (o : Flt),
    let a (l : Nat) : FVal := fDec o.ty (fltA o o.ty c l)
    let gives (i : Instr) (f : Nat → FRes) : Prop := FltGives i s x c t o o.ty.regs none f
    (s.ready [fltSame o {}] = some (x, c, t) →
      gives (.fdiv o) (fun l => fDiv o.ty o.rnd o.sat (a l) (fDec o.ty (fltB o o.ty c l)))) ∧
    (s.ready [fltSame o { b := false }] = some (x, c, t) →
      gives (.fsqrt o) (fun l => fSqrt o.ty o.rnd o.sat (a l)) ∧ gives (.frcp o) (fun l => fRcp o.ty o.rnd o.sat (a l)) ∧
      gives (.frsq o) (fun l => fRsq o.ty o.rnd o.sat (a l)) ∧ gives (.fexp2 o) (fun l => fExp2 o.ty o.rnd o.sat (a l)) ∧
      gives (.flog2 o) (fun l => fLog2 o.ty o.rnd o.sat (a l)) ∧ gives (.fsin o) (fun l => fSinPi o.ty o.rnd o.sat (a l)) ∧
      gives (.fcos o) (fun l => fCosPi o.ty o.rnd o.sat (a l))))

/-- R164: `fmin` and `fmax` select in each element: the canonical NaN of two NaNs, the other operand of one, and else the lesser or the greater,
with -0 below +0; NV for a signalling operand; the operand is the bits after its ABS and NEG. -/
def Obligations.MinMaxSelects : Prop :=
  (∀ (s : State) (x : Ctx) (c : Crew) (t : State) (o : Flt), s.ready [fltSame o {}] = some (x, c, t) →
    let lat := if o.ty = .f64 then 10 else 5
    let pick (maxi : Bool) (l : Nat) : FRes := perElem o.ty (fun k =>
      fMinMax o.ty.elem maxi (elemOf o.ty k (fltA o o.ty c l)) (elemOf o.ty k (fltB o o.ty c l)))
    FltGives (.fmin o) s x c t o o.ty.regs (some lat) (pick false) ∧ FltGives (.fmax o) s x c t o o.ty.regs (some lat) (pick true)) ∧
  (∀ (ty : Ty) (a b : Nat), ty.isFlt = true → a < 2 ^ ty.bits → b < 2 ^ ty.bits →
    let v := fDec ty a
    let w := fDec ty b
    let q (z : FVal) : ℚ := match z with | .num n m e => (if n then -1 else 1) * m * 2 ^ e | _ => 0
    let below (y z : FVal) : Prop := match y, z with
      | .inf n, .inf p => n = true ∧ p = false
      | .inf n, .num .. => n = true
      | .num .., .inf p => p = false
      | .num n _ _, .num p _ _ => q y < q z ∨ (q y = 0 ∧ q z = 0 ∧ n = true ∧ p = false)
      | _, _ => False
    ∀ maxi, let r := fMinMax ty maxi a b
      r.fl = (if v.isSig || w.isSig then Flags.nv else 0) ∧
      (v.isNaN = true → w.isNaN = true → r.bits = fNaN ty) ∧ (v.isNaN = true → w.isNaN = false → r.bits = b) ∧
      (v.isNaN = false → w.isNaN = true → r.bits = a) ∧
      (below v w → r.bits = if maxi then b else a) ∧ (below w v → r.bits = if maxi then a else b) ∧
      (v.isNaN = false → w.isNaN = false → ¬below v w → ¬below w v → a = b ∧ r.bits = a))

/-- R86: on overflow, which the flag OF marks and which every value of an exponent beyond the largest is, the result is the infinity or MAXF by mode and sign, and
MAXF of that sign under saturation, which also replaces an infinite operand delivered, without a flag; a NaN stays the canonical NaN. -/
def Obligations.OverflowResults : Prop :=
  ∀ (ty : Ty) (r : Rnd) (sat neg sig : Bool) (m : Nat) (e : Int), ty.isFlt = true →
    let emax : Int := Ty.emin ty + (Ty.expMax ty : Int) - 2
    let q := fRound ty r sat neg m e
    let inf : FVal := .inf neg
    let maxf : FVal := .num neg (2 ^ (Ty.frac ty + 1) - 1) (emax - Ty.frac ty)
    (q.fl.getLsbD 2 = true → q.fl = Flags.ovf ||| Flags.nx ∧ fDec ty q.bits = if sat then maxf else match r with
      | .rne => inf
      | .rz => maxf
      | .ru => if neg then maxf else inf
      | .rd => if neg then inf else maxf) ∧
    (0 < m → emax < (Nat.log2 m : Int) + e → q.fl.getLsbD 2 = true) ∧
    (fDec ty (fDeliver ty r sat (.inf neg)).bits = (if sat then maxf else inf) ∧ (fDeliver ty r sat (.inf neg)).fl = 0) ∧
    fDec ty (fDeliver ty r sat (.nan sig)).bits = .nan false

/-- R166, R163: `fcmp` gives a predicate and NV for a signalling NaN; `fclass`, `fscale` and `fround`.
R167, R163, R171: conversions between the types, the two-term dot product, the paired f32 product, `pack` and `unpack`.
R85, R86, R88 (f16 to f64): a finite value that a type holds exactly is delivered as it is, without flags; a value above half a
unit beyond the largest finite value gives OVF and NX and the infinity when rounding to nearest.
The model's choice or reading: the upper half of a 16-bit result (log entry 9). -/
def Obligations.FloatConversions : Prop :=
  (∀ (s : State) (x : Ctx) (c : Crew) (t : State) (o : Flt) (cc : BitVec 4),
    let a (l : Nat) : FVal := fDec o.ty (fltA o o.ty c l)
    let b (l : Nat) : FVal := fDec o.ty (fltB o o.ty c l)
    let lat (n : Nat) : Nat := if o.ty = .f64 then 10 else n
    (s.ready [Flt.use o {} o.ty.regs o.ty.regs 1 true] = some (x, c, t) →
      ∃ ws, Fixed (.fcmp o cc) s x c t 8 o.h.stall.toNat (lat 5) ws (Flags.any (x.act.lanes.map (fun l =>
        if (a l).isSig || (b l).isSig then Flags.nv else 0))) ∧ PredGives x.act o.d.toNat (fun l => fCmp cc.toNat (a l) (b l)) ws) ∧
    (s.ready [Flt.use o { b := false } o.ty.regs 1 1 false] = some (x, c, t) →
      FltGives (.fclass o) s x c t o 1 (some (lat 5)) (fun l => { bits := fClass o.ty (a l), fl := 0 })) ∧
    (s.ready [Flt.use o {} o.ty.regs 1 o.ty.regs false] = some (x, c, t) →
      FltGives (.fscale o) s x c t o o.ty.regs (some (lat 5)) (fun l =>
        fScale o.ty o.rnd o.sat (a l) (iVal .i32 (c.opnd o.b 1 .i32 l)))) ∧
    (s.ready [fltSame o { b := false }] = some (x, c, t) →
      FltGives (.fround o) s x c t o o.ty.regs (some (lat 6)) (fun l => fRoundInt o.ty o.rnd o.sat (a l)))) ∧
  (∀ (s : State) (x : Ctx) (c : Crew) (t : State) (o : Flt) (st : Ty),
    let lat := if o.ty = .f64 ∨ st = .f64 then 10 else 6
    (s.ready [Flt.use o { b := false } st.regs 1 o.ty.regs false] = some (x, c, t) →
      FltGives (.f2f o st) s x c t o o.ty.regs (some lat) (fun l => fDeliver o.ty o.rnd o.sat (fDec st (fltA o st c l))) ∧
      FltGives (.f2i o st) s x c t o o.ty.regs (some lat) (fun l =>
        let r := fToInt o.ty o.rnd (fDec st (fltA o st c l))
        { bits := iExt o.ty (iWrap o.ty r.1), fl := r.2 }) ∧
      FltGives (.i2f o st) s x c t o o.ty.regs (some lat) (fun l =>
        fDeliver o.ty o.rnd o.sat (fOfInt (iVal st (c.opnd o.a st.regs st l))))) ∧
    (s.ready [Flt.use o { c := true } 1 1 1 false] = some (x, c, t) →
      FltGives (.fdot2 o st) s x c t o 1 (some 5) (fun l =>
        let a := fltA o st c l
        let b := tySignOps st o.ab o.nb (c.opnd o.b 1 st l)
        fDot2 .f32 o.rnd o.sat (fDec st.elem (elemOf st 0 a)) (fDec st.elem (elemOf st 0 b)) (fDec st.elem (elemOf st 1 a))
          (fDec st.elem (elemOf st 1 b)) (fDec .f32 (fltC o .f32 c l)))) ∧
    (s.ready [Flt.use o { c := true } 2 2 2 false] = some (x, c, t) →
      FltGives (.fma2 o) s x c t o 2 (some 5) (fun l =>
        let el (v k : Nat) (ab ng : Bool) : FVal := fDec .f32 (tySignOps .f32 ab ng (v / 2 ^ (32 * k) % 2 ^ 32))
        let one (k : Nat) : FRes := fFma .f32 o.rnd o.sat (el (fma2Opnd c o.a l) k o.aa o.na) (el (fma2Opnd c o.b l) k o.ab o.nb)
          (el (c.rvs o.c.toNat l 2) k o.ac o.nc)
        { bits := (one 0).bits + 2 ^ 32 * (one 1).bits, fl := (one 0).fl ||| (one 1).fl })) ∧
    (s.ready [Flt.use o {} 1 1 1 false] = some (x, c, t) →
      FltGives (.pack o) s x c t o 1 (some 6) (fun l =>
        let a := fDeliver o.ty.elem o.rnd o.sat (fDec .f32 (fltA o .f32 c l))
        let b := fDeliver o.ty.elem o.rnd o.sat (fDec .f32 (fltB o .f32 c l))
        { bits := a.bits + 65536 * b.bits, fl := a.fl ||| b.fl })) ∧
    (s.ready [Flt.use o { b := false } 1 1 2 false] = some (x, c, t) →
      FltGives (.unpack o) s x c t o 2 (some 6) (fun l =>
        let one (k : Nat) : FRes := fDeliver .f32 .rne false (fDec o.ty.elem (elemOf o.ty k (fltA o o.ty c l)))
        { bits := (one 0).bits + 2 ^ 32 * (one 1).bits, fl := (one 0).fl ||| (one 1).fl }))) ∧
  (∀ (ty : Ty) (r : Rnd) (sat neg : Bool) (m : Nat) (e : Int), ty.isFlt = true → 0 < m → Nat.log2 m ≤ Ty.frac ty →
    Ty.emin ty ≤ (Nat.log2 m : Int) + e → (Nat.log2 m : Int) + e < Ty.emin ty + (Ty.expMax ty : Int) - 1 →
    fDec ty (fRound ty r sat neg m e).bits =
      (FVal.num neg (m * 2 ^ (Ty.frac ty - Nat.log2 m)) (e - (Ty.frac ty - Nat.log2 m : Nat))) ∧ (fRound ty r sat neg m e).fl = 0)

/-! ## Lane words (R168 to R171) -/

/-- R168, R169, R171: `shfl`, `vote`, `s2v`, `v2s`, `pmov`, `rng` and `mrd` complete; a shuffle whose source lane is not active reads
its own lane.
R170: `redux` and `scan` combine the active lanes in ascending order; no lane gives the operation's identity.
The model's choice or reading: the NaN of a reduction (log entry 10). -/
def Obligations.LaneWords : Prop :=
  (∀ (s : State) (x : Ctx) (c : Crew) (t : State) (h : Hdr) (ty : Ty) (d a : Reg) (b : Opnd) (mode : BitVec 2) (seg : BitVec 3)
    (negs first ds : Bool) (lut : BitVec 4) (q : Reg),
    let st := h.stall.toNat
    (s.ready [Hdr.use h (vReg a ty.regs :: Opnd.span b 1) [vReg d ty.regs]] = some (x, c, t) →
      ∃ ws, Fixed (.shfl h ty mode seg d a b) s x c t 8 st 6 ws 0 ∧ VecGives c x.act d.toNat ty.regs (fun l =>
        let j := shflLane mode.toNat (2 ^ seg.toNat) l (c.opnd b 1 .i32 l % 2 ^ 32)
        c.rvs a.toNat (if x.act.getLsbD j then j else l) ty.regs) ws) ∧
    (s.ready [Hdr.use h [pReg a.toNat] [if mode = 3 then sReg d else pReg d.toNat]] = some (x, c, t) →
      let p (l : Nat) : Bool := c.rp a.toNat l ^^ negs
      let yes (l : Nat) : Prop := x.act.getLsbD l = true → p l = true
      let no (l : Nat) : Prop := x.act.getLsbD l = true → p l = false
      ∃ ws, Fixed (.vote h mode negs d a) s x c t 8 st 6 ws 0 ∧
        (mode = 0 → ∃ v, ws = [pWrite d.toNat x.act (fun _ => v)] ∧ (v = true ↔ ∀ l, yes l)) ∧
        (mode = 1 → ∃ v, ws = [pWrite d.toNat x.act (fun _ => v)] ∧ (v = false ↔ ∀ l, no l)) ∧
        (mode = 2 → ∃ v, ws = [pWrite d.toNat x.act (fun _ => v)] ∧ (v = true ↔ (∀ l, yes l) ∨ ∀ l, no l)) ∧
        (mode = 3 → ∃ m : Mask, ws = [sWrite d.toNat m.toNat] ∧ ∀ l, l < 32 → m.getLsbD l = (x.act.getLsbD l && p l))) ∧
    (s.ready [Hdr.use h [sReg a] [vReg d ty.regs]] = some (x, c, t) →
      ∃ ws, Fixed (.s2v h ty d a) s x c t 8 st 4 ws 0 ∧ VecGives c x.act d.toNat ty.regs (fun _ => c.rs a.toNat) ws) ∧
    (s.ready [Hdr.use h (vReg a ty.regs :: (if first then [] else Opnd.span b 1)) [sReg d]] = some (x, c, t) →
      let j := if first then x.act.lanes.getD 0 0 else c.sval b % 2 ^ 32 % 32
      Fixed (.v2s h ty first d a b) s x c t 8 st 4
        [sWrite d.toNat (if x.act.getLsbD j then scalarOf ty (c.rvs a.toNat j ty.regs) else 0)] 0) ∧
    (s.ready [Hdr.use h [pReg a.toNat, pReg q.toNat] [pReg d.toNat]] = some (x, c, t) →
      ∃ ws, Fixed (.pmov h lut 0 d a q) s x c t 8 st 4 ws 0 ∧ PredGives x.act d.toNat
        (fun l => lut.getLsbD (2 * (c.rp a.toNat l).toNat + (c.rp q.toNat l).toNat)) ws) ∧
    (s.ready [Hdr.use h [pReg a.toNat] [sReg d]] = some (x, c, t) →
      Fixed (.pmov h lut 1 d a q) s x c t 8 st 4 [sWrite d.toNat (Mask.ofLanes (x.act.lanes.filter (c.rp a.toNat))).toNat] 0) ∧
    (s.ready [Hdr.use h [sReg a] [pReg d.toNat]] = some (x, c, t) →
      ∃ ws, Fixed (.pmov h lut 2 d a q) s x c t 8 st 4 ws 0 ∧
        PredGives x.act d.toNat (fun l => (c.rs a.toNat).testBit l) ws) ∧
    (s.ready [Hdr.use h (sReg a :: Opnd.span b 2) [vReg d 1]] = some (x, c, t) →
      ∃ ws, Fixed (.rng h ty d a b) s x c t 8 st 6 ws 0 ∧
        VecGives c x.act d.toNat 1 (fun l => rngVal ty (c.rs a.toNat) (c.opnd b 2 .i64 l)) ws) ∧
    (s.ready [(Hdr.use h [] [if ds then sReg d else vReg d (if a.toNat = 9 then 2 else 1)]).inDet (decide (6 ≤ a.toNat)) 0x44] =
        some (x, c, t) →
      if ds then Fixed (.mrd h true d a) s x c t 8 st 4 [sWrite d.toNat (specialReg t x.key c a.toNat 0)] 0
      else ∃ ws, Fixed (.mrd h false d a) s x c t 8 st 4 ws 0 ∧
        VecGives c x.act d.toNat (if a.toNat = 9 then 2 else 1) (specialReg t x.key c a.toNat) ws)) ∧
  (∀ (s : State) (x : Ctx) (c : Crew) (t : State) (h : Hdr) (ty : Ty) (op : BitVec 4) (rnd : Rnd) (excl : Bool) (d a : Reg),
    let v (l : Nat) : Nat := c.rvs a.toNat l ty.regs % 2 ^ ty.bits
    let comb (ls : List Nat) : FRes := reduxTerms op.toNat ty rnd (ls.map v)
    (s.ready [Hdr.use h [vReg a ty.regs] [sReg d]] = some (x, c, t) →
      Pending (.redux h ty op rnd d a) s x c t h.stall.toNat [sWrite d.toNat (reduxExt ty (comb x.act.lanes).bits)]
        (comb x.act.lanes).fl) ∧
    (s.ready [Hdr.use h [vReg a ty.regs] [vReg d ty.regs]] = some (x, c, t) →
      let pre (l : Nat) : List Nat := x.act.lanes.filter (fun j => decide (j < l) || (!excl && j == l))
      ∃ ws, Pending (.scan h ty op rnd excl d a) s x c t h.stall.toNat ws
          (Flags.any (x.act.lanes.map (fun l => (comb (pre l)).fl))) ∧
        VecGives c x.act d.toNat ty.regs (fun l => reduxExt ty (comb (pre l)).bits) ws))

/-! ## Paired words (R135 to R138) -/

/-- R136, R138: each of the 31 paired words (`hnop`, `hmov`, `hiadd`, `hisub`, `himul`, `hand`, `hor`, `hxor`, `hshl`, `hshr`,
`hsar`, `himin`, `himax`, `hfadd`, `hfsub`, `hfmul`, `hfmin`, `hfmax`, `hicmp`, `hfcmp`, `hsel`, `hneg`, `habs`, `hfneg`, `hf2i`,
`hi2f`, `hpopc`, `hclz`, `hmrd`, `hs2v`, `hshflx`, here by the X half `a`) completes with the results of both halves, each on its own
active lanes and with the latency of its full counterpart, both read before either writes.
R180: what a half gives to the lanes of its mask: the result of its full counterpart on D and A.
The model's choice or reading: a constant of fma2, the upper half of a 16-bit result (log entries 8 and 9). -/
def Obligations.PairedWords : Prop :=
  (∀ (s : State) (x : Ctx) (c : Crew) (t : State) (st : BitVec 3) (a b : Half),
    s.ready [Half.use a false, Half.use b true] = some (x, c, t) →
      let ra := halfResult a x.key c t (x.acts.getD 0 0)
      let rb := halfResult b x.key c t (x.acts.getD 1 0)
      let c1 := ((c.orFlags (ra.2 ||| rb.2)).addFix x.e (t.now + Half.lat a) ra.1).addFix x.e (t.now + Half.lat b) rb.1
      exec (Half.toInstr st a b) s = .next (x.retires 8 st.toNat (t.setCrew x.key c1))) ∧
  (∀ (key : Nat) (c : Crew) (s : State) (m : Mask) (o : HOp),
    let ty := hTy o
    let d (l : Nat) : Nat := c.rv o.d.toNat l
    let a (l : Nat) : Nat := hA o .i32 c l
    let ia (l : Nat) : Int := iVal ty (hA o ty c l)
    let id' (l : Nat) : Int := iVal ty (d l)
    let gives (h : Half) (f : Nat → Nat) : Prop :=
      VecGives c m o.d.toNat 1 f (halfResult h key c s m).1 ∧ (halfResult h key c s m).2 = 0
    let ext (z : Int) : Nat := iExt ty (iWrap ty z)
    halfResult (.hnop o) key c s m = ([], 0) ∧
    gives (.hmov o) a ∧ gives (.hs2v o) a ∧
    gives (.hiadd o) (fun l => ext (id' l + ia l)) ∧ gives (.hisub o) (fun l => ext (id' l - ia l)) ∧
    gives (.himul o) (fun l => ext (id' l * ia l)) ∧ gives (.himin o) (fun l => ext (min (id' l) (ia l))) ∧
    gives (.himax o) (fun l => ext (max (id' l) (ia l))) ∧ gives (.hneg o) (fun l => ext (-ia l)) ∧
    gives (.habs o) (fun l => ext |ia l|) ∧
    gives (.hand o) (fun l => d l &&& a l) ∧ gives (.hor o) (fun l => d l ||| a l) ∧ gives (.hxor o) (fun l => d l ^^^ a l) ∧
    gives (.hshl o) (fun l => if 32 ≤ a l then 0 else d l * 2 ^ a l % 2 ^ 32) ∧
    gives (.hshr o) (fun l => if 32 ≤ a l then 0 else d l / 2 ^ a l) ∧ gives (.hsar o) (fun l => iSar .n32 (d l) (a l)) ∧
    gives (.hsel o) (fun l => if c.rp (hMode o) l then a l else d l) ∧
    gives (.hpopc o) (fun l => (List.range 32).countP (fun k => (a l).testBit k)) ∧ gives (.hclz o) (fun l => iClz .n32 (a l)) ∧
    gives (.hshflx o) (fun l => let j := Nat.xor l (o.hm.toNat % 32); a (if m.getLsbD j then j else l)) ∧
    (let rnd := Rnd.ofCode (hMode o)
     let cc := if hMode o = 3 then 5 else hMode o
     let el (f : Nat → Nat → FRes) (l : Nat) : FRes := perElem ty (fun k => f (elemOf ty k (d l)) (elemOf ty k (hA o ty c l)))
     let flt (h : Half) (f : Nat → FRes) : Prop := VecGives c m o.d.toNat 1 (fun l => (f l).bits) (halfResult h key c s m).1 ∧
       (halfResult h key c s m).2 = Flags.any (m.lanes.map (fun l => (f l).fl))
     flt (.hfadd o) (el (fun x y => fSum ty.elem rnd false [fDec ty.elem x, fDec ty.elem y])) ∧
     flt (.hfsub o) (el (fun x y => fSum ty.elem rnd false [fDec ty.elem x, (fDec ty.elem y).negate])) ∧
     flt (.hfmul o) (el (fun x y => fMul ty.elem rnd false (fDec ty.elem x) (fDec ty.elem y))) ∧
     flt (.hfmin o) (el (fMinMax ty.elem false)) ∧ flt (.hfmax o) (el (fMinMax ty.elem true)) ∧
     flt (.hf2i o) (fun l => let r := fToInt ty rnd (fDec .f32 (hA o .f32 c l)); { bits := iExt ty (iWrap ty r.1), fl := r.2 }) ∧
     flt (.hi2f o) (fun l => fDeliver .f32 rnd false (fOfInt (iVal ty (hA o ty c l)))) ∧
     gives (.hfneg o) (fun l => tySignOps ty false true (hA o ty c l)) ∧
     gives (.hmrd o) (fun l => specialReg s key c (match o.a with | .v r => r.toNat | _ => 0) l % 2 ^ 32) ∧
     (PredGives m o.d.toNat (fun l => iCmp cc (iVal ty (hA o ty c l)) 0) (halfResult (.hicmp o) key c s m).1 ∧
       (halfResult (.hicmp o) key c s m).2 = 0) ∧
     (PredGives m o.d.toNat (fun l => fCmp cc (fDec ty (hA o ty c l)) (.num false 0 0)) (halfResult (.hfcmp o) key c s m).1 ∧
       (halfResult (.hfcmp o) key c s m).2 = Flags.any (m.lanes.map (fun l => if (fDec ty (hA o ty c l)).isSig then Flags.nv else 0)))))

/-! ## Control words (R172 to R179) -/

/-- R172, R173: `bra` with every lane of its split, or to the next word, moves the whole split; otherwise it divides the split, with
the taken lanes at the target and the others behind the word, and records that no longer fit on chip move to the spill area (R23);
a target of `brx` that is not a multiple of 8 raises ILL.
R22, R24: a division by `bra` of a crew of four split entries with a free entry `f`: the split keeps the lanes not taken behind the
word, the free entry gets the taken ones at the target, and both have on top a new record of all the lanes under the old top.
R26: `join` of a split without a record goes on; of one whose record waits for no other lane leaves the record; of one whose
record has pending lanes runs those and parks its own; of one whose record has live lanes elsewhere waits.
The model's choice or reading: the places of records past the sixteenth (log entry 22). -/
def Obligations.Branches : Prop :=
  (∀ (s : State) (x : Ctx) (c : Crew) (t : State) (h : Hdr) (off : BitVec 20) (a : Opnd),
    let sp := c.split x.e
    let target : Nat := ((((sp.pc + 8 : Nat) : Int) + 8 * off.toInt) % (2 ^ 64 : Nat)).toNat
    let goes (pc : Nat) : State := x.jumps [x.e] h.stall.toNat (t.setCrew x.key (c.updSplit x.e (fun p => { p with pc := pc })))
    (s.ready [Hdr.use h [] []] = some (x, c, t) →
      (x.act = sp.mask ∨ target = sp.pc + 8 → exec (.bra h off) s = .next (goes target)) ∧
      (x.act ≠ sp.mask → target ≠ sp.pc + 8 →
        Reshapes (.bra h off) s x c t h.stall.toNat (c.divide2 x.e target x.act))) ∧
    (s.ready [Hdr.use h (Opnd.span a 2) []] = some (x, c, t) →
      let ts := sp.mask.lanes.map (fun l => (l, if x.act.getLsbD l then c.opnd a 2 .n64 l else sp.pc + 8))
      ((∃ p ∈ ts, p.2 % 8 ≠ 0) → exec (.brx h a) s = .next ((t.markIssued c).takeTrap x.key
        (mkTrap 0 x.e x.act 0 (Instr.word (.brx h a)).toNat))) ∧
      ((∀ p ∈ ts, p.2 % 8 = 0) →
        (∀ g, groupsOf ts = [g] → exec (.brx h a) s = .next (goes g.1)) ∧
        (2 ≤ (groupsOf ts).length → Reshapes (.brx h a) s x c t h.stall.toNat (c.divideN x.e (groupsOf ts)))))) ∧
  (∀ (c : Crew) (e f target : Nat) (go : Mask), c.splits.length = 4 → e < 4 → c.freeEntry = some f → (c.split e).mask ≠ 0 →
    let sp := c.split e
    let r := c.divide2 e target go
    f < 4 ∧ f ≠ e ∧ r.2 = [e, f] ∧
    (r.1.split e).pc = sp.pc + 8 ∧ (r.1.split e).mask = sp.mask &&& ~~~go ∧
    (r.1.split f).pc = target ∧ (r.1.split f).mask = go ∧
    (∃ n, (r.1.split e).top = some n ∧ (r.1.split f).top = some n ∧
      ∃ v, Tab.get r.1.recs n = some v ∧ v.mask = sp.mask ∧ v.pend = 0 ∧ v.park = 0 ∧ v.parent = sp.top) ∧
    (∀ k, k ≠ e → k ≠ f → r.1.split k = c.split k)) ∧
  (∀ (s : State) (x : Ctx) (c : Crew) (t : State) (h : Hdr), s.ready [Hdr.use h [] []] = some (x, c, t) →
    let sp := c.split x.e
    let leaves (c1 : Crew) : Prop := Reshapes (.join h) s x c t h.stall.toNat (c1, [x.e])
    (sp.top = none → leaves (c.setSplit x.e { sp with pc := sp.pc + 8 })) ∧
    (∀ r, sp.top = some r →
      let v := c.rcd r
      (v.pend = 0 → v.mask &&& ~~~sp.mask = 0 →
        leaves { (c.setSplit x.e { sp with pc := sp.pc + 8, top := v.parent }) with recs := Tab.erase c.recs r }) ∧
      (v.pend ≠ 0 → leaves (
        ({ c with recs := Tab.set c.recs r { v with pend := 0, park := v.park ||| sp.mask, parkPC := sp.pc, parkE := some x.e } }).goTo
          x.e v.pendPC v.pend (some r))) ∧
      (let c1 := c.setSplit x.e { sp with wait := .join }
       let held := ((List.range 4).filter (c1.joined r)).foldl (fun m e => m ||| (c1.split e).mask) v.park
       Tab.get c.recs r = some v → v.pend = 0 → v.mask &&& ~~~sp.mask ≠ 0 → held &&& v.mask ≠ v.mask → c1.recsStay = true →
         exec (.join h) s = .next (x.jumps [] h.stall.toNat ((t.setCrew x.key c1).updCrew x.key (fun c =>
           c.updSplit x.e (fun sp => { sp with lastIssue := t.now })))))))

/-- R140, R174: with every live lane in its split, a nonzero frame, an aligned target and every result written, a `call` that spills
nothing puts the return address in s62, moves the window up and goes to its target; `ret` moves it back where the frame has not
been spilled; a return past the bottom raises BOUNDS, and on a crew a frame of 0 is no instruction (R150).
R139, R140: the window moved up by a `call`: vN of the new window is logical register N + F of the old one, and the registers it
exposes read 0. -/
def Obligations.CallsAndReturns : Prop :=
  (∀ (s : State) (x : Ctx) (c : Crew) (t : State) (h : Hdr) (f a : Reg) (off : BitVec 20),
    let sp := c.split x.e
    let target : Nat := ((((sp.pc + 8 : Nat) : Int) + 8 * off.toInt) % (2 ^ 64 : Nat)).toNat
    let n := 8 * f.toNat
    (f ≠ 0 → sp.mask = c.live → c.drained = true →
      let called (pc : Nat) : State := x.jumps [x.e] h.stall.toNat (t.updCrew x.key (fun v =>
        ((v.setS 62 (sp.pc + 8)).slide n c.lo).updSplit x.e (fun p => { p with pc := pc })))
      (s.ready [Hdr.use h [] [sReg 62]] = some (x, c, t) → c.callLo n = c.lo → target % 8 = 0 →
        exec (.call h f (.rel off)) s = .next (called target)) ∧
      (s.ready [Hdr.use h [sReg a] [sReg 62]] = some (x, c, t) → c.callLo n = c.lo → c.rs a.toNat % 8 = 0 →
        exec (.call h f (.reg a)) s = .next (called (c.rs a.toNat))) ∧
      (s.ready [Hdr.use h [sReg a] []] = some (x, c, t) → n ≤ c.wb → c.lo ≤ c.wb - n → c.rs a.toNat % 8 = 0 →
        exec (.ret h f a) s = .next (x.jumps [x.e] h.stall.toNat (t.updCrew x.key (fun v =>
          { v with vr := (c.slideBack n).vr, wb := c.wb - n, lo := c.lo }.updSplit x.e (fun p => { p with pc := c.rs a.toNat }))))) ∧
      (s.ready [Hdr.use h [sReg a] []] = some (x, c, t) → c.wb < n → c.rs a.toNat % 8 = 0 →
        exec (.ret h f a) s = .next ((t.markIssued c).takeTrap x.key (mkTrap 6 x.e x.act 0 0)))) ∧
    (∀ key e c0, s.cur = .crew key e → s.crew key = some c0 →
      let c1 := c0.settle s.now
      ∀ i, i = .call h 0 (.rel off) ∨ i = .call h 0 (.reg a) ∨ i = .ret h 0 a →
        exec i s = .next (((s.setCrew key c1).markIssued c1).takeTrap key
          (mkTrap 0 e (c1.guard h.pred h.pn (c1.split e).mask) 0 i.word.toNat)))) ∧
  (∀ (c : Crew) (f n lane : Nat), lane < 32 → n < c.win →
    (c.slide f c.lo).wb = c.wb + f ∧ (c.slide f c.lo).rv n lane = (if n + f < c.win then c.rv (n + f) lane else 0))

/-- R27, R175, R176, R179: `exit` ends the active lanes and `kill` every live lane of the crew, with the split's other lanes behind the
word, at once where no record moves between the chip and the spill area, and in DET for the crew's last lanes once no hold stands on
the bytes that a phase it completes merges (R72); `yield` gives up the turn; `tfence` goes on when none of its flags is set, and
raises ARITH otherwise. -/
def Obligations.EndingAndPacing : Prop :=
  ∀ (s : State) (x : Ctx) (c : Crew) (t : State) (h : Hdr) (mask : BitVec 5),
    (s.ready [Hdr.use h [] []] = some (x, c, t) →
      Ends (.exit h) s x c t h.stall.toNat x.act ∧ Ends (.kill h) s x c t h.stall.toNat c.live ∧
      exec (.yield h) s = .next (x.jumps [] h.stall.toNat ((t.setCrew x.key (c.updSplit x.e (fun p =>
        { p.after t.now h.stall.toNat with pc := p.pc + 8, yielded := true }))).markIssued c)) ∧
      (statusFlags c.status &&& mask = 0 → exec (.tfence h mask) s = .next (x.retires 8 h.stall.toNat t)) ∧
      (statusFlags c.status &&& mask ≠ 0 → exec (.tfence h mask) s = .next ((t.markIssued c).takeTrap x.key
        (mkTrap 2 x.e x.act 0 (statusFlags c.status).toNat))))

/-- R177, R178: `loop` with active lanes takes 1 from sD, modulo 2^64, and the whole split goes to the target while the new sD is not 0, and on otherwise; with
none it only goes on. `trapi` with active lanes raises SOFT with its number in AUX, for those lanes, and its split stays at the word; with none it goes on. -/
def Obligations.LoopAndTrapi : Prop :=
  ∀ (s : State) (x : Ctx) (c : Crew) (t : State) (h : Hdr) (d : Reg) (off : BitVec 20) (n : BitVec 16),
    (s.ready [Hdr.use h [sReg d] [sReg d]] = some (x, c, t) →
      let sp := c.split x.e
      let v := (c.rs d.toNat + 2 ^ 64 - 1) % 2 ^ 64
      let pc := if v = 0 then sp.pc + 8 else ((((sp.pc + 8 : Nat) : Int) + 8 * off.toInt) % (2 ^ 64 : Nat)).toNat
      exec (.loop h d off) s = .next (x.jumps [x.e] h.stall.toNat (t.setCrew x.key
        ((c.addFix x.e (t.now + 4) [sWrite d.toNat v]).updSplit x.e (fun p => { p with pc := pc }))))) ∧
    (s.ready [Hdr.use h [] []] = some (x, c, t) → ∀ g, t.gang (keyGid x.key) = some g →
      (t.trapRegs (t.gangAsid (keyGid x.key))).hen.getLsbD 5 = true → ∃ u w, exec (.trapi h n) s = .next u ∧ u.crew x.key = some w ∧
        (∃ tr, w.trap = some tr ∧ tr.cls = 5 ∧ tr.entry = x.e ∧ tr.detail = 0 ∧ tr.lanes = x.act ∧ tr.aux = n.toNat ∧
          tr.since = s.now ∧ tr.inService = false) ∧
        w.splits = c.splits ∧ u.mem = s.mem) ∧
    (∀ key e c0, s.cur = .crew key e → s.crew key = some c0 →
      let c1 := c0.settle s.now
      c1.guard h.pred h.pn (c1.split e).mask = 0 →
        let on : State := (s.setCrew key c1).retire key e 8 h.stall.toNat
        (c0.boardFree (Hdr.use h [sReg d] [sReg d]) = true → exec (.loop h d off) s = .next (on.boundary key)) ∧
        (c0.boardFree (Hdr.use h [] []) = true → exec (.trapi h n) s = .next (on.boundary key)))

/-- R150, R130: a word that is no instruction raises ILL with the word in AUX; a failing fetch raises MEM with FETCH, or FETCHTAIL for
the literal, at the word's address in every lane of the split. -/
def Obligations.IllegalWordsAndFetchFaults : Prop :=
  ∀ (s : State) (key e : Nat) (c : Crew) (w va : W64) (tail : Bool), s.cur = .crew key e → s.crew key = some c →
    (∃ act, exec (.illegalEncoding w) s = .next (((s.setCrew key (c.settle s.now)).markIssued (c.settle s.now)).takeTrap key
      (mkTrap 0 e act 0 w.toNat))) ∧
    exec (.fetchFault va tail) s = .next ((s.markIssued c).takeTrap key
      (laneTrap 1 e ((c.split e).mask.lanes.map (fun l => (l, va.toNat, if tail then 2 else 1))) 0))

/-! ## Memory words (R181 to R197) -/

/-- R183: the effective address of a per-lane access: the 64-bit A plus B, read as a signed 32-bit value, times 2^SH, modulo 2^64.
R184: the checks of one lane's access of `n` bytes. Global space: an address of 2^57 or more fails with NONCANON, then a misaligned
one with MISALIGN, both of class MEM; scratch and parameters: bytes past their end fail with BOUNDS, then misalignment. WRITE stands beside
the flags of a store and an atomic. An access in scratch or the parameters that passes goes to its own offset.
R184: when a lane fails, and no lane awaits a translation, none performs its access: an `st` whose lowest failing lane has class
`cls` traps with that class, and its lanes of that class; an `ld` does too, unless a lane below it would read poison: then it traps with
INTEGRITY.
The model's choice or reading: the detail of several lanes (log entry 19). -/
def Obligations.MemoryAddresses : Prop :=
  (∀ (o : Mem) (c : Crew) (l : Nat),
    memEa o c l < 2 ^ 64 ∧
    ((memEa o c l : Nat) : Int) % (2 ^ 64 : Nat) =
      ((c.opnd o.a 2 .n64 l : Nat) + (BitVec.ofNat 32 (c.opnd o.b 1 .i32 l)).toInt * (2 ^ o.sh.toNat : Nat) : Int) % (2 ^ 64 : Nat)) ∧
  (∀ (s : State) (u : Agent) (gid : Nat) (ws : List WalkFail) (kind ea n : Nat), kind ≤ 2 →
    let wr := if kind = 0 then 0 else 32
    let size := match s.gang gid with | some g => g.scrSz | none => 0
    (2 ^ 57 ≤ ea → s.checkLane u gid ws .gl kind ea n = .bad 1 (8 + wr) 0) ∧
    (ea < 2 ^ 57 → ea % n ≠ 0 → s.checkLane u gid ws .gl kind ea n = .bad 1 (4 + wr) 0) ∧
    (size < ea + n → s.checkLane u gid ws .sp kind ea n = .bad 6 wr 0) ∧
    (ea + n ≤ size → ea % n ≠ 0 → s.checkLane u gid ws .sp kind ea n = .bad 1 (4 + wr) 0) ∧
    (ea + n ≤ size → ea % n = 0 → s.checkLane u gid ws .sp kind ea n = .at (.scr ea)) ∧
    ((s.params gid).length < ea + n → s.checkLane u gid ws .pm kind ea n = .bad 6 0 0) ∧
    (ea + n ≤ (s.params gid).length → ea % n ≠ 0 → s.checkLane u gid ws .pm kind ea n = .bad 1 4 0) ∧
    (ea + n ≤ (s.params gid).length → ea % n = 0 → s.checkLane u gid ws .pm kind ea n = .at (.prm ea))) ∧
  (∀ (s : State) (x : Ctx) (c : Crew) (t : State) (o : Mem) (cls aux : Nat) (ls : List (Nat × Nat × Nat)),
    let u : Agent := .core c.core
    let eas := laneEas o c x.act
    let check (kind : Nat) : Chk := t.checkAll u (.split x.key x.e) (keyGid x.key) c.walks o.space kind (memBytes o.ty) eas
    let first : Nat := (ls.map (fun l => l.1)).getD 0 0
    let good := eas.filterMap (fun e => match t.checkLane u (keyGid x.key) c.walks o.space 0 e.2 (memBytes o.ty) with
      | .at l => some (e.1, e.2, l)
      | _ => none)
    let traps (i : Instr) (t1 : State) (d : Crew) (tr : Trap) : Prop := exec i s = .next ((t1.markIssued d).takeTrap x.key tr)
    (s.ready [Mem.use o true 0 (Ty.memRegs o.ty)] = some (x, c, t) → check 1 = .fail cls ls aux →
      traps (.st o) t c (laneTrap cls x.e ls aux)) ∧
    (∀ line, s.ready [Mem.use o true (Ty.memRegs o.ty) 0] = some (x, c, t) → check 0 = .fail cls ls aux →
      ((∀ g ∈ good, first ≤ g.1) → traps (.ld o line) t c (laneTrap cls x.e ls aux)) ∧
      ((∃ g ∈ good, g.1 < first) → ∀ t1 bad d, t.poisonMet x.key c.core (memBytes o.ty) good = (t1, bad) → t1.crew x.key = some d →
        ((∃ b ∈ bad, b.1 < first) → traps (.ld o line) t1 d (laneTrap 8 x.e (bad.map (fun b => (b.1, b.2 / 32 * 32, 0))) 0)) ∧
        ((∀ b ∈ bad, first ≤ b.1) → traps (.ld o line) t1 d (laneTrap cls x.e ls aux)))))

/-- R182, R187 to R189: `ld`, `lds` and an `ldp` whose comparison holds complete once every lane's address passes its checks and the
bytes are there: the destination gets each lane's little-endian bytes, extended as the type says, and an acquiring order raises `pts`.
R187, R181, R353: what a load gives outside DET: from scratch and the parameters the bytes at its offset; from memory, when the L1
serves every byte and no sector is poisoned, the bytes the crew sees there.
The model's choice or reading: a word waits at issue for its bytes (log entry 18). -/
def Obligations.Loads : Prop :=
  (∀ (s : State) (x : Ctx) (c : Crew) (t s1 : State) (o : Mem) (line : Bool) (cc : BitVec 4) (locs : List (Nat × Loc))
    (bs : List (Nat × List Byte)),
    let n := memBytes o.ty
    let check (eas : List (Nat × Nat)) : Chk :=
      t.checkAll (.core c.core) (.split x.key x.e) (keyGid x.key) c.walks o.space 0 n eas
    let lane0 := x.act.lanes.getD 0 0
    let value (l : Nat) : Nat := laneVal (bs.map (fun b => (b.1, leVal b.2))) l
    let loads (i : Instr) (ord : Order) (ws : List RegWrite) : Prop :=
      exec i s = .next (x.retires 8 o.h.stall.toNat
        ((s1.updCrew x.key (fun v => { v with pts := s1.loadPts x.key c o.scope ord n locs })).updCrew x.key (fun v => v.addPend x.e ws)))
    let one := Hdr.use o.h (Opnd.span o.a 1 ++ Opnd.span o.b 1) [sReg o.d]
    (s.ready [Mem.use o true (Ty.memRegs o.ty) 0] = some (x, c, t) → check (laneEas o c x.act) = .ok locs →
      t.load x.key x.e c o.scope o.order line x.det n (laneEas o c x.act) locs = .bytes s1 bs →
      ∃ ws, loads (.ld o line) o.order ws ∧
        VecGives c x.act o.d.toNat (Ty.memRegs o.ty) (fun l => loadExt o.ty (value l)) ws) ∧
    (s.ready [one] = some (x, c, t) → check [(lane0, memEa o c 0)] = .ok locs →
      t.load x.key x.e c o.scope o.order line x.det n [(lane0, memEa o c 0)] locs = .bytes s1 bs →
      loads (.lds o line) o.order [sWrite o.d.toNat (loadExtS o.ty (value lane0))]) ∧
    (s.ready [one] = some (x, c, t) → check [(lane0, c.sval o.a)] = .ok locs → (c.split x.e).got = [] →
      t.load x.key x.e c o.scope .rx false x.det n [(lane0, c.sval o.a)] locs = .bytes s1 bs →
      let v := leVal ((bs.map Prod.snd).getD 0 [])
      (ldpCond cc.toNat o.ty v (c.sval o.b) = true →
        loads (.ldp o cc) o.order [sWrite o.d.toNat (iExt o.ty v)]) ∧
      (ldpCond cc.toNat o.ty v (c.sval o.b) = false →
        exec (.ldp o cc) s = .next ((s1.updCrew x.key (fun v => v.updSplit x.e (fun sp => { sp with got := [] }))).holdWord
          x.key x.e (.ldp o cc) (.poll s1.now))))) ∧
  (∀ (s : State) (key e : Nat) (c : Crew) (sc : Scope) (ord : Order) (whole : Bool) (n lane ea off pa : Nat) (g : Gang),
    (s.gang (keyGid key) = some g → g.scrPoison = [] → g.scrBadChk = [] →
      s.load key e c sc ord whole false n [(lane, ea)] [(lane, .scr off)] = .bytes s [(lane, Cells.bytes g.scr off n)]) ∧
    s.load key e c sc ord whole false n [(lane, ea)] [(lane, .prm off)] =
      .bytes s [(lane, (List.range n).map (fun k => (s.params (keyGid key)).getD (off + k) 0))] ∧
    (pa % 128 + n ≤ 128 → s.freshOnly sc (pa / 128) = false →
      (∀ k, k < n → s.byteReady key c (pa / 128) (pa % 128 + k) = true) →
      (∀ k, k < n → s.l1Poison key c.core (pa / 128) (pa % 128 + k) = false) →
      s.load key e c sc ord whole false n [(lane, ea)] [(lane, .phys pa)] =
        .bytes s [(lane, (List.range n).map (fun k => s.l1Byte key c.core (pa / 128) (pa % 128 + k)))]))

/-- R187, R188, R54, R56: `st` and `sts` outside DET complete once every lane's address passes its checks, no light fence holds them
back, a release has published what it must, and the bytes may go into their unit: the bytes of scratch take the data at once, highest
lane last, those of memory go the way of their scope, and a release raises the floor of its level; device memory itself is as before. In
DET (R70) the buffer of the gang takes every lane's bytes, or the word raises BOUNDS in the lanes that find no place.
R187, R47, R54: the frame of a store of bytes in memory, and of bytes in scratch of gang `gid` that has no poisoned sector and no bad
check value, while no sector of device memory has a bad check value: the memory behind the homes, other gangs' scratch, and every register of every crew are as before; a scratch byte outside the
stored ones reads as before, a stored one as the last byte stored there.
R54, R353, R355: a narrow store that makes the first dirty bytes of a line in its unit tells the home with a HOLD, and its bytes
stay in the unit at its scope; a store of device scope or wider sends the bytes to the home at once and awaits the acknowledgement; no sector
of device memory has a bad check value, and the narrow byte's is not poisoned (R75, R76).
The model's choice or reading: a word is performed at one instant, two narrow scopes on one byte (log entries 60 and 64). -/
def Obligations.Stores : Prop :=
  (∀ (s : State) (x : Ctx) (c : Crew) (t : State) (o : Mem) (locs : List (Nat × Loc)),
    let n := memBytes o.ty
    let gid := keyGid x.key
    let check (eas : List (Nat × Nat)) : Chk := t.checkAll (.core c.core) (.split x.key x.e) gid c.walks o.space 1 n eas
    let at' (f : Loc → Option Nat) (v : Nat → Nat) : List (Nat × Byte) := locs.flatMap (fun l => match f l.2 with
      | some a => (List.range (leBytes (v l.1) n).length).zip (leBytes (v l.1) n) |>.map (fun b => (a + b.1, b.2))
      | none => [])
    let phys (v : Nat → Nat) := at' (fun l => match l with | .phys pa => some pa | _ => none) v
    let scr (v : Nat → Nat) := (at' (fun l => match l with | .scr off => some off | _ => none) v).foldl
      (fun (m : Tab Byte) b => Tab.set m b.1 b.2) []
    let next (i : Instr) (u : State) : Prop := exec i s = .next (x.retires 8 o.h.stall.toNat u)
    let stores (i : Instr) (eas : List (Nat × Nat)) (v : Nat → Nat) : Prop :=
      (x.det = false → c.fenced x.act = false → ∀ u0 u,
        (if o.order.code < 2 then u0 = t else t.releaseReady x.key o.scope = (u0, true)) →
        u0.storeReady c.core o.scope (byLine (phys v)) = (u, true) →
        let w := (u.storePhys x.key x.e c.core o.scope o.order (phys v)).scrPutAll gid (scr v)
        (o.order.code < 2 → next i w) ∧
        (2 ≤ o.order.code → next i (w.releaseFloor c.core (if (scr v).isEmpty then o.scope else .gg) c.pts))) ∧
      (x.det = true → ∀ g, t.gang gid = some g →
        let r := g.bufferAll (if o.order.code < 2 then 0 else o.scope.code + 1) (locs.map (fun l =>
          (l.1, t.logicalLane x.key l.1, (match l.2 with | .phys _ => 0 | _ => 1),
            (match l.2 with | .phys a | .scr a | .prm a => a), leBytes (v l.1) n)))
        (r.2 = [] → next i (t.setGang gid r.1)) ∧
        (r.2 ≠ [] → exec i s = .next ((t.markIssued c).takeTrap x.key
          (laneTrap 6 x.e (r.2.map (fun f => (f.1, eaOf eas f.1, 32))) 0))))
    (∀ l ∈ locs, ∀ pa, l.2 = .phys pa → t.notOwned pa = none) →
      (s.ready [Mem.use o true 0 (Ty.memRegs o.ty)] = some (x, c, t) → check (laneEas o c x.act) = .ok locs →
        stores (.st o) (laneEas o c x.act) (fun l => c.rvs o.c.toNat l (Ty.memRegs o.ty))) ∧
      (s.ready [Hdr.use o.h (Opnd.span o.a 1 ++ Opnd.span o.b 1 ++ [sReg o.d]) []] = some (x, c, t) →
        let eas := [(x.act.lanes.getD 0 0, memEa o c 0)]
        check eas = .ok locs → stores (.sts o) eas (fun _ => c.rs o.d.toNat))) ∧
  (∀ (s : State) (key e core : Nat) (sc : Scope) (ord : Order) (bs ss : List (Nat × Byte)) (gid : Nat) (g : Gang),
    s.gang gid = some g → g.scrPoison = [] → g.scrBadChk = [] → s.badChk = [] →
    let t := (s.storePhys key e core sc ord bs).scrPutAll gid (ss.foldl (fun (m : Tab Byte) b => Tab.set m b.1 b.2) [])
    t.mem = s.mem ∧ (∀ h, h ≠ gid → t.gang h = s.gang h) ∧
    (∃ g1, t.gang gid = some g1 ∧ g1.scrPoison = [] ∧ ∀ a, Cells.get g1.scr a =
      match ss.reverse.find? (fun b => b.1 == a) with | some b => b.2 | none => Cells.get g.scr a) ∧
    (∀ k c, s.crew k = some c → ∃ d, t.crew k = some d ∧ { d with acks := c.acks } = c)) ∧
  (∀ (s : State) (key e core line off : Nat) (b : Byte) (c : Crew) (ord : Order) (sc : Scope),
    s.crew key = some c → off < 128 →
    (sc.code < 2 → s.spans (.core core) = [] → s.badChk = [] → s.homePoison line (32 * (off / 32)) = false →
      let t := s.storePhys key e core sc ord [(line * 128 + off, b)]
      (∃ v d, t.span (.core core) line = some v ∧ v.dirty = [d] ∧ d.crew = key ∧ d.scope = sc ∧ d.sent = none ∧
        (∀ k, d.has k = decide (k = off)) ∧ d.byte off = b) ∧
      ∃ id p, Tab.get t.net id = some p ∧ p.kind = .hold sc ∧ p.line = line ∧ p.src = .core core) ∧
    (3 ≤ sc.code → s.span (.core core) line = none → s.span (.cluster (clusterOf core)) line = none →
      let t := s.storePhys key e core sc ord [(line * 128 + off, b)]
      ∃ id p d, Tab.get t.net id = some p ∧ p.kind = .write ∧ p.line = line ∧ p.crew = key ∧ p.pts = c.pts ∧
        p.bytes = [(off, BitVec.ofNat 9 (256 + b.toNat))] ∧
        t.crew key = some d ∧ d.acks = c.acks ++ [{ pkt := id, line := line, bytes := [off] }]))

/-- R60, R192, R193: the lanes of an atomic at one location in ascending order: each gets the value the lanes before it left; an
operation leaves its own result (R192's table), a compare-and-swap the new value where the expected one was found.
R191 to R193, R60, R55: `atom`, `acas` and `red` whose lanes all name one location of scratch without errors: the group is performed
at once, and the returning words give each lane the value it found; a release waits for what it must publish and raises the floor, an
acquire takes the floor of the core.
R48, R184, R191, R353, R354: `atom`, `acas` and `red` at device scope or wider in memory, where the cluster unit holds no dirty byte of the
lines and a release has published what it must: an ATOM goes to the home of each line, and `red` is complete with that; a returning word
waits for the answers of its requests, or traps where a lane would meet poison.
The model's choice or reading: the messages of a narrow atomic, poison in some lanes (log entries 13 and 65). -/
def Obligations.Atomics : Prop :=
  (∀ (ty : Ty) (op lane x new m : Nat) (rest : List (Nat × Nat × Nat)), ty.isInt = true → m < 2 ^ ty.bits → 4 ≤ ty.bits →
    let w := 2 ^ ty.bits
    let left := atomNew op ty m x
    (atomGroup op false ty ((lane, x, new) :: rest) m =
      ((lane, m) :: (atomGroup op false ty rest left).1, (atomGroup op false ty rest left).2.1, true)) ∧
    (x % w = m → atomGroup op true ty [(lane, x, new)] m = ([(lane, m)], new % w, true)) ∧
    (x % w ≠ m → atomGroup op true ty [(lane, x, new)] m = ([(lane, m)], m, false)) ∧
    atomNew 0 ty m x = (m + x) % w ∧
    atomNew 1 ty m x = iWrap ty (min (iVal ty m) (iVal ty x)) ∧ atomNew 2 ty m x = iWrap ty (max (iVal ty m) (iVal ty x)) ∧
    atomNew 3 ty m x = (m &&& x) % w ∧ atomNew 4 ty m x = (m ||| x) % w ∧ atomNew 5 ty m x = (m ^^^ x) % w ∧
    atomNew 6 ty m x = x % w ∧
    atomNew 7 ty m x = (if x % w ≤ m then 0 else m + 1) ∧
    atomNew 8 ty m x = (if m = 0 ∨ x % w < m then x % w else m - 1)) ∧
  (∀ (s : State) (x : Ctx) (c : Crew) (t u : State) (o : Mem) (op : BitVec 4) (off : Nat) (g : Gang),
    let n := o.ty.bits / 8
    let lanes := x.act.lanes
    let data (f : Nat → Nat × Nat) : List (Nat × Nat × Nat) := lanes.map (fun l => (l, (f l).1, (f l).2))
    let found (a : Nat) (cas : Bool) (f : Nat → Nat × Nat) : List (Nat × Nat) × Nat × Bool :=
      atomGroup a cas o.ty (data f) (leVal (g.scrBytes off n))
    let left (ret : Bool) (r : List (Nat × Nat) × Nat × Bool) : State :=
      let u1 := if r.2.2 then u.scrPut (keyGid x.key) off (leBytes r.2.1 n) else u
      let u2 := if ordRel ret o.order then u1.releaseFloor c.core .gg c.pts else u1
      u2.updCrew x.key (fun v => { v with pts := if ordAcq ret o.order then Ts.smax c.pts (u2.core c.core).crf else c.pts })
    let one (l : Nat) : Nat × Nat := (c.rvs o.c.toNat l o.ty.regs, 0)
    let two (l : Nat) : Nat × Nat := (c.rvs o.c.toNat l o.ty.regs, c.rvs (o.c.toNat + o.ty.regs) l o.ty.regs)
    let returns (i : Instr) (r : List (Nat × Nat) × Nat × Bool) : Prop :=
      ∃ ws, exec i s = .next (x.retires 8 o.h.stall.toNat ((left true r).updCrew x.key (fun v => v.addPend x.e ws))) ∧
        VecGives c x.act o.d.toNat o.ty.regs (fun l => laneVal r.1 l) ws
    let from' (ret : Bool) : Prop := if ordRel ret o.order then t.releaseReady x.key .gg = (u, true) else u = t
    t.checkAll (.core c.core) (.split x.key x.e) (keyGid x.key) c.walks o.space 2 n (laneEas o c x.act) =
        .ok (lanes.map (fun l => (l, .scr off))) →
      u.gang (keyGid x.key) = some g → g.scrPoison = [] → g.scrBadChk = [] → c.fenced x.act = false → o.space = .sp →
      (s.ready [(Mem.use o true o.ty.regs o.ty.regs).inDet true 0x65] = some (x, c, t) → from' true →
        returns (.atom o op) (found op.toNat false one)) ∧
      (s.ready [(Mem.use o true o.ty.regs (2 * o.ty.regs)).inDet true 0x66] = some (x, c, t) → from' true →
        returns (.acas o) (found 6 true two)) ∧
      (s.ready [(Mem.use o true 0 o.ty.regs).inDet (!o.ty.isInt) 0x67] = some (x, c, t) → from' false →
        exec (.red o op) s = .next (x.retires 8 o.h.stall.toNat (left false (found op.toNat false one))))) ∧
  (∀ (s : State) (x : Ctx) (c : Crew) (t u : State) (o : Mem) (op : BitVec 4) (locs : List (Nat × Loc)),
    let eas := laneEas o c x.act
    let pa (l : Loc) : Nat := match l with | .phys p => p | .scr p | .prm p => p
    let lanes (f : Nat → Nat × Nat) : List AtomLane :=
      locs.map (fun l => { lane := l.1, loc := l.2, x := (f l.1).1, new := (f l.1).2 })
    let one (l : Nat) : Nat × Nat := (c.rvs o.c.toNat l o.ty.regs, 0)
    let two (l : Nat) : Nat × Nat := (c.rvs o.c.toNat l o.ty.regs, c.rvs (o.c.toNat + o.ty.regs) l o.ty.regs)
    let from' (ret : Bool) : Prop := if ordRel ret o.order then t.releaseReady x.key o.scope = (u, true) else u = t
    let clean (v : State) : Prop := ∀ l ∈ locs, ∀ sp, v.span (.cluster (clusterOf c.core)) (pa l.2 / 128) = some sp → sp.dirty = []
    let met (f : Nat → Nat × Nat) : State × List (Nat × Nat) :=
      u.poisonMet x.key c.core (o.ty.bits / 8) (((lanes f).filter (fun l => c.acks.all (fun k => k.line != pa l.loc / 128))).map
        (fun l => (l.lane, eaOf eas l.lane, l.loc)))
    t.checkAll (.core c.core) (.split x.key x.e) (keyGid x.key) c.walks o.space 2 (o.ty.bits / 8) eas = .ok locs →
      (∀ l ∈ locs, ∀ a, l.2 = .phys a → t.notOwned a = none) → c.fenced x.act = false → o.space = .gl → 3 ≤ o.scope.code →
      let op' (a : Nat) (cas ret : Bool) (d : Reg) : AtomOp :=
        { op := a, cas := cas, ret := ret, ty := o.ty, d := d, scope := o.scope, order := o.order }
      let returns (i : Instr) (a : AtomOp) (f : Nat → Nat × Nat) : Prop :=
        ((met f).2 = [] → clean (met f).1 → let r := sendAtoms x c (met f).1 a (lanes f)
          exec i s = .next ((r.1.updCrew x.key (fun v => { v with reqs := v.reqs ++ r.2 })).holdWord x.key x.e i .reply)) ∧
        ((met f).2 ≠ [] → ∀ d, (met f).1.crew x.key = some d →
          exec i s = .next (((met f).1.markIssued d).takeTrap x.key (poisonTrap x.e (met f).2)))
      (s.ready [(Mem.use o true 0 o.ty.regs).inDet (!o.ty.isInt) 0x67] = some (x, c, t) → from' false → clean u →
        exec (.red o op) s = .next (x.retires 8 o.h.stall.toNat (sendAtoms x c u (op' op.toNat false false 0) (lanes one)).1)) ∧
      (s.ready [(Mem.use o true o.ty.regs o.ty.regs).inDet true 0x65] = some (x, c, t) → from' true →
        returns (.atom o op) (op' op.toNat false true o.d) one) ∧
      (s.ready [(Mem.use o true o.ty.regs (2 * o.ty.regs)).inDet true 0x66] = some (x, c, t) → from' true →
        returns (.acas o) (op' 6 true true o.d) two))

/-- R194 to R197, R355: a light `fence` goes on and notes what holds back the stores of its lanes, a full one once its crew has no request
unacknowledged; `prf` sends requests for the spans that translate and never traps; `lease` with class 15 gives up each span it names and
otherwise sends a RENEW with the class; `tsget` gives the `wts` of the sector or the clock of its home.
The model's choice or reading: fences and leases (log entry 24). -/
def Obligations.FencesAndHints : Prop :=
  ∀ (s : State) (x : Ctx) (c : Crew) (t : State) (h : Hdr) (sc : Scope) (ord : Order) (o : Mem) (line f : Bool) (cls : BitVec 4)
    (d a : Reg) (pa : Nat),
    let rel := t.releaseReady x.key sc
    let noted (v : Crew) : Crew :=
      if v.acks.isEmpty then v else { v with fences := v.fences ++ [{ lanes := x.act, pkts := v.acks.map (·.pkt) }] }
    (s.ready [Hdr.use h [] []] = some (x, c, t) →
      (ord ≠ .ar3 → exec (.fence h sc ord) s = .next (x.retires 8 h.stall.toNat (rel.1.updCrew x.key noted))) ∧
      (rel.2 = true → exec (.fence h sc .ar3) s = .next (x.retires 8 h.stall.toNat rel.1)) ∧
      (rel.2 = false → exec (.fence h sc .ar3) s = .next (rel.1.tryLater x.key x.e))) ∧
    (s.ready [Mem.use o true 0 0] = some (x, c, t) →
      (let pas := (laneEas o c x.act).filterMap (fun e =>
          match t.checkLane (.core c.core) (keyGid x.key) c.walks .gl 0 e.2 (memBytes o.ty) with
          | .at (.phys pa) => some pa
          | _ => none)
       exec (.prf o line) s = .next (x.retires 8 o.h.stall.toNat ((t.notReady x.key x.e c o.scope (memBytes o.ty) pas).foldl
          (fun s u => s.askLine x.key x.e c u.1 u.2.1 u.2.2 line o.scope o.order) t))) ∧
      (t.checkAll (.core c.core) (.split x.key x.e) (keyGid x.key) c.walks .gl 0 (memBytes o.ty) (laneEas o c x.act) =
          .ok [(x.act.lanes.getD 0 0, .phys pa)] →
        let u : Agent := .core c.core
        let p := { Pkt.new (.renew none) u (t.destOf (pa / 128)) (pa / 128) c.pts x.key x.e with
                   first := pa % 128 / 8, cnt := (pa % 128 + memBytes o.ty - 1) / 8 - pa % 128 / 8 + 1, ops := [(cls.toNat, 0, 0, 0)] }
        let v := (t.span u (pa / 128)).getD Span.empty
        let gone := t.publishLine u (pa / 128) (fun _ => true)
        let next (w : State) : Prop := exec (.lease o cls) s = .next (x.retires 8 o.h.stall.toNat w)
        (cls ≠ 15 → v.pending ≠ none → next (t.send p)) ∧
        (cls ≠ 15 → v.pending = none → next ((t.send p).setSpan u (pa / 128) { v with pending := some t.nextId })) ∧
        (cls = 15 → gone.span u (pa / 128) = none → next gone) ∧
        (cls = 15 → ∀ w, gone.span u (pa / 128) = some w →
          (w.dirty = [] → w.pending = none → next (gone.dropSpan u (pa / 128))) ∧
          (w.dirty ≠ [] ∨ w.pending ≠ none → next (gone.setSpan u (pa / 128) { w with cnt := 0 }))))) ∧
    (s.ready [(Hdr.use h [sReg a] [sReg d]).inDet true 0x6B] = some (x, c, t) →
      t.checkAll (.core c.core) (.split x.key x.e) (keyGid x.key) c.walks .gl 0 1 [(x.act.lanes.getD 0 0, c.rs a.toNat)] =
        .ok [(x.act.lanes.getD 0 0, .phys pa)] →
      let gives (v : Ts) : Prop :=
        exec (.tsget h f d a) s = .next (x.retires 8 h.stall.toNat (t.updCrew x.key (fun c => c.addPend x.e [sWrite d.toNat v.toNat])))
      let far := t.bridge (t.portOf pa)
      (∀ dev, t.target pa = .dev dev →
        gives (if f then (t.home (t.servDie (dev / 128))).clock else ((t.slice (t.servSlice (dev / 128))).ts (dev / 32)).1)) ∧
      ((∃ k, t.target pa = .host k) ∨ (∃ k j, t.target pa = .pool k j) →
        gives (match t.farLine pa with
          | some l => if f then far.clock else l.wts.getD (pa % 64 / 32) 0
          | none => far.clock)))

/-- R249, R155: a management core that has a trap in service runs the scalar words of Section 6, `lds`, `sts` and `fence`: here `iadd` for
every scalar arithmetic word, `icmp`, `bra`, `call` and `ret` with a frame of 0, and the memory words on an address that passes its checks;
a release and a fence wait for its writes outside the package; a word that only crews have is a fault inside the handler (R313), which
kills the launch. -/
def Obligations.ManagementCoreWords : Prop :=
  ∀ (s : State) (k : Nat) (o : Alu) (q : Mem) (line : Bool) (cc : BitVec 3) (h : Hdr) (off : BitVec 20) (a : Reg) (sc : Scope)
    (ord : Order) (pa : Nat) (crew : Nat),
    let m := s.mgmt k
    let on (v : Mgmt → Mgmt) (stall : Nat) : State :=
      (s.updMgmt k v).updMgmt k (fun m => { m with pc := m.pc + 8, nextIssue := s.now + 1 + stall, wait := .none, word := none })
    let target : Nat := ((((m.pc + 8 : Nat) : Int) + 8 * off.toInt) % (2 ^ 64 : Nat)).toNat
    s.cur = .mgmt k → m.crew = some crew →
      (m.passes o.h.pred o.h.pn = true → o.sc = true →
        exec (.iadd o) s = .next (on (fun v => v.setS o.d.toNat (iExt o.ty (iWrap o.ty
          (iVal o.ty (m.sval o.a) + iVal o.ty (match o.b with | .k r => kBits o.ty r.toNat | b => m.sval b))))) o.h.stall.toNat) ∧
        exec (.icmp o cc) s = .next (on (fun v => v.setP o.d.toNat (iCmp cc.toNat (iVal o.ty (m.sval o.a))
          (iVal o.ty (match o.b with | .k r => kBits o.ty r.toNat | b => m.sval b)))) o.h.stall.toNat)) ∧
      (m.passes h.pred h.pn = true →
        (∃ t, exec (.bra h off) s = .next t ∧ (t.mgmt k).pc = target ∧ (t.mgmt k).sr = m.sr ∧ t.mem = s.mem) ∧
        (∃ t, exec (.call h 0 (.rel off)) s = .next t ∧ (t.mgmt k).pc = target ∧ (t.mgmt k).rs 62 = (m.pc + 8) % 2 ^ 64) ∧
        (m.rs a.toNat % 8 = 0 → ∃ t, exec (.ret h 0 a) s = .next t ∧ (t.mgmt k).pc = m.rs a.toNat ∧ (t.mgmt k).sr = m.sr) ∧
        (s.posted = false → exec (.fence h sc ord) s = .next (on id h.stall.toNat)) ∧
        (s.posted = true → exec (.fence h sc ord) s = .next s)) ∧
      (m.passes h.pred h.pn = false →
        ∃ t, exec (.bra h off) s = .next t ∧ (t.mgmt k).pc = m.pc + 8 ∧ (t.mgmt k).sr = m.sr) ∧
      (let ea := ((((m.sval q.a : Nat) : Int) + sext32 (m.sval q.b) * (2 ^ q.sh.toNat : Nat)) % (2 ^ 64 : Nat)).toNat
       let who := s.mgmtFinder k m ea
       m.passes q.h.pred q.h.pn = true → q.space = .gl →
        (∀ s1 bs ts, s.mgmtCheck k m 0 ea (memBytes q.ty) = some (.ok pa) →
          s.directRead pa (memBytes q.ty) m.pts (decide (2 ≤ q.order.code)) none who = .ok s1 bs ts false →
          ∃ t, exec (.lds q line) s = .next t ∧ (q.d.toNat ≠ 63 → (t.mgmt k).rs q.d.toNat = loadExtS q.ty (leVal bs) % 2 ^ 64) ∧
            (t.mgmt k).pc = (s1.mgmt k).pc + 8 ∧ t.mem = s1.mem) ∧
        (∀ s1 bs ts po, s.mgmtCheck k m 1 ea (memBytes q.ty) = some (.ok pa) → q.order.code < 2 ∨ s.posted = false →
          s.directWrite pa (leBytes (m.rs q.d.toNat) (memBytes q.ty)) m.pts none who = .ok s1 bs ts po →
          ∃ t, exec (.sts q) s = .next t ∧ t.mem = s1.mem ∧ (t.mgmt k).sr = (s1.mgmt k).sr ∧ (t.mgmt k).pc = (s1.mgmt k).pc + 8)) ∧
      exec (.join h) s = .next (s.escalate k false) ∧ exec (.st q) s = .next (s.escalate k false) ∧
      exec (.mma h 0 false false 0 0 0 0 0 0) s = .next (s.escalate k false)

/-! ## Barriers, wells, batches, copies, counters and cisterns (R106 to R129, R198 to R219) -/

/-- R106, R108, R111: the operations on a good object: an arrival takes one from ARRIVE_LEFT, and waits where that is 0; an expect and a
credit add to PENDING and take from it, within its 36 signed bits; a phase is complete when both are 0, and then ARRIVE_LEFT is ARRIVE_EXP again
and PHASE is inverted; an object is good whose SCOPE suits its place, whose reserved bits are 0 and whose ARRIVE_EXP is not 0, or has come to 0
in a phase that waits for credits; the 16 bytes of an object in its ranges are read as they were stored.
R198 to R200: the barrier words. On an object in the gang's own scratch without errors `bar.init` stores a fresh object, and the others
operate on it, and complete its phase, while it is good, outside DET for an arrival; `bar.wait` returns on a flipped phase and waits
otherwise; a bad object raises SYNC. On an object in device memory, or
in the scratch of the gang of a rank of its cluster (REM), each does what the operation on it gives. `bsync` arrives at its
implicit object and waits with the parity it found.
The model's choice or reading: malformed and dead objects, objects elsewhere (log entries 26 and 66). -/
def Obligations.Barriers : Prop :=
  ((∀ (o : BarObj) (n : Nat),
    o.act (.arr false) = (if o.left = 0 then .waits else .ok { o with left := o.left - 1 }) ∧
    o.act (.arr true) = (if o.left = 0 then .waits else .ok { o with left := o.left - 1, exp := o.exp - 1 }) ∧
    (o.pend + n < 2 ^ 35 → o.act (.exp n) = .ok { o with pend := o.pend + n }) ∧
    (2 ^ 35 ≤ o.pend + n → o.act (.exp n) = .bad { o with err := true }) ∧
    (-(2 ^ 35) ≤ o.pend - n → o.act (.credit n) = .ok { o with pend := o.pend - n }) ∧
    (o.pend - n < -(2 ^ 35) → o.act (.credit n) = .bad { o with err := true }) ∧
    o.complete = decide (o.left = 0 ∧ o.pend = 0) ∧ o.flip = { o with left := o.exp, phase := !o.phase } ∧
    (o.good true = true ↔ (o.scope = 1 ∨ o.scope = 2) ∧ o.resv = 0 ∧ (o.exp ≠ 0 ∨ (o.left = 0 ∧ o.pend ≠ 0))) ∧
    (o.good false = true ↔ (o.scope = 3 ∨ o.scope = 4) ∧ o.resv = 0 ∧ (o.exp ≠ 0 ∨ (o.left = 0 ∧ o.pend ≠ 0)))) ∧
  ∀ (o : BarObj), o.scope < 8 → o.exp < 2 ^ 20 → o.left < 2 ^ 20 → o.resv < 2 ^ 47 → -(2 ^ 35) ≤ o.pend → o.pend < 2 ^ 35 →
    o.val < 2 ^ 128 ∧ barOf o.val = o) ∧
  (∀ (s : State) (x : Ctx) (c : Crew) (t : State) (o : Bar) (g : Gang) (h : Hdr) (k : BitVec 2) (pa d : Nat),
    let ea := c.rs o.a.toNat
    let gid := keyGid x.key
    let b : BarLoc := .scr gid ea
    let v := barOf (leVal (g.scrBytes ea 16))
    let stored (u : State) (w : BarObj) : State := u.scrPut gid ea (leBytes w.val 16)
    let settled (w : BarObj) : BarObj := if w.complete then w.flip else w
    let done (i : Instr) (u : State) : Prop := exec i s = .next (x.retires 8 o.h.stall.toNat u)
    let traps (i : Instr) : Prop := exec i s = .next ((t.markIssued c).takeTrap x.key (mkTrap 7 x.e x.act 0 ea))
    let q := c.sval o.b % 2 == 1
    let two := [Hdr.use o.h (barSpan o) []]
    let flags (u : State) (p : Bool) (i : Instr) : Prop := ∃ ws, PredGives x.act o.d.toNat (fun _ => p) ws ∧
      done i (u.updCrew x.key (fun w => w.addPend x.e ws))
    (t.gang gid = some g → g.scrPoison = [] → g.scrBadChk = [] → o.scr = true → o.rem = false → ea % 16 = 0 → ea + 16 ≤ g.scrSz →
      (s.ready two = some (x, c, t) →
        (0 < c.sval o.b → c.sval o.b < 2 ^ 20 → o.scope = 1 ∨ o.scope = 2 → c.fenced x.act = false →
          done (.barInit o) (stored t (BarObj.init o.scope.toNat (c.sval o.b)))) ∧
        (v.good true = true → v.err = false → c.sval o.b < 2 ^ 35 → v.pend + c.sval o.b < 2 ^ 35 → c.fenced x.act = false →
          t.arrivedAt b = [] → done (.barExp o) (stored t (settled { v with pend := v.pend + c.sval o.b }))) ∧
        (v.good true = true → v.err = false →
          (v.phase ≠ q → done (.barWait o) (t.barAcquired x.key c.core b (scopeOf v.scope) c.pts)) ∧
          (v.phase = q → exec (.barWait o) s = .next (t.holdWord x.key x.e (.barWait o) (.bar b q)))) ∧
        (v.good true = false ∨ v.err = true → traps (.barWait o))) ∧
      (s.ready [Hdr.use o.h (barSpan o) [pReg o.d.toNat]] = some (x, c, t) → v.good true = true → v.err = false →
        flags (if v.phase = q then t else t.barAcquired x.key c.core b (scopeOf v.scope) c.pts) (v.phase != q) (.barTry o)) ∧
      (s.ready [Hdr.use o.h [sReg o.a] [sReg o.d]] = some (x, c, t) → v.good true = true → v.err = false → x.det = false →
        ∀ u, t.releaseReady x.key (scopeOf v.scope) = (u, true) → u.gang gid = some g → u.arrivedAt b = [] →
          (0 < v.left → done (.barArr o) (((stored u (settled { v with left := v.left - 1, exp := if o.drop then v.exp - 1 else v.exp })).barReleased
            x.key c.core (scopeOf v.scope) 0).updCrew x.key (fun w => w.addPend x.e [sWrite o.d.toNat v.phase.toNat]))) ∧
          (v.left = 0 → exec (.barArr o) s = .next (u.holdWord x.key x.e (.barArr o) (.arrive b))))) ∧
    (o.scr = false → t.target pa = .dev d → ∀ kind, t.checkAll (.core c.core) (.split x.key x.e) gid c.walks .gl kind 16
        [(x.act.lanes.getD 0 0, ea)] = .ok [(x.act.lanes.getD 0 0, .phys pa)] → ∀ k, barAt x c t o kind k = k (.dev d)) ∧
    (o.scr = true → o.rem = true → ea % 16 = 0 → ∀ mate m, t.clusterMate gid o.rank.toNat = some mate → t.gang mate = some m →
      ea + 16 ≤ m.scrSz → ∀ kind k, barAt x c t o kind k = k (.scr mate ea)) ∧
    (∀ b1 : BarLoc, b1 = .dev d ∨ (∃ mate, b1 = .scr mate ea) →
      let check (kind : Nat) : Prop := ∀ k, barAt x c t o kind k = k b1
      (s.ready two = some (x, c, t) → check 1 → 0 < c.sval o.b → c.sval o.b < 2 ^ 20 →
        (if o.scr then o.scope = 1 ∨ o.scope = 2 else o.scope = 3 ∨ o.scope = 4) → c.fenced x.act = false →
        (∀ mate, b1 = .scr mate ea → done (.barInit o) (t.barStore b1 (BarObj.init o.scope.toNat (c.sval o.b)).val c.pts).1) ∧
        (b1 = .dev d → ∀ u bs ts po, t.rangeWrite d (leBytes (BarObj.init o.scope.toNat (c.sval o.b)).val 16) c.pts none = .ok u bs ts po →
          done (.barInit o) (u.updCrew x.key (fun c => { c with pts := Ts.smax c.pts ts })))) ∧
      (s.ready two = some (x, c, t) → check 2 → c.sval o.b < 2 ^ 35 → c.fenced x.act = false → ∀ u old ts,
        t.barDo b1 (.exp (c.sval o.b)) c.pts none c.idx = .ok u old ts → done (.barExp o) u) ∧
      (check 0 → ∀ u old ts, t.barDo b1 .look c.pts none c.idx (some x.key) = .ok u old ts →
        let w := u.barAcquired x.key c.core b1 (u.barScope b1) ts
        (s.ready two = some (x, c, t) → old.phase = q → exec (.barWait o) s = .next (u.holdWord x.key x.e (.barWait o) (.bar b1 q))) ∧
        (s.ready two = some (x, c, t) → old.phase ≠ q → done (.barWait o) w) ∧
        (s.ready [Hdr.use o.h (barSpan o) [pReg o.d.toNat]] = some (x, c, t) →
          flags (if old.phase = q then u else w) (old.phase != q) (.barTry o))) ∧
      (s.ready [Hdr.use o.h [sReg o.a] [sReg o.d]] = some (x, c, t) → check 2 → ∀ u, t.releaseReady x.key (t.barScope b1) = (u, true) →
        ∀ u1 old ts, u.barDo b1 (.arr o.drop) c.pts (if x.det then some gid else none) c.idx = .ok u1 old ts →
          done (.barArr o) ((u1.barReleased x.key c.core (t.barScope b1) ts).updCrew x.key
            (fun w => w.addPend x.e [sWrite o.d.toNat old.phase.toNat])))) ∧
    (s.ready [Hdr.use h [] []] = some (x, c, t) → (c.split x.e).mask = c.live → c.arr = none →
      ImpArrives (.bsync h k) s x c h.stall.toNat t k.toNat))

/-- R114 to R117, R201: `well.cfg` makes an empty well of a good configuration; a push of a producer to a well of its kind that is
not full adds an entry with the crew's bytes or its tile, and waits on a full one; a pop of a consumer takes the head entry, waits on an
empty open well, and gives a false predicate from an empty closed one.
The model's choice or reading: a pop into a name that still has its tile, SYNC before DET (log entries 62 and 66). -/
def Obligations.WellWords : Prop :=
  ∀ (s : State) (x : Ctx) (c : Crew) (t u : State) (g : Gang) (w : Well) (h : Hdr) (well : BitVec 4) (n : BitVec 2) (pr : BitVec 3)
    (a b d : Reg),
    let gid := keyGid x.key
    let k := well.toNat
    let done (i : Instr) (v : State) : Prop := exec i s = .next (x.retires 8 h.stall.toNat v)
    let waits (i : Instr) (v : State) : Prop := exec i s = .next (v.holdWord x.key x.e i (.well k))
    let flag (v : Bool) : List RegWrite := if pr = 7 then [] else [pWrite pr.toNat x.act (fun _ => v)]
    let pd : List Span1 := if pr = 7 then [] else [pReg pr.toNat]
    (s.ready [Hdr.use h [sReg a, sReg b] []] = some (x, c, t) → t.gang gid = some g → Tab.get g.wells k = none → x.det = false →
      let w0 : Well := { cfg0 := BitVec.ofNat 64 (c.rs a.toNat), cfg1 := BitVec.ofNat 64 (c.rs b.toNat), head := 0, ents := [],
                         closed := false }
      (wellBad g w0 = true → exec (.wellCfg h well a b) s = .next ((t.markIssued c).takeTrap x.key (mkTrap 7 x.e x.act 0 k))) ∧
      (wellBad g w0 = false → done (.wellCfg h well a b) (t.setWell gid k { w0.close g.finished with closed :=
        (w0.close g.finished).closed || (match g.pump with | some p => w0.pumped && (p.halted || p.stopped) | none => false) }))) ∧
    (t.well gid k = some w → w.producers.getLsbD c.idx = true →
      let u1 := u.releaseFloor c.core .gg c.pts
      (s.ready [Hdr.use h [vReg a (2 ^ n.toNat)] []] = some (x, c, t) → w.tiles = false → w.kind = n.toNat →
        (w.full c.idx = true → waits (.wellPush h well n a) t) ∧
        (w.full c.idx = false → t.releaseReady x.key .gg = (u, true) → done (.wellPush h well n a)
          ((u1.scrPut gid (w.entry w.tail) (pushBytes c a.toNat (2 ^ n.toNat) x.act)).setWell gid k
            { w with ents := w.ents ++ [(c.idx, 0, 0)] }))) ∧
      (s.ready [Hdr.use h [] []] = some (x, c, t) → w.tiles = true → c.tileWait t.now [] [a.toNat] = false →
        ∀ p v, c.tile? a.toNat = some (p, v) →
          (w.full c.idx = true → waits (.wellTpush h well a) t) ∧
          (w.full c.idx = false → t.releaseReady x.key .gg = (u, true) → done (.wellTpush h well a)
            ((u1.updCrew x.key (fun c => { c with bind := c.bind.set a.toNat none, tc := c.tc.set a.toNat 0 })).setWell gid k
              { w with ents := w.ents ++ [(c.idx, p, v)] })))) ∧
    (t.well gid k = some w → w.consumers.getLsbD c.idx = true →
      (s.ready [Hdr.use h [] (vReg d (2 ^ n.toNat) :: pd)] = some (x, c, t) → w.tiles = false → w.kind = n.toNat →
        (w.ents = [] → w.closed = false → waits (.wellPop h well n pr d) t) ∧
        (w.ents = [] → w.closed = true → pr ≠ 7 →
          done (.wellPop h well n pr d) (t.updCrew x.key (fun v => v.addPend x.e (flag false)))) ∧
        (w.ents ≠ [] → t.gang gid = some g → g.scrPoison = [] → g.scrBadChk = [] →
          ∃ ws, VecGives c x.act d.toNat (2 ^ n.toNat) (fun l => leVal (((g.scrBytes (w.entry w.head) w.size).drop
              (l * (4 * 2 ^ n.toNat))).take (4 * 2 ^ n.toNat))) ws ∧
            done (.wellPop h well n pr d) (((t.setWell gid k w.popped).popAcquire x.key c.core).updCrew x.key
              (fun v => v.addPend x.e (ws ++ flag true))))) ∧
      (s.ready [Hdr.use h [] pd] = some (x, c, t) → w.tiles = true →
        (w.ents = [] → w.closed = false → waits (.wellTpop h well pr d) t) ∧
        (∀ ent rest, w.ents = ent :: rest → d.toNat < c.ntiles → Tc.v (c.tc.getD d.toNat 0) = false →
          let v := ((t.setWell gid k w.popped).popAcquire x.key c.core).updCrew x.key (fun c =>
            { c with bind := c.bind.set d.toNat (some ent.2.1), tc := c.tc.set d.toNat ent.2.2 })
          (pr = 7 → done (.wellTpop h well pr d) v) ∧
          (pr ≠ 7 → done (.wellTpop h well pr d) (v.updCrew x.key (fun v => v.addPend x.e (flag true)))))))

/-- R112, R113, R202: `batch.close` gives the number of the open batch, whose commands belong to it from then on, and opens the next;
`batch.wait` for a batch of the future raises SYNC, waits while a command of a batch up to the one named is uncompleted, and then gives the OR
of their statuses and forgets them, or raises the trap of a failed command. -/
def Obligations.BatchWords : Prop :=
  ∀ (s : State) (x : Ctx) (c : Crew) (t : State) (h : Hdr) (d : Reg) (b : Opnd),
    (s.ready [Hdr.use h [] [sReg d]] = some (x, c, t) → c.openBatches < 256 →
      let c1 := { c with batchCtr := c.batchCtr + 1, openCmds := 0, openStatus := 0, openTrap := none, openPts := c.pts, batches :=
        c.batches ++ [{ num := c.batchCtr, left := c.openCmds, status := c.openStatus, trapRec := c.openTrap, pts := c.openPts }] }
      let cmds := Tab.mapV t.cmds (fun _ v => if v.crew = x.key && v.batch.isNone then { v with batch := some c.batchCtr } else v)
      exec (.batchClose h d) s = .next (x.retires 8 h.stall.toNat (({ t.setCrew x.key c1 with cmds := cmds } : State).updCrew x.key
        (fun v => v.addPend x.e [sWrite d.toNat c.batchCtr.toNat])))) ∧
    (s.ready [Hdr.use h (Opnd.span b 1) [sReg d]] = some (x, c, t) →
      let n : W32 := BitVec.ofNat 32 (c.sval b)
      let mine := c.batches.filter (fun v => !batchLater v.num n)
      (batchLater n (c.batchCtr - 1) = true →
        exec (.batchWait h d b) s = .next ((t.markIssued c).takeTrap x.key (mkTrap 7 x.e x.act 0 0))) ∧
      (batchLater n (c.batchCtr - 1) = false →
        ((∃ v ∈ mine, v.left ≠ 0) → exec (.batchWait h d b) s = .next (t.holdWord x.key x.e (.batchWait h d b) .batch)) ∧
        ((∀ v ∈ mine, v.left = 0) → ∀ r, mine.findSome? (fun v => v.trapRec) = some r →
          exec (.batchWait h d b) s = .next ((t.markIssued c).takeTrap x.key (mkTrap 12 x.e x.act 0 r))) ∧
        ((∀ v ∈ mine, v.left = 0 ∧ v.trapRec = none) →
          let p := mine.foldl (fun a v => Ts.smax a v.pts) c.pts
          let u := t.updCrew x.key (fun c => { c with pts := p, batches := c.batches.filter (fun v => batchLater v.num n) })
          exec (.batchWait h d b) s = .next (x.retires 8 h.stall.toNat (u.updCrew x.key (fun v => v.addPend x.e
            [sWrite d.toNat (mine.foldl (fun a (v : Batch) => a ||| v.status) 0).toNat]))))))

/-- R203, R204, R61, R112: each of the nine commands, whose operands pass the checks of R204, of a crew with
fewer than 64 uncompleted commands and nothing left to release: the command departs with the operands as they are now and the crew's `pts`, and
is counted in the open batch and in its launch, where it ends at once if it moves no byte; a command that fails a check traps; `cpy.swr` also takes its rank's next round.
R62, R205, R207, R209, R211, R327, R338, R368: a part of a command: its bytes are read and then written, and the part is recorded with what
failed, FAULT or POISON; a destination that does not translate adds FAULT to POISON; a local object takes the part's credit after the bytes,
a malformed one leaves the part unwritten with FAULT, and one that is gone is credited nothing; a part of `cpy.dom` becomes a request to its
peer. A part that the command has not, or has recorded, does nothing; a share of a multicast lands with LANDMISS where its target gang is not
there. The last byte ends the command.
The model's choice or reading: parts and credits (log entries 26, 51 and 66). -/
def Obligations.CopyCommands : Prop :=
  (∀ (s : State) (x : Ctx) (c : Crew) (t u : State) (o : Cpy),
    let gid := keyGid x.key
    let scrSz := match t.gang gid with | some g => g.scrSz | none => 0
    let clu := match t.gangLaunch gid with
      | some l => l.clu && !(match t.gang gid with | some v => v.cont | none => false)
      | none => false
    let departs (i : Instr) (op nb : Nat) (use : WUse) : Prop := s.ready [use] = some (x, c, t) →
      let k := cpyCmd x c t o op (nb != 0)
      (k.crew = x.key ∧ k.dst = c.rs o.a.toNat ∧ k.src = c.rs (o.a.toNat + 1) ∧ k.len = c.rs (o.a.toNat + 2) ∧
        k.bar = c.rs (o.a.toNat + 3) ∧ k.pts = c.pts ∧ k.batch = none ∧ k.done = []) ∧
      (∀ f, k.check scrSz clu = some f → exec i s = .next ((t.markIssued c).takeTrap x.key (cpyTrap x f))) ∧
      (k.check scrSz clu = none → c.cmdsLeft < 64 → t.releaseReady x.key .dv = (u, true) →
        let v := (u.updCrew x.key (fun c => { c with openCmds := c.openCmds + 1 })).updLaunch k.lslot
          (fun l => { l with cmdsLeft := l.cmdsLeft + 1 })
        let n := fld k.b0 0 16
        let rank := fld k.b0 16 9
        let g := Tab.getD v.swr n { rounds := [], next := [] }
        let round := Tab.getD g.next rank 0
        exec i s = .next (x.retires 8 o.h.stall.toNat (
          if op = 8 then { v with cmds := Tab.set v.cmds v.nextId { k with landed := [(round, 0)] }, nextId := v.nextId + 1,
                                  swr := Tab.set v.swr n { g with next := Tab.set g.next rank (round + 1) } }
          else
            let w : State := { v with cmds := Tab.set v.cmds v.nextId k, nextId := v.nextId + 1 }
            if k.total = 0 then w.cmdEnd v.nextId k else w)))
    departs (.cpyG2s o) 0 0 (cpyUse o 0) ∧ departs (.cpyS2g o) 1 0 (cpyUse o 0) ∧ departs (.cpyG2g o) 2 0 (cpyUse o 0) ∧
    departs (.cpyMcast o) 3 1 (cpyUse o 1) ∧ departs (.cpyT2d o) 4 2 (cpyUse o 2) ∧ departs (.cpyGather o) 5 2 (cpyUse o 2) ∧
    departs (.cpyRed o) 6 0 ((cpyUse o 0).inDet (!o.ty.isInt) 0x96) ∧ departs (.cpyDom o) 7 1 (cpyUse o 1) ∧
    departs (.cpySwr o) 8 2 (cpyUse o 2)) ∧
  (∀ (s : State) (id part : Nat) (k : Cmd) (p : Part1), Tab.get s.cmds id = some k →
    let free : Prop := k.part part = some p ∧ k.op ≠ 3 ∧ k.done.contains part = false ∧ s.engWaits = [] ∧ s.partOut id part = false
    let done (u : State) (st : BitVec 4) (ts : Ts) : Prop := exec (.copyPartComplete id part) s = .next (u.partDone id k part st ts)
    (k.part part = none → exec (.copyPartComplete id part) s = .next s) ∧
    (k.done.contains part = true → exec (.copyPartComplete id part) s = .next s) ∧
    (free → k.op ≠ 7 → k.bar = 0 →
      (k.failed = true → done s 4 k.pts) ∧
      (k.failed = false →
        (∀ u, s.partBytes k p = .fail u → done u 4 k.pts) ∧
        (∀ u v e ts, s.partBytes k p = .poison u → u.engPoison k p.dst p.n = (.ok v e, ts) → done v 2 ts) ∧
        (∀ u v ts, s.partBytes k p = .poison u → u.engPoison k p.dst p.n = (.fail v, ts) → done v 6 ts) ∧
        (∀ u bs v e ts, s.partBytes k p = .ok u bs → u.engWrite k p.dst bs = (.ok v e, ts) → done v 0 ts) ∧
        (∀ u bs v ts, s.partBytes k p = .ok u bs → u.engWrite k p.dst bs = (.fail v, ts) → done v 4 ts))) ∧
    (free → k.op ≠ 7 →
      (∀ u, s.cmdBar k.asid k.gid k.bar k.bsp k.lslot = .bad u → done u 4 k.pts) ∧
      (∀ u b, s.cmdBar k.asid k.gid k.bar k.bsp k.lslot = .loc u b → (∀ q va, b ≠ .peer q va) →
        (u.barLive b = .malformed → done u 4 k.pts) ∧
        (∀ v st ts, u.barLive b = .gone → u.partMove k p = .ok v st ts → done v st ts) ∧
        (∀ u1 g1 t1 v st ts w good t2, u.barLive b = .live → u.credit b p.n k.pts = .ok u1 g1 t1 → u.partMove k p = .ok v st ts →
          v.credit b p.n ts = .ok w good t2 → done w (if good then st else st ||| 4) t2))) ∧
    (free → k.op = 7 → k.failed = false → s.peerReach k.b0 = true →
      let q : OutReq := { port := 3 + k.b0, addr := p.dst, what := 13, since := s.now, pkt := id, crew := k.crew, entry := part, bytes := [],
                          dtid := s.dtidOf k.asid }
      (k.dir = true → exec (.copyPartComplete id part) s = .next (s.ask { q with addr := p.src, what := 14, bytes := leBytes p.n 8 })) ∧
      (k.dir = false → ∀ u bs, s.engRead k false p.src p.n = .ok u bs →
        exec (.copyPartComplete id part) s = .next (u.ask { q with bytes := bs }))) ∧
    (k.part part = some p → k.op = 3 → s.engWaits = [] → ∀ target,
      (mcRect k.b0).has (s.launchSides k.lslot).1 (s.launchSides k.lslot).2 target = true → k.landed.contains (target, part) = false →
      (s.mcTarget k target = none → exec (.mcastLanding id target part) s = .next (s.landDone id k target part 1)) ∧
      (∀ gid u st ts, s.mcTarget k target = some gid → k.bar = 0 → s.partMove { k with gid := gid } p = .ok u st ts →
        exec (.mcastLanding id target part) s = .next (u.landDone id k target part st))) ∧
    (∀ st ts, let k1 := { k with done := k.done ++ [part], pts := ts }
      let got : Nat := k1.done.foldl (fun n q => match k1.part q with | some v => n + v.n | none => n) 0
      (k1.total ≤ got → Tab.get (s.partDone id k part st ts).cmds id = none) ∧
      (got < k1.total → Tab.get (s.partDone id k part st ts).cmds id = some k1)))

/-- R214: `cpy.stat` has no field but D; it gives the number of the open batch, and outside DET the uncompleted batches and commands. -/
def Obligations.CopyState : Prop :=
  ∀ (s : State) (x : Ctx) (c : Crew) (t : State) (h : Hdr) (d : Reg),
    (Instr.word (.cpyStat h d)).toNat = h.stall.toNat * 2 ^ 59 + h.pn.toNat * 2 ^ 58 + h.pred.toNat * 2 ^ 55 + 0x99 * 2 ^ 47 + d.toNat * 2 ^ 41 ∧
    (s.ready [Hdr.use h [] [sReg d]] = some (x, c, t) →
      exec (.cpyStat h d) s = .next (x.retires 8 h.stall.toNat (t.updCrew x.key (fun v => v.addPend x.e
        [sWrite d.toNat (c.batchCtr.toNat * 2 ^ 32 + (if x.det then 0 else c.openBatches * 65536 + c.cmdsLeft))]))))

/-- R121 to R123, R215: the counter words, whose record at device offset `r` checks out, and is unlost and without a mirror. `ctr.read` gives HOME,
`ctr.take` takes from an allowance of the core that is there, and otherwise waits for a refill, `ctr.give` adds to the core's allowance,
or to HOME where the core holds none, `ctr.cap` sets CHUNK; of a counter that no core holds and whose home is idle `ctr.readx` gives the exact value, `ctr.drain` gives it and leaves 0, and
`ctr.init` writes a fresh record.
The model's choice or reading: where an operation acts (log entries 47 and 60). -/
def Obligations.CounterWords : Prop :=
  ∀ (s : State) (x : Ctx) (c : Crew) (t u : State) (o : Ctr) (r : Nat) (w : Crew),
    r % 32 = 0 → u.lost (r / 128) = false → u.protOf (r / 128 * 128) = none → u.crew x.key = some w → w.reqs = [] →
    (w.split x.e).word = none →
    let n := c.sval o.b
    let rec' := u.ctrGet r
    let idle : Prop := u.ctrHolders r = [] ∧ u.ctrHome r = CtrHome.init
    let done (i : Instr) (v : State) : Prop := exec i s = .next (x.retires 8 o.h.stall.toNat v)
    let gives (i : Instr) (v : State) (z : Nat) : Prop := done i (v.updCrew x.key (fun c => c.addPend x.e [sWrite o.d.toNat z]))
    let asks (use : CtrUse) : Prop := ∀ k, ctrWord x c t o.a use k = k u r
    (s.ready [Ctr.use o 0 [sReg o.d]] = some (x, c, t) →
      (asks .read → gives (.ctrRead o) u rec'.home) ∧
      (asks .change → idle → (∃ v, gives (.ctrReadx o) v rec'.home ∧ v.ctrGet r = { rec' with frozen := false }) ∧
        (∃ v, gives (.ctrDrain o) v rec'.home ∧ v.ctrGet r = { rec' with home := 0, frozen := false }))) ∧
    (s.ready [Ctr.use o 1 [pReg o.d.toNat]] = some (x, c, t) → 0 < n → n ≤ ctrMax → asks (.local (fun e => decide (n ≤ e.allow))) →
      (∀ e, (u.core c.core).ctr? r = some e → e.refill = none → n ≤ e.allow →
        ∃ (v : State) (ws : List RegWrite), done (.ctrTake o) (v.updCrew x.key (fun c => c.addPend x.e ws)) ∧
          PredGives x.act o.d.toNat (fun _ => true) ws ∧
          (v.core c.core).ctr? r = some { e with allow := e.allow - n } ∧ v.mem = u.mem) ∧
      ((u.core c.core).ctr? r = none → (u.core c.core).ctrs.length < 64 →
        ∃ v : State, exec (.ctrTake o) s = .next (v.holdWord x.key x.e (.ctrTake o) .ctr))) ∧
    (s.ready [Ctr.use o 1 []] = some (x, c, t) → n ≤ ctrMax →
      (asks (.local (fun e => decide (e.allow + n ≤ ctrMax))) →
        ((u.core c.core).ctr? r = none → ∃ v, done (.ctrGive o) v ∧ v.ctrGet r = rec'.addHome n) ∧
        (∀ e, (u.core c.core).ctr? r = some e → e.allow + n ≤ ctrMax →
          ∃ v, done (.ctrGive o) v ∧ (v.core c.core).ctr? r = some { e with allow := e.allow + n } ∧ v.mem = u.mem)) ∧
      (asks .change → 0 < n → ∃ v, done (.ctrCap o) v ∧ v.ctrGet r = { rec' with chunk := n })) ∧
    (s.ready [Ctr.use o 2 []] = some (x, c, t) → asks .init → idle → ∀ q, o.b = .s q →
      let total := c.rs q.toNat
      let chunk := c.rs (q.toNat + 1)
      total ≤ ctrMax → chunk ≤ ctrMax → 0 < chunk → ∃ v, done (.ctrInit o) v ∧
        v.ctrGet r = { home := total, chunk := chunk, lost := 0, valid := true, ovf := false, frozen := false, resv := 0 })

/-- R125, R127, R129, R216 to R219: the cistern words, whose record and slot check out. `cmb.cfg` writes the record of a good image whose slots
are all FREE; `cmb.open` takes a unit from the record's counter and opens the lowest FREE slot; `cmb.put` gives 2 for a slot that is not there, 1 for a
late chunk, and stores a chunk that is in time and gives 0, or sends the chunk to a peer; `cmb.stat` gives LATES or the status word of a slot; `cmb.close` gives 1 for a slot that
is not RELEASED, and otherwise frees it, gives back its unit, and gives 0.
The model's choice or reading: addresses in records, walks of their own (log entries 48 and 67). -/
def Obligations.CisternWords : Prop :=
  ∀ (s : State) (x : Ctx) (c : Crew) (t u v : State) (h : Hdr) (d a b rr : Reg) (bo : Opnd) (lt dsp : Bool) (rec o : Nat) (r : CmbRec),
    let done (i : Instr) (w : State) : Prop := exec i s = .next (x.retires 8 h.stall.toNat w)
    let gives (i : Instr) (w : State) (z : Nat) : Prop := done i (w.updCrew x.key (fun c => c.addPend x.e [sWrite d.toNat z]))
    ((∀ k, cmbWord x c t a k = k u rec r) →
      (s.ready [Hdr.use h [sReg a] [sReg d]] = some (x, c, t) → gives (.cmbStat h true d a bo) u r.lates) ∧
      (s.ready [Hdr.use h (sReg a :: Opnd.span bo 1) [sReg d]] = some (x, c, t) →
        (∀ k, slotWord x c u a r (c.sval bo) k = k v o) →
        gives (.cmbStat h false d a bo) v (fld (v.hdr o) 576 64) ∧
        (hdrState (v.hdr o) ≠ slotReleased → gives (.cmbClose h d a bo) v 1) ∧
        (hdrState (v.hdr o) = slotReleased → ∀ ctr w, (∀ k, recordAt x c v r.ctr 32 1 k = k ctr) →
          (∀ k, atHome x c v false [(ctr, 32, r.ctr)] k = k w) →
          let w1 := w.hdrUpd o (fun h => setFld h 580 4 slotFree)
          gives (.cmbClose h d a bo) (({ w1 with cmbSlots := Tab.erase w1.cmbSlots o } : State).ctrGive c.core ctr 1) 0)) ∧
      (s.ready [Hdr.use h [sReg a, sRegs b 2, vReg rr 2] [sReg d]] = some (x, c, t) →
        let token := c.rs b.toNat
        let w := c.rs (b.toNat + 1)
        let slot := fld w 0 16
        let chunk := fld w 32 6
        let bytes := (List.range 32).flatMap (fun l => leBytes (if x.act.getLsbD l then c.rvs rr.toNat l 2 else 0) 8)
        fld w 38 2 = 0 → fld w 50 14 = 0 → fld w 40 1 = 0 →
          (r.nslots ≤ slot → gives (.cmbPut h lt d a b rr) u 2) ∧
          (slot < r.nslots → (∀ k, slotWord x c u a r slot k = k v o) →
            let test := v.cmbTest r o token (fld w 16 16) chunk false
            (test.1 = 0 → ∀ off v1 w1, (∀ k, placesAt x c v 2 1 [r.chunkAt slot test.2 chunk] k = k v1 [off]) →
              c.mustWait x.act off 256 = false → v1.clearRange off 256 true false none = (w1, true) →
              let z := w1.cmbStore r o test.2 chunk off bytes c.pts
              gives (.cmbPut h lt d a b rr) (z.1.updCrew x.key (fun c => { c with pts := Ts.smax c.pts z.2 })) 0) ∧
            (test.1 = 1 → lt = false → gives (.cmbPut h lt d a b rr) (v.cmbLate rec o) 1) ∧
            (test.1 = 1 → lt = true → exec (.cmbPut h lt d a b rr) s = .next ((((v.cmbLate rec o).updCrew x.key (fun c =>
              c.addPend x.e [sWrite d.toNat 1])).retire x.key x.e 8 h.stall.toNat).takeTrap x.key
                ({ mkTrap 13 x.e x.act 0 (x.pc c) with detail := 128 } : Trap))) ∧
            (2 ≤ test.1 → gives (.cmbPut h lt d a b rr) v test.1)))) ∧
    (s.ready [Hdr.use h [sReg a, sRegs b 2, vReg rr 2] [sReg d]] = some (x, c, t) →
      let w := c.rs (b.toNat + 1)
      let bytes := (List.range 32).flatMap (fun l => leBytes (if x.act.getLsbD l then c.rvs rr.toNat l 2 else 0) 8)
      fld w 38 2 = 0 → fld w 50 14 = 0 → fld w 40 1 = 1 → t.releaseReady x.key .dv = (u, true) → u.peerReach (fld w 41 9) = true →
        let q : OutReq := { port := 3 + fld w 41 9, addr := c.rs a.toNat, what := 16, since := u.now, pkt := u.nextId, crew := x.key,
                            entry := x.e, bytes := leBytes (c.rs b.toNat) 8 ++ leBytes w 8 ++ bytes, dtid := u.dtidOf (u.gangAsid (keyGid x.key)) }
        let asked : LaneReq := { pkt := u.nextId, entry := x.e, lanes := [x.act.lanes.getD 0 0], answer := none, poison := false }
        exec (.cmbPut h lt d a b rr) s = .next (((u.ask q).updCrew x.key (fun c => { c with reqs := c.reqs ++ [asked] })).holdWord
          x.key x.e (.cmbPut h lt d a b rr) .reply)) ∧
    (s.ready [Hdr.use h [sReg a, sReg b] []] = some (x, c, t) → ∀ dev img os t1 u1 w bs ts w1, (∀ k, recordAt x c t (c.rs a.toNat) 64 1 k = k dev) →
      placeAt x c t 2 64 true (c.rs b.toNat) = .at t1 img → t1.releaseReady x.key .dv = (u, true) →
      (∀ k, atHome x c u true [(dev, 64, c.rs a.toNat)] k = k u1) →
      u1.rangeRead img 64 c.pts false none { u1.finder (keyGid x.key) 8 with va := c.rs b.toNat } = .ok w bs ts false →
      let val := setFld (leVal bs) 256 32 0
      (cmbOf val).good = true → (∀ k, placesAt x c w 2 1 ((List.range (cmbOf val).nslots).map (cmbOf val).slotAt) k = k w1 os) →
      (∀ p ∈ os, hdrState (w1.hdr p) = slotFree) →
        done (.cmbCfg h a b) ((w1.devWrite dev (leBytes val 64) c.pts).1.updCrew x.key (fun v =>
          { v with pts := Ts.smax v.pts (w1.devWrite dev (leBytes val 64) c.pts).2 }))) ∧
    (s.ready [Hdr.use h [sReg a, sReg b] [sReg d]] = some (x, c, t) → ∀ ctr desc u1, (∀ k, openWord x c t dsp a b k = k u rec ctr r desc) →
      (u.nameTake x).1.ctrTake c.core ctr 1 (u.nameTake x).2 = .took u1 →
      let v := u1.updCrew x.key (fun c => c.dropReqs x.e)
      let nexp := fld desc 576 3 + 1
      fld desc 580 60 = 0 → (∀ e, e + 1 < nexp → hdrExp desc e < hdrExp desc (e + 1)) → (∀ e, e < nexp → fld (hdrGate desc e) 23 8 ≠ 255) →
      ∀ v1 v2 v3 ps qs i w, (∀ k, placesAt x c v 1 1 (pagesOf (fld desc 64 64) r.rowBytes) k = k v1 ps) →
      (∀ k, placesAt x c v1 2 16 (if fld desc 128 64 = 0 then [] else [fld desc 128 64]) k = k v2 qs) →
      (∀ full k, seekFree x c r full k r.nslots v2 = k v3 i o) →
      c.mustWait x.act o 256 = false → v3.clearRange o 256 true false none = (w, true) →
        let asid := v3.gangAsid (keyGid x.key)
        let z := w.hdrPut o (setFld (setFld (fld desc 0 580) 624 8 asid) 580 4 slotOpen) c.pts
        let slot : CmbSlot := { record := rec, asid := asid, since := v3.now, chunks := [] }
        gives (.cmbOpen h dsp d a b) (({ z.1 with cmbSlots := Tab.set z.1.cmbSlots o slot } : State).updCrew x.key
          (fun c => { c with pts := Ts.smax c.pts z.2 })) i)

/-! ## Tiles and the matrix unit (R220 to R240) -/

/-- R92, R220: the elements of a tile with a legal control register: one written is read back, truncated to its type, and every other
element of the tile reads as before.
R91, R222, R223, R225 to R230: the tile words on tiles that are configured and free, without errors. `tcfg` writes and `tcfgr` reads a
control register; `tzero`, `tmov` and `mtr` fill the rows of the active lanes with zeros, the source's elements and, with the matrix unit's
grant, the transposed ones; `tld` fills them from the loaded bytes, `tst` stores them; `tv2t` and `tt2v` move registers to columns and back;
`hist` reads its record's last sector, which it
needs well-formed or raises BOUNDS after the word, and adds the counts by reductions; a word on a tile that is not configured raises ILL.
The model's choice or reading: histograms, ECC (log entry 49). -/
def Obligations.TileWords : Prop :=
  (∀ (a : TileArr) (t : Tc) (i j k l v : Nat), a.size = 4096 → Tc.legal t = true → i < Tc.rows t → j < Tc.cols t → k < Tc.rows t →
    l < Tc.cols t →
      (elPut a t i j v).size = 4096 ∧
      elGet (elPut a t i j v) t k l = (if k = i ∧ l = j then v % 2 ^ (Tc.ty t).bits else elGet a t k l)) ∧
  (∀ (s : State) (x : Ctx) (c : Crew) (t : State) (h : Hdr) (d a b : Reg) (bo : Opnd) (ta td : TRef) (sc : Scope) (ord : Order)
    (space : Space) (zf : Bool) (nr : BitVec 2),
    let gid := keyGid x.key
    let done (i : Instr) (v : State) : Prop := exec i s = .next (x.retires 8 h.stall.toNat v)
    let ill (i : Instr) : Prop := exec i s = .next ((t.markIssued c).takeTrap x.key (mkTrap 0 x.e x.act 0 (Instr.word i).toNat))
    let stored (v : State) (arr : TileArr) : State :=
      ((v.setTile gid td arr).freshTile gid td x.act).updCrew x.key (fun c => c.orFlags 0)
    let src := t.tile gid ta
    let dst := t.tile gid td
    let clean (r : TRef) : Prop := tilesBad x t [r] = none
    (s.ready [Hdr.use h [sReg a] []] = some (x, c, t) → c.tileWait t.now [] [d.toNat] = false →
      let v : Tc := BitVec.ofNat 32 (c.rs a.toNat)
      (c.ntiles ≤ d.toNat ∨ Tc.legal v = false → ill (.tcfg h d a)) ∧
      (d.toNat < c.ntiles → Tc.legal v = true → (Tc.v v = false ∨ (c.bind.getD d.toNat none).isSome = true) →
        done (.tcfg h d a) (t.updCrew x.key (fun c => { c with tc := c.tc.set d.toNat v })))) ∧
    (s.ready [Hdr.use h [] [sReg d]] = some (x, c, t) → a.toNat < c.ntiles → done (.tcfgr h d a) (t.updCrew x.key (fun v => v.addPend x.e
      [sWrite d.toNat (if (c.bind.getD a.toNat none).isNone || !Tc.v (c.tc.getD a.toNat 0) then 0 else (c.tc.getD a.toNat 0).toNat)]))) ∧
    (s.ready [Hdr.use h [] []] = some (x, c, t) →
      (c.tileWait t.now [] [d.toNat] = false → c.tref? [d.toNat] = none → ill (.tzero h d)) ∧
      (c.tileWait t.now [] [d.toNat] = false → c.tref? [d.toNat] = some [td] →
        done (.tzero h d) (stored t (elFill dst td.tc (td.rowsIn x.act) (Tc.cols td.tc) (fun _ _ => some 0)))) ∧
      (c.tileWait t.now [a.toNat] [d.toNat] = false → c.tref? [a.toNat, d.toNat] = some [ta, td] → clean ta →
        (sameShape ta.tc td.tc = true → done (.tmov h d a) (stored t (elFill dst td.tc (td.rowsIn x.act) (Tc.cols td.tc)
          (fun i j => some (elGet src ta.tc i j))))) ∧
        (sameShape ta.tc td.tc = false → ill (.tmov h d a)) ∧
        (Tc.ty ta.tc = Tc.ty td.tc → Ty.isDx (Tc.ty ta.tc) = false → Tc.rows td.tc = Tc.cols ta.tc → Tc.cols td.tc = Tc.rows ta.tc →
          d ≠ a → (t.core c.core).grants c.pipe t.now = true →
          let u := (t.grantMatrix c.core c.pipe (Tc.rows ta.tc)).updCrew x.key
            (fun c => c.holdTiles (t.now + Tc.rows ta.tc) [a.toNat] [d.toNat])
          done (.mtr h d a) (stored u (elFill (u.tile gid td) td.tc (td.rowsIn x.act) (Tc.cols td.tc)
            (fun i j => some (elGet ((t.grantMatrix c.core c.pipe (Tc.rows ta.tc)).tile gid ta) ta.tc j i))))))) ∧
    (s.ready [Hdr.use h [sReg a, sReg b] []] = some (x, c, t) →
      let mv := tileMoves x c t td space a b
      let check (kind : Nat) : Chk := t.checkAll (.core c.core) (.split x.key x.e) gid c.walks space kind mv.2.1
        (mv.1.map (fun m => (m.1, m.2.2)))
      (c.tileWait t.now [] [d.toNat] = false → c.tref? [d.toNat] = some [td] → ∀ locs u bs, check 0 = .ok locs →
        t.load x.key x.e c sc ord false x.det mv.2.1 (mv.1.map (fun m => (m.1, m.2.2))) locs = .bytes u bs → (Tc.ty td.tc).bits ≠ 4 →
        let arr := (mv.1.zip bs).foldl (fun arr m => elPut arr td.tc m.1.1 m.1.2.1 (leVal m.2.2)) (u.tile gid td)
        let full := elFill arr td.tc (td.rowsIn x.act) (Tc.cols td.tc) (fun _ j => if mv.2.2 ≤ j then some 0 else none)
        done (.tld h sc ord space zf d a b) ((u.setTile gid td (if zf then full else arr)).updCrew x.key
          (fun v => { v with pts := u.loadPts x.key c sc ord mv.2.1 locs }))) ∧
      (c.tileWait t.now [d.toNat] [] = false → c.tref? [d.toNat] = some [td] → clean td → ∀ locs u, check 1 = .ok locs →
        (∀ l ∈ locs, ∀ pa, l.2 = .phys pa → t.notOwned pa = none) → (Tc.ty td.tc).bits ≠ 4 →
        storeAct x c t sc ord (mv.1.map (fun m => (m.1, m.2.2)))
          ((mv.1.zip locs).map (fun m => (m.1.1, m.2.2, leBytes (elGet dst td.tc m.1.1 m.1.2.1) mv.2.1))) = .done u →
        done (.tst h sc ord space false d a b) u)) ∧
    (let n := 2 ^ nr.toNat
     let w := (Tc.ty td.tc).bits
     let j0 := c.sval bo % 2 ^ 32
     (s.ready [Hdr.use h (vReg a n :: Opnd.span bo 1) []] = some (x, c, t) → c.tileWait t.now [] [d.toNat] = false →
        c.tref? [d.toNat] = some [td] → colsFit td n j0 = true →
        done (.tv2t h nr d a bo) (t.setTile gid td ((td.rowsIn x.act).foldl (fun arr i => (List.range (n * (32 / w))).foldl (fun arr e =>
          elPut arr td.tc i (j0 + e) (c.rvs a.toNat i n / 2 ^ (w * e) % 2 ^ w)) arr) dst))) ∧
     (s.ready [Hdr.use h (match bo with | .s r => [sReg r] | _ => []) [vReg d n]] = some (x, c, t) → c.tileWait t.now [a.toNat] [] = false →
        c.tref? [a.toNat] = some [td] → clean td → colsFit td n j0 = true →
        ∃ ws, done (.tt2v h nr false d a bo) (t.updCrew x.key (fun v => v.addPend x.e ws)) ∧
          VecGives c (Mask.ofLanes (td.rowsIn x.act)) d.toNat n (fun i => (List.range (n * (32 / w))).foldl (fun v e =>
            v + elGet dst td.tc i (j0 + e) * 2 ^ (w * e)) 0) ws)) ∧
    (s.ready [Hdr.use h [sReg b] []] = some (x, c, t) → c.tileWait t.now [a.toNat] [] = false → c.tref? [a.toNat] = some [ta] →
      (histTy (Tc.ty ta.tc) = false → ill (.hist h a b)) ∧
      (histTy (Tc.ty ta.tc) = true → clean ta → ∀ ps u v bs ts, (∀ k, histAt x c t (c.rs b.toNat) k = k ps) →
        (∀ p ∈ ps, c.mustWait x.act p 32 = false) → t.unitsClean c.core (ps.map (· / 128)) = (u, true) →
        u.directRead (ps.getD 4 0) 32 c.pts false (some x.key)
          { t.finder gid 8 with core := some c.core, va := c.rs b.toNat + 128 } = .ok v bs ts false →
        let bins := (ta.rowsIn x.act).flatMap (fun i => (List.range (Tc.cols ta.tc)).map (fun j =>
          elBin (Tc.ty ta.tc) (histBase (leVal bs)) (elGet src ta.tc i j)))
        (histGood (leVal bs) = true → (v.crew x.key).map (·.acks) = some c.acks →
          done (.hist h a b) (sendCounts x c v ps (histCounts bins))) ∧
        (histGood (leVal bs) = false →
          let tr : Trap := laneTrap 6 x.e [(x.act.lanes.getD 0 0, c.rs b.toNat, dWrite)] (c.rs b.toNat)
          exec (.hist h a b) s = .next ((v.retire x.key x.e 8 h.stall.toNat).takeTrap x.key
            { tr with aux := c.rs b.toNat, detail := Nat.lor tr.detail dPost })))))

/-- R93, R94, R231 to R240: with the agreed format word, tiles of the shapes it asks for, free and without errors, and the matrix unit's
grant, `mma` writes the elements of D at the enabled columns, from the row of A, the column of B at the enabled depths and the old element, and
its tiles are busy for the cycles of R234; `tquant` quantises blocks of 32 and writes their scale bytes, `tcvt` converts, `tred` reduces the
rows, `tadd` and `tmulv` combine elements; each in the rows of the active lanes, with the flags of what it computed.
The model's choice or reading: turns of the matrix unit (log entry 49). -/
def Obligations.MatrixWords : Prop :=
  ∀ (s : State) (x : Ctx) (c : Crew) (t : State) (h : Hdr) (d a b r : Reg) (bo : Opnd) (ta tb td : TRef) (tbs tds : List TRef)
    (nsel soff : BitVec 2) (op mq : BitVec 4) (scl : BitVec 3) (rnd : Rnd) (msk sat zc colm : Bool) (w k : Nat),
    let gid := keyGid x.key
    let done (i : Instr) (v : State) : Prop := exec i s = .next (x.retires 8 h.stall.toNat v)
    let stored (arr : TileArr) (fl : Flags) : State :=
      ((t.setTile gid td arr).freshTile gid td x.act).updCrew x.key (fun c => c.orFlags fl)
    let each (f : Nat → Nat → FRes) (is : List Nat) : TileArr × Flags := is.foldl (fun (acc : TileArr × Flags) i =>
      (List.range (Tc.cols td.tc)).foldl (fun (acc : TileArr × Flags) j =>
        (elPut acc.1 td.tc i j (f i j).bits, acc.2 ||| (f i j).fl)) acc) (t.tile gid td, 0)
    let clean (rs : List TRef) : Prop := tilesBad x t rs = none
    let agreed : Prop := ∀ l ∈ x.act.lanes, c.rv r.toNat l = w
    let dx := Ty.isDx (fmtA w)
    let late (us : List Span1) : Prop :=
      let u : WUse := { pred := 7, pn := false, src := us, dst := [], det := none }
      (if x.det || c.status.getLsbD 9 then c.shortRead x.e u else none) = none ∧ c.badLanes u (2 ^ 32 - 1) = []
    (let n := 8 * 2 ^ nsel.toNat
     let gb := if n = 64 then 2 else 1
     let gd := if n = 64 && (fmtC w == .f32 || fmtC w == .i32) then 2 else 1
     let bs := tileGroup b.toNat gb
     let ds := tileGroup d.toNat gd
     let q := 4 * mq.toNat
     let shape (t : TRef) (ty : Ty) (r c : Nat) : Prop := Tc.ty t.tc = ty ∧ Tc.rows t.tc = r ∧ Tc.cols t.tc = c
     let qr : Reg := BitVec.ofNat 6 q
     let g : Reg := BitVec.ofNat 6 (8 * scl.toNat)
     let far := msk && decide (64 < k)
     s.ready [Hdr.use h (vReg r 1 :: (if msk then [sRegs qr 2] else [])) []] = some (x, c, t) →
      agreed → fmtMma w = some k →
      late ((if dx && decide (g.toNat + 8 ≤ c.win) then [vReg g 8] else []) ++ (if far then [sReg (qr + 2)] else [])) →
      (dx = true → g.toNat + 8 ≤ c.win → c.groupFree g.toNat 8 = true) → (far = true → c.scalarFree (qr.toNat + 2) = true) → c.tileWait t.now (a.toNat :: bs) ds = false → c.tref? [a.toNat] = some [ta] →
      c.tref? bs = some tbs → c.tref? ds = some tds → shape ta (fmtA w) 32 k → (∀ v ∈ tbs, shape v (fmtA w) (min n 32) k) →
      (∀ v ∈ tds, shape v (fmtC w) 32 (n / gd)) → a.toNat ∉ bs → a.toNat ∉ ds → (∀ v ∈ bs, v ∉ ds) → b.toNat % gb = 0 →
      d.toNat % gd = 0 → (dx = true → g.toNat + 8 ≤ c.win) →
      clean ((ta :: tbs) ++ (if zc then [] else tds)) → (t.core c.core).grants c.pipe t.now = true →
        let u := t.grantMatrix c.core c.pipe (mmaCycles (fmtA w) n)
        let on (v bit : Nat) : Bool := !msk || fld v bit 1 == 1
        let m : MmaIn := { ty := fmtA w, cty := fmtC w, k := k, n := n, nd := n / gd, fmt := w, scl := 8 * scl.toNat,
                           deps := (List.range k).filter (fun j => if j < 64 then on (c.rs (q + 1)) j else on (c.rs (q + 2)) (j - 64)),
                           cols := (List.range n).filter (fun j => on (c.rs q) j) }
        let get (v : TRef) : TileArr × Tc := (u.tile gid v, v.tc)
        let o := mmaRun x c m zc (get ta) (tbs.map get) (tds.map get)
        done (.mma h nsel msk zc mq scl d a b r) (((tds.zip o.1).foldl (fun s v => s.setTile gid v.1 v.2) u).updCrew x.key (fun c =>
          (c.orFlags o.2).holdTiles (t.now + mmaCycles (fmtA w) n) (a.toNat :: bs) ds))) ∧
    (c.tileWait t.now [a.toNat] [d.toNat] = false → c.tref? [a.toNat, d.toNat] = some [ta, td] → Tc.ty ta.tc = fmtA w →
      Tc.ty td.tc = fmtC w → Tc.rows ta.tc = Tc.rows td.tc → Tc.cols ta.tc = Tc.cols td.tc → d ≠ a → clean [ta] → agreed →
      let nb := Tc.cols ta.tc / 32
      let src := t.tile gid ta
      let rows := ta.rowsIn x.act
      (s.ready [Hdr.use h [vReg r 1] []] = some (x, c, t) → fmtCvt w = true →
        (if dx then 4 * soff.toNat + 2 * nb ≤ 16 ∧ b.toNat + 4 ≤ c.win ∧ c.groupFree b.toNat 4 = true ∧ late [vReg b 4]
          else b = 0 ∧ late []) →
          let val (i j : Nat) : FVal :=
            let raw := elGet src ta.tc i j
            if dx then let e := c.scalesAt true b.toNat i (4 * soff.toNat) j
                       dxVal (fmtA w) raw e.1 e.2
            else if fmtA w = .i32 then .num (decide (iVal .i32 raw < 0)) (iVal .i32 raw).natAbs 0
            else fDec (fmtA w) raw
          let o := each (fun i j => cvtElem (fmtC w) (fmtRnd w) (fmtSat w) (val i j)) rows
          done (.tcvt h soff d a b r) (stored o.1 o.2)) ∧
      (s.ready [Hdr.use h [vReg b 4, vReg r 1] [vReg b 4]] = some (x, c, t) → late [] → fmtQuant w = true → 4 * soff.toNat + 2 * nb ≤ 16 →
          let blocks := rows.map (fun i => (i, (List.range nb).map (fun q =>
            quantBlock (fmtA w) (fmtC w) (fmtRnd w) (fmtSat w) ((List.range 32).map (fun j => elGet src ta.tc i (32 * q + j))))))
          let arr := blocks.foldl (fun arr row => ((List.range nb).zip row.2).foldl (fun arr q =>
            ((List.range 32).zip q.2.1).foldl (fun arr e => elPut arr td.tc row.1 (32 * q.1 + e.1) e.2) arr) arr) (t.tile gid td)
          ∃ ws, done (.tquant h soff d a b r) ((stored arr (Flags.any (blocks.flatMap (fun row => row.2.map (fun q => q.2.2.2))))).updCrew
              x.key (fun v => v.addPend x.e ws)) ∧
            ∀ i q, i ∈ rows → q < nb → ∀ blk, ((blocks.find? (fun row => row.1 == i)).map Prod.snd).bind (fun bs => bs[q]?) = some blk →
              ∃ f : Nat → Nat, VecGives c (Mask.ofLanes rows) b.toNat 4 f ws ∧
                fld (f i) (8 * (4 * soff.toNat + 2 * q)) 8 = blk.2.1 % 256 ∧ fld (f i) (8 * (4 * soff.toNat + 2 * q + 1)) 8 = blk.2.2.1 % 256)) ∧
    (s.ready [Hdr.use h (Opnd.span bo 1) [vReg d 1]] = some (x, c, t) → c.tileWait t.now [a.toNat] [] = false →
      c.tref? [a.toNat] = some [ta] → (Tc.ty ta.tc).isInt = decide (op.toNat < 6) → clean [ta] →
        let cn := min (c.sval bo % 2 ^ 32) (Tc.cols ta.tc)
        let rows := ta.rowsIn x.act
        let row (i : Nat) : FRes := tredRow (Tc.ty ta.tc) op.toNat rnd ((List.range cn).map (fun j => elGet (t.tile gid ta) ta.tc i j))
        let fl := Flags.any ((List.range 32).map (fun i => if rows.contains i then (row i).fl else 0))
        ∃ ws, done (.tred h op rnd d a bo) ((t.updCrew x.key (fun v => v.orFlags fl)).updCrew x.key (fun v => v.addPend x.e ws)) ∧
          VecGives c (Mask.ofLanes rows) d.toNat 1 (fun i => (row i).bits) ws) ∧
    (s.ready [Hdr.use h [] []] = some (x, c, t) → c.tileWait t.now [a.toNat, b.toNat] [d.toNat] = false →
      c.tref? [a.toNat, b.toNat, d.toNat] = some [ta, tb, td] → sameShape ta.tc td.tc = true → sameShape tb.tc td.tc = true →
      Tc.ty td.tc = .f16 ∨ Tc.ty td.tc = .bf16 ∨ Tc.ty td.tc = .f32 ∨ (Tc.ty td.tc = .i32 ∧ rnd = .rne ∧ (op = 2 → sat = false)) →
      (op.toNat < 3 ∨ (rnd = .rne ∧ sat = false)) → clean [ta, tb] →
        let o := each (fun i j => taddElem (Tc.ty td.tc) op.toNat rnd sat (elGet (t.tile gid ta) ta.tc i j)
          (elGet (t.tile gid tb) tb.tc i j)) (td.rowsIn x.act)
        done (.tadd h op rnd sat d a b) (stored o.1 o.2)) ∧
    (s.ready [Hdr.use h (if colm then [] else [vReg b 1, vReg r 1]) []] = some (x, c, t) → c.tileWait t.now [a.toNat] [d.toNat] = false →
      c.tref? [a.toNat, d.toNat] = some [ta, td] → sameShape ta.tc td.tc = true →
      Tc.ty td.tc = .f16 ∨ Tc.ty td.tc = .bf16 ∨ Tc.ty td.tc = .f32 →
      (let n := (Tc.cols ta.tc + 31) / 32
       colm = true → b.toNat + n ≤ c.win ∧ r.toNat + n ≤ c.win ∧ c.groupQuiet b.toNat n = true ∧ c.groupQuiet r.toNat n = true ∧ late [vReg b n, vReg r n]) →
      (colm = false → late []) →
      clean [ta] →
        let reg (g : Reg) (i j : Nat) : Nat := if colm then c.rv (g.toNat + j / 32) (j % 32) else c.rv g.toNat i
        let o := each (fun i j => fFma (Tc.ty td.tc) rnd sat (fDec (Tc.ty td.tc) (elGet (t.tile gid ta) ta.tc i j))
          (fDec .f32 (reg b i j)) (fDec .f32 (reg r i j))) (td.rowsIn x.act)
        done (.tmulv h colm rnd sat d a b r) (stored o.1 o.2))

/-! ## Access slices and system words (R241 to R257) -/

/-- R150, R253 to R257: the words of a slice on its pump. `ax.loop` of a count above 0 opens a loop and `ax.end` of its last turn closes it;
`ax.base` and `ax.strd` set their registers from the immediate and the parameters; `ax.ld` reads an entry and `ax.ldt` a tile into a pumped well that
is not full; `ax.sig` arrives at a barrier object; `ax.halt` halts the pump and closes its wells. On a crew they are ILL.
The model's choice or reading: loops and waits, the end of a slice (log entries 56 and 68). -/
def Obligations.SliceWords : Prop :=
  ∀ (s : State) (gid : Nat) (g : Gang) (p : Pump) (h : Hdr) (n : BitVec 16) (d a b c : Reg) (k l : BitVec 2) (off : BitVec 12),
    let next (v : State) (q : Pump) : State :=
      v.updGang gid (fun g => { g with pump := some { q with pc := q.pc + 8, wait := .none, word := none, tried := none, walks := [] } })
    (s.cur = .pump gid → s.gang gid = some g → g.pump = some p →
      (∀ pr m, (if pr then s.pm gid (4 * n.toNat) 4 else some n.toNat) = some m → p.loops.length < 4 →
        (0 < m → exec (.axLoop h pr n) s = .next (next s { p with loops := p.loops ++ [(m, 0)] })) ∧
        (∀ va, m = 0 → s.findLoop gid g p false sliceWords (p.pc + 8) 0 = .addr va →
          exec (.axLoop h pr n) s = .next (next s { p with pc := va }))) ∧
      (∀ ls m cn, p.loops = ls ++ [(m, cn)] →
        let step := (List.range 8).map (fun i => p.a.getD i 0 + p.stride i ls.length)
        (m ≤ cn + 1 → exec (.axEnd h) s = .next (next s { p with
          a := (List.range 8).map (fun i => step.getD i 0 - BitVec.ofNat 64 m * p.stride i ls.length), loops := ls })) ∧
        (∀ va, cn + 1 < m → s.findLoop gid g p true sliceWords (p.pc - 8) 0 = .addr va →
          exec (.axEnd h) s = .next (next s { p with a := step, loops := ls ++ [(m, cn + 1)], pc := va }))) ∧
      (∀ z y, s.pm gid (8 * off.toNat) 8 = some z → (if k = 0 then some 0 else s.pm gid (8 * off.toNat + 8) 8) = some y →
        let mul := if k = 0 then 0 else if k = 1 then g.gx else if k = 2 then g.gy else s.gangG gid
        exec (.axBase h d k off) s = .next (next s { p with a := p.a.set d.toNat (BitVec.ofNat 64 (z + mul * y)) })) ∧
      ((s.params gid).length < 8 * off.toNat + 8 → exec (.axBase h d k off) s = .next (s.pumpTrap gid 6 0 (8 * off.toNat) 0)) ∧
      (∀ pr v, (if pr then (s.pm gid (8 * n.toNat) 8).map (BitVec.ofNat 64) else some (n.signExtend 64)) = some v →
        exec (.axStrd h pr d l n) s = .next (next s { p with strd := p.strd.set (4 * d.toNat + l.toNat) v })) ∧
      (∀ w u bs, Tab.get g.wells d.toNat = some w → w.pumped = true → w.tiles = false →
        (w.full pumpIdx = true → exec (.axLd h d a) s = .next (s.pumpWait gid (.axLd h d a) (.well d.toNat))) ∧
        (w.full pumpIdx = false → s.pumpReads gid g p 16 ((List.range (w.size / 16)).map (fun j =>
            ((p.a.getD a.toNat 0).toNat + 16 * j) % 2 ^ 64)) = .ok u bs →
          exec (.axLd h d a) s = .next (next (((u.scrPut gid (w.entry w.tail) bs.flatten).releaseFloor g.core .gg p.pts).setWell gid d.toNat
            { w with ents := w.ents ++ [(pumpIdx, 0, 0)] }) p))) ∧
      (∀ wd wb t v u, Tab.get g.wells d.toNat = some wd → Tab.get g.wells b.toNat = some wb → wd.pumped = true → wd.tiles = true →
        wb.pumped = false → wb.tiles = true → p.held = some (t, v) → Tc.v v = true → wd.full pumpIdx = false →
        s.pumpTile gid g p { name := 0, phys := t, tc := v } (p.a.getD a.toNat 0).toNat (p.a.getD c.toNat 0).toNat = .ok u →
        exec (.axLdt h d a b c) s = .next (next ((u.releaseFloor g.core .gg p.pts).setWell gid d.toNat
          { wd with ents := wd.ents ++ [(pumpIdx, t, v)] }) { p with held := none })) ∧
      (∀ u old ts, 16 * n.toNat + 16 ≤ g.scrSz → g.scrPoison = [] → g.scrBadChk = [] →
        (barOf (leVal (g.scrBytes (16 * n.toNat) 16))).scope = 1 → s.pumpArrive (.scr gid (16 * n.toNat)) p = .ok u old ts →
        exec (.axSig h n) s = .next ((u.releaseFloor g.core .gg p.pts).pumpRetire gid)) ∧
      (∃ u g1 q, exec (.axHalt h) s = .next u ∧ u.gang gid = some g1 ∧ g1.pump = some q ∧ q.halted = true ∧ q.pc = p.pc ∧
        (∀ k w, Tab.get g1.wells k = some w → w.pumped = true → w.closed = true) ∧ u.mem = s.mem)) ∧
    (∀ key e v, s.cur = .crew key e → s.crew key = some v →
      let v1 := v.settle s.now
      let ill (i : Instr) : Prop := exec i s = .next (((s.setCrew key v1).markIssued v1).takeTrap key
        (mkTrap 0 e (v1.guard h.pred h.pn (v1.split e).mask) 0 (Instr.word i).toNat))
      ill (.axHalt h) ∧ ill (.axEnd h) ∧ ill (.axLd h d a) ∧ ill (.axSig h n) ∧ ill (.axLoop h false n) ∧ ill (.axBase h d k off) ∧
      ill (.axStrd h false d l n) ∧ ill (.axLdt h d a b c))

/-- R242, R243, R247, R248: `csrr` reads the six registers, and any other number raises ILL; the `csrw` forms change FLAGS, SCOPEMISS
and SBCHK of the status and nothing else, SBCHK reading 1 in DET, and raise ILL for any other register; `sleep` puts its split to sleep behind the
word; `clkr` reads the clock of the core or of the package outside DET. -/
def Obligations.ControlRegisters : Prop :=
  ∀ (s : State) (x : Ctx) (c : Crew) (t : State) (h : Hdr) (d a : Reg) (num : BitVec 12) (b : Opnd),
    let ill (i : Instr) : Prop := exec i s = .next ((t.markIssued c).takeTrap x.key (mkTrap 0 x.e x.act 0 (Instr.word i).toNat))
    let val (v : Nat) : State := x.retires 8 h.stall.toNat (t.updCrew x.key (fun c => c.addPend x.e [sWrite d.toNat v]))
    (s.ready [Hdr.use h [] [sReg d]] = some (x, c, t) →
      (5 < num.toNat → ill (.csrr h d num)) ∧
      (∀ g, t.gang (keyGid x.key) = some g → ∀ n, n ≤ 5 →
        exec (.csrr h d (BitVec.ofNat 12 n)) s = .next (val (
          if n = 0 then c.status.toNat ||| (if t.gangDet (keyGid x.key) then 512 else 0)
          else if n = 1 then c.spillBase
          else if n = 2 then c.spillSz
          else if n = 3 then c.wb % 65536 + c.lo % 65536 * 2 ^ 16 + c.budget % 512 * 2 ^ 32
          else if n = 4 then g.scrSz
          else if t.gangDet (keyGid x.key) then g.detSz else 0)))) ∧
    (s.ready [Hdr.use h [sReg a] []] = some (x, c, t) →
      (num ≠ 0 → ill (.csrw h num a) ∧ ill (.csrwSet h num a) ∧ ill (.csrwClr h num a)) ∧
      (let v := BitVec.ofNat 64 (c.rs a.toNat)
       let puts (i : Instr) (w : W64) : Prop := ∃ c1, exec i s = .next (x.retires 8 h.stall.toNat (t.setCrew x.key c1)) ∧
         { c1 with status := c.status } = c ∧
         ∀ n, c1.status.getLsbD n = (if n = 9 ∧ x.det then true else if n < 5 ∨ n = 8 ∨ n = 9 then w.getLsbD n else c.status.getLsbD n)
       puts (.csrw h 0 a) v ∧ puts (.csrwSet h 0 a) (c.status ||| v) ∧ puts (.csrwClr h 0 a) (c.status &&& ~~~v))) ∧
    (s.ready [Hdr.use h (Opnd.span b 1) []] = some (x, c, t) →
      exec (.sleep h b) s = .next (x.jumps [] h.stall.toNat ((t.setCrew x.key (c.updSplit x.e (fun sp =>
        { sp.after t.now h.stall.toNat with pc := sp.pc + 8, wait := .sleep (c.sval b % 2 ^ 32) t.now }))).markIssued c))) ∧
    (s.ready [(Hdr.use h [] [sReg d]).inDet true 0xDB] = some (x, c, t) →
      exec (.clkr h 0 d) s = .next (val ((t.now - (t.core c.core).clkBase) % 2 ^ 64)) ∧
      exec (.clkr h 1 d) s = .next (val (t.now * 10 / 27 % 2 ^ 64)) ∧ ill (.clkr h 2 d) ∧ ill (.clkr h 3 d))

/-- R244: `launch` with the number of no queue raises BOUNDS, and with a misaligned record MEM; with a record whose address passes its
checks, and nothing left to release, it gives 2 where the queue is not the tenant's own and 1 where its ring is full; otherwise the record's 64
bytes are stored in the next slot, the tail moves on, and the result is the ring index with status 0.
R34, R35, R245, R246: `reord` deposits the keys and payloads of its active lanes in ascending order and ends them, once every place of
the storage that a deposit writes can be written; in DET the bins are not emptied, and a launch whose entries exceed the storage is killed.
`idem.begin` captures its crew and arrives at the gang's idempotence barrier, `idem.end` arrives there too; a begin inside a region or in a
gang with a pump and an end outside a region raise ILL.
The model's choice or reading: the storage of the reorder unit, the edge of a region (log entries 14, 28 and 69). -/
def Obligations.LaunchReorderIdem : Prop :=
  (∀ (s : State) (x : Ctx) (c : Crew) (t u : State) (h : Hdr) (d a : Reg) (b : Opnd) (pa dst : Nat),
    let gid := keyGid x.key
    let lane := x.act.lanes.getD 0 0
    let va := c.rs a.toNat
    let n := c.sval b
    let q := u.queue n
    let check (v : State) (kind ea : Nat) : Chk := v.checkAll (.core c.core) (.split x.key x.e) gid c.walks .gl kind 64 [(lane, ea)]
    let gives (v : State) (seq st : Nat) : Prop := exec (.launch h d a b) s = .next (x.retires 8 h.stall.toNat
      (v.updCrew x.key (fun c => c.addPend x.e [sWrite d.toNat ((if x.det then 0 else seq * 2 ^ 32) + st)])))
    s.ready [Hdr.use h ([sReg a] ++ Opnd.span b 1) [sReg d]] = some (x, c, t) →
      (16384 ≤ n → exec (.launch h d a b) s = .next ((t.markIssued c).takeTrap x.key (mkTrap 6 x.e x.act 0 0))) ∧
      (n < 16384 → va % 64 ≠ 0 →
        exec (.launch h d a b) s = .next ((t.markIssued c).takeTrap x.key (laneTrap 1 x.e [(lane, va, if va < 2 ^ 57 then 4 else 8)] 0))) ∧
      (n < 16384 → va % 64 = 0 → check t 0 va = .ok [(lane, .phys pa)] → t.releaseReady x.key .dv = (u, true) →
        (q.assigned (u.gangAsid gid) (u.gangPart gid) = false → gives u 0 2) ∧
        (q.assigned (u.gangAsid gid) (u.gangPart gid) = true → (q.qtail - q.qhead).toNat = 2 ^ q.k → gives u 0 1) ∧
        (q.assigned (u.gangAsid gid) (u.gangPart gid) = true → (q.qtail - q.qhead).toNat ≠ 2 ^ q.k →
          check u 1 ((q.qbase.toNat + 64 * (q.qtail.toNat % 2 ^ q.k)) % 2 ^ 64) = .ok [(lane, .phys dst)] → u.notOwned dst = none →
          ∀ u1 bs ts u2 bs2 ts2 po, u.directRead pa 64 c.pts false (some x.key) = .ok u1 bs ts false →
            u1.directWrite dst (if x.det then u1.ownBytes gid (u1.logicalLane x.key lane) pa bs else bs) c.pts (some x.key) = .ok u2 bs2 ts2 po →
            gives ((u2.updCrew x.key (fun c => { c with pts := Ts.smax c.pts ts2 })).setQueue n { q with qtail := q.qtail + 1 })
              q.qtail.toNat 0))) ∧
  (∀ (s : State) (x : Ctx) (c : Crew) (t u : State) (h : Hdr) (a b : Reg) (g : Gang) (l : Launch),
    let gid := keyGid x.key
    let sp := c.split x.e
    (s.ready [Hdr.use h [vReg a 1, vReg b 2] []] = some (x, c, t) → t.gang gid = some g → t.gangLaunch gid = some l →
      l.contDesc ≠ [] → l.reordN ≠ 0 → g.cont = false → g.inIdem = false → t.releaseReady x.key .dv = (u, true) →
      let es : List BinEntry := x.act.lanes.map (fun n =>
        { key := c.rv a.toNat n % 65536, payload := c.rvs b.toNat n 2, lane := t.logicalLane x.key n })
      let d := u.deposits (fun v e => if x.det then v.binPut g.lslot e c.pts else v.deposit g.lslot e c.pts) es
      (x.det = true → l.reordN < l.bins.length + es.length →
        exec (.reord h a b) s = .next (x.jumps [] h.stall.toNat (u.killLaunch g.lslot 9))) ∧
      (x.det = false ∨ l.bins.length + es.length ≤ l.reordN →
        (∀ va, d.2 = some va → exec (.reord h a b) s = .next ((u.binAsk g.lslot va).tryLater x.key x.e)) ∧
        (d.2 = none → Ends (.reord h a b) s x c d.1 h.stall.toNat x.act))) ∧
    (s.ready [Hdr.use h [] []] = some (x, c, t) → t.gang gid = some g → c.arr = none →
      let ill (i : Instr) : Prop := exec i s = .next ((t.markIssued c).takeTrap x.key (mkTrap 0 x.e x.act 0 (Instr.word i).toNat))
      (g.inIdem = true ∨ g.pump ≠ none → ill (.idemBegin h)) ∧ (g.inIdem = false → ill (.idemEnd h)) ∧
      (sp.mask = c.live → t.releaseReady x.key .gg = (u, true) →
        (g.inIdem = false → g.pump = none →
          ImpArrives (.idemBegin h) s x c h.stall.toNat (u.updCrew x.key (fun v => { v with cap := some (v.capture x.e t.now) })) 4) ∧
        (g.inIdem = true → ImpArrives (.idemEnd h) s x c h.stall.toNat u 4))))

/-! ## Traps (R307 to R313) -/

/-- R307, R308, R311, R145: taking a trap. Every result the crew issued is written; with a handler enabled for the class in HEN of its address
space the crew is trapped from this cycle on, and stands last in the queue of its cluster's management core; without one its launch is killed with
the class. Of two splits that fault in one cycle the lower entry's trap stands; any other trap of a trapped crew is dropped.
R307, R309, R310, R250: a free management core enters the handler of the next trap of its queue: pc is HBASE + 256 × class of the crew's
address space, s0 CAUSE (class, entry, detail), s1 SLOT, and its timestamp the crew's; with a trap in service, or none that may be served, nothing
happens.
The model's choice or reading: when a trap is delivered (log entries 41 and 55). -/
def Obligations.TrapsTaken : Prop :=
  (∀ (s : State) (key : Nat) (c : Crew) (g : Gang) (t : Trap), s.crew key = some c → s.gang (keyGid key) = some g →
    let k := clusterOf c.core
    (c.trap = none → (s.trapRegs (s.gangAsid (keyGid key))).hen.getLsbD t.cls = true →
      ∃ d, (s.takeTrap key t).crew key = some d ∧ d.trap = some { t with since := s.now } ∧ d.fix = [] ∧ d.pend = [] ∧
        d.splits = c.splits ∧ d.live = c.live ∧ d.status = c.status ∧
        (s.takeTrap key t).mgmt k = s.mgmt k ∧ ((s.takeTrap key t).cluster k).trapq = (s.cluster k).trapq ++ [key] ∧
        (∀ j, j ≠ key → (s.takeTrap key t).crew j = s.crew j) ∧
        { s.takeTrap key t with crews := s.crews, clusters := s.clusters } = s) ∧
    (c.trap = none → (s.trapRegs (s.gangAsid (keyGid key))).hen.getLsbD t.cls = false → s.takeTrap key t = s.killLaunch g.lslot t.cls) ∧
    (∀ old, c.trap = some old →
      let lower := old.inService = false ∧ old.since = s.now ∧ t.entry < old.entry ∧ old.detail &&& 144 = 0
      (¬ lower → s.takeTrap key t = s) ∧
      (lower → (s.trapRegs (s.gangAsid (keyGid key))).hen.getLsbD t.cls = true →
        ∃ d, (s.takeTrap key t).crew key = some d ∧ d.trap = some { t with since := s.now } ∧
          ((s.takeTrap key t).cluster k).trapq = (s.cluster k).trapq))) ∧
  (∀ (s : State) (k : Nat),
    ((s.mgmt k).crew ≠ none → exec (.trapDelivery k) s = .next s) ∧
    (s.nextTrap k = none → exec (.trapDelivery k) s = .next s) ∧
    (∀ key c t, (s.mgmt k).crew = none → s.nextTrap k = some (key, c) → c.trap = some t → t.cls < 16 → t.entry < 4 →
      ∃ u, exec (.trapDelivery k) s = .next u ∧ (u.mgmt k).crew = some key ∧
        (u.mgmt k).pc = (s.trapRegs (s.gangAsid (keyGid key))).hbase.toNat + 256 * t.cls ∧ (u.mgmt k).pts = c.pts ∧
        (u.mgmt k).since = s.now ∧ (u.mgmt k).rs 0 = t.cls + t.entry * 16 + t.detail % 1024 * 256 ∧
        (u.mgmt k).rs 1 = s.slotItem key c % 2 ^ 64 ∧ (∀ n, 2 ≤ n → (u.mgmt k).rs n = 0) ∧
        u.crew key = some { c with trap := some { t with inService := true } } ∧ u.mem = s.mem ∧
        (u.cluster k).trapq = (s.cluster k).trapq.filter (· != key)))

/-- R251, R252, R312, R318: with a trap in service whose handler passes the word's guard, `hwin.r` reads and `hwin.w` writes an item of the
window; `hresume` lets a crew with a good window run on, with its trap over and its timestamp at least the handler's, and frees the
management core; `hkill` ends the crew or its launch; `hret` keeps the crew trapped, and its gang has a save pending. Of a crew they are PRIV, with the
opcode in AUX (R150).
R313: a handler that runs for 100 microseconds of 2,700 core cycles each, and a fault inside a handler, end the launch of the crew in service,
and the management core is free; before that the watchdog does nothing.
The model's choice or reading: the trap window (log entry 55). -/
def Obligations.Handlers : Prop :=
  (∀ (s : State) (k key : Nat) (c : Crew) (t : Trap) (h : Hdr) (r : Reg) (item : ItemRef) (e : Nat),
    let m := s.mgmt k
    let on (v : State) : State := v.updMgmt k (fun m =>
      { m with pc := m.pc + 8, nextIssue := s.now + 1 + h.stall.toNat, wait := .none, word := none })
    (s.cur = .mgmt k → m.crew = some key → s.crew key = some c → c.trap = some t → m.passes h.pred h.pn = true →
      (∀ v, s.itemRead key c t (ItemRef.of m item) = some v →
        exec (.hwinR h r item) s = .next (on (s.updMgmt k (fun m => m.setS r.toNat v)))) ∧
      (s.itemRead key c t (ItemRef.of m item) = none → exec (.hwinR h r item) s = .next (s.escalate k false)) ∧
      (∀ c1, c.itemWrite (s.gangDet (keyGid key)) (ItemRef.of m item) (m.rs r.toNat) = some c1 →
        exec (.hwinW h r item) s = .next (on (s.setCrew key c1))) ∧
      (c.windowGood = true → ∃ u d, exec (.hresume h) s = .next u ∧ u.crew key = some d ∧ d.trap = none ∧
        d.pts = Ts.smax c.pts m.pts ∧ u.mgmt k = Mgmt.init ∧ key ∉ (u.cluster k).trapq ∧ u.mem = s.mem) ∧
      (c.windowGood = false → exec (.hresume h) s = .next (s.escalate k false)) ∧
      (∀ g, s.gang (keyGid key) = some g → let v := (s.updMgmt k (fun _ => Mgmt.init)).killLaunch g.lslot t.cls
        (v.mgmt k).crew = none → exec (.hkill h true) s = .next v) ∧
      (∀ u, (if s.gangDet (keyGid key) then s.exitReady key = (u, true) else u = s) →
        let v := (u.leaveTrap key c.core).endLanes key c.live
        (v.mgmt k).crew = none → exec (.hkill h false) s = .next v) ∧
      (∃ u, exec (.hret h) s = .next u ∧ u.mgmt k = Mgmt.init ∧ u.crews = s.crews ∧ key ∉ (u.cluster (clusterOf c.core)).trapq ∧
        (∀ g, s.gang (keyGid key) = some g → ∃ v, u.gang (keyGid key) = some v ∧ v.stop = true ∧
          v.heldFault = some (c.idx, 0, t.detail)))) ∧
    (s.cur = .crew key e → s.crew key = some c →
      let c1 := c.settle s.now
      let priv (i : Instr) (op : Nat) : Prop := exec i s = .next (((s.setCrew key c1).markIssued c1).takeTrap key
        (mkTrap 10 e (c1.guard h.pred h.pn (c1.split e).mask) 0 op))
      priv (.hret h) 0xD5 ∧ priv (.hwinR h r item) 0xD6 ∧ priv (.hwinW h r item) 0xD7 ∧ priv (.hresume h) 0xD8 ∧
      priv (.hkill h false) 0xD9 ∧ priv (.hkill h true) 0xD9)) ∧
  (∀ (s : State) (k key : Nat) (c : Crew) (g : Gang),
    ((s.mgmt k).crew = none ∨ s.now < (s.mgmt k).since + 270000 → exec (.watchdogExpiry k) s = .next s) ∧
    ((s.mgmt k).crew = some key → (s.mgmt k).since + 270000 ≤ s.now →
      exec (.watchdogExpiry k) s = .next (s.escalate k true)) ∧
    ((s.mgmt k).crew = some key → s.crew key = some c → s.gang (keyGid key) = some g → ∀ wdog,
      let cls := match c.trap with | some t => t.cls | none => 0
      ∃ v : State, s.escalate k wdog = v.killLaunch g.lslot (cls + 16 + (if wdog then 32 else 0)) ∧ v.mgmt k = Mgmt.init ∧
        v.gangs = s.gangs ∧ v.launches = s.launches ∧ v.crews = s.crews))

/-- R29, R109, R111, R112, R116, R144, R189, R247: the waits of a crew that is not trapped. A `bar.wait` whose object has flipped, a `well.push`
and a `well.pop` that can now go on, and a `batch.wait` whose batches are complete retire; an `ldp` issues again 64 cycles or more after
its attempt; a sleeper is ready `n` cycles or more after its `sleep`; a result on the scoreboard is written, for words that issue after that. A wake-up that comes too early, or
for a trapped crew, changes nothing.
R144, R145, R139: a result of fixed latency is not readable before its cycle and is from it on: a crew with nothing else outstanding that
issues a write of `ready` reads its old registers while `ready` lies ahead, and the written ones after; a scalar write is truncated to 64 bits, and
of vector writes the lanes of the mask change, of p7 and s63 nothing.
The model's choice or reading: when an event does nothing (log entry 3). -/
def Obligations.WakeUps : Prop :=
  (∀ (s : State) (key e : Nat) (c : Crew), s.crew key = some c →
    let sp := c.split e
    let x := s.waitCtx key e c
    (c.trap ≠ none → exec (.barrierWakeup (.split key e)) s = .next s ∧ exec (.wellWakeup (.split key e)) s = .next s ∧
      exec (.batchWakeup (.split key e)) s = .next s) ∧
    (c.trap = none → e < c.splits.length →
      (∀ b q o s1, (∃ gid off, b = .scr gid off) ∨ (∃ d, b = .dev d) → sp.wait = .bar b q → sp.word = some (.barWait o) →
        let woken (u : State) : Prop := exec (.barrierWakeup (.split key e)) s = .next u
        let r := s.barSee b q c.pts (some key)
        (∀ old ts, r = .ok s1 old ts → woken ((s1.barAcquired key c.core b (s1.barScope b) ts).wakeSplit key e [])) ∧
        (r = .waits s1 → woken s) ∧
        (r = .sync s1 → woken (s1.takeTrap key (mkTrap 7 e x.act 0 (c.rs o.a.toNat))))) ∧
      (∀ gid off g q, s.gang gid = some g → g.scrPoison = [] → g.scrBadChk = [] →
        let v := barOf (leVal (g.scrBytes off 16))
        (v.err = false → (v.scope = 1 ∨ v.scope = 2) ∧ v.resv = 0 → v.phase ≠ q →
          s.barSee (.scr gid off) q c.pts (some key) = .ok s v c.pts) ∧
        (v.err = false → v.good true = true → v.phase = q → s.barSee (.scr gid off) q c.pts (some key) = .waits s) ∧
        (v.err = true → s.barSee (.scr gid off) q c.pts (some key) = .sync s)) ∧
      (∀ n h well k r t1, sp.wait = .well n → sp.word = some (.wellPush h well k r) →
        pushAct x c s well.toNat k.toNat r.toNat = .done t1 →
        exec (.wellWakeup (.split key e)) s = .next (t1.wakeSplit key e [])) ∧
      (∀ n h well k pr d t1, sp.wait = .well n → sp.word = some (.wellPop h well k pr d) →
        popAct x c s well.toNat k.toNat d.toNat pr = .done t1 →
        exec (.wellWakeup (.split key e)) s = .next (t1.wakeSplit key e [])) ∧
      (∀ h d b t1, sp.wait = .batch → sp.word = some (.batchWait h d b) →
        batchAct x c s d.toNat (BitVec.ofNat 32 (c.sval b)) = .done t1 →
        exec (.batchWakeup (.split key e)) s = .next (t1.wakeSplit key e [])) ∧
      (∀ since o cc, sp.wait = .poll since → sp.word = some (.ldp o cc) →
        (s.now < 64 + since → ∃ u, exec (.ldpAttempt (.split key e)) s = .next u ∧ u.crew key = some c) ∧
        (64 + since ≤ s.now → ∃ u d, exec (.ldpAttempt (.split key e)) s = .next u ∧ u.crew key = some d ∧
          (d.split e).wait = .none ∧ (d.split e).pc = sp.pc ∧ (d.split e).mask = sp.mask ∧ u.mem = s.mem)) ∧
      (∀ n since, sp.wait = .sleep n since →
        (s.now < n + since → ∃ u, exec (.sleepExpiry (.split key e)) s = .next u ∧ u.crew key = some c) ∧
        (n + since ≤ s.now → ∃ u d, exec (.sleepExpiry (.split key e)) s = .next u ∧ u.crew key = some d ∧
          d.split e = { sp with wait := .none } ∧ u.mem = s.mem))) ∧
    (∀ idx p, c.pend[idx]? = some p →
      let at' := if (s.core c.core).issuedAt.getD c.pipe none = some s.now then s.now + 1 else s.now
      let d : Crew := { c with fix := c.fix ++ p.fixes at', pend := c.pend.filter (· != p) }
      exec (.resultWritten key idx) s = .next (s.setCrew key d) ∧
      ∀ n v, c.fix = [] → p.ws = [sWrite n v] → n < 63 → (d.settle at').rs n = v % 2 ^ 64)) ∧
  (∀ (c : Crew) (e ready now n v l : Nat) (m : Mask) (f : Nat → Nat), c.fix = [] →
    (now < ready → ∀ ws, ((c.addFix e ready ws).settle now).sr = c.sr ∧ ((c.addFix e ready ws).settle now).vr = c.vr ∧
      ((c.addFix e ready ws).settle now).pr = c.pr) ∧
    (ready ≤ now →
      (∀ k, k < 64 → ((c.addFix e ready [sWrite n v]).settle now).rs k =
        (if k = 63 then 0 else if k = n then v % 2 ^ 64 else c.rs k)) ∧
      (n < c.win → l < 32 → ((c.addFix e ready (c.vecWrites n 1 m f)).settle now).rv n l =
        (if m.getLsbD l then f l % 2 ^ 32 else c.rv n l)) ∧
      (∀ k, k < 7 → ((c.addFix e ready [pWrite n m (fun l => f l != 0)]).settle now).rp k l =
        (if k = n ∧ m.getLsbD l then f l != 0 else c.rp k l))))

/-! ## Homes and the fabric (R347 to R371) -/

/-- R354, R357, R359: a request whose turn has come at its slice, on a line that is not lost, with nothing to resolve first. A RENEW is answered EXT with
the least `rts` or DATA with the bytes; a WRITE or WB is performed and acknowledged with its w, and a WB ends its hold; an ATOM is acknowledged with the
old values; a HOLD enters the table of 256, widens its own entry, or has the oldest entry recalled first. The reply takes the request's place at the
slice's router, in an unprotected range.
R354, R347, R356, R76: a WRITE of bytes of a line that is neither lost nor protected, into sectors that are sound. Exactly its bytes change; every sector
it touches gets `wts` = `rts` = w, and in a slice with room no other sector's timestamps change; w lies past the `rts` of the one sector that it touches, and is its `pts` where that is later; the
clock of the home die passes w; crews, gangs, cores and packets are unchanged.
The model's choice or reading: packets and their order, caches (log entries 17 and 52). -/
def Obligations.HomeServices : Prop :=
  (∀ (s u : State) (id n : Nat) (p : Pkt), Tab.get s.net id = some p → p.dst = .slice n → s.turn p = true → u.lost p.line = false →
    let line := p.line
    (∀ w, p.kind = .renew w → p.ops = [] → s.meet id p false [] = (u, true) →
        let r := u.homeRenew line p.first p.cnt p.pts w
        let secs := spanSectors p.first p.cnt
        let offs := (List.range (8 * p.cnt)).map (· + 8 * p.first)
        exec (.homeRenew id) s = .next (r.1.reply id (
          if r.2.1 then { p with kind := .ext r.2.2.2, ans := [] }
          else { p with kind := .data r.2.2.1 r.2.2.2, ans := [],
                        bytes := LineBytes.mk (offs.map (fun o => (o, Cells.get r.1.mem (line * 128 + o)))),
                        poison := secs.filter (fun k => r.1.secPoison (line * 4 + k)) ++
                          (secs.filter (fun k => !r.1.chkOk (line * 4 + k))).map (· + 4) }))) ∧
    (s.meet id p true (p.bytes.map Prod.fst) = (u, true) →
      let r := u.homeWrite line p.bytes p.pts (u.finder (keyGid p.crew) 0)
      (p.kind = .write → exec (.homeWrite id) s = .next (r.1.reply id { p with kind := .ack r.2 })) ∧
      (p.kind = .wb → exec (.homeWb id) s = .next ((r.1.setNht p.dst ((r.1.nhtOf p.dst).filter (fun h =>
        !(h.line == line && h.unit == p.src && h.crew == p.crew)))).reply id { p with kind := .ack r.2 }))) ∧
    (∀ op cas ty ret, p.kind = .atom op cas ty ret → s.meet id p true (atomOffsets p.ops) = (u, true) →
      let r := u.homeAtom line op cas ty p.ops p.pts ret p.acquires (u.finder (keyGid p.crew) (if ret then 8 else 0))
      exec (.homeAtom id) s = .next (r.1.reply id { p with
        kind := .ack r.2.w, ans := r.2.olds, poison := lanesAt p.ops r.2.bad, bytes := r.2.bytes })) ∧
    (∀ sc, p.kind = .hold sc →
      let l := s.nhtOf p.dst
      let mine (h : NHolder) : Bool := h.line == line && h.unit == p.src && h.crew == p.crew
      (l.any mine = false → l.length < 256 → exec (.homeHold id) s = .next ((s.dropPkt id).setNht p.dst
        (l ++ [{ line := line, unit := p.src, crew := p.crew, scope := sc, part := s.gangPart (keyGid p.crew), asked := false }]))) ∧
      (l.any mine = true → exec (.homeHold id) s = .next ((s.dropPkt id).setNht p.dst
        (l.map (fun x => if mine x then { x with scope := if Scope.ge sc x.scope then sc else x.scope } else x)))) ∧
      (∀ h t, l.any mine = false → l = h :: t → 256 ≤ l.length → h.asked = false →
        exec (.homeHold id) s = .next (s.sendRecall p.dst h (!(s.part h.part).mm)))) ∧
    (∀ (t : State) (q : Pkt), t.protOf (q.line * 128) = none → t.reply id q =
      { t with net := Tab.set (Tab.erase t.net id) t.nextId { q with place := q.dst.place, req := id, stamp := t.nextId },
               nextId := t.nextId + 1 })) ∧
  (∀ (s : State) (line : Nat) (bs : LineBytes) (p : Ts), Cells.wf bs = true → (∀ e ∈ bs, e.1 < 128) → s.lost line = false →
    s.protOf (line * 128) = none → s.homes.length = 4 → (∀ k, k < 4 → s.secPoison (line * 4 + k) = false ∧ s.chkOk (line * 4 + k) = true) →
    let r := s.homeWrite line bs p
    let n := s.servSlice line
    let h := s.servDie line
    (∀ a, Cells.get r.1.mem a = match bs.find? (fun e => line * 128 + e.1 == a) with
      | some e => BitVec.ofNat 8 e.2.toNat
      | none => Cells.get s.mem a) ∧
    (∀ k, k < 4 → bs.any (fun e => e.1 / 32 == k) = true → (r.1.slice n).ts (line * 4 + k) = (r.2, r.2)) ∧
    ((s.slice n).sect.length + 4 ≤ 65536 → ∀ sec, (sec / 4 = line → bs.any (fun e => e.1 / 32 == sec % 4) = false) →
      (r.1.slice n).ts sec = (s.slice n).ts sec) ∧
    (∀ k, LineBytes.sectors bs = [k] → r.2 = Ts.smax p (((s.slice n).ts (line * 4 + k)).2 + 1)) ∧
    (r.1.home h).clock = Ts.smax (s.home h).clock r.2 ∧
    (r.1.crews = s.crews ∧ r.1.gangs = s.gangs ∧ r.1.cores = s.cores ∧ r.1.net = s.net ∧ r.1.poison = s.poison))

/-- R353, R355, R357, R194: a reply at its unit, which no other request was combined with; DATA and EXT at a unit that still waits
for them. DATA installs the span's bytes, with w and r for each of its
sectors, and keeps the dirty bytes; EXT leaves the bytes and sets the leases; an ACK ends the crew's wait for its request, and its `pts` is at
least w; a RECALL met by no dirty byte is answered by an empty WB.
R359 to R364, R367, R381: a packet that is the oldest of its port, and that no table entry absorbs, goes one hop X and then Y, or a reply Y and then
X, but for a request before a slice that is full, as one is for a WRITE while it holds 64 WRITE and WB requests of the line; a bridge passes a packet over a channel that works. Eight failed replays in a row start a retrain; one that lasts 8 microseconds takes the channel
down, and its packets go over the next live one; a packet that fails its CRC is sent again, and the third failure takes the channel down. The buddy's
acknowledgement of a mirrored request keeps it in the replay table and sends the ACK. A domain link goes down after its retrain.
The model's choice or reading: packets and their order (log entry 52). -/
def Obligations.Fabric : Prop :=
  (∀ (s : State) (id k : Nat) (p : Pkt), Tab.get s.net id = some p → p.place = .receiver → p.src = .core k →
    s.combs.all (fun c => c.pkt != p.req) = true →
    let secs := spanSectors p.first p.cnt
    let held := (s.span (.core k) p.line).getD Span.empty
    (∀ w r, p.kind = .data w r → s.awaits (.core k) p = true → ∃ u v, exec (.data id) s = .next u ∧ u.span (.core k) p.line = some v ∧ v.first = p.first ∧
      v.cnt = p.cnt ∧ v.bytes = LineBytes.plain p.bytes ∧ v.dirty = held.dirty ∧ v.poison = p.poison ∧ v.pending = none ∧
      (∀ i, i < 4 → secs.contains i = true → v.wts.getD i 0 = w ∧ v.rts.getD i 0 = r) ∧ u.mem = s.mem ∧ u.net = Tab.erase s.net id) ∧
    (∀ r, p.kind = .ext r → s.awaits (.core k) p = true → ∀ v0, s.span (.core k) p.line = some v0 → v0.holds p = true → ∃ u v, exec (.ext id) s = .next u ∧
      u.span (.core k) p.line = some v ∧ v.bytes = v0.bytes ∧ v.dirty = v0.dirty ∧ v.wts = v0.wts ∧
      (∀ i, i < 4 → v.rts.getD i 0 = if secs.contains i then r else v0.rts.getD i 0) ∧
      u.mem = s.mem ∧ u.net = Tab.erase s.net id) ∧
    (∀ w n c, p.kind = .ack w → p.dst = .slice n → s.crew p.crew = some c → c.reqs = [] → ∃ u d, exec (.ack id) s = .next u ∧
      u.crew p.crew = some d ∧ d.pts = Ts.smax c.pts w ∧ d.acks = c.acks.filter (fun a => a.pkt != p.req) ∧
      (∀ f ∈ d.fences, p.req ∉ f.pkts ∧ f.pkts ≠ []) ∧ d.vr = c.vr ∧ d.sr = c.sr ∧ d.splits = c.splits ∧ u.mem = s.mem) ∧
    (p.kind = .recall false → s.span (.core k) p.line = none → ∀ c, s.crew p.crew = some c →
      exec (.recall id) s = .next ((s.dropPkt id).send (Pkt.new .wb p.src p.dst p.line c.pts p.crew 0)))) ∧
  (∀ (s : State) (id cd hd c : Nat) (p : Pkt), cd < 2 → hd < 4 → c < 6 →
    let k := chanNum cd hd c
    let ch := s.chan k
    (Tab.get s.net id = some p → s.absorbed id = false → s.firstOut id p = true → s.clusterServes p = none →
      (∀ w, p.kind ≠ .renew w) → s.combs = [] → ∀ pl, s.nextPlace p = some pl →
        exec (.routerPacket id) s = .next (if pl = .server ∧ s.sliceFull p = true then s else s.putPkt id { p with place := pl })) ∧
    (∀ n, p.dst = .slice n →
      let held := s.net.filter (fun q => q.2.place == .server && q.2.dst == p.dst && q.2.line == p.line && (q.2.kind == .write || q.2.kind == .wb))
      p.kind = .write → (s.sliceFull p = true ↔ 64 ≤ held.length)) ∧
    (∀ x y gx gy : Nat, hop true x y gx gy = (if x < gx then some (x + 1, y) else if gx < x then some (x - 1, y) else if y < gy then some (x, y + 1)
        else if gy < y then some (x, y - 1) else none) ∧
      hop false x y gx gy = (if y < gy then some (x, y + 1) else if gy < y then some (x, y - 1) else if x < gx then some (x + 1, y)
        else if gx < x then some (x - 1, y) else none)) ∧
    (Tab.get s.net id = some p → p.place = .toHome cd hd c → ch.up = true → ch.retrain = none → s.crossesFirst id p = true →
      exec (.bridgePacket id) s = .next ((s.setChan k { ch with failed := 0 }).putPkt id
        { p with place := .home hd (if cd = 0 then 0 else 3) (c + 1), ch := c, fails := 0 })) ∧
    (ch.up = true → ch.retrain = none → ch.failed < 7 →
      exec (.flitError cd hd c) s = .next (s.setChan k { ch with failed := ch.failed + 1 })) ∧
    (ch.up = true → ch.retrain = none → 7 ≤ ch.failed → ∃ u, exec (.flitError cd hd c) s = .next u ∧
      u.chan k = { ch with failed := 0, retrain := some s.now } ∧ u.pwr.retrain = s.pwr.retrain + 1 ∧ u.net = s.net) ∧
    (∀ t, ch.retrain = some t → (s.now < t + 21600 → exec (.retrainTimeout cd hd c) s = .next s) ∧
      (t + 21600 ≤ s.now → exec (.retrainTimeout cd hd c) s = .next (s.chanDown cd hd c)) ∧
      exec (.retrainDone cd hd c) s = .next (s.setChan k { ch with retrain := none, failed := 0 })) ∧
    (Tab.get s.net id = some p → p.place = .toHome cd hd c →
      (p.fails < 2 → exec (.packetCrcError id) s = .next { s with net := Tab.set s.net id { p with fails := p.fails + 1 } }) ∧
      (2 ≤ p.fails → exec (.packetCrcError id) s = .next (s.chanDown cd hd c) ∧ ((s.chanDown cd hd c).chan k).up = false ∧
        ∃ q, Tab.get (s.chanDown cd hd c).net id = some q ∧ q.place = .toHome cd hd ((s.setChan k { ch with up := false }).liveChan cd hd c))) ∧
    (∀ n w, Tab.get s.net id = some p → p.kind = .ack w → p.place = .server → p.dst = .slice n →
      let m := 32 * Nat.xor (n / 32) 1 + n % 32
      ∃ u q, exec (.mirrorWrite id) s = .next u ∧ Tab.get u.net id = some q ∧ q.place = p.dst.place ∧ q.kind = .ack w ∧
        (p.req, p) ∈ (u.slice m).repl ∧ u.mem = s.mem) ∧
    (∀ l, l < 18 → s.dom.linkUp.getD l false = true → (∃ j, j ≠ l ∧ s.dom.linkUp.getD j false = true) →
      ∃ u, exec (.domainLinkTimeout l) s = .next u ∧ u.dom.linkUp.getD l false = false ∧ u.dom.unreachable = s.dom.unreachable ∧
        u.net = s.net ∧ u.outReqs = s.outReqs))

/-- R324, R356, R358, R376: reconciling gives every live home die, bridge and domain agent one clock, and starts a sweep where that clock has crossed a multiple
of 2^26; the sweep raises to T − 2^29 every timestamp whose lag lies between 2^29 and 2^31, and leaves the others. The controller, reaching
an image of the list, raises the `pts` of every crew section in it by the same rule and writes no other byte; blocks that are not saved any more
are passed over. -/
def Obligations.ClocksAndSweeps : Prop :=
  (∀ (s : State), s.homes.any (fun h => !h.failed) = true → ∃ u t, exec .clockReconcile s = .next u ∧ u.lastRec = t ∧
    (∀ h ∈ u.homes, h.failed = false → h.clock = t) ∧ (∀ b ∈ u.bridges, b.clock = t) ∧ u.dom.agent.clock = t ∧
    (t.toNat / 2 ^ 26 = s.lastRec.toNat / 2 ^ 26 → u.sweep = s.sweep) ∧
    (t.toNat / 2 ^ 26 ≠ s.lastRec.toNat / 2 ^ 26 →
      u.sweep = some (t, true, (s.blocks.filter (fun b => b.2.save.isSome)).map Prod.fst)) ∧
    u.mem = s.mem ∧ u.crews = s.crews ∧ u.slices = s.slices) ∧
  (∀ (s : State) (t : Ts) (imgs : List Nat), s.sweep = some (t, true, imgs) → ∃ u, exec .rolloverSweep s = .next u ∧
    u.sweep = (if imgs = [] then none else some (t, false, imgs)) ∧
    (∀ key c, u.crew key = some c → ∃ d, s.crew key = some d ∧ c.pts = sweepTs t d.pts) ∧
    (∀ n, n < 128 → ∀ sec, ((u.slice n).ts sec) = (sweepTs t ((s.slice n).ts sec).1, sweepTs t ((s.slice n).ts sec).2)) ∧ u.mem = s.mem) ∧
  (∀ (s : State) (t : Ts) (un : Bool) (imgs : List Nat) (i : Nat), s.sweep = some (t, un, imgs) → Tab.get s.blocks i = none →
    ∃ u, exec (.imagePtsSweep i) s = .next u ∧
      u.sweep = (if imgs.filter (· != i) = [] ∧ un = false then none else some (t, un, imgs.filter (· != i)))) ∧
  (∀ (s : State) (t : Ts) (un : Bool) (imgs : List Nat) (i : Nat) (b : Blk), s.sweep = some (t, un, imgs) → Tab.get s.blocks i = some b →
    i ∈ imgs → b.save = none → ∃ u, exec (.imagePtsSweep i) s = .next u ∧
      u.sweep = (if imgs.filter (· != i) = [] ∧ un = false then none else some (t, un, imgs.filter (· != i)))) ∧
  (∀ (s : State) (t : Ts) (un : Bool) (imgs : List Nat) (i a : Nat) (b : Blk), s.sweep = some (t, un, imgs) → Tab.get s.blocks i = some b →
    i ∈ imgs → b.save = some a → (∀ line, s.lost line = false) → (∀ pa, s.protOf pa = none) →
    let field (k : Nat) : Nat := a + imgCrewOff b.kind (s.blkDesc b) k + 0x208
    let n := (crewPlan (s.blkDesc b)).length
    (∀ k, k < n → field k + 4 ≤ devSize) →
    ∃ u, exec (.imagePtsSweep i) s = .next u ∧
      u.sweep = (if imgs.filter (· != i) = [] ∧ un = false then none else some (t, un, imgs.filter (· != i))) ∧
      (∀ k, k < n → u.imgLe (field k) 4 = (sweepTs t (BitVec.ofNat 32 (s.imgLe (field k) 4))).toNat) ∧
      (∀ x, (∀ k, k < n → x < field k ∨ field k + 4 ≤ x) → Cells.get u.mem x = Cells.get s.mem x) ∧ u.crews = s.crews) ∧
  (∀ t x : Ts, sweepTs t x = if 2 ^ 29 < (t - x).toNat ∧ (t - x).toNat < 2 ^ 31 then t - 0x20000000#32 else x)

/-- R123, R370: the home of a split counter, whose record is neither lost nor protected, with one request and no other. A refill that HOME can serve is granted
the greater of CHUNK and what it needs; otherwise the holders are visited, each of which gives back half of its allowance, rounded up, or all of it; what
comes back adds to HOME, and with the last reply the refill is granted what it asked for, as far as HOME goes. A grant adds to the allowance of its
core, and ends the wait of the take that asked.
R127, R212, R382: the timer of an OPEN slot combines it once TIMEOUT microseconds have passed since its open, with the positions that are not whole as
missing, and not before; a peer's contribution to a round opens it, or joins it, and the last one ends it; a round without its last contribution 20
microseconds after its first is aborted.
The model's choice or reading: counter messages (log entry 47). -/
def Obligations.CountersAndTimers : Prop :=
  (∀ (s : State) (o core x : Nat) (q : CtrReq) (e : CtrEntry), o % 32 = 0 → s.lost (o / 128) = false → s.protOf (o / 128 * 128) = none →
    s.homes.length = 4 →
    let h := s.ctrHome o
    let rec' := s.ctrGet o
    let holders := ((s.ctrHolders o).map Prod.fst).filter (· != q.core)
    (h = { CtrHome.init with queue := [q] } → q.op = 0 → (s.core q.core).oos = false →
      (max rec'.chunk q.need ≤ rec'.home → ∃ u, exec (.ctrRefill o) s = .next u ∧
        u.ctrHome o = { CtrHome.init with grants := [(q.core, some (max rec'.chunk q.need))] } ∧
        u.ctrGet o = { rec' with home := rec'.home - max rec'.chunk q.need } ∧ u.cores = s.cores ∧ u.crews = s.crews) ∧
      (rec'.home < max rec'.chunk q.need → holders ≠ [] → ∃ u, exec (.ctrRefill o) s = .next u ∧
        u.ctrHome o = { CtrHome.init with st := 1, cur := some q, awaiting := holders } ∧ u.mem = s.mem ∧ u.cores = s.cores)) ∧
    (∀ rest, h.awaiting = core :: rest → h.grants = [] → (s.core core).ctr? o = some e →
      let back := if h.st = 1 then (e.allow + 1) / 2 else e.allow
      ∃ u, exec (.ctrRecall o core) s = .next u ∧ (u.ctrHome o).awaiting = rest ∧
        (u.ctrHome o).replies = h.replies ++ [(core, back)] ∧ (u.core core).ctr? o = some { e with allow := e.allow - back } ∧
        u.mem = s.mem) ∧
    (h = { CtrHome.init with st := 1, cur := some q, replies := [(core, x)] } → q.op = 0 → (s.core q.core).oos = false →
      rec'.home + x ≤ ctrMax → q.need ≤ rec'.home + x →
      let g := min (rec'.home + x) (max rec'.chunk q.need)
      ∃ u, exec (.ctrRecallReply o core) s = .next u ∧ u.ctrHome o = { CtrHome.init with grants := [(q.core, some g)] } ∧
        u.ctrGet o = { rec' with home := rec'.home + x - g }) ∧
    (h = { CtrHome.init with grants := [(core, some x)] } → (s.core core).oos = false → (s.core core).ctr? o = some e →
      (e.refill = none → e.queue = [] → e.allow + x ≤ ctrMax → ∃ u, exec (.ctrGrant o core) s = .next u ∧
        (u.core core).ctr? o = some { e with allow := e.allow + x } ∧ u.ctrHome o = CtrHome.init ∧ u.mem = s.mem) ∧
      (∀ n id key en c w, e.refill = some (n, id) → s.takerOf core id = some (key, en, c) → (c.split en).word = some (.ctrTake w) →
        ∃ t : State, exec (.ctrGrant o core) s = .next (((t.updCrew key (fun c => c.dropReqs en)).wakeSplit key en
            [pWrite w.d.toNat (s.waitCtx key en c).act (fun _ => true)]).nextTakes core o (e.queue.length + 1)) ∧
          t.crews = s.crews ∧ (e.allow + x - n ≤ ctrMax →
            (t.core core).ctr? o = some { e with allow := e.allow + x - n, refill := none } ∧ t.mem = s.mem)))) ∧
  (∀ (s : State),
    (∀ slot k, Tab.get s.cmbSlots slot = some k → s.lost (slot / 128) = false → s.engWaits = [] → hdrState (s.hdr slot) = slotOpen →
      let r := s.cmbRec k.record
      (s.now < k.since + 2700 * r.timeout → exec (.cmbTimeout slot) s = .next s) ∧
      (k.since + 2700 * r.timeout ≤ s.now → ∃ miss, exec (.cmbTimeout slot) s = .next (s.cmbComplete slot miss) ∧
        ∀ e, e < hdrNexp (s.hdr slot) → fld miss e 1 = (if (List.range r.nch).all (fun c => fld (s.hdr slot) (1536 + 64 * e + c) 1 == 1)
          then 0 else 1))) ∧
    (∀ g rank size ty op len bs, let v := s.swrGroup g
      let num := Tab.getD v.next rank 0
      let con : SwrContribution := { rank := rank, size := size, ty := ty.toNat, op := op.toNat, len := len, cmd := none, bytes := bs }
      ((∀ r ∈ v.rounds, r.num ≠ num) → ∃ u, exec (.swrRound g (.peer rank size ty op len bs)) s = .next u ∧
        (u.swrGroup g).rounds = v.rounds ++ [{ num := num, start := s.now, got := [con], ended := false, aborted := false }] ∧
        Tab.getD (u.swrGroup g).next rank 0 = num + 1 ∧ u.mem = s.mem ∧ u.cmds = s.cmds) ∧
      (∀ r, v.rounds = [r] → r.num = num → r.ended = false → r.aborted = false →
        (∀ d ∈ r.got, d.cmd = none ∧ d.mismatch con = false) →
        (∀ d ∈ r.got, ∀ d' ∈ r.got, d.mismatch d' = false) → r.got ≠ [] →
        let all := r.got ++ [con]
        let whole := (List.range size).all (fun k => all.any (fun d => d.rank == k))
        ∃ u, exec (.swrRound g (.peer rank size ty op len bs)) s = .next u ∧
          (u.swrGroup g).rounds = [{ r with got := all, ended := whole }] ∧ u.mem = s.mem)) ∧
    (∀ g r, (s.swrGroup g).rounds = [r] → r.ended = false → (∀ d ∈ r.got, d.cmd = none) →
      (s.now < r.start + 54000 → exec (.swrRoundTimeout g) s = .next s) ∧
      (r.start + 54000 ≤ s.now → ∃ u, exec (.swrRoundTimeout g) s = .next u ∧
        (u.swrGroup g).rounds = [{ r with ended := true, aborted := true }] ∧ u.mem = s.mem)))

/-! ## Translation (R329 to R339) -/

/-- R331 to R338: a walk takes 9 bits of the address at each of levels 4 to 1 and 5 at level 0. An entry with V = 0 fails, as held where HELD is set; a malformed one
fails and is recorded by the home die of the page; a table entry leads to the next level; a leaf that forbids the access fails; another leaf gives its page, and gets A, and D for a
write. PAGE_WALK serves the only request of a page: a failure is told to the word that waits, a success fills the TLB of its core and of its cluster.
The model's choice or reading: poisoned entries, replacement in TLBs, shared walks (log entries 15, 16 and 67). -/
def Obligations.PageWalks : Prop :=
  (∀ (s s1 : State) (asid va kind cls lslot n t o : Nat) (bs : List Byte) (w : Ts),
    let a := t + 8 * (if n = 0 then va / 2 ^ 16 % 32 else va / 2 ^ (12 + 9 * n) % 512)
    s.target a = .dev o → s.lost (o / 128) = false → s.rangeRead a 8 (s.home (s.servDie (o / 128))).clock true none = .ok s1 bs w false →
    let e := leVal bs
    let walk := s.walkAt asid va kind cls lslot (n + 1) t
    let leaf := fld e 1 1 = 1
    let ok := if kind = 0 then fld e 2 1 = 1 else if kind = 1 then fld e 3 1 = 1 else if kind = 2 then fld e 2 1 = 1 ∧ fld e 3 1 = 1 else fld e 4 1 = 1
    let set := if kind = 1 ∨ kind = 2 then 0xC0 else 0x40
    (fld e 0 1 = 0 → fld e 5 1 = 1 → walk = .fail s1 3) ∧
    (fld e 0 1 = 0 → fld e 5 1 = 0 → walk = .fail s1 0) ∧
    (fld e 0 1 = 1 → pteMalformed n e = true →
      walk = .fail (s1.errRecord a va 1 n 1 (32 * s1.walkHome asid va + lineSlice (o / 128)) lslot asid (s1.asidPart asid) cls 4) 2) ∧
    (fld e 0 1 = 1 → pteMalformed n e = false →
      (¬leaf → walk = s1.walkAt asid va kind cls lslot n (fld e 8 44 * 256)) ∧
      (leaf → ¬ok → walk = .fail s1 1) ∧
      (leaf → ok → Nat.lor e set = e → ∃ p, walk = .ok s1 p ∧ p.asid = asid ∧ p.lvl = n ∧ p.pa = fld e 8 44 * 256 ∧
        p.va = va / pageSize n * pageSize n ∧ p.r = (fld e 2 1 == 1) ∧ p.w = (fld e 3 1 == 1) ∧ p.x = (fld e 4 1 == 1)) ∧
      (leaf → ok → Nat.lor e set ≠ e → ∀ s2 b2 w2 p2,
        s1.rangeWrite a (leBytes (Nat.lor e set) 8) (s1.home (s1.servDie (o / 128))).clock none = .ok s2 b2 w2 p2 →
        ∃ p, walk = .ok s2 p ∧ p.pa = fld e 8 44 * 256 ∧ p.va = va / pageSize n * pageSize n))) ∧
  (∀ (s : State) (asid va kind cls lslot : Nat), s.asidOn asid = false ∨ 2 ^ 57 ≤ va → s.walk asid va kind cls lslot = .fail s 0) ∧
  (∀ (s u : State) (asid va key en : Nat) (r : WalkReq) (d : Crew), s.walkq = [r] → r.asid = asid → r.va / 65536 = va / 65536 →
    r.who = .split key en → u.crew key = some d →
    (∀ how, s.walk r.asid r.va r.kind 1 (s.waiterSlot r.who) = .fail u how → ∃ v, exec (.pageWalk asid va) s = .next v ∧ r ∉ v.walkq ∧ v.mem = u.mem ∧
      v.crew key = some { d with walks := d.walks ++ [{ va := r.va / 65536, kind := r.kind, how := how }] }) ∧
    (∀ t, s.walk r.asid r.va r.kind 1 (s.waiterSlot r.who) = .ok u t → ∃ v, exec (.pageWalk asid va) s = .next v ∧ r ∉ v.walkq ∧ v.mem = u.mem ∧
      v.crews = u.crews ∧ (v.core d.core).tlb = tlbPut (u.core d.core).tlb t 64 ∧
      (v.cluster (clusterOf d.core)).tlb = tlbPut (u.cluster (clusterOf d.core)).tlb t 2048))

/-! ## Dispatch (R291 to R306, R314 to R328) -/

/-- R291 to R293, R296, R297: a doorbell moves QTAIL where the queue accepts it, and otherwise sets DBERR; the dispatcher copies the next posted record into the lowest
free entry and counts QHEAD up, or sets RFAULT where the ring cannot be read; a record whose reserved bits are set completes as MALFORMED with check 1;
a launch with everything ended writes its completion word, TAG, DETAIL and STATUS, raises its vector where IRQ is set, and frees its entry.
The model's choice or reading: corners of records (log entry 50). -/
def Obligations.LaunchQueues : Prop :=
  ∀ (s : State) (q : Nat), q < 16384 → s.fw.recovery = false → s.pwr.degraded = false →
    let r := s.queue q
    let k := fld r.qcfg.toNat 25 5
    (∀ v : W32, exec (.doorbell q v) s = .next (
      if r.qcfg.getLsbD 31 = true ∧ r.qcfg.getLsbD 30 = false ∧ (v - r.qhead).toNat ≤ 2 ^ k ∧ (v - r.qtail).toNat < 2 ^ 31 then
        s.setQueue q { r with qtail := v }
      else s.setQueue q { r with qstat := r.qstat ||| 1 })) ∧
    (s.engWaits = [] → (∀ l ∈ s.launches, l.2.queue ≠ q) → r.qcfg.getLsbD 31 = true → r.qstat.getLsbD 1 = false →
      (r.qhead = r.qtail → exec (.dispatchConsume q) s = .next s) ∧
      (r.qhead ≠ r.qtail → ∀ lslot, Tab.firstFree s.launches 0 4096 = some lslot →
        let va := (r.qbase.toNat + 64 * (r.qhead.toNat % 2 ^ k)) % 2 ^ 64
        (∀ u, s.dispRead (fld r.qcfg.toNat 8 8) va 64 = .fail u →
          exec (.dispatchConsume q) s = .next (u.setQueue q { r with qstat := r.qstat ||| 2 })) ∧
        (∀ u bs, s.dispRead (fld r.qcfg.toNat 8 8) va 64 = .ok u bs → u.prevLaunch q r.qhead = none →
          ∃ l, exec (.dispatchConsume q) s = .next ((u.setLaunch lslot l).setQueue q { r with qhead := r.qhead + 1 }) ∧
            l.record = bs ∧ l.queue = q ∧ l.index = r.qhead ∧ l.asid = fld r.qcfg.toNat 8 8 ∧ l.part = fld r.qcfg.toNat 16 6 ∧
            l.desc = [] ∧ l.status = 0))) ∧
    (∀ lslot l, s.engWaits = [] → s.launches = [(lslot, l)] → l.queue = q →
      (l.desc = [] → fld (leVal l.record) 59 5 ≠ 0 → ∃ m, exec (.dispatchConsume q) s = .next (s.setLaunch lslot m) ∧
        m.status = 1 ∧ m.detail = 1 ∧ m.gangsLeft = 0 ∧ m.flushed = true ∧ m.desc ≠ []) ∧
      (l.gangsLeft ≠ 0 → exec (.launchComplete lslot) s = .next s) ∧
      (l.desc ≠ [] → l.gangsLeft = 0 → l.contLeft = 0 → l.cmdsLeft = 0 → l.flushed = true → s.strayWrites = false →
        let free (u : State) : State := { u with launches := Tab.erase u.launches lslot, cores := Tab.mapV u.cores (fun _ k => if k.lastL = some lslot then { k with lastL := none } else k) }
        let ends (u : State) : State := if fld (leVal l.record) 48 1 = 1 then (free u).raiseIrq (fld (u.queue q).qcfg.toNat 0 8) else free u
        let done := fld (leVal l.record) 128 64
        (done = 0 → exec (.launchComplete lslot) s = .next (ends s)) ∧
        (∀ u pa v bs ts b, done ≠ 0 → done < 2 ^ 57 → s.engXlate l.asid done 1 = .ok u pa → u.queues = s.queues → v.queues = s.queues →
          u.directWrite pa (leBytes (fld (leVal l.record) 64 32 * 2 ^ 32 + l.detail % 65536 * 2 ^ 16 + l.status) 8) u.clockMax none (u.launchFinder lslot done) =
            .ok v bs ts b →
          exec (.launchComplete lslot) s = .next (ends v))))

/-- R299 to R302, R306: the dispatcher makes a launch's blocks in ascending gang index, and hands the block that is served next to the core that the order of R301
chooses, and to no other. An idle core's request takes blocks of its launch from a victim, or is refused, and then goes to the next victim; what is
shipped waits in the queue of the core that asked.
R9, R11, R14, R16, R35, R350: a block that can start on its core brings its gang to residence: its crews have every lane live, every register 0, and the serial
maximum of the home clocks as their timestamp. A reorder flush, with every gang of the launch ended, empties the bins into continuation crews, 32
entries at most in each.
The model's choice or reading: corners of placement, block pools (log entries 28 and 50). -/
def Obligations.BlocksAndGangs : Prop :=
  (∀ (s : State) (id core : Nat) (b : Blk) (l : Launch),
    (s.launch b.lslot = some l → l.desc ≠ [] → l.status = 0 → l.clu = false → l.nextG < l.rw * l.rh → s.blocks = [] →
      ∃ n, (s.makeBlock b.lslot).blocks = [(s.nextId, n)] ∧ n.lslot = b.lslot ∧ n.gx = l.nextG % l.rw ∧ n.gy = l.nextG / l.rw ∧
        n.prio = l.prio ∧ n.age = l.nextAge ∧ n.kind = 0 ∧ n.place = 0 ∧
        (s.makeBlock b.lslot).launch b.lslot = some { l with nextG := l.nextG + 1, nextAge := l.nextAge + 1 }) ∧
    (let t := (Tab.keys s.launches).foldl State.makeBlock s
     Tab.get t.blocks id = some b → t.headBlock b.lslot = some (id, b) →
      (b.kind = 0 → t.served b.lslot b = true → t.chooseCore id b = some core → ∃ u, exec (.blockPlace id core) s = .next u ∧
        Tab.get u.blocks id = some { b with place := 1, core := core } ∧ u.gangs = t.gangs ∧ u.launches = t.launches) ∧
      (t.chooseCore id b ≠ some core → exec (.blockPlace id core) s = .next t)) ∧
    (∀ lslot v rest, core < 512 → (s.core core).steal = none → (s.core core).lastL = some lslot → s.idleFor core lslot = true →
      victims core = v :: rest →
      let out := s.shipped v lslot (s.unitAsks core lslot)
      (out = [] → exec (.stealRequest core v) s =
        .next (s.updCore core (fun k => { k with steal := some (lslot, 1, v :: rest) }))) ∧
      (out ≠ [] → ∃ u, exec (.stealRequest core v) s = .next u ∧ (u.core core).steal = some (lslot, 2, []) ∧
        ∀ i x, Tab.get s.blocks i = some x → Tab.get u.blocks i =
          some (if i ∈ out then { x with place := 2, core := core } else x))) ∧
    (∀ lslot v rest, (s.core core).steal = some (lslot, 1, v :: rest) → exec (.stealRefusal core) s =
      .next (s.updCore core (fun k => { k with steal := if rest = [] then none else some (lslot, 0, rest) }))) ∧
    (∀ lslot vs, (s.core core).steal = some (lslot, 2, vs) → ∃ u, exec (.donationArrival core) s = .next u ∧ (u.core core).steal = none ∧
      ∀ i x, Tab.get s.blocks i = some x → Tab.get u.blocks i =
        some (if x.place = 2 ∧ x.core = core then { x with place := 1 } else x))) ∧
  (∀ (s : State) (core id lslot : Nat) (b : Blk) (l : Launch), s.launch lslot = some l →
    (b.lslot = lslot → s.nextLocal core = some (id, b) → s.canStart id b core = true → b.kind = 0 → b.unit = false → b.cont = none → b.gid = none →
      (s.core core).part = some l.part → ∀ pipes, placePipes (s.pipeUse core) ((crewPlan l.desc).map (·.2.1)) = some pipes →
      ∃ u g, exec (.gangStart core) s = .next u ∧ Tab.get u.blocks id = none ∧ u.gang s.nextId = some g ∧ g.lslot = lslot ∧ g.gx = b.gx ∧
        g.gy = b.gy ∧ g.core = core ∧ g.n = descCrews l.desc ∧ g.scr = [] ∧ g.wells = [] ∧ u.mem = s.mem ∧
        ∀ i, i < descCrews l.desc → ∃ c, u.crew (crewKey s.nextId i) = some c ∧ c.core = core ∧ c.idx = i ∧ c.pipe = pipes.getD i 0 ∧
          c.vr = [] ∧ c.sr = [] ∧ c.pr = [] ∧ c.pts = s.clockMax ∧ c.live = 0xFFFFFFFF#32 ∧ (c.split 0).pc = descCode l.desc ∧ c.trap = none) ∧
    (l.flushed = false → l.gangsLeft = 0 → l.status = 0 →
      let t := s.setLaunch lslot { l with bins := [], flushed := true }
      (l.bins = [] → exec (.reorderFlush lslot) s = .next t) ∧
      (∀ key, l.keys = [key] → 0 < (l.binOrder key).length → (l.binOrder key).length ≤ 32 →
        exec (.reorderFlush lslot) s = .next (t.startCont lslot key (l.binOrder key))) ∧
      (∀ key, l.keys = [key] → 32 < (l.binOrder key).length → (l.binOrder key).length ≤ 64 →
        exec (.reorderFlush lslot) s = .next ((t.startCont lslot key ((l.binOrder key).take 32)).startCont lslot key
          ((l.binOrder key).drop 32)))) ∧
    (l.gangsLeft ≠ 0 → exec (.reorderFlush lslot) s = .next s))

/-- R314 to R319, R325: PRECTL stops the gangs that it names, and holds their launches where HOLD is set; while a request is under way it does nothing. A gang with
a save pending, drained, is written to a save slot and leaves its core, and counts as saved, or runs on where no slot is free; a RESUME ends the hold of the
launches it names; a saved gang comes back to a core, or its launch is killed with POST where its image is not good.
R314, R317, R339, R340: FLTNEXT and ENGREQ give the oldest announcement and remove it, or 0; FLTDONE with a SAVE address lets a held block start, or kills its launch with
the class of its image; ENGDONE with a value that ENGREQ gave ends the waits on that page.
The model's choice or reading: gangs held resident, images, recovery (log entries 30, 42 and 46). -/
def Obligations.Preemption : Prop :=
  (∀ (s : State) (part gid blk core : Nat) (v : W64), part < 64 → s.fw.recovery = false →
    let q := s.part part
    let named (k : Nat) (l : Launch) : Prop := l.part = part ∧ (v.getLsbD 12 = true ∨ k = fld v.toNat 0 12)
    (q.prestat.getLsbD 0 = true → exec (.prectl part v) s = .next s) ∧
    (q.prestat.getLsbD 0 = false → (Tab.keys s.gangs).Nodup → (∀ g ∈ s.gangs, g.2.heldFault = none) → ∃ u, exec (.prectl part v) s = .next u ∧
      (∀ k g l, s.gang k = some g → s.launch g.lslot = some l → u.gang k = some { g with stop := g.stop || decide (named g.lslot l) }) ∧
      (∀ k l, s.launch k = some l → u.launch k = some { l with hold := l.hold || (v.getLsbD 13 && decide (named k l)) }) ∧
      u.mem = s.mem ∧ u.crews = s.crews ∧ (u.part part).ptcfg = q.ptcfg) ∧
    (∃ u, exec (.resume part v) s = .next u ∧ u.gangs = s.gangs ∧
      ∀ k l, s.launch k = some l → u.launch k = some { l with hold := l.hold && !decide (named k l) }) ∧
    (∀ g u w, s.gang gid = some g → s.unitOf gid = [gid] → s.gangPart gid = part → g.inIdem = false → g.heldFault = none →
      (g.stop = false → exec (.gangSave gid) s = .next s) ∧
      (g.stop = true → s.drain [gid] = (u, false) → exec (.gangSave gid) s = .next u) ∧
      (g.stop = true → s.drain [gid] = (u, true) → u.saveAll [gid] = some w → w.part part = q →
        exec (.gangSave gid) s = .next (if q.preGangs.contains gid then
            (w.setPart part { q with preGangs := q.preGangs.filter (· != gid), prestat := q.prestat + 0x10000#64 }).preDone part
          else w) ∧
        (u.gang gid ≠ none → u.gangLaunch gid ≠ none → w.gang gid = none)) ∧
      (g.stop = true → s.drain [gid] = (u, true) → u.saveAll [gid] = none →
        exec (.gangSave gid) s = .next (u.leaveRunning [gid] part))) ∧
    (∀ b, s.nextLocal core = some (blk, b) → b.kind = 1 ∨ b.kind = 2 → s.canStart blk b core = true → s.sweep = none → s.unitBlocks blk b = [(blk, b)] →
      Tab.get s.blocks blk = some b → ∀ a, b.save = some a →
      (s.imgGood b a (s.blkDesc b) = true → exec (.gangRestore blk core) s = .next (s.restoreGang blk b (s.restoreCore b core))) ∧
      (s.imgGood b a (s.blkDesc b) = false → ∃ t, exec (.gangRestore blk core) s = .next (State.killLaunch t b.lslot 16) ∧ t.blocks = s.blocks ∧ t.gangs = s.gangs))) ∧
  (∀ (s : State) (part : Nat), part < 64 → s.fw.recovery = false →
    let q := s.part part
    (q.announce = [] → exec (.fltnextRead part) s = .next { s with rdata := 0 }) ∧
    (∀ v rest, q.announce = v :: rest → ∃ u, exec (.fltnextRead part) s = .next u ∧ u.rdata = BitVec.ofNat 64 v ∧
      (u.part part).announce = rest ∧ u.mem = s.mem ∧ u.gangs = s.gangs ∧ u.blocks = s.blocks) ∧
    (q.engreq = [] → exec (.engreqRead part) s = .next { s with rdata := 0 }) ∧
    (∀ asid page rest, q.engreq = (asid, page) :: rest → asid < 256 → page < 2 ^ 41 → ∃ u, exec (.engreqRead part) s = .next u ∧
      u.rdata = BitVec.ofNat 64 (asid + page * 256 + 2 ^ 63) ∧ (u.part part).engreq = rest ∧
      (u.part part).engAnnounced = q.engAnnounced ++ [(asid, page)] ∧ u.engWaits = s.engWaits) ∧
    (∀ id b a l, s.blocks = [(id, b)] → b.held = true → b.save = some a → s.launch b.lslot = some l → l.part = part → a % 4 = 0 → a < 2 ^ 52 →
      (∃ u, exec (.fltdone part (BitVec.ofNat 64 a)) s = .next u ∧ Tab.get u.blocks id = some { b with held := false } ∧
        u.gangs = s.gangs ∧ a ∉ (u.part part).announce) ∧
      (∃ t : State, exec (.fltdone part (BitVec.ofNat 64 (a + 1))) s = .next (t.killLaunch b.lslot (s.imgHdr a 1136 4)) ∧
        t.blocks = s.blocks)) ∧
    (∀ w, s.engWaits = [w] → w.what = 0 ∨ w.what = 2 ∨ w.what = 3 → w.asid < 256 → w.page < 2 ^ 41 → s.asidPart w.asid = part →
      (∃ u, exec (.engdone part (BitVec.ofNat 64 (w.asid + w.page * 256 + 2 ^ 63))) s = .next u ∧ u.engWaits = [] ∧ u.mem = s.mem ∧
        u.cmds = s.cmds) ∧
      (∀ v : W64, v ≠ BitVec.ofNat 64 (w.asid + w.page * 256 + 2 ^ 63) → exec (.engdone part v) s = .next s)))

/-- R303, R329, R330, R340, R386: ASINV takes an invalidation, after those that it already holds; when no access through its pages is left, the oldest one removes the TLB entries of its range, in
its address space alone, and counts INVSEQ up. PTCFG is written, and measured, where a reserved field of it is legal, and otherwise PTSTAT is set; a
write to the quota record keeps its bytes 0 to 3.
The model's choice or reading: invalidations (log entry 32). -/
def Obligations.AddressSpaceControl : Prop :=
  ∀ (s : State) (asid part : Nat) (v : W64), s.fw.recovery = false →
    let r := s.asid asid
    let q := s.part part
    let x := v &&& 0x7FFFFF03#64
    let carved := ((List.range 64).filter (· != part)).foldl (fun n k => n + fld (s.part k).ptcfg.toNat 24 7) (fld v.toNat 24 7)
    (asid < 256 → exec (.asinv asid v) s =
      .next (s.setAsid asid { r with pend := r.pend ++ [v &&& 0x07FFFFFFFFFF0000#64] })) ∧
    (r.pend = [] → exec (.asinvComplete asid) s = .next s) ∧
    (∀ i rest, r.pend = i :: rest → s.crews = [] → s.gangs = [] → s.net = [] → s.blocks = [] → ∃ u, exec (.asinvComplete asid) s = .next u ∧
      u.asid asid = { r with pend := rest, seq := r.seq + 1 } ∧ u.mem = s.mem ∧
      ∀ k t, t ∈ (u.core k).tlb ↔ t ∈ (s.core k).tlb ∧ TlbEntry.overlaps t asid (invRange i) = false) ∧
    (part < 64 → (v.getLsbD 0 = true ∧ fld v.toNat 8 16 = 0) ∨ 64 < carved →
      exec (.ptcfgWrite part v) s = .next (s.setPart part { q with ptstat := 1 })) ∧
    (part < 64 → (v.getLsbD 0 = false ∨ fld v.toNat 8 16 ≠ 0) → carved ≤ 64 → ∃ u, exec (.ptcfgWrite part v) s = .next u ∧
      u.part part = { q with ptcfg := x } ∧ (q.ptcfg.getLsbD 0 = false → v.getLsbD 0 = false → u.fw = s.fw) ∧
      (q.ptcfg.getLsbD 0 = true ∨ v.getLsbD 0 = true → u.fw = { s.fw with meas := s.fw.meas.set 3 (s.fw.meas.getD 3 [] ++ [.hash (leBytes x.toNat 8)]) })) ∧
    (∀ off, part < 64 → off + 8 ≤ 32 → ∃ u, exec (.quotaWrite part off 8 v) s = .next u ∧
      (∀ i, i < 32 → fld (u.part part).quota.toNat (8 * i) 8 =
        if 4 ≤ i ∧ off ≤ i ∧ i < off + 8 then fld v.toNat (8 * (i - off)) 8 else fld q.quota.toNat (8 * i) 8) ∧
      (u.part part).ptcfg = q.ptcfg ∧ u.gangs = s.gangs)

/-! ## Failures, the host and the fleet (R344 to R346, R366 to R396) -/

/-- R366, R367: setting EN of a protected range does nothing where the block is enabled, or where the range or its mirror would overlap another enabled one; with all
other blocks off, a legal range is enabled. The copy then makes the byte at each mirror place equal to its original, leaves all other memory, and sets RDY.
The model's choice or reading: sizes and places (log entry 33). -/
def Obligations.ProtectedRanges : Prop :=
  ∀ (s : State) (k : Nat) (v : W64), k < 8 → s.prot.length = 8 → s.fw.recovery = false → Memory.wf s.mem = true →
    let p := s.protReg k
    let lo := fld p.base.toNat 30 10 * 2 ^ 30
    let n := fld p.size.toNat 0 10
    let m := fld p.mir.toNat 30 10
    let a := fld v.toNat 30 10
    (v.getLsbD 0 = true → p.base.getLsbD 0 = true → exec (.protEnable k v) s = .next s) ∧
    (v.getLsbD 0 = true → ∀ j q, j ≠ k → j < 8 → s.protReg j = q → q.base.getLsbD 0 = true →
      (a < q.lo + q.gib ∧ q.lo < a + n) ∨ (a < q.mlo + q.gib ∧ q.mlo < a + n) ∨ (m < q.lo + q.gib ∧ q.lo < m + n) ∨
        (m < q.mlo + q.gib ∧ q.mlo < m + n) → exec (.protEnable k v) s = .next s) ∧
    (v.getLsbD 0 = true → (∀ j, j < 8 → (s.protReg j).base.getLsbD 0 = false) → 1 ≤ n → n ≤ 288 → a + n ≤ 576 → m + n ≤ 576 → a + n ≤ m ∨ m + n ≤ a →
      exec (.protEnable k v) s = .next (s.setProt k { p with base := v &&& 0xFFC0000001#64 })) ∧
    (v.getLsbD 0 = false → exec (.protEnable k v) s = .next (s.setProt k { p with base := v &&& 0xFFC0000001#64 })) ∧
    (p.base.getLsbD 0 = false ∨ p.base.getLsbD 1 = true → exec (.protMirrorReady k) s = .next s) ∧
    (p.base.getLsbD 0 = true → p.base.getLsbD 1 = false → ∃ u, exec (.protMirrorReady k) s = .next u ∧
      u.protReg k = { p with base := p.base ||| 2 } ∧
      (∀ o, lo ≤ o → o < lo + n * 2 ^ 30 → Cells.get u.mem (m * 2 ^ 30 + Nat.xor (o - lo) 0x1000) = Cells.get s.mem o) ∧
      (∀ o, o < m * 2 ^ 30 ∨ (m + n) * 2 ^ 30 ≤ o → Cells.get u.mem o = Cells.get s.mem o) ∧ u.crews = s.crews)

/-- R123, R368 to R370: a home die fails once: its buddy's clock is raised to the last reconciled clock, its unprotected lines are lost, and no others change their fate; the
engines on it fail. A core that leaves service keeps nothing but its sensor; the launch of a gang that it held is killed with class HOME and LOSS;
its queue goes back to the dispatcher; so for the four cores of a cluster unit.
R75, R344 to R346: an error record of 64 bytes is written at ERRBASE + 64 × (ERRTAIL mod 2^K), ERRTAIL counts up and the vector is raised; a log that is off
or full counts the record lost. The corrected errors of a unit are counted in
intervals of 1 ms, counted from cycle 0 (log entry 35), and recorded, in one record, once their interval is over; an uncorrectable one poisons its sector, and in a gang's scratch, in a
register's lane or in a tile makes that sector, lane or tile bad; one that escapes leaves bytes that the check value finds.
The model's choice or reading: lost dirty bytes, failures (log entries 35 and 54). -/
def Obligations.FailuresAndErrors : Prop :=
  (∀ (s : State), s.homes.length = 4 →
    (∀ hd, hd < 4 → (s.home hd).failed = true → exec (.homeDieFailure hd) s = .next s) ∧
    (∀ hd, hd < 4 → (s.home hd).failed = false → ∃ u, exec (.homeDieFailure hd) s = .next u ∧ (u.home hd).failed = true ∧
      (∀ h, h ≠ hd → (u.home h).failed = (s.home h).failed) ∧
      (u.home (Nat.xor hd 1)).clock = Ts.smax (s.home (Nat.xor hd 1)).clock s.lastRec ∧
      (∀ line, lineDie line = hd → s.protOf (line * 128) = none → u.lost line = true) ∧
      (∀ line, lineDie line = hd → s.protOf (line * 128) ≠ none → (s.home (Nat.xor hd 1)).failed = false → u.lost line = false) ∧
      (∀ id k, Tab.get u.cmds id = some k → Config.engineDie id = hd → k.failed = true)) ∧
    (∀ core, core < 512 → ((s.core core).oos = true → exec (.coreOutOfService core) s = .next s) ∧
      ((s.core core).oos = false → ∃ u, exec (.coreOutOfService core) s = .next u ∧
        u.core core = { CoreSt.init with oos := true, temp := (s.core core).temp, hot := (s.core core).hot, coolSince := (s.core core).coolSince } ∧
        (∀ i x, s.coreGangs core = [] → s.ctrHomes = [] → Tab.get s.blocks i = some x → x.place = 1 → x.core = core →
          Tab.get u.blocks i = some { x with place := 0 }) ∧
        (∀ gid g l, s.coreGangs core = [(gid, g)] → s.ctrHomes = [] → s.launch g.lslot = some l → ∃ l', u.launch g.lslot = some l' ∧ l'.status = 2 ∧
          l'.detail = 75))) ∧
    (∀ k, k < 128 → ∃ u, exec (.coreOutOfService (512 + k)) s = .next u ∧ (u.cluster k).oos = true ∧
      ∀ c ∈ clusterCores k, (u.core c).oos = true)) ∧
  ((∀ (s : State) (pa va cnt det uk un ls as pt cls kind o : Nat),
    let e := s.err
    let k := fld e.cfg.toNat 1 5
    (e.cfg.getLsbD 0 = false ∨ (e.tail - e.head).toNat = 2 ^ k → s.errRecord pa va cnt det uk un ls as pt cls kind =
      { s with err := { e with lost := if e.lost = 0xFFFFFFFF#32 then e.lost else e.lost + 1 } }) ∧
    (e.cfg.getLsbD 0 = true → (e.tail - e.head).toNat ≠ 2 ^ k → e.base.toNat + 64 * (e.tail.toNat % 2 ^ k) = o → o < devSize →
      s.lost (o / 128) = false → s.protOf (o / 128 * 128) = none → o % 64 = 0 → ∃ u, s.errRecord pa va cnt det uk un ls as pt cls kind = u ∧
        Cells.bytes u.mem o 64 = errBytes s.pkgNs pa va cnt det uk un ls as pt cls kind ∧
        (∀ a, a < o ∨ o + 64 ≤ a → Cells.get u.mem a = Cells.get s.mem a) ∧ u.err = { e with tail := e.tail + 1 } ∧
        u.irqs = s.irqs ++ [fld e.cfg.toNat 8 8])) ∧
  (∀ (s : State) (uk un arr : Nat), exec (.eccError (.corrected uk un arr)) s = .next { s with err :=
      { s.err with corrected := s.err.corrected ++ [(uk, un, arr, s.now / 2700000)] } } ∧
    (s.err.corrected = [] → exec (.ecccInterval uk un) s = .next s) ∧
    (∀ t, s.err.corrected = [(uk, un, arr, t)] → (s.now / 2700000 ≤ t → exec (.ecccInterval uk un) s = .next s) ∧
      (t < s.now / 2700000 → exec (.ecccInterval uk un) s = .next
        (({ s with err := { s.err with corrected := [] } } : State).errRecord 0 0 1 arr uk un 0xFFF 0 0 0 3))) ∧
    (∀ t, s.err.corrected = [(uk, un, arr, t), (uk, un, arr, t)] → t < s.now / 2700000 → exec (.ecccInterval uk un) s = .next
        (({ s with err := { s.err with corrected := [] } } : State).errRecord 0 0 2 arr uk un 0xFFF 0 0 0 3))) ∧
  (∀ (s : State) (arr sec gid key r lane t : Nat) (bs : List Byte),
    (sec * 32 < devSize → s.lost (sec / 4) = false →
      (s.secPoison sec = false → exec (.eccError (.sector arr sec)) s = .next (({ s with poison := sec :: s.poison } : State).errRecord
        (sec * 32) 0 1 arr 1 (s.servSlice (sec / 4)) 0xFFF 0 0 0 2)) ∧
      (Tab.get s.badChk sec = none → bs.length = 32 → ∃ u, exec (.eccError (.escaped sec bs)) s = .next u ∧ Cells.bytes u.mem (sec * 32) 32 = bs ∧
        u.chkOk sec = (crc16 (Cells.bytes s.mem (sec * 32) 32) == crc16 bs) ∧
        (∀ a, a / 32 ≠ sec → Cells.get u.mem a = Cells.get s.mem a) ∧ u.poison = s.poison)) ∧
    (∀ g, s.gang gid = some g → sec ∉ g.scrPoison → sec * 32 < g.scrSz → ∃ u, exec (.eccError (.scratch gid sec)) s = .next u ∧
      u.gang gid = some { g with scrPoison := sec :: g.scrPoison }) ∧
    (∀ c, s.crew key = some c → (r, lane) ∉ c.bad → lane < 32 → ∃ u, exec (.eccError (.register key r lane)) s = .next u ∧
      u.crew key = some { c with bad := (r, lane) :: c.bad }) ∧
    (∀ g, s.gang gid = some g → t ∉ g.tilePoison → t < g.ntiles → ∃ u, exec (.eccError (.tile gid t)) s = .next u ∧
      u.gang gid = some { g with tilePoison := t :: g.tilePoison })))

/-- R373, R375, R377 to R379: a snoop of a host line that the bridge holds, and no unit holds narrowly, invalidates it, shares it or looks at it, and gives the bytes of a
modified one; a grant brings the line in that was asked for. A host read gives the bytes of device memory, a host write is performed with the host's inbound
timestamp. An answered back-invalidate ends the hold, or leaves it shared; a heartbeat renews an agent's holds; one without heartbeat for
50 microseconds, or without an answer for 2, expires. A port that goes down answers nothing, and comes up again.
The model's choice or reading: corners of host accesses (log entries 36 and 53). -/
def Obligations.HostAccess : Prop :=
  ∀ (s : State) (port line : Nat), port < 2 → s.bridges.length = 2 →
    let pl := 2 ^ 42 + line
    let b := s.bridge port
    (b.nht = [] → (Tab.get b.lines pl = none → exec (.snpinv port line) s = .next { s with sent := .ack } ∧
        exec (.snpdata port line) s = .next { s with sent := .ack } ∧ exec (.snpcur port line) s = .next { s with sent := .ack }) ∧
      (∀ l, Tab.get b.lines pl = some l → l.st < 4 → l.poison = [] →
        let clk := Ts.smax b.clock (l.gr + 1)
        let ans (modified : Bool) : Sent := if modified then .data (Cells.bytes l.bytes 0 64) false else .ack
        (∃ u, exec (.snpinv port line) s = .next u ∧ Tab.get (u.bridge port).lines pl = none ∧ (u.bridge port).clock = clk ∧
          u.sent = ans (decide (l.st = 3))) ∧
        (∃ u, exec (.snpdata port line) s = .next u ∧ Tab.get (u.bridge port).lines pl = some { l with st := 1 } ∧
          (u.bridge port).clock = clk ∧ u.sent = ans (decide (l.st = 3))) ∧
        (∃ u, exec (.snpcur port line) s = .next u ∧ u.bridge port = b ∧ u.sent = ans true))) ∧
    (∀ id r ex bs, s.outReqs = [(id, r)] → r.port = port → r.addr = pl * 64 → line < 2 ^ 42 → b.up = true → r.what = 0 ∨ r.what = 2 → b.lines = [] →
      bs.length = 64 → ∃ u l, exec (.hostGrant port line ex bs false) s = .next u ∧ u.outReqs = [] ∧
        Tab.get (u.bridge port).lines pl = some l ∧ l.st = (if r.what = 2 ∨ ex = true then 2 else 1) ∧ Cells.bytes l.bytes 0 64 = bs ∧
        l.poison = [] ∧ l.wts = [b.clock, b.clock] ∧ u.mem = s.mem) ∧
    (∀ addr n u v, 0 < n → addr % 64 + n ≤ 64 → addr + n ≤ devSize → s.lostRange addr n = false → s.clearOwnRange port addr n false = (u, true) →
      u.checkRange addr n Finder.nobody = (v, false) →
      exec (.hostMemrd port addr n none) s = .next { v with sent := .data (Cells.bytes v.mem addr n) false }) ∧
    (∀ addr bs u, bs ≠ [] → addr % 64 + bs.length ≤ 64 → addr + bs.length ≤ devSize → s.lostRange addr bs.length = false →
      s.clearOwnRange port addr bs.length true = (u, true) →
      exec (.hostMemwr port addr bs false false false) s = .next { (u.devWrite addr bs b.clock).1.raiseIn port
        (u.devWrite addr bs b.clock).2 with sent := .ack }) ∧
    (∀ l64 h, let n := s.servSlice (l64 / 2)
      (s.slice n).hard = [h] → h.line = l64 →
      (∀ t, h.asked = some t → ∃ u, exec (.bisnpResponse n l64 none) s = .next u ∧ u.mem = s.mem ∧ (u.slice n).hard =
        (if h.inv = true ∨ h.excl = false then [] else [{ h with excl := false, asked := none }])) ∧
      (h.asked = none → exec (.bisnpResponse n l64 none) s = .next s) ∧
      (∀ g t, Tab.get s.slices n = some g → h.agent = t → ∃ u, exec (.heartbeat t) s = .next u ∧ (u.slice n).hard = [{ h with beat := s.now }]) ∧
      (s.now < h.beat + 135000 → (∀ t, h.asked = some t → s.now < t + 5400) → exec (.hardHoldExpiry n l64) s = .next s) ∧
      (h.beat + 135000 ≤ s.now ∨ (∃ t, h.asked = some t ∧ t + 5400 ≤ s.now) → ∃ t : State, exec (.hardHoldExpiry n l64) s = .next
        (t.errRecord (l64 / 1024 * 65536) 0 1 (if h.agent < 2 then h.agent else 0x100 + (h.agent - 2)) 2 (if h.agent < 2 then h.agent else 20)
          0xFFF 0 0 0 8) ∧ (t.slice n).hard = [] ∧ t.mem = s.mem)) ∧
    (b.up = false → exec (.cxlPortDown port) s = .next s ∧ ∃ u, exec (.cxlPortUp port) s = .next u ∧ (u.bridge port).up = true ∧ u.mem = s.mem) ∧
    (b.up = true → exec (.cxlPortUp port) s = .next s ∧ (s.outReqs = [] → s.net = [] → ∃ u, exec (.cxlPortDown port) s = .next u ∧
      (u.bridge port).up = false ∧ (u.bridge port).lines = [] ∧ (u.bridge (1 - port)).nht = (s.bridge (1 - port)).nht ++ b.nht ∧ u.mem = s.mem))

/-- R377, R380, R381: a pool request that one side answers is over: a read brings the line in, a failed one marks its side dead; a side that has not answered for 10 ms is marked
dead. A peer is answered NACK where its DTID is not enabled or does not allow writes, and given the bytes it reads; a recall of a line takes it from
the domain agent, past every lease granted on it, and gives back its modified bytes, or is acknowledged; the answer to a request to a peer brings its line in,
and the answer to a credit completes its part, with FAULT where the object refused it.
The model's choice or reading: requests and answers (log entries 53 and 57). -/
def Obligations.PoolAndDomain : Prop :=
  ∀ (s : State) (id : Nat) (r : OutReq), s.outReqs = [(id, r)] → s.pools.length = 8 → s.bridges.length = 2 →
    let port := s.farPort r.addr
    (∀ k off bs, s.target r.addr = .pool k off → r.addr % 64 = 0 → r.pkt = 0 → s.net = [] →
      (r.what = 0 → (s.bridge port).lines = [] → bs.length = 64 → ∃ u l, exec (.poolCompletion id true false bs) s = .next u ∧ u.outReqs = [] ∧
        Tab.get (u.bridge port).lines (r.addr / 64) = some l ∧ l.st = 1 ∧ Cells.bytes l.bytes 0 64 = bs ∧ u.mem = s.mem) ∧
      (r.what = 1 → r.entry < 2 → exec (.poolCompletion id true false []) s = .next { s with outReqs := [] } ∧
        (s.now < r.since + 27000000 → exec (.poolSideTimeout id) s = .next s) ∧
        (r.since + 27000000 ≤ s.now → ∃ u, exec (.poolSideTimeout id) s = .next u ∧ u.outReqs = [] ∧
          (u.poolReg k).stat.getLsbD r.entry = true ∧ u.mem = s.mem))) ∧
    (∀ p dtid va op, let e := Cells.get s.dom.dtin dtid
      (s.peerReach p = false → exec (.domainInbound p dtid va op) s = .next s) ∧
      (s.peerReach p = true → dtid < 256 → e.getLsbD 8 = false ∨ (e.getLsbD 9 = false ∧ DomOp.writes op = true) →
        exec (.domainInbound p dtid va op) s = .next { s with sent := .nack }) ∧
      (∀ n u o v bs, s.peerReach p = true → dtid < 256 → e.getLsbD 8 = true → va < devSize → op = .read n →
        s.inXlate (fld e.toNat 0 8) va n 0 = .at u [(o, n)] → u.inRead (2 + p) o n ((u.inFinder (fld e.toNat 0 8) va).shift 0) = (v, some (bs, false)) →
        exec (.domainInbound p dtid va op) s = .next { v with sent := .data bs false })) ∧
    (∀ line p va, s.target (line * 64) = .peer p va → s.dom.agent.nht = [] → Tab.get s.dom.agent.lines line = none →
      exec (.domainRecall line) s = .next { s with sent := .ack }) ∧
    (∀ line p va l, s.target (line * 64) = .peer p va → s.dom.agent.nht = [] → Tab.get s.dom.agent.lines line = some l → l.st < 4 →
      l.poison = [] → ∃ u, exec (.domainRecall line) s = .next u ∧ Tab.get u.dom.agent.lines line = none ∧
        (∀ k, k ≠ line → Tab.get u.dom.agent.lines k = Tab.get s.dom.agent.lines k) ∧
        u.dom.agent.clock = Ts.smax s.dom.agent.clock (l.gr + 1) ∧
        u.sent = (if l.st = 3 then .data (Cells.bytes l.bytes 0 64) false else .ack) ∧ u.mem = s.mem ∧ u.crews = s.crews) ∧
    (∀ line, (∀ p va, s.target (line * 64) ≠ .peer p va) → exec (.domainRecall line) s = .next s) ∧
    (∀ bs, 2 ≤ r.port → r.what = 0 ∨ r.what = 2 → s.dom.agent.lines = [] → bs.length = 64 → ∃ u l, exec (.peerReply id true false bs) s = .next u ∧
      u.outReqs = [] ∧ Tab.get u.dom.agent.lines (r.addr / 64) = some l ∧ l.st = (if r.what = 2 then 2 else 1) ∧ Cells.bytes l.bytes 0 64 = bs ∧
      u.mem = s.mem) ∧
    (∀ bs, 2 ≤ r.port → r.what = 1 → exec (.peerReply id true false bs) s = .next { s with outReqs := [] }) ∧
    (∀ bs, 2 ≤ r.port → r.what = 15 →
      let st : BitVec 4 := BitVec.ofNat 4 (r.bytes.getD 8 0).toNat ||| (if fld (leVal bs) 1 1 = 1 then 4 else 0)
      let done : State := { s with outReqs := [] }
      (Tab.get s.cmds r.pkt = none → exec (.peerReply id true false bs) s = .next done) ∧
      (∀ k, Tab.get s.cmds r.pkt = some k → k.op ≠ 8 →
        exec (.peerReply id true false bs) s = .next (done.partDone r.pkt k r.entry st k.pts)))

/-- R301, R388 to R391: at an interval with cool dies every core gets the grant max(8, floor(64 × min(1, B / draw))), never more than its request, where B is the cap less the draws of
VHOME and VHBM and less 40 W; the cap written before takes effect, and PKGPWR is the sum of the rails. A cap outside 1,200 to 2,400 W is ignored. A die at
100 °C sets THERM and halves its cores' duties. A core is hot at 95 °C or with four droops in 100 microseconds, and cool again after 2 ms below 89 °C
without a droop. TLMLO latches its item.
The model's choice or reading: limiting and items (log entries 40 and 45). -/
def Obligations.PowerAndTelemetry : Prop :=
  ∀ (s : State) (core : Nat), core < 512 →
    let k := s.core core
    (∀ v0 v1 vh vm ds, s.pwr.therm = List.replicate 6 false → s.pwr.tempd.length = 6 → ∀ ts : List Int, ts.length = 18 → (∀ t ∈ ts, t < 1552) →
      let req := min 64 (max 8 (ds.getD core (0, 64)).2)
      let draw := ((List.range 512).map (fun c => (ds.getD c (0, 64)).1)).foldl (· + ·) 0
      let budget := s.svc.pcapNew.toNat * 1000 - (vh + vm) - 40000
      ∃ u, exec (.powerInterval v0 v1 vh vm ds ts) s = .next u ∧ u.svc.pcap = s.svc.pcapNew ∧ u.pwr.pkgpwr = v0 + v1 + vh + vm ∧
        u.pwr.rails = [v0, v1, vh, vm] ∧ (u.core core).duty = min (max 8 (if draw ≤ budget then 64 else 64 * budget / draw)) req ∧
        u.pwr.therm = List.replicate 6 false ∧ u.mem = s.mem ∧ u.crews = s.crews) ∧
    (∀ v : W32, exec (.pcapWrite v) s = .next (if 1200 ≤ v.toNat % 4096 ∧ v.toNat % 4096 ≤ 2400 then
      { s with svc := { s.svc with pcapNew := BitVec.ofNat 32 (v.toNat % 4096) } } else s)) ∧
    (∀ die temp, die < 2 → s.pwr.therm.length = 6 → (temp < 1600 → exec (.thermalLimit die temp) s = .next s) ∧
      (1600 ≤ temp → ∃ u, exec (.thermalLimit die temp) s = .next u ∧ u.pwr.therm.getD die false = true ∧ u.svc.pwrst.getLsbD 1 = true ∧
        (u.core core).duty = (if coreDie core = die ∧ s.pwr.therm.getD die false = false then max 8 (k.duty / 2) else k.duty) ∧ u.mem = s.mem)) ∧
    (∀ temp, ∃ u, exec (.coreHot core temp) s = .next u ∧ (u.core core).temp = temp ∧
      (u.core core).hot = (k.hot || decide (1520 ≤ temp) || decide (4 ≤ (k.droops.filter (fun t => decide (s.now ≤ t + 270000))).length))) ∧
    (∃ u, exec (.droopEvent core) s = .next u ∧ u.pwr.droop = s.pwr.droop + 1 ∧ s.now ∈ (u.core core).droops ∧ (u.core core).coolSince = s.now ∧
      (3 ≤ (k.droops.filter (fun t => decide (s.now ≤ t + 270000))).length → (u.core core).hot = true)) ∧
    (∀ temp, temp < 1424 → k.temp < 1424 → ∃ u, exec (.coreCool core temp) s = .next u ∧
      (u.core core).hot = (k.hot && decide (s.now < k.coolSince + 5400000)) ∧ (u.core core).temp = temp) ∧
    (∃ u, exec .tlmloRead s = .next u ∧ u.svc.latch = s.tlmItem (s.svc.tlmidx.toNat % 65536) ∧
      u.rdata.toNat = (s.tlmItem (s.svc.tlmidx.toNat % 65536)).toNat % 2 ^ 32 ∧ s.tlmItem 0 = BitVec.ofNat 64 s.pwr.pkgpwr ∧
      s.tlmItem 2 = s.pwr.capcnt ∧ s.tlmItem 3 = s.pwr.tripcnt ∧ s.tlmItem 0x50 = s.pwr.droop ∧ s.tlmItem 0x61 = s.pwr.retrain ∧
      (s.tlmItem (0x40 + core / 64)).getLsbD (core % 64) = k.hot ∧ (s.tlmItem (0x48 + core / 64)).getLsbD (core % 64) = k.oos ∧ s.tlmItem 0x7F = 0)

/-- R383 to R387, R393: an update in a package that is not busy: an image that a check refuses ends with ERR and the check's number, and changes no slot; bytes that
cannot be read count as check 5; an accepted image goes to the slot that is not running and is pending; the floor never falls. The mailbox gives the
report, signed with the index that GO took, 40 bytes of header, nonce, eight measurements and the key's digest first; the public key of 60 bytes; and ERR for
other operations; while it is busy nothing begins.
The model's choice or reading: open values, formats, corners (log entries 4, 39, 42 and 43). -/
def Obligations.FirmwareAndTrust : Prop :=
  (∀ (s : State), s.fw.fwBusy = false →
    let floor := s.svnFloor
    let pend := s.svc.fwstat &&& 0x100
    (∃ u, exec (.firmwareUpdate none) s = .next u ∧ u.svc.fwstat = pend ||| 0x56 ∧ u.fw = s.fw) ∧
    (∀ bs n, checkImage floor bs = .failed n → n < 16 → ∃ u, exec (.firmwareUpdate (some bs)) s = .next u ∧
      u.svc.fwstat = pend ||| 6 ||| BitVec.ofNat 32 (16 * n) ∧ u.fw = s.fw) ∧
    (∀ bs d body, checkImage floor bs = .accepted 1 d body → ∃ u, exec (.firmwareUpdate (some bs)) s = .next u ∧ u.svc.fwstat = 0x102 ∧
      u.fw = (if s.fw.recovery = true ∨ s.fw.runPrimary = false then { s.fw with primary := .image bs } else { s.fw with backup := .image bs })) ∧
    (∀ bs d body, checkImage floor bs = .accepted 2 d body → ∃ u, exec (.firmwareUpdate (some bs)) s = .next u ∧ u.svc.fwstat = pend ||| 2 ∧
      u.fw.primary = s.fw.primary ∧ u.fw.backup = s.fw.backup ∧ floor.toNat ≤ u.svnFloor.toNat ∧
      u.fw.meas = s.fw.meas.set 2 (s.fw.meas.getD 2 [] ++ [.digest d]))) ∧
  (∀ (bs : List Byte) (floor : BitVec 32),
    (∀ k d body, checkImage floor bs = .accepted k d body → (k = 1 ∨ k = 2) ∧ d = (bs.drop 16).take 32 ∧ sha256 body = d ∧
      fld (leVal (bs.take 64)) 480 32 = 0x585A4657 ∧ floor.toNat ≤ fld (leVal (bs.take 64)) 416 32 ∧
      body = (bs.drop 64).take (fld (leVal (bs.take 64)) 384 32) ∧ hssVerify Config.vendorKey ((bs.drop (64 + body.length)).take 3604) (bs.take 64) = true) ∧
    (64 ≤ bs.length → fld (leVal (bs.take 64)) 480 32 ≠ 0x585A4657 → checkImage floor bs = .failed 1)) ∧
  (∀ (s : State), s.fw.atOp = none →
    (s.fw.sigIndex < 2 ^ 40 → ∃ u, exec .attestReport s = .next u ∧ u.fw.sigIndex = s.fw.sigIndex + 1 ∧ u.fw.atOp = none ∧
      u.fw.out = s.reportBody s.fw.sigIndex ++ identitySign s.fw.sigIndex (s.reportBody s.fw.sigIndex) ∧ u.fw.atstat.getLsbD 1 = true ∧
      (s.fw.nonce.length = 32 → (s.reportBody s.fw.sigIndex).length = 352 ∧ ((s.reportBody s.fw.sigIndex).drop 32).take 32 = s.fw.nonce ∧
        (s.reportBody s.fw.sigIndex).drop 320 = sha256 identityKey)) ∧
    (2 ^ 40 ≤ s.fw.sigIndex → exec .attestReport s = .next (({ s with fw := { s.fw with atOp := none, atstat := 1, out := [] } } : State).atError)) ∧
    (∃ u, exec .identityPublicKey s = .next u ∧ u.fw.out = identityKey ∧ identityKey.length = 60 ∧ u.fw.sigIndex = s.fw.sigIndex ∧
      u.fw.atstat = BitVec.ofNat 64 (2 + 60 * 2 ^ 16)) ∧
    (∀ op : BitVec 2, 2 ≤ op.toNat → ∃ u, exec (.atctlRefused op) s = .next u ∧ u.fw.atstat = 6 ∧ u.fw.out = [] ∧ u.fw.sigIndex = s.fw.sigIndex))

/-- R4, R291, R374, R384, R385, R387, R390, R394 to R396: RSTCTL with bit 0 and the key 0xA5, a CXL reset, the return of power and a thermal trip bring every register but the
slots, the floor, the signature index and TRIPCNT to its reset value and memory to zero; a probe that failed takes its core out of service, or sets
DEGRADED. Another value of RSTCTL does nothing. A trip, at 110 °C or more, is counted. A lost power loses all that reset loses, and gives no service until it
returns. Register writes reach their registers, a ring address while its queue is off.
The model's choice or reading: what a reset keeps, narrow writes (log entries 31, 34 and 44). -/
def Obligations.ResetsAndRegisters : Prop :=
  ∀ (s : State), s.fw.primary = .factory → s.fw.fwBusy = false → s.svc.fwstat.getLsbD 8 = false →
    let fresh (u : State) : Prop := u.mem = [] ∧ u.crews = [] ∧ u.gangs = [] ∧ u.launches = [] ∧ u.queues = [] ∧ u.parts = [] ∧ u.asids = [] ∧ u.traps = [] ∧
      u.net = [] ∧ u.prot = State.reset.prot ∧ u.pools = State.reset.pools ∧ u.err = ErrRegs.init ∧ u.poison = [] ∧ u.badChk = [] ∧
      u.fw.primary = s.fw.primary ∧ u.fw.backup = s.fw.backup ∧ u.fw.sigIndex = s.fw.sigIndex ∧ u.fw.floor = s.fw.floor ∧
      u.fw.recovery = false ∧ u.svc.pcap = 2400 ∧ u.now = 0
    (∀ v : W32, v.getLsbD 0 = true → fld v.toNat 8 8 = 0xA5 → (∃ u, exec (.packageReset v [] []) s = .next u ∧ fresh u ∧
        u.pwr.tripcnt = s.pwr.tripcnt ∧ u.pwr.degraded = false) ∧
      (∀ c, c < 512 → ∃ u, exec (.packageReset v [c] []) s = .next u ∧ fresh u ∧ (u.core c).oos = true) ∧
      (∀ h, h < 4 → ∃ u, exec (.packageReset v [] [h]) s = .next u ∧ fresh u ∧ u.pwr.degraded = true ∧ (u.home h).failed = true ∧
        u.svc.pwrst.getLsbD 2 = true) ∧
      exec (.registerWrite 1 0x30 4 (v.zeroExtend 64)) s = exec (.packageReset v [] []) s) ∧
    (∀ v : W32, v.getLsbD 0 = false ∨ fld v.toNat 8 8 ≠ 0xA5 → exec (.packageReset v [] []) s = .next s) ∧
    (∃ u, exec (.cxlReset [] []) s = .next u ∧ fresh u ∧ u.pwr.tripcnt = s.pwr.tripcnt) ∧
    (s.pwr.off = true → ∃ u, exec (.powerOn [] []) s = .next u ∧ fresh u ∧ u.pwr.off = false) ∧
    (s.pwr.off = false → exec (.powerOn [] []) s = .next s) ∧
    (∃ u, exec .powerLoss s = .next u ∧ u.mem = [] ∧ u.crews = [] ∧ u.launches = [] ∧ u.pwr.off = true ∧ u.fw.primary = s.fw.primary ∧
      u.fw.sigIndex = s.fw.sigIndex ∧ u.pwr.tripcnt = s.pwr.tripcnt) ∧
    (∀ temp, temp < 1760 → exec (.thermalTrip temp) s = .next s) ∧
    (∀ temp, 1760 ≤ temp → s.launches = [] → ∃ u, exec (.thermalTrip temp) s = .next u ∧ fresh u ∧ u.pwr.tripcnt = s.pwr.tripcnt + 1) ∧
    (∀ (q : Nat) (v : W64), q < 16384 → s.fw.recovery = false →
      let r := s.queue q
      (exec (.registerWrite 0 (32 * q) 8 v) s = .next (if r.qcfg.getLsbD 31 then s else s.setQueue q { r with qbase := v &&& 0x01FFFFFFFFFFF000#64 })) ∧
      exec (.registerWrite 0 (32 * q + 0x14) 4 v) s = exec (.doorbell q (v.truncate 32)) s ∧
      exec (.registerWrite 0 (32 * q + 0x18) 8 v) s = .next (s.setQueue q { r with qstat := r.qstat &&& ~~~(v &&& 3) })) ∧
    (∀ v : W64, ∃ u, exec (.registerWrite 1 0x0C 4 v) s = .next u ∧ u.svc = { s.svc with tlmidx := BitVec.ofNat 32 (v.toNat % 65536) })

/-! ## Issue, the step, reset, the encoding and invariants -/

/-- R29, R145, R151: what a word meets before its own effect, in this order, for `iadd`, `fadd`, `ld`, `st`, `clkr` and `tsget`. A register
held by the scoreboard leaves it to a later cycle; a register outside the window raises ILL with the word in AUX; in DET a word that R33 forbids raises
DET; a source that a result of its own split has not reached raises STALLSHORT with that register in AUX, in DET or where the crew checks it; a word with
no active lane only goes on; a register cell with an uncorrectable error raises INTEGRITY in its lanes.
The model's choice or reading: the order within one word (log entry 20). -/
def Obligations.ChecksAtIssue : Prop :=
  ∀ (s : State) (key e : Nat) (c0 : Crew) (o : Alu) (f : Flt) (m : Mem) (line fl : Bool) (h : Hdr) (k : BitVec 2) (d a : Reg),
    s.cur = .crew key e → s.crew key = some c0 →
    ∀ p ∈ ([(.iadd o, Alu.use o {}, o.h), (.fadd f, fltSame f {}, f.h), (.ld m line, Mem.use m true (Ty.memRegs m.ty) 0, m.h),
        (.st m, Mem.use m true 0 (Ty.memRegs m.ty), m.h), (.clkr h k d, (Hdr.use h [] [sReg d]).inDet true 0xDB, h),
        (.tsget h fl d a, (Hdr.use h [sReg a] [sReg d]).inDet true 0x6B, h)] : List (Instr × WUse × Hdr)),
      let i := p.1
      let u := p.2.1
      let c := c0.settle s.now
      let t := s.setCrew key c
      let act := c.guard u.pred u.pn (c.split e).mask
      let det := s.gangDet (keyGid key)
      let traps (tr : Trap) : Prop := exec i s = .next ((t.markIssued c).takeTrap key tr)
      (c0.boardFree u = false → exec i s = .next (s.tryLater key e)) ∧
      (c0.boardFree u = true →
        (u.fits c.win = false → traps (mkTrap 0 e act 0 (Instr.word i).toNat)) ∧
        (u.fits c.win = true →
          (act = 0 → exec i s = .next ((t.retire key e 8 p.2.2.stall.toNat).boundary key)) ∧
          (act ≠ 0 →
            (∀ n, det = true → u.det = some n → traps (mkTrap 9 e act 0 n)) ∧
            (∀ r, (det = true ∧ u.det = none ∨ det = false ∧ c.status.getLsbD 9 = true) → c.shortRead e u = some r →
              traps (mkTrap 4 e act 0 r)) ∧
            (det = false → c.status.getLsbD 9 = false → c.badLanes u act ≠ [] →
              traps (laneTrap 8 e ((c.badLanes u act).map (fun l => (l, 2 ^ 64 - 1, 0))) 0)))))

/-- R29, R143, R144: the frame of a word whose results go to registers, of fixed latency or on the scoreboard (`Fixed`, `Pending`: the integer
words, the floating-point words, the lane words, the words of paired form through `x.retires`). Everything but its crew and its pipe's issue record is as
before, memory among it; of the crew the split goes on behind the word, the results join those not yet readable, the flags join the status register's; every
register, the window, the predicates, the accumulators of tiles, the timestamp, the records, the other splits and the trap state are those before the word. -/
def Obligations.RegisterWordsFrame : Prop :=
  ∀ (s : State) (us : List WUse) (x : Ctx) (c : Crew) (t : State) (size stall lat : Nat) (ws : List RegWrite) (fl : Flags),
    s.ready us = some (x, c, t) →
    let sp := c.split x.e
    let frame (u : State) (c1 : Crew) : Prop :=
      { u with crews := s.crews, cores := s.cores } = s ∧ u.mem = s.mem ∧
      (∀ k, k ≠ x.key → u.crew k = s.crew k) ∧ (∀ k, k ≠ c.core → u.core k = s.core k) ∧
      { u.core c.core with issuedAt := (s.core c.core).issuedAt } = s.core c.core ∧
      ∃ d, u.crew x.key = some d ∧
        { d with splits := c.splits, fix := c.fix, pend := c.pend, seq := c.seq, status := c.status, walks := c.walks } = c ∧
        d.fix = c1.fix ∧ d.pend = c1.pend ∧ d.walks = [] ∧ d.status = c1.status ∧
        d.split x.e = { sp.after s.now stall with pc := sp.pc + size } ∧ (∀ k, k ≠ x.e → d.split k = c.split k)
    frame (x.retires size stall (x.fixes c t lat ws fl)) ((c.orFlags fl).addFix x.e (t.now + lat) ws) ∧
    frame (x.retires size stall (x.pends c t ws fl)) ((c.orFlags fl).addPend x.e ws) ∧
    frame (x.retires size stall t) c ∧
    { (c.orFlags fl).addFix x.e (t.now + lat) ws with fix := c.fix, seq := c.seq, status := c.status } = c ∧
    { (c.orFlags fl).addPend x.e ws with pend := c.pend, seq := c.seq, status := c.status } = c ∧
    (∀ n, (c.orFlags fl).status.getLsbD n = (c.status.getLsbD n || (decide (n < 5) && fl.getLsbD n)))

/-- R29, R130, R146, R249, R253: a step runs the word that its unit fetches. Where the split that a pipe chooses, a management core, or a pump has its PC
translated, and the eight bytes there (sixteen for `movl`) decode to `i`, the step is `exec i` with that unit as the issuer; where they decode
to no instruction, that of the illegal word. An event of the agenda is run as it stands, and the issuer is no longer named afterwards. That the
agenda says which unit moves is the model's own (log entry 1).
R248: a clock move lets cycles pass, and an empty agenda lets one pass; nothing else changes but the agenda (log entry 1); a package
without power takes part in nothing but the return of power (R385).
The model's choice or reading: the agenda, an illegal movl with a failing literal (log entries 1 and 70). -/
def Obligations.StepRunsDecoded : Prop :=
  (∀ (s : State) (rest : List Move), s.pwr.off = false →
    let s0 : State := { s with agenda := rest }
    let at' (u : State) (ag : Agent) (asid pc : Nat) (ws : List WalkFail) (i : Instr) : Prop :=
      ∃ pa bs, pc < 2 ^ 57 ∧ u.xlate ag asid pc 3 ws = .ok pa ∧ u.codeBytes pa 8 = some bs ∧
        let w := BitVec.ofNat 64 (leVal bs)
        if isMovl w then ∃ pa2 lit, pc + 8 < 2 ^ 57 ∧ u.xlate ag asid (pc + 8) 3 ws = .ok pa2 ∧ u.codeBytes pa2 8 = some lit ∧
          ((∃ r, decode (bs ++ lit) = .ok (i, r)) ∨ (∃ r, decode (bs ++ lit) = .error r) ∧ i = .illegalEncoding w)
        else (∃ r, decode bs = .ok (i, r)) ∨ (∃ r, decode bs = .error r) ∧ i = .illegalEncoding w
    (∀ core pipe cand cr i, s.agenda = .pipe core pipe :: rest → (s.core core).issuedAt.getD pipe none ≠ some s.now →
      (s.core core).withheld s.now = false → (s0.pick core pipe).2 = some cand →
      let u : State := { (s0.pick core pipe).1 with cur := .crew cand.key cand.e }
      u.crew cand.key = some cr →
      at' u (.core core) (u.gangAsid (keyGid cand.key)) (cr.split cand.e).pc cr.walks i →
        step s = endWord (exec i (u.startGang (keyGid cand.key)))) ∧
    (∀ k i, s.agenda = .mgmt k :: rest → (s.mgmt k).crew ≠ none → (s.mgmt k).wait = .none → (s.mgmt k).nextIssue ≤ s.now →
      let u : State := { s0 with cur := .mgmt k }
      at' u (.mgmt k) (s.mgmtAsid k) (s.mgmt k).pc (s.mgmt k).walks i → step s = endWord (exec i u)) ∧
    (∀ gid g p i, s.agenda = .pump gid :: rest → s.gang gid = some g → g.pump = some p → p.halted = false → p.stopped = false →
      p.wait = .none → g.issued = true → g.stop = false → p.tried ≠ some s.now →
      let u : State := { s0 with cur := .pump gid }
      at' u (.core g.core) (s.gangAsid gid) p.pc p.walks i → step s = endWord (exec i u)) ∧
    (∀ i, s.agenda = .event i :: rest → step s = endWord (exec i { s0 with cur := .none })) ∧
    (∀ t, endWord (.next t) = .next { t with cur := .none })) ∧
  (∀ (s : State) (rest : List Move) (n : Nat),
    (s.agenda = [] → step s = .next (s.tick 1)) ∧
    (s.agenda = .clock n :: rest → s.pwr.off = false → step s = .next ({ s with agenda := rest }.tick n)) ∧
    (∀ m, s.agenda = m :: rest → s.pwr.off = true → m.powers = false → step s = .next { s with agenda := rest }))

/-- R394, R387, R366, R380, R381, R329, R308, R345, R291: the machine after a package reset: no launch, gang, crew or packet; every byte of device memory 0; the queue,
address-space, trap, error-log, PROT, pool and domain registers 0; PCAP at 2,400 W; no die failed; no measurement beyond the boot's; and memory in
canonical form.
The model's choice or reading: values with no reset value in the spec (log entry 2). -/
def Obligations.ResetState : Prop :=
  let s := State.reset
  s.inv ∧ (∀ a, Cells.get s.mem a = 0) ∧ s.launches = [] ∧ s.gangs = [] ∧ s.crews = [] ∧ s.net = [] ∧
  (∀ q, s.queue q = QueueRegs.init) ∧ (∀ a, s.asid a = AsidRegs.init) ∧ (∀ a, s.trapRegs a = TrapRegs.init) ∧
  (∀ p, s.part p = Part.init) ∧ s.err = ErrRegs.init ∧
  (∀ r ∈ s.prot, r.base = 0 ∧ r.size = 0 ∧ r.mir = 0) ∧ (∀ r ∈ s.pools, r.base = 0 ∧ r.size = 0 ∧ r.dev = 0 ∧ r.stat = 0) ∧
  s.dom.cfg = 0 ∧ s.dom.dtout = [] ∧ s.dom.dtin = [] ∧ s.svc.pcap = 2400 ∧ s.fw.atstat = 0 ∧
  (∀ k, s.core k = CoreSt.init) ∧ (∀ d, (s.home d).failed = false)

/-- R130 to R134, R148: words written out from the encoding tables decode to their instructions; the first six are the spec's own examples. -/
def Obligations.DecodesSpecWords : Prop :=
  let h : Hdr := { stall := 0, pn := false, pred := 7 }
  decode [0x0A, 0x00, 0x20, 0x20, 0x11, 0x08, 0x10, 0x19] =
    .ok (.fadd ⟨⟨3, false, 2⟩, .f32, .rne, false, false, false, false, false, false, false, 4, .v 2, .s 9, 0⟩, []) ∧
  decode [0x8A, 0x23, 0x14, 0x8F, 0xE0, 0x04, 0x88, 0x90] =
    .ok (.hiadd 1 ⟨8, .v 1, 7, false, 2⟩ (.hfmul ⟨5, .v 2, 7, false, 10⟩), []) ∧
  decode [0x07, 0x00, 0x00, 0x00, 0x00, 0x00, 0xA8, 0x04] = .ok (.bra ⟨0, true, 1⟩ 7, []) ∧
  decode [0xB6, 0x10, 0x00, 0x84, 0x10, 0x8C, 0xB2, 0x03] =
    .ok (.atom ⟨h, .n32, .dv, .rx, .gl, 2, 6, .v 2, .v 4, 8⟩ 0, []) ∧
  decode [0x26, 0x00, 0x00, 0x26, 0x00, 0x04, 0xDC, 0x03] = .ok (.mma h 2 true false 2 0 2 0 1 12, []) ∧
  decode [0x80, 0x00, 0x01, 0x00, 0x00, 0x80, 0xF1, 0x03] = .ok (.axStrd h false 0 1 128, []) ∧
  decode [0x02, 0x10, 0x00, 0xC0, 0x10, 0x08, 0xB0, 0x03] =
    .ok (.ld ⟨h, .i32, .cr, .wk, .gl, 2, 4, .v 2, .v 6, 0⟩ false, []) ∧
  decode [0x02, 0x00, 0x00, 0x00, 0x00, 0x80, 0xC2, 0x03] = .ok (.bsync h 2, []) ∧
  decode [0x00, 0x00, 0x60, 0x60, 0x10, 0x82, 0xD0, 0x03] = .ok (.ctrTake ⟨h, 1, 2, .s 3⟩, []) ∧
  decode [0x03, 0x00, 0x00, 0x00, 0x00, 0x08, 0xE8, 0x03] = .ok (.csrr h 4 3, []) ∧
  decode [0x03, 0x00, 0x00, 0x00, 0x00, 0x04, 0x81, 0x03, 0x88, 0x77, 0x66, 0x55, 0x44, 0x33, 0x22, 0x11] =
    .ok (.movl h false .i64 2 0x1122334455667788, [])

/-- R130 to R138, R146: decoding the bytes of a well-formed instruction gives it back, with every operand, and leaves the bytes behind
it. -/
def Obligations.DecodeEncode : Prop :=
  ∀ (i : Instr) (rest : List Byte), i.wf = true → decode (encode i ++ rest) = .ok (i, rest)

/-- Whatever the state and the next move, the machine goes on: no step faults and none is refused, as long as the agenda names words only through the units
that fetch them (log entry 1). -/
def Obligations.StepNeverStops : Prop :=
  ∀ (s : State), (∀ m rest, s.agenda = m :: rest → m.legal = true) → ∃ t, step s = .next t

/-- Device memory keeps its canonical form in every step: rising addresses, no zero byte listed (the model's own representation of R45's memory, in which an
unlisted byte reads 0, R394). -/
def Obligations.MemoryStaysCanonical : Prop :=
  ∀ (s t : State), s.inv → step s = .next t → t.inv
end

