-- ==== Sys2Proof/Laws/Encode.lean ====
section
/-! SUPPORT. The fields of a word are read as they were packed. -/

namespace Sys2Proof

theorem bitsAt_place_zero (len v : Nat) (t : List (Nat × Nat)) (h : v < 2 ^ len) : bitsAt (place ((len, v) :: t)) 0 len = v := by
  simp only [bitsAt, place, Nat.pow_zero, Nat.div_one, Nat.add_mul_mod_self_left]
  exact Nat.mod_eq_of_lt h

theorem bitsAt_place_skip (len v lo n : Nat) (t : List (Nat × Nat)) (h : v < 2 ^ len) (hl : len ≤ lo) :
    bitsAt (place ((len, v) :: t)) lo n = bitsAt (place t) (lo - len) n := by
  simp only [bitsAt, place]
  congr 1
  obtain ⟨k, rfl⟩ := Nat.exists_eq_add_of_le hl
  rw [Nat.pow_add, ← Nat.div_div_eq_div_mul, Nat.add_mul_div_left _ _ (Nat.two_pow_pos len), Nat.div_eq_of_lt h, Nat.zero_add,
    Nat.add_sub_cancel_left]

theorem place_lt (l : List (Nat × Nat)) (h : ∀ e ∈ l, e.2 < 2 ^ e.1) : place l < 2 ^ (l.map Prod.fst).sum := by
  induction l with
  | nil => simp [place]
  | cons e t ih =>
    have h1 := h e (by simp)
    have h2 := ih (fun x hx => h x (by simp [hx]))
    obtain ⟨len, v⟩ := e
    simp only [place, List.map_cons, List.sum_cons, Nat.pow_add] at *
    calc v + 2 ^ len * place t < 2 ^ len + 2 ^ len * place t := by omega
      _ = 2 ^ len * (place t + 1) := by rw [Nat.mul_add, Nat.mul_one, Nat.add_comm]
      _ ≤ 2 ^ len * 2 ^ (t.map Prod.fst).sum := Nat.mul_le_mul_left _ h2

theorem Bool.toNat_lt_two (b : Bool) : b.toNat < 2 ^ 1 := by cases b <;> decide
theorem Bool.toNat_beq_one (b : Bool) : (b.toNat == 1) = b := by cases b <;> rfl

/-- A full word's fields come back. -/
theorem Raw.unpack_pack (r : Raw) : Raw.unpack r.pack = r := by
  have hlt : place [(20, r.mod.toNat), (1, r.bK.toNat), (1, r.bS.toNat), (1, r.aS.toNat), (6, r.c.toNat),
    (6, r.b.toNat), (6, r.a.toNat), (6, r.d.toNat), (8, r.op.toNat), (3, r.pred.toNat), (1, r.pn.toNat),
    (4, r.stall.toNat)] < 2 ^ 63 := by
    refine place_lt _ ?_
    simp only [List.forall_mem_cons, List.not_mem_nil, false_implies, implies_true, and_true]
    exact ⟨r.mod.isLt, Bool.toNat_lt_two _, Bool.toNat_lt_two _, Bool.toNat_lt_two _, r.c.isLt, r.b.isLt, r.a.isLt, r.d.isLt, r.op.isLt,
      r.pred.isLt, Bool.toNat_lt_two _, r.stall.isLt⟩
  unfold Raw.unpack Raw.pack
  simp only [BitVec.toNat_ofNat]
  rw [Nat.mod_eq_of_lt (by omega)]
  obtain ⟨stall, pn, pred, op, d, a, b, c, aS, bS, bK, mod⟩ := r
  simp only [bitsAt_place_zero, bitsAt_place_skip, Bool.toNat_lt_two, BitVec.isLt, Nat.reduceSub, Nat.reduceLeDiff, Bool.toNat_beq_one,
    BitVec.ofNat_toNat, BitVec.setWidth_eq]

/-- A half's fields come back. -/
theorem HRaw.unpack_pack (r : HRaw) : HRaw.unpack r.pack = r := by
  obtain ⟨hop, d, a, ak, aS, pred, pn, hm⟩ := r
  unfold HRaw.unpack HRaw.pack
  simp only [bitsAt_place_zero, bitsAt_place_skip, Bool.toNat_lt_two, BitVec.isLt, Nat.reduceSub, Nat.reduceLeDiff, Bool.toNat_beq_one,
    BitVec.ofNat_toNat, BitVec.setWidth_eq]

/-- The bytes of a word are read as that word, and leave the rest. -/
theorem wordOf_bytesOf (w : W64) (t : List Byte) : wordOf (bytesOf w ++ t) = some (w, t) := by
  have hl : bytesOf w = [w.extractLsb' 0 8, w.extractLsb' 8 8, w.extractLsb' 16 8, w.extractLsb' 24 8, w.extractLsb' 32 8,
    w.extractLsb' 40 8, w.extractLsb' 48 8, w.extractLsb' 56 8] := rfl
  rw [hl]
  simp only [List.cons_append, List.nil_append, wordOf, Option.some.injEq, Prod.mk.injEq, and_true]
  refine BitVec.eq_of_getLsbD_eq fun i hi => ?_
  simp only [BitVec.getLsbD_append, BitVec.getLsbD_extractLsb']
  repeat' split
  all_goals
    rename_i h
    rw [decide_eq_true (by omega), Bool.true_and]
    congr 1
    omega

end Sys2Proof
end

