-- ==== Sys2Proof/Laws/Store.lean ====
section
/-! SUPPORT. The containers: reads after writes, and the canonical form of `Cells`. -/

namespace Sys2Proof.Machine

@[simp] theorem Cells.get_nil {w : Nat} (a : Nat) : Cells.get ([] : Cells w) a = 0 := rfl

theorem Cells.get_erase {w : Nat} (m : Cells w) (a b : Nat) :
    Cells.get (Cells.erase m a) b = if b = a then 0 else Cells.get m b := by
  induction m with
  | nil => simp [Cells.erase]
  | cons e t ih =>
    obtain ⟨k, v⟩ := e
    by_cases h : k = a
    · subst h; simp only [Cells.erase, if_true, ih, Cells.get]
      by_cases hb : b = k
      · simp [hb]
      · simp [hb, Ne.symm hb]
    · simp only [Cells.erase, if_neg h, Cells.get, ih]
      by_cases hb : b = a
      · subst hb; simp [h]
      · simp [hb]

theorem Cells.get_consNZ {w : Nat} (m : Cells w) (a : Nat) (v : BitVec w) (b : Nat) :
    Cells.get (Cells.consNZ a v m) b = if b = a then v else Cells.get m b := by
  unfold Cells.consNZ
  by_cases h : v = 0
  · simp only [h, if_true, Cells.get_erase]
  · simp only [h, if_false, Cells.get]
    by_cases hb : b = a
    · simp [hb]
    · simp [hb, Ne.symm hb]

/-- Read after write. -/
@[simp] theorem Cells.get_set {w : Nat} (m : Cells w) (a : Nat) (v : BitVec w) (b : Nat) :
    Cells.get (Cells.set m a v) b = if b = a then v else Cells.get m b := by
  induction m with
  | nil => simp only [Cells.set, Cells.get_consNZ]
  | cons e t ih =>
    obtain ⟨k, x⟩ := e
    by_cases h1 : a < k
    · simp only [Cells.set, if_pos h1, Cells.get_consNZ]
    · by_cases h2 : a = k
      · subst h2
        simp only [Cells.set, if_neg h1, if_true, Cells.get_consNZ, Cells.get]
        by_cases hb : b = a
        · simp [hb]
        · simp [hb, Ne.symm hb]
      · simp only [Cells.set, if_neg h1, if_neg h2, Cells.get, ih]
        by_cases hb : b = a
        · simp [hb, Ne.symm h2]
        · simp [hb]

/-! ## The canonical form -/

theorem Cells.wfFrom_mono {w : Nat} (m : Cells w) {lo hi : Nat} (h : lo ≤ hi) (hw : Cells.wfFrom hi m = true) :
    Cells.wfFrom lo m = true := by
  cases m with
  | nil => rfl
  | cons e t =>
    obtain ⟨k, v⟩ := e
    simp only [Cells.wfFrom, Bool.and_eq_true, decide_eq_true_eq] at *
    exact ⟨⟨by omega, hw.1.2⟩, hw.2⟩

theorem Cells.wfFrom_filter {w : Nat} (f : Nat × BitVec w → Bool) (m : Cells w) (lo : Nat) (h : Cells.wfFrom lo m = true) :
    Cells.wfFrom lo (m.filter f) = true := by
  induction m generalizing lo with
  | nil => rfl
  | cons e t ih =>
    obtain ⟨k, v⟩ := e
    simp only [Cells.wfFrom, Bool.and_eq_true, decide_eq_true_eq] at h
    rw [List.filter_cons]
    split
    · simp only [Cells.wfFrom, Bool.and_eq_true, decide_eq_true_eq]
      exact ⟨h.1, ih _ h.2⟩
    · exact Cells.wfFrom_mono _ (by omega) (ih _ h.2)

theorem Cells.erase_eq_filter {w : Nat} (m : Cells w) (a : Nat) : Cells.erase m a = m.filter (fun e => e.1 != a) := by
  induction m with
  | nil => rfl
  | cons e t ih =>
    obtain ⟨k, v⟩ := e
    rw [List.filter_cons]
    by_cases h : k = a
    · simp [Cells.erase, h, ih]
    · simp [Cells.erase, h, ih]

theorem Cells.wfFrom_consNZ {w : Nat} (m : Cells w) (a : Nat) (v : BitVec w) (lo : Nat) (ha : lo ≤ a)
    (h : Cells.wfFrom (a + 1) m = true) : Cells.wfFrom lo (Cells.consNZ a v m) = true := by
  unfold Cells.consNZ
  split
  · rw [Cells.erase_eq_filter]
    exact Cells.wfFrom_filter _ _ _ (Cells.wfFrom_mono _ (by omega) h)
  · rename_i hv
    simp only [Cells.wfFrom, Bool.and_eq_true, decide_eq_true_eq]
    exact ⟨⟨ha, hv⟩, h⟩

theorem Cells.wfFrom_set {w : Nat} (m : Cells w) (a : Nat) (v : BitVec w) (lo : Nat) (ha : lo ≤ a)
    (h : Cells.wfFrom lo m = true) : Cells.wfFrom lo (Cells.set m a v) = true := by
  induction m generalizing lo with
  | nil => exact Cells.wfFrom_consNZ _ _ _ _ ha rfl
  | cons e t ih =>
    obtain ⟨k, x⟩ := e
    simp only [Cells.wfFrom, Bool.and_eq_true, decide_eq_true_eq] at h
    unfold Cells.set
    split
    · rename_i hk
      refine Cells.wfFrom_consNZ _ _ _ _ ha ?_
      simp only [Cells.wfFrom, Bool.and_eq_true, decide_eq_true_eq]
      exact ⟨⟨by omega, h.1.2⟩, h.2⟩
    · split
      · rename_i _ hk
        subst hk
        exact Cells.wfFrom_consNZ _ _ _ _ ha h.2
      · simp only [Cells.wfFrom, Bool.and_eq_true, decide_eq_true_eq]
        exact ⟨h.1, ih _ (by omega) h.2⟩

@[simp] theorem Cells.wf_nil {w : Nat} : Cells.wf ([] : Cells w) = true := rfl

/-- A write keeps the canonical form. -/
theorem Cells.wf_set {w : Nat} {m : Cells w} (a : Nat) (v : BitVec w) (h : Cells.wf m = true) :
    Cells.wf (Cells.set m a v) = true := Cells.wfFrom_set m a v 0 (Nat.zero_le _) h

theorem Cells.wf_filter {w : Nat} {m : Cells w} (f : Nat × BitVec w → Bool) (h : Cells.wf m = true) :
    Cells.wf (m.filter f) = true := Cells.wfFrom_filter f m 0 h

theorem Cells.wf_clear {w : Nat} {m : Cells w} (lo hi : Nat) (h : Cells.wf m = true) : Cells.wf (Cells.clear m lo hi) = true :=
  Cells.wf_filter _ h

theorem Cells.wf_putBytes {m : Cells 8} (a : Nat) (bs : List Byte) (h : Cells.wf m = true) :
    Cells.wf (Cells.putBytes m a bs) = true := by
  induction bs generalizing m a with
  | nil => exact h
  | cons b t ih => exact ih _ (Cells.wf_set _ _ h)

theorem Cells.wf_putLe {m : Cells 8} (a n v : Nat) (h : Cells.wf m = true) : Cells.wf (Cells.putLe m a n v) = true :=
  Cells.wf_putBytes a _ h

/-- Writes one after another keep the canonical form. -/
theorem Cells.wf_foldl {α : Type} {w : Nat} (f : Cells w → α → Cells w) (hf : ∀ m a, Cells.wf m = true → Cells.wf (f m a) = true)
    (l : List α) {m : Cells w} (h : Cells.wf m = true) : Cells.wf (l.foldl f m) = true := by
  induction l generalizing m with
  | nil => exact h
  | cons a t ih => exact ih (hf _ _ h)

theorem Cells.wf_foldl_set {α : Type} {w : Nat} (k : α → Nat) (v : α → BitVec w) (l : List α) {m : Cells w}
    (h : Cells.wf m = true) : Cells.wf (l.foldl (fun m a => Cells.set m (k a) (v a)) m) = true :=
  Cells.wf_foldl _ (fun _ _ hm => Cells.wf_set _ _ hm) l h

/-! ## Tables -/

@[simp] theorem Tab.get_nil {α : Type} (a : Nat) : Tab.get ([] : Tab α) a = none := rfl

@[simp] theorem Tab.get_set {α : Type} (t : Tab α) (a : Nat) (v : α) (b : Nat) :
    Tab.get (Tab.set t a v) b = if b = a then some v else Tab.get t b := by
  induction t with
  | nil =>
    by_cases h : b = a
    · simp [Tab.set, Tab.get, h]
    · simp [Tab.set, Tab.get, h, Ne.symm h]
  | cons e t ih =>
    obtain ⟨k, x⟩ := e
    by_cases h1 : a < k
    · simp only [Tab.set, if_pos h1, Tab.get]
      by_cases hb : b = a
      · simp [hb]
      · simp [hb, Ne.symm hb]
    · by_cases h2 : a = k
      · subst h2
        simp only [Tab.set, if_neg h1, if_true, Tab.get]
        by_cases hb : b = a
        · simp [hb]
        · simp [hb, Ne.symm hb]
      · simp only [Tab.set, if_neg h1, if_neg h2, Tab.get, ih]
        by_cases hb : b = a
        · simp [hb, Ne.symm h2]
        · simp [hb]

@[simp] theorem Tab.getD_set {α : Type} (t : Tab α) (a : Nat) (v : α) (b : Nat) (d : α) :
    Tab.getD (Tab.set t a v) b d = if b = a then v else Tab.getD t b d := by
  unfold Tab.getD
  rw [Tab.get_set]
  split <;> rfl

theorem Tab.get_upd {α : Type} (t : Tab α) (a : Nat) (f : α → α) (b : Nat) :
    Tab.get (Tab.upd t a f) b = if b = a then (Tab.get t a).map f else Tab.get t b := by
  unfold Tab.upd
  split
  · rename_i v hv
    simp [hv]
  · rename_i hv
    by_cases hb : b = a
    · simp [hb, hv]
    · simp [hb]

end Sys2Proof.Machine
end

