-- ==== Sys2Proof/Laws/Issue.lean ====
section
/-! SUPPORT. What issuing a word does when nothing stands in its way: its own effect (R151). -/

namespace Sys2Proof.Machine

/-- A state in which a crew's word is ready: who issues, and that `issue` is the word's own effect. -/
theorem State.ready_issue {s : State} {us : List WUse} {x : Ctx} {c : Crew} {t : State} (h : s.ready us = some (x, c, t)) :
    ∃ c0, s.cur = .crew x.key x.e ∧ s.crew x.key = some c0 ∧ c = c0.settle s.now ∧ t = s.setCrew x.key c ∧
      ∀ (i : Instr) (stall size : Nat) (body : Body),
        s.issue i us stall size body x.key x.e c0 = t.finish i x.key x.e size stall (body x c t) := by
  unfold State.ready at h
  split at h
  · rename_i key e hcur
    split at h
    · exact absurd h (by simp)
    · rename_i c0 hc0
      dsimp only at h
      split at h
      · rename_i hok
        simp only [Option.some.injEq, Prod.mk.injEq] at h
        obtain ⟨rfl, rfl, rfl⟩ := h
        refine ⟨c0, hcur, hc0, rfl, rfl, fun i stall size body => ?_⟩
        simp only [Bool.and_eq_true, Bool.not_eq_true', bne_iff_ne, ne_eq] at hok
        obtain ⟨⟨⟨⟨⟨⟨h1, h2⟩, h3⟩, h4⟩, h5⟩, h6⟩, -⟩ := hok
        unfold State.issue
        rw [if_pos h1]
        simp only [h2, Bool.not_true, Bool.false_eq_true, if_false]
        have e3 : (if s.gangDet (keyGid key) = true then
            ((us.zip (us.map fun u => (c0.settle s.now).guard u.pred u.pn ((c0.settle s.now).split e).mask)).filter
              (fun u => u.2 != 0)).find? (fun u => u.1.det.isSome) else none) = none := by
          split
          · rename_i hd
            rw [List.find?_eq_none]
            intro u hu hx
            simp only [hd, Bool.true_and] at h3
            exact List.any_eq_false.mp h3 u hu hx
          · rfl
        have e4 : (if (s.gangDet (keyGid key) || (c0.settle s.now).status.getLsbD 9) = true then
            ((us.zip (us.map fun u => (c0.settle s.now).guard u.pred u.pn ((c0.settle s.now).split e).mask)).filter
              (fun u => u.2 != 0)).find? (fun u => ((c0.settle s.now).shortRead e u.1).isSome) else none) = none := by
          split
          · rename_i hd
            rw [List.find?_eq_none]
            intro u hu hx
            simp only [hd, Bool.true_and] at h4
            exact List.any_eq_false.mp h4 u hu hx
          · rfl
        rw [e3]
        dsimp only
        rw [e4]
        dsimp only
        rw [if_neg h5]
        simp only [h6, Bool.not_true, Bool.false_eq_true, if_false]
      · exact absurd h (by simp)
  · exact absurd h (by simp)

/-- A full word whose crew is ready does what its body says. -/
theorem fullWord_ready {s : State} {u : WUse} {x : Ctx} {c : Crew} {t : State} (h : s.ready [u] = some (x, c, t))
    (i : Instr) (hd : Hdr) (size : Nat) (body : Body) (mg : Option MBody) :
    fullWord i hd u size body mg s = .next (t.finish i x.key x.e size hd.stall.toNat (body x c t)) := by
  obtain ⟨c0, hcur, hc0, -, -, hi⟩ := State.ready_issue h
  unfold fullWord
  rw [hcur]
  dsimp only
  rw [hc0]
  dsimp only
  rw [hi]

theorem word_ready {s : State} {u : WUse} {x : Ctx} {c : Crew} {t : State} (h : s.ready [u] = some (x, c, t))
    (i : Instr) (hd : Hdr) (body : Body) :
    word i hd u body s = .next (t.finish i x.key x.e 8 hd.stall.toNat (body x c t)) := fullWord_ready h i hd 8 body none

/-- A paired word whose halves are both ready. -/
theorem pairWord_ready {s : State} {a b : Half} {x : Ctx} {c : Crew} {t : State}
    (h : s.ready [Half.use a false, Half.use b true] = some (x, c, t)) (i : Instr) (stall : BitVec 3) (body : Body) :
    pairWord i stall a b body s = .next (t.finish i x.key x.e 8 stall.toNat (body x c t)) := by
  obtain ⟨c0, hcur, hc0, -, -, hi⟩ := State.ready_issue h
  unfold pairWord
  rw [hcur]
  dsimp only
  rw [hc0]
  dsimp only
  rw [hi]

theorem Mask.foldl_or_zero (l : List Mask) (a : Mask) (h : ∀ m ∈ l, m = 0) : l.foldl (· ||| ·) a = a := by
  induction l generalizing a with
  | nil => rfl
  | cons b t ih =>
    rw [List.foldl_cons, h b (by simp), ih _ (fun m hm => h m (by simp [hm]))]
    exact BitVec.or_zero

/-- A word that is ready comes from a split with lanes, and no fault of the pump is due. -/
theorem State.ready_mask {s : State} {us : List WUse} {x : Ctx} {c : Crew} {t : State} (h : s.ready us = some (x, c, t)) :
    (c.split x.e).mask ≠ 0 ∧ c.pumpFault = none := by
  unfold State.ready at h
  split at h
  · split at h
    · simp at h
    · dsimp only at h
      split at h
      · rename_i hok
        simp only [Option.some.injEq, Prod.mk.injEq] at h
        obtain ⟨rfl, rfl, rfl⟩ := h
        simp only [Bool.and_eq_true, Bool.not_eq_true', bne_iff_ne, ne_eq, Option.isNone_iff_eq_none] at hok
        refine ⟨fun hm => hok.1.1.2 (Mask.foldl_or_zero _ _ ?_), hok.2⟩
        intro m hm'
        rw [List.mem_map] at hm'
        obtain ⟨u, -, rfl⟩ := hm'
        simp only at hm
        rw [hm]
        unfold Crew.guard
        split
        · split <;> rfl
        · exact BitVec.zero_and
      · simp at h
  · simp at h

end Sys2Proof.Machine
end

