-- ==== Sys2Proof/Laws/State.lean ====
section
/-! SUPPORT. One lemma per field and update of the state and of a crew, and what the accessors read after an update. -/

namespace Sys2Proof.Machine

/-! `State.setCrew` -/

@[simp] theorem State.setCrew_cur (s : State) (k : Nat) (c : Crew) : (s.setCrew k c).cur = s.cur := rfl
@[simp] theorem State.setCrew_agenda (s : State) (k : Nat) (c : Crew) : (s.setCrew k c).agenda = s.agenda := rfl
@[simp] theorem State.setCrew_nextId (s : State) (k : Nat) (c : Crew) : (s.setCrew k c).nextId = s.nextId := rfl
@[simp] theorem State.setCrew_now (s : State) (k : Nat) (c : Crew) : (s.setCrew k c).now = s.now := rfl
@[simp] theorem State.setCrew_mem (s : State) (k : Nat) (c : Crew) : (s.setCrew k c).mem = s.mem := rfl
@[simp] theorem State.setCrew_badChk (s : State) (k : Nat) (c : Crew) : (s.setCrew k c).badChk = s.badChk := rfl
@[simp] theorem State.setCrew_poison (s : State) (k : Nat) (c : Crew) : (s.setCrew k c).poison = s.poison := rfl
@[simp] theorem State.setCrew_gangs (s : State) (k : Nat) (c : Crew) : (s.setCrew k c).gangs = s.gangs := rfl
@[simp] theorem State.setCrew_cores (s : State) (k : Nat) (c : Crew) : (s.setCrew k c).cores = s.cores := rfl
@[simp] theorem State.setCrew_clusters (s : State) (k : Nat) (c : Crew) : (s.setCrew k c).clusters = s.clusters := rfl
@[simp] theorem State.setCrew_net (s : State) (k : Nat) (c : Crew) : (s.setCrew k c).net = s.net := rfl
@[simp] theorem State.setCrew_combs (s : State) (k : Nat) (c : Crew) : (s.setCrew k c).combs = s.combs := rfl
@[simp] theorem State.setCrew_chans (s : State) (k : Nat) (c : Crew) : (s.setCrew k c).chans = s.chans := rfl
@[simp] theorem State.setCrew_homes (s : State) (k : Nat) (c : Crew) : (s.setCrew k c).homes = s.homes := rfl
@[simp] theorem State.setCrew_slices (s : State) (k : Nat) (c : Crew) : (s.setCrew k c).slices = s.slices := rfl
@[simp] theorem State.setCrew_bridges (s : State) (k : Nat) (c : Crew) : (s.setCrew k c).bridges = s.bridges := rfl
@[simp] theorem State.setCrew_dom (s : State) (k : Nat) (c : Crew) : (s.setCrew k c).dom = s.dom := rfl
@[simp] theorem State.setCrew_cmds (s : State) (k : Nat) (c : Crew) : (s.setCrew k c).cmds = s.cmds := rfl
@[simp] theorem State.setCrew_swr (s : State) (k : Nat) (c : Crew) : (s.setCrew k c).swr = s.swr := rfl
@[simp] theorem State.setCrew_cmbSlots (s : State) (k : Nat) (c : Crew) : (s.setCrew k c).cmbSlots = s.cmbSlots := rfl
@[simp] theorem State.setCrew_arrivals (s : State) (k : Nat) (c : Crew) : (s.setCrew k c).arrivals = s.arrivals := rfl
@[simp] theorem State.setCrew_ctrHomes (s : State) (k : Nat) (c : Crew) : (s.setCrew k c).ctrHomes = s.ctrHomes := rfl
@[simp] theorem State.setCrew_walkq (s : State) (k : Nat) (c : Crew) : (s.setCrew k c).walkq = s.walkq := rfl
@[simp] theorem State.setCrew_engWaits (s : State) (k : Nat) (c : Crew) : (s.setCrew k c).engWaits = s.engWaits := rfl
@[simp] theorem State.setCrew_queues (s : State) (k : Nat) (c : Crew) : (s.setCrew k c).queues = s.queues := rfl
@[simp] theorem State.setCrew_launches (s : State) (k : Nat) (c : Crew) : (s.setCrew k c).launches = s.launches := rfl
@[simp] theorem State.setCrew_blocks (s : State) (k : Nat) (c : Crew) : (s.setCrew k c).blocks = s.blocks := rfl
@[simp] theorem State.setCrew_rr (s : State) (k : Nat) (c : Crew) : (s.setCrew k c).rr = s.rr := rfl
@[simp] theorem State.setCrew_parts (s : State) (k : Nat) (c : Crew) : (s.setCrew k c).parts = s.parts := rfl
@[simp] theorem State.setCrew_asids (s : State) (k : Nat) (c : Crew) : (s.setCrew k c).asids = s.asids := rfl
@[simp] theorem State.setCrew_traps (s : State) (k : Nat) (c : Crew) : (s.setCrew k c).traps = s.traps := rfl
@[simp] theorem State.setCrew_err (s : State) (k : Nat) (c : Crew) : (s.setCrew k c).err = s.err := rfl
@[simp] theorem State.setCrew_prot (s : State) (k : Nat) (c : Crew) : (s.setCrew k c).prot = s.prot := rfl
@[simp] theorem State.setCrew_pools (s : State) (k : Nat) (c : Crew) : (s.setCrew k c).pools = s.pools := rfl
@[simp] theorem State.setCrew_msix (s : State) (k : Nat) (c : Crew) : (s.setCrew k c).msix = s.msix := rfl
@[simp] theorem State.setCrew_irqs (s : State) (k : Nat) (c : Crew) : (s.setCrew k c).irqs = s.irqs := rfl
@[simp] theorem State.setCrew_rdata (s : State) (k : Nat) (c : Crew) : (s.setCrew k c).rdata = s.rdata := rfl
@[simp] theorem State.setCrew_sent (s : State) (k : Nat) (c : Crew) : (s.setCrew k c).sent = s.sent := rfl
@[simp] theorem State.setCrew_outReqs (s : State) (k : Nat) (c : Crew) : (s.setCrew k c).outReqs = s.outReqs := rfl
@[simp] theorem State.setCrew_sweep (s : State) (k : Nat) (c : Crew) : (s.setCrew k c).sweep = s.sweep := rfl
@[simp] theorem State.setCrew_lastRec (s : State) (k : Nat) (c : Crew) : (s.setCrew k c).lastRec = s.lastRec := rfl
@[simp] theorem State.setCrew_fw (s : State) (k : Nat) (c : Crew) : (s.setCrew k c).fw = s.fw := rfl
@[simp] theorem State.setCrew_svc (s : State) (k : Nat) (c : Crew) : (s.setCrew k c).svc = s.svc := rfl
@[simp] theorem State.setCrew_pwr (s : State) (k : Nat) (c : Crew) : (s.setCrew k c).pwr = s.pwr := rfl

/-! `State.updCrew` -/

@[simp] theorem State.updCrew_cur (s : State) (k : Nat) (f : Crew → Crew) : (s.updCrew k f).cur = s.cur := rfl
@[simp] theorem State.updCrew_agenda (s : State) (k : Nat) (f : Crew → Crew) : (s.updCrew k f).agenda = s.agenda := rfl
@[simp] theorem State.updCrew_nextId (s : State) (k : Nat) (f : Crew → Crew) : (s.updCrew k f).nextId = s.nextId := rfl
@[simp] theorem State.updCrew_now (s : State) (k : Nat) (f : Crew → Crew) : (s.updCrew k f).now = s.now := rfl
@[simp] theorem State.updCrew_mem (s : State) (k : Nat) (f : Crew → Crew) : (s.updCrew k f).mem = s.mem := rfl
@[simp] theorem State.updCrew_badChk (s : State) (k : Nat) (f : Crew → Crew) : (s.updCrew k f).badChk = s.badChk := rfl
@[simp] theorem State.updCrew_poison (s : State) (k : Nat) (f : Crew → Crew) : (s.updCrew k f).poison = s.poison := rfl
@[simp] theorem State.updCrew_gangs (s : State) (k : Nat) (f : Crew → Crew) : (s.updCrew k f).gangs = s.gangs := rfl
@[simp] theorem State.updCrew_cores (s : State) (k : Nat) (f : Crew → Crew) : (s.updCrew k f).cores = s.cores := rfl
@[simp] theorem State.updCrew_clusters (s : State) (k : Nat) (f : Crew → Crew) : (s.updCrew k f).clusters = s.clusters := rfl
@[simp] theorem State.updCrew_net (s : State) (k : Nat) (f : Crew → Crew) : (s.updCrew k f).net = s.net := rfl
@[simp] theorem State.updCrew_combs (s : State) (k : Nat) (f : Crew → Crew) : (s.updCrew k f).combs = s.combs := rfl
@[simp] theorem State.updCrew_chans (s : State) (k : Nat) (f : Crew → Crew) : (s.updCrew k f).chans = s.chans := rfl
@[simp] theorem State.updCrew_homes (s : State) (k : Nat) (f : Crew → Crew) : (s.updCrew k f).homes = s.homes := rfl
@[simp] theorem State.updCrew_slices (s : State) (k : Nat) (f : Crew → Crew) : (s.updCrew k f).slices = s.slices := rfl
@[simp] theorem State.updCrew_bridges (s : State) (k : Nat) (f : Crew → Crew) : (s.updCrew k f).bridges = s.bridges := rfl
@[simp] theorem State.updCrew_dom (s : State) (k : Nat) (f : Crew → Crew) : (s.updCrew k f).dom = s.dom := rfl
@[simp] theorem State.updCrew_cmds (s : State) (k : Nat) (f : Crew → Crew) : (s.updCrew k f).cmds = s.cmds := rfl
@[simp] theorem State.updCrew_swr (s : State) (k : Nat) (f : Crew → Crew) : (s.updCrew k f).swr = s.swr := rfl
@[simp] theorem State.updCrew_cmbSlots (s : State) (k : Nat) (f : Crew → Crew) : (s.updCrew k f).cmbSlots = s.cmbSlots := rfl
@[simp] theorem State.updCrew_arrivals (s : State) (k : Nat) (f : Crew → Crew) : (s.updCrew k f).arrivals = s.arrivals := rfl
@[simp] theorem State.updCrew_ctrHomes (s : State) (k : Nat) (f : Crew → Crew) : (s.updCrew k f).ctrHomes = s.ctrHomes := rfl
@[simp] theorem State.updCrew_walkq (s : State) (k : Nat) (f : Crew → Crew) : (s.updCrew k f).walkq = s.walkq := rfl
@[simp] theorem State.updCrew_engWaits (s : State) (k : Nat) (f : Crew → Crew) : (s.updCrew k f).engWaits = s.engWaits := rfl
@[simp] theorem State.updCrew_queues (s : State) (k : Nat) (f : Crew → Crew) : (s.updCrew k f).queues = s.queues := rfl
@[simp] theorem State.updCrew_launches (s : State) (k : Nat) (f : Crew → Crew) : (s.updCrew k f).launches = s.launches := rfl
@[simp] theorem State.updCrew_blocks (s : State) (k : Nat) (f : Crew → Crew) : (s.updCrew k f).blocks = s.blocks := rfl
@[simp] theorem State.updCrew_rr (s : State) (k : Nat) (f : Crew → Crew) : (s.updCrew k f).rr = s.rr := rfl
@[simp] theorem State.updCrew_parts (s : State) (k : Nat) (f : Crew → Crew) : (s.updCrew k f).parts = s.parts := rfl
@[simp] theorem State.updCrew_asids (s : State) (k : Nat) (f : Crew → Crew) : (s.updCrew k f).asids = s.asids := rfl
@[simp] theorem State.updCrew_traps (s : State) (k : Nat) (f : Crew → Crew) : (s.updCrew k f).traps = s.traps := rfl
@[simp] theorem State.updCrew_err (s : State) (k : Nat) (f : Crew → Crew) : (s.updCrew k f).err = s.err := rfl
@[simp] theorem State.updCrew_prot (s : State) (k : Nat) (f : Crew → Crew) : (s.updCrew k f).prot = s.prot := rfl
@[simp] theorem State.updCrew_pools (s : State) (k : Nat) (f : Crew → Crew) : (s.updCrew k f).pools = s.pools := rfl
@[simp] theorem State.updCrew_msix (s : State) (k : Nat) (f : Crew → Crew) : (s.updCrew k f).msix = s.msix := rfl
@[simp] theorem State.updCrew_irqs (s : State) (k : Nat) (f : Crew → Crew) : (s.updCrew k f).irqs = s.irqs := rfl
@[simp] theorem State.updCrew_rdata (s : State) (k : Nat) (f : Crew → Crew) : (s.updCrew k f).rdata = s.rdata := rfl
@[simp] theorem State.updCrew_sent (s : State) (k : Nat) (f : Crew → Crew) : (s.updCrew k f).sent = s.sent := rfl
@[simp] theorem State.updCrew_outReqs (s : State) (k : Nat) (f : Crew → Crew) : (s.updCrew k f).outReqs = s.outReqs := rfl
@[simp] theorem State.updCrew_sweep (s : State) (k : Nat) (f : Crew → Crew) : (s.updCrew k f).sweep = s.sweep := rfl
@[simp] theorem State.updCrew_lastRec (s : State) (k : Nat) (f : Crew → Crew) : (s.updCrew k f).lastRec = s.lastRec := rfl
@[simp] theorem State.updCrew_fw (s : State) (k : Nat) (f : Crew → Crew) : (s.updCrew k f).fw = s.fw := rfl
@[simp] theorem State.updCrew_svc (s : State) (k : Nat) (f : Crew → Crew) : (s.updCrew k f).svc = s.svc := rfl
@[simp] theorem State.updCrew_pwr (s : State) (k : Nat) (f : Crew → Crew) : (s.updCrew k f).pwr = s.pwr := rfl

/-! `State.setGang` -/

@[simp] theorem State.setGang_cur (s : State) (g : Nat) (v : Gang) : (s.setGang g v).cur = s.cur := rfl
@[simp] theorem State.setGang_agenda (s : State) (g : Nat) (v : Gang) : (s.setGang g v).agenda = s.agenda := rfl
@[simp] theorem State.setGang_nextId (s : State) (g : Nat) (v : Gang) : (s.setGang g v).nextId = s.nextId := rfl
@[simp] theorem State.setGang_now (s : State) (g : Nat) (v : Gang) : (s.setGang g v).now = s.now := rfl
@[simp] theorem State.setGang_mem (s : State) (g : Nat) (v : Gang) : (s.setGang g v).mem = s.mem := rfl
@[simp] theorem State.setGang_badChk (s : State) (g : Nat) (v : Gang) : (s.setGang g v).badChk = s.badChk := rfl
@[simp] theorem State.setGang_poison (s : State) (g : Nat) (v : Gang) : (s.setGang g v).poison = s.poison := rfl
@[simp] theorem State.setGang_crews (s : State) (g : Nat) (v : Gang) : (s.setGang g v).crews = s.crews := rfl
@[simp] theorem State.setGang_cores (s : State) (g : Nat) (v : Gang) : (s.setGang g v).cores = s.cores := rfl
@[simp] theorem State.setGang_clusters (s : State) (g : Nat) (v : Gang) : (s.setGang g v).clusters = s.clusters := rfl
@[simp] theorem State.setGang_net (s : State) (g : Nat) (v : Gang) : (s.setGang g v).net = s.net := rfl
@[simp] theorem State.setGang_combs (s : State) (g : Nat) (v : Gang) : (s.setGang g v).combs = s.combs := rfl
@[simp] theorem State.setGang_chans (s : State) (g : Nat) (v : Gang) : (s.setGang g v).chans = s.chans := rfl
@[simp] theorem State.setGang_homes (s : State) (g : Nat) (v : Gang) : (s.setGang g v).homes = s.homes := rfl
@[simp] theorem State.setGang_slices (s : State) (g : Nat) (v : Gang) : (s.setGang g v).slices = s.slices := rfl
@[simp] theorem State.setGang_bridges (s : State) (g : Nat) (v : Gang) : (s.setGang g v).bridges = s.bridges := rfl
@[simp] theorem State.setGang_dom (s : State) (g : Nat) (v : Gang) : (s.setGang g v).dom = s.dom := rfl
@[simp] theorem State.setGang_cmds (s : State) (g : Nat) (v : Gang) : (s.setGang g v).cmds = s.cmds := rfl
@[simp] theorem State.setGang_swr (s : State) (g : Nat) (v : Gang) : (s.setGang g v).swr = s.swr := rfl
@[simp] theorem State.setGang_cmbSlots (s : State) (g : Nat) (v : Gang) : (s.setGang g v).cmbSlots = s.cmbSlots := rfl
@[simp] theorem State.setGang_arrivals (s : State) (g : Nat) (v : Gang) : (s.setGang g v).arrivals = s.arrivals := rfl
@[simp] theorem State.setGang_ctrHomes (s : State) (g : Nat) (v : Gang) : (s.setGang g v).ctrHomes = s.ctrHomes := rfl
@[simp] theorem State.setGang_walkq (s : State) (g : Nat) (v : Gang) : (s.setGang g v).walkq = s.walkq := rfl
@[simp] theorem State.setGang_engWaits (s : State) (g : Nat) (v : Gang) : (s.setGang g v).engWaits = s.engWaits := rfl
@[simp] theorem State.setGang_queues (s : State) (g : Nat) (v : Gang) : (s.setGang g v).queues = s.queues := rfl
@[simp] theorem State.setGang_launches (s : State) (g : Nat) (v : Gang) : (s.setGang g v).launches = s.launches := rfl
@[simp] theorem State.setGang_blocks (s : State) (g : Nat) (v : Gang) : (s.setGang g v).blocks = s.blocks := rfl
@[simp] theorem State.setGang_rr (s : State) (g : Nat) (v : Gang) : (s.setGang g v).rr = s.rr := rfl
@[simp] theorem State.setGang_parts (s : State) (g : Nat) (v : Gang) : (s.setGang g v).parts = s.parts := rfl
@[simp] theorem State.setGang_asids (s : State) (g : Nat) (v : Gang) : (s.setGang g v).asids = s.asids := rfl
@[simp] theorem State.setGang_traps (s : State) (g : Nat) (v : Gang) : (s.setGang g v).traps = s.traps := rfl
@[simp] theorem State.setGang_err (s : State) (g : Nat) (v : Gang) : (s.setGang g v).err = s.err := rfl
@[simp] theorem State.setGang_prot (s : State) (g : Nat) (v : Gang) : (s.setGang g v).prot = s.prot := rfl
@[simp] theorem State.setGang_pools (s : State) (g : Nat) (v : Gang) : (s.setGang g v).pools = s.pools := rfl
@[simp] theorem State.setGang_msix (s : State) (g : Nat) (v : Gang) : (s.setGang g v).msix = s.msix := rfl
@[simp] theorem State.setGang_irqs (s : State) (g : Nat) (v : Gang) : (s.setGang g v).irqs = s.irqs := rfl
@[simp] theorem State.setGang_rdata (s : State) (g : Nat) (v : Gang) : (s.setGang g v).rdata = s.rdata := rfl
@[simp] theorem State.setGang_sent (s : State) (g : Nat) (v : Gang) : (s.setGang g v).sent = s.sent := rfl
@[simp] theorem State.setGang_outReqs (s : State) (g : Nat) (v : Gang) : (s.setGang g v).outReqs = s.outReqs := rfl
@[simp] theorem State.setGang_sweep (s : State) (g : Nat) (v : Gang) : (s.setGang g v).sweep = s.sweep := rfl
@[simp] theorem State.setGang_lastRec (s : State) (g : Nat) (v : Gang) : (s.setGang g v).lastRec = s.lastRec := rfl
@[simp] theorem State.setGang_fw (s : State) (g : Nat) (v : Gang) : (s.setGang g v).fw = s.fw := rfl
@[simp] theorem State.setGang_svc (s : State) (g : Nat) (v : Gang) : (s.setGang g v).svc = s.svc := rfl
@[simp] theorem State.setGang_pwr (s : State) (g : Nat) (v : Gang) : (s.setGang g v).pwr = s.pwr := rfl

/-! `State.updGang` -/

@[simp] theorem State.updGang_cur (s : State) (g : Nat) (f : Gang → Gang) : (s.updGang g f).cur = s.cur := rfl
@[simp] theorem State.updGang_agenda (s : State) (g : Nat) (f : Gang → Gang) : (s.updGang g f).agenda = s.agenda := rfl
@[simp] theorem State.updGang_nextId (s : State) (g : Nat) (f : Gang → Gang) : (s.updGang g f).nextId = s.nextId := rfl
@[simp] theorem State.updGang_now (s : State) (g : Nat) (f : Gang → Gang) : (s.updGang g f).now = s.now := rfl
@[simp] theorem State.updGang_mem (s : State) (g : Nat) (f : Gang → Gang) : (s.updGang g f).mem = s.mem := rfl
@[simp] theorem State.updGang_badChk (s : State) (g : Nat) (f : Gang → Gang) : (s.updGang g f).badChk = s.badChk := rfl
@[simp] theorem State.updGang_poison (s : State) (g : Nat) (f : Gang → Gang) : (s.updGang g f).poison = s.poison := rfl
@[simp] theorem State.updGang_crews (s : State) (g : Nat) (f : Gang → Gang) : (s.updGang g f).crews = s.crews := rfl
@[simp] theorem State.updGang_cores (s : State) (g : Nat) (f : Gang → Gang) : (s.updGang g f).cores = s.cores := rfl
@[simp] theorem State.updGang_clusters (s : State) (g : Nat) (f : Gang → Gang) : (s.updGang g f).clusters = s.clusters := rfl
@[simp] theorem State.updGang_net (s : State) (g : Nat) (f : Gang → Gang) : (s.updGang g f).net = s.net := rfl
@[simp] theorem State.updGang_combs (s : State) (g : Nat) (f : Gang → Gang) : (s.updGang g f).combs = s.combs := rfl
@[simp] theorem State.updGang_chans (s : State) (g : Nat) (f : Gang → Gang) : (s.updGang g f).chans = s.chans := rfl
@[simp] theorem State.updGang_homes (s : State) (g : Nat) (f : Gang → Gang) : (s.updGang g f).homes = s.homes := rfl
@[simp] theorem State.updGang_slices (s : State) (g : Nat) (f : Gang → Gang) : (s.updGang g f).slices = s.slices := rfl
@[simp] theorem State.updGang_bridges (s : State) (g : Nat) (f : Gang → Gang) : (s.updGang g f).bridges = s.bridges := rfl
@[simp] theorem State.updGang_dom (s : State) (g : Nat) (f : Gang → Gang) : (s.updGang g f).dom = s.dom := rfl
@[simp] theorem State.updGang_cmds (s : State) (g : Nat) (f : Gang → Gang) : (s.updGang g f).cmds = s.cmds := rfl
@[simp] theorem State.updGang_swr (s : State) (g : Nat) (f : Gang → Gang) : (s.updGang g f).swr = s.swr := rfl
@[simp] theorem State.updGang_cmbSlots (s : State) (g : Nat) (f : Gang → Gang) : (s.updGang g f).cmbSlots = s.cmbSlots := rfl
@[simp] theorem State.updGang_arrivals (s : State) (g : Nat) (f : Gang → Gang) : (s.updGang g f).arrivals = s.arrivals := rfl
@[simp] theorem State.updGang_ctrHomes (s : State) (g : Nat) (f : Gang → Gang) : (s.updGang g f).ctrHomes = s.ctrHomes := rfl
@[simp] theorem State.updGang_walkq (s : State) (g : Nat) (f : Gang → Gang) : (s.updGang g f).walkq = s.walkq := rfl
@[simp] theorem State.updGang_engWaits (s : State) (g : Nat) (f : Gang → Gang) : (s.updGang g f).engWaits = s.engWaits := rfl
@[simp] theorem State.updGang_queues (s : State) (g : Nat) (f : Gang → Gang) : (s.updGang g f).queues = s.queues := rfl
@[simp] theorem State.updGang_launches (s : State) (g : Nat) (f : Gang → Gang) : (s.updGang g f).launches = s.launches := rfl
@[simp] theorem State.updGang_blocks (s : State) (g : Nat) (f : Gang → Gang) : (s.updGang g f).blocks = s.blocks := rfl
@[simp] theorem State.updGang_rr (s : State) (g : Nat) (f : Gang → Gang) : (s.updGang g f).rr = s.rr := rfl
@[simp] theorem State.updGang_parts (s : State) (g : Nat) (f : Gang → Gang) : (s.updGang g f).parts = s.parts := rfl
@[simp] theorem State.updGang_asids (s : State) (g : Nat) (f : Gang → Gang) : (s.updGang g f).asids = s.asids := rfl
@[simp] theorem State.updGang_traps (s : State) (g : Nat) (f : Gang → Gang) : (s.updGang g f).traps = s.traps := rfl
@[simp] theorem State.updGang_err (s : State) (g : Nat) (f : Gang → Gang) : (s.updGang g f).err = s.err := rfl
@[simp] theorem State.updGang_prot (s : State) (g : Nat) (f : Gang → Gang) : (s.updGang g f).prot = s.prot := rfl
@[simp] theorem State.updGang_pools (s : State) (g : Nat) (f : Gang → Gang) : (s.updGang g f).pools = s.pools := rfl
@[simp] theorem State.updGang_msix (s : State) (g : Nat) (f : Gang → Gang) : (s.updGang g f).msix = s.msix := rfl
@[simp] theorem State.updGang_irqs (s : State) (g : Nat) (f : Gang → Gang) : (s.updGang g f).irqs = s.irqs := rfl
@[simp] theorem State.updGang_rdata (s : State) (g : Nat) (f : Gang → Gang) : (s.updGang g f).rdata = s.rdata := rfl
@[simp] theorem State.updGang_sent (s : State) (g : Nat) (f : Gang → Gang) : (s.updGang g f).sent = s.sent := rfl
@[simp] theorem State.updGang_outReqs (s : State) (g : Nat) (f : Gang → Gang) : (s.updGang g f).outReqs = s.outReqs := rfl
@[simp] theorem State.updGang_sweep (s : State) (g : Nat) (f : Gang → Gang) : (s.updGang g f).sweep = s.sweep := rfl
@[simp] theorem State.updGang_lastRec (s : State) (g : Nat) (f : Gang → Gang) : (s.updGang g f).lastRec = s.lastRec := rfl
@[simp] theorem State.updGang_fw (s : State) (g : Nat) (f : Gang → Gang) : (s.updGang g f).fw = s.fw := rfl
@[simp] theorem State.updGang_svc (s : State) (g : Nat) (f : Gang → Gang) : (s.updGang g f).svc = s.svc := rfl
@[simp] theorem State.updGang_pwr (s : State) (g : Nat) (f : Gang → Gang) : (s.updGang g f).pwr = s.pwr := rfl

/-! `State.setCore` -/

@[simp] theorem State.setCore_cur (s : State) (c : Nat) (v : CoreSt) : (s.setCore c v).cur = s.cur := rfl
@[simp] theorem State.setCore_agenda (s : State) (c : Nat) (v : CoreSt) : (s.setCore c v).agenda = s.agenda := rfl
@[simp] theorem State.setCore_nextId (s : State) (c : Nat) (v : CoreSt) : (s.setCore c v).nextId = s.nextId := rfl
@[simp] theorem State.setCore_now (s : State) (c : Nat) (v : CoreSt) : (s.setCore c v).now = s.now := rfl
@[simp] theorem State.setCore_mem (s : State) (c : Nat) (v : CoreSt) : (s.setCore c v).mem = s.mem := rfl
@[simp] theorem State.setCore_badChk (s : State) (c : Nat) (v : CoreSt) : (s.setCore c v).badChk = s.badChk := rfl
@[simp] theorem State.setCore_poison (s : State) (c : Nat) (v : CoreSt) : (s.setCore c v).poison = s.poison := rfl
@[simp] theorem State.setCore_crews (s : State) (c : Nat) (v : CoreSt) : (s.setCore c v).crews = s.crews := rfl
@[simp] theorem State.setCore_gangs (s : State) (c : Nat) (v : CoreSt) : (s.setCore c v).gangs = s.gangs := rfl
@[simp] theorem State.setCore_clusters (s : State) (c : Nat) (v : CoreSt) : (s.setCore c v).clusters = s.clusters := rfl
@[simp] theorem State.setCore_net (s : State) (c : Nat) (v : CoreSt) : (s.setCore c v).net = s.net := rfl
@[simp] theorem State.setCore_combs (s : State) (c : Nat) (v : CoreSt) : (s.setCore c v).combs = s.combs := rfl
@[simp] theorem State.setCore_chans (s : State) (c : Nat) (v : CoreSt) : (s.setCore c v).chans = s.chans := rfl
@[simp] theorem State.setCore_homes (s : State) (c : Nat) (v : CoreSt) : (s.setCore c v).homes = s.homes := rfl
@[simp] theorem State.setCore_slices (s : State) (c : Nat) (v : CoreSt) : (s.setCore c v).slices = s.slices := rfl
@[simp] theorem State.setCore_bridges (s : State) (c : Nat) (v : CoreSt) : (s.setCore c v).bridges = s.bridges := rfl
@[simp] theorem State.setCore_dom (s : State) (c : Nat) (v : CoreSt) : (s.setCore c v).dom = s.dom := rfl
@[simp] theorem State.setCore_cmds (s : State) (c : Nat) (v : CoreSt) : (s.setCore c v).cmds = s.cmds := rfl
@[simp] theorem State.setCore_swr (s : State) (c : Nat) (v : CoreSt) : (s.setCore c v).swr = s.swr := rfl
@[simp] theorem State.setCore_cmbSlots (s : State) (c : Nat) (v : CoreSt) : (s.setCore c v).cmbSlots = s.cmbSlots := rfl
@[simp] theorem State.setCore_arrivals (s : State) (c : Nat) (v : CoreSt) : (s.setCore c v).arrivals = s.arrivals := rfl
@[simp] theorem State.setCore_ctrHomes (s : State) (c : Nat) (v : CoreSt) : (s.setCore c v).ctrHomes = s.ctrHomes := rfl
@[simp] theorem State.setCore_walkq (s : State) (c : Nat) (v : CoreSt) : (s.setCore c v).walkq = s.walkq := rfl
@[simp] theorem State.setCore_engWaits (s : State) (c : Nat) (v : CoreSt) : (s.setCore c v).engWaits = s.engWaits := rfl
@[simp] theorem State.setCore_queues (s : State) (c : Nat) (v : CoreSt) : (s.setCore c v).queues = s.queues := rfl
@[simp] theorem State.setCore_launches (s : State) (c : Nat) (v : CoreSt) : (s.setCore c v).launches = s.launches := rfl
@[simp] theorem State.setCore_blocks (s : State) (c : Nat) (v : CoreSt) : (s.setCore c v).blocks = s.blocks := rfl
@[simp] theorem State.setCore_rr (s : State) (c : Nat) (v : CoreSt) : (s.setCore c v).rr = s.rr := rfl
@[simp] theorem State.setCore_parts (s : State) (c : Nat) (v : CoreSt) : (s.setCore c v).parts = s.parts := rfl
@[simp] theorem State.setCore_asids (s : State) (c : Nat) (v : CoreSt) : (s.setCore c v).asids = s.asids := rfl
@[simp] theorem State.setCore_traps (s : State) (c : Nat) (v : CoreSt) : (s.setCore c v).traps = s.traps := rfl
@[simp] theorem State.setCore_err (s : State) (c : Nat) (v : CoreSt) : (s.setCore c v).err = s.err := rfl
@[simp] theorem State.setCore_prot (s : State) (c : Nat) (v : CoreSt) : (s.setCore c v).prot = s.prot := rfl
@[simp] theorem State.setCore_pools (s : State) (c : Nat) (v : CoreSt) : (s.setCore c v).pools = s.pools := rfl
@[simp] theorem State.setCore_msix (s : State) (c : Nat) (v : CoreSt) : (s.setCore c v).msix = s.msix := rfl
@[simp] theorem State.setCore_irqs (s : State) (c : Nat) (v : CoreSt) : (s.setCore c v).irqs = s.irqs := rfl
@[simp] theorem State.setCore_rdata (s : State) (c : Nat) (v : CoreSt) : (s.setCore c v).rdata = s.rdata := rfl
@[simp] theorem State.setCore_sent (s : State) (c : Nat) (v : CoreSt) : (s.setCore c v).sent = s.sent := rfl
@[simp] theorem State.setCore_outReqs (s : State) (c : Nat) (v : CoreSt) : (s.setCore c v).outReqs = s.outReqs := rfl
@[simp] theorem State.setCore_sweep (s : State) (c : Nat) (v : CoreSt) : (s.setCore c v).sweep = s.sweep := rfl
@[simp] theorem State.setCore_lastRec (s : State) (c : Nat) (v : CoreSt) : (s.setCore c v).lastRec = s.lastRec := rfl
@[simp] theorem State.setCore_fw (s : State) (c : Nat) (v : CoreSt) : (s.setCore c v).fw = s.fw := rfl
@[simp] theorem State.setCore_svc (s : State) (c : Nat) (v : CoreSt) : (s.setCore c v).svc = s.svc := rfl
@[simp] theorem State.setCore_pwr (s : State) (c : Nat) (v : CoreSt) : (s.setCore c v).pwr = s.pwr := rfl

/-! `State.updCore` -/

@[simp] theorem State.updCore_cur (s : State) (c : Nat) (f : CoreSt → CoreSt) : (s.updCore c f).cur = s.cur := rfl
@[simp] theorem State.updCore_agenda (s : State) (c : Nat) (f : CoreSt → CoreSt) : (s.updCore c f).agenda = s.agenda := rfl
@[simp] theorem State.updCore_nextId (s : State) (c : Nat) (f : CoreSt → CoreSt) : (s.updCore c f).nextId = s.nextId := rfl
@[simp] theorem State.updCore_now (s : State) (c : Nat) (f : CoreSt → CoreSt) : (s.updCore c f).now = s.now := rfl
@[simp] theorem State.updCore_mem (s : State) (c : Nat) (f : CoreSt → CoreSt) : (s.updCore c f).mem = s.mem := rfl
@[simp] theorem State.updCore_badChk (s : State) (c : Nat) (f : CoreSt → CoreSt) : (s.updCore c f).badChk = s.badChk := rfl
@[simp] theorem State.updCore_poison (s : State) (c : Nat) (f : CoreSt → CoreSt) : (s.updCore c f).poison = s.poison := rfl
@[simp] theorem State.updCore_crews (s : State) (c : Nat) (f : CoreSt → CoreSt) : (s.updCore c f).crews = s.crews := rfl
@[simp] theorem State.updCore_gangs (s : State) (c : Nat) (f : CoreSt → CoreSt) : (s.updCore c f).gangs = s.gangs := rfl
@[simp] theorem State.updCore_clusters (s : State) (c : Nat) (f : CoreSt → CoreSt) : (s.updCore c f).clusters = s.clusters := rfl
@[simp] theorem State.updCore_net (s : State) (c : Nat) (f : CoreSt → CoreSt) : (s.updCore c f).net = s.net := rfl
@[simp] theorem State.updCore_combs (s : State) (c : Nat) (f : CoreSt → CoreSt) : (s.updCore c f).combs = s.combs := rfl
@[simp] theorem State.updCore_chans (s : State) (c : Nat) (f : CoreSt → CoreSt) : (s.updCore c f).chans = s.chans := rfl
@[simp] theorem State.updCore_homes (s : State) (c : Nat) (f : CoreSt → CoreSt) : (s.updCore c f).homes = s.homes := rfl
@[simp] theorem State.updCore_slices (s : State) (c : Nat) (f : CoreSt → CoreSt) : (s.updCore c f).slices = s.slices := rfl
@[simp] theorem State.updCore_bridges (s : State) (c : Nat) (f : CoreSt → CoreSt) : (s.updCore c f).bridges = s.bridges := rfl
@[simp] theorem State.updCore_dom (s : State) (c : Nat) (f : CoreSt → CoreSt) : (s.updCore c f).dom = s.dom := rfl
@[simp] theorem State.updCore_cmds (s : State) (c : Nat) (f : CoreSt → CoreSt) : (s.updCore c f).cmds = s.cmds := rfl
@[simp] theorem State.updCore_swr (s : State) (c : Nat) (f : CoreSt → CoreSt) : (s.updCore c f).swr = s.swr := rfl
@[simp] theorem State.updCore_cmbSlots (s : State) (c : Nat) (f : CoreSt → CoreSt) : (s.updCore c f).cmbSlots = s.cmbSlots := rfl
@[simp] theorem State.updCore_arrivals (s : State) (c : Nat) (f : CoreSt → CoreSt) : (s.updCore c f).arrivals = s.arrivals := rfl
@[simp] theorem State.updCore_ctrHomes (s : State) (c : Nat) (f : CoreSt → CoreSt) : (s.updCore c f).ctrHomes = s.ctrHomes := rfl
@[simp] theorem State.updCore_walkq (s : State) (c : Nat) (f : CoreSt → CoreSt) : (s.updCore c f).walkq = s.walkq := rfl
@[simp] theorem State.updCore_engWaits (s : State) (c : Nat) (f : CoreSt → CoreSt) : (s.updCore c f).engWaits = s.engWaits := rfl
@[simp] theorem State.updCore_queues (s : State) (c : Nat) (f : CoreSt → CoreSt) : (s.updCore c f).queues = s.queues := rfl
@[simp] theorem State.updCore_launches (s : State) (c : Nat) (f : CoreSt → CoreSt) : (s.updCore c f).launches = s.launches := rfl
@[simp] theorem State.updCore_blocks (s : State) (c : Nat) (f : CoreSt → CoreSt) : (s.updCore c f).blocks = s.blocks := rfl
@[simp] theorem State.updCore_rr (s : State) (c : Nat) (f : CoreSt → CoreSt) : (s.updCore c f).rr = s.rr := rfl
@[simp] theorem State.updCore_parts (s : State) (c : Nat) (f : CoreSt → CoreSt) : (s.updCore c f).parts = s.parts := rfl
@[simp] theorem State.updCore_asids (s : State) (c : Nat) (f : CoreSt → CoreSt) : (s.updCore c f).asids = s.asids := rfl
@[simp] theorem State.updCore_traps (s : State) (c : Nat) (f : CoreSt → CoreSt) : (s.updCore c f).traps = s.traps := rfl
@[simp] theorem State.updCore_err (s : State) (c : Nat) (f : CoreSt → CoreSt) : (s.updCore c f).err = s.err := rfl
@[simp] theorem State.updCore_prot (s : State) (c : Nat) (f : CoreSt → CoreSt) : (s.updCore c f).prot = s.prot := rfl
@[simp] theorem State.updCore_pools (s : State) (c : Nat) (f : CoreSt → CoreSt) : (s.updCore c f).pools = s.pools := rfl
@[simp] theorem State.updCore_msix (s : State) (c : Nat) (f : CoreSt → CoreSt) : (s.updCore c f).msix = s.msix := rfl
@[simp] theorem State.updCore_irqs (s : State) (c : Nat) (f : CoreSt → CoreSt) : (s.updCore c f).irqs = s.irqs := rfl
@[simp] theorem State.updCore_rdata (s : State) (c : Nat) (f : CoreSt → CoreSt) : (s.updCore c f).rdata = s.rdata := rfl
@[simp] theorem State.updCore_sent (s : State) (c : Nat) (f : CoreSt → CoreSt) : (s.updCore c f).sent = s.sent := rfl
@[simp] theorem State.updCore_outReqs (s : State) (c : Nat) (f : CoreSt → CoreSt) : (s.updCore c f).outReqs = s.outReqs := rfl
@[simp] theorem State.updCore_sweep (s : State) (c : Nat) (f : CoreSt → CoreSt) : (s.updCore c f).sweep = s.sweep := rfl
@[simp] theorem State.updCore_lastRec (s : State) (c : Nat) (f : CoreSt → CoreSt) : (s.updCore c f).lastRec = s.lastRec := rfl
@[simp] theorem State.updCore_fw (s : State) (c : Nat) (f : CoreSt → CoreSt) : (s.updCore c f).fw = s.fw := rfl
@[simp] theorem State.updCore_svc (s : State) (c : Nat) (f : CoreSt → CoreSt) : (s.updCore c f).svc = s.svc := rfl
@[simp] theorem State.updCore_pwr (s : State) (c : Nat) (f : CoreSt → CoreSt) : (s.updCore c f).pwr = s.pwr := rfl

/-! `State.setCluster` -/

@[simp] theorem State.setCluster_cur (s : State) (k : Nat) (v : ClusterSt) : (s.setCluster k v).cur = s.cur := rfl
@[simp] theorem State.setCluster_agenda (s : State) (k : Nat) (v : ClusterSt) : (s.setCluster k v).agenda = s.agenda := rfl
@[simp] theorem State.setCluster_nextId (s : State) (k : Nat) (v : ClusterSt) : (s.setCluster k v).nextId = s.nextId := rfl
@[simp] theorem State.setCluster_now (s : State) (k : Nat) (v : ClusterSt) : (s.setCluster k v).now = s.now := rfl
@[simp] theorem State.setCluster_mem (s : State) (k : Nat) (v : ClusterSt) : (s.setCluster k v).mem = s.mem := rfl
@[simp] theorem State.setCluster_badChk (s : State) (k : Nat) (v : ClusterSt) : (s.setCluster k v).badChk = s.badChk := rfl
@[simp] theorem State.setCluster_poison (s : State) (k : Nat) (v : ClusterSt) : (s.setCluster k v).poison = s.poison := rfl
@[simp] theorem State.setCluster_crews (s : State) (k : Nat) (v : ClusterSt) : (s.setCluster k v).crews = s.crews := rfl
@[simp] theorem State.setCluster_gangs (s : State) (k : Nat) (v : ClusterSt) : (s.setCluster k v).gangs = s.gangs := rfl
@[simp] theorem State.setCluster_cores (s : State) (k : Nat) (v : ClusterSt) : (s.setCluster k v).cores = s.cores := rfl
@[simp] theorem State.setCluster_net (s : State) (k : Nat) (v : ClusterSt) : (s.setCluster k v).net = s.net := rfl
@[simp] theorem State.setCluster_combs (s : State) (k : Nat) (v : ClusterSt) : (s.setCluster k v).combs = s.combs := rfl
@[simp] theorem State.setCluster_chans (s : State) (k : Nat) (v : ClusterSt) : (s.setCluster k v).chans = s.chans := rfl
@[simp] theorem State.setCluster_homes (s : State) (k : Nat) (v : ClusterSt) : (s.setCluster k v).homes = s.homes := rfl
@[simp] theorem State.setCluster_slices (s : State) (k : Nat) (v : ClusterSt) : (s.setCluster k v).slices = s.slices := rfl
@[simp] theorem State.setCluster_bridges (s : State) (k : Nat) (v : ClusterSt) : (s.setCluster k v).bridges = s.bridges := rfl
@[simp] theorem State.setCluster_dom (s : State) (k : Nat) (v : ClusterSt) : (s.setCluster k v).dom = s.dom := rfl
@[simp] theorem State.setCluster_cmds (s : State) (k : Nat) (v : ClusterSt) : (s.setCluster k v).cmds = s.cmds := rfl
@[simp] theorem State.setCluster_swr (s : State) (k : Nat) (v : ClusterSt) : (s.setCluster k v).swr = s.swr := rfl
@[simp] theorem State.setCluster_cmbSlots (s : State) (k : Nat) (v : ClusterSt) : (s.setCluster k v).cmbSlots = s.cmbSlots := rfl
@[simp] theorem State.setCluster_arrivals (s : State) (k : Nat) (v : ClusterSt) : (s.setCluster k v).arrivals = s.arrivals := rfl
@[simp] theorem State.setCluster_ctrHomes (s : State) (k : Nat) (v : ClusterSt) : (s.setCluster k v).ctrHomes = s.ctrHomes := rfl
@[simp] theorem State.setCluster_walkq (s : State) (k : Nat) (v : ClusterSt) : (s.setCluster k v).walkq = s.walkq := rfl
@[simp] theorem State.setCluster_engWaits (s : State) (k : Nat) (v : ClusterSt) : (s.setCluster k v).engWaits = s.engWaits := rfl
@[simp] theorem State.setCluster_queues (s : State) (k : Nat) (v : ClusterSt) : (s.setCluster k v).queues = s.queues := rfl
@[simp] theorem State.setCluster_launches (s : State) (k : Nat) (v : ClusterSt) : (s.setCluster k v).launches = s.launches := rfl
@[simp] theorem State.setCluster_blocks (s : State) (k : Nat) (v : ClusterSt) : (s.setCluster k v).blocks = s.blocks := rfl
@[simp] theorem State.setCluster_rr (s : State) (k : Nat) (v : ClusterSt) : (s.setCluster k v).rr = s.rr := rfl
@[simp] theorem State.setCluster_parts (s : State) (k : Nat) (v : ClusterSt) : (s.setCluster k v).parts = s.parts := rfl
@[simp] theorem State.setCluster_asids (s : State) (k : Nat) (v : ClusterSt) : (s.setCluster k v).asids = s.asids := rfl
@[simp] theorem State.setCluster_traps (s : State) (k : Nat) (v : ClusterSt) : (s.setCluster k v).traps = s.traps := rfl
@[simp] theorem State.setCluster_err (s : State) (k : Nat) (v : ClusterSt) : (s.setCluster k v).err = s.err := rfl
@[simp] theorem State.setCluster_prot (s : State) (k : Nat) (v : ClusterSt) : (s.setCluster k v).prot = s.prot := rfl
@[simp] theorem State.setCluster_pools (s : State) (k : Nat) (v : ClusterSt) : (s.setCluster k v).pools = s.pools := rfl
@[simp] theorem State.setCluster_msix (s : State) (k : Nat) (v : ClusterSt) : (s.setCluster k v).msix = s.msix := rfl
@[simp] theorem State.setCluster_irqs (s : State) (k : Nat) (v : ClusterSt) : (s.setCluster k v).irqs = s.irqs := rfl
@[simp] theorem State.setCluster_rdata (s : State) (k : Nat) (v : ClusterSt) : (s.setCluster k v).rdata = s.rdata := rfl
@[simp] theorem State.setCluster_sent (s : State) (k : Nat) (v : ClusterSt) : (s.setCluster k v).sent = s.sent := rfl
@[simp] theorem State.setCluster_outReqs (s : State) (k : Nat) (v : ClusterSt) : (s.setCluster k v).outReqs = s.outReqs := rfl
@[simp] theorem State.setCluster_sweep (s : State) (k : Nat) (v : ClusterSt) : (s.setCluster k v).sweep = s.sweep := rfl
@[simp] theorem State.setCluster_lastRec (s : State) (k : Nat) (v : ClusterSt) : (s.setCluster k v).lastRec = s.lastRec := rfl
@[simp] theorem State.setCluster_fw (s : State) (k : Nat) (v : ClusterSt) : (s.setCluster k v).fw = s.fw := rfl
@[simp] theorem State.setCluster_svc (s : State) (k : Nat) (v : ClusterSt) : (s.setCluster k v).svc = s.svc := rfl
@[simp] theorem State.setCluster_pwr (s : State) (k : Nat) (v : ClusterSt) : (s.setCluster k v).pwr = s.pwr := rfl

/-! `State.updCluster` -/

@[simp] theorem State.updCluster_cur (s : State) (k : Nat) (f : ClusterSt → ClusterSt) : (s.updCluster k f).cur = s.cur := rfl
@[simp] theorem State.updCluster_agenda (s : State) (k : Nat) (f : ClusterSt → ClusterSt) : (s.updCluster k f).agenda = s.agenda := rfl
@[simp] theorem State.updCluster_nextId (s : State) (k : Nat) (f : ClusterSt → ClusterSt) : (s.updCluster k f).nextId = s.nextId := rfl
@[simp] theorem State.updCluster_now (s : State) (k : Nat) (f : ClusterSt → ClusterSt) : (s.updCluster k f).now = s.now := rfl
@[simp] theorem State.updCluster_mem (s : State) (k : Nat) (f : ClusterSt → ClusterSt) : (s.updCluster k f).mem = s.mem := rfl
@[simp] theorem State.updCluster_badChk (s : State) (k : Nat) (f : ClusterSt → ClusterSt) : (s.updCluster k f).badChk = s.badChk := rfl
@[simp] theorem State.updCluster_poison (s : State) (k : Nat) (f : ClusterSt → ClusterSt) : (s.updCluster k f).poison = s.poison := rfl
@[simp] theorem State.updCluster_crews (s : State) (k : Nat) (f : ClusterSt → ClusterSt) : (s.updCluster k f).crews = s.crews := rfl
@[simp] theorem State.updCluster_gangs (s : State) (k : Nat) (f : ClusterSt → ClusterSt) : (s.updCluster k f).gangs = s.gangs := rfl
@[simp] theorem State.updCluster_cores (s : State) (k : Nat) (f : ClusterSt → ClusterSt) : (s.updCluster k f).cores = s.cores := rfl
@[simp] theorem State.updCluster_net (s : State) (k : Nat) (f : ClusterSt → ClusterSt) : (s.updCluster k f).net = s.net := rfl
@[simp] theorem State.updCluster_combs (s : State) (k : Nat) (f : ClusterSt → ClusterSt) : (s.updCluster k f).combs = s.combs := rfl
@[simp] theorem State.updCluster_chans (s : State) (k : Nat) (f : ClusterSt → ClusterSt) : (s.updCluster k f).chans = s.chans := rfl
@[simp] theorem State.updCluster_homes (s : State) (k : Nat) (f : ClusterSt → ClusterSt) : (s.updCluster k f).homes = s.homes := rfl
@[simp] theorem State.updCluster_slices (s : State) (k : Nat) (f : ClusterSt → ClusterSt) : (s.updCluster k f).slices = s.slices := rfl
@[simp] theorem State.updCluster_bridges (s : State) (k : Nat) (f : ClusterSt → ClusterSt) : (s.updCluster k f).bridges = s.bridges := rfl
@[simp] theorem State.updCluster_dom (s : State) (k : Nat) (f : ClusterSt → ClusterSt) : (s.updCluster k f).dom = s.dom := rfl
@[simp] theorem State.updCluster_cmds (s : State) (k : Nat) (f : ClusterSt → ClusterSt) : (s.updCluster k f).cmds = s.cmds := rfl
@[simp] theorem State.updCluster_swr (s : State) (k : Nat) (f : ClusterSt → ClusterSt) : (s.updCluster k f).swr = s.swr := rfl
@[simp] theorem State.updCluster_cmbSlots (s : State) (k : Nat) (f : ClusterSt → ClusterSt) : (s.updCluster k f).cmbSlots = s.cmbSlots := rfl
@[simp] theorem State.updCluster_arrivals (s : State) (k : Nat) (f : ClusterSt → ClusterSt) : (s.updCluster k f).arrivals = s.arrivals := rfl
@[simp] theorem State.updCluster_ctrHomes (s : State) (k : Nat) (f : ClusterSt → ClusterSt) : (s.updCluster k f).ctrHomes = s.ctrHomes := rfl
@[simp] theorem State.updCluster_walkq (s : State) (k : Nat) (f : ClusterSt → ClusterSt) : (s.updCluster k f).walkq = s.walkq := rfl
@[simp] theorem State.updCluster_engWaits (s : State) (k : Nat) (f : ClusterSt → ClusterSt) : (s.updCluster k f).engWaits = s.engWaits := rfl
@[simp] theorem State.updCluster_queues (s : State) (k : Nat) (f : ClusterSt → ClusterSt) : (s.updCluster k f).queues = s.queues := rfl
@[simp] theorem State.updCluster_launches (s : State) (k : Nat) (f : ClusterSt → ClusterSt) : (s.updCluster k f).launches = s.launches := rfl
@[simp] theorem State.updCluster_blocks (s : State) (k : Nat) (f : ClusterSt → ClusterSt) : (s.updCluster k f).blocks = s.blocks := rfl
@[simp] theorem State.updCluster_rr (s : State) (k : Nat) (f : ClusterSt → ClusterSt) : (s.updCluster k f).rr = s.rr := rfl
@[simp] theorem State.updCluster_parts (s : State) (k : Nat) (f : ClusterSt → ClusterSt) : (s.updCluster k f).parts = s.parts := rfl
@[simp] theorem State.updCluster_asids (s : State) (k : Nat) (f : ClusterSt → ClusterSt) : (s.updCluster k f).asids = s.asids := rfl
@[simp] theorem State.updCluster_traps (s : State) (k : Nat) (f : ClusterSt → ClusterSt) : (s.updCluster k f).traps = s.traps := rfl
@[simp] theorem State.updCluster_err (s : State) (k : Nat) (f : ClusterSt → ClusterSt) : (s.updCluster k f).err = s.err := rfl
@[simp] theorem State.updCluster_prot (s : State) (k : Nat) (f : ClusterSt → ClusterSt) : (s.updCluster k f).prot = s.prot := rfl
@[simp] theorem State.updCluster_pools (s : State) (k : Nat) (f : ClusterSt → ClusterSt) : (s.updCluster k f).pools = s.pools := rfl
@[simp] theorem State.updCluster_msix (s : State) (k : Nat) (f : ClusterSt → ClusterSt) : (s.updCluster k f).msix = s.msix := rfl
@[simp] theorem State.updCluster_irqs (s : State) (k : Nat) (f : ClusterSt → ClusterSt) : (s.updCluster k f).irqs = s.irqs := rfl
@[simp] theorem State.updCluster_rdata (s : State) (k : Nat) (f : ClusterSt → ClusterSt) : (s.updCluster k f).rdata = s.rdata := rfl
@[simp] theorem State.updCluster_sent (s : State) (k : Nat) (f : ClusterSt → ClusterSt) : (s.updCluster k f).sent = s.sent := rfl
@[simp] theorem State.updCluster_outReqs (s : State) (k : Nat) (f : ClusterSt → ClusterSt) : (s.updCluster k f).outReqs = s.outReqs := rfl
@[simp] theorem State.updCluster_sweep (s : State) (k : Nat) (f : ClusterSt → ClusterSt) : (s.updCluster k f).sweep = s.sweep := rfl
@[simp] theorem State.updCluster_lastRec (s : State) (k : Nat) (f : ClusterSt → ClusterSt) : (s.updCluster k f).lastRec = s.lastRec := rfl
@[simp] theorem State.updCluster_fw (s : State) (k : Nat) (f : ClusterSt → ClusterSt) : (s.updCluster k f).fw = s.fw := rfl
@[simp] theorem State.updCluster_svc (s : State) (k : Nat) (f : ClusterSt → ClusterSt) : (s.updCluster k f).svc = s.svc := rfl
@[simp] theorem State.updCluster_pwr (s : State) (k : Nat) (f : ClusterSt → ClusterSt) : (s.updCluster k f).pwr = s.pwr := rfl

/-! `State.updMgmt` -/

@[simp] theorem State.updMgmt_cur (s : State) (k : Nat) (f : Mgmt → Mgmt) : (s.updMgmt k f).cur = s.cur := rfl
@[simp] theorem State.updMgmt_agenda (s : State) (k : Nat) (f : Mgmt → Mgmt) : (s.updMgmt k f).agenda = s.agenda := rfl
@[simp] theorem State.updMgmt_nextId (s : State) (k : Nat) (f : Mgmt → Mgmt) : (s.updMgmt k f).nextId = s.nextId := rfl
@[simp] theorem State.updMgmt_now (s : State) (k : Nat) (f : Mgmt → Mgmt) : (s.updMgmt k f).now = s.now := rfl
@[simp] theorem State.updMgmt_mem (s : State) (k : Nat) (f : Mgmt → Mgmt) : (s.updMgmt k f).mem = s.mem := rfl
@[simp] theorem State.updMgmt_badChk (s : State) (k : Nat) (f : Mgmt → Mgmt) : (s.updMgmt k f).badChk = s.badChk := rfl
@[simp] theorem State.updMgmt_poison (s : State) (k : Nat) (f : Mgmt → Mgmt) : (s.updMgmt k f).poison = s.poison := rfl
@[simp] theorem State.updMgmt_crews (s : State) (k : Nat) (f : Mgmt → Mgmt) : (s.updMgmt k f).crews = s.crews := rfl
@[simp] theorem State.updMgmt_gangs (s : State) (k : Nat) (f : Mgmt → Mgmt) : (s.updMgmt k f).gangs = s.gangs := rfl
@[simp] theorem State.updMgmt_cores (s : State) (k : Nat) (f : Mgmt → Mgmt) : (s.updMgmt k f).cores = s.cores := rfl
@[simp] theorem State.updMgmt_net (s : State) (k : Nat) (f : Mgmt → Mgmt) : (s.updMgmt k f).net = s.net := rfl
@[simp] theorem State.updMgmt_combs (s : State) (k : Nat) (f : Mgmt → Mgmt) : (s.updMgmt k f).combs = s.combs := rfl
@[simp] theorem State.updMgmt_chans (s : State) (k : Nat) (f : Mgmt → Mgmt) : (s.updMgmt k f).chans = s.chans := rfl
@[simp] theorem State.updMgmt_homes (s : State) (k : Nat) (f : Mgmt → Mgmt) : (s.updMgmt k f).homes = s.homes := rfl
@[simp] theorem State.updMgmt_slices (s : State) (k : Nat) (f : Mgmt → Mgmt) : (s.updMgmt k f).slices = s.slices := rfl
@[simp] theorem State.updMgmt_bridges (s : State) (k : Nat) (f : Mgmt → Mgmt) : (s.updMgmt k f).bridges = s.bridges := rfl
@[simp] theorem State.updMgmt_dom (s : State) (k : Nat) (f : Mgmt → Mgmt) : (s.updMgmt k f).dom = s.dom := rfl
@[simp] theorem State.updMgmt_cmds (s : State) (k : Nat) (f : Mgmt → Mgmt) : (s.updMgmt k f).cmds = s.cmds := rfl
@[simp] theorem State.updMgmt_swr (s : State) (k : Nat) (f : Mgmt → Mgmt) : (s.updMgmt k f).swr = s.swr := rfl
@[simp] theorem State.updMgmt_cmbSlots (s : State) (k : Nat) (f : Mgmt → Mgmt) : (s.updMgmt k f).cmbSlots = s.cmbSlots := rfl
@[simp] theorem State.updMgmt_arrivals (s : State) (k : Nat) (f : Mgmt → Mgmt) : (s.updMgmt k f).arrivals = s.arrivals := rfl
@[simp] theorem State.updMgmt_ctrHomes (s : State) (k : Nat) (f : Mgmt → Mgmt) : (s.updMgmt k f).ctrHomes = s.ctrHomes := rfl
@[simp] theorem State.updMgmt_walkq (s : State) (k : Nat) (f : Mgmt → Mgmt) : (s.updMgmt k f).walkq = s.walkq := rfl
@[simp] theorem State.updMgmt_engWaits (s : State) (k : Nat) (f : Mgmt → Mgmt) : (s.updMgmt k f).engWaits = s.engWaits := rfl
@[simp] theorem State.updMgmt_queues (s : State) (k : Nat) (f : Mgmt → Mgmt) : (s.updMgmt k f).queues = s.queues := rfl
@[simp] theorem State.updMgmt_launches (s : State) (k : Nat) (f : Mgmt → Mgmt) : (s.updMgmt k f).launches = s.launches := rfl
@[simp] theorem State.updMgmt_blocks (s : State) (k : Nat) (f : Mgmt → Mgmt) : (s.updMgmt k f).blocks = s.blocks := rfl
@[simp] theorem State.updMgmt_rr (s : State) (k : Nat) (f : Mgmt → Mgmt) : (s.updMgmt k f).rr = s.rr := rfl
@[simp] theorem State.updMgmt_parts (s : State) (k : Nat) (f : Mgmt → Mgmt) : (s.updMgmt k f).parts = s.parts := rfl
@[simp] theorem State.updMgmt_asids (s : State) (k : Nat) (f : Mgmt → Mgmt) : (s.updMgmt k f).asids = s.asids := rfl
@[simp] theorem State.updMgmt_traps (s : State) (k : Nat) (f : Mgmt → Mgmt) : (s.updMgmt k f).traps = s.traps := rfl
@[simp] theorem State.updMgmt_err (s : State) (k : Nat) (f : Mgmt → Mgmt) : (s.updMgmt k f).err = s.err := rfl
@[simp] theorem State.updMgmt_prot (s : State) (k : Nat) (f : Mgmt → Mgmt) : (s.updMgmt k f).prot = s.prot := rfl
@[simp] theorem State.updMgmt_pools (s : State) (k : Nat) (f : Mgmt → Mgmt) : (s.updMgmt k f).pools = s.pools := rfl
@[simp] theorem State.updMgmt_msix (s : State) (k : Nat) (f : Mgmt → Mgmt) : (s.updMgmt k f).msix = s.msix := rfl
@[simp] theorem State.updMgmt_irqs (s : State) (k : Nat) (f : Mgmt → Mgmt) : (s.updMgmt k f).irqs = s.irqs := rfl
@[simp] theorem State.updMgmt_rdata (s : State) (k : Nat) (f : Mgmt → Mgmt) : (s.updMgmt k f).rdata = s.rdata := rfl
@[simp] theorem State.updMgmt_sent (s : State) (k : Nat) (f : Mgmt → Mgmt) : (s.updMgmt k f).sent = s.sent := rfl
@[simp] theorem State.updMgmt_outReqs (s : State) (k : Nat) (f : Mgmt → Mgmt) : (s.updMgmt k f).outReqs = s.outReqs := rfl
@[simp] theorem State.updMgmt_sweep (s : State) (k : Nat) (f : Mgmt → Mgmt) : (s.updMgmt k f).sweep = s.sweep := rfl
@[simp] theorem State.updMgmt_lastRec (s : State) (k : Nat) (f : Mgmt → Mgmt) : (s.updMgmt k f).lastRec = s.lastRec := rfl
@[simp] theorem State.updMgmt_fw (s : State) (k : Nat) (f : Mgmt → Mgmt) : (s.updMgmt k f).fw = s.fw := rfl
@[simp] theorem State.updMgmt_svc (s : State) (k : Nat) (f : Mgmt → Mgmt) : (s.updMgmt k f).svc = s.svc := rfl
@[simp] theorem State.updMgmt_pwr (s : State) (k : Nat) (f : Mgmt → Mgmt) : (s.updMgmt k f).pwr = s.pwr := rfl

/-! `State.setSlice` -/

@[simp] theorem State.setSlice_cur (s : State) (n : Nat) (v : Slice) : (s.setSlice n v).cur = s.cur := rfl
@[simp] theorem State.setSlice_agenda (s : State) (n : Nat) (v : Slice) : (s.setSlice n v).agenda = s.agenda := rfl
@[simp] theorem State.setSlice_nextId (s : State) (n : Nat) (v : Slice) : (s.setSlice n v).nextId = s.nextId := rfl
@[simp] theorem State.setSlice_now (s : State) (n : Nat) (v : Slice) : (s.setSlice n v).now = s.now := rfl
@[simp] theorem State.setSlice_mem (s : State) (n : Nat) (v : Slice) : (s.setSlice n v).mem = s.mem := rfl
@[simp] theorem State.setSlice_badChk (s : State) (n : Nat) (v : Slice) : (s.setSlice n v).badChk = s.badChk := rfl
@[simp] theorem State.setSlice_poison (s : State) (n : Nat) (v : Slice) : (s.setSlice n v).poison = s.poison := rfl
@[simp] theorem State.setSlice_crews (s : State) (n : Nat) (v : Slice) : (s.setSlice n v).crews = s.crews := rfl
@[simp] theorem State.setSlice_gangs (s : State) (n : Nat) (v : Slice) : (s.setSlice n v).gangs = s.gangs := rfl
@[simp] theorem State.setSlice_cores (s : State) (n : Nat) (v : Slice) : (s.setSlice n v).cores = s.cores := rfl
@[simp] theorem State.setSlice_clusters (s : State) (n : Nat) (v : Slice) : (s.setSlice n v).clusters = s.clusters := rfl
@[simp] theorem State.setSlice_net (s : State) (n : Nat) (v : Slice) : (s.setSlice n v).net = s.net := rfl
@[simp] theorem State.setSlice_combs (s : State) (n : Nat) (v : Slice) : (s.setSlice n v).combs = s.combs := rfl
@[simp] theorem State.setSlice_chans (s : State) (n : Nat) (v : Slice) : (s.setSlice n v).chans = s.chans := rfl
@[simp] theorem State.setSlice_homes (s : State) (n : Nat) (v : Slice) : (s.setSlice n v).homes = s.homes := rfl
@[simp] theorem State.setSlice_bridges (s : State) (n : Nat) (v : Slice) : (s.setSlice n v).bridges = s.bridges := rfl
@[simp] theorem State.setSlice_dom (s : State) (n : Nat) (v : Slice) : (s.setSlice n v).dom = s.dom := rfl
@[simp] theorem State.setSlice_cmds (s : State) (n : Nat) (v : Slice) : (s.setSlice n v).cmds = s.cmds := rfl
@[simp] theorem State.setSlice_swr (s : State) (n : Nat) (v : Slice) : (s.setSlice n v).swr = s.swr := rfl
@[simp] theorem State.setSlice_cmbSlots (s : State) (n : Nat) (v : Slice) : (s.setSlice n v).cmbSlots = s.cmbSlots := rfl
@[simp] theorem State.setSlice_arrivals (s : State) (n : Nat) (v : Slice) : (s.setSlice n v).arrivals = s.arrivals := rfl
@[simp] theorem State.setSlice_ctrHomes (s : State) (n : Nat) (v : Slice) : (s.setSlice n v).ctrHomes = s.ctrHomes := rfl
@[simp] theorem State.setSlice_walkq (s : State) (n : Nat) (v : Slice) : (s.setSlice n v).walkq = s.walkq := rfl
@[simp] theorem State.setSlice_engWaits (s : State) (n : Nat) (v : Slice) : (s.setSlice n v).engWaits = s.engWaits := rfl
@[simp] theorem State.setSlice_queues (s : State) (n : Nat) (v : Slice) : (s.setSlice n v).queues = s.queues := rfl
@[simp] theorem State.setSlice_launches (s : State) (n : Nat) (v : Slice) : (s.setSlice n v).launches = s.launches := rfl
@[simp] theorem State.setSlice_blocks (s : State) (n : Nat) (v : Slice) : (s.setSlice n v).blocks = s.blocks := rfl
@[simp] theorem State.setSlice_rr (s : State) (n : Nat) (v : Slice) : (s.setSlice n v).rr = s.rr := rfl
@[simp] theorem State.setSlice_parts (s : State) (n : Nat) (v : Slice) : (s.setSlice n v).parts = s.parts := rfl
@[simp] theorem State.setSlice_asids (s : State) (n : Nat) (v : Slice) : (s.setSlice n v).asids = s.asids := rfl
@[simp] theorem State.setSlice_traps (s : State) (n : Nat) (v : Slice) : (s.setSlice n v).traps = s.traps := rfl
@[simp] theorem State.setSlice_err (s : State) (n : Nat) (v : Slice) : (s.setSlice n v).err = s.err := rfl
@[simp] theorem State.setSlice_prot (s : State) (n : Nat) (v : Slice) : (s.setSlice n v).prot = s.prot := rfl
@[simp] theorem State.setSlice_pools (s : State) (n : Nat) (v : Slice) : (s.setSlice n v).pools = s.pools := rfl
@[simp] theorem State.setSlice_msix (s : State) (n : Nat) (v : Slice) : (s.setSlice n v).msix = s.msix := rfl
@[simp] theorem State.setSlice_irqs (s : State) (n : Nat) (v : Slice) : (s.setSlice n v).irqs = s.irqs := rfl
@[simp] theorem State.setSlice_rdata (s : State) (n : Nat) (v : Slice) : (s.setSlice n v).rdata = s.rdata := rfl
@[simp] theorem State.setSlice_sent (s : State) (n : Nat) (v : Slice) : (s.setSlice n v).sent = s.sent := rfl
@[simp] theorem State.setSlice_outReqs (s : State) (n : Nat) (v : Slice) : (s.setSlice n v).outReqs = s.outReqs := rfl
@[simp] theorem State.setSlice_sweep (s : State) (n : Nat) (v : Slice) : (s.setSlice n v).sweep = s.sweep := rfl
@[simp] theorem State.setSlice_lastRec (s : State) (n : Nat) (v : Slice) : (s.setSlice n v).lastRec = s.lastRec := rfl
@[simp] theorem State.setSlice_fw (s : State) (n : Nat) (v : Slice) : (s.setSlice n v).fw = s.fw := rfl
@[simp] theorem State.setSlice_svc (s : State) (n : Nat) (v : Slice) : (s.setSlice n v).svc = s.svc := rfl
@[simp] theorem State.setSlice_pwr (s : State) (n : Nat) (v : Slice) : (s.setSlice n v).pwr = s.pwr := rfl

/-! `State.updSlice` -/

@[simp] theorem State.updSlice_cur (s : State) (n : Nat) (f : Slice → Slice) : (s.updSlice n f).cur = s.cur := rfl
@[simp] theorem State.updSlice_agenda (s : State) (n : Nat) (f : Slice → Slice) : (s.updSlice n f).agenda = s.agenda := rfl
@[simp] theorem State.updSlice_nextId (s : State) (n : Nat) (f : Slice → Slice) : (s.updSlice n f).nextId = s.nextId := rfl
@[simp] theorem State.updSlice_now (s : State) (n : Nat) (f : Slice → Slice) : (s.updSlice n f).now = s.now := rfl
@[simp] theorem State.updSlice_mem (s : State) (n : Nat) (f : Slice → Slice) : (s.updSlice n f).mem = s.mem := rfl
@[simp] theorem State.updSlice_badChk (s : State) (n : Nat) (f : Slice → Slice) : (s.updSlice n f).badChk = s.badChk := rfl
@[simp] theorem State.updSlice_poison (s : State) (n : Nat) (f : Slice → Slice) : (s.updSlice n f).poison = s.poison := rfl
@[simp] theorem State.updSlice_crews (s : State) (n : Nat) (f : Slice → Slice) : (s.updSlice n f).crews = s.crews := rfl
@[simp] theorem State.updSlice_gangs (s : State) (n : Nat) (f : Slice → Slice) : (s.updSlice n f).gangs = s.gangs := rfl
@[simp] theorem State.updSlice_cores (s : State) (n : Nat) (f : Slice → Slice) : (s.updSlice n f).cores = s.cores := rfl
@[simp] theorem State.updSlice_clusters (s : State) (n : Nat) (f : Slice → Slice) : (s.updSlice n f).clusters = s.clusters := rfl
@[simp] theorem State.updSlice_net (s : State) (n : Nat) (f : Slice → Slice) : (s.updSlice n f).net = s.net := rfl
@[simp] theorem State.updSlice_combs (s : State) (n : Nat) (f : Slice → Slice) : (s.updSlice n f).combs = s.combs := rfl
@[simp] theorem State.updSlice_chans (s : State) (n : Nat) (f : Slice → Slice) : (s.updSlice n f).chans = s.chans := rfl
@[simp] theorem State.updSlice_homes (s : State) (n : Nat) (f : Slice → Slice) : (s.updSlice n f).homes = s.homes := rfl
@[simp] theorem State.updSlice_bridges (s : State) (n : Nat) (f : Slice → Slice) : (s.updSlice n f).bridges = s.bridges := rfl
@[simp] theorem State.updSlice_dom (s : State) (n : Nat) (f : Slice → Slice) : (s.updSlice n f).dom = s.dom := rfl
@[simp] theorem State.updSlice_cmds (s : State) (n : Nat) (f : Slice → Slice) : (s.updSlice n f).cmds = s.cmds := rfl
@[simp] theorem State.updSlice_swr (s : State) (n : Nat) (f : Slice → Slice) : (s.updSlice n f).swr = s.swr := rfl
@[simp] theorem State.updSlice_cmbSlots (s : State) (n : Nat) (f : Slice → Slice) : (s.updSlice n f).cmbSlots = s.cmbSlots := rfl
@[simp] theorem State.updSlice_arrivals (s : State) (n : Nat) (f : Slice → Slice) : (s.updSlice n f).arrivals = s.arrivals := rfl
@[simp] theorem State.updSlice_ctrHomes (s : State) (n : Nat) (f : Slice → Slice) : (s.updSlice n f).ctrHomes = s.ctrHomes := rfl
@[simp] theorem State.updSlice_walkq (s : State) (n : Nat) (f : Slice → Slice) : (s.updSlice n f).walkq = s.walkq := rfl
@[simp] theorem State.updSlice_engWaits (s : State) (n : Nat) (f : Slice → Slice) : (s.updSlice n f).engWaits = s.engWaits := rfl
@[simp] theorem State.updSlice_queues (s : State) (n : Nat) (f : Slice → Slice) : (s.updSlice n f).queues = s.queues := rfl
@[simp] theorem State.updSlice_launches (s : State) (n : Nat) (f : Slice → Slice) : (s.updSlice n f).launches = s.launches := rfl
@[simp] theorem State.updSlice_blocks (s : State) (n : Nat) (f : Slice → Slice) : (s.updSlice n f).blocks = s.blocks := rfl
@[simp] theorem State.updSlice_rr (s : State) (n : Nat) (f : Slice → Slice) : (s.updSlice n f).rr = s.rr := rfl
@[simp] theorem State.updSlice_parts (s : State) (n : Nat) (f : Slice → Slice) : (s.updSlice n f).parts = s.parts := rfl
@[simp] theorem State.updSlice_asids (s : State) (n : Nat) (f : Slice → Slice) : (s.updSlice n f).asids = s.asids := rfl
@[simp] theorem State.updSlice_traps (s : State) (n : Nat) (f : Slice → Slice) : (s.updSlice n f).traps = s.traps := rfl
@[simp] theorem State.updSlice_err (s : State) (n : Nat) (f : Slice → Slice) : (s.updSlice n f).err = s.err := rfl
@[simp] theorem State.updSlice_prot (s : State) (n : Nat) (f : Slice → Slice) : (s.updSlice n f).prot = s.prot := rfl
@[simp] theorem State.updSlice_pools (s : State) (n : Nat) (f : Slice → Slice) : (s.updSlice n f).pools = s.pools := rfl
@[simp] theorem State.updSlice_msix (s : State) (n : Nat) (f : Slice → Slice) : (s.updSlice n f).msix = s.msix := rfl
@[simp] theorem State.updSlice_irqs (s : State) (n : Nat) (f : Slice → Slice) : (s.updSlice n f).irqs = s.irqs := rfl
@[simp] theorem State.updSlice_rdata (s : State) (n : Nat) (f : Slice → Slice) : (s.updSlice n f).rdata = s.rdata := rfl
@[simp] theorem State.updSlice_sent (s : State) (n : Nat) (f : Slice → Slice) : (s.updSlice n f).sent = s.sent := rfl
@[simp] theorem State.updSlice_outReqs (s : State) (n : Nat) (f : Slice → Slice) : (s.updSlice n f).outReqs = s.outReqs := rfl
@[simp] theorem State.updSlice_sweep (s : State) (n : Nat) (f : Slice → Slice) : (s.updSlice n f).sweep = s.sweep := rfl
@[simp] theorem State.updSlice_lastRec (s : State) (n : Nat) (f : Slice → Slice) : (s.updSlice n f).lastRec = s.lastRec := rfl
@[simp] theorem State.updSlice_fw (s : State) (n : Nat) (f : Slice → Slice) : (s.updSlice n f).fw = s.fw := rfl
@[simp] theorem State.updSlice_svc (s : State) (n : Nat) (f : Slice → Slice) : (s.updSlice n f).svc = s.svc := rfl
@[simp] theorem State.updSlice_pwr (s : State) (n : Nat) (f : Slice → Slice) : (s.updSlice n f).pwr = s.pwr := rfl

/-! `State.setQueue` -/

@[simp] theorem State.setQueue_cur (s : State) (q : Nat) (v : QueueRegs) : (s.setQueue q v).cur = s.cur := rfl
@[simp] theorem State.setQueue_agenda (s : State) (q : Nat) (v : QueueRegs) : (s.setQueue q v).agenda = s.agenda := rfl
@[simp] theorem State.setQueue_nextId (s : State) (q : Nat) (v : QueueRegs) : (s.setQueue q v).nextId = s.nextId := rfl
@[simp] theorem State.setQueue_now (s : State) (q : Nat) (v : QueueRegs) : (s.setQueue q v).now = s.now := rfl
@[simp] theorem State.setQueue_mem (s : State) (q : Nat) (v : QueueRegs) : (s.setQueue q v).mem = s.mem := rfl
@[simp] theorem State.setQueue_badChk (s : State) (q : Nat) (v : QueueRegs) : (s.setQueue q v).badChk = s.badChk := rfl
@[simp] theorem State.setQueue_poison (s : State) (q : Nat) (v : QueueRegs) : (s.setQueue q v).poison = s.poison := rfl
@[simp] theorem State.setQueue_crews (s : State) (q : Nat) (v : QueueRegs) : (s.setQueue q v).crews = s.crews := rfl
@[simp] theorem State.setQueue_gangs (s : State) (q : Nat) (v : QueueRegs) : (s.setQueue q v).gangs = s.gangs := rfl
@[simp] theorem State.setQueue_cores (s : State) (q : Nat) (v : QueueRegs) : (s.setQueue q v).cores = s.cores := rfl
@[simp] theorem State.setQueue_clusters (s : State) (q : Nat) (v : QueueRegs) : (s.setQueue q v).clusters = s.clusters := rfl
@[simp] theorem State.setQueue_net (s : State) (q : Nat) (v : QueueRegs) : (s.setQueue q v).net = s.net := rfl
@[simp] theorem State.setQueue_combs (s : State) (q : Nat) (v : QueueRegs) : (s.setQueue q v).combs = s.combs := rfl
@[simp] theorem State.setQueue_chans (s : State) (q : Nat) (v : QueueRegs) : (s.setQueue q v).chans = s.chans := rfl
@[simp] theorem State.setQueue_homes (s : State) (q : Nat) (v : QueueRegs) : (s.setQueue q v).homes = s.homes := rfl
@[simp] theorem State.setQueue_slices (s : State) (q : Nat) (v : QueueRegs) : (s.setQueue q v).slices = s.slices := rfl
@[simp] theorem State.setQueue_bridges (s : State) (q : Nat) (v : QueueRegs) : (s.setQueue q v).bridges = s.bridges := rfl
@[simp] theorem State.setQueue_dom (s : State) (q : Nat) (v : QueueRegs) : (s.setQueue q v).dom = s.dom := rfl
@[simp] theorem State.setQueue_cmds (s : State) (q : Nat) (v : QueueRegs) : (s.setQueue q v).cmds = s.cmds := rfl
@[simp] theorem State.setQueue_swr (s : State) (q : Nat) (v : QueueRegs) : (s.setQueue q v).swr = s.swr := rfl
@[simp] theorem State.setQueue_cmbSlots (s : State) (q : Nat) (v : QueueRegs) : (s.setQueue q v).cmbSlots = s.cmbSlots := rfl
@[simp] theorem State.setQueue_arrivals (s : State) (q : Nat) (v : QueueRegs) : (s.setQueue q v).arrivals = s.arrivals := rfl
@[simp] theorem State.setQueue_ctrHomes (s : State) (q : Nat) (v : QueueRegs) : (s.setQueue q v).ctrHomes = s.ctrHomes := rfl
@[simp] theorem State.setQueue_walkq (s : State) (q : Nat) (v : QueueRegs) : (s.setQueue q v).walkq = s.walkq := rfl
@[simp] theorem State.setQueue_engWaits (s : State) (q : Nat) (v : QueueRegs) : (s.setQueue q v).engWaits = s.engWaits := rfl
@[simp] theorem State.setQueue_launches (s : State) (q : Nat) (v : QueueRegs) : (s.setQueue q v).launches = s.launches := rfl
@[simp] theorem State.setQueue_blocks (s : State) (q : Nat) (v : QueueRegs) : (s.setQueue q v).blocks = s.blocks := rfl
@[simp] theorem State.setQueue_rr (s : State) (q : Nat) (v : QueueRegs) : (s.setQueue q v).rr = s.rr := rfl
@[simp] theorem State.setQueue_parts (s : State) (q : Nat) (v : QueueRegs) : (s.setQueue q v).parts = s.parts := rfl
@[simp] theorem State.setQueue_asids (s : State) (q : Nat) (v : QueueRegs) : (s.setQueue q v).asids = s.asids := rfl
@[simp] theorem State.setQueue_traps (s : State) (q : Nat) (v : QueueRegs) : (s.setQueue q v).traps = s.traps := rfl
@[simp] theorem State.setQueue_err (s : State) (q : Nat) (v : QueueRegs) : (s.setQueue q v).err = s.err := rfl
@[simp] theorem State.setQueue_prot (s : State) (q : Nat) (v : QueueRegs) : (s.setQueue q v).prot = s.prot := rfl
@[simp] theorem State.setQueue_pools (s : State) (q : Nat) (v : QueueRegs) : (s.setQueue q v).pools = s.pools := rfl
@[simp] theorem State.setQueue_msix (s : State) (q : Nat) (v : QueueRegs) : (s.setQueue q v).msix = s.msix := rfl
@[simp] theorem State.setQueue_irqs (s : State) (q : Nat) (v : QueueRegs) : (s.setQueue q v).irqs = s.irqs := rfl
@[simp] theorem State.setQueue_rdata (s : State) (q : Nat) (v : QueueRegs) : (s.setQueue q v).rdata = s.rdata := rfl
@[simp] theorem State.setQueue_sent (s : State) (q : Nat) (v : QueueRegs) : (s.setQueue q v).sent = s.sent := rfl
@[simp] theorem State.setQueue_outReqs (s : State) (q : Nat) (v : QueueRegs) : (s.setQueue q v).outReqs = s.outReqs := rfl
@[simp] theorem State.setQueue_sweep (s : State) (q : Nat) (v : QueueRegs) : (s.setQueue q v).sweep = s.sweep := rfl
@[simp] theorem State.setQueue_lastRec (s : State) (q : Nat) (v : QueueRegs) : (s.setQueue q v).lastRec = s.lastRec := rfl
@[simp] theorem State.setQueue_fw (s : State) (q : Nat) (v : QueueRegs) : (s.setQueue q v).fw = s.fw := rfl
@[simp] theorem State.setQueue_svc (s : State) (q : Nat) (v : QueueRegs) : (s.setQueue q v).svc = s.svc := rfl
@[simp] theorem State.setQueue_pwr (s : State) (q : Nat) (v : QueueRegs) : (s.setQueue q v).pwr = s.pwr := rfl

/-! `State.setPart` -/

@[simp] theorem State.setPart_cur (s : State) (p : Nat) (v : Part) : (s.setPart p v).cur = s.cur := rfl
@[simp] theorem State.setPart_agenda (s : State) (p : Nat) (v : Part) : (s.setPart p v).agenda = s.agenda := rfl
@[simp] theorem State.setPart_nextId (s : State) (p : Nat) (v : Part) : (s.setPart p v).nextId = s.nextId := rfl
@[simp] theorem State.setPart_now (s : State) (p : Nat) (v : Part) : (s.setPart p v).now = s.now := rfl
@[simp] theorem State.setPart_mem (s : State) (p : Nat) (v : Part) : (s.setPart p v).mem = s.mem := rfl
@[simp] theorem State.setPart_badChk (s : State) (p : Nat) (v : Part) : (s.setPart p v).badChk = s.badChk := rfl
@[simp] theorem State.setPart_poison (s : State) (p : Nat) (v : Part) : (s.setPart p v).poison = s.poison := rfl
@[simp] theorem State.setPart_crews (s : State) (p : Nat) (v : Part) : (s.setPart p v).crews = s.crews := rfl
@[simp] theorem State.setPart_gangs (s : State) (p : Nat) (v : Part) : (s.setPart p v).gangs = s.gangs := rfl
@[simp] theorem State.setPart_cores (s : State) (p : Nat) (v : Part) : (s.setPart p v).cores = s.cores := rfl
@[simp] theorem State.setPart_clusters (s : State) (p : Nat) (v : Part) : (s.setPart p v).clusters = s.clusters := rfl
@[simp] theorem State.setPart_net (s : State) (p : Nat) (v : Part) : (s.setPart p v).net = s.net := rfl
@[simp] theorem State.setPart_combs (s : State) (p : Nat) (v : Part) : (s.setPart p v).combs = s.combs := rfl
@[simp] theorem State.setPart_chans (s : State) (p : Nat) (v : Part) : (s.setPart p v).chans = s.chans := rfl
@[simp] theorem State.setPart_homes (s : State) (p : Nat) (v : Part) : (s.setPart p v).homes = s.homes := rfl
@[simp] theorem State.setPart_slices (s : State) (p : Nat) (v : Part) : (s.setPart p v).slices = s.slices := rfl
@[simp] theorem State.setPart_bridges (s : State) (p : Nat) (v : Part) : (s.setPart p v).bridges = s.bridges := rfl
@[simp] theorem State.setPart_dom (s : State) (p : Nat) (v : Part) : (s.setPart p v).dom = s.dom := rfl
@[simp] theorem State.setPart_cmds (s : State) (p : Nat) (v : Part) : (s.setPart p v).cmds = s.cmds := rfl
@[simp] theorem State.setPart_swr (s : State) (p : Nat) (v : Part) : (s.setPart p v).swr = s.swr := rfl
@[simp] theorem State.setPart_cmbSlots (s : State) (p : Nat) (v : Part) : (s.setPart p v).cmbSlots = s.cmbSlots := rfl
@[simp] theorem State.setPart_arrivals (s : State) (p : Nat) (v : Part) : (s.setPart p v).arrivals = s.arrivals := rfl
@[simp] theorem State.setPart_ctrHomes (s : State) (p : Nat) (v : Part) : (s.setPart p v).ctrHomes = s.ctrHomes := rfl
@[simp] theorem State.setPart_walkq (s : State) (p : Nat) (v : Part) : (s.setPart p v).walkq = s.walkq := rfl
@[simp] theorem State.setPart_engWaits (s : State) (p : Nat) (v : Part) : (s.setPart p v).engWaits = s.engWaits := rfl
@[simp] theorem State.setPart_queues (s : State) (p : Nat) (v : Part) : (s.setPart p v).queues = s.queues := rfl
@[simp] theorem State.setPart_launches (s : State) (p : Nat) (v : Part) : (s.setPart p v).launches = s.launches := rfl
@[simp] theorem State.setPart_blocks (s : State) (p : Nat) (v : Part) : (s.setPart p v).blocks = s.blocks := rfl
@[simp] theorem State.setPart_rr (s : State) (p : Nat) (v : Part) : (s.setPart p v).rr = s.rr := rfl
@[simp] theorem State.setPart_asids (s : State) (p : Nat) (v : Part) : (s.setPart p v).asids = s.asids := rfl
@[simp] theorem State.setPart_traps (s : State) (p : Nat) (v : Part) : (s.setPart p v).traps = s.traps := rfl
@[simp] theorem State.setPart_err (s : State) (p : Nat) (v : Part) : (s.setPart p v).err = s.err := rfl
@[simp] theorem State.setPart_prot (s : State) (p : Nat) (v : Part) : (s.setPart p v).prot = s.prot := rfl
@[simp] theorem State.setPart_pools (s : State) (p : Nat) (v : Part) : (s.setPart p v).pools = s.pools := rfl
@[simp] theorem State.setPart_msix (s : State) (p : Nat) (v : Part) : (s.setPart p v).msix = s.msix := rfl
@[simp] theorem State.setPart_irqs (s : State) (p : Nat) (v : Part) : (s.setPart p v).irqs = s.irqs := rfl
@[simp] theorem State.setPart_rdata (s : State) (p : Nat) (v : Part) : (s.setPart p v).rdata = s.rdata := rfl
@[simp] theorem State.setPart_sent (s : State) (p : Nat) (v : Part) : (s.setPart p v).sent = s.sent := rfl
@[simp] theorem State.setPart_outReqs (s : State) (p : Nat) (v : Part) : (s.setPart p v).outReqs = s.outReqs := rfl
@[simp] theorem State.setPart_sweep (s : State) (p : Nat) (v : Part) : (s.setPart p v).sweep = s.sweep := rfl
@[simp] theorem State.setPart_lastRec (s : State) (p : Nat) (v : Part) : (s.setPart p v).lastRec = s.lastRec := rfl
@[simp] theorem State.setPart_fw (s : State) (p : Nat) (v : Part) : (s.setPart p v).fw = s.fw := rfl
@[simp] theorem State.setPart_svc (s : State) (p : Nat) (v : Part) : (s.setPart p v).svc = s.svc := rfl
@[simp] theorem State.setPart_pwr (s : State) (p : Nat) (v : Part) : (s.setPart p v).pwr = s.pwr := rfl

/-! `State.updPart` -/

@[simp] theorem State.updPart_cur (s : State) (p : Nat) (f : Part → Part) : (s.updPart p f).cur = s.cur := rfl
@[simp] theorem State.updPart_agenda (s : State) (p : Nat) (f : Part → Part) : (s.updPart p f).agenda = s.agenda := rfl
@[simp] theorem State.updPart_nextId (s : State) (p : Nat) (f : Part → Part) : (s.updPart p f).nextId = s.nextId := rfl
@[simp] theorem State.updPart_now (s : State) (p : Nat) (f : Part → Part) : (s.updPart p f).now = s.now := rfl
@[simp] theorem State.updPart_mem (s : State) (p : Nat) (f : Part → Part) : (s.updPart p f).mem = s.mem := rfl
@[simp] theorem State.updPart_badChk (s : State) (p : Nat) (f : Part → Part) : (s.updPart p f).badChk = s.badChk := rfl
@[simp] theorem State.updPart_poison (s : State) (p : Nat) (f : Part → Part) : (s.updPart p f).poison = s.poison := rfl
@[simp] theorem State.updPart_crews (s : State) (p : Nat) (f : Part → Part) : (s.updPart p f).crews = s.crews := rfl
@[simp] theorem State.updPart_gangs (s : State) (p : Nat) (f : Part → Part) : (s.updPart p f).gangs = s.gangs := rfl
@[simp] theorem State.updPart_cores (s : State) (p : Nat) (f : Part → Part) : (s.updPart p f).cores = s.cores := rfl
@[simp] theorem State.updPart_clusters (s : State) (p : Nat) (f : Part → Part) : (s.updPart p f).clusters = s.clusters := rfl
@[simp] theorem State.updPart_net (s : State) (p : Nat) (f : Part → Part) : (s.updPart p f).net = s.net := rfl
@[simp] theorem State.updPart_combs (s : State) (p : Nat) (f : Part → Part) : (s.updPart p f).combs = s.combs := rfl
@[simp] theorem State.updPart_chans (s : State) (p : Nat) (f : Part → Part) : (s.updPart p f).chans = s.chans := rfl
@[simp] theorem State.updPart_homes (s : State) (p : Nat) (f : Part → Part) : (s.updPart p f).homes = s.homes := rfl
@[simp] theorem State.updPart_slices (s : State) (p : Nat) (f : Part → Part) : (s.updPart p f).slices = s.slices := rfl
@[simp] theorem State.updPart_bridges (s : State) (p : Nat) (f : Part → Part) : (s.updPart p f).bridges = s.bridges := rfl
@[simp] theorem State.updPart_dom (s : State) (p : Nat) (f : Part → Part) : (s.updPart p f).dom = s.dom := rfl
@[simp] theorem State.updPart_cmds (s : State) (p : Nat) (f : Part → Part) : (s.updPart p f).cmds = s.cmds := rfl
@[simp] theorem State.updPart_swr (s : State) (p : Nat) (f : Part → Part) : (s.updPart p f).swr = s.swr := rfl
@[simp] theorem State.updPart_cmbSlots (s : State) (p : Nat) (f : Part → Part) : (s.updPart p f).cmbSlots = s.cmbSlots := rfl
@[simp] theorem State.updPart_arrivals (s : State) (p : Nat) (f : Part → Part) : (s.updPart p f).arrivals = s.arrivals := rfl
@[simp] theorem State.updPart_ctrHomes (s : State) (p : Nat) (f : Part → Part) : (s.updPart p f).ctrHomes = s.ctrHomes := rfl
@[simp] theorem State.updPart_walkq (s : State) (p : Nat) (f : Part → Part) : (s.updPart p f).walkq = s.walkq := rfl
@[simp] theorem State.updPart_engWaits (s : State) (p : Nat) (f : Part → Part) : (s.updPart p f).engWaits = s.engWaits := rfl
@[simp] theorem State.updPart_queues (s : State) (p : Nat) (f : Part → Part) : (s.updPart p f).queues = s.queues := rfl
@[simp] theorem State.updPart_launches (s : State) (p : Nat) (f : Part → Part) : (s.updPart p f).launches = s.launches := rfl
@[simp] theorem State.updPart_blocks (s : State) (p : Nat) (f : Part → Part) : (s.updPart p f).blocks = s.blocks := rfl
@[simp] theorem State.updPart_rr (s : State) (p : Nat) (f : Part → Part) : (s.updPart p f).rr = s.rr := rfl
@[simp] theorem State.updPart_asids (s : State) (p : Nat) (f : Part → Part) : (s.updPart p f).asids = s.asids := rfl
@[simp] theorem State.updPart_traps (s : State) (p : Nat) (f : Part → Part) : (s.updPart p f).traps = s.traps := rfl
@[simp] theorem State.updPart_err (s : State) (p : Nat) (f : Part → Part) : (s.updPart p f).err = s.err := rfl
@[simp] theorem State.updPart_prot (s : State) (p : Nat) (f : Part → Part) : (s.updPart p f).prot = s.prot := rfl
@[simp] theorem State.updPart_pools (s : State) (p : Nat) (f : Part → Part) : (s.updPart p f).pools = s.pools := rfl
@[simp] theorem State.updPart_msix (s : State) (p : Nat) (f : Part → Part) : (s.updPart p f).msix = s.msix := rfl
@[simp] theorem State.updPart_irqs (s : State) (p : Nat) (f : Part → Part) : (s.updPart p f).irqs = s.irqs := rfl
@[simp] theorem State.updPart_rdata (s : State) (p : Nat) (f : Part → Part) : (s.updPart p f).rdata = s.rdata := rfl
@[simp] theorem State.updPart_sent (s : State) (p : Nat) (f : Part → Part) : (s.updPart p f).sent = s.sent := rfl
@[simp] theorem State.updPart_outReqs (s : State) (p : Nat) (f : Part → Part) : (s.updPart p f).outReqs = s.outReqs := rfl
@[simp] theorem State.updPart_sweep (s : State) (p : Nat) (f : Part → Part) : (s.updPart p f).sweep = s.sweep := rfl
@[simp] theorem State.updPart_lastRec (s : State) (p : Nat) (f : Part → Part) : (s.updPart p f).lastRec = s.lastRec := rfl
@[simp] theorem State.updPart_fw (s : State) (p : Nat) (f : Part → Part) : (s.updPart p f).fw = s.fw := rfl
@[simp] theorem State.updPart_svc (s : State) (p : Nat) (f : Part → Part) : (s.updPart p f).svc = s.svc := rfl
@[simp] theorem State.updPart_pwr (s : State) (p : Nat) (f : Part → Part) : (s.updPart p f).pwr = s.pwr := rfl

/-! `State.setAsid` -/

@[simp] theorem State.setAsid_cur (s : State) (a : Nat) (v : AsidRegs) : (s.setAsid a v).cur = s.cur := rfl
@[simp] theorem State.setAsid_agenda (s : State) (a : Nat) (v : AsidRegs) : (s.setAsid a v).agenda = s.agenda := rfl
@[simp] theorem State.setAsid_nextId (s : State) (a : Nat) (v : AsidRegs) : (s.setAsid a v).nextId = s.nextId := rfl
@[simp] theorem State.setAsid_now (s : State) (a : Nat) (v : AsidRegs) : (s.setAsid a v).now = s.now := rfl
@[simp] theorem State.setAsid_mem (s : State) (a : Nat) (v : AsidRegs) : (s.setAsid a v).mem = s.mem := rfl
@[simp] theorem State.setAsid_badChk (s : State) (a : Nat) (v : AsidRegs) : (s.setAsid a v).badChk = s.badChk := rfl
@[simp] theorem State.setAsid_poison (s : State) (a : Nat) (v : AsidRegs) : (s.setAsid a v).poison = s.poison := rfl
@[simp] theorem State.setAsid_crews (s : State) (a : Nat) (v : AsidRegs) : (s.setAsid a v).crews = s.crews := rfl
@[simp] theorem State.setAsid_gangs (s : State) (a : Nat) (v : AsidRegs) : (s.setAsid a v).gangs = s.gangs := rfl
@[simp] theorem State.setAsid_cores (s : State) (a : Nat) (v : AsidRegs) : (s.setAsid a v).cores = s.cores := rfl
@[simp] theorem State.setAsid_clusters (s : State) (a : Nat) (v : AsidRegs) : (s.setAsid a v).clusters = s.clusters := rfl
@[simp] theorem State.setAsid_net (s : State) (a : Nat) (v : AsidRegs) : (s.setAsid a v).net = s.net := rfl
@[simp] theorem State.setAsid_combs (s : State) (a : Nat) (v : AsidRegs) : (s.setAsid a v).combs = s.combs := rfl
@[simp] theorem State.setAsid_chans (s : State) (a : Nat) (v : AsidRegs) : (s.setAsid a v).chans = s.chans := rfl
@[simp] theorem State.setAsid_homes (s : State) (a : Nat) (v : AsidRegs) : (s.setAsid a v).homes = s.homes := rfl
@[simp] theorem State.setAsid_slices (s : State) (a : Nat) (v : AsidRegs) : (s.setAsid a v).slices = s.slices := rfl
@[simp] theorem State.setAsid_bridges (s : State) (a : Nat) (v : AsidRegs) : (s.setAsid a v).bridges = s.bridges := rfl
@[simp] theorem State.setAsid_dom (s : State) (a : Nat) (v : AsidRegs) : (s.setAsid a v).dom = s.dom := rfl
@[simp] theorem State.setAsid_cmds (s : State) (a : Nat) (v : AsidRegs) : (s.setAsid a v).cmds = s.cmds := rfl
@[simp] theorem State.setAsid_swr (s : State) (a : Nat) (v : AsidRegs) : (s.setAsid a v).swr = s.swr := rfl
@[simp] theorem State.setAsid_cmbSlots (s : State) (a : Nat) (v : AsidRegs) : (s.setAsid a v).cmbSlots = s.cmbSlots := rfl
@[simp] theorem State.setAsid_arrivals (s : State) (a : Nat) (v : AsidRegs) : (s.setAsid a v).arrivals = s.arrivals := rfl
@[simp] theorem State.setAsid_ctrHomes (s : State) (a : Nat) (v : AsidRegs) : (s.setAsid a v).ctrHomes = s.ctrHomes := rfl
@[simp] theorem State.setAsid_walkq (s : State) (a : Nat) (v : AsidRegs) : (s.setAsid a v).walkq = s.walkq := rfl
@[simp] theorem State.setAsid_engWaits (s : State) (a : Nat) (v : AsidRegs) : (s.setAsid a v).engWaits = s.engWaits := rfl
@[simp] theorem State.setAsid_queues (s : State) (a : Nat) (v : AsidRegs) : (s.setAsid a v).queues = s.queues := rfl
@[simp] theorem State.setAsid_launches (s : State) (a : Nat) (v : AsidRegs) : (s.setAsid a v).launches = s.launches := rfl
@[simp] theorem State.setAsid_blocks (s : State) (a : Nat) (v : AsidRegs) : (s.setAsid a v).blocks = s.blocks := rfl
@[simp] theorem State.setAsid_rr (s : State) (a : Nat) (v : AsidRegs) : (s.setAsid a v).rr = s.rr := rfl
@[simp] theorem State.setAsid_parts (s : State) (a : Nat) (v : AsidRegs) : (s.setAsid a v).parts = s.parts := rfl
@[simp] theorem State.setAsid_traps (s : State) (a : Nat) (v : AsidRegs) : (s.setAsid a v).traps = s.traps := rfl
@[simp] theorem State.setAsid_err (s : State) (a : Nat) (v : AsidRegs) : (s.setAsid a v).err = s.err := rfl
@[simp] theorem State.setAsid_prot (s : State) (a : Nat) (v : AsidRegs) : (s.setAsid a v).prot = s.prot := rfl
@[simp] theorem State.setAsid_pools (s : State) (a : Nat) (v : AsidRegs) : (s.setAsid a v).pools = s.pools := rfl
@[simp] theorem State.setAsid_msix (s : State) (a : Nat) (v : AsidRegs) : (s.setAsid a v).msix = s.msix := rfl
@[simp] theorem State.setAsid_irqs (s : State) (a : Nat) (v : AsidRegs) : (s.setAsid a v).irqs = s.irqs := rfl
@[simp] theorem State.setAsid_rdata (s : State) (a : Nat) (v : AsidRegs) : (s.setAsid a v).rdata = s.rdata := rfl
@[simp] theorem State.setAsid_sent (s : State) (a : Nat) (v : AsidRegs) : (s.setAsid a v).sent = s.sent := rfl
@[simp] theorem State.setAsid_outReqs (s : State) (a : Nat) (v : AsidRegs) : (s.setAsid a v).outReqs = s.outReqs := rfl
@[simp] theorem State.setAsid_sweep (s : State) (a : Nat) (v : AsidRegs) : (s.setAsid a v).sweep = s.sweep := rfl
@[simp] theorem State.setAsid_lastRec (s : State) (a : Nat) (v : AsidRegs) : (s.setAsid a v).lastRec = s.lastRec := rfl
@[simp] theorem State.setAsid_fw (s : State) (a : Nat) (v : AsidRegs) : (s.setAsid a v).fw = s.fw := rfl
@[simp] theorem State.setAsid_svc (s : State) (a : Nat) (v : AsidRegs) : (s.setAsid a v).svc = s.svc := rfl
@[simp] theorem State.setAsid_pwr (s : State) (a : Nat) (v : AsidRegs) : (s.setAsid a v).pwr = s.pwr := rfl

/-! `State.setLaunch` -/

@[simp] theorem State.setLaunch_cur (s : State) (l : Nat) (v : Launch) : (s.setLaunch l v).cur = s.cur := rfl
@[simp] theorem State.setLaunch_agenda (s : State) (l : Nat) (v : Launch) : (s.setLaunch l v).agenda = s.agenda := rfl
@[simp] theorem State.setLaunch_nextId (s : State) (l : Nat) (v : Launch) : (s.setLaunch l v).nextId = s.nextId := rfl
@[simp] theorem State.setLaunch_now (s : State) (l : Nat) (v : Launch) : (s.setLaunch l v).now = s.now := rfl
@[simp] theorem State.setLaunch_mem (s : State) (l : Nat) (v : Launch) : (s.setLaunch l v).mem = s.mem := rfl
@[simp] theorem State.setLaunch_badChk (s : State) (l : Nat) (v : Launch) : (s.setLaunch l v).badChk = s.badChk := rfl
@[simp] theorem State.setLaunch_poison (s : State) (l : Nat) (v : Launch) : (s.setLaunch l v).poison = s.poison := rfl
@[simp] theorem State.setLaunch_crews (s : State) (l : Nat) (v : Launch) : (s.setLaunch l v).crews = s.crews := rfl
@[simp] theorem State.setLaunch_gangs (s : State) (l : Nat) (v : Launch) : (s.setLaunch l v).gangs = s.gangs := rfl
@[simp] theorem State.setLaunch_cores (s : State) (l : Nat) (v : Launch) : (s.setLaunch l v).cores = s.cores := rfl
@[simp] theorem State.setLaunch_clusters (s : State) (l : Nat) (v : Launch) : (s.setLaunch l v).clusters = s.clusters := rfl
@[simp] theorem State.setLaunch_net (s : State) (l : Nat) (v : Launch) : (s.setLaunch l v).net = s.net := rfl
@[simp] theorem State.setLaunch_combs (s : State) (l : Nat) (v : Launch) : (s.setLaunch l v).combs = s.combs := rfl
@[simp] theorem State.setLaunch_chans (s : State) (l : Nat) (v : Launch) : (s.setLaunch l v).chans = s.chans := rfl
@[simp] theorem State.setLaunch_homes (s : State) (l : Nat) (v : Launch) : (s.setLaunch l v).homes = s.homes := rfl
@[simp] theorem State.setLaunch_slices (s : State) (l : Nat) (v : Launch) : (s.setLaunch l v).slices = s.slices := rfl
@[simp] theorem State.setLaunch_bridges (s : State) (l : Nat) (v : Launch) : (s.setLaunch l v).bridges = s.bridges := rfl
@[simp] theorem State.setLaunch_dom (s : State) (l : Nat) (v : Launch) : (s.setLaunch l v).dom = s.dom := rfl
@[simp] theorem State.setLaunch_cmds (s : State) (l : Nat) (v : Launch) : (s.setLaunch l v).cmds = s.cmds := rfl
@[simp] theorem State.setLaunch_swr (s : State) (l : Nat) (v : Launch) : (s.setLaunch l v).swr = s.swr := rfl
@[simp] theorem State.setLaunch_cmbSlots (s : State) (l : Nat) (v : Launch) : (s.setLaunch l v).cmbSlots = s.cmbSlots := rfl
@[simp] theorem State.setLaunch_arrivals (s : State) (l : Nat) (v : Launch) : (s.setLaunch l v).arrivals = s.arrivals := rfl
@[simp] theorem State.setLaunch_ctrHomes (s : State) (l : Nat) (v : Launch) : (s.setLaunch l v).ctrHomes = s.ctrHomes := rfl
@[simp] theorem State.setLaunch_walkq (s : State) (l : Nat) (v : Launch) : (s.setLaunch l v).walkq = s.walkq := rfl
@[simp] theorem State.setLaunch_engWaits (s : State) (l : Nat) (v : Launch) : (s.setLaunch l v).engWaits = s.engWaits := rfl
@[simp] theorem State.setLaunch_queues (s : State) (l : Nat) (v : Launch) : (s.setLaunch l v).queues = s.queues := rfl
@[simp] theorem State.setLaunch_blocks (s : State) (l : Nat) (v : Launch) : (s.setLaunch l v).blocks = s.blocks := rfl
@[simp] theorem State.setLaunch_rr (s : State) (l : Nat) (v : Launch) : (s.setLaunch l v).rr = s.rr := rfl
@[simp] theorem State.setLaunch_parts (s : State) (l : Nat) (v : Launch) : (s.setLaunch l v).parts = s.parts := rfl
@[simp] theorem State.setLaunch_asids (s : State) (l : Nat) (v : Launch) : (s.setLaunch l v).asids = s.asids := rfl
@[simp] theorem State.setLaunch_traps (s : State) (l : Nat) (v : Launch) : (s.setLaunch l v).traps = s.traps := rfl
@[simp] theorem State.setLaunch_err (s : State) (l : Nat) (v : Launch) : (s.setLaunch l v).err = s.err := rfl
@[simp] theorem State.setLaunch_prot (s : State) (l : Nat) (v : Launch) : (s.setLaunch l v).prot = s.prot := rfl
@[simp] theorem State.setLaunch_pools (s : State) (l : Nat) (v : Launch) : (s.setLaunch l v).pools = s.pools := rfl
@[simp] theorem State.setLaunch_msix (s : State) (l : Nat) (v : Launch) : (s.setLaunch l v).msix = s.msix := rfl
@[simp] theorem State.setLaunch_irqs (s : State) (l : Nat) (v : Launch) : (s.setLaunch l v).irqs = s.irqs := rfl
@[simp] theorem State.setLaunch_rdata (s : State) (l : Nat) (v : Launch) : (s.setLaunch l v).rdata = s.rdata := rfl
@[simp] theorem State.setLaunch_sent (s : State) (l : Nat) (v : Launch) : (s.setLaunch l v).sent = s.sent := rfl
@[simp] theorem State.setLaunch_outReqs (s : State) (l : Nat) (v : Launch) : (s.setLaunch l v).outReqs = s.outReqs := rfl
@[simp] theorem State.setLaunch_sweep (s : State) (l : Nat) (v : Launch) : (s.setLaunch l v).sweep = s.sweep := rfl
@[simp] theorem State.setLaunch_lastRec (s : State) (l : Nat) (v : Launch) : (s.setLaunch l v).lastRec = s.lastRec := rfl
@[simp] theorem State.setLaunch_fw (s : State) (l : Nat) (v : Launch) : (s.setLaunch l v).fw = s.fw := rfl
@[simp] theorem State.setLaunch_svc (s : State) (l : Nat) (v : Launch) : (s.setLaunch l v).svc = s.svc := rfl
@[simp] theorem State.setLaunch_pwr (s : State) (l : Nat) (v : Launch) : (s.setLaunch l v).pwr = s.pwr := rfl

/-! `State.updLaunch` -/

@[simp] theorem State.updLaunch_cur (s : State) (l : Nat) (f : Launch → Launch) : (s.updLaunch l f).cur = s.cur := rfl
@[simp] theorem State.updLaunch_agenda (s : State) (l : Nat) (f : Launch → Launch) : (s.updLaunch l f).agenda = s.agenda := rfl
@[simp] theorem State.updLaunch_nextId (s : State) (l : Nat) (f : Launch → Launch) : (s.updLaunch l f).nextId = s.nextId := rfl
@[simp] theorem State.updLaunch_now (s : State) (l : Nat) (f : Launch → Launch) : (s.updLaunch l f).now = s.now := rfl
@[simp] theorem State.updLaunch_mem (s : State) (l : Nat) (f : Launch → Launch) : (s.updLaunch l f).mem = s.mem := rfl
@[simp] theorem State.updLaunch_badChk (s : State) (l : Nat) (f : Launch → Launch) : (s.updLaunch l f).badChk = s.badChk := rfl
@[simp] theorem State.updLaunch_poison (s : State) (l : Nat) (f : Launch → Launch) : (s.updLaunch l f).poison = s.poison := rfl
@[simp] theorem State.updLaunch_crews (s : State) (l : Nat) (f : Launch → Launch) : (s.updLaunch l f).crews = s.crews := rfl
@[simp] theorem State.updLaunch_gangs (s : State) (l : Nat) (f : Launch → Launch) : (s.updLaunch l f).gangs = s.gangs := rfl
@[simp] theorem State.updLaunch_cores (s : State) (l : Nat) (f : Launch → Launch) : (s.updLaunch l f).cores = s.cores := rfl
@[simp] theorem State.updLaunch_clusters (s : State) (l : Nat) (f : Launch → Launch) : (s.updLaunch l f).clusters = s.clusters := rfl
@[simp] theorem State.updLaunch_net (s : State) (l : Nat) (f : Launch → Launch) : (s.updLaunch l f).net = s.net := rfl
@[simp] theorem State.updLaunch_combs (s : State) (l : Nat) (f : Launch → Launch) : (s.updLaunch l f).combs = s.combs := rfl
@[simp] theorem State.updLaunch_chans (s : State) (l : Nat) (f : Launch → Launch) : (s.updLaunch l f).chans = s.chans := rfl
@[simp] theorem State.updLaunch_homes (s : State) (l : Nat) (f : Launch → Launch) : (s.updLaunch l f).homes = s.homes := rfl
@[simp] theorem State.updLaunch_slices (s : State) (l : Nat) (f : Launch → Launch) : (s.updLaunch l f).slices = s.slices := rfl
@[simp] theorem State.updLaunch_bridges (s : State) (l : Nat) (f : Launch → Launch) : (s.updLaunch l f).bridges = s.bridges := rfl
@[simp] theorem State.updLaunch_dom (s : State) (l : Nat) (f : Launch → Launch) : (s.updLaunch l f).dom = s.dom := rfl
@[simp] theorem State.updLaunch_cmds (s : State) (l : Nat) (f : Launch → Launch) : (s.updLaunch l f).cmds = s.cmds := rfl
@[simp] theorem State.updLaunch_swr (s : State) (l : Nat) (f : Launch → Launch) : (s.updLaunch l f).swr = s.swr := rfl
@[simp] theorem State.updLaunch_cmbSlots (s : State) (l : Nat) (f : Launch → Launch) : (s.updLaunch l f).cmbSlots = s.cmbSlots := rfl
@[simp] theorem State.updLaunch_arrivals (s : State) (l : Nat) (f : Launch → Launch) : (s.updLaunch l f).arrivals = s.arrivals := rfl
@[simp] theorem State.updLaunch_ctrHomes (s : State) (l : Nat) (f : Launch → Launch) : (s.updLaunch l f).ctrHomes = s.ctrHomes := rfl
@[simp] theorem State.updLaunch_walkq (s : State) (l : Nat) (f : Launch → Launch) : (s.updLaunch l f).walkq = s.walkq := rfl
@[simp] theorem State.updLaunch_engWaits (s : State) (l : Nat) (f : Launch → Launch) : (s.updLaunch l f).engWaits = s.engWaits := rfl
@[simp] theorem State.updLaunch_queues (s : State) (l : Nat) (f : Launch → Launch) : (s.updLaunch l f).queues = s.queues := rfl
@[simp] theorem State.updLaunch_blocks (s : State) (l : Nat) (f : Launch → Launch) : (s.updLaunch l f).blocks = s.blocks := rfl
@[simp] theorem State.updLaunch_rr (s : State) (l : Nat) (f : Launch → Launch) : (s.updLaunch l f).rr = s.rr := rfl
@[simp] theorem State.updLaunch_parts (s : State) (l : Nat) (f : Launch → Launch) : (s.updLaunch l f).parts = s.parts := rfl
@[simp] theorem State.updLaunch_asids (s : State) (l : Nat) (f : Launch → Launch) : (s.updLaunch l f).asids = s.asids := rfl
@[simp] theorem State.updLaunch_traps (s : State) (l : Nat) (f : Launch → Launch) : (s.updLaunch l f).traps = s.traps := rfl
@[simp] theorem State.updLaunch_err (s : State) (l : Nat) (f : Launch → Launch) : (s.updLaunch l f).err = s.err := rfl
@[simp] theorem State.updLaunch_prot (s : State) (l : Nat) (f : Launch → Launch) : (s.updLaunch l f).prot = s.prot := rfl
@[simp] theorem State.updLaunch_pools (s : State) (l : Nat) (f : Launch → Launch) : (s.updLaunch l f).pools = s.pools := rfl
@[simp] theorem State.updLaunch_msix (s : State) (l : Nat) (f : Launch → Launch) : (s.updLaunch l f).msix = s.msix := rfl
@[simp] theorem State.updLaunch_irqs (s : State) (l : Nat) (f : Launch → Launch) : (s.updLaunch l f).irqs = s.irqs := rfl
@[simp] theorem State.updLaunch_rdata (s : State) (l : Nat) (f : Launch → Launch) : (s.updLaunch l f).rdata = s.rdata := rfl
@[simp] theorem State.updLaunch_sent (s : State) (l : Nat) (f : Launch → Launch) : (s.updLaunch l f).sent = s.sent := rfl
@[simp] theorem State.updLaunch_outReqs (s : State) (l : Nat) (f : Launch → Launch) : (s.updLaunch l f).outReqs = s.outReqs := rfl
@[simp] theorem State.updLaunch_sweep (s : State) (l : Nat) (f : Launch → Launch) : (s.updLaunch l f).sweep = s.sweep := rfl
@[simp] theorem State.updLaunch_lastRec (s : State) (l : Nat) (f : Launch → Launch) : (s.updLaunch l f).lastRec = s.lastRec := rfl
@[simp] theorem State.updLaunch_fw (s : State) (l : Nat) (f : Launch → Launch) : (s.updLaunch l f).fw = s.fw := rfl
@[simp] theorem State.updLaunch_svc (s : State) (l : Nat) (f : Launch → Launch) : (s.updLaunch l f).svc = s.svc := rfl
@[simp] theorem State.updLaunch_pwr (s : State) (l : Nat) (f : Launch → Launch) : (s.updLaunch l f).pwr = s.pwr := rfl

/-! `State.setChan` -/

@[simp] theorem State.setChan_cur (s : State) (k : Nat) (v : Chan) : (s.setChan k v).cur = s.cur := rfl
@[simp] theorem State.setChan_agenda (s : State) (k : Nat) (v : Chan) : (s.setChan k v).agenda = s.agenda := rfl
@[simp] theorem State.setChan_nextId (s : State) (k : Nat) (v : Chan) : (s.setChan k v).nextId = s.nextId := rfl
@[simp] theorem State.setChan_now (s : State) (k : Nat) (v : Chan) : (s.setChan k v).now = s.now := rfl
@[simp] theorem State.setChan_mem (s : State) (k : Nat) (v : Chan) : (s.setChan k v).mem = s.mem := rfl
@[simp] theorem State.setChan_badChk (s : State) (k : Nat) (v : Chan) : (s.setChan k v).badChk = s.badChk := rfl
@[simp] theorem State.setChan_poison (s : State) (k : Nat) (v : Chan) : (s.setChan k v).poison = s.poison := rfl
@[simp] theorem State.setChan_crews (s : State) (k : Nat) (v : Chan) : (s.setChan k v).crews = s.crews := rfl
@[simp] theorem State.setChan_gangs (s : State) (k : Nat) (v : Chan) : (s.setChan k v).gangs = s.gangs := rfl
@[simp] theorem State.setChan_cores (s : State) (k : Nat) (v : Chan) : (s.setChan k v).cores = s.cores := rfl
@[simp] theorem State.setChan_clusters (s : State) (k : Nat) (v : Chan) : (s.setChan k v).clusters = s.clusters := rfl
@[simp] theorem State.setChan_net (s : State) (k : Nat) (v : Chan) : (s.setChan k v).net = s.net := rfl
@[simp] theorem State.setChan_combs (s : State) (k : Nat) (v : Chan) : (s.setChan k v).combs = s.combs := rfl
@[simp] theorem State.setChan_homes (s : State) (k : Nat) (v : Chan) : (s.setChan k v).homes = s.homes := rfl
@[simp] theorem State.setChan_slices (s : State) (k : Nat) (v : Chan) : (s.setChan k v).slices = s.slices := rfl
@[simp] theorem State.setChan_bridges (s : State) (k : Nat) (v : Chan) : (s.setChan k v).bridges = s.bridges := rfl
@[simp] theorem State.setChan_dom (s : State) (k : Nat) (v : Chan) : (s.setChan k v).dom = s.dom := rfl
@[simp] theorem State.setChan_cmds (s : State) (k : Nat) (v : Chan) : (s.setChan k v).cmds = s.cmds := rfl
@[simp] theorem State.setChan_swr (s : State) (k : Nat) (v : Chan) : (s.setChan k v).swr = s.swr := rfl
@[simp] theorem State.setChan_cmbSlots (s : State) (k : Nat) (v : Chan) : (s.setChan k v).cmbSlots = s.cmbSlots := rfl
@[simp] theorem State.setChan_arrivals (s : State) (k : Nat) (v : Chan) : (s.setChan k v).arrivals = s.arrivals := rfl
@[simp] theorem State.setChan_ctrHomes (s : State) (k : Nat) (v : Chan) : (s.setChan k v).ctrHomes = s.ctrHomes := rfl
@[simp] theorem State.setChan_walkq (s : State) (k : Nat) (v : Chan) : (s.setChan k v).walkq = s.walkq := rfl
@[simp] theorem State.setChan_engWaits (s : State) (k : Nat) (v : Chan) : (s.setChan k v).engWaits = s.engWaits := rfl
@[simp] theorem State.setChan_queues (s : State) (k : Nat) (v : Chan) : (s.setChan k v).queues = s.queues := rfl
@[simp] theorem State.setChan_launches (s : State) (k : Nat) (v : Chan) : (s.setChan k v).launches = s.launches := rfl
@[simp] theorem State.setChan_blocks (s : State) (k : Nat) (v : Chan) : (s.setChan k v).blocks = s.blocks := rfl
@[simp] theorem State.setChan_rr (s : State) (k : Nat) (v : Chan) : (s.setChan k v).rr = s.rr := rfl
@[simp] theorem State.setChan_parts (s : State) (k : Nat) (v : Chan) : (s.setChan k v).parts = s.parts := rfl
@[simp] theorem State.setChan_asids (s : State) (k : Nat) (v : Chan) : (s.setChan k v).asids = s.asids := rfl
@[simp] theorem State.setChan_traps (s : State) (k : Nat) (v : Chan) : (s.setChan k v).traps = s.traps := rfl
@[simp] theorem State.setChan_err (s : State) (k : Nat) (v : Chan) : (s.setChan k v).err = s.err := rfl
@[simp] theorem State.setChan_prot (s : State) (k : Nat) (v : Chan) : (s.setChan k v).prot = s.prot := rfl
@[simp] theorem State.setChan_pools (s : State) (k : Nat) (v : Chan) : (s.setChan k v).pools = s.pools := rfl
@[simp] theorem State.setChan_msix (s : State) (k : Nat) (v : Chan) : (s.setChan k v).msix = s.msix := rfl
@[simp] theorem State.setChan_irqs (s : State) (k : Nat) (v : Chan) : (s.setChan k v).irqs = s.irqs := rfl
@[simp] theorem State.setChan_rdata (s : State) (k : Nat) (v : Chan) : (s.setChan k v).rdata = s.rdata := rfl
@[simp] theorem State.setChan_sent (s : State) (k : Nat) (v : Chan) : (s.setChan k v).sent = s.sent := rfl
@[simp] theorem State.setChan_outReqs (s : State) (k : Nat) (v : Chan) : (s.setChan k v).outReqs = s.outReqs := rfl
@[simp] theorem State.setChan_sweep (s : State) (k : Nat) (v : Chan) : (s.setChan k v).sweep = s.sweep := rfl
@[simp] theorem State.setChan_lastRec (s : State) (k : Nat) (v : Chan) : (s.setChan k v).lastRec = s.lastRec := rfl
@[simp] theorem State.setChan_fw (s : State) (k : Nat) (v : Chan) : (s.setChan k v).fw = s.fw := rfl
@[simp] theorem State.setChan_svc (s : State) (k : Nat) (v : Chan) : (s.setChan k v).svc = s.svc := rfl
@[simp] theorem State.setChan_pwr (s : State) (k : Nat) (v : Chan) : (s.setChan k v).pwr = s.pwr := rfl

/-! `State.setCtrHome` -/

@[simp] theorem State.setCtrHome_cur (s : State) (o : Nat) (v : CtrHome) : (s.setCtrHome o v).cur = s.cur := rfl
@[simp] theorem State.setCtrHome_agenda (s : State) (o : Nat) (v : CtrHome) : (s.setCtrHome o v).agenda = s.agenda := rfl
@[simp] theorem State.setCtrHome_nextId (s : State) (o : Nat) (v : CtrHome) : (s.setCtrHome o v).nextId = s.nextId := rfl
@[simp] theorem State.setCtrHome_now (s : State) (o : Nat) (v : CtrHome) : (s.setCtrHome o v).now = s.now := rfl
@[simp] theorem State.setCtrHome_mem (s : State) (o : Nat) (v : CtrHome) : (s.setCtrHome o v).mem = s.mem := rfl
@[simp] theorem State.setCtrHome_badChk (s : State) (o : Nat) (v : CtrHome) : (s.setCtrHome o v).badChk = s.badChk := rfl
@[simp] theorem State.setCtrHome_poison (s : State) (o : Nat) (v : CtrHome) : (s.setCtrHome o v).poison = s.poison := rfl
@[simp] theorem State.setCtrHome_crews (s : State) (o : Nat) (v : CtrHome) : (s.setCtrHome o v).crews = s.crews := rfl
@[simp] theorem State.setCtrHome_gangs (s : State) (o : Nat) (v : CtrHome) : (s.setCtrHome o v).gangs = s.gangs := rfl
@[simp] theorem State.setCtrHome_cores (s : State) (o : Nat) (v : CtrHome) : (s.setCtrHome o v).cores = s.cores := rfl
@[simp] theorem State.setCtrHome_clusters (s : State) (o : Nat) (v : CtrHome) : (s.setCtrHome o v).clusters = s.clusters := rfl
@[simp] theorem State.setCtrHome_net (s : State) (o : Nat) (v : CtrHome) : (s.setCtrHome o v).net = s.net := rfl
@[simp] theorem State.setCtrHome_combs (s : State) (o : Nat) (v : CtrHome) : (s.setCtrHome o v).combs = s.combs := rfl
@[simp] theorem State.setCtrHome_chans (s : State) (o : Nat) (v : CtrHome) : (s.setCtrHome o v).chans = s.chans := rfl
@[simp] theorem State.setCtrHome_homes (s : State) (o : Nat) (v : CtrHome) : (s.setCtrHome o v).homes = s.homes := rfl
@[simp] theorem State.setCtrHome_slices (s : State) (o : Nat) (v : CtrHome) : (s.setCtrHome o v).slices = s.slices := rfl
@[simp] theorem State.setCtrHome_bridges (s : State) (o : Nat) (v : CtrHome) : (s.setCtrHome o v).bridges = s.bridges := rfl
@[simp] theorem State.setCtrHome_dom (s : State) (o : Nat) (v : CtrHome) : (s.setCtrHome o v).dom = s.dom := rfl
@[simp] theorem State.setCtrHome_cmds (s : State) (o : Nat) (v : CtrHome) : (s.setCtrHome o v).cmds = s.cmds := rfl
@[simp] theorem State.setCtrHome_swr (s : State) (o : Nat) (v : CtrHome) : (s.setCtrHome o v).swr = s.swr := rfl
@[simp] theorem State.setCtrHome_cmbSlots (s : State) (o : Nat) (v : CtrHome) : (s.setCtrHome o v).cmbSlots = s.cmbSlots := rfl
@[simp] theorem State.setCtrHome_arrivals (s : State) (o : Nat) (v : CtrHome) : (s.setCtrHome o v).arrivals = s.arrivals := rfl
@[simp] theorem State.setCtrHome_walkq (s : State) (o : Nat) (v : CtrHome) : (s.setCtrHome o v).walkq = s.walkq := rfl
@[simp] theorem State.setCtrHome_engWaits (s : State) (o : Nat) (v : CtrHome) : (s.setCtrHome o v).engWaits = s.engWaits := rfl
@[simp] theorem State.setCtrHome_queues (s : State) (o : Nat) (v : CtrHome) : (s.setCtrHome o v).queues = s.queues := rfl
@[simp] theorem State.setCtrHome_launches (s : State) (o : Nat) (v : CtrHome) : (s.setCtrHome o v).launches = s.launches := rfl
@[simp] theorem State.setCtrHome_blocks (s : State) (o : Nat) (v : CtrHome) : (s.setCtrHome o v).blocks = s.blocks := rfl
@[simp] theorem State.setCtrHome_rr (s : State) (o : Nat) (v : CtrHome) : (s.setCtrHome o v).rr = s.rr := rfl
@[simp] theorem State.setCtrHome_parts (s : State) (o : Nat) (v : CtrHome) : (s.setCtrHome o v).parts = s.parts := rfl
@[simp] theorem State.setCtrHome_asids (s : State) (o : Nat) (v : CtrHome) : (s.setCtrHome o v).asids = s.asids := rfl
@[simp] theorem State.setCtrHome_traps (s : State) (o : Nat) (v : CtrHome) : (s.setCtrHome o v).traps = s.traps := rfl
@[simp] theorem State.setCtrHome_err (s : State) (o : Nat) (v : CtrHome) : (s.setCtrHome o v).err = s.err := rfl
@[simp] theorem State.setCtrHome_prot (s : State) (o : Nat) (v : CtrHome) : (s.setCtrHome o v).prot = s.prot := rfl
@[simp] theorem State.setCtrHome_pools (s : State) (o : Nat) (v : CtrHome) : (s.setCtrHome o v).pools = s.pools := rfl
@[simp] theorem State.setCtrHome_msix (s : State) (o : Nat) (v : CtrHome) : (s.setCtrHome o v).msix = s.msix := rfl
@[simp] theorem State.setCtrHome_irqs (s : State) (o : Nat) (v : CtrHome) : (s.setCtrHome o v).irqs = s.irqs := rfl
@[simp] theorem State.setCtrHome_rdata (s : State) (o : Nat) (v : CtrHome) : (s.setCtrHome o v).rdata = s.rdata := rfl
@[simp] theorem State.setCtrHome_sent (s : State) (o : Nat) (v : CtrHome) : (s.setCtrHome o v).sent = s.sent := rfl
@[simp] theorem State.setCtrHome_outReqs (s : State) (o : Nat) (v : CtrHome) : (s.setCtrHome o v).outReqs = s.outReqs := rfl
@[simp] theorem State.setCtrHome_sweep (s : State) (o : Nat) (v : CtrHome) : (s.setCtrHome o v).sweep = s.sweep := rfl
@[simp] theorem State.setCtrHome_lastRec (s : State) (o : Nat) (v : CtrHome) : (s.setCtrHome o v).lastRec = s.lastRec := rfl
@[simp] theorem State.setCtrHome_fw (s : State) (o : Nat) (v : CtrHome) : (s.setCtrHome o v).fw = s.fw := rfl
@[simp] theorem State.setCtrHome_svc (s : State) (o : Nat) (v : CtrHome) : (s.setCtrHome o v).svc = s.svc := rfl
@[simp] theorem State.setCtrHome_pwr (s : State) (o : Nat) (v : CtrHome) : (s.setCtrHome o v).pwr = s.pwr := rfl

/-! `State.setHome` -/

@[simp] theorem State.setHome_cur (s : State) (h : Nat) (v : Home) : (s.setHome h v).cur = s.cur := rfl
@[simp] theorem State.setHome_agenda (s : State) (h : Nat) (v : Home) : (s.setHome h v).agenda = s.agenda := rfl
@[simp] theorem State.setHome_nextId (s : State) (h : Nat) (v : Home) : (s.setHome h v).nextId = s.nextId := rfl
@[simp] theorem State.setHome_now (s : State) (h : Nat) (v : Home) : (s.setHome h v).now = s.now := rfl
@[simp] theorem State.setHome_mem (s : State) (h : Nat) (v : Home) : (s.setHome h v).mem = s.mem := rfl
@[simp] theorem State.setHome_badChk (s : State) (h : Nat) (v : Home) : (s.setHome h v).badChk = s.badChk := rfl
@[simp] theorem State.setHome_poison (s : State) (h : Nat) (v : Home) : (s.setHome h v).poison = s.poison := rfl
@[simp] theorem State.setHome_crews (s : State) (h : Nat) (v : Home) : (s.setHome h v).crews = s.crews := rfl
@[simp] theorem State.setHome_gangs (s : State) (h : Nat) (v : Home) : (s.setHome h v).gangs = s.gangs := rfl
@[simp] theorem State.setHome_cores (s : State) (h : Nat) (v : Home) : (s.setHome h v).cores = s.cores := rfl
@[simp] theorem State.setHome_clusters (s : State) (h : Nat) (v : Home) : (s.setHome h v).clusters = s.clusters := rfl
@[simp] theorem State.setHome_net (s : State) (h : Nat) (v : Home) : (s.setHome h v).net = s.net := rfl
@[simp] theorem State.setHome_combs (s : State) (h : Nat) (v : Home) : (s.setHome h v).combs = s.combs := rfl
@[simp] theorem State.setHome_chans (s : State) (h : Nat) (v : Home) : (s.setHome h v).chans = s.chans := rfl
@[simp] theorem State.setHome_slices (s : State) (h : Nat) (v : Home) : (s.setHome h v).slices = s.slices := rfl
@[simp] theorem State.setHome_bridges (s : State) (h : Nat) (v : Home) : (s.setHome h v).bridges = s.bridges := rfl
@[simp] theorem State.setHome_dom (s : State) (h : Nat) (v : Home) : (s.setHome h v).dom = s.dom := rfl
@[simp] theorem State.setHome_cmds (s : State) (h : Nat) (v : Home) : (s.setHome h v).cmds = s.cmds := rfl
@[simp] theorem State.setHome_swr (s : State) (h : Nat) (v : Home) : (s.setHome h v).swr = s.swr := rfl
@[simp] theorem State.setHome_cmbSlots (s : State) (h : Nat) (v : Home) : (s.setHome h v).cmbSlots = s.cmbSlots := rfl
@[simp] theorem State.setHome_arrivals (s : State) (h : Nat) (v : Home) : (s.setHome h v).arrivals = s.arrivals := rfl
@[simp] theorem State.setHome_ctrHomes (s : State) (h : Nat) (v : Home) : (s.setHome h v).ctrHomes = s.ctrHomes := rfl
@[simp] theorem State.setHome_walkq (s : State) (h : Nat) (v : Home) : (s.setHome h v).walkq = s.walkq := rfl
@[simp] theorem State.setHome_engWaits (s : State) (h : Nat) (v : Home) : (s.setHome h v).engWaits = s.engWaits := rfl
@[simp] theorem State.setHome_queues (s : State) (h : Nat) (v : Home) : (s.setHome h v).queues = s.queues := rfl
@[simp] theorem State.setHome_launches (s : State) (h : Nat) (v : Home) : (s.setHome h v).launches = s.launches := rfl
@[simp] theorem State.setHome_blocks (s : State) (h : Nat) (v : Home) : (s.setHome h v).blocks = s.blocks := rfl
@[simp] theorem State.setHome_rr (s : State) (h : Nat) (v : Home) : (s.setHome h v).rr = s.rr := rfl
@[simp] theorem State.setHome_parts (s : State) (h : Nat) (v : Home) : (s.setHome h v).parts = s.parts := rfl
@[simp] theorem State.setHome_asids (s : State) (h : Nat) (v : Home) : (s.setHome h v).asids = s.asids := rfl
@[simp] theorem State.setHome_traps (s : State) (h : Nat) (v : Home) : (s.setHome h v).traps = s.traps := rfl
@[simp] theorem State.setHome_err (s : State) (h : Nat) (v : Home) : (s.setHome h v).err = s.err := rfl
@[simp] theorem State.setHome_prot (s : State) (h : Nat) (v : Home) : (s.setHome h v).prot = s.prot := rfl
@[simp] theorem State.setHome_pools (s : State) (h : Nat) (v : Home) : (s.setHome h v).pools = s.pools := rfl
@[simp] theorem State.setHome_msix (s : State) (h : Nat) (v : Home) : (s.setHome h v).msix = s.msix := rfl
@[simp] theorem State.setHome_irqs (s : State) (h : Nat) (v : Home) : (s.setHome h v).irqs = s.irqs := rfl
@[simp] theorem State.setHome_rdata (s : State) (h : Nat) (v : Home) : (s.setHome h v).rdata = s.rdata := rfl
@[simp] theorem State.setHome_sent (s : State) (h : Nat) (v : Home) : (s.setHome h v).sent = s.sent := rfl
@[simp] theorem State.setHome_outReqs (s : State) (h : Nat) (v : Home) : (s.setHome h v).outReqs = s.outReqs := rfl
@[simp] theorem State.setHome_sweep (s : State) (h : Nat) (v : Home) : (s.setHome h v).sweep = s.sweep := rfl
@[simp] theorem State.setHome_lastRec (s : State) (h : Nat) (v : Home) : (s.setHome h v).lastRec = s.lastRec := rfl
@[simp] theorem State.setHome_fw (s : State) (h : Nat) (v : Home) : (s.setHome h v).fw = s.fw := rfl
@[simp] theorem State.setHome_svc (s : State) (h : Nat) (v : Home) : (s.setHome h v).svc = s.svc := rfl
@[simp] theorem State.setHome_pwr (s : State) (h : Nat) (v : Home) : (s.setHome h v).pwr = s.pwr := rfl

/-! `State.setBridge` -/

@[simp] theorem State.setBridge_cur (s : State) (k : Nat) (v : Bridge) : (s.setBridge k v).cur = s.cur := rfl
@[simp] theorem State.setBridge_agenda (s : State) (k : Nat) (v : Bridge) : (s.setBridge k v).agenda = s.agenda := rfl
@[simp] theorem State.setBridge_nextId (s : State) (k : Nat) (v : Bridge) : (s.setBridge k v).nextId = s.nextId := rfl
@[simp] theorem State.setBridge_now (s : State) (k : Nat) (v : Bridge) : (s.setBridge k v).now = s.now := rfl
@[simp] theorem State.setBridge_mem (s : State) (k : Nat) (v : Bridge) : (s.setBridge k v).mem = s.mem := rfl
@[simp] theorem State.setBridge_badChk (s : State) (k : Nat) (v : Bridge) : (s.setBridge k v).badChk = s.badChk := rfl
@[simp] theorem State.setBridge_poison (s : State) (k : Nat) (v : Bridge) : (s.setBridge k v).poison = s.poison := rfl
@[simp] theorem State.setBridge_crews (s : State) (k : Nat) (v : Bridge) : (s.setBridge k v).crews = s.crews := rfl
@[simp] theorem State.setBridge_gangs (s : State) (k : Nat) (v : Bridge) : (s.setBridge k v).gangs = s.gangs := rfl
@[simp] theorem State.setBridge_cores (s : State) (k : Nat) (v : Bridge) : (s.setBridge k v).cores = s.cores := rfl
@[simp] theorem State.setBridge_clusters (s : State) (k : Nat) (v : Bridge) : (s.setBridge k v).clusters = s.clusters := rfl
@[simp] theorem State.setBridge_net (s : State) (k : Nat) (v : Bridge) : (s.setBridge k v).net = s.net := rfl
@[simp] theorem State.setBridge_combs (s : State) (k : Nat) (v : Bridge) : (s.setBridge k v).combs = s.combs := rfl
@[simp] theorem State.setBridge_chans (s : State) (k : Nat) (v : Bridge) : (s.setBridge k v).chans = s.chans := rfl
@[simp] theorem State.setBridge_homes (s : State) (k : Nat) (v : Bridge) : (s.setBridge k v).homes = s.homes := rfl
@[simp] theorem State.setBridge_slices (s : State) (k : Nat) (v : Bridge) : (s.setBridge k v).slices = s.slices := rfl
@[simp] theorem State.setBridge_dom (s : State) (k : Nat) (v : Bridge) : (s.setBridge k v).dom = s.dom := rfl
@[simp] theorem State.setBridge_cmds (s : State) (k : Nat) (v : Bridge) : (s.setBridge k v).cmds = s.cmds := rfl
@[simp] theorem State.setBridge_swr (s : State) (k : Nat) (v : Bridge) : (s.setBridge k v).swr = s.swr := rfl
@[simp] theorem State.setBridge_cmbSlots (s : State) (k : Nat) (v : Bridge) : (s.setBridge k v).cmbSlots = s.cmbSlots := rfl
@[simp] theorem State.setBridge_arrivals (s : State) (k : Nat) (v : Bridge) : (s.setBridge k v).arrivals = s.arrivals := rfl
@[simp] theorem State.setBridge_ctrHomes (s : State) (k : Nat) (v : Bridge) : (s.setBridge k v).ctrHomes = s.ctrHomes := rfl
@[simp] theorem State.setBridge_walkq (s : State) (k : Nat) (v : Bridge) : (s.setBridge k v).walkq = s.walkq := rfl
@[simp] theorem State.setBridge_engWaits (s : State) (k : Nat) (v : Bridge) : (s.setBridge k v).engWaits = s.engWaits := rfl
@[simp] theorem State.setBridge_queues (s : State) (k : Nat) (v : Bridge) : (s.setBridge k v).queues = s.queues := rfl
@[simp] theorem State.setBridge_launches (s : State) (k : Nat) (v : Bridge) : (s.setBridge k v).launches = s.launches := rfl
@[simp] theorem State.setBridge_blocks (s : State) (k : Nat) (v : Bridge) : (s.setBridge k v).blocks = s.blocks := rfl
@[simp] theorem State.setBridge_rr (s : State) (k : Nat) (v : Bridge) : (s.setBridge k v).rr = s.rr := rfl
@[simp] theorem State.setBridge_parts (s : State) (k : Nat) (v : Bridge) : (s.setBridge k v).parts = s.parts := rfl
@[simp] theorem State.setBridge_asids (s : State) (k : Nat) (v : Bridge) : (s.setBridge k v).asids = s.asids := rfl
@[simp] theorem State.setBridge_traps (s : State) (k : Nat) (v : Bridge) : (s.setBridge k v).traps = s.traps := rfl
@[simp] theorem State.setBridge_err (s : State) (k : Nat) (v : Bridge) : (s.setBridge k v).err = s.err := rfl
@[simp] theorem State.setBridge_prot (s : State) (k : Nat) (v : Bridge) : (s.setBridge k v).prot = s.prot := rfl
@[simp] theorem State.setBridge_pools (s : State) (k : Nat) (v : Bridge) : (s.setBridge k v).pools = s.pools := rfl
@[simp] theorem State.setBridge_msix (s : State) (k : Nat) (v : Bridge) : (s.setBridge k v).msix = s.msix := rfl
@[simp] theorem State.setBridge_irqs (s : State) (k : Nat) (v : Bridge) : (s.setBridge k v).irqs = s.irqs := rfl
@[simp] theorem State.setBridge_rdata (s : State) (k : Nat) (v : Bridge) : (s.setBridge k v).rdata = s.rdata := rfl
@[simp] theorem State.setBridge_sent (s : State) (k : Nat) (v : Bridge) : (s.setBridge k v).sent = s.sent := rfl
@[simp] theorem State.setBridge_outReqs (s : State) (k : Nat) (v : Bridge) : (s.setBridge k v).outReqs = s.outReqs := rfl
@[simp] theorem State.setBridge_sweep (s : State) (k : Nat) (v : Bridge) : (s.setBridge k v).sweep = s.sweep := rfl
@[simp] theorem State.setBridge_lastRec (s : State) (k : Nat) (v : Bridge) : (s.setBridge k v).lastRec = s.lastRec := rfl
@[simp] theorem State.setBridge_fw (s : State) (k : Nat) (v : Bridge) : (s.setBridge k v).fw = s.fw := rfl
@[simp] theorem State.setBridge_svc (s : State) (k : Nat) (v : Bridge) : (s.setBridge k v).svc = s.svc := rfl
@[simp] theorem State.setBridge_pwr (s : State) (k : Nat) (v : Bridge) : (s.setBridge k v).pwr = s.pwr := rfl

/-! `State.raiseIrq` -/

@[simp] theorem State.raiseIrq_cur (s : State) (v : Nat) : (s.raiseIrq v).cur = s.cur := rfl
@[simp] theorem State.raiseIrq_agenda (s : State) (v : Nat) : (s.raiseIrq v).agenda = s.agenda := rfl
@[simp] theorem State.raiseIrq_nextId (s : State) (v : Nat) : (s.raiseIrq v).nextId = s.nextId := rfl
@[simp] theorem State.raiseIrq_now (s : State) (v : Nat) : (s.raiseIrq v).now = s.now := rfl
@[simp] theorem State.raiseIrq_mem (s : State) (v : Nat) : (s.raiseIrq v).mem = s.mem := rfl
@[simp] theorem State.raiseIrq_badChk (s : State) (v : Nat) : (s.raiseIrq v).badChk = s.badChk := rfl
@[simp] theorem State.raiseIrq_poison (s : State) (v : Nat) : (s.raiseIrq v).poison = s.poison := rfl
@[simp] theorem State.raiseIrq_crews (s : State) (v : Nat) : (s.raiseIrq v).crews = s.crews := rfl
@[simp] theorem State.raiseIrq_gangs (s : State) (v : Nat) : (s.raiseIrq v).gangs = s.gangs := rfl
@[simp] theorem State.raiseIrq_cores (s : State) (v : Nat) : (s.raiseIrq v).cores = s.cores := rfl
@[simp] theorem State.raiseIrq_clusters (s : State) (v : Nat) : (s.raiseIrq v).clusters = s.clusters := rfl
@[simp] theorem State.raiseIrq_net (s : State) (v : Nat) : (s.raiseIrq v).net = s.net := rfl
@[simp] theorem State.raiseIrq_combs (s : State) (v : Nat) : (s.raiseIrq v).combs = s.combs := rfl
@[simp] theorem State.raiseIrq_chans (s : State) (v : Nat) : (s.raiseIrq v).chans = s.chans := rfl
@[simp] theorem State.raiseIrq_homes (s : State) (v : Nat) : (s.raiseIrq v).homes = s.homes := rfl
@[simp] theorem State.raiseIrq_slices (s : State) (v : Nat) : (s.raiseIrq v).slices = s.slices := rfl
@[simp] theorem State.raiseIrq_bridges (s : State) (v : Nat) : (s.raiseIrq v).bridges = s.bridges := rfl
@[simp] theorem State.raiseIrq_dom (s : State) (v : Nat) : (s.raiseIrq v).dom = s.dom := rfl
@[simp] theorem State.raiseIrq_cmds (s : State) (v : Nat) : (s.raiseIrq v).cmds = s.cmds := rfl
@[simp] theorem State.raiseIrq_swr (s : State) (v : Nat) : (s.raiseIrq v).swr = s.swr := rfl
@[simp] theorem State.raiseIrq_cmbSlots (s : State) (v : Nat) : (s.raiseIrq v).cmbSlots = s.cmbSlots := rfl
@[simp] theorem State.raiseIrq_arrivals (s : State) (v : Nat) : (s.raiseIrq v).arrivals = s.arrivals := rfl
@[simp] theorem State.raiseIrq_ctrHomes (s : State) (v : Nat) : (s.raiseIrq v).ctrHomes = s.ctrHomes := rfl
@[simp] theorem State.raiseIrq_walkq (s : State) (v : Nat) : (s.raiseIrq v).walkq = s.walkq := rfl
@[simp] theorem State.raiseIrq_engWaits (s : State) (v : Nat) : (s.raiseIrq v).engWaits = s.engWaits := rfl
@[simp] theorem State.raiseIrq_queues (s : State) (v : Nat) : (s.raiseIrq v).queues = s.queues := rfl
@[simp] theorem State.raiseIrq_launches (s : State) (v : Nat) : (s.raiseIrq v).launches = s.launches := rfl
@[simp] theorem State.raiseIrq_blocks (s : State) (v : Nat) : (s.raiseIrq v).blocks = s.blocks := rfl
@[simp] theorem State.raiseIrq_rr (s : State) (v : Nat) : (s.raiseIrq v).rr = s.rr := rfl
@[simp] theorem State.raiseIrq_parts (s : State) (v : Nat) : (s.raiseIrq v).parts = s.parts := rfl
@[simp] theorem State.raiseIrq_asids (s : State) (v : Nat) : (s.raiseIrq v).asids = s.asids := rfl
@[simp] theorem State.raiseIrq_traps (s : State) (v : Nat) : (s.raiseIrq v).traps = s.traps := rfl
@[simp] theorem State.raiseIrq_err (s : State) (v : Nat) : (s.raiseIrq v).err = s.err := rfl
@[simp] theorem State.raiseIrq_prot (s : State) (v : Nat) : (s.raiseIrq v).prot = s.prot := rfl
@[simp] theorem State.raiseIrq_pools (s : State) (v : Nat) : (s.raiseIrq v).pools = s.pools := rfl
@[simp] theorem State.raiseIrq_msix (s : State) (v : Nat) : (s.raiseIrq v).msix = s.msix := rfl
@[simp] theorem State.raiseIrq_rdata (s : State) (v : Nat) : (s.raiseIrq v).rdata = s.rdata := rfl
@[simp] theorem State.raiseIrq_sent (s : State) (v : Nat) : (s.raiseIrq v).sent = s.sent := rfl
@[simp] theorem State.raiseIrq_outReqs (s : State) (v : Nat) : (s.raiseIrq v).outReqs = s.outReqs := rfl
@[simp] theorem State.raiseIrq_sweep (s : State) (v : Nat) : (s.raiseIrq v).sweep = s.sweep := rfl
@[simp] theorem State.raiseIrq_lastRec (s : State) (v : Nat) : (s.raiseIrq v).lastRec = s.lastRec := rfl
@[simp] theorem State.raiseIrq_fw (s : State) (v : Nat) : (s.raiseIrq v).fw = s.fw := rfl
@[simp] theorem State.raiseIrq_svc (s : State) (v : Nat) : (s.raiseIrq v).svc = s.svc := rfl
@[simp] theorem State.raiseIrq_pwr (s : State) (v : Nat) : (s.raiseIrq v).pwr = s.pwr := rfl

/-! `State.tick` -/

@[simp] theorem State.tick_cur (s : State) (n : Nat) : (s.tick n).cur = s.cur := rfl
@[simp] theorem State.tick_agenda (s : State) (n : Nat) : (s.tick n).agenda = s.agenda := rfl
@[simp] theorem State.tick_nextId (s : State) (n : Nat) : (s.tick n).nextId = s.nextId := rfl
@[simp] theorem State.tick_mem (s : State) (n : Nat) : (s.tick n).mem = s.mem := rfl
@[simp] theorem State.tick_badChk (s : State) (n : Nat) : (s.tick n).badChk = s.badChk := rfl
@[simp] theorem State.tick_poison (s : State) (n : Nat) : (s.tick n).poison = s.poison := rfl
@[simp] theorem State.tick_crews (s : State) (n : Nat) : (s.tick n).crews = s.crews := rfl
@[simp] theorem State.tick_gangs (s : State) (n : Nat) : (s.tick n).gangs = s.gangs := rfl
@[simp] theorem State.tick_cores (s : State) (n : Nat) : (s.tick n).cores = s.cores := rfl
@[simp] theorem State.tick_clusters (s : State) (n : Nat) : (s.tick n).clusters = s.clusters := rfl
@[simp] theorem State.tick_net (s : State) (n : Nat) : (s.tick n).net = s.net := rfl
@[simp] theorem State.tick_combs (s : State) (n : Nat) : (s.tick n).combs = s.combs := rfl
@[simp] theorem State.tick_chans (s : State) (n : Nat) : (s.tick n).chans = s.chans := rfl
@[simp] theorem State.tick_homes (s : State) (n : Nat) : (s.tick n).homes = s.homes := rfl
@[simp] theorem State.tick_slices (s : State) (n : Nat) : (s.tick n).slices = s.slices := rfl
@[simp] theorem State.tick_bridges (s : State) (n : Nat) : (s.tick n).bridges = s.bridges := rfl
@[simp] theorem State.tick_dom (s : State) (n : Nat) : (s.tick n).dom = s.dom := rfl
@[simp] theorem State.tick_cmds (s : State) (n : Nat) : (s.tick n).cmds = s.cmds := rfl
@[simp] theorem State.tick_swr (s : State) (n : Nat) : (s.tick n).swr = s.swr := rfl
@[simp] theorem State.tick_cmbSlots (s : State) (n : Nat) : (s.tick n).cmbSlots = s.cmbSlots := rfl
@[simp] theorem State.tick_arrivals (s : State) (n : Nat) : (s.tick n).arrivals = s.arrivals := rfl
@[simp] theorem State.tick_ctrHomes (s : State) (n : Nat) : (s.tick n).ctrHomes = s.ctrHomes := rfl
@[simp] theorem State.tick_walkq (s : State) (n : Nat) : (s.tick n).walkq = s.walkq := rfl
@[simp] theorem State.tick_engWaits (s : State) (n : Nat) : (s.tick n).engWaits = s.engWaits := rfl
@[simp] theorem State.tick_queues (s : State) (n : Nat) : (s.tick n).queues = s.queues := rfl
@[simp] theorem State.tick_launches (s : State) (n : Nat) : (s.tick n).launches = s.launches := rfl
@[simp] theorem State.tick_blocks (s : State) (n : Nat) : (s.tick n).blocks = s.blocks := rfl
@[simp] theorem State.tick_rr (s : State) (n : Nat) : (s.tick n).rr = s.rr := rfl
@[simp] theorem State.tick_parts (s : State) (n : Nat) : (s.tick n).parts = s.parts := rfl
@[simp] theorem State.tick_asids (s : State) (n : Nat) : (s.tick n).asids = s.asids := rfl
@[simp] theorem State.tick_traps (s : State) (n : Nat) : (s.tick n).traps = s.traps := rfl
@[simp] theorem State.tick_err (s : State) (n : Nat) : (s.tick n).err = s.err := rfl
@[simp] theorem State.tick_prot (s : State) (n : Nat) : (s.tick n).prot = s.prot := rfl
@[simp] theorem State.tick_pools (s : State) (n : Nat) : (s.tick n).pools = s.pools := rfl
@[simp] theorem State.tick_msix (s : State) (n : Nat) : (s.tick n).msix = s.msix := rfl
@[simp] theorem State.tick_irqs (s : State) (n : Nat) : (s.tick n).irqs = s.irqs := rfl
@[simp] theorem State.tick_rdata (s : State) (n : Nat) : (s.tick n).rdata = s.rdata := rfl
@[simp] theorem State.tick_sent (s : State) (n : Nat) : (s.tick n).sent = s.sent := rfl
@[simp] theorem State.tick_outReqs (s : State) (n : Nat) : (s.tick n).outReqs = s.outReqs := rfl
@[simp] theorem State.tick_sweep (s : State) (n : Nat) : (s.tick n).sweep = s.sweep := rfl
@[simp] theorem State.tick_lastRec (s : State) (n : Nat) : (s.tick n).lastRec = s.lastRec := rfl
@[simp] theorem State.tick_fw (s : State) (n : Nat) : (s.tick n).fw = s.fw := rfl
@[simp] theorem State.tick_svc (s : State) (n : Nat) : (s.tick n).svc = s.svc := rfl
@[simp] theorem State.tick_pwr (s : State) (n : Nat) : (s.tick n).pwr = s.pwr := rfl

/-! `State.markIssued` -/

@[simp] theorem State.markIssued_cur (s : State) (c : Crew) : (s.markIssued c).cur = s.cur := rfl
@[simp] theorem State.markIssued_agenda (s : State) (c : Crew) : (s.markIssued c).agenda = s.agenda := rfl
@[simp] theorem State.markIssued_nextId (s : State) (c : Crew) : (s.markIssued c).nextId = s.nextId := rfl
@[simp] theorem State.markIssued_now (s : State) (c : Crew) : (s.markIssued c).now = s.now := rfl
@[simp] theorem State.markIssued_mem (s : State) (c : Crew) : (s.markIssued c).mem = s.mem := rfl
@[simp] theorem State.markIssued_badChk (s : State) (c : Crew) : (s.markIssued c).badChk = s.badChk := rfl
@[simp] theorem State.markIssued_poison (s : State) (c : Crew) : (s.markIssued c).poison = s.poison := rfl
@[simp] theorem State.markIssued_crews (s : State) (c : Crew) : (s.markIssued c).crews = s.crews := rfl
@[simp] theorem State.markIssued_gangs (s : State) (c : Crew) : (s.markIssued c).gangs = s.gangs := rfl
@[simp] theorem State.markIssued_clusters (s : State) (c : Crew) : (s.markIssued c).clusters = s.clusters := rfl
@[simp] theorem State.markIssued_net (s : State) (c : Crew) : (s.markIssued c).net = s.net := rfl
@[simp] theorem State.markIssued_combs (s : State) (c : Crew) : (s.markIssued c).combs = s.combs := rfl
@[simp] theorem State.markIssued_chans (s : State) (c : Crew) : (s.markIssued c).chans = s.chans := rfl
@[simp] theorem State.markIssued_homes (s : State) (c : Crew) : (s.markIssued c).homes = s.homes := rfl
@[simp] theorem State.markIssued_slices (s : State) (c : Crew) : (s.markIssued c).slices = s.slices := rfl
@[simp] theorem State.markIssued_bridges (s : State) (c : Crew) : (s.markIssued c).bridges = s.bridges := rfl
@[simp] theorem State.markIssued_dom (s : State) (c : Crew) : (s.markIssued c).dom = s.dom := rfl
@[simp] theorem State.markIssued_cmds (s : State) (c : Crew) : (s.markIssued c).cmds = s.cmds := rfl
@[simp] theorem State.markIssued_swr (s : State) (c : Crew) : (s.markIssued c).swr = s.swr := rfl
@[simp] theorem State.markIssued_cmbSlots (s : State) (c : Crew) : (s.markIssued c).cmbSlots = s.cmbSlots := rfl
@[simp] theorem State.markIssued_arrivals (s : State) (c : Crew) : (s.markIssued c).arrivals = s.arrivals := rfl
@[simp] theorem State.markIssued_ctrHomes (s : State) (c : Crew) : (s.markIssued c).ctrHomes = s.ctrHomes := rfl
@[simp] theorem State.markIssued_walkq (s : State) (c : Crew) : (s.markIssued c).walkq = s.walkq := rfl
@[simp] theorem State.markIssued_engWaits (s : State) (c : Crew) : (s.markIssued c).engWaits = s.engWaits := rfl
@[simp] theorem State.markIssued_queues (s : State) (c : Crew) : (s.markIssued c).queues = s.queues := rfl
@[simp] theorem State.markIssued_launches (s : State) (c : Crew) : (s.markIssued c).launches = s.launches := rfl
@[simp] theorem State.markIssued_blocks (s : State) (c : Crew) : (s.markIssued c).blocks = s.blocks := rfl
@[simp] theorem State.markIssued_rr (s : State) (c : Crew) : (s.markIssued c).rr = s.rr := rfl
@[simp] theorem State.markIssued_parts (s : State) (c : Crew) : (s.markIssued c).parts = s.parts := rfl
@[simp] theorem State.markIssued_asids (s : State) (c : Crew) : (s.markIssued c).asids = s.asids := rfl
@[simp] theorem State.markIssued_traps (s : State) (c : Crew) : (s.markIssued c).traps = s.traps := rfl
@[simp] theorem State.markIssued_err (s : State) (c : Crew) : (s.markIssued c).err = s.err := rfl
@[simp] theorem State.markIssued_prot (s : State) (c : Crew) : (s.markIssued c).prot = s.prot := rfl
@[simp] theorem State.markIssued_pools (s : State) (c : Crew) : (s.markIssued c).pools = s.pools := rfl
@[simp] theorem State.markIssued_msix (s : State) (c : Crew) : (s.markIssued c).msix = s.msix := rfl
@[simp] theorem State.markIssued_irqs (s : State) (c : Crew) : (s.markIssued c).irqs = s.irqs := rfl
@[simp] theorem State.markIssued_rdata (s : State) (c : Crew) : (s.markIssued c).rdata = s.rdata := rfl
@[simp] theorem State.markIssued_sent (s : State) (c : Crew) : (s.markIssued c).sent = s.sent := rfl
@[simp] theorem State.markIssued_outReqs (s : State) (c : Crew) : (s.markIssued c).outReqs = s.outReqs := rfl
@[simp] theorem State.markIssued_sweep (s : State) (c : Crew) : (s.markIssued c).sweep = s.sweep := rfl
@[simp] theorem State.markIssued_lastRec (s : State) (c : Crew) : (s.markIssued c).lastRec = s.lastRec := rfl
@[simp] theorem State.markIssued_fw (s : State) (c : Crew) : (s.markIssued c).fw = s.fw := rfl
@[simp] theorem State.markIssued_svc (s : State) (c : Crew) : (s.markIssued c).svc = s.svc := rfl
@[simp] theorem State.markIssued_pwr (s : State) (c : Crew) : (s.markIssued c).pwr = s.pwr := rfl

/-! Reads after writes. -/

@[simp] theorem State.crew_setCrew (s : State) (k : Nat) (c : Crew) (j : Nat) :
    (s.setCrew k c).crew j = if j = k then some c else s.crew j := Tab.get_set _ _ _ _
@[simp] theorem State.crew_updCrew (s : State) (k : Nat) (f : Crew → Crew) (j : Nat) :
    (s.updCrew k f).crew j = if j = k then (s.crew k).map f else s.crew j := Tab.get_upd _ _ _ _
@[simp] theorem State.gang_setGang (s : State) (g : Nat) (v : Gang) (j : Nat) :
    (s.setGang g v).gang j = if j = g then some v else s.gang j := Tab.get_set _ _ _ _
@[simp] theorem State.gang_updGang (s : State) (g : Nat) (f : Gang → Gang) (j : Nat) :
    (s.updGang g f).gang j = if j = g then (s.gang g).map f else s.gang j := Tab.get_upd _ _ _ _
@[simp] theorem State.core_setCore (s : State) (c : Nat) (v : CoreSt) (j : Nat) :
    (s.setCore c v).core j = if j = c then v else s.core j := Tab.getD_set _ _ _ _ _
@[simp] theorem State.core_updCore (s : State) (c : Nat) (f : CoreSt → CoreSt) (j : Nat) :
    (s.updCore c f).core j = if j = c then f (s.core c) else s.core j := Tab.getD_set _ _ _ _ _
@[simp] theorem State.cluster_setCluster (s : State) (k : Nat) (v : ClusterSt) (j : Nat) :
    (s.setCluster k v).cluster j = if j = k then v else s.cluster j := Tab.getD_set _ _ _ _ _
@[simp] theorem State.cluster_updCluster (s : State) (k : Nat) (f : ClusterSt → ClusterSt) (j : Nat) :
    (s.updCluster k f).cluster j = if j = k then f (s.cluster k) else s.cluster j := Tab.getD_set _ _ _ _ _
@[simp] theorem State.mgmt_updMgmt (s : State) (k : Nat) (f : Mgmt → Mgmt) (j : Nat) :
    (s.updMgmt k f).mgmt j = if j = k then f (s.mgmt k) else s.mgmt j := by
  simp only [State.mgmt, State.updMgmt, State.cluster_updCluster]
  split <;> rfl
@[simp] theorem State.mgmt_updCluster (s : State) (k : Nat) (f : ClusterSt → ClusterSt) (j : Nat) :
    (s.updCluster k f).mgmt j = if j = k then (f (s.cluster k)).mc else s.mgmt j := by
  simp only [State.mgmt, State.cluster_updCluster]
  split <;> rfl
@[simp] theorem State.slice_setSlice (s : State) (n : Nat) (v : Slice) (j : Nat) :
    (s.setSlice n v).slice j = if j = n then v else s.slice j := Tab.getD_set _ _ _ _ _
@[simp] theorem State.slice_updSlice (s : State) (n : Nat) (f : Slice → Slice) (j : Nat) :
    (s.updSlice n f).slice j = if j = n then f (s.slice n) else s.slice j := Tab.getD_set _ _ _ _ _
@[simp] theorem State.queue_setQueue (s : State) (q : Nat) (v : QueueRegs) (j : Nat) :
    (s.setQueue q v).queue j = if j = q then v else s.queue j := Tab.getD_set _ _ _ _ _
@[simp] theorem State.part_setPart (s : State) (p : Nat) (v : Part) (j : Nat) :
    (s.setPart p v).part j = if j = p then v else s.part j := Tab.getD_set _ _ _ _ _
@[simp] theorem State.asid_setAsid (s : State) (a : Nat) (v : AsidRegs) (j : Nat) :
    (s.setAsid a v).asid j = if j = a then v else s.asid j := Tab.getD_set _ _ _ _ _
@[simp] theorem State.launch_setLaunch (s : State) (l : Nat) (v : Launch) (j : Nat) :
    (s.setLaunch l v).launch j = if j = l then some v else s.launch j := Tab.get_set _ _ _ _
@[simp] theorem State.launch_updLaunch (s : State) (l : Nat) (f : Launch → Launch) (j : Nat) :
    (s.updLaunch l f).launch j = if j = l then (s.launch l).map f else s.launch j := Tab.get_upd _ _ _ _
@[simp] theorem State.chan_setChan (s : State) (k : Nat) (v : Chan) (j : Nat) :
    (s.setChan k v).chan j = if j = k then v else s.chan j := Tab.getD_set _ _ _ _ _
@[simp] theorem State.ctrHome_setCtrHome (s : State) (o : Nat) (v : CtrHome) (j : Nat) :
    (s.setCtrHome o v).ctrHome j = if j = o then v else s.ctrHome j := Tab.getD_set _ _ _ _ _

/-! Reads of other tables. -/

@[simp] theorem State.gang_of_setCrew (s : State) (k : Nat) (c : Crew) (j : Nat) : (s.setCrew k c).gang j = s.gang j := rfl
@[simp] theorem State.core_of_setCrew (s : State) (k : Nat) (c : Crew) (j : Nat) : (s.setCrew k c).core j = s.core j := rfl
@[simp] theorem State.cluster_of_setCrew (s : State) (k : Nat) (c : Crew) (j : Nat) : (s.setCrew k c).cluster j = s.cluster j := rfl
@[simp] theorem State.mgmt_of_setCrew (s : State) (k : Nat) (c : Crew) (j : Nat) : (s.setCrew k c).mgmt j = s.mgmt j := rfl
@[simp] theorem State.slice_of_setCrew (s : State) (k : Nat) (c : Crew) (j : Nat) : (s.setCrew k c).slice j = s.slice j := rfl
@[simp] theorem State.queue_of_setCrew (s : State) (k : Nat) (c : Crew) (j : Nat) : (s.setCrew k c).queue j = s.queue j := rfl
@[simp] theorem State.part_of_setCrew (s : State) (k : Nat) (c : Crew) (j : Nat) : (s.setCrew k c).part j = s.part j := rfl
@[simp] theorem State.asid_of_setCrew (s : State) (k : Nat) (c : Crew) (j : Nat) : (s.setCrew k c).asid j = s.asid j := rfl
@[simp] theorem State.trapRegs_of_setCrew (s : State) (k : Nat) (c : Crew) (j : Nat) : (s.setCrew k c).trapRegs j = s.trapRegs j := rfl
@[simp] theorem State.launch_of_setCrew (s : State) (k : Nat) (c : Crew) (j : Nat) : (s.setCrew k c).launch j = s.launch j := rfl
@[simp] theorem State.chan_of_setCrew (s : State) (k : Nat) (c : Crew) (j : Nat) : (s.setCrew k c).chan j = s.chan j := rfl
@[simp] theorem State.ctrHome_of_setCrew (s : State) (k : Nat) (c : Crew) (j : Nat) : (s.setCrew k c).ctrHome j = s.ctrHome j := rfl
@[simp] theorem State.home_of_setCrew (s : State) (k : Nat) (c : Crew) (j : Nat) : (s.setCrew k c).home j = s.home j := rfl
@[simp] theorem State.bridge_of_setCrew (s : State) (k : Nat) (c : Crew) (j : Nat) : (s.setCrew k c).bridge j = s.bridge j := rfl
@[simp] theorem State.gang_of_updCrew (s : State) (k : Nat) (f : Crew → Crew) (j : Nat) : (s.updCrew k f).gang j = s.gang j := rfl
@[simp] theorem State.core_of_updCrew (s : State) (k : Nat) (f : Crew → Crew) (j : Nat) : (s.updCrew k f).core j = s.core j := rfl
@[simp] theorem State.cluster_of_updCrew (s : State) (k : Nat) (f : Crew → Crew) (j : Nat) : (s.updCrew k f).cluster j = s.cluster j := rfl
@[simp] theorem State.mgmt_of_updCrew (s : State) (k : Nat) (f : Crew → Crew) (j : Nat) : (s.updCrew k f).mgmt j = s.mgmt j := rfl
@[simp] theorem State.slice_of_updCrew (s : State) (k : Nat) (f : Crew → Crew) (j : Nat) : (s.updCrew k f).slice j = s.slice j := rfl
@[simp] theorem State.queue_of_updCrew (s : State) (k : Nat) (f : Crew → Crew) (j : Nat) : (s.updCrew k f).queue j = s.queue j := rfl
@[simp] theorem State.part_of_updCrew (s : State) (k : Nat) (f : Crew → Crew) (j : Nat) : (s.updCrew k f).part j = s.part j := rfl
@[simp] theorem State.asid_of_updCrew (s : State) (k : Nat) (f : Crew → Crew) (j : Nat) : (s.updCrew k f).asid j = s.asid j := rfl
@[simp] theorem State.trapRegs_of_updCrew (s : State) (k : Nat) (f : Crew → Crew) (j : Nat) : (s.updCrew k f).trapRegs j = s.trapRegs j := rfl
@[simp] theorem State.launch_of_updCrew (s : State) (k : Nat) (f : Crew → Crew) (j : Nat) : (s.updCrew k f).launch j = s.launch j := rfl
@[simp] theorem State.chan_of_updCrew (s : State) (k : Nat) (f : Crew → Crew) (j : Nat) : (s.updCrew k f).chan j = s.chan j := rfl
@[simp] theorem State.ctrHome_of_updCrew (s : State) (k : Nat) (f : Crew → Crew) (j : Nat) : (s.updCrew k f).ctrHome j = s.ctrHome j := rfl
@[simp] theorem State.home_of_updCrew (s : State) (k : Nat) (f : Crew → Crew) (j : Nat) : (s.updCrew k f).home j = s.home j := rfl
@[simp] theorem State.bridge_of_updCrew (s : State) (k : Nat) (f : Crew → Crew) (j : Nat) : (s.updCrew k f).bridge j = s.bridge j := rfl
@[simp] theorem State.crew_of_setGang (s : State) (g : Nat) (v : Gang) (j : Nat) : (s.setGang g v).crew j = s.crew j := rfl
@[simp] theorem State.core_of_setGang (s : State) (g : Nat) (v : Gang) (j : Nat) : (s.setGang g v).core j = s.core j := rfl
@[simp] theorem State.cluster_of_setGang (s : State) (g : Nat) (v : Gang) (j : Nat) : (s.setGang g v).cluster j = s.cluster j := rfl
@[simp] theorem State.mgmt_of_setGang (s : State) (g : Nat) (v : Gang) (j : Nat) : (s.setGang g v).mgmt j = s.mgmt j := rfl
@[simp] theorem State.slice_of_setGang (s : State) (g : Nat) (v : Gang) (j : Nat) : (s.setGang g v).slice j = s.slice j := rfl
@[simp] theorem State.queue_of_setGang (s : State) (g : Nat) (v : Gang) (j : Nat) : (s.setGang g v).queue j = s.queue j := rfl
@[simp] theorem State.part_of_setGang (s : State) (g : Nat) (v : Gang) (j : Nat) : (s.setGang g v).part j = s.part j := rfl
@[simp] theorem State.asid_of_setGang (s : State) (g : Nat) (v : Gang) (j : Nat) : (s.setGang g v).asid j = s.asid j := rfl
@[simp] theorem State.trapRegs_of_setGang (s : State) (g : Nat) (v : Gang) (j : Nat) : (s.setGang g v).trapRegs j = s.trapRegs j := rfl
@[simp] theorem State.launch_of_setGang (s : State) (g : Nat) (v : Gang) (j : Nat) : (s.setGang g v).launch j = s.launch j := rfl
@[simp] theorem State.chan_of_setGang (s : State) (g : Nat) (v : Gang) (j : Nat) : (s.setGang g v).chan j = s.chan j := rfl
@[simp] theorem State.ctrHome_of_setGang (s : State) (g : Nat) (v : Gang) (j : Nat) : (s.setGang g v).ctrHome j = s.ctrHome j := rfl
@[simp] theorem State.home_of_setGang (s : State) (g : Nat) (v : Gang) (j : Nat) : (s.setGang g v).home j = s.home j := rfl
@[simp] theorem State.bridge_of_setGang (s : State) (g : Nat) (v : Gang) (j : Nat) : (s.setGang g v).bridge j = s.bridge j := rfl
@[simp] theorem State.crew_of_updGang (s : State) (g : Nat) (f : Gang → Gang) (j : Nat) : (s.updGang g f).crew j = s.crew j := rfl
@[simp] theorem State.core_of_updGang (s : State) (g : Nat) (f : Gang → Gang) (j : Nat) : (s.updGang g f).core j = s.core j := rfl
@[simp] theorem State.cluster_of_updGang (s : State) (g : Nat) (f : Gang → Gang) (j : Nat) : (s.updGang g f).cluster j = s.cluster j := rfl
@[simp] theorem State.mgmt_of_updGang (s : State) (g : Nat) (f : Gang → Gang) (j : Nat) : (s.updGang g f).mgmt j = s.mgmt j := rfl
@[simp] theorem State.slice_of_updGang (s : State) (g : Nat) (f : Gang → Gang) (j : Nat) : (s.updGang g f).slice j = s.slice j := rfl
@[simp] theorem State.queue_of_updGang (s : State) (g : Nat) (f : Gang → Gang) (j : Nat) : (s.updGang g f).queue j = s.queue j := rfl
@[simp] theorem State.part_of_updGang (s : State) (g : Nat) (f : Gang → Gang) (j : Nat) : (s.updGang g f).part j = s.part j := rfl
@[simp] theorem State.asid_of_updGang (s : State) (g : Nat) (f : Gang → Gang) (j : Nat) : (s.updGang g f).asid j = s.asid j := rfl
@[simp] theorem State.trapRegs_of_updGang (s : State) (g : Nat) (f : Gang → Gang) (j : Nat) : (s.updGang g f).trapRegs j = s.trapRegs j := rfl
@[simp] theorem State.launch_of_updGang (s : State) (g : Nat) (f : Gang → Gang) (j : Nat) : (s.updGang g f).launch j = s.launch j := rfl
@[simp] theorem State.chan_of_updGang (s : State) (g : Nat) (f : Gang → Gang) (j : Nat) : (s.updGang g f).chan j = s.chan j := rfl
@[simp] theorem State.ctrHome_of_updGang (s : State) (g : Nat) (f : Gang → Gang) (j : Nat) : (s.updGang g f).ctrHome j = s.ctrHome j := rfl
@[simp] theorem State.home_of_updGang (s : State) (g : Nat) (f : Gang → Gang) (j : Nat) : (s.updGang g f).home j = s.home j := rfl
@[simp] theorem State.bridge_of_updGang (s : State) (g : Nat) (f : Gang → Gang) (j : Nat) : (s.updGang g f).bridge j = s.bridge j := rfl
@[simp] theorem State.crew_of_setCore (s : State) (c : Nat) (v : CoreSt) (j : Nat) : (s.setCore c v).crew j = s.crew j := rfl
@[simp] theorem State.gang_of_setCore (s : State) (c : Nat) (v : CoreSt) (j : Nat) : (s.setCore c v).gang j = s.gang j := rfl
@[simp] theorem State.cluster_of_setCore (s : State) (c : Nat) (v : CoreSt) (j : Nat) : (s.setCore c v).cluster j = s.cluster j := rfl
@[simp] theorem State.mgmt_of_setCore (s : State) (c : Nat) (v : CoreSt) (j : Nat) : (s.setCore c v).mgmt j = s.mgmt j := rfl
@[simp] theorem State.slice_of_setCore (s : State) (c : Nat) (v : CoreSt) (j : Nat) : (s.setCore c v).slice j = s.slice j := rfl
@[simp] theorem State.queue_of_setCore (s : State) (c : Nat) (v : CoreSt) (j : Nat) : (s.setCore c v).queue j = s.queue j := rfl
@[simp] theorem State.part_of_setCore (s : State) (c : Nat) (v : CoreSt) (j : Nat) : (s.setCore c v).part j = s.part j := rfl
@[simp] theorem State.asid_of_setCore (s : State) (c : Nat) (v : CoreSt) (j : Nat) : (s.setCore c v).asid j = s.asid j := rfl
@[simp] theorem State.trapRegs_of_setCore (s : State) (c : Nat) (v : CoreSt) (j : Nat) : (s.setCore c v).trapRegs j = s.trapRegs j := rfl
@[simp] theorem State.launch_of_setCore (s : State) (c : Nat) (v : CoreSt) (j : Nat) : (s.setCore c v).launch j = s.launch j := rfl
@[simp] theorem State.chan_of_setCore (s : State) (c : Nat) (v : CoreSt) (j : Nat) : (s.setCore c v).chan j = s.chan j := rfl
@[simp] theorem State.ctrHome_of_setCore (s : State) (c : Nat) (v : CoreSt) (j : Nat) : (s.setCore c v).ctrHome j = s.ctrHome j := rfl
@[simp] theorem State.home_of_setCore (s : State) (c : Nat) (v : CoreSt) (j : Nat) : (s.setCore c v).home j = s.home j := rfl
@[simp] theorem State.bridge_of_setCore (s : State) (c : Nat) (v : CoreSt) (j : Nat) : (s.setCore c v).bridge j = s.bridge j := rfl
@[simp] theorem State.crew_of_updCore (s : State) (c : Nat) (f : CoreSt → CoreSt) (j : Nat) : (s.updCore c f).crew j = s.crew j := rfl
@[simp] theorem State.gang_of_updCore (s : State) (c : Nat) (f : CoreSt → CoreSt) (j : Nat) : (s.updCore c f).gang j = s.gang j := rfl
@[simp] theorem State.cluster_of_updCore (s : State) (c : Nat) (f : CoreSt → CoreSt) (j : Nat) : (s.updCore c f).cluster j = s.cluster j := rfl
@[simp] theorem State.mgmt_of_updCore (s : State) (c : Nat) (f : CoreSt → CoreSt) (j : Nat) : (s.updCore c f).mgmt j = s.mgmt j := rfl
@[simp] theorem State.slice_of_updCore (s : State) (c : Nat) (f : CoreSt → CoreSt) (j : Nat) : (s.updCore c f).slice j = s.slice j := rfl
@[simp] theorem State.queue_of_updCore (s : State) (c : Nat) (f : CoreSt → CoreSt) (j : Nat) : (s.updCore c f).queue j = s.queue j := rfl
@[simp] theorem State.part_of_updCore (s : State) (c : Nat) (f : CoreSt → CoreSt) (j : Nat) : (s.updCore c f).part j = s.part j := rfl
@[simp] theorem State.asid_of_updCore (s : State) (c : Nat) (f : CoreSt → CoreSt) (j : Nat) : (s.updCore c f).asid j = s.asid j := rfl
@[simp] theorem State.trapRegs_of_updCore (s : State) (c : Nat) (f : CoreSt → CoreSt) (j : Nat) : (s.updCore c f).trapRegs j = s.trapRegs j := rfl
@[simp] theorem State.launch_of_updCore (s : State) (c : Nat) (f : CoreSt → CoreSt) (j : Nat) : (s.updCore c f).launch j = s.launch j := rfl
@[simp] theorem State.chan_of_updCore (s : State) (c : Nat) (f : CoreSt → CoreSt) (j : Nat) : (s.updCore c f).chan j = s.chan j := rfl
@[simp] theorem State.ctrHome_of_updCore (s : State) (c : Nat) (f : CoreSt → CoreSt) (j : Nat) : (s.updCore c f).ctrHome j = s.ctrHome j := rfl
@[simp] theorem State.home_of_updCore (s : State) (c : Nat) (f : CoreSt → CoreSt) (j : Nat) : (s.updCore c f).home j = s.home j := rfl
@[simp] theorem State.bridge_of_updCore (s : State) (c : Nat) (f : CoreSt → CoreSt) (j : Nat) : (s.updCore c f).bridge j = s.bridge j := rfl
@[simp] theorem State.crew_of_setCluster (s : State) (k : Nat) (v : ClusterSt) (j : Nat) : (s.setCluster k v).crew j = s.crew j := rfl
@[simp] theorem State.gang_of_setCluster (s : State) (k : Nat) (v : ClusterSt) (j : Nat) : (s.setCluster k v).gang j = s.gang j := rfl
@[simp] theorem State.core_of_setCluster (s : State) (k : Nat) (v : ClusterSt) (j : Nat) : (s.setCluster k v).core j = s.core j := rfl
@[simp] theorem State.slice_of_setCluster (s : State) (k : Nat) (v : ClusterSt) (j : Nat) : (s.setCluster k v).slice j = s.slice j := rfl
@[simp] theorem State.queue_of_setCluster (s : State) (k : Nat) (v : ClusterSt) (j : Nat) : (s.setCluster k v).queue j = s.queue j := rfl
@[simp] theorem State.part_of_setCluster (s : State) (k : Nat) (v : ClusterSt) (j : Nat) : (s.setCluster k v).part j = s.part j := rfl
@[simp] theorem State.asid_of_setCluster (s : State) (k : Nat) (v : ClusterSt) (j : Nat) : (s.setCluster k v).asid j = s.asid j := rfl
@[simp] theorem State.trapRegs_of_setCluster (s : State) (k : Nat) (v : ClusterSt) (j : Nat) : (s.setCluster k v).trapRegs j = s.trapRegs j := rfl
@[simp] theorem State.launch_of_setCluster (s : State) (k : Nat) (v : ClusterSt) (j : Nat) : (s.setCluster k v).launch j = s.launch j := rfl
@[simp] theorem State.chan_of_setCluster (s : State) (k : Nat) (v : ClusterSt) (j : Nat) : (s.setCluster k v).chan j = s.chan j := rfl
@[simp] theorem State.ctrHome_of_setCluster (s : State) (k : Nat) (v : ClusterSt) (j : Nat) : (s.setCluster k v).ctrHome j = s.ctrHome j := rfl
@[simp] theorem State.home_of_setCluster (s : State) (k : Nat) (v : ClusterSt) (j : Nat) : (s.setCluster k v).home j = s.home j := rfl
@[simp] theorem State.bridge_of_setCluster (s : State) (k : Nat) (v : ClusterSt) (j : Nat) : (s.setCluster k v).bridge j = s.bridge j := rfl
@[simp] theorem State.crew_of_updCluster (s : State) (k : Nat) (f : ClusterSt → ClusterSt) (j : Nat) : (s.updCluster k f).crew j = s.crew j := rfl
@[simp] theorem State.gang_of_updCluster (s : State) (k : Nat) (f : ClusterSt → ClusterSt) (j : Nat) : (s.updCluster k f).gang j = s.gang j := rfl
@[simp] theorem State.core_of_updCluster (s : State) (k : Nat) (f : ClusterSt → ClusterSt) (j : Nat) : (s.updCluster k f).core j = s.core j := rfl
@[simp] theorem State.slice_of_updCluster (s : State) (k : Nat) (f : ClusterSt → ClusterSt) (j : Nat) : (s.updCluster k f).slice j = s.slice j := rfl
@[simp] theorem State.queue_of_updCluster (s : State) (k : Nat) (f : ClusterSt → ClusterSt) (j : Nat) : (s.updCluster k f).queue j = s.queue j := rfl
@[simp] theorem State.part_of_updCluster (s : State) (k : Nat) (f : ClusterSt → ClusterSt) (j : Nat) : (s.updCluster k f).part j = s.part j := rfl
@[simp] theorem State.asid_of_updCluster (s : State) (k : Nat) (f : ClusterSt → ClusterSt) (j : Nat) : (s.updCluster k f).asid j = s.asid j := rfl
@[simp] theorem State.trapRegs_of_updCluster (s : State) (k : Nat) (f : ClusterSt → ClusterSt) (j : Nat) : (s.updCluster k f).trapRegs j = s.trapRegs j := rfl
@[simp] theorem State.launch_of_updCluster (s : State) (k : Nat) (f : ClusterSt → ClusterSt) (j : Nat) : (s.updCluster k f).launch j = s.launch j := rfl
@[simp] theorem State.chan_of_updCluster (s : State) (k : Nat) (f : ClusterSt → ClusterSt) (j : Nat) : (s.updCluster k f).chan j = s.chan j := rfl
@[simp] theorem State.ctrHome_of_updCluster (s : State) (k : Nat) (f : ClusterSt → ClusterSt) (j : Nat) : (s.updCluster k f).ctrHome j = s.ctrHome j := rfl
@[simp] theorem State.home_of_updCluster (s : State) (k : Nat) (f : ClusterSt → ClusterSt) (j : Nat) : (s.updCluster k f).home j = s.home j := rfl
@[simp] theorem State.bridge_of_updCluster (s : State) (k : Nat) (f : ClusterSt → ClusterSt) (j : Nat) : (s.updCluster k f).bridge j = s.bridge j := rfl
@[simp] theorem State.crew_of_updMgmt (s : State) (k : Nat) (f : Mgmt → Mgmt) (j : Nat) : (s.updMgmt k f).crew j = s.crew j := rfl
@[simp] theorem State.gang_of_updMgmt (s : State) (k : Nat) (f : Mgmt → Mgmt) (j : Nat) : (s.updMgmt k f).gang j = s.gang j := rfl
@[simp] theorem State.core_of_updMgmt (s : State) (k : Nat) (f : Mgmt → Mgmt) (j : Nat) : (s.updMgmt k f).core j = s.core j := rfl
@[simp] theorem State.slice_of_updMgmt (s : State) (k : Nat) (f : Mgmt → Mgmt) (j : Nat) : (s.updMgmt k f).slice j = s.slice j := rfl
@[simp] theorem State.queue_of_updMgmt (s : State) (k : Nat) (f : Mgmt → Mgmt) (j : Nat) : (s.updMgmt k f).queue j = s.queue j := rfl
@[simp] theorem State.part_of_updMgmt (s : State) (k : Nat) (f : Mgmt → Mgmt) (j : Nat) : (s.updMgmt k f).part j = s.part j := rfl
@[simp] theorem State.asid_of_updMgmt (s : State) (k : Nat) (f : Mgmt → Mgmt) (j : Nat) : (s.updMgmt k f).asid j = s.asid j := rfl
@[simp] theorem State.trapRegs_of_updMgmt (s : State) (k : Nat) (f : Mgmt → Mgmt) (j : Nat) : (s.updMgmt k f).trapRegs j = s.trapRegs j := rfl
@[simp] theorem State.launch_of_updMgmt (s : State) (k : Nat) (f : Mgmt → Mgmt) (j : Nat) : (s.updMgmt k f).launch j = s.launch j := rfl
@[simp] theorem State.chan_of_updMgmt (s : State) (k : Nat) (f : Mgmt → Mgmt) (j : Nat) : (s.updMgmt k f).chan j = s.chan j := rfl
@[simp] theorem State.ctrHome_of_updMgmt (s : State) (k : Nat) (f : Mgmt → Mgmt) (j : Nat) : (s.updMgmt k f).ctrHome j = s.ctrHome j := rfl
@[simp] theorem State.home_of_updMgmt (s : State) (k : Nat) (f : Mgmt → Mgmt) (j : Nat) : (s.updMgmt k f).home j = s.home j := rfl
@[simp] theorem State.bridge_of_updMgmt (s : State) (k : Nat) (f : Mgmt → Mgmt) (j : Nat) : (s.updMgmt k f).bridge j = s.bridge j := rfl
@[simp] theorem State.crew_of_setSlice (s : State) (n : Nat) (v : Slice) (j : Nat) : (s.setSlice n v).crew j = s.crew j := rfl
@[simp] theorem State.gang_of_setSlice (s : State) (n : Nat) (v : Slice) (j : Nat) : (s.setSlice n v).gang j = s.gang j := rfl
@[simp] theorem State.core_of_setSlice (s : State) (n : Nat) (v : Slice) (j : Nat) : (s.setSlice n v).core j = s.core j := rfl
@[simp] theorem State.cluster_of_setSlice (s : State) (n : Nat) (v : Slice) (j : Nat) : (s.setSlice n v).cluster j = s.cluster j := rfl
@[simp] theorem State.mgmt_of_setSlice (s : State) (n : Nat) (v : Slice) (j : Nat) : (s.setSlice n v).mgmt j = s.mgmt j := rfl
@[simp] theorem State.queue_of_setSlice (s : State) (n : Nat) (v : Slice) (j : Nat) : (s.setSlice n v).queue j = s.queue j := rfl
@[simp] theorem State.part_of_setSlice (s : State) (n : Nat) (v : Slice) (j : Nat) : (s.setSlice n v).part j = s.part j := rfl
@[simp] theorem State.asid_of_setSlice (s : State) (n : Nat) (v : Slice) (j : Nat) : (s.setSlice n v).asid j = s.asid j := rfl
@[simp] theorem State.trapRegs_of_setSlice (s : State) (n : Nat) (v : Slice) (j : Nat) : (s.setSlice n v).trapRegs j = s.trapRegs j := rfl
@[simp] theorem State.launch_of_setSlice (s : State) (n : Nat) (v : Slice) (j : Nat) : (s.setSlice n v).launch j = s.launch j := rfl
@[simp] theorem State.chan_of_setSlice (s : State) (n : Nat) (v : Slice) (j : Nat) : (s.setSlice n v).chan j = s.chan j := rfl
@[simp] theorem State.ctrHome_of_setSlice (s : State) (n : Nat) (v : Slice) (j : Nat) : (s.setSlice n v).ctrHome j = s.ctrHome j := rfl
@[simp] theorem State.home_of_setSlice (s : State) (n : Nat) (v : Slice) (j : Nat) : (s.setSlice n v).home j = s.home j := rfl
@[simp] theorem State.bridge_of_setSlice (s : State) (n : Nat) (v : Slice) (j : Nat) : (s.setSlice n v).bridge j = s.bridge j := rfl
@[simp] theorem State.crew_of_updSlice (s : State) (n : Nat) (f : Slice → Slice) (j : Nat) : (s.updSlice n f).crew j = s.crew j := rfl
@[simp] theorem State.gang_of_updSlice (s : State) (n : Nat) (f : Slice → Slice) (j : Nat) : (s.updSlice n f).gang j = s.gang j := rfl
@[simp] theorem State.core_of_updSlice (s : State) (n : Nat) (f : Slice → Slice) (j : Nat) : (s.updSlice n f).core j = s.core j := rfl
@[simp] theorem State.cluster_of_updSlice (s : State) (n : Nat) (f : Slice → Slice) (j : Nat) : (s.updSlice n f).cluster j = s.cluster j := rfl
@[simp] theorem State.mgmt_of_updSlice (s : State) (n : Nat) (f : Slice → Slice) (j : Nat) : (s.updSlice n f).mgmt j = s.mgmt j := rfl
@[simp] theorem State.queue_of_updSlice (s : State) (n : Nat) (f : Slice → Slice) (j : Nat) : (s.updSlice n f).queue j = s.queue j := rfl
@[simp] theorem State.part_of_updSlice (s : State) (n : Nat) (f : Slice → Slice) (j : Nat) : (s.updSlice n f).part j = s.part j := rfl
@[simp] theorem State.asid_of_updSlice (s : State) (n : Nat) (f : Slice → Slice) (j : Nat) : (s.updSlice n f).asid j = s.asid j := rfl
@[simp] theorem State.trapRegs_of_updSlice (s : State) (n : Nat) (f : Slice → Slice) (j : Nat) : (s.updSlice n f).trapRegs j = s.trapRegs j := rfl
@[simp] theorem State.launch_of_updSlice (s : State) (n : Nat) (f : Slice → Slice) (j : Nat) : (s.updSlice n f).launch j = s.launch j := rfl
@[simp] theorem State.chan_of_updSlice (s : State) (n : Nat) (f : Slice → Slice) (j : Nat) : (s.updSlice n f).chan j = s.chan j := rfl
@[simp] theorem State.ctrHome_of_updSlice (s : State) (n : Nat) (f : Slice → Slice) (j : Nat) : (s.updSlice n f).ctrHome j = s.ctrHome j := rfl
@[simp] theorem State.home_of_updSlice (s : State) (n : Nat) (f : Slice → Slice) (j : Nat) : (s.updSlice n f).home j = s.home j := rfl
@[simp] theorem State.bridge_of_updSlice (s : State) (n : Nat) (f : Slice → Slice) (j : Nat) : (s.updSlice n f).bridge j = s.bridge j := rfl
@[simp] theorem State.crew_of_setQueue (s : State) (q : Nat) (v : QueueRegs) (j : Nat) : (s.setQueue q v).crew j = s.crew j := rfl
@[simp] theorem State.gang_of_setQueue (s : State) (q : Nat) (v : QueueRegs) (j : Nat) : (s.setQueue q v).gang j = s.gang j := rfl
@[simp] theorem State.core_of_setQueue (s : State) (q : Nat) (v : QueueRegs) (j : Nat) : (s.setQueue q v).core j = s.core j := rfl
@[simp] theorem State.cluster_of_setQueue (s : State) (q : Nat) (v : QueueRegs) (j : Nat) : (s.setQueue q v).cluster j = s.cluster j := rfl
@[simp] theorem State.mgmt_of_setQueue (s : State) (q : Nat) (v : QueueRegs) (j : Nat) : (s.setQueue q v).mgmt j = s.mgmt j := rfl
@[simp] theorem State.slice_of_setQueue (s : State) (q : Nat) (v : QueueRegs) (j : Nat) : (s.setQueue q v).slice j = s.slice j := rfl
@[simp] theorem State.part_of_setQueue (s : State) (q : Nat) (v : QueueRegs) (j : Nat) : (s.setQueue q v).part j = s.part j := rfl
@[simp] theorem State.asid_of_setQueue (s : State) (q : Nat) (v : QueueRegs) (j : Nat) : (s.setQueue q v).asid j = s.asid j := rfl
@[simp] theorem State.trapRegs_of_setQueue (s : State) (q : Nat) (v : QueueRegs) (j : Nat) : (s.setQueue q v).trapRegs j = s.trapRegs j := rfl
@[simp] theorem State.launch_of_setQueue (s : State) (q : Nat) (v : QueueRegs) (j : Nat) : (s.setQueue q v).launch j = s.launch j := rfl
@[simp] theorem State.chan_of_setQueue (s : State) (q : Nat) (v : QueueRegs) (j : Nat) : (s.setQueue q v).chan j = s.chan j := rfl
@[simp] theorem State.ctrHome_of_setQueue (s : State) (q : Nat) (v : QueueRegs) (j : Nat) : (s.setQueue q v).ctrHome j = s.ctrHome j := rfl
@[simp] theorem State.home_of_setQueue (s : State) (q : Nat) (v : QueueRegs) (j : Nat) : (s.setQueue q v).home j = s.home j := rfl
@[simp] theorem State.bridge_of_setQueue (s : State) (q : Nat) (v : QueueRegs) (j : Nat) : (s.setQueue q v).bridge j = s.bridge j := rfl
@[simp] theorem State.crew_of_setPart (s : State) (p : Nat) (v : Part) (j : Nat) : (s.setPart p v).crew j = s.crew j := rfl
@[simp] theorem State.gang_of_setPart (s : State) (p : Nat) (v : Part) (j : Nat) : (s.setPart p v).gang j = s.gang j := rfl
@[simp] theorem State.core_of_setPart (s : State) (p : Nat) (v : Part) (j : Nat) : (s.setPart p v).core j = s.core j := rfl
@[simp] theorem State.cluster_of_setPart (s : State) (p : Nat) (v : Part) (j : Nat) : (s.setPart p v).cluster j = s.cluster j := rfl
@[simp] theorem State.mgmt_of_setPart (s : State) (p : Nat) (v : Part) (j : Nat) : (s.setPart p v).mgmt j = s.mgmt j := rfl
@[simp] theorem State.slice_of_setPart (s : State) (p : Nat) (v : Part) (j : Nat) : (s.setPart p v).slice j = s.slice j := rfl
@[simp] theorem State.queue_of_setPart (s : State) (p : Nat) (v : Part) (j : Nat) : (s.setPart p v).queue j = s.queue j := rfl
@[simp] theorem State.asid_of_setPart (s : State) (p : Nat) (v : Part) (j : Nat) : (s.setPart p v).asid j = s.asid j := rfl
@[simp] theorem State.trapRegs_of_setPart (s : State) (p : Nat) (v : Part) (j : Nat) : (s.setPart p v).trapRegs j = s.trapRegs j := rfl
@[simp] theorem State.launch_of_setPart (s : State) (p : Nat) (v : Part) (j : Nat) : (s.setPart p v).launch j = s.launch j := rfl
@[simp] theorem State.chan_of_setPart (s : State) (p : Nat) (v : Part) (j : Nat) : (s.setPart p v).chan j = s.chan j := rfl
@[simp] theorem State.ctrHome_of_setPart (s : State) (p : Nat) (v : Part) (j : Nat) : (s.setPart p v).ctrHome j = s.ctrHome j := rfl
@[simp] theorem State.home_of_setPart (s : State) (p : Nat) (v : Part) (j : Nat) : (s.setPart p v).home j = s.home j := rfl
@[simp] theorem State.bridge_of_setPart (s : State) (p : Nat) (v : Part) (j : Nat) : (s.setPart p v).bridge j = s.bridge j := rfl
@[simp] theorem State.crew_of_updPart (s : State) (p : Nat) (f : Part → Part) (j : Nat) : (s.updPart p f).crew j = s.crew j := rfl
@[simp] theorem State.gang_of_updPart (s : State) (p : Nat) (f : Part → Part) (j : Nat) : (s.updPart p f).gang j = s.gang j := rfl
@[simp] theorem State.core_of_updPart (s : State) (p : Nat) (f : Part → Part) (j : Nat) : (s.updPart p f).core j = s.core j := rfl
@[simp] theorem State.cluster_of_updPart (s : State) (p : Nat) (f : Part → Part) (j : Nat) : (s.updPart p f).cluster j = s.cluster j := rfl
@[simp] theorem State.mgmt_of_updPart (s : State) (p : Nat) (f : Part → Part) (j : Nat) : (s.updPart p f).mgmt j = s.mgmt j := rfl
@[simp] theorem State.slice_of_updPart (s : State) (p : Nat) (f : Part → Part) (j : Nat) : (s.updPart p f).slice j = s.slice j := rfl
@[simp] theorem State.queue_of_updPart (s : State) (p : Nat) (f : Part → Part) (j : Nat) : (s.updPart p f).queue j = s.queue j := rfl
@[simp] theorem State.asid_of_updPart (s : State) (p : Nat) (f : Part → Part) (j : Nat) : (s.updPart p f).asid j = s.asid j := rfl
@[simp] theorem State.trapRegs_of_updPart (s : State) (p : Nat) (f : Part → Part) (j : Nat) : (s.updPart p f).trapRegs j = s.trapRegs j := rfl
@[simp] theorem State.launch_of_updPart (s : State) (p : Nat) (f : Part → Part) (j : Nat) : (s.updPart p f).launch j = s.launch j := rfl
@[simp] theorem State.chan_of_updPart (s : State) (p : Nat) (f : Part → Part) (j : Nat) : (s.updPart p f).chan j = s.chan j := rfl
@[simp] theorem State.ctrHome_of_updPart (s : State) (p : Nat) (f : Part → Part) (j : Nat) : (s.updPart p f).ctrHome j = s.ctrHome j := rfl
@[simp] theorem State.home_of_updPart (s : State) (p : Nat) (f : Part → Part) (j : Nat) : (s.updPart p f).home j = s.home j := rfl
@[simp] theorem State.bridge_of_updPart (s : State) (p : Nat) (f : Part → Part) (j : Nat) : (s.updPart p f).bridge j = s.bridge j := rfl
@[simp] theorem State.crew_of_setAsid (s : State) (a : Nat) (v : AsidRegs) (j : Nat) : (s.setAsid a v).crew j = s.crew j := rfl
@[simp] theorem State.gang_of_setAsid (s : State) (a : Nat) (v : AsidRegs) (j : Nat) : (s.setAsid a v).gang j = s.gang j := rfl
@[simp] theorem State.core_of_setAsid (s : State) (a : Nat) (v : AsidRegs) (j : Nat) : (s.setAsid a v).core j = s.core j := rfl
@[simp] theorem State.cluster_of_setAsid (s : State) (a : Nat) (v : AsidRegs) (j : Nat) : (s.setAsid a v).cluster j = s.cluster j := rfl
@[simp] theorem State.mgmt_of_setAsid (s : State) (a : Nat) (v : AsidRegs) (j : Nat) : (s.setAsid a v).mgmt j = s.mgmt j := rfl
@[simp] theorem State.slice_of_setAsid (s : State) (a : Nat) (v : AsidRegs) (j : Nat) : (s.setAsid a v).slice j = s.slice j := rfl
@[simp] theorem State.queue_of_setAsid (s : State) (a : Nat) (v : AsidRegs) (j : Nat) : (s.setAsid a v).queue j = s.queue j := rfl
@[simp] theorem State.part_of_setAsid (s : State) (a : Nat) (v : AsidRegs) (j : Nat) : (s.setAsid a v).part j = s.part j := rfl
@[simp] theorem State.trapRegs_of_setAsid (s : State) (a : Nat) (v : AsidRegs) (j : Nat) : (s.setAsid a v).trapRegs j = s.trapRegs j := rfl
@[simp] theorem State.launch_of_setAsid (s : State) (a : Nat) (v : AsidRegs) (j : Nat) : (s.setAsid a v).launch j = s.launch j := rfl
@[simp] theorem State.chan_of_setAsid (s : State) (a : Nat) (v : AsidRegs) (j : Nat) : (s.setAsid a v).chan j = s.chan j := rfl
@[simp] theorem State.ctrHome_of_setAsid (s : State) (a : Nat) (v : AsidRegs) (j : Nat) : (s.setAsid a v).ctrHome j = s.ctrHome j := rfl
@[simp] theorem State.home_of_setAsid (s : State) (a : Nat) (v : AsidRegs) (j : Nat) : (s.setAsid a v).home j = s.home j := rfl
@[simp] theorem State.bridge_of_setAsid (s : State) (a : Nat) (v : AsidRegs) (j : Nat) : (s.setAsid a v).bridge j = s.bridge j := rfl
@[simp] theorem State.crew_of_setLaunch (s : State) (l : Nat) (v : Launch) (j : Nat) : (s.setLaunch l v).crew j = s.crew j := rfl
@[simp] theorem State.gang_of_setLaunch (s : State) (l : Nat) (v : Launch) (j : Nat) : (s.setLaunch l v).gang j = s.gang j := rfl
@[simp] theorem State.core_of_setLaunch (s : State) (l : Nat) (v : Launch) (j : Nat) : (s.setLaunch l v).core j = s.core j := rfl
@[simp] theorem State.cluster_of_setLaunch (s : State) (l : Nat) (v : Launch) (j : Nat) : (s.setLaunch l v).cluster j = s.cluster j := rfl
@[simp] theorem State.mgmt_of_setLaunch (s : State) (l : Nat) (v : Launch) (j : Nat) : (s.setLaunch l v).mgmt j = s.mgmt j := rfl
@[simp] theorem State.slice_of_setLaunch (s : State) (l : Nat) (v : Launch) (j : Nat) : (s.setLaunch l v).slice j = s.slice j := rfl
@[simp] theorem State.queue_of_setLaunch (s : State) (l : Nat) (v : Launch) (j : Nat) : (s.setLaunch l v).queue j = s.queue j := rfl
@[simp] theorem State.part_of_setLaunch (s : State) (l : Nat) (v : Launch) (j : Nat) : (s.setLaunch l v).part j = s.part j := rfl
@[simp] theorem State.asid_of_setLaunch (s : State) (l : Nat) (v : Launch) (j : Nat) : (s.setLaunch l v).asid j = s.asid j := rfl
@[simp] theorem State.trapRegs_of_setLaunch (s : State) (l : Nat) (v : Launch) (j : Nat) : (s.setLaunch l v).trapRegs j = s.trapRegs j := rfl
@[simp] theorem State.chan_of_setLaunch (s : State) (l : Nat) (v : Launch) (j : Nat) : (s.setLaunch l v).chan j = s.chan j := rfl
@[simp] theorem State.ctrHome_of_setLaunch (s : State) (l : Nat) (v : Launch) (j : Nat) : (s.setLaunch l v).ctrHome j = s.ctrHome j := rfl
@[simp] theorem State.home_of_setLaunch (s : State) (l : Nat) (v : Launch) (j : Nat) : (s.setLaunch l v).home j = s.home j := rfl
@[simp] theorem State.bridge_of_setLaunch (s : State) (l : Nat) (v : Launch) (j : Nat) : (s.setLaunch l v).bridge j = s.bridge j := rfl
@[simp] theorem State.crew_of_updLaunch (s : State) (l : Nat) (f : Launch → Launch) (j : Nat) : (s.updLaunch l f).crew j = s.crew j := rfl
@[simp] theorem State.gang_of_updLaunch (s : State) (l : Nat) (f : Launch → Launch) (j : Nat) : (s.updLaunch l f).gang j = s.gang j := rfl
@[simp] theorem State.core_of_updLaunch (s : State) (l : Nat) (f : Launch → Launch) (j : Nat) : (s.updLaunch l f).core j = s.core j := rfl
@[simp] theorem State.cluster_of_updLaunch (s : State) (l : Nat) (f : Launch → Launch) (j : Nat) : (s.updLaunch l f).cluster j = s.cluster j := rfl
@[simp] theorem State.mgmt_of_updLaunch (s : State) (l : Nat) (f : Launch → Launch) (j : Nat) : (s.updLaunch l f).mgmt j = s.mgmt j := rfl
@[simp] theorem State.slice_of_updLaunch (s : State) (l : Nat) (f : Launch → Launch) (j : Nat) : (s.updLaunch l f).slice j = s.slice j := rfl
@[simp] theorem State.queue_of_updLaunch (s : State) (l : Nat) (f : Launch → Launch) (j : Nat) : (s.updLaunch l f).queue j = s.queue j := rfl
@[simp] theorem State.part_of_updLaunch (s : State) (l : Nat) (f : Launch → Launch) (j : Nat) : (s.updLaunch l f).part j = s.part j := rfl
@[simp] theorem State.asid_of_updLaunch (s : State) (l : Nat) (f : Launch → Launch) (j : Nat) : (s.updLaunch l f).asid j = s.asid j := rfl
@[simp] theorem State.trapRegs_of_updLaunch (s : State) (l : Nat) (f : Launch → Launch) (j : Nat) : (s.updLaunch l f).trapRegs j = s.trapRegs j := rfl
@[simp] theorem State.chan_of_updLaunch (s : State) (l : Nat) (f : Launch → Launch) (j : Nat) : (s.updLaunch l f).chan j = s.chan j := rfl
@[simp] theorem State.ctrHome_of_updLaunch (s : State) (l : Nat) (f : Launch → Launch) (j : Nat) : (s.updLaunch l f).ctrHome j = s.ctrHome j := rfl
@[simp] theorem State.home_of_updLaunch (s : State) (l : Nat) (f : Launch → Launch) (j : Nat) : (s.updLaunch l f).home j = s.home j := rfl
@[simp] theorem State.bridge_of_updLaunch (s : State) (l : Nat) (f : Launch → Launch) (j : Nat) : (s.updLaunch l f).bridge j = s.bridge j := rfl
@[simp] theorem State.crew_of_setChan (s : State) (k : Nat) (v : Chan) (j : Nat) : (s.setChan k v).crew j = s.crew j := rfl
@[simp] theorem State.gang_of_setChan (s : State) (k : Nat) (v : Chan) (j : Nat) : (s.setChan k v).gang j = s.gang j := rfl
@[simp] theorem State.core_of_setChan (s : State) (k : Nat) (v : Chan) (j : Nat) : (s.setChan k v).core j = s.core j := rfl
@[simp] theorem State.cluster_of_setChan (s : State) (k : Nat) (v : Chan) (j : Nat) : (s.setChan k v).cluster j = s.cluster j := rfl
@[simp] theorem State.mgmt_of_setChan (s : State) (k : Nat) (v : Chan) (j : Nat) : (s.setChan k v).mgmt j = s.mgmt j := rfl
@[simp] theorem State.slice_of_setChan (s : State) (k : Nat) (v : Chan) (j : Nat) : (s.setChan k v).slice j = s.slice j := rfl
@[simp] theorem State.queue_of_setChan (s : State) (k : Nat) (v : Chan) (j : Nat) : (s.setChan k v).queue j = s.queue j := rfl
@[simp] theorem State.part_of_setChan (s : State) (k : Nat) (v : Chan) (j : Nat) : (s.setChan k v).part j = s.part j := rfl
@[simp] theorem State.asid_of_setChan (s : State) (k : Nat) (v : Chan) (j : Nat) : (s.setChan k v).asid j = s.asid j := rfl
@[simp] theorem State.trapRegs_of_setChan (s : State) (k : Nat) (v : Chan) (j : Nat) : (s.setChan k v).trapRegs j = s.trapRegs j := rfl
@[simp] theorem State.launch_of_setChan (s : State) (k : Nat) (v : Chan) (j : Nat) : (s.setChan k v).launch j = s.launch j := rfl
@[simp] theorem State.ctrHome_of_setChan (s : State) (k : Nat) (v : Chan) (j : Nat) : (s.setChan k v).ctrHome j = s.ctrHome j := rfl
@[simp] theorem State.home_of_setChan (s : State) (k : Nat) (v : Chan) (j : Nat) : (s.setChan k v).home j = s.home j := rfl
@[simp] theorem State.bridge_of_setChan (s : State) (k : Nat) (v : Chan) (j : Nat) : (s.setChan k v).bridge j = s.bridge j := rfl
@[simp] theorem State.crew_of_setCtrHome (s : State) (o : Nat) (v : CtrHome) (j : Nat) : (s.setCtrHome o v).crew j = s.crew j := rfl
@[simp] theorem State.gang_of_setCtrHome (s : State) (o : Nat) (v : CtrHome) (j : Nat) : (s.setCtrHome o v).gang j = s.gang j := rfl
@[simp] theorem State.core_of_setCtrHome (s : State) (o : Nat) (v : CtrHome) (j : Nat) : (s.setCtrHome o v).core j = s.core j := rfl
@[simp] theorem State.cluster_of_setCtrHome (s : State) (o : Nat) (v : CtrHome) (j : Nat) : (s.setCtrHome o v).cluster j = s.cluster j := rfl
@[simp] theorem State.mgmt_of_setCtrHome (s : State) (o : Nat) (v : CtrHome) (j : Nat) : (s.setCtrHome o v).mgmt j = s.mgmt j := rfl
@[simp] theorem State.slice_of_setCtrHome (s : State) (o : Nat) (v : CtrHome) (j : Nat) : (s.setCtrHome o v).slice j = s.slice j := rfl
@[simp] theorem State.queue_of_setCtrHome (s : State) (o : Nat) (v : CtrHome) (j : Nat) : (s.setCtrHome o v).queue j = s.queue j := rfl
@[simp] theorem State.part_of_setCtrHome (s : State) (o : Nat) (v : CtrHome) (j : Nat) : (s.setCtrHome o v).part j = s.part j := rfl
@[simp] theorem State.asid_of_setCtrHome (s : State) (o : Nat) (v : CtrHome) (j : Nat) : (s.setCtrHome o v).asid j = s.asid j := rfl
@[simp] theorem State.trapRegs_of_setCtrHome (s : State) (o : Nat) (v : CtrHome) (j : Nat) : (s.setCtrHome o v).trapRegs j = s.trapRegs j := rfl
@[simp] theorem State.launch_of_setCtrHome (s : State) (o : Nat) (v : CtrHome) (j : Nat) : (s.setCtrHome o v).launch j = s.launch j := rfl
@[simp] theorem State.chan_of_setCtrHome (s : State) (o : Nat) (v : CtrHome) (j : Nat) : (s.setCtrHome o v).chan j = s.chan j := rfl
@[simp] theorem State.home_of_setCtrHome (s : State) (o : Nat) (v : CtrHome) (j : Nat) : (s.setCtrHome o v).home j = s.home j := rfl
@[simp] theorem State.bridge_of_setCtrHome (s : State) (o : Nat) (v : CtrHome) (j : Nat) : (s.setCtrHome o v).bridge j = s.bridge j := rfl
@[simp] theorem State.crew_of_setHome (s : State) (h : Nat) (v : Home) (j : Nat) : (s.setHome h v).crew j = s.crew j := rfl
@[simp] theorem State.gang_of_setHome (s : State) (h : Nat) (v : Home) (j : Nat) : (s.setHome h v).gang j = s.gang j := rfl
@[simp] theorem State.core_of_setHome (s : State) (h : Nat) (v : Home) (j : Nat) : (s.setHome h v).core j = s.core j := rfl
@[simp] theorem State.cluster_of_setHome (s : State) (h : Nat) (v : Home) (j : Nat) : (s.setHome h v).cluster j = s.cluster j := rfl
@[simp] theorem State.mgmt_of_setHome (s : State) (h : Nat) (v : Home) (j : Nat) : (s.setHome h v).mgmt j = s.mgmt j := rfl
@[simp] theorem State.slice_of_setHome (s : State) (h : Nat) (v : Home) (j : Nat) : (s.setHome h v).slice j = s.slice j := rfl
@[simp] theorem State.queue_of_setHome (s : State) (h : Nat) (v : Home) (j : Nat) : (s.setHome h v).queue j = s.queue j := rfl
@[simp] theorem State.part_of_setHome (s : State) (h : Nat) (v : Home) (j : Nat) : (s.setHome h v).part j = s.part j := rfl
@[simp] theorem State.asid_of_setHome (s : State) (h : Nat) (v : Home) (j : Nat) : (s.setHome h v).asid j = s.asid j := rfl
@[simp] theorem State.trapRegs_of_setHome (s : State) (h : Nat) (v : Home) (j : Nat) : (s.setHome h v).trapRegs j = s.trapRegs j := rfl
@[simp] theorem State.launch_of_setHome (s : State) (h : Nat) (v : Home) (j : Nat) : (s.setHome h v).launch j = s.launch j := rfl
@[simp] theorem State.chan_of_setHome (s : State) (h : Nat) (v : Home) (j : Nat) : (s.setHome h v).chan j = s.chan j := rfl
@[simp] theorem State.ctrHome_of_setHome (s : State) (h : Nat) (v : Home) (j : Nat) : (s.setHome h v).ctrHome j = s.ctrHome j := rfl
@[simp] theorem State.bridge_of_setHome (s : State) (h : Nat) (v : Home) (j : Nat) : (s.setHome h v).bridge j = s.bridge j := rfl
@[simp] theorem State.crew_of_setBridge (s : State) (k : Nat) (v : Bridge) (j : Nat) : (s.setBridge k v).crew j = s.crew j := rfl
@[simp] theorem State.gang_of_setBridge (s : State) (k : Nat) (v : Bridge) (j : Nat) : (s.setBridge k v).gang j = s.gang j := rfl
@[simp] theorem State.core_of_setBridge (s : State) (k : Nat) (v : Bridge) (j : Nat) : (s.setBridge k v).core j = s.core j := rfl
@[simp] theorem State.cluster_of_setBridge (s : State) (k : Nat) (v : Bridge) (j : Nat) : (s.setBridge k v).cluster j = s.cluster j := rfl
@[simp] theorem State.mgmt_of_setBridge (s : State) (k : Nat) (v : Bridge) (j : Nat) : (s.setBridge k v).mgmt j = s.mgmt j := rfl
@[simp] theorem State.slice_of_setBridge (s : State) (k : Nat) (v : Bridge) (j : Nat) : (s.setBridge k v).slice j = s.slice j := rfl
@[simp] theorem State.queue_of_setBridge (s : State) (k : Nat) (v : Bridge) (j : Nat) : (s.setBridge k v).queue j = s.queue j := rfl
@[simp] theorem State.part_of_setBridge (s : State) (k : Nat) (v : Bridge) (j : Nat) : (s.setBridge k v).part j = s.part j := rfl
@[simp] theorem State.asid_of_setBridge (s : State) (k : Nat) (v : Bridge) (j : Nat) : (s.setBridge k v).asid j = s.asid j := rfl
@[simp] theorem State.trapRegs_of_setBridge (s : State) (k : Nat) (v : Bridge) (j : Nat) : (s.setBridge k v).trapRegs j = s.trapRegs j := rfl
@[simp] theorem State.launch_of_setBridge (s : State) (k : Nat) (v : Bridge) (j : Nat) : (s.setBridge k v).launch j = s.launch j := rfl
@[simp] theorem State.chan_of_setBridge (s : State) (k : Nat) (v : Bridge) (j : Nat) : (s.setBridge k v).chan j = s.chan j := rfl
@[simp] theorem State.ctrHome_of_setBridge (s : State) (k : Nat) (v : Bridge) (j : Nat) : (s.setBridge k v).ctrHome j = s.ctrHome j := rfl
@[simp] theorem State.home_of_setBridge (s : State) (k : Nat) (v : Bridge) (j : Nat) : (s.setBridge k v).home j = s.home j := rfl
@[simp] theorem State.crew_of_raiseIrq (s : State) (v : Nat) (j : Nat) : (s.raiseIrq v).crew j = s.crew j := rfl
@[simp] theorem State.gang_of_raiseIrq (s : State) (v : Nat) (j : Nat) : (s.raiseIrq v).gang j = s.gang j := rfl
@[simp] theorem State.core_of_raiseIrq (s : State) (v : Nat) (j : Nat) : (s.raiseIrq v).core j = s.core j := rfl
@[simp] theorem State.cluster_of_raiseIrq (s : State) (v : Nat) (j : Nat) : (s.raiseIrq v).cluster j = s.cluster j := rfl
@[simp] theorem State.mgmt_of_raiseIrq (s : State) (v : Nat) (j : Nat) : (s.raiseIrq v).mgmt j = s.mgmt j := rfl
@[simp] theorem State.slice_of_raiseIrq (s : State) (v : Nat) (j : Nat) : (s.raiseIrq v).slice j = s.slice j := rfl
@[simp] theorem State.queue_of_raiseIrq (s : State) (v : Nat) (j : Nat) : (s.raiseIrq v).queue j = s.queue j := rfl
@[simp] theorem State.part_of_raiseIrq (s : State) (v : Nat) (j : Nat) : (s.raiseIrq v).part j = s.part j := rfl
@[simp] theorem State.asid_of_raiseIrq (s : State) (v : Nat) (j : Nat) : (s.raiseIrq v).asid j = s.asid j := rfl
@[simp] theorem State.trapRegs_of_raiseIrq (s : State) (v : Nat) (j : Nat) : (s.raiseIrq v).trapRegs j = s.trapRegs j := rfl
@[simp] theorem State.launch_of_raiseIrq (s : State) (v : Nat) (j : Nat) : (s.raiseIrq v).launch j = s.launch j := rfl
@[simp] theorem State.chan_of_raiseIrq (s : State) (v : Nat) (j : Nat) : (s.raiseIrq v).chan j = s.chan j := rfl
@[simp] theorem State.ctrHome_of_raiseIrq (s : State) (v : Nat) (j : Nat) : (s.raiseIrq v).ctrHome j = s.ctrHome j := rfl
@[simp] theorem State.home_of_raiseIrq (s : State) (v : Nat) (j : Nat) : (s.raiseIrq v).home j = s.home j := rfl
@[simp] theorem State.bridge_of_raiseIrq (s : State) (v : Nat) (j : Nat) : (s.raiseIrq v).bridge j = s.bridge j := rfl
@[simp] theorem State.crew_of_tick (s : State) (n : Nat) (j : Nat) : (s.tick n).crew j = s.crew j := rfl
@[simp] theorem State.gang_of_tick (s : State) (n : Nat) (j : Nat) : (s.tick n).gang j = s.gang j := rfl
@[simp] theorem State.core_of_tick (s : State) (n : Nat) (j : Nat) : (s.tick n).core j = s.core j := rfl
@[simp] theorem State.cluster_of_tick (s : State) (n : Nat) (j : Nat) : (s.tick n).cluster j = s.cluster j := rfl
@[simp] theorem State.mgmt_of_tick (s : State) (n : Nat) (j : Nat) : (s.tick n).mgmt j = s.mgmt j := rfl
@[simp] theorem State.slice_of_tick (s : State) (n : Nat) (j : Nat) : (s.tick n).slice j = s.slice j := rfl
@[simp] theorem State.queue_of_tick (s : State) (n : Nat) (j : Nat) : (s.tick n).queue j = s.queue j := rfl
@[simp] theorem State.part_of_tick (s : State) (n : Nat) (j : Nat) : (s.tick n).part j = s.part j := rfl
@[simp] theorem State.asid_of_tick (s : State) (n : Nat) (j : Nat) : (s.tick n).asid j = s.asid j := rfl
@[simp] theorem State.trapRegs_of_tick (s : State) (n : Nat) (j : Nat) : (s.tick n).trapRegs j = s.trapRegs j := rfl
@[simp] theorem State.launch_of_tick (s : State) (n : Nat) (j : Nat) : (s.tick n).launch j = s.launch j := rfl
@[simp] theorem State.chan_of_tick (s : State) (n : Nat) (j : Nat) : (s.tick n).chan j = s.chan j := rfl
@[simp] theorem State.ctrHome_of_tick (s : State) (n : Nat) (j : Nat) : (s.tick n).ctrHome j = s.ctrHome j := rfl
@[simp] theorem State.home_of_tick (s : State) (n : Nat) (j : Nat) : (s.tick n).home j = s.home j := rfl
@[simp] theorem State.bridge_of_tick (s : State) (n : Nat) (j : Nat) : (s.tick n).bridge j = s.bridge j := rfl
@[simp] theorem State.crew_of_markIssued (s : State) (c : Crew) (j : Nat) : (s.markIssued c).crew j = s.crew j := rfl
@[simp] theorem State.gang_of_markIssued (s : State) (c : Crew) (j : Nat) : (s.markIssued c).gang j = s.gang j := rfl
@[simp] theorem State.cluster_of_markIssued (s : State) (c : Crew) (j : Nat) : (s.markIssued c).cluster j = s.cluster j := rfl
@[simp] theorem State.mgmt_of_markIssued (s : State) (c : Crew) (j : Nat) : (s.markIssued c).mgmt j = s.mgmt j := rfl
@[simp] theorem State.slice_of_markIssued (s : State) (c : Crew) (j : Nat) : (s.markIssued c).slice j = s.slice j := rfl
@[simp] theorem State.queue_of_markIssued (s : State) (c : Crew) (j : Nat) : (s.markIssued c).queue j = s.queue j := rfl
@[simp] theorem State.part_of_markIssued (s : State) (c : Crew) (j : Nat) : (s.markIssued c).part j = s.part j := rfl
@[simp] theorem State.asid_of_markIssued (s : State) (c : Crew) (j : Nat) : (s.markIssued c).asid j = s.asid j := rfl
@[simp] theorem State.trapRegs_of_markIssued (s : State) (c : Crew) (j : Nat) : (s.markIssued c).trapRegs j = s.trapRegs j := rfl
@[simp] theorem State.launch_of_markIssued (s : State) (c : Crew) (j : Nat) : (s.markIssued c).launch j = s.launch j := rfl
@[simp] theorem State.chan_of_markIssued (s : State) (c : Crew) (j : Nat) : (s.markIssued c).chan j = s.chan j := rfl
@[simp] theorem State.ctrHome_of_markIssued (s : State) (c : Crew) (j : Nat) : (s.markIssued c).ctrHome j = s.ctrHome j := rfl
@[simp] theorem State.home_of_markIssued (s : State) (c : Crew) (j : Nat) : (s.markIssued c).home j = s.home j := rfl
@[simp] theorem State.bridge_of_markIssued (s : State) (c : Crew) (j : Nat) : (s.markIssued c).bridge j = s.bridge j := rfl
@[simp] theorem State.gangLaunch_of_setCrew (s : State) (k : Nat) (c : Crew) (j : Nat) : (s.setCrew k c).gangLaunch j = s.gangLaunch j := rfl
@[simp] theorem State.gangAsid_of_setCrew (s : State) (k : Nat) (c : Crew) (j : Nat) : (s.setCrew k c).gangAsid j = s.gangAsid j := rfl
@[simp] theorem State.gangPart_of_setCrew (s : State) (k : Nat) (c : Crew) (j : Nat) : (s.setCrew k c).gangPart j = s.gangPart j := rfl
@[simp] theorem State.gangDet_of_setCrew (s : State) (k : Nat) (c : Crew) (j : Nat) : (s.setCrew k c).gangDet j = s.gangDet j := rfl
@[simp] theorem State.gangDesc_of_setCrew (s : State) (k : Nat) (c : Crew) (j : Nat) : (s.setCrew k c).gangDesc j = s.gangDesc j := rfl
@[simp] theorem State.gangLaunch_of_updCrew (s : State) (k : Nat) (f : Crew → Crew) (j : Nat) : (s.updCrew k f).gangLaunch j = s.gangLaunch j := rfl
@[simp] theorem State.gangAsid_of_updCrew (s : State) (k : Nat) (f : Crew → Crew) (j : Nat) : (s.updCrew k f).gangAsid j = s.gangAsid j := rfl
@[simp] theorem State.gangPart_of_updCrew (s : State) (k : Nat) (f : Crew → Crew) (j : Nat) : (s.updCrew k f).gangPart j = s.gangPart j := rfl
@[simp] theorem State.gangDet_of_updCrew (s : State) (k : Nat) (f : Crew → Crew) (j : Nat) : (s.updCrew k f).gangDet j = s.gangDet j := rfl
@[simp] theorem State.gangDesc_of_updCrew (s : State) (k : Nat) (f : Crew → Crew) (j : Nat) : (s.updCrew k f).gangDesc j = s.gangDesc j := rfl
@[simp] theorem State.gangLaunch_of_setCore (s : State) (c : Nat) (v : CoreSt) (j : Nat) : (s.setCore c v).gangLaunch j = s.gangLaunch j := rfl
@[simp] theorem State.gangAsid_of_setCore (s : State) (c : Nat) (v : CoreSt) (j : Nat) : (s.setCore c v).gangAsid j = s.gangAsid j := rfl
@[simp] theorem State.gangPart_of_setCore (s : State) (c : Nat) (v : CoreSt) (j : Nat) : (s.setCore c v).gangPart j = s.gangPart j := rfl
@[simp] theorem State.gangDet_of_setCore (s : State) (c : Nat) (v : CoreSt) (j : Nat) : (s.setCore c v).gangDet j = s.gangDet j := rfl
@[simp] theorem State.gangDesc_of_setCore (s : State) (c : Nat) (v : CoreSt) (j : Nat) : (s.setCore c v).gangDesc j = s.gangDesc j := rfl
@[simp] theorem State.gangLaunch_of_updCore (s : State) (c : Nat) (f : CoreSt → CoreSt) (j : Nat) : (s.updCore c f).gangLaunch j = s.gangLaunch j := rfl
@[simp] theorem State.gangAsid_of_updCore (s : State) (c : Nat) (f : CoreSt → CoreSt) (j : Nat) : (s.updCore c f).gangAsid j = s.gangAsid j := rfl
@[simp] theorem State.gangPart_of_updCore (s : State) (c : Nat) (f : CoreSt → CoreSt) (j : Nat) : (s.updCore c f).gangPart j = s.gangPart j := rfl
@[simp] theorem State.gangDet_of_updCore (s : State) (c : Nat) (f : CoreSt → CoreSt) (j : Nat) : (s.updCore c f).gangDet j = s.gangDet j := rfl
@[simp] theorem State.gangDesc_of_updCore (s : State) (c : Nat) (f : CoreSt → CoreSt) (j : Nat) : (s.updCore c f).gangDesc j = s.gangDesc j := rfl
@[simp] theorem State.gangLaunch_of_setCluster (s : State) (k : Nat) (v : ClusterSt) (j : Nat) : (s.setCluster k v).gangLaunch j = s.gangLaunch j := rfl
@[simp] theorem State.gangAsid_of_setCluster (s : State) (k : Nat) (v : ClusterSt) (j : Nat) : (s.setCluster k v).gangAsid j = s.gangAsid j := rfl
@[simp] theorem State.gangPart_of_setCluster (s : State) (k : Nat) (v : ClusterSt) (j : Nat) : (s.setCluster k v).gangPart j = s.gangPart j := rfl
@[simp] theorem State.gangDet_of_setCluster (s : State) (k : Nat) (v : ClusterSt) (j : Nat) : (s.setCluster k v).gangDet j = s.gangDet j := rfl
@[simp] theorem State.gangDesc_of_setCluster (s : State) (k : Nat) (v : ClusterSt) (j : Nat) : (s.setCluster k v).gangDesc j = s.gangDesc j := rfl
@[simp] theorem State.gangLaunch_of_updCluster (s : State) (k : Nat) (f : ClusterSt → ClusterSt) (j : Nat) : (s.updCluster k f).gangLaunch j = s.gangLaunch j := rfl
@[simp] theorem State.gangAsid_of_updCluster (s : State) (k : Nat) (f : ClusterSt → ClusterSt) (j : Nat) : (s.updCluster k f).gangAsid j = s.gangAsid j := rfl
@[simp] theorem State.gangPart_of_updCluster (s : State) (k : Nat) (f : ClusterSt → ClusterSt) (j : Nat) : (s.updCluster k f).gangPart j = s.gangPart j := rfl
@[simp] theorem State.gangDet_of_updCluster (s : State) (k : Nat) (f : ClusterSt → ClusterSt) (j : Nat) : (s.updCluster k f).gangDet j = s.gangDet j := rfl
@[simp] theorem State.gangDesc_of_updCluster (s : State) (k : Nat) (f : ClusterSt → ClusterSt) (j : Nat) : (s.updCluster k f).gangDesc j = s.gangDesc j := rfl
@[simp] theorem State.gangLaunch_of_updMgmt (s : State) (k : Nat) (f : Mgmt → Mgmt) (j : Nat) : (s.updMgmt k f).gangLaunch j = s.gangLaunch j := rfl
@[simp] theorem State.gangAsid_of_updMgmt (s : State) (k : Nat) (f : Mgmt → Mgmt) (j : Nat) : (s.updMgmt k f).gangAsid j = s.gangAsid j := rfl
@[simp] theorem State.gangPart_of_updMgmt (s : State) (k : Nat) (f : Mgmt → Mgmt) (j : Nat) : (s.updMgmt k f).gangPart j = s.gangPart j := rfl
@[simp] theorem State.gangDet_of_updMgmt (s : State) (k : Nat) (f : Mgmt → Mgmt) (j : Nat) : (s.updMgmt k f).gangDet j = s.gangDet j := rfl
@[simp] theorem State.gangDesc_of_updMgmt (s : State) (k : Nat) (f : Mgmt → Mgmt) (j : Nat) : (s.updMgmt k f).gangDesc j = s.gangDesc j := rfl
@[simp] theorem State.gangLaunch_of_setSlice (s : State) (n : Nat) (v : Slice) (j : Nat) : (s.setSlice n v).gangLaunch j = s.gangLaunch j := rfl
@[simp] theorem State.gangAsid_of_setSlice (s : State) (n : Nat) (v : Slice) (j : Nat) : (s.setSlice n v).gangAsid j = s.gangAsid j := rfl
@[simp] theorem State.gangPart_of_setSlice (s : State) (n : Nat) (v : Slice) (j : Nat) : (s.setSlice n v).gangPart j = s.gangPart j := rfl
@[simp] theorem State.gangDet_of_setSlice (s : State) (n : Nat) (v : Slice) (j : Nat) : (s.setSlice n v).gangDet j = s.gangDet j := rfl
@[simp] theorem State.gangDesc_of_setSlice (s : State) (n : Nat) (v : Slice) (j : Nat) : (s.setSlice n v).gangDesc j = s.gangDesc j := rfl
@[simp] theorem State.gangLaunch_of_updSlice (s : State) (n : Nat) (f : Slice → Slice) (j : Nat) : (s.updSlice n f).gangLaunch j = s.gangLaunch j := rfl
@[simp] theorem State.gangAsid_of_updSlice (s : State) (n : Nat) (f : Slice → Slice) (j : Nat) : (s.updSlice n f).gangAsid j = s.gangAsid j := rfl
@[simp] theorem State.gangPart_of_updSlice (s : State) (n : Nat) (f : Slice → Slice) (j : Nat) : (s.updSlice n f).gangPart j = s.gangPart j := rfl
@[simp] theorem State.gangDet_of_updSlice (s : State) (n : Nat) (f : Slice → Slice) (j : Nat) : (s.updSlice n f).gangDet j = s.gangDet j := rfl
@[simp] theorem State.gangDesc_of_updSlice (s : State) (n : Nat) (f : Slice → Slice) (j : Nat) : (s.updSlice n f).gangDesc j = s.gangDesc j := rfl
@[simp] theorem State.gangLaunch_of_setQueue (s : State) (q : Nat) (v : QueueRegs) (j : Nat) : (s.setQueue q v).gangLaunch j = s.gangLaunch j := rfl
@[simp] theorem State.gangAsid_of_setQueue (s : State) (q : Nat) (v : QueueRegs) (j : Nat) : (s.setQueue q v).gangAsid j = s.gangAsid j := rfl
@[simp] theorem State.gangPart_of_setQueue (s : State) (q : Nat) (v : QueueRegs) (j : Nat) : (s.setQueue q v).gangPart j = s.gangPart j := rfl
@[simp] theorem State.gangDet_of_setQueue (s : State) (q : Nat) (v : QueueRegs) (j : Nat) : (s.setQueue q v).gangDet j = s.gangDet j := rfl
@[simp] theorem State.gangDesc_of_setQueue (s : State) (q : Nat) (v : QueueRegs) (j : Nat) : (s.setQueue q v).gangDesc j = s.gangDesc j := rfl
@[simp] theorem State.gangLaunch_of_setPart (s : State) (p : Nat) (v : Part) (j : Nat) : (s.setPart p v).gangLaunch j = s.gangLaunch j := rfl
@[simp] theorem State.gangAsid_of_setPart (s : State) (p : Nat) (v : Part) (j : Nat) : (s.setPart p v).gangAsid j = s.gangAsid j := rfl
@[simp] theorem State.gangPart_of_setPart (s : State) (p : Nat) (v : Part) (j : Nat) : (s.setPart p v).gangPart j = s.gangPart j := rfl
@[simp] theorem State.gangDet_of_setPart (s : State) (p : Nat) (v : Part) (j : Nat) : (s.setPart p v).gangDet j = s.gangDet j := rfl
@[simp] theorem State.gangDesc_of_setPart (s : State) (p : Nat) (v : Part) (j : Nat) : (s.setPart p v).gangDesc j = s.gangDesc j := rfl
@[simp] theorem State.gangLaunch_of_updPart (s : State) (p : Nat) (f : Part → Part) (j : Nat) : (s.updPart p f).gangLaunch j = s.gangLaunch j := rfl
@[simp] theorem State.gangAsid_of_updPart (s : State) (p : Nat) (f : Part → Part) (j : Nat) : (s.updPart p f).gangAsid j = s.gangAsid j := rfl
@[simp] theorem State.gangPart_of_updPart (s : State) (p : Nat) (f : Part → Part) (j : Nat) : (s.updPart p f).gangPart j = s.gangPart j := rfl
@[simp] theorem State.gangDet_of_updPart (s : State) (p : Nat) (f : Part → Part) (j : Nat) : (s.updPart p f).gangDet j = s.gangDet j := rfl
@[simp] theorem State.gangDesc_of_updPart (s : State) (p : Nat) (f : Part → Part) (j : Nat) : (s.updPart p f).gangDesc j = s.gangDesc j := rfl
@[simp] theorem State.gangLaunch_of_setAsid (s : State) (a : Nat) (v : AsidRegs) (j : Nat) : (s.setAsid a v).gangLaunch j = s.gangLaunch j := rfl
@[simp] theorem State.gangAsid_of_setAsid (s : State) (a : Nat) (v : AsidRegs) (j : Nat) : (s.setAsid a v).gangAsid j = s.gangAsid j := rfl
@[simp] theorem State.gangPart_of_setAsid (s : State) (a : Nat) (v : AsidRegs) (j : Nat) : (s.setAsid a v).gangPart j = s.gangPart j := rfl
@[simp] theorem State.gangDet_of_setAsid (s : State) (a : Nat) (v : AsidRegs) (j : Nat) : (s.setAsid a v).gangDet j = s.gangDet j := rfl
@[simp] theorem State.gangDesc_of_setAsid (s : State) (a : Nat) (v : AsidRegs) (j : Nat) : (s.setAsid a v).gangDesc j = s.gangDesc j := rfl
@[simp] theorem State.gangLaunch_of_setChan (s : State) (k : Nat) (v : Chan) (j : Nat) : (s.setChan k v).gangLaunch j = s.gangLaunch j := rfl
@[simp] theorem State.gangAsid_of_setChan (s : State) (k : Nat) (v : Chan) (j : Nat) : (s.setChan k v).gangAsid j = s.gangAsid j := rfl
@[simp] theorem State.gangPart_of_setChan (s : State) (k : Nat) (v : Chan) (j : Nat) : (s.setChan k v).gangPart j = s.gangPart j := rfl
@[simp] theorem State.gangDet_of_setChan (s : State) (k : Nat) (v : Chan) (j : Nat) : (s.setChan k v).gangDet j = s.gangDet j := rfl
@[simp] theorem State.gangDesc_of_setChan (s : State) (k : Nat) (v : Chan) (j : Nat) : (s.setChan k v).gangDesc j = s.gangDesc j := rfl
@[simp] theorem State.gangLaunch_of_setCtrHome (s : State) (o : Nat) (v : CtrHome) (j : Nat) : (s.setCtrHome o v).gangLaunch j = s.gangLaunch j := rfl
@[simp] theorem State.gangAsid_of_setCtrHome (s : State) (o : Nat) (v : CtrHome) (j : Nat) : (s.setCtrHome o v).gangAsid j = s.gangAsid j := rfl
@[simp] theorem State.gangPart_of_setCtrHome (s : State) (o : Nat) (v : CtrHome) (j : Nat) : (s.setCtrHome o v).gangPart j = s.gangPart j := rfl
@[simp] theorem State.gangDet_of_setCtrHome (s : State) (o : Nat) (v : CtrHome) (j : Nat) : (s.setCtrHome o v).gangDet j = s.gangDet j := rfl
@[simp] theorem State.gangDesc_of_setCtrHome (s : State) (o : Nat) (v : CtrHome) (j : Nat) : (s.setCtrHome o v).gangDesc j = s.gangDesc j := rfl
@[simp] theorem State.gangLaunch_of_setHome (s : State) (h : Nat) (v : Home) (j : Nat) : (s.setHome h v).gangLaunch j = s.gangLaunch j := rfl
@[simp] theorem State.gangAsid_of_setHome (s : State) (h : Nat) (v : Home) (j : Nat) : (s.setHome h v).gangAsid j = s.gangAsid j := rfl
@[simp] theorem State.gangPart_of_setHome (s : State) (h : Nat) (v : Home) (j : Nat) : (s.setHome h v).gangPart j = s.gangPart j := rfl
@[simp] theorem State.gangDet_of_setHome (s : State) (h : Nat) (v : Home) (j : Nat) : (s.setHome h v).gangDet j = s.gangDet j := rfl
@[simp] theorem State.gangDesc_of_setHome (s : State) (h : Nat) (v : Home) (j : Nat) : (s.setHome h v).gangDesc j = s.gangDesc j := rfl
@[simp] theorem State.gangLaunch_of_setBridge (s : State) (k : Nat) (v : Bridge) (j : Nat) : (s.setBridge k v).gangLaunch j = s.gangLaunch j := rfl
@[simp] theorem State.gangAsid_of_setBridge (s : State) (k : Nat) (v : Bridge) (j : Nat) : (s.setBridge k v).gangAsid j = s.gangAsid j := rfl
@[simp] theorem State.gangPart_of_setBridge (s : State) (k : Nat) (v : Bridge) (j : Nat) : (s.setBridge k v).gangPart j = s.gangPart j := rfl
@[simp] theorem State.gangDet_of_setBridge (s : State) (k : Nat) (v : Bridge) (j : Nat) : (s.setBridge k v).gangDet j = s.gangDet j := rfl
@[simp] theorem State.gangDesc_of_setBridge (s : State) (k : Nat) (v : Bridge) (j : Nat) : (s.setBridge k v).gangDesc j = s.gangDesc j := rfl
@[simp] theorem State.gangLaunch_of_raiseIrq (s : State) (v : Nat) (j : Nat) : (s.raiseIrq v).gangLaunch j = s.gangLaunch j := rfl
@[simp] theorem State.gangAsid_of_raiseIrq (s : State) (v : Nat) (j : Nat) : (s.raiseIrq v).gangAsid j = s.gangAsid j := rfl
@[simp] theorem State.gangPart_of_raiseIrq (s : State) (v : Nat) (j : Nat) : (s.raiseIrq v).gangPart j = s.gangPart j := rfl
@[simp] theorem State.gangDet_of_raiseIrq (s : State) (v : Nat) (j : Nat) : (s.raiseIrq v).gangDet j = s.gangDet j := rfl
@[simp] theorem State.gangDesc_of_raiseIrq (s : State) (v : Nat) (j : Nat) : (s.raiseIrq v).gangDesc j = s.gangDesc j := rfl
@[simp] theorem State.gangLaunch_of_tick (s : State) (n : Nat) (j : Nat) : (s.tick n).gangLaunch j = s.gangLaunch j := rfl
@[simp] theorem State.gangAsid_of_tick (s : State) (n : Nat) (j : Nat) : (s.tick n).gangAsid j = s.gangAsid j := rfl
@[simp] theorem State.gangPart_of_tick (s : State) (n : Nat) (j : Nat) : (s.tick n).gangPart j = s.gangPart j := rfl
@[simp] theorem State.gangDet_of_tick (s : State) (n : Nat) (j : Nat) : (s.tick n).gangDet j = s.gangDet j := rfl
@[simp] theorem State.gangDesc_of_tick (s : State) (n : Nat) (j : Nat) : (s.tick n).gangDesc j = s.gangDesc j := rfl
@[simp] theorem State.gangLaunch_of_markIssued (s : State) (c : Crew) (j : Nat) : (s.markIssued c).gangLaunch j = s.gangLaunch j := rfl
@[simp] theorem State.gangAsid_of_markIssued (s : State) (c : Crew) (j : Nat) : (s.markIssued c).gangAsid j = s.gangAsid j := rfl
@[simp] theorem State.gangPart_of_markIssued (s : State) (c : Crew) (j : Nat) : (s.markIssued c).gangPart j = s.gangPart j := rfl
@[simp] theorem State.gangDet_of_markIssued (s : State) (c : Crew) (j : Nat) : (s.markIssued c).gangDet j = s.gangDet j := rfl
@[simp] theorem State.gangDesc_of_markIssued (s : State) (c : Crew) (j : Nat) : (s.markIssued c).gangDesc j = s.gangDesc j := rfl

/-! `Crew.addFix` -/

@[simp] theorem Crew.addFix_gid (c : Crew) (e r : Nat) (ws : List RegWrite) : (c.addFix e r ws).gid = c.gid := rfl
@[simp] theorem Crew.addFix_idx (c : Crew) (e r : Nat) (ws : List RegWrite) : (c.addFix e r ws).idx = c.idx := rfl
@[simp] theorem Crew.addFix_core (c : Crew) (e r : Nat) (ws : List RegWrite) : (c.addFix e r ws).core = c.core := rfl
@[simp] theorem Crew.addFix_slot (c : Crew) (e r : Nat) (ws : List RegWrite) : (c.addFix e r ws).slot = c.slot := rfl
@[simp] theorem Crew.addFix_pipe (c : Crew) (e r : Nat) (ws : List RegWrite) : (c.addFix e r ws).pipe = c.pipe := rfl
@[simp] theorem Crew.addFix_role (c : Crew) (e r : Nat) (ws : List RegWrite) : (c.addFix e r ws).role = c.role := rfl
@[simp] theorem Crew.addFix_budget (c : Crew) (e r : Nat) (ws : List RegWrite) : (c.addFix e r ws).budget = c.budget := rfl
@[simp] theorem Crew.addFix_ntiles (c : Crew) (e r : Nat) (ws : List RegWrite) : (c.addFix e r ws).ntiles = c.ntiles := rfl
@[simp] theorem Crew.addFix_vr (c : Crew) (e r : Nat) (ws : List RegWrite) : (c.addFix e r ws).vr = c.vr := rfl
@[simp] theorem Crew.addFix_wb (c : Crew) (e r : Nat) (ws : List RegWrite) : (c.addFix e r ws).wb = c.wb := rfl
@[simp] theorem Crew.addFix_lo (c : Crew) (e r : Nat) (ws : List RegWrite) : (c.addFix e r ws).lo = c.lo := rfl
@[simp] theorem Crew.addFix_spillBase (c : Crew) (e r : Nat) (ws : List RegWrite) : (c.addFix e r ws).spillBase = c.spillBase := rfl
@[simp] theorem Crew.addFix_spillSz (c : Crew) (e r : Nat) (ws : List RegWrite) : (c.addFix e r ws).spillSz = c.spillSz := rfl
@[simp] theorem Crew.addFix_sr (c : Crew) (e r : Nat) (ws : List RegWrite) : (c.addFix e r ws).sr = c.sr := rfl
@[simp] theorem Crew.addFix_pr (c : Crew) (e r : Nat) (ws : List RegWrite) : (c.addFix e r ws).pr = c.pr := rfl
@[simp] theorem Crew.addFix_bind (c : Crew) (e r : Nat) (ws : List RegWrite) : (c.addFix e r ws).bind = c.bind := rfl
@[simp] theorem Crew.addFix_tc (c : Crew) (e r : Nat) (ws : List RegWrite) : (c.addFix e r ws).tc = c.tc := rfl
@[simp] theorem Crew.addFix_status (c : Crew) (e r : Nat) (ws : List RegWrite) : (c.addFix e r ws).status = c.status := rfl
@[simp] theorem Crew.addFix_pts (c : Crew) (e r : Nat) (ws : List RegWrite) : (c.addFix e r ws).pts = c.pts := rfl
@[simp] theorem Crew.addFix_live (c : Crew) (e r : Nat) (ws : List RegWrite) : (c.addFix e r ws).live = c.live := rfl
@[simp] theorem Crew.addFix_splits (c : Crew) (e r : Nat) (ws : List RegWrite) : (c.addFix e r ws).splits = c.splits := rfl
@[simp] theorem Crew.addFix_recs (c : Crew) (e r : Nat) (ws : List RegWrite) : (c.addFix e r ws).recs = c.recs := rfl
@[simp] theorem Crew.addFix_pend (c : Crew) (e r : Nat) (ws : List RegWrite) : (c.addFix e r ws).pend = c.pend := rfl
@[simp] theorem Crew.addFix_reqs (c : Crew) (e r : Nat) (ws : List RegWrite) : (c.addFix e r ws).reqs = c.reqs := rfl
@[simp] theorem Crew.addFix_acks (c : Crew) (e r : Nat) (ws : List RegWrite) : (c.addFix e r ws).acks = c.acks := rfl
@[simp] theorem Crew.addFix_fences (c : Crew) (e r : Nat) (ws : List RegWrite) : (c.addFix e r ws).fences = c.fences := rfl
@[simp] theorem Crew.addFix_walks (c : Crew) (e r : Nat) (ws : List RegWrite) : (c.addFix e r ws).walks = c.walks := rfl
@[simp] theorem Crew.addFix_batchCtr (c : Crew) (e r : Nat) (ws : List RegWrite) : (c.addFix e r ws).batchCtr = c.batchCtr := rfl
@[simp] theorem Crew.addFix_openCmds (c : Crew) (e r : Nat) (ws : List RegWrite) : (c.addFix e r ws).openCmds = c.openCmds := rfl
@[simp] theorem Crew.addFix_openStatus (c : Crew) (e r : Nat) (ws : List RegWrite) : (c.addFix e r ws).openStatus = c.openStatus := rfl
@[simp] theorem Crew.addFix_openTrap (c : Crew) (e r : Nat) (ws : List RegWrite) : (c.addFix e r ws).openTrap = c.openTrap := rfl
@[simp] theorem Crew.addFix_openPts (c : Crew) (e r : Nat) (ws : List RegWrite) : (c.addFix e r ws).openPts = c.openPts := rfl
@[simp] theorem Crew.addFix_batches (c : Crew) (e r : Nat) (ws : List RegWrite) : (c.addFix e r ws).batches = c.batches := rfl
@[simp] theorem Crew.addFix_trap (c : Crew) (e r : Nat) (ws : List RegWrite) : (c.addFix e r ws).trap = c.trap := rfl
@[simp] theorem Crew.addFix_pumpFault (c : Crew) (e r : Nat) (ws : List RegWrite) : (c.addFix e r ws).pumpFault = c.pumpFault := rfl
@[simp] theorem Crew.addFix_cap (c : Crew) (e r : Nat) (ws : List RegWrite) : (c.addFix e r ws).cap = c.cap := rfl
@[simp] theorem Crew.addFix_arr (c : Crew) (e r : Nat) (ws : List RegWrite) : (c.addFix e r ws).arr = c.arr := rfl
@[simp] theorem Crew.addFix_detRun (c : Crew) (e r : Nat) (ws : List RegWrite) : (c.addFix e r ws).detRun = c.detRun := rfl
@[simp] theorem Crew.addFix_bad (c : Crew) (e r : Nat) (ws : List RegWrite) : (c.addFix e r ws).bad = c.bad := rfl
@[simp] theorem Crew.addFix_tbusy (c : Crew) (e r : Nat) (ws : List RegWrite) : (c.addFix e r ws).tbusy = c.tbusy := rfl

/-! `Crew.addPend` -/

@[simp] theorem Crew.addPend_gid (c : Crew) (e : Nat) (ws : List RegWrite) : (c.addPend e ws).gid = c.gid := rfl
@[simp] theorem Crew.addPend_idx (c : Crew) (e : Nat) (ws : List RegWrite) : (c.addPend e ws).idx = c.idx := rfl
@[simp] theorem Crew.addPend_core (c : Crew) (e : Nat) (ws : List RegWrite) : (c.addPend e ws).core = c.core := rfl
@[simp] theorem Crew.addPend_slot (c : Crew) (e : Nat) (ws : List RegWrite) : (c.addPend e ws).slot = c.slot := rfl
@[simp] theorem Crew.addPend_pipe (c : Crew) (e : Nat) (ws : List RegWrite) : (c.addPend e ws).pipe = c.pipe := rfl
@[simp] theorem Crew.addPend_role (c : Crew) (e : Nat) (ws : List RegWrite) : (c.addPend e ws).role = c.role := rfl
@[simp] theorem Crew.addPend_budget (c : Crew) (e : Nat) (ws : List RegWrite) : (c.addPend e ws).budget = c.budget := rfl
@[simp] theorem Crew.addPend_ntiles (c : Crew) (e : Nat) (ws : List RegWrite) : (c.addPend e ws).ntiles = c.ntiles := rfl
@[simp] theorem Crew.addPend_vr (c : Crew) (e : Nat) (ws : List RegWrite) : (c.addPend e ws).vr = c.vr := rfl
@[simp] theorem Crew.addPend_wb (c : Crew) (e : Nat) (ws : List RegWrite) : (c.addPend e ws).wb = c.wb := rfl
@[simp] theorem Crew.addPend_lo (c : Crew) (e : Nat) (ws : List RegWrite) : (c.addPend e ws).lo = c.lo := rfl
@[simp] theorem Crew.addPend_spillBase (c : Crew) (e : Nat) (ws : List RegWrite) : (c.addPend e ws).spillBase = c.spillBase := rfl
@[simp] theorem Crew.addPend_spillSz (c : Crew) (e : Nat) (ws : List RegWrite) : (c.addPend e ws).spillSz = c.spillSz := rfl
@[simp] theorem Crew.addPend_sr (c : Crew) (e : Nat) (ws : List RegWrite) : (c.addPend e ws).sr = c.sr := rfl
@[simp] theorem Crew.addPend_pr (c : Crew) (e : Nat) (ws : List RegWrite) : (c.addPend e ws).pr = c.pr := rfl
@[simp] theorem Crew.addPend_bind (c : Crew) (e : Nat) (ws : List RegWrite) : (c.addPend e ws).bind = c.bind := rfl
@[simp] theorem Crew.addPend_tc (c : Crew) (e : Nat) (ws : List RegWrite) : (c.addPend e ws).tc = c.tc := rfl
@[simp] theorem Crew.addPend_status (c : Crew) (e : Nat) (ws : List RegWrite) : (c.addPend e ws).status = c.status := rfl
@[simp] theorem Crew.addPend_pts (c : Crew) (e : Nat) (ws : List RegWrite) : (c.addPend e ws).pts = c.pts := rfl
@[simp] theorem Crew.addPend_live (c : Crew) (e : Nat) (ws : List RegWrite) : (c.addPend e ws).live = c.live := rfl
@[simp] theorem Crew.addPend_splits (c : Crew) (e : Nat) (ws : List RegWrite) : (c.addPend e ws).splits = c.splits := rfl
@[simp] theorem Crew.addPend_recs (c : Crew) (e : Nat) (ws : List RegWrite) : (c.addPend e ws).recs = c.recs := rfl
@[simp] theorem Crew.addPend_fix (c : Crew) (e : Nat) (ws : List RegWrite) : (c.addPend e ws).fix = c.fix := rfl
@[simp] theorem Crew.addPend_reqs (c : Crew) (e : Nat) (ws : List RegWrite) : (c.addPend e ws).reqs = c.reqs := rfl
@[simp] theorem Crew.addPend_acks (c : Crew) (e : Nat) (ws : List RegWrite) : (c.addPend e ws).acks = c.acks := rfl
@[simp] theorem Crew.addPend_fences (c : Crew) (e : Nat) (ws : List RegWrite) : (c.addPend e ws).fences = c.fences := rfl
@[simp] theorem Crew.addPend_walks (c : Crew) (e : Nat) (ws : List RegWrite) : (c.addPend e ws).walks = c.walks := rfl
@[simp] theorem Crew.addPend_batchCtr (c : Crew) (e : Nat) (ws : List RegWrite) : (c.addPend e ws).batchCtr = c.batchCtr := rfl
@[simp] theorem Crew.addPend_openCmds (c : Crew) (e : Nat) (ws : List RegWrite) : (c.addPend e ws).openCmds = c.openCmds := rfl
@[simp] theorem Crew.addPend_openStatus (c : Crew) (e : Nat) (ws : List RegWrite) : (c.addPend e ws).openStatus = c.openStatus := rfl
@[simp] theorem Crew.addPend_openTrap (c : Crew) (e : Nat) (ws : List RegWrite) : (c.addPend e ws).openTrap = c.openTrap := rfl
@[simp] theorem Crew.addPend_openPts (c : Crew) (e : Nat) (ws : List RegWrite) : (c.addPend e ws).openPts = c.openPts := rfl
@[simp] theorem Crew.addPend_batches (c : Crew) (e : Nat) (ws : List RegWrite) : (c.addPend e ws).batches = c.batches := rfl
@[simp] theorem Crew.addPend_trap (c : Crew) (e : Nat) (ws : List RegWrite) : (c.addPend e ws).trap = c.trap := rfl
@[simp] theorem Crew.addPend_pumpFault (c : Crew) (e : Nat) (ws : List RegWrite) : (c.addPend e ws).pumpFault = c.pumpFault := rfl
@[simp] theorem Crew.addPend_cap (c : Crew) (e : Nat) (ws : List RegWrite) : (c.addPend e ws).cap = c.cap := rfl
@[simp] theorem Crew.addPend_arr (c : Crew) (e : Nat) (ws : List RegWrite) : (c.addPend e ws).arr = c.arr := rfl
@[simp] theorem Crew.addPend_detRun (c : Crew) (e : Nat) (ws : List RegWrite) : (c.addPend e ws).detRun = c.detRun := rfl
@[simp] theorem Crew.addPend_bad (c : Crew) (e : Nat) (ws : List RegWrite) : (c.addPend e ws).bad = c.bad := rfl
@[simp] theorem Crew.addPend_tbusy (c : Crew) (e : Nat) (ws : List RegWrite) : (c.addPend e ws).tbusy = c.tbusy := rfl

/-! `Crew.orFlags` -/

@[simp] theorem Crew.orFlags_gid (c : Crew) (f : Flags) : (c.orFlags f).gid = c.gid := rfl
@[simp] theorem Crew.orFlags_idx (c : Crew) (f : Flags) : (c.orFlags f).idx = c.idx := rfl
@[simp] theorem Crew.orFlags_core (c : Crew) (f : Flags) : (c.orFlags f).core = c.core := rfl
@[simp] theorem Crew.orFlags_slot (c : Crew) (f : Flags) : (c.orFlags f).slot = c.slot := rfl
@[simp] theorem Crew.orFlags_pipe (c : Crew) (f : Flags) : (c.orFlags f).pipe = c.pipe := rfl
@[simp] theorem Crew.orFlags_role (c : Crew) (f : Flags) : (c.orFlags f).role = c.role := rfl
@[simp] theorem Crew.orFlags_budget (c : Crew) (f : Flags) : (c.orFlags f).budget = c.budget := rfl
@[simp] theorem Crew.orFlags_ntiles (c : Crew) (f : Flags) : (c.orFlags f).ntiles = c.ntiles := rfl
@[simp] theorem Crew.orFlags_vr (c : Crew) (f : Flags) : (c.orFlags f).vr = c.vr := rfl
@[simp] theorem Crew.orFlags_wb (c : Crew) (f : Flags) : (c.orFlags f).wb = c.wb := rfl
@[simp] theorem Crew.orFlags_lo (c : Crew) (f : Flags) : (c.orFlags f).lo = c.lo := rfl
@[simp] theorem Crew.orFlags_spillBase (c : Crew) (f : Flags) : (c.orFlags f).spillBase = c.spillBase := rfl
@[simp] theorem Crew.orFlags_spillSz (c : Crew) (f : Flags) : (c.orFlags f).spillSz = c.spillSz := rfl
@[simp] theorem Crew.orFlags_sr (c : Crew) (f : Flags) : (c.orFlags f).sr = c.sr := rfl
@[simp] theorem Crew.orFlags_pr (c : Crew) (f : Flags) : (c.orFlags f).pr = c.pr := rfl
@[simp] theorem Crew.orFlags_bind (c : Crew) (f : Flags) : (c.orFlags f).bind = c.bind := rfl
@[simp] theorem Crew.orFlags_tc (c : Crew) (f : Flags) : (c.orFlags f).tc = c.tc := rfl
@[simp] theorem Crew.orFlags_pts (c : Crew) (f : Flags) : (c.orFlags f).pts = c.pts := rfl
@[simp] theorem Crew.orFlags_live (c : Crew) (f : Flags) : (c.orFlags f).live = c.live := rfl
@[simp] theorem Crew.orFlags_splits (c : Crew) (f : Flags) : (c.orFlags f).splits = c.splits := rfl
@[simp] theorem Crew.orFlags_recs (c : Crew) (f : Flags) : (c.orFlags f).recs = c.recs := rfl
@[simp] theorem Crew.orFlags_seq (c : Crew) (f : Flags) : (c.orFlags f).seq = c.seq := rfl
@[simp] theorem Crew.orFlags_fix (c : Crew) (f : Flags) : (c.orFlags f).fix = c.fix := rfl
@[simp] theorem Crew.orFlags_pend (c : Crew) (f : Flags) : (c.orFlags f).pend = c.pend := rfl
@[simp] theorem Crew.orFlags_reqs (c : Crew) (f : Flags) : (c.orFlags f).reqs = c.reqs := rfl
@[simp] theorem Crew.orFlags_acks (c : Crew) (f : Flags) : (c.orFlags f).acks = c.acks := rfl
@[simp] theorem Crew.orFlags_fences (c : Crew) (f : Flags) : (c.orFlags f).fences = c.fences := rfl
@[simp] theorem Crew.orFlags_walks (c : Crew) (f : Flags) : (c.orFlags f).walks = c.walks := rfl
@[simp] theorem Crew.orFlags_batchCtr (c : Crew) (f : Flags) : (c.orFlags f).batchCtr = c.batchCtr := rfl
@[simp] theorem Crew.orFlags_openCmds (c : Crew) (f : Flags) : (c.orFlags f).openCmds = c.openCmds := rfl
@[simp] theorem Crew.orFlags_openStatus (c : Crew) (f : Flags) : (c.orFlags f).openStatus = c.openStatus := rfl
@[simp] theorem Crew.orFlags_openTrap (c : Crew) (f : Flags) : (c.orFlags f).openTrap = c.openTrap := rfl
@[simp] theorem Crew.orFlags_openPts (c : Crew) (f : Flags) : (c.orFlags f).openPts = c.openPts := rfl
@[simp] theorem Crew.orFlags_batches (c : Crew) (f : Flags) : (c.orFlags f).batches = c.batches := rfl
@[simp] theorem Crew.orFlags_trap (c : Crew) (f : Flags) : (c.orFlags f).trap = c.trap := rfl
@[simp] theorem Crew.orFlags_pumpFault (c : Crew) (f : Flags) : (c.orFlags f).pumpFault = c.pumpFault := rfl
@[simp] theorem Crew.orFlags_cap (c : Crew) (f : Flags) : (c.orFlags f).cap = c.cap := rfl
@[simp] theorem Crew.orFlags_arr (c : Crew) (f : Flags) : (c.orFlags f).arr = c.arr := rfl
@[simp] theorem Crew.orFlags_detRun (c : Crew) (f : Flags) : (c.orFlags f).detRun = c.detRun := rfl
@[simp] theorem Crew.orFlags_bad (c : Crew) (f : Flags) : (c.orFlags f).bad = c.bad := rfl
@[simp] theorem Crew.orFlags_tbusy (c : Crew) (f : Flags) : (c.orFlags f).tbusy = c.tbusy := rfl

/-! `Crew.setSplit` -/

@[simp] theorem Crew.setSplit_gid (c : Crew) (e : Nat) (sp : Split) : (c.setSplit e sp).gid = c.gid := rfl
@[simp] theorem Crew.setSplit_idx (c : Crew) (e : Nat) (sp : Split) : (c.setSplit e sp).idx = c.idx := rfl
@[simp] theorem Crew.setSplit_core (c : Crew) (e : Nat) (sp : Split) : (c.setSplit e sp).core = c.core := rfl
@[simp] theorem Crew.setSplit_slot (c : Crew) (e : Nat) (sp : Split) : (c.setSplit e sp).slot = c.slot := rfl
@[simp] theorem Crew.setSplit_pipe (c : Crew) (e : Nat) (sp : Split) : (c.setSplit e sp).pipe = c.pipe := rfl
@[simp] theorem Crew.setSplit_role (c : Crew) (e : Nat) (sp : Split) : (c.setSplit e sp).role = c.role := rfl
@[simp] theorem Crew.setSplit_budget (c : Crew) (e : Nat) (sp : Split) : (c.setSplit e sp).budget = c.budget := rfl
@[simp] theorem Crew.setSplit_ntiles (c : Crew) (e : Nat) (sp : Split) : (c.setSplit e sp).ntiles = c.ntiles := rfl
@[simp] theorem Crew.setSplit_vr (c : Crew) (e : Nat) (sp : Split) : (c.setSplit e sp).vr = c.vr := rfl
@[simp] theorem Crew.setSplit_wb (c : Crew) (e : Nat) (sp : Split) : (c.setSplit e sp).wb = c.wb := rfl
@[simp] theorem Crew.setSplit_lo (c : Crew) (e : Nat) (sp : Split) : (c.setSplit e sp).lo = c.lo := rfl
@[simp] theorem Crew.setSplit_spillBase (c : Crew) (e : Nat) (sp : Split) : (c.setSplit e sp).spillBase = c.spillBase := rfl
@[simp] theorem Crew.setSplit_spillSz (c : Crew) (e : Nat) (sp : Split) : (c.setSplit e sp).spillSz = c.spillSz := rfl
@[simp] theorem Crew.setSplit_sr (c : Crew) (e : Nat) (sp : Split) : (c.setSplit e sp).sr = c.sr := rfl
@[simp] theorem Crew.setSplit_pr (c : Crew) (e : Nat) (sp : Split) : (c.setSplit e sp).pr = c.pr := rfl
@[simp] theorem Crew.setSplit_bind (c : Crew) (e : Nat) (sp : Split) : (c.setSplit e sp).bind = c.bind := rfl
@[simp] theorem Crew.setSplit_tc (c : Crew) (e : Nat) (sp : Split) : (c.setSplit e sp).tc = c.tc := rfl
@[simp] theorem Crew.setSplit_status (c : Crew) (e : Nat) (sp : Split) : (c.setSplit e sp).status = c.status := rfl
@[simp] theorem Crew.setSplit_pts (c : Crew) (e : Nat) (sp : Split) : (c.setSplit e sp).pts = c.pts := rfl
@[simp] theorem Crew.setSplit_live (c : Crew) (e : Nat) (sp : Split) : (c.setSplit e sp).live = c.live := rfl
@[simp] theorem Crew.setSplit_recs (c : Crew) (e : Nat) (sp : Split) : (c.setSplit e sp).recs = c.recs := rfl
@[simp] theorem Crew.setSplit_seq (c : Crew) (e : Nat) (sp : Split) : (c.setSplit e sp).seq = c.seq := rfl
@[simp] theorem Crew.setSplit_fix (c : Crew) (e : Nat) (sp : Split) : (c.setSplit e sp).fix = c.fix := rfl
@[simp] theorem Crew.setSplit_pend (c : Crew) (e : Nat) (sp : Split) : (c.setSplit e sp).pend = c.pend := rfl
@[simp] theorem Crew.setSplit_reqs (c : Crew) (e : Nat) (sp : Split) : (c.setSplit e sp).reqs = c.reqs := rfl
@[simp] theorem Crew.setSplit_acks (c : Crew) (e : Nat) (sp : Split) : (c.setSplit e sp).acks = c.acks := rfl
@[simp] theorem Crew.setSplit_fences (c : Crew) (e : Nat) (sp : Split) : (c.setSplit e sp).fences = c.fences := rfl
@[simp] theorem Crew.setSplit_walks (c : Crew) (e : Nat) (sp : Split) : (c.setSplit e sp).walks = c.walks := rfl
@[simp] theorem Crew.setSplit_batchCtr (c : Crew) (e : Nat) (sp : Split) : (c.setSplit e sp).batchCtr = c.batchCtr := rfl
@[simp] theorem Crew.setSplit_openCmds (c : Crew) (e : Nat) (sp : Split) : (c.setSplit e sp).openCmds = c.openCmds := rfl
@[simp] theorem Crew.setSplit_openStatus (c : Crew) (e : Nat) (sp : Split) : (c.setSplit e sp).openStatus = c.openStatus := rfl
@[simp] theorem Crew.setSplit_openTrap (c : Crew) (e : Nat) (sp : Split) : (c.setSplit e sp).openTrap = c.openTrap := rfl
@[simp] theorem Crew.setSplit_openPts (c : Crew) (e : Nat) (sp : Split) : (c.setSplit e sp).openPts = c.openPts := rfl
@[simp] theorem Crew.setSplit_batches (c : Crew) (e : Nat) (sp : Split) : (c.setSplit e sp).batches = c.batches := rfl
@[simp] theorem Crew.setSplit_trap (c : Crew) (e : Nat) (sp : Split) : (c.setSplit e sp).trap = c.trap := rfl
@[simp] theorem Crew.setSplit_pumpFault (c : Crew) (e : Nat) (sp : Split) : (c.setSplit e sp).pumpFault = c.pumpFault := rfl
@[simp] theorem Crew.setSplit_cap (c : Crew) (e : Nat) (sp : Split) : (c.setSplit e sp).cap = c.cap := rfl
@[simp] theorem Crew.setSplit_arr (c : Crew) (e : Nat) (sp : Split) : (c.setSplit e sp).arr = c.arr := rfl
@[simp] theorem Crew.setSplit_detRun (c : Crew) (e : Nat) (sp : Split) : (c.setSplit e sp).detRun = c.detRun := rfl
@[simp] theorem Crew.setSplit_bad (c : Crew) (e : Nat) (sp : Split) : (c.setSplit e sp).bad = c.bad := rfl
@[simp] theorem Crew.setSplit_tbusy (c : Crew) (e : Nat) (sp : Split) : (c.setSplit e sp).tbusy = c.tbusy := rfl

/-! `Crew.updSplit` -/

@[simp] theorem Crew.updSplit_gid (c : Crew) (e : Nat) (f : Split → Split) : (c.updSplit e f).gid = c.gid := rfl
@[simp] theorem Crew.updSplit_idx (c : Crew) (e : Nat) (f : Split → Split) : (c.updSplit e f).idx = c.idx := rfl
@[simp] theorem Crew.updSplit_core (c : Crew) (e : Nat) (f : Split → Split) : (c.updSplit e f).core = c.core := rfl
@[simp] theorem Crew.updSplit_slot (c : Crew) (e : Nat) (f : Split → Split) : (c.updSplit e f).slot = c.slot := rfl
@[simp] theorem Crew.updSplit_pipe (c : Crew) (e : Nat) (f : Split → Split) : (c.updSplit e f).pipe = c.pipe := rfl
@[simp] theorem Crew.updSplit_role (c : Crew) (e : Nat) (f : Split → Split) : (c.updSplit e f).role = c.role := rfl
@[simp] theorem Crew.updSplit_budget (c : Crew) (e : Nat) (f : Split → Split) : (c.updSplit e f).budget = c.budget := rfl
@[simp] theorem Crew.updSplit_ntiles (c : Crew) (e : Nat) (f : Split → Split) : (c.updSplit e f).ntiles = c.ntiles := rfl
@[simp] theorem Crew.updSplit_vr (c : Crew) (e : Nat) (f : Split → Split) : (c.updSplit e f).vr = c.vr := rfl
@[simp] theorem Crew.updSplit_wb (c : Crew) (e : Nat) (f : Split → Split) : (c.updSplit e f).wb = c.wb := rfl
@[simp] theorem Crew.updSplit_lo (c : Crew) (e : Nat) (f : Split → Split) : (c.updSplit e f).lo = c.lo := rfl
@[simp] theorem Crew.updSplit_spillBase (c : Crew) (e : Nat) (f : Split → Split) : (c.updSplit e f).spillBase = c.spillBase := rfl
@[simp] theorem Crew.updSplit_spillSz (c : Crew) (e : Nat) (f : Split → Split) : (c.updSplit e f).spillSz = c.spillSz := rfl
@[simp] theorem Crew.updSplit_sr (c : Crew) (e : Nat) (f : Split → Split) : (c.updSplit e f).sr = c.sr := rfl
@[simp] theorem Crew.updSplit_pr (c : Crew) (e : Nat) (f : Split → Split) : (c.updSplit e f).pr = c.pr := rfl
@[simp] theorem Crew.updSplit_bind (c : Crew) (e : Nat) (f : Split → Split) : (c.updSplit e f).bind = c.bind := rfl
@[simp] theorem Crew.updSplit_tc (c : Crew) (e : Nat) (f : Split → Split) : (c.updSplit e f).tc = c.tc := rfl
@[simp] theorem Crew.updSplit_status (c : Crew) (e : Nat) (f : Split → Split) : (c.updSplit e f).status = c.status := rfl
@[simp] theorem Crew.updSplit_pts (c : Crew) (e : Nat) (f : Split → Split) : (c.updSplit e f).pts = c.pts := rfl
@[simp] theorem Crew.updSplit_live (c : Crew) (e : Nat) (f : Split → Split) : (c.updSplit e f).live = c.live := rfl
@[simp] theorem Crew.updSplit_recs (c : Crew) (e : Nat) (f : Split → Split) : (c.updSplit e f).recs = c.recs := rfl
@[simp] theorem Crew.updSplit_seq (c : Crew) (e : Nat) (f : Split → Split) : (c.updSplit e f).seq = c.seq := rfl
@[simp] theorem Crew.updSplit_fix (c : Crew) (e : Nat) (f : Split → Split) : (c.updSplit e f).fix = c.fix := rfl
@[simp] theorem Crew.updSplit_pend (c : Crew) (e : Nat) (f : Split → Split) : (c.updSplit e f).pend = c.pend := rfl
@[simp] theorem Crew.updSplit_reqs (c : Crew) (e : Nat) (f : Split → Split) : (c.updSplit e f).reqs = c.reqs := rfl
@[simp] theorem Crew.updSplit_acks (c : Crew) (e : Nat) (f : Split → Split) : (c.updSplit e f).acks = c.acks := rfl
@[simp] theorem Crew.updSplit_fences (c : Crew) (e : Nat) (f : Split → Split) : (c.updSplit e f).fences = c.fences := rfl
@[simp] theorem Crew.updSplit_walks (c : Crew) (e : Nat) (f : Split → Split) : (c.updSplit e f).walks = c.walks := rfl
@[simp] theorem Crew.updSplit_batchCtr (c : Crew) (e : Nat) (f : Split → Split) : (c.updSplit e f).batchCtr = c.batchCtr := rfl
@[simp] theorem Crew.updSplit_openCmds (c : Crew) (e : Nat) (f : Split → Split) : (c.updSplit e f).openCmds = c.openCmds := rfl
@[simp] theorem Crew.updSplit_openStatus (c : Crew) (e : Nat) (f : Split → Split) : (c.updSplit e f).openStatus = c.openStatus := rfl
@[simp] theorem Crew.updSplit_openTrap (c : Crew) (e : Nat) (f : Split → Split) : (c.updSplit e f).openTrap = c.openTrap := rfl
@[simp] theorem Crew.updSplit_openPts (c : Crew) (e : Nat) (f : Split → Split) : (c.updSplit e f).openPts = c.openPts := rfl
@[simp] theorem Crew.updSplit_batches (c : Crew) (e : Nat) (f : Split → Split) : (c.updSplit e f).batches = c.batches := rfl
@[simp] theorem Crew.updSplit_trap (c : Crew) (e : Nat) (f : Split → Split) : (c.updSplit e f).trap = c.trap := rfl
@[simp] theorem Crew.updSplit_pumpFault (c : Crew) (e : Nat) (f : Split → Split) : (c.updSplit e f).pumpFault = c.pumpFault := rfl
@[simp] theorem Crew.updSplit_cap (c : Crew) (e : Nat) (f : Split → Split) : (c.updSplit e f).cap = c.cap := rfl
@[simp] theorem Crew.updSplit_arr (c : Crew) (e : Nat) (f : Split → Split) : (c.updSplit e f).arr = c.arr := rfl
@[simp] theorem Crew.updSplit_detRun (c : Crew) (e : Nat) (f : Split → Split) : (c.updSplit e f).detRun = c.detRun := rfl
@[simp] theorem Crew.updSplit_bad (c : Crew) (e : Nat) (f : Split → Split) : (c.updSplit e f).bad = c.bad := rfl
@[simp] theorem Crew.updSplit_tbusy (c : Crew) (e : Nat) (f : Split → Split) : (c.updSplit e f).tbusy = c.tbusy := rfl

end Sys2Proof.Machine
end

