-- ==== Sys2Proof/Laws/Memory.lean ====
section
/-! SUPPORT. Every operation that writes device memory keeps its canonical form. -/

namespace Sys2Proof.Machine

theorem State.inv_of_mem {s t : State} (h : t.mem = s.mem) (hs : s.inv) : t.inv := by unfold State.inv; rw [h]; exact hs

theorem State.reset_inv : State.reset.inv := rfl

theorem State.fold_inv {α : Type} (f : State → α → State) (hf : ∀ s a, State.inv s → State.inv (f s a)) (l : List α) {s : State}
    (h : s.inv) : (l.foldl f s).inv := by
  induction l generalizing s with
  | nil => exact h
  | cons a t ih => exact ih (hf _ _ h)

theorem State.mirrorSectors_inv (s : State) (line : Nat) (secs : List Nat) (w : Ts) (h : s.inv) : (s.mirrorSectors line secs w).inv := by
  unfold State.mirrorSectors
  split
  · exact h
  · refine State.fold_inv _ (fun s k hs => ?_) _ h
    simp only [State.inv, Memory.wf, State.updSlice_mem] at hs ⊢
    exact Cells.wf_putBytes _ _ hs

theorem State.rawWrite_inv (s : State) (o : Nat) (bs : List Byte) (h : s.inv) : (s.rawWrite o bs).inv := by
  unfold State.rawWrite
  dsimp only
  split
  · exact h
  · exact State.fold_inv _ (fun s l hs => State.mirrorSectors_inv _ _ _ _ hs) _ (Cells.wf_putBytes _ _ h)

theorem State.physWrite_inv (s : State) (pa : Nat) (bs : List Byte) (h : s.inv) : (s.physWrite pa bs).inv := by
  unfold State.physWrite
  split
  · exact State.rawWrite_inv _ _ _ h
  · exact h

theorem State.errRecord_inv (s : State) (pa va count detail ukind unit lslot asid part cls kind : Nat) (h : s.inv) :
    (s.errRecord pa va count detail ukind unit lslot asid part cls kind).inv := by
  unfold State.errRecord
  dsimp only
  split
  · exact h
  · exact State.physWrite_inv _ _ _ h

theorem State.verify_inv (s : State) (sec : Nat) (f : Finder) (h : s.inv) : (s.verify sec f).inv := by
  unfold State.verify
  split
  · exact h
  · exact State.errRecord_inv _ _ _ _ _ _ _ _ _ _ _ _ h

theorem State.mergeSector_inv (s : State) (sec : Nat) (bs : List (Nat × Byte)) (f : Finder) (h : s.inv) :
    (s.mergeSector sec bs f).inv := by
  unfold State.mergeSector
  split
  · exact Cells.wf_foldl_set (fun e => sec * 32 + e.1) (fun e => e.2) bs h
  · dsimp only
    split
    · exact State.verify_inv _ _ _ h
    · exact Cells.wf_foldl_set (fun e => sec * 32 + e.1) (fun e => e.2) bs (State.verify_inv _ _ _ h)

theorem State.imgPut_inv (s : State) (a : Nat) (bs : List Byte) (h : s.inv) : (s.imgPut a bs).inv := by
  unfold State.imgPut
  split
  · exact State.rawWrite_inv _ _ _ h
  · exact h

theorem State.putArea_inv (s : State) (a : Nat) (ps : Area) (h : s.inv) : (s.putArea a ps).inv :=
  State.fold_inv _ (fun _ _ hs => State.imgPut_inv _ _ _ hs) _ h

theorem State.raiseClock_inv (s : State) (d : Nat) (w : Ts) (h : s.inv) : (s.raiseClock d w).inv := h

theorem State.homeWrite_inv (s : State) (line : Nat) (bs : LineBytes) (p : Ts) (f : Finder) (h : s.inv) :
    (s.homeWrite line bs p f).1.inv := by
  unfold State.homeWrite
  split
  · exact h
  · exact State.mirrorSectors_inv _ _ _ _ (State.fold_inv _ (fun s k hs => State.mergeSector_inv _ _ _ _ hs) _ h)

theorem State.devWrite_inv (s : State) (o : Nat) (bs : List Byte) (p : Ts) (f : Finder) (h : s.inv) :
    (s.devWrite o bs p f).1.inv := by
  unfold State.devWrite
  generalize hq : (s, p) = q
  have hi : q.1.inv := by rw [← hq]; exact h
  clear hq h
  induction linesOf o bs.length generalizing q with
  | nil => exact hi
  | cons a t ih => exact ih _ (State.homeWrite_inv _ _ _ _ _ hi)

theorem State.checkRange_inv (s : State) (o n : Nat) (f : Finder) (h : s.inv) : (s.checkRange o n f).1.inv := by
  unfold State.checkRange
  generalize hq : (s, false) = q
  have hi : q.1.inv := by rw [← hq]; exact h
  clear hq h
  induction List.range ((o + n + 31) / 32 - o / 32) generalizing q with
  | nil => exact hi
  | cons a t ih => exact ih _ (State.verify_inv _ _ _ hi)

theorem State.ctrPut_inv (s : State) (o : Nat) (r : CtrRec) (p : Ts) (h : s.inv) : (s.ctrPut o r p).1.inv :=
  State.homeWrite_inv _ _ _ _ _ h

theorem State.imgMerge_inv (s : State) (a : Nat) (bs : List Byte) (h : s.inv) : (s.imgMerge a bs).inv := by
  unfold State.imgMerge
  split
  · exact h
  · exact State.fold_inv _ (fun s l hs => State.mirrorSectors_inv _ _ _ _ hs) _
      (State.fold_inv _ (fun s k hs => State.mergeSector_inv _ _ _ _ hs) _ h)

theorem State.putStores_inv (s : State) (g : Gang) (tiles scr : Nat) (h : s.inv) : (s.putStores g tiles scr).inv :=
  Cells.wf_foldl _ (fun _ _ hm => Cells.wf_foldl_set _ _ _ hm) _ (Cells.wf_foldl_set _ _ _ h)

theorem State.writeImage_inv (s : State) (a gid kind : Nat) (hd : HeldInfo) (h : s.inv) : (s.writeImage a gid kind hd).inv := by
  unfold State.writeImage
  split
  · exact h
  · dsimp only
    split
    · exact h
    · have h0 : ∀ (t : State), t.mem = Cells.clear s.mem a (a + (imgSizes kind (s.gangDesc gid)).1) → t.inv := by
        intro t ht
        unfold State.inv Memory.wf
        rw [ht]
        exact Cells.wf_clear _ _ h
      have h3 : ∀ (t : State) (g : Gang) (n m : Nat), t.inv → (if kind = 3 then t else t.putStores g n m).inv := by
        intro t g n m ht
        split
        · exact ht
        · exact State.putStores_inv _ _ _ _ ht
      have h4 : ∀ (u : State) (ls : List Nat), u.inv → (if u.prot.any (fun p => p.base.getLsbD 0) then
          ls.foldl (fun s l => s.mirrorSectors l [0, 1, 2, 3] (s.home (lineDie l)).clock) u else u).inv := by
        intro u ls hu
        split
        · exact State.fold_inv _ (fun s l hs => State.mirrorSectors_inv _ _ _ _ hs) _ hu
        · exact hu
      exact h4 _ _ (h3 _ _ _ _ (State.fold_inv _ (fun s c hs => State.putArea_inv _ _ _ hs) _ (State.putArea_inv _ _ _ (h0 _ rfl))))

theorem State.takeMirror_inv (s : State) (hit : Nat → Bool) (h : s.inv) : (s.takeMirror hit).inv :=
  Cells.wf_foldl _ (fun _ c hm => Cells.wf_foldl_set (fun o => o) (fun _ => c.2) _ hm) _ (Cells.wf_filter _ h)

theorem State.mirrorTs_inv (s : State) (p : ProtRegs) (f : Nat → Bool) (h : s.inv) : (s.mirrorTs p f).inv := by
  unfold State.mirrorTs
  refine State.fold_inv _ (fun s n hs => State.fold_inv _ (fun s e hs => ?_) _ ?_) _ h
  · dsimp only
    split
    · exact State.inv_of_mem (State.updSlice_mem _ _ _) hs
    · exact hs
  · exact State.inv_of_mem (State.updSlice_mem _ _ _) hs

theorem State.setProt_inv (s : State) (k : Nat) (p : ProtRegs) (h : s.inv) : (s.setProt k p).inv := h

theorem execProtMirrorReady_inv (k : Nat) (s t : State) (h : s.inv) (ht : execProtMirrorReady k s = .next t) : t.inv := by
  unfold execProtMirrorReady at ht
  dsimp only at ht
  split at ht
  · injection ht with ht
    rw [← ht]
    exact h
  · injection ht with ht
    rw [← ht]
    refine State.setProt_inv _ _ _ (State.mirrorTs_inv _ _ _ ?_)
    unfold State.inv Memory.wf
    exact Cells.wf_foldl_set _ _ _ (Cells.wf_clear _ _ h)

theorem execEccError_escaped_inv (sec : Nat) (bs : List Byte) (s t : State) (h : s.inv)
    (ht : execEccError (.escaped sec bs) s = .next t) : t.inv := by
  unfold execEccError at ht
  dsimp only at ht
  injection ht with ht
  rw [← ht]
  split
  · exact h
  · exact Cells.wf_putBytes _ _ h

theorem State.placed_inv (s : State) (bs : List Byte) (h : s.inv) : (s.placed bs).inv := Cells.wf_putBytes _ _ h

theorem State.withFetchWord_inv (s : State) (n w : Nat) (h : s.inv) : (s.withFetchWord n w).inv := State.placed_inv _ _ h

theorem State.setFarAgent_keeps (s : State) (k : Nat) (b : Bridge) :
    (s.setFarAgent k b).mem = s.mem ∧ (s.setFarAgent k b).crews = s.crews ∧ (s.setFarAgent k b).gangs = s.gangs ∧
    (s.setFarAgent k b).net = s.net := by
  unfold State.setFarAgent State.setBridge
  split <;> exact ⟨rfl, rfl, rfl, rfl⟩

/-- A write of sectors of a line outside the package leaves device memory, crews, gangs and packets as they are. -/
theorem State.farTouch_keeps (s : State) (pa : Nat) (secs : List Nat) (p : Ts) (change : FarLine → FarLine) :
    (s.farTouch pa secs p change).1.mem = s.mem ∧ (s.farTouch pa secs p change).1.crews = s.crews ∧
    (s.farTouch pa secs p change).1.gangs = s.gangs ∧ (s.farTouch pa secs p change).1.net = s.net := by
  simp only [State.farTouch]
  split
  · exact ⟨rfl, rfl, rfl, rfl⟩
  · exact s.setFarAgent_keeps _ _

end Sys2Proof.Machine
end

