-- ==== Sys2Proof/Laws/Results.lean ====
section
/-! SUPPORT. The results of words whose crew is ready: vector writes, lane results with their flags, integer and floating-point words. -/

namespace Sys2Proof.Machine

theorem Mask.lt_of_lane {m : Mask} {l : Nat} (h : m.getLsbD l = true) : l < 32 := by
  by_contra hc
  rw [BitVec.getLsbD_of_ge _ _ (by omega)] at h
  exact absurd h (by simp)

theorem lanesOf_getD (f : Nat → Nat) {l : Nat} (h : l < 32) : (lanesOf f).getD l 0 = f l := by
  simp [lanesOf, List.getD_eq_getElem?_getD, h]

/-- The writes of a per-lane result give it. -/
theorem vecGives_vecWrites (c : Crew) (m : Mask) (d n : Nat) (f g : Nat → Nat) (h : ∀ l, m.getLsbD l = true → f l = g l) :
    VecGives c m d n g (c.vecWrites d n m f) := by
  refine ⟨by simp [Crew.vecWrites], fun k hk => ?_⟩
  refine ⟨{ reg := .v (c.wb + d + k), mask := m, vals := (lanesOf f).map (fun x => x / 2 ^ (32 * k) % 2 ^ 32) },
    by simp [Crew.vecWrites, hk], rfl, rfl, fun l hl => ?_⟩
  simp [lanesOf, List.getD_eq_getElem?_getD, Mask.lt_of_lane hl, h l hl]

theorem predGives_pWrite (m : Mask) (d : Nat) (f g : Nat → Bool) (h : ∀ l, m.getLsbD l = true → f l = g l) :
    PredGives m d g [pWrite d m f] := by
  refine ⟨_, rfl, rfl, rfl, fun l hl => ?_⟩
  rw [← h l hl]
  simp only [pWrite, lanesOf_getD _ (Mask.lt_of_lane hl)]
  cases f l <;> rfl

theorem laneResults_getD (m : Mask) (f : Nat → FRes) {l : Nat} (h : m.getLsbD l = true) :
    (laneResults m f).1.getD l 0 = (f l).bits := by
  simp [laneResults, List.getD_eq_getElem?_getD, Mask.lt_of_lane h, h]

theorem flags_of_lanes (m : Mask) (f : Nat → Flags) (ls : List Nat) (a : Flags) :
    (ls.map (fun l => if m.getLsbD l then f l else (0 : Flags))).foldl (· ||| ·) a =
      ((ls.filter (fun l => m.getLsbD l)).map f).foldl (· ||| ·) a := by
  induction ls generalizing a with
  | nil => rfl
  | cons l t ih =>
    rw [List.filter_cons]
    cases h : m.getLsbD l with
    | true => simp only [List.map_cons, List.foldl_cons, h, if_true, ih]
    | false =>
      have ha : a ||| (0 : Flags) = a := BitVec.or_zero
      simp only [List.map_cons, List.foldl_cons, h, Bool.false_eq_true, if_false, ha, ih]

/-- The flags of a per-lane result are those of its active lanes (R88). -/
theorem laneResults_flags (m : Mask) (f : Nat → FRes) : (laneResults m f).2 = Flags.any (m.lanes.map (fun l => (f l).fl)) := by
  have h : (laneResults m f).2 = Flags.any ((List.range 32).map (fun l => if m.getLsbD l then (f l).fl else 0)) := by
    simp only [laneResults, List.map_map]
    congr 2
    funext l
    simp only [Function.comp]
    split <;> rfl
  rw [h]
  exact flags_of_lanes m _ _ 0

theorem Flags.any_zero (ls : List Nat) : Flags.any (ls.map (fun _ => (0 : Flags))) = 0 := by
  unfold Flags.any
  induction ls with
  | nil => rfl
  | cons a t ih => simpa using ih

theorem aluFixed_ready {s : State} {x : Ctx} {c : Crew} {t : State} {o : Alu} {u : AluUse}
    (h : s.ready [Alu.use o u] = some (x, c, t)) (i : Instr) (lat : Nat) (f : AluFn) :
    aluFixed i o u lat f s =
      .next (x.retires 8 o.h.stall.toNat (x.fixes c t lat (aluWrites o u f x c).1 (aluWrites o u f x c).2)) := by
  unfold aluFixed
  rw [fullWord_ready h]
  rfl

/-- An integer word with no flags gives the result of its function. -/
theorem aluGives_of_ready {s : State} {x : Ctx} {c : Crew} {t : State} {o : Alu} {u : AluUse}
    (h : s.ready [Alu.use o u] = some (x, c, t)) (i : Instr) (lat : Nat) (f : AluFn) (g : Nat → Nat)
    (hi : exec i s = aluFixed i o u lat f s) (hf : ∀ l, aluLane o u f c l = (g l, 0)) : AluGives i s x c t o lat g := by
  unfold AluGives Fixed
  rw [hi, aluFixed_ready h]
  split
  · rename_i hs
    simp [aluWrites, hs, hf]
  · rename_i hs
    have hv := vecGives_vecWrites c x.act o.d.toNat o.ty.regs
      (fun l => (laneResults x.act (fun l => { bits := iExt o.ty (g l), fl := 0 })).1.getD l 0) (fun l => iExt o.ty (g l))
      (fun l hl => by rw [laneResults_getD _ _ hl])
    refine ⟨_, ?_, hv⟩
    simp only [aluWrites, hs, Bool.false_eq_true, if_false, hf, laneResults_flags, Flags.any_zero]

/-- A floating-point word gives its lane results and their flags. -/
theorem fltGives_of_ready {s : State} {u : WUse} {x : Ctx} {c : Crew} {t : State} {o : Flt} (h : s.ready [u] = some (x, c, t))
    (i : Instr) (n : Nat) (lat : Option Nat) (f : Crew → Nat → FRes) (g : Nat → FRes) (hi : exec i s = fltWord i o u n lat f s)
    (hg : f c = g) : FltGives i s x c t o n lat g := by
  subst hg
  have hv := vecGives_vecWrites c x.act o.d.toNat n (fun l => (laneResults x.act (f c)).1.getD l 0) (fun l => (f c l).bits)
    (fun l hl => laneResults_getD _ _ hl)
  refine ⟨_, ?_, hv⟩
  rw [← laneResults_flags]
  cases lat <;> simp only [Fixed, Pending, hi] <;> unfold fltWord <;> rw [word_ready h] <;> rfl

end Sys2Proof.Machine
end

