-- ==== Sys2Proof/Laws/Step.lean ====
section
/-! SUPPORT. What retiring, waiting and the choice of a split do to the crews; where a word's meaning answers a next state. -/

namespace Sys2Proof.Machine

/-! ## Splits of a crew -/

theorem Crew.split_setSplit (c : Crew) (e k : Nat) (sp : Split) :
    (c.setSplit e sp).split k = if k = e ∧ e < c.splits.length then sp else c.split k := by
  simp only [Crew.split, Crew.setSplit, List.getD_eq_getElem?_getD, List.getElem?_set]
  by_cases h : e = k
  · subst h
    by_cases hl : e < c.splits.length
    · simp [hl]
    · simp [hl]
  · simp [h, Ne.symm h]

theorem Crew.split_of_mask {c : Crew} {e : Nat} (h : (c.split e).mask ≠ 0) : e < c.splits.length := by
  by_contra hl
  apply h
  simp only [Crew.split, List.getD_eq_getElem?_getD, List.getElem?_eq_none (by omega : c.splits.length ≤ e), Option.getD_none]
  rfl

/-! ## Retiring, waiting, and the boundary -/

theorem State.crew_of_ready {s : State} {us : List WUse} {x : Ctx} {c : Crew} {t : State} (h : s.ready us = some (x, c, t)) :
    t.crew x.key = some c := by
  obtain ⟨c0, _, _, _, rfl, _⟩ := State.ready_issue h
  simp

theorem State.crew_retire {s : State} {key : Nat} {c : Crew} (h : s.crew key = some c) (e size stall j : Nat) :
    (s.retire key e size stall).crew j = if j = key then some (c.retire e s.now size stall) else s.crew j := by
  simp [State.retire, h]

theorem State.crew_holdWord {s : State} {key : Nat} {c : Crew} (h : s.crew key = some c) (e : Nat) (i : Instr) (w : Wait) (j : Nat) :
    (s.holdWord key e i w).crew j = if j = key then
      some (c.updSplit e (fun sp => { sp with wait := w, word := some i, tried := none, lastIssue := s.now })) else s.crew j := by
  simp [State.holdWord, h]

theorem State.boundary_of_no_fault {s : State} {key : Nat} {c : Crew} (h : s.crew key = some c) (hp : c.pumpFault = none) :
    s.boundary key = s := by
  simp only [State.boundary, h, hp]
  cases c.trap <;> rfl

theorem State.retire_mem (s : State) (key e size stall : Nat) : (s.retire key e size stall).mem = s.mem := by
  unfold State.retire; split <;> simp
theorem State.retireAt_mem (s : State) (key : Nat) (es : List Nat) (stall : Nat) : (s.retireAt key es stall).mem = s.mem := by
  unfold State.retireAt; split <;> simp
theorem State.holdWord_mem (s : State) (key e : Nat) (i : Instr) (w : Wait) : (s.holdWord key e i w).mem = s.mem := by
  unfold State.holdWord; split <;> simp
theorem State.tryLater_mem (s : State) (key e : Nat) : (s.tryLater key e).mem = s.mem := rfl

/-! ## Taking a trap -/

/-- With a handler for its class a crew that is not trapped is trapped and queued, and nothing else changes. -/
theorem State.takeTrap_handled {s : State} {key : Nat} {c : Crew} {g : Gang} {t : Trap} (hc : s.crew key = some c)
    (hg : s.gang (keyGid key) = some g) (ht : c.trap = none) (hh : (s.trapRegs (s.gangAsid (keyGid key))).hen.getLsbD t.cls = true) :
    s.takeTrap key t = (s.setCrew key { c.settleAll s.now with trap := some { t with since := s.now }, walks := [] }).updCluster
      (clusterOf c.core) (fun k => { k with trapq := k.trapq ++ [key] }) := by
  simp [State.takeTrap, Crew.trapStays, hc, hg, ht, hh]

/-- Without one its launch is killed. -/
theorem State.takeTrap_killed {s : State} {key : Nat} {c : Crew} {g : Gang} {t : Trap} (hc : s.crew key = some c)
    (hg : s.gang (keyGid key) = some g) (ht : c.trap = none) (hh : (s.trapRegs (s.gangAsid (keyGid key))).hen.getLsbD t.cls = false) :
    s.takeTrap key t = s.killLaunch g.lslot t.cls := by
  simp [State.takeTrap, Crew.trapStays, hc, hg, ht, hh]

/-! ## Meanings that answer a next state -/

/-- Some unit that is there is named as the issuer. -/
def State.hasIssuer (s : State) : Bool :=
  match s.cur with
  | .none => false
  | .crew key _ => (s.crew key).isSome
  | .mgmt _ => true
  | .pump gid => match s.gang gid with
    | some g => g.pump.isSome
    | none => false

theorem fullWord_next {s : State} (h : s.hasIssuer = true) (i : Instr) (hd : Hdr) (u : WUse) (size : Nat) (body : Body)
    (mg : Option MBody) : ∃ t, fullWord i hd u size body mg s = .next t := by
  unfold State.hasIssuer at h
  unfold fullWord
  cases hc : s.cur with
  | none => simp [hc] at h
  | crew key e =>
    simp only [hc] at h
    obtain ⟨c, hk⟩ := Option.isSome_iff_exists.mp h
    simp [hk]
  | mgmt k => exact ⟨_, rfl⟩
  | pump g => exact ⟨_, rfl⟩

theorem word_next {s : State} (h : s.hasIssuer = true) (i : Instr) (hd : Hdr) (u : WUse) (body : Body) :
    ∃ t, word i hd u body s = .next t := fullWord_next h i hd u 8 body none

theorem pairWord_next {s : State} (h : s.hasIssuer = true) (i : Instr) (st : BitVec 3) (a b : Half) (body : Body) :
    ∃ t, pairWord i st a b body s = .next t := by
  unfold State.hasIssuer at h
  unfold pairWord
  cases hc : s.cur with
  | none => simp [hc] at h
  | crew key e =>
    simp only [hc] at h
    obtain ⟨c, hk⟩ := Option.isSome_iff_exists.mp h
    simp [hk]
  | mgmt k => exact ⟨_, rfl⟩
  | pump g => exact ⟨_, rfl⟩

theorem refusedWord_next {s : State} (h : s.hasIssuer = true) (i : Instr) (hd : Hdr) (cls : Nat) (mg : Option MBody) :
    ∃ t, refusedWord i hd cls mg s = .next t := by
  unfold State.hasIssuer at h
  unfold refusedWord
  cases hc : s.cur with
  | none => simp [hc] at h
  | crew key e =>
    simp only [hc] at h
    obtain ⟨c, hk⟩ := Option.isSome_iff_exists.mp h
    simp [hk]
  | mgmt k => exact ⟨_, rfl⟩
  | pump g => exact ⟨_, rfl⟩

theorem sliceWord_next {s : State} (h : s.hasIssuer = true) (i : Instr) (hd : Hdr) (f : PBody) :
    ∃ t, sliceWord i hd f s = .next t := by
  unfold sliceWord
  cases hc : s.cur with
  | pump gid =>
    unfold State.hasIssuer at h
    simp only [hc] at h
    cases hg : s.gang gid with
    | none => simp [hg] at h
    | some g =>
      simp only [hg] at h
      obtain ⟨p, hp⟩ := Option.isSome_iff_exists.mp h
      simp [hg, hp]
  | none => exact refusedWord_next h i hd 0 none
  | crew key e => exact refusedWord_next h i hd 0 none
  | mgmt k => exact refusedWord_next h i hd 0 none

/-! ## The choice of a split -/

theorem State.updCrew_isSome (s : State) (k : Nat) (f : Crew → Crew) (j : Nat) : ((s.updCrew k f).crew j).isSome = (s.crew j).isSome := by
  rw [State.crew_updCrew]
  split
  · rename_i h; subst h; cases s.crew j <;> rfl
  · rfl

theorem State.fold_updCrew {α : Type} (k : α → Nat) (f : α → Crew → Crew) (p : α → Bool) (l : List α) (s : State) :
    (∀ j, ((l.foldl (fun s a => if p a then s else s.updCrew (k a) (f a)) s).crew j).isSome = (s.crew j).isSome) ∧
    { l.foldl (fun s a => if p a then s else s.updCrew (k a) (f a)) s with crews := s.crews } = s := by
  induction l generalizing s with
  | nil => exact ⟨fun _ => rfl, rfl⟩
  | cons a t ih =>
    obtain ⟨h1, h2⟩ := ih (if p a then s else s.updCrew (k a) (f a))
    refine ⟨fun j => ?_, ?_⟩
    · rw [List.foldl_cons, h1]
      split
      · rfl
      · exact State.updCrew_isSome _ _ _ _
    · rw [List.foldl_cons]
      have h3 := congrArg (fun u : State => { u with crews := s.crews }) h2
      dsimp only at h3
      refine h3.trans ?_
      split <;> rfl

/-- Choosing the running DET crew changes crews only, and no crew comes or goes. -/
theorem State.chooseDet_frame (s : State) (ds : List (Nat × Crew)) :
    (∀ j, (((s.chooseDet ds).1).crew j).isSome = (s.crew j).isSome) ∧ { (s.chooseDet ds).1 with crews := s.crews } = s := by
  have step {t u : State} (h1 : ∀ j, (t.crew j).isSome = (s.crew j).isSome) (h2 : { t with crews := s.crews } = s)
      (h3 : ∀ j, (u.crew j).isSome = (t.crew j).isSome) (h4 : { u with crews := t.crews } = t) :
      (∀ j, (u.crew j).isSome = (s.crew j).isSome) ∧ { u with crews := s.crews } = s := by
    refine ⟨fun j => (h3 j).trans (h1 j), ?_⟩
    have := congrArg (fun v : State => { v with crews := s.crews }) h4
    exact this.trans h2
  unfold State.chooseDet
  split
  · exact ⟨fun _ => rfl, rfl⟩
  split
  · exact ⟨fun _ => rfl, rfl⟩
  · dsimp only
    have f1 := State.fold_updCrew (α := Nat × Crew) Prod.fst (fun _ => Crew.unyield)
      (fun d => (ds.find? (fun d => d.2.detRun.isSome)).map Prod.fst == some d.1) ds s
    have f2 (t : State) := State.fold_updCrew (α := Nat × Crew) Prod.fst (fun _ => Crew.unyield) (fun _ => false) ds t
    simp only [Bool.false_eq_true, if_false] at f2
    have f3 (t : State) (b : Option Nat) := State.fold_updCrew (α := Nat × Crew) Prod.fst
      (fun d (c : Crew) => { c with detRun := if b == some d.1 then some c.detEntry else none }) (fun _ => false) ds t
    simp only [Bool.false_eq_true, if_false] at f3
    split
    · obtain ⟨a1, a2⟩ := step f1.1 f1.2 (f2 _).1 (f2 _).2
      exact step a1 a2 (f3 _ _).1 (f3 _ _).2
    · exact step f1.1 f1.2 (f3 _ _).1 (f3 _ _).2

/-- So does the note of the entry that the running crew runs. -/
theorem State.detCand_frame (s : State) (k : Option Nat) :
    (∀ j, (((s.detCand k).1).crew j).isSome = (s.crew j).isSome) ∧ { (s.detCand k).1 with crews := s.crews } = s := by
  unfold State.detCand
  split
  · exact ⟨fun _ => rfl, rfl⟩
  · rename_i k
    split
    · rename_i c hc
      dsimp only
      split
      · exact ⟨fun _ => rfl, rfl⟩
      · refine ⟨fun j => ?_, rfl⟩
        rw [State.crew_setCrew]
        split
        · rename_i e; subst e; rw [hc]; rfl
        · rfl
    · exact ⟨fun _ => rfl, rfl⟩

/-- So does the choice of the split that takes an issue opportunity. -/
theorem State.pick_frame (s : State) (core pipe : Nat) :
    (∀ j, (((s.pick core pipe).1).crew j).isSome = (s.crew j).isSome) ∧ { (s.pick core pipe).1 with crews := s.crews } = s := by
  have h := State.chooseDet_frame s
    (((s.coreCrews core).filter (fun c => c.2.pipe == pipe && c.2.live != 0)).filter (fun c => s.gangDet (keyGid c.1)))
  unfold State.pick
  dsimp only
  generalize State.chooseDet s _ = r at h ⊢
  have h1 := State.detCand_frame r.1 r.2
  have h2 : (∀ j, (((r.1.detCand r.2).1).crew j).isSome = (s.crew j).isSome) ∧ { (r.1.detCand r.2).1 with crews := s.crews } = s :=
    ⟨fun j => (h1.1 j).trans (h.1 j), (congrArg (fun v : State => { v with crews := s.crews }) h1.2).trans h.2⟩
  split <;> exact h2

theorem State.startGang_crew (s : State) (gid j : Nat) : (s.startGang gid).crew j = s.crew j := by
  unfold State.startGang
  split
  · rfl
  · split <;> simp

theorem State.startGang_cur (s : State) (gid : Nat) : (s.startGang gid).cur = s.cur := by
  unfold State.startGang
  split
  · rfl
  · split <;> simp

end Sys2Proof.Machine
end

