-- ==== Sys2Proof/Tests/Slice0.lean ====
section
/-! SUPPORT. Small tests: words that no encoding admits, words written out from the tables of 05_encoding.md, single steps
whose results come from the rules of the spec, and states that meet the hypotheses of the obligations
(`witness_<obligation>`). -/

namespace Sys2Proof.Tests
open Sys2Proof Sys2Proof.Machine

set_option Elab.async false

/-! ## Words that are not well-formed: one term for each check -/

def hd : Hdr := { stall := 0, pn := false, pred := 7 }
def alu : Alu := { h := hd, sc := false, ty := .i32, d := 3, a := .v 1, b := .v 2, c := 0 }
def flt : Flt := { h := hd, ty := .f32, rnd := .rne, sat := false, na := false, aa := false, nb := false, ab := false,
                   nc := false, ac := false, d := 3, a := .v 1, b := .v 2, c := 0 }
def memG : Mem := { h := hd, ty := .i32, scope := .dv, order := .wk, space := .gl, sh := 0, d := 3, a := .v 4, b := .k 0, c := 0 }
def barS : Bar := { h := hd, drop := false, rank := 0, rem := false, scr := true, scope := 0, d := 0, a := 2, b := .s 3 }
def cpy0 : Cpy := { h := hd, rb := false, xb := false, esz := 0, dir := false, bsp := false, op := 0, ty := .i8, a := 8, b := 0 }
def hop : HOp := { d := 1, a := .v 2, pred := 7, pn := false, hm := 2 }

theorem test_wf_integer : [Instr.iadd { alu with ty := .f32 }, .iadd { alu with ty := .i64 }, .iadd { alu with c := 1 },
    .mov { alu with a := .v 1 }, .iadd { alu with b := .k 48 }, .iadd { alu with a := .k 0 }, .iadd { alu with sc := true },
    .iabs { alu with b := .v 0, ty := .n32 } false, .bfe alu 33, .bfi alu 33, .icmp alu 6, .icmp { alu with d := 9 } 0,
    .lea alu 0 false, .prmt alu, .sel alu 7 false, .movl hd false .i16 0 0, .movl hd false .i64 1 0,
    .popc alu].all (fun i => !i.wf) = true := by decide

theorem test_wf_float : [Instr.fadd { flt with ty := .i32 }, .fadd { flt with ty := .f64 }, .fadd { flt with c := 1 },
    .fadd { flt with nc := true }, .fmin { flt with sat := true }, .fdiv { flt with ty := .f16x2 }, .fsqrt flt,
    .fexp2 { flt with ty := .f64, a := .v 2, b := .v 0, d := 4 }, .fcmp flt 8, .fcmp { flt with d := 8 } 0, .fclass flt, .fscale { flt with nb := true },
    .f2f { flt with b := .v 0 } .f32, .f2i { flt with b := .v 0 } .f32, .i2f { flt with b := .v 0 } .f16, .fdot2 flt .f32, .fma2 flt,
    .pack flt, .unpack flt].all (fun i => !i.wf) = true := by decide

theorem test_wf_lanes_control : [Instr.shfl hd .i16 0 5 0 0 (.k 0), .shfl hd .i32 0 6 0 0 (.k 0), .vote hd 0 false 9 0,
    .vote hd 0 false 0 7, .redux hd .f32 0 .rne 0 0, .redux hd .f32 7 .rz 0 0, .scan hd .i64 0 .rne false 1 0, .mrd hd false 0 10, .mrd hd true 0 0,
    .mrd hd false 1 9, .s2v hd .i8 0 0, .v2s hd .i32 true 0 0 (.k 1), .pmov hd 0 3 0 0 0, .pmov hd 1 1 0 0 0, .rng hd .i32 0 0 (.k 0), .brx hd (.v 1),
    .join { hd with pred := 0 }, .call { hd with pred := 0 } 0 (.rel 0), .call hd 8 (.rel 0), .ret hd 8 0].all (fun i => !i.wf) = true := by decide

theorem test_wf_memory : [Instr.ld { memG with ty := .dx4 } false, .ld { memG with order := .ar3 } false, .ld { memG with space := .sp } false,
    .ld { memG with a := .v 5 } false, .ld { memG with c := 1 } false, .st memG, .st { memG with d := 0, space := .pm, scope := .cr },
    .lds memG false, .sts memG, .ldp { memG with a := .s 2, sh := 1 } 0, .ldp { memG with a := .s 2 } 8, .atom memG 0, .atom { memG with order := .rx } 9,
    .acas { memG with order := .rx, ty := .f16x2 }, .red { memG with order := .rx, d := 0 } 6, .fence hd .dv .wk, .prf memG false,
    .lease { memG with d := 0 } 11].all (fun i => !i.wf) = true := by decide

theorem test_wf_barriers_copies : [Instr.barInit { barS with scope := 6 }, .barInit { barS with rem := true, scr := false }, .barInit { barS with b := .v 1 },
    .barArr barS, .barExp { barS with d := 1 }, .barWait { barS with drop := true }, .barTry { barS with d := 8 }, .wellPush hd 0 1 1, .wellPop hd 0 2 7 2,
    .wellTpush hd 0 8, .wellTpop hd 0 7 8, .batchWait hd 0 (.v 0), .cpyG2s { cpy0 with a := 2 }, .cpyG2s { cpy0 with b := 1 }, .cpyG2s { cpy0 with dir := true },
    .cpyMcast cpy0, .cpyT2d { cpy0 with b := 1 }, .cpyGather { cpy0 with esz := 7 }, .cpyRed { cpy0 with ty := .f32, op := 3 },
    .cpyDom { cpy0 with rb := true, bsp := true }, .cpySwr { cpy0 with ty := .f64 }].all (fun i => !i.wf) = true := by decide

theorem test_wf_counters_tiles_system : [Instr.ctrInit { h := hd, d := 1, a := 2, b := .s 4 }, .ctrInit { h := hd, d := 0, a := 2, b := .s 5 },
    .ctrTake { h := hd, d := 8, a := 2, b := .s 4 }, .ctrGive { h := hd, d := 1, a := 2, b := .s 4 }, .ctrRead { h := hd, d := 1, a := 2, b := .s 4 },
    .cmbPut hd false 0 2 3 0, .cmbStat hd true 0 2 (.s 1), .cmbClose hd 0 2 (.v 0), .tcfg hd 8 0, .tcfgr hd 0 8, .tld hd .dv .wk .sp false 0 0 0,
    .tst hd .dv .wk .gl true 0 0 1, .tzero hd 8, .tmov hd 0 8, .tv2t hd 1 0 1 (.k 0), .tt2v hd 0 true 0 0 (.k 0), .mma hd 0 false false 1 0 0 1 2 0,
    .tquant hd 0 0 1 2 0, .hist hd 8 0, .tred hd 9 .rne 0 0 (.k 0), .tadd hd 5 .rne false 0 1 2, .tmulv hd false .rne false 8 0 0 0, .csrr hd 0 6,
    .csrw hd 1 0, .launch hd 0 0 (.v 0), .reord hd 0 1, .sleep hd (.v 0), .clkr hd 2 0].all (fun i => !i.wf) = true := by decide

theorem test_wf_slices_pairs_events : [Instr.axLoop hd true 4096, .axLoop hd false 0, .axEnd { hd with stall := 1 }, .axBase hd 8 0 0,
    .axStrd hd true 0 0 4096, .axLd hd 16 0, .axLdt hd 0 0 0 8, .axSig { hd with pred := 0 } 0, .axHalt { hd with pn := true },
    .hiadd 0 { hop with hm := 8 } (.hnop ⟨0, .v 0, 7, false, 0⟩), .hiadd 0 hop (.hiadd { hop with d := 5 }), .hiadd 0 hop (.hiadd { hop with a := .v 6, d := 2 }),
    .hnop 0 hop (.hnop ⟨0, .v 0, 7, false, 0⟩), .hiadd 0 hop (.hmov { hop with d := 1, hm := 0 }),
    .illegalEncoding 0, .fetchFault 0 false].all (fun i => !i.wf) = true := by decide

/-! ## Words written out from the encoding tables (R130 to R138, R148, R149), one or more of each family -/

theorem test_decode_iadd : decode [0x02, 0x00, 0x00, 0x40, 0x08, 0x06, 0x82, 0x03] = .ok (.iadd alu, []) := by rfl
theorem test_decode_idiv : decode [0x03, 0x00, 0x68, 0x40, 0x08, 0x86, 0x84, 0x03] =
    .ok (.idiv ⟨hd, true, .i64, 3, .s 1, .s 2, 0⟩, []) := by rfl
theorem test_decode_fadd : decode [0x0A, 0x00, 0x20, 0x20, 0x11, 0x08, 0x10, 0x19] =
    .ok (.fadd ⟨⟨3, false, 2⟩, .f32, .rne, false, false, false, false, false, false, false, 4, .v 2, .s 9, 0⟩, []) := by rfl
theorem test_decode_mrd : decode [0x00, 0x00, 0x00, 0x00, 0x00, 0x0A, 0xA2, 0x03] = .ok (.mrd hd false 5 0, []) := by rfl
theorem test_decode_exit : decode [0x00, 0x00, 0x00, 0x00, 0x00, 0x80, 0xAA, 0x03] = .ok (.exit hd, []) := by rfl
theorem test_decode_atom : decode [0xB6, 0x10, 0x00, 0x84, 0x10, 0x8C, 0xB2, 0x03] =
    .ok (.atom ⟨hd, .n32, .dv, .rx, .gl, 2, 6, .v 2, .v 4, 8⟩ 0, []) := by rfl
theorem test_decode_bar_arr : decode [0x00, 0x02, 0x40, 0x00, 0x10, 0x86, 0xC0, 0x03] =
    .ok (.barArr ⟨hd, false, 0, false, true, 0, 3, 2, .v 0⟩, []) := by rfl
theorem test_decode_well_push : decode [0x13, 0x00, 0x00, 0x04, 0x00, 0x00, 0xC3, 0x03] = .ok (.wellPush hd 3 1 8, []) := by rfl
theorem test_decode_cpy_g2s : decode [0x00, 0x01, 0x40, 0x00, 0x40, 0x00, 0xC8, 0x03] =
    .ok (.cpyG2s { cpy0 with bsp := true, a := 8 }, []) := by rfl
theorem test_decode_ctr_take : decode [0x00, 0x00, 0x60, 0x60, 0x10, 0x82, 0xD0, 0x03] = .ok (.ctrTake ⟨hd, 1, 2, .s 3⟩, []) := by rfl
theorem test_decode_cmb_open : decode [0x01, 0x00, 0x60, 0x60, 0x10, 0x82, 0xD3, 0x03] = .ok (.cmbOpen hd true 1 2 3, []) := by rfl
theorem test_decode_tmov : decode [0x00, 0x00, 0x00, 0x00, 0x10, 0x82, 0xDA, 0x03] = .ok (.tmov hd 1 2, []) := by rfl
theorem test_decode_csrr : decode [0x03, 0x00, 0x00, 0x00, 0x00, 0x08, 0xE8, 0x03] = .ok (.csrr hd 4 3, []) := by rfl
theorem test_decode_hwin : decode [0x12, 0x00, 0x00, 0x00, 0x00, 0x08, 0xEB, 0x03] = .ok (.hwinR hd 4 (.imm 0x12), []) := by rfl
theorem test_decode_slice : decode [0x80, 0x00, 0x01, 0x00, 0x00, 0x80, 0xF1, 0x03] = .ok (.axStrd hd false 0 1 128, []) := by rfl
theorem test_decode_pair : decode [0x8A, 0x23, 0x14, 0x8F, 0xE0, 0x04, 0x88, 0x90] =
    .ok (.hiadd 1 ⟨8, .v 1, 7, false, 2⟩ (.hfmul ⟨5, .v 2, 7, false, 10⟩), []) := by rfl
theorem test_decode_literal : decode [0x03, 0x00, 0x00, 0x00, 0x00, 0x04, 0x81, 0x03, 0x88, 0x77, 0x66, 0x55, 0x44, 0x33, 0x22, 0x11] =
    .ok (.movl hd false .i64 2 0x1122334455667788, []) := by rfl
/-- A word of an opcode that no table lists is no instruction (R150). -/
theorem test_decode_unlisted : (decode [0x00, 0x00, 0x00, 0x00, 0x00, 0x80, 0xFF, 0x03]).toOption = none := by rfl


/-! ## A word of every constructor, its bits placed by the field tables of R132, R135 and R147 and of the entries -/

theorem test_words_integer :
    [0x0380000000000000,
     0x03808A0420100005,
     0x03818810C00000D7,
     0x0382060840000002,
     0x0382860840000002,
     0x0383060840000002,
     0x0383860840000002,
     0x0384860840000002,
     0x0385060840000002,
     0x0385860840000002,
     0x0386060840000002,
     0x0387060840000002,
     0x0387860840000002,
     0x0388060840000002,
     0x0388860840000002,
     0x0389060840000002,
     0x0389860840000002,
     0x0384101123200003,
     0x0386903800000040,
     0x038A0830E0000007,
     0x038A8830E0000007,
     0x038B0830E0000007,
     0x038B8830E0000007,
     0x038C060840000116,
     0x038C860844800206,
     0x038D065800480006,
     0x038D865800480006,
     0x038E065800480006,
     0x038E8408A0000042,
     0x038F0420A0000137,
     0x038F8420A3000006].map (decodeTableWord 64) =
    [some (.nop hd),
     some (.mov ⟨hd, false, .n16, 5, .v 0, .k 33, 0⟩),
     some (.sel ⟨hd, false, .n64, 4, .v 2, .v 6, 0⟩ 5 true),
     some (.iadd ⟨hd, false, .i32, 3, .v 1, .v 2, 0⟩),
     some (.isub ⟨hd, false, .i32, 3, .v 1, .v 2, 0⟩),
     some (.imul ⟨hd, false, .i32, 3, .v 1, .v 2, 0⟩),
     some (.imulh ⟨hd, false, .i32, 3, .v 1, .v 2, 0⟩),
     some (.idiv ⟨hd, false, .i32, 3, .v 1, .v 2, 0⟩),
     some (.irem ⟨hd, false, .i32, 3, .v 1, .v 2, 0⟩),
     some (.imin ⟨hd, false, .i32, 3, .v 1, .v 2, 0⟩),
     some (.imax ⟨hd, false, .i32, 3, .v 1, .v 2, 0⟩),
     some (.iaddsat ⟨hd, false, .i32, 3, .v 1, .v 2, 0⟩),
     some (.isubsat ⟨hd, false, .i32, 3, .v 1, .v 2, 0⟩),
     some (.and ⟨hd, false, .i32, 3, .v 1, .v 2, 0⟩),
     some (.or ⟨hd, false, .i32, 3, .v 1, .v 2, 0⟩),
     some (.xor ⟨hd, false, .i32, 3, .v 1, .v 2, 0⟩),
     some (.andn ⟨hd, false, .i32, 3, .v 1, .v 2, 0⟩),
     some (.imad ⟨hd, false, .i64, 8, .v 2, .s 9, 6⟩),
     some (.iabs ⟨hd, false, .i8, 8, .v 7, .v 0, 0⟩ true),
     some (.shl ⟨hd, false, .n64, 4, .v 6, .v 7, 0⟩),
     some (.shr ⟨hd, false, .n64, 4, .v 6, .v 7, 0⟩),
     some (.sar ⟨hd, false, .n64, 4, .v 6, .v 7, 0⟩),
     some (.rot ⟨hd, false, .n64, 4, .v 6, .v 7, 0⟩),
     some (.bfe ⟨hd, false, .n32, 3, .v 1, .v 2, 0⟩ 17),
     some (.bfi ⟨hd, false, .n32, 3, .v 1, .v 2, 9⟩ 32),
     some (.popc ⟨hd, true, .n32, 3, .s 11, .v 0, 0⟩),
     some (.clz ⟨hd, true, .n32, 3, .s 11, .v 0, 0⟩),
     some (.brev ⟨hd, true, .n32, 3, .s 11, .v 0, 0⟩),
     some (.icmp ⟨hd, false, .i32, 2, .v 1, .v 5, 0⟩ 4),
     some (.lea ⟨hd, false, .n64, 2, .v 4, .v 5, 0⟩ 3 true),
     some (.prmt ⟨hd, false, .n32, 2, .v 4, .v 5, 6⟩)] := by rfl

theorem test_words_float :
    [0x0390060F201004ED,
     0x0390860F201004ED,
     0x0391060F201004ED,
     0x0391901083000B3B,
     0x0392060840000788,
     0x0392860840000788,
     0x039306084000035A,
     0x03938660004000A9,
     0x03940660004000A9,
     0x03948660004000A9,
     0x03950660004000A9,
     0x03958660004000A9,
     0x03960660004000A9,
     0x03968660004000A9,
     0x03988660004000A9,
     0x03970C084000E30A,
     0x03978C0800000008,
     0x03980C08400000BA,
     0x03990C080001410B,
     0x03998C0800010093,
     0x039A0C100000E069,
     0x039A8C1062018C8A,
     0x039B0C108400100A].map (decodeTableWord 64) =
    [some (.fadd ⟨hd, .bf16x2, .ru, true, true, false, false, true, false, false, 3, .v 1, .k 57, 0⟩),
     some (.fsub ⟨hd, .bf16x2, .ru, true, true, false, false, true, false, false, 3, .v 1, .k 57, 0⟩),
     some (.fmul ⟨hd, .bf16x2, .ru, true, true, false, false, true, false, false, 3, .v 1, .k 57, 0⟩),
     some (.fma ⟨hd, .f64, .rd, false, false, true, true, false, true, false, 8, .v 2, .v 4, 6⟩),
     some (.fmin ⟨hd, .f16, .rne, false, true, true, true, true, false, false, 3, .v 1, .v 2, 0⟩),
     some (.fmax ⟨hd, .f16, .rne, false, true, true, true, true, false, false, 3, .v 1, .v 2, 0⟩),
     some (.fdiv ⟨hd, .f32, .rz, true, false, true, true, false, false, false, 3, .v 1, .v 2, 0⟩),
     some (.fsqrt ⟨hd, .bf16, .ru, false, true, false, false, false, false, false, 3, .s 12, .v 0, 0⟩),
     some (.frcp ⟨hd, .bf16, .ru, false, true, false, false, false, false, false, 3, .s 12, .v 0, 0⟩),
     some (.frsq ⟨hd, .bf16, .ru, false, true, false, false, false, false, false, 3, .s 12, .v 0, 0⟩),
     some (.fexp2 ⟨hd, .bf16, .ru, false, true, false, false, false, false, false, 3, .s 12, .v 0, 0⟩),
     some (.flog2 ⟨hd, .bf16, .ru, false, true, false, false, false, false, false, 3, .s 12, .v 0, 0⟩),
     some (.fsin ⟨hd, .bf16, .ru, false, true, false, false, false, false, false, 3, .s 12, .v 0, 0⟩),
     some (.fcos ⟨hd, .bf16, .ru, false, true, false, false, false, false, false, 3, .s 12, .v 0, 0⟩),
     some (.fround ⟨hd, .bf16, .ru, false, true, false, false, false, false, false, 3, .s 12, .v 0, 0⟩),
     some (.fcmp ⟨hd, .f32, .rne, false, false, true, true, false, false, false, 6, .v 1, .v 2, 0⟩ 7),
     some (.fclass ⟨hd, .f16, .rne, false, false, false, false, false, false, false, 6, .v 1, .v 0, 0⟩),
     some (.fscale ⟨hd, .f32, .rd, false, true, false, false, false, false, false, 6, .v 1, .v 2, 0⟩),
     some (.f2f ⟨hd, .f64, .rne, false, false, true, false, false, false, false, 6, .v 1, .v 0, 0⟩ .f32),
     some (.f2i ⟨hd, .i64, .rz, false, true, false, false, false, false, false, 6, .v 1, .v 0, 0⟩ .f16),
     some (.i2f ⟨hd, .bf16, .ru, true, false, false, false, false, false, false, 6, .v 2, .v 0, 0⟩ .n64),
     some (.fdot2 ⟨hd, .f32, .rne, false, true, false, false, true, true, false, 6, .v 2, .v 3, 4⟩ .f16x2),
     some (.fma2 ⟨hd, .f32, .rne, false, false, false, false, false, false, true, 6, .v 2, .v 4, 8⟩)] := by rfl

theorem test_words_lanes :
    [0x03A0083120200163,
     0x03A0861000000070,
     0x03A112280000036A,
     0x03A1903000000457,
     0x03A2064000000010,
     0x03A288380040000B,
     0x03A3083BE010000A,
     0x03A3881840000009,
     0x03A3886800400020,
     0x03A40868C0400006,
     0x03A488084000025C,
     0x03A508080000008D].map (decodeTableWord 64) =
    [some (.shfl hd .i64 2 5 4 6 (.s 9)),
     some (.vote hd 3 true 3 2),
     some (.redux hd .f32 6 .rd 9 5),
     some (.scan hd .n64 5 .rne true 8 6),
     some (.mrd hd true 3 8),
     some (.s2v hd .f64 4 7),
     some (.v2s hd .f32 false 4 7 (.k 31)),
     some (.pmov hd 9 0 4 3 2),
     some (.pmov hd 0 2 4 13 0),
     some (.rng hd .n32 4 13 (.v 6)),
     some (.pack ⟨hd, .f16x2, .rz, true, false, false, true, false, false, false, 4, .v 1, .v 2, 0⟩),
     some (.unpack ⟨hd, .bf16x2, .rne, false, true, false, false, false, false, false, 4, .v 1, .v 0, 0⟩)] := by rfl

theorem test_words_control :
    [0x03A80000000FFFFC,
     0x03A8803000000000,
     0x03A9000000000000,
     0x03A9860000000009,
     0x03A9864800400000,
     0x03AA07F000400000,
     0x03AA800000000000,
     0x03AB000000000000,
     0x03ABA80000080000,
     0x03AC000000000000,
     0x03AC80000000ABCD,
     0x03AD000000000016].map (decodeTableWord 64) =
    [some (.bra hd 0xFFFFC),
     some (.brx hd (.v 6)),
     some (.join hd),
     some (.call hd 3 (.rel 9)),
     some (.call hd 3 (.reg 9)),
     some (.ret hd 3 62),
     some (.exit hd),
     some (.yield hd),
     some (.loop hd 20 0x80000),
     some (.kill hd),
     some (.trapi hd 0xABCD),
     some (.tfence hd 0x16)] := by rfl

theorem test_words_memory :
    [0x03B01020A000795E,
     0x03B08048A3C00A94,
     0x03B11020A0601C01,
     0x03B19020A05010CB,
     0x03B21020A0630127,
     0x03B29020A38401B6,
     0x03B31020A60008D3,
     0x03B38020A601092C,
     0x03B40000000001C0,
     0x03B48020A0004810,
     0x03B50020A0078802,
     0x03B5902800400001].map (decodeTableWord 64) =
    [some (.ld ⟨hd, .dx8, .sy, .ar2, .gl, 7, 8, .v 4, .v 5, 0⟩ true),
     some (.st ⟨hd, .n8, .gg, .rx, .sp, 1, 0, .s 9, .v 5, 7⟩),
     some (.lds ⟨hd, .i16, .cr, .wk, .pm, 3, 8, .s 4, .s 5, 0⟩ false),
     some (.sts ⟨hd, .f64, .dm, .rx, .gl, 2, 8, .s 4, .k 5, 0⟩),
     some (.ldp ⟨hd, .n64, .cl, .ar2, .gl, 0, 8, .s 4, .s 5, 0⟩ 6),
     some (.atom ⟨hd, .n32, .dv, .ar3, .gl, 0, 8, .v 4, .v 5, 7⟩ 8),
     some (.acas ⟨hd, .i64, .sy, .rx, .gl, 1, 8, .v 4, .v 5, 12⟩),
     some (.red ⟨hd, .f16x2, .cl, .ar2, .gl, 1, 0, .v 4, .v 5, 12⟩ 2),
     some (.fence hd .dm .ar3),
     some (.prf ⟨hd, .i8, .gg, .wk, .gl, 1, 0, .v 4, .v 5, 0⟩ true),
     some (.lease ⟨hd, .i32, .cr, .wk, .gl, 1, 0, .v 4, .v 5, 0⟩ 15),
     some (.tsget hd true 8 5)] := by rfl

theorem test_words_barriers :
    [0x03C00028C0602A20,
     0x03C0882800407A00,
     0x03C1002BE0500000,
     0x03C18028C0600200,
     0x03C20628C0601A00,
     0x03C2800000000003,
     0x03C3000004000029,
     0x03C3900000000179,
     0x03C4003000000009,
     0x03C48C00000001C9,
     0x03C500314060000F,
     0x03C5A20000000000,
     0x03C6220240200000].map (decodeTableWord 64) =
    [some (.barInit ⟨hd, false, 2, true, true, 2, 0, 5, .s 6⟩),
     some (.barArr ⟨hd, true, 3, true, true, 0, 4, 5, .v 0⟩),
     some (.barExp ⟨hd, false, 0, false, false, 0, 0, 5, .k 31⟩),
     some (.barWait ⟨hd, false, 0, false, true, 0, 0, 5, .s 6⟩),
     some (.barTry ⟨hd, false, 1, true, true, 0, 3, 5, .s 6⟩),
     some (.bsync hd 3),
     some (.wellPush hd 9 2 8),
     some (.wellPop hd 9 3 5 8),
     some (.wellTpush hd 9 6),
     some (.wellTpop hd 9 7 6),
     some (.wellCfg hd 15 6 10),
     some (.batchClose hd 17),
     some (.batchWait hd 17 (.s 18))] := by rfl

theorem test_words_copies :
    [0x03C8004000400100,
     0x03C8806000400000,
     0x03C9004000400100,
     0x03C98040E0600100,
     0x03CA0041C0600200,
     0x03CA8041C0603A00,
     0x03CB004000400357,
     0x03CB8041A0604200,
     0x03CC0041C0602129,
     0x03CCC20000000000].map (decodeTableWord 64) =
    [some (.cpyG2s ⟨hd, false, false, 0, false, true, 0, .i8, 8, 0⟩),
     some (.cpyS2g ⟨hd, false, false, 0, false, false, 0, .i8, 12, 0⟩),
     some (.cpyG2g ⟨hd, false, false, 0, false, true, 0, .i8, 8, 0⟩),
     some (.cpyMcast ⟨hd, false, false, 0, false, true, 0, .i8, 8, 7⟩),
     some (.cpyT2d ⟨hd, false, false, 0, true, false, 0, .i8, 8, 14⟩),
     some (.cpyGather ⟨hd, false, true, 6, true, false, 0, .i8, 8, 14⟩),
     some (.cpyRed ⟨hd, false, false, 0, true, true, 5, .n64, 8, 0⟩),
     some (.cpyDom ⟨hd, true, false, 0, true, false, 0, .i8, 8, 13⟩),
     some (.cpySwr ⟨hd, false, true, 0, false, true, 2, .bf16, 8, 14⟩),
     some (.cpyStat hd 33)] := by rfl

theorem test_words_counters :
    [0x03D00020C0600000,
     0x03D08A23E0500000,
     0x03D10020C0600000,
     0x03D1922000400000,
     0x03D2122000400000,
     0x03D28020C0600000,
     0x03D3122000400000,
     0x03D39220C0600001,
     0x03D41220C6600001,
     0x03D49220E0600000,
     0x03D51220E0600000,
     0x03D58020E0600000].map (decodeTableWord 64) =
    [some (.ctrInit ⟨hd, 0, 4, .s 6⟩),
     some (.ctrTake ⟨hd, 5, 4, .k 31⟩),
     some (.ctrGive ⟨hd, 0, 4, .s 6⟩),
     some (.ctrRead ⟨hd, 9, 4, .v 0⟩),
     some (.ctrReadx ⟨hd, 9, 4, .v 0⟩),
     some (.ctrCap ⟨hd, 0, 4, .s 6⟩),
     some (.ctrDrain ⟨hd, 9, 4, .v 0⟩),
     some (.cmbOpen hd true 9 4 6),
     some (.cmbPut hd true 9 4 6 12),
     some (.cmbStat hd false 9 4 (.s 7)),
     some (.cmbClose hd 9 4 (.s 7)),
     some (.cmbCfg hd 4 7)] := by rfl

theorem test_words_tiles :
    [0x03D80A4800400000,
     0x03D8922800000000,
     0x03D90A4960600A90,
     0x03D98A4980601130,
     0x03DA0A0000000000,
     0x03DA8A1800000000,
     0x03DB0A4420100002,
     0x03DB902980200007,
     0x03DC0828C680059F,
     0x03DC882800000000,
     0x03DD082906800002,
     0x03DD882906800003,
     0x03DE0029A0200000,
     0x03DE9C29A0200160,
     0x03DF0828C0000610,
     0x03DF882A08800310].map (decodeTableWord 64) =
    [some (.tcfg hd 5 9),
     some (.tcfgr hd 9 5),
     some (.tld hd .gg .rx .sp true 5 9 11),
     some (.tst hd .dv .ar2 .gl true 5 9 12),
     some (.tzero hd 5),
     some (.tmov hd 5 3),
     some (.tv2t hd 2 5 8 (.k 33)),
     some (.tt2v hd 3 true 8 5 (.s 12)),
     some (.mma hd 3 true true 9 5 4 5 6 13),
     some (.mtr hd 4 5),
     some (.tquant hd 2 4 5 8 13),
     some (.tcvt hd 3 4 5 8 13),
     some (.hist hd 5 13),
     some (.tred hd 6 .rz 14 5 (.s 13)),
     some (.tadd hd 1 .ru true 4 5 6),
     some (.tmulv hd true .rd false 4 5 16 17)] := by rfl

theorem test_words_system :
    [0x03E81C0000000005,
     0x03E8807000400000,
     0x03E8807000401000,
     0x03E8807000402000,
     0x03E91C7A00600000,
     0x03E9807A00000000,
     0x03EA000000000000,
     0x03EA000000000001,
     0x03EA800000000000,
     0x03EB1C01E0200000,
     0x03EB807000400123,
     0x03EC000000000000,
     0x03EC800000000001,
     0x03ED0005E0100000,
     0x03ED9C0000000001].map (decodeTableWord 64) =
    [some (.csrr hd 14 5),
     some (.csrw hd 0 14),
     some (.csrwSet hd 0 14),
     some (.csrwClr hd 0 14),
     some (.launch hd 14 15 (.s 16)),
     some (.reord hd 15 16),
     some (.idemBegin hd),
     some (.idemEnd hd),
     some (.hret hd),
     some (.hwinR hd 14 (.reg 15)),
     some (.hwinW hd 14 (.imm 0x123)),
     some (.hresume hd),
     some (.hkill hd true),
     some (.sleep hd (.k 47)),
     some (.clkr hd 1 14)] := by rfl

theorem test_words_slices :
    [0x03F0000000080FFF,
     0x03F0800000000000,
     0x03F10E0000003ABC,
     0x03F18E00000A0123,
     0x03F21E3800000000,
     0x03F29E39C3000000,
     0x03F300000000ABC0,
     0x03F3800000000000].map (decodeTableWord 64) =
    [some (.axLoop hd true 0xFFF),
     some (.axEnd hd),
     some (.axBase hd 7 3 0xABC),
     some (.axStrd hd true 7 2 0x123),
     some (.axLd hd 15 7),
     some (.axLdt hd 15 7 14 6),
     some (.axSig hd 0xABC),
     some (.axHalt hd)] := by rfl

theorem test_words_pairs :
    [0xD00000E0010C9540,
     0xD04214E0010C9540,
     0xD08214E0410C9540,
     0xD0C286E1810C9540,
     0xD10214E1010C9540,
     0xD14214E0010C9540,
     0xD18214E0010C9540,
     0xD1C214E0010C9540,
     0xD2027EE0010C9540,
     0xD24214E0010C9540,
     0xD28214E0010C9540,
     0xD2C214E0010C9540,
     0xD30214E0010C9540,
     0xD342E6EE810C9540,
     0xD38214E7010C9540,
     0xD3C214EA410C9540,
     0xD40214E2810C9540,
     0xD44214E2810C9540,
     0xD48214EC810C9540,
     0xD4C214E6010C9540,
     0xD50214EC010C9540,
     0xD54214E0410C9540,
     0xD58214E0410C9540,
     0xD5C214E3410C9540,
     0xD60214E5810C9540,
     0xD64214E8810C9540,
     0xD68214E0010C9540,
     0xD6C214E0010C9540,
     0xD70224E0010C9540,
     0xD74215E0010C9540,
     0xD78214E5410C9540].map (decodeTableWord 64) =
    [some (.hnop 5 ⟨0, .v 0, 7, false, 0⟩ (.hmov ⟨3, .s 9, 2, true, 0⟩)),
     some (.hmov 5 ⟨2, .v 5, 7, false, 0⟩ (.hmov ⟨3, .s 9, 2, true, 0⟩)),
     some (.hiadd 5 ⟨2, .v 5, 7, false, 1⟩ (.hmov ⟨3, .s 9, 2, true, 0⟩)),
     some (.hisub 5 ⟨2, .k 33, 7, false, 6⟩ (.hmov ⟨3, .s 9, 2, true, 0⟩)),
     some (.himul 5 ⟨2, .v 5, 7, false, 4⟩ (.hmov ⟨3, .s 9, 2, true, 0⟩)),
     some (.hand 5 ⟨2, .v 5, 7, false, 0⟩ (.hmov ⟨3, .s 9, 2, true, 0⟩)),
     some (.hor 5 ⟨2, .v 5, 7, false, 0⟩ (.hmov ⟨3, .s 9, 2, true, 0⟩)),
     some (.hxor 5 ⟨2, .v 5, 7, false, 0⟩ (.hmov ⟨3, .s 9, 2, true, 0⟩)),
     some (.hshl 5 ⟨2, .k 31, 7, false, 0⟩ (.hmov ⟨3, .s 9, 2, true, 0⟩)),
     some (.hshr 5 ⟨2, .v 5, 7, false, 0⟩ (.hmov ⟨3, .s 9, 2, true, 0⟩)),
     some (.hsar 5 ⟨2, .v 5, 7, false, 0⟩ (.hmov ⟨3, .s 9, 2, true, 0⟩)),
     some (.himin 5 ⟨2, .v 5, 7, false, 0⟩ (.hmov ⟨3, .s 9, 2, true, 0⟩)),
     some (.himax 5 ⟨2, .v 5, 7, false, 0⟩ (.hmov ⟨3, .s 9, 2, true, 0⟩)),
     some (.hfadd 5 ⟨2, .k 57, 7, false, 58⟩ (.hmov ⟨3, .s 9, 2, true, 0⟩)),
     some (.hfsub 5 ⟨2, .v 5, 7, false, 28⟩ (.hmov ⟨3, .s 9, 2, true, 0⟩)),
     some (.hfmul 5 ⟨2, .v 5, 7, false, 41⟩ (.hmov ⟨3, .s 9, 2, true, 0⟩)),
     some (.hfmin 5 ⟨2, .v 5, 7, false, 10⟩ (.hmov ⟨3, .s 9, 2, true, 0⟩)),
     some (.hfmax 5 ⟨2, .v 5, 7, false, 10⟩ (.hmov ⟨3, .s 9, 2, true, 0⟩)),
     some (.hicmp 5 ⟨2, .v 5, 7, false, 50⟩ (.hmov ⟨3, .s 9, 2, true, 0⟩)),
     some (.hfcmp 5 ⟨2, .v 5, 7, false, 24⟩ (.hmov ⟨3, .s 9, 2, true, 0⟩)),
     some (.hsel 5 ⟨2, .v 5, 7, false, 48⟩ (.hmov ⟨3, .s 9, 2, true, 0⟩)),
     some (.hneg 5 ⟨2, .v 5, 7, false, 1⟩ (.hmov ⟨3, .s 9, 2, true, 0⟩)),
     some (.habs 5 ⟨2, .v 5, 7, false, 1⟩ (.hmov ⟨3, .s 9, 2, true, 0⟩)),
     some (.hfneg 5 ⟨2, .v 5, 7, false, 13⟩ (.hmov ⟨3, .s 9, 2, true, 0⟩)),
     some (.hf2i 5 ⟨2, .v 5, 7, false, 22⟩ (.hmov ⟨3, .s 9, 2, true, 0⟩)),
     some (.hi2f 5 ⟨2, .v 5, 7, false, 34⟩ (.hmov ⟨3, .s 9, 2, true, 0⟩)),
     some (.hpopc 5 ⟨2, .v 5, 7, false, 0⟩ (.hmov ⟨3, .s 9, 2, true, 0⟩)),
     some (.hclz 5 ⟨2, .v 5, 7, false, 0⟩ (.hmov ⟨3, .s 9, 2, true, 0⟩)),
     some (.hmrd 5 ⟨2, .v 9, 7, false, 0⟩ (.hmov ⟨3, .s 9, 2, true, 0⟩)),
     some (.hs2v 5 ⟨2, .s 5, 7, false, 0⟩ (.hmov ⟨3, .s 9, 2, true, 0⟩)),
     some (.hshflx 5 ⟨2, .v 5, 7, false, 21⟩ (.hmov ⟨3, .s 9, 2, true, 0⟩))] := by rfl

/-- `movl` and its literal: 128 bits, of which the table gives the first 64 (R146). -/
theorem test_words_movl : decodeTableWord 64 0x03810A0000080007 = some (.movl hd true .n64 5 0) := by rfl

/-! ## Single steps of a crew of 32 live lanes on core 0, whose word stands at 0x1000 -/

/-- The placed crew and gang (log entry 5), changed by `f` and `g`, with the crew's split 0 as the issuer. -/
def crewSt (f : Crew → Crew) (g : Gang → Gang) : State :=
  { ((State.reset.placed []).updGang 0 g).updCrew (crewKey 0 0) f with cur := .crew (crewKey 0 0) 0 }

/-- The crew after a word, with every result written. -/
def after (s : State) (i : Instr) : Option Crew :=
  match exec i s with
  | .next t => (t.crew (crewKey 0 0)).map (·.settleAll t.now)
  | _ => none

/-- Registers v1, v2 and v4 of all lanes, s2 and s4. -/
def regs (v1 v2 v4 s2 s4 : Nat) (c : Crew) : Crew :=
  (((List.range 32).foldl (fun c l => ((c.setV 1 l v1).setV 2 l v2).setV 4 l v4) c).setS 2 s2).setS 4 s4

def plain : State := crewSt (regs 0 0 0 0 0) id

/-- R156: 0xFFFFFFFF + 1 wraps. -/
theorem test_iadd_wraps : (after (crewSt (regs 0xFFFFFFFF 1 0 0 0) id) (.iadd alu)).map (fun c => (c.rv 3 0, c.rv 3 31)) = some (0, 0) := by
  decide +kernel
/-- R158: -7 divided by 0 gives all ones and flag DZ (bit 1). -/
theorem test_idiv_zero : (after (crewSt (regs 0xFFFFFFF9 0 0 0 0) id) (.idiv alu)).map (fun c => (c.rv 3 5, c.status.getLsbD 1)) =
    some (0xFFFFFFFF, true) := by decide +kernel
/-- R158: -7 rem 2 is -1. -/
theorem test_irem_sign : (after (crewSt (regs 0xFFFFFFF9 2 0 0 0) id) (.irem alu)).map (fun c => c.rv 3 5) = some 0xFFFFFFFF := by decide +kernel
/-- R159: an amount of 32 gives the sign in every bit. -/
theorem test_sar_width : (after (crewSt (regs 0x80000000 32 0 0 0) id) (.sar alu)).map (fun c => c.rv 3 0) = some 0xFFFFFFFF := by decide +kernel
/-- R85: 1.0 + 2^-24 is a tie, which goes to the even 1.0, inexactly (flag NX, bit 4 of the status is not touched by others). -/
theorem test_fadd_tie : (after (crewSt (regs 0x3F800000 0x33800000 0 0 0) id) (.fadd flt)).map (fun c => c.rv 3 0) = some 0x3F800000 := by decide +kernel
/-- R164: of -0 and +0, `fmin` gives -0. -/
theorem test_fmin_zero : (after (crewSt (regs 0 0x80000000 0 0 0) id) (.fmin flt)).map (fun c => c.rv 3 0) = some 0x80000000 := by decide +kernel
/-- R177: `loop` takes 1 from s2 and goes back while it is not 0. -/
theorem test_loop : (after (crewSt (regs 0 0 0 2 0) id) (.loop hd 2 0xFFFFE)).map (fun c => (c.rs 2, (c.split 0).pc)) = some (1, 0x1000 + 8 - 16) := by
  decide +kernel
/-- R177: at 1 it goes on. -/
theorem test_loop_ends : (after (crewSt (regs 0 0 0 1 0) id) (.loop hd 2 0xFFFFE)).map (fun c => (c.rs 2, (c.split 0).pc)) = some (0, 0x1008) := by
  decide +kernel
/-- R141: s63 discards writes. -/
theorem test_s63 : (after (crewSt (regs 0 0 0 9 0) id) (.iadd ⟨hd, true, .i64, 63, .s 2, .k 1, 0⟩)).map (fun c => c.rs 63) = some 0 := by decide +kernel
/-- R172, R173: the spec's example: lanes 8 to 31 take the branch to 0x1040, lanes 0 to 7 stay at 0x1008. -/
theorem test_bra_example : (after (crewSt (fun c => c.setP 1 0xFF#32 (fun _ => true)) id) (.bra { hd with pn := true, pred := 1 } 7)).map (fun c =>
    ((c.split 0).pc, (c.split 0).mask, (c.split 1).pc, (c.split 1).mask)) = some (0x1008, 0xFF#32, 0x1040, 0xFFFFFF00#32) := by decide +kernel
/-- R139, R140: the spec's example of a budget of 96: `call` 24 slides the window by 24 registers and spills nothing. -/
theorem test_call_example : (after (crewSt (fun c => { c with budget := 96 }) id) (.call hd 3 (.rel 3))).map (fun c => (c.wb, c.lo, c.rs 62, (c.split 0).pc)) =
    some (24, 0, 0x1008, 0x1020) := by decide +kernel
/-- R47, R187: a scratch store and the load that follows it. -/
theorem test_scratch_store : (match exec (.sts { memG with space := .sp, scope := .cr, order := .wk, ty := .n16, a := .s 4, d := 2 }) (crewSt (regs 0 0 0 0x12345 8) id) with
    | .next t => (t.gang 0).map (fun g => g.scrBytes 8 4) | _ => none) = some [0x45, 0x23, 0, 0] := by decide +kernel
/-- R178, R308: `trapi` without a handler kills the launch: class SOFT, 5, in the completion DETAIL; with one, the crew is trapped. -/
theorem test_trapi : ((match exec (.trapi hd 7) { plain with traps := [(1, { hbase := 0x4000, hen := 0x20 })] } with
    | .next t => (t.crew (crewKey 0 0)).bind (fun c => c.trap.map (fun v => (v.cls, v.aux))) | _ => none) = some (5, 7)) ∧
    (match exec (.trapi hd 7) plain with | .next t => (t.launch 0).map (fun l => (l.status, l.detail)) | _ => none) = some (2, 5) := by decide +kernel
/-- R309, R310: the handler begins at HBASE + 256 × class with CAUSE in s0. -/
theorem test_trap_delivery : (match exec (.trapi hd 7) { plain with traps := [(1, { hbase := 0x4000, hen := 0x20 })] } with
    | .next t => (match exec (.trapDelivery 0) t with | .next u => ((u.mgmt 0).pc, (u.mgmt 0).rs 0) | _ => (0, 0)) | _ => (0, 0)) = (0x4500, 5) := by
  decide +kernel
/-- R244: a queue number of 16,384 is BOUNDS, class 6. -/
theorem test_launch_bounds : (match exec (.launch hd 0 2 (.s 4)) { crewSt (regs 0 0 0 0 16384) id with traps := [(1, { hbase := 0, hen := 0x40 })] } with
    | .next t => (t.crew (crewKey 0 0)).bind (fun c => c.trap.map (fun v => v.cls)) | _ => none) = some 6 := by decide +kernel
/-- A step runs the word at the PC of the placed crew (log entry 5): `trapi` above, fetched. -/
theorem test_step_fetches : (match step (State.reset.withFetchWord 64 0x03AC800000000007) with
    | .next t => (t.launch 0).map (fun l => (l.status, l.detail)) | _ => none) = some (2, 5) := by decide +kernel

/-! ## Witnesses: states and operands that meet the hypotheses of the obligations, clause by clause -/

/-- What a word with the parts `us` finds that issues in `s` meets `p`. -/
def meets (s : State) (us : List WUse) (p : Ctx → Crew → State → Bool) : Bool :=
  match s.ready us with
  | some (x, c, t) => p x c t
  | none => false

/-- A word with any one of these parts issues in `plain`. -/
def readyAll (us : List WUse) : Bool := us.all (fun u => (plain.ready [u]).isSome)

theorem witness_IntegerArithmetic : readyAll [Alu.use alu {}, Alu.use { alu with c := 5 } { c := true }, Alu.use { alu with b := .v 0 } { b := false },
    Alu.use ⟨hd, true, .i64, 63, .s 62, .k 47, 0⟩ {}] = true ∧ Ty.isInt .n64 = true := by decide +kernel
theorem witness_IntegerDivision : readyAll [Alu.use alu {}, Alu.use ⟨hd, true, .n8, 3, .s 1, .s 2, 0⟩ {}] = true := by decide +kernel
theorem witness_LogicShiftsAndFields : readyAll [Hdr.use hd [] [], Alu.use { alu with a := .v 0 } { a := false }, Hdr.use hd [] [vReg 2 2],
    Hdr.use hd [] [sReg 2], { Alu.use alu {} with src := (Alu.use alu {}).src ++ [pReg 6] }, Alu.use alu {}, Alu.use alu { b32 := true },
    Alu.use { alu with c := 5 } { b32 := true, c := true }, Alu.use alu { b := false }, Alu.use { alu with d := 7 } { pd := true }] = true ∧
    alu.sc = false ∧ plain.cur = .crew (crewKey 0 0) 0 ∧ (plain.crew (crewKey 0 0)).isSome = true := by decide +kernel
theorem witness_LeaAndPermute : readyAll [Alu.use { alu with ty := .n64, d := 8, a := .v 2 } { b32 := true }, Alu.use { alu with c := 5 } { c := true }] = true := by
  decide +kernel
theorem witness_FloatArithmetic : readyAll [fltSame flt {}, fltSame { flt with c := 6 } { c := true }, fltSame { flt with b := .v 0 } { b := false },
    Flt.use flt {} 1 1 1 true] = true := by decide +kernel
theorem witness_MinMaxSelects : readyAll [fltSame { flt with ty := .f16x2 } {}] = true ∧
    (fDec .f32 0x7FC00000).isNaN = true ∧ (fDec .f32 0).isNaN = false ∧ fDec .f32 0x80000000 = .num true 0 (-149) ∧
    fDec .f32 0xFF800000 = .inf true := by decide +kernel
theorem witness_OverflowResults : (fRound .f16 .rne false false 65520 0).fl.getLsbD 2 = true ∧
    (Ty.emin .f16 + (Ty.expMax .f16 : Int) - 2 < (Nat.log2 65536 : Int) + 0) := by decide +kernel
theorem witness_FloatConversions : readyAll [Flt.use { flt with b := .v 0 } { b := false } 1 1 1 false, Flt.use flt {} 1 1 1 false, Flt.use { flt with c := 5 } { c := true } 1 1 1 false,
    Flt.use { flt with a := .v 2, b := .v 4, c := 6, d := 8 } { c := true } 2 2 2 false, Flt.use { flt with d := 4 } { b := false } 1 1 2 false] = true ∧
    Nat.log2 16777215 ≤ Ty.frac .f32 ∧ Ty.emin .f32 ≤ (Nat.log2 16777215 : Int) + (-149) ∧
    (Nat.log2 16777215 : Int) + 104 < Ty.emin .f32 + (Ty.expMax .f32 : Int) - 1 := by decide +kernel
theorem witness_LaneWords : readyAll [Hdr.use hd [vReg 2 2, vReg 4 1] [vReg 6 2], Hdr.use hd [pReg 6] [sReg 63], Hdr.use hd [pReg 0] [pReg 7], Hdr.use hd [sReg 62] [vReg 2 2],
    Hdr.use hd [vReg 2 2] [sReg 1], Hdr.use hd [pReg 0, pReg 6] [pReg 1], Hdr.use hd [pReg 0] [sReg 1], Hdr.use hd [sReg 1] [pReg 0], Hdr.use hd [sReg 1, vReg 2 2] [vReg 63 1],
    (Hdr.use hd [] [vReg 2 2]).inDet true 0x44, (Hdr.use hd [] [sReg 1]).inDet false 0x44, Hdr.use hd [vReg 2 1] [sReg 0], Hdr.use hd [vReg 2 2] [vReg 2 2]] = true := by
  decide +kernel
theorem witness_PairedWords : (plain.ready [Half.use (.hmov hop) false, Half.use (.hfmul { hop with d := 2, a := .v 3, hm := 10 }) true]).isSome = true := by
  decide +kernel

def half0 (c : Crew) : Crew := (c.setP 0 0xFFFF#32 (fun _ => true)).setV 4 3 64
/-- A crew with a full stack on chip: 16 records under split 0, and a spill area of `n` bytes at 0x8000. -/
def deep (n : Nat) (c : Crew) : Crew :=
  ({ c with seq := 16, spillBase := 0x8000, spillSz := n, recs := (List.range 16).map (fun k =>
      (k, { mask := 0xFFFFFFFF#32, pend := 0, pendPC := 0, park := 0, parkPC := 0, parkE := none,
            parent := if k = 0 then none else some (k - 1), slot := none })) } : Crew).updSplit 0 (fun v => { v with top := some 15 })
def jumpTo : Act → Option (List Nat)
  | .jump _ es => some es
  | _ => none
theorem witness_Branches : meets plain [Hdr.use hd [] []] (fun x c _ => x.act == (c.split x.e).mask && (c.split x.e).top.isNone) = true ∧
    meets (crewSt half0 id) [Hdr.use { hd with pred := 0 } [] []] (fun x c _ => x.act != (c.split x.e).mask &&
      (c.divide2 x.e 0x2000 x.act).1.recsStay) = true ∧
    meets (crewSt (fun c => deep 0 (half0 c)) id) [Hdr.use { hd with pred := 0 } [] []] (fun x c _ =>
      let r := (c.divide2 x.e 0x2000 x.act).1
      x.act != (c.split x.e).mask && !r.recsStay && r.spillsOf.2 != [] && !r.spillsOf.1.spillFits) = true ∧
    meets (crewSt (fun c => deep 32 (half0 c)) id) [Hdr.use { hd with pred := 0 } [] []] (fun x c t =>
      let r := c.divide2 x.e 0x2000 x.act
      !r.1.recsStay && jumpTo (recMoves x c t r.1 (fun s1 rs => .jump (s1.updCrew x.key (fun v => v.dividedAs r.1 rs)) r.2)) == some r.2) = true ∧
    meets plain [Hdr.use hd [vReg 4 2] []] (fun x c _ => (groupsOf ((c.split x.e).mask.lanes.map (fun l => (l, c.opnd (.v 4) 2 .n64 l)))).length == 1) = true ∧
    meets (crewSt (regs 0 0 4 0 0) id) [Hdr.use hd [vReg 4 2] []] (fun x c _ => (c.split x.e).mask.lanes.any (fun l => c.opnd (.v 4) 2 .n64 l % 8 != 0)) = true ∧
    meets (crewSt half0 id) [Hdr.use hd [vReg 4 2] []] (fun x c _ =>
      let g := groupsOf ((c.split x.e).mask.lanes.map (fun l => (l, c.opnd (.v 4) 2 .n64 l)))
      g.length == 2 && (c.divideN x.e g).1.recsStay && g.all (fun p => p.1 % 8 == 0)) = true ∧
    (placeCrew 0).freeEntry = some 1 ∧ (placeCrew 0).splits.length = 4 ∧ ((placeCrew 0).split 0).mask ≠ 0 := by decide +kernel
/-- `join`: a record that waits for nothing, one with pending lanes, and one with live lanes in another split. -/
theorem witness_Branches_join :
    let rec0 (p : Mask) : Rec := { mask := 0xFFFFFFFF#32, pend := p, pendPC := 0x2000, park := 0, parkPC := 0, parkE := none, parent := none, slot := none }
    let s (p q : Mask) : State := crewSt (fun c => (({ c with recs := [(0, rec0 p)] } : Crew).updSplit 0 (fun v => { v with top := some 0, mask := 0xFFFFFFFF#32 &&& ~~~q }))) id
    meets (s 0 0) [Hdr.use hd [] []] (fun x c _ => (c.split x.e).top == some 0 && (c.rcd 0).pend == 0 && (c.rcd 0).mask &&& ~~~(c.split x.e).mask == 0) = true ∧
    meets (s 0xFF 0xFF) [Hdr.use hd [] []] (fun x c _ => (c.split x.e).top == some 0 && (c.rcd 0).pend != 0) = true ∧
    meets (s 0 0xFF) [Hdr.use hd [] []] (fun x c _ =>
      let c1 := c.setSplit x.e { c.split x.e with wait := .join }
      let held := ((List.range 4).filter (c1.joined 0)).foldl (fun m e => m ||| (c1.split e).mask) (c.rcd 0).park
      (c.rcd 0).pend == 0 && (c.rcd 0).mask &&& ~~~(c.split x.e).mask != 0 && held &&& (c.rcd 0).mask != (c.rcd 0).mask && c1.recsStay) = true := by decide +kernel
theorem witness_CallsAndReturns :
    meets plain [Hdr.use hd [] [sReg 62]] (fun x c _ => (c.split x.e).mask == c.live && c.drained && c.callLo 56 == c.lo && c.rs 2 % 8 == 0) = true ∧
    meets plain [Hdr.use hd [sReg 2] [sReg 62]] (fun _ c _ => c.callLo 56 == c.lo && c.rs 2 % 8 == 0) = true ∧
    meets (crewSt (fun c => { c with wb := 8 }) id) [Hdr.use hd [sReg 2] []] (fun x c _ => (c.split x.e).mask == c.live && c.drained && decide (8 ≤ c.wb) &&
      decide (c.lo ≤ c.wb - 8) && c.rs 2 % 8 == 0) = true ∧
    meets plain [Hdr.use hd [sReg 2] []] (fun _ c _ => decide (c.wb < 8)) = true ∧ 63 < (placeCrew 0).win ∧
    plain.cur = .crew (crewKey 0 0) 0 ∧ (plain.crew (crewKey 0 0)).isSome = true := by decide +kernel
/-- `plain` with 16 bytes of launch parameters, and line 0 of memory in the L1 of core 0. -/
def loaded : State :=
  let s := { plain with launches := [(0, { placeLaunch with params := List.replicate 16 1 })] }
  s.updCore 0 (fun k => { k with l1 := [(0, { Span.empty with first := 0, cnt := 16, bytes := [(5, 7)], wts := [0, 0, 0, 0], rts := [9, 9, 9, 9] })] })
/-- Split 0 with lanes 0 to 15 and 17 records, the outermost in the spill area; record 15 has the other lanes pending. -/
def seventeen (c : Crew) : Crew :=
  ({ c with spillBase := 0, spillSz := 32, recs := (List.range 17).map (fun k =>
      (k, { mask := if k = 16 then 0xFFFF#32 else 0xFFFFFFFF#32, pend := if k = 15 then 0xFFFF0000#32 else 0, pendPC := 0x2000, park := 0,
            parkPC := 0, parkE := none, parent := if k = 0 then none else some (k - 1), slot := if k = 0 then some 0 else none })) } : Crew).updSplit 0
    (fun v => { v with top := some 16, mask := 0xFFFF#32 })
def detLaunch : Launch :=
  { placeLaunch with desc := leBytes (2 ^ 137 + 1 * 2 ^ 186 + 32 * 2 ^ 180 + 8 * 2 ^ 176) 64 }
theorem witness_EndingAndPacing :
    meets plain [Hdr.use hd [] []] (fun x c t => !x.det && statusFlags c.status &&& 31 == 0 && c.live &&& ~~~x.act == 0) = true ∧
    meets (crewSt half0 id) [Hdr.use { hd with pred := 0 } [] []] (fun x c _ => c.live &&& ~~~x.act != 0 && (c.endLanes x.act).recsStay) = true ∧
    meets (loaded.updCrew (crewKey 0 0) seventeen) [Hdr.use hd [] []] (fun x c t =>
      let d := c.endLanes x.act
      c.live &&& ~~~x.act != 0 && !d.recsStay && (jumpTo (recMoves x c t d (fun s1 rs => .jump (s1.updCrew x.key (fun c => c.putRecs rs)) []))).isSome) = true ∧
    meets { plain with launches := [(0, detLaunch)] } [Hdr.use hd [] []] (fun x c t => x.det && c.live &&& ~~~x.act == 0 && (t.exitReady x.key).2) = true ∧
    meets (crewSt (fun c => { c with status := 2 }) id) [Hdr.use hd [] []] (fun _ c _ => statusFlags c.status &&& 2 != 0) = true := by decide +kernel
theorem witness_LoopAndTrapi : readyAll [Hdr.use hd [sReg 63] [sReg 63], Hdr.use hd [] []] = true ∧
    meets { plain with traps := [(1, { hbase := 0, hen := 0x20 })] } [Hdr.use hd [] []] (fun x _ t => (t.gang (keyGid x.key)).isSome &&
      (t.trapRegs (t.gangAsid (keyGid x.key))).hen.getLsbD 5) = true ∧
    ((plain.crew (crewKey 0 0)).map (fun c => c.guard 7 true (c.split 0).mask)) = some 0 := by decide +kernel
theorem witness_IllegalWordsAndFetchFaults : plain.cur = .crew (crewKey 0 0) 0 ∧ (plain.crew (crewKey 0 0)).isSome = true := by decide +kernel

theorem witness_MemoryAddresses : loaded.checkLane (.core 0) 0 [] .gl 1 (2 ^ 57) 8 = .bad 1 40 0 ∧
    loaded.checkLane (.core 0) 0 [] .gl 0 (2 ^ 57 - 1) 8 = .bad 1 4 0 ∧ loaded.checkLane (.core 0) 0 [] .sp 2 65533 4 = .bad 6 32 0 ∧
    loaded.checkLane (.core 0) 0 [] .sp 0 65530 4 = .bad 1 4 0 ∧ loaded.checkLane (.core 0) 0 [] .sp 0 65532 4 = .at (.scr 65532) ∧
    loaded.checkLane (.core 0) 0 [] .pm 0 13 4 = .bad 6 0 0 ∧ loaded.checkLane (.core 0) 0 [] .pm 0 10 4 = .bad 1 4 0 ∧
    loaded.checkLane (.core 0) 0 [] .pm 0 12 4 = .at (.prm 12) := by decide +kernel
/-- Lane 0 reads offset 0, which is poisoned where `po`; lane 1 a misaligned address. -/
def badLane1 (po : Bool) : State :=
  { crewSt (fun c => c.setV 4 1 1) id with poison := if po then [0] else [] }
theorem witness_MemoryAddresses_poison :
    let runs (po : Bool) (first1 : Bool) (hit : Bool) : Bool :=
      meets (badLane1 po) [Mem.use memG true 1 0] (fun x c t =>
        let eas := laneEas memG c x.act
        let good := eas.filterMap (fun e => match t.checkLane (.core c.core) 0 c.walks .gl 0 e.2 4 with
          | .at l => some (e.1, e.2, l)
          | _ => none)
        match t.checkAll (.core c.core) (.split x.key x.e) 0 c.walks .gl 0 4 eas with
        | .fail 1 ls _ =>
          let r := t.poisonMet x.key c.core 4 good
          (ls.map (fun l => l.1)).getD 0 0 == 1 && good.any (fun g => decide (g.1 < 1)) == first1 && (r.1.crew x.key).isSome &&
            r.2.any (fun b => decide (b.1 < 1)) == hit
        | _ => false)
    runs true true true = true ∧ runs false true false = true ∧
    meets plain [Mem.use { memG with a := .v 4, b := .k 1 } true 1 0] (fun x c t => match t.checkAll (.core c.core) (.split x.key x.e) 0 c.walks .gl 0 4
        (laneEas { memG with b := .k 1 } c x.act) with | .fail 1 _ _ => true | _ => false) = true := by decide +kernel

def memS : Mem := { memG with space := .sp, scope := .cr, a := .v 4 }
def checked1 (o : Mem) (kind : Nat) (x : Ctx) (c : Crew) (t : State) (eas : List (Nat × Nat)) : Chk :=
  t.checkAll (.core c.core) (.split x.key x.e) (keyGid x.key) c.walks o.space kind (memBytes o.ty) eas
def okLocs : Chk → Option (List (Nat × Loc))
  | .ok ls => some ls
  | _ => none
theorem witness_Loads :
    meets (crewSt (regs 0 0 1 0 0) id) [Mem.use memS true 1 0] (fun x c t => match checked1 memS 0 x c t (laneEas memS c x.act) with
      | .fail 1 _ _ => true | _ => false) = true ∧
    meets (crewSt (regs 0 0 1 0 0) id) [Mem.use memS true 0 1] (fun x c t => match checked1 memS 1 x c t (laneEas memS c x.act) with
      | .fail 1 _ _ => true | _ => false) = true ∧
    meets loaded [Mem.use memG true 1 0] (fun x c t => match okLocs (checked1 memG 0 x c t (laneEas memG c x.act)) with
      | some ls => (match t.load x.key x.e c .dv .wk false x.det 4 (laneEas memG c x.act) ls with | .bytes _ _ => true | _ => false) | none => false) = true ∧
    (let o : Mem := { memG with a := .s 2, b := .s 4 }
     meets loaded [Hdr.use hd [sReg 2, sReg 4] [sReg 3]] (fun x c t => (c.split x.e).got == [] && memEa o c 0 == c.sval o.a &&
      (match okLocs (checked1 o 0 x c t [(x.act.lanes.getD 0 0, memEa o c 0)]) with
      | some ls => (match t.load x.key x.e c .dv .rx false x.det 4 [(x.act.lanes.getD 0 0, memEa o c 0)] ls with
        | .bytes _ bs => let v := leVal ((bs.map Prod.snd).getD 0 []); ldpCond 0 .i32 v (c.sval o.b) && !ldpCond 1 .i32 v (c.sval o.b) | _ => false)
      | none => false))) = true ∧
    loaded.freshOnly .sy 0 = false ∧ (match loaded.crew (crewKey 0 0) with
      | some c => (List.range 128).all (fun k => loaded.byteReady (crewKey 0 0) c 0 k && !loaded.l1Poison (crewKey 0 0) 0 0 k) | none => false) = true ∧
    (match loaded.gang 0 with | some g => g.scrPoison == [] && g.scrBadChk == [] | none => false) = true := by decide +kernel
/-- What a store `o` by every lane at the addresses of `v4` needs besides its checks; `full` where its DET buffer has no room. -/
def storesAt (s : State) (o : Mem) (det : Bool) (fails : Bool) : Bool :=
  meets s [Mem.use o true 0 1] (fun x c t => x.det == det && !c.fenced x.act && (match okLocs (checked1 o 1 x c t (laneEas o c x.act)) with
    | some ls =>
      let bytes := ls.flatMap (fun l => match l.2 with | .phys pa => (leBytes 7 4).zip [pa, pa + 1, pa + 2, pa + 3] |>.map (fun b => (b.2, b.1)) | _ => [])
      let u := if o.order.code < 2 then (t, true) else t.releaseReady x.key o.scope
      ls.all (fun l => match l.2 with | .phys pa => t.notOwned pa == none | _ => true) &&
      (if det then (match t.gang 0 with
        | some g => ((g.bufferAll (if o.order.code < 2 then 0 else o.scope.code + 1) (ls.map (fun l =>
            (l.1, t.logicalLane x.key l.1, 0, (match l.2 with | .phys a | .scr a | .prm a => a), leBytes 7 4)))).2 != []) == fails
        | none => false)
      else u.2 && (u.1.storeReady c.core o.scope (byLine bytes)).2)
    | none => false))
theorem witness_Stores :
    storesAt plain memG false false = true ∧ storesAt plain { memG with order := .ar2 } false false = true ∧
    storesAt { (crewSt id (fun g => { g with detSz := 1024 })) with launches := [(0, detLaunch)] } memG true false = true ∧
    storesAt { plain with launches := [(0, detLaunch)] } memG true true = true ∧
    meets plain [Hdr.use hd [sReg 2, sReg 4, sReg 5] []] (fun x c t => (okLocs (checked1 memS 1 x c t [(0, 65532)])).isSome && !c.fenced x.act) = true ∧
    (match plain.gang 0 with | some g => g.scrPoison == [] && g.scrBadChk == [] | none => false) = true ∧ plain.spans (.core 0) = [] ∧
    plain.badChk = [] ∧ plain.homePoison 0 0 = false ∧
    plain.span (.core 0) 0 = none ∧ plain.span (.cluster (clusterOf 0)) 0 = none := by decide +kernel
theorem witness_Atomics :
    let o : Mem := { memS with order := .rx, ty := .n32, c := 5 }
    let q : Mem := { o with space := .gl, scope := .dv }
    let scr (o : Mem) (us : WUse) (ret : Bool) : Bool := meets plain [us] (fun x c t =>
      let u := if ordRel ret o.order then t.releaseReady x.key .gg else (t, true)
      !c.fenced x.act && u.2 && (match u.1.gang 0 with | some g => g.scrPoison == [] && g.scrBadChk == [] | none => false) &&
      okLocs (t.checkAll (.core c.core) (.split x.key x.e) 0 c.walks .sp 2 4 (laneEas o c x.act)) == some (x.act.lanes.map (fun l => (l, Loc.scr 0))))
    let home (s : State) (q : Mem) (us : WUse) (ret poisoned : Bool) : Bool := meets s [us] (fun x c t =>
      let u := if ordRel ret q.order then t.releaseReady x.key q.scope else (t, true)
      !c.fenced x.act && u.2 && (match okLocs (t.checkAll (.core c.core) (.split x.key x.e) 0 c.walks .gl 2 4 (laneEas q c x.act)) with
        | some ls =>
          let met := u.1.poisonMet x.key c.core 4 (ls.map (fun l => (l.1, 0, l.2)))
          ls.all (fun l => match l.2 with | .phys pa => t.notOwned pa == none | _ => true) && c.acks == [] &&
          (u.1.span (.cluster (clusterOf c.core)) 0).isNone && (met.1.span (.cluster (clusterOf c.core)) 0).isNone &&
          (met.2 != []) == poisoned && (met.1.crew x.key).isSome
        | none => false))
    scr o ((Mem.use o true 1 1).inDet true 0x65) true = true ∧ scr { o with order := .ar3 } ((Mem.use o true 1 1).inDet true 0x65) true = true ∧
    scr { o with c := 6 } ((Mem.use { o with c := 6 } true 1 2).inDet true 0x66) true = true ∧
    scr { o with order := .ar2 } ((Mem.use o true 0 1).inDet false 0x67) false = true ∧
    home plain q ((Mem.use q true 0 1).inDet false 0x67) false false = true ∧ home plain { q with order := .ar2 } ((Mem.use q true 0 1).inDet false 0x67) false false = true ∧
    home plain { q with order := .ar3 } ((Mem.use q true 1 1).inDet true 0x65) true false = true ∧
    home { plain with poison := [0] } q ((Mem.use q true 1 1).inDet true 0x65) true true = true ∧
    home plain { q with c := 6 } ((Mem.use { q with c := 6 } true 1 2).inDet true 0x66) true false = true ∧
    (5 : Nat) < 2 ^ Ty.bits .i8 ∧ 4 ≤ Ty.bits .i8 ∧ (261 % 2 ^ Ty.bits .i8 = 5) := by decide +kernel
theorem witness_FencesAndHints :
    meets plain [Hdr.use hd [] []] (fun x _ t => (t.releaseReady x.key .dv).2) = true ∧
    meets (crewSt (fun c => { c with acks := [{ pkt := 3, line := 0, bytes := [0] }] }) id) [Hdr.use hd [] []] (fun x _ t => !(t.releaseReady x.key .dv).2) = true ∧
    (let lane0 (s : State) (p : Option Span → State → Bool) : Bool :=
       meets (s.updCrew (crewKey 0 0) (fun c => c.setP 0 1#32 (fun _ => true))) [Mem.use { memG with h := { hd with pred := 0 }, d := 0 } true 0 0] (fun x c t =>
         okLocs (t.checkAll (.core c.core) (.split x.key x.e) 0 c.walks .gl 0 4 (laneEas memG c x.act)) == some [(0, .phys 0)] &&
         p (t.span (.core c.core) 0) (t.publishLine (.core c.core) 0 (fun _ => true)))
     let with' (f : Span → Span) : State := loaded.updCore 0 (fun k => { k with l1 := k.l1.map (fun e => (e.1, f e.2)) })
     let d0 : Dirty := { crew := crewKey 0 0, scope := .gg, bytes := [(0, 1)], sent := none }
     lane0 loaded (fun v g => (match v with | some v => v.pending == none | none => false) && (match g.span (.core 0) 0 with
       | some w => w.dirty == [] && w.pending == none | none => false)) = true ∧
     lane0 plain (fun v g => v == none && g.span (.core 0) 0 == none) = true ∧
     lane0 (with' (fun v => { v with pending := some 3 })) (fun v g => (match v with | some v => v.pending != none | none => false) &&
       (match g.span (.core 0) 0 with | some w => w.pending != none | none => false)) = true ∧
     lane0 (with' (fun v => { v with dirty := [d0] })) (fun _ g => (match g.span (.core 0) 0 with | some w => w.dirty != [] | none => false)) = true) ∧
    meets plain [(Hdr.use hd [sReg 2] [sReg 3]).inDet true 0x6B] (fun x c t => (match t.target 0 with | .dev o => o == 0 | _ => false) &&
      okLocs (t.checkAll (.core c.core) (.split x.key x.e) 0 c.walks .gl 0 1 [(0, c.rs 2)]) == some [(0, .phys 0)] && (t.span (.core 0) 0).isNone) = true ∧
    meets (plain.updCore 0 (fun k => { k with tlb := [{ placeTlb with pa := 2 ^ 48 }] })) [(Hdr.use hd [sReg 2] [sReg 3]).inDet true 0x6B] (fun x c t =>
      (match t.target (2 ^ 48) with | .host k => k == 0 | _ => false) &&
      okLocs (t.checkAll (.core c.core) (.split x.key x.e) 0 c.walks .gl 0 1 [(0, c.rs 2)]) == some [(0, .phys (2 ^ 48))]) = true := by
  decide +kernel

/-- A management core with the placed crew in service. -/
def mgSt : State := ({ State.reset.placed [] with cur := .mgmt 0, clusters := [(0, { ClusterSt.init with tlb := [placeTlb] })] } : State).updMgmt 0
  (fun m => { m with crew := some (crewKey 0 0), pc := 0x1000 })
theorem witness_ManagementCoreWords : mgSt.cur = .mgmt 0 ∧ (mgSt.mgmt 0).crew = some (crewKey 0 0) ∧ (mgSt.mgmt 0).passes 7 false = true ∧
    (mgSt.mgmt 0).passes 7 true = false ∧ mgSt.mgmtCheck 0 (mgSt.mgmt 0) 0 0 4 = some (.ok 0) ∧ mgSt.mgmtCheck 0 (mgSt.mgmt 0) 1 0 4 = some (.ok 0) ∧
    (match mgSt.directRead 0 4 0 true none with | .ok _ _ _ po => !po | _ => false) = true ∧
    (match mgSt.directWrite 0 [0, 0, 0, 0] 0 none with | .ok _ _ _ _ => true | _ => false) = true ∧ mgSt.posted = false ∧ (mgSt.mgmt 0).rs 2 % 8 = 0 ∧
    ({ mgSt with outReqs := [(9, { port := 3, addr := 0, what := 1, since := 0, pkt := 0, crew := 0, entry := 0, bytes := [1] })] } : State).posted = true := by
  decide +kernel

/-- A gang with barrier object `v` at scratch offset 64, of a crew with s2 = 64 and s3 = `b`. -/
def barSt (v : BarObj) (b : Nat) : State :=
  crewSt (fun c => (c.setS 2 64).setS 3 b) (fun g => { g with scr := Cells.putBytes [] 64 (leBytes v.val 16) })
def bar2 : BarObj := BarObj.init 1 2
theorem witness_Barriers :
    bar2.pend + ((2 ^ 35 - 1 : Nat) : Int) < 2 ^ 35 ∧ 2 ^ 35 ≤ bar2.pend + ((2 ^ 35 : Nat) : Int) ∧ bar2.left ≠ 0 ∧ { bar2 with left := 0 }.left = 0 ∧
    barOf bar2.val = bar2 ∧
    meets (barSt bar2 0xFFFFF) [Hdr.use hd (barSpan barS) []] (fun x c t => (match t.gang (keyGid x.key) with
      | some g => g.scrPoison == [] && g.scrBadChk == [] && decide (64 + 16 ≤ g.scrSz) && barOf (leVal (g.scrBytes 64 16)) == bar2
      | none => false) && c.rs 2 == 64 && c.sval (.s 3) == 0xFFFFF && bar2.good true && !bar2.err && t.arrivedAt (.scr 0 64) == [] && !c.fenced x.act) = true ∧
    bar2.phase = false ∧ (1 % 2 == 1) = !bar2.phase ∧ (0 % 2 == 1) = bar2.phase ∧ { bar2 with exp := 0 }.good true = false ∧
    meets (barSt bar2 0) [Hdr.use hd (barSpan barS) [pReg 7]] (fun _ _ _ => true) = true ∧
    meets (barSt bar2 0) [Hdr.use hd [sReg 2] [sReg 3]] (fun x _ t => !x.det && (t.releaseReady x.key .gg).2 &&
      ((t.releaseReady x.key .gg).1.gang 0 == t.gang 0) && (t.releaseReady x.key .gg).1.arrivedAt (.scr 0 64) == []) = true ∧
    meets plain [Hdr.use hd [] []] (fun x c t => (c.split x.e).mask == c.live && c.arr == none && (match t.releaseReady x.key .gg with
      | (u, true) => (match u.barDo (.imp 0 3) (.arr false) c.pts x.detGang c.idx with | .ok _ _ ts => ts == 0 | _ => false) | _ => false)) = true := by
  decide +kernel

/-- `barSt` with the object in device memory at 0x40, and as gang (0, 0) of a CLU launch whose gang (1, 0) holds one at offset 64. -/
def barDevSt (v : BarObj) (n : Nat) : State := { barSt v n with mem := Cells.putBytes [] 64 (leBytes v.val 16) }
def barMateSt : State :=
  let s := barSt bar2 2
  { s with launches := [(0, { placeLaunch with desc := leBytes (1 * 2 ^ 186 + 32 * 2 ^ 180 + 8 * 2 ^ 176 + 2 ^ 136) 64 })],
           gangs := s.gangs ++ [(5, { placeGang 1 0 with gx := 1, scr := Cells.putBytes [] 64 (leBytes { bar2 with scope := 2 }.val 16) })] }
theorem witness_Barriers_elsewhere :
    let dev := { barS with scr := false, scope := 3 }
    let two := [Hdr.use hd (barSpan barS) []]
    let lk (s : State) (o : Bar) (us : List WUse) (kind : Nat) : Bool := meets s us (fun x c t => t.target 64 == .dev 64 &&
      okLocs (t.checkAll (.core c.core) (.split x.key x.e) 0 c.walks .gl kind 16 [(0, c.rs o.a.toNat)]) == some [(0, .phys 64)])
    let obj (b : BarLoc) (s : State) (us : List WUse) (op : BarAct) : Bool := meets s us (fun x c t =>
      match t.barDo b op c.pts none c.idx with | .ok _ _ _ => true | _ => false)
    let b3 : BarObj := { bar2 with scope := 3 }
    lk (barDevSt b3 2) dev two 1 = true ∧ lk (barDevSt b3 2) dev two 2 = true ∧ lk (barDevSt b3 2) dev two 0 = true ∧
    meets (barDevSt b3 2) two (fun _ c t => decide (0 < c.sval (.s 3)) && (match t.rangeWrite 64 (leBytes (BarObj.init 3 2).val 16) c.pts none with
      | .ok _ _ _ _ => true | _ => false) && !c.fenced 1#32) = true ∧
    obj (.dev 64) (barDevSt b3 2) two (.exp 2) = true ∧ obj (.dev 64) (barDevSt b3 2) two .look = true ∧
    obj (.dev 64) (barDevSt b3 2) [Hdr.use hd [sReg 2] [sReg 3]] (.arr false) = true ∧
    meets (barDevSt b3 2) [Hdr.use hd [sReg 2] [sReg 3]] (fun x _ t => (t.releaseReady x.key (t.barScope (.dev 64))).2) = true ∧
    barMateSt.clusterMate 0 1 = some 5 ∧ barMateSt.clusterMate 0 3 = none ∧ (match barMateSt.gang 5 with | some m => decide (64 + 16 ≤ m.scrSz) | none => false) = true ∧
    meets barMateSt two (fun _ c t => (match t.barDo (.scr 5 64) (.exp 2) c.pts none c.idx with | .ok _ _ _ => true | _ => false) &&
      (match t.barDo (.scr 5 64) .look c.pts none c.idx with | .ok _ _ _ => true | _ => false)) = true := by decide +kernel

/-- Data and tile wells of depth 2 whose only crew produces and consumes. -/
def wellCfg0 (kind : Nat) : W64 := BitVec.ofNat 64 (kind * 2 ^ 32 + 1 * 2 ^ 38)
def wellOf (kind : Nat) (es : List (Nat × Nat × W32)) (cl : Bool) : Well :=
  { cfg0 := wellCfg0 kind, cfg1 := 0x0000000100000001, head := 0, ents := es, closed := cl }
def wellSt (w : Well) : State := crewSt (fun c => ({ c with bind := (List.range 8).map some, tc := List.replicate 8 0x00401F1F#32 } : Crew).setS 2 (wellCfg0 0).toNat
  |>.setS 4 0x0000000100000001) (fun g => { g with wells := [(3, w)] })
theorem witness_WellWords :
    meets plain [Hdr.use hd [sReg 2, sReg 4] []] (fun x _ t => (match t.gang 0 with
      | some g => (Tab.get g.wells 3).isNone && wellBad g (wellOf 4 [] false) && !wellBad g (wellOf 3 [] false) && !(wellOf 3 [] false).pumped | none => false) && !x.det) = true ∧
    meets (wellSt (wellOf 0 [(0, 0, 0)] false)) [Hdr.use hd [vReg 1 1] []] (fun x c t => (t.well 0 3).isSome && (t.releaseReady x.key .gg).2 &&
      (wellOf 0 [(0, 0, 0)] false).producers.getLsbD c.idx && !(wellOf 0 [(0, 0, 0)] false).tiles && (wellOf 0 [] false).kind == 0 &&
      !(wellOf 0 [(0, 0, 0)] false).full 0 && (wellOf 0 [(0, 0, 0), (0, 0, 0)] false).full 0) = true ∧
    meets (wellSt (wellOf 8 [(0, 2, 0)] false)) [Hdr.use hd [] []] (fun _ c t => (wellOf 8 [] false).tiles && !c.tileWait t.now [] [5] && (c.tile? 5).isSome &&
      !(wellOf 8 [(0, 2, 0)] false).full 0) = true ∧
    meets (wellSt (wellOf 0 [] true)) [Hdr.use hd [] [vReg 1 1, pReg 6]] (fun x c t => (wellOf 0 [] true).consumers.getLsbD c.idx &&
      (match t.gang (keyGid x.key) with | some g => g.scrPoison == [] && g.scrBadChk == [] | none => false)) = true ∧
    meets (crewSt (fun c => { c with tc := List.replicate 8 0 }) (fun g => { g with wells := [(3, wellOf 8 [(0, 2, 0x00401F1F#32)] false)] })) [Hdr.use hd [] [pReg 0]]
      (fun _ c _ => decide (7 < c.ntiles) && !Tc.v (c.tc.getD 7 0)) = true := by decide +kernel

/-- A crew with batch 0 closed, of `n` uncompleted commands. -/
def batchSt (n : Nat) : State := crewSt (fun c => { c with batchCtr := 1, batches := [{ num := 0, left := n, status := 1, trapRec := none, pts := 0 }] }) id
theorem witness_BatchWords : readyAll [Hdr.use hd [] [sReg 2]] = true ∧
    meets (batchSt 255) [Hdr.use hd [] [sReg 2]] (fun _ c _ => decide (c.openBatches < 256)) = true ∧
    batchLater 1 ((1 : W32) - 1) = true ∧ batchLater 0 ((1 : W32) - 1) = false ∧
    meets (crewSt (fun c => { c with batchCtr := 1, batches := [{ num := 0, left := 0, status := 4, trapRec := some 7, pts := 0 }] }) id)
      [Hdr.use hd [sReg 4] [sReg 2]] (fun _ c _ => (c.batches.filter (fun v => !batchLater v.num 0)).findSome? (fun v => v.trapRec) == some 7) = true ∧
    meets (batchSt 1) [Hdr.use hd [sReg 4] [sReg 2]] (fun _ c _ => c.batches.any (fun v => !batchLater v.num 0 && v.left != 0)) = true ∧
    meets (batchSt 0) [Hdr.use hd [sReg 4] [sReg 2]] (fun _ c _ => (c.batches.filter (fun v => !batchLater v.num 0)).all (fun v => v.left == 0 && v.trapRec == none)) = true := by
  decide +kernel

/-- s8 to s11: a copy of 4,096 bytes from 0x8000 to scratch offset 0. -/
def cpySt : State := crewSt (fun c => ((c.setS 9 0x8000).setS 10 4096).setS 14 0x4000 |>.setS 15 0x100000001 |>.setS 4 (2 ^ 25)) id
theorem witness_CopyCommands :
    let ok (o : Cpy) (op nb : Nat) (use : WUse) : Bool := meets cpySt [use] (fun x c t =>
      let k := cpyCmd x c t o op (nb != 0)
      k.check 65536 false == none && decide (c.cmdsLeft < 64) && (t.releaseReady x.key .dv).2)
    let bad (o : Cpy) (op nb : Nat) (use : WUse) : Bool := meets (crewSt (fun c => ((c.setS 8 (2 ^ 57)).setS 9 (2 ^ 57)).setS 10 (2 ^ 32)) id) [use] (fun x c t =>
      (cpyCmd x c t o op (nb != 0)).check 65536 false != none)
    ok cpy0 0 0 (cpyUse cpy0 0) = true ∧ ok cpy0 1 0 (cpyUse cpy0 0) = true ∧ ok cpy0 2 0 (cpyUse cpy0 0) = true ∧
    ok { cpy0 with b := 14 } 4 2 (cpyUse { cpy0 with b := 14 } 2) = true ∧ ok { cpy0 with b := 14 } 5 2 (cpyUse { cpy0 with b := 14 } 2) = true ∧
    ok { cpy0 with ty := .n32 } 6 0 (cpyUse { cpy0 with ty := .n32 } 0) = true ∧ ok { cpy0 with b := 13 } 7 1 (cpyUse { cpy0 with b := 13 } 1) = true ∧
    ok { cpy0 with b := 4, ty := .f32 } 8 2 (cpyUse { cpy0 with b := 4, ty := .f32 } 2) = true ∧
    bad cpy0 0 0 (cpyUse cpy0 0) = true ∧ bad cpy0 3 1 (cpyUse { cpy0 with bsp := true, b := 12 } 1) = true := by decide +kernel
/-- `cpy.mcast` in a launch with CLU: one target. -/
theorem witness_CopyCommands_mcast : meets { cpySt with launches := [(0, { placeLaunch with desc := leBytes (1 * 2 ^ 186 + 32 * 2 ^ 180 + 8 * 2 ^ 176 + 2 ^ 136) 64 })] }
    [cpyUse { cpy0 with bsp := true, b := 12 } 1] (fun x c t => (cpyCmd x c t { cpy0 with bsp := true, b := 12 } 3 true).check 65536 true == none &&
      (cpyCmd x c t { cpy0 with bsp := true, b := 12 } 3 true).total != 0) = true := by decide +kernel
/-- `s` with page tables of address space 1 at 0x10000, 0x11000 and 0x12000, which map its first GiB to that of device memory. -/
def mapped (s : State) : State :=
  { s.setAsid 1 { AsidRegs.init with root := 0x10001 } with
    mem := [(0x10000, 0x11001), (0x11000, 0x12001), (0x12000, 0xCF)].foldl (fun m e => Cells.putLe m e.1 8 e.2) s.mem }
/-- Parts: part 0 of the copy is there, part 1 is not; its bytes are read and written. -/
def cmd0 : Cmd := { op := 0, crew := crewKey 0 0, gid := 0, asid := 1, lslot := 0, batch := none, dst := 0, src := 0x8000, len := 64, bar := 0, b0 := 0, b1 := 0,
                    rb := false, xb := false, esz := 0, dir := false, bsp := false, aop := 0, ty := .i8, pts := 0, done := [], landed := [], total := 64, failed := false }
def cmdSt (k : Cmd) : State := { plain with cmds := [(9, k)] }
theorem witness_CopyCommands_parts : Tab.get (cmdSt cmd0).cmds 9 = some cmd0 ∧ (cmd0.part 0).isSome = true ∧ cmd0.part 1 = none ∧ (cmdSt cmd0).engWaits = [] ∧
    { cmd0 with done := [0] }.done.contains 0 = true ∧ cmd0.failed = false ∧ { cmd0 with failed := true }.failed = true ∧ cmd0.op ≠ 3 ∧ cmd0.op ≠ 7 ∧ cmd0.bar = 0 := by
  decide +kernel
/-- A part that finds poison, one that does not translate, its object in scratch, gone or malformed, and a part for a peer. -/
theorem witness_CopyCommands_outcomes :
    let p0 : Part1 := (cmd0.part 0).getD { src := 0, dst := 0, n := 0 }
    let k1 (f : Cmd → Cmd) : Cmd := f cmd0
    let bytes (s : State) (k : Cmd) : Option Bool := match s.partBytes k p0 with | .ok _ _ => some true | .poison _ => some false | _ => none
    let s0 := mapped (cmdSt cmd0)
    s0.partOut 9 0 = false ∧ bytes s0 cmd0 = some true ∧
    (match s0.engWrite cmd0 p0.dst (List.replicate 64 1) with | (.ok _ _, _) => true | _ => false) = true ∧
    (match s0.engWrite (k1 (fun k => { k with op := 2 })) (2 ^ 45) (List.replicate 64 1) with | (.fail _, _) => true | _ => false) = true ∧
    bytes { s0 with poison := [0x8000 / 32] } cmd0 = some false ∧
    (match s0.engPoison cmd0 p0.dst p0.n with | (.ok _ _, _) => true | _ => false) = true ∧
    (match s0.engPoison (k1 (fun k => { k with op := 2 })) (2 ^ 45) p0.n with | (.fail _, _) => true | _ => false) = true ∧
    (match (cmdSt cmd0).partBytes (k1 (fun k => { k with asid := 7 })) p0 with | .fail _ => true | _ => false) = true ∧
    (match s0.cmdBar 7 0 0x40 false with | .bad _ => true | _ => false) = true ∧ (match s0.cmdBar 1 0 64 true with | .loc _ b => b == BarLoc.scr 0 64 | _ => false) = true ∧
    (match (barSt bar2 0).barLive (.scr 0 64), s0.barLive (.scr 0 64), s0.barLive (.scr 77 64) with | .live, .malformed, .gone => true | _, _, _ => false) = true ∧
    (match mapped (barSt { bar2 with pend := 64 } 0) |>.credit (.scr 0 64) 64 0 with | .ok _ _ _ => true | _ => false) = true ∧
    (match mapped (barSt { bar2 with pend := 64 } 0) |>.partMove cmd0 p0 with | .ok v _ ts => (match v.credit (.scr 0 64) 64 ts with | .ok _ _ _ => true | _ => false) | _ => false) = true ∧
    ({ s0 with dom := { Dom.init with cfg := BitVec.ofNat 64 (1 + 3 * 2 ^ 10) } } : State).peerReach 3 = true ∧
    (match s0.engRead (k1 (fun k => { k with op := 7, b0 := 3 })) false 0x8000 64 with | .ok _ _ => true | _ => false) = true := by decide +kernel
theorem witness_CopyState : readyAll [Hdr.use hd [] [sReg 63]] = true := by decide +kernel

/-! ### Words on records: what their checks hand on is named by a run of the checks with the continuation `.done` -/

def ctxOf (s : State) (us : List WUse) : Ctx := match s.ready us with | some r => r.1 | none => ⟨0, 0, 0, [], false⟩
def crewOf (s : State) (us : List WUse) : Crew := match s.ready us with | some r => r.2.1 | none => placeCrew 0
def stOf (s : State) (us : List WUse) : State := match s.ready us with | some r => r.2.2 | none => State.reset
def doneOf : Act → State
  | .done s => s
  | _ => State.reset

def ctr0 : Ctr := { h := hd, d := 1, a := 2, b := .s 4 }
/-- Counter record at 0x2000: HOME 100, CHUNK 10; s2 names it, s4 = s5 = 5; core 0 holds an allowance of 7 where `held`. -/
def ctrSt (held : Bool) : State :=
  let s := crewSt (fun c => ((c.setS 2 0x2000).setS 4 5).setS 5 5) id
  { s with mem := Cells.putLe [] 0x2000 32 (CtrRec.val { home := 100, chunk := 10, lost := 0, valid := true, ovf := false, frozen := false, resv := 0 }),
           cores := Tab.upd s.cores 0 (fun k => { k with ctrs := if held then [{ addr := 0x2000, allow := 7, refill := none, queue := [] }] else [] }) }
def ctrRun (held : Bool) (use : CtrUse) (us : List WUse) (k : State → Nat → Act) : Act :=
  ctrWord (ctxOf (ctrSt held) us) (crewOf (ctrSt held) us) (stOf (ctrSt held) us) 2 use k
def ctrU (held : Bool) (use : CtrUse) (us : List WUse) : State := doneOf (ctrRun held use us (fun s _ => .done s))
def useTake : CtrUse := .local (fun e => decide (5 ≤ e.allow))
def useGive : CtrUse := .local (fun e => decide (e.allow + 5 ≤ ctrMax))
set_option maxRecDepth 1000000 in
theorem witness_CounterWords_checks : (∀ k, ctrRun true useTake [Ctr.use ctr0 1 [pReg 1]] k = k (ctrU true useTake [Ctr.use ctr0 1 [pReg 1]]) 0x2000) ∧
    (∀ k, ctrRun false useTake [Ctr.use ctr0 1 [pReg 1]] k = k (ctrU false useTake [Ctr.use ctr0 1 [pReg 1]]) 0x2000) ∧
    (∀ k, ctrRun true useGive [Ctr.use ctr0 1 []] k = k (ctrU true useGive [Ctr.use ctr0 1 []]) 0x2000) ∧
    (∀ k, ctrRun false useGive [Ctr.use ctr0 1 []] k = k (ctrU false useGive [Ctr.use ctr0 1 []]) 0x2000) ∧
    (∀ k, ctrRun false .read [Ctr.use ctr0 0 [sReg 1]] k = k (ctrU false .read [Ctr.use ctr0 0 [sReg 1]]) 0x2000) ∧
    (∀ k, ctrRun false .change [Ctr.use ctr0 0 [sReg 1]] k = k (ctrU false .change [Ctr.use ctr0 0 [sReg 1]]) 0x2000) ∧
    (∀ k, ctrRun false .change [Ctr.use ctr0 1 []] k = k (ctrU false .change [Ctr.use ctr0 1 []]) 0x2000) ∧
    (∀ k, ctrRun false .init [Ctr.use ctr0 2 []] k = k (ctrU false .init [Ctr.use ctr0 2 []]) 0x2000) :=
  ⟨fun _ => rfl, fun _ => rfl, fun _ => rfl, fun _ => rfl, fun _ => rfl, fun _ => rfl, fun _ => rfl, fun _ => rfl⟩
theorem witness_CounterWords : ((ctrSt true).ready [Ctr.use ctr0 1 [pReg 1]]).isSome = true ∧ ((ctrSt false).ready [Ctr.use ctr0 0 [sReg 1]]).isSome = true ∧
    ((ctrSt false).ready [Ctr.use ctr0 1 []]).isSome = true ∧ ((ctrSt false).ready [Ctr.use ctr0 2 []]).isSome = true ∧
    (let u := ctrU true useTake [Ctr.use ctr0 1 [pReg 1]]
     u.lost 64 = false ∧ u.protOf (64 * 128) = none ∧ (match u.crew (crewKey 0 0) with | some w => w.reqs == [] && (w.split 0).word == none && w.rs 4 == 5 | none => false) = true ∧
     (match (u.core 0).ctr? 0x2000 with | some e => e.refill == none && decide (5 ≤ e.allow) && decide (e.allow + 5 ≤ ctrMax) | none => false) = true) ∧
    (let u := ctrU false .change [Ctr.use ctr0 1 []]
     u.ctrHolders 0x2000 = [] ∧ u.ctrHome 0x2000 = CtrHome.init ∧ (u.core 0).ctr? 0x2000 = none ∧ (u.core 0).ctrs.length < 64) ∧
    (let u := ctrU false .init [Ctr.use ctr0 2 []]
     u.ctrHolders 0x2000 = [] ∧ u.ctrHome 0x2000 = CtrHome.init) ∧ 5 ≤ ctrMax := by decide +kernel

/-- Cistern record at 0x2000: slots from 0x3000 on, counter record at 0x2100, two slots of one chunk, f32, TIMEOUT 1; the header of slot 0
in state `st` with token 9, one expert 4, and the counter with 5 units. s2 = 0x2000, s4 = `n`, s5 = `w`. -/
def cmbVal : Nat := 0x3000 + 0x2100 * 2 ^ 64 + 2 * 2 ^ 128 + 1 * 2 ^ 160
def hdr0 (st : Nat) : Nat := 9 + 0x8000 * 2 ^ 64 + 4 * 2 ^ 448 + 0x3F800000 * 2 ^ 192 + st * 2 ^ 580
def cmbSt (st n w : Nat) : State :=
  { crewSt (fun c => (((c.setS 2 0x2000).setS 4 n).setS 5 w).setS 3 0x2040) id with
    mem := Cells.putLe (Cells.putLe (Cells.putLe (Cells.putLe [] 0x2000 64 cmbVal) 0x2040 64 cmbVal) 0x2100 32
      (CtrRec.val { home := 5, chunk := 1, lost := 0, valid := true, ovf := false, frozen := false, resv := 0 })) 0x3000 256 (hdr0 st) }
def cmbRun (st n w : Nat) (us : List WUse) (k : State → Nat → CmbRec → Act) : Act :=
  cmbWord (ctxOf (cmbSt st n w) us) (crewOf (cmbSt st n w) us) (stOf (cmbSt st n w) us) 2 k
def cmbU (st n w : Nat) (us : List WUse) : State := doneOf (cmbRun st n w us (fun s _ _ => .done s))
def slotRun (st n w : Nat) (us : List WUse) (slot : Nat) (k : State → Nat → Act) : Act :=
  slotWord (ctxOf (cmbSt st n w) us) (crewOf (cmbSt st n w) us) (cmbU st n w us) 2 (cmbOf cmbVal) slot k
def slotU (st n w : Nat) (us : List WUse) (slot : Nat) : State := doneOf (slotRun st n w us slot (fun s _ => .done s))
def useStat : List WUse := [Hdr.use hd [sReg 2, sReg 4] [sReg 1]]
def usePut : List WUse := [Hdr.use hd [sReg 2, sRegs 4 2, vReg 6 2] [sReg 1]]
def closeRun (k : State → Act) : Act := atHome (ctxOf (cmbSt 4 0 0) useStat) (crewOf (cmbSt 4 0 0) useStat) (slotU 4 0 0 useStat 0) false [(0x2100, 32, 0x2100)] k
set_option maxRecDepth 1000000 in
theorem witness_CisternWords_checks :
    (∀ k, cmbRun 4 0 0 useStat k = k (cmbU 4 0 0 useStat) 0x2000 (cmbOf cmbVal)) ∧ (∀ k, slotRun 4 0 0 useStat 0 k = k (slotU 4 0 0 useStat 0) 0x3000) ∧
    (∀ k, cmbRun 1 9 (4 * 2 ^ 16) usePut k = k (cmbU 1 9 (4 * 2 ^ 16) usePut) 0x2000 (cmbOf cmbVal)) ∧
    (∀ k, slotRun 1 9 (4 * 2 ^ 16) usePut 0 k = k (slotU 1 9 (4 * 2 ^ 16) usePut 0) 0x3000) ∧
    (∀ k, recordAt (ctxOf (cmbSt 4 0 0) useStat) (crewOf (cmbSt 4 0 0) useStat) (slotU 4 0 0 useStat 0) 0x2100 32 1 k = k 0x2100) ∧
    (∀ k, closeRun k = k (doneOf (closeRun .done))) :=
  ⟨fun _ => rfl, fun _ => rfl, fun _ => rfl, fun _ => rfl, fun _ => rfl, fun _ => rfl⟩
/-- A place that the core's TLB gives is the place of a word. -/
theorem placesAt_one {x : Ctx} {c : Crew} {s : State} {kind n va pa d : Nat} (h : s.checkLane (.core c.core) (keyGid x.key) c.walks .gl kind va n = .at (.phys pa))
    (ht : s.target pa = .dev d) (k : State → List Nat → Act) : placesAt x c s kind n [va] k = k s [pa] := by
  simp [placesAt, placeAt, h, ht]
theorem witness_CisternWords_chunk : ∀ k, placesAt (ctxOf (cmbSt 1 9 (4 * 2 ^ 16)) usePut) (crewOf (cmbSt 1 9 (4 * 2 ^ 16)) usePut) (slotU 1 9 (4 * 2 ^ 16) usePut 0) 2 1 [0x3100] k =
    k (slotU 1 9 (4 * 2 ^ 16) usePut 0) [0x3100] :=
  placesAt_one (d := 0x3100) (by decide +kernel) (by decide +kernel)
theorem witness_CisternWords :
    (let v := slotU 4 0 0 useStat 0
     hdrState (v.hdr 0x3000) = slotReleased) ∧ hdrState ((slotU 1 0 0 useStat 0).hdr 0x3000) ≠ slotReleased ∧
    (let w := 4 * 2 ^ 16
     fld w 38 2 = 0 ∧ fld w 50 14 = 0 ∧ fld w 40 1 = 0 ∧ fld w 0 16 < (cmbOf cmbVal).nslots ∧ (cmbOf cmbVal).nslots ≤ fld (w + 2) 0 16 ∧
     ((slotU 1 9 w usePut 0).cmbTest (cmbOf cmbVal) 0x3000 9 4 0 false).1 = 0 ∧ ((slotU 2 9 w usePut 0).cmbTest (cmbOf cmbVal) 0x3000 9 4 0 false).1 = 1 ∧
     ((slotU 1 8 w usePut 0).cmbTest (cmbOf cmbVal) 0x3000 8 4 0 false).1 = 2 ∧
     (crewOf (cmbSt 1 9 w) usePut).mustWait 1#32 0x3100 256 = false ∧ ((slotU 1 9 w usePut 0).clearRange 0x3100 256 true false none).2 = true) := by decide +kernel
/-- `cmb.cfg` of the image at 0x2040, and `cmb.open` of slot 1 with a descriptor of scratch at 0. -/
def opnSt : State := ((cmbSt 0 0 0).updCore 0 (fun k => { k with ctrs := [{ addr := 0x2100, allow := 1, refill := none, queue := [] }] })).updGang 0 (fun g => { g with scr := Cells.putLe [] 0 80 (9 + 0x8000 * 2 ^ 64 + 4 * 2 ^ 448 + 0x3F800000 * 2 ^ 192) })
def useOpen : List WUse := [Hdr.use hd [sReg 2, sReg 4] [sReg 1]]
def opnRun (k : State → Nat → Nat → CmbRec → Nat → Act) : Act := openWord (ctxOf opnSt useOpen) (crewOf opnSt useOpen) (stOf opnSt useOpen) true 2 4 k
def opnU : State := doneOf (opnRun (fun s _ _ _ _ => .done s))
def opnV : State := match (opnU.nameTake (ctxOf opnSt useOpen)).1.ctrTake 0 0x2100 1 (opnU.nameTake (ctxOf opnSt useOpen)).2 with
  | .took s => s.updCrew (crewKey 0 0) (fun c => c.dropReqs 0)
  | _ => State.reset
def cfgCtx : Ctx := ctxOf (cmbSt 0 0 0) [Hdr.use hd [sReg 2, sReg 3] []]
def cfgCrew : Crew := crewOf (cmbSt 0 0 0) [Hdr.use hd [sReg 2, sReg 3] []]
def cfgSt : State := stOf (cmbSt 0 0 0) [Hdr.use hd [sReg 2, sReg 3] []]
def cfgRun (k : State → Act) : Act := atHome cfgCtx cfgCrew (cfgSt.releaseReady (crewKey 0 0) .dv).1 true [(0x2000, 64, 0x2000)] k
def cfgRead : Option (State × Nat) := match (doneOf (cfgRun .done)).rangeRead 0x2040 64 cfgCrew.pts false none
    { (doneOf (cfgRun .done)).finder 0 8 with va := 0x2040 } with
  | .ok w bs _ false => some (w, leVal bs)
  | _ => none
def cfgW : State := match cfgRead with | some r => r.1 | none => State.reset
set_option maxRecDepth 1000000 in
theorem witness_CisternWords_setup :
    (∀ k, recordAt cfgCtx cfgCrew cfgSt 0x2000 64 1 k = k 0x2000) ∧ placeAt cfgCtx cfgCrew cfgSt 2 64 true 0x2040 = .at cfgSt 0x2040 ∧
    (∀ k, cfgRun k = k (doneOf (cfgRun .done))) ∧ (∀ k, placesAt cfgCtx cfgCrew cfgW 2 1 [0x3000, 0x3900] k = k cfgW [0x3000, 0x3900]) ∧
    (∀ k, opnRun k = k opnU 0x2000 0x2100 (cmbOf cmbVal) (9 + 0x8000 * 2 ^ 64 + 4 * 2 ^ 448 + 0x3F800000 * 2 ^ 192)) ∧
    (∀ k, placesAt (ctxOf opnSt useOpen) (crewOf opnSt useOpen) opnV 1 1 [0x8000] k = k opnV [0x8000]) ∧
    (∀ k, placesAt (ctxOf opnSt useOpen) (crewOf opnSt useOpen) opnV 2 16 [] k = k opnV []) ∧
    (∀ full k, seekFree (ctxOf opnSt useOpen) (crewOf opnSt useOpen) (cmbOf cmbVal) full k (cmbOf cmbVal).nslots opnV = k opnV 0 0x3000) :=
  ⟨fun _ => rfl, rfl, fun _ => rfl, fun _ => rfl, fun _ => rfl, fun _ => rfl, fun _ => rfl, fun _ _ => rfl⟩
theorem witness_CisternWords_open : (cmbOf cmbVal).good = true ∧ (List.range 2).map (cmbOf cmbVal).slotAt = [0x3000, 0x3900] ∧
    (cfgSt.releaseReady (crewKey 0 0) .dv).2 = true ∧ cfgRead.map (fun r => setFld r.2 256 32 0) = some cmbVal ∧
    pagesOf 0x8000 (cmbOf cmbVal).rowBytes = [0x8000] ∧ hdrState (cfgW.hdr 0x3000) = slotFree ∧ hdrState (cfgW.hdr 0x3900) = slotFree ∧
    hdrState (opnV.hdr 0x3000) = slotFree ∧ (crewOf opnSt useOpen).mustWait 1#32 0x3000 256 = false ∧ (opnV.clearRange 0x3000 256 true false none).2 = true ∧
    opnV.now = opnU.now ∧ fld (hdr0 0) 580 60 = 0 ∧ fld (hdrGate (hdr0 0) 0) 23 8 ≠ 255 := by decide +kernel
/-- A put to the peer 3 of the domain. -/
theorem witness_CisternWords_peer : meets { cmbSt 1 9 (4 * 2 ^ 16 + 2 ^ 40 + 3 * 2 ^ 41) with dom := { Dom.init with cfg := BitVec.ofNat 64 (1 + 3 * 2 ^ 10) } } usePut
    (fun x c t => (t.releaseReady x.key .dv).2 && (t.releaseReady x.key .dv).1.peerReach (fld (c.rs 5) 41 9) && fld (c.rs 5) 40 1 == 1 &&
      fld (c.rs 5) 38 2 == 0 && fld (c.rs 5) 50 14 == 0) = true := by decide +kernel

/-- Every tile name bound, with the control registers of the list; v1 holds `w` in every lane. -/
def tileSt (tcs : List W32) (w : Nat) : State :=
  crewSt (fun c => ({ (regs w 0 0 0 0 c) with bind := (List.range 8).map some, tc := tcs } : Crew).setS 3 (32 * 2 ^ 32 + 128)) id
def tBf : W32 := 0x491F1F#32
def tF : W32 := 0x4A1F1F#32
def tDx : W32 := 0x4E1F1F#32
def tI : W32 := 0x421F1F#32
def tS : W32 := 0x4A0103#32
def tr (n : Nat) (v : W32) : TRef := { name := n, phys := n, tc := v }
def tls : List W32 := [tBf, tBf, tF, tF, tDx, tI, 0, tS]
def tile1 (us : List WUse) (p : Crew → State → Bool) : Bool := meets (tileSt tls 0) us (fun _ c t => p c t)
theorem witness_TileWords :
    tile1 [Hdr.use hd [sReg 2] []] (fun c t => !c.tileWait t.now [] [0] && decide (0 < c.ntiles) && Tc.legal tF && (c.bind.getD 0 none).isSome &&
      !Tc.legal 0x4A1FFF#32 && !Tc.v (0 : W32)) = true ∧
    tile1 [Hdr.use hd [] [sReg 2]] (fun c _ => decide (7 < c.ntiles)) = true ∧
    tile1 [Hdr.use hd [] []] (fun c t => c.tref? [6] == none && c.tref? [2] == some [tr 2 tF] && c.tref? [2, 3] == some [tr 2 tF, tr 3 tF] &&
      sameShape tF tF && !sameShape tBf tF && (t.core c.core).grants c.pipe t.now && (Tc.rows tF == Tc.cols tF) && !Ty.isDx (Tc.ty tF) &&
      !c.tileWait t.now [2] [3]) = true ∧
    meets (tileSt tls 0) [Hdr.use hd [] []] (fun x _ t => tilesBad x t [tr 2 tF] == none) = true ∧
    meets (tileSt tls 0) [Hdr.use hd [vReg 8 4, sReg 2] []] (fun _ c t => colsFit (tr 2 tF) 4 28 && !colsFit (tr 2 tF) 4 29 && c.tref? [2] == some [tr 2 tF] && !c.tileWait t.now [] [2]) = true ∧
    tile1 [Hdr.use hd [sReg 2] [vReg 8 8]] (fun _ _ => colsFit (tr 2 tF) 8 24) = true ∧ histTy (Tc.ty tI) = false ∧ histTy (Tc.ty tF) = true := by decide +kernel
/-- The transfers of `tld` and `tst` from scratch, rows 128 bytes apart, and the record of `hist` at 0. -/
theorem witness_TileWords_memory :
    meets (tileSt tls 0) [Hdr.use hd [sReg 2, sReg 3] []] (fun x c t =>
      let mv := tileMoves x c t (tr 7 tS) .sp 2 3
      let chk (k : Nat) : Chk := t.checkAll (.core c.core) (.split x.key x.e) 0 c.walks .sp k mv.2.1 (mv.1.map (fun m => (m.1, m.2.2)))
      match chk 0, chk 1 with
      | .ok ls, .ok _ => ls.length == 8 && (match t.load x.key x.e c .cr .wk false x.det mv.2.1 (mv.1.map (fun m => (m.1, m.2.2))) ls with | .bytes _ _ => true | _ => false) &&
          (match storeAct x c t .cr .wk (mv.1.map (fun m => (m.1, m.2.2))) ((mv.1.zip ls).map (fun m => (m.1.1, m.2.2, [0, 0, 0, 0]))) with | .done _ => true | _ => false)
      | _, _ => false) = true := by decide +kernel
def histPs : List Nat := (List.range 5).map (fun i => 32 * i)
def histS : State := stOf (tileSt tls 0) [Hdr.use hd [sReg 2] []]
/-- The record is good where its TY, BINS and RATE say so; at 0 it holds `v`. -/
def histLast (v : Nat) : Option Bool :=
  let s : State := { (histS.unitsClean 0 (histPs.map (· / 128))).1 with mem := Cells.putLe [] 128 32 v }
  match s.directRead 128 32 0 false (some (crewKey 0 0)) { histS.finder 0 8 with core := some 0, va := 128 } with
  | .ok w bs _ false => if (w.crew (crewKey 0 0)).map (·.acks) = some [] then some (histGood (leVal bs)) else none
  | _ => none
set_option maxRecDepth 1000000 in
theorem witness_TileWords_hist : (∀ k, histAt (ctxOf (tileSt tls 0) [Hdr.use hd [sReg 2] []]) (crewOf (tileSt tls 0) [Hdr.use hd [sReg 2] []]) histS 0 k = k histPs) ∧
    (∀ p ∈ histPs, (crewOf (tileSt tls 0) [Hdr.use hd [sReg 2] []]).mustWait 1#32 p 32 = false) ∧
    (histS.unitsClean 0 (histPs.map (· / 128))).2 = true ∧ histLast 0 = some true ∧ histLast (2 ^ 256 - 1) = some false :=
  ⟨fun _ => rfl, by decide +kernel, by decide +kernel, by decide +kernel, by decide +kernel⟩

theorem witness_MatrixWords :
    meets (tileSt tls 0x099A0000) [Hdr.use hd [vReg 1 1] []] (fun x c t => x.act.lanes.all (fun l => c.rv 1 l == 0x099A0000) && fmtMma 0x099A0000 == some 32 &&
      !c.tileWait t.now [0, 1] [2] && c.tref? [0] == some [tr 0 tBf] && c.tref? [1] == some [tr 1 tBf] && c.tref? [2] == some [tr 2 tF] &&
      tileGroup 1 1 == [1] && tileGroup 2 1 == [2] && fmtA 0x099A0000 == .bf16 && fmtC 0x099A0000 == .f32 && Tc.ty tBf == .bf16 && Tc.rows tBf == 32 &&
      Tc.cols tBf == 32 && Tc.ty tF == .f32 && Tc.rows tF == 32 && Tc.cols tF == 32 && tilesBad x t [tr 0 tBf, tr 1 tBf, tr 2 tF] == none &&
      (t.core c.core).grants c.pipe t.now) = true ∧
    (tileSt tls 0x099A0000).ready [Hdr.use hd [vReg 1 1, sRegs 60 3] []] ≠ none ∧
    meets (tileSt tls 0x090A0000) [Hdr.use hd [vReg 1 1] []] (fun _ c t => fmtCvt 0x090A0000 && !Ty.isDx (fmtA 0x090A0000) && c.tref? [0, 2] == some [tr 0 tBf, tr 2 tF] &&
      Tc.ty tBf == fmtA 0x090A0000 && Tc.ty tF == fmtC 0x090A0000 && !c.tileWait t.now [0] [2]) = true ∧
    meets (tileSt tls 0x0E0A0000) [Hdr.use hd [vReg 1 1] []] (fun _ c _ => fmtCvt 0x0E0A0000 && Ty.isDx (fmtA 0x0E0A0000) && c.tref? [4, 2] == some [tr 4 tDx, tr 2 tF] &&
      c.groupFree 4 4 && decide (4 * 3 + 2 * (32 / 32) ≤ 16)) = true ∧
    meets (tileSt tls 0x090E0000) [Hdr.use hd [vReg 8 4, vReg 1 1] [vReg 8 4]] (fun _ c _ => fmtQuant 0x090E0000 && c.tref? [0, 4] == some [tr 0 tBf, tr 4 tDx]) = true ∧
    meets (tileSt tls 0) [Hdr.use hd [sReg 2] [vReg 8 1]] (fun _ c t => c.tref? [5] == some [tr 5 tI] && (Tc.ty tI).isInt && !c.tileWait t.now [5] []) = true ∧
    meets (tileSt tls 0) [Hdr.use hd [] []] (fun _ c t => c.tref? [2, 3, 2] == some [tr 2 tF, tr 3 tF, tr 2 tF] && !c.tileWait t.now [2, 3] [2]) = true ∧
    meets (tileSt tls 0) [Hdr.use hd [vReg 8 1, vReg 63 1] []] (fun _ c t => c.tref? [2, 3] == some [tr 2 tF, tr 3 tF] && decide (8 + 1 ≤ c.win) && decide (63 + 1 ≤ c.win) &&
      c.groupQuiet 8 1 && c.groupQuiet 63 1 && !c.tileWait t.now [2] [3]) = true := by decide +kernel

/-- Registers that a word names besides those of its issue: all readable, in DET or with SBCHK as outside them. -/
theorem witness_MatrixWords_late :
    let late (us : List Span1) (c : Crew) : Bool :=
      let u : WUse := { pred := 7, pn := false, src := us, dst := [], det := none }
      c.shortRead 0 u == none && c.badLanes u (2 ^ 32 - 1) == []
    meets (tileSt tls 0x099E0000) [Hdr.use hd [vReg 1 1, sRegs 8 2] []] (fun _ c _ => late [vReg 8 8, sReg 10] c && decide (8 + 8 ≤ c.win) && c.groupFree 8 8 &&
      c.scalarFree 10) = true ∧
    meets (tileSt tls 0) [Hdr.use hd [vReg 8 4, vReg 1 1] [vReg 8 4]] (fun _ c _ => late [] c) = true ∧
    meets (tileSt tls 0) [Hdr.use hd [] []] (fun _ c t => late [vReg 8 1, vReg 63 1] c && c.groupQuiet 8 1 && c.groupQuiet 63 1 && !c.tileWait t.now [2] [3]) = true := by decide +kernel

/-! ### Slices: a pump at 0x1000 with the code of a loop -/

def pump0 : Pump := { a := List.replicate 8 0, strd := List.replicate 32 0, loops := [], pc := 0x1000, halted := false, stopped := false, held := none, pts := 0,
                      wait := .none, word := none, tried := none, walks := [] }
/-- `ax.loop 0`-style code: the loop at 0x1000, a word, its end at 0x1010; a pumped data well 0 and a pumped tile well 1. -/
def sliceSt (p : Pump) : State :=
  let s := crewSt id (fun g => { g with pump := some p, scr := Cells.putBytes [] 64 (leBytes bar2.val 16), wells :=
    [(0, { wellOf 0 [] false with cfg0 := BitVec.ofNat 64 (2 ^ 38 + 2 ^ 44 + 0x1000), cfg1 := 0x0000000100000000 }),
     (1, { wellOf 8 [] false with cfg0 := BitVec.ofNat 64 (8 * 2 ^ 32 + 2 ^ 38 + 2 ^ 44), cfg1 := 0x0000000100000000 }), (2, wellOf 8 [] false)] })
  { s with cur := .pump 0, launches := [(0, { placeLaunch with params := List.replicate 40 2 })],
           mem := Cells.putBytes [] 0x1000 (leBytes (0x03F0000000000000 + 2) 8 ++ leBytes 0x03F2000000000000 8 ++ leBytes 0x03F0800000000000 8) }
def pumpOk (p : Pump) (f : Gang → Pump → State → Bool) : Bool :=
  match (sliceSt p).gang 0 with
  | some g => (match g.pump with | some q => f g q (sliceSt p) | none => false)
  | none => false
theorem witness_SliceWords :
    (sliceSt pump0).cur = .pump 0 ∧ pumpOk pump0 (fun _ q _ => q == pump0) = true ∧
    (sliceSt pump0).pm 0 (4 * 9) 4 = some 0x02020202 ∧ pump0.loops.length < 4 ∧
    pumpOk pump0 (fun g q s => s.findLoop 0 g q false sliceWords (q.pc + 8) 0 == .addr 0x1010) = true ∧
    pumpOk { pump0 with pc := 0x1010, loops := [(3, 0)] } (fun g q s => s.findLoop 0 g q true sliceWords (q.pc - 8) 0 == .addr 0x1000) = true ∧
    [((2 : Nat), (1 : Nat))] = [] ++ [(2, 1)] ∧ (2 : Nat) ≤ 1 + 1 ∧ (0 : Nat) + 1 < 3 ∧
    (sliceSt pump0).pm 0 (8 * 4) 8 = some 0x0202020202020202 ∧ (sliceSt pump0).pm 0 (8 * 3 + 8) 8 ≠ none ∧ ((sliceSt pump0).params 0).length < 8 * 5 + 8 ∧
    pumpOk pump0 (fun g q s => match (Tab.get g.wells 0, Tab.get g.wells 1, Tab.get g.wells 2) with
      | (some w, some v, some r) => w.pumped && !w.tiles && !w.full pumpIdx && { w with ents := [(32, 0, 0), (32, 0, 0)] }.full pumpIdx && v.pumped && v.tiles &&
          !v.full pumpIdx && !r.pumped && r.tiles &&
          (match s.pumpReads 0 g q 16 ((List.range (w.size / 16)).map (fun j => 16 * j)) with | .ok _ _ => true | _ => false)
      | _ => false) = true ∧
    pumpOk { pump0 with held := some (3, tS) } (fun g q s =>
      (match s.pumpTile 0 g q { name := 0, phys := 3, tc := tS } 0 0 with | .ok _ => Tc.v tS | _ => false)) = true ∧
    pumpOk pump0 (fun g q s => decide (16 * 4 + 16 ≤ g.scrSz) && g.scrPoison == [] && g.scrBadChk == [] && (barOf (leVal (g.scrBytes 64 16))).scope == 1 &&
      (match s.pumpArrive (.scr 0 64) q with | .ok _ _ _ => true | _ => false)) = true ∧
    plain.cur = .crew (crewKey 0 0) 0 := by decide +kernel

/-! ### System words, traps, handlers and waits -/

theorem witness_ControlRegisters : readyAll [Hdr.use hd [] [sReg 63], Hdr.use hd [sReg 62] [], Hdr.use hd [sReg 4] [], Hdr.use hd [] [],
    (Hdr.use hd [] [sReg 2]).inDet true 0xDB] = true ∧ meets plain [Hdr.use hd [] [sReg 2]] (fun x _ t => (t.gang (keyGid x.key)).isSome) = true ∧
    5 < (6 : BitVec 12).toNat ∧ (1 : BitVec 12) ≠ 0 := by decide +kernel

/-- s2 names a launch record at 0x8000 in the first 2 MiB, s4 a queue of 2 records at 0x4000 whose tail is `tail`. -/
def lchSt (n rec tail : Nat) (cfg : W64) : State :=
  { crewSt (fun c => (c.setS 2 rec).setS 4 n) id with
    queues := [(5, { QueueRegs.init with qbase := 0x4000, qcfg := cfg, qtail := BitVec.ofNat 32 tail })] }
def lchCfg : W64 := 0xC2000100#64
def lchUse : WUse := Hdr.use hd ([sReg 2] ++ Opnd.span (.s 4) 1) [sReg 1]
def lchOk (n rec tail : Nat) (cfg : W64) (p : QueueRegs → Ctx → Crew → State → State → Bool) : Bool :=
  meets (lchSt n rec tail cfg) [lchUse] (fun x c t => match t.releaseReady x.key .dv with
    | (u, true) => c.rs 2 == rec && c.sval (.s 4) == n && p (u.queue n) x c t u
    | _ => false)
theorem witness_LaunchReorderIdem :
    lchOk 16384 0 0 0 (fun _ _ _ _ _ => true) = true ∧ lchOk 16383 (2 ^ 57 - 1) 0 0 (fun _ _ _ _ _ => true) = true ∧ lchOk 16383 (2 ^ 57 + 1) 0 0 (fun _ _ _ _ _ => true) = true ∧
    (2 ^ 57 - 1) % 64 ≠ 0 ∧ (2 ^ 57 + 1) % 64 ≠ 0 ∧
    (let chk (v : State) (x : Ctx) (c : Crew) (kind ea : Nat) : Option (List (Nat × Loc)) :=
       okLocs (v.checkAll (.core c.core) (.split x.key x.e) 0 c.walks .gl kind 64 [(0, ea)])
     lchOk 5 0x8000 0 0 (fun q x c t u => chk t x c 0 0x8000 == some [(0, .phys 0x8000)] && !q.assigned (u.gangAsid 0) (u.gangPart 0)) = true ∧
     lchOk 5 0x8000 2 lchCfg (fun q _ _ _ u => q.assigned (u.gangAsid 0) (u.gangPart 0) && (q.qtail - q.qhead).toNat == 2 ^ q.k) = true ∧
     lchOk 5 0x8000 1 lchCfg (fun q x c t u => q.assigned (u.gangAsid 0) (u.gangPart 0) && (q.qtail - q.qhead).toNat != 2 ^ q.k &&
       chk t x c 0 0x8000 == some [(0, .phys 0x8000)] && chk u x c 1 0x4040 == some [(0, .phys 0x4040)] && u.notOwned 0x4040 == none &&
       (match u.directRead 0x8000 64 c.pts false (some x.key) with
        | .ok u1 bs _ false => (match u1.directWrite 0x4040 bs c.pts (some x.key) with | .ok _ _ _ _ => true | _ => false)
        | _ => false)) = true) := by decide +kernel
/-- A gang whose launch has a continuation of 8-lane bins, and a gang inside an idempotent region. -/
def reordLaunch : Launch :=
  { placeLaunch with contDesc := placeDesc, desc := leBytes (2 ^ 224 + 1 * 2 ^ 186 + 32 * 2 ^ 180 + 8 * 2 ^ 176) 64 }
/-- Bins of `n` entries before the deposits of a crew, in DET or not, into a storage of `r` places at an address that translates or not. -/
def reordOk (det : Bool) (mapsTo : Bool) (n r : Nat) (p : Launch → List BinEntry → State × Option Nat → Bool) : Bool :=
  let l : Launch := { reordLaunch with
    desc := leBytes (r * 2 ^ 224 + 1 * 2 ^ 186 + 32 * 2 ^ 180 + 8 * 2 ^ 176 + (if det then 2 ^ 137 else 0)) 64,
    record := leBytes (0x8000 * 2 ^ 192) 64,
    bins := (List.range n).map (fun k => { key := 3, payload := k, lane := k, idx := k }) }
  let s := crewSt id id
  meets { (if mapsTo then mapped s else s) with launches := [(0, l)] } [Hdr.use hd [vReg 1 1, vReg 2 2] []] (fun x c t => x.det == det &&
    (match t.releaseReady x.key .dv with
    | (u, true) =>
      let es : List BinEntry := x.act.lanes.map (fun k => { key := c.rv 1 k % 65536, payload := c.rvs 2 k 2, lane := t.logicalLane x.key k })
      p l es (u.deposits (fun v e => if x.det then v.binPut 0 e c.pts else v.deposit 0 e c.pts) es)
    | _ => false))
theorem witness_LaunchReorderIdem_deposits :
    reordOk false true 0 64 (fun _ _ d => d.2 == none) = true ∧ reordOk true true 0 64 (fun l es d => decide (l.bins.length + es.length ≤ l.reordN) && d.2 == none) = true ∧
    reordOk true true 40 64 (fun l es _ => decide (l.reordN < l.bins.length + es.length)) = true := by decide +kernel
theorem witness_LaunchReorderIdem_reord :
    meets { plain with launches := [(0, reordLaunch)] } [Hdr.use hd [vReg 1 1, vReg 2 2] []] (fun x _ t =>
      (match t.gang (keyGid x.key), t.gangLaunch (keyGid x.key) with
        | some g, some l => !g.cont && !g.inIdem && l.contDesc != [] && l.reordN != 0
        | _, _ => false) && (t.releaseReady x.key .dv).2 && !x.det) = true ∧
    meets plain [Hdr.use hd [] []] (fun x c t => (match t.gang (keyGid x.key) with | some g => !g.inIdem && g.pump == none | none => false) &&
      c.arr == none && (c.split x.e).mask == c.live && (t.releaseReady x.key .gg).2) = true ∧
    meets (crewSt id (fun g => { g with inIdem := true })) [Hdr.use hd [] []] (fun x c t =>
      (match t.gang (keyGid x.key) with | some g => g.inIdem | none => false) && c.arr == none && (c.split x.e).mask == c.live &&
      (t.releaseReady x.key .gg).2) = true := by decide +kernel

/-- A crew that trapped with a SOFT trap, and waits for cluster 0's management core or is served by it. -/
def trapSt (served : Bool) : State :=
  let t : Trap := { mkTrap 5 0 0xFFFFFFFF#32 0 7 with inService := served }
  let s := { crewSt (fun c => { c with trap := some t }) id with
             traps := [(1, { hbase := 0x4000, hen := 0x20 })],
             clusters := [(0, { ClusterSt.init with trapq := [crewKey 0 0] })] }
  if served then ({ s with cur := .mgmt 0 } : State).updMgmt 0 (fun m => { m with crew := some (crewKey 0 0), pc := 0x4500, since := 100 }) else s
def trapCrew (served : Bool) : Crew := ((trapSt served).crew (crewKey 0 0)).getD (placeCrew 0)
theorem witness_TrapsTaken :
    (plain.crew (crewKey 0 0)).isSome = true ∧ (plain.gang (keyGid (crewKey 0 0))).isSome = true ∧
    ((trapSt false).trapRegs ((trapSt false).gangAsid 0)).hen.getLsbD (mkTrap 5 0 0 0 0).cls = true ∧
    ((trapSt false).trapRegs ((trapSt false).gangAsid 0)).hen.getLsbD (mkTrap 4 0 0 0 0).cls = false ∧
    ((trapSt false).mgmt 0).crew = none ∧ (trapSt false).nextTrap 0 = some (crewKey 0 0, trapCrew false) ∧
    (trapCrew false).trap = some (mkTrap 5 0 0xFFFFFFFF#32 0 7) ∧ (mkTrap 5 0 0 0 0).cls < 16 ∧ (mkTrap 5 3 0 0 0).entry < 4 ∧
    plain.nextTrap 0 = none ∧ ((trapSt true).mgmt 0).crew ≠ none ∧
    (let old := mkTrap 5 2 0xFFFFFFFF#32 0 7
     old.inService = false ∧ old.since = plain.now ∧ (mkTrap 5 1 0 0 0).entry < old.entry ∧ old.detail &&& 144 = 0 ∧ ¬ (mkTrap 5 2 0 0 0).entry < old.entry) := by
  decide +kernel
theorem witness_Handlers :
    let s := trapSt true
    let c := trapCrew true
    s.cur = .mgmt 0 ∧ (s.mgmt 0).crew = some (crewKey 0 0) ∧ s.crew (crewKey 0 0) = some c ∧ c.trap.isSome = true ∧ (s.mgmt 0).passes 7 false = true ∧
    (c.trap.bind (fun t => s.itemRead (crewKey 0 0) c t 0x60)) = some 7 ∧ (c.trap.bind (fun t => s.itemRead (crewKey 0 0) c t 0x61)) = none ∧
    (c.itemWrite false 0x10 0x1008).isSome = true ∧ (c.itemWrite false 3 (2 ^ 64 - 1)).isSome = true ∧ c.windowGood = true ∧ (c.setPc 0 4).windowGood = false ∧
    (match s.gang 0 with | some g => (((s.updMgmt 0 (fun _ => Mgmt.init)).killLaunch g.lslot 5).mgmt 0).crew == none | none => false) = true ∧
    s.gangDet 0 = false ∧ (((s.leaveTrap (crewKey 0 0) c.core).endLanes (crewKey 0 0) c.live).mgmt 0).crew = none ∧
    plain.cur = .crew (crewKey 0 0) 0 ∧ (s.mgmt 0).since = 100 ∧ s.now < 100 + 270000 ∧ 100 + 270000 ≤ ({ s with now := 270100 } : State).now := by decide +kernel

/-- `s` with split 0 of its crew waiting for `w` with word `i`. -/
def waiting (s : State) (w : Wait) (i : Instr) : State :=
  s.updCrew (crewKey 0 0) (fun c => c.updSplit 0 (fun v => { v with wait := w, word := some i }))
def wakes (s : State) (p : Ctx → Crew → Bool) : Bool :=
  match s.crew (crewKey 0 0) with
  | some c => c.trap == none && decide (0 < c.splits.length) && p (s.waitCtx (crewKey 0 0) 0 c) c
  | none => false
def isDone : Act → Bool
  | .done _ => true
  | _ => false
theorem witness_WakeUps :
    (trapSt false).crew (crewKey 0 0) = some (trapCrew false) ∧ (trapCrew false).trap ≠ none ∧
    (let s := waiting (barSt bar2 0) (.bar (.scr 0 64) false) (.barWait barS)
     wakes s (fun _ c => (c.split 0).wait == .bar (.scr 0 64) false && (c.split 0).word.isSome && (match s.barDo (.scr 0 64) .look c.pts none c.idx with | .ok _ o _ => o.phase == false | _ => false)) = true) ∧
    (let s := waiting (barSt { bar2 with phase := true } 0) (.bar (.scr 0 64) false) (.barWait barS)
     wakes s (fun _ c => match s.barDo (.scr 0 64) .look c.pts none c.idx with | .ok _ o _ => o.phase != false | _ => false) = true) ∧
    (let look (v : BarObj) (q : Bool) : Nat := match (barSt v 0).barSee (.scr 0 64) q 0 (some (crewKey 0 0)) with
       | .ok _ _ _ => 0 | .waits _ => 1 | .sync _ => 2 | _ => 3
     look { bar2 with phase := true } false = 0 ∧ look bar2 false = 1 ∧ look { bar2 with err := true } false = 2 ∧
     (match (barDevSt { bar2 with scope := 3, phase := true } 0).barSee (.dev 64) false 0 (some (crewKey 0 0)) with | .ok _ _ _ => true | _ => false) = true) ∧
    (let s := waiting (wellSt (wellOf 0 [(0, 0, 0)] false)) (.well 3) (.wellPush hd 3 0 1)
     wakes s (fun x c => isDone (pushAct x c s 3 0 1)) = true) ∧
    (let s := waiting (wellSt (wellOf 0 [(0, 0, 0)] false)) (.well 3) (.wellPop hd 3 0 6 1)
     wakes s (fun x c => isDone (popAct x c s 3 0 1 6)) = true) ∧
    (let s := waiting (batchSt 0) .batch (.batchWait hd 1 (.s 4))
     wakes s (fun x c => isDone (batchAct x c s 1 (BitVec.ofNat 32 (c.sval (.s 4))))) = true) ∧
    (let s := waiting loaded (.poll 0) (.ldp memG 0)
     wakes s (fun _ _ => decide (s.now < 64 + 0)) = true ∧ wakes { s with now := 64 } (fun _ c => (c.split 0).wait == .poll 0) = true) ∧
    (let s := waiting plain (.sleep 9 0) (.sleep hd (.k 9))
     wakes s (fun _ _ => decide (s.now < 9 + 0)) = true ∧ wakes { s with now := 9 } (fun _ c => (c.split 0).wait == .sleep 9 0) = true) ∧
    (({ placeCrew 0 with pend := [{ split := 0, seq := 0, ws := [sWrite 61 5] }] } : Crew).pend[0]?).map (fun p => p.ws) = some [sWrite 61 5] ∧
    (placeCrew 0).fix = [] ∧ 63 < (placeCrew 0).win := by decide +kernel

/-! ### Homes and the fabric -/

/-- A request of core 0 of the placed crew for line 0, at its slice. -/
def req0 (k : PKind) : Pkt := { Pkt.new k (.core 0) (.slice (plain.servSlice 0)) 0 0 (crewKey 0 0) 0 with
  place := .server, first := 0, cnt := 4, bytes := match k with | .write | .wb => [(3, 1)] | _ => [],
  ops := match k with | .atom .. => [(0, 4, 1, 0)] | _ => [] }
def netSt (p : Pkt) : State := { plain with net := [(9, p)], nextId := 10 }
def atHome0 (k : PKind) (wr : Bool) (offs : List Nat) : Bool :=
  let s := netSt (req0 k)
  match s.meet 9 (req0 k) wr offs with
  | (u, b) => b && s.turn (req0 k) && !u.lost 0
def holder0 (crew : Nat) : NHolder := { line := 0, unit := .core 0, crew := crew, scope := .gg, part := 0, asked := false }
theorem witness_HomeServices :
    Tab.get (netSt (req0 .write)).net 9 = some (req0 .write) ∧ (req0 .write).dst = .slice (plain.servSlice 0) ∧
    atHome0 (.renew none) false [] = true ∧ (req0 (.renew none)).ops = [] ∧ (spanSectors 0 4).all (fun k => (netSt (req0 .write)).chkOk k) = true ∧
    atHome0 .write true [3] = true ∧ atHome0 .wb true [3] = true ∧ atHome0 (.atom 0 false .n32 true) true (atomOffsets [(0, 4, 1, 0)]) = true ∧
    (let s := netSt (req0 (.hold .gg))
     (s.nhtOf (req0 (.hold .gg)).dst).length = 0 ∧ s.turn (req0 (.hold .gg)) = true ∧ s.lost 0 = false) ∧
    [holder0 (crewKey 0 0)].any (fun h => h.line == 0 && h.unit == .core 0 && h.crew == crewKey 0 0) = true ∧
    (List.replicate 256 (holder0 77)).any (fun h => h.line == 0 && h.unit == .core 0 && h.crew == crewKey 0 0) = false ∧
    256 ≤ (List.replicate 256 (holder0 77)).length ∧ (netSt (req0 .write)).protOf 0 = none := by decide +kernel
theorem witness_HomeServices_write : Cells.wf ([(3, 1)] : LineBytes) = true ∧ (∀ e ∈ ([(3, 1)] : LineBytes), e.1 < 128) ∧ plain.lost 0 = false ∧
    plain.protOf 0 = none ∧ plain.homes.length = 4 ∧ (List.range 4).all (fun k => !plain.secPoison k && plain.chkOk k) = true ∧
    LineBytes.sectors [(3, 1)] = [0] := by decide +kernel
/-- A reply of the slice of line 0 at core 0. -/
def rep0 (k : PKind) : Pkt := { req0 k with place := .receiver, req := 3 }
theorem witness_HomeServices_replies : Tab.get (netSt (rep0 (.data 1 2))).net 9 = some (rep0 (.data 1 2)) ∧ (rep0 (.data 1 2)).place = .receiver ∧
    (let pending (v : Option Span) : State := (netSt (rep0 (.data 1 2))).updCore 0 (fun k => { k with l1 := match v with
       | some v => [(0, { v with pending := some 3 })]
       | none => [] })
     let got := { Span.empty with first := 0, cnt := 4 }
     (pending (some Span.empty)).awaits (.core 0) (rep0 (.data 1 2)) = true ∧ (pending (some got)).awaits (.core 0) (rep0 (.ext 2)) = true ∧
       got.holds (rep0 (.ext 2)) = true) ∧
    (rep0 (.data 1 2)).src = .core 0 ∧ (netSt (rep0 (.data 1 2))).combs.all (fun c => c.pkt != 3) = true ∧ (loaded.span (.core 0) 0).isSome = true ∧
    (match plain.crew (crewKey 0 0) with | some c => c.reqs == [] | none => false) = true ∧ plain.span (.core 0) 0 = none := by decide +kernel

/-- The request on its way: at its core's router, at the bridge of channel 2 of CD0 to HD1, or with a router of HD0 as goal. -/
def way0 (pl : Place) (fails : Nat) : State := netSt { req0 .write with place := pl, fails := fails }
def chSt (ch : Chan) : State := { way0 (.toHome 0 1 2) 0 with chans := [(chanNum 0 1 2, ch)] }
theorem witness_Fabric :
    (let p : Pkt := { req0 .write with place := .cd 0 0 0 }
     let s := way0 (.cd 0 0 0) 0
     Tab.get s.net 9 = some p ∧ s.absorbed 9 = false ∧ s.firstOut 9 p = true ∧ s.clusterServes p = none ∧ s.combs = [] ∧ (s.nextPlace p).isSome = true) ∧
    (let p : Pkt := { req0 .write with place := .toHome 0 1 2 }
     Tab.get (chSt Chan.init).net 9 = some p ∧ (chSt Chan.init).chan (chanNum 0 1 2) = Chan.init ∧ (chSt Chan.init).crossesFirst 9 p = true) ∧
    Chan.init.up = true ∧ Chan.init.retrain = none ∧ Chan.init.failed < 7 ∧
    (let ch : Chan := { Chan.init with failed := 7 }
     (chSt ch).chan (chanNum 0 1 2) = ch ∧ 7 ≤ ch.failed ∧ ch.retrain = none) ∧
    (let ch : Chan := { Chan.init with retrain := some 0 }
     ((chSt ch).chan (chanNum 0 1 2)).retrain = some 0 ∧ (chSt ch).now < 0 + 21600 ∧ 0 + 21600 ≤ ({ chSt ch with now := 21600 } : State).now) ∧
    ({ req0 .write with place := .toHome 0 1 2, fails := 1 } : Pkt).fails < 2 ∧
    Tab.get (way0 (.toHome 0 1 2) 2).net 9 = some { req0 .write with place := .toHome 0 1 2, fails := 2 } ∧
    (let p : Pkt := { req0 (.ack 5) with place := .server }
     Tab.get (netSt p).net 9 = some p ∧ p.dst = .slice (plain.servSlice 0)) ∧
    (17 < 18 ∧ plain.dom.linkUp.getD 17 false = true ∧ (0 ≠ 17 ∧ plain.dom.linkUp.getD 0 false = true)) := by decide +kernel

theorem witness_ClocksAndSweeps : plain.homes.any (fun h => !h.failed) = true ∧
    (let s : State := { plain with sweep := some (0x40000000#32, true, [4]) }
     s.sweep = some (0x40000000#32, true, [4]) ∧ Tab.get s.blocks 4 = none) ∧
    (let b : Blk := { lslot := 0, kind := 0, unit := false, prio := 0, gx := 0, gy := 0, save := none, age := 0, held := false, place := 0, core := 0,
                      cont := none, gid := none, side := [], was := none, sbuf := [] }
     let s : State := { plain with sweep := some (0x40000000#32, false, [4]), blocks := [(4, b)] }
     Tab.get s.blocks 4 = some b ∧ 4 ∈ [4] ∧ b.save = none) ∧
    (0x40000000#32).toNat / 2 ^ 26 ≠ (0 : Ts).toNat / 2 ^ 26 := by decide +kernel
theorem lost_none {s : State} (h : s.homes = State.reset.homes) : ∀ line, s.lost line = false := by
  intro line
  have hd : ∀ k, s.dieFailed k = false := fun k => by
    simp only [State.dieFailed, State.home, h]
    match k with
    | 0 | 1 | 2 | 3 => rfl
    | k + 4 => rfl
  simp [State.lost, hd]
theorem prot_none {s : State} (h : s.prot = State.reset.prot) : ∀ pa, s.protOf pa = none := by
  intro pa
  simp only [State.protOf, h]
  exact List.find?_eq_none.2 (fun p hp => by
    have : p.base = 0 := (by decide : ∀ p ∈ State.reset.prot, p.base = 0) p hp
    simp [this])
/-- The block of a saved gang in the list, with its image at 0x100000. -/
theorem witness_ClocksAndSweeps_image :
    let b : Blk := { lslot := 0, kind := 1, unit := false, prio := 0, gx := 0, gy := 0, save := some 0x100000, age := 0, held := false, place := 0, core := 0,
                     cont := none, gid := none, side := [], was := none, sbuf := [] }
    let s : State := { plain with sweep := some (0x40000000#32, false, [4]), blocks := [(4, b)] }
    Tab.get s.blocks 4 = some b ∧ b.save = some 0x100000 ∧ (crewPlan (s.blkDesc b)).length = 1 ∧
    0x100000 + imgCrewOff b.kind (s.blkDesc b) 0 + 0x208 + 4 ≤ devSize ∧
    (∀ line, s.lost line = false) ∧ (∀ pa, s.protOf pa = none) :=
  ⟨by decide +kernel, by decide +kernel, by decide +kernel, by decide +kernel, lost_none (by decide +kernel), prot_none (by decide +kernel)⟩

/-! ### Engines and walks -/

/-- Counter record at 0x2000 as in `ctrSt`, and the state of its home. -/
def cevSt (h : CtrHome) : State := { ctrSt true with ctrHomes := [(0x2000, h)] }
def creq (need : Nat) : CtrReq := { core := 1, op := 0, n := need, a := 0, crew := crewKey 0 0, entry := 0, b0 := 0, b1 := 0 }
theorem witness_CountersAndTimers : 0x2000 % 32 = 0 ∧ (cevSt CtrHome.init).lost (0x2000 / 128) = false ∧ (cevSt CtrHome.init).protOf (0x2000 / 128 * 128) = none ∧
    (cevSt CtrHome.init).homes.length = 4 ∧ ((cevSt CtrHome.init).core 1).oos = false ∧ (creq 5).op = 0 ∧
    (let h : CtrHome := { CtrHome.init with queue := [creq 5] }
     (cevSt h).ctrHome 0x2000 = h ∧ max ((cevSt h).ctrGet 0x2000).chunk (creq 5).need ≤ ((cevSt h).ctrGet 0x2000).home) ∧
    (let h : CtrHome := { CtrHome.init with queue := [creq 101] }
     ((cevSt h).ctrGet 0x2000).home < max ((cevSt h).ctrGet 0x2000).chunk (creq 101).need ∧
       (((cevSt h).ctrHolders 0x2000).map Prod.fst).filter (· != (creq 101).core) = [0]) ∧
    (let h : CtrHome := { CtrHome.init with st := 1, cur := some (creq 101), awaiting := [0] }
     (cevSt h).ctrHome 0x2000 = h ∧ h.awaiting = 0 :: [] ∧ h.grants = [] ∧ (((cevSt h).core 0).ctr? 0x2000).isSome = true) ∧
    (let h : CtrHome := { CtrHome.init with st := 1, cur := some (creq 101), replies := [(0, 4)] }
     (cevSt h).ctrHome 0x2000 = h ∧ ((cevSt h).ctrGet 0x2000).home + 4 ≤ ctrMax ∧ (creq 101).need ≤ ((cevSt h).ctrGet 0x2000).home + 4) ∧
    (let h : CtrHome := { CtrHome.init with grants := [(0, some 10)] }
     (cevSt h).ctrHome 0x2000 = h ∧ ((cevSt h).core 0).oos = false ∧ (match ((cevSt h).core 0).ctr? 0x2000 with
       | some e => e.refill == none && e.queue == [] && decide (e.allow + 10 ≤ ctrMax)
       | none => false) = true) ∧
    (let w : Ctr := { ctr0 with d := 1 }
     let s := ((waiting (cevSt { CtrHome.init with grants := [(0, some 10)] }) .ctr (.ctrTake w)).updCrew (crewKey 0 0) (fun c => { c with reqs := [{ pkt := 33, entry := 0, lanes := [], answer := none, poison := false }] })).updCore 0
       (fun k => { k with ctrs := [{ addr := 0x2000, allow := 7, refill := some (9, 33), queue := [] }] })
     (match s.takerOf 0 33 with | some (key, en, c) => key == crewKey 0 0 && en == 0 && (c.split en).word == some (.ctrTake w) | none => false) = true ∧
     (match (s.core 0).ctr? 0x2000 with | some e => e.refill == some (9, 33) && decide (e.allow + 10 - 9 ≤ ctrMax) | none => false) = true) := by decide +kernel
def swrCon (rank : Nat) : SwrContribution := { rank := rank, size := 2, ty := 10, op := 0, len := 4, cmd := none, bytes := [0, 0, 0, 0] }
def swrR : SwrRound := { num := 0, start := 0, got := [swrCon 1], ended := false, aborted := false }
theorem witness_CountersAndTimers_timers :
    (let s : State := { cmbSt 1 0 0 with cmbSlots := [(0x3000, { record := 0x2000, asid := 1, since := 0, chunks := [] })] }
     (Tab.get s.cmbSlots 0x3000).isSome = true ∧ s.lost (0x3000 / 128) = false ∧ s.engWaits = [] ∧ hdrState (s.hdr 0x3000) = slotOpen ∧
     s.now < 0 + 2700 * (s.cmbRec 0x2000).timeout ∧ 0 + 2700 * (s.cmbRec 0x2000).timeout ≤ ({ s with now := 2700 } : State).now) ∧
    (plain.swrGroup 5).rounds = [] ∧
    (let s : State := { plain with swr := [(5, { rounds := [swrR], next := [(1, 1)] })] }
     (s.swrGroup 5).rounds = [swrR] ∧ Tab.getD (s.swrGroup 5).next 0 0 = swrR.num ∧ swrR.ended = false ∧ swrR.aborted = false ∧
     swrR.got.all (fun d => d.cmd == none && !d.mismatch (swrCon 0) && swrR.got.all (fun e => !d.mismatch e)) = true ∧ swrR.got ≠ [] ∧
     s.now < swrR.start + 54000 ∧ swrR.start + 54000 ≤ ({ s with now := 54000 } : State).now) := by decide +kernel

/-- Address space 1 with its root table at 0x10000, whose entry 0 is `e`. -/
def walkSt (e : Nat) : State := { plain with mem := Cells.putLe [] 0x10000 8 e }
def walkRead (e : Nat) : Bool :=
  let s := walkSt e
  (match s.target 0x10000 with | .dev o => o == 0x10000 && !s.lost (o / 128) | _ => false) &&
  (match s.rangeRead 0x10000 8 (s.home (s.servDie (0x10000 / 128))).clock true none with | .ok _ bs _ false => leVal bs == e | _ => false)
theorem witness_PageWalks :
    walkRead 0 = true ∧ walkRead 0x20 = true ∧ walkRead 0x01 = true ∧ walkRead (0x01 + 2 ^ 63) = true ∧ walkRead (0x0F + 0x40) = true ∧ walkRead 0x0F = true ∧
    fld 0 0 1 = 0 ∧ fld 0x20 5 1 = 1 ∧ fld 0x01 0 1 = 1 ∧ fld 0x01 1 1 = 0 ∧ fld 0x0F 1 1 = 1 ∧ Nat.lor 0x4F 0x40 = 0x4F ∧ Nat.lor 0x0F 0x40 ≠ 0x0F ∧
    (List.range 5).any (fun n => pteMalformed n (0x01 + 2 ^ 63)) = true ∧ pteMalformed 4 0x01 = false ∧ pteMalformed 1 0x4F = false ∧ pteMalformed 1 0x0F = false ∧
    (let s := walkSt 0x0F
     match s.rangeRead 0x10000 8 (s.home (s.servDie 512)).clock true none with
      | .ok s1 _ _ _ => (match s1.rangeWrite 0x10000 (leBytes (Nat.lor 0x0F 0x40) 8) (s1.home (s1.servDie 512)).clock none with | .ok _ _ _ _ => true | _ => false)
      | _ => false) = true ∧
    plain.asidOn 200 = false := by decide +kernel
theorem witness_PageWalks_event :
    let r : WalkReq := { asid := 1, va := 0x10000, kind := 0, who := .split (crewKey 0 0) 0 }
    let s : State := { plain with walkq := [r] }
    s.walkq = [r] ∧ r.asid = 1 ∧ (match s.walk 1 0x10000 0 1 with | .fail u _ => (u.crew (crewKey 0 0)).isSome | _ => false) = true := by decide +kernel

/-! ### Launches, gangs and the driver -/

/-- Queue 5 of address space 1 with a ring of two records at 0x4000. -/
def q5 (head tail st : Nat) : QueueRegs :=
  { qbase := 0x4000, qcfg := 0x82000100#64, qhead := BitVec.ofNat 32 head, qtail := BitVec.ofNat 32 tail, qstat := BitVec.ofNat 64 st }
def qSt (head tail : Nat) (ls : Tab Launch) (st : Nat) : State :=
  mapped { State.reset with launches := ls, queues := [(5, q5 head tail st)] }
def ended (resv : Nat) (desc : List Byte) (donea : Nat) : Launch :=
  { placeLaunch with
    queue := 5, desc := desc, gangsLeft := 0, contLeft := 0, cmdsLeft := 0, flushed := true,
    record := leBytes (resv * 2 ^ 59 + donea * 2 ^ 128) 64 }
/-- A gang of one crew of 8 registers with no scratch, of partition 0 with one save slot of 64 KiB, stopped by a PRECTL. -/
def smallLaunch : Launch :=
  { placeLaunch with desc := leBytes (1 * 2 ^ 186 + 1 * 2 ^ 180) 64 }
def preSt (slots : Nat) (stop : Bool) : State :=
  { crewSt (fun _ => Crew.start 0 0 0 0 0 0 8 0 placePC 0 0 0 false 0xFFFFFFFF#32) (fun g => { g with scrSz := 0, ntiles := 0, stop := stop }) with
    launches := [(0, smallLaunch)],
    parts := [(0, { Part.init with svbase := 0x100000#64, svcfg := BitVec.ofNat 64 (slots + 2 ^ 16), quota := BitVec.ofNat 256 (2 ^ 256 - 2 ^ 128), ptcfg := 1#64 })] }
def saved1 : State := match (preSt 1 true).saveAll [0] with | some w => w | none => State.reset
def blk1 : Blk := match saved1.blocks with | (_, b) :: _ => { b with place := 1, core := 0 } | [] => { lslot := 0, kind := 0, unit := false, prio := 0, gx := 0, gy := 0, save := none, age := 0, held := false, place := 0, core := 0, cont := none, gid := none, side := [], was := none, sbuf := [] }
theorem witness_LaunchQueues : (5 < 16384) ∧ (qSt 0 1 [] 0).fw.recovery = false ∧ (qSt 0 1 [] 0).pwr.degraded = false ∧
    (qSt 0 1 [] 0).queue 5 = q5 0 1 0 ∧ (qSt 0 1 [] 0).engWaits = [] ∧ (qSt 0 1 [] 0).launches = [] ∧ (q5 0 1 0).qcfg.getLsbD 31 = true ∧
    (q5 0 1 0).qstat.getLsbD 1 = false ∧ (q5 0 0 0).qhead = (q5 0 0 0).qtail ∧ (q5 0 1 0).qhead ≠ (q5 0 1 0).qtail ∧
    Tab.firstFree (qSt 0 1 [] 0).launches 0 4096 = some 0 ∧ fld (q5 0 1 0).qcfg.toNat 8 8 = 1 ∧
    (match (qSt 0 1 [] 0).dispRead 1 0x4000 64 with | .ok u _ => (u.prevLaunch 5 0).isNone | _ => false) = true ∧
    (match ({ qSt 0 1 [] 0 with asids := [] } : State).dispRead 1 0x4000 64 with | .fail _ => true | _ => false) = true ∧
    fld (leVal (ended 31 [] 0).record) 59 5 ≠ 0 ∧ (ended 31 [] 0).desc = [] ∧ (ended 31 [] 0).queue = 5 ∧ placeLaunch.gangsLeft ≠ 0 ∧
    (let l := ended 0 placeDesc 0
     (qSt 0 0 [(0, l)] 0).launches = [(0, l)] ∧ l.desc ≠ [] ∧ l.gangsLeft = 0 ∧ l.contLeft = 0 ∧ l.cmdsLeft = 0 ∧ l.flushed = true ∧
     (qSt 0 0 [(0, l)] 0).strayWrites = false ∧ fld (leVal l.record) 128 64 = 0) ∧
    (let l := ended 0 placeDesc 0x6000
     let s := qSt 0 0 [(0, l)] 0
     fld (leVal l.record) 128 64 = 0x6000 ∧ s.strayWrites = false ∧
     (match s.engXlate l.asid 0x6000 1 with
      | .ok u pa => u.queues == s.queues && (match u.directWrite pa (leBytes (fld (leVal l.record) 64 32 * 2 ^ 32 + l.detail % 65536 * 2 ^ 16 + l.status) 8)
          u.clockMax none (u.launchFinder 0 0x6000) with | .ok v _ _ _ => v.queues == s.queues | _ => false)
      | _ => false) = true) := by decide +kernel

/-- A launch of one small gang, none of whose blocks is made, in partition 0, which has every cluster and no limit. -/
def freshLaunch : Launch :=
  { smallLaunch with nextG := 0, nextAge := 0 }
def dspSt (bs : Tab Blk) (f : Tab CoreSt) (l : Launch) : State :=
  { State.reset with launches := [(0, l)], blocks := bs, cores := f,
                     parts := [(0, { Part.init with quota := BitVec.ofNat 256 (2 ^ 256 - 2 ^ 128), ptcfg := 1#64 })] }
def blk0 (place core age : Nat) : Blk :=
  { lslot := 0, kind := 0, unit := false, prio := 0, gx := 0, gy := 0, save := none, age := age, held := false, place := place, core := core,
    cont := none, gid := none, side := [], was := none, sbuf := [] }
def idleCore (st : Option (Nat × Nat × List Nat)) : CoreSt :=
  { CoreSt.init with lastL := some 0, steal := st, part := some 0 }
theorem witness_BlocksAndGangs :
    (let s := dspSt [] [] freshLaunch
     s.launch 0 = some freshLaunch ∧ freshLaunch.desc ≠ [] ∧ freshLaunch.status = 0 ∧ freshLaunch.clu = false ∧
     freshLaunch.nextG < freshLaunch.rw * freshLaunch.rh ∧ s.blocks = []) ∧
    (let s := dspSt [] [] freshLaunch
     let t := (Tab.keys s.launches).foldl State.makeBlock s
     match t.headBlock 0 with
      | some (id, b) => Tab.get t.blocks id == some b && b.kind == 0 && t.served 0 b && t.chooseCore id b == some 0 && t.chooseCore id b != some 1
      | none => false) = true := by decide +kernel
theorem witness_BlocksAndGangs_donation :
    (let s := dspSt [] [(5, idleCore none)] smallLaunch
     (s.core 5).steal = none ∧ (s.core 5).lastL = some 0 ∧ s.idleFor 5 0 = true ∧ (victims 5).head? = some 4 ∧ s.shipped 4 0 (s.unitAsks 5 0) = []) ∧
    (dspSt [(7, blk0 1 4 0), (8, blk0 1 4 1)] [(5, idleCore none)] smallLaunch).shipped 4 0 false = [8] ∧
    (dspSt [] [(5, idleCore (some (0, 1, [4, 6])))] smallLaunch |>.core 5).steal = some (0, 1, 4 :: [6]) ∧
    (dspSt [(8, blk0 2 5 1)] [(5, idleCore (some (0, 2, [])))] smallLaunch |>.core 5).steal = some (0, 2, []) := by decide +kernel
def binLaunch (n : Nat) : Launch :=
  { smallLaunch with gangsLeft := 0, flushed := false, bins := (List.range n).map (fun k => { key := 3, payload := k, lane := k }) }
theorem witness_BlocksAndGangs_start :
    (let s := dspSt [(8, blk0 1 5 1)] [(5, idleCore none)] smallLaunch
     s.launch 0 = some smallLaunch ∧ s.nextLocal 5 = some (8, blk0 1 5 1) ∧ s.canStart 8 (blk0 1 5 1) 5 = true ∧ (s.core 5).part = some smallLaunch.part ∧
     (placePipes (s.pipeUse 5) ((crewPlan smallLaunch.desc).map (·.2.1))).isSome = true) ∧
    (binLaunch 0).bins = [] ∧ (binLaunch 0).flushed = false ∧ (binLaunch 0).gangsLeft = 0 ∧ (binLaunch 0).status = 0 ∧
    (binLaunch 32).keys = [3] ∧ ((binLaunch 32).binOrder 3).length = 32 ∧ (binLaunch 64).keys = [3] ∧ ((binLaunch 64).binOrder 3).length = 64 ∧
    smallLaunch.gangsLeft ≠ 0 := by decide +kernel

theorem witness_Preemption : (preSt 1 true).fw.recovery = false ∧ (preSt 1 false).fw.recovery = false ∧ (preSt 0 true).fw.recovery = false ∧
    ((preSt 1 true).setPart 0 { (preSt 1 true).part 0 with prestat := 1 } |>.part 0).prestat.getLsbD 0 = true ∧
    ((preSt 1 false).part 0).prestat.getLsbD 0 = false ∧ (Tab.keys (preSt 1 false).gangs).Nodup ∧ (preSt 1 false).gangs.all (fun g => g.2.heldFault == none) = true ∧
    (preSt 1 true).unitOf 0 = [0] ∧ (preSt 1 true).gangPart 0 = 0 ∧
    (match (preSt 1 true).gang 0, (preSt 1 false).gang 0 with | some g, some h => !g.inIdem && g.heldFault == none && g.stop && !h.stop | _, _ => false) = true ∧
    (match (preSt 1 true).drain [0] with
      | (u, true) => (u.gang 0).isSome && (u.gangLaunch 0).isSome && (match u.saveAll [0] with | some w => w.part 0 == (preSt 1 true).part 0 | none => false)
      | _ => false) = true ∧
    (((preSt 1 true).updCrew (crewKey 0 0) (fun c => { c with acks := [{ pkt := 3, line := 0, bytes := [0] }] })).drain [0]).2 = false ∧
    (match (preSt 0 true).drain [0] with | (u, true) => (u.saveAll [0]).isNone | _ => false) = true := by decide +kernel
/-- The image of `saved1`, byte by byte. -/
def image1 : Cells 8 :=
  [(0x100001, 16), (0x10000C, 1), (0x10006D, 68), (0x100071, 68), (0x100075, 68), (0x10050A, 8), (0x10050C, 128), (0x10050F, 32),
   (0x10051A, 8), (0x10051C, 128), (0x10051F, 32), (0x10052A, 8), (0x10052C, 128), (0x10052F, 32), (0x10053A, 8), (0x10053C, 128),
   (0x10053F, 32), (0x10054A, 8), (0x10054C, 128), (0x10054F, 32), (0x102214, 8), (0x102231, 16), (0x102238, 255), (0x102239, 255),
   (0x10223A, 255), (0x10223B, 255)]
def resSt (ps : List Nat) : State :=
  { saved1 with blocks := [(7, blk1)], poison := ps, mem := image1 }
set_option maxRecDepth 100000 in
theorem witness_Preemption_restore : (resSt []).fw.recovery = false ∧ (blk1.kind = 1 ∧ blk1.save = some 0x100000 ∧ (resSt []).sweep = none) ∧ (resSt []).nextLocal 0 = some (7, blk1) ∧
    (resSt []).canStart 7 blk1 0 = true ∧ (resSt []).unitBlocks 7 blk1 = [(7, blk1)] ∧
    (resSt [0x8000]).imgGood blk1 0x100000 ((resSt [0x8000]).blkDesc blk1) = false := by decide +kernel
set_option maxRecDepth 100000 in
theorem witness_Preemption_image : (resSt []).imgGood blk1 0x100000 ((resSt []).blkDesc blk1) = true := by decide +kernel
/-- Partition 0 with a block held with its image at 0x100000, an announcement, a page request, and an engine that waits on page 0x41. -/
def heldSt : State :=
  { preSt 1 false with blocks := [(7, { blk0 0 0 0 with kind := 2, save := some 0x100000, held := true })],
                       engWaits := [{ what := 0, id := 9, part := 0, asid := 1, page := 0x41 }],
                       parts := [(0, { (preSt 1 false).part 0 with announce := [0x100000], engreq := [(1, 0x41)] })] }
theorem witness_Preemption_held : heldSt.fw.recovery = false ∧ ((preSt 1 false).part 0).announce = [] ∧ ((preSt 1 false).part 0).engreq = [] ∧ (heldSt.part 0).announce = 0x100000 :: [] ∧
    (heldSt.part 0).engreq = (1, 0x41) :: [] ∧ (match heldSt.blocks with
      | [(7, b)] => b.held && b.save == some 0x100000 && (match heldSt.launch b.lslot with | some l => l.part == 0 | none => false)
      | _ => false) = true ∧ 0x100000 % 4 = 0 ∧ heldSt.asidPart 1 = 0 ∧ heldSt.engWaits = [{ what := 0, id := 9, part := 0, asid := 1, page := 0x41 }] := by decide +kernel

theorem witness_AddressSpaceControl : State.reset.fw.recovery = false ∧ 255 < 256 ∧ (State.reset.asid 255).pend.length < 16 ∧
    16 ≤ ((State.reset.setAsid 255 { AsidRegs.init with pend := List.replicate 16 0 }).asid 255).pend.length ∧ (State.reset.asid 1).pend = [] ∧
    (let s := State.reset.setAsid 1 { AsidRegs.init with pend := [0x10000] }
     (s.asid 1).pend = 0x10000 :: [] ∧ s.crews = [] ∧ s.gangs = [] ∧ s.net = [] ∧ s.blocks = []) ∧
    (let v : W64 := 0x40000001#64
     let carved (s : State) (v : W64) : Nat := ((List.range 64).filter (· != 0)).foldl (fun n k => n + fld (s.part k).ptcfg.toNat 24 7) (fld v.toNat 24 7)
     v.getLsbD 0 = true ∧ fld v.toNat 8 16 = 0 ∧ 64 < carved State.reset 0x41000000#64 ∧ carved State.reset v ≤ 64 ∧ fld (0x40000101#64).toNat 8 16 ≠ 0 ∧
     (State.reset.part 0).ptcfg.getLsbD 0 = false ∧ ((preSt 0 false).part 0).ptcfg.getLsbD 0 = true) ∧ 24 + 8 ≤ 32 := by decide +kernel

/-! ### Ranges, failures, the host, power and resets -/

/-- Block `k` of the protected ranges at GiB `b`, of `n` GiB, mirrored at GiB `m`; `low` its low bits. -/
def protSt (k b n m low : Nat) : State :=
  { State.reset with prot := State.reset.prot.set k { base := BitVec.ofNat 64 (b * 2 ^ 30 + low), size := BitVec.ofNat 64 n, mir := BitVec.ofNat 64 (m * 2 ^ 30) } }
theorem witness_ProtectedRanges : 7 < 8 ∧ (protSt 7 0 1 1 0).prot.length = 8 ∧ State.reset.fw.recovery = false ∧ Memory.wf State.reset.mem = true ∧
    ((protSt 7 0 1 1 1).protReg 7).base.getLsbD 0 = true ∧ (0x40000001#64).getLsbD 0 = true ∧ (0x40000000#64).getLsbD 0 = false ∧
    (let s := protSt 0 0 2 4 1
     let q := s.protReg 0
     q.base.getLsbD 0 = true ∧ fld (0x40000001#64).toNat 30 10 = 1 ∧ 1 < q.lo + q.gib ∧ q.lo < 1 + 1) ∧
    (List.range 8).all (fun j => !((protSt 7 0 1 1 0).protReg j).base.getLsbD 0) = true ∧
    (let n := fld ((protSt 7 0 288 288 0).protReg 7).size.toNat 0 10
     let m := fld ((protSt 7 0 288 288 0).protReg 7).mir.toNat 30 10
     1 ≤ n ∧ n ≤ 288 ∧ 0 + n ≤ 576 ∧ m + n ≤ 576 ∧ 0 + n ≤ m) ∧
    ((protSt 7 0 1 1 1).protReg 7).base.getLsbD 1 = false ∧ ((protSt 7 0 1 1 3).protReg 7).base.getLsbD 1 = true := by decide +kernel
def failedSt : State := { State.reset with homes := State.reset.homes.set 1 { clock := 0, failed := true } }
def logSt (cfg tail : Nat) : State :=
  { State.reset with err := { ErrRegs.init with base := 0x8000, cfg := BitVec.ofNat 64 cfg, tail := BitVec.ofNat 32 tail } }
theorem witness_FailuresAndErrors : failedSt.homes.length = 4 ∧ (failedSt.home 1).failed = true ∧ (failedSt.home 0).failed = false ∧
    (failedSt.home 2).failed = false ∧ (failedSt.home 3).failed = false ∧ lineDie 0 < 4 ∧ failedSt.protOf 0 = none ∧ (protSt 7 0 1 1 3).protOf 0 ≠ none ∧
    (plain.core 0).oos = false ∧ ((plain.updCore 511 (fun k => { k with oos := true })).core 511).oos = true ∧ plain.coreGangs 0 ≠ [] ∧
    (plain.coreGangs 0).map Prod.fst = [0] ∧ plain.ctrHomes = [] ∧ (plain.launch 0).isSome = true ∧
    (dspSt [(7, blk0 1 4 0)] [] smallLaunch).coreGangs 4 = [] ∧ Tab.get (dspSt [(7, blk0 1 4 0)] [] smallLaunch).blocks 7 = some (blk0 1 4 0) ∧
    (logSt 0 0).err.cfg.getLsbD 0 = false ∧ ((logSt 3 2).err.tail - (logSt 3 2).err.head).toNat = 2 ^ fld (logSt 3 2).err.cfg.toNat 1 5 ∧
    (let e := (logSt 3 1).err
     e.cfg.getLsbD 0 = true ∧ (e.tail - e.head).toNat ≠ 2 ^ fld e.cfg.toNat 1 5 ∧ e.base.toNat + 64 * (e.tail.toNat % 2 ^ fld e.cfg.toNat 1 5) = 0x8040 ∧
     (logSt 3 1).lost (0x8040 / 128) = false ∧ (logSt 3 1).protOf (0x8040 / 128 * 128) = none ∧ 0x8040 % 64 = 0) ∧
    State.reset.err.corrected = [] ∧ plain.secPoison 9 = false ∧ plain.lost (9 / 4) = false ∧ Tab.get plain.badChk 9 = none ∧ (List.replicate 32 (1 : Byte)).length = 32 ∧
    (match plain.gang 0, plain.crew (crewKey 0 0) with
      | some g, some c => !g.scrPoison.contains 2047 && decide (2047 * 32 < g.scrSz) && !g.tilePoison.contains 7 && decide (7 < g.ntiles) && !c.bad.contains (3, 31)
      | _, _ => false) = true := by decide +kernel

def farL (st : Nat) : FarLine := { st := st, bytes := [(0, 5)], wts := [0, 0], rts := [0, 0], gr := 0, poison := [] }
def portSt (ls : Tab FarLine) (up : Bool) (rs : Tab OutReq) : State :=
  { plain with bridges := State.reset.bridges.set 1 { up := up, clock := 0, lines := ls, nht := [] }, outReqs := rs }
def out0 (port addr what : Nat) : OutReq := { port := port, addr := addr, what := what, since := 0, pkt := 0, crew := 0, entry := 0, bytes := [] }
def hard0 (asked : Option Nat) (inv : Bool) : State :=
  plain.setSlice (plain.servSlice 0) { plain.slice (plain.servSlice 0) with hard := [{ line := 0, agent := 1, excl := true, asked := asked, inv := inv, beat := 0 }] }
theorem witness_HostAccess : 1 < 2 ∧ (portSt [] true []).bridges.length = 2 ∧ ((portSt [] true []).bridge 1).nht = [] ∧
    Tab.get ((portSt [] true []).bridge 1).lines (2 ^ 42 + 7) = none ∧
    [0, 1, 2, 3].all (fun st => Tab.get ((portSt [(2 ^ 42 + 7, farL st)] true []).bridge 1).lines (2 ^ 42 + 7) == some (farL st)) = true ∧
    (let r := out0 1 ((2 ^ 42 + 7) * 64) 2
     (portSt [] true [(9, r)]).outReqs = [(9, r)] ∧ r.port = 1 ∧ r.addr = (2 ^ 42 + 7) * 64 ∧ r.what = 2 ∧ ((portSt [] true [(9, r)]).bridge 1).lines = []) ∧
    (let s := portSt [] true []
     0 % 64 + 64 ≤ 64 ∧ s.lostRange 0 64 = false ∧ (match s.clearOwnRange 1 0 64 false with
       | (u, true) => !(u.checkRange 0 64 Finder.nobody).2
       | _ => false) = true ∧ (s.clearOwnRange 1 63 1 true).2 = true ∧ s.lostRange 63 1 = false ∧ ([1] : List Byte) ≠ []) ∧
    (let n := plain.servSlice (0 / 2)
     ((hard0 none false).slice n).hard.map (fun h => h.asked) = [none] ∧ ((hard0 (some 0) true).slice n).hard.map (fun h => h.asked) = [some 0] ∧
     (hard0 (some 0) true).now < 0 + 135000 ∧ (hard0 (some 0) true).now < 0 + 5400 ∧ 0 + 5400 ≤ ({ hard0 (some 0) true with now := 5400 } : State).now ∧
     0 + 135000 ≤ ({ hard0 none false with now := 135000 } : State).now ∧ (Tab.get (hard0 none false).slices n).isSome = true) ∧
    ((portSt [] false []).bridge 1).up = false ∧ ((portSt [] true []).bridge 1).up = true ∧ (portSt [] true []).outReqs = [] ∧ (portSt [] true []).net = [] := by
  decide +kernel

/-- Pool range 0 at its first address, and this MZ-40 as member 0 of a domain of 4 whose DTID 255 allows reads of address space 1. -/
def poolPa : Nat := 2 ^ 49
def poolSt (r : OutReq) : State :=
  { mapped State.reset with outReqs := [(9, r)], dom := { Dom.init with cfg := BitVec.ofNat 64 (1 + 3 * 2 ^ 10), dtin := [(255, 0x101)] },
                            pools := State.reset.pools.set 0 { base := 1, size := 1, dev := 0, stat := 0 } }
theorem witness_PoolAndDomain :
    (let s := poolSt (out0 0 poolPa 1)
     s.outReqs = [(9, out0 0 poolPa 1)] ∧ s.pools.length = 8 ∧ s.bridges.length = 2 ∧ s.target poolPa = .pool 0 0 ∧ poolPa % 64 = 0 ∧ (out0 0 poolPa 1).pkt = 0 ∧
     s.net = [] ∧ (out0 0 poolPa 1).entry < 2 ∧ (s.bridge (s.farPort poolPa)).lines = [] ∧ s.now < 0 + 27000000 ∧
     0 + 27000000 ≤ ({ s with now := 27000000 } : State).now ∧ s.peerReach 4 = false ∧ s.peerReach 3 = true ∧
     (Cells.get s.dom.dtin 255).getLsbD 8 = true ∧ (Cells.get s.dom.dtin 254).getLsbD 8 = false ∧ (Cells.get s.dom.dtin 255).getLsbD 9 = false ∧
     DomOp.writes (.write [1] false) = true ∧ fld (Cells.get s.dom.dtin 255).toNat 0 8 = 1 ∧
     (match s.inXlate 1 0x8000 64 0 with
       | .at u ps => ps == [(0x8000, 64)] && (match u.inRead (2 + 3) 0x8000 64 ((u.inFinder 1 0x8000).shift 0) with | (_, some (_, po)) => !po | _ => false)
       | _ => false) = true) ∧
    (let line := (2 ^ 51 + 3 * 2 ^ 40) / 64
     let s := poolSt (out0 2 (line * 64) 2)
     s.target (line * 64) = .peer 3 0 ∧ s.target 0 = .dev 0 ∧ s.dom.agent.nht = [] ∧ Tab.get [(line, farL 3)] line = some (farL 3) ∧ (farL 3).st < 4 ∧ (farL 3).poison = [] ∧ Tab.get s.dom.agent.lines line = none ∧ 2 ≤ (out0 2 (line * 64) 2).port ∧
     s.dom.agent.lines = []) ∧ 2 ≤ (out0 4 0 15).port ∧ (out0 4 0 15).what = 15 ∧ plain.cmds = [] ∧
    Tab.get (cmdSt { cmd0 with op := 2 }).cmds 9 = some { cmd0 with op := 2 } := by decide +kernel

theorem witness_PowerAndTelemetry : 511 < 512 ∧ State.reset.pwr.therm = List.replicate 6 false ∧ State.reset.pwr.tempd.length = 6 ∧
    (List.replicate 18 (1551 : Int)).length = 18 ∧ (∀ t ∈ List.replicate 18 (1551 : Int), t < 1552) ∧ (1599 : Int) < 1600 ∧ (1600 : Int) ≤ 1600 ∧
    State.reset.pwr.therm.length = 6 ∧ (State.reset.core 511).temp < 1424 ∧ (1423 : Int) < 1424 ∧
    3 ≤ (([0, 0, 0] : List Nat).filter (fun t => decide (State.reset.now ≤ t + 270000))).length := by decide +kernel

/-- An image of 64 bytes of no firmware. That an image is accepted rests on the vendor's key, a free value of Config (log entry 4), so no
closed term shows it. -/
theorem witness_FirmwareAndTrust : State.reset.fw.fwBusy = false ∧ checkImage 0 (List.replicate 64 0) = .failed 1 ∧ checkImage 0 [] = .failed 5 ∧
    64 ≤ (List.replicate 64 (0 : Byte)).length ∧ fld (leVal ((List.replicate 64 (0 : Byte)).take 64)) 480 32 ≠ 0x585A4657 ∧ State.reset.fw.atOp = none ∧
    State.reset.fw.sigIndex < 2 ^ 40 ∧ 2 ^ 40 ≤ ({ State.reset.fw with sigIndex := 2 ^ 40 } : Fw).sigIndex ∧ State.reset.fw.nonce.length = 32 ∧
    2 ≤ (2 : BitVec 2).toNat := by decide +kernel

theorem witness_ResetsAndRegisters : State.reset.fw.primary = .factory ∧ State.reset.fw.fwBusy = false ∧ State.reset.svc.fwstat.getLsbD 8 = false ∧
    (0xA501#32).getLsbD 0 = true ∧ fld (0xA501#32).toNat 8 8 = 0xA5 ∧ (0xA500#32).getLsbD 0 = false ∧ fld (0xA401#32).toNat 8 8 ≠ 0xA5 ∧
    ({ State.reset with pwr := { Pwr.init with off := true } } : State).pwr.off = true ∧ State.reset.pwr.off = false ∧ (1759 : Int) < 1760 ∧
    State.reset.launches = [] ∧ State.reset.fw.recovery = false := by decide +kernel

/-! ### Issue, steps and whole states -/

/-- `st` in DET, a read too early of v1, a register past the window, an empty mask, a bad cell, and a register that the scoreboard holds. -/
def issueSt (f : Crew → Crew) (g : Gang → Gang) : State := crewSt f g
def issueBy (s : State) (p : Crew → Crew → State → Bool) : Bool :=
  match s.cur, s.crew (crewKey 0 0) with
  | .crew _ 0, some c0 => p c0 (c0.settle s.now) s
  | _, _ => false
theorem witness_ChecksAtIssue :
    issueBy (issueSt (fun c => { c with pend := [{ split := 0, seq := 0, ws := [sWrite 2 5] }] }) id) (fun c0 _ _ => !c0.boardFree (Hdr.use hd [sReg 2] [sReg 3])) = true ∧
    issueBy (issueSt (fun c => { c with budget := 64 }) id) (fun c0 c _ => c0.boardFree (Alu.use alu {}) && (Alu.use alu {}).fits c.win) = true ∧
    issueBy plain (fun _ c _ => !(Alu.use { alu with ty := .n64, a := .v 63 } {}).fits c.win) = true ∧
    issueBy (issueSt (fun c => c.setP 0 0 (fun _ => false)) id) (fun _ c _ => c.guard 7 true (c.split 0).mask == 0) = true ∧
    issueBy { plain with launches := [(0, detLaunch)] } (fun _ _ s => s.gangDet 0 && ((Hdr.use hd [] [sReg 3]).inDet true 0xDB).det.isSome) = true ∧
    issueBy (issueSt (fun c => { (c.addFix 0 6 [sWrite 2 5]) with status := 0x200#64 }) id) (fun c0 c _ =>
      c0.boardFree (Hdr.use hd [sReg 2] [sReg 3]) && c.status.getLsbD 9 && (c.shortRead 0 (Hdr.use hd [sReg 2] [sReg 3])).isSome) = true ∧
    issueBy (issueSt (fun c => { c with bad := [(c.wb + 1, 4)] }) id) (fun _ c s => !s.gangDet 0 && !c.status.getLsbD 9 && c.badLanes (Alu.use alu {}) (c.split 0).mask != []) = true := by
  decide +kernel
theorem witness_RegisterWordsFrame : (plain.ready [Alu.use alu {}]).isSome = true := by decide +kernel

/-- The code that stands at a PC in memory can be fetched and decodes. -/
def fetches (u : State) (ag : Agent) (asid pc : Nat) (ws : List WalkFail) : Option (Bool × Bool) :=
  match u.xlate ag asid pc 3 ws with
  | .ok pa => (match u.codeBytes pa 8 with
    | some bs => if isMovl (BitVec.ofNat 64 (leVal bs)) then (match u.xlate ag asid (pc + 8) 3 ws with
        | .ok pb => (match u.codeBytes pb 8 with
          | some lit => some (true, (match decode (bs ++ lit) with | .ok _ => true | .error _ => false))
          | none => none)
        | _ => none)
      else some (false, match decode bs with | .ok _ => true | .error _ => false)
    | none => none)
  | _ => none
def picked (w n : Nat) : Option (Bool × Bool) :=
  let s := State.reset.withFetchWord (8 * n) w
  match s.pick 0 0 with
  | (t, some cand) => (match t.crew cand.key with
    | some cr => fetches t (.core 0) (t.gangAsid (keyGid cand.key)) (cr.split cand.e).pc cr.walks
    | none => none)
  | _ => none
theorem witness_StepRunsDecoded : (State.reset.withFetchWord 64 0).agenda = .pipe 0 0 :: [] ∧ (State.reset.withFetchWord 64 0).pwr.off = false ∧
    ((State.reset.withFetchWord 64 0).core 0).issuedAt.getD 0 none ≠ some 0 ∧ ((State.reset.withFetchWord 64 0).core 0).withheld 0 = false ∧
    picked 0x03AC800000000007 8 = some (false, true) ∧ picked 0xFFFFFFFFFFFFFFFF 8 = some (false, false) ∧
    picked (0x0381040000000003 + 0x1122334455667788 * 2 ^ 64) 16 = some (true, true) ∧
    (mgSt.mgmt 0).wait = .none ∧ (mgSt.mgmt 0).nextIssue ≤ mgSt.now ∧
    (fetches mgSt (.mgmt 0) (mgSt.mgmtAsid 0) (mgSt.mgmt 0).pc (mgSt.mgmt 0).walks).isSome = true ∧
    pumpOk pump0 (fun g p s => !p.halted && !p.stopped && p.wait == .none && g.issued && !g.stop && p.tried != some s.now &&
      (fetches s (.core g.core) (s.gangAsid 0) p.pc p.walks).isSome) = true := by decide +kernel
theorem witness_StepRunsDecoded_cycles : State.reset.agenda = [] ∧ ({ State.reset with agenda := [.clock 3] } : State).pwr.off = false ∧
    Move.powers (.clock 3) = false := by decide +kernel
theorem witness_DecodeEncode : (Instr.iadd alu).wf = true ∧ (Instr.movl hd false .i64 2 0x1122334455667788).wf = true ∧
    (Instr.hiadd 1 ⟨8, .v 1, 7, false, 2⟩ (.hfmul ⟨5, .v 2, 7, false, 10⟩)).wf = true := by decide
theorem witness_StepNeverStops : Move.legal (.pipe 0 0) = true ∧ Move.legal (.event (.watchdogExpiry 0)) = true ∧ (State.reset.withFetchWord 64 0).agenda = [.pipe 0 0] := by
  decide +kernel
theorem witness_MemoryStaysCanonical : State.reset.inv ∧ step State.reset = .next (State.reset.tick 1) := ⟨rfl, rfl⟩

end Sys2Proof.Tests
end

section
/-! SUPPORT. Rounding to a floating-point type where it overflows (03_formats.md R78, R85, R86): what the bits of an infinity, of MAXF and
of the canonical NaN stand for, and when and how `fRound` overflows. -/

namespace Sys2Proof.Machine

/-! ## Values from bits (R78) -/

theorem Ty.isFlt_cases {t : Ty} (h : t.isFlt = true) : t = .f16 ∨ t = .bf16 ∨ t = .f32 ∨ t = .f64 := by
  cases t <;> simp_all [Ty.isFlt, Ty.code]

theorem Ty.frac_pos (t : Ty) : 0 < Ty.frac t := by
  cases t <;> decide

theorem Ty.one_lt_expMax (t : Ty) : 1 < Ty.expMax t := by
  cases t <;> decide

/-- The sign bit stands right above the exponent field. -/
theorem Ty.signBit_eq {t : Ty} (h : t.isFlt = true) : 2 ^ (t.bits - 1) = 2 ^ Ty.frac t * (Ty.expMax t + 1) := by
  obtain rfl | rfl | rfl | rfl := Ty.isFlt_cases h <;> rfl

theorem fSign_eq (t : Ty) (neg : Bool) (mag : Nat) : fSign t neg mag = mag + 2 ^ (t.bits - 1) * neg.toNat := by
  cases neg <;> simp [fSign]

/-- A sign, an exponent field and a fraction are read back as they were put together. -/
theorem fDec_fSign {t : Ty} (ht : t.isFlt = true) (neg : Bool) {ex fr : Nat} (hex : ex ≤ Ty.expMax t) (hfr : fr < 2 ^ Ty.frac t) :
    fDec t (fSign t neg (fr + 2 ^ Ty.frac t * ex)) =
      if ex = Ty.expMax t then if fr = 0 then .inf neg else .nan (decide (fr < 2 ^ (Ty.frac t - 1)))
      else if ex = 0 then .num neg fr (Ty.emin t - Ty.frac t)
      else .num neg (fr + 2 ^ Ty.frac t) (ex - 1 + Ty.emin t - Ty.frac t) := by
  have hmag : fr + 2 ^ Ty.frac t * ex < 2 ^ Ty.frac t * (Ty.expMax t + 1) := by
    calc fr + 2 ^ Ty.frac t * ex < 2 ^ Ty.frac t * (ex + 1) := by rw [Nat.mul_succ]; omega
      _ ≤ _ := Nat.mul_le_mul_left _ (by omega)
  have hsign : fSign t neg (fr + 2 ^ Ty.frac t * ex) / 2 ^ (t.bits - 1) = neg.toNat := by
    rw [fSign_eq, Nat.add_mul_div_left _ _ (Nat.two_pow_pos _), Nat.div_eq_of_lt (Ty.signBit_eq ht ▸ hmag), Nat.zero_add]
  have hlow : fSign t neg (fr + 2 ^ Ty.frac t * ex) = fr + 2 ^ Ty.frac t * (ex + (Ty.expMax t + 1) * neg.toNat) := by
    rw [fSign_eq, Ty.signBit_eq ht]; ring
  have hexp : fSign t neg (fr + 2 ^ Ty.frac t * ex) / 2 ^ Ty.frac t % (Ty.expMax t + 1) = ex := by
    rw [hlow, Nat.add_mul_div_left _ _ (Nat.two_pow_pos _), Nat.div_eq_of_lt hfr, Nat.zero_add, Nat.add_mul_mod_self_left,
      Nat.mod_eq_of_lt (Nat.lt_succ_of_le hex)]
  have hfrac : fSign t neg (fr + 2 ^ Ty.frac t * ex) % 2 ^ Ty.frac t = fr := by
    rw [hlow, Nat.add_mul_mod_self_left, Nat.mod_eq_of_lt hfr]
  have hneg : (neg.toNat % 2 == 1) = neg := by cases neg <;> rfl
  simp only [fDec, hsign, hexp, hfrac, hneg]

theorem fDec_fSign_fInf {t : Ty} (ht : t.isFlt = true) (neg : Bool) : fDec t (fSign t neg (fInf t)) = .inf neg := by
  have h := fDec_fSign ht neg (le_refl (Ty.expMax t)) (Nat.two_pow_pos (Ty.frac t))
  rwa [if_pos rfl, if_pos rfl, Nat.zero_add, Nat.mul_comm] at h

/-- MAXF has the largest exponent field of a finite value and an all-ones fraction. -/
theorem fDec_fSign_fMax {t : Ty} (ht : t.isFlt = true) (neg : Bool) : fDec t (fSign t neg (fMax t)) =
    .num neg (2 ^ (Ty.frac t + 1) - 1) (Ty.emin t + (Ty.expMax t : Int) - 2 - Ty.frac t) := by
  have hpos := Nat.two_pow_pos (Ty.frac t)
  have hexp := Ty.one_lt_expMax t
  have hmax : fMax t = (2 ^ Ty.frac t - 1) + 2 ^ Ty.frac t * (Ty.expMax t - 1) := by
    rw [fMax, fInf, Nat.mul_comm, Nat.mul_sub_one]
    have := Nat.le_mul_of_pos_right (2 ^ Ty.frac t) (show 0 < Ty.expMax t by omega)
    omega
  rw [hmax, fDec_fSign ht neg (by omega) (by omega), if_neg (by omega), if_neg (by omega)]
  congr 1 <;> omega

theorem fDec_fNaN {t : Ty} (ht : t.isFlt = true) : fDec t (fNaN t) = .nan false := by
  have hlt : 2 ^ (Ty.frac t - 1) < 2 ^ Ty.frac t := Nat.pow_lt_pow_right (by decide) (Nat.sub_one_lt (Ty.frac_pos t).ne')
  have h := fDec_fSign ht false (le_refl (Ty.expMax t)) hlt
  rw [if_pos rfl, if_neg (Nat.two_pow_pos _).ne', decide_eq_false (lt_irrefl _)] at h
  rwa [fNaN, fInf, Nat.add_comm, Nat.mul_comm]

/-! ## Overflow of `fRound` (R85, R86) -/

/-- The modes and signs of R86's table that overflow to the infinity; the others overflow to MAXF. -/
def Rnd.toInf (r : Rnd) (neg : Bool) : Bool :=
  match r with
  | .rne => true
  | .rz => false
  | .ru => !neg
  | .rd => neg

/-- The magnitude that `fRound` compares with the infinity: fraction and exponent field as one number. -/
def fMag (t : Ty) (r : Rnd) (neg : Bool) (m : Nat) (e : Int) : Nat :=
  let e' := if fExpo m e < Ty.emin t then Ty.emin t else fExpo m e
  (fQuot neg m e (e' - Ty.frac t) r).1 + (e' - Ty.emin t).toNat * 2 ^ Ty.frac t

theorem fRound_of_overflow {t : Ty} {r : Rnd} {neg : Bool} {m : Nat} {e : Int} (sat : Bool) (hm : m ≠ 0) (h : fInf t ≤ fMag t r neg m e) :
    fRound t r sat neg m e =
      { bits := fSign t neg (if !sat && Rnd.toInf r neg then fInf t else fMax t), fl := Flags.ovf ||| Flags.nx } := by
  unfold fMag at h
  simp only [fRound, if_neg hm, if_pos h]
  cases r <;> cases sat <;> cases neg <;> rfl

theorem Flags.ovf_nx_with_ovf : (Flags.ovf ||| Flags.nx).getLsbD 2 = true := by
  decide

theorem Flags.nx_unf_without_ovf : ∀ a b : Bool, (Flags.on a Flags.nx ||| Flags.on b Flags.unf).getLsbD 2 = false := by
  decide

/-- Below the infinity `fRound` raises NX and UF at most. -/
theorem fRound_fl_of_no_overflow {t : Ty} {r : Rnd} {neg : Bool} {m : Nat} {e : Int} (sat : Bool) (h : m = 0 ∨ ¬ fInf t ≤ fMag t r neg m e) :
    (fRound t r sat neg m e).fl.getLsbD 2 = false := by
  by_cases hm : m = 0
  · simp [fRound, hm]
  · have hlt := h.resolve_left hm
    unfold fMag at hlt
    simp only [fRound, if_neg hm, if_neg hlt]
    exact Flags.nx_unf_without_ovf _ _

theorem fRound_ovf_iff (t : Ty) (r : Rnd) (sat neg : Bool) (m : Nat) (e : Int) :
    (fRound t r sat neg m e).fl.getLsbD 2 = true ↔ m ≠ 0 ∧ fInf t ≤ fMag t r neg m e := by
  constructor
  · intro hov
    by_contra hn
    rw [fRound_fl_of_no_overflow sat (by tauto)] at hov
    cases hov
  · rintro ⟨hm, h⟩
    rw [fRound_of_overflow sat hm h]
    exact Flags.ovf_nx_with_ovf

/-- A quotient is at least the one cut off toward zero. -/
theorem div_le_fQuot (neg : Bool) (m : Nat) {e k : Int} (r : Rnd) (h : e < k) : m / 2 ^ (k - e).toNat ≤ (fQuot neg m e k r).1 := by
  have hup (n : Nat) (up : Bool) : n ≤ if up then n + 1 else n := by cases up <;> simp
  simp only [fQuot, if_neg (not_le.mpr h)]
  exact hup _ _

/-- At the exponent of its own leading bit a value has a quotient of that many bits. -/
theorem two_pow_le_fQuot (neg : Bool) {m : Nat} (hm : m ≠ 0) (e : Int) (f : Nat) (r : Rnd) :
    2 ^ f ≤ (fQuot neg m e (fExpo m e - f) r).1 := by
  have hlead : 2 ^ Nat.log2 m ≤ m := Nat.log2_self_le hm
  by_cases hk : fExpo m e - f ≤ e
  · have hlog : Nat.log2 m ≤ f := by unfold fExpo at hk; omega
    have hshift : (e - (fExpo m e - f)).toNat = f - Nat.log2 m := by unfold fExpo; omega
    simp only [fQuot, if_pos hk, hshift]
    calc 2 ^ f = 2 ^ Nat.log2 m * 2 ^ (f - Nat.log2 m) := by rw [← Nat.pow_add, Nat.add_sub_cancel' hlog]
      _ ≤ m * 2 ^ (f - Nat.log2 m) := Nat.mul_le_mul_right _ hlead
  · have hlog : f ≤ Nat.log2 m := by unfold fExpo at hk; omega
    have hshift : (fExpo m e - f - e).toNat = Nat.log2 m - f := by unfold fExpo; omega
    refine le_trans ?_ (div_le_fQuot neg m r (not_le.mp hk))
    rwa [hshift, Nat.le_div_iff_mul_le (Nat.two_pow_pos _), ← Nat.pow_add, Nat.add_sub_cancel' hlog]

/-- A value of an exponent beyond the largest reaches the infinity in every mode. -/
theorem fInf_le_fMag {t : Ty} (r : Rnd) (neg : Bool) {m : Nat} (hm : m ≠ 0) {e : Int}
    (h : Ty.emin t + (Ty.expMax t : Int) - 2 < fExpo m e) : fInf t ≤ fMag t r neg m e := by
  have hexp := Ty.one_lt_expMax t
  have hfield : Ty.expMax t ≤ 1 + (fExpo m e - Ty.emin t).toNat := by omega
  have hquot := two_pow_le_fQuot neg hm e (Ty.frac t) r
  simp only [fMag, if_neg (show ¬ fExpo m e < Ty.emin t by omega)]
  calc fInf t ≤ (1 + (fExpo m e - Ty.emin t).toNat) * 2 ^ Ty.frac t := Nat.mul_le_mul_right _ hfield
    _ = 2 ^ Ty.frac t + (fExpo m e - Ty.emin t).toNat * 2 ^ Ty.frac t := by rw [Nat.add_mul, Nat.one_mul]
    _ ≤ _ := Nat.add_le_add_right hquot _

/-! ## R86 -/

/-- Settles O7: an overflow is read off `fRound_of_overflow` by mode and sign, and `fInf_le_fMag` gives the values that must overflow. -/
theorem overflowResults : Obligations.OverflowResults := by
  intro t r sat neg sig m e ht
  refine ⟨fun hov => ?_, fun hm hbig => ?_, ⟨?_, rfl⟩, fDec_fNaN ht⟩
  · obtain ⟨hm, hmag⟩ := (fRound_ovf_iff t r sat neg m e).mp hov
    have hinf := fDec_fSign_fInf ht neg
    have hmax := fDec_fSign_fMax ht neg
    rw [fRound_of_overflow sat hm hmag]
    refine ⟨rfl, ?_⟩
    cases sat with
    | true => exact hmax
    | false =>
      cases r with
      | rne => exact hinf
      | rz => exact hmax
      | ru => cases neg with
        | false => exact hinf
        | true => exact hmax
      | rd => cases neg with
        | false => exact hmax
        | true => exact hinf
  · exact (fRound_ovf_iff t r sat neg m e).mpr ⟨hm.ne', fInf_le_fMag r neg hm.ne' hbig⟩
  · cases sat
    · exact fDec_fSign_fInf ht neg
    · exact fDec_fSign_fMax ht neg

end Sys2Proof.Machine
end

section
/-! SUPPORT. Division, address and permutation words (R158, R160): division and remainder as one truncating quotient, and the bytes of `prmt`. -/

namespace Sys2Proof.Machine

/-! ## Integer words with flags, and words that no management core has -/

theorem Flags.any_singleton (f : Flags) : Flags.any [f] = f := BitVec.zero_or

/-- An integer word on the scoreboard gives the result of its function, with the flags of the active lanes (R144, R158). -/
theorem aluVar_pending_of_ready {s : State} {x : Ctx} {c : Crew} {t : State} {o : Alu} {u : AluUse}
    (h : s.ready [Alu.use o u] = some (x, c, t)) (i : Instr) (f : AluFn) (g : Nat → Nat) (fl : Nat → Flags)
    (hi : exec i s = aluVar i o u f s) (hf : ∀ l, aluLane o u f c l = (g l, fl l)) :
    ∃ ws, Pending i s x c t o.h.stall.toNat ws (Flags.any ((if o.sc then [0] else x.act.lanes).map fl)) ∧
      if o.sc then ws = [sWrite o.d.toNat (iExt o.ty (g 0))]
      else VecGives c x.act o.d.toNat o.ty.regs (fun l => iExt o.ty (g l)) ws := by
  have hexec : exec i s = .next (x.retires 8 o.h.stall.toNat (x.pends c t (aluWrites o u f x c).1 (aluWrites o u f x c).2)) := by
    rw [hi, aluVar, fullWord_ready h]
    rfl
  refine ⟨(aluWrites o u f x c).1, ?_, ?_⟩
  · rw [Pending, hexec]
    cases hs : o.sc with
    | true => simp [aluWrites, hs, hf, Flags.any_singleton]
    | false => simp [aluWrites, hs, hf, laneResults_flags]
  · cases hs : o.sc with
    | true => simp [aluWrites, hs, hf]
    | false =>
      simp only [aluWrites, hs, hf, Bool.false_eq_true, if_false]
      exact vecGives_vecWrites _ _ _ _ _ _ (fun l hl => laneResults_getD _ _ hl)

/-- What a management core does with a word has no part in what a crew that is ready does. -/
theorem fullWord_eq_of_ready {s : State} {u : WUse} {x : Ctx} {c : Crew} {t : State} (h : s.ready [u] = some (x, c, t))
    (i : Instr) (hd : Hdr) (size : Nat) (body : Body) (mg mg' : Option MBody) :
    fullWord i hd u size body mg s = fullWord i hd u size body mg' s := by
  rw [fullWord_ready h, fullWord_ready h]

/-! ## Division (R158) -/

theorem iWrap_neg_one (t : Ty) : iWrap t (-1) = 2 ^ t.bits - 1 := by
  cases t <;> rfl

theorem iWrap_zero (t : Ty) : iWrap t 0 = 0 := by
  simp [iWrap]

/-- The negated most negative value wraps to that value. -/
theorem iWrap_neg_tyLo (t : Ty) : iWrap t (-tyLo t) = iWrap t (tyLo t) := by
  cases t <;> rfl

/-- Division towards zero has one exception only, the zero divisor: the most negative dividend by -1 is the wrapped quotient too. -/
theorem iDivRem_eq (t : Ty) (a b : Nat) : iDivRem t a b =
    (iWrap t (if iVal t b = 0 then -1 else Int.tdiv (iVal t a) (iVal t b)),
     iWrap t (if iVal t b = 0 then iVal t a else Int.tmod (iVal t a) (iVal t b)),
     if iVal t b = 0 then Flags.dz else 0) := by
  unfold iDivRem
  by_cases hb : iVal t b = 0
  · simp [hb, iWrap_neg_one]
  · by_cases hmin : (t.signed && decide (iVal t a = tyLo t) && decide (iVal t b = -1)) = true
    · obtain ⟨⟨hs, ha⟩, hb'⟩ : (t.signed = true ∧ iVal t a = tyLo t) ∧ iVal t b = -1 := by simpa using hmin
      simp [hs, ha, hb', iWrap_neg_tyLo, iWrap_zero]
    · simp only [hb, hmin, if_false]
      rfl

/-- Settles O2: both words are on the scoreboard, and `iDivRem_eq` gives their results and flags. -/
theorem integerDivision : Obligations.IntegerDivision := by
  intro s x c t o h
  constructor
  · exact aluVar_pending_of_ready h _ _ _ _ rfl (fun l => by rw [aluLane, iDivRem_eq])
  · exact aluVar_pending_of_ready h _ _ _ _ rfl (fun l => by rw [aluLane, iDivRem_eq])

/-! ## `lea` and `prmt` (R160) -/

/-- `sext(B, 32)` of R160. -/
theorem sext32_eq_toInt (n : Nat) : sext32 n = (BitVec.ofNat 32 n).toInt := by
  have hsigned : Ty.signed .i32 = true := rfl
  have hbits : Ty.bits .i32 = 32 := rfl
  rw [BitVec.toInt_ofNat', Int.bmod_def]
  simp only [sext32, iVal, hsigned, hbits, Bool.true_and, decide_eq_true_eq]
  split_ifs <;> omega

/-- The constant entries -1 to -16 as 32-bit patterns (R142). -/
theorem kBits_i32_of_neg {k : Nat} (hlo : 32 ≤ k) (hhi : k < 48) : kBits .i32 k % 2 ^ 32 = 2 ^ 32 - (k - 31) := by
  have hint : Ty.isInt .i32 = true := rfl
  have hbits : Ty.bits .i32 = 32 := rfl
  simp only [kBits, hint, if_true, iWrap, kInt, hbits, if_neg (not_lt.mpr hlo)]
  omega

/-- Byte `k` of the result of `prmt`, before the four are put together. -/
def prmtByte (a b c k : Nat) : Nat :=
  let p := (a % 2 ^ 32 + b % 2 ^ 32 * 2 ^ 32) / 256 ^ (c / 16 ^ k % 16 % 8) % 256
  if c / 16 ^ k % 16 < 8 then p else if 128 ≤ p then 255 else 0

theorem prmtByte_lt (a b c k : Nat) : prmtByte a b c k < 256 := by
  unfold prmtByte
  dsimp only
  split_ifs <;> omega

theorem iPrmt_eq (a b c : Nat) : iPrmt a b c =
    prmtByte a b c 0 + prmtByte a b c 1 * 256 + prmtByte a b c 2 * 65536 + prmtByte a b c 3 * 16777216 := rfl

theorem iPrmt_lt (a b c : Nat) : iPrmt a b c < 2 ^ 32 := by
  have h0 := prmtByte_lt a b c 0
  have h1 := prmtByte_lt a b c 1
  have h2 := prmtByte_lt a b c 2
  have h3 := prmtByte_lt a b c 3
  rw [iPrmt_eq]
  omega

theorem iPrmt_byte (a b c : Nat) {k : Nat} (hk : k < 4) : iPrmt a b c / 256 ^ k % 256 = prmtByte a b c k := by
  have h0 := prmtByte_lt a b c 0
  have h1 := prmtByte_lt a b c 1
  have h2 := prmtByte_lt a b c 2
  have h3 := prmtByte_lt a b c 3
  rw [iPrmt_eq]
  interval_cases k <;> norm_num <;> omega

/-- On a crew that is ready, `prmt` is an integer word of fixed latency like the others. -/
theorem exec_prmt_of_ready {s : State} {o : Alu} {x : Ctx} {c : Crew} {t : State}
    (h : s.ready [Alu.use o { c := true }] = some (x, c, t)) :
    exec (.prmt o) s = aluFixed (.prmt o) o { c := true } latSimple (fun a b c => noFl (iPrmt a b c)) s := by
  have hexec : exec (.prmt o) s = execPrmt o s := rfl
  rw [hexec, execPrmt, word, aluFixed]
  exact fullWord_eq_of_ready h _ _ _ _ _ _

/-- Settles O4. -/
theorem leaAndPermute : Obligations.LeaAndPermute := by
  refine ⟨fun s x c t o sh sx h => ?_, fun k => kBits_i32_of_neg, fun s x c t o h => ?_,
    fun a b c k hk => ⟨iPrmt_lt a b c, iPrmt_byte a b c hk⟩⟩
  · refine aluGives_of_ready h _ _ _ _ rfl (fun l => ?_)
    simp only [aluLane, iLea, sext32_eq_toInt, noFl, Nat.mod_mod]
    rfl
  · exact aluGives_of_ready h _ _ _ _ (exec_prmt_of_ready h) (fun l => rfl)

end Sys2Proof.Machine
end

section
/-! SUPPORT. `fmin` and `fmax` (R164): the order of decoded values, and why operands that it does not order have the same bits. -/

namespace Sys2Proof.Machine

/-! ## The order of values (R78, R164) -/

/-- The exact value of a finite number; 0 for anything else. -/
def FVal.val (z : FVal) : ℚ :=
  match z with
  | .num n m e => (if n then -1 else 1) * m * 2 ^ e
  | _ => 0

/-- R164: the lesser of two values that are not NaN, with -0 below +0. -/
def FVal.Below (y z : FVal) : Prop :=
  match y, z with
  | .inf n, .inf p => n = true ∧ p = false
  | .inf n, .num .. => n = true
  | .num .., .inf p => p = false
  | .num n _ _, .num p _ _ => y.val < z.val ∨ (y.val = 0 ∧ z.val = 0 ∧ n = true ∧ p = false)
  | _, _ => False

theorem FVal.val_num_eq_zero {n : Bool} {m : Nat} {e : Int} : (FVal.num n m e).val = 0 ↔ m = 0 := by
  cases n <;> simp [FVal.val, zpow_ne_zero]

/-- A finite value is its integer on any grid that reaches its own exponent. -/
theorem FVal.onGrid_mul (n : Bool) (m : Nat) {g e : Int} (h : g ≤ e) : ((FVal.num n m e).onGrid g : ℚ) * 2 ^ g = (FVal.num n m e).val := by
  have hpow : (2 : ℚ) ^ (e - g).toNat * 2 ^ g = 2 ^ e := by
    rw [← zpow_natCast, ← zpow_add₀ two_ne_zero]
    congr 1
    omega
  cases n <;> simp [FVal.onGrid, FVal.val, mul_assoc, hpow]

/-- `fLt` with -0 below +0 is the order of R164. -/
theorem fLt_iff_below (a b : FVal) : fLt true a b = true ↔ a.Below b := by
  cases a with
  | nan => simp [fLt, FVal.Below]
  | inf x => cases b <;> simp [fLt, FVal.Below]
  | num x m e =>
    cases b with
    | nan => simp [fLt, FVal.Below]
    | inf y => simp [fLt, FVal.Below]
    | num y n f =>
      by_cases hz : m = 0 ∧ n = 0
      · obtain ⟨rfl, rfl⟩ := hz
        have hzero (s : Bool) (k : Int) : (FVal.num s 0 k).val = 0 := FVal.val_num_eq_zero.mpr rfl
        simp [fLt, FVal.Below, hzero]
      · have hnz : ¬ ((FVal.num x m e).val = 0 ∧ (FVal.num y n f).val = 0) := by
          rwa [FVal.val_num_eq_zero, FVal.val_num_eq_zero]
        have hcond : (decide (m = 0) && decide (n = 0)) = false := by simpa using hz
        have hpow : (0 : ℚ) < 2 ^ min e f := zpow_pos two_pos _
        have hlt : (FVal.num x m e).onGrid (min e f) < (FVal.num y n f).onGrid (min e f) ↔
            (FVal.num x m e).val < (FVal.num y n f).val := by
          rw [← FVal.onGrid_mul x m (min_le_left e f), ← FVal.onGrid_mul y n (min_le_right e f), mul_lt_mul_iff_left₀ hpow, Int.cast_lt]
        have hmin : (if e < f then e else f) = min e f := by omega
        simp only [fLt, hcond, hmin, FVal.Below, Bool.false_eq_true, if_false, decide_eq_true_eq, hlt]
        tauto

theorem FVal.Below.asymm {a b : FVal} (h : a.Below b) : ¬ b.Below a := by
  intro h'
  cases a <;> cases b <;> simp only [FVal.Below] at h h'
  case inf.inf => simp_all
  case inf.num => simp_all
  case num.inf => simp_all
  case num.num =>
    obtain h | ⟨ha, hb, hx, -⟩ := h <;> obtain h' | ⟨hb', ha', hy, hx'⟩ := h'
    · exact lt_asymm h h'
    · rw [ha', hb'] at h; exact lt_irrefl _ h
    · rw [ha, hb] at h'; exact lt_irrefl _ h'
    · rw [hx] at hx'; cases hx'

theorem FVal.Below.left_isNaN {a b : FVal} (h : a.Below b) : a.isNaN = false := by
  cases a with
  | nan => exact h.elim
  | inf => rfl
  | num => rfl

theorem FVal.Below.right_isNaN {a b : FVal} (h : a.Below b) : b.isNaN = false := by
  cases b with
  | nan => cases a <;> exact h.elim
  | inf => rfl
  | num => rfl

/-! ## A value that is no NaN has one pattern of bits (R78) -/

/-- A pattern of a type's width is a sign, an exponent field and a fraction. -/
theorem exists_eq_fSign {t : Ty} (ht : t.isFlt = true) {a : Nat} (ha : a < 2 ^ t.bits) :
    ∃ neg ex fr, ex ≤ Ty.expMax t ∧ fr < 2 ^ Ty.frac t ∧ a = fSign t neg (fr + 2 ^ Ty.frac t * ex) := by
  have hbits : 2 ^ t.bits = 2 * 2 ^ (t.bits - 1) := by
    obtain rfl | rfl | rfl | rfl := Ty.isFlt_cases ht <;> rfl
  have hpos := Nat.two_pow_pos (Ty.frac t)
  have hfields (mag : Nat) (hmag : mag < 2 ^ (t.bits - 1)) : mag / 2 ^ Ty.frac t ≤ Ty.expMax t ∧ mag % 2 ^ Ty.frac t < 2 ^ Ty.frac t ∧
      mag % 2 ^ Ty.frac t + 2 ^ Ty.frac t * (mag / 2 ^ Ty.frac t) = mag := by
    rw [Ty.signBit_eq ht] at hmag
    exact ⟨Nat.lt_succ_iff.mp (Nat.div_lt_of_lt_mul hmag), Nat.mod_lt _ hpos, Nat.mod_add_div _ _⟩
  by_cases hneg : a < 2 ^ (t.bits - 1)
  · obtain ⟨hex, hfr, hsum⟩ := hfields a hneg
    exact ⟨false, _, _, hex, hfr, by rw [hsum]; rfl⟩
  · obtain ⟨hex, hfr, hsum⟩ := hfields (a - 2 ^ (t.bits - 1)) (by omega)
    exact ⟨true, _, _, hex, hfr, by rw [hsum, fSign, if_pos rfl]; omega⟩

theorem eq_fSign_of_fDec_inf {t : Ty} (ht : t.isFlt = true) {a : Nat} (ha : a < 2 ^ t.bits) {n : Bool} (h : fDec t a = .inf n) :
    a = fSign t n (fInf t) := by
  obtain ⟨neg, ex, fr, hex, hfr, rfl⟩ := exists_eq_fSign ht ha
  rw [fDec_fSign ht neg hex hfr] at h
  split_ifs at h with h1 h2
  cases h
  rw [h1, h2, fInf, Nat.zero_add, Nat.mul_comm]

/-- The bits of a finite value from its parts, and the ranges of these: only the lowest exponent has a magnitude without a leading bit. -/
theorem eq_fSign_of_fDec_num {t : Ty} (ht : t.isFlt = true) {a : Nat} (ha : a < 2 ^ t.bits) {n : Bool} {m : Nat} {e : Int}
    (h : fDec t a = .num n m e) :
    a = fSign t n (m + 2 ^ Ty.frac t * (e - (Ty.emin t - Ty.frac t)).toNat) ∧ m < 2 ^ (Ty.frac t + 1) ∧
      (e = Ty.emin t - Ty.frac t ∨ Ty.emin t - Ty.frac t < e ∧ 2 ^ Ty.frac t ≤ m) := by
  obtain ⟨neg, ex, fr, hex, hfr, rfl⟩ := exists_eq_fSign ht ha
  rw [fDec_fSign ht neg hex hfr] at h
  have hdouble := Nat.pow_succ 2 (Ty.frac t)
  split_ifs at h with h1 h2 h3
  · obtain ⟨rfl, rfl, rfl⟩ := FVal.num.inj h
    exact ⟨by simp [h3], by omega, .inl rfl⟩
  · obtain ⟨rfl, rfl, rfl⟩ := FVal.num.inj h
    obtain ⟨k, rfl⟩ := Nat.exists_eq_add_one_of_ne_zero h3
    have hk : (((k + 1 : Nat) : Int) - 1 + Ty.emin t - Ty.frac t - (Ty.emin t - Ty.frac t)).toNat = k := by omega
    refine ⟨by rw [hk]; congr 1; ring, by omega, ?_⟩
    omega

/-- Of two equal positive values with magnitudes of at most `f + 1` bits the exponents agree, unless one lacks its leading bit. -/
theorem exponent_le_of_value_eq {m n f : Nat} {e e' : Int} (hm : m < 2 ^ (f + 1)) (hn : 2 ^ f ≤ n ∨ e' ≤ e)
    (h : (m : ℚ) * 2 ^ e = n * 2 ^ e') : e' ≤ e := by
  by_contra hlt
  obtain ⟨d, rfl⟩ : ∃ d : Nat, e' = e + (d + 1) := ⟨(e' - e - 1).toNat, by omega⟩
  have hn := hn.resolve_right hlt
  have hmul : (m : ℚ) = n * 2 ^ (d + 1) := by
    have hpow : (2 : ℚ) ^ e ≠ 0 := zpow_ne_zero _ two_ne_zero
    rw [zpow_add₀ two_ne_zero, mul_left_comm, mul_comm] at h
    exact_mod_cast mul_left_cancel₀ hpow h
  have hnat : m = n * 2 ^ (d + 1) := by exact_mod_cast hmul
  have hbig : 2 ^ f * 2 ^ 1 ≤ n * 2 ^ (d + 1) := Nat.mul_le_mul hn (Nat.pow_le_pow_right two_pos (by omega))
  rw [Nat.pow_succ] at hm
  omega

/-- Finite values of one sign and one value have the same bits. -/
theorem eq_of_fDec_num_eq_val {t : Ty} (ht : t.isFlt = true) {a b : Nat} (ha : a < 2 ^ t.bits) (hb : b < 2 ^ t.bits) {s : Bool}
    {m n : Nat} {e e' : Int} (hv : fDec t a = .num s m e) (hw : fDec t b = .num s n e')
    (h : (m : ℚ) * 2 ^ e = n * 2 ^ e') : a = b := by
  obtain ⟨hab, hm, he⟩ := eq_fSign_of_fDec_num ht ha hv
  obtain ⟨hbb, hn, he'⟩ := eq_fSign_of_fDec_num ht hb hw
  have hle : e' ≤ e := exponent_le_of_value_eq hm (by omega) h
  have hge : e ≤ e' := exponent_le_of_value_eq hn (by omega) h.symm
  obtain rfl : e = e' := le_antisymm hge hle
  obtain rfl : m = n := by exact_mod_cast mul_right_cancel₀ (zpow_ne_zero e two_ne_zero) h
  rw [hab, hbb]

/-- The order of R164 is total on patterns: two that it does not order are the same. -/
theorem eq_of_not_below {t : Ty} (ht : t.isFlt = true) {a b : Nat} (ha : a < 2 ^ t.bits) (hb : b < 2 ^ t.bits)
    (hna : (fDec t a).isNaN = false) (hnb : (fDec t b).isNaN = false) (hab : ¬ (fDec t a).Below (fDec t b))
    (hba : ¬ (fDec t b).Below (fDec t a)) : a = b := by
  cases hv : fDec t a with
  | nan => rw [hv] at hna; cases hna
  | inf x =>
    cases hw : fDec t b with
    | nan => rw [hw] at hnb; cases hnb
    | inf y =>
      obtain rfl : x = y := by cases x <;> cases y <;> simp_all [FVal.Below]
      rw [eq_fSign_of_fDec_inf ht ha hv, eq_fSign_of_fDec_inf ht hb hw]
    | num y n f => cases x <;> simp_all [FVal.Below]
  | num x m e =>
    cases hw : fDec t b with
    | nan => rw [hw] at hnb; cases hnb
    | inf y => cases y <;> simp_all [FVal.Below]
    | num y n f =>
      rw [hv, hw] at hab hba
      simp only [FVal.Below, not_or] at hab hba
      have hval := le_antisymm (not_lt.mp hba.1) (not_lt.mp hab.1)
      have hm : (0 : ℚ) ≤ m * 2 ^ e := by positivity
      have hn : (0 : ℚ) ≤ n * 2 ^ f := by positivity
      cases x <;> cases y <;> simp only [FVal.val, Bool.false_eq_true, if_false, if_true, one_mul, neg_mul, and_self, and_true] at hval hab hba
      case false.false => exact eq_of_fDec_num_eq_val ht ha hb hv hw hval
      case true.true => exact eq_of_fDec_num_eq_val ht ha hb hv hw (neg_injective hval)
      case false.true => exact absurd ⟨by linarith, by linarith⟩ hba.2
      case true.false => exact absurd ⟨by linarith, by linarith⟩ hab.2

/-! ## Selection (R164) -/

/-- What `fMinMax` delivers, by the order of its operands. -/
theorem fMinMax_bits (t : Ty) (maxi : Bool) (a b : Nat) : (fMinMax t maxi a b).bits =
    if (fDec t a).isNaN && (fDec t b).isNaN then fNaN t
    else if (fDec t a).isNaN then b
    else if (fDec t b).isNaN then a
    else if (if maxi then fLt true (fDec t a) (fDec t b) else fLt true (fDec t b) (fDec t a)) then b
    else a := by
  simp only [fMinMax, fPick]
  cases maxi <;> split_ifs <;> rfl

theorem fMinMax_fl (t : Ty) (maxi : Bool) (a b : Nat) :
    (fMinMax t maxi a b).fl = if (fDec t a).isSig || (fDec t b).isSig then Flags.nv else 0 := by
  simp [fMinMax, sigFlag, Flags.on]

theorem fMinMax_bits_of_below {t : Ty} {a b : Nat} (maxi : Bool) (h : (fDec t a).Below (fDec t b)) :
    (fMinMax t maxi a b).bits = if maxi then b else a := by
  have hlt := (fLt_iff_below _ _).mpr h
  have hnlt : fLt true (fDec t b) (fDec t a) = false := Bool.eq_false_iff.mpr (fun hc => h.asymm ((fLt_iff_below _ _).mp hc))
  rw [fMinMax_bits, h.left_isNaN, h.right_isNaN, hlt, hnlt]
  cases maxi <;> rfl

theorem fMinMax_bits_of_above {t : Ty} {a b : Nat} (maxi : Bool) (h : (fDec t b).Below (fDec t a)) :
    (fMinMax t maxi a b).bits = if maxi then a else b := by
  have hlt := (fLt_iff_below _ _).mpr h
  have hnlt : fLt true (fDec t a) (fDec t b) = false := Bool.eq_false_iff.mpr (fun hc => h.asymm ((fLt_iff_below _ _).mp hc))
  rw [fMinMax_bits, h.left_isNaN, h.right_isNaN, hlt, hnlt]
  cases maxi <;> rfl

theorem fMinMax_bits_self (t : Ty) (maxi : Bool) {a : Nat} (h : (fDec t a).isNaN = false) : (fMinMax t maxi a a).bits = a := by
  rw [fMinMax_bits, h]
  cases maxi <;> simp

theorem fltLat_five (t : Ty) : fltLat t 5 = if t = .f64 then 10 else 5 := by
  simp [fltLat]

/-- Settles O6: the order of `fLt` is the statement's, and total on the patterns of a type. -/
theorem minMaxSelects : Obligations.MinMaxSelects := by
  refine ⟨fun s x c t o h => ?_, fun ty a b ht ha hb => ?_⟩
  · dsimp only
    rw [← fltLat_five]
    exact ⟨fltGives_of_ready h _ _ _ _ _ rfl rfl, fltGives_of_ready h _ _ _ _ _ rfl rfl⟩
  · intro v w q below maxi r
    have hbits := fMinMax_bits ty maxi a b
    refine ⟨fMinMax_fl ty maxi a b, fun hv hw => ?_, fun hv hw => ?_, fun hv hw => ?_, fMinMax_bits_of_below maxi,
      fMinMax_bits_of_above maxi, fun hv hw hab hba => ?_⟩
    · rwa [hv, hw] at hbits
    · rwa [hv, hw] at hbits
    · rwa [hv, hw] at hbits
    · obtain rfl := eq_of_not_below ht ha hb hv hw hab hba
      exact ⟨rfl, fMinMax_bits_self ty maxi hv⟩

end Sys2Proof.Machine
end

section
/-! SUPPORT. `trapi` of a crew that is trapped already (R178, R311). -/

namespace Sys2Proof.Machine

/-- A `trapi` raises SOFT for its active lanes with its number in AUX (R178). -/
theorem trapi_of_ready {s : State} {h : Hdr} {x : Ctx} {c : Crew} {t : State} (hr : s.ready [Hdr.use h [] []] = some (x, c, t))
    (n : BitVec 16) :
    exec (.trapi h n) s = .next ((t.markIssued c).takeTrap x.key (mkTrap 5 x.e x.act 0 n.toNat)) := by
  have hexec : exec (.trapi h n) s = .next (t.finish (.trapi h n) x.key x.e 8 h.stall.toNat
      (.trap t (mkTrap 5 x.e x.act 0 n.toNat))) := word_ready hr _ _ _
  rw [hexec]
  simp only [State.finish, State.crew_of_ready hr]

/-- A trap that stays is not replaced, and no other is queued (R311). -/
theorem State.takeTrap_stays {s : State} {key : Nat} {c : Crew} {t : Trap} (hc : s.crew key = some c)
    (hs : c.trapStays s.now t.entry = true) : s.takeTrap key t = s := by
  cases hg : s.gang (keyGid key) <;> simp [State.takeTrap, hc, hg, hs]

/-- A trap in service stays. -/
theorem Crew.trapStays_of_inService {c : Crew} {o : Trap} (h : c.trap = some o) (ho : o.inService = true) (now e : Nat) :
    c.trapStays now e = true := by
  simp [Crew.trapStays, h, ho]

/-- The placed crew (log entry 5) as the issuer, while a handler serves a trap of class ILL of it; SOFT has a handler too. -/
def servedSt : State :=
  { (State.reset.placed []).updCrew (crewKey 0 0) (fun c => { c with trap := some { mkTrap 0 0 0 0 0 with inService := true } }) with
    cur := .crew (crewKey 0 0) 0, traps := [(1, { hbase := 0x4000, hen := 0x20 })] }

/-- The header of an unguarded word without a stall. -/
def plainHdr : Hdr := { stall := 0, pn := false, pred := 7 }

/-- A `trapi` is ready in `servedSt`, its gang is there, SOFT is handled, and the trap in service is still the crew's. -/
theorem servedSt_ready : ∃ x c t g o, servedSt.ready [Hdr.use plainHdr [] []] = some (x, c, t) ∧ t.gang (keyGid x.key) = some g ∧
    (t.trapRegs (t.gangAsid (keyGid x.key))).hen.getLsbD 5 = true ∧ c.trap = some o ∧ o.inService = true := by
  have hrun : (match servedSt.ready [Hdr.use plainHdr [] []] with
      | some (x, c, t) => (t.gang (keyGid x.key)).isSome && (t.trapRegs (t.gangAsid (keyGid x.key))).hen.getLsbD 5 &&
          c.trap.any (·.inService)
      | none => false) = true := by decide +kernel
  split at hrun
  case h_1 x c t hr =>
    simp only [Bool.and_eq_true, Option.isSome_iff_exists, Option.any_eq_true] at hrun
    obtain ⟨⟨⟨g, hg⟩, hen⟩, o, hc, ho⟩ := hrun
    exact ⟨x, c, t, g, o, hr, hg, hen, hc, ho⟩
  case h_2 => cases hrun

/-- Refutes O14: `State.ready` lets a crew issue that is trapped already. In `servedSt` a trap of the crew is in service, so it stays
(R311), and `trapi` leaves no trap of class SOFT that waits for its handler. -/
theorem not_loopAndTrapi : ¬ Obligations.LoopAndTrapi := by
  intro hall
  obtain ⟨x, c, t, g, o, hr, hg, hen, htrap, hserved⟩ := servedSt_ready
  obtain ⟨-, hsoft, -⟩ := hall servedSt x c t plainHdr 0 0 7
  obtain ⟨u, w, hexec, hw, ⟨tr, htr, -, -, -, -, -, -, hwaits⟩, -⟩ := hsoft hr g hg hen
  have hcrew : (t.markIssued c).crew x.key = some c := by simpa using State.crew_of_ready hr
  rw [trapi_of_ready hr, State.takeTrap_stays hcrew (Crew.trapStays_of_inService htrap hserved _ _), Host.Outcome.next.injEq] at hexec
  rw [← hexec, hcrew, Option.some.injEq] at hw
  rw [← hw, htrap, Option.some.injEq] at htr
  rw [← htr, hserved] at hwaits
  cases hwaits

end Sys2Proof.Machine
end

section
/-! SUPPORT. The bits of a full word, and words whose results go to the scoreboard at once. -/

namespace Sys2Proof

/-- A full word as a number: its fields of R132 side by side. -/
theorem Raw.toNat_pack (r : Raw) :
    r.pack.toNat = place [(20, r.mod.toNat), (1, r.bK.toNat), (1, r.bS.toNat), (1, r.aS.toNat), (6, r.c.toNat),
      (6, r.b.toNat), (6, r.a.toNat), (6, r.d.toNat), (8, r.op.toNat), (3, r.pred.toNat), (1, r.pn.toNat),
      (4, r.stall.toNat)] := by
  refine Nat.mod_eq_of_lt (Nat.lt_trans (m := 2 ^ 63) (place_lt _ ?_) (by decide))
  simp only [List.forall_mem_cons, List.not_mem_nil, false_implies, implies_true, and_true]
  exact ⟨r.mod.isLt, Bool.toNat_lt_two _, Bool.toNat_lt_two _, Bool.toNat_lt_two _, r.c.isLt, r.b.isLt, r.a.isLt, r.d.isLt,
    r.op.isLt, r.pred.isLt, Bool.toNat_lt_two _, r.stall.isLt⟩

/-- A full word with no field but D: the header, the opcode and D, and 0 elsewhere. -/
theorem Raw.toNat_pack_wD (h : Hdr) {op : Nat} (hop : op < 2 ^ 8) (d : Reg) :
    ((Raw.mk0 h op []).wD d).pack.toNat =
      h.stall.toNat * 2 ^ 59 + h.pn.toNat * 2 ^ 58 + h.pred.toNat * 2 ^ 55 + op * 2 ^ 47 + d.toNat * 2 ^ 41 := by
  rw [Raw.toNat_pack]
  simp only [Raw.wD, Raw.mk0, place, BitVec.ofNat_eq_ofNat, BitVec.toNat_ofNat, Nat.mod_eq_of_lt hop, Bool.toNat_false]
  omega

end Sys2Proof

namespace Sys2Proof.Machine

/-- A ready word whose body only issues results to the scoreboard retires, with those results on it. -/
theorem word_pendNow_of_ready {s : State} {u : WUse} {x : Ctx} {c : Crew} {t : State} (hr : s.ready [u] = some (x, c, t))
    (i : Instr) (h : Hdr) {body : Body} {ws : List RegWrite} (hbody : body x c t = pendNow x t ws) :
    word i h u body s = .next (x.retires 8 h.stall.toNat (t.updCrew x.key (fun v => v.addPend x.e ws))) := by
  rw [word_ready hr, hbody]
  rfl

/-- Settles O26: the word has no field but D (`Raw.toNat_pack_wD`), and its one result goes to the scoreboard. -/
theorem copyState : Obligations.CopyState := by
  intro s x c t h d
  refine ⟨Raw.toNat_pack_wD h (by decide) d, fun hr => ?_⟩
  exact word_pendNow_of_ready hr (.cpyStat h d) h rfl

end Sys2Proof.Machine
end

section
/-! SUPPORT. Words and their fields (R130 to R138): every layout of MOD and every operand field is read as it was written. -/

namespace Sys2Proof

/-! ## Bits of fields side by side -/

theorem bitsAt_mod {n lo len : Nat} (x : Nat) (h : lo + len ≤ n) : bitsAt (x % 2 ^ n) lo len = bitsAt x lo len := by
  obtain ⟨k, rfl⟩ := Nat.exists_eq_add_of_le h
  simp only [bitsAt]
  rw [Nat.add_assoc, Nat.pow_add 2 lo, Nat.mod_mul_right_div_self, Nat.pow_add, Nat.mod_mul_right_mod]

theorem bitsAt_of_lt {v n : Nat} (h : v < 2 ^ n) : bitsAt v 0 n = v := by
  rw [bitsAt, Nat.pow_zero, Nat.div_one, Nat.mod_eq_of_lt h]

/-- Bits inside the first field are bits of its value. -/
theorem bitsAt_place_inside {len lo n : Nat} (v : Nat) (t : List (Nat × Nat)) (h : lo + n ≤ len) :
    bitsAt (place ((len, v) :: t)) lo n = bitsAt v lo n := by
  rw [← bitsAt_mod _ h, place, Nat.add_mul_mod_self_left, bitsAt_mod _ h]

theorem bitsAt_place_nil (lo n : Nat) : bitsAt (place []) lo n = 0 := by
  simp [bitsAt, place]

theorem BitVec.ofNat_place {n : Nat} (v : BitVec n) : BitVec.ofNat n (place [(n, v.toNat)]) = v := by
  simp [place]

/-! ## Codes -/

theorem Bool.toNat_lt_four (b : Bool) : b.toNat < 2 ^ 2 := by cases b <;> decide
theorem Ty.code_lt (t : Ty) : t.code < 2 ^ 4 := by cases t <;> decide
theorem Rnd.code_lt (r : Rnd) : r.code < 2 ^ 2 := by cases r <;> decide
theorem Scope.code_lt (s : Scope) : s.code < 2 ^ 3 := by cases s <;> decide
theorem Order.code_lt (o : Order) : o.code < 2 ^ 2 := by cases o <;> decide
theorem Space.code_lt (s : Space) : s.code < 2 ^ 2 := by cases s <;> decide
@[simp] theorem Ty.ofBits_code (t : Ty) : Ty.ofBits t.code = t := by cases t <;> rfl
@[simp] theorem Rnd.ofCode_code (r : Rnd) : Rnd.ofCode r.code = r := by cases r <;> rfl
@[simp] theorem Scope.ofBits_code (s : Scope) : Scope.ofBits s.code = s := by cases s <;> rfl
@[simp] theorem Order.ofCode_code (o : Order) : Order.ofCode o.code = o := by cases o <;> rfl
@[simp] theorem Space.ofBits_code (s : Space) : Space.ofBits s.code = s := by cases s <;> rfl

/-! ## Operand fields -/

theorem Opnd.eq_sv {o : Opnd} (h : o.isK = false) : (if o.isS then .s o.idx else .v o.idx) = o := by
  cases o with
  | v | s => rfl
  | k => cases h

theorem Opnd.eq_skv (o : Opnd) : (if o.isK then .k o.idx else if o.isS then .s o.idx else .v o.idx) = o := by
  cases o <;> rfl

theorem Opnd.isK_of_fitsA {o : Opnd} {n : Nat} (h : o.fitsA n = true) : o.isK = false := by
  cases o with
  | v | s => rfl
  | k => cases h

theorem Opnd.isK_of_none {o : Opnd} (h : o.none = true) : o.isK = false := by
  rw [Opnd.none, beq_iff_eq] at h
  rw [h]; rfl

theorem Opnd.isK_of_isS {o : Opnd} (h : Mem.isS o = true) : o.isK = false := by
  cases o with
  | v | s => rfl
  | k => cases h

/-! ## MOD of a word -/

/-- MOD bits of a word are bits of the fields that MOD was made of. -/
theorem Raw.mk0_m (h : Hdr) (op : Nat) (mod : List (Nat × Nat)) {lo n : Nat} (hl : lo + n ≤ 20) :
    (Raw.mk0 h op mod).m lo n = bitsAt (place mod) lo n := by
  rw [Raw.m, Raw.mk0, BitVec.toNat_ofNat, bitsAt_mod _ hl]

@[simp] theorem Raw.m_wD (r : Raw) (x : Reg) (lo n : Nat) : (r.wD x).m lo n = r.m lo n := rfl
@[simp] theorem Raw.m_wA (r : Raw) (x : Reg) (lo n : Nat) : (r.wA x).m lo n = r.m lo n := rfl
@[simp] theorem Raw.m_wAs (r : Raw) (x : Reg) (lo n : Nat) : (r.wAs x).m lo n = r.m lo n := rfl
@[simp] theorem Raw.m_wB (r : Raw) (x : Reg) (lo n : Nat) : (r.wB x).m lo n = r.m lo n := rfl
@[simp] theorem Raw.m_wBs (r : Raw) (x : Reg) (lo n : Nat) : (r.wBs x).m lo n = r.m lo n := rfl
@[simp] theorem Raw.m_wC (r : Raw) (x : Reg) (lo n : Nat) : (r.wC x).m lo n = r.m lo n := rfl
@[simp] theorem Raw.m_wOA (r : Raw) (x : Opnd) (lo n : Nat) : (r.wOA x).m lo n = r.m lo n := rfl
@[simp] theorem Raw.m_wOB (r : Raw) (x : Opnd) (lo n : Nat) : (r.wOB x).m lo n = r.m lo n := rfl
@[simp] theorem Raw.m_wAS (r : Raw) (b : Bool) (lo n : Nat) : ({ r with aS := b } : Raw).m lo n = r.m lo n := rfl
@[simp] theorem Raw.m_wBS (r : Raw) (b : Bool) (lo n : Nat) : ({ r with bS := b } : Raw).m lo n = r.m lo n := rfl

/-! ## The layouts (R147, R155, R162, R181, R198, R203, R215) -/


section
variable {xm : Nat}

theorem Alu.raw_alu (op : Nat) (o : Alu) (hx : xm < 2 ^ 8) (ha : o.a.isK = false) : (o.raw op xm).alu = o := by
  have hA : (o.raw op xm).opA = o.a := Opnd.eq_sv ha
  have hB : (o.raw op xm).opB = o.b := Opnd.eq_skv _
  simp only [Raw.alu, hA, hB]
  simp only [Alu.raw, Raw.ty, Raw.mb, Raw.m_wD, Raw.m_wC, Raw.m_wOA, Raw.m_wOB, Raw.mk0_m, Nat.reduceAdd, Nat.reduceSub, Nat.reduceLeDiff,
    bitsAt_place_inside, bitsAt_place_skip, bitsAt_of_lt, hx, Ty.code_lt, Bool.toNat_lt_two, Nat.two_pow_pos, Ty.ofBits_code,
      Bool.toNat_beq_one]
  rfl

theorem Alu.raw_m (op : Nat) (o : Alu) (lo n : Nat) (h : lo + n ≤ 8) : (o.raw op xm).m (4 + lo) n = bitsAt xm lo n := by
  simp only [Alu.raw, Raw.m_wD, Raw.m_wC, Raw.m_wOA, Raw.m_wOB]
  rw [Raw.mk0_m _ _ _ (by omega), bitsAt_place_skip _ _ _ _ _ (Ty.code_lt _) (by omega), Nat.add_sub_cancel_left, bitsAt_place_inside _ _ h]

theorem Flt.raw_flt (op : Nat) (o : Flt) (ha : o.a.isK = false) : (o.raw op xm).flt = o := by
  have hA : (o.raw op xm).opA = o.a := Opnd.eq_sv ha
  have hB : (o.raw op xm).opB = o.b := Opnd.eq_skv _
  simp only [Raw.flt, hA, hB]
  simp only [Flt.raw, Raw.ty, Raw.mb, Raw.m_wD, Raw.m_wC, Raw.m_wOA, Raw.m_wOB, Raw.mk0_m, Nat.reduceAdd, Nat.reduceSub, Nat.reduceLeDiff,
    bitsAt_place_inside, bitsAt_place_skip, bitsAt_of_lt, Ty.code_lt, Rnd.code_lt, Bool.toNat_lt_two, Ty.ofBits_code, Rnd.ofCode_code,
    Bool.toNat_beq_one]
  rfl

theorem Flt.raw_m (op : Nat) (o : Flt) : (o.raw op xm).m 13 4 = bitsAt xm 0 4 := by
  simp only [Flt.raw, Raw.m_wD, Raw.m_wC, Raw.m_wOA, Raw.m_wOB, Raw.mk0_m, Nat.reduceAdd, Nat.reduceSub, Nat.reduceLeDiff,
    bitsAt_place_inside, bitsAt_place_skip, Ty.code_lt, Rnd.code_lt, Bool.toNat_lt_two]

theorem Mem.raw_mem (op : Nat) (o : Mem) (line : Bool) (ha : o.a.isK = false) : (o.raw op line xm).mem = o := by
  have hA : (o.raw op line xm).opA = o.a := Opnd.eq_sv ha
  have hB : (o.raw op line xm).opB = o.b := Opnd.eq_skv _
  simp only [Raw.mem, hA, hB]
  simp only [Mem.raw, Raw.ty, Raw.mv, Raw.m_wD, Raw.m_wC, Raw.m_wOA, Raw.m_wOB, Raw.mk0_m, Nat.reduceAdd, Nat.reduceSub, Nat.reduceLeDiff,
    bitsAt_place_inside, bitsAt_place_skip, bitsAt_of_lt, Ty.code_lt, Scope.code_lt, Order.code_lt, Space.code_lt, BitVec.isLt,
    Ty.ofBits_code, Scope.ofBits_code, Order.ofCode_code, Space.ofBits_code, BitVec.ofNat_toNat, BitVec.setWidth_eq]
  rfl

end

theorem Alu.raw_mv {k : Nat} (op : Nat) (o : Alu) (n : BitVec k) (hk : k ≤ 8) : (o.raw op n.toNat).mv 4 k = n := by
  rw [Raw.mv, Alu.raw_m op o 0 k (by omega), bitsAt_of_lt n.isLt, BitVec.ofNat_toNat, BitVec.setWidth_eq]

theorem Mem.raw_mb (op : Nat) (o : Mem) (line : Bool) : (o.raw op line 0).mb 14 = line := by
  simp only [Mem.raw, Raw.mb, Raw.m_wD, Raw.m_wC, Raw.m_wOA, Raw.m_wOB, Raw.mk0_m, Nat.reduceAdd, Nat.reduceSub, Nat.reduceLeDiff,
    bitsAt_place_inside, bitsAt_place_skip, bitsAt_of_lt, Ty.code_lt, Scope.code_lt, Order.code_lt, Space.code_lt, BitVec.isLt,
    Bool.toNat_lt_two, Bool.toNat_beq_one]

theorem Mem.raw_mv (op : Nat) (o : Mem) (n : BitVec 4) : (o.raw op false n.toNat).mv 15 4 = n := by
  simp only [Mem.raw, Raw.mv, Raw.m_wD, Raw.m_wC, Raw.m_wOA, Raw.m_wOB, Raw.mk0_m, Nat.reduceAdd, Nat.reduceSub, Nat.reduceLeDiff,
    bitsAt_place_inside, bitsAt_place_skip, bitsAt_of_lt, Ty.code_lt, Scope.code_lt, Order.code_lt, Space.code_lt, BitVec.isLt,
    Bool.toNat_lt_two, BitVec.ofNat_toNat, BitVec.setWidth_eq]

theorem Bar.raw_bar (op : Nat) (o : Bar) : (o.raw op).bar = o := by
  have hB : (o.raw op).opB = o.b := Opnd.eq_skv _
  simp only [Raw.bar, hB]
  simp only [Bar.raw, Bool.toNat_lt_four, Raw.mb, Raw.mv, Raw.m_wD, Raw.m_wAs, Raw.m_wOB, Raw.mk0_m, Nat.reduceAdd, Nat.reduceSub,
    Nat.reduceLeDiff, bitsAt_place_inside, bitsAt_place_skip, bitsAt_of_lt, BitVec.isLt, Bool.toNat_lt_two, Nat.two_pow_pos,
    Bool.toNat_beq_one, BitVec.ofNat_toNat, BitVec.setWidth_eq]
  rfl

theorem Cpy.raw_cpy (op : Nat) (o : Cpy) (b : Bool) : (o.raw op b).cpy = o := by
  simp only [Raw.cpy, Cpy.raw, Raw.ty, Raw.mb, Raw.mv, Raw.m_wBS, Raw.m_wAs, Raw.m_wB, Raw.mk0_m, Nat.reduceAdd, Nat.reduceSub,
    Nat.reduceLeDiff, bitsAt_place_inside, bitsAt_place_skip, bitsAt_of_lt, Ty.code_lt, BitVec.isLt, Bool.toNat_lt_two, Ty.ofBits_code,
    Bool.toNat_beq_one, BitVec.ofNat_toNat, BitVec.setWidth_eq]
  rfl

theorem Ctr.raw_ctr (op : Nat) (o : Ctr) : (o.raw op).ctr = o := by
  have hB : (o.raw op).opB = o.b := Opnd.eq_skv _
  simp only [Raw.ctr, hB]
  rfl

/-- The literal of a `movl`. -/
def Instr.lit : Instr → W64
  | .movl _ _ _ _ lit => lit
  | _ => 0

theorem Alu.isK_of_ok {o : Alu} {u : AluUse} (h : o.ok u = true) : o.a.isK = false := by
  simp only [Alu.ok, Bool.and_eq_true] at h
  obtain ⟨⟨⟨⟨-, ha⟩, -⟩, -⟩, -⟩ := h
  cases hua : u.a with
  | false => rw [hua] at ha; exact Opnd.isK_of_none ha
  | true =>
    cases hs : o.sc with
    | false => simp only [hua, hs] at ha; exact Opnd.isK_of_fitsA ha
    | true => simp only [hua, hs] at ha; exact Opnd.isK_of_isS ha

theorem Flt.isK_of_ok {o : Flt} {u : FltUse} {na nb nd : Nat} (h : o.ok u na nb nd = true) : o.a.isK = false := by
  simp only [Flt.ok, Bool.and_eq_true] at h
  obtain ⟨⟨⟨⟨-, ha⟩, -⟩, -⟩, -⟩ := h
  exact Opnd.isK_of_fitsA ha

/-- The fields of a well-formed full word name it again. -/
theorem Instr.instr_of_raw {i : Instr} {r : Raw} (hw : i.wf = true) (hr : i.raw = some r) : r.instr i.lit = some i := by
  cases i with
  | iadd o | isub o | imul o | imulh o | idiv o | irem o | imin o | imax o | iaddsat o | isubsat o | and o | or o | xor o | andn o | imad o
  | mov o | shl o | shr o | sar o | rot o | popc o | clz o | brev o =>
    injection hr with hr
    subst hr
    exact congrArg _ (congrArg _ (Alu.raw_alu _ o (by decide) (Alu.isK_of_ok hw)))
  | prmt o =>
    injection hr with hr
    subst hr
    exact congrArg _ (congrArg _ (Alu.raw_alu _ o (by decide) (Alu.isK_of_ok (Bool.and_eq_true_iff.mp hw).1)))
  | shfl h ty mode seg d a b | v2s h ty first d a b | rng h ty d a b | cmbStat h l d a b | tv2t h n d a b | tt2v h n hs d a b
  | tred h op rnd d a b =>
    injection hr with hr
    subst hr
    refine congrArg some ?_
    simp only [Raw.ty, Raw.mb, Raw.mv, Raw.m_wD, Raw.m_wA, Raw.m_wAs, Raw.m_wOB, Raw.mk0_m, Nat.reduceAdd, Nat.reduceSub, Nat.reduceLeDiff,
      bitsAt_place_inside, bitsAt_place_skip, bitsAt_of_lt, Ty.code_lt, Rnd.code_lt, BitVec.isLt, Bool.toNat_lt_two, Nat.two_pow_pos,
      Ty.ofBits_code, Rnd.ofCode_code, Bool.toNat_beq_one, BitVec.ofNat_toNat, BitVec.setWidth_eq]
    exact congrArg _ (Opnd.eq_skv b)
  | batchWait h d b | cmbClose h d a b | launch h d a b | sleep h b =>
    injection hr with hr
    subst hr
    exact congrArg some (congrArg _ (Opnd.eq_skv b))
  | movl | vote | redux | scan | mrd | s2v | pmov | trapi | tfence | fence | tsget | bsync | wellPush | wellPop | wellTpush | wellTpop
  | wellCfg | cmbOpen | cmbPut | tld | tst | mma | tquant | tcvt | tadd | tmulv | csrr | hkill | clkr | axLoop | axBase | axStrd | axSig =>
    injection hr with hr
    subst hr
    refine congrArg some ?_
    simp only [Raw.ty, Raw.mb, Raw.mv, Raw.m_wD, Raw.m_wA, Raw.m_wAs, Raw.m_wB, Raw.m_wBs, Raw.m_wC, Raw.m_wAS, Raw.mk0_m, Nat.reduceAdd,
      Nat.reduceSub, Nat.reduceLeDiff, bitsAt_place_inside, bitsAt_place_skip, bitsAt_of_lt, Ty.code_lt, Rnd.code_lt, Scope.code_lt,
      Order.code_lt, Space.code_lt, BitVec.isLt, Bool.toNat_lt_two, Nat.two_pow_pos, Ty.ofBits_code, Rnd.ofCode_code, Scope.ofBits_code,
      Order.ofCode_code, Space.ofBits_code, Bool.toNat_beq_one, BitVec.ofNat_toNat, BitVec.setWidth_eq]
    rfl
  | nop | join | ret | exit | yield | kill | batchClose | cpyStat | cmbCfg | tcfg | tcfgr | tzero | tmov | mtr | hist | reord
  | hret | hresume | axEnd | axLd | axLdt | axHalt =>
    injection hr with hr
    subst hr
    rfl
  | bra h off | loop h d off =>
    injection hr with hr
    subst hr
    exact congrArg some (congrArg _ (BitVec.ofNat_place off))
  | brx h a =>
    injection hr with hr
    subst hr
    exact congrArg some (congrArg _ (Opnd.eq_sv (Opnd.isK_of_fitsA hw)))
  | call h f t =>
    injection hr with hr
    subst hr
    cases t with
    | rel off => exact congrArg some (congrArg (fun off => Instr.call h f (.rel off)) (BitVec.ofNat_place off))
    | reg a => rfl
  | hwinR h d item =>
    injection hr with hr
    subst hr
    cases item with
    | imm n =>
      have hn : ((Raw.mk0 h 0xD6 [(12, n.toNat)]).wD d).mv 0 12 = n := by
        simp only [Raw.mv, Raw.m_wD, Raw.mk0_m, Nat.reduceAdd, Nat.reduceLeDiff, bitsAt_place_inside, bitsAt_of_lt, BitVec.isLt,
          BitVec.ofNat_toNat, BitVec.setWidth_eq]
      exact congrArg some (congrArg (fun n => Instr.hwinR h d (.imm n)) hn)
    | reg b => rfl
  | hwinW h a item =>
    injection hr with hr
    subst hr
    cases item with
    | imm n =>
      have hn : ((Raw.mk0 h 0xD7 [(12, n.toNat)]).wAs a).mv 0 12 = n := by
        simp only [Raw.mv, Raw.m_wAs, Raw.mk0_m, Nat.reduceAdd, Nat.reduceLeDiff, bitsAt_place_inside, bitsAt_of_lt, BitVec.isLt,
          BitVec.ofNat_toNat, BitVec.setWidth_eq]
      exact congrArg some (congrArg (fun n => Instr.hwinW h a (.imm n)) hn)
    | reg b => rfl
  | idemBegin h | idemEnd h =>
    injection hr with hr
    subst hr
    change Raw.instrSys _ 0xD4 = _
    simp only [Raw.instrSys, Raw.mb, Raw.mk0_m, Nat.reduceAdd, Nat.reduceLeDiff, bitsAt_place_inside, bitsAt_of_lt, Nat.two_pow_pos]
    rfl
  | csrw h n a | csrwSet h n a | csrwClr h n a =>
    injection hr with hr
    subst hr
    change Raw.instrSys _ 0xD1 = _
    simp only [Raw.instrSys, Raw.mv, Raw.m_wAs, Raw.mk0_m, Nat.reduceAdd, Nat.reduceSub, Nat.reduceLeDiff, bitsAt_place_inside,
      bitsAt_place_skip, bitsAt_of_lt, BitVec.isLt, Nat.two_pow_pos, BitVec.ofNat_toNat, BitVec.setWidth_eq]
    rfl
  | iabs o sat =>
    injection hr with hr
    subst hr
    have hx : 4 * sat.toNat < 2 ^ 8 := by cases sat <;> decide
    have hsat : (o.raw 0x0D (4 * sat.toNat)).mb 6 = sat := by
      rw [Raw.mb, Alu.raw_m _ _ 2 1 (by decide)]
      cases sat <;> rfl
    exact congrArg some (congrArg₂ _ (Alu.raw_alu _ o hx (Alu.isK_of_ok (Bool.and_eq_true_iff.mp hw).1)) hsat)
  | sel o ps psn =>
    injection hr with hr
    subst hr
    simp only [Instr.wf, Bool.and_eq_true] at hw
    obtain ⟨⟨hok, -⟩, -⟩ := hw
    have hpsn := psn.toNat_le
    have hx : place [(3, ps.toNat), (1, psn.toNat)] < 2 ^ 8 := by simp only [place]; omega
    have halu := Alu.raw_alu 0x03 o hx (Alu.isK_of_ok hok)
    refine congrArg some ?_
    simp only [halu, Raw.mv, Raw.mb, Alu.raw_m _ _ 0 3 (by decide), Alu.raw_m _ _ 3 1 (by decide), Nat.reduceAdd, Nat.reduceSub,
      Nat.reduceLeDiff, bitsAt_place_inside, bitsAt_place_skip, bitsAt_of_lt, BitVec.isLt, Bool.toNat_lt_two, Bool.toNat_beq_one,
      BitVec.ofNat_toNat, BitVec.setWidth_eq]
  | lea o sh sx =>
    injection hr with hr
    subst hr
    have hsx := sx.toNat_le
    have hx : place [(4, sh.toNat), (1, sx.toNat)] < 2 ^ 8 := by simp only [place]; omega
    have halu := Alu.raw_alu 0x1E o hx (Alu.isK_of_ok (Bool.and_eq_true_iff.mp hw).1)
    refine congrArg some ?_
    simp only [halu, Raw.mv, Raw.mb, Alu.raw_m _ _ 0 4 (by decide), Alu.raw_m _ _ 4 1 (by decide), Nat.reduceAdd, Nat.reduceSub,
      Nat.reduceLeDiff, bitsAt_place_inside, bitsAt_place_skip, bitsAt_of_lt, BitVec.isLt, Bool.toNat_lt_two, Bool.toNat_beq_one,
      BitVec.ofNat_toNat, BitVec.setWidth_eq]
  | bfe o n | bfi o n | icmp o n =>
    injection hr with hr
    subst hr
    have hx : n.toNat < 2 ^ 8 := by omega
    exact congrArg some (congrArg₂ _ (Alu.raw_alu _ o hx (Alu.isK_of_ok (Bool.and_eq_true_iff.mp hw).1)) (Alu.raw_mv _ o n (by decide)))
  | ld o b | prf o b =>
    injection hr with hr
    subst hr
    have ha : o.a.isK = false := Opnd.isK_of_fitsA (n := 2) (by simp only [Instr.wf, Bool.and_eq_true] at hw; tauto)
    exact congrArg some (congrArg₂ _ (Mem.raw_mem _ o b ha) (Mem.raw_mb _ o b))
  | lds o b =>
    injection hr with hr
    subst hr
    have ha : o.a.isK = false := Opnd.isK_of_isS (by simp only [Instr.wf, Bool.and_eq_true] at hw; tauto)
    exact congrArg some (congrArg₂ _ (Mem.raw_mem _ o b ha) (Mem.raw_mb _ o b))
  | st o | acas o =>
    injection hr with hr
    subst hr
    have ha : o.a.isK = false := Opnd.isK_of_fitsA (n := 2) (by simp only [Instr.wf, Bool.and_eq_true] at hw; tauto)
    exact congrArg some (congrArg _ (Mem.raw_mem _ o false ha))
  | sts o =>
    injection hr with hr
    subst hr
    have ha : o.a.isK = false := Opnd.isK_of_isS (by simp only [Instr.wf, Bool.and_eq_true] at hw; tauto)
    exact congrArg some (congrArg _ (Mem.raw_mem _ o false ha))
  | ldp o n =>
    injection hr with hr
    subst hr
    have ha : o.a.isK = false := Opnd.isK_of_isS (by simp only [Instr.wf, Bool.and_eq_true] at hw; tauto)
    exact congrArg some (congrArg₂ _ (Mem.raw_mem _ o false ha) (Mem.raw_mv _ o n))
  | atom o n | red o n | lease o n =>
    injection hr with hr
    subst hr
    have ha : o.a.isK = false := Opnd.isK_of_fitsA (n := 2) (by simp only [Instr.wf, Bool.and_eq_true] at hw; tauto)
    exact congrArg some (congrArg₂ _ (Mem.raw_mem _ o false ha) (Mem.raw_mv _ o n))
  | fadd o | fsub o | fmul o | fma o | fmin o | fmax o | fdiv o | fsqrt o | frcp o | frsq o | fround o | fexp2 o | flog2 o | fsin o | fcos o
  | fma2 o =>
    injection hr with hr
    subst hr
    exact congrArg some (congrArg _ (Flt.raw_flt _ o (Flt.isK_of_ok (Bool.and_eq_true_iff.mp hw).2)))
  | fclass o | fscale o | pack o | unpack o =>
    injection hr with hr
    subst hr
    have ha : o.a.isK = false := by
      simp only [Instr.wf, Bool.and_eq_true] at hw
      exact Flt.isK_of_ok (by tauto)
    exact congrArg some (congrArg _ (Flt.raw_flt _ o ha))
  | fcmp o cc =>
    injection hr with hr
    subst hr
    simp only [Instr.wf, Bool.and_eq_true] at hw
    obtain ⟨⟨⟨-, hok⟩, -⟩, -⟩ := hw
    have hcc : (o.raw 0x2E cc.toNat).mv 13 4 = cc := by
      simp only [Raw.mv, Flt.raw_m, bitsAt_of_lt, BitVec.isLt, BitVec.ofNat_toNat, BitVec.setWidth_eq]
    exact congrArg some (congrArg₂ _ (Flt.raw_flt _ o (Flt.isK_of_ok hok)) hcc)
  | f2f o src | f2i o src | i2f o src | fdot2 o src =>
    injection hr with hr
    subst hr
    have hsrc (op : Nat) : Ty.ofBits ((o.raw op src.code).m 13 4) = src := by
      rw [Flt.raw_m, bitsAt_of_lt (Ty.code_lt src), Ty.ofBits_code]
    exact congrArg some (congrArg₂ _ (Flt.raw_flt _ o (Flt.isK_of_ok (Bool.and_eq_true_iff.mp hw).2)) (hsrc _))
  | barInit o | barArr o | barExp o | barWait o | barTry o =>
    injection hr with hr
    subst hr
    exact congrArg _ (congrArg _ (Bar.raw_bar _ o))
  | cpyG2s o | cpyS2g o | cpyG2g o | cpyMcast o | cpyT2d o | cpyGather o | cpyRed o | cpyDom o | cpySwr o =>
    injection hr with hr
    subst hr
    exact congrArg _ (congrArg _ (Cpy.raw_cpy _ o _))
  | ctrInit o | ctrTake o | ctrGive o | ctrRead o | ctrReadx o | ctrCap o | ctrDrain o =>
    injection hr with hr
    subst hr
    exact congrArg _ (congrArg _ (Ctr.raw_ctr _ o))
  | _ => cases hr

/-! ## Words -/

theorem Raw.msb_pack (r : Raw) : r.pack.msb = false := by
  have hbK := r.bK.toNat_le
  have hbS := r.bS.toNat_le
  have haS := r.aS.toNat_le
  have hpn := r.pn.toNat_le
  rw [BitVec.msb_eq_false_iff_two_mul_lt, Raw.toNat_pack]
  simp only [place]
  omega

/-- Opcode 0x02 is `movl`, with the literal that follows. -/
theorem Raw.instr_of_op_two {r : Raw} (h : r.op = 0x02) (lit : W64) :
    r.instr lit = some (.movl r.hdr (r.mb 19) r.ty r.d lit) := by
  rw [Raw.instr, h]
  rfl

theorem isMovl_pack (r : Raw) : isMovl r.pack = (r.op == 0x02) := by
  rw [isMovl, Raw.msb_pack, Raw.unpack_pack, Bool.not_false, Bool.true_and]

/-- A well-formed full word decodes to its instruction. -/
theorem decodeWord_of_raw {i : Instr} {r : Raw} (hw : i.wf = true) (hr : i.raw = some r) : decodeWord r.pack i.lit = .ok i := by
  simp only [decodeWord, Raw.msb_pack, Raw.unpack_pack, Instr.instr_of_raw hw hr, hw, hr, Bool.false_eq_true, if_false, beq_self_eq_true,
    Bool.and_self, if_true]

/-- The fields of a half name it again. -/
theorem Half.half_raw (x : Half) : x.raw.half = some x := by
  have ho : (⟨x.o.d, if x.o.a.isK then .k x.o.a.idx else if x.o.a.isS then .s x.o.a.idx else .v x.o.a.idx, x.o.pred, x.o.pn, x.o.hm⟩ : HOp)
      = x.o := by rw [Opnd.eq_skv]
  have hh : x.raw.half = Half.ofHop x.o x.raw.hop.toNat := congrArg (Half.ofHop · x.raw.hop.toNat) ho
  rw [hh]
  cases x <;> rfl

theorem HRaw.pack_lt (r : HRaw) : r.pack < 2 ^ 30 := by
  refine place_lt _ ?_
  simp only [List.forall_mem_cons, List.not_mem_nil, false_implies, implies_true, and_true]
  exact ⟨r.hm.isLt, Bool.toNat_lt_two _, r.pred.isLt, Bool.toNat_lt_two _, Bool.toNat_lt_two _, r.a.isLt, r.d.isLt, r.hop.isLt⟩

/-- A paired word as a number: its two halves, STALL and FORM side by side. -/
theorem toNat_packPair (st : BitVec 3) (x y : Half) :
    (packPair st x y).toNat = place [(30, y.raw.pack), (30, x.raw.pack), (3, st.toNat), (1, 1)] := by
  have hx := x.raw.pack_lt
  have hy := y.raw.pack_lt
  rw [packPair, BitVec.toNat_ofNat]
  refine Nat.mod_eq_of_lt ?_
  simp only [place]
  omega

theorem msb_packPair (st : BitVec 3) (x y : Half) : (packPair st x y).msb = true := by
  rw [BitVec.msb_eq_true_iff_two_mul_ge, toNat_packPair]
  simp only [place]
  omega

/-- A legal pair decodes to its two halves. -/
theorem decodeWord_packPair {st : BitVec 3} {x y : Half} (h : pairOk x y = true) (lit : W64) :
    decodeWord (packPair st x y) lit = .ok (Half.toInstr st x y) := by
  have hx := x.raw.pack_lt
  have hy := y.raw.pack_lt
  have hX : bitsAt (packPair st x y).toNat 30 30 = x.raw.pack := by
    rw [toNat_packPair, bitsAt_place_skip _ _ _ _ _ hy (by decide), bitsAt_place_zero _ _ _ hx]
  have hY : bitsAt (packPair st x y).toNat 0 30 = y.raw.pack := by
    rw [toNat_packPair, bitsAt_place_zero _ _ _ hy]
  have hst : BitVec.ofNat 3 (bitsAt (packPair st x y).toNat 60 3) = st := by
    rw [toNat_packPair, bitsAt_place_skip _ _ _ _ _ hy (by decide), bitsAt_place_skip _ _ _ _ _ hx (by decide),
      bitsAt_place_zero _ _ _ st.isLt, BitVec.ofNat_toNat, BitVec.setWidth_eq]
  simp only [decodeWord, msb_packPair, hX, hY, hst, HRaw.unpack_pack, Half.half_raw, h, if_true, beq_self_eq_true, Bool.and_self]

theorem isMovl_packPair (st : BitVec 3) (x y : Half) : isMovl (packPair st x y) = false := by
  rw [isMovl, msb_packPair]
  rfl

/-- A well-formed instruction without the fields of a full word is a legal pair. -/
theorem Instr.pair_of_no_raw {i : Instr} (hw : i.wf = true) (hr : i.raw = none) :
    ∃ st x y, i.xHalf = some (st, x, y) ∧ pairOk x y = true ∧ Half.toInstr st x y = i := by
  cases i with
  | hnop | hmov | hiadd | hisub | himul | hand | hor | hxor | hshl | hshr | hsar | himin | himax | hfadd | hfsub | hfmul | hfmin |
  hfmax | hicmp | hfcmp | hsel | hneg | habs | hfneg | hf2i | hi2f | hpopc | hclz | hmrd | hs2v | hshflx => exact ⟨_, _, _, rfl, hw, rfl⟩
  | nop | mov | movl | sel | iadd | isub | imul | imulh | imad | idiv | irem | imin | imax | iabs | iaddsat | isubsat | and | or | xor
  | andn | shl | shr | sar | rot | bfe | bfi | popc | clz | brev | icmp | lea | prmt | fadd | fsub | fmul | fma | fmin | fmax | fdiv |
  fsqrt | frcp | frsq | fexp2 | flog2 | fsin | fcos | fcmp | fclass | fscale | fround | f2f | f2i | i2f | fdot2 | fma2 | shfl | vote |
  redux | scan | mrd | s2v | v2s | pmov | rng | pack | unpack | bra | brx | join | call | ret | exit | yield | loop | kill | trapi |
  tfence | ld | st | lds | sts | ldp | atom | acas | red | fence | prf | lease | tsget | barInit | barArr | barExp | barWait | barTry |
  bsync | wellPush | wellPop | wellTpush | wellTpop | wellCfg | batchClose | batchWait | cpyG2s | cpyS2g | cpyG2g | cpyMcast | cpyT2d |
  cpyGather | cpyRed | cpyDom | cpySwr | cpyStat | ctrInit | ctrTake | ctrGive | ctrRead | ctrReadx | ctrCap | ctrDrain | cmbOpen |
  cmbPut | cmbStat | cmbClose | cmbCfg | tcfg | tcfgr | tld | tst | tzero | tmov | tv2t | tt2v | mma | mtr | tquant | tcvt | hist |
  tred | tadd | tmulv | csrr | csrw | csrwSet | csrwClr | launch | reord | idemBegin | idemEnd | hret | hwinR | hwinW | hresume | hkill
  | sleep | clkr | axLoop | axEnd | axBase | axStrd | axLd | axLdt | axSig | axHalt => cases hr
  | _ => cases hw

theorem Instr.word_of_raw {i : Instr} {r : Raw} (hr : i.raw = some r) : i.word = r.pack := by
  rw [Instr.word, hr]

theorem encode_of_movl {i : Instr} {h : Hdr} {sc : Bool} {ty : Ty} {d : Reg} {lit : W64} (hi : .movl h sc ty d lit = i) :
    encode i = bytesOf i.word ++ bytesOf i.lit := by
  rw [← hi]
  rfl

/-- Every full word but `movl` is its eight bytes, and no literal follows. -/
theorem Instr.encode_of_op {i : Instr} {r : Raw} (hr : i.raw = some r) (hop : r.op ≠ 0x02) : encode i = bytesOf i.word ∧ i.lit = 0 := by
  cases i with
  | movl h sc ty d lit =>
    injection hr with hr
    exact absurd (by rw [← hr]; rfl) hop
  | _ => exact ⟨rfl, rfl⟩

/-- Settles O58: a full word comes back by its fields (`decodeWord_of_raw`), a paired word by its halves (`decodeWord_packPair`); the
words of opcode 0x02 are those that a literal follows. -/
theorem decodeEncode : Obligations.DecodeEncode := by
  intro i rest hw
  cases hr : i.raw with
  | none =>
    obtain ⟨st, x, y, hx, hp, rfl⟩ := Instr.pair_of_no_raw hw hr
    have hword : (Half.toInstr st x y).word = packPair st x y := by rw [Instr.word, hr, hx]
    have henc : encode (Half.toInstr st x y) = bytesOf (packPair st x y) := by
      rw [← hword]
      cases x <;> rfl
    rw [henc, decode, wordOf_bytesOf]
    simp only [isMovl_packPair, Bool.false_eq_true, if_false, decodeWord_packPair hp]
    rfl
  | some r =>
    have hdec := decodeWord_of_raw hw hr
    by_cases hop : r.op = 0x02
    · obtain ⟨h, sc, ty, d, hi⟩ : ∃ h sc ty d, Instr.movl h sc ty d i.lit = i :=
        ⟨_, _, _, _, Option.some.inj ((Raw.instr_of_op_two hop _).symm.trans (Instr.instr_of_raw hw hr))⟩
      have hmovl : isMovl r.pack = true := by rw [isMovl_pack, beq_iff_eq, hop]
      rw [encode_of_movl hi, Instr.word_of_raw hr, List.append_assoc, decode, wordOf_bytesOf]
      simp only [hmovl, if_true, wordOf_bytesOf, hdec]
      rfl
    · obtain ⟨henc, hlit⟩ := Instr.encode_of_op hr hop
      have hmovl : isMovl r.pack = false := by rw [isMovl_pack, beq_eq_false_iff_ne]; exact hop
      rw [hlit] at hdec
      rw [henc, Instr.word_of_raw hr, decode, wordOf_bytesOf]
      simp only [hmovl, Bool.false_eq_true, if_false, hdec]
      rfl

end Sys2Proof
end

section
/-! SUPPORT. Where a meaning answers a next state: a word that a resident unit issues, and every event (R29). -/

namespace Sys2Proof.Machine

set_option Elab.async false -- one proof at a time: the threads of many at once take too much memory

theorem illegalEncoding_next {s : State} (h : s.hasIssuer = true) (w : W64) : ∃ t, exec (.illegalEncoding w) s = .next t := by
  unfold State.hasIssuer at h
  simp only [exec, execIllegalEncoding]
  cases hc : s.cur with
  | none => simp [hc] at h
  | crew key e =>
    simp only [hc] at h
    obtain ⟨c, hk⟩ := Option.isSome_iff_exists.mp h
    simp [hk]
  | mgmt k => exact ⟨_, rfl⟩
  | pump g => exact ⟨_, rfl⟩

theorem fetchFault_next {s : State} (h : s.hasIssuer = true) (va : W64) (tail : Bool) : ∃ t, exec (.fetchFault va tail) s = .next t := by
  unfold State.hasIssuer at h
  simp only [exec, execFetchFault]
  cases hc : s.cur with
  | none => simp [hc] at h
  | crew key e =>
    simp only [hc] at h
    obtain ⟨c, hk⟩ := Option.isSome_iff_exists.mp h
    simp [hk]
  | mgmt k => exact ⟨_, rfl⟩
  | pump g => exact ⟨_, rfl⟩

/-- A word that a resident unit issues answers a next state. -/
theorem exec_next_of_issuer (i : Instr) {s : State} (h : s.hasIssuer = true) (hi : isWordOrFetch i = true) : ∃ t, exec i s = .next t := by
  cases i with
  | nop | mov | movl | iadd | isub | imul | imulh | imad | idiv | irem | imin | imax | iabs | iaddsat | isubsat | and | or | xor | andn
  | shl | shr | sar | rot | bfe | bfi | popc | clz | brev | lea | bra | loop | lds | sts | ldp | fence =>
    simp only [exec]
    exact fullWord_next h _ _ _ _ _ _
  | sel | prmt | fadd | fsub | fmul | fma | fmin | fmax | fdiv | fsqrt | frcp | frsq | fexp2 | flog2 | fsin | fcos | fcmp | fclass |
  fscale | fround | f2f | f2i | i2f | fdot2 | fma2 | shfl | vote | redux | scan | mrd | s2v | v2s | pmov | rng | pack | unpack | brx |
  join | exit | yield | kill | trapi | tfence | ld | st | atom | acas | red | prf | lease | tsget | barInit | barArr | barExp | barWait
  | barTry | bsync | wellPush | wellPop | wellTpush | wellTpop | wellCfg | batchClose | batchWait | cpyG2s | cpyS2g | cpyG2g | cpyMcast
  | cpyT2d | cpyGather | cpyRed | cpyDom | cpySwr | cpyStat | ctrInit | ctrTake | ctrGive | ctrRead | ctrReadx | ctrCap | ctrDrain |
  cmbOpen | cmbPut | cmbStat | cmbClose | cmbCfg | tcfg | tcfgr | tld | tst | tzero | tmov | tv2t | tt2v | mma | mtr | tquant | tcvt |
  hist | tred | tadd | tmulv | csrr | csrw | csrwSet | csrwClr | launch | reord | idemBegin | idemEnd | sleep => exact word_next h _ _ _ _
  | hnop | hmov | hiadd | hisub | himul | hand | hor | hxor | hshl | hshr | hsar | himin | himax | hfadd | hfsub | hfmul | hfmin |
  hfmax | hicmp | hfcmp | hsel | hneg | habs | hfneg | hf2i | hi2f | hpopc | hclz | hmrd | hs2v | hshflx => exact pairWord_next h _ _ _ _ _
  | clkr =>
    simp only [exec, execClkr]
    exact fullWord_next h _ _ _ _ _ _
  | hret | hwinR | hwinW | hresume | hkill =>
    simp only [exec]
    exact refusedWord_next h _ _ _ _
  | axLoop | axEnd | axBase | axStrd | axLd | axLdt | axSig | axHalt =>
    simp only [exec, execAxLoop, execAxEnd, execAxLd, execAxLdt, execAxSig]
    exact sliceWord_next h _ _ _
  | icmp o cc =>
    simp only [exec, execIcmp]
    split
    · exact refusedWord_next h _ _ _ _
    · exact word_next h _ _ _ _
  | ret =>
    simp only [exec, execRet]
    split
    · exact refusedWord_next h _ _ _ _
    · exact word_next h _ _ _ _
  | call =>
    simp only [exec, execCall]
    split
    · exact refusedWord_next h _ _ _ _
    · exact word_next h _ _ _ _
  | illegalEncoding w => exact illegalEncoding_next h w
  | fetchFault va tail => exact fetchFault_next h va tail
  | _ => cases hi

/-- An event answers a next state. -/
theorem exec_event_next (i : Instr) (s : State) (hi : isWordOrFetch i = false) : ∃ t, exec i s = .next t := by
  cases i with
  | homeRenew | homeWrite | homeAtom | homeWb | homeHold | data | ext | ack | bridgePacket | flitError | retrainTimeout |
  retrainDone | packetCrcError | domainLinkTimeout | mirrorWrite | clockReconcile | rolloverSweep | imagePtsSweep | pageWalk | doorbell
  | dispatchConsume | blockPlace | stealRequest | donationArrival | launchComplete | reorderFlush | prectl | gangSave | resume |
  fltnextRead | fltdone | engreqRead | engdone | asinv | asinvComplete | ptcfgWrite | quotaWrite | protEnable | protMirrorReady |
  homeDieFailure | coreOutOfService | eccError | ecccInterval | snpinv | snpdata | snpcur | hostGrant | hostMemrd | hostMemwr |
  bisnpResponse | heartbeat | hardHoldExpiry | poolCompletion | poolSideTimeout | domainInbound | domainRecall | cxlPortDown |
  powerInterval | pcapWrite | thermalLimit | thermalTrip | coreHot | droopEvent | coreCool | tlmloRead | firmwareUpdate | attestReport
  | identityPublicKey | atctlRefused | packageReset | cxlReset | registerWrite | resultWritten | peerReply | stealRefusal | powerLoss |
  powerOn | cxlPortUp => exact ⟨_, rfl⟩
  | barrierWakeup | wellWakeup | batchWakeup | ldpAttempt | sleepExpiry | ctrRefill | ctrRecall | ctrRecallReply | ctrGrant |
  cmbTimeout | copyPartComplete | mcastLanding | swrRound | swrRoundTimeout | routerPacket | trapDelivery | watchdogExpiry | gangStart
  | gangRestore =>
    simp only [exec, execBarrierWakeup, execWellWakeup, execBatchWakeup, execLdpAttempt, execSleepExpiry, execCtrRefill, execCtrRecall, execCtrRecallReply, execCtrGrant, execCmbTimeout, execCopyPartComplete, execMcastLanding, execSwrRound, execSwrRoundTimeout, execRouterPacket, execTrapDelivery, execWatchdogExpiry, execGangStart, execGangRestore]
    repeat' split
    all_goals exact ⟨_, rfl⟩
  | _ => cases hi <;> exact ⟨_, rfl⟩ -- a word is excluded; what remains is the event `recall`, whose name is a command's

theorem exec_next {i : Instr} {s : State} (h : s.hasIssuer = true ∨ isWordOrFetch i = false) : ∃ t, exec i s = .next t := by
  cases hi : isWordOrFetch i with
  | true => exact exec_next_of_issuer i (h.resolve_right (by simp [hi])) hi
  | false => exact exec_event_next i s hi

/-! ## The unit that a move names is there (R29, R249, R253) -/

theorem State.startGang_hasIssuer {s : State} {key e gid : Nat} (hcur : s.cur = .crew key e) (hc : (s.crew key).isSome = true) :
    (s.startGang gid).hasIssuer = true := by
  simpa only [State.hasIssuer, State.startGang_cur, hcur, State.startGang_crew] using hc

theorem State.pipeMove_hasIssuer {s t : State} {core pipe : Nat} {i : Instr} (h : s.pipeMove core pipe = .exec i t) :
    t.hasIssuer = true := by
  unfold State.pipeMove at h
  dsimp only at h
  split at h
  · cases h
  split at h
  · cases h
  rename_i c _
  split at h
  · cases h
  rename_i cr hcr
  have hissuer (gid : Nat) := State.startGang_hasIssuer (s := { (s.pick core pipe).1 with cur := .crew c.key c.e }) (gid := gid) rfl
    (Option.isSome_of_eq_some hcr)
  split at h
  · cases h; exact hissuer _
  · cases h; exact hissuer _
  · cases h
  · cases h

theorem State.mgmtMove_hasIssuer {s t : State} {k : Nat} {i : Instr} (h : s.mgmtMove k = .exec i t) : t.hasIssuer = true := by
  unfold State.mgmtMove at h
  dsimp only at h
  split at h
  · cases h
  split at h
  · cases h; rfl
  · cases h; rfl
  · cases h; rfl
  · cases h

theorem State.pumpMove_hasIssuer {s t : State} {gid : Nat} {i : Instr} (h : s.pumpMove gid = .exec i t) : t.hasIssuer = true := by
  unfold State.pumpMove at h
  split at h
  · cases h
  rename_i g hg
  split at h
  · cases h
  rename_i p hp
  have hissuer : State.hasIssuer { s with cur := .pump gid } = true := by
    have hgang : State.gang { s with cur := .pump gid } gid = some g := hg
    simp only [State.hasIssuer, hgang, hp, Option.isSome_some]
  dsimp only at h
  split at h
  · cases h
  split at h
  · cases h; exact hissuer
  · cases h; exact hissuer
  · cases h
  · cases h

/-- The next move executes an instruction of a unit that is there, or an event. -/
theorem State.nextMove_exec {s t : State} {i : Instr} (hlegal : ∀ m rest, s.agenda = m :: rest → m.legal = true)
    (h : s.nextMove = .exec i t) : t.hasIssuer = true ∨ isWordOrFetch i = false := by
  unfold State.nextMove at h
  split at h
  · cases h
  rename_i m rest hm
  dsimp only at h
  split at h
  · cases h
  split at h
  · cases h
  · exact .inl (State.pipeMove_hasIssuer h)
  · exact .inl (State.mgmtMove_hasIssuer h)
  · exact .inl (State.pumpMove_hasIssuer h)
  · cases h
    have hev := hlegal _ _ hm
    exact .inr (by simpa [Move.legal] using hev)

/-- Settles O59: what the next move executes has its issuer or is an event (`State.nextMove_exec`), and both answer a next state. -/
theorem stepNeverStops : Obligations.StepNeverStops := by
  intro s hlegal
  unfold step
  cases hm : s.nextMove with
  | idle t => exact ⟨t, rfl⟩
  | exec i t =>
    obtain ⟨u, hu⟩ := exec_next (State.nextMove_exec hlegal hm)
    exact ⟨{ u with cur := .none }, by simp only [hu, endWord]⟩

end Sys2Proof.Machine
end

section
/-! SUPPORT. Integer words (R153 to R157): minimum, maximum and saturation as the wrapped exact results, and the bits of integer types. -/

namespace Sys2Proof.Machine

theorem tyLo_le_tyHi (t : Ty) : tyLo t ≤ tyHi t := by
  cases t <;> decide

/-- R153: saturation is the nearest value of the type's range. -/
theorem iSat_eq_clamp (t : Ty) (z : Int) : iSat t z = max (tyLo t) (min (tyHi t) z) := by
  have hle := tyLo_le_tyHi t
  unfold iSat
  split_ifs <;> omega

theorem Ty.bits_pos (t : Ty) : 0 < t.bits := by cases t <;> decide
theorem Ty.bits_le (t : Ty) : t.bits ≤ 64 := by cases t <;> decide

/-- R77: a signed type reads the low W bits as a two's-complement number, any other as a number. -/
theorem iVal_eq (t : Ty) (v : Nat) : iVal t v = if t.signed then (BitVec.ofNat t.bits v).toInt else ((v % 2 ^ t.bits : Nat) : Int) := by
  have hpow : 2 ^ t.bits = 2 * 2 ^ (t.bits - 1) := by rw [← Nat.pow_succ', Nat.succ_eq_add_one, Nat.sub_add_cancel (Ty.bits_pos t)]
  cases hs : t.signed with
  | false => simp [iVal, hs]
  | true =>
    simp only [iVal, hs, Bool.true_and, decide_eq_true_eq, if_true, BitVec.toInt_eq_toNat_cond, BitVec.toNat_ofNat]
    split_ifs <;> omega

/-- R153: the extension to 64 bits copies the sign of a signed type, and zeros of any other. -/
theorem iExt_eq (t : Ty) (v : Nat) : iExt t v = if t.signed then ((BitVec.ofNat t.bits v).signExtend 64).toNat else v % 2 ^ t.bits := by
  rw [iExt, iVal_eq]
  cases hs : t.signed with
  | false =>
    have hlt : v % 2 ^ t.bits < 2 ^ 64 := Nat.lt_of_lt_of_le (Nat.mod_lt _ (Nat.two_pow_pos _)) (Nat.pow_le_pow_right (by decide) (Ty.bits_le t))
    simp only [Bool.false_eq_true, if_false]
    omega
  | true => simp only [if_true, BitVec.signExtend, BitVec.toNat_ofInt]

/-- Settles O1. -/
theorem integerArithmetic : Obligations.IntegerArithmetic := by
  refine ⟨fun s x c t o => ⟨fun h => ⟨?_, ?_, ?_, ?_⟩, fun h => ?_⟩, fun s x c t o sat => ⟨fun h => ⟨?_, ?_, ?_, ?_⟩, fun h => ?_⟩,
    fun ty v _ => ⟨iVal_eq ty v, iExt_eq ty v⟩⟩
  · exact aluGives_of_ready h _ _ _ _ rfl (fun l => rfl)
  · exact aluGives_of_ready h _ _ _ _ rfl (fun l => rfl)
  · exact aluGives_of_ready h _ _ _ _ rfl (fun l => rfl)
  · exact aluGives_of_ready h _ _ _ _ rfl (fun l => rfl)
  · exact aluGives_of_ready h _ _ _ _ rfl (fun l => rfl)
  · exact aluGives_of_ready h _ _ _ _ rfl (fun l => by rw [aluLane, noFl, min_comm, min_def_lt])
  · exact aluGives_of_ready h _ _ _ _ rfl (fun l => by rw [aluLane, noFl, max_def_lt])
  · exact aluGives_of_ready h _ _ _ _ rfl (fun l => by rw [aluLane, iSat_eq_clamp]; rfl)
  · exact aluGives_of_ready h _ _ _ _ rfl (fun l => by rw [aluLane, iSat_eq_clamp]; rfl)
  · exact aluGives_of_ready h _ _ _ _ rfl (fun l => by simp only [aluLane, iSat_eq_clamp, Int.natCast_natAbs]; rfl)

end Sys2Proof.Machine
end

section
/-! SUPPORT. A word with nothing in its way runs its body (R143, R144): completion of words of fixed latency and on the scoreboard. -/

namespace Sys2Proof.Machine

/-- A word whose meaning is `fullWord` retires in the state that its body leaves. -/
theorem exec_done_of_ready {s : State} {u : WUse} {x : Ctx} {c : Crew} {t v : State} {hd : Hdr} {size : Nat} {body : Body}
    {mg : Option MBody} (i : Instr) (h : s.ready [u] = some (x, c, t)) (hi : exec i s = fullWord i hd u size body mg s)
    (hb : body x c t = .done v) : exec i s = .next (x.retires size hd.stall.toNat v) := by
  rw [hi, fullWord_ready h, hb]
  rfl

theorem fixed_of_ready {s : State} {u : WUse} {x : Ctx} {c : Crew} {t : State} {hd : Hdr} {size lat : Nat} {body : Body}
    {mg : Option MBody} {ws : List RegWrite} {fl : Flags} (i : Instr) (h : s.ready [u] = some (x, c, t))
    (hi : exec i s = fullWord i hd u size body mg s) (hb : body x c t = x.fix c t lat ws fl) :
    Fixed i s x c t size hd.stall.toNat lat ws fl := exec_done_of_ready i h hi hb

theorem pending_of_ready {s : State} {u : WUse} {x : Ctx} {c : Crew} {t : State} {hd : Hdr} {body : Body}
    {mg : Option MBody} {ws : List RegWrite} {fl : Flags} (i : Instr) (h : s.ready [u] = some (x, c, t))
    (hi : exec i s = fullWord i hd u 8 body mg s) (hb : body x c t = x.pend c t ws fl) :
    Pending i s x c t hd.stall.toNat ws fl := exec_done_of_ready i h hi hb

end Sys2Proof.Machine
end

section
/-! SUPPORT. Logic, shifts, bit fields and counts (R156, R157, R159): a 32-bit amount, and values that depend on the low W bits alone. -/

namespace Sys2Proof.Machine

/-- R157: the number of 1 bits among the low `n` is the number of their places. -/
theorem popCount_eq_countP (n x : Nat) : popCount x n = (List.range n).countP (fun k => x.testBit k) := by
  induction n generalizing x with
  | zero => rfl
  | succ n ih =>
    have hshift : ((fun k => x.testBit k) ∘ Nat.succ) = fun k => (x / 2).testBit k := funext fun k => Nat.testBit_succ x k
    rw [popCount, ih, List.range_succ_eq_map, List.countP_cons, List.countP_map, hshift, Nat.testBit_zero]
    rcases Nat.mod_two_eq_zero_or_one x with h | h <;> simp [h, Nat.add_comm]

/-- R159: a shift to the left reads the low W bits alone. -/
theorem iShl_mod (t : Ty) (a n : Nat) : iShl t a n = if t.bits ≤ n then 0 else a % 2 ^ t.bits * 2 ^ n % 2 ^ t.bits := by
  rw [iShl, Nat.mod_mul_mod]

theorem iSar_mod (t : Ty) (a n : Nat) : iSar t (a % 2 ^ t.bits) n = iSar t a n := by
  rw [iSar, iSar, Nat.mod_mod]

theorem iBfe_mod (t : Ty) (len a n : Nat) : iBfe t len (a % 2 ^ t.bits) n = iBfe t len a n := by
  rw [iBfe, iBfe, Nat.mod_mod]

/-- Settles O3. -/
theorem logicShiftsAndFields : Obligations.LogicShiftsAndFields := by
  refine ⟨fun s x c t o h ps psn lit => ⟨fun hr => ?_, fun hr => ?_, fun hr => ?_, fun hr => ?_, fun hr => ⟨?_, ?_, ?_, ?_⟩⟩,
    fun s x c t o len => ⟨fun hr => ⟨?_, ?_, ?_, ?_, ?_⟩, fun hr => ?_⟩, fun s x c t o cc => ⟨fun hr => ⟨?_, ?_, ?_⟩, fun hr hsc => ?_, fun hcur hc hsc => ?_⟩⟩
  · exact exec_done_of_ready (mg := some _) _ hr rfl (by rfl)
  · exact aluGives_of_ready hr _ _ _ _ rfl (fun l => rfl)
  · cases hsc : o.sc with
    | true =>
      simp only [hsc, if_true] at hr ⊢
      exact fixed_of_ready (mg := some _) _ hr rfl (by rfl)
    | false =>
      simp only [hsc, Bool.false_eq_true, if_false] at hr ⊢
      exact ⟨_, fixed_of_ready (mg := none) _ hr rfl (by rfl), vecGives_vecWrites _ _ _ _ _ _ (fun _ _ => rfl)⟩
  · exact ⟨_, word_ready hr _ _ _, vecGives_vecWrites _ _ _ _ _ _ (fun _ _ => rfl)⟩
  · exact aluGives_of_ready hr _ _ _ _ rfl (fun l => rfl)
  · exact aluGives_of_ready hr _ _ _ _ rfl (fun l => rfl)
  · exact aluGives_of_ready hr _ _ _ _ rfl (fun l => rfl)
  · exact aluGives_of_ready hr _ _ _ _ rfl (fun l => rfl)
  · exact aluGives_of_ready hr _ _ _ _ rfl (fun l => by rw [aluLane, noFl, iShl_mod])
  · exact aluGives_of_ready hr _ _ _ _ rfl (fun l => rfl)
  · exact aluGives_of_ready hr _ _ _ _ rfl (fun l => by rw [aluLane, noFl, ← iSar_mod])
  · exact aluGives_of_ready hr _ _ _ _ rfl (fun l => rfl)
  · exact aluGives_of_ready hr _ _ _ _ rfl (fun l => by rw [aluLane, noFl, ← iBfe_mod])
  · exact aluGives_of_ready hr _ _ _ _ rfl (fun l => rfl)
  · exact aluGives_of_ready hr _ _ _ _ rfl (fun l => by rw [aluLane, noFl, iPopc, popCount_eq_countP]; rfl)
  · exact aluGives_of_ready hr _ _ _ _ rfl (fun l => rfl)
  · exact aluGives_of_ready hr _ _ _ _ rfl (fun l => rfl)
  · refine ⟨_, ?_, predGives_pWrite _ _ _ _ (fun _ _ => rfl)⟩
    unfold Fixed exec execIcmp
    simp only [hsc, Bool.false_eq_true, if_false]
    exact word_ready hr _ _ _
  · unfold exec execIcmp
    simp only [hsc, if_true, refusedWord, hcur, hc, State.finish, State.crew_setCrew]
    rfl

end Sys2Proof.Machine
end

section
/-! SUPPORT. Floating-point arithmetic (R163, R165): the words of fixed latency and those on the scoreboard. -/

namespace Sys2Proof.Machine

theorem fltLat_eq (t : Ty) (n : Nat) : fltLat t n = if t = .f64 then 10 else n := by
  cases t <;> rfl

/-- Settles O5. -/
theorem floatArithmetic : Obligations.FloatArithmetic := by
  refine ⟨fun s x c t o => ?_, fun s x c t o => ⟨fun h => ?_, fun h => ⟨?_, ?_, ?_, ?_, ?_, ?_, ?_⟩⟩⟩
  · rw [← fltLat_eq]
    refine ⟨fun h => ⟨?_, ?_, ?_⟩, fun h => ?_⟩
    · exact fltGives_of_ready h _ _ _ _ _ rfl rfl
    · exact fltGives_of_ready h _ _ _ _ _ rfl rfl
    · exact fltGives_of_ready h _ _ _ _ _ rfl rfl
    · exact fltGives_of_ready h _ _ _ _ _ rfl rfl
  · exact fltGives_of_ready h _ _ _ _ _ rfl rfl
  · exact fltGives_of_ready h _ _ _ _ _ rfl rfl
  · exact fltGives_of_ready h _ _ _ _ _ rfl rfl
  · exact fltGives_of_ready h _ _ _ _ _ rfl rfl
  · exact fltGives_of_ready h _ _ _ _ _ rfl rfl
  · exact fltGives_of_ready h _ _ _ _ _ rfl rfl
  · exact fltGives_of_ready h _ _ _ _ _ rfl rfl
  · exact fltGives_of_ready h _ _ _ _ _ rfl rfl

end Sys2Proof.Machine
end

section
/-! SUPPORT. Floating-point values that a type holds exactly (R85, R88), and the words of R166 and R167. -/

namespace Sys2Proof.Machine

/-- A leading bit within the fraction: the magnitude, moved up to the fraction's width, has its leading bit there. -/
theorem log2_shift_bounds {m f : Nat} (hm : 0 < m) (hl : Nat.log2 m ≤ f) :
    2 ^ f ≤ m * 2 ^ (f - Nat.log2 m) ∧ m * 2 ^ (f - Nat.log2 m) < 2 ^ (f + 1) := by
  have hf : f = Nat.log2 m + (f - Nat.log2 m) := by omega
  have hlow : 2 ^ Nat.log2 m ≤ m := Nat.log2_self_le hm.ne'
  have hhigh : m < 2 ^ (Nat.log2 m + 1) := Nat.lt_log2_self
  constructor
  · calc 2 ^ f = 2 ^ Nat.log2 m * 2 ^ (f - Nat.log2 m) := by rw [← Nat.pow_add, ← hf]
      _ ≤ _ := Nat.mul_le_mul_right _ hlow
  · calc m * 2 ^ (f - Nat.log2 m) < 2 ^ (Nat.log2 m + 1) * 2 ^ (f - Nat.log2 m) := Nat.mul_lt_mul_of_pos_right hhigh (Nat.two_pow_pos _)
      _ = 2 ^ (f + 1) := by rw [← Nat.pow_add]; congr 1; omega

/-- A value of no more bits than the fraction, of an exponent within the type's range, is rounded to its own sign, exponent field and fraction. -/
theorem fRound_of_exact {t : Ty} (r : Rnd) (sat neg : Bool) {m : Nat} {e : Int} (hm : 0 < m) (hl : Nat.log2 m ≤ Ty.frac t)
    (hlo : Ty.emin t ≤ (Nat.log2 m : Int) + e) (hhi : (Nat.log2 m : Int) + e < Ty.emin t + (Ty.expMax t : Int) - 1) :
    fRound t r sat neg m e =
      { bits := fSign t neg ((m * 2 ^ (Ty.frac t - Nat.log2 m) - 2 ^ Ty.frac t) +
          2 ^ Ty.frac t * (((Nat.log2 m : Int) + e - Ty.emin t).toNat + 1)), fl := 0 } := by
  obtain ⟨hge, hlt⟩ := log2_shift_bounds hm hl
  have hmag : m * 2 ^ (Ty.frac t - Nat.log2 m) + ((Nat.log2 m : Int) + e - Ty.emin t).toNat * 2 ^ Ty.frac t =
      (m * 2 ^ (Ty.frac t - Nat.log2 m) - 2 ^ Ty.frac t) + 2 ^ Ty.frac t * (((Nat.log2 m : Int) + e - Ty.emin t).toNat + 1) := by
    rw [Nat.mul_add_one, Nat.mul_comm (2 ^ Ty.frac t)]
    omega
  have hfit : ¬ fInf t ≤ (m * 2 ^ (Ty.frac t - Nat.log2 m) - 2 ^ Ty.frac t) + 2 ^ Ty.frac t * (((Nat.log2 m : Int) + e - Ty.emin t).toNat + 1) := by
    have hexp : ((Nat.log2 m : Int) + e - Ty.emin t).toNat + 1 + 1 ≤ Ty.expMax t := by omega
    have hmul := Nat.mul_le_mul_left (2 ^ Ty.frac t) hexp
    rw [Nat.pow_succ] at hlt
    rw [fInf, Nat.mul_comm (Ty.expMax t)]
    rw [Nat.mul_add_one (2 ^ Ty.frac t) (_ + 1)] at hmul
    omega
  have hshift : (e - ((Nat.log2 m : Int) + e - Ty.frac t)).toNat = Ty.frac t - Nat.log2 m := by omega
  have hq : fQuot neg m e ((Nat.log2 m : Int) + e - Ty.frac t) r = (m * 2 ^ (Ty.frac t - Nat.log2 m), false) := by
    rw [fQuot, if_pos (by omega), hshift]
  have hexpo : ¬ (Nat.log2 m : Int) + e < Ty.emin t := not_lt.mpr hlo
  simp only [fRound, fExpo, hm.ne', hexpo, hq, hmag, hfit, if_false]
  rfl

/-- R85: such a value is read back with its leading bit at the fraction's width. -/
theorem fDec_fRound_of_exact {t : Ty} (ht : t.isFlt = true) (r : Rnd) (sat neg : Bool) {m : Nat} {e : Int} (hm : 0 < m)
    (hl : Nat.log2 m ≤ Ty.frac t) (hlo : Ty.emin t ≤ (Nat.log2 m : Int) + e)
    (hhi : (Nat.log2 m : Int) + e < Ty.emin t + (Ty.expMax t : Int) - 1) :
    fDec t (fRound t r sat neg m e).bits =
      .num neg (m * 2 ^ (Ty.frac t - Nat.log2 m)) (e - (Ty.frac t - Nat.log2 m : Nat)) := by
  obtain ⟨hge, hlt⟩ := log2_shift_bounds hm hl
  rw [Nat.pow_succ] at hlt
  rw [fRound_of_exact r sat neg hm hl hlo hhi, fDec_fSign ht neg (by omega) (by omega), if_neg (by omega), if_neg (by omega)]
  congr 1 <;> omega

theorem cvtLat_eq (a b : Ty) : cvtLat a b = if a = .f64 ∨ b = .f64 then 10 else 6 := by
  cases a <;> cases b <;> rfl

theorem sigFlag_pair (a b : FVal) : sigFlag [a, b] = if a.isSig || b.isSig then Flags.nv else 0 := by
  simp only [sigFlag, List.any_cons, List.any_nil, Bool.or_false, Flags.on]

/-- What `fcmp` computes in a lane (R166): its predicate and its flag. -/
def fcmpLane (o : Flt) (cc : BitVec 4) (c : Crew) (l : Nat) : FRes :=
  { bits := (fCmp cc.toNat (fDec o.ty (fltA o o.ty c l)) (fDec o.ty (fltB o o.ty c l))).toNat,
    fl := if (fDec o.ty (fltA o o.ty c l)).isSig || (fDec o.ty (fltB o o.ty c l)).isSig then Flags.nv else 0 }

/-- R166: `fcmp` gives its predicate in every active lane, and the flags of the signalling operands. -/
theorem fcmp_gives {s : State} {x : Ctx} {c : Crew} {t : State} (o : Flt) (cc : BitVec 4)
    (h : s.ready [Flt.use o {} o.ty.regs o.ty.regs 1 true] = some (x, c, t)) :
    ∃ ws, Fixed (.fcmp o cc) s x c t 8 o.h.stall.toNat (fltLat o.ty 5) ws (Flags.any (x.act.lanes.map (fun l => (fcmpLane o cc c l).fl))) ∧
      PredGives x.act o.d.toNat (fun l => fCmp cc.toNat (fDec o.ty (fltA o o.ty c l)) (fDec o.ty (fltB o o.ty c l))) ws := by
  refine ⟨[pWrite o.d.toNat x.act (fun l => (laneResults x.act (fcmpLane o cc c)).1.getD l 0 != 0)], ?_,
    predGives_pWrite _ _ _ _ (fun l hl => ?_)⟩
  · rw [← laneResults_flags]
    refine fixed_of_ready (mg := none) _ h rfl ?_
    simp only [sigFlag_pair]
    rfl
  · rw [laneResults_getD _ _ hl, fcmpLane]
    cases fCmp cc.toNat (fDec o.ty (fltA o o.ty c l)) (fDec o.ty (fltB o o.ty c l)) <;> rfl

/-- Settles O8. -/
theorem floatConversions : Obligations.FloatConversions := by
  refine ⟨fun s x c t o cc => ?_, fun s x c t o st => ⟨fun h => ?_, fun h => ?_, fun h => ?_, fun h => ?_, fun h => ?_⟩, ?_⟩
  · simp only [← fltLat_eq]
    refine ⟨fun h => fcmp_gives o cc h, fun h => ?_, fun h => ?_, fun h => ?_⟩
    · exact fltGives_of_ready h _ _ _ _ _ rfl rfl
    · exact fltGives_of_ready h _ _ _ _ _ rfl rfl
    · exact fltGives_of_ready h _ _ _ _ _ rfl rfl
  · rw [← cvtLat_eq]
    refine ⟨?_, ?_, ?_⟩
    · exact fltGives_of_ready h _ _ _ _ _ rfl rfl
    · exact fltGives_of_ready h _ _ _ _ _ rfl rfl
    · exact fltGives_of_ready h _ _ _ _ _ rfl rfl
  · exact fltGives_of_ready h _ _ _ _ _ rfl rfl
  · exact fltGives_of_ready h _ _ _ _ _ rfl rfl
  · exact fltGives_of_ready h _ _ _ _ _ rfl rfl
  · exact fltGives_of_ready h _ _ _ _ _ rfl rfl
  · intro ty r sat neg m e ht hm hl hlo hhi
    exact ⟨fDec_fRound_of_exact ht r sat neg hm hl hlo hhi, by rw [fRound_of_exact r sat neg hm hl hlo hhi]⟩

end Sys2Proof.Machine
end

section
/-! SUPPORT. Lane words (R168 to R171): the lanes of a mask, and what votes, moves, reductions and scans give. -/

namespace Sys2Proof.Machine

theorem Mask.mem_lanes {m : Mask} {l : Nat} : l ∈ m.lanes ↔ m.getLsbD l = true := by
  simp only [Mask.lanes, List.mem_filter, List.mem_range, and_iff_right_iff_imp]
  exact Mask.lt_of_lane

theorem Mask.getLsbD_foldl_or (ls : List Nat) (m : Mask) {l : Nat} (hl : l < 32) :
    (ls.foldl (fun m l => m ||| (1#32 <<< l)) m).getLsbD l = (m.getLsbD l || decide (l ∈ ls)) := by
  induction ls generalizing m with
  | nil => simp
  | cons k ks ih =>
    have hbit : (1#32 <<< k).getLsbD l = decide (l = k) := by
      simp only [BitVec.getLsbD_shiftLeft, BitVec.getLsbD_one, hl]
      grind
    rw [List.foldl_cons, ih, BitVec.getLsbD_or, hbit, Bool.or_assoc]
    simp only [List.mem_cons, Bool.decide_or]

/-- A mask built from lanes has a lane's bit where the lane is listed. -/
theorem Mask.getLsbD_ofLanes (ls : List Nat) {l : Nat} (hl : l < 32) : (Mask.ofLanes ls).getLsbD l = decide (l ∈ ls) := by
  rw [Mask.ofLanes, Mask.getLsbD_foldl_or ls _ hl]
  simp

/-- The votes of a lane condition over the active lanes (R169). -/
theorem Mask.all_lanes_iff (m : Mask) (q : Nat → Bool) : m.lanes.all q = true ↔ ∀ l, m.getLsbD l = true → q l = true := by
  simp only [List.all_eq_true, Mask.mem_lanes]

theorem Mask.any_lanes_eq_false_iff (m : Mask) (q : Nat → Bool) : m.lanes.any q = false ↔ ∀ l, m.getLsbD l = true → q l = false := by
  simp only [List.any_eq_false, Mask.mem_lanes, Bool.not_eq_true]

/-- R169: `vote` by mode: all, any, uniform, and the ballot. -/
theorem vote_gives {s : State} {x : Ctx} {c : Crew} {t : State} {h : Hdr} {mode : BitVec 2} {negs : Bool} {d a : Reg}
    (hr : s.ready [Hdr.use h [pReg a.toNat] [if mode = 3 then sReg d else pReg d.toNat]] = some (x, c, t)) :
    let p (l : Nat) : Bool := c.rp a.toNat l ^^ negs
    let yes (l : Nat) : Prop := x.act.getLsbD l = true → p l = true
    let no (l : Nat) : Prop := x.act.getLsbD l = true → p l = false
    ∃ ws, Fixed (.vote h mode negs d a) s x c t 8 h.stall.toNat 6 ws 0 ∧
      (mode = 0 → ∃ v, ws = [pWrite d.toNat x.act (fun _ => v)] ∧ (v = true ↔ ∀ l, yes l)) ∧
      (mode = 1 → ∃ v, ws = [pWrite d.toNat x.act (fun _ => v)] ∧ (v = false ↔ ∀ l, no l)) ∧
      (mode = 2 → ∃ v, ws = [pWrite d.toNat x.act (fun _ => v)] ∧ (v = true ↔ (∀ l, yes l) ∨ ∀ l, no l)) ∧
      (mode = 3 → ∃ m : Mask, ws = [sWrite d.toNat m.toNat] ∧ ∀ l, l < 32 → m.getLsbD l = (x.act.getLsbD l && p l)) := by
  intro p yes no
  refine ⟨_, fixed_of_ready (mg := none) _ hr rfl (by rfl), ?_, ?_, ?_, ?_⟩
  · rintro rfl
    exact ⟨_, rfl, Mask.all_lanes_iff _ _⟩
  · rintro rfl
    exact ⟨_, rfl, Mask.any_lanes_eq_false_iff _ _⟩
  · rintro rfl
    refine ⟨_, rfl, ?_⟩
    show (x.act.lanes.all p || x.act.lanes.all (fun l => !p l)) = true ↔ _
    rw [Bool.or_eq_true, Mask.all_lanes_iff, Mask.all_lanes_iff]
    simp only [Bool.not_eq_true', yes, no]
  · rintro rfl
    refine ⟨_, rfl, fun l hl => ?_⟩
    rw [Mask.getLsbD_ofLanes _ hl, Bool.eq_iff_iff, decide_eq_true_iff, List.mem_filter, Mask.mem_lanes, Bool.and_eq_true]

/-- R170: `scan` gives each active lane the combination of the lanes up to it. -/
theorem scan_gives {s : State} {x : Ctx} {c : Crew} {t : State} {h : Hdr} {ty : Ty} {op : BitVec 4} {rnd : Rnd} {excl : Bool} {d a : Reg}
    (hr : s.ready [Hdr.use h [vReg a ty.regs] [vReg d ty.regs]] = some (x, c, t)) :
    let comb (l : Nat) : FRes := reduxTerms op.toNat ty rnd
      ((x.act.lanes.filter (fun j => decide (j < l) || (!excl && j == l))).map (fun l => c.rvs a.toNat l ty.regs % 2 ^ ty.bits))
    ∃ ws, Pending (.scan h ty op rnd excl d a) s x c t h.stall.toNat ws (Flags.any (x.act.lanes.map (fun l => (comb l).fl))) ∧
      VecGives c x.act d.toNat ty.regs (fun l => reduxExt ty (comb l).bits) ws := by
  intro comb
  refine ⟨c.vecWrites d.toNat ty.regs x.act (fun l => reduxExt ty ((laneResults x.act comb).1.getD l 0)), ?_,
    vecGives_vecWrites _ _ _ _ _ _ (fun l hl => by rw [laneResults_getD _ _ hl])⟩
  rw [← laneResults_flags]
  exact pending_of_ready (mg := none) _ hr rfl (by rfl)

/-- Settles O9. -/
theorem laneWords : Obligations.LaneWords := by
  refine ⟨fun s x c t h ty d a b mode seg negs first ds lut q => ⟨fun hr => ?_, vote_gives, fun hr => ?_, fun hr => ?_, fun hr => ?_,
    fun hr => ?_, fun hr => ?_, fun hr => ?_, fun hr => ?_⟩, fun s x c t h ty op rnd excl d a => ⟨fun hr => ?_, scan_gives⟩⟩
  · exact ⟨_, fixed_of_ready (mg := none) _ hr rfl (by rfl), vecGives_vecWrites _ _ _ _ _ _ (fun _ _ => rfl)⟩
  · exact ⟨_, fixed_of_ready (mg := none) _ hr rfl (by rfl), vecGives_vecWrites _ _ _ _ _ _ (fun _ _ => rfl)⟩
  · exact fixed_of_ready (mg := none) _ hr rfl (by rfl)
  · exact ⟨_, fixed_of_ready (mg := none) _ hr rfl (by rfl), predGives_pWrite _ _ _ _ (fun _ _ => rfl)⟩
  · exact fixed_of_ready (mg := none) _ hr rfl (by rfl)
  · exact ⟨_, fixed_of_ready (mg := none) _ hr rfl (by rfl), predGives_pWrite _ _ _ _ (fun l _ => by
      rw [Nat.testBit_eq_decide_div_mod_eq]; rfl)⟩
  · exact ⟨_, fixed_of_ready (mg := none) _ hr rfl (by rfl), vecGives_vecWrites _ _ _ _ _ _ (fun _ _ => rfl)⟩
  · cases ds with
    | true => exact fixed_of_ready (mg := none) _ hr rfl (by rfl)
    | false => exact ⟨_, fixed_of_ready (mg := none) _ hr rfl (by rfl), vecGives_vecWrites _ _ _ _ _ _ (fun _ _ => rfl)⟩
  · exact pending_of_ready (mg := none) _ hr rfl (by rfl)

end Sys2Proof.Machine
end

section
/-! SUPPORT. Half instructions (R136, R138, R180): what the two halves of a pair leave, and what a half gives to its lanes. -/

namespace Sys2Proof.Machine

/-- R138: a pair completes with the results of both halves, both read before either writes. -/
theorem exec_pair_of_ready {s : State} {x : Ctx} {c : Crew} {t : State} {st : BitVec 3} {a b : Half}
    (h : s.ready [Half.use a false, Half.use b true] = some (x, c, t)) :
    exec (Half.toInstr st a b) s = .next (t.finish (Half.toInstr st a b) x.key x.e 8 st.toNat (pairBody a b x c t)) := by
  rw [← pairWord_ready h]
  cases a <;> rfl

section
variable {o : HOp} {c : Crew} {m : Mask} {h : Half} {key : Nat} {s : State}

/-- A half on vD gives its lane results and their flags. -/
theorem half_gives_vec {f : Nat → FRes} (hi : halfResult h key c s m = hVec o c m f) :
    VecGives c m o.d.toNat 1 (fun l => (f l).bits) (halfResult h key c s m).1 ∧
    (halfResult h key c s m).2 = Flags.any (m.lanes.map (fun l => (f l).fl)) := by
  rw [hi]
  exact ⟨vecGives_vecWrites _ _ _ _ _ _ (fun _ hl => laneResults_getD _ _ hl), laneResults_flags m f⟩

/-- An integer half gives its values and no flag. -/
theorem half_gives_int {f g : Nat → Nat} (hi : halfResult h key c s m = hInt o c m f) (hf : ∀ l, f l = g l) :
    VecGives c m o.d.toNat 1 g (halfResult h key c s m).1 ∧ (halfResult h key c s m).2 = 0 := by
  obtain rfl : f = g := funext hf
  obtain ⟨hv, hfl⟩ := half_gives_vec (f := fun l => { bits := f l, fl := 0 }) hi
  exact ⟨hv, hfl.trans (Flags.any_zero _)⟩

/-- An arithmetic half gives the wrapped result of its exact operation, extended. -/
theorem half_gives_arith {f g : Int → Int → Int} (hi : halfResult h key c s m = hArith o c m f) (hf : ∀ y z, f y z = g y z) :
    VecGives c m o.d.toNat 1 (fun l => iExt (hTy o) (iWrap (hTy o) (g (iVal (hTy o) (c.rv o.d.toNat l)) (iVal (hTy o) (hA o (hTy o) c l)))))
      (halfResult h key c s m).1 ∧ (halfResult h key c s m).2 = 0 :=
  half_gives_int hi (fun l => by rw [hf]; rfl)

end

theorem Crew.rv_lt (c : Crew) (n l : Nat) : c.rv n l < 2 ^ 32 := by
  unfold Crew.rv
  exact BitVec.isLt _

theorem iShr_n32 {a : Nat} (h : a < 2 ^ 32) (n : Nat) : iShr .n32 a n = if 32 ≤ n then 0 else a / 2 ^ n := by
  rw [iShr, show Ty.bits .n32 = 32 from rfl, Nat.mod_eq_of_lt h]

theorem sigFlag_single (a : FVal) : sigFlag [a] = if a.isSig then Flags.nv else 0 := by
  simp only [sigFlag, List.any_cons, List.any_nil, Bool.or_false, Flags.on]

/-- The comparison that a half's mode names (R180): codes 0 to 2, and 3 for code 5. -/
def hCode (o : HOp) : Nat := if hMode o = 3 then 5 else hMode o

/-- What `hfcmp` computes in a lane: A against zero. -/
def hfcmpLane (o : HOp) (c : Crew) (l : Nat) : FRes :=
  { bits := (fCmp (hCode o) (fDec (hTy o) (hA o (hTy o) c l)) (.num false 0 0)).toNat,
    fl := if (fDec (hTy o) (hA o (hTy o) c l)).isSig then Flags.nv else 0 }

theorem halfResult_hicmp (o : HOp) (key : Nat) (c : Crew) (s : State) (m : Mask) : halfResult (.hicmp o) key c s m =
    ([pWrite o.d.toNat m (fun l => iCmp (hCode o) (iVal (hTy o) (hA o (hTy o) c l)) 0)], 0) := by
  unfold halfResult hCode
  dsimp only
  split <;> simp_all

theorem halfResult_hfcmp (o : HOp) (key : Nat) (c : Crew) (s : State) (m : Mask) : halfResult (.hfcmp o) key c s m =
    ([pWrite o.d.toNat m (fun l => (laneResults m (hfcmpLane o c)).1.getD l 0 != 0)], (laneResults m (hfcmpLane o c)).2) := by
  unfold halfResult hfcmpLane hCode
  simp only [sigFlag_single]
  split <;> simp_all

/-- R180: `hfcmp` gives its predicate, and NV for a signalling operand. -/
theorem hfcmp_gives (key : Nat) (c : Crew) (s : State) (m : Mask) (o : HOp) :
    PredGives m o.d.toNat (fun l => fCmp (hCode o) (fDec (hTy o) (hA o (hTy o) c l)) (.num false 0 0)) (halfResult (.hfcmp o) key c s m).1 ∧
    (halfResult (.hfcmp o) key c s m).2 = Flags.any (m.lanes.map (fun l => if (fDec (hTy o) (hA o (hTy o) c l)).isSig then Flags.nv else 0)) := by
  rw [halfResult_hfcmp]
  refine ⟨predGives_pWrite _ _ _ _ (fun l hl => ?_), laneResults_flags m (hfcmpLane o c)⟩
  rw [laneResults_getD _ _ hl, hfcmpLane]
  cases fCmp (hCode o) (fDec (hTy o) (hA o (hTy o) c l)) (.num false 0 0) <;> rfl

theorem hicmp_gives (key : Nat) (c : Crew) (s : State) (m : Mask) (o : HOp) :
    PredGives m o.d.toNat (fun l => iCmp (hCode o) (iVal (hTy o) (hA o (hTy o) c l)) 0) (halfResult (.hicmp o) key c s m).1 ∧
    (halfResult (.hicmp o) key c s m).2 = 0 := by
  rw [halfResult_hicmp]
  exact ⟨predGives_pWrite _ _ _ _ (fun _ _ => rfl), rfl⟩

/-- Settles O10. -/
theorem pairedWords : Obligations.PairedWords := by
  refine ⟨fun s x c t st a b h => exec_pair_of_ready h, fun key c s m o => ⟨rfl, ?_, ?_, ?_, ?_, ?_, ?_, ?_, ?_, ?_, ?_, ?_, ?_, ?_, ?_, ?_, ?_, ?_, ?_, ?_,
    ?_, ?_, ?_, ?_, ?_, ?_, ?_, ?_, ?_, hicmp_gives key c s m o, hfcmp_gives key c s m o⟩⟩
  · exact half_gives_int rfl (fun _ => rfl)
  · exact half_gives_int rfl (fun _ => rfl)
  · exact half_gives_arith rfl (fun _ _ => rfl)
  · exact half_gives_arith rfl (fun _ _ => rfl)
  · exact half_gives_arith rfl (fun _ _ => rfl)
  · exact half_gives_arith (f := fun d a => if a < d then a else d) (g := min) rfl (fun y z => by rw [min_comm, min_def_lt])
  · exact half_gives_arith (f := fun d a => if d < a then a else d) (g := max) rfl (fun y z => by rw [max_def_lt])
  · exact half_gives_arith (f := fun _ a => -a) (g := fun _ a => -a) rfl (fun _ _ => rfl)
  · exact half_gives_arith (f := fun _ a => a.natAbs) (g := fun _ a => |a|) rfl (fun _ z => Int.natCast_natAbs z)
  · exact half_gives_int rfl (fun _ => rfl)
  · exact half_gives_int rfl (fun _ => rfl)
  · exact half_gives_int rfl (fun _ => rfl)
  · exact half_gives_int rfl (fun _ => rfl)
  · exact half_gives_int rfl (fun l => iShr_n32 (Crew.rv_lt _ _ _) _)
  · exact half_gives_int rfl (fun _ => rfl)
  · exact half_gives_int rfl (fun _ => rfl)
  · exact half_gives_int rfl (fun l => popCount_eq_countP _ _)
  · exact half_gives_int rfl (fun _ => rfl)
  · exact half_gives_int rfl (fun _ => rfl)
  · exact half_gives_vec rfl
  · exact half_gives_vec rfl
  · exact half_gives_vec rfl
  · exact half_gives_vec rfl
  · exact half_gives_vec rfl
  · exact half_gives_vec rfl
  · exact half_gives_vec rfl
  · exact half_gives_int rfl (fun _ => rfl)
  · exact half_gives_int rfl (fun _ => rfl)

end Sys2Proof.Machine
end

section
/-! SUPPORT. A word with nothing in its way (R29, R143): how it goes on, waits or traps, by what its body answers. -/

namespace Sys2Proof.Machine

section
variable {s : State} {u : WUse} {x : Ctx} {c : Crew} {t v : State} {hd : Hdr} {size : Nat} {body : Body} {mg : Option MBody}

/-- A word whose body sets its own splits. -/
theorem exec_jump_of_ready {es : List Nat} (i : Instr) (h : s.ready [u] = some (x, c, t)) (hi : exec i s = fullWord i hd u size body mg s)
    (hb : body x c t = .jump v es) : exec i s = .next (x.jumps es hd.stall.toNat v) := by
  rw [hi, fullWord_ready h, hb]
  rfl

/-- A word whose body waits. -/
theorem exec_wait_of_ready {w : Wait} (i : Instr) (h : s.ready [u] = some (x, c, t)) (hi : exec i s = fullWord i hd u size body mg s)
    (hb : body x c t = .wait v w) : exec i s = .next (v.holdWord x.key x.e i w) := by
  rw [hi, fullWord_ready h, hb]
  rfl

/-- A word whose body cannot go on in this cycle. -/
theorem exec_blocked_of_ready (i : Instr) (h : s.ready [u] = some (x, c, t)) (hi : exec i s = fullWord i hd u size body mg s)
    (hb : body x c t = .blocked v) : exec i s = .next (v.tryLater x.key x.e) := by
  rw [hi, fullWord_ready h, hb]
  rfl

/-- A word whose body traps in the state `v`, of whose crew `d` is then in the place. -/
theorem exec_trap_of_crew {d : Crew} {tr : Trap} (i : Instr) (h : s.ready [u] = some (x, c, t)) (hi : exec i s = fullWord i hd u size body mg s)
    (hd' : v.crew x.key = some d) (hb : body x c t = .trap v tr) : exec i s = .next ((v.markIssued d).takeTrap x.key tr) := by
  rw [hi, fullWord_ready h, hb]
  simp only [State.finish, hd']

/-- A word whose body traps before it changes anything. -/
theorem exec_trap_of_ready {tr : Trap} (i : Instr) (h : s.ready [u] = some (x, c, t)) (hi : exec i s = fullWord i hd u size body mg s)
    (hb : body x c t = .trap t tr) : exec i s = .next ((t.markIssued c).takeTrap x.key tr) :=
  exec_trap_of_crew i h hi (State.crew_of_ready h) hb

end

/-- An update of a crew that is there sets what it gives. -/
theorem State.updCrew_eq_setCrew {s : State} {k : Nat} {c : Crew} (h : s.crew k = some c) (f : Crew → Crew) : s.updCrew k f = s.setCrew k (f c) := by
  rw [State.crew] at h
  simp only [State.updCrew, State.setCrew, Tab.upd, h]

end Sys2Proof.Machine
end

section
/-! SUPPORT. Batches (R112, R113, R202), the status and control registers (R242, R243, R247, R248), and words that are none (R130, R150). -/

namespace Sys2Proof.Machine

/-! ## Illegal words and failing fetches -/

/-- Settles O15. -/
theorem illegalWordsAndFetchFaults : Obligations.IllegalWordsAndFetchFaults := by
  intro s key e c w va tail hcur hc
  constructor
  · unfold exec execIllegalEncoding
    simp only [hcur, hc, State.finish, State.crew_setCrew, if_true]
    exact ⟨_, rfl⟩
  · unfold exec execFetchFault
    simp only [hcur, hc, State.finish]
    rfl

/-! ## Batches -/

/-- A batch wait by the batches up to the one named: one that is not complete, a failed one, or all complete. -/
theorem batchAct_eq (x : Ctx) (c : Crew) (s : State) (d : Nat) (n : W32) :
    let mine := c.batches.filter (fun v => !batchLater v.num n)
    (batchLater n (c.batchCtr - 1) = true → batchAct x c s d n = .trap s (mkTrap 7 x.e x.act 0 0)) ∧
    (batchLater n (c.batchCtr - 1) = false →
      ((∃ v ∈ mine, v.left ≠ 0) → batchAct x c s d n = .wait s .batch) ∧
      ((∀ v ∈ mine, v.left = 0) → ∀ r, mine.findSome? (fun v => v.trapRec) = some r → batchAct x c s d n = .trap s (mkTrap 12 x.e x.act 0 r)) ∧
      ((∀ v ∈ mine, v.left = 0 ∧ v.trapRec = none) → batchAct x c s d n =
        pendNow x (s.updCrew x.key (fun v => { v with pts := mine.foldl (fun a v => Ts.smax a v.pts) c.pts, batches := v.batches.filter (fun v => batchLater v.num n) }))
          [sWrite d (mine.foldl (fun a (v : Batch) => a ||| v.status) 0).toNat])) := by
  intro mine
  have hany : mine.any (fun b => b.left != 0) = true ↔ ∃ v ∈ mine, v.left ≠ 0 := by simp only [List.any_eq_true, bne_iff_ne]
  refine ⟨fun hl => by rw [batchAct, if_pos hl], fun hl => ⟨fun hw => ?_, fun hz r hr => ?_, fun hz => ?_⟩⟩
  · rw [batchAct, if_neg (Bool.eq_false_iff.mp hl)]
    exact if_pos (hany.mpr hw)
  · have hnot : ¬ mine.any (fun b => b.left != 0) = true := by rw [hany]; push Not; exact hz
    rw [batchAct, if_neg (Bool.eq_false_iff.mp hl)]
    simp only [mine] at hnot hr
    simp only [if_neg hnot, hr]
  · have hnot : ¬ mine.any (fun b => b.left != 0) = true := by rw [hany]; push Not; exact fun v hv => (hz v hv).1
    have hnone : mine.findSome? (fun v => v.trapRec) = none := List.findSome?_eq_none_iff.mpr (fun v hv => (hz v hv).2)
    rw [batchAct, if_neg (Bool.eq_false_iff.mp hl)]
    simp only [mine] at hnot hnone
    simp only [if_neg hnot, hnone]
    rfl

/-- Settles O24. -/
theorem batchWords : Obligations.BatchWords := by
  intro s x c t h d b
  refine ⟨fun hr hopen => ?_, fun hr => ?_⟩
  · have hb : ¬ 256 ≤ c.openBatches := by omega
    exact exec_done_of_ready (mg := none) _ hr rfl (if_neg hb)
  · obtain ⟨hlater, hmine⟩ := batchAct_eq x c t d.toNat (BitVec.ofNat 32 (c.sval b))
    refine ⟨fun hl => ?_, fun hl => ?_⟩
    · exact exec_trap_of_ready (mg := none) _ hr rfl (hlater hl)
    · obtain ⟨hwait, htrap, hdone⟩ := hmine hl
      refine ⟨fun hw => ?_, fun hz r hf => ?_, fun hz => ?_⟩
      · exact exec_wait_of_ready (mg := none) _ hr rfl (hwait hw)
      · exact exec_trap_of_ready (mg := none) _ hr rfl (htrap hz r hf)
      · exact exec_done_of_ready (mg := none) _ hr rfl (hdone hz)

/-! ## Status and control registers -/

theorem statusMask_bits : ∀ n < 64, statusMask.getLsbD n = decide (n < 5 ∨ n = 8 ∨ n = 9) := by
  decide

/-- R243: a write of the status changes FLAGS, SCOPEMISS and SBCHK alone, and SBCHK reads 1 in DET. -/
theorem Crew.putStatus_bits (c : Crew) (det : Bool) (w : W64) (n : Nat) : (c.putStatus det w).status.getLsbD n =
    (if n = 9 ∧ det then true else if n < 5 ∨ n = 8 ∨ n = 9 then w.getLsbD n else c.status.getLsbD n) := by
  by_cases hn : n < 64
  · have hone : (0x200 : W64).getLsbD n = decide (n = 9) := by
      revert n
      decide
    have hst : ((c.status &&& ~~~statusMask) ||| (w &&& statusMask)).getLsbD n =
        if n < 5 ∨ n = 8 ∨ n = 9 then w.getLsbD n else c.status.getLsbD n := by
      rw [BitVec.getLsbD_or, BitVec.getLsbD_and, BitVec.getLsbD_and, BitVec.getLsbD_not, statusMask_bits n hn]
      by_cases hk : n < 5 ∨ n = 8 ∨ n = 9 <;> simp [hk, hn]
    cases det with
    | false => simp only [Crew.putStatus, Bool.false_eq_true, if_false, and_false, hst]
    | true =>
      simp only [Crew.putStatus, if_true, and_true]
      rw [BitVec.getLsbD_or, hst, hone]
      by_cases h9 : n = 9 <;> simp [h9]
  · have h9 : ¬ (n < 5 ∨ n = 8 ∨ n = 9) := by omega
    rw [if_neg (by omega), if_neg h9, BitVec.getLsbD_of_ge _ _ (by omega), BitVec.getLsbD_of_ge _ _ (by omega)]

/-- R242: the six registers that `csrr` reads. -/
theorem csrValue_eq {s : State} {key : Nat} {g : Gang} (hg : s.gang (keyGid key) = some g) (c : Crew) {n : Nat} (hn : n ≤ 5) :
    csrValue s key c n =
      if n = 0 then c.status.toNat ||| (if s.gangDet (keyGid key) then 512 else 0)
      else if n = 1 then c.spillBase
      else if n = 2 then c.spillSz
      else if n = 3 then c.wb % 65536 + c.lo % 65536 * 2 ^ 16 + c.budget % 512 * 2 ^ 32
      else if n = 4 then g.scrSz
      else if s.gangDet (keyGid key) then g.detSz else 0 := by
  unfold csrValue
  interval_cases n <;> simp only [hg] <;> rfl

/-- A `csrw` form on the status register. -/
theorem csrWrite_puts {s : State} {x : Ctx} {c : Crew} {t : State} {h : Hdr} {a : Reg} {i : Instr} {f : W64 → W64 → W64}
    (hr : s.ready [Hdr.use h [sReg a] []] = some (x, c, t)) (hi : exec i s = csrWrite i h 0 a f s) :
    ∃ c1, exec i s = .next (x.retires 8 h.stall.toNat (t.setCrew x.key c1)) ∧ { c1 with status := c.status } = c ∧
      ∀ n, c1.status.getLsbD n = (if n = 9 ∧ x.det then true else if n < 5 ∨ n = 8 ∨ n = 9 then
        (f c.status (BitVec.ofNat 64 (c.rs a.toNat))).getLsbD n else c.status.getLsbD n) := by
  refine ⟨c.putStatus x.det (f c.status (BitVec.ofNat 64 (c.rs a.toNat))), ?_, rfl, fun n => Crew.putStatus_bits _ _ _ n⟩
  rw [← State.updCrew_eq_setCrew (State.crew_of_ready hr) (fun c => c.putStatus x.det (f c.status (BitVec.ofNat 64 (c.rs a.toNat))))]
  exact exec_done_of_ready (mg := none) _ hr hi rfl

/-- Any other register of a `csrw` form is ILL. -/
theorem csrWrite_ill {s : State} {x : Ctx} {c : Crew} {t : State} {h : Hdr} {num : BitVec 12} {a : Reg} {i : Instr} {f : W64 → W64 → W64}
    (hr : s.ready [Hdr.use h [sReg a] []] = some (x, c, t)) (hnum : num ≠ 0) (hi : exec i s = csrWrite i h num a f s) :
    exec i s = .next ((t.markIssued c).takeTrap x.key (mkTrap 0 x.e x.act 0 (Instr.word i).toNat)) :=
  exec_trap_of_ready (mg := none) _ hr hi (if_pos hnum)

/-- Settles O32. -/
theorem controlRegisters : Obligations.ControlRegisters := by
  intro s x c t h d a num b
  refine ⟨fun hr => ⟨fun hn => ?_, fun g hg n hn => ?_⟩, fun hr => ⟨fun hn => ⟨?_, ?_, ?_⟩, ?_, ?_, ?_⟩, fun hr => ?_, fun hr => ⟨?_, ?_, ?_, ?_⟩⟩
  · exact exec_trap_of_ready (mg := none) _ hr rfl (if_pos hn)
  · have hnum : (BitVec.ofNat 12 n).toNat = n := by rw [BitVec.toNat_ofNat]; omega
    rw [← csrValue_eq hg c hn]
    refine exec_done_of_ready (mg := none) _ hr rfl ?_
    simp only [hnum, if_neg (Nat.not_lt.mpr hn)]
    rfl
  · exact csrWrite_ill (f := fun _ v => v) hr hn rfl
  · exact csrWrite_ill (f := fun o v => o ||| v) hr hn rfl
  · exact csrWrite_ill (f := fun o v => o &&& ~~~v) hr hn rfl
  · exact csrWrite_puts (f := fun _ v => v) hr rfl
  · exact csrWrite_puts (f := fun o v => o ||| v) hr rfl
  · exact csrWrite_puts (f := fun o v => o &&& ~~~v) hr rfl
  · exact exec_jump_of_ready (mg := none) _ hr rfl rfl
  · exact exec_done_of_ready (mg := some _) _ hr rfl (by rfl)
  · exact exec_done_of_ready (mg := some _) _ hr rfl (by rfl)
  · exact exec_trap_of_ready (mg := some _) _ hr rfl (by rfl)
  · exact exec_trap_of_ready (mg := some _) _ hr rfl (by rfl)

end Sys2Proof.Machine
end

section
/-! SUPPORT. What a word of one part meets at issue (R29, R145, R151), check by check. -/

namespace Sys2Proof.Machine

section
variable {s : State} {i : Instr} {u : WUse} {stall size : Nat} {body : Body} {key e : Nat} {c0 : Crew}

theorem State.issue_of_board_held (h : c0.boardFree u = false) : s.issue i [u] stall size body key e c0 = s.tryLater key e := by
  simp only [State.issue, List.all_cons, List.all_nil, Bool.and_true, h, Bool.false_eq_true, if_false]

/-- A trap at issue, before the word's own effect. -/
theorem State.finish_trap_setCrew (c : Crew) (tr : Trap) :
    (s.setCrew key c).finish i key e size stall (.trap (s.setCrew key c) tr) = ((s.setCrew key c).markIssued c).takeTrap key tr := by
  simp only [State.finish, State.crew_setCrew, if_true]

/-- A word of one part on registers that are free, by what it meets: the window, DET, a source read too early, no active lane, a bad cell. -/
theorem State.issue_of_board_free {c : Crew} {s1 : State} {act : Mask} {det : Bool} (h : c0.boardFree u = true) (hc : c0.settle s.now = c)
    (hs1 : s.setCrew key c = s1) (hact : c.guard u.pred u.pn (c.split e).mask = act) (hdet : s.gangDet (keyGid key) = det) :
    s.issue i [u] stall size body key e c0 =
      if u.fits c.win = false then (s1.markIssued c).takeTrap key (mkTrap 0 e act 0 (Instr.word i).toNat)
      else if act = 0 then (s1.retire key e size stall).boundary key
      else if det = true ∧ u.det.isSome = true then (s1.markIssued c).takeTrap key (mkTrap 9 e act 0 (u.det.getD 0))
      else if (det = true ∨ c.status.getLsbD 9 = true) ∧ (c.shortRead e u).isSome = true then
        (s1.markIssued c).takeTrap key (mkTrap 4 e act 0 ((c.shortRead e u).getD 0))
      else if c.badLanes u act ≠ [] then
        (s1.markIssued c).takeTrap key (laneTrap 8 e ((c.badLanes u act).map (fun l => (l, 2 ^ 64 - 1, 0))) 0)
      else s1.finish i key e size stall (body { key := key, e := e, act := act, acts := [act], det := det } c s1) := by
  have hor : (0 : Mask) ||| act = act := BitVec.zero_or
  have htrap (tr : Trap) : s1.finish i key e size stall (.trap s1 tr) = (s1.markIssued c).takeTrap key tr := by
    rw [← hs1, State.finish_trap_setCrew]
  simp only [State.issue, List.all_cons, List.all_nil, Bool.and_true, h, if_true, List.map_cons, List.map_nil, List.foldl_cons, List.foldl_nil,
    List.zip_cons_cons, List.zip_nil_right, List.filter_cons, List.filter_nil, hc, hs1, hact, hdet, hor, htrap]
  cases hfits : u.fits c.win with
  | false => rfl
  | true =>
    by_cases h0 : act = 0
    · simp [h0, State.finish]
    · have hlive : (act != 0) = true := bne_iff_ne.mpr h0
      simp only [hlive, if_true, List.find?_singleton, List.flatMap_singleton, h0, if_false, Bool.not_true, Bool.false_eq_true]
      by_cases hd : det = true ∧ u.det.isSome = true
      · simp [hd]
      · by_cases hr : (det = true ∨ c.status.getLsbD 9 = true) ∧ (c.shortRead e u).isSome = true
        · grind
        · grind

end

/-- What the word `i` of the one part `u` meets before its own effect, in `s` where the crew `key`, whose state is `c0`, issues it from its split `e`. -/
def MeetsChecks (s : State) (key e : Nat) (c0 : Crew) (i : Instr) (u : WUse) (h : Hdr) : Prop :=
  let c := c0.settle s.now
  let t := s.setCrew key c
  let act := c.guard u.pred u.pn (c.split e).mask
  let det := s.gangDet (keyGid key)
  let traps (tr : Trap) : Prop := exec i s = .next ((t.markIssued c).takeTrap key tr)
  (c0.boardFree u = false → exec i s = .next (s.tryLater key e)) ∧
  (c0.boardFree u = true →
    (u.fits c.win = false → traps (mkTrap 0 e act 0 (Instr.word i).toNat)) ∧
    (u.fits c.win = true →
      (act = 0 → exec i s = .next ((t.retire key e 8 h.stall.toNat).boundary key)) ∧
      (act ≠ 0 →
        (∀ n, det = true → u.det = some n → traps (mkTrap 9 e act 0 n)) ∧
        (∀ r, (det = true ∧ u.det = none ∨ det = false ∧ c.status.getLsbD 9 = true) → c.shortRead e u = some r → traps (mkTrap 4 e act 0 r)) ∧
        (det = false → c.status.getLsbD 9 = false → c.badLanes u act ≠ [] →
          traps (laneTrap 8 e ((c.badLanes u act).map (fun l => (l, 2 ^ 64 - 1, 0))) 0)))))

/-- A word whose meaning is `fullWord` of one part meets the checks of that part in their order. -/
theorem meetsChecks_of_fullWord {s : State} {key e : Nat} {c0 : Crew} {u : WUse} {h : Hdr} {body : Body} {mg : Option MBody} (i : Instr)
    (hcur : s.cur = .crew key e) (hc : s.crew key = some c0) (hi : exec i s = fullWord i h u 8 body mg s) :
    MeetsChecks s key e c0 i u h := by
  have hissue : exec i s = .next (s.issue i [u] h.stall.toNat 8 body key e c0) := by
    rw [hi, fullWord, hcur]
    simp only [hc]
  refine ⟨fun hb => ?_, fun hb => ?_⟩
  · rw [hissue, State.issue_of_board_held hb]
  · rw [State.issue_of_board_free hb rfl rfl rfl rfl] at hissue
    refine ⟨fun hf => ?_, fun hf => ⟨fun h0 => ?_, fun h0 => ⟨fun n hd hn => ?_, fun r hdr hr => ?_, fun hd h9 hbad => ?_⟩⟩⟩
    · rw [hissue, if_pos hf]
    · rw [hissue, if_neg (by simp [hf]), if_pos h0]
    · rw [hissue, if_neg (by simp [hf]), if_neg h0, if_pos (by simp [hd, hn]), hn]
      rfl
    · rw [hissue, if_neg (by simp [hf]), if_neg h0, if_neg (by rintro ⟨hd, hn⟩; simp_all), if_pos (by rw [hr]; exact ⟨by tauto, rfl⟩), hr]
      rfl
    · rw [hissue, if_neg (by simp [hf]), if_neg h0, if_neg (by simp [hd]), if_neg (by rw [hd, h9]; simp), if_pos hbad]

/-- Settles O53. -/
theorem checksAtIssue : Obligations.ChecksAtIssue := by
  intro s key e c0 o f m line fl h k d a hcur hc p hp
  change MeetsChecks s key e c0 p.1 p.2.1 p.2.2
  simp only [List.mem_cons, List.not_mem_nil, or_false] at hp
  rcases hp with rfl | rfl | rfl | rfl | rfl | rfl
  · exact meetsChecks_of_fullWord (mg := if o.sc then some _ else none) _ hcur hc rfl
  · exact meetsChecks_of_fullWord (mg := none) _ hcur hc rfl
  · exact meetsChecks_of_fullWord (mg := none) _ hcur hc rfl
  · exact meetsChecks_of_fullWord (mg := none) _ hcur hc rfl
  · exact meetsChecks_of_fullWord (mg := some _) _ hcur hc rfl
  · exact meetsChecks_of_fullWord (mg := none) _ hcur hc rfl

end Sys2Proof.Machine
end

section
/-! SUPPORT. The frame of a word whose results go to registers (R29, R143, R144): the one crew that a retired word changes, and its core's issue record. -/

namespace Sys2Proof.Machine

/-- A word that retires leaves its crew retired and marks its pipe's issue; everything else is as its effect left it. -/
theorem Ctx.retires_eq {x : Ctx} {v : State} {d : Crew} (hd : v.crew x.key = some d) (hp : d.pumpFault = none) (size stall : Nat) :
    x.retires size stall v = (v.setCrew x.key (d.retire x.e v.now size stall)).markIssued d := by
  have hcrew : (v.retire x.key x.e size stall).crew x.key = some (d.retire x.e v.now size stall) := by
    rw [State.crew_retire hd, if_pos rfl]
  rw [Ctx.retires, State.boundary_of_no_fault hcrew hp, State.retire, hd]

theorem State.core_markIssued_ne (s : State) (c : Crew) {k : Nat} (h : k ≠ c.core) : (s.markIssued c).core k = s.core k := by
  simp only [State.markIssued, State.updCore, State.core, State.setCore, Tab.getD_set, if_neg h]

theorem State.core_markIssued_self (s : State) (c : Crew) :
    { (s.markIssued c).core c.core with issuedAt := (s.core c.core).issuedAt } = s.core c.core := by
  simp only [State.markIssued, State.updCore, State.core, State.setCore, Tab.getD_set, if_true]

/-- What a word that retires leaves, of a crew `c` in `s` whose results and flags are those of `c1`. -/
def RetireFrame (s : State) (x : Ctx) (c : Crew) (size stall : Nat) (u : State) (c1 : Crew) : Prop :=
  { u with crews := s.crews, cores := s.cores } = s ∧ u.mem = s.mem ∧
  (∀ k, k ≠ x.key → u.crew k = s.crew k) ∧ (∀ k, k ≠ c.core → u.core k = s.core k) ∧
  { u.core c.core with issuedAt := (s.core c.core).issuedAt } = s.core c.core ∧
  ∃ d, u.crew x.key = some d ∧
    { d with splits := c.splits, fix := c.fix, pend := c.pend, seq := c.seq, status := c.status, walks := c.walks } = c ∧
    d.fix = c1.fix ∧ d.pend = c1.pend ∧ d.walks = [] ∧ d.status = c1.status ∧
    d.split x.e = { (c.split x.e).after s.now stall with pc := (c.split x.e).pc + size } ∧ (∀ k, k ≠ x.e → d.split k = c.split k)

/-- A crew that differs from `c` in its results, their number and its status alone retires in that frame. -/
theorem retireFrame_of_results {s : State} {us : List WUse} {x : Ctx} {c c1 : Crew} {t v : State} (size stall : Nat) (h : s.ready us = some (x, c, t))
    (hc1 : { c1 with fix := c.fix, pend := c.pend, seq := c.seq, status := c.status } = c) (hv : v.crew x.key = some c1)
    (hcrews : ∀ k, k ≠ x.key → v.crew k = s.crew k) (hcores : v.cores = s.cores)
    (hs : { v with crews := s.crews, cores := s.cores } = s) :
    RetireFrame s x c size stall (x.retires size stall v) c1 := by
  obtain ⟨hmask, hpump⟩ := State.ready_mask h
  have hsplits : c1.splits = c.splits := by rw [← hc1]
  have hp1 : c1.pumpFault = none := by rw [← hpump, ← hc1]
  have hcore1 : c1.core = c.core := by rw [← hc1]
  have hnow : v.now = s.now := by rw [← hs]
  have hmem : v.mem = s.mem := by rw [← hs]
  have hcore (k : Nat) : v.core k = s.core k := by unfold State.core; rw [hcores]
  have hsplit (k : Nat) : c1.split k = c.split k := by unfold Crew.split; rw [hsplits]
  have hlen : x.e < c1.splits.length := by rw [hsplits]; exact Crew.split_of_mask hmask
  rw [Ctx.retires_eq hv hp1]
  refine ⟨?_, hmem, fun k hk => ?_, fun k hk => ?_, ?_, c1.retire x.e v.now size stall, ?_, ?_, rfl, rfl, rfl, rfl, ?_, fun k hk => ?_⟩
  · exact hs
  · rw [State.crew, State.markIssued_crews, ← State.crew, State.crew_setCrew, if_neg hk, hcrews k hk]
  · rw [State.core_markIssued_ne _ _ (hcore1 ▸ hk)]
    exact hcore k
  · rw [← hcore1]
    have hself := State.core_markIssued_self (v.setCrew x.key (c1.retire x.e v.now size stall)) c1
    rw [show (v.setCrew x.key (c1.retire x.e v.now size stall)).core c1.core = s.core c1.core from hcore _] at hself
    exact hself
  · rw [State.crew, State.markIssued_crews, ← State.crew, State.crew_setCrew, if_pos rfl]
  · rw [← hc1]; rfl
  · rw [← hnow, ← hsplit]
    show (c1.setSplit x.e _).split x.e = _
    rw [Crew.split_setSplit, if_pos ⟨rfl, hlen⟩]
  · rw [← hsplit]
    show (c1.setSplit x.e _).split k = _
    rw [Crew.split_setSplit, if_neg (fun hk' => hk hk'.1)]

/-- Settles O54. -/
theorem registerWordsFrame : Obligations.RegisterWordsFrame := by
  intro s us x c t size stall lat ws fl h
  obtain ⟨c0, -, -, -, rfl, -⟩ := State.ready_issue h
  have hcrew : (s.setCrew x.key c).crew x.key = some c := State.crew_of_ready h
  have hcrews (k : Nat) (hk : k ≠ x.key) : (s.setCrew x.key c).crew k = s.crew k := by rw [State.crew_setCrew, if_neg hk]
  have hset (d : Crew) (k : Nat) (hk : k ≠ x.key) : ((s.setCrew x.key c).setCrew x.key d).crew k = s.crew k := by
    rw [State.crew_setCrew, if_neg hk, hcrews k hk]
  refine ⟨?_, ?_, ?_, rfl, rfl, fun n => ?_⟩
  · exact retireFrame_of_results size stall h rfl (by rw [Ctx.fixes, State.crew_setCrew, if_pos rfl]) (hset _) rfl rfl
  · exact retireFrame_of_results size stall h rfl (by rw [Ctx.pends, State.crew_setCrew, if_pos rfl]) (hset _) rfl rfl
  · exact retireFrame_of_results size stall h rfl hcrew hcrews rfl rfl
  · rw [Crew.orFlags, BitVec.getLsbD_or]
    by_cases hn : n < 5
    · simp [hn, show n < 64 by omega]
    · simp [hn, BitVec.getLsbD_of_ge fl n (by omega)]

end Sys2Proof.Machine
end

section
/-! SUPPORT. The step runs what its unit fetches (R29, R130, R146, R248, R249, R253). -/

namespace Sys2Proof.Machine

/-- The unit that walks as `ag` finds at `pc` the bytes of `i`, or of no instruction where `i` is the illegal word (R130, R146). -/
def FindsWord (u : State) (ag : Agent) (asid pc : Nat) (ws : List WalkFail) (i : Instr) : Prop :=
  ∃ pa bs, pc < 2 ^ 57 ∧ u.xlate ag asid pc 3 ws = .ok pa ∧ u.codeBytes pa 8 = some bs ∧
    let w := BitVec.ofNat 64 (leVal bs)
    if isMovl w then ∃ pa2 lit, pc + 8 < 2 ^ 57 ∧ u.xlate ag asid (pc + 8) 3 ws = .ok pa2 ∧ u.codeBytes pa2 8 = some lit ∧
      ((∃ r, decode (bs ++ lit) = .ok (i, r)) ∨ (∃ r, decode (bs ++ lit) = .error r) ∧ i = .illegalEncoding w)
    else (∃ r, decode bs = .ok (i, r)) ∨ (∃ r, decode bs = .error r) ∧ i = .illegalEncoding w

section
variable {u : State} {ag : Agent} {asid pc : Nat} {ws : List WalkFail} {i : Instr}

theorem State.fetchWord_of_bytes {pa : Nat} {bs : List Byte} (who : Waiter) (tail : Bool) (hpc : pc < 2 ^ 57) (hx : u.xlate ag asid pc 3 ws = .ok pa)
    (hb : u.codeBytes pa 8 = some bs) : u.fetchWord ag who asid pc ws tail = .inr bs := by
  simp only [State.fetchWord, if_neg (Nat.not_le.mpr hpc), hx, hb]

theorem State.fetch_of_findsWord (who : Waiter) (h : FindsWord u ag asid pc ws i) : u.fetch ag who asid pc ws = .word i := by
  obtain ⟨pa, bs, hpc, hx, hb, hw⟩ := h
  dsimp only at hw
  simp only [State.fetch, State.fetchWord_of_bytes who false hpc hx hb]
  split at hw
  · rename_i hm
    obtain ⟨pa2, lit, hpc2, hx2, hb2, ⟨r, hd⟩ | ⟨⟨r, hd⟩, rfl⟩⟩ := hw <;>
      simp only [hm, if_true, State.fetchWord_of_bytes who true hpc2 hx2 hb2, hd]
  · rename_i hm
    obtain ⟨r, hd⟩ | ⟨⟨r, hd⟩, rfl⟩ := hw <;> simp only [hm, Bool.false_eq_true, if_false, List.append_nil, hd]

end

section
variable {s : State} {i : Instr}

theorem State.pipeMove_of_findsWord {core pipe : Nat} {cand : Cand} {cr : Crew} {s1 : State} (hissued : (s.core core).issuedAt.getD pipe none ≠ some s.now)
    (hheld : (s.core core).withheld s.now = false) (hpick : (s.pick core pipe).2 = some cand)
    (hs1 : { (s.pick core pipe).1 with cur := .crew cand.key cand.e } = s1) (hcrew : s1.crew cand.key = some cr)
    (hw : FindsWord s1 (.core core) (s1.gangAsid (keyGid cand.key)) (cr.split cand.e).pc cr.walks i) :
    s.pipeMove core pipe = .exec i (s1.startGang (keyGid cand.key)) := by
  have hnot : ¬ (decide ((s.core core).issuedAt.getD pipe none = some s.now) || (s.core core).withheld s.now) = true := by
    rw [hheld, Bool.or_false, decide_eq_true_iff]
    exact hissued
  simp only [State.pipeMove, hnot, hpick, hs1, hcrew, State.fetch_of_findsWord _ hw]
  rfl

theorem State.mgmtMove_of_findsWord {k : Nat} (hcrew : (s.mgmt k).crew ≠ none) (hwait : (s.mgmt k).wait = .none) (hnext : (s.mgmt k).nextIssue ≤ s.now)
    (hw : FindsWord { s with cur := .mgmt k } (.mgmt k) (s.mgmtAsid k) (s.mgmt k).pc (s.mgmt k).walks i) :
    s.mgmtMove k = .exec i { s with cur := .mgmt k } := by
  have hnot : ¬ ((s.mgmt k).crew.isNone || (s.mgmt k).wait != .none || decide (s.now < (s.mgmt k).nextIssue)) = true := by
    simp [hcrew, hwait, hnext]
  simp only [State.mgmtMove, hnot, State.fetch_of_findsWord _ hw]
  rfl

theorem State.pumpMove_of_findsWord {gid : Nat} {g : Gang} {p : Pump} (hg : s.gang gid = some g) (hp : g.pump = some p) (hhalt : p.halted = false)
    (hstop : p.stopped = false) (hwait : p.wait = .none) (hissued : g.issued = true) (hgs : g.stop = false) (htried : p.tried ≠ some s.now)
    (hw : FindsWord { s with cur := .pump gid } (.core g.core) (s.gangAsid gid) p.pc p.walks i) :
    s.pumpMove gid = .exec i { s with cur := .pump gid } := by
  have hnot : ¬ (p.halted || p.stopped || p.wait != .none || !g.issued || g.stop || p.tried == some s.now) = true := by
    simp [hhalt, hstop, hwait, hissued, hgs, htried]
  simp only [State.pumpMove, hg, hp, hnot, State.fetch_of_findsWord _ hw]
  rfl

end

/-- Settles O55. -/
theorem stepRunsDecoded : Obligations.StepRunsDecoded := by
  refine ⟨fun s rest hp => ⟨?_, ?_, ?_, ?_, fun t => rfl⟩, fun s rest n => ⟨fun ha => ?_, fun ha hp => ?_, fun m ha hp hm => ?_⟩⟩
  · intro core pipe cand cr i ha hissued hheld hpick u hcrew hw
    simp only [step, State.nextMove, ha, hp, Bool.false_and, Bool.false_eq_true, if_false,
      State.pipeMove_of_findsWord (s := { s with agenda := rest }) hissued hheld hpick rfl hcrew hw]
    rfl
  · intro k i ha hcrew hwait hnext u hw
    simp only [step, State.nextMove, ha, hp, Bool.false_and, Bool.false_eq_true, if_false,
      State.mgmtMove_of_findsWord (s := { s with agenda := rest }) hcrew hwait hnext hw]
    rfl
  · intro gid g p i ha hg hpu hhalt hstop hwait hissued hgs htried u hw
    simp only [step, State.nextMove, ha, hp, Bool.false_and, Bool.false_eq_true, if_false,
      State.pumpMove_of_findsWord (s := { s with agenda := rest }) hg hpu hhalt hstop hwait hissued hgs htried hw]
    rfl
  · intro i ha
    simp only [step, State.nextMove, ha, hp, Bool.false_and, Bool.false_eq_true, if_false]
  · simp only [step, State.nextMove, ha]
  · simp only [step, State.nextMove, ha, hp, Bool.false_and, Bool.false_eq_true, if_false]
  · simp only [step, State.nextMove, ha, hp, hm, Bool.not_false, Bool.and_self, if_true]

end Sys2Proof.Machine
end

section
/-! SUPPORT. Words written out from the encoding tables (R130 to R134, R148). -/

namespace Sys2Proof.Machine

/-- Settles O57: the eleven words are decoded one by one. -/
theorem decodesSpecWords : Obligations.DecodesSpecWords := by
  refine ⟨?_, ?_, ?_, ?_, ?_, ?_, ?_, ?_, ?_, ?_, ?_⟩ <;> decide +kernel

end Sys2Proof.Machine
end

section
/-! SUPPORT. Control words (R22 to R27, R139, R140, R172 to R179): divisions and joins, the window, the ends of lanes, and records that move
between the chip and the spill area. -/

namespace Sys2Proof.Machine

/-! ## Words that reshape their crew's splits -/

section
variable {s : State} {u : WUse} {x : Ctx} {c : Crew} {t : State} {h : Hdr} {body : Body} {mg : Option MBody}

/-- A word whose body leaves its crew's splits and records, with the entries that go on. -/
theorem reshapes_of_ready {r : Crew × List Nat} (i : Instr) (hr : s.ready [u] = some (x, c, t)) (hi : exec i s = fullWord i h u 8 body mg s)
    (hb : body x c t = reshaped x c t r.1 (fun s1 => .jump s1 r.2)) : Reshapes i s x c t h.stall.toNat r := by
  refine ⟨fun hstay => ?_, fun hstay hsp hfit => ?_, fun hstay u hu => ?_⟩
  · exact exec_jump_of_ready i hr hi (by rw [hb, reshaped, if_pos hstay])
  · have hfull : (!(Crew.spillsOf r.1).2.isEmpty && !(Crew.spillsOf r.1).1.spillFits) = true := by
      simp [hsp, hfit]
    exact exec_trap_of_ready i hr hi (by rw [hb, reshaped, if_neg (by simp [hstay]), recMoves, if_pos hfull])
  · exact exec_jump_of_ready i hr hi (by rw [hb, reshaped, if_neg (by simp [hstay]), hu])

end

/-! ## Records that move (R21, R23) -/

/-- A body's answer that goes on nowhere: a trap, a wait, or a later cycle. -/
def Act.stops : Act → Bool
  | .trap .. | .wait .. | .blocked .. => true
  | _ => false

/-- The checks of a spill or fill go on to `f` with what they found, or stop whatever follows. -/
theorem spillRows_cases (x : Ctx) (c : Crew) (s : State) (kind : Nat) (rows : List (Nat × List (Nat × Nat)))
    (tr : Nat → List (Nat × Nat × Nat) → Nat → Trap) :
    (∃ ls, ∀ f, spillRows x c s kind rows tr f = f ls) ∨ ∃ a, a.stops = true ∧ ∀ f, spillRows x c s kind rows tr f = a := by
  unfold spillRows
  generalize hr : List.foldl _ _ rows = r
  have hstop : ∀ a : Act, r = .error a → a.stops = true := by
    rw [← hr]
    refine List.foldlRecOn (motive := fun acc => ∀ a : Act, acc = Except.error a → a.stops = true) rows _ (fun a ha => by cases ha)
      (fun acc hacc row _ a ha => ?_)
    split at ha
    · exact hacc a (ha ▸ rfl)
    · split at ha <;> cases ha <;> rfl
  cases r with
  | error a => exact .inr ⟨a, hstop a rfl, fun _ => rfl⟩
  | ok ls => exact .inl ⟨ls, fun _ => rfl⟩

/-- Words stored in the spill area: the body goes on in the state with them, or in a later cycle. -/
theorem spillWords_cases (x : Ctx) (c : Crew) (s : State) (ws : List (Loc × Nat)) :
    (∃ s1, ∀ f, spillWords x c s ws f = f s1) ∨ ∃ a, a.stops = true ∧ ∀ f, spillWords x c s ws f = a := by
  unfold spillWords
  dsimp only
  split
  · exact .inl ⟨_, fun _ => rfl⟩
  · split
    · exact .inl ⟨_, fun _ => rfl⟩
    · exact .inr ⟨_, rfl, fun _ => rfl⟩

/-- Records that move go on to `f`, or stop whatever follows. -/
theorem recMoves_cases (x : Ctx) (c : Crew) (s : State) (after : Crew) :
    (∃ s1 rs, ∀ f, recMoves x c s after f = f s1 rs) ∨ ∃ a, a.stops = true ∧ ∀ f, recMoves x c s after f = a := by
  unfold recMoves
  dsimp only
  split
  · exact .inr ⟨_, rfl, fun _ => rfl⟩
  · rcases spillRows_cases x c s 0 (after.fillsOf.map (fun p => (p.1, c.recEas p.2))) (recTrap x) with ⟨rows, hrows⟩ | ⟨a, ha, hrows⟩
    · simp only [hrows]
      generalize State.load _ _ _ _ _ _ _ _ _ _ _ = ld
      cases ld with
      | later s1 => exact .inr ⟨_, rfl, fun _ => rfl⟩
      | poison s1 bad => exact .inr ⟨_, rfl, fun _ => rfl⟩
      | bytes s1 bs =>
        dsimp only
        rcases spillRows_cases x c s1 1 (after.spillsOf.2.map (fun p => (p.1, c.recEas p.2))) (recTrap x) with ⟨ls, hls⟩ | ⟨a, ha, hls⟩
        · simp only [hls]
          rcases spillWords_cases x c s1 (ls.flatMap (fun r => r.2.map (fun l => (l.2, (after.rcd r.1).val / 2 ^ (32 * l.1) % 2 ^ 32)))) with
            ⟨s2, hs2⟩ | ⟨a, ha, hs2⟩
          · exact .inl ⟨s2, _, fun f => hs2 _⟩
          · exact .inr ⟨a, ha, fun f => hs2 _⟩
        · exact .inr ⟨a, ha, fun f => hls _⟩
    · exact .inr ⟨a, ha, fun f => hrows _⟩

/-- Records that move so that one body jumps: any other body goes on from the same state with the same records. -/
theorem recMoves_of_jump {x : Ctx} {c : Crew} {s v : State} {after : Crew} {es : List Nat} {k : State → List (Nat × Rec) → State}
    (h : recMoves x c s after (fun s1 rs => .jump (k s1 rs) []) = .jump v es) (g : State → Act) :
    recMoves x c s after (fun s1 rs => g (k s1 rs)) = g v := by
  rcases recMoves_cases x c s after with ⟨s1, rs, hf⟩ | ⟨a, ha, hf⟩
  · rw [hf] at h ⊢
    simp only [Act.jump.injEq] at h
    rw [h.1]
  · rw [hf] at h
    subst h
    cases ha

/-! ## Branches -/

theorem Crew.freeEntry_lt {c : Crew} {f : Nat} (h : c.freeEntry = some f) : f < 4 ∧ (c.split f).mask = 0 := by
  unfold Crew.freeEntry at h
  have hm := List.mem_of_find?_eq_some h
  have hp := List.find?_some h
  exact ⟨List.mem_range.mp hm, by simpa using hp⟩

/-- The record of a division (R24): the split's lanes under its old top. -/
def Split.divRec (sp : Split) : Rec :=
  { mask := sp.mask, pend := 0, pendPC := 0, park := 0, parkPC := 0, parkE := none, parent := sp.top, slot := none }

/-- A division with a free entry: both splits stand on the new record. -/
theorem Crew.divide2_eq {c : Crew} {e f : Nat} (target : Nat) (go : Mask) (hf : c.freeEntry = some f) :
    c.divide2 e target go = (((c.newRec (c.split e).divRec).1.goTo e ((c.split e).pc + 8) ((c.split e).mask &&& ~~~go) (some c.seq)).place f
      target go (some c.seq), [e, f]) := by
  simp only [Crew.divide2, hf]
  rfl

theorem Crew.split_divide2 {c : Crew} {e f : Nat} (target : Nat) (go : Mask) (hf : c.freeEntry = some f) (he : e < c.splits.length)
    (hfl : f < c.splits.length) (k : Nat) : (c.divide2 e target go).1.split k =
      if k = f then Split.free.run target go (some c.seq)
      else if k = e then (c.split e).run ((c.split e).pc + 8) ((c.split e).mask &&& ~~~go) (some c.seq) else c.split k := by
  have hsplits (k : Nat) : (c.newRec (c.split e).divRec).1.split k = c.split k := rfl
  have hlen : (c.newRec (c.split e).divRec).1.splits.length = c.splits.length := rfl
  rw [Crew.divide2_eq target go hf]
  simp only [Crew.place, Crew.goTo, Crew.split_setSplit, hsplits]
  simp only [Crew.setSplit, List.length_set, hlen, he, hfl, and_true]

/-- R22, R24: a division by `bra` with a free entry: the lanes that stay, those that go, and the record of both. -/
theorem Crew.divide2_of_free {c : Crew} {e f : Nat} (target : Nat) (go : Mask) (hlen : c.splits.length = 4) (he : e < 4) (hf : c.freeEntry = some f)
    (hmask : (c.split e).mask ≠ 0) :
    let sp := c.split e
    let r := c.divide2 e target go
    f < 4 ∧ f ≠ e ∧ r.2 = [e, f] ∧
    (r.1.split e).pc = sp.pc + 8 ∧ (r.1.split e).mask = sp.mask &&& ~~~go ∧
    (r.1.split f).pc = target ∧ (r.1.split f).mask = go ∧
    (∃ n, (r.1.split e).top = some n ∧ (r.1.split f).top = some n ∧
      ∃ v, Tab.get r.1.recs n = some v ∧ v.mask = sp.mask ∧ v.pend = 0 ∧ v.park = 0 ∧ v.parent = sp.top) ∧
    (∀ k, k ≠ e → k ≠ f → r.1.split k = c.split k) := by
  intro sp r
  obtain ⟨hf4, hfm⟩ := Crew.freeEntry_lt hf
  have hne : e ≠ f := fun h => hmask (h ▸ hfm)
  have hsplit := Crew.split_divide2 (c := c) target go hf (hlen ▸ he) (hlen ▸ hf4)
  have hrec : Tab.get r.1.recs c.seq = some sp.divRec := by
    simp only [r, Crew.divide2_eq target go hf, Crew.place, Crew.goTo, Crew.setSplit, Crew.newRec, Tab.get_set, if_true, sp]
  refine ⟨hf4, hne.symm, by simp only [r, Crew.divide2_eq target go hf], ?_, ?_, ?_, ?_, ⟨c.seq, ?_, ?_, sp.divRec, hrec, rfl, rfl, rfl, rfl⟩,
    fun k hke hkf => by rw [hsplit, if_neg hkf, if_neg hke]⟩
  · rw [hsplit, if_neg hne, if_pos rfl]; rfl
  · rw [hsplit, if_neg hne, if_pos rfl]; rfl
  · rw [hsplit, if_pos rfl]; rfl
  · rw [hsplit, if_pos rfl]; rfl
  · rw [hsplit, if_neg hne, if_pos rfl]; rfl
  · rw [hsplit, if_pos rfl]; rfl

/-! ## Joins -/

/-- The splits that wait at a record's `join`, and the lanes parked there (R26). -/
def Crew.heldAt (c : Crew) (r : Nat) (park : Mask) : Mask :=
  ((List.range 4).filter (c.joined r)).foldl (fun m e => m ||| (c.split e).mask) park

/-- A record with live lanes elsewhere is not resolved. -/
theorem Crew.resolve_of_elsewhere {c : Crew} {r : Nat} {v : Rec} (hv : Tab.get c.recs r = some v) (hm : v.mask ≠ 0)
    (hheld : c.heldAt r v.park &&& v.mask ≠ v.mask) : c.resolve r = c := by
  unfold Crew.heldAt at hheld
  simp only [Crew.resolve, hv]
  rw [if_neg (by simp only [Bool.and_eq_true, decide_eq_true_eq]; exact fun h => hm h.1), if_pos hheld]

/-- The crew whose split waits at its `join`. -/
def Crew.waitJoin (c : Crew) (e : Nat) : Crew := c.setSplit e { c.split e with wait := .join }

/-- The split and those that wait with it at the join wait there. -/
theorem Crew.wait_waitJoin {c : Crew} {e f r : Nat} (he : e < c.splits.length) (hf : f = e ∨ c.joined r f = true) :
    ((c.waitJoin e).split f).wait = .join := by
  rw [Crew.waitJoin, Crew.split_setSplit]
  by_cases hfe : f = e
  · simp [hfe, he]
  · have hj := hf.resolve_left hfe
    simp only [Crew.joined, Bool.and_eq_true, beq_iff_eq] at hj
    simp [hfe, hj.2]

theorem Crew.join_eq_resolve {c : Crew} {e r : Nat} {v : Rec} (htop : (c.split e).top = some r) (hv : Tab.get c.recs r = some v)
    (hpend : v.pend = 0) (hm : v.mask &&& ~~~(c.split e).mask ≠ 0) : c.join e = ((c.waitJoin e).resolve r,
      (e :: (List.range 4).filter (fun f => c.joined r f)).filter (fun f => (((c.waitJoin e).resolve r).split f).mask != 0 &&
        (((c.waitJoin e).resolve r).split f).wait != .join)) := by
  have hrcd : c.rcd r = v := by simp only [Crew.rcd, Tab.getD, hv]; rfl
  unfold Crew.join
  dsimp only
  split
  · rename_i hnone
    rw [hnone] at htop
    cases htop
  · rename_i r' hr'
    obtain rfl : r = r' := Option.some.inj (htop.symm.trans hr')
    rw [hrcd, if_neg (by rw [hpend]; simp), if_neg hm]
    rfl

/-- R26: a split that waits at the join of a record whose lanes are elsewhere; no split goes on. -/
theorem Crew.join_waits {c : Crew} {e r : Nat} {v : Rec} (he : e < c.splits.length) (htop : (c.split e).top = some r)
    (hv : Tab.get c.recs r = some v) (hpend : v.pend = 0) (hm : v.mask &&& ~~~(c.split e).mask ≠ 0)
    (hheld : (c.waitJoin e).heldAt r v.park &&& v.mask ≠ v.mask) : c.join e = (c.waitJoin e, []) := by
  have hmask : v.mask ≠ 0 := fun h => hm (by rw [h]; exact BitVec.zero_and)
  have hres : (c.waitJoin e).resolve r = c.waitJoin e := Crew.resolve_of_elsewhere (v := v) hv hmask hheld
  rw [Crew.join_eq_resolve htop hv hpend hm, hres, Prod.mk.injEq, List.filter_eq_nil_iff]
  refine ⟨rfl, fun f hf => ?_⟩
  have hfe : f = e ∨ c.joined r f = true := (List.mem_cons.mp hf).imp_right (fun h => (List.mem_filter.mp h).2)
  simp [Crew.wait_waitJoin he hfe]

/-- A `join` that leaves its split to go on reshapes the crew. -/
theorem join_reshapes {s : State} {x : Ctx} {c c1 : Crew} {t : State} {h : Hdr} (hr : s.ready [Hdr.use h [] []] = some (x, c, t))
    (hj : c.join x.e = (c1, [x.e])) : Reshapes (.join h) s x c t h.stall.toNat (c1, [x.e]) :=
  reshapes_of_ready (mg := none) _ hr rfl (by simp only [hj]; rfl)

/-- Settles O11. -/
theorem branches : Obligations.Branches := by
  refine ⟨fun s x c t h off a => ⟨fun hr => ⟨fun hw => ?_, fun hm ht => ?_⟩, fun hr => ⟨fun hbad => ?_, fun hgood => ⟨fun g hg => ?_, fun hg => ?_⟩⟩⟩,
    fun c e f target go hlen he hf hmask => Crew.divide2_of_free target go hlen he hf hmask,
    fun s x c t h hr => ⟨fun htop => ?_, fun r htop => ⟨fun hpend hm => ?_, fun hpend => ?_, fun hv hpend hm hheld hstay => ?_⟩⟩⟩
  · exact exec_jump_of_ready (mg := some _) _ hr rfl (if_pos (by rw [Bool.or_eq_true, decide_eq_true_iff, decide_eq_true_iff]; exact hw))
  · exact reshapes_of_ready (mg := some _) _ hr rfl
      (if_neg (by rw [Bool.or_eq_true, decide_eq_true_iff, decide_eq_true_iff]; exact not_or.mpr ⟨hm, ht⟩))
  · refine exec_trap_of_ready (mg := none) _ hr rfl (if_pos ?_)
    simpa using hbad
  · refine exec_jump_of_ready (mg := none) _ hr rfl ((if_neg ?_).trans ?_)
    · simpa using hgood
    · rw [hg]; rfl
  · refine reshapes_of_ready (mg := none) _ hr rfl ((if_neg ?_).trans ?_)
    · simpa using hgood
    · generalize groupsOf _ = gs at hg ⊢
      rcases gs with _ | ⟨g1, _ | ⟨g2, gs⟩⟩
      · simp at hg
      · simp at hg
      · rfl
  · exact join_reshapes hr (by simp only [Crew.join, htop])
  · exact join_reshapes hr (by simp only [Crew.join, htop, hpend, hm, ne_eq, not_true, if_false, if_true])
  · exact join_reshapes hr (by simp only [Crew.join, htop, if_pos hpend])
  · have hlen := Crew.split_of_mask (State.ready_mask hr).1
    refine exec_jump_of_ready (mg := none) _ hr rfl ?_
    rw [Crew.join_waits hlen htop hv hpend hm hheld, reshaped]
    exact (if_pos hstay).trans rfl

end Sys2Proof.Machine
end

section
/-! SUPPORT. The register window (R139, R140, R174), and the ends of lanes (R27, R175, R176, R179). -/

namespace Sys2Proof.Machine

/-! ## The window -/

theorem Cells.get_filter_key {w : Nat} (p : Nat → Bool) (m : Cells w) (a : Nat) :
    Cells.get (m.filter (fun e => p e.1)) a = if p a then Cells.get m a else 0 := by
  induction m with
  | nil => simp
  | cons e es ih =>
    obtain ⟨k, v⟩ := e
    rw [List.filter_cons]
    by_cases hk : k = a
    · subst hk
      cases hp : p k <;> simp [Cells.get, hp, ih]
    · cases hp : p k <;> simp [Cells.get, hk, ih]

theorem Cells.get_clear {w : Nat} (m : Cells w) (lo hi a : Nat) :
    Cells.get (Cells.clear m lo hi) a = if lo ≤ a ∧ a < hi then 0 else Cells.get m a := by
  rw [Cells.clear, Cells.get_filter_key (fun k => decide (k < lo) || decide (hi ≤ k))]
  by_cases h : lo ≤ a ∧ a < hi
  · rw [if_pos h, if_neg (by simp; omega)]
  · rw [if_neg h, if_pos (by simp; omega)]

/-- R139, R140: a register of the window moved up is the old one F further, or reads 0. -/
theorem Crew.rv_slide (c : Crew) (f : Nat) {n lane : Nat} (hl : lane < 32) (hn : n < c.win) :
    (c.slide f c.lo).rv n lane = if n + f < c.win then c.rv (n + f) lane else 0 := by
  have hidx : (c.slide f c.lo).rv n lane = (Cells.get (c.slide f c.lo).vr ((c.wb + f + n) * 32 + lane)).toNat := rfl
  have hold : c.rv (n + f) lane = (Cells.get c.vr ((c.wb + f + n) * 32 + lane)).toNat := by
    simp only [Crew.rv, Crew.logical]
    congr 2
    omega
  rw [hidx, hold]
  simp only [Crew.slide, Cells.get_clear]
  by_cases h : n + f < c.win
  · rw [if_pos h, if_neg (by omega), if_neg (by omega)]
  · rw [if_neg h, if_pos (by omega)]
    rfl

/-- A `call` of every live lane that spills nothing (R140, R174). -/
theorem callWord_unspilled {x : Ctx} {c : Crew} {f target : Nat} (t : State) (i : Instr) (hmask : (c.split x.e).mask = c.live) (hd : c.drained = true)
    (hlo : c.callLo f = c.lo) (htarget : target % 8 = 0) :
    callWord x c t i f target = .jump (t.updCrew x.key (fun v =>
      ((v.setS 62 ((c.split x.e).pc + 8)).slide f c.lo).updSplit x.e (fun p => { p with pc := target }))) [x.e] := by
  simp only [callWord, hmask, hd, hlo, htarget, ne_eq, not_true, if_false, Bool.not_true, Bool.false_eq_true, decide_false, Bool.false_and,
    spillChecked, spillRows, Nat.sub_self, List.range_zero, List.map_nil, List.foldl_nil, spillOut, spillWords, List.flatMap_nil, List.isEmpty_nil, if_true]

/-- A `ret` to a frame that has not been spilled. -/
theorem retWord_unspilled {x : Ctx} {c : Crew} {f target : Nat} (t : State) (i : Instr) (hmask : (c.split x.e).mask = c.live) (hd : c.drained = true)
    (hf : f ≤ c.wb) (hlo : c.lo ≤ c.wb - f) (htarget : target % 8 = 0) :
    retWord x c t i f target = .jump (t.updCrew x.key (fun v =>
      { v with vr := (c.slideBack f).vr, wb := c.wb - f, lo := c.lo }.updSplit x.e (fun p => { p with pc := target }))) [x.e] := by
  have hback : c.slideBack f = { c with wb := c.wb - f } := by
    simp only [Crew.slideBack, if_neg (Nat.not_lt.mpr hlo)]
  simp only [retWord, hmask, hd, htarget, ne_eq, not_true, if_false, Bool.not_true, Bool.false_eq_true, if_neg (Nat.not_lt.mpr hf), if_pos hlo, hback]

/-- A `ret` past the bottom of the stack raises BOUNDS. -/
theorem retWord_past {x : Ctx} {c : Crew} {f target : Nat} (t : State) (i : Instr) (hmask : (c.split x.e).mask = c.live) (hd : c.drained = true)
    (hf : c.wb < f) (htarget : target % 8 = 0) : retWord x c t i f target = .trap t (mkTrap 6 x.e x.act 0 0) := by
  simp only [retWord, hmask, hd, htarget, ne_eq, not_true, if_false, Bool.not_true, Bool.false_eq_true, if_pos hf]

/-- A word that no crew has raises ILL there. -/
theorem refusedWord_ill {s : State} {key e : Nat} {c0 : Crew} (hcur : s.cur = .crew key e) (hc : s.crew key = some c0) (i : Instr) (h : Hdr)
    (mg : Option MBody) : refusedWord i h 0 mg s = .next (((s.setCrew key (c0.settle s.now)).markIssued (c0.settle s.now)).takeTrap key
      (mkTrap 0 e ((c0.settle s.now).guard h.pred h.pn ((c0.settle s.now).split e).mask) 0 i.word.toNat)) := by
  simp only [refusedWord, hcur, hc, State.finish, State.crew_setCrew, if_true]
  rfl

/-- Settles O12. -/
theorem callsAndReturns : Obligations.CallsAndReturns := by
  refine ⟨fun s x c t h f a off => ⟨fun hf hmask hd => ⟨fun hr hlo ht => ?_, fun hr hlo ht => ?_, fun hr hn hlo ht => ?_, fun hr hn ht => ?_⟩,
    fun key e c0 hcur hc i hi => ?_⟩, fun c f n lane hl hn => ⟨rfl, Crew.rv_slide c f hl hn⟩⟩
  · have hi : exec (.call h f (.rel off)) s = word (.call h f (.rel off)) h (Hdr.use h [] [sReg 62]) (fun x c s =>
        callWord x c s (.call h f (.rel off)) (8 * f.toNat) (relTarget (x.pc c) off)) s := if_neg hf
    exact exec_jump_of_ready (mg := none) _ hr hi (callWord_unspilled t _ hmask hd hlo ht)
  · have hi : exec (.call h f (.reg a)) s = word (.call h f (.reg a)) h (Hdr.use h [sReg a] [sReg 62]) (fun x c s =>
        callWord x c s (.call h f (.reg a)) (8 * f.toNat) (c.rs a.toNat)) s := if_neg hf
    exact exec_jump_of_ready (mg := none) _ hr hi (callWord_unspilled t _ hmask hd hlo ht)
  · have hi : exec (.ret h f a) s = word (.ret h f a) h (Hdr.use h [sReg a] []) (fun x c s =>
        retWord x c s (.ret h f a) (8 * f.toNat) (c.rs a.toNat)) s := if_neg hf
    exact exec_jump_of_ready (mg := none) _ hr hi (retWord_unspilled t _ hmask hd hn hlo ht)
  · have hi : exec (.ret h f a) s = word (.ret h f a) h (Hdr.use h [sReg a] []) (fun x c s =>
        retWord x c s (.ret h f a) (8 * f.toNat) (c.rs a.toNat)) s := if_neg hf
    exact exec_trap_of_ready (mg := none) _ hr hi (retWord_past t _ hmask hd hn ht)
  · rcases hi with rfl | rfl | rfl
    · exact refusedWord_ill hcur hc (.call h 0 (.rel off)) h (some _)
    · exact refusedWord_ill hcur hc (.call h 0 (.reg a)) h none
    · exact refusedWord_ill hcur hc (.ret h 0 a) h (some _)

/-! ## The ends of lanes -/

/-- The state that the end of the lanes `m` leaves, from `t`. -/
def endedAt (x : Ctx) (c : Crew) (m : Mask) (t : State) : State :=
  (t.updCrew x.key (fun v => if (c.split x.e).mask &&& ~~~m ≠ 0 then v.updSplit x.e (fun p => { p with pc := p.pc + 8 }) else v)).endLanes x.key m

/-- Lanes end at once, after the records that move, or once the merge of the crew's last phase may go on. -/
theorem endSome_cases (x : Ctx) (c : Crew) (t : State) (m : Mask) :
    (c.live &&& ~~~m ≠ 0 → (c.endLanes m).recsStay = true → endSome x c t m = .jump (endedAt x c m t) [x.e]) ∧
    (c.live &&& ~~~m ≠ 0 → (c.endLanes m).recsStay = false → endSome x c t m =
      recMoves x c t (c.endLanes m) (fun s1 rs => .jump (endedAt x c m (s1.updCrew x.key (fun c => c.putRecs rs))) [x.e])) ∧
    (c.live &&& ~~~m = 0 → x.det = false → endSome x c t m = .jump (endedAt x c m t) [x.e]) ∧
    (c.live &&& ~~~m = 0 → x.det = true → ∀ u, t.exitReady x.key = (u, true) → endSome x c t m = .jump (endedAt x c m u) [x.e]) := by
  refine ⟨fun hl hs => ?_, fun hl hs => ?_, fun hl hd => ?_, fun hl hd u hu => ?_⟩
  · simp only [endSome, decide_eq_false hl, hs, Bool.false_and, Bool.or_true, Bool.false_eq_true, Bool.not_true, if_false, if_true]
    rfl
  · simp only [endSome, decide_eq_false hl, hs, Bool.false_and, Bool.or_false, Bool.false_eq_true, Bool.not_true, if_false]
    rfl
  · simp only [endSome, decide_eq_true hl, hd, Bool.and_false, Bool.true_or, Bool.false_eq_true, Bool.not_true, if_false, if_true]
    rfl
  · simp only [endSome, decide_eq_true hl, hd, hu, Bool.and_true, Bool.true_or, Bool.not_true, Bool.false_eq_true, if_false, if_true]
    rfl

theorem ends_of_ready {s : State} {u : WUse} {x : Ctx} {c : Crew} {t : State} {h : Hdr} {body : Body} {mg : Option MBody} {m : Mask} (i : Instr)
    (hr : s.ready [u] = some (x, c, t)) (hi : exec i s = fullWord i h u 8 body mg s) (hb : body x c t = endSome x c t m) :
    Ends i s x c t h.stall.toNat m := by
  obtain ⟨hstay, hmove, hlast, hdet⟩ := endSome_cases x c t m
  refine ⟨fun hl hs => ?_, fun hl hs v es hv => ?_, fun hl hd => ?_, fun hl hd u hu => ?_⟩
  · exact exec_jump_of_ready i hr hi (hb.trans (hstay hl hs))
  · refine exec_jump_of_ready i hr hi (hb.trans ((hmove hl hs).trans ?_))
    exact recMoves_of_jump hv (fun s1 => .jump (endedAt x c m s1) [x.e])
  · exact exec_jump_of_ready i hr hi (hb.trans (hlast hl hd))
  · exact exec_jump_of_ready i hr hi (hb.trans (hdet hl hd u hu))

/-- Settles O13. -/
theorem endingAndPacing : Obligations.EndingAndPacing := by
  intro s x c t h mask hr
  refine ⟨?_, ?_, ?_, fun hf => ?_, fun hf => ?_⟩
  · exact ends_of_ready (mg := none) _ hr rfl rfl
  · exact ends_of_ready (mg := none) _ hr rfl rfl
  · exact exec_jump_of_ready (mg := none) _ hr rfl rfl
  · exact exec_done_of_ready (mg := none) _ hr rfl (if_pos hf)
  · exact exec_trap_of_ready (mg := none) _ hr rfl (if_neg hf)

end Sys2Proof.Machine
end

section
/-! SUPPORT. Addresses of memory words and their checks (R183, R184). -/

namespace Sys2Proof.Machine

/-! ## Addresses (R183) -/

theorem memEa_lt (o : Mem) (c : Crew) (l : Nat) : memEa o c l < 2 ^ 64 := by
  unfold memEa
  omega

theorem memEa_cast (o : Mem) (c : Crew) (l : Nat) : ((memEa o c l : Nat) : Int) =
    (((c.opnd o.a 2 .n64 l : Nat) : Int) + (BitVec.ofNat 32 (c.opnd o.b 1 .i32 l)).toInt * (2 ^ o.sh.toNat : Nat)) % (2 ^ 64 : Nat) := by
  rw [memEa, sext32_eq_toInt, Int.toNat_of_nonneg (Int.emod_nonneg _ (by decide))]

/-! ## Checks of a lane (R184) -/

theorem writeFlag_eq {kind : Nat} (h : kind ≤ 2) : (if kind = 1 || kind = 2 then dWrite else 0) = if kind = 0 then 0 else 32 := by
  interval_cases kind <;> rfl

section
variable {s : State} {u : Agent} {gid : Nat} {ws : List WalkFail} {kind ea n : Nat}

theorem checkLane_global_noncanonical (hk : kind ≤ 2) (h : 2 ^ 57 ≤ ea) :
    s.checkLane u gid ws .gl kind ea n = .bad 1 (8 + if kind = 0 then 0 else 32) 0 := by
  simp only [State.checkLane, writeFlag_eq hk, if_pos h]
  rfl

theorem checkLane_global_misaligned (hk : kind ≤ 2) (h : ea < 2 ^ 57) (ha : ea % n ≠ 0) :
    s.checkLane u gid ws .gl kind ea n = .bad 1 (4 + if kind = 0 then 0 else 32) 0 := by
  simp only [State.checkLane, writeFlag_eq hk, if_neg (Nat.not_le.mpr h), if_pos ha]
  rfl

/-- A scratch access by its place and alignment. -/
theorem checkLane_scratch (hk : kind ≤ 2) : s.checkLane u gid ws .sp kind ea n =
    if (match s.gang gid with | some g => g.scrSz | none => 0) < ea + n then .bad 6 (if kind = 0 then 0 else 32) 0
    else if ea % n ≠ 0 then .bad 1 (4 + if kind = 0 then 0 else 32) 0 else .at (.scr ea) := by
  simp only [State.checkLane, writeFlag_eq hk] <;> rfl

/-- A parameter access by its place and alignment. -/
theorem checkLane_params : s.checkLane u gid ws .pm kind ea n =
    if (s.params gid).length < ea + n then .bad 6 0 0 else if ea % n ≠ 0 then .bad 1 4 0 else .at (.prm ea) := rfl

end

/-! ## The trap of failing lanes (R184) -/

section
variable {x : Ctx} {c : Crew} {t : State} {space : Space} {kind n : Nat} {eas : List (Nat × Nat)} {cls : Nat}
  {ls : List (Nat × Nat × Nat)} {aux : Nat}

/-- The lanes whose access passes its checks, with their addresses and places. -/
def passing (x : Ctx) (c : Crew) (t : State) (space : Space) (kind n : Nat) (eas : List (Nat × Nat)) : List (Nat × Nat × Loc) :=
  eas.filterMap (fun e => match t.checkLane (.core c.core) (keyGid x.key) c.walks space kind e.2 n with
    | .at l => some (e.1, e.2, l)
    | _ => none)

/-- A word that reads nothing traps with its lowest failing lane. -/
theorem failTrap_of_not_reads : failTrap x c t space kind n false eas cls ls aux = .trap t (laneTrap cls x.e ls aux) := rfl

/-- So does a load where no lane below that one passes. -/
theorem failTrap_of_lowest (h : ∀ g ∈ passing x c t space kind n eas, (ls.map (fun l => l.1)).getD 0 0 ≤ g.1) :
    failTrap x c t space kind n true eas cls ls aux = .trap t (laneTrap cls x.e ls aux) := by
  refine if_neg ?_
  rw [Bool.true_and, List.any_eq_true]
  rintro ⟨g, hg, hlt⟩
  exact absurd (h g hg) (Nat.not_le.mpr (of_decide_eq_true hlt))

/-- A load with a passing lane below the failing ones: INTEGRITY where such a lane would read poison, else the failing lane's trap. -/
theorem failTrap_of_below {t1 : State} {bad : List (Nat × Nat)} (h : ∃ g ∈ passing x c t space kind n eas, g.1 < (ls.map (fun l => l.1)).getD 0 0)
    (hmet : t.poisonMet x.key c.core n (passing x c t space kind n eas) = (t1, bad)) :
    failTrap x c t space kind n true eas cls ls aux =
      .trap t1 (if bad.any (fun b => decide (b.1 < (ls.map (fun l => l.1)).getD 0 0)) then poisonTrap x.e bad else laneTrap cls x.e ls aux) := by
  refine (if_pos ?_).trans ?_
  · rw [Bool.true_and, List.any_eq_true]
    obtain ⟨g, hg, hlt⟩ := h
    exact ⟨g, hg, decide_eq_true hlt⟩
  · change (if (t.poisonMet x.key c.core n (passing x c t space kind n eas)).2.any (fun b => decide (b.1 < (ls.map (fun l => l.1)).getD 0 0))
      then Act.trap (t.poisonMet x.key c.core n (passing x c t space kind n eas)).1 (poisonTrap x.e (t.poisonMet x.key c.core n (passing x c t space kind n eas)).2)
      else Act.trap (t.poisonMet x.key c.core n (passing x c t space kind n eas)).1 (laneTrap cls x.e ls aux)) = _
    rw [hmet]
    dsimp only
    split <;> rfl

end

/-- Settles O16. -/
theorem memoryAddresses : Obligations.MemoryAddresses := by
  refine ⟨fun o c l => ⟨memEa_lt o c l, by rw [memEa_cast, Int.emod_emod_of_dvd _ (dvd_refl _)]⟩, fun s u gid ws kind ea n hk => ?_, fun s x c t o cls aux ls => ?_⟩
  · refine ⟨checkLane_global_noncanonical hk, checkLane_global_misaligned hk, fun h => ?_, fun h ha => ?_, fun h ha => ?_, fun h => ?_, fun h ha => ?_,
      fun h ha => ?_⟩
    · exact (checkLane_scratch hk).trans (if_pos h)
    · exact (checkLane_scratch hk).trans ((if_neg (Nat.not_lt.mpr h)).trans (if_pos ha))
    · exact (checkLane_scratch hk).trans ((if_neg (Nat.not_lt.mpr h)).trans (if_neg (not_not.mpr ha)))
    · exact checkLane_params.trans (if_pos h)
    · exact checkLane_params.trans ((if_neg (Nat.not_lt.mpr h)).trans (if_pos ha))
    · exact checkLane_params.trans ((if_neg (Nat.not_lt.mpr h)).trans (if_neg (not_not.mpr ha)))
  · refine ⟨fun hr hc => ?_, fun line hr hc => ⟨fun hlow => ?_, fun hbelow t1 bad d hmet hd => ⟨fun hbad => ?_, fun hbad => ?_⟩⟩⟩
    · refine exec_trap_of_ready (mg := none) _ hr rfl ?_
      simp only [storeWord, checked, hc]
      exact failTrap_of_not_reads
    · refine exec_trap_of_ready (mg := none) _ hr rfl ?_
      simp only [loadAct, checked, hc]
      exact failTrap_of_lowest hlow
    · refine exec_trap_of_crew (mg := none) _ hr rfl hd ?_
      simp only [loadAct, checked, hc]
      refine (failTrap_of_below hbelow hmet).trans ?_
      rw [if_pos (by simpa using hbad)]
      rfl
    · refine exec_trap_of_crew (mg := none) _ hr rfl hd ?_
      simp only [loadAct, checked, hc]
      refine (failTrap_of_below hbelow hmet).trans ?_
      rw [if_neg (by simpa using hbad)]

end Sys2Proof.Machine
end

section
/-! SUPPORT. Loads (R182, R187 to R189): what the load words do with the bytes, and the bytes of each place. -/

namespace Sys2Proof.Machine

/-! ## The words -/

section
variable {x : Ctx} {c : Crew} {t s1 : State} {o : Mem} {eas : List (Nat × Nat)} {locs : List (Nat × Loc)} {bs : List (Nat × List Byte)}

/-- Checks that pass let a load go on: a load owns nothing. -/
theorem checked_of_ok {space : Space} {n : Nat} {k : List (Nat × Loc) → Act} {reads own : Bool}
    (hc : t.checkAll (.core c.core) (.split x.key x.e) (keyGid x.key) c.walks space 0 n eas = .ok locs) :
    checked x c t space 0 n eas k reads own = k locs := by
  simp only [checked, hc]
  rfl

theorem loadAct_of_bytes {line : Bool} {k : State → List (Nat × Nat) → Act}
    (hc : t.checkAll (.core c.core) (.split x.key x.e) (keyGid x.key) c.walks o.space 0 (memBytes o.ty) eas = .ok locs)
    (hl : t.load x.key x.e c o.scope o.order line x.det (memBytes o.ty) eas locs = .bytes s1 bs) :
    loadAct x c t o line eas k =
      k (s1.updCrew x.key (fun c' => { c' with pts := s1.loadPts x.key c o.scope o.order (memBytes o.ty) locs })) (bs.map (fun b => (b.1, leVal b.2))) := by
  rw [loadAct, checked_of_ok hc, hl]

end

/-- An attempt of `ldp` whose split awaits no line, by its comparison (R189). -/
theorem ldp_of_bytes {s : State} {x : Ctx} {c : Crew} {t s1 : State} {o : Mem} {cc : BitVec 4} {locs : List (Nat × Loc)} {bs : List (Nat × List Byte)}
    (hr : s.ready [Hdr.use o.h (Opnd.span o.a 1 ++ Opnd.span o.b 1) [sReg o.d]] = some (x, c, t))
    (hc : t.checkAll (.core c.core) (.split x.key x.e) (keyGid x.key) c.walks o.space 0 (memBytes o.ty) [(x.act.lanes.getD 0 0, c.sval o.a)] = .ok locs)
    (hgot : (c.split x.e).got = [])
    (hl : t.load x.key x.e c o.scope .rx false x.det (memBytes o.ty) [(x.act.lanes.getD 0 0, c.sval o.a)] locs = .bytes s1 bs) :
    exec (.ldp o cc) s = .next (t.finish (.ldp o cc) x.key x.e 8 o.h.stall.toNat (
      if ldpCond cc.toNat o.ty (leVal ((bs.map Prod.snd).getD 0 [])) (c.sval o.b) then
        pendNow x (s1.updCrew x.key (fun v => { v with pts := s1.loadPts x.key c o.scope o.order (memBytes o.ty) locs }))
          [sWrite o.d.toNat (iExt o.ty (leVal ((bs.map Prod.snd).getD 0 [])))]
      else .wait (s1.updCrew x.key (fun v => v.updSplit x.e (fun sp => { sp with got := [] }))) (.poll s1.now))) := by
  refine (fullWord_ready hr (.ldp o cc) o.h 8 _ (some _)).trans ?_
  simp only [checked_of_ok hc, hgot, List.contains_nil, Bool.false_and, List.filter_false, List.isEmpty_nil, Bool.not_true, Bool.false_eq_true, if_false, hl]

/-! ## The bytes -/

theorem touched_singleton (n pa : Nat) : touched n [pa] = [(pa / 128, pa % 128, pa % 128 + n - 1)] := rfl

/-- A gang's scratch without poison and with good check values passes the verification of any of its bytes (R74, R75). -/
theorem State.scrCheck_of_sound {s : State} {gid : Nat} {g : Gang} (hg : s.gang gid = some g) (hp : g.scrPoison = []) (hb : g.scrBadChk = [])
    (off n : Nat) : s.scrCheck gid off n = (s, false) := by
  have hsec (sec : Nat) : s.scrVerify gid sec = s := by
    simp only [State.scrVerify, hg, Gang.scrChkOk, hp, hb]
    rfl
  unfold State.scrCheck
  induction sectorsOf off n with
  | nil => rfl
  | cons sec secs ih => simpa only [List.foldl_cons, hsec, hg, hp, List.contains_nil, Bool.or_false] using ih

theorem Cells.bytes_eq_map (m : Cells 8) (a n : Nat) : Cells.bytes m a n = (List.range n).map (fun k => Cells.get m (a + k)) := by
  induction n generalizing a with
  | zero => rfl
  | succ n ih =>
    have hnext : (fun k => Cells.get m (a + 1 + k)) = (fun k => Cells.get m (a + k)) ∘ Nat.succ := by
      funext k
      simp only [Function.comp, Nat.add_assoc, Nat.add_comm 1]
    rw [Cells.bytes, ih, List.range_succ_eq_map, List.map_cons, List.map_map, hnext]
    rfl

section
variable (s : State) (key e : Nat) (c : Crew) (sc : Scope) (ord : Order) (whole : Bool) (n lane ea : Nat)

/-- R181, R187: a load from scratch outside DET. -/
theorem load_scratch {g : Gang} (off : Nat) (hg : s.gang (keyGid key) = some g) (hp : g.scrPoison = []) (hb : g.scrBadChk = []) :
    s.load key e c sc ord whole false n [(lane, ea)] [(lane, .scr off)] = .bytes s [(lane, Cells.bytes g.scr off n)] := by
  have hchk := State.scrCheck_of_sound hg hp hb off n
  rw [Cells.bytes_eq_map]
  simp [State.load, State.notReady, touched, hchk, hg]

theorem load_params (off : Nat) : s.load key e c sc ord whole false n [(lane, ea)] [(lane, .prm off)] =
    .bytes s [(lane, (List.range n).map (fun k => (s.params (keyGid key)).getD (off + k) 0))] := by
  simp [State.load, State.notReady, touched]

/-- R353: a load from memory that the L1 serves without poison. -/
theorem load_memory {pa : Nat} (hfresh : s.freshOnly sc (pa / 128) = false) (hready : ∀ k, k < n → s.byteReady key c (pa / 128) (pa % 128 + k) = true)
    (hpoison : ∀ k, k < n → s.l1Poison key c.core (pa / 128) (pa % 128 + k) = false) :
    s.load key e c sc ord whole false n [(lane, ea)] [(lane, .phys pa)] =
      .bytes s [(lane, (List.range n).map (fun k => s.l1Byte key c.core (pa / 128) (pa % 128 + k)))] := by
  have hno : s.notReady key e c sc n [pa] = [] := by
    rw [State.notReady, touched_singleton, List.filter_eq_nil_iff]
    simp only [List.mem_singleton, forall_eq, hfresh, Bool.false_and, Bool.or_false, List.any_cons, List.any_nil, beq_self_eq_true, Bool.true_and,
      Bool.not_eq_true, List.any_eq_false, List.mem_range, Bool.not_eq_false']
    exact fun k hk => by simp [hready k hk]
  have hbad : ¬ ∃ k < n, s.l1Poison key c.core (pa / 128) (pa % 128 + k) = true := by
    rintro ⟨k, hk, hp⟩
    rw [hpoison k hk] at hp
    cases hp
  simp [State.load, hno, hbad]

end

/-- Settles O17. -/
theorem loads : Obligations.Loads := by
  refine ⟨fun s x c t s1 o line cc locs bs => ⟨fun hr hc hl => ?_, fun hr hc hl => ?_, fun hr hc hgot hl => ⟨fun hv => ?_, fun hv => ?_⟩⟩,
    fun s key e c sc ord whole n lane ea off pa g => ⟨load_scratch s key e c sc ord whole n lane ea off, load_params s key e c sc ord whole n lane ea off,
      fun _ => load_memory s key e c sc ord whole n lane ea⟩⟩
  · exact ⟨_, exec_done_of_ready (mg := none) _ hr rfl (loadAct_of_bytes hc hl), vecGives_vecWrites _ _ _ _ _ _ (fun _ _ => rfl)⟩
  · exact exec_done_of_ready (mg := some _) _ hr rfl (loadAct_of_bytes hc hl)
  · refine (ldp_of_bytes hr hc hgot hl).trans ?_
    rw [if_pos hv]
    rfl
  · refine (ldp_of_bytes hr hc hgot hl).trans ?_
    rw [if_neg (Bool.eq_false_iff.mp hv)]
    rfl

end Sys2Proof.Machine
end

section
/-! SUPPORT. Stores (R54, R187, R188): what the store words do with the bytes of each place. -/

namespace Sys2Proof.Machine

def Loc.phys? : Loc → Option Nat
  | .phys pa => some pa
  | _ => none

def Loc.scr? : Loc → Option Nat
  | .scr off => some off
  | _ => none

/-- The bytes that a store's lanes give to the places that `f` chooses, lane by lane. -/
def storedAt (f : Loc → Option Nat) (locs : List (Nat × Loc)) (v : Nat → Nat) (n : Nat) : List (Nat × Byte) :=
  locs.flatMap (fun l => match f l.2 with
    | some a => (List.range (leBytes (v l.1) n).length).zip (leBytes (v l.1) n) |>.map (fun b => (a + b.1, b.2))
    | none => [])

/-- The scratch bytes of a store by place, the highest lane last. -/
def storedScr (locs : List (Nat × Loc)) (v : Nat → Nat) (n : Nat) : Tab Byte :=
  (storedAt Loc.scr? locs v n).foldl (fun (m : Tab Byte) b => Tab.set m b.1 b.2) []

/-- The places of a peer's memory among those of an access that this MZ-40 does not own yet. -/
def State.owes (t : State) (locs : List (Nat × Loc)) : List Nat :=
  locs.filterMap (fun l => match l.2 with
    | .phys pa => t.notOwned pa
    | _ => none)

theorem State.owes_eq_nil {t : State} {locs : List (Nat × Loc)} (h : ∀ l ∈ locs, ∀ pa, l.2 = .phys pa → t.notOwned pa = none) : t.owes locs = [] := by
  rw [State.owes, List.filterMap_eq_nil_iff]
  intro l hl
  cases hp : l.2 with
  | phys pa => exact h l hl pa hp
  | scr off => rfl
  | prm off => rfl

/-- Checks that pass let a word go on that owes no place. -/
theorem checked_of_owned {x : Ctx} {c : Crew} {t : State} {space : Space} {kind n : Nat} {eas : List (Nat × Nat)} {locs : List (Nat × Loc)}
    {k : List (Nat × Loc) → Act} {reads own : Bool} (hown : t.owes locs = [])
    (hc : t.checkAll (.core c.core) (.split x.key x.e) (keyGid x.key) c.walks space kind n eas = .ok locs) :
    checked x c t space kind n eas k reads own = k locs := by
  have howed : (if kind = 0 || !own then [] else t.owes locs).isEmpty = true := by
    rw [hown]
    split <;> rfl
  simp only [checked, hc]
  exact if_pos howed

section
variable {x : Ctx} {c : Crew} {t : State} {o : Mem} {eas : List (Nat × Nat)} {locs : List (Nat × Loc)} {v : Nat → Nat}

/-- A store whose lanes pass their checks, at places that this MZ-40 owns. -/
theorem storeWord_of_ok (hown : ∀ l ∈ locs, ∀ pa, l.2 = .phys pa → t.notOwned pa = none)
    (hc : t.checkAll (.core c.core) (.split x.key x.e) (keyGid x.key) c.walks o.space 1 (memBytes o.ty) eas = .ok locs) :
    storeWord x c t o eas v = storeAct x c t o.scope o.order eas (locs.map (fun l => (l.1, l.2, leBytes (v l.1) (memBytes o.ty)))) :=
  checked_of_owned (State.owes_eq_nil hown) hc

/-- The bytes of lanes at the places that `f` chooses. -/
def laneBytesAt (f : Loc → Option Nat) (ls : List (Nat × Loc × List Byte)) : List (Nat × Byte) :=
  ls.flatMap (fun l => match f l.2.1 with
    | some a => (List.range l.2.2.length).zip l.2.2 |>.map (fun b => (a + b.1, b.2))
    | none => [])

theorem laneBytesAt_stored (f : Loc → Option Nat) (locs : List (Nat × Loc)) (v : Nat → Nat) (n : Nat) :
    laneBytesAt f (locs.map (fun l => (l.1, l.2, leBytes (v l.1) n))) = storedAt f locs v n := by
  rw [laneBytesAt, List.flatMap_map]
  rfl

/-- A store outside DET that no light fence holds back, by its places. -/
theorem storeAct_outside_det {sc : Scope} {ord : Order} {ls : List (Nat × Loc × List Byte)} (hdet : x.det = false) (hf : c.fenced x.act = false) :
    storeAct x c t sc ord eas ls =
      let rel := decide (2 ≤ ord.code)
      let r := if rel then t.releaseReady x.key sc else (t, true)
      if !r.2 then .blocked r.1
      else
        let g := r.1.storeReady c.core sc (byLine (laneBytesAt Loc.phys? ls))
        if !g.2 then .blocked g.1
        else
          let scr := (laneBytesAt Loc.scr? ls).foldl (fun (m : Tab Byte) b => Tab.set m b.1 b.2) []
          let w := (g.1.storePhys x.key x.e c.core sc ord (laneBytesAt Loc.phys? ls)).scrPutAll (keyGid x.key) scr
          .done (if rel then w.releaseFloor c.core (if scr.isEmpty then sc else .gg) c.pts else w) := by
  simp only [storeAct, hdet, hf, Bool.false_eq_true, if_false]
  rfl

/-- R54, R56: a store outside DET that nothing holds back, once its release is ready and its unit takes the bytes. -/
theorem storeAct_of_ready {sc : Scope} {ord : Order} {n : Nat} {u0 u : State} (hdet : x.det = false) (hf : c.fenced x.act = false)
    (hrel : if ord.code < 2 then u0 = t else t.releaseReady x.key sc = (u0, true))
    (hready : u0.storeReady c.core sc (byLine (storedAt Loc.phys? locs v n)) = (u, true)) :
    storeAct x c t sc ord eas (locs.map (fun l => (l.1, l.2, leBytes (v l.1) n))) =
      let w := (u.storePhys x.key x.e c.core sc ord (storedAt Loc.phys? locs v n)).scrPutAll (keyGid x.key) (storedScr locs v n)
      .done (if 2 ≤ ord.code then w.releaseFloor c.core (if (storedScr locs v n).isEmpty then sc else .gg) c.pts else w) := by
  have hr : (if 2 ≤ ord.code then t.releaseReady x.key sc else (t, true)) = (u0, true) := by
    by_cases h : ord.code < 2
    · rw [if_pos h] at hrel
      rw [if_neg (by omega), hrel]
    · rw [if_neg h] at hrel
      rw [if_pos (by omega), hrel]
  rw [storeAct_outside_det hdet hf]
  simp only [laneBytesAt_stored, decide_eq_true_eq, hr, hready, Bool.not_true, Bool.false_eq_true, if_false]
  rfl

/-- A place's space and address in the DET buffer (R70). -/
def Loc.bufSpace : Loc → Nat
  | .phys _ => 0
  | _ => 1

def Loc.addr : Loc → Nat
  | .phys a | .scr a | .prm a => a

/-- What a store's lanes give to the DET buffer. -/
def detEntries (t : State) (key : Nat) (locs : List (Nat × Loc)) (v : Nat → Nat) (n : Nat) : List (Nat × Nat × Nat × Nat × List Byte) :=
  locs.map (fun l => (l.1, t.logicalLane key l.1, Loc.bufSpace l.2, Loc.addr l.2, leBytes (v l.1) n))

/-- The end of a store into the DET buffer: its lanes' bytes, or BOUNDS in the lanes that find no place. -/
def bufferedAct (x : Ctx) (t : State) (eas : List (Nat × Nat)) (r : Gang × List (Nat × Nat)) : Act :=
  if r.2.isEmpty then .done (t.setGang (keyGid x.key) r.1)
  else .trap t (laneTrap 6 x.e (r.2.map (fun f => (f.1, eaOf eas f.1, 32))) 0)

theorem storeAct_in_det {sc : Scope} {ord : Order} {n : Nat} {g : Gang} (hdet : x.det = true) (hg : t.gang (keyGid x.key) = some g) :
    storeAct x c t sc ord eas (locs.map (fun l => (l.1, l.2, leBytes (v l.1) n))) =
      bufferedAct x t eas (g.bufferAll (if ord.code < 2 then 0 else sc.code + 1) (detEntries t x.key locs v n)) := by
  simp only [storeAct, hdet, if_true, hg, List.map_map]
  refine congrArg (fun es => bufferedAct x t eas (g.bufferAll (if ord.code < 2 then 0 else sc.code + 1) es)) (List.map_congr_left (fun l _ => ?_))
  rcases l with ⟨l, pa | off | off⟩ <;> rfl

/-- The store words: each of these forms is one store of its lanes' bytes. -/
theorem store_of_ready {s : State} {u : WUse} {h : Hdr} {body : Body} {mg : Option MBody} (i : Instr) (hr : s.ready [u] = some (x, c, t))
    (hi : exec i s = fullWord i h u 8 body mg s) (hb : body x c t = storeWord x c t o eas v)
    (hown : ∀ l ∈ locs, ∀ pa, l.2 = .phys pa → t.notOwned pa = none)
    (hc : t.checkAll (.core c.core) (.split x.key x.e) (keyGid x.key) c.walks o.space 1 (memBytes o.ty) eas = .ok locs) :
    (x.det = false → c.fenced x.act = false → ∀ u0 u,
      (if o.order.code < 2 then u0 = t else t.releaseReady x.key o.scope = (u0, true)) →
      u0.storeReady c.core o.scope (byLine (storedAt Loc.phys? locs v (memBytes o.ty))) = (u, true) →
      let w := (u.storePhys x.key x.e c.core o.scope o.order (storedAt Loc.phys? locs v (memBytes o.ty))).scrPutAll (keyGid x.key) (storedScr locs v (memBytes o.ty))
      (o.order.code < 2 → exec i s = .next (x.retires 8 h.stall.toNat w)) ∧
      (2 ≤ o.order.code → exec i s =
        .next (x.retires 8 h.stall.toNat (w.releaseFloor c.core (if (storedScr locs v (memBytes o.ty)).isEmpty then o.scope else .gg) c.pts)))) ∧
    (x.det = true → ∀ g, t.gang (keyGid x.key) = some g →
      let r := g.bufferAll (if o.order.code < 2 then 0 else o.scope.code + 1) (detEntries t x.key locs v (memBytes o.ty))
      (r.2 = [] → exec i s = .next (x.retires 8 h.stall.toNat (t.setGang (keyGid x.key) r.1))) ∧
      (r.2 ≠ [] → exec i s = .next ((t.markIssued c).takeTrap x.key (laneTrap 6 x.e (r.2.map (fun f => (f.1, eaOf eas f.1, 32))) 0)))) := by
  have hstore : body x c t = _ := hb.trans (storeWord_of_ok hown hc)
  refine ⟨fun hdet hf u0 u hrel hready => ⟨fun hord => ?_, fun hord => ?_⟩, fun hdet g hg => ⟨fun hr2 => ?_, fun hr2 => ?_⟩⟩
  · refine exec_done_of_ready i hr hi (hstore.trans ((storeAct_of_ready hdet hf hrel hready).trans ?_))
    dsimp only
    rw [if_neg (Nat.not_le.mpr hord)]
  · refine exec_done_of_ready i hr hi (hstore.trans ((storeAct_of_ready hdet hf hrel hready).trans ?_))
    dsimp only
    rw [if_pos hord]
  · refine exec_done_of_ready i hr hi (hstore.trans ((storeAct_in_det hdet hg).trans ?_))
    rw [bufferedAct, if_pos (by rw [hr2]; rfl)]
  · refine exec_trap_of_ready i hr hi (hstore.trans ((storeAct_in_det hdet hg).trans ?_))
    rw [bufferedAct, if_neg (by rw [List.isEmpty_iff]; exact hr2)]

end

/-! ## The frame of a store -/

/-- A state that differs from `s` outside device memory and the gangs, and in the crews only by the requests that they await. -/
def State.OnlyAcks (s t : State) : Prop :=
  t.mem = s.mem ∧ t.badChk = s.badChk ∧ t.gangs = s.gangs ∧ ∀ k c, s.crew k = some c → ∃ d, t.crew k = some d ∧ { d with acks := c.acks } = c

theorem State.OnlyAcks.refl (s : State) : s.OnlyAcks s := ⟨rfl, rfl, rfl, fun _ c hc => ⟨c, hc, rfl⟩⟩

theorem State.OnlyAcks.trans {s t u : State} (h1 : s.OnlyAcks t) (h2 : t.OnlyAcks u) : s.OnlyAcks u := by
  obtain ⟨hm1, hb1, hg1, hc1⟩ := h1
  obtain ⟨hm2, hb2, hg2, hc2⟩ := h2
  refine ⟨hm2.trans hm1, hb2.trans hb1, hg2.trans hg1, fun k c hc => ?_⟩
  obtain ⟨d, hd, hdc⟩ := hc1 k c hc
  obtain ⟨e, he, hed⟩ := hc2 k d hd
  exact ⟨e, he, by rw [← hdc, ← hed]⟩

theorem State.OnlyAcks.foldl {α : Type} {f : State → α → State} (hf : ∀ s a, State.OnlyAcks s (f s a)) (l : List α) (s : State) :
    s.OnlyAcks (l.foldl f s) := by
  induction l generalizing s with
  | nil => exact State.OnlyAcks.refl s
  | cons a as ih => exact (hf s a).trans (ih _)

/-- A state that differs in other parts alone. -/
theorem State.OnlyAcks.of_eq {s t : State} (hm : t.mem = s.mem) (hb : t.badChk = s.badChk) (hg : t.gangs = s.gangs) (hc : t.crews = s.crews) :
    s.OnlyAcks t := ⟨hm, hb, hg, fun _ c h => ⟨c, by unfold State.crew; rw [hc]; exact h, rfl⟩⟩

theorem State.updCrew_acks_onlyAcks (s : State) (key : Nat) (f : List AckWait → List AckWait) :
    s.OnlyAcks (s.updCrew key (fun c => { c with acks := f c.acks })) := by
  refine ⟨rfl, rfl, rfl, fun k c hc => ?_⟩
  rw [State.crew_updCrew]
  by_cases h : k = key
  · subst h
    exact ⟨{ c with acks := f c.acks }, by simp [hc], rfl⟩
  · exact ⟨c, by simp [h, hc], rfl⟩

theorem State.send_onlyAcks (s : State) (p : Pkt) : s.OnlyAcks (s.send p) := State.OnlyAcks.of_eq rfl rfl rfl rfl

theorem State.setSpan_onlyAcks (s : State) (u : Agent) (line : Nat) (v : Span) : s.OnlyAcks (s.setSpan u line v) := by
  unfold State.setSpan State.setSpans
  cases u <;> exact State.OnlyAcks.of_eq rfl rfl rfl rfl

theorem State.publishLine_onlyAcks (s : State) (u : Agent) (line : Nat) (sel : Dirty → Bool) : s.OnlyAcks (s.publishLine u line sel) := by
  unfold State.publishLine
  split
  · exact State.OnlyAcks.refl s
  · refine State.OnlyAcks.trans ?_ (State.setSpan_onlyAcks _ _ _ _)
    refine List.foldlRecOn (motive := fun (acc : State × List Dirty) => s.OnlyAcks acc.1) _ _ (State.OnlyAcks.refl s) (fun acc hacc d _ => ?_)
    dsimp only
    split
    · exact hacc.trans ((State.send_onlyAcks _ _).trans (State.updCrew_acks_onlyAcks _ _ (fun a => a ++ _)))
    · exact hacc

theorem State.roomForDirty_onlyAcks (s : State) (u : Agent) (line : Nat) : s.OnlyAcks (s.roomForDirty u line) := by
  unfold State.roomForDirty
  dsimp only
  split
  · exact State.OnlyAcks.refl s
  · split
    · exact State.publishLine_onlyAcks _ _ _ _
    · exact State.OnlyAcks.refl s

/-- Where no sector has a bad check value, verification changes nothing (R75). -/
theorem State.verify_of_sound {s : State} (hb : s.badChk = []) (sec : Nat) (f : Finder) : s.verify sec f = s := by
  have hok : s.chkOk sec = true := by rw [State.chkOk, hb]; rfl
  rw [State.verify, if_pos (by simp [hok])]

theorem State.narrowKept_of_sound {s : State} (hb : s.badChk = []) (u : Agent) (key line : Nat) (bs : LineBytes) :
    (s.narrowKept u key line bs).1 = s := by
  unfold State.narrowKept
  refine List.foldlRecOn (motive := fun (acc : State × LineBytes) => acc.1 = s) _ _ rfl (fun acc hacc k _ => ?_)
  dsimp only
  split
  · exact hacc
  · have hs1 : (match acc.1.target (line * 128) with
        | .dev _ => acc.1.verify (line * 4 + k) { acc.1.finder (keyGid key) 0 with core := some u.reporter }
        | _ => acc.1) = s := by
      rw [hacc]
      split
      · exact State.verify_of_sound hb _ _
      · rfl
    exact (apply_ite Prod.fst _ _ _).trans ((ite_self _).trans hs1)

theorem State.narrowPut_onlyAcks (s : State) (u : Agent) (key : Nat) (sc : Scope) (line : Nat) (bs : LineBytes) :
    s.OnlyAcks (s.narrowPut u key sc line bs) := by
  unfold State.narrowPut
  dsimp only
  have hput (v : Span) : s.OnlyAcks { s.setSpan u line v with nextId := s.nextId + 1 } :=
    (State.setSpan_onlyAcks s u line v).trans (State.OnlyAcks.of_eq rfl rfl rfl rfl)
  split
  · exact (hput _).trans (State.send_onlyAcks _ _)
  · exact hput _

theorem State.narrowStore_onlyAcks {s : State} (hb : s.badChk = []) (u : Agent) (key : Nat) (sc : Scope) (line : Nat) (bs : LineBytes) :
    s.OnlyAcks (s.narrowStore u key sc line bs) := by
  have hk := State.narrowKept_of_sound hb u key line bs
  unfold State.narrowStore
  dsimp only
  rw [hk]
  split
  · exact State.OnlyAcks.refl s
  · exact State.narrowPut_onlyAcks _ _ _ _ _ _

theorem State.sendWrite_onlyAcks (s : State) (key e core line : Nat) (bs : LineBytes) (sc : Scope) (ord : Order) :
    s.OnlyAcks (s.sendWrite key e core line bs sc ord) := by
  unfold State.sendWrite
  dsimp only
  exact (State.OnlyAcks.foldl (fun s u => State.publishLine_onlyAcks s u line _) _ s).trans
    ((State.send_onlyAcks _ _).trans (State.updCrew_acks_onlyAcks _ _ (fun a => a ++ _)))

theorem State.storePhys_onlyAcks {s : State} (hb : s.badChk = []) (key e core : Nat) (sc : Scope) (ord : Order) (bs : List (Nat × Byte)) :
    s.OnlyAcks (s.storePhys key e core sc ord bs) := by
  unfold State.storePhys
  refine List.foldlRecOn (motive := fun u => s.OnlyAcks u) _ _ (State.OnlyAcks.refl s) (fun u hu l _ => ?_)
  split
  · have hroom := State.roomForDirty_onlyAcks u (narrowUnit core sc) l.1
    exact hu.trans (hroom.trans (State.narrowStore_onlyAcks (hroom.2.1.trans (hu.2.1.trans hb)) _ _ _ _ _))
  · exact hu.trans (State.sendWrite_onlyAcks _ _ _ _ _ _ _ _)

end Sys2Proof.Machine
end

section
/-! SUPPORT. Stores into scratch (R47, R187): the bytes of each address, the last one last; and a store's packets (R54, R353, R355). -/

namespace Sys2Proof.Machine

/-! ## Tables -/

/-- The keys of a table rise. -/
def Tab.Rising {α : Type} (t : Tab α) : Prop := (t.map Prod.fst).Pairwise (· < ·)

theorem Tab.mem_keys_set {α : Type} (t : Tab α) (a : Nat) (v : α) {k : Nat} (h : k ∈ (Tab.set t a v).map Prod.fst) : k = a ∨ k ∈ t.map Prod.fst := by
  induction t with
  | nil => simpa [Tab.set] using h
  | cons e es ih =>
    unfold Tab.set at h
    split at h
    · simpa using h
    · split at h
      · simp only [List.map_cons, List.mem_cons] at h ⊢
        tauto
      · simp only [List.map_cons, List.mem_cons] at h ⊢
        tauto

theorem Tab.rising_set {α : Type} {t : Tab α} (h : Tab.Rising t) (a : Nat) (v : α) : Tab.Rising (Tab.set t a v) := by
  unfold Tab.Rising at *
  induction t with
  | nil => simp [Tab.set]
  | cons e es ih =>
    simp only [List.map_cons, List.pairwise_cons] at h
    obtain ⟨hall, hes⟩ := h
    unfold Tab.set
    split
    · rename_i hlt
      simp only [List.map_cons, List.pairwise_cons, List.mem_cons]
      refine ⟨fun k hk => ?_, hall, hes⟩
      rcases hk with rfl | hk
      · exact hlt
      · exact hlt.trans (hall k hk)
    · split
      · rename_i heq
        simp only [List.map_cons, List.pairwise_cons]
        exact ⟨heq ▸ hall, hes⟩
      · simp only [List.map_cons, List.pairwise_cons]
        refine ⟨fun k hk => ?_, ih hes⟩
        rcases Tab.mem_keys_set es a v hk with rfl | hk
        · omega
        · exact hall k hk

theorem Tab.rising_foldl_set {α : Type} (l : List (Nat × α)) {t : Tab α} (h : Tab.Rising t) :
    Tab.Rising (l.foldl (fun (m : Tab α) b => Tab.set m b.1 b.2) t) := by
  induction l generalizing t with
  | nil => exact h
  | cons b bs ih => exact ih (Tab.rising_set h _ _)

/-- Bytes stored one after another: an address has the last byte stored there. -/
theorem Tab.get_foldl_set {α : Type} (l : List (Nat × α)) (t : Tab α) (a : Nat) :
    Tab.get (l.foldl (fun (m : Tab α) b => Tab.set m b.1 b.2) t) a =
      match l.reverse.find? (fun b => b.1 == a) with | some b => some b.2 | none => Tab.get t a := by
  induction l generalizing t with
  | nil => rfl
  | cons b bs ih =>
    rw [List.foldl_cons, ih, List.reverse_cons, List.find?_append]
    cases bs.reverse.find? (fun b => b.1 == a) with
    | some c => rfl
    | none =>
      by_cases hb : b.1 = a
      · simp [hb]
      · simp [hb, Ne.symm hb]

theorem Tab.get_eq_none_of_lt {α : Type} {t : Tab α} {a : Nat} (h : ∀ k ∈ t.map Prod.fst, a < k) : Tab.get t a = none := by
  induction t with
  | nil => rfl
  | cons e es ih =>
    have hne : ¬ e.1 = a := fun he => absurd (h e.1 (by simp)) (by omega)
    rw [Tab.get, if_neg hne]
    exact ih (fun k hk => h k (by simp [hk]))

/-- The entries of a rising table stored into cells, by a choice of keys. -/
theorem Cells.get_foldl_set_tab {w : Nat} {t : Tab (BitVec w)} (ht : Tab.Rising t) (p : Nat → Bool) (m : Cells w) (a : Nat) :
    Cells.get ((t.filter (fun e => p e.1)).foldl (fun m e => Cells.set m e.1 e.2) m) a =
      if p a then (Tab.get t a).getD (Cells.get m a) else Cells.get m a := by
  induction t generalizing m with
  | nil => simp [Tab.get]
  | cons e es ih =>
    unfold Tab.Rising at ht
    simp only [List.map_cons, List.pairwise_cons] at ht
    obtain ⟨hall, hes⟩ := ht
    rw [List.filter_cons]
    by_cases ha : e.1 = a
    · have hnone : Tab.get es a = none := Tab.get_eq_none_of_lt (ha ▸ hall)
      cases hp : p e.1 with
      | true =>
        subst ha
        simp [ih hes, Tab.get, hnone, hp]
      | false =>
        subst ha
        simp [ih hes, hp]
    · cases hp : p e.1 with
      | true => simp [ih hes, Tab.get, ha, Ne.symm ha]
      | false => simp [ih hes, Tab.get, ha]

/-! ## Scratch -/

/-- Scratch without poison and with good check values. -/
def Gang.scrSound (g : Gang) : Prop := g.scrPoison = [] ∧ g.scrBadChk = []

theorem State.scrVerify_of_sound {s : State} {gid : Nat} {g : Gang} (hg : s.gang gid = some g) (h : g.scrSound) (sec : Nat) : s.scrVerify gid sec = s := by
  simp only [State.scrVerify, hg, Gang.scrChkOk, h.1, h.2]
  rfl

theorem State.updGang_eq_setGang {s : State} {gid : Nat} {g : Gang} (hg : s.gang gid = some g) (f : Gang → Gang) : s.updGang gid f = s.setGang gid (f g) := by
  rw [State.gang] at hg
  simp only [State.updGang, State.setGang, Tab.upd, hg]

theorem State.scrSector_of_sound {s : State} {gid : Nat} {g : Gang} (hg : s.gang gid = some g) (h : g.scrSound) (sec : Nat) (bs : List (Nat × Byte)) :
    s.scrSector gid sec bs = s.setGang gid { g with scr := bs.foldl (fun m e => Cells.set m e.1 e.2) g.scr } := by
  obtain ⟨hp, hb⟩ := h
  have hchk : Cells.set g.scrBadChk sec 0 = g.scrBadChk := by
    rw [hb]
    rfl
  have hpoison : g.scrPoison.filter (· != sec) = g.scrPoison := by
    rw [hp]
    rfl
  unfold State.scrSector
  split
  · simp only [State.updGang_eq_setGang hg, hchk, hpoison]
  · rw [State.scrVerify_of_sound hg ⟨hp, hb⟩]
    simp only [State.updGang_eq_setGang hg, hchk, hp, List.contains_nil, Bool.false_eq_true, if_false]

/-- Sectors of sound scratch stored one after another. -/
theorem State.scrSectors_of_sound (gid : Nat) (f : Nat → List (Nat × Byte)) (secs : List Nat) {s : State} {g : Gang} (hg : s.gang gid = some g)
    (h : g.scrSound) :
    ∃ t, secs.foldl (fun s sec => s.scrSector gid sec (f sec)) s = t ∧ t.mem = s.mem ∧ t.crews = s.crews ∧ (∀ k, k ≠ gid → t.gang k = s.gang k) ∧
      ∃ g1, t.gang gid = some g1 ∧ g1.scrSound ∧ g1.scr = secs.foldl (fun m sec => (f sec).foldl (fun m e => Cells.set m e.1 e.2) m) g.scr := by
  induction secs generalizing s g with
  | nil => exact ⟨s, rfl, rfl, rfl, fun _ _ => rfl, g, hg, h, rfl⟩
  | cons sec secs ih =>
    have hset := State.scrSector_of_sound hg h sec (f sec)
    have hg' : (s.scrSector gid sec (f sec)).gang gid = some { g with scr := (f sec).foldl (fun m e => Cells.set m e.1 e.2) g.scr } := by
      rw [hset]
      simp [State.gang, State.setGang]
    obtain ⟨t, ht, hm, hc, hk, g1, hg1, hs1, hscr⟩ := ih hg' h
    refine ⟨t, ht, ?_, ?_, fun k hne => ?_, g1, hg1, hs1, hscr⟩
    · rw [hm, hset]; rfl
    · rw [hc, hset]; rfl
    · rw [hk k hne, hset]
      simp [State.gang, State.setGang, hne]

/-- The numbers that the elements of a list give, each listed once. -/
theorem mem_foldl_distinct {α : Type} (f : α → Nat) (bs : List α) (l : List Nat) (k : Nat) :
    k ∈ bs.foldl (fun (l : List Nat) e => if l.contains (f e) then l else l ++ [f e]) l ↔ k ∈ l ∨ ∃ e ∈ bs, f e = k := by
  induction bs generalizing l with
  | nil => simp
  | cons e es ih =>
    rw [List.foldl_cons, ih]
    by_cases h : l.contains (f e) = true
    · rw [if_pos h]
      have hmem : f e ∈ l := by simpa using h
      simp only [List.mem_cons, exists_eq_or_imp]
      constructor
      · tauto
      · rintro (hk | rfl | hk)
        · exact .inl hk
        · exact .inl hmem
        · exact .inr hk
    · rw [if_neg h]
      simp only [List.mem_append, List.mem_singleton, List.mem_cons, exists_eq_or_imp, eq_comm (a := k)]
      tauto

theorem Tab.mem_of_get {α : Type} {t : Tab α} {a : Nat} {v : α} (h : Tab.get t a = some v) : (a, v) ∈ t := by
  induction t with
  | nil => simp at h
  | cons e es ih =>
    unfold Tab.get at h
    split at h
    · rename_i he
      cases h
      rw [← he]
      exact List.mem_cons_self
    · exact List.mem_cons_of_mem _ (ih h)

/-- The bytes of a rising table, stored sector by sector. -/
theorem Cells.get_foldl_sectors {bs : Tab Byte} (hb : Tab.Rising bs) (secs : List Nat) (m : Cells 8) (a : Nat) :
    Cells.get (secs.foldl (fun m sec => (bs.filter (fun e => e.1 / 32 == sec)).foldl (fun m e => Cells.set m e.1 e.2) m) m) a =
      if a / 32 ∈ secs then (Tab.get bs a).getD (Cells.get m a) else Cells.get m a := by
  induction secs generalizing m with
  | nil => rfl
  | cons sec secs ih =>
    rw [List.foldl_cons, ih, Cells.get_foldl_set_tab hb (fun k => k / 32 == sec)]
    cases Tab.get bs a <;> simp only [List.mem_cons, beq_iff_eq, Option.getD_none, Option.getD_some, ite_self] <;> grind

/-- R47, R187: the frame of a store into sound scratch, and the bytes it leaves. -/
theorem State.scrPutAll_of_sound {s : State} {gid : Nat} {g : Gang} (hg : s.gang gid = some g) (h : g.scrSound) {bs : Tab Byte} (hb : Tab.Rising bs) :
    (s.scrPutAll gid bs).mem = s.mem ∧ (s.scrPutAll gid bs).crews = s.crews ∧ (∀ k, k ≠ gid → (s.scrPutAll gid bs).gang k = s.gang k) ∧
    ∃ g1, (s.scrPutAll gid bs).gang gid = some g1 ∧ g1.scrSound ∧ ∀ a, Cells.get g1.scr a = (Tab.get bs a).getD (Cells.get g.scr a) := by
  obtain ⟨t, ht, hm, hc, hk, g1, hg1, hs1, hscr⟩ := State.scrSectors_of_sound gid (fun sec => bs.filter (fun e => e.1 / 32 == sec))
    (bs.foldl (fun l e => if l.contains (e.1 / 32) then l else l ++ [e.1 / 32]) ([] : List Nat)) hg h
  have hput : s.scrPutAll gid bs = t := ht
  rw [hput]
  refine ⟨hm, hc, hk, g1, hg1, hs1, fun a => ?_⟩
  rw [hscr, Cells.get_foldl_sectors hb]
  cases hget : Tab.get bs a with
  | none => exact ite_self _
  | some b => exact if_pos ((mem_foldl_distinct _ _ _ _).2 (.inr ⟨(a, b), Tab.mem_of_get hget, rfl⟩))

end Sys2Proof.Machine
end

section
/-! SUPPORT. The packet of a store of one byte (R54, R353, R355). -/

namespace Sys2Proof.Machine

/-- A byte of a line with its mark, as dirty bytes keep it (R54). -/
def marked (b : Byte) : BitVec 9 := BitVec.ofNat 9 (256 + b.toNat)

theorem marked_ne_zero (b : Byte) : marked b ≠ 0 := by
  unfold marked
  bv_omega

theorem ofNat_marked (b : Byte) : BitVec.ofNat 8 (marked b).toNat = b := by
  unfold marked
  bv_omega

theorem byLine_singleton {line off : Nat} (h : off < 128) (b : Byte) : byLine [(line * 128 + off, b)] = [(line, [(off, marked b)])] := by
  have hline : (line * 128 + off) / 128 = line := by omega
  have hoff : (line * 128 + off) % 128 = off := by omega
  have hset : Cells.set ([] : Cells 9) off (marked b) = [(off, marked b)] := if_neg (marked_ne_zero b)
  simp only [byLine, List.foldl_cons, List.foldl_nil, hline, hoff]
  exact congrArg (fun m => [(line, m)]) hset

/-- A span whose one dirty byte waits in its unit. -/
def Span.oneDirty (key : Nat) (sc : Scope) (off : Nat) (b : BitVec 9) (order : Nat) : Span :=
  { Span.empty with dirty := [{ crew := key, scope := sc, bytes := Cells.set [] off b, sent := none }], order := order }

section
variable {s : State} {core line : Nat}

theorem State.roomForDirty_of_empty (h : s.spans (.core core) = []) : s.roomForDirty (.core core) line = s := by
  rw [State.roomForDirty, h]
  rfl

theorem State.span_eq_none_of_empty (h : s.spans (.core core) = []) : s.span (.core core) line = none := by
  rw [State.span, h]
  rfl

/-- A byte of a sound sector stays in a unit that has no span of the line. -/
theorem State.narrowKept_of_fresh {off : Nat} (hb : s.badChk = []) (hspan : s.span (.core core) line = none) (hp : s.homePoison line (32 * (off / 32)) = false)
    (key : Nat) (b : BitVec 9) : s.narrowKept (.core core) key line [(off, b)] = (s, [(off, b)]) := by
  unfold State.narrowKept
  refine List.foldlRecOn (motive := fun (acc : State × LineBytes) => acc = (s, [(off, b)])) _ _ rfl (fun acc hacc k hk => ?_)
  obtain ⟨-, hk⟩ := List.mem_filter.1 hk
  have hk : off / 32 = k := by simpa using hk
  subst hk hacc
  dsimp only
  split
  · rfl
  · have hs1 : (match s.target (line * 128) with
        | .dev _ => s.verify (line * 4 + off / 32) { s.finder (keyGid key) 0 with core := some (Agent.core core).reporter }
        | _ => s) = s := by
      split
      · exact State.verify_of_sound hb _ _
      · rfl
    refine (if_neg ?_).trans (congrArg (fun u => (u, _)) hs1)
    refine Eq.mpr (congrArg (fun u : State => ¬ ((match u.span (.core core) line with
      | some v => v.poison.contains (off / 32) || v.poison.contains (off / 32 + 4)
      | none => false) || u.homePoison line (32 * (off / 32))) = true) hs1) ?_
    simp [hspan, hp]

theorem State.span_setSpan (s : State) (core line : Nat) (v : Span) : (s.setSpan (.core core) line v).span (.core core) line = some v := by
  simp [State.span, State.setSpan, State.setSpans, State.spans]

/-- R54, R355: the first dirty byte of a line in a core's unit, and the HOLD that tells the home. -/
theorem State.narrowPut_of_fresh (hspan : s.span (.core core) line = none) (key : Nat) (sc : Scope) (off : Nat) (b : BitVec 9) :
    let t := s.narrowPut (.core core) key sc line [(off, b)]
    t.span (.core core) line = some (Span.oneDirty key sc off b s.nextId) ∧
    ∃ p, Tab.get t.net (s.nextId + 1) = some p ∧ p.kind = .hold sc ∧ p.line = line ∧ p.src = .core core := by
  let u := s.setSpan (.core core) line (Span.oneDirty key sc off b s.nextId)
  have hput : s.narrowPut (.core core) key sc line [(off, b)] =
      State.send { u with nextId := s.nextId + 1 } (Pkt.new (.hold sc) (.core core) (State.destOf { u with nextId := s.nextId + 1 } line) line (s.ptsOf key) key 0) := by
    simp only [State.narrowPut, hspan]
    rfl
  rw [hput]
  exact ⟨State.span_setSpan s core line _, _, (Tab.get_set _ _ _ _).trans (if_pos rfl), rfl, rfl, rfl⟩

/-- R54: a narrow store of the first dirty byte of a line. -/
theorem State.storePhys_narrow {sc : Scope} {off : Nat} (hsc : sc.code < 2) (hoff : off < 128) (hspans : s.spans (.core core) = []) (hb : s.badChk = [])
    (hp : s.homePoison line (32 * (off / 32)) = false) (key e : Nat) (ord : Order) (b : Byte) :
    s.storePhys key e core sc ord [(line * 128 + off, b)] = s.narrowPut (.core core) key sc line [(off, marked b)] := by
  have hunit : narrowUnit core sc = .core core := by
    cases sc with
    | cr | gg => rfl
    | cl | dv | dm | sy => exact absurd hsc (by decide)
  have hlt : sc.code < 3 := by omega
  have hkept := State.narrowKept_of_fresh hb (State.span_eq_none_of_empty hspans) hp key (marked b)
  simp only [State.storePhys, byLine_singleton hoff, List.foldl_cons, List.foldl_nil, if_pos hlt, hunit, State.roomForDirty_of_empty hspans, State.narrowStore,
    hkept]
  rfl

theorem State.publishLine_of_none {u : Agent} (h : s.span u line = none) (sel : Dirty → Bool) : s.publishLine u line sel = s := by
  rw [State.publishLine, h]

/-- R54, R353: a store of device scope or wider of one byte, whose line no unit of its crew holds. -/
theorem State.storePhys_wide {sc : Scope} {off : Nat} (hsc : 3 ≤ sc.code) (hoff : off < 128) (h1 : s.span (.core core) line = none)
    (h2 : s.span (.cluster (clusterOf core)) line = none) (key e : Nat) (ord : Order) (b : Byte) :
    s.storePhys key e core sc ord [(line * 128 + off, b)] =
      (s.send { Pkt.new .write (.core core) (s.destOf line) line (s.ptsOf key) key e with bytes := [(off, marked b)], scope := sc, ord := ord }).updCrew key
        (fun c => { c with acks := c.acks ++ [{ pkt := s.nextId, line := line, bytes := [off] }] }) := by
  have hlt : ¬ sc.code < 3 := by omega
  simp only [State.storePhys, byLine_singleton hoff, List.foldl_cons, List.foldl_nil, if_neg hlt, State.sendWrite, crewUnits, State.publishLine_of_none h1,
    State.publishLine_of_none h2]
  rfl

end

/-- Settles O18: a store outside DET goes the way of its places, in DET into the gang's buffer; the frame of its bytes and the packet of one. -/
theorem stores : Obligations.Stores := by
  unfold Obligations.Stores
  refine ⟨?words, ?frame, ?packet⟩
  case words =>
    intro s x c t o locs n gid check at' phys scr next stores hown
    refine ⟨fun hr hc => ?_, fun hr => ?_⟩
    · have hst := store_of_ready (mg := none) (v := fun l => c.rvs o.c.toNat l (Ty.memRegs o.ty)) (.st o) hr rfl rfl hown hc
      exact hst
    · intro eas hc
      have hst := store_of_ready (mg := some _) (v := fun _ => c.rs o.d.toNat) (.sts o) hr rfl rfl hown hc
      exact hst
  case frame =>
    intro s key e core sc ord bs ss gid g hg hp hb hbad
    obtain ⟨hmem, -, hgangs, hcrews⟩ := State.storePhys_onlyAcks hbad key e core sc ord bs
    have hgang (h : Nat) : (s.storePhys key e core sc ord bs).gang h = s.gang h := congrArg (Tab.get · h) hgangs
    obtain ⟨hmem', hcrews', hgangs', g1, hg1, hsound, hbytes⟩ :=
      State.scrPutAll_of_sound ((hgang gid).trans hg) ⟨hp, hb⟩ (Tab.rising_foldl_set ss (t := []) List.Pairwise.nil)
    refine ⟨hmem'.trans hmem, fun h hne => (hgangs' h hne).trans (hgang h), ⟨g1, hg1, hsound.1, fun a => ?_⟩, fun k c hc => ?_⟩
    · rw [hbytes, Tab.get_foldl_set]
      cases ss.reverse.find? (fun b => b.1 == a) <;> rfl
    · obtain ⟨d, hd, hdc⟩ := hcrews k c hc
      exact ⟨d, (congrArg (Tab.get · k) hcrews').trans hd, hdc⟩
  case packet =>
    intro s key e core line off b c ord sc hc hoff
    refine ⟨fun hsc hspans hb hp => ?_, fun hsc h1 h2 => ?_⟩
    · rw [State.storePhys_narrow hsc hoff hspans hb hp]
      obtain ⟨hspan, p, hp⟩ := State.narrowPut_of_fresh (State.span_eq_none_of_empty hspans) key sc off (marked b)
      refine ⟨⟨_, _, hspan, rfl, rfl, rfl, rfl, fun k => ?_, ?_⟩, _, p, hp⟩
      · by_cases hk : k = off
        · rw [Dirty.has, hk]
          simp only [Span.oneDirty, Cells.get_set, if_true, decide_true]
          exact bne_iff_ne.2 (marked_ne_zero b)
        · simp [Dirty.has, hk]
      · simp only [Dirty.byte, Span.oneDirty, Cells.get_set, if_true]
        exact ofNat_marked b
    · rw [State.storePhys_wide hsc hoff h1 h2]
      refine ⟨s.nextId, _, { c with acks := c.acks ++ [{ pkt := s.nextId, line := line, bytes := [off] }] },
        (Tab.get_set _ _ _ _).trans (if_pos rfl), rfl, rfl, rfl, ?_, rfl, (State.crew_updCrew _ _ _ _).trans ?_, rfl⟩
      · exact congrArg (fun o : Option Crew => match o with | some c => c.pts | none => s.clockAll) hc
      · rw [if_pos rfl]
        exact congrArg _ hc

end Sys2Proof.Machine
end

section
/-! SUPPORT. Atomics (R60, R191 to R193): the words, in scratch and at the homes. -/

namespace Sys2Proof.Machine

section
variable {x : Ctx} {c : Crew} {t u : State} {o : Mem} {a : AtomOp} {f : Nat → Nat × Nat} {locs : List (Nat × Loc)} {ls : List AtomLane}
  {eas : List (Nat × Nat)}

/-- The lanes' requests of an atomic word. -/
def atomLanes (locs : List (Nat × Loc)) (f : Nat → Nat × Nat) : List AtomLane :=
  locs.map (fun l => { lane := l.1, loc := l.2, x := (f l.1).1, new := (f l.1).2 })

/-- The state that an atomic word starts from: its own, or after what a release publishes. -/
def ReleasedFrom (t u : State) (key : Nat) (ret : Bool) (ord : Order) (sc : Scope) : Prop :=
  if ordRel ret ord then t.releaseReady key sc = (u, true) else u = t

theorem atomWord_of_ok {sc : Scope} (hown : ∀ l ∈ locs, ∀ pa, l.2 = .phys pa → t.notOwned pa = none)
    (hc : t.checkAll (.core c.core) (.split x.key x.e) (keyGid x.key) c.walks o.space 2 (a.ty.bits / 8) (laneEas o c x.act) = .ok locs)
    (hf : c.fenced x.act = false) (hsc : (if o.space == .sp then .gg else a.scope) = sc) (hrel : ReleasedFrom t u x.key a.ret a.order sc) :
    atomWord x c t o a f =
      if o.space == .sp then atomScratch x c u a (laneEas o c x.act) (atomLanes locs f)
      else if a.scope.code < 3 then atomNarrow x c u a (laneEas o c x.act) (atomLanes locs f)
      else atomHome x c u a (laneEas o c x.act) (atomLanes locs f) := by
  have hr : (if ordRel a.ret a.order then t.releaseReady x.key sc else (t, true)) = (u, true) := by
    unfold ReleasedFrom at hrel
    split at hrel
    · rw [if_pos ‹_›, hrel]
    · rw [if_neg ‹_›, hrel]
  refine (checked_of_owned (State.owes_eq_nil hown) hc).trans ?_
  simp only [hf, hsc, hr, Bool.false_eq_true, if_false, Bool.not_true]
  rfl

/-! ## Scratch -/

/-- The lanes of an atomic at one place of scratch, as one group. -/
def laneTriples (lanes : List Nat) (f : Nat → Nat × Nat) : List (Nat × Nat × Nat) := lanes.map (fun l => (l, (f l).1, (f l).2))

theorem atomPlaces_foldl (loc : Loc) (f : Nat → Nat × Nat) (lanes : List Nat) (acc : List (Nat × Nat × Nat)) :
    (atomLanes (lanes.map (fun l => (l, loc))) f).foldl (fun acc l =>
      if acc.any (fun a => a.1 == l.loc) then acc.map (fun a => if a.1 = l.loc then (a.1, a.2 ++ [(l.lane, l.x, l.new)]) else a)
      else acc ++ [(l.loc, [(l.lane, l.x, l.new)])]) [(loc, acc)] = [(loc, acc ++ laneTriples lanes f)] := by
  induction lanes generalizing acc with
  | nil => simp [atomLanes, laneTriples]
  | cons l ls ih =>
    have hstep := ih (acc ++ [(l, (f l).1, (f l).2)])
    simp only [List.append_assoc, List.singleton_append] at hstep
    refine Eq.trans ?_ hstep
    simp [atomLanes]

/-- R60: lanes at one place make one group. -/
theorem atomPlaces_of_one (loc : Loc) (f : Nat → Nat × Nat) (lanes : List Nat) :
    atomPlaces (atomLanes (lanes.map (fun l => (l, loc))) f) = if lanes = [] then [] else [(loc, laneTriples lanes f)] := by
  cases lanes with
  | nil => rfl
  | cons l ls => exact atomPlaces_foldl loc f ls [(l, (f l).1, (f l).2)]

/-- What an atomic's group leaves in scratch. -/
def groupLeft (u : State) (gid off n : Nat) (r : List (Nat × Nat) × Nat × Bool) : State :=
  if r.2.2 then u.scrPut gid off (leBytes r.2.1 n) else u

/-- The ordering of an atomic in scratch after its group: a release raises the floor, an acquire takes the core's. -/
def atomOrdered (x : Ctx) (c : Crew) (a : AtomOp) (u1 : State) : State :=
  let u2 := if ordRel a.ret a.order then u1.releaseFloor c.core .gg c.pts else u1
  u2.updCrew x.key (fun v => { v with pts := if ordAcq a.ret a.order then Ts.smax c.pts (u2.core c.core).crf else c.pts })

/-- The offset in scratch of a place. -/
def Loc.off : Loc → Nat
  | .scr o => o
  | .phys o | .prm o => o

/-- The verification of the sectors of an atomic's lanes in scratch (R75): the lanes that meet poison. -/
def scratchChecked (s : State) (gid n : Nat) (ls : List AtomLane) : State × List Nat :=
  ls.foldl (fun acc l =>
    let r := acc.1.scrCheck gid (Loc.off l.loc) n
    (r.1, if r.2 then acc.2 ++ [l.lane] else acc.2)) (s, [])

/-- The groups of an atomic in scratch, one after another: what they leave, and what their lanes found. -/
def scratchGroups (s : State) (gid n : Nat) (a : AtomOp) (ps : List (Loc × List (Nat × Nat × Nat))) : State × List (Nat × Nat) :=
  ps.foldl (fun acc p =>
    let m := match acc.1.gang gid with | some g => leVal (g.scrBytes (Loc.off p.1) n) | none => 0
    let r := atomGroup a.op a.cas a.ty p.2 m
    (groupLeft acc.1 gid (Loc.off p.1) n r, acc.2 ++ r.1)) (s, [])

/-- An atomic in scratch after its groups. -/
def atomEnd (x : Ctx) (c : Crew) (a : AtomOp) (r : State × List (Nat × Nat)) : Act :=
  if a.ret then pendNow x (atomOrdered x c a r.1) (a.result c x.act r.2) else .done (atomOrdered x c a r.1)

theorem atomScratch_eq (s : State) :
    atomScratch x c s a eas ls =
      let chk := scratchChecked s (keyGid x.key) (a.ty.bits / 8) ls
      if a.ret && !chk.2.isEmpty then .trap chk.1 (poisonTrap x.e (chk.2.map (fun l => (l, eaOf eas l))))
      else atomEnd x c a (scratchGroups chk.1 (keyGid x.key) (a.ty.bits / 8) a (atomPlaces ls)) := by
  rfl

section
variable {lanes : List Nat} {off : Nat} {g : Gang}

theorem scratchChecked_of_sound {n : Nat} (hg : u.gang (keyGid x.key) = some g) (hp : g.scrPoison = []) (hb : g.scrBadChk = []) :
    scratchChecked u (keyGid x.key) n ls = (u, []) := by
  refine List.foldlRecOn (motive := fun acc => acc = (u, [])) _ _ rfl (fun acc hacc l _ => ?_)
  simp only [hacc, State.scrCheck_of_sound hg hp hb, Bool.false_eq_true, if_false]

theorem scratchGroups_of_one {n : Nat} (hg : u.gang (keyGid x.key) = some g) :
    let r := atomGroup a.op a.cas a.ty (laneTriples lanes f) (leVal (g.scrBytes off n))
    scratchGroups u (keyGid x.key) n a (atomPlaces (atomLanes (lanes.map (fun l => (l, .scr off))) f)) = (groupLeft u (keyGid x.key) off n r, r.1) := by
  intro r
  rw [atomPlaces_of_one]
  by_cases hl : lanes = []
  · simp [hl, r, scratchGroups, laneTriples, atomGroup, groupLeft]
  · simp [hl, hg, r, scratchGroups, Loc.off]

/-- R191 to R193: an atomic whose lanes name one location of sound scratch. -/
theorem atomScratch_of_one (hg : u.gang (keyGid x.key) = some g) (hp : g.scrPoison = []) (hb : g.scrBadChk = []) :
    let r := atomGroup a.op a.cas a.ty (laneTriples lanes f) (leVal (g.scrBytes off (a.ty.bits / 8)))
    atomScratch x c u a eas (atomLanes (lanes.map (fun l => (l, .scr off))) f) =
      atomEnd x c a (groupLeft u (keyGid x.key) off (a.ty.bits / 8) r, r.1) := by
  intro r
  rw [atomScratch_eq, scratchChecked_of_sound hg hp hb]
  simp only [List.isEmpty_nil, Bool.not_true, Bool.and_false, Bool.false_eq_true, if_false]
  rw [scratchGroups_of_one hg]

end

/-! ## Homes -/

/-- The lines of an atomic's lanes, each once. -/
def atomLines (ls : List AtomLane) : List Nat :=
  ls.foldl (fun acc l => if acc.contains (Loc.addr l.loc / 128) then acc else acc ++ [Loc.addr l.loc / 128]) []

theorem mem_atomLines {line : Nat} (h : line ∈ atomLines ls) : ∃ l ∈ ls, Loc.addr l.loc / 128 = line := by
  obtain hnil | hl := (mem_foldl_distinct (fun l : AtomLane => Loc.addr l.loc / 128) ls [] line).1 h
  · exact absurd hnil List.not_mem_nil
  · exact hl

/-- A cluster's unit holds a dirty byte of the line. -/
def State.dirtyIn (s : State) (core line : Nat) : Bool :=
  match s.span (.cluster (clusterOf core)) line with
  | some v => !v.dirty.isEmpty
  | none => false

theorem State.writeReady_eq (s : State) (core : Nat) (lines : List Nat) :
    s.writeReady core lines = ((lines.filter (s.dirtyIn core)).foldl (fun s l => s.publishLine (.cluster (clusterOf core)) l (fun _ => true)) s,
      (lines.filter (s.dirtyIn core)).isEmpty) := rfl

/-- No cluster unit's dirty byte on the lines lets a write at the home go on (R353). -/
theorem State.writeReady_of_clean {s : State} {core : Nat} {lines : List Nat}
    (h : ∀ l ∈ lines, ∀ sp, s.span (.cluster (clusterOf core)) l = some sp → sp.dirty = []) : s.writeReady core lines = (s, true) := by
  have hheld : lines.filter (s.dirtyIn core) = [] := by
    refine List.filter_eq_nil_iff.2 (fun l hl => ?_)
    cases hsp : s.span (.cluster (clusterOf core)) l with
    | none => simp [State.dirtyIn, hsp]
    | some v => simp [State.dirtyIn, hsp, h l hl v hsp]
  rw [State.writeReady_eq, hheld]
  rfl

/-- The lanes of a returning atomic whose lines the crew has no request on, and the poison they meet (R184). -/
def State.atomMet (s : State) (x : Ctx) (c : Crew) (n : Nat) (eas : List (Nat × Nat)) (ls : List AtomLane) : State × List (Nat × Nat) :=
  s.poisonMet x.key c.core n ((ls.filter (fun l => c.acks.all (fun k => k.line != Loc.addr l.loc / 128))).map (fun l => (l.lane, eaOf eas l.lane, l.loc)))

/-- The cluster unit holds no dirty byte of the lanes' lines. -/
def State.CleanAt (v : State) (core : Nat) (locs : List (Nat × Loc)) : Prop :=
  ∀ l ∈ locs, ∀ sp, v.span (.cluster (clusterOf core)) (Loc.addr l.2 / 128) = some sp → sp.dirty = []

theorem State.writeReady_of_cleanAt {v : State} (h : v.CleanAt c.core locs) :
    v.writeReady c.core (atomLines (atomLanes locs f)) = (v, true) := by
  refine State.writeReady_of_clean (fun line hline sp hsp => ?_)
  obtain ⟨l, hl, rfl⟩ := mem_atomLines hline
  obtain ⟨p, hp, rfl⟩ := List.mem_map.1 hl
  exact h p hp sp hsp

theorem atomHome_eq (s : State) :
    atomHome x c s a eas ls =
      let met := if a.ret then s.atomMet x c (a.ty.bits / 8) eas ls else (s, [])
      let ready := met.1.writeReady c.core (atomLines ls)
      if !met.2.isEmpty then .trap met.1 (poisonTrap x.e met.2)
      else if !ready.2 then .blocked ready.1
      else
        let r := sendAtoms x c ready.1 a ls
        if a.ret then .wait (r.1.updCrew x.key (fun c => { c with reqs := c.reqs ++ r.2 })) .reply else .done r.1 := rfl

/-- R354: a reduction goes to the home of each line. -/
theorem atomHome_of_reduction (hret : a.ret = false) (hclean : u.CleanAt c.core locs) :
    atomHome x c u a eas (atomLanes locs f) = .done (sendAtoms x c u a (atomLanes locs f)).1 := by
  rw [atomHome_eq]
  simp only [hret, Bool.false_eq_true, if_false, State.writeReady_of_cleanAt hclean, List.isEmpty_nil, Bool.not_true]

/-- R354: a returning atomic whose lanes meet no poison waits for the answers of its requests. -/
theorem atomHome_of_returning (hret : a.ret = true) (hmet : (u.atomMet x c (a.ty.bits / 8) eas (atomLanes locs f)).2 = [])
    (hclean : (u.atomMet x c (a.ty.bits / 8) eas (atomLanes locs f)).1.CleanAt c.core locs) :
    let r := sendAtoms x c (u.atomMet x c (a.ty.bits / 8) eas (atomLanes locs f)).1 a (atomLanes locs f)
    atomHome x c u a eas (atomLanes locs f) = .wait (r.1.updCrew x.key (fun c => { c with reqs := c.reqs ++ r.2 })) .reply := by
  rw [atomHome_eq]
  simp only [hret, if_true, State.writeReady_of_cleanAt hclean, hmet, List.isEmpty_nil, Bool.not_true, Bool.false_eq_true, if_false]

/-- R184: a returning atomic whose lanes meet poison performs none. -/
theorem atomHome_of_poison (hret : a.ret = true) (hmet : (u.atomMet x c (a.ty.bits / 8) eas ls).2 ≠ []) :
    atomHome x c u a eas ls =
      .trap (u.atomMet x c (a.ty.bits / 8) eas ls).1 (poisonTrap x.e (u.atomMet x c (a.ty.bits / 8) eas ls).2) := by
  rw [atomHome_eq]
  simp only [hret, if_true]
  exact if_pos (by simpa using hmet)

end

/-! ## The operations -/

theorem ite_lt_eq_min (a b : Int) : (if b < a then b else a) = min a b := by
  rw [min_comm, min_def_lt]

/-- R60: the operations on one location, of an integer type. -/
theorem atomNew_of_int {ty : Ty} (hint : ty.isInt = true) (op m x : Nat) :
    atomNew op ty m x = match op with
      | 0 => (m + x) % 2 ^ ty.bits
      | 1 => iWrap ty (if iVal ty x < iVal ty m then iVal ty x else iVal ty m)
      | 2 => iWrap ty (if iVal ty m < iVal ty x then iVal ty x else iVal ty m)
      | 3 => Nat.land m x % 2 ^ ty.bits
      | 4 => Nat.lor m x % 2 ^ ty.bits
      | 5 => Nat.xor m x % 2 ^ ty.bits
      | 6 => x % 2 ^ ty.bits
      | 7 => if x % 2 ^ ty.bits ≤ m then 0 else m + 1
      | 16 => if 2 ^ ty.bits ≤ m + x then 2 ^ ty.bits - 1 else m + x
      | _ => if m = 0 || x % 2 ^ ty.bits < m then x % 2 ^ ty.bits else m - 1 := by
  have hflt : (ty.isFlt || ty.packed) = false := by
    cases ty with
    | i8 | i16 | i32 | i64 | n8 | n16 | n32 | n64 => rfl
    | f16 | bf16 | f32 | f64 | f16x2 | bf16x2 | dx8 | dx4 => exact absurd hint (by decide)
  exact if_neg (by simp [hflt])

/-- Settles O19: the group in ascending lane order; in scratch at once, at the homes by one ATOM for each line. -/
theorem atomics : Obligations.Atomics := by
  unfold Obligations.Atomics
  refine ⟨?group, ?scratch, ?home⟩
  case group =>
    intro ty op lane x new m rest hint hm hbits w left
    have hgroup (cas : Bool) (op : Nat) (rest : List (Nat × Nat × Nat)) := atomGroup.eq_2 op cas ty m lane x new rest
    refine ⟨?_, fun hx => ?_, fun hx => ?_, ?_⟩
    · simp [hgroup, left]
    · simp [hgroup, atomGroup, w, left, hx]
    · simp [hgroup, atomGroup, w, left, Ne.symm hx]
    · simp only [atomNew_of_int hint]
      refine ⟨rfl, ?_, ?_, rfl, rfl, rfl, rfl, rfl, ?_⟩
      · exact congrArg (iWrap ty) (ite_lt_eq_min (iVal ty m) (iVal ty x))
      · exact congrArg (iWrap ty) (max_def_lt (iVal ty m) (iVal ty x)).symm
      · simp only [Bool.or_eq_true, decide_eq_true_eq]
        rfl
  case scratch =>
    intro s x c t u o op off g n lanes data found left one two returns from' hc hg hp hb hf hsp
    have hspace : (o.space == .sp) = true := by rw [hsp]; rfl
    have hword (a : AtomOp) (f : Nat → Nat × Nat) (hty : a.ty = o.ty) (hrel : ReleasedFrom t u x.key a.ret a.order .gg) :=
      (atomWord_of_ok (f := f) (fun l hl pa hpa => by
        obtain ⟨k, -, rfl⟩ := List.mem_map.1 hl
        cases hpa) (by rw [hty]; exact hc) hf (if_pos hspace) hrel).trans ((if_pos hspace).trans (atomScratch_of_one hg hp hb))
    refine ⟨fun hr hrel => ?_, fun hr hrel => ?_, fun hr hrel => ?_⟩
    · exact ⟨_, exec_done_of_ready (mg := none) (.atom o op) hr rfl (hword ⟨op.toNat, false, true, o.ty, o.d, o.scope, o.order⟩ one rfl hrel),
        vecGives_vecWrites _ _ _ _ _ _ (fun _ _ => rfl)⟩
    · exact ⟨_, exec_done_of_ready (mg := none) (.acas o) hr rfl (hword ⟨6, true, true, o.ty, o.d, o.scope, o.order⟩ two rfl hrel),
        vecGives_vecWrites _ _ _ _ _ _ (fun _ _ => rfl)⟩
    · exact exec_done_of_ready (mg := none) (.red o op) hr rfl (hword ⟨op.toNat, false, false, o.ty, 0, o.scope, o.order⟩ one rfl hrel)
  case home =>
    intro s x c t u o op locs eas pa lanes one two from' clean met hc hown hf hsp hsc op' returns
    have hspace : ¬ (o.space == .sp) = true := by rw [hsp]; decide
    have hwide : ¬ o.scope.code < 3 := by omega
    have hword (a : AtomOp) (f : Nat → Nat × Nat) (hty : a.ty = o.ty) (hscope : a.scope = o.scope) (hrel : ReleasedFrom t u x.key a.ret a.order o.scope) :
        atomWord x c t o a f = atomHome x c u a eas (atomLanes locs f) :=
      (atomWord_of_ok hown (by rw [hty]; exact hc) hf ((if_neg hspace).trans hscope) hrel).trans ((if_neg hspace).trans (if_neg (hscope ▸ hwide)))
    have hreturns (i : Instr) (k : Nat) (cas : Bool) (f : Nat → Nat × Nat) {v : WUse} {body : Body} (hr : s.ready [v] = some (x, c, t))
        (hi : exec i s = fullWord i o.h v 8 body none s) (hb : body x c t = atomWord x c t o (op' k cas true o.d) f)
        (hrel : ReleasedFrom t u x.key true o.order o.scope) : returns i (op' k cas true o.d) f := by
      have hw := hb.trans (hword (op' k cas true o.d) f rfl rfl hrel)
      refine ⟨fun hmet hclean => ?_, fun hmet d hd => ?_⟩
      · exact exec_wait_of_ready i hr hi (hw.trans (atomHome_of_returning rfl hmet hclean))
      · exact exec_trap_of_crew i hr hi hd (hw.trans (atomHome_of_poison rfl hmet))
    refine ⟨fun hr hrel hclean => ?_, fun hr hrel => ?_, fun hr hrel => ?_⟩
    · exact exec_done_of_ready (mg := none) (.red o op) hr rfl ((hword (op' op.toNat false false 0) one rfl rfl hrel).trans
        (atomHome_of_reduction rfl hclean))
    · exact hreturns (.atom o op) op.toNat false one hr rfl rfl hrel
    · exact hreturns (.acas o) 6 true two hr rfl rfl hrel

end Sys2Proof.Machine
end

section
/-! SUPPORT. Leases and timestamps (R196, R197): the steps of the words on one place. -/

namespace Sys2Proof.Machine

/-- The lease class that gives a span up (R196): its dirty bytes are published, and the span dropped once nothing holds it. -/
def State.giveUp (s : State) (u : Agent) (line : Nat) : State :=
  let gone := s.publishLine u line (fun _ => true)
  match gone.span u line with
  | some v => if v.dirty.isEmpty && v.pending.isNone then gone.dropSpan u line else gone.setSpan u line { v with cnt := 0 }
  | none => gone

/-- A RENEW that carries a lease class (R196). -/
def State.renewClass (s : State) (x : Ctx) (c : Crew) (cls : BitVec 4) (t : Nat × Nat × Nat) : State :=
  let u : Agent := .core c.core
  let v := (s.span u t.1).getD Span.empty
  let s1 := s.send { Pkt.new (.renew none) u (s.destOf t.1) t.1 c.pts x.key x.e with
             first := t.2.1 / 8, cnt := t.2.2 / 8 - t.2.1 / 8 + 1, ops := [(cls.toNat, 0, 0, 0)] }
  if v.pending.isSome then s1 else s1.setSpan u t.1 { v with pending := some s.nextId }

theorem lease_of_one {s : State} {x : Ctx} {c : Crew} {t w : State} {o : Mem} {cls : BitVec 4} {lane pa : Nat} (hr : s.ready [Mem.use o true 0 0] = some (x, c, t))
    (hc : t.checkAll (.core c.core) (.split x.key x.e) (keyGid x.key) c.walks .gl 0 (memBytes o.ty) (laneEas o c x.act) = .ok [(lane, .phys pa)])
    (hw : (if cls = 15 then t.giveUp (.core c.core) (pa / 128) else t.renewClass x c cls (pa / 128, pa % 128, pa % 128 + memBytes o.ty - 1)) = w) :
    exec (.lease o cls) s = .next (x.retires 8 o.h.stall.toNat w) :=
  hw ▸ exec_done_of_ready (mg := none) (.lease o cls) hr rfl (checked_of_ok hc)

theorem State.giveUp_of_none {s : State} {u : Agent} {line : Nat} (h : (s.publishLine u line (fun _ => true)).span u line = none) :
    s.giveUp u line = s.publishLine u line (fun _ => true) := by
  simp only [State.giveUp, h]

theorem State.giveUp_of_some {s : State} {u : Agent} {line : Nat} {w : Span} (h : (s.publishLine u line (fun _ => true)).span u line = some w) :
    s.giveUp u line = if w.dirty.isEmpty && w.pending.isNone then (s.publishLine u line (fun _ => true)).dropSpan u line
      else (s.publishLine u line (fun _ => true)).setSpan u line { w with cnt := 0 } := by
  simp only [State.giveUp, h]

/-- The timestamp that `tsget` reads on the far side of a port (R197). -/
def State.farTs (s : State) (f : Bool) (pa : Nat) : Ts :=
  if f then (s.bridge (s.portOf pa)).clock
  else match s.farLine pa with
    | some l => l.wts.getD (pa % 64 / 32) 0
    | none => (s.bridge (s.portOf pa)).clock

section
variable {s : State} {x : Ctx} {c : Crew} {t : State} {h : Hdr} {f : Bool} {d a : Reg} {pa : Nat}

/-- What `tsget` gives once its place is known. -/
def tsgetAt (x : Ctx) (c : Crew) (s : State) (f : Bool) (d : Reg) (pa : Nat) : Act :=
  match s.target pa with
  | .dev o =>
    let v := if f then (s.home (s.servDie (o / 128))).clock else ((s.slice (s.servSlice (o / 128))).ts (o / 32)).1
    pendNow x s [sWrite d.toNat v.toNat]
  | .peer p va =>
    let r : OutReq := { port := 3 + p, addr := va, what := if f then 6 else 5, since := s.now, pkt := s.nextId,
                        crew := x.key, entry := x.e, bytes := [], dtid := s.dtidOf (s.gangAsid (keyGid x.key)) }
    .wait ((s.ask r).updCrew x.key (fun c => { c with reqs := c.reqs ++
      [{ pkt := s.nextId, entry := x.e, lanes := [x.act.lanes.getD 0 0], answer := none, poison := false }] })) .reply
  | _ => pendNow x s [sWrite d.toNat (s.farTs f pa).toNat]

theorem tsget_of_at {v : Ts} {lane : Nat} (hr : s.ready [(Hdr.use h [sReg a] [sReg d]).inDet true 0x6B] = some (x, c, t))
    (hc : t.checkAll (.core c.core) (.split x.key x.e) (keyGid x.key) c.walks .gl 0 1 [(x.act.lanes.getD 0 0, c.rs a.toNat)] = .ok [(lane, .phys pa)])
    (hv : tsgetAt x c t f d pa = pendNow x t [sWrite d.toNat v.toNat]) :
    exec (.tsget h f d a) s = .next (x.retires 8 h.stall.toNat (t.updCrew x.key (fun c => c.addPend x.e [sWrite d.toNat v.toNat]))) :=
  exec_done_of_ready (mg := none) (.tsget h f d a) hr rfl ((checked_of_ok hc).trans hv)

end

/-- Settles O20: the fence words, `prf`, `lease` and `tsget` are complete with what they did. -/
theorem fencesAndHints : Obligations.FencesAndHints := by
  unfold Obligations.FencesAndHints
  intro s x c t h sc ord o line f cls d a pa rel noted
  refine ⟨fun hr => ⟨fun hord => ?_, fun hrel => ?_, fun hrel => ?_⟩, fun hr => ⟨?_, fun hc => ?_⟩, fun hr hc => ?_⟩
  · refine exec_done_of_ready (mg := some _) (.fence h sc ord) hr rfl (if_neg ?_)
    simpa using hord
  · exact exec_done_of_ready (mg := some _) (.fence h sc .ar3) hr rfl ((if_pos rfl).trans (if_pos hrel))
  · exact exec_blocked_of_ready (mg := some _) (.fence h sc .ar3) hr rfl ((if_pos rfl).trans (if_neg (by simpa using hrel)))
  · exact exec_done_of_ready (mg := none) (.prf o line) hr rfl rfl
  · intro u p v gone next
    refine ⟨fun hcls hp => ?_, fun hcls hp => ?_, fun hcls hg => ?_, fun hcls w hg => ⟨fun hd hp => ?_, fun hdp => ?_⟩⟩
    · exact lease_of_one hr hc ((if_neg hcls).trans (if_pos (Option.isSome_iff_ne_none.2 hp)))
    · exact lease_of_one hr hc ((if_neg hcls).trans (if_neg (by simp [v, u] at hp; simp [hp])))
    · exact lease_of_one hr hc ((if_pos hcls).trans (State.giveUp_of_none hg))
    · exact lease_of_one hr hc ((if_pos hcls).trans ((State.giveUp_of_some hg).trans (if_pos (by simp [hd, hp]))))
    · exact lease_of_one hr hc ((if_pos hcls).trans ((State.giveUp_of_some hg).trans (if_neg (by simpa [Classical.or_iff_not_imp_left] using hdp))))
  · intro gives far
    refine ⟨fun dev hdev => ?_, fun hfar => ?_⟩
    · exact tsget_of_at hr hc (by rw [tsgetAt, hdev])
    · have hv : tsgetAt x c t f d pa = pendNow x t [sWrite d.toNat (t.farTs f pa).toNat] := by
        obtain ⟨k, hk⟩ | ⟨k, j, hk⟩ := hfar <;> rw [tsgetAt, hk]
      have hts : (match t.farLine pa with
          | some l => if f then far.clock else l.wts.getD (pa % 64 / 32) 0
          | none => far.clock) = t.farTs f pa := by
        cases hl : t.farLine pa <;> cases f <;> simp [State.farTs, hl, far]
      have := tsget_of_at hr hc hv
      rw [← hts] at this
      exact this

end Sys2Proof.Machine
end

section
/-! SUPPORT. Barrier objects (R106 to R111): their 16 bytes, and the operations on them. -/

namespace Sys2Proof.Machine

/-! ## The bits of an object -/

theorem BarObj.val_lt {o : BarObj} (hs : o.scope < 8) (he : o.exp < 2 ^ 20) (hl : o.left < 2 ^ 20) (hr : o.resv < 2 ^ 47) : o.val < 2 ^ 128 := by
  have hp : (o.pend % (2 ^ 36 : Nat)).toNat < 2 ^ 36 := by omega
  have hphase : o.phase.toNat ≤ 1 := Bool.toNat_le _
  have herr : o.err.toNat ≤ 1 := Bool.toNat_le _
  unfold BarObj.val
  omega

/-- A signed number of 36 bits, from its bits. -/
theorem signed36 {p : Nat} {q : Int} (hlo : -(2 ^ 35) ≤ q) (hhi : q < 2 ^ 35) (hp : p = (q % (2 ^ 36 : Nat)).toNat) :
    (if p < 2 ^ 35 then (p : Int) else p - (2 ^ 36 : Nat)) = q := by
  split <;> omega

/-- R106: the bytes of an object in its ranges give it back. -/
theorem barOf_val {o : BarObj} (hs : o.scope < 8) (he : o.exp < 2 ^ 20) (hl : o.left < 2 ^ 20) (hr : o.resv < 2 ^ 47) (hlo : -(2 ^ 35) ≤ o.pend)
    (hhi : o.pend < 2 ^ 35) : barOf o.val = o := by
  obtain ⟨scope, phase, err, exp, left, resv, pend⟩ := o
  simp only at *
  have hphase : phase.toNat ≤ 1 := Bool.toNat_le _
  have herr : err.toNat ≤ 1 := Bool.toNat_le _
  simp only [barOf, BarObj.val, fld, BarObj.mk.injEq]
  refine ⟨by omega, ?_, ?_, by omega, by omega, by omega, ?_⟩
  · cases phase <;> simp at * <;> omega
  · cases err <;> simp at * <;> omega
  · exact signed36 hlo hhi (by omega)

/-! ## The operations -/

/-- R106: the objects that an operation is performed on. -/
theorem BarObj.good_iff (o : BarObj) (scratch : Bool) :
    o.good scratch = true ↔ (if scratch then o.scope = 1 ∨ o.scope = 2 else o.scope = 3 ∨ o.scope = 4) ∧ o.resv = 0 ∧ (o.exp ≠ 0 ∨ (o.left = 0 ∧ o.pend ≠ 0)) := by
  cases scratch <;> simp [BarObj.good, BarObj.shaped, and_assoc]

/-- An object whose phase is over starts the next (R108). -/
def BarObj.settled (w : BarObj) : BarObj := if w.complete then w.flip else w

/-! ## Objects in scratch -/

section
variable {s : State} {gid off : Nat} {g : Gang} {p : Ts} {who : Option Nat}

theorem State.barFetch_scratch (hg : s.gang gid = some g) (hp : g.scrPoison = []) (hb : g.scrBadChk = []) (write : Bool) :
    s.barFetch (.scr gid off) p who write = .ok (s, leVal (g.scrBytes off 16), p) := by
  simp only [State.barFetch, hg, State.scrCheck_of_sound hg hp hb, Bool.false_eq_true, if_false]

theorem State.barStore_scratch (hg : s.gang gid = some g) (v : Nat) : s.barStore (.scr gid off) v p = (s.scrPut gid off (leBytes v 16), 0) := by
  simp only [State.barStore, hg]

theorem State.barScope_scratch (hg : s.gang gid = some g) : s.barScope (.scr gid off) = scopeOf (barOf (leVal (g.scrBytes off 16))).scope := by
  simp only [State.barScope, hg]

/-- No DET gang has arrived at an object whose arrivals are none. -/
theorem State.arrivals_of_none {b : BarLoc} (h : s.arrivedAt b = []) : s.arrivals.filter (fun a => a.1 != b) = s.arrivals := by
  have hnone : (s.arrivals.filter (fun a => a.1 == b)).map Prod.snd = [] := by
    rcases hl : (s.arrivals.filter (fun a => a.1 == b)).map Prod.snd with _ | ⟨g, gs⟩
    · exact hl
    · exfalso
      unfold State.arrivedAt at h
      rw [hl] at h
      refine absurd h (List.ne_nil_of_length_pos ?_)
      refine List.foldlRecOn (motive := fun l : List Nat => 0 < l.length) gs _ (by simp) (fun l _ k _ => ?_)
      simp
  refine List.filter_eq_self.2 (fun a ha => ?_)
  by_contra hne
  have hmem : a ∈ s.arrivals.filter (fun a => a.1 == b) := List.mem_filter.2 ⟨ha, by simpa using hne⟩
  rw [List.map_eq_nil_iff] at hnone
  rw [hnone] at hmem
  exact absurd hmem List.not_mem_nil

/-- What an object's operation does to it once its step is known (R108): the phase completed, or the object stored. -/
theorem State.barDo_scratch {a : BarAct} {o1 : BarObj} {idx : Nat} (hg : s.gang gid = some g) (hp : g.scrPoison = []) (hb : g.scrBadChk = [])
    (hgood : (barOf (leVal (g.scrBytes off 16))).good true = true) (herr : (barOf (leVal (g.scrBytes off 16))).err = false)
    (ha : (barOf (leVal (g.scrBytes off 16))).act a = .ok o1) (hl : a ≠ .look) (harr : s.arrivedAt (.scr gid off) = []) :
    s.barDo (.scr gid off) a p none idx who =
      .ok (s.scrPut gid off (leBytes o1.settled.val 16)) (barOf (leVal (g.scrBytes off 16))) 0 := by
  unfold State.barDo
  rw [State.barFetch_scratch hg hp hb]
  simp only [BarLoc.scratch, hgood, herr, Bool.not_true, Bool.or_self, Bool.false_eq_true, if_false, ha, if_neg hl]
  have hsame : ({ s with arrivals := s.arrivals.filter (fun x => x.1 != .scr gid off) } : State) = s := by rw [State.arrivals_of_none harr]
  cases hc : o1.complete with
  | true =>
    have hset : o1.settled = o1.flip := if_pos hc
    simp only [if_true, harr, State.mergesReady, State.mergeAll, List.foldl_nil, hsame, State.barStore_scratch hg, State.impFlip, hset]
  | false =>
    have hset : o1.settled = o1 := if_neg (by simp [hc])
    simp only [Bool.false_eq_true, if_false, State.barStore_scratch hg, hset]

theorem State.barDo_look_scratch {idx : Nat} {det : Option Nat} (hg : s.gang gid = some g) (hp : g.scrPoison = []) (hb : g.scrBadChk = [])
    (hgood : (barOf (leVal (g.scrBytes off 16))).good true = true) (herr : (barOf (leVal (g.scrBytes off 16))).err = false) :
    s.barDo (.scr gid off) .look p det idx who = .ok s (barOf (leVal (g.scrBytes off 16))) p := by
  unfold State.barDo
  rw [State.barFetch_scratch hg hp hb]
  simp only [BarLoc.scratch, hgood, herr, Bool.not_true, Bool.or_self, Bool.false_eq_true, if_false, BarObj.act, if_true]

theorem State.barDo_bad_scratch {a : BarAct} {idx : Nat} {det : Option Nat} (hg : s.gang gid = some g) (hp : g.scrPoison = []) (hb : g.scrBadChk = [])
    (hbad : (barOf (leVal (g.scrBytes off 16))).good true = false ∨ (barOf (leVal (g.scrBytes off 16))).err = true) :
    s.barDo (.scr gid off) a p det idx who = .sync s := by
  unfold State.barDo
  rw [State.barFetch_scratch hg hp hb]
  refine if_pos ?_
  obtain h | h := hbad <;> simp [BarLoc.scratch, h]

/-- R108: an arrival at an object that awaits no more waits. -/
theorem State.barDo_waits_scratch {drop : Bool} {idx : Nat} {det : Option Nat} (hg : s.gang gid = some g) (hp : g.scrPoison = []) (hb : g.scrBadChk = [])
    (hgood : (barOf (leVal (g.scrBytes off 16))).good true = true) (herr : (barOf (leVal (g.scrBytes off 16))).err = false)
    (hleft : (barOf (leVal (g.scrBytes off 16))).left = 0) : s.barDo (.scr gid off) (.arr drop) p det idx who = .waits s := by
  unfold State.barDo
  rw [State.barFetch_scratch hg hp hb]
  simp only [BarLoc.scratch, hgood, herr, Bool.not_true, Bool.or_self, Bool.false_eq_true, if_false, BarObj.act, hleft, if_true]

end

end Sys2Proof.Machine
end

section
/-! SUPPORT. Barrier words (R198 to R200): what each does at its object. -/

namespace Sys2Proof.Machine

/-- Checks that pass let a word go on that owns no place. -/
theorem checked_of_unowned {x : Ctx} {c : Crew} {t : State} {space : Space} {kind n : Nat} {eas : List (Nat × Nat)} {locs : List (Nat × Loc)}
    {k : List (Nat × Loc) → Act} {reads : Bool}
    (hc : t.checkAll (.core c.core) (.split x.key x.e) (keyGid x.key) c.walks space kind n eas = .ok locs) :
    checked x c t space kind n eas k reads false = k locs := by
  have hnone : (if kind = 0 || !false then [] else t.owes locs).isEmpty = true := by simp
  simp only [checked, hc]
  exact if_pos hnone

section
variable {s : State} {x : Ctx} {c : Crew} {t u : State} {o : Bar} {b : BarLoc} {kind : Nat} {k : BarLoc → Act}

theorem barAt_device {pa d lane : Nat} (hscr : o.scr = false) (ht : t.target pa = .dev d)
    (hc : t.checkAll (.core c.core) (.split x.key x.e) (keyGid x.key) c.walks .gl kind 16 [(x.act.lanes.getD 0 0, c.rs o.a.toNat)] = .ok [(lane, .phys pa)]) :
    barAt x c t o kind k = k (.dev d) := by
  unfold barAt
  simp only [hscr, Bool.false_eq_true, if_false, checked_of_unowned hc, ht]

theorem barAt_scratch {owner : Nat} {m : Gang} (hscr : o.scr = true)
    (how : (if o.rem then t.clusterMate (keyGid x.key) o.rank.toNat else some (keyGid x.key)) = some owner) (hm : t.gang owner = some m)
    (ha : c.rs o.a.toNat % 16 = 0) (hsz : c.rs o.a.toNat + 16 ≤ m.scrSz) : barAt x c t o kind k = k (.scr owner (c.rs o.a.toNat)) := by
  unfold barAt
  simp only [hscr, if_true, how, hm, Nat.not_lt.2 hsz, if_false, ha, ne_eq, not_true_eq_false]

/-- The objects of a crew's MZ-40: an operation on them needs no request over the domain. -/
def BarLoc.near : BarLoc → Bool
  | .peer _ _ => false
  | _ => true

/-- A `bar.init` of a fitting scope and count. -/
theorem barInit_of_fit (hr : s.ready [Hdr.use o.h (barSpan o) []] = some (x, c, t)) (hb : ∀ k, barAt x c t o 1 k = k b) (h0 : 0 < c.sval o.b)
    (h1 : c.sval o.b < 2 ^ 20) (hfit : if o.scr then o.scope = 1 ∨ o.scope = 2 else o.scope = 3 ∨ o.scope = 4) (hf : c.fenced x.act = false) :
    (∀ gid off, b = .scr gid off →
      exec (.barInit o) s = .next (x.retires 8 o.h.stall.toNat (t.barStore b (BarObj.init o.scope.toNat (c.sval o.b)).val c.pts).1)) ∧
    (∀ d, b = .dev d → ∀ u bs ts po, t.rangeWrite d (leBytes (BarObj.init o.scope.toNat (c.sval o.b)).val 16) c.pts none = .ok u bs ts po →
      exec (.barInit o) s = .next (x.retires 8 o.h.stall.toNat (u.updCrew x.key (fun c => { c with pts := Ts.smax c.pts ts })))) := by
  have hno : ¬ ((!(if o.scr then o.scope.toNat == 1 || o.scope.toNat == 2 else o.scope.toNat == 3 || o.scope.toNat == 4)) || decide (c.sval o.b = 0) ||
      decide (2 ^ 20 ≤ c.sval o.b)) = true := by
    have hfit' : (if o.scr then o.scope.toNat == 1 || o.scope.toNat == 2 else o.scope.toNat == 3 || o.scope.toNat == 4) = true := by
      split at hfit <;> rename_i hs <;> simp only [hs] <;> obtain h | h := hfit <;> rw [h] <;> rfl
    simp only [hfit', Bool.not_true, Bool.false_or, Bool.or_eq_true, decide_eq_true_eq]
    omega
  refine ⟨fun gid off hbl => ?_, fun d hbl u bs ts po hw => ?_⟩
  · subst hbl
    refine exec_done_of_ready (mg := none) (.barInit o) hr rfl ((hb _).trans ((if_neg (by simpa using hno)).trans (if_neg (by simp [hf]))))
  · subst hbl
    refine exec_done_of_ready (mg := none) (.barInit o) hr rfl ((hb _).trans ((if_neg (by simpa using hno)).trans ((if_neg (by simp [hf])).trans ?_)))
    simp only [hw]

theorem barExp_of_ok {u : State} {old : BarObj} {ts : Ts} (hr : s.ready [Hdr.use o.h (barSpan o) []] = some (x, c, t)) (hb : ∀ k, barAt x c t o 2 k = k b)
    (hnear : b.near = true) (hn : c.sval o.b < 2 ^ 35) (hf : c.fenced x.act = false) (hdo : t.barDo b (.exp (c.sval o.b)) c.pts none c.idx = .ok u old ts) :
    exec (.barExp o) s = .next (x.retires 8 o.h.stall.toNat u) := by
  refine exec_done_of_ready (mg := none) (.barExp o) hr rfl ((hb _).trans ((if_neg (Nat.not_le.2 hn)).trans ((if_neg (by simp [hf])).trans ?_)))
  cases b with
  | peer p va => cases hnear
  | scr gid off | dev d | imp gid k => simp only [hdo, barFinish]

section
variable {u1 : State} {old : BarObj} {ts : Ts}

/-- What a crew's look at its object gives the word (R199): the parity it asks about. -/
theorem barWait_of_look (hr : s.ready [Hdr.use o.h (barSpan o) []] = some (x, c, t)) (hb : ∀ k, barAt x c t o 0 k = k b) (hnear : b.near = true)
    (hdo : t.barDo b .look c.pts none c.idx (some x.key) = .ok u old ts) :
    (old.phase = (c.sval o.b % 2 == 1) → exec (.barWait o) s = .next (u.holdWord x.key x.e (.barWait o) (.bar b (c.sval o.b % 2 == 1)))) ∧
    (old.phase ≠ (c.sval o.b % 2 == 1) →
      exec (.barWait o) s = .next (x.retires 8 o.h.stall.toNat (u.barAcquired x.key c.core b (u.barScope b) ts))) := by
  refine ⟨fun hq => exec_wait_of_ready (mg := none) (.barWait o) hr rfl ((hb _).trans ?_),
    fun hq => exec_done_of_ready (mg := none) (.barWait o) hr rfl ((hb _).trans ?_)⟩
  all_goals
    cases b with
    | peer p va => cases hnear
    | scr gid off | dev d | imp gid k => simp only [hdo, barFinish, hq, if_true, if_false]

theorem barWait_of_bad (hr : s.ready [Hdr.use o.h (barSpan o) []] = some (x, c, t)) (hb : ∀ k, barAt x c t o 0 k = k b) (hnear : b.near = true)
    (hdo : t.barDo b .look c.pts none c.idx (some x.key) = .sync t) :
    exec (.barWait o) s = .next ((t.markIssued c).takeTrap x.key (mkTrap 7 x.e x.act 0 (c.rs o.a.toNat))) := by
  refine exec_trap_of_ready (mg := none) (.barWait o) hr rfl ((hb _).trans ?_)
  cases b with
  | peer p va => cases hnear
  | scr gid off | dev d | imp gid k => simp only [hdo, barFinish, syncTrap]

theorem barTry_of_look (hr : s.ready [Hdr.use o.h (barSpan o) [pReg o.d.toNat]] = some (x, c, t)) (hb : ∀ k, barAt x c t o 0 k = k b)
    (hnear : b.near = true) (hdo : t.barDo b .look c.pts none c.idx (some x.key) = .ok u old ts) :
    exec (.barTry o) s = .next (x.retires 8 o.h.stall.toNat
      ((if old.phase = (c.sval o.b % 2 == 1) then u else u.barAcquired x.key c.core b (u.barScope b) ts).updCrew x.key
        (fun w => w.addPend x.e [pWrite o.d.toNat x.act (fun _ => old.phase != (c.sval o.b % 2 == 1))]))) := by
  refine exec_done_of_ready (mg := none) (.barTry o) hr rfl ((hb _).trans ?_)
  cases b with
  | peer p va => cases hnear
  | scr gid off | dev d | imp gid k => simp only [hdo, barFinish, pendNow]

theorem barArr_of_ok (hr : s.ready [Hdr.use o.h [sReg o.a] [sReg o.d]] = some (x, c, t)) (hb : ∀ k, barAt x c t o 2 k = k b) (hnear : b.near = true)
    (hrel : t.releaseReady x.key (t.barScope b) = (u, true)) (hdo : u.barDo b (.arr o.drop) c.pts x.detGang c.idx = .ok u1 old ts) :
    exec (.barArr o) s = .next (x.retires 8 o.h.stall.toNat ((u1.barReleased x.key c.core (t.barScope b) ts).updCrew x.key
      (fun w => w.addPend x.e [sWrite o.d.toNat old.phase.toNat]))) := by
  refine exec_done_of_ready (mg := none) (.barArr o) hr rfl ((hb _).trans ?_)
  cases b with
  | peer p va => cases hnear
  | scr gid off | dev d | imp gid k => simp only [hrel, hdo, barFinish, pendNow, Bool.not_true, Bool.false_eq_true, if_false]

theorem barArr_of_waits (hr : s.ready [Hdr.use o.h [sReg o.a] [sReg o.d]] = some (x, c, t)) (hb : ∀ k, barAt x c t o 2 k = k b) (hnear : b.near = true)
    (hrel : t.releaseReady x.key (t.barScope b) = (u, true)) (hdo : u.barDo b (.arr o.drop) c.pts x.detGang c.idx = .waits u) :
    exec (.barArr o) s = .next (u.holdWord x.key x.e (.barArr o) (.arrive b)) := by
  refine exec_wait_of_ready (mg := none) (.barArr o) hr rfl ((hb _).trans ?_)
  cases b with
  | peer p va => cases hnear
  | scr gid off | dev d | imp gid k => simp only [hrel, hdo, barFinish, Bool.not_true, Bool.false_eq_true, if_false]

end

/-- R200: the arrival at an implicit object, and the wait with the parity it found. -/
theorem impArrive_of_ok {g : Gang} {u1 : State} {old : BarObj} {k : Nat} (harr : c.arr = none) (hrel : t.releaseReady x.key .gg = (u, true))
    (hdo : u.barDo (.imp (keyGid x.key) k) (.arr false) c.pts x.detGang c.idx = .ok u1 old 0)
    (hg : ((u1.barReleased x.key c.core .gg 0).updCrew x.key (fun v => { v with arr := some (k, old.phase) })).gang (keyGid x.key) = some g) :
    let w := (u1.barReleased x.key c.core .gg 0).updCrew x.key (fun v => { v with arr := some (k, old.phase) })
    impArrive x c t k =
      if (barOf (g.bar k).obj.toNat).phase = old.phase then .wait w (.bar (.imp (keyGid x.key) k) old.phase)
      else .done ((w.updCrew x.key (fun v => { v with arr := none })).barAcquired x.key c.core (.imp (keyGid x.key) k) .gg 0) := by
  simp only [impArrive, harr, hrel, hdo, barFinish, Bool.not_true, Bool.false_eq_true, if_false, impWait, hg]

theorem bsync_arrives {h : Hdr} {k : BitVec 2} (hr : s.ready [Hdr.use h [] []] = some (x, c, t)) (hmask : (c.split x.e).mask = c.live) (harr : c.arr = none) :
    ImpArrives (.bsync h k) s x c h.stall.toNat t k.toNat := by
  intro u u1 old g hrel hdo w hg
  have hbody := impArrive_of_ok harr hrel hdo hg
  split
  · exact exec_wait_of_ready (mg := none) (.bsync h k) hr rfl ((if_neg (not_not.2 hmask)).trans (hbody.trans (if_pos ‹_›)))
  · exact exec_done_of_ready (mg := none) (.bsync h k) hr rfl ((if_neg (not_not.2 hmask)).trans (hbody.trans (if_neg ‹_›)))

end

/-- Settles O22: the operations on objects, and the barrier words on the objects of scratch, device memory and the gang itself. -/
theorem barriers : Obligations.Barriers := by
  unfold Obligations.Barriers
  refine ⟨⟨fun o n => ?ops, fun o hs he hl hr hlo hhi => ⟨BarObj.val_lt hs he hl hr, barOf_val hs he hl hr hlo hhi⟩⟩, ?words⟩
  case ops =>
    refine ⟨rfl, rfl, fun h => if_neg (Int.not_le.2 h), fun h => if_pos h, fun h => if_neg (Int.not_lt.2 h), fun h => if_pos h, ?_, rfl,
      BarObj.good_iff o true, BarObj.good_iff o false⟩
    simp only [BarObj.complete, Bool.decide_and]
    rfl
  case words =>
    intro s x c t o g h k pa d ea gid b v stored settled done traps q two flags
    refine ⟨fun hg hp hb hscr hrem ha hsz => ?own, fun hscr ht kind hc k => barAt_device hscr ht hc,
      fun hscr hrem ha mate m hmate hm hsz kind k => barAt_scratch hscr ((if_pos hrem).trans hmate) hm ha hsz, fun b1 hb1 => ?elsewhere,
      fun hr hmask harr => bsync_arrives hr hmask harr⟩
    case own =>
      have hat (kind : Nat) (k : BarLoc → Act) : barAt x c t o kind k = k b := barAt_scratch hscr (if_neg (by simp [hrem])) hg ha hsz
      refine ⟨fun hr => ⟨fun h0 h1 hsc hf => ?_, fun hgood herr hn hpend hf harr => ?_, fun hgood herr => ?_, fun hbad => ?_⟩,
        fun hr hgood herr => ?_, fun hr hgood herr hdet u hrel hgu harr => ?_⟩
      · have hfit : if o.scr then o.scope = 1 ∨ o.scope = 2 else o.scope = 3 ∨ o.scope = 4 := by rw [if_pos hscr]; exact hsc
        exact ((barInit_of_fit hr (hat 1) h0 h1 hfit hf).1 gid ea rfl).trans (by rw [State.barStore_scratch hg])
      · have hact : v.act (.exp (c.sval o.b)) = .ok { v with pend := v.pend + c.sval o.b } := if_neg (Int.not_le.2 hpend)
        exact barExp_of_ok hr (hat 2) rfl hn hf (State.barDo_scratch hg hp hb hgood herr hact (by simp) harr)
      · have hlook := barWait_of_look hr (hat 0) rfl (State.barDo_look_scratch hg hp hb hgood herr)
        rw [State.barScope_scratch hg] at hlook
        exact ⟨hlook.2, hlook.1⟩
      · exact barWait_of_bad hr (hat 0) rfl (State.barDo_bad_scratch hg hp hb hbad)
      · have htry := barTry_of_look hr (hat 0) rfl (State.barDo_look_scratch hg hp hb hgood herr)
        rw [State.barScope_scratch hg] at htry
        exact ⟨_, predGives_pWrite _ _ _ _ (fun _ _ => rfl), htry⟩
      · have hscope : t.barScope b = scopeOf v.scope := State.barScope_scratch hg
        have hdet' : x.detGang = none := if_neg (by simp [hdet])
        rw [← hscope] at hrel ⊢
        refine ⟨fun hleft => ?_, fun hleft => ?_⟩
        · have hact : v.act (.arr o.drop) = .ok { v with left := v.left - 1, exp := if o.drop then v.exp - 1 else v.exp } :=
            if_neg (Nat.pos_iff_ne_zero.1 hleft)
          refine barArr_of_ok hr (hat 2) rfl hrel ?_
          rw [hdet']
          exact State.barDo_scratch hgu hp hb hgood herr hact (by simp) harr
        · exact barArr_of_waits hr (hat 2) rfl hrel (State.barDo_waits_scratch hgu hp hb hgood herr hleft)
    case elsewhere =>
      intro check
      have hnear : b1.near = true := by
        obtain h | ⟨mate, h⟩ := hb1 <;> rw [h] <;> rfl
      refine ⟨fun hr hc h0 h1 hfit hf => ?_, fun hr hc hn hf u old ts hdo => barExp_of_ok hr hc hnear hn hf hdo,
        fun hc u old ts hdo => ⟨fun hr => (barWait_of_look hr hc hnear hdo).1, fun hr => (barWait_of_look hr hc hnear hdo).2, fun hr => ?_⟩,
        fun hr hc u hrel u1 old ts hdo => barArr_of_ok hr hc hnear hrel hdo⟩
      · obtain ⟨hscr, hdev⟩ := barInit_of_fit hr hc h0 h1 hfit hf
        exact ⟨fun mate => hscr mate ea, hdev d⟩
      · exact ⟨_, predGives_pWrite _ _ _ _ (fun _ _ => rfl), barTry_of_look hr hc hnear hdo⟩

end Sys2Proof.Machine
end

section
/-! SUPPORT. Wells (R114 to R117, R201): the pushes and pops of a crew that may use the well. -/

namespace Sys2Proof.Machine

set_option Elab.async false -- one proof at a time: the threads of many at once take too much memory

section
variable {x : Ctx} {c : Crew} {t u : State} {g : Gang} {w : Well} {k : Nat} {pr : BitVec 3} {fits : Well → Bool}

theorem pushTo_of_full {f : State → Well → Act} (hw : t.well (keyGid x.key) k = some w) (hfit : fits w = true)
    (hp : w.producers.getLsbD c.idx = true) (hfull : w.full c.idx = true) : pushTo x c t k fits f = .wait t (.well k) := by
  simp only [pushTo, hw, hfit, hp, hfull, Bool.not_true, Bool.or_self, Bool.false_eq_true, if_false, if_true]

theorem pushTo_of_room {f : State → Well → Act} (hw : t.well (keyGid x.key) k = some w) (hfit : fits w = true)
    (hp : w.producers.getLsbD c.idx = true) (hfull : w.full c.idx = false) (hrel : t.releaseReady x.key .gg = (u, true)) :
    pushTo x c t k fits f = f (u.releaseFloor c.core .gg c.pts) w := by
  simp only [pushTo, hw, hfit, hp, hfull, hrel, Bool.not_true, Bool.or_self, Bool.false_eq_true, if_false]

theorem popFrom_of_empty_open {f : State → Well → (Nat × Nat × W32) → Act} (hw : t.well (keyGid x.key) k = some w) (hfit : fits w = true)
    (hc : w.consumers.getLsbD c.idx = true) (hents : w.ents = []) (hopen : w.closed = false) : popFrom x c t k pr fits f = .wait t (.well k) := by
  simp only [popFrom, hw, hfit, hc, hents, hopen, Bool.not_true, Bool.not_false, Bool.or_self, Bool.false_eq_true, if_false, if_true]

theorem popFrom_of_empty_closed {f : State → Well → (Nat × Nat × W32) → Act} (hw : t.well (keyGid x.key) k = some w) (hfit : fits w = true)
    (hc : w.consumers.getLsbD c.idx = true) (hents : w.ents = []) (hclosed : w.closed = true) (hpr : pr ≠ 7) :
    popFrom x c t k pr fits f = pendNow x t (popFlag pr x.act false) := by
  simp only [popFrom, hw, hfit, hc, hents, hclosed, Bool.not_true, Bool.or_self, Bool.false_eq_true, if_false, if_neg hpr]

theorem popFrom_of_entry {f : State → Well → (Nat × Nat × W32) → Act} {ent : Nat × Nat × W32} {rest : List (Nat × Nat × W32)}
    (hw : t.well (keyGid x.key) k = some w) (hfit : fits w = true) (hc : w.consumers.getLsbD c.idx = true) (hents : w.ents = ent :: rest) :
    popFrom x c t k pr fits f = f t w ent := by
  simp only [popFrom, hw, hfit, hc, hents, Bool.not_true, Bool.or_self, Bool.false_eq_true, if_false]

/-- A well of data entries of the width of a word's register group (R117). -/
def Well.holdsData (nreg : Nat) (w : Well) : Bool := !w.tiles && w.kind == nreg

theorem Well.holdsData_of_kind {nreg : Nat} (htiles : w.tiles = false) (hkind : w.kind = nreg) : w.holdsData nreg = true := by
  simp [Well.holdsData, htiles, hkind]

/-- A data push is a push to a well of its kind. -/
theorem pushAct_eq (nreg r : Nat) : pushAct x c t k nreg r = pushTo x c t k (Well.holdsData nreg) (fun s1 w =>
    .done ((s1.scrPut (keyGid x.key) (w.entry w.tail) (pushBytes c r (2 ^ nreg) x.act)).setWell (keyGid x.key) k
      { w with ents := w.ents ++ [(c.idx, 0, 0)] })) := rfl

theorem popAct_of_empty_open {nreg d : Nat} (hw : t.well (keyGid x.key) k = some w) (hfit : w.holdsData nreg = true)
    (hc : w.consumers.getLsbD c.idx = true) (hents : w.ents = []) (hopen : w.closed = false) : popAct x c t k nreg d pr = .wait t (.well k) := by
  unfold popAct
  exact popFrom_of_empty_open hw hfit hc hents hopen

theorem popAct_of_empty_closed {nreg d : Nat} (hw : t.well (keyGid x.key) k = some w) (hfit : w.holdsData nreg = true)
    (hc : w.consumers.getLsbD c.idx = true) (hents : w.ents = []) (hclosed : w.closed = true) (hpr : pr ≠ 7) :
    popAct x c t k nreg d pr = pendNow x t (popFlag pr x.act false) := by
  unfold popAct
  exact popFrom_of_empty_closed hw hfit hc hents hclosed hpr

/-- A data pop of an entry in sound scratch. -/
theorem popAct_of_entry {ent : Nat × Nat × W32} {rest : List (Nat × Nat × W32)} {nreg d : Nat} (hw : t.well (keyGid x.key) k = some w)
    (hc : w.consumers.getLsbD c.idx = true) (htiles : w.tiles = false) (hkind : w.kind = nreg) (hents : w.ents = ent :: rest)
    (hg : t.gang (keyGid x.key) = some g) (hp : g.scrPoison = []) (hb : g.scrBadChk = []) :
    popAct x c t k nreg d pr = pendNow x ((t.setWell (keyGid x.key) k w.popped).popAcquire x.key c.core)
      (c.vecWrites d (2 ^ nreg) x.act (fun l => leVal (((g.scrBytes (w.entry w.head) w.size).drop (l * (4 * 2 ^ nreg))).take (4 * 2 ^ nreg))) ++
        popFlag pr x.act true) := by
  unfold popAct
  refine (popFrom_of_entry hw (Well.holdsData_of_kind htiles hkind) hc hents).trans ?_
  simp only [State.scrCheck_of_sound hg hp hb, hg, hp, List.contains_nil, List.filter_false, List.isEmpty_nil, Bool.not_true, Bool.false_eq_true, if_false]

/-- A tile push whose tile is configured and free. -/
theorem tpushAct_of_tile {i : Instr} {tile p : Nat} {v : W32} (hbusy : c.tileWait t.now [] [tile] = false) (htile : c.tile? tile = some (p, v)) :
    tpushAct x c t i k tile = pushTo x c t k Well.tiles (fun s1 w =>
      .done ((s1.updCrew x.key (fun c => { c with bind := c.bind.set tile none, tc := c.tc.set tile 0 })).setWell (keyGid x.key) k
        { w with ents := w.ents ++ [(c.idx, p, v)] })) := by
  simp only [tpushAct, hbusy, htile, Bool.false_eq_true, if_false]

theorem tpopAct_of_entry {ent : Nat × Nat × W32} {rest : List (Nat × Nat × W32)} {d : Nat} (hw : t.well (keyGid x.key) k = some w)
    (hc : w.consumers.getLsbD c.idx = true) (htiles : w.tiles = true) (hents : w.ents = ent :: rest) (hd : d < c.ntiles)
    (hv : Tc.v (c.tc.getD d 0) = false) :
    tpopAct x c t k d pr =
      let v := ((t.setWell (keyGid x.key) k w.popped).popAcquire x.key c.core).updCrew x.key (fun c =>
        { c with bind := c.bind.set d (some ent.2.1), tc := c.tc.set d ent.2.2 })
      if pr = 7 then .done v else pendNow x v (popFlag pr x.act true) := by
  refine (popFrom_of_entry hw htiles hc hents).trans (if_neg ?_)
  simp only [Nat.not_le.2 hd, hv, decide_false, Bool.or_self, Bool.false_eq_true, not_false_iff]

end

/-- Settles O23: a well of a good configuration is made empty, a push adds an entry and a pop takes the head one, or they wait. -/
theorem wellWords : Obligations.WellWords := by
  unfold Obligations.WellWords
  intro s x c t u g w h well n pr a b d gid k done waits flag pd
  refine ⟨fun hr hg hnone hdet => ?cfg, fun hw hprod => ?push, fun hw hcons => ?pop⟩
  case cfg =>
    intro w0
    have hgang : t.gang (keyGid x.key) = some g := hg
    refine ⟨fun hbad => exec_trap_of_ready (mg := none) (.wellCfg h well a b) hr rfl ?_,
      fun hgood => exec_done_of_ready (mg := none) (.wellCfg h well a b) hr rfl ?_⟩
    · simp only [hgang]
      refine if_pos ?_
      rw [hbad]
      rfl
    · simp only [hgang]
      refine (if_neg ?_).trans (if_neg ?_)
      · rw [hgood, hnone]
        exact Bool.false_ne_true
      · simp [hdet]
  case push =>
    intro u1
    refine ⟨fun hr htiles hkind => ?_, fun hr htiles hbusy p v htile => ?_⟩
    · have hfit : w.holdsData n.toNat = true := Well.holdsData_of_kind htiles hkind
      exact ⟨fun hfull => exec_wait_of_ready (mg := none) (.wellPush h well n a) hr rfl ((pushAct_eq _ _).trans (pushTo_of_full hw hfit hprod hfull)),
        fun hfull hrel => exec_done_of_ready (mg := none) (.wellPush h well n a) hr rfl
          ((pushAct_eq _ _).trans (pushTo_of_room hw hfit hprod hfull hrel))⟩
    · have hbody := tpushAct_of_tile (x := x) (i := .wellTpush h well a) (k := k) hbusy htile
      exact ⟨fun hfull => exec_wait_of_ready (mg := none) (.wellTpush h well a) hr rfl (hbody.trans (pushTo_of_full hw htiles hprod hfull)),
        fun hfull hrel => exec_done_of_ready (mg := none) (.wellTpush h well a) hr rfl (hbody.trans (pushTo_of_room hw htiles hprod hfull hrel))⟩
  case pop =>
    refine ⟨fun hr htiles hkind => ⟨fun hents hopen => ?_, fun hents hclosed hpr => ?_, fun hents hg hp hb => ?_⟩,
      fun hr htiles => ⟨fun hents hopen => ?_, fun ent rest hents hd hv => ?_⟩⟩
    · exact exec_wait_of_ready (mg := none) (.wellPop h well n pr d) hr rfl (popAct_of_empty_open hw (Well.holdsData_of_kind htiles hkind) hcons hents hopen)
    · exact exec_done_of_ready (mg := none) (.wellPop h well n pr d) hr rfl (popAct_of_empty_closed hw (Well.holdsData_of_kind htiles hkind) hcons hents hclosed hpr)
    · obtain ⟨ent, rest, hents⟩ := List.exists_cons_of_ne_nil hents
      exact ⟨_, vecGives_vecWrites _ _ _ _ _ _ (fun _ _ => rfl),
        exec_done_of_ready (mg := none) (.wellPop h well n pr d) hr rfl (popAct_of_entry hw hcons htiles hkind hents hg hp hb)⟩
    · exact exec_wait_of_ready (mg := none) (.wellTpop h well pr d) hr rfl (popFrom_of_empty_open hw htiles hcons hents hopen)
    · intro v
      have hbody := tpopAct_of_entry (pr := pr) hw hcons htiles hents hd hv
      exact ⟨fun hpr => exec_done_of_ready (mg := none) (.wellTpop h well pr d) hr rfl (hbody.trans (if_pos hpr)),
        fun hpr => exec_done_of_ready (mg := none) (.wellTpop h well pr d) hr rfl (hbody.trans (if_neg hpr))⟩

end Sys2Proof.Machine
end

section
/-! SUPPORT. Copy-engine commands (R203 to R211): their departure, and the completion of their parts. -/

namespace Sys2Proof.Machine

set_option Elab.async false -- one proof at a time: the threads of many at once take too much memory

/-! ## The departure of a command -/

/-- The state in which a command departs (R112, R113): counted in its crew's open batch and in its launch. -/
def State.counted (u : State) (key lslot : Nat) : State :=
  (u.updCrew key (fun c => { c with openCmds := c.openCmds + 1 })).updLaunch lslot (fun l => { l with cmdsLeft := l.cmdsLeft + 1 })

/-- A command departs (R205); a switch reduction takes its rank's next round (R212). -/
def State.departed (v : State) (k : Cmd) (op : Nat) : State :=
  let g := Tab.getD v.swr (fld k.b0 0 16) { rounds := [], next := [] }
  let rank := fld k.b0 16 9
  let k1 := if op = 8 then { k with landed := [(Tab.getD g.next rank 0, 0)] } else k
  let swr := if op = 8 then
      Tab.set v.swr (fld k.b0 0 16) { g with next := Tab.set g.next rank (Tab.getD g.next rank 0 + 1) }
    else v.swr
  let w := { v with cmds := Tab.set v.cmds v.nextId k1, nextId := v.nextId + 1, swr := swr }
  if k.total = 0 && op != 8 then w.cmdEnd v.nextId k else w

theorem State.departed_eq (v : State) (k : Cmd) (op : Nat) :
    v.departed k op =
      let n := fld k.b0 0 16
      let rank := fld k.b0 16 9
      let g := Tab.getD v.swr n { rounds := [], next := [] }
      let round := Tab.getD g.next rank 0
      if op = 8 then { v with cmds := Tab.set v.cmds v.nextId { k with landed := [(round, 0)] }, nextId := v.nextId + 1,
                              swr := Tab.set v.swr n { g with next := Tab.set g.next rank (round + 1) } }
      else
        let w : State := { v with cmds := Tab.set v.cmds v.nextId k, nextId := v.nextId + 1 }
        if k.total = 0 then w.cmdEnd v.nextId k else w := by
  obtain rfl | h := eq_or_ne op 8
  · exact if_neg (by simp)
  · simp [State.departed, h]

/-- A command whose operands pass the checks: it waits for room and for its release, and departs. -/
def copyGoes (x : Ctx) (c : Crew) (s : State) (op : Nat) (k : Cmd) : Act :=
  if 64 ≤ c.cmdsLeft then .blocked s
  else
    let r := s.releaseReady x.key .dv
    if !r.2 then .blocked r.1 else .done ((r.1.counted x.key k.lslot).departed k op)

section
variable {x : Ctx} {c : Crew} {t u : State} {o : Cpy} {op : Nat} {hasB : Bool}

/-- The scratch size of a crew's gang (R204). -/
def State.scrSizeOf (t : State) (gid : Nat) : Nat := match t.gang gid with | some g => g.scrSz | none => 0

/-- A crew's gang has cluster ranks (R14). -/
def State.inCluster (t : State) (gid : Nat) : Bool :=
  match t.gangLaunch gid with
  | some l => l.clu && !(match t.gang gid with | some v => v.cont | none => false)
  | none => false

theorem copyAct_eq : copyAct x c t o op hasB =
    match (cpyCmd x c t o op hasB).check (t.scrSizeOf (keyGid x.key)) (t.inCluster (keyGid x.key)) with
    | some f => .trap t (cpyTrap x f)
    | none => copyGoes x c t op (cpyCmd x c t o op hasB) := rfl

theorem copyAct_of_fault {f : Nat × Nat × Nat}
    (hf : (cpyCmd x c t o op hasB).check (t.scrSizeOf (keyGid x.key)) (t.inCluster (keyGid x.key)) = some f) :
    copyAct x c t o op hasB = .trap t (cpyTrap x f) := by
  rw [copyAct_eq, hf]

/-- R61, R204: a command departs once its operands pass, its crew has room for it, and its release has published what it must. -/
theorem copyAct_of_ready (hf : (cpyCmd x c t o op hasB).check (t.scrSizeOf (keyGid x.key)) (t.inCluster (keyGid x.key)) = none)
    (hleft : c.cmdsLeft < 64) (hrel : t.releaseReady x.key .dv = (u, true)) :
    copyAct x c t o op hasB = .done ((u.counted x.key (cpyCmd x c t o op hasB).lslot).departed (cpyCmd x c t o op hasB) op) := by
  rw [copyAct_eq, hf]
  simp only [copyGoes, Nat.not_le.2 hleft, hrel, if_false, Bool.not_true, Bool.false_eq_true]

end

/-! ## The parts of a command -/

section
variable {s : State} {id part : Nat} {k : Cmd} {p : Part1}

/-- What a part that nothing holds back does (R205): `cpy.dom` asks its peer, the others go by their object. -/
def State.partStep (s : State) (id : Nat) (k : Cmd) (part : Nat) (p : Part1) : State :=
  if k.op = 7 then s.domPart id k part p
  else match s.cmdBar k.asid k.gid k.bar k.bsp k.lslot with
    | .none => s.partWith id k part p none
    | .loc s1 b => s1.partWith id k part p (some b)
    | .bad s1 => s1.partDone id k part 4 k.pts
    | .held s1 pg => s1.engWait { what := 0, id := id, part := part, asid := k.asid, page := pg }
    | .later s1 => s1

theorem copyPart_of_free (hk : Tab.get s.cmds id = some k) (hp : k.part part = some p) (h3 : k.op ≠ 3) (hd : k.done.contains part = false)
    (hw : s.engWaits = []) (ho : s.partOut id part = false) : exec (.copyPartComplete id part) s = .next (s.partStep id k part p) := by
  refine (?_ : execCopyPartComplete id part s = _)
  simp only [execCopyPartComplete, hk, hp, hd, ho, hw, State.partDropped, List.any_nil, Bool.or_false, decide_eq_true_eq, if_neg h3, Bool.false_eq_true,
    if_false]
  unfold State.partStep
  split
  · rfl
  · cases s.cmdBar k.asid k.gid k.bar k.bsp k.lslot <;> rfl

theorem State.partStep_of_copy (h7 : k.op ≠ 7) : s.partStep id k part p = match s.cmdBar k.asid k.gid k.bar k.bsp k.lslot with
    | .none => s.partWith id k part p none
    | .loc s1 b => s1.partWith id k part p (some b)
    | .bad s1 => s1.partDone id k part 4 k.pts
    | .held s1 pg => s1.engWait { what := 0, id := id, part := part, asid := k.asid, page := pg }
    | .later s1 => s1 := if_neg h7

theorem State.partMove_of_failed (h : k.failed = true) : s.partMove k p = .ok s 4 k.pts := if_pos h

section
variable {u v : State} {ts : Ts} {bs : List Byte}

theorem State.partMove_of_fault (h : k.failed = false) (hb : s.partBytes k p = .fail u) : s.partMove k p = .ok u 4 k.pts := by
  simp only [State.partMove, h, Bool.false_eq_true, if_false, hb]

theorem State.partMove_of_poison (h : k.failed = false) (hb : s.partBytes k p = .poison u) : s.partMove k p = EngIO.ends (u.engPoison k p.dst p.n) 2 := by
  simp only [State.partMove, h, Bool.false_eq_true, if_false, hb]

theorem State.partMove_of_bytes (h : k.failed = false) (hb : s.partBytes k p = .ok u bs) : s.partMove k p = EngIO.ends (u.engWrite k p.dst bs) 0 := by
  simp only [State.partMove, h, Bool.false_eq_true, if_false, hb]

/-- A part without an object is done with what its move gives. -/
theorem State.partWith_none {st : BitVec 4} (hm : s.partMove k p = .ok v st ts) : s.partWith id k part p none = v.partDone id k part st ts := by
  simp only [State.partWith, hm, State.partCredit]

theorem State.partWith_malformed {b : BarLoc} (h : s.barLive b = .malformed) : s.partWith id k part p (some b) = s.partDone id k part 4 k.pts := by
  simp only [State.partWith, h]

theorem State.partWith_gone {b : BarLoc} {st : BitVec 4} (h : s.barLive b = .gone) (hm : s.partMove k p = .ok v st ts) :
    s.partWith id k part p (some b) = v.partDone id k part st ts := by
  simp only [State.partWith, h, hm, State.partCredit]

/-- R205: a part whose object takes its credit, after its bytes. -/
theorem State.partWith_live {b : BarLoc} {st : BitVec 4} {u1 w : State} {g1 good : Bool} {t1 t2 : Ts} (hnear : b.near = true) (h : s.barLive b = .live)
    (hc1 : s.credit b p.n k.pts = .ok u1 g1 t1) (hm : s.partMove k p = .ok v st ts) (hc2 : v.credit b p.n ts = .ok w good t2) :
    s.partWith id k part p (some b) = w.partDone id k part (if good then st else st ||| 4) t2 := by
  cases b with
  | peer q va => cases hnear
  | scr gid off | dev o | imp gid j => simp only [State.partWith, h, hc1, hm, State.partCredit, hc2]

end

/-- A part's end: the last byte ends the command (R205). -/
theorem State.partDone_eq (st : BitVec 4) (ts : Ts) :
    s.partDone id k part st ts =
      let k1 := { k with done := k.done ++ [part], pts := ts }
      let got : Nat := k1.done.foldl (fun n q => match k1.part q with | some v => n + v.n | none => n) 0
      if k1.total ≤ got then (s.cmdStatus k st).cmdEnd id k1 else { s.cmdStatus k st with cmds := Tab.set (s.cmdStatus k st).cmds id k1 } := rfl

theorem Tab.get_erase_same {α : Type} (t : Tab α) (a : Nat) : Tab.get (Tab.erase t a) a = none := by
  induction t with
  | nil => rfl
  | cons e es ih =>
    unfold Tab.erase
    split
    · exact ih
    · rw [Tab.get, if_neg ‹_›]
      exact ih

theorem State.cmds_of_cmdEnd : Tab.get (s.cmdEnd id k).cmds id = none := Tab.get_erase_same _ _

/-- A part of a multicast's share (R207): it lands in the target's gang, or misses. -/
theorem mcastLanding_of_free {target : Nat} (hk : Tab.get s.cmds id = some k) (hp : k.part part = some p) (h3 : k.op = 3) (hw : s.engWaits = [])
    (hhas : (mcRect k.b0).has (s.launchSides k.lslot).1 (s.launchSides k.lslot).2 target = true) (hl : k.landed.contains (target, part) = false) :
    exec (.mcastLanding id target part) s = .next (s.land id k target part p) := by
  refine (?_ : execMcastLanding id target part s = _)
  simp only [execMcastLanding, hk, hp, h3, hhas, hl, hw, State.partDropped, List.any_nil, Bool.or_false, Bool.not_true, bne_self_eq_false, Bool.false_eq_true,
    if_false]

end

/-- Settles O25: the nine commands depart with their operands, and a part is moved, credited and recorded. -/
theorem copyCommands : Obligations.CopyCommands := by
  unfold Obligations.CopyCommands
  refine ⟨?departs, ?parts⟩
  case departs =>
    intro s x c t u o gid scrSz clu departs
    have hdep (i : Instr) (op nb : Nat) (use : WUse) (hasB : Bool) (hB : (nb != 0) = hasB) {body : Body} (hi : exec i s = fullWord i o.h use 8 body none s)
        (hb : body x c t = copyAct x c t o op hasB) : departs i op nb use := by
      subst hB
      intro hr k
      refine ⟨⟨rfl, rfl, rfl, rfl, rfl, rfl, rfl, rfl⟩, fun f hf => exec_trap_of_ready i hr hi (hb.trans (copyAct_of_fault hf)), fun hf hleft hrel => ?_⟩
      have hgo := exec_done_of_ready i hr hi (hb.trans (copyAct_of_ready hf hleft hrel))
      rw [State.departed_eq] at hgo
      exact hgo
    exact ⟨hdep _ 0 0 _ false rfl rfl rfl, hdep _ 1 0 _ false rfl rfl rfl, hdep _ 2 0 _ false rfl rfl rfl, hdep _ 3 1 _ true rfl rfl rfl,
      hdep _ 4 2 _ true rfl rfl rfl, hdep _ 5 2 _ true rfl rfl rfl, hdep _ 6 0 _ false rfl rfl rfl, hdep _ 7 1 _ true rfl rfl rfl,
      hdep _ 8 2 _ true rfl rfl rfl⟩
  case parts =>
    intro s id part k p hk free done
    refine ⟨?none, ?recorded, ?bare, ?credited, ?peer, ?share, ?last⟩
    case none =>
      intro hp
      refine (?_ : execCopyPartComplete id part s = _)
      simp only [execCopyPartComplete, hk, hp]
    case recorded =>
      intro hd
      refine (?_ : execCopyPartComplete id part s = _)
      cases hp : k.part part with
      | none => simp only [execCopyPartComplete, hk, hp]
      | some q => simp only [execCopyPartComplete, hk, hp, hd, Bool.or_true, Bool.true_or, if_true]
    case bare =>
      rintro ⟨hp, h3, hd, hw, ho⟩ h7 hbar
      have hbare : s.cmdBar k.asid k.gid k.bar k.bsp k.lslot = .none := if_pos hbar
      have hends {v : State} {st : BitVec 4} {ts : Ts} (hm : s.partMove k p = .ok v st ts) : done v st ts := by
        refine (copyPart_of_free hk hp h3 hd hw ho).trans ?_
        rw [State.partStep_of_copy h7, hbare]
        exact congrArg _ (State.partWith_none hm)
      refine ⟨fun hf => hends (State.partMove_of_failed hf), fun hf => ⟨fun u hb => hends (State.partMove_of_fault hf hb), ?_, ?_, ?_, ?_⟩⟩
      · exact fun u v e ts hb he => hends ((State.partMove_of_poison hf hb).trans (by rw [he]; rfl))
      · exact fun u v ts hb he => hends ((State.partMove_of_poison hf hb).trans (by rw [he]; rfl))
      · exact fun u bs v e ts hb he => hends ((State.partMove_of_bytes hf hb).trans (by rw [he]; rfl))
      · exact fun u bs v ts hb he => hends ((State.partMove_of_bytes hf hb).trans (by rw [he]; rfl))
    case credited =>
      rintro ⟨hp, h3, hd, hw, ho⟩ h7
      have hstep := (copyPart_of_free hk hp h3 hd hw ho).trans (congrArg _ (State.partStep_of_copy h7))
      refine ⟨fun u hbar => ?_, fun u b hbar hnear => ⟨fun hl => ?_, fun v st ts hl hm => ?_, fun u1 g1 t1 v st ts w good t2 hl hc1 hm hc2 => ?_⟩⟩
      · rw [hbar] at hstep
        exact hstep
      all_goals rw [hbar] at hstep
      · exact hstep.trans (congrArg _ (State.partWith_malformed hl))
      · exact hstep.trans (congrArg _ (State.partWith_gone hl hm))
      · have hb : b.near = true := by
          cases b with
          | peer q va => exact absurd rfl (hnear q va)
          | scr gid off | dev o | imp gid j => rfl
        exact hstep.trans (congrArg _ (State.partWith_live hb hl hc1 hm hc2))
    case peer =>
      rintro ⟨hp, h3, hd, hw, ho⟩ h7 hf hreach q
      have hstep := (copyPart_of_free hk hp h3 hd hw ho).trans (congrArg _ (if_pos h7))
      have hgo : s.domPart id k part p = if k.dir then s.ask { q with addr := p.src, what := 14, bytes := leBytes p.n 8 } else _ :=
        (if_neg (by simp [ho])).trans (if_neg (by simp [hf, hreach]))
      refine ⟨fun hdir => hstep.trans (congrArg _ (hgo.trans (if_pos hdir))), fun hdir u bs hb => hstep.trans (congrArg _ (hgo.trans ((if_neg (by simp [hdir])).trans ?_)))⟩
      rw [hb]
    case share =>
      intro hp h3 hw target hhas hl
      refine ⟨fun hm => ?_, fun gid u st ts hm hbar hmove => ?_⟩
      · refine (mcastLanding_of_free hk hp h3 hw hhas hl).trans ?_
        simp only [State.land, hm]
      · refine (mcastLanding_of_free hk hp h3 hw hhas hl).trans ?_
        simp only [State.land, hm, if_pos hbar, hmove, Bool.not_false, if_true]
    case last =>
      intro st ts k1 got
      refine ⟨fun h => ?_, fun h => ?_⟩
      · rw [State.partDone_eq]
        exact (congrArg (fun u : State => Tab.get u.cmds id) (if_pos h)).trans State.cmds_of_cmdEnd
      · rw [State.partDone_eq]
        exact (congrArg (fun u : State => Tab.get u.cmds id) (if_neg (Nat.not_le.2 h))).trans ((Tab.get_set _ _ _ _).trans (if_pos rfl))

end Sys2Proof.Machine
end

section
/-! SUPPORT. The bytes of a home's write (R354): numbers as bytes, bytes of a line, and the sectors that they merge into. -/

namespace Sys2Proof.Machine

set_option Elab.async false -- one proof at a time: the threads of many at once take too much memory

/-! ## Numbers and their bytes -/

@[simp] theorem length_leBytes (v n : Nat) : (leBytes v n).length = n := by
  induction n generalizing v with
  | zero => rfl
  | succ n ih => simp [leBytes, ih]

theorem leVal_leBytes (v n : Nat) : leVal (leBytes v n) = v % 256 ^ n := by
  induction n generalizing v with
  | zero => simp [leBytes, leVal, Nat.mod_one]
  | succ n ih =>
    rw [leBytes, leVal, ih, BitVec.toNat_ofNat, Nat.pow_succ' (m := 256), Nat.mod_mul]

/-! ## Bytes stored by place -/

theorem Cells.get_foldl_set_of_not_mem {w : Nat} {β : Type} (f : β → BitVec w) {l : List (Nat × β)} {a : Nat} (h : a ∉ l.map Prod.fst) (m : Cells w) :
    Cells.get (l.foldl (fun m e => Cells.set m e.1 (f e.2)) m) a = Cells.get m a := by
  induction l generalizing m with
  | nil => rfl
  | cons b bs ih =>
    simp only [List.map_cons, List.mem_cons, not_or] at h
    rw [List.foldl_cons, ih h.2, Cells.get_set, if_neg h.1]

theorem Cells.get_foldl_set_of_mem {w : Nat} {β : Type} (f : β → BitVec w) {l : List (Nat × β)} (hl : (l.map Prod.fst).Nodup) {e : Nat × β} (he : e ∈ l)
    (m : Cells w) : Cells.get (l.foldl (fun m e => Cells.set m e.1 (f e.2)) m) e.1 = f e.2 := by
  induction l generalizing m with
  | nil => exact absurd he List.not_mem_nil
  | cons b bs ih =>
    simp only [List.map_cons, List.nodup_cons] at hl
    rw [List.foldl_cons]
    rcases List.mem_cons.1 he with rfl | he
    · rw [Cells.get_foldl_set_of_not_mem f hl.1, Cells.get_set, if_pos rfl]
    · exact ih hl.2 he _

theorem Cells.mem_set {w : Nat} {m : Cells w} {a : Nat} {v : BitVec w} {e : Nat × BitVec w} (h : e ∈ Cells.set m a v) : e.1 = a ∨ e ∈ m := by
  have hcons (t : Cells w) (h : e ∈ Cells.consNZ a v t) : e.1 = a ∨ e ∈ t := by
    unfold Cells.consNZ at h
    split at h
    · rw [Cells.erase_eq_filter] at h
      exact .inr (List.mem_filter.1 h).1
    · rcases List.mem_cons.1 h with rfl | h
      · exact .inl rfl
      · exact .inr h
  induction m with
  | nil => exact hcons _ h
  | cons b bs ih =>
    obtain ⟨k, x⟩ := b
    unfold Cells.set at h
    split at h
    · exact hcons _ h
    · split at h
      · exact (hcons _ h).imp_right (List.mem_cons_of_mem _)
      · rcases List.mem_cons.1 h with rfl | h
        · exact .inr List.mem_cons_self
        · exact (ih h).imp_right (List.mem_cons_of_mem _)

theorem Cells.mem_foldl_set {w : Nat} {β : Type} (f : β → BitVec w) {l : List (Nat × β)} {m : Cells w} {e : Nat × BitVec w}
    (h : e ∈ l.foldl (fun m e => Cells.set m e.1 (f e.2)) m) : e.1 ∈ l.map Prod.fst ∨ e ∈ m := by
  induction l generalizing m with
  | nil => exact .inr h
  | cons b bs ih =>
    rcases ih h with h | h
    · exact .inl (List.mem_cons_of_mem _ h)
    · rcases Cells.mem_set h with h | h
      · exact .inl (h ▸ List.mem_cons_self)
      · exact .inr h

theorem Cells.rising_of_wfFrom {w : Nat} {m : Cells w} {lo : Nat} (h : Cells.wfFrom lo m = true) : Tab.Rising m ∧ ∀ e ∈ m, lo ≤ e.1 := by
  induction m generalizing lo with
  | nil => exact ⟨List.Pairwise.nil, fun _ h => absurd h List.not_mem_nil⟩
  | cons b bs ih =>
    obtain ⟨k, x⟩ := b
    simp only [Cells.wfFrom, Bool.and_eq_true, decide_eq_true_eq] at h
    obtain ⟨⟨hlo, -⟩, hbs⟩ := h
    obtain ⟨hrise, hall⟩ := ih hbs
    refine ⟨?_, fun e he => ?_⟩
    · simp only [Tab.Rising, List.map_cons, List.pairwise_cons, List.mem_map]
      refine ⟨?_, hrise⟩
      rintro a ⟨e, he, rfl⟩
      exact hall e he
    · rcases List.mem_cons.1 he with rfl | he
      · exact hlo
      · exact hlo.trans (Nat.le_of_succ_le (hall e he))

theorem Cells.rising_of_wf {w : Nat} {m : Cells w} (h : Cells.wf m = true) : Tab.Rising m := (Cells.rising_of_wfFrom h).1

/-- A place that a table holds is found in it. -/
theorem Cells.find?_of_get {w : Nat} {m : Cells w} {k : Nat} (c : Nat) (h : Cells.get m k ≠ 0) :
    ∃ e, m.find? (fun e => c + e.1 == c + k) = some e ∧ e.2 = Cells.get m k := by
  induction m with
  | nil => exact absurd rfl h
  | cons b bs ih =>
    obtain ⟨j, x⟩ := b
    unfold Cells.get at h ⊢
    by_cases hj : j = k
    · refine ⟨(j, x), ?_, ?_⟩
      · simp [hj]
      · rw [if_pos hj]
    · rw [if_neg hj] at h ⊢
      obtain ⟨e, he, hv⟩ := ih h
      exact ⟨e, by simp [hj] at he ⊢; exact he, hv⟩

theorem Tab.get_map_shift {α β : Type} (f : α → β) (c : Nat) (t : Tab α) (a : Nat) :
    Tab.get (t.map (fun e => (c + e.1, f e.2))) a = (t.find? (fun e => c + e.1 == a)).map (fun e => f e.2) := by
  induction t with
  | nil => rfl
  | cons b bs ih =>
    rw [List.map_cons, Tab.get, List.find?_cons]
    by_cases h : c + b.1 = a
    · simp [h]
    · have hb : (c + b.1 == a) = false := by simpa using h
      rw [if_neg h, ih, hb]

theorem Tab.rising_map_shift {α β : Type} {t : Tab α} (h : Tab.Rising t) (f : α → β) (c : Nat) : Tab.Rising (t.map (fun e => (c + e.1, f e.2))) := by
  unfold Tab.Rising at *
  rw [List.map_map]
  rw [List.pairwise_map] at h ⊢
  exact h.imp (fun hlt => Nat.add_lt_add_left hlt c)

/-! ## The bytes of a line -/

/-- The bytes of a line at their places in memory (R45). -/
def LineBytes.placed (line : Nat) (bs : LineBytes) : Tab Byte := bs.map (fun e => (line * 128 + e.1, BitVec.ofNat 8 e.2.toNat))

/-- The bytes of a sector stored are those of the line's placed bytes that lie in it. -/
theorem LineBytes.foldl_sector (line k : Nat) (bs : LineBytes) (m : Cells 8) :
    (LineBytes.sector bs k).foldl (fun m e => Cells.set m ((line * 4 + k) * 32 + e.1) e.2) m =
      ((LineBytes.placed line bs).filter (fun e => e.1 / 32 == line * 4 + k)).foldl (fun m e => Cells.set m e.1 e.2) m := by
  induction bs generalizing m with
  | nil => rfl
  | cons b bs ih =>
    have hdiv : (line * 128 + b.1) / 32 = line * 4 + b.1 / 32 := by omega
    simp only [LineBytes.sector, LineBytes.list, LineBytes.placed, List.map_cons, List.filterMap_cons, List.filter_cons] at ih ⊢
    by_cases h : b.1 / 32 = k
    · have hplace : (line * 4 + k) * 32 + b.1 % 32 = line * 128 + b.1 := by omega
      simp only [h, if_true, hdiv, beq_self_eq_true, List.foldl_cons, hplace]
      exact ih _
    · have hne : (line * 4 + b.1 / 32 == line * 4 + k) = false := by simpa using h
      simp only [h, if_false, hdiv, hne, Bool.false_eq_true]
      exact ih _

end Sys2Proof.Machine
end

section
/-! SUPPORT. A home's write (R354): the memory after it, and what it leaves unchanged. -/

namespace Sys2Proof.Machine

theorem Tab.get_erase_ne {α : Type} (t : Tab α) {a b : Nat} (h : b ≠ a) : Tab.get (Tab.erase t a) b = Tab.get t b := by
  induction t with
  | nil => rfl
  | cons e es ih =>
    unfold Tab.erase
    split
    · rename_i he
      rw [ih, Tab.get, if_neg (by rw [he]; exact h.symm)]
    · rw [Tab.get, Tab.get, ih]

/-- A sector that a home may write: all of its bytes are given, or it is sound (R75, R76). -/
def State.Writable (s : State) (sec : Nat) (l : List (Nat × Byte)) : Prop :=
  l.length = 32 ∨ (s.secPoison sec = false ∧ s.chkOk sec = true)

/-- A sector with bytes stored in it. -/
def State.sectorWritten (s : State) (sec : Nat) (l : List (Nat × Byte)) : State :=
  { s with mem := l.foldl (fun m e => Cells.set m (sec * 32 + e.1) e.2) s.mem, poison := s.poison.filter (· != sec), badChk := Tab.erase s.badChk sec }

theorem State.mergeSector_eq {s : State} {sec : Nat} {l : List (Nat × Byte)} (h : s.Writable sec l) (f : Finder) :
    s.mergeSector sec l f = s.sectorWritten sec l := by
  unfold State.mergeSector
  split
  · rfl
  · rename_i hl
    obtain hlen | ⟨hp, hc⟩ := h
    · exact absurd hlen hl
    · have hv : s.verify sec f = s := if_pos (by simp [hc])
      have hfilter : s.poison.filter (· != sec) = s.poison := by
        refine List.filter_eq_self.2 (fun a ha => ?_)
        rw [bne_iff_ne]
        rintro rfl
        exact absurd (List.contains_iff_mem.2 ha) (by simpa [State.secPoison] using hp)
      rw [hv, if_neg (by simp [hp])]
      unfold State.sectorWritten
      rw [hfilter]

/-- Bytes stored at other places leave a sector's bytes. -/
theorem Cells.bytes_of_store {m : Cells 8} {sec sec' : Nat} {l : List (Nat × Byte)} (hl : ∀ e ∈ l, e.1 < 32) (h : sec' ≠ sec) :
    Cells.bytes (l.foldl (fun m e => Cells.set m (sec * 32 + e.1) e.2) m) (sec' * 32) 32 = Cells.bytes m (sec' * 32) 32 := by
  rw [Cells.bytes_eq_map, Cells.bytes_eq_map]
  refine List.map_congr_left (fun k hk => ?_)
  have hk : k < 32 := List.mem_range.1 hk
  induction l generalizing m with
  | nil => rfl
  | cons b bs ih =>
    have hb : b.1 < 32 := hl b List.mem_cons_self
    rw [List.foldl_cons, ih (fun e he => hl e (List.mem_cons_of_mem _ he)), Cells.get_set, if_neg (by omega)]

theorem State.writable_sectorWritten {s : State} {sec sec' : Nat} {l l' : List (Nat × Byte)} (hl : ∀ e ∈ l, e.1 < 32) (h : s.Writable sec' l') :
    (s.sectorWritten sec l).Writable sec' l' := by
  refine h.imp_right (fun ⟨hp, hc⟩ => ⟨?_, ?_⟩)
  · simp only [State.secPoison, State.sectorWritten, List.contains_eq_mem, decide_eq_false_iff_not] at hp ⊢
    exact fun hm => hp (List.mem_filter.1 hm).1
  · by_cases he : sec' = sec
    · subst he
      simp only [State.chkOk, State.sectorWritten, Tab.get_erase_same]
    · simp only [State.chkOk, State.sectorWritten, Tab.get_erase_ne _ he, Cells.bytes_of_store hl he] at hc ⊢
      exact hc

/-- The sectors of a line with the line's bytes stored in them. -/
def State.lineWritten (s : State) (line : Nat) (bs : LineBytes) (ks : List Nat) : State :=
  ks.foldl (fun s k => s.sectorWritten (line * 4 + k) (LineBytes.sector bs k)) s

theorem LineBytes.lt_of_mem_sector {bs : LineBytes} {k : Nat} {e : Nat × Byte} (h : e ∈ LineBytes.sector bs k) : e.1 < 32 := by
  obtain ⟨a, -, ha⟩ := List.mem_filterMap.1 h
  split at ha
  · cases ha
    exact Nat.mod_lt _ (by decide)
  · cases ha

theorem State.foldl_mergeSector {s : State} {line : Nat} {bs : LineBytes} (f : Finder) {ks : List Nat}
    (h : ∀ k ∈ ks, s.Writable (line * 4 + k) (LineBytes.sector bs k)) :
    ks.foldl (fun s k => s.mergeSector (line * 4 + k) (LineBytes.sector bs k) f) s = s.lineWritten line bs ks := by
  induction ks generalizing s with
  | nil => rfl
  | cons k ks ih =>
    rw [List.foldl_cons, State.mergeSector_eq (h k List.mem_cons_self)]
    exact ih (fun j hj => State.writable_sectorWritten (fun _ => LineBytes.lt_of_mem_sector) (h j (List.mem_cons_of_mem _ hj)))

/-- A write's fields: only memory and what is known of its sectors. -/
theorem State.lineWritten_eq (s : State) (line : Nat) (bs : LineBytes) (ks : List Nat) :
    s.lineWritten line bs ks = { s with mem := (s.lineWritten line bs ks).mem, poison := (s.lineWritten line bs ks).poison,
                                        badChk := (s.lineWritten line bs ks).badChk } := by
  unfold State.lineWritten
  refine List.foldlRecOn (motive := fun t : State => t = { s with mem := t.mem, poison := t.poison, badChk := t.badChk }) ks _ rfl (fun t ht k _ => ?_)
  rw [ht]
  rfl

theorem State.mem_lineWritten (s : State) (line : Nat) (bs : LineBytes) (ks : List Nat) :
    (s.lineWritten line bs ks).mem = (ks.map (line * 4 + ·)).foldl (fun m sec =>
      ((LineBytes.placed line bs).filter (fun e => e.1 / 32 == sec)).foldl (fun m e => Cells.set m e.1 e.2) m) s.mem := by
  unfold State.lineWritten
  rw [List.foldl_map]
  induction ks generalizing s with
  | nil => rfl
  | cons k ks ih =>
    rw [List.foldl_cons, ih, List.foldl_cons]
    exact congrArg (fun m => List.foldl _ m ks) (LineBytes.foldl_sector line k bs s.mem)

/-- R354: the memory after a write of a line's bytes. -/
theorem State.get_mem_lineWritten (s : State) {line : Nat} {bs : LineBytes} (hwf : Cells.wf bs = true) (hlt : ∀ e ∈ bs, e.1 < 128) (a : Nat) :
    Cells.get (s.lineWritten line bs (LineBytes.sectors bs)).mem a = match bs.find? (fun e => line * 128 + e.1 == a) with
      | some e => BitVec.ofNat 8 e.2.toNat
      | none => Cells.get s.mem a := by
  rw [State.mem_lineWritten]
  refine (Cells.get_foldl_sectors (Tab.rising_map_shift (Cells.rising_of_wf hwf) (fun v => BitVec.ofNat 8 v.toNat) (line * 128)) _ _ _).trans ?_
  rw [Tab.get_map_shift (fun v : BitVec 9 => BitVec.ofNat 8 v.toNat)]
  cases hfind : bs.find? (fun e => line * 128 + e.1 == a) with
  | none => exact ite_self _
  | some e =>
    have hmem : e ∈ bs := List.mem_of_find?_eq_some hfind
    have ha : line * 128 + e.1 = a := by simpa using List.find?_some hfind
    have hlt := hlt e hmem
    refine if_pos (List.mem_map.2 ⟨e.1 / 32, List.mem_filter.2 ⟨List.mem_range.2 (by omega), ?_⟩, by omega⟩)
    exact List.any_eq_true.2 ⟨e, hmem, by simp⟩

/-! ## The home's write -/

section
variable {s : State} {line : Nat} {bs : LineBytes} {p : Ts}

/-- The time of a write (R354): past the `rts` of its sectors. -/
def State.writeTs (s : State) (line : Nat) (bs : LineBytes) (p : Ts) : Ts :=
  (LineBytes.sectors bs).foldl (fun w k => Ts.smax w (((s.slice (s.servSlice line)).ts (line * 4 + k)).2 + 1)) p

/-- The slice of a write: its sectors' times, its line's predictor classes halved (R352), and room for them (R341). -/
def State.writeSlice (s : State) (line : Nat) (bs : LineBytes) (p : Ts) : Slice :=
  let sl := s.slice (s.servSlice line)
  let w := s.writeTs line bs p
  Slice.makeRoom { sl with
    sect := (LineBytes.sectors bs).foldl (fun t k => Tab.set t (line * 4 + k) (w, w)) sl.sect,
    pred := Tab.mapV sl.pred (fun _ e => if e.line = line then { e with cls := e.cls / 2 } else e) } s.nextId line

theorem State.mirrorSectors_of_none (h : s.protOf (line * 128) = none) (secs : List Nat) (w : Ts) : s.mirrorSectors line secs w = s := by
  rw [State.mirrorSectors, h]

/-- R354: a home's write into sectors that may be written, of a line that is neither lost nor protected. -/
theorem State.homeWrite_eq (hl : s.lost line = false) (hp : s.protOf (line * 128) = none)
    (hw : ∀ k ∈ LineBytes.sectors bs, s.Writable (line * 4 + k) (LineBytes.sector bs k)) (f : Finder) :
    s.homeWrite line bs p f =
      ((((s.setSlice (s.servSlice line) (s.writeSlice line bs p)).raiseClock (s.servDie line) (s.writeTs line bs p)).lineWritten line bs
        (LineBytes.sectors bs)), s.writeTs line bs p) := by
  refine (if_neg (by simp [hl])).trans ?_
  let t := (s.setSlice (s.servSlice line) (s.writeSlice line bs p)).raiseClock (s.servDie line) (s.writeTs line bs p)
  refine (congrArg (fun u : State => (u.mirrorSectors line (LineBytes.sectors bs) (s.writeTs line bs p), s.writeTs line bs p))
    (State.foldl_mergeSector (s := t) f hw)).trans ?_
  have hprot : (t.lineWritten line bs (LineBytes.sectors bs)).protOf (line * 128) = none := by
    rw [State.lineWritten_eq]
    exact hp
  rw [State.mirrorSectors_of_none hprot]

end

end Sys2Proof.Machine
end

section
/-! SUPPORT. Counter records (R121, R122): their 32 bytes, and what a write of one leaves. -/

namespace Sys2Proof.Machine

/-! ## The bits of a record -/

/-- A record whose fields fit their bits. -/
def CtrRec.Fits (r : CtrRec) : Prop :=
  r.home < 2 ^ 48 ∧ r.chunk < 2 ^ 48 ∧ r.lost < 2 ^ 48 ∧
    ∃ a b c d, a < 2 ^ 16 ∧ b < 2 ^ 16 ∧ c < 2 ^ 16 ∧ d < 2 ^ 61 ∧ r.resv = a * 2 ^ 48 + b * 2 ^ 112 + c * 2 ^ 176 + d * 2 ^ 195

theorem fld_lt (v lo len : Nat) : fld v lo len < 2 ^ len := Nat.mod_lt _ (Nat.two_pow_pos len)

theorem ctrOf_fits (v : Nat) : (ctrOf v).Fits :=
  ⟨fld_lt _ _ _, fld_lt _ _ _, fld_lt _ _ _, _, _, _, _, fld_lt _ _ _, fld_lt _ _ _, fld_lt _ _ _, fld_lt _ _ _, rfl⟩

theorem CtrRec.val_lt {r : CtrRec} (h : r.Fits) : r.val < 2 ^ 256 := by
  obtain ⟨hh, hc, hl, a, b, c, d, ha, hb, hcc, hd, hr⟩ := h
  have h1 : r.valid.toNat ≤ 1 := Bool.toNat_le _
  have h2 : r.ovf.toNat ≤ 1 := Bool.toNat_le _
  have h3 : r.frozen.toNat ≤ 1 := Bool.toNat_le _
  unfold CtrRec.val
  omega

/-- A flag of a record is read as it was stored. -/
theorem bit_of_toNat {b : Bool} {n : Nat} (h : n = b.toNat) : (n == 1) = b := by
  cases b <;> simp [h]

theorem ctrOf_val {r : CtrRec} (h : r.Fits) : ctrOf r.val = r := by
  obtain ⟨hh, hc, hl, a, b, c, d, ha, hb, hcc, hd, hr⟩ := h
  obtain ⟨home, chunk, lost, valid, ovf, frozen, resv⟩ := r
  simp only at *
  have h1 : valid.toNat ≤ 1 := Bool.toNat_le _
  have h2 : ovf.toNat ≤ 1 := Bool.toNat_le _
  have h3 : frozen.toNat ≤ 1 := Bool.toNat_le _
  simp only [ctrOf, CtrRec.val, fld, CtrRec.mk.injEq]
  refine ⟨by omega, by omega, by omega, bit_of_toNat (by omega), bit_of_toNat (by omega), bit_of_toNat (by omega), by omega⟩

/-! ## A run of bytes in a line -/

theorem Cells.set_of_above {w : Nat} {m : Cells w} {a : Nat} {v : BitVec w} (hm : ∀ e ∈ m, e.1 < a) (hv : v ≠ 0) : Cells.set m a v = m ++ [(a, v)] := by
  induction m with
  | nil => exact if_neg hv
  | cons b bs ih =>
    obtain ⟨k, x⟩ := b
    have hk : k < a := hm _ List.mem_cons_self
    rw [Cells.set, if_neg (by omega), if_neg (by omega), ih (fun e he => hm e (List.mem_cons_of_mem _ he))]
    rfl

/-- Bytes at rising places, as the bytes of a line. -/
theorem LineBytes.mk_of_rising {l : List (Nat × Byte)} (h : (l.map Prod.fst).Pairwise (· < ·)) : LineBytes.mk l = l.map (fun e => (e.1, marked e.2)) := by
  have hgen (l : List (Nat × Byte)) (m : Cells 9) (h : (l.map Prod.fst).Pairwise (· < ·)) (hm : ∀ e ∈ m, ∀ b ∈ l, e.1 < b.1) :
      l.foldl (fun m e => Cells.set m e.1 (BitVec.ofNat 9 (256 + e.2.toNat))) m = m ++ l.map (fun e => (e.1, marked e.2)) := by
    induction l generalizing m with
    | nil => simp
    | cons b bs ih =>
      simp only [List.map_cons, List.pairwise_cons, List.mem_map] at h
      obtain ⟨hall, hbs⟩ := h
      have hset : Cells.set m b.1 (marked b.2) = m ++ [(b.1, marked b.2)] :=
        Cells.set_of_above (fun e he => hm e he b List.mem_cons_self) (marked_ne_zero _)
      rw [List.foldl_cons]
      refine (congrArg (fun m => List.foldl _ m bs) hset).trans ((ih _ hbs ?_).trans ?_)
      · intro e he a ha
        rcases List.mem_append.1 he with he | he
        · exact hm e he a (List.mem_cons_of_mem _ ha)
        · rw [List.mem_singleton.1 he]
          exact hall a.1 ⟨a, ha, rfl⟩
      · simp
  exact (hgen l [] h (fun e he => absurd he List.not_mem_nil)).trans (List.nil_append _)

/-- The bytes from an offset on, by place. -/
def bytesFrom (off : Nat) (bs : List Byte) : List (Nat × Byte) := (List.range bs.length).zip bs |>.map (fun e => (off + e.1, e.2))

theorem keys_bytesFrom (off : Nat) (bs : List Byte) : (bytesFrom off bs).map Prod.fst = (List.range bs.length).map (off + ·) := by
  rw [bytesFrom, List.map_map]
  have : (Prod.fst ∘ fun e : Nat × Byte => (off + e.1, e.2)) = (off + ·) ∘ Prod.fst := rfl
  rw [this, ← List.map_map, List.map_fst_zip (by simp)]

theorem mem_bytesFrom {off i : Nat} {bs : List Byte} (h : i < bs.length) : (off + i, bs[i]) ∈ bytesFrom off bs := by
  refine List.mem_map.2 ⟨(i, bs[i]), ?_, rfl⟩
  refine List.mem_iff_getElem.2 ⟨i, by simpa using h, by simp⟩

theorem lt_of_mem_bytesFrom {off : Nat} {bs : List Byte} {e : Nat × Byte} (h : e ∈ bytesFrom off bs) : off ≤ e.1 ∧ e.1 < off + bs.length := by
  have hk : e.1 ∈ (List.range bs.length).map (off + ·) := keys_bytesFrom off bs ▸ List.mem_map_of_mem h
  obtain ⟨i, hi, he⟩ := List.mem_map.1 hk
  have := List.mem_range.1 hi
  omega

theorem rising_bytesFrom (off : Nat) (bs : List Byte) : ((bytesFrom off bs).map Prod.fst).Pairwise (· < ·) := by
  rw [keys_bytesFrom]
  exact List.pairwise_map.2 (List.pairwise_lt_range.imp (fun h => Nat.add_lt_add_left h off))

/-- The marked bytes from an offset on. -/
theorem mk_bytesFrom (off : Nat) (bs : List Byte) : LineBytes.mk (bytesFrom off bs) = (bytesFrom off bs).map (fun e => (e.1, marked e.2)) :=
  LineBytes.mk_of_rising (rising_bytesFrom off bs)

/-- Thirty-two bytes at a sector's start are that whole sector. -/
theorem length_sector_bytesFrom {off k : Nat} {bs : List Byte} (ho : off % 32 = 0) (hl : bs.length = 32)
    (hk : k ∈ LineBytes.sectors (LineBytes.mk (bytesFrom off bs))) : (LineBytes.sector (LineBytes.mk (bytesFrom off bs)) k).length = 32 := by
  have hsec {e : Nat × Byte} (he : e ∈ bytesFrom off bs) : e.1 / 32 = off / 32 := by
    have := lt_of_mem_bytesFrom he
    omega
  have hk0 : k = off / 32 := by
    obtain ⟨e, he, hek⟩ := List.any_eq_true.1 (List.mem_filter.1 hk).2
    rw [mk_bytesFrom] at he
    obtain ⟨a, ha, rfl⟩ := List.mem_map.1 he
    have hek : a.1 / 32 = k := by simpa using hek
    rw [← hek, hsec ha]
  have hall : LineBytes.sector (LineBytes.mk (bytesFrom off bs)) k = (bytesFrom off bs).map (fun e => (e.1 % 32, BitVec.ofNat 8 (marked e.2).toNat)) := by
    rw [mk_bytesFrom, LineBytes.sector, LineBytes.list, List.map_map, List.filterMap_map]
    rw [← List.filterMap_eq_map]
    refine List.filterMap_congr (fun e he => ?_)
    simp [hsec he, hk0]
  rw [hall, List.length_map, bytesFrom, List.length_map, List.length_zip, List.length_range, hl]
  rfl

end Sys2Proof.Machine
end

section
/-! SUPPORT. What the homes and their counters keep (R122, R123): a write of a record, and the frame of the home's work. -/

namespace Sys2Proof.Machine

/-- A state that differs from `s` in what the homes hold: memory, what is known of its sectors, the slices and the clocks. -/
def State.HomeOnly (s t : State) : Prop :=
  t = { s with mem := t.mem, poison := t.poison, badChk := t.badChk, slices := t.slices, homes := t.homes } ∧ ∀ h, t.dieFailed h = s.dieFailed h

theorem State.HomeOnly.refl (s : State) : s.HomeOnly s := ⟨rfl, fun _ => rfl⟩

theorem State.HomeOnly.trans {s t u : State} (h1 : s.HomeOnly t) (h2 : t.HomeOnly u) : s.HomeOnly u := by
  obtain ⟨e1, f1⟩ := h1
  obtain ⟨e2, f2⟩ := h2
  refine ⟨?_, fun h => (f2 h).trans (f1 h)⟩
  rw [e2, e1]

section
variable {s t : State}

theorem State.HomeOnly.lost (h : s.HomeOnly t) (line : Nat) : t.lost line = s.lost line := by
  have hprot : t.protOf (line * 128) = s.protOf (line * 128) := by rw [h.1]; rfl
  simp only [State.lost, h.2, hprot]

theorem State.HomeOnly.protOf (h : s.HomeOnly t) (o : Nat) : t.protOf o = s.protOf o := by
  rw [h.1]
  rfl

end

theorem State.dieFailed_raiseClock (s : State) (h : Nat) (w : Ts) (k : Nat) : (s.raiseClock h w).dieFailed k = s.dieFailed k := by
  simp only [State.dieFailed, State.home, State.raiseClock, State.setHome, List.getD_eq_getElem?_getD, List.getElem?_set]
  by_cases hk : h = k
  · subst hk
    by_cases hl : h < s.homes.length
    · simp [hl]
    · simp [hl]
  · simp [hk]

theorem State.homeWrite_homeOnly {s : State} {line : Nat} {bs : LineBytes} (hl : s.lost line = false) (hp : s.protOf (line * 128) = none)
    (hw : ∀ k ∈ LineBytes.sectors bs, s.Writable (line * 4 + k) (LineBytes.sector bs k)) (p : Ts) (f : Finder) :
    s.HomeOnly (s.homeWrite line bs p f).1 := by
  rw [State.homeWrite_eq hl hp hw]
  refine ⟨?_, fun h => ?_⟩
  · rw [State.lineWritten_eq]
    rfl
  · rw [State.lineWritten_eq]
    exact State.dieFailed_raiseClock _ _ _ _

theorem LineBytes.wf_mk (l : List (Nat × Byte)) : Cells.wf (LineBytes.mk l) = true := Cells.wf_foldl_set _ _ _ rfl

theorem lt_of_mem_mk {off : Nat} {bs : List Byte} {e : Nat × BitVec 9} (he : e ∈ LineBytes.mk (bytesFrom off bs)) : off ≤ e.1 ∧ e.1 < off + bs.length := by
  obtain hk | hk := Cells.mem_foldl_set (fun b : Byte => BitVec.ofNat 9 (256 + b.toNat)) he
  · obtain ⟨b, hb, hbe⟩ := List.mem_map.1 hk
    exact hbe ▸ lt_of_mem_bytesFrom hb
  · exact absurd hk List.not_mem_nil

/-! ## A record stored -/

section
variable {s : State} {o : Nat} {r : CtrRec}

/-- The offset of a record in device memory, whose line is neither lost nor mirrored. -/
def State.RecordAt (s : State) (o : Nat) : Prop := o % 32 = 0 ∧ s.lost (o / 128) = false ∧ s.protOf (o / 128 * 128) = none

theorem State.RecordAt.of_homeOnly {t : State} (h : s.RecordAt o) (ht : s.HomeOnly t) : t.RecordAt o := by
  obtain ⟨ho, hl, hp⟩ := h
  exact ⟨ho, (ht.lost _).trans hl, (ht.protOf _).trans hp⟩

theorem ctrPut_bytes (o v : Nat) : LineBytes.mk ((List.range 32).zip (leBytes v 32) |>.map (fun e => (o % 128 + e.1, e.2))) =
    LineBytes.mk (bytesFrom (o % 128) (leBytes v 32)) := by
  rw [bytesFrom, length_leBytes]

theorem State.ctrPut_eq (s : State) (o : Nat) (r : CtrRec) (p : Ts) :
    s.ctrPut o r p = s.homeWrite (o / 128) (LineBytes.mk (bytesFrom (o % 128) (leBytes r.val 32))) p := by
  rw [State.ctrPut, ctrPut_bytes]

theorem writable_record (ho : o % 32 = 0) (v : Nat) {k : Nat} (hk : k ∈ LineBytes.sectors (LineBytes.mk (bytesFrom (o % 128) (leBytes v 32)))) :
    s.Writable (o / 128 * 4 + k) (LineBytes.sector (LineBytes.mk (bytesFrom (o % 128) (leBytes v 32))) k) :=
  .inl (length_sector_bytesFrom (by omega) (length_leBytes _ _) hk)

theorem State.ctrPut_homeOnly (h : s.RecordAt o) (p : Ts) : s.HomeOnly (s.ctrPut o r p).1 := by
  obtain ⟨ho, hl, hp⟩ := h
  rw [State.ctrPut_eq]
  exact State.homeWrite_homeOnly hl hp (fun k hk => writable_record ho _ hk) _ _

/-- R121: a record that fits is read as it was stored. -/
theorem State.ctrGet_ctrPut (h : s.RecordAt o) (hr : r.Fits) (p : Ts) : (s.ctrPut o r p).1.ctrGet o = r := by
  obtain ⟨ho, hl, hp⟩ := h
  have hlen : (leBytes r.val 32).length = 32 := length_leBytes _ _
  have hbytes : Cells.bytes (s.ctrPut o r p).1.mem o 32 = leBytes r.val 32 := by
    rw [State.ctrPut_eq, State.homeWrite_eq hl hp (fun k hk => writable_record ho _ hk), Cells.bytes_eq_map]
    refine List.ext_getElem (by simp) (fun i hi1 hi2 => ?_)
    have hi : i < 32 := by simpa using hi1
    rw [List.getElem_map, List.getElem_range]
    have hget : Cells.get (LineBytes.mk (bytesFrom (o % 128) (leBytes r.val 32))) (o % 128 + i) = marked ((leBytes r.val 32)[i]) :=
      Cells.get_foldl_set_of_mem (fun b : Byte => BitVec.ofNat 9 (256 + b.toNat)) ((rising_bytesFrom _ _).imp (fun h => Nat.ne_of_lt h))
        (mem_bytesFrom (by rw [hlen]; exact hi)) _
    obtain ⟨e, he, hv⟩ := Cells.find?_of_get (o / 128 * 128) (by rw [hget]; exact marked_ne_zero _)
    have ha : o / 128 * 128 + (o % 128 + i) = o + i := by omega
    rw [ha] at he
    refine (State.get_mem_lineWritten _ (LineBytes.wf_mk _) (fun e he => ?_) (o + i)).trans ?_
    · have := lt_of_mem_mk he
      omega
    · rw [he]
      simp only [hv, hget]
      exact ofNat_marked _
  rw [State.ctrGet, Cells.le, hbytes, leVal_leBytes, Nat.mod_eq_of_lt ((CtrRec.val_lt hr).trans_eq (by norm_num)), ctrOf_val hr]

theorem State.ctrUpd_homeOnly (h : s.RecordAt o) (f : CtrRec → CtrRec) : s.HomeOnly (s.ctrUpd o f) := State.ctrPut_homeOnly h _

theorem State.ctrGet_ctrUpd (h : s.RecordAt o) {f : CtrRec → CtrRec} (hr : (f (s.ctrGet o)).Fits) : (s.ctrUpd o f).ctrGet o = f (s.ctrGet o) :=
  State.ctrGet_ctrPut h hr _

theorem State.ctrGet_fits (s : State) (o : Nat) : (s.ctrGet o).Fits := ctrOf_fits _

end

end Sys2Proof.Machine
end

section
/-! SUPPORT. The counter words (R122, R123, R215): an exact word at an idle home, and the allowances of a core. -/

namespace Sys2Proof.Machine

/-! ## An idle home -/

/-- A counter that no core holds, whose home is idle (R123). -/
def State.IdleAt (s : State) (o : Nat) : Prop := s.ctrHolders o = [] ∧ s.ctrHome o = CtrHome.init

theorem ctrOf_apply_fits {q : CtrReq} {r : CtrRec} (hr : r.Fits) (hb0 : q.b0 ≤ ctrMax) (hb1 : q.b1 ≤ ctrMax) : (q.apply r).Fits := by
  have hzero : ∃ a b c d, a < 2 ^ 16 ∧ b < 2 ^ 16 ∧ c < 2 ^ 16 ∧ d < 2 ^ 61 ∧ 0 = a * 2 ^ 48 + b * 2 ^ 112 + c * 2 ^ 176 + d * 2 ^ 195 :=
    ⟨0, 0, 0, 0, by decide, by decide, by decide, by decide, by decide⟩
  obtain ⟨hh, hc, hl, hres⟩ := hr
  unfold ctrMax at hb0 hb1
  unfold CtrReq.apply
  split
  · exact ⟨hh, hc, hl, hres⟩
  · exact ⟨by simp, hc, hl, hres⟩
  · exact ⟨by simp only; omega, by simp only; omega, by simp, hzero⟩

section
variable {s : State} {o : Nat} {q : CtrReq}

/-- The state of an exact request that an idle home serves at once (R122): the record frozen, and the home in its recall. -/
def State.recalled (s : State) (o : Nat) (q : CtrReq) : State :=
  let s1 := s.ctrUpd o (fun r => { r with frozen := true })
  s1.setCtrHome o { s1.ctrHome o with st := 3, cur := some q, awaiting := [] }

theorem State.ctrHolders_congr {t : State} (hc : t.cores = s.cores) (hg : (t.ctrHome o).grants = (s.ctrHome o).grants) : t.ctrHolders o = s.ctrHolders o := by
  simp only [State.ctrHolders, hc, hg]

theorem State.ctrHome_ctrUpd (hrec : s.RecordAt o) (f : CtrRec → CtrRec) (k : Nat) : (s.ctrUpd o f).ctrHome k = s.ctrHome k := by
  have h := (State.ctrUpd_homeOnly hrec f).1
  rw [h]
  rfl

theorem State.ctrBegin_of_idle (hrec : s.RecordAt o) (hhold : s.ctrHolders o = []) (hop : q.op ≠ 0) (hrep : (s.ctrHome o).replies = []) :
    s.ctrBegin o q = (s.recalled o q).ctrExact o q := by
  have hhome : (s.recalled o q).ctrHome o = { s.ctrHome o with st := 3, cur := some q, awaiting := [] } := by
    rw [State.recalled, State.ctrHome_setCtrHome, if_pos rfl, State.ctrHome_ctrUpd hrec]
  have hbegin : s.ctrBegin o q = (s.recalled o q).ctrEval o 3 := by
    simp only [State.ctrBegin, if_neg hop, hhold, List.map_nil, ite_self, State.recalled]
  rw [hbegin, State.ctrEval]
  simp only [hhome, hrep, List.isEmpty_nil, Bool.not_true, Bool.or_self, Bool.false_eq_true, if_false, if_true]

/-- R122, R123: an exact request at an idle home is performed when it arrives. -/
theorem State.ctrEnqueue_of_idle (hi : s.IdleAt o) (hop : q.op ≠ 0) (hrec : s.RecordAt o) :
    s.ctrEnqueue o q = (((s.setCtrHome o { CtrHome.init with queue := [q] }).setCtrHome o CtrHome.init).recalled o q).ctrExact o q := by
  obtain ⟨hhold, hhome⟩ := hi
  let u := (s.setCtrHome o { CtrHome.init with queue := [q] }).setCtrHome o CtrHome.init
  have hu : u.ctrHome o = CtrHome.init := (State.ctrHome_setCtrHome _ _ _ _).trans (if_pos rfl)
  have hpump : s.ctrEnqueue o q = u.ctrBegin o q := by
    rw [State.ctrEnqueue, hhome]
    refine (State.ctrPump.eq_2 _ _ _).trans ?_
    simp only [State.ctrHome_setCtrHome, if_true, CtrHome.init, List.nil_append, decide_true, Bool.true_and]
    exact (if_pos (by simpa using hop)).trans rfl
  rw [hpump]
  refine State.ctrBegin_of_idle hrec ?_ hop (by rw [hu]; rfl)
  exact (State.ctrHolders_congr (s := s) (t := u) rfl (by rw [hu, hhome])).trans hhold

theorem State.tryReply_of_no_word {key e : Nat} {c : Crew} (hc : s.crew key = some c) (hw : (c.split e).word = none) : s.tryReply key e = s := by
  simp only [State.tryReply, hc, hw]

/-- The crew that asked is answered with the exact value (R122). -/
theorem State.replyTo_of_asked {key : Nat} {c : Crew} {req : LaneReq} {vals : List Nat} (hc : s.crew key = some c) (hreq : c.reqs = [req])
    (hword : (c.split req.entry).word = none) :
    s.replyTo key req.pkt vals false = s.setCrew key { c with reqs := [{ req with answer := some vals, poison := false }] } := by
  have hfind : c.reqs.find? (fun r => r.pkt == req.pkt) = some req := by simp [hreq]
  have hmap : c.reqs.map (fun r => if r.pkt = req.pkt then { r with answer := some vals, poison := false } else r) =
      [{ req with answer := some vals, poison := false }] := by simp [hreq]
  simp only [State.replyTo, hc, hfind, hmap]
  exact State.tryReply_of_no_word ((State.crew_setCrew _ _ _ _).trans (if_pos rfl)) hword

/-- A home that has written the record of an exact request, at its crew's time. -/
def State.exactWritten (s : State) (o : Nat) (q : CtrReq) (p : Ts) : State :=
  let w := s.ctrPut o (q.apply (s.ctrGet o)) p
  (w.1.setCtrHome o (w.1.ctrHome o).idle).updCrew q.crew (fun c => { c with pts := Ts.smax c.pts w.2 })

theorem State.ctrExact_eq (s : State) (o : Nat) (q : CtrReq) :
    ∃ p, s.ctrExact o q = (s.exactWritten o q p).replyTo q.crew q.n [(s.ctrGet o).home] false := ⟨_, rfl⟩

/-- An exact request performed: its record is written and its crew answered (R122). -/
theorem State.ctrExact_of_asked {c : Crew} {req : LaneReq} (hrec : s.RecordAt o) (hc : s.crew q.crew = some c) (hreq : c.reqs = [req]) (hpkt : req.pkt = q.n)
    (hword : (c.split req.entry).word = none) (hb0 : q.b0 ≤ ctrMax) (hb1 : q.b1 ≤ ctrMax) :
    ∃ d, (s.ctrExact o q).crew q.crew = some d ∧ d.reqs = [{ req with answer := some [(s.ctrGet o).home], poison := false }] ∧
      (s.ctrExact o q).ctrGet o = q.apply (s.ctrGet o) := by
  obtain ⟨p, hp⟩ := s.ctrExact_eq o q
  have hcrews : (s.ctrPut o (q.apply (s.ctrGet o)) p).1.crew q.crew = some c := by
    rw [(State.ctrPut_homeOnly hrec p).1]
    exact hc
  have hcrew : (s.exactWritten o q p).crew q.crew = some { c with pts := Ts.smax c.pts (s.ctrPut o (q.apply (s.ctrGet o)) p).2 } :=
    (State.crew_updCrew _ _ _ _).trans ((if_pos rfl).trans (congrArg _ hcrews))
  rw [hp, ← hpkt, State.replyTo_of_asked hcrew hreq hword]
  exact ⟨_, (State.crew_setCrew _ _ _ _).trans (if_pos rfl), rfl, State.ctrGet_ctrPut hrec (ctrOf_apply_fits (State.ctrGet_fits s o) hb0 hb1) p⟩

/-! ## The exact words -/

section
variable {u : State} {x : Ctx} {c w : Crew} {i : Instr} {op b0 b1 : Nat}

/-- The request of an exact word, and the state in which its crew waits for it. -/
def exactReq (u : State) (x : Ctx) (c : Crew) (op b0 b1 : Nat) : CtrReq :=
  { core := c.core, op := op, n := u.nextId, a := 0, crew := x.key, entry := x.e, b0 := b0, b1 := b1 }

def State.exactAsked (u : State) (x : Ctx) : State :=
  ({ u with nextId := u.nextId + 1 } : State).updCrew x.key (fun c =>
    { c with reqs := c.reqs ++ [{ pkt := u.nextId, entry := x.e, lanes := [x.act.lanes.getD 0 0], answer := none, poison := false }] })

/-- An exact word whose request has arrived at the home. -/
def exactEnd (x : Ctx) (i : Instr) (s2 : State) : Act :=
  match s2.crew x.key with
  | none => .done s2
  | some c2 => if c2.answered x.e then replyAct x c2 (s2.updCrew x.key (fun c => c.dropReqs x.e)) i else .wait s2 .reply

theorem ctrExactWord_eq : ctrExactWord x c u i o op b0 b1 = exactEnd x i ((u.exactAsked x).ctrEnqueue o (exactReq u x c op b0 b1)) := rfl

theorem exactEnd_of_answered {d : Crew} {v : State} (hd : v.crew x.key = some d) (ha : d.answered x.e = true) :
    exactEnd x i v = replyAct x d (v.updCrew x.key (fun c => c.dropReqs x.e)) i := by
  simp only [exactEnd, hd, ha, if_true]

theorem State.recalled_facts {t : State} (hrec : t.RecordAt o) :
    (t.recalled o q).RecordAt o ∧ (t.recalled o q).crews = t.crews ∧ (t.recalled o q).ctrGet o = { t.ctrGet o with frozen := true } := by
  let f : CtrRec → CtrRec := fun r => { r with frozen := true }
  have hupd : t.HomeOnly (t.ctrUpd o f) := State.ctrUpd_homeOnly hrec f
  have hrec' : (t.ctrUpd o f).RecordAt o := hrec.of_homeOnly hupd
  have hcrews : (t.ctrUpd o f).crews = t.crews := by rw [hupd.1]
  have hget : (t.ctrUpd o f).ctrGet o = f (t.ctrGet o) := State.ctrGet_ctrUpd hrec (State.ctrGet_fits t o)
  exact ⟨hrec', hcrews, hget⟩

/-- R122: an exact word on a counter that no core holds, whose home is idle, has its value at once. -/
theorem ctrExactWord_of_idle (hi : u.IdleAt o) (hrec : u.RecordAt o) (hop : op ≠ 0) (hw : u.crew x.key = some w) (hreqs : w.reqs = [])
    (hword : (w.split x.e).word = none) (hb0 : b0 ≤ ctrMax) (hb1 : b1 ≤ ctrMax) :
    ∃ v d, ctrExactWord x c u i o op b0 b1 = replyAct x d v i ∧ d.answer x.e = (u.ctrGet o).home ∧
      v.ctrGet o = (exactReq u x c op b0 b1).apply { u.ctrGet o with frozen := true } := by
  let q := exactReq u x c op b0 b1
  let t := ((u.exactAsked x).setCtrHome o { CtrHome.init with queue := [q] }).setCtrHome o CtrHome.init
  let req : LaneReq := { pkt := u.nextId, entry := x.e, lanes := [x.act.lanes.getD 0 0], answer := none, poison := false }
  have hrec' : t.RecordAt o := hrec
  obtain ⟨hrecall, hcrews, hget⟩ := State.recalled_facts (q := q) hrec'
  have hcrew : (t.recalled o q).crew x.key = some { w with reqs := [req] } := by
    refine (congrArg (Tab.get · x.key) hcrews).trans ((State.crew_updCrew _ _ _ _).trans ((if_pos rfl).trans ((congrArg (Option.map _) hw).trans ?_)))
    simp [hreqs, req]
  obtain ⟨d, hd, hdreqs, hdget⟩ := State.ctrExact_of_asked (q := q) hrecall hcrew rfl rfl hword hb0 hb1
  have henq : (u.exactAsked x).ctrEnqueue o q = (t.recalled o q).ctrExact o q := State.ctrEnqueue_of_idle (s := u.exactAsked x) hi hop hrec
  rw [ctrExactWord_eq, henq]
  refine ⟨_, d, exactEnd_of_answered hd ?_, ?_, ?_⟩
  · simp [Crew.answered, Crew.reqsOf, hdreqs, req]
  · simp [Crew.answer, Crew.reqsOf, hdreqs, req, hget]
    rfl
  · refine hdget.trans (congrArg q.apply hget)

end

end

/-! ## The allowances of a core -/

section
variable {s : State} {core o n id : Nat} {e : CtrEntry}

theorem CoreSt.addr_of_ctr? {k : CoreSt} (h : k.ctr? o = some e) : e.addr = o := by
  simpa using List.find?_some h

/-- A use of a counter by its core puts the entry first, changed (R121). -/
theorem State.ctr?_ctrUse {f : CtrEntry → CtrEntry} (h : (s.core core).ctr? o = some e) (hf : (f e).addr = e.addr) :
    ((s.ctrUse core o f).core core).ctr? o = some (f e) := by
  have haddr : (f e).addr = o := hf.trans (CoreSt.addr_of_ctr? h)
  have huse : s.ctrUse core o f = s.updCore core (fun k => { k with ctrs := f e :: k.ctrs.filter (fun x => x.addr != o) }) := by
    rw [State.ctrUse, h]
  simp only [huse, State.core_updCore, if_true, CoreSt.ctr?, List.find?_cons, haddr, beq_self_eq_true]

theorem State.mem_ctrUse (f : CtrEntry → CtrEntry) : (s.ctrUse core o f).mem = s.mem := by
  unfold State.ctrUse
  split <;> rfl

theorem State.ctrTake_of_allowance (h : (s.core core).ctr? o = some e) (hr : e.refill = none) (h0 : 0 < n) (hn : n ≤ e.allow) :
    s.ctrTake core o n id = .took (s.ctrUse core o (fun e => { e with allow := e.allow - n })) := by
  have hroom : s.ctrRoom core o = (s, true) := if_pos (by rw [h]; rfl)
  simp only [State.ctrTake, if_neg (Nat.pos_iff_ne_zero.1 h0), hroom, h, hr, Option.isSome_none, Bool.not_true, Bool.false_eq_true, if_false, if_pos hn]

/-- R123: a take without an allowance asks for a refill. -/
theorem State.ctrTake_of_none (h : (s.core core).ctr? o = none) (hl : (s.core core).ctrs.length < 64) (h0 : 0 < n) :
    ∃ v, s.ctrTake core o n id = .waits v := by
  let e0 : CtrEntry := { addr := o, allow := 0, refill := none, queue := [] }
  let u := s.updCore core (fun k => { k with ctrs := e0 :: k.ctrs })
  have hroom : s.ctrRoom core o = (u, true) := (if_neg (by rw [h]; decide)).trans (if_pos hl)
  have he : (u.core core).ctr? o = some e0 := by
    simp only [u, State.core_updCore, if_true, CoreSt.ctr?, List.find?_cons, e0, beq_self_eq_true]
  refine ⟨u.ctrRefill core o n id, ?_⟩
  simp only [State.ctrTake, if_neg (Nat.pos_iff_ne_zero.1 h0), hroom, he, e0, Option.isSome_none, Bool.not_true, Bool.false_eq_true, if_false,
    if_neg (Nat.not_le.2 h0)]

theorem State.ctrGive_of_allowance (h : (s.core core).ctr? o = some e) (hn : e.allow + n ≤ ctrMax) :
    ((s.ctrGive core o n).core core).ctr? o = some { e with allow := e.allow + n } ∧ (s.ctrGive core o n).mem = s.mem := by
  have hgive : s.ctrGive core o n = s.ctrUse core o (fun e => { e with allow := min ctrMax (e.allow + n) }) := by
    refine (if_pos (by rw [h]; rfl)).trans ?_
    simp only [State.ctrAllow, h, if_neg (Nat.not_lt.2 hn)]
  rw [hgive]
  refine ⟨(State.ctr?_ctrUse h rfl).trans ?_, State.mem_ctrUse _⟩
  rw [Nat.min_eq_right hn]

theorem State.ctrGive_of_none (h : (s.core core).ctr? o = none) : s.ctrGive core o n = s.ctrUpd o (fun r => r.addHome n) :=
  if_neg (by rw [h]; decide)

theorem CtrRec.addHome_fits {r : CtrRec} (hr : r.Fits) (n : Nat) : (r.addHome n).Fits := by
  obtain ⟨hh, hc, hl, hres⟩ := hr
  unfold CtrRec.addHome ctrMax
  split
  · exact ⟨by simp, hc, hl, hres⟩
  · exact ⟨by simp only; omega, hc, hl, hres⟩

end

/-- Settles O27: the counter words on a good record, by the core's allowance or at an idle home. -/
theorem counterWords : Obligations.CounterWords := by
  unfold Obligations.CounterWords
  intro s x c t u o r w h32 hlost hprot hw hreqs hword n rec' idle done gives asks
  have hrec : u.RecordAt r := ⟨h32, hlost, hprot⟩
  have exact_of_idle (i : Instr) (op : Nat) (hop : op ≠ 0) (b0 b1 : Nat) (hb0 : b0 ≤ ctrMax) (hb1 : b1 ≤ ctrMax) (hi : idle) :=
    ctrExactWord_of_idle (x := x) (c := c) (i := i) hi hrec hop hw hreqs hword hb0 hb1
  refine ⟨fun hr => ⟨fun hk => ?_, fun hk hi => ⟨?_, ?_⟩⟩, fun hr h0 hn hk => ⟨fun e he href hle => ?_, fun he hlen => ?_⟩,
    fun hr hn => ⟨fun hk => ⟨fun he => ?_, fun e he hle => ?_⟩, fun hk h0 => ?_⟩, fun hr hk hi q hq => ?_⟩
  · exact exec_done_of_ready (mg := none) (.ctrRead o) hr rfl (hk _)
  · obtain ⟨v, d, hv, hd, hget⟩ := exact_of_idle (.ctrReadx o) 1 (by decide) 0 0 (by decide) (by decide) hi
    refine ⟨v, exec_done_of_ready (mg := none) (.ctrReadx o) hr rfl ((hk _).trans (hv.trans ?_)), hget⟩
    rw [← hd]
    rfl
  · obtain ⟨v, d, hv, hd, hget⟩ := exact_of_idle (.ctrDrain o) 2 (by decide) 0 0 (by decide) (by decide) hi
    refine ⟨v, exec_done_of_ready (mg := none) (.ctrDrain o) hr rfl ((hk _).trans (hv.trans ?_)), hget⟩
    rw [← hd]
    rfl
  · have htake := State.ctrTake_of_allowance (s := (u.nameTake x).1) (core := c.core) (id := (u.nameTake x).2) he href h0 hle
    refine ⟨((u.nameTake x).1.ctrUse c.core r (fun e => { e with allow := e.allow - n })).updCrew x.key (fun c => c.dropReqs x.e), [pWrite o.d.toNat x.act (fun _ => true)],
      exec_done_of_ready (mg := none) (.ctrTake o) hr rfl ((hk _).trans ((if_neg (Nat.not_lt.2 hn)).trans ?_)),
      predGives_pWrite _ _ _ _ (fun _ _ => rfl), State.ctr?_ctrUse (s := (u.nameTake x).1) he rfl, State.mem_ctrUse _⟩
    dsimp only
    rw [htake]
    rfl
  · obtain ⟨v, hv⟩ := State.ctrTake_of_none (s := (u.nameTake x).1) (core := c.core) (id := (u.nameTake x).2) he hlen h0
    refine ⟨v, exec_wait_of_ready (mg := none) (.ctrTake o) hr rfl ((hk _).trans ((if_neg (Nat.not_lt.2 hn)).trans ?_))⟩
    dsimp only
    rw [hv]
  · refine ⟨_, exec_done_of_ready (mg := none) (.ctrGive o) hr rfl ((hk _).trans (if_neg (Nat.not_lt.2 hn))), ?_⟩
    rw [State.ctrGive_of_none he]
    exact State.ctrGet_ctrUpd hrec (CtrRec.addHome_fits (State.ctrGet_fits u r) _)
  · exact ⟨_, exec_done_of_ready (mg := none) (.ctrGive o) hr rfl ((hk _).trans (if_neg (Nat.not_lt.2 hn))), State.ctrGive_of_allowance he hle⟩
  · have hno : ¬ (decide (ctrMax < n) || decide (n = 0)) = true := by
      simp only [Bool.or_eq_true, decide_eq_true_eq]
      omega
    refine ⟨_, exec_done_of_ready (mg := none) (.ctrCap o) hr rfl ((hk _).trans (if_neg hno)), ?_⟩
    obtain ⟨hh, hc, hl, hres⟩ := State.ctrGet_fits u r
    exact State.ctrGet_ctrPut (r := { rec' with chunk := n }) hrec ⟨hh, by unfold ctrMax at hn; simp only; omega, hl, hres⟩ c.pts
  · intro total chunk ht hch h0
    obtain ⟨v, d, hv, -, hget⟩ := exact_of_idle (.ctrInit o) 3 (by decide) total chunk ht hch hi
    have hno : ¬ (decide (ctrMax < total) || decide (ctrMax < chunk) || decide (chunk = 0)) = true := by
      simp only [Bool.or_eq_true, decide_eq_true_eq]
      omega
    refine ⟨v, exec_done_of_ready (mg := none) (.ctrInit o) hr rfl ((hk _).trans ?_), hget⟩
    simp only [hq]
    exact (if_neg hno).trans hv

end Sys2Proof.Machine
end

section
/-! SUPPORT. The cistern words (R125 to R129, R216 to R219): what each does once its record and slot check out. -/

namespace Sys2Proof.Machine

set_option Elab.async false -- one proof at a time: the threads of many at once take too much memory

section
variable {s : State} {x : Ctx} {c : Crew} {t u v : State} {h : Hdr} {d a b rr : Reg} {bo : Opnd} {lt dsp : Bool} {rec o : Nat} {r : CmbRec}

/-- The bytes of a put: 8 of each active lane (R218). -/
def putBytes (x : Ctx) (c : Crew) (rr : Reg) : List Byte :=
  (List.range 32).flatMap (fun l => leBytes (if x.act.getLsbD l then c.rvs rr.toNat l 2 else 0) 8)

/-- A put by what its tests say (R129): a chunk in time is stored, a late one counted. -/
def putAt (x : Ctx) (c : Crew) (v : State) (lt : Bool) (d : Reg) (r : CmbRec) (rec o slot chunk : Nat) (bytes : List Byte) (test : Nat × Nat) : Act :=
  match test.1 with
  | 0 => placesAt x c v 2 1 [r.chunkAt slot test.2 chunk] (fun s2 ps =>
      if c.mustWait x.act (ps.getD 0 0) 256 then .blocked s2
      else
        let q := s2.clearRange (ps.getD 0 0) 256 true false none
        if !q.2 then .blocked q.1
        else
          let z := q.1.cmbStore r o test.2 chunk (ps.getD 0 0) bytes c.pts
          putDone x c (z.1.updCrew x.key (fun c => { c with pts := Ts.smax c.pts z.2 })) lt d 0)
  | 1 => putDone x c (v.cmbLate rec o) lt d 1
  | st => putDone x c v lt d st

theorem putAct_of_slot {token w : Nat} {bytes : List Byte} (hk : ∀ k, cmbWord x c t a k = k u rec r) (hs : fld w 0 16 < r.nslots)
    (hslot : ∀ k, slotWord x c u a r (fld w 0 16) k = k v o) :
    putAct x c t lt d a token w bytes =
      putAt x c v lt d r rec o (fld w 0 16) (fld w 32 6) bytes (v.cmbTest r o token (fld w 16 16) (fld w 32 6) false) := by
  unfold putAct
  refine (hk _).trans ?_
  refine (if_neg (Nat.not_le.2 hs)).trans ?_
  exact (hslot _).trans rfl

theorem putAct_of_no_slot {token w : Nat} {bytes : List Byte} (hk : ∀ k, cmbWord x c t a k = k u rec r) (hs : r.nslots ≤ fld w 0 16) :
    putAct x c t lt d a token w bytes = putDone x c u lt d 2 := by
  unfold putAct
  exact (hk _).trans (if_pos hs)

theorem putAt_in_time {slot chunk off : Nat} {bytes : List Byte} {test : Nat × Nat} {v1 w1 : State} (h0 : test.1 = 0)
    (hplace : ∀ k, placesAt x c v 2 1 [r.chunkAt slot test.2 chunk] k = k v1 [off]) (hwait : c.mustWait x.act off 256 = false)
    (hclear : v1.clearRange off 256 true false none = (w1, true)) :
    let z := w1.cmbStore r o test.2 chunk off bytes c.pts
    putAt x c v lt d r rec o slot chunk bytes test = putDone x c (z.1.updCrew x.key (fun c => { c with pts := Ts.smax c.pts z.2 })) lt d 0 := by
  simp only [putAt, h0]
  refine (hplace _).trans ?_
  simp only [List.getD_cons_zero, hwait, hclear, Bool.not_true, Bool.false_eq_true, if_false]

theorem putAt_late {slot chunk : Nat} {bytes : List Byte} {test : Nat × Nat} (h1 : test.1 = 1) :
    putAt x c v lt d r rec o slot chunk bytes test = putDone x c (v.cmbLate rec o) lt d 1 := by
  simp only [putAt, h1]

theorem putAt_refused {slot chunk : Nat} {bytes : List Byte} {test : Nat × Nat} (h2 : 2 ≤ test.1) :
    putAt x c v lt d r rec o slot chunk bytes test = putDone x c v lt d test.1 := by
  unfold putAt
  split
  · omega
  · omega
  · rfl

/-- A put is done at once where its status posts no trap. -/
theorem putDone_of_quiet {st : Nat} (h : ¬ (lt = true ∧ st = 1)) : putDone x c t lt d st = .done (t.updCrew x.key (fun c => c.addPend x.e [sWrite d.toNat st])) :=
  if_neg (by simpa using h)

/-- A put whose slot word has no reserved bit, to a cistern of this MZ-40. -/
theorem cmbPut_near (hr : s.ready [Hdr.use h [sReg a, sRegs b 2, vReg rr 2] [sReg d]] = some (x, c, t)) (h1 : fld (c.rs (b.toNat + 1)) 38 2 = 0)
    (h2 : fld (c.rs (b.toNat + 1)) 50 14 = 0) (h3 : fld (c.rs (b.toNat + 1)) 40 1 = 0) :
    exec (.cmbPut h lt d a b rr) s = .next (t.finish (.cmbPut h lt d a b rr) x.key x.e 8 h.stall.toNat
      (putAct x c t lt d a (c.rs b.toNat) (c.rs (b.toNat + 1)) (putBytes x c rr))) := by
  refine (fullWord_ready hr (.cmbPut h lt d a b rr) h 8 _ none).trans ?_
  refine congrArg (fun z => Host.Outcome.next (t.finish (.cmbPut h lt d a b rr) x.key x.e 8 h.stall.toNat z)) ((if_neg ?_).trans (if_neg ?_))
  · simp only [h1, h2, ne_eq, not_true_eq_false, decide_false, Bool.or_self, Bool.false_eq_true, not_false_iff]
  · rw [h3]
    decide

/-- The positions of an open's descriptor rise, and its gates are finite (R217). -/
theorem rising_of_steps {n : Nat} {f : Nat → Nat} (h : ∀ e, e + 1 < n → f e < f (e + 1)) :
    (((List.range n).map f).zip (((List.range n).map f).drop 1)).all (fun p => decide (p.1 < p.2)) = true := by
  rw [List.all_eq_true]
  intro p hp
  obtain ⟨i, hi, rfl⟩ := List.mem_iff_getElem.1 hp
  simp only [List.length_zip, List.length_map, List.length_range, List.length_drop] at hi
  have hlt := h i (by omega)
  simpa [Nat.add_comm 1 i] using hlt

/-- R127, R217: an open whose descriptor is good, and that finds a FREE slot. -/
theorem openAct_of_free {desc ea dn i : Nat} {v1 v2 v3 w : State} {ps qs : List Nat} (hres : fld desc 580 60 = 0)
    (hrise : ∀ e, e + 1 < fld desc 576 3 + 1 → hdrExp desc e < hdrExp desc (e + 1)) (hfin : ∀ e, e < fld desc 576 3 + 1 → fld (hdrGate desc e) 23 8 ≠ 255)
    (hdest : ∀ k, placesAt x c v 1 1 (pagesOf (fld desc 64 64) r.rowBytes) k = k v1 ps)
    (hbar : ∀ k, placesAt x c v1 2 16 (if fld desc 128 64 = 0 then [] else [fld desc 128 64]) k = k v2 qs)
    (hseek : ∀ full k, seekFree x c r full k r.nslots v2 = k v3 i o) (hwait : c.mustWait x.act o 256 = false)
    (hclear : v3.clearRange o 256 true false none = (w, true)) :
    let asid := v3.gangAsid (keyGid x.key)
    let z := w.hdrPut o (setFld (setFld (fld desc 0 580) 624 8 asid) 580 4 slotOpen) c.pts
    let slot : CmbSlot := { record := rec, asid := asid, since := v3.now, chunks := [] }
    openAct x c v rec r desc dn ea = pendNow x (({ z.1 with cmbSlots := Tab.set z.1.cmbSlots o slot } : State).updCrew x.key
      (fun c => { c with pts := Ts.smax c.pts z.2 })) [sWrite dn i] := by
  have hfinite : ((List.range (fld desc 576 3 + 1)).map (hdrGate desc)).all (fun g => fld g 23 8 != 255) = true := by
    rw [List.all_map, List.all_eq_true]
    intro e he
    exact bne_iff_ne.2 (hfin e (List.mem_range.1 he))
  unfold openAct
  refine (if_neg ?_).trans ?_
  · rw [rising_of_steps hrise, hfinite, hres]
    decide
  · refine (hdest _).trans ?_
    refine (hbar _).trans ?_
    refine (hseek _ _).trans ?_
    refine (if_neg (by simp [hwait])).trans ?_
    simp only [hclear, Bool.not_true, Bool.false_eq_true, if_false]

end

/-- Settles O28: each cistern word does its part once its record and slot check out. -/
theorem cisternWords : Obligations.CisternWords := by
  unfold Obligations.CisternWords
  intro s x c t u v h d a b rr bo lt dsp rec o r done gives
  refine ⟨fun hk => ⟨fun hr => ?_, fun hr hslot => ⟨?_, fun hst => ?_, fun hst ctr w hrec hhome => ?_⟩, ?_⟩, ?_, ?_, ?_⟩
  · exact exec_done_of_ready (mg := none) (.cmbStat h true d a bo) hr rfl ((hk _).trans (if_pos rfl))
  · refine exec_done_of_ready (mg := none) (.cmbStat h false d a bo) hr rfl ((hk _).trans ?_)
    exact (if_neg Bool.false_ne_true).trans (hslot _)
  · refine exec_done_of_ready (mg := none) (.cmbClose h d a bo) hr rfl ((hk _).trans ?_)
    exact (hslot _).trans (if_pos hst)
  · intro w1
    refine exec_done_of_ready (mg := none) (.cmbClose h d a bo) hr rfl ((hk _).trans ?_)
    refine (hslot _).trans ((if_neg (not_not.2 hst)).trans ?_)
    exact (hrec _).trans (hhome _)
  · intro hr token w slot chunk bytes h1 h2 h3
    have hput {z : Act} (hz : putAct x c t lt d a token w bytes = z) :
        exec (.cmbPut h lt d a b rr) s = .next (t.finish (.cmbPut h lt d a b rr) x.key x.e 8 h.stall.toNat z) :=
      hz ▸ cmbPut_near hr h1 h2 h3
    refine ⟨fun hs => ?_, fun hs hslot => ?_⟩
    · exact hput ((putAct_of_no_slot hk hs).trans (putDone_of_quiet (by simp)))
    · have hat := putAct_of_slot (lt := lt) (d := d) (token := token) (bytes := bytes) hk hs hslot
      refine ⟨fun ht off v1 w1 hplace hwait hclear => ?_, fun ht hlt => ?_, fun ht hlt => ?_, fun ht => ?_⟩
      · exact hput (hat.trans ((putAt_in_time ht hplace hwait hclear).trans (putDone_of_quiet (by simp))))
      · exact hput (hat.trans ((putAt_late ht).trans (putDone_of_quiet (by simp [hlt]))))
      · have hdetail : Nat.lor 0 dPost = 128 := by decide
        rw [← hdetail]
        exact hput (hat.trans ((putAt_late ht).trans (if_pos (by simp [hlt]))))
      · exact hput (hat.trans ((putAt_refused ht).trans (putDone_of_quiet (by omega))))
  · intro hr w bytes h1 h2 h3 hrel hreach q asked
    refine exec_wait_of_ready (mg := none) (.cmbPut h lt d a b rr) hr rfl ((if_neg ?_).trans ((if_pos h3).trans ?_))
    · simp only [w, h1, h2, ne_eq, not_true_eq_false, decide_false, Bool.or_self, Bool.false_eq_true, not_false_iff]
    · have hreach' : u.peerReach (fld (c.rs (b.toNat + 1)) 41 9) = true := hreach
      simp only [hrel, hreach', Bool.not_true, Bool.false_eq_true, if_false]
      rfl
  · intro hr dev img os t1 u1 w bs ts w1 hrec hplace hrel hhome hread val hgood hplaces hfree
    refine exec_done_of_ready (mg := none) (.cmbCfg h a b) hr rfl ((hrec _).trans ?_)
    have hnone : os.any (fun p => hdrState (w1.hdr p) != slotFree) = false := by
      rw [List.any_eq_false]
      exact fun p hp => by simp [hfree p hp]
    simp only [hplace, hrel, Bool.not_true, Bool.false_eq_true, if_false]
    refine (hhome _).trans ?_
    simp only [hread, Bool.false_eq_true, if_false]
    have hgood' : (cmbOf (setFld (leVal bs) 256 32 0)).good = true := hgood
    refine (if_neg (by simp [hgood'])).trans ((hplaces _).trans ?_)
    simp only [hnone, Bool.false_eq_true, if_false]
    rfl
  · intro hr ctr desc u1 hopen htake v nexp hres hrise hfin v1 v2 v3 ps qs i w hdest hbar hseek hwait hclear asid z slot
    refine exec_done_of_ready (mg := none) (.cmbOpen h dsp d a b) hr rfl ((hopen _).trans ?_)
    dsimp only
    rw [htake]
    exact congrArg (giveBack c.core ctr) (openAct_of_free hres hrise hfin hdest hbar hseek hwait hclear)

end Sys2Proof.Machine
end

section
/-! SUPPORT. The messages of a counter's home (R123, R370), and the timers of cistern slots and switch rounds (R127, R212, R382). -/

namespace Sys2Proof.Machine

/-! ## The home of a counter -/

section
variable {s : State} {o n : Nat} {q : CtrReq}

theorem State.cores_ctrUpd (hrec : s.RecordAt o) (f : CtrRec → CtrRec) : (s.ctrUpd o f).cores = s.cores := by
  rw [(State.ctrUpd_homeOnly hrec f).1]

theorem State.crews_ctrUpd (hrec : s.RecordAt o) (f : CtrRec → CtrRec) : (s.ctrUpd o f).crews = s.crews := by
  rw [(State.ctrUpd_homeOnly hrec f).1]

theorem State.ctrPump_of_empty (h : (s.ctrHome o).queue = []) (n : Nat) : s.ctrPump o n = s := by
  cases n with
  | zero => rfl
  | succ n => simp only [State.ctrPump, h]

/-- A refill that is granted lowers HOME, and its grant is on its way (R123). -/
theorem State.ctrAnswer_grant (hrec : s.RecordAt o) (hoos : (s.core q.core).oos = false) (g : Nat) :
    ((s.ctrAnswer o q (some g)).ctrHome o = { (s.ctrHome o).idle with grants := (s.ctrHome o).grants ++ [(q.core, some g)] }) ∧
      (s.ctrAnswer o q (some g)).ctrGet o = { s.ctrGet o with home := (s.ctrGet o).home - g } ∧
      (s.ctrAnswer o q (some g)).cores = s.cores ∧ (s.ctrAnswer o q (some g)).crews = s.crews := by
  let f : CtrRec → CtrRec := fun r => { r with home := r.home - g }
  obtain ⟨hh, hc, hl, hres⟩ := State.ctrGet_fits s o
  have hfits : (f (s.ctrGet o)).Fits := ⟨Nat.lt_of_le_of_lt (Nat.sub_le _ _) hh, hc, hl, hres⟩
  have heq : s.ctrAnswer o q (some g) = (s.ctrUpd o f).setCtrHome o { (s.ctrHome o).idle with grants := (s.ctrHome o).grants ++ [(q.core, some g)] } := by
    simp only [State.ctrAnswer, hoos, Bool.false_eq_true, if_false]
    rfl
  rw [heq]
  exact ⟨(State.ctrHome_setCtrHome _ _ _ _).trans (if_pos rfl), State.ctrGet_ctrUpd hrec hfits, State.cores_ctrUpd hrec f, State.crews_ctrUpd hrec f⟩

/-- The first request of an idle home begins (R123). -/
theorem execCtrRefill_of_first (hq : s.ctrHome o = { CtrHome.init with queue := [q] }) (hop : q.op = 0) :
    exec (.ctrRefill o) s = .next (((s.setCtrHome o CtrHome.init).ctrBegin o q).ctrPump o 1) := by
  have h : execCtrRefill o s = .next (((s.setCtrHome o CtrHome.init).ctrBegin o q).ctrPump o 1) := by
    simp only [execCtrRefill, hq]
    exact if_pos (by simp [CtrHome.init, hop])
  exact h

/-- A refill that HOME can serve is granted at once (R123). -/
theorem State.ctrBegin_of_served (hop : q.op = 0) (hle : max (s.ctrGet o).chunk q.need ≤ (s.ctrGet o).home) :
    s.ctrBegin o q = s.ctrAnswer o q (some (max (s.ctrGet o).chunk q.need)) :=
  (if_pos hop).trans (if_pos hle)

/-- A refill that HOME cannot serve visits the other holders (R123). -/
theorem State.ctrBegin_of_short (hop : q.op = 0) (hlt : (s.ctrGet o).home < max (s.ctrGet o).chunk q.need)
    (hne : ((s.ctrHolders o).map Prod.fst).filter (· != q.core) ≠ []) :
    s.ctrBegin o q = s.setCtrHome o { s.ctrHome o with st := 1, cur := some q, awaiting := ((s.ctrHolders o).map Prod.fst).filter (· != q.core) } := by
  refine (if_pos hop).trans ((if_neg (Nat.not_le.2 hlt)).trans ?_)
  rw [State.ctrEval]
  simp only [State.ctrHome_setCtrHome, if_true]
  exact if_pos (by simp [List.isEmpty_eq_false_iff.2 hne])

/-- The round of a refill whose replies are all in is granted what it asked for, as far as HOME goes (R123). -/
theorem State.ctrEval_of_enough (hcur : (s.ctrHome o).cur = some q) (hst : (s.ctrHome o).st = 1) (haw : (s.ctrHome o).awaiting = [])
    (hrep : (s.ctrHome o).replies = []) (hle : q.need ≤ (s.ctrGet o).home) :
    s.ctrEval o (n + 1) = s.ctrAnswer o q (some (min (s.ctrGet o).home (max (s.ctrGet o).chunk q.need))) := by
  rw [State.ctrEval]
  simp only [hcur, hst, haw, hrep, List.isEmpty_nil, Bool.not_true, Bool.or_self, Bool.false_eq_true, if_false, OfNat.one_ne_ofNat, if_pos hle]

end

/-! ## Recalls and grants at the cores -/

section
variable {s : State} {o core x : Nat} {e : CtrEntry}

theorem State.ctrHome_ctrUse (f : CtrEntry → CtrEntry) (k : Nat) : (s.ctrUse core o f).ctrHome k = s.ctrHome k := by
  unfold State.ctrUse
  split <;> rfl

theorem State.crews_ctrUse (f : CtrEntry → CtrEntry) : (s.ctrUse core o f).crews = s.crews := by
  unfold State.ctrUse
  split <;> rfl

/-- A recall takes half of a holder's allowance, or all of it, into the replies of the home (R123). -/
theorem execCtrRecall_of_turn {rest : List Nat} (haw : (s.ctrHome o).awaiting = core :: rest) (hg : (s.ctrHome o).grants = [])
    (he : (s.core core).ctr? o = some e) :
    let back := if (s.ctrHome o).st = 1 then (e.allow + 1) / 2 else e.allow
    ∃ u, exec (.ctrRecall o core) s = .next u ∧ (u.ctrHome o).awaiting = rest ∧ (u.ctrHome o).replies = (s.ctrHome o).replies ++ [(core, back)] ∧
      (u.core core).ctr? o = some { e with allow := e.allow - back } ∧ u.mem = s.mem := by
  intro back
  let s1 := s.setCtrHome o { s.ctrHome o with awaiting := rest }
  have he1 : (s1.core core).ctr? o = some e := he
  let r := s1.ctrRecallAt o core ((s.ctrHome o).st == 1)
  have hexec : exec (.ctrRecall o core) s = .next (r.1.setCtrHome o { r.1.ctrHome o with replies := (r.1.ctrHome o).replies ++ [(core, r.2)] }) := by
    have h : execCtrRecall o core s = .next (r.1.setCtrHome o { r.1.ctrHome o with replies := (r.1.ctrHome o).replies ++ [(core, r.2)] }) := by
      simp only [execCtrRecall, haw]
      exact if_pos (by simp [hg])
    exact h
  have hback : (if ((s.ctrHome o).st == 1) = true then (e.allow + 1) / 2 else e.allow) = back := by simp [back]
  let t := s1.ctrUse core o (fun e => { e with allow := e.allow - back })
  have hr : r = (t.setCtrHome o { t.ctrHome o with
      queue := (t.ctrHome o).queue.map (fun q => if q.op = 0 && q.core = core then { q with a := q.a - back } else q) }, back) := by
    simp only [r, State.ctrRecallAt, he1, hback]
    rfl
  have hhome : t.ctrHome o = { s.ctrHome o with awaiting := rest } :=
    (State.ctrHome_ctrUse _ _).trans ((State.ctrHome_setCtrHome _ _ _ _).trans (if_pos rfl))
  rw [hr] at hexec
  refine ⟨_, hexec, ?_, ?_, State.ctr?_ctrUse he1 rfl, State.mem_ctrUse _⟩
  · simp only [State.ctrHome_setCtrHome, if_true, hhome]
  · simp only [State.ctrHome_setCtrHome, if_true, hhome]

/-- A grant that does not pass the greatest allowance adds to it, and touches nothing else. -/
theorem State.ctrAllow_of_fits {f : Nat → Nat} (he : (s.core core).ctr? o = some e) (hf : f e.allow ≤ ctrMax) :
    s.ctrAllow core o f = s.ctrUse core o (fun e => { e with allow := min ctrMax (f e.allow) }) := by
  simp only [State.ctrAllow, he, if_neg (Nat.not_lt.2 hf)]

theorem State.RecordAt.ctrUse (hrec : s.RecordAt o) (f : CtrEntry → CtrEntry) : (s.ctrUse core o f).RecordAt o := by
  unfold State.ctrUse
  split <;> exact hrec

theorem State.crews_ctrAllow (hrec : s.RecordAt o) (f : Nat → Nat) : (s.ctrAllow core o f).crews = s.crews := by
  unfold State.ctrAllow
  split
  · dsimp only
    split
    · exact (State.crews_ctrUpd (hrec.ctrUse _) _).trans (State.crews_ctrUse _)
    · exact State.crews_ctrUse _
  · exact State.crews_ctrUse _

theorem State.nextTakes_of_no_queue {n : Nat} (he : (s.core core).ctr? o = some e) (hq : e.queue = []) : s.nextTakes core o n = s := by
  cases n with
  | zero => rfl
  | succ n => simp only [State.nextTakes, he, hq]

/-- A take that waited completes with true (R215). -/
theorem State.takeOver_of_take {key en : Nat} {c : Crew} {w : Ctr} (hword : (c.split en).word = some (.ctrTake w)) :
    s.takeOver o key en c true =
      (s.updCrew key (fun c => c.dropReqs en)).wakeSplit key en [pWrite w.d.toNat (s.waitCtx key en c).act (fun _ => true)] := by
  simp only [State.takeOver, hword]

/-- The state in which a grant to a core in service has arrived, and its refill is over. -/
def State.granted (s : State) (o core : Nat) : State :=
  (s.setCtrHome o CtrHome.init).ctrUse core o (fun e => { e with refill := none })

/-- A grant's core, with what its refill waited for (R123). -/
theorem execCtrGrant_of_entry (hh : s.ctrHome o = { CtrHome.init with grants := [(core, some x)] }) (hoos : (s.core core).oos = false)
    (he : (s.core core).ctr? o = some e) :
    (e.refill = none → exec (.ctrGrant o core) s = .next (((s.granted o core).ctrAllow core o (· + x)).nextTakes core o (e.queue.length + 1))) ∧
    (∀ n id key en c, e.refill = some (n, id) → s.takerOf core id = some (key, en, c) → exec (.ctrGrant o core) s =
      .next ((((s.granted o core).ctrAllow core o (fun a => a + x - n)).takeOver o key en c true).nextTakes core o (e.queue.length + 1))) := by
  have herase : [(core, some x)].erase (core, some x) = [] := List.erase_cons_head _ _
  have hfind : [(core, some x)].find? (fun g => g.1 == core) = some (core, some x) := List.find?_cons_of_pos (beq_self_eq_true core)
  have he1 : ((s.setCtrHome o CtrHome.init).core core).ctr? o = some e := he
  have hinit : ({ CtrHome.init with grants := [] } : CtrHome) = CtrHome.init := rfl
  constructor
  · intro href
    have h : execCtrGrant o core s = .next (((s.granted o core).ctrAllow core o (· + x)).nextTakes core o (e.queue.length + 1)) := by
      simp only [execCtrGrant, hh, hfind, herase, hinit, hoos, he1, href, Bool.false_eq_true, if_false]
      rfl
    exact h
  · intro n id key en c href htaker
    have htaker' : (s.granted o core).takerOf core id = some (key, en, c) := by
      rw [← htaker]
      have hcrews : (s.granted o core).crews = s.crews := State.crews_ctrUse _
      simp only [State.takerOf, State.coreCrews, hcrews]
    have h : execCtrGrant o core s =
        .next ((((s.granted o core).ctrAllow core o (fun a => a + x - n)).takeOver o key en c true).nextTakes core o (e.queue.length + 1)) := by
      simp only [execCtrGrant, hh, hfind, herase, hinit, hoos, he1, href, Bool.false_eq_true, if_false]
      simp only [State.granted] at htaker'
      simp only [htaker']
      rfl
    exact h

/-- HOME does not overflow where the sum fits (R121). -/
theorem CtrRec.addHome_of_le {r : CtrRec} (h : r.home + x ≤ ctrMax) : r.addHome x = { r with home := r.home + x } := if_neg (Nat.not_lt.2 h)

end

/-! ## The timer of a cistern slot -/

/-- The bits of the positions up to `n` that are not whole. -/
def missingBits (p : Nat → Bool) (n : Nat) : Nat := (List.range n).foldl (fun m e => if p e then m else m + 2 ^ e) 0

theorem missingBits_succ (p : Nat → Bool) (n : Nat) : missingBits p (n + 1) = if p n then missingBits p n else missingBits p n + 2 ^ n := by
  simp only [missingBits, List.range_succ, List.foldl_append, List.foldl_cons, List.foldl_nil]

theorem missingBits_lt (p : Nat → Bool) (n : Nat) : missingBits p n < 2 ^ n := by
  induction n with
  | zero => exact Nat.zero_lt_one
  | succ n ih =>
    rw [missingBits_succ, Nat.pow_succ]
    split <;> omega

theorem testBit_missingBits (p : Nat → Bool) (n e : Nat) : (missingBits p n).testBit e = (decide (e < n) && !p e) := by
  induction n with
  | zero => simp [missingBits]
  | succ n ih =>
    have hlt := missingBits_lt p n
    rw [missingBits_succ]
    rcases Nat.lt_trichotomy e n with he | rfl | he
    · have hbit : (missingBits p n + 2 ^ n).testBit e = (missingBits p n).testBit e := by rw [Nat.add_comm, Nat.testBit_two_pow_add_gt he]
      have he' : e < n + 1 := Nat.lt_succ_of_lt he
      split <;> simp only [hbit, ih, he, he']
    · by_cases hp : p e = true
      · simp [hp, Nat.testBit_lt_two_pow hlt]
      · simp [hp, Nat.add_comm _ (2 ^ e), Nat.testBit_two_pow_add_eq, Nat.testBit_lt_two_pow hlt]
    · have hle : 2 ^ (n + 1) ≤ 2 ^ e := Nat.pow_le_pow_right (by decide) he
      have hno : ¬ e < n + 1 := by omega
      have hz : (if p n then missingBits p n else missingBits p n + 2 ^ n).testBit e = false := by
        refine Nat.testBit_lt_two_pow (Nat.lt_of_lt_of_le ?_ hle)
        rw [Nat.pow_succ]
        split <;> omega
      rw [hz, decide_eq_false hno, Bool.false_and]

theorem fld_missingBits {p : Nat → Bool} {n e : Nat} (he : e < n) : fld (missingBits p n) e 1 = if p e then 0 else 1 := by
  have h := testBit_missingBits p n e
  rw [Nat.testBit_eq_decide_div_mod_eq, decide_eq_true he, Bool.true_and] at h
  cases hp : p e with
  | true =>
    rw [hp, Bool.not_true, decide_eq_false_iff_not] at h
    exact Nat.mod_two_ne_one.1 h
  | false =>
    rw [hp, Bool.not_false, decide_eq_true_eq] at h
    exact h

theorem State.cmbMissing_eq (s : State) (o nch : Nat) :
    s.cmbMissing o nch = missingBits (fun e => hdrWhole (s.hdr o) e nch) (hdrNexp (s.hdr o)) := rfl

/-! ## The rounds of a switch -/

section
variable {s : State} {g num : Nat} {r : SwrRound} {v : SwrGroup} {con : SwrContribution}

theorem State.swrGroup_setSwr (s : State) (g : Nat) (v : SwrGroup) : (s.setSwr g v).swrGroup g = v := by
  simp only [State.swrGroup, State.setSwr, Tab.getD_set, if_true]

theorem SwrGroup.setRound_of_new (h : ∀ x ∈ v.rounds, x.num ≠ r.num) : v.setRound r = { v with rounds := v.rounds ++ [r] } := by
  refine if_neg ?_
  simpa using h

theorem SwrGroup.setRound_of_only {x : SwrRound} (h : v.rounds = [x]) (hn : x.num = r.num) : (v.setRound r).rounds = [r] := by
  simp [SwrGroup.setRound, h, hn]

/-- A round none of whose contributions is this package's command ends without a delivery (R212). -/
theorem State.swrEnd_of_peers (h : ∀ d ∈ r.got, d.cmd = none) (abort : Bool) :
    ((s.swrEnd g r abort).swrGroup g).rounds = ((s.swrGroup g).setRound { r with ended := true, aborted := abort }).rounds ∧
      (s.swrEnd g r abort).mem = s.mem := by
  refine List.foldlRecOn r.got _ (motive := fun (t : State) => (t.swrGroup g).rounds = _ ∧ t.mem = s.mem) ⟨?_, rfl⟩ ?_
  · rw [State.swrGroup_setSwr]
  · intro t ht d hd
    simp only [h d hd, ht, and_self]

/-- A round whose contributions agree has no length mismatch (R382). -/
theorem SwrRound.lenMis_append (hcon : ∀ d ∈ r.got, d.mismatch con = false) (hgot : ∀ d ∈ r.got, ∀ d' ∈ r.got, d.mismatch d' = false) :
    ({ r with got := r.got ++ [con] } : SwrRound).lenMis = false := by
  cases hr : r.got with
  | nil => simp [SwrRound.lenMis]
  | cons a rest =>
    rw [hr] at hcon hgot
    have hany : (rest ++ [con]).any (fun d => a.mismatch d) = false := by
      rw [List.any_eq_false]
      intro d hd
      rcases List.mem_append.1 hd with hd | hd
      · simp [hgot a (List.mem_cons_self ..) d (List.mem_cons_of_mem _ hd)]
      · simp [List.mem_singleton.1 hd, hcon a (List.mem_cons_self ..)]
    exact hany

theorem SwrRound.full_append (hne : r.got ≠ []) (hcon : ∀ d ∈ r.got, d.mismatch con = false) :
    ({ r with got := r.got ++ [con] } : SwrRound).full = (List.range con.size).all (fun k => (r.got ++ [con]).any (fun d => d.rank == k)) := by
  cases hr : r.got with
  | nil => exact absurd hr hne
  | cons a rest =>
    have hsize : a.size = con.size := by
      have h := hcon a (by rw [hr]; exact List.mem_cons_self ..)
      simp only [SwrContribution.mismatch, Bool.or_eq_false_iff, bne_eq_false_iff_eq] at h
      exact h.1.1.1
    rw [← hsize]
    rfl

end

/-- Settles O40: the messages of a counter's home, case by case (R123), then the timers of slots and rounds (R127, R382). -/
theorem countersAndTimers : Obligations.CountersAndTimers := by
  unfold Obligations.CountersAndTimers
  refine ⟨fun s o core x q e h32 hlost hprot hlen => ?_, fun s => ⟨fun slot k hk hl hw hopen => ?_, fun g rank size ty op len bs => ?_, fun g r hr hend hcmd => ?_⟩⟩
  · intro h rec' holders
    have hrec : s.RecordAt o := ⟨h32, hlost, hprot⟩
    have hhome (v : CtrHome) : (s.setCtrHome o v).ctrHome o = v := (State.ctrHome_setCtrHome _ _ _ _).trans (if_pos rfl)
    have hhold (v : CtrHome) (hg : v.grants = (s.ctrHome o).grants) : (s.setCtrHome o v).ctrHolders o = s.ctrHolders o :=
      State.ctrHolders_congr (s := s) rfl (by rw [hhome, hg])
    refine ⟨fun hq hop hoos => ⟨fun hle => ?_, fun hlt hne => ?_⟩, fun rest haw hg he => execCtrRecall_of_turn haw hg he, fun hq hop hoos hmax hle => ?_,
      fun hq hoos he => ⟨fun href hqueue hfit => ?_, fun n id key en c w href htaker hword => ?_⟩⟩
    · let u := s.setCtrHome o CtrHome.init
      obtain ⟨h1, h2, h3, h4⟩ := State.ctrAnswer_grant (s := u) (q := q) hrec hoos (max rec'.chunk q.need)
      rw [hhome] at h1
      have hbegin : u.ctrBegin o q = u.ctrAnswer o q (some (max rec'.chunk q.need)) := State.ctrBegin_of_served (s := u) hop hle
      refine ⟨_, (execCtrRefill_of_first hq hop).trans ?_, h1, h2, h3, h4⟩
      rw [hbegin, State.ctrPump_of_empty (by rw [h1]; rfl)]
    · let u := s.setCtrHome o CtrHome.init
      have hu : u.ctrHolders o = s.ctrHolders o := hhold _ (by rw [show s.ctrHome o = _ from hq])
      have hbegin : u.ctrBegin o q = _ := State.ctrBegin_of_short (s := u) hop hlt (by rw [hu]; exact hne)
      rw [hu, hhome] at hbegin
      refine ⟨_, (execCtrRefill_of_first hq hop).trans ?_, (State.ctrHome_setCtrHome u o _ o).trans (if_pos rfl), rfl, rfl⟩
      rw [hbegin, State.ctrPump_of_empty (by rw [State.ctrHome_setCtrHome, if_pos rfl]; rfl)]
    · let u := s.setCtrHome o { CtrHome.init with st := 1, cur := some q }
      let f : CtrRec → CtrRec := fun c => c.addHome x
      have hget : (u.ctrUpd o f).ctrGet o = { rec' with home := rec'.home + x } :=
        (State.ctrGet_ctrUpd (s := u) hrec (CtrRec.addHome_fits (State.ctrGet_fits s o) x)).trans (CtrRec.addHome_of_le hmax)
      have hhome' : (u.ctrUpd o f).ctrHome o = { CtrHome.init with st := 1, cur := some q } :=
        (State.ctrHome_ctrUpd (s := u) hrec f o).trans (hhome _)
      have hrec' : (u.ctrUpd o f).RecordAt o := State.RecordAt.of_homeOnly (s := u) hrec (State.ctrUpd_homeOnly (s := u) hrec f)
      have heval : (u.ctrUpd o f).ctrEval o 3 = _ := State.ctrEval_of_enough (q := q) (n := 2) (by rw [hhome']) (by rw [hhome']) (by rw [hhome']; rfl)
        (by rw [hhome']; rfl) (by rw [hget]; exact hle)
      have hoos' : ((u.ctrUpd o f).core q.core).oos = false := by
        simp only [State.core, State.cores_ctrUpd (s := u) hrec f]
        exact hoos
      obtain ⟨h1, h2, -, -⟩ := State.ctrAnswer_grant (q := q) hrec' hoos' (min (rec'.home + x) (max rec'.chunk q.need))
      rw [hget] at heval h2
      rw [hhome'] at h1
      have hexec : exec (.ctrRecallReply o core) s = .next (((u.ctrUpd o f).ctrEval o 3).ctrPump o 1) := by
        have hrun : execCtrRecallReply o core s = .next (((u.ctrUpd o f).ctrEval o 3).ctrPump o 1) := by
          have hq' : s.ctrHome o = _ := hq
          have hfind : [(core, x)].find? (fun r => r.1 == core) = some (core, x) := List.find?_cons_of_pos (beq_self_eq_true core)
          have herase : [(core, x)].erase (core, x) = [] := List.erase_cons_head _ _
          simp only [execCtrRecallReply, hq', hfind, herase]
          rfl
        exact hrun
      rw [heval, State.ctrPump_of_empty (by rw [h1]; rfl)] at hexec
      exact ⟨_, hexec, h1, h2⟩
    · have hg := (execCtrGrant_of_entry hq hoos he).1 href
      rw [hqueue] at hg
      let t := s.granted o core
      have het : (t.core core).ctr? o = some { e with refill := none } := State.ctr?_ctrUse (s := s.setCtrHome o CtrHome.init) he rfl
      have hallow := State.ctrAllow_of_fits (s := t) (f := (· + x)) het hfit
      have hcore : ((t.ctrAllow core o (· + x)).core core).ctr? o = some { e with allow := e.allow + x } := by
        rw [hallow]
        refine (State.ctr?_ctrUse het rfl).trans ?_
        rw [Nat.min_eq_right hfit, ← href]
      refine ⟨_, hg.trans (congrArg _ (State.nextTakes_of_no_queue hcore hqueue)), hcore, ?_, ?_⟩
      · rw [hallow, State.ctrHome_ctrUse]
        exact (State.ctrHome_ctrUse _ _).trans (hhome _)
      · rw [hallow, State.mem_ctrUse]
        exact State.mem_ctrUse _
    · have hg := (execCtrGrant_of_entry hq hoos he).2 n id key en c href htaker
      let t := s.granted o core
      have hrect : t.RecordAt o := State.RecordAt.ctrUse (s := s.setCtrHome o CtrHome.init) hrec _
      have het : (t.core core).ctr? o = some { e with refill := none } := State.ctr?_ctrUse (s := s.setCtrHome o CtrHome.init) he rfl
      refine ⟨t.ctrAllow core o (fun a => a + x - n), hg.trans ?_, ?_, fun hfit => ?_⟩
      · rw [State.takeOver_of_take hword]
        rfl
      · exact (State.crews_ctrAllow hrect _).trans (State.crews_ctrUse _)
      · rw [State.ctrAllow_of_fits (s := t) het hfit]
        refine ⟨(State.ctr?_ctrUse het rfl).trans ?_, (State.mem_ctrUse _).trans (State.mem_ctrUse _)⟩
        rw [Nat.min_eq_right hfit]
  · have hrun : exec (.cmbTimeout slot) s = if k.since + usCycles (s.cmbRec k.record).timeout ≤ s.now
        then .next (s.cmbComplete slot (s.cmbMissing slot (s.cmbRec k.record).nch)) else .next s := by
      have h : execCmbTimeout slot s = if k.since + usCycles (s.cmbRec k.record).timeout ≤ s.now
          then .next (s.cmbComplete slot (s.cmbMissing slot (s.cmbRec k.record).nch)) else .next s := by
        simp only [execCmbTimeout, hk, hl, hw, List.any_nil, Bool.or_self, Bool.false_eq_true, if_false, if_pos hopen]
      exact h
    have hcyc (n : Nat) : usCycles n = 2700 * n := Nat.mul_comm _ _
    rw [hcyc] at hrun
    refine ⟨fun hlt => hrun.trans (if_neg (Nat.not_le.2 hlt)), fun hle => ⟨_, hrun.trans (if_pos hle), fun e he => ?_⟩⟩
    rw [State.cmbMissing_eq, fld_missingBits he]
    rfl
  · intro v num con
    let s1 := s.setSwr g { v with next := Tab.set v.next rank (num + 1) }
    have hv : s1.swrGroup g = { v with next := Tab.set v.next rank (num + 1) } := State.swrGroup_setSwr _ _ _
    have hexec : exec (.swrRound g (.peer rank size ty op len bs)) s = .next (s1.swrTake g num con) := rfl
    refine ⟨fun hnew => ?_, fun r hr hnum hend habort hcon hgot hne => ?_⟩
    · have hfind : v.rounds.find? (fun r => r.num == num) = none := by simpa using hnew
      have htake : s1.swrTake g num con = s1.setSwr g { v with
          rounds := v.rounds ++ [{ num := num, start := s.now, got := [con], ended := false, aborted := false }], next := Tab.set v.next rank (num + 1) } := by
        simp only [State.swrTake, hv, hfind]
        rw [SwrGroup.setRound_of_new hnew]
        rfl
      rw [htake] at hexec
      refine ⟨_, hexec, ?_, ?_, rfl, rfl⟩
      · rw [State.swrGroup_setSwr]
      · rw [State.swrGroup_setSwr]
        exact (Tab.getD_set _ _ _ _ _).trans (if_pos rfl)
    · intro all whole
      let r1 : SwrRound := { r with got := all, ended := false }
      have hfind : v.rounds.find? (fun r => r.num == num) = some r := by simp [hr, hnum]
      let s2 := s1.setSwr g ({ v with next := Tab.set v.next rank (num + 1) }.setRound r1)
      have hround : (s2.swrGroup g).rounds = [r1] := by
        rw [State.swrGroup_setSwr]
        exact SwrGroup.setRound_of_only hr rfl
      have htake : s1.swrTake g num con = if whole then s2.swrEnd g r1 false else s2 := by
        have hmis : r1.lenMis = false := SwrRound.lenMis_append (fun d hd => (hcon d hd).2) hgot
        have hfull : r1.full = whole := SwrRound.full_append hne (fun d hd => (hcon d hd).2)
        simp only [State.swrTake, hv, hfind, hend, Bool.false_eq_true, if_false]
        rw [← hfull]
        exact if_neg (ne_true_of_eq_false hmis)
      rw [htake] at hexec
      refine ⟨_, hexec, ?_⟩
      cases hw : whole with
      | false =>
        rw [if_neg Bool.false_ne_true, hround]
        exact ⟨rfl, rfl⟩
      | true =>
        have hpeers : ∀ d ∈ r1.got, d.cmd = none := by
          intro d hd
          rcases List.mem_append.1 hd with hd | hd
          · exact (hcon d hd).1
          · rw [List.mem_singleton.1 hd]
        obtain ⟨h1, h2⟩ := State.swrEnd_of_peers (s := s2) (g := g) hpeers false
        rw [if_pos rfl]
        refine ⟨h1.trans ?_, h2⟩
        rw [habort]
        exact SwrGroup.setRound_of_only hround rfl
  · have hcyc : usCycles 20 = 54000 := rfl
    have hrun : exec (.swrRoundTimeout g) s = if r.start + 54000 ≤ s.now then .next (s.swrEnd g r true) else .next s := by
      have h : execSwrRoundTimeout g s = if r.start + 54000 ≤ s.now then .next (s.swrEnd g r true) else .next s := by
        simp only [execSwrRoundTimeout, hr, List.find?_cons, hend, hcyc, Bool.not_false, Bool.true_and, List.find?_nil]
        by_cases hle : r.start + 54000 ≤ s.now
        · simp only [hle, decide_true, if_true]
        · simp only [hle, decide_false, if_false]
      exact h
    refine ⟨fun hlt => hrun.trans (if_neg (Nat.not_le.2 hlt)), fun hle => ?_⟩
    obtain ⟨h1, h2⟩ := State.swrEnd_of_peers (s := s) (g := g) hcmd true
    exact ⟨_, hrun.trans (if_pos hle), h1.trans (SwrGroup.setRound_of_only hr rfl), h2⟩

end Sys2Proof.Machine
end

section
/-! SUPPORT. Waits that end (R109, R111, R112, R116, R189, R247), and the results that become readable (R144, R145). -/

namespace Sys2Proof.Machine

/-! ## Registers that a write changes -/

section
variable {c : Crew} {n k l v : Nat} {m : Mask}

theorem Crew.rs_setS (hk : k < 64) : (c.setS n v).rs k = if k = 63 then 0 else if k = n then v % 2 ^ 64 else c.rs k := by
  by_cases h63 : k = 63
  · simp only [Crew.rs, h63, if_true]
  · unfold Crew.setS Crew.rs
    by_cases hn : n = 63
    · have hne : k ≠ n := fun h => h63 (h.trans hn)
      simp only [if_pos hn, if_neg h63, if_neg hne]
    · simp only [if_neg hn, if_neg h63, Cells.get_set]
      by_cases hkn : k = n
      · simp [hkn]
      · simp [hkn]

theorem Crew.rp_setP {f : Nat → Bool} (hk : k < 7) : (c.setP n m f).rp k l = if k = n ∧ m.getLsbD l then f l else c.rp k l := by
  by_cases hkn : k = n
  · subst hkn
    have hne : ¬ k = 7 := by omega
    simp only [Crew.setP, if_neg hne, Crew.rp, Cells.get_set, if_true, true_and, BitVec.getLsbD_or, BitVec.getLsbD_and, BitVec.getLsbD_not]
    by_cases hl : l < 32
    · rw [Mask.getLsbD_ofLanes _ hl]
      simp only [List.mem_filter, Mask.mem_lanes, hl, decide_true, Bool.true_and]
      cases m.getLsbD l with
      | false => simp
      | true => simp
    · simp [BitVec.getLsbD_of_ge _ l (Nat.not_lt.1 hl)]
  · unfold Crew.setP
    split
    · simp [hkn]
    · simp [Crew.rp, Cells.get_set, hkn]

theorem Crew.logical_foldl_setV (n : Nat) (f : Nat → Nat) (ls : List Nat) (c : Crew) (hl : l < 32) (hls : ∀ i ∈ ls, i < 32) (k : Nat) :
    (ls.foldl (fun c l => c.setV n l (f l)) c).logical k l = if k = n ∧ l ∈ ls then f l % 2 ^ 32 else c.logical k l := by
  induction ls generalizing c with
  | nil => simp
  | cons i ls ih =>
    have hi : i < 32 := hls i (List.mem_cons_self ..)
    have hkey : n * 32 + i = k * 32 + l ↔ k = n ∧ l = i := by omega
    rw [List.foldl_cons, ih _ (fun j hj => hls j (List.mem_cons_of_mem _ hj))]
    simp only [Crew.logical, Crew.setV, Cells.get_set, List.mem_cons]
    by_cases hmem : k = n ∧ l ∈ ls
    · simp [hmem]
    · by_cases hkn : k = n ∧ l = i
      · simp [hkn]
      · have hkn' : ¬ k * 32 + l = n * 32 + i := fun h => hkn (hkey.1 h.symm)
        have hno : ¬ (k = n ∧ (l = i ∨ l ∈ ls)) := by tauto
        simp only [if_neg hmem, if_neg hno, if_neg hkn']

theorem Crew.wb_foldl_setV (n : Nat) (f : Nat → Nat) (ls : List Nat) (c : Crew) : (ls.foldl (fun c l => c.setV n l (f l)) c).wb = c.wb :=
  List.foldlRecOn ls _ (motive := fun (d : Crew) => d.wb = c.wb) rfl (fun _ h _ _ => h)

/-! ## One result that becomes readable -/

/-- A crew with one result to come, once it is readable (R145). -/
theorem Crew.settle_of_single {x : FixWrite} {t : Nat} (h : c.fix = [x]) (hr : x.ready ≤ t) :
    c.settle t = { ({ c with fix := [] } : Crew).put x.w with fix := [] } := by
  simp [Crew.settle, h, hr, Crew.applyFix, fixInsert]

theorem Crew.settle_of_later {t : Nat} (h : ∀ x ∈ c.fix, t < x.ready) : c.settle t = c := by
  have hnone : c.fix.filter (fun x => decide (x.ready ≤ t)) = [] := by
    rw [List.filter_eq_nil_iff]
    intro x hx
    simpa using h x hx
  simp only [Crew.settle, hnone, List.isEmpty_nil, if_true]

end

/-! ## Waits that end -/

section
variable {s : State} {key e : Nat} {c : Crew}

/-- R109: what a `bar.wait` meets when it is tried again: a flip, no flip, or an object that is not good. -/
theorem State.wakeBar_of_wait {b : BarLoc} {q : Bool} {o : Bar} {s1 : State} (hb : (∃ gid off, b = .scr gid off) ∨ ∃ d, b = .dev d)
    (hw : (c.split e).wait = .bar b q) (hword : (c.split e).word = some (.barWait o)) :
    (∀ old ts, s.barSee b q c.pts (some key) = .ok s1 old ts →
      s.wakeBar key e c = (s1.barAcquired key c.core b (s1.barScope b) ts).wakeSplit key e []) ∧
    (s.barSee b q c.pts (some key) = .waits s1 → s.wakeBar key e c = s) ∧
    (s.barSee b q c.pts (some key) = .sync s1 →
      s.wakeBar key e c = s1.takeTrap key (syncTrap (s.waitCtx key e c) (c.rs o.a.toNat))) := by
  obtain ⟨gid, off, rfl⟩ | ⟨d, rfl⟩ := hb
  · refine ⟨fun old ts h => ?_, fun h => ?_, fun h => ?_⟩
    · simp only [State.wakeBar, hw, hword, h, State.resumeWord]
    · simp only [State.wakeBar, hw, hword, h]
    · simp only [State.wakeBar, hw, hword, h, State.resumeWord]
  · refine ⟨fun old ts h => ?_, fun h => ?_, fun h => ?_⟩
    · simp only [State.wakeBar, hw, hword, h, State.resumeWord]
    · simp only [State.wakeBar, hw, hword, h]
    · simp only [State.wakeBar, hw, hword, h, State.resumeWord]

theorem execBarrierWakeup_of_running (hc : s.crew key = some c) (ht : c.trap = none) :
    exec (.barrierWakeup (.split key e)) s = .next (s.wakeBar key e c) := by
  have h : execBarrierWakeup (.split key e) s = .next (s.wakeBar key e c) := by simp only [execBarrierWakeup, hc, ht, Option.isSome_none, Bool.false_eq_true, if_false]
  exact h

theorem execWellWakeup_of_running (hc : s.crew key = some c) (ht : c.trap = none) :
    exec (.wellWakeup (.split key e)) s = .next (s.wakeWell key e c) := by
  have h : execWellWakeup (.split key e) s = .next (s.wakeWell key e c) := by simp only [execWellWakeup, hc, ht, Option.isSome_none, Bool.false_eq_true, if_false]
  exact h

/-- A wake-up of a trapped crew's split changes nothing (R116). -/
theorem exec_wakeups_of_trapped (hc : s.crew key = some c) (ht : c.trap ≠ none) :
    exec (.barrierWakeup (.split key e)) s = .next s ∧ exec (.wellWakeup (.split key e)) s = .next s ∧ exec (.batchWakeup (.split key e)) s = .next s := by
  have hsome : c.trap.isSome = true := Option.isSome_iff_ne_none.2 ht
  have h1 : execBarrierWakeup (.split key e) s = .next s := by simp only [execBarrierWakeup, hc, hsome, if_true]
  have h2 : execWellWakeup (.split key e) s = .next s := by simp only [execWellWakeup, hc, hsome, if_true]
  have h3 : execBatchWakeup (.split key e) s = .next s := by simp only [execBatchWakeup, hc, hsome, Bool.true_or, if_true]
  exact ⟨h1, h2, h3⟩

theorem State.barSee_scratch {gid off : Nat} {g : Gang} {q : Bool} {p : Ts} {who : Option Nat} (hg : s.gang gid = some g) (hp : g.scrPoison = [])
    (hb : g.scrBadChk = []) : s.barSee (.scr gid off) q p who =
      let o := barOf (leVal (g.scrBytes off 16))
      if o.err || !o.shaped true then .sync s else if o.phase ≠ q then .ok s o p else if o.good true then .waits s else .sync s := by
  unfold State.barSee
  rw [State.barFetch_scratch hg hp hb]
  rfl

end

/-- Settles O36: each wake-up by what its wait finds, then the registers of a result once it is readable. -/
theorem wakeUps : Obligations.WakeUps := by
  unfold Obligations.WakeUps
  refine ⟨fun s key e c hc => ?_, fun c e ready now n v l m f hfix => ⟨fun hlt ws => ?_, fun hle => ⟨fun k hk => ?_, fun hn hl => ?_, fun k hk => ?_⟩⟩⟩
  · intro sp x
    refine ⟨fun ht => exec_wakeups_of_trapped hc ht, fun ht he => ⟨fun b q o s1 hb hw hword => ?_, fun gid off g q hg hp hbad => ?_,
      fun n h well k r t1 hw hword hact => ?_, fun n h well k pr d t1 hw hword hact => ?_, fun h d b t1 hw hword hact => ?_,
      fun since o cc hw hword => ⟨fun hlt => ?_, fun hle => ?_⟩, fun n since hw => ⟨fun hlt => ?_, fun hle => ?_⟩⟩, fun idx p hp => ?_⟩
    · have hrun := execBarrierWakeup_of_running (e := e) hc ht
      obtain ⟨hok, hwaits, hsync⟩ := State.wakeBar_of_wait (s := s) (key := key) (s1 := s1) hb hw hword
      exact ⟨fun old ts hr => hrun.trans (congrArg _ (hok old ts hr)), fun hr => hrun.trans (congrArg _ (hwaits hr)),
        fun hr => hrun.trans (congrArg _ (hsync hr))⟩
    · intro v
      rw [State.barSee_scratch hg hp hbad]
      refine ⟨fun herr hshape hne => ?_, fun herr hgood hq => ?_, fun herr => ?_⟩
      · have hshaped : v.shaped true = true := by simpa [BarObj.shaped] using hshape
        have hno : ¬ (v.err || !v.shaped true) = true := by simp [herr, hshaped]
        exact (if_neg hno).trans (if_pos hne)
      · have hshaped : v.shaped true = true := (Bool.and_eq_true _ _ ▸ hgood : _ ∧ _).1
        have hno : ¬ (v.err || !v.shaped true) = true := by simp [herr, hshaped]
        exact (if_neg hno).trans ((if_neg (not_not.2 hq)).trans (if_pos hgood))
      · have hyes : (v.err || !v.shaped true) = true := by simp [herr]
        exact if_pos hyes
    · refine (execWellWakeup_of_running (e := e) hc ht).trans (congrArg _ ?_)
      rw [State.wakeWell, show (c.split e).wait = _ from hw, show (c.split e).word = _ from hword]
      exact congrArg (s.retryWord key e) hact
    · refine (execWellWakeup_of_running (e := e) hc ht).trans (congrArg _ ?_)
      rw [State.wakeWell, show (c.split e).wait = _ from hw, show (c.split e).word = _ from hword]
      exact congrArg (s.retryWord key e) hact
    · have hrun : execBatchWakeup (.split key e) s = .next (s.retryWord key e (batchAct x c s d.toNat (BitVec.ofNat 32 (c.sval b)))) := by
        have hw' : (c.split e).wait = _ := hw
        have hword' : (c.split e).word = _ := hword
        simp only [execBatchWakeup, hc, ht, hw', hword', Option.isSome_none, bne_self_eq_false, Bool.or_self, Bool.false_eq_true, if_false]
        rfl
      rw [hact] at hrun
      exact hrun
    · have hw' : (c.split e).wait = _ := hw
      refine ⟨_, rfl, (State.crew_updCrew _ _ _ _).trans ((if_pos rfl).trans ?_)⟩
      simp only [hc, Option.map_some, hw', if_neg (show ¬ (decide (64 + since ≤ s.now) && c.trap.isNone) = true by simp [hlt])]
    · have hw' : (c.split e).wait = _ := hw
      refine ⟨_, { c with splits := c.splits.set e { sp with wait := .none, word := none, tried := none, got := [pollMark] } }, rfl,
        (State.crew_updCrew _ _ _ _).trans ((if_pos rfl).trans ?_), ?_⟩
      · simp only [hc, Option.map_some, hw', if_pos (show (decide (64 + since ≤ s.now) && c.trap.isNone) = true by simp [hle, ht])]
        rfl
      · have hsplit : ({ c with splits := c.splits.set e { sp with wait := .none, word := none, tried := none, got := [pollMark] } } : Crew).split e =
            { sp with wait := .none, word := none, tried := none, got := [pollMark] } := (Crew.split_setSplit c e e _).trans (if_pos ⟨rfl, he⟩)
        rw [hsplit]
        exact ⟨rfl, rfl, rfl, rfl⟩
    · have hw' : (c.split e).wait = _ := hw
      refine ⟨_, rfl, (State.crew_updCrew _ _ _ _).trans ((if_pos rfl).trans ?_)⟩
      simp only [hc, Option.map_some, hw', if_neg (show ¬ (decide (n + since ≤ s.now) && c.trap.isNone) = true by simp [hlt])]
    · have hw' : (c.split e).wait = _ := hw
      refine ⟨_, c.setSplit e { sp with wait := .none }, rfl, (State.crew_updCrew _ _ _ _).trans ((if_pos rfl).trans ?_), ?_, rfl⟩
      · simp only [hc, Option.map_some, hw', if_pos (show (decide (n + since ≤ s.now) && c.trap.isNone) = true by simp [hle, ht])]
        rfl
      · exact (Crew.split_setSplit c e e _).trans (if_pos ⟨rfl, he⟩)
    · intro at' d
      refine ⟨?_, fun n v hfix hws hn => ?_⟩
      · have h : execResultWritten key idx s = .next (s.setCrew key d) := by
          simp only [execResultWritten, hc, hp]
          rfl
        exact h
      · have hd : d.fix = [{ ready := at', split := p.split, seq := p.seq, w := sWrite n v }] := by simp [d, hfix, PendWrite.fixes, hws]
        rw [Crew.settle_of_single hd (Nat.le_refl _)]
        have hput := Crew.rs_setS (c := { d with fix := [] }) (n := n) (k := n) (v := v) (by omega)
        rw [if_neg (by omega), if_pos rfl] at hput
        exact hput
  · have hlater : ∀ x ∈ (c.addFix e ready ws).fix, now < x.ready := by
      intro x hx
      simp only [Crew.addFix, hfix, List.nil_append, List.mem_map] at hx
      obtain ⟨w, -, rfl⟩ := hx
      exact hlt
    rw [Crew.settle_of_later hlater]
    exact ⟨rfl, rfl, rfl⟩
  · have hd : (c.addFix e ready [sWrite n v]).fix = [{ ready := ready, split := e, seq := c.seq, w := sWrite n v }] := by simp [Crew.addFix, hfix]
    rw [Crew.settle_of_single hd hle]
    exact Crew.rs_setS (c := { c.addFix e ready [sWrite n v] with fix := [] }) hk
  · let w : RegWrite := { reg := .v (c.wb + n), mask := m, vals := (lanesOf f).map (fun x => x / 2 ^ (32 * 0) % 2 ^ 32) }
    have hw : c.vecWrites n 1 m f = [w] := rfl
    have hd : (c.addFix e ready [w]).fix = [{ ready := ready, split := e, seq := c.seq, w := w }] := by simp [Crew.addFix, hfix]
    rw [hw, Crew.settle_of_single hd hle]
    let c1 : Crew := { c.addFix e ready [w] with fix := [] }
    have hget := Crew.logical_foldl_setV (c.wb + n) (fun l => w.vals.getD l 0) m.lanes c1 hl (fun i hi => Mask.lt_of_lane (Mask.mem_lanes.1 hi)) (c.wb + n)
    have hval : w.vals.getD l 0 % 2 ^ 32 = f l % 2 ^ 32 := by
      simp [w, lanesOf, List.getD_eq_getElem?_getD, hl]
    simp only [true_and, hval, Mask.mem_lanes] at hget
    refine (congrArg (fun b => Crew.logical _ (b + n) l) (Crew.wb_foldl_setV _ _ _ c1)).trans hget
  · have hd : (c.addFix e ready [pWrite n m (fun l => f l != 0)]).fix =
        [{ ready := ready, split := e, seq := c.seq, w := pWrite n m (fun l => f l != 0) }] := by simp [Crew.addFix, hfix]
    rw [Crew.settle_of_single hd hle]
    refine (Crew.rp_setP (c := { c.addFix e ready [pWrite n m (fun l => f l != 0)] with fix := [] }) (n := n) (m := m) (l := l)
      (f := fun l => (pWrite n m (fun l => f l != 0)).vals.getD l 0 != 0) hk).trans ?_
    by_cases hm : k = n ∧ m.getLsbD l = true
    · rw [if_pos hm, if_pos hm]
      simp only [pWrite, lanesOf_getD _ (Mask.lt_of_lane hm.2)]
      cases f l != 0 <;> rfl
    · rw [if_neg hm, if_neg hm]
      rfl

end Sys2Proof.Machine
end

section
/-! SUPPORT. The timestamps and clocks after a home's write (R341, R354, R356), and the service of requests (R357, R359). -/

namespace Sys2Proof.Machine

/-! ## The timestamps of a slice -/

theorem Tab.length_set_le {α : Type} (t : Tab α) (a : Nat) (v : α) : (Tab.set t a v).length ≤ t.length + 1 := by
  induction t with
  | nil => simp [Tab.set]
  | cons e es ih =>
    unfold Tab.set
    split
    · simp
    · split
      · simp
      · simpa using ih

section
variable {line : Nat} {w : Ts × Ts}

/-- The timestamps of a line's sectors set to one pair (R354). -/
def stamped (line : Nat) (w : Ts × Ts) (ks : List Nat) (t : Tab (Ts × Ts)) : Tab (Ts × Ts) := ks.foldl (fun t k => Tab.set t (line * 4 + k) w) t

theorem get_stamped (ks : List Nat) (t : Tab (Ts × Ts)) (sec : Nat) :
    Tab.get (stamped line w ks t) sec = if ∃ k ∈ ks, sec = line * 4 + k then some w else Tab.get t sec := by
  induction ks generalizing t with
  | nil => simp [stamped]
  | cons k ks ih =>
    refine (ih _).trans ?_
    rw [Tab.get_set]
    by_cases hk : sec = line * 4 + k
    · rw [if_pos hk, ite_self, if_pos ⟨k, List.mem_cons_self .., hk⟩]
    · simp only [List.exists_mem_cons_iff, hk, false_or, if_false]

theorem length_stamped_le (ks : List Nat) (t : Tab (Ts × Ts)) : (stamped line w ks t).length ≤ t.length + ks.length := by
  induction ks generalizing t with
  | nil => exact Nat.le_refl _
  | cons k ks ih =>
    have h1 := ih (Tab.set t (line * 4 + k) w)
    have h2 := Tab.length_set_le t (line * 4 + k) w
    simp only [List.length_cons]
    exact Nat.le_trans h1 (by omega)

/-- A slice that makes room keeps the sectors of the line it serves (R341). -/
theorem Slice.get_makeRoom (sl : Slice) (seed : Nat) {sec : Nat} (h : sec / 4 = line) : Tab.get (sl.makeRoom seed line).sect sec = Tab.get sl.sect sec := by
  unfold Slice.makeRoom
  refine List.foldlRecOn (motive := fun (d : Slice) => Tab.get d.sect sec = Tab.get sl.sect sec) _ _ rfl (fun d hd i _ => ?_)
  dsimp only
  split
  · rename_i k hk
    have hmem := (List.mem_filter.1 (List.mem_of_getElem? hk)).2
    have hne : sec ≠ k := by
      rintro rfl
      simp [h] at hmem
    exact (Tab.get_erase_ne _ hne).trans hd
  · exact hd

/-- A slice with room makes none. -/
theorem Slice.makeRoom_of_room (sl : Slice) (seed : Nat) (h : sl.sect.length ≤ 65536) : sl.makeRoom seed line = sl := by
  rw [Slice.makeRoom, Nat.sub_eq_zero_of_le h]
  rfl

theorem Slice.ts_of_get {sl : Slice} {sec : Nat} {v : Ts × Ts} (h : Tab.get sl.sect sec = some v) : sl.ts sec = v := by
  rw [Slice.ts, Tab.getD, h]
  rfl

end

/-! ## A home's write -/

section
variable {s : State} {line : Nat} {bs : LineBytes} {p : Ts}

theorem LineBytes.mem_sectors {k : Nat} : k ∈ LineBytes.sectors bs ↔ k < 4 ∧ bs.any (fun e => e.1 / 32 == k) = true := by
  simp only [LineBytes.sectors, List.mem_filter, List.mem_range]

theorem LineBytes.length_sectors_le (bs : LineBytes) : (LineBytes.sectors bs).length ≤ 4 := (List.length_filter_le _ _).trans (by simp)

/-- R354: the sectors that a write touches take its time. -/
theorem State.ts_writeSlice_touched {k : Nat} (hk : k ∈ LineBytes.sectors bs) :
    (s.writeSlice line bs p).ts (line * 4 + k) = (s.writeTs line bs p, s.writeTs line bs p) := by
  have hlt := (LineBytes.mem_sectors.1 hk).1
  refine Slice.ts_of_get ((Slice.get_makeRoom _ _ (by omega)).trans ((get_stamped _ _ _).trans (if_pos ⟨k, hk, rfl⟩)))

/-- R341: in a slice with room, no other sector's timestamps change. -/
theorem State.ts_writeSlice_other {sec : Nat} (hroom : (s.slice (s.servSlice line)).sect.length + 4 ≤ 65536)
    (h : ∀ k ∈ LineBytes.sectors bs, sec ≠ line * 4 + k) : (s.writeSlice line bs p).ts sec = (s.slice (s.servSlice line)).ts sec := by
  have hlen := length_stamped_le (line := line) (w := (s.writeTs line bs p, s.writeTs line bs p)) (LineBytes.sectors bs) (s.slice (s.servSlice line)).sect
  have hle := LineBytes.length_sectors_le bs
  have hget := get_stamped (line := line) (w := (s.writeTs line bs p, s.writeTs line bs p)) (LineBytes.sectors bs) (s.slice (s.servSlice line)).sect sec
  rw [if_neg (by push Not; exact h)] at hget
  unfold State.writeSlice
  dsimp only
  rw [Slice.makeRoom_of_room _ _ (Nat.le_trans hlen (by omega))]
  exact congrArg (Option.getD · _) hget

theorem State.poison_lineWritten (ks : List Nat) (h : ∀ k ∈ ks, s.secPoison (line * 4 + k) = false) : (s.lineWritten line bs ks).poison = s.poison := by
  unfold State.lineWritten
  refine List.foldlRecOn (motive := fun (t : State) => t.poison = s.poison) ks _ rfl (fun t ht k hk => ?_)
  refine (congrArg (List.filter _) ht).trans (List.filter_eq_self.2 (fun a ha => ?_))
  rw [bne_iff_ne]
  rintro rfl
  exact absurd (List.contains_iff_mem.2 ha) (by simpa [State.secPoison] using h k hk)

theorem State.frame_lineWritten (s : State) (line : Nat) (bs : LineBytes) (ks : List Nat) :
    (s.lineWritten line bs ks).crews = s.crews ∧ (s.lineWritten line bs ks).gangs = s.gangs ∧ (s.lineWritten line bs ks).cores = s.cores ∧
      (s.lineWritten line bs ks).net = s.net := by
  rw [State.lineWritten_eq]
  exact ⟨rfl, rfl, rfl, rfl⟩

theorem lineDie_lt (line : Nat) : lineDie line < 4 := Nat.xor_lt_two_pow (n := 2) (fld_lt _ _ _) (fld_lt _ _ _)

theorem State.servDie_lt (s : State) (line : Nat) : s.servDie line < 4 := by
  unfold State.servDie
  dsimp only
  split
  · exact Nat.xor_lt_two_pow (n := 2) (lineDie_lt line) (by decide)
  · exact lineDie_lt line

theorem State.home_setHome (s : State) {h : Nat} (v : Home) (hl : h < s.homes.length) : (s.setHome h v).home h = v := by
  simp [State.home, State.setHome, hl]

end

/-! ## The service of a request -/

section
variable {s u : State} {id n : Nat} {p : Pkt}

/-- A RENEW at its turn (R354): its reply has the least `rts`, or the bytes. -/
theorem execHomeRenew_of_turn {w : Option Ts} (hp : Tab.get s.net id = some p) (hd : p.dst = .slice n) (ht : s.turn p = true) (hl : u.lost p.line = false)
    (hk : p.kind = .renew w) (hops : p.ops = []) (hm : s.meet id p false [] = (u, true)) :
    let r := u.homeRenew p.line p.first p.cnt p.pts w
    let secs := spanSectors p.first p.cnt
    let offs := (List.range (8 * p.cnt)).map (· + 8 * p.first)
    exec (.homeRenew id) s = .next (r.1.reply id (
      if r.2.1 then { p with kind := .ext r.2.2.2, ans := [] }
      else { p with kind := .data r.2.2.1 r.2.2.2, ans := [],
                    bytes := LineBytes.mk (offs.map (fun o => (o, Cells.get r.1.mem (p.line * 128 + o)))),
                    poison := secs.filter (fun k => r.1.secPoison (p.line * 4 + k)) ++
                      (secs.filter (fun k => !r.1.chkOk (p.line * 4 + k))).map (· + 4) })) := by
  intro r secs offs
  have hlost : (u.homeRenew p.line p.first p.cnt p.pts w).1.lost p.line = false := by
    rw [← hl]
    simp only [State.homeRenew, State.lost, State.dieFailed_raiseClock]
    rfl
  have h : execHomeRenew id s = .next (r.1.reply id (
      if r.2.1 then { p with kind := .ext r.2.2.2, ans := [] }
      else { p with kind := .data r.2.2.1 r.2.2.2, ans := [],
                    bytes := LineBytes.mk (offs.map (fun o => (o, Cells.get r.1.mem (p.line * 128 + o)))),
                    poison := secs.filter (fun k => r.1.secPoison (p.line * 4 + k)) ++
                      (secs.filter (fun k => !r.1.chkOk (p.line * 4 + k))).map (· + 4) })) := by
    simp only [execHomeRenew, hp, hk, ht, hm, hd, hops, Bool.not_true, Bool.false_eq_true, if_false, hlost]
    cases hext : r.2.1 with
    | true => rfl
    | false => rfl
  exact h

/-- A WRITE or WB at its turn (R354, R357). -/
theorem State.serveWrite_of_turn (hd : p.dst = .slice n) (ht : s.turn p = true) (hm : s.meet id p true (p.bytes.map Prod.fst) = (u, true)) :
    let r := u.homeWrite p.line p.bytes p.pts (u.finder (keyGid p.crew) 0)
    s.serveWrite id p false = r.1.reply id { p with kind := .ack r.2 } ∧
      s.serveWrite id p true = (r.1.setNht p.dst ((r.1.nhtOf p.dst).filter (fun h =>
        !(h.line == p.line && h.unit == p.src && h.crew == p.crew)))).reply id { p with kind := .ack r.2 } := by
  intro r
  simp only [State.serveWrite, ht, hm, hd, Bool.not_true, Bool.false_eq_true, if_false, if_true]
  exact ⟨rfl, rfl⟩

/-- An ATOM at its turn, on a line that is not lost (R354). -/
theorem execHomeAtom_of_turn {op : Nat} {cas ret : Bool} {ty : Ty} (hp : Tab.get s.net id = some p) (hd : p.dst = .slice n) (ht : s.turn p = true)
    (hl : u.lost p.line = false) (hk : p.kind = .atom op cas ty ret) (hm : s.meet id p true (atomOffsets p.ops) = (u, true)) :
    let r := u.homeAtom p.line op cas ty p.ops p.pts ret p.acquires (u.finder (keyGid p.crew) (if ret then 8 else 0))
    exec (.homeAtom id) s = .next (r.1.reply id { p with
      kind := .ack r.2.w, ans := r.2.olds, poison := lanesAt p.ops r.2.bad, bytes := r.2.bytes }) := by
  intro r
  have h : execHomeAtom id s = .next (r.1.reply id { p with
      kind := .ack r.2.w, ans := r.2.olds, poison := lanesAt p.ops r.2.bad, bytes := r.2.bytes }) := by
    simp only [execHomeAtom, hp, hk, ht, hm, hd, hl, Bool.not_true, Bool.false_eq_true, if_false]
    rfl
  exact h

/-- A HOLD at its turn (R357): its own entry widened, a new one, or the oldest recalled first. -/
theorem execHomeHold_of_turn {sc : Scope} (hp : Tab.get s.net id = some p) (ht : s.turn p = true) (hk : p.kind = .hold sc) :
    let l := s.nhtOf p.dst
    let mine (h : NHolder) : Bool := h.line == p.line && h.unit == p.src && h.crew == p.crew
    (l.any mine = false → l.length < 256 → exec (.homeHold id) s = .next ((s.dropPkt id).setNht p.dst
      (l ++ [{ line := p.line, unit := p.src, crew := p.crew, scope := sc, part := s.gangPart (keyGid p.crew), asked := false }]))) ∧
    (l.any mine = true → exec (.homeHold id) s = .next ((s.dropPkt id).setNht p.dst
      (l.map (fun x => if mine x then { x with scope := if Scope.ge sc x.scope then sc else x.scope } else x)))) ∧
    (∀ h t, l.any mine = false → l = h :: t → 256 ≤ l.length → h.asked = false →
      exec (.homeHold id) s = .next (s.sendRecall p.dst h (!(s.part h.part).mm))) := by
  intro l mine
  have hrun : exec (.homeHold id) s = execHomeHold id s := rfl
  rw [hrun]
  simp only [execHomeHold, hp, hk, ht, Bool.not_true, Bool.false_eq_true, if_false]
  refine ⟨fun hno hlt => congrArg _ ((if_neg (ne_true_of_eq_false hno)).trans (if_neg (Nat.not_le.2 hlt))), fun hyes => congrArg _ (if_pos hyes),
    fun h t hno hl hlen hask => congrArg _ ((if_neg (ne_true_of_eq_false hno)).trans ((if_pos hlen).trans ?_))⟩
  have hl' : s.nhtOf p.dst = h :: t := hl
  simp only [hl', hask, Bool.false_eq_true, if_false]

/-- A reply about an unprotected range waits for no buddy (R367): it takes its request's place at the router. -/
theorem State.reply_of_unprotected {t : State} {q : Pkt} (h : t.protOf (q.line * 128) = none) :
    t.reply id q = (t.dropPkt id).send { q with place := q.dst.place, req := id } := by
  unfold State.reply
  have hwaits (m : Nat) : ((t.protOf (q.line * 128)).isSome && !t.dieFailed (Nat.xor (m / 32) 1) && !t.dieFailed (m / 32)) = false := by simp [h]
  split
  · split
    · simp only [hwaits, Bool.false_eq_true, if_false]
    · rfl
  · rfl

end

/-- Settles O37: each request at its turn, and the home's write by `State.homeWrite_eq` with the slice's timestamps and the clock. -/
theorem homeServices : Obligations.HomeServices := by
  unfold Obligations.HomeServices
  refine ⟨fun s u id n p hp hd ht hl => ?_, fun s line bs p hwf hlt hl hprot hlen hsound => ?_⟩
  · intro line
    refine ⟨fun w hk hops hm => execHomeRenew_of_turn hp hd ht hl hk hops hm, fun hm => ?_, fun op cas ty ret hk hm => execHomeAtom_of_turn hp hd ht hl hk hm,
      fun sc hk => execHomeHold_of_turn hp ht hk, fun t q hq => State.reply_of_unprotected hq⟩
    obtain ⟨h1, h2⟩ := State.serveWrite_of_turn hd ht hm
    refine ⟨fun hk => ?_, fun hk => ?_⟩
    · have h : execHomeWrite id s = .next (s.serveWrite id p false) := by simp only [execHomeWrite, hp, hk, if_true]
      exact h.trans (congrArg _ h1)
    · have h : execHomeWb id s = .next (s.serveWrite id p true) := by simp only [execHomeWb, hp, hk, if_true]
      exact h.trans (congrArg _ h2)
  · have hks (k : Nat) (hk : k ∈ LineBytes.sectors bs) : k < 4 := (LineBytes.mem_sectors.1 hk).1
    have hw := State.homeWrite_eq (p := p) hl hprot (fun k hk => .inr (hsound k (hks k hk))) Finder.nobody
    let t := (s.setSlice (s.servSlice line) (s.writeSlice line bs p)).raiseClock (s.servDie line) (s.writeTs line bs p)
    have hpoison : (t.lineWritten line bs (LineBytes.sectors bs)).poison = s.poison :=
      State.poison_lineWritten (s := t) _ (fun k hk => (hsound k (hks k hk)).1)
    have hslice : (t.lineWritten line bs (LineBytes.sectors bs)).slice (s.servSlice line) = s.writeSlice line bs p := by
      rw [State.lineWritten_eq]
      exact (State.slice_setSlice _ _ _ _).trans (if_pos rfl)
    rw [hw]
    intro r n h
    refine ⟨fun a => State.get_mem_lineWritten t hwf hlt a, fun k hk4 hk => ?_, fun hroom sec hsec => ?_, fun k hk => ?_, ?_, ?_⟩
    · rw [hslice]
      exact State.ts_writeSlice_touched (LineBytes.mem_sectors.2 ⟨hk4, hk⟩)
    · rw [hslice]
      refine State.ts_writeSlice_other hroom (fun k hk he => ?_)
      have hlt := hks k hk
      have hno := hsec (by omega)
      rw [show sec % 4 = k by omega, (LineBytes.mem_sectors.1 hk).2] at hno
      exact Bool.noConfusion hno
    · simp only [r, State.writeTs, hk]
      rfl
    · have hhome : (t.lineWritten line bs (LineBytes.sectors bs)).home h = t.home h := by
        rw [State.lineWritten_eq]
        rfl
      rw [hhome]
      exact congrArg Home.clock (State.home_setHome (s.setSlice (s.servSlice line) (s.writeSlice line bs p)) _ (Nat.lt_of_lt_of_eq (State.servDie_lt s line) hlen.symm))
    · obtain ⟨hcrews, hgangs, hcores, hnet⟩ := State.frame_lineWritten t line bs (LineBytes.sectors bs)
      exact ⟨hcrews, hgangs, hcores, hnet, hpoison⟩

end Sys2Proof.Machine
end

section
/-! SUPPORT. Replies at the unit that asked (R353, R355, R357): the span of a core's line, and what the rest of a reply leaves. -/

namespace Sys2Proof.Machine

theorem Tab.get_mapV {α : Type} (t : Tab α) (f : Nat → α → α) (a : Nat) : Tab.get (Tab.mapV t f) a = (Tab.get t a).map (f a) := by
  induction t with
  | nil => rfl
  | cons e es ih =>
    by_cases h : e.1 = a
    · subst h
      simp [Tab.mapV, Tab.get]
    · have ih' : Tab.get (List.map (fun e => (e.1, f e.1 e.2)) es) a = (Tab.get es a).map (f a) := ih
      simp [Tab.mapV, Tab.get, h, ih']

section
variable {s t : State} {k line : Nat}

/-- A state with the same span of a core's line, the same memory and the same packets. -/
def State.SameSpan (k line : Nat) (s t : State) : Prop := t.span (.core k) line = s.span (.core k) line ∧ t.mem = s.mem ∧ t.net = s.net

theorem State.SameSpan.refl (k line : Nat) (s : State) : State.SameSpan k line s s := ⟨rfl, rfl, rfl⟩

theorem State.SameSpan.trans {u : State} (h1 : State.SameSpan k line s t) (h2 : State.SameSpan k line t u) : State.SameSpan k line s u := by
  obtain ⟨a1, b1, c1⟩ := h1
  obtain ⟨a2, b2, c2⟩ := h2
  exact ⟨a2.trans a1, b2.trans b1, c2.trans c1⟩

theorem State.spans_setSpans_core (s : State) (j : Nat) (v : Tab Span) : (s.setSpans (.core j) v).spans (.core k) = if k = j then v else s.spans (.core k) := by
  simp only [State.setSpans, State.spans, State.core_updCore]
  split <;> rfl

theorem State.sameSpan_dropSpan (s : State) (u : Agent) {l : Nat} (h : l ≠ line) : State.SameSpan k line s (s.dropSpan u l) := by
  cases u with
  | core j =>
    refine ⟨?_, rfl, rfl⟩
    have hspans := s.spans_setSpans_core (k := k) j (Tab.erase (s.spans (.core j)) l)
    unfold State.span State.dropSpan
    rw [hspans]
    by_cases hk : k = j
    · rw [if_pos hk, hk, Tab.get_erase_ne _ (Ne.symm h)]
    · rw [if_neg hk]
  | cluster j => exact ⟨rfl, rfl, rfl⟩
  | _ => exact State.SameSpan.refl _ _ _

theorem State.sameSpan_setSpan_cluster (s : State) (j l : Nat) (v : Span) : State.SameSpan k line s (s.setSpan (.cluster j) l v) := ⟨rfl, rfl, rfl⟩

/-- Room is never made at the cost of the line that has come (R353). -/
theorem State.sameSpan_makeRoom (s : State) (u : Agent) : State.SameSpan k line s (s.makeRoom u line) := by
  unfold State.makeRoom
  split
  · exact State.SameSpan.refl _ _ _
  · refine List.foldlRecOn (motive := State.SameSpan k line s) _ _ (State.SameSpan.refl _ _ _) (fun t ht i _ => ?_)
    dsimp only
    split
    · rename_i e he
      have hne : e.1 ≠ line := by
        have hmem := (List.mem_filter.1 (List.mem_of_getElem? he)).2
        simp only [Bool.and_eq_true, bne_iff_ne] at hmem
        exact hmem.1.1.1
      exact ht.trans (State.sameSpan_dropSpan t u hne)
    · exact ht

theorem State.sameSpan_putData_cluster (s : State) (j : Nat) (p : Pkt) (bytes : Cells 8) (w r : Ts) (poison : List Nat) :
    State.SameSpan k p.line s (s.putData (.cluster j) p bytes w r poison) :=
  (State.sameSpan_setSpan_cluster s j _ _).trans (State.sameSpan_makeRoom _ _)

theorem State.sameSpan_extend_cluster (s : State) (j l first cnt : Nat) (r : Ts) : State.SameSpan k line s (s.extend (.cluster j) l first cnt r) := by
  unfold State.extend
  split
  · exact State.SameSpan.refl _ _ _
  · exact State.sameSpan_setSpan_cluster _ _ _ _

theorem State.sameSpan_noteReply (s : State) (u : Agent) (l : Nat) : State.SameSpan k line s (s.noteReply u l) := by
  cases u <;> exact ⟨rfl, rfl, rfl⟩

/-- A reply at its core leaves the span's other fields when its hold is armed (log entry 13). -/
theorem State.span_armHold {v : Span} (h : s.span (.core k) line = some v) :
    (∃ hold, (s.armHold (.core k) line).span (.core k) line = some { v with hold := hold }) ∧ (s.armHold (.core k) line).mem = s.mem ∧
      (s.armHold (.core k) line).net = s.net := by
  unfold State.armHold
  simp only [h]
  split
  · exact ⟨⟨2, State.span_setSpan _ _ _ _⟩, rfl, rfl⟩
  · exact ⟨⟨v.hold, h⟩, rfl, rfl⟩

/-! ## The replies of a core's unit -/

section
variable {p : Pkt}

theorem State.awaits_span (h : s.awaits (.core k) p = true) : ∃ v, s.span (.core k) p.line = some v := by
  unfold State.awaits at h
  split at h
  · rename_i v hv
    exact ⟨v, hv⟩
  · exact absurd h Bool.false_ne_true

/-- DATA at a core that waits for it: the span installed, and what makes room or fills the cluster cache leaves it (R353). -/
theorem State.sameSpan_dataAt {w r : Ts} (hsrc : p.src = .core k) (ha : s.awaits (.core k) p = true) :
    State.SameSpan k p.line (s.install (.core k) p.line p.first p.cnt (LineBytes.plain p.bytes) w r p.poison) (s.dataAt p w r) := by
  have hroom := State.sameSpan_makeRoom (k := k) (line := p.line) (s.install (.core k) p.line p.first p.cnt (LineBytes.plain p.bytes) w r p.poison) (.core k)
  unfold State.dataAt
  simp only [hsrc, ha, if_true]
  split
  · split
    · exact hroom.trans (State.sameSpan_putData_cluster _ _ _ _ _ _ _)
    · exact hroom
  · exact hroom.trans (State.sameSpan_putData_cluster _ _ _ _ _ _ _)

/-- EXT at a core that waits for it and holds the words: the leases set, whatever the cluster unit does (R353). -/
theorem State.extAt_of_holds {v0 : Span} {r : Ts} (hsrc : p.src = .core k) (ha : s.awaits (.core k) p = true) (hv : s.span (.core k) p.line = some v0)
    (hh : v0.holds p = true) : ∃ t, State.SameSpan k p.line s t ∧ s.extAt p r = t.extend (.core k) p.line p.first p.cnt r := by
  unfold State.extAt
  simp only [hsrc, ha, hv, hh, if_true, Bool.not_true, Bool.false_eq_true, if_false, Option.isSome_some]
  refine ⟨_, ?_, rfl⟩
  split
  · split
    · split
      · exact State.sameSpan_extend_cluster _ _ _ _ _ _
      · exact State.sameSpan_setSpan_cluster _ _ _ _
    · exact State.SameSpan.refl _ _ _
  · exact State.SameSpan.refl _ _ _

theorem State.span_extend {v0 : Span} {first cnt : Nat} {r : Ts} (hv : s.span (.core k) line = some v0) :
    (s.extend (.core k) line first cnt r).span (.core k) line = some { v0 with
      pending := none
      rts := (List.range 4).map (fun i => if (spanSectors first cnt).contains i then r else v0.rts.getD i 0) } ∧
    (s.extend (.core k) line first cnt r).mem = s.mem ∧ (s.extend (.core k) line first cnt r).net = s.net := by
  unfold State.extend
  simp only [hv]
  exact ⟨State.span_setSpan _ _ _ _, rfl, rfl⟩

end

/-- A reply that no other request was combined with goes to its unit alone (R361). -/
theorem State.forkRest_of_alone {p : Pkt} (h : s.combs.all (fun c => c.pkt != p.req) = true) :
    s.forkRest p = { s with combs := s.combs.filter (fun c => c.pkt != p.req) } := by
  have hnone : s.combs.filter (fun c => c.pkt == p.req) = [] := by
    rw [List.filter_eq_nil_iff]
    intro c hc
    simpa using List.all_eq_true.1 h c hc
  simp only [State.forkRest, hnone, List.foldl_nil]

end

end Sys2Proof.Machine
end

section
/-! SUPPORT. The events of replies, routers, channels and links (R353, R359 to R364, R367, R381). -/

namespace Sys2Proof.Machine

theorem getD_map_range {α : Type} (f : Nat → α) (d : α) {i n : Nat} (h : i < n) : ((List.range n).map f).getD i d = f i := by
  simp [List.getD_eq_getElem?_getD, h]

section
variable {s : State} {id k : Nat} {p : Pkt}

/-! ## Replies -/

theorem exec_data_of_awaited {w r : Ts} (hp : Tab.get s.net id = some p) (hpl : p.place = .receiver) (hsrc : p.src = .core k)
    (hc : s.combs.all (fun c => c.pkt != p.req) = true) (hk : p.kind = .data w r) (ha : s.awaits (.core k) p = true) :
    let secs := spanSectors p.first p.cnt
    let held := (s.span (.core k) p.line).getD Span.empty
    ∃ u v, exec (.data id) s = .next u ∧ u.span (.core k) p.line = some v ∧ v.first = p.first ∧
      v.cnt = p.cnt ∧ v.bytes = LineBytes.plain p.bytes ∧ v.dirty = held.dirty ∧ v.poison = p.poison ∧ v.pending = none ∧
      (∀ i, i < 4 → secs.contains i = true → v.wts.getD i 0 = w ∧ v.rts.getD i 0 = r) ∧ u.mem = s.mem ∧ u.net = Tab.erase s.net id := by
  intro secs held
  let s0 : State := { s.dropPkt id with combs := s.combs.filter (fun c => c.pkt != p.req) }
  have ha0 : s0.awaits (.core k) p = true := ha
  have h : execData id s = .next (((s0.dataAt p w r).armHold (.core k) p.line).noteReply (.core k) p.line) := by
    have hfork : (s.dropPkt id).forkRest p = s0 := State.forkRest_of_alone hc
    simp only [execData, hp, hk, hpl, hfork, hsrc, ha0, bne_self_eq_false, Bool.false_eq_true, if_false, if_true]
  obtain ⟨hspan, hmem, hnet⟩ := State.sameSpan_dataAt (w := w) (r := r) hsrc ha0
  have hin : (s0.install (.core k) p.line p.first p.cnt (LineBytes.plain p.bytes) w r p.poison).span (.core k) p.line = _ := State.span_setSpan _ _ _ _
  obtain ⟨⟨hold, harm⟩, hamem, hanet⟩ := State.span_armHold (hspan.trans hin)
  obtain ⟨hn, hnmem, hnnet⟩ := State.sameSpan_noteReply (k := k) (line := p.line) ((s0.dataAt p w r).armHold (.core k) p.line) (.core k) p.line
  refine ⟨_, _, h, hn.trans harm, rfl, rfl, rfl, rfl, rfl, rfl, fun i hi hs => ?_, hnmem.trans (hamem.trans hmem), hnnet.trans (hanet.trans hnet)⟩
  dsimp only
  rw [getD_map_range _ _ hi, getD_map_range _ _ hi]
  exact ⟨if_pos hs, if_pos hs⟩

theorem exec_ext_of_awaited {r : Ts} {v0 : Span} (hp : Tab.get s.net id = some p) (hpl : p.place = .receiver) (hsrc : p.src = .core k)
    (hc : s.combs.all (fun c => c.pkt != p.req) = true) (hk : p.kind = .ext r) (ha : s.awaits (.core k) p = true)
    (hv : s.span (.core k) p.line = some v0) (hh : v0.holds p = true) :
    ∃ u v, exec (.ext id) s = .next u ∧ u.span (.core k) p.line = some v ∧ v.bytes = v0.bytes ∧ v.dirty = v0.dirty ∧ v.wts = v0.wts ∧
      (∀ i, i < 4 → v.rts.getD i 0 = if (spanSectors p.first p.cnt).contains i then r else v0.rts.getD i 0) ∧
      u.mem = s.mem ∧ u.net = Tab.erase s.net id := by
  let s0 : State := { s.dropPkt id with combs := s.combs.filter (fun c => c.pkt != p.req) }
  have ha0 : s0.awaits (.core k) p = true := ha
  have hv0 : s0.span (.core k) p.line = some v0 := hv
  obtain ⟨t, ⟨htspan, htmem, htnet⟩, hext⟩ := State.extAt_of_holds (r := r) hsrc ha0 hv0 hh
  have h : execExt id s = .next (((t.extend (.core k) p.line p.first p.cnt r).armHold (.core k) p.line).noteReply (.core k) p.line) := by
    have hfork : (s.dropPkt id).forkRest p = s0 := State.forkRest_of_alone hc
    simp only [execExt, hp, hk, hpl, hfork, hsrc, ha0, hext, bne_self_eq_false, Bool.false_eq_true, if_false, if_true]
  obtain ⟨hspan, hmem, hnet⟩ := State.span_extend (first := p.first) (cnt := p.cnt) (r := r) (htspan.trans hv0)
  obtain ⟨⟨hold, harm⟩, hamem, hanet⟩ := State.span_armHold hspan
  obtain ⟨hn, hnmem, hnnet⟩ := State.sameSpan_noteReply (k := k) (line := p.line) ((t.extend (.core k) p.line p.first p.cnt r).armHold (.core k) p.line) (.core k) p.line
  refine ⟨_, _, h, hn.trans harm, rfl, rfl, rfl, fun i hi => ?_, hnmem.trans (hamem.trans (hmem.trans htmem)), hnnet.trans (hanet.trans (hnet.trans htnet))⟩
  exact getD_map_range _ _ hi

/-! ### ACK and RECALL -/

theorem State.crews_mergeAck (s : State) (j line : Nat) (bs : LineBytes) (w : Ts) :
    (s.mergeAck (.core j) line bs w).crews = s.crews ∧ (s.mergeAck (.core j) line bs w).mem = s.mem := by
  unfold State.mergeAck
  split <;> exact ⟨rfl, rfl⟩

theorem State.crews_cleaned (s : State) (j line pkt : Nat) :
    (s.cleaned (.core j) line pkt).crews = s.crews ∧ (s.cleaned (.core j) line pkt).mem = s.mem := by
  unfold State.cleaned
  split
  · exact ⟨rfl, rfl⟩
  · dsimp only
    split <;> exact ⟨rfl, rfl⟩

/-- A crew that an ACK reaches (R194, R355). -/
def Pkt.reached (p : Pkt) (w : Ts) (c : Crew) : Crew :=
  let far := match p.dst with | .peer _ => true | _ => false
  { c.acked p.req with pts := if far then c.pts else Ts.smax c.pts w }

/-- The unit and the crews of an ACK, before a word that waits for its answer is tried. -/
def State.ackReached (s : State) (p : Pkt) (w : Ts) : State :=
  let s1 := (s.mergeAck p.src p.line p.bytes w).cleaned p.src p.line p.req
  { s1 with crews := Tab.mapV s1.crews (fun key c => if key = p.crew || c.acks.any (fun a => a.pkt == p.req) then p.reached w c else c) }

/-- The word that waits for the answer of an ACK is tried. -/
def State.ackAnswered (s2 : State) (p : Pkt) : State :=
  match s2.crew p.crew with
  | none => s2
  | some c => match c.reqs.find? (fun r => r.pkt == p.req) with
    | none => s2
    | some r =>
      if p.poison.isEmpty then
        s2.replyTo p.crew p.req (r.lanes.map (fun l => ((p.ans.find? (fun a => a.1 == l)).map Prod.snd).getD 0)) false
      else
        (s2.setCrew p.crew { c with reqs := c.reqs.map (fun q => if q.pkt = p.req then { q with lanes := p.poison } else q) }).replyTo
          p.crew p.req [] true

theorem State.ackAt_eq (s : State) (p : Pkt) (w : Ts) : s.ackAt p w = (s.ackReached p w).ackAnswered p := rfl

theorem State.ackAnswered_of_no_reqs {c : Crew} (hc : s.crew p.crew = some c) (hr : c.reqs = []) : s.ackAnswered p = s := by
  simp only [State.ackAnswered, hc, hr, List.find?_nil]

/-- R194, R355: the crew that an ACK names has its request acknowledged. -/
theorem State.ackReached_of_core {w : Ts} {c : Crew} (hsrc : p.src = .core k) (hc : s.crew p.crew = some c) :
    (s.ackReached p w).crew p.crew = some (p.reached w c) ∧ (s.ackReached p w).mem = s.mem := by
  obtain ⟨hmcrews, hmmem⟩ := State.crews_mergeAck s k p.line p.bytes w
  obtain ⟨hccrews, hcmem⟩ := State.crews_cleaned (s.mergeAck (.core k) p.line p.bytes w) k p.line p.req
  have hcrew : Tab.get ((s.mergeAck (.core k) p.line p.bytes w).cleaned (.core k) p.line p.req).crews p.crew = some c :=
    (congrArg (Tab.get · p.crew) (hccrews.trans hmcrews)).trans hc
  unfold State.ackReached
  rw [hsrc]
  refine ⟨?_, hcmem.trans hmmem⟩
  rw [State.crew, Tab.get_mapV, hcrew]
  exact congrArg some (if_pos (by simp))

theorem exec_ack_of_crew {w : Ts} {n : Nat} {c : Crew} (hp : Tab.get s.net id = some p) (hpl : p.place = .receiver) (hsrc : p.src = .core k)
    (hk : p.kind = .ack w) (hd : p.dst = .slice n) (hc : s.crew p.crew = some c) (hreqs : c.reqs = []) :
    ∃ u d, exec (.ack id) s = .next u ∧ u.crew p.crew = some d ∧ d.pts = Ts.smax c.pts w ∧ d.acks = c.acks.filter (fun a => a.pkt != p.req) ∧
      (∀ f ∈ d.fences, p.req ∉ f.pkts ∧ f.pkts ≠ []) ∧ d.vr = c.vr ∧ d.sr = c.sr ∧ d.splits = c.splits ∧ u.mem = s.mem := by
  obtain ⟨hcrew, hmem⟩ := State.ackReached_of_core (s := s.dropPkt id) (w := w) hsrc hc
  have h : execAck id s = .next ((s.dropPkt id).ackReached p w) := by
    simp only [execAck, hp, hk, hpl, bne_self_eq_false, Bool.false_eq_true, if_false]
    rw [State.ackAt_eq, State.ackAnswered_of_no_reqs hcrew hreqs]
  have hpts : (p.reached w c).pts = Ts.smax c.pts w := by simp only [Pkt.reached, hd, Bool.false_eq_true, if_false]
  refine ⟨_, p.reached w c, h, hcrew, hpts, rfl, fun f hf => ?_, rfl, rfl, rfl, hmem⟩
  obtain ⟨hf1, hf2⟩ := List.mem_filter.1 hf
  obtain ⟨g, -, rfl⟩ := List.mem_map.1 hf1
  exact ⟨by simp, by simpa [List.isEmpty_iff] using hf2⟩

theorem exec_recall_of_none {c : Crew} (hp : Tab.get s.net id = some p) (hpl : p.place = .receiver) (hsrc : p.src = .core k)
    (hk : p.kind = .recall false) (hv : s.span (.core k) p.line = none) (hc : s.crew p.crew = some c) :
    exec (.recall id) s = .next ((s.dropPkt id).send (Pkt.new .wb p.src p.dst p.line c.pts p.crew 0)) := by
  have hv0 : (s.dropPkt id).span (.core k) p.line = none := hv
  have hpts : (s.dropPkt id).ptsOf p.crew = c.pts := by
    have hc0 : (s.dropPkt id).crew p.crew = some c := hc
    simp only [State.ptsOf, hc0]
  have h : execRecall id s = .next ((s.dropPkt id).send (Pkt.new .wb p.src p.dst p.line c.pts p.crew 0)) := by
    simp only [execRecall, hp, hk, hpl, hsrc, hv0, State.publishLine, hpts, bne_self_eq_false, Bool.false_eq_true, if_false]
  exact h

end

/-! ## Routers and channels -/

section
variable {s : State} {id : Nat} {p : Pkt}

/-- A packet that is no RENEW passes its router alone, with the combining tables empty (R360). -/
theorem exec_routerPacket_of_first {pl : Place} (hp : Tab.get s.net id = some p) (hab : s.absorbed id = false) (hf : s.firstOut id p = true)
    (hcs : s.clusterServes p = none) (hk : ∀ w, p.kind ≠ .renew w) (hcomb : s.combs = []) (hn : s.nextPlace p = some pl) :
    exec (.routerPacket id) s = .next (if pl = .server ∧ s.sliceFull p = true then s else s.putPkt id { p with place := pl }) := by
  have hat : p.atCluster = false := by
    unfold Pkt.atCluster
    split
    · rename_i hkind
      exact absurd hkind (hk _)
    · rfl
  have haside : s.aside id p = decide (pl = .server ∧ s.sliceFull p = true) := by
    simp only [State.aside, State.clusterHolds, hat, Bool.false_and, Bool.false_or, hn, Bool.decide_and, Bool.decide_eq_true, Option.some_beq_some]
    rfl
  have hasks : s.clusterAsks id p = (s, p) := by simp only [State.clusterAsks, hat, Bool.not_false, if_true]
  have hfork (d x y : Nat) : s.fork p d x y = s := by
    simp only [State.fork, hcomb, List.filter_nil, List.foldl_nil]
    rw [← hcomb]
  have h : execRouterPacket id s = .next (if pl = .server ∧ s.sliceFull p = true then s else s.putPkt id { p with place := pl }) := by
    simp only [execRouterPacket, hp, hab, hf, hcs, haside, hasks, Bool.not_true, Bool.or_self, Bool.false_eq_true, if_false, decide_eq_true_eq, hn]
    refine congrArg _ ?_
    split
    · rfl
    · split
      · rename_i hkind
        exact absurd hkind (hk _)
      · simp only [hfork, Bool.false_eq_true, if_false]
      · simp only [hfork, Bool.false_eq_true, if_false]
      · simp only [Bool.false_eq_true, if_false]
  exact h

theorem State.sliceFull_write_iff {n : Nat} (hd : p.dst = .slice n) (hk : p.kind = .write) :
    s.sliceFull p = true ↔ 64 ≤ (s.net.filter (fun q => q.2.place == .server && q.2.dst == p.dst && q.2.line == p.line &&
      (q.2.kind == .write || q.2.kind == .wb))).length := by
  simp only [State.sliceFull, hd, hk, decide_eq_true_eq, Bool.and_assoc]

theorem hop_eq (x y gx gy : Nat) :
    hop true x y gx gy = (if x < gx then some (x + 1, y) else if gx < x then some (x - 1, y) else if y < gy then some (x, y + 1)
      else if gy < y then some (x, y - 1) else none) ∧
    hop false x y gx gy = (if y < gy then some (x, y + 1) else if gy < y then some (x, y - 1) else if x < gx then some (x + 1, y)
      else if gx < x then some (x - 1, y) else none) := by
  simp only [hop, step1, if_true, Bool.false_eq_true, if_false]
  rcases Nat.lt_trichotomy x gx with hx | rfl | hx
  · rcases Nat.lt_trichotomy y gy with hy | rfl | hy
    · simp [hx, hy, hx.ne, hy.ne]
    · simp [hx, hx.ne]
    · simp [hx, hx.ne, hy, hy.ne', hy.not_gt]
  · rcases Nat.lt_trichotomy y gy with hy | rfl | hy
    · simp [hy, hy.ne]
    · simp
    · simp [hy, hy.ne', hy.not_gt]
  · rcases Nat.lt_trichotomy y gy with hy | rfl | hy
    · simp [hx, hy, hx.ne', hx.not_gt, hy.ne]
    · simp [hx, hx.ne', hx.not_gt]
    · simp [hx, hx.ne', hx.not_gt, hy, hy.ne', hy.not_gt]

theorem State.liveChan_congr {t : State} (h : ∀ k, (s.chan k).up = (t.chan k).up) (cd hd c : Nat) : s.liveChan cd hd c = t.liveChan cd hd c := by
  simp only [State.liveChan, h]

/-- R364: a channel that goes down, and where its packets wait. -/
theorem State.chanDown_facts {cd hd c : Nat} (hp : Tab.get s.net id = some p) (hpl : p.place = .toHome cd hd c) :
    ((s.chanDown cd hd c).chan (chanNum cd hd c)).up = false ∧ ∃ q, Tab.get (s.chanDown cd hd c).net id = some q ∧
      q.place = .toHome cd hd ((s.setChan (chanNum cd hd c) { s.chan (chanNum cd hd c) with up := false }).liveChan cd hd c) := by
  have hup : ((s.chanDown cd hd c).chan (chanNum cd hd c)) = { up := false, retrain := none, failed := 0 } :=
    (State.chan_setChan _ _ _ _).trans (if_pos rfl)
  have hlive : (s.setChan (chanNum cd hd c) { up := false, retrain := none, failed := 0 }).liveChan cd hd c =
      (s.setChan (chanNum cd hd c) { s.chan (chanNum cd hd c) with up := false }).liveChan cd hd c := by
    refine State.liveChan_congr (fun j => ?_) cd hd c
    rw [State.chan_setChan, State.chan_setChan]
    split <;> rfl
  have hnet := Tab.get_mapV s.net (fun _ p => match p.place with
    | .toHome d h x => if d = cd && h = hd && x = c then { p with place := .toHome d h ((s.setChan (chanNum cd hd c)
        { up := false, retrain := none, failed := 0 }).liveChan cd hd c), fails := 0 } else p
    | .toDie h d x => if d = cd && h = hd && x = c then { p with place := .toDie h d ((s.setChan (chanNum cd hd c)
        { up := false, retrain := none, failed := 0 }).liveChan cd hd c), fails := 0 } else p
    | _ => p) id
  rw [hp] at hnet
  refine ⟨by rw [hup], _, hnet, ?_⟩
  simp [hpl, hlive]

/-! ## Failures of channels and links -/

section
variable {cd hd c : Nat}

theorem exec_bridgePacket_of_up (hp : Tab.get s.net id = some p) (hpl : p.place = .toHome cd hd c) (hup : (s.chan (chanNum cd hd c)).up = true)
    (hre : (s.chan (chanNum cd hd c)).retrain = none) (hf : s.crossesFirst id p = true) :
    exec (.bridgePacket id) s = .next ((s.setChan (chanNum cd hd c) { s.chan (chanNum cd hd c) with failed := 0 }).putPkt id
      { p with place := .home hd (if cd = 0 then 0 else 3) (c + 1), ch := c, fails := 0 }) := by
  have h : execBridgePacket id s = .next ((s.setChan (chanNum cd hd c) { s.chan (chanNum cd hd c) with failed := 0 }).putPkt id
      { p with place := .home hd (if cd = 0 then 0 else 3) (c + 1), ch := c, fails := 0 }) := by
    simp only [execBridgePacket, hp, hpl]
    exact congrArg _ (if_pos (by simp [Chan.works, hup, hre, hf]))
  exact h

/-- R364: a failed replay counts, and the eighth in a row starts a retrain. -/
theorem execFlitError_of_up (hcd : cd < 2) (hhd : hd < 4) (hc : c < 6) (hup : (s.chan (chanNum cd hd c)).up = true)
    (hre : (s.chan (chanNum cd hd c)).retrain = none) :
    exec (.flitError cd hd c) s = .next (if (s.chan (chanNum cd hd c)).failed + 1 < 8
      then s.setChan (chanNum cd hd c) { s.chan (chanNum cd hd c) with failed := (s.chan (chanNum cd hd c)).failed + 1 }
      else { s.setChan (chanNum cd hd c) { s.chan (chanNum cd hd c) with failed := 0, retrain := some s.now } with
        pwr := { s.pwr with retrain := s.pwr.retrain + 1 } }) := by
  have hno : ¬ (!(s.chan (chanNum cd hd c)).works || decide (1 < cd) || decide (3 < hd) || decide (5 < c)) = true := by
    simp only [Chan.works, hup, hre, Option.isNone_none, Bool.and_self, Bool.not_true, Bool.false_or, Bool.or_eq_true, decide_eq_true_eq]
    omega
  exact congrArg Host.Outcome.next (if_neg hno)

theorem execRetrainTimeout_of_retrain {t : Nat} (ht : (s.chan (chanNum cd hd c)).retrain = some t) :
    exec (.retrainTimeout cd hd c) s = .next (if t + 21600 ≤ s.now then s.chanDown cd hd c else s) := by
  have h : execRetrainTimeout cd hd c s = .next (if t + 21600 ≤ s.now then s.chanDown cd hd c else s) := by
    simp only [execRetrainTimeout, ht]
    rfl
  exact h

theorem execPacketCrcError_of_place (hp : Tab.get s.net id = some p) (hpl : p.place = .toHome cd hd c) :
    exec (.packetCrcError id) s = .next (if 3 ≤ p.fails + 1 then s.chanDown cd hd c
      else { s with net := Tab.set s.net id { p with fails := p.fails + 1 } }) := by
  have h : execPacketCrcError id s = .next (if 3 ≤ p.fails + 1 then s.chanDown cd hd c
      else { s with net := Tab.set s.net id { p with fails := p.fails + 1 } }) := by
    simp only [execPacketCrcError, hp, hpl]
  exact h

/-- R367: the buddy's acknowledgement keeps the reply and lets the ACK go out. -/
theorem exec_mirrorWrite_of_ack {n : Nat} {w : Ts} (hp : Tab.get s.net id = some p) (hk : p.kind = .ack w) (hpl : p.place = .server) (hd : p.dst = .slice n) :
    ∃ u q, exec (.mirrorWrite id) s = .next u ∧ Tab.get u.net id = some q ∧ q.place = p.dst.place ∧ q.kind = .ack w ∧
      (p.req, p) ∈ (u.slice (32 * Nat.xor (n / 32) 1 + n % 32)).repl ∧ u.mem = s.mem := by
  let m := 32 * Nat.xor (n / 32) 1 + n % 32
  let s1 := s.updSlice m (fun sl => { sl with repl := (sl.repl ++ [(p.req, p)]).drop (sl.repl.length + 1 - 1024) })
  have h : execMirrorWrite id s = .next (s1.putPkt id { p with place := p.dst.place }) := by
    simp only [execMirrorWrite, hp, hk, hpl, hd]
    rfl
  have hslice : s1.slice m = { s.slice m with repl := ((s.slice m).repl ++ [(p.req, p)]).drop ((s.slice m).repl.length + 1 - 1024) } :=
    (State.slice_updSlice _ _ _ _).trans (if_pos rfl)
  refine ⟨_, _, h, (Tab.get_set _ _ _ _).trans (if_pos rfl), rfl, hk, ?_, rfl⟩
  have hmem : (p.req, p) ∈ (s1.slice m).repl := by
    rw [hslice]
    dsimp only
    rw [List.drop_append_of_le_length (by omega)]
    exact List.mem_append_right _ (List.mem_singleton.2 rfl)
  exact hmem

/-- R381: a link that goes down while another is up. -/
theorem exec_domainLinkTimeout_of_other {l j : Nat} (hl : l < 18) (hup : s.dom.linkUp.getD l false = true) (hj : j ≠ l)
    (hother : s.dom.linkUp.getD j false = true) :
    exec (.domainLinkTimeout l) s = .next { s with
      dom := { s.dom with linkUp := s.dom.linkUp.set l false }
      pwr := { s.pwr with retrain := s.pwr.retrain + 1 } } := by
  have hno : ¬ (decide (18 ≤ l) || !s.dom.linkUp.getD l false) = true := by
    rw [hup]
    simpa using hl
  have hany : (s.dom.linkUp.set l false).any id = true := by
    rw [List.getD_eq_getElem?_getD] at hother
    have hsome : s.dom.linkUp[j]? = some true := by
      cases hx : s.dom.linkUp[j]? with
      | none => rw [hx] at hother; exact absurd hother Bool.false_ne_true
      | some b => rw [hx] at hother; exact congrArg some hother
    refine List.any_eq_true.2 ⟨true, List.mem_of_getElem? (i := j) ?_, rfl⟩
    rw [List.getElem?_set_ne (Ne.symm hj), hsome]
  exact congrArg Host.Outcome.next ((if_neg hno).trans (if_pos hany))

end

end

/-- Settles O38: the replies at a core's unit, then routers, bridges, channels, the mirror and the links, one event each. -/
theorem fabric : Obligations.Fabric := by
  unfold Obligations.Fabric
  refine ⟨fun s id k p hp hpl hsrc hc => ?_, fun s id cd hd c p hcd hhd hclt => ?_⟩
  · intro secs held
    refine ⟨fun w r hk ha => exec_data_of_awaited hp hpl hsrc hc hk ha, fun r hk ha v0 hv hh => exec_ext_of_awaited hp hpl hsrc hc hk ha hv hh,
      fun w n c hk hd hcrew hreqs => exec_ack_of_crew hp hpl hsrc hk hd hcrew hreqs, fun hk hv c hcrew => exec_recall_of_none hp hpl hsrc hk hv hcrew⟩
  · intro k ch
    refine ⟨fun hp hab hf hcs hk hcomb pl hn => exec_routerPacket_of_first hp hab hf hcs hk hcomb hn, fun n hd => ?_, hop_eq,
      fun hp hpl hup hre hf => exec_bridgePacket_of_up hp hpl hup hre hf, fun hup hre hlt => ?_, fun hup hre hle => ?_,
      fun t ht => ⟨fun hlt => ?_, fun hle => ?_, ?_⟩, fun hp hpl => ⟨fun hlt => ?_, fun hle => ⟨?_, State.chanDown_facts hp hpl⟩⟩,
      fun n w hp hk hpl hd => exec_mirrorWrite_of_ack hp hk hpl hd, fun l hl hup ⟨j, hj, hother⟩ => ?_⟩
    · intro held hk
      exact State.sliceFull_write_iff hd hk
    · exact (execFlitError_of_up hcd hhd hclt hup hre).trans (congrArg _ (if_pos (Nat.succ_lt_succ hlt)))
    · refine ⟨_, (execFlitError_of_up hcd hhd hclt hup hre).trans (congrArg _ (if_neg (Nat.not_lt.2 (Nat.succ_le_succ hle)))), ?_, rfl, rfl⟩
      exact (State.chan_setChan _ _ _ _).trans (if_pos rfl)
    · exact (execRetrainTimeout_of_retrain ht).trans (congrArg _ (if_neg (Nat.not_le.2 hlt)))
    · exact (execRetrainTimeout_of_retrain ht).trans (congrArg _ (if_pos hle))
    · have hsome : (s.chan (chanNum cd hd c)).retrain.isSome = true := by
        rw [show (s.chan (chanNum cd hd c)).retrain = some t from ht]
        rfl
      exact congrArg Host.Outcome.next (if_pos hsome)
    · exact (execPacketCrcError_of_place hp hpl).trans (congrArg _ (if_neg (by omega)))
    · exact (execPacketCrcError_of_place hp hpl).trans (congrArg _ (if_pos (by omega)))
    · refine ⟨_, exec_domainLinkTimeout_of_other hl hup hj hother, ?_, rfl, rfl, rfl⟩
      simp only [List.getD_eq_getElem?_getD, List.getElem?_set_self']
      cases s.dom.linkUp[l]? <;> rfl

end Sys2Proof.Machine
end

section
/-! SUPPORT. Page walks (R331 to R338): one level of a walk, and the service of a page's only request. -/

namespace Sys2Proof.Machine

/-! ## One level -/

section
variable {s s1 : State} {asid va kind cls lslot n t o : Nat} {bs : List Byte} {w : Ts}

/-- What a leaf gives (R334, R335). -/
def leafEntry (asid va n e set : Nat) : TlbEntry :=
  { asid := asid, lvl := n, va := va / pageSize n * pageSize n, pa := pteAddr e, r := pteR e, w := pteW e, x := pteX e, d := pteD (Nat.lor e set) }

/-- A level of a walk whose entry has been read (R334, R335). -/
def State.walkEntry (s1 : State) (asid va kind cls lslot n a o e : Nat) : Walked :=
  if !pteV e then .fail s1 (if pteHeld e then 3 else 0)
  else if pteMalformed n e then
    .fail (s1.errRecord a va 1 n 1 (32 * s1.walkHome asid va + lineSlice (o / 128)) lslot asid (s1.asidPart asid) cls 4) 2
  else if !pteLeaf e then s1.walkAt asid va kind cls lslot n (pteAddr e)
  else if !pteAllows e kind then .fail s1 1
  else
    let e1 := Nat.lor e (if kind = 1 || kind = 2 then 0xC0 else 0x40)
    let sz := pageSize n
    let tlb : TlbEntry := { asid := asid, lvl := n, va := va / sz * sz, pa := pteAddr e, r := pteR e, w := pteW e,
                            x := pteX e, d := pteD e1 }
    if e1 = e then .ok s1 tlb
    else match s1.rangeWrite a (leBytes e1 8) (s1.home (s1.servDie (o / 128))).clock none with
      | .later s2 => .later s2
      | .ok s2 _ _ _ => .ok s2 tlb

theorem walkIdx_eq (n va : Nat) : walkIdx n va = if n = 0 then va / 2 ^ 16 % 32 else va / 2 ^ (12 + 9 * n) % 512 := by
  cases n <;> rfl

theorem State.walkAt_of_read (ht : s.target (t + 8 * walkIdx n va) = .dev o) (hl : s.lost (o / 128) = false)
    (hr : s.rangeRead (t + 8 * walkIdx n va) 8 (s.home (s.servDie (o / 128))).clock true none = .ok s1 bs w false) :
    s.walkAt asid va kind cls lslot (n + 1) t = s1.walkEntry asid va kind cls lslot n (t + 8 * walkIdx n va) o (leVal bs) := by
  rw [State.walkAt]
  simp only [ht, hl, hr, Bool.false_eq_true, if_false]
  rfl

theorem pteAllows_iff (e kind : Nat) : pteAllows e kind = true ↔ (if kind = 0 then fld e 2 1 = 1 else if kind = 1 then fld e 3 1 = 1
    else if kind = 2 then fld e 2 1 = 1 ∧ fld e 3 1 = 1 else fld e 4 1 = 1) := by
  rcases kind with _ | _ | _ | kind
  · simp [pteAllows, pteR]
  · simp [pteAllows, pteW]
  · simp [pteAllows, pteR, pteW]
  · simp [pteAllows, pteX]

end

/-! ## The only request of a page -/

section
variable {s u : State} {asid va key en : Nat} {r : WalkReq} {d : Crew}

/-- The request of a page leaves the queue, and the page its cluster's misses, with the walk (R337). -/
def State.walkDone (s : State) (page : Nat × Nat) (gone : WalkReq → Bool) : State :=
  let q := s.walkq.filter (fun w => !((w.asid, w.va / 65536) == page && gone w))
  { s with
    walkq := q
    clusters := if q.any (fun w => (w.asid, w.va / 65536) == page) then s.clusters
      else Tab.mapV s.clusters (fun _ k => { k with miss := k.miss.filter (· != page) }) }

theorem State.not_mem_walkDone {gone : WalkReq → Bool} (hg : gone r = true) : r ∉ (s.walkDone (r.asid, r.va / 65536) gone).walkq := by
  intro h
  simpa [hg] using (List.mem_filter.1 h).2

theorem State.tlb_walkDone (page : Nat × Nat) (gone : WalkReq → Bool) (k : Nat) : ((s.walkDone page gone).cluster k).tlb = (s.cluster k).tlb := by
  unfold State.walkDone State.cluster
  dsimp only
  split
  · rfl
  · rw [Tab.getD, Tab.get_mapV, Tab.getD]
    cases Tab.get s.clusters k <;> rfl

theorem State.walkHome_of_page (s : State) {va' : Nat} (h : va' / 65536 = va / 65536) : s.walkHome asid va' = s.walkHome asid va := by
  have hdie : walkDie asid va' = walkDie asid va := by
    have h30 (x : Nat) : x / 2 ^ 30 = x / 65536 / 2 ^ 14 := Nat.div_div_eq_div_mul x 65536 (2 ^ 14) |>.symm
    simp only [walkDie, fld, h30, h]
  simp only [State.walkHome, hdie]

theorem execPageWalk_of_only (hq : s.walkq = [r]) (ha : r.asid = asid) (hva : r.va / 65536 = va / 65536) :
    (∀ how, s.walk r.asid r.va r.kind 1 (s.waiterSlot r.who) = .fail u how → exec (.pageWalk asid va) s = .next
      ((u.walkDone (r.asid, r.va / 65536) (fun q => how != 1 || q.kind == r.kind)).walkFailed r.who { va := r.va / 65536, kind := r.kind, how := how })) ∧
    (∀ t, s.walk r.asid r.va r.kind 1 (s.waiterSlot r.who) = .ok u t → exec (.pageWalk asid va) s = .next
      ((u.walkDone (r.asid, r.va / 65536) (fun _ => true)).fillTlb ((u.walkDone (r.asid, r.va / 65536) (fun _ => true)).waiterUnit r.who) t)) := by
  subst ha
  have hpage : ((s.walkPages (s.walkHome r.asid va)).take 32).contains (r.asid, r.va / 65536) = true := by
    simp [State.walkPages, hq, State.walkHome_of_page s hva]
  have hrun : exec (.pageWalk r.asid va) s = execPageWalk r.asid va s := rfl
  rw [hrun]
  refine ⟨fun how hw => ?_, fun t hw => ?_⟩
  · simp only [execPageWalk, ← hva, hq, List.filter_cons, beq_self_eq_true, Bool.or_true, if_true, List.filter_nil, hpage, Bool.not_true, Bool.false_eq_true,
      if_false, hw, List.foldl_cons, List.foldl_nil]
    rfl
  · simp only [execPageWalk, ← hva, hq, List.filter_cons, beq_self_eq_true, if_true, List.filter_nil, hpage, Bool.not_true, Bool.false_eq_true, if_false, hw,
      List.foldl_cons, List.foldl_nil]
    rfl

end

/-- Settles O41: one level by what its entry says, then the only request of a page by what its walk gives. -/
theorem pageWalks : Obligations.PageWalks := by
  unfold Obligations.PageWalks
  refine ⟨fun s s1 asid va kind cls lslot n t o bs w => ?_, fun s asid va kind cls lslot h => ?_, fun s u asid va key en r d hq ha hva hwho hd => ⟨fun how hw => ?_, fun t hw => ?_⟩⟩
  · intro a htarget hlost hread e walk leaf ok set
    have ha : a = t + 8 * walkIdx n va := by rw [walkIdx_eq]
    have hwalk : walk = s1.walkEntry asid va kind cls lslot n a o e := by
      rw [ha] at htarget hread ⊢
      exact State.walkAt_of_read htarget hlost hread
    have hleaf : pteLeaf e = true ↔ leaf := beq_iff_eq
    have hok : pteAllows e kind = true ↔ ok := pteAllows_iff e kind
    have hset : (if (decide (kind = 1) || decide (kind = 2)) = true then 0xC0 else 0x40) = set := by
      simp only [set, Bool.or_eq_true, decide_eq_true_eq]
    rw [hwalk]
    have hv (h : fld e 0 1 = 0) : s1.walkEntry asid va kind cls lslot n a o e = .fail s1 (if pteHeld e then 3 else 0) :=
      if_pos (by simp [pteV, h])
    have hvalid (h : fld e 0 1 = 1) : ¬ (!pteV e) = true := by simp [pteV, h]
    refine ⟨fun h0 h5 => (hv h0).trans ?_, fun h0 h5 => (hv h0).trans ?_, fun h1 hm => (if_neg (hvalid h1)).trans (if_pos hm), fun h1 hm => ?_⟩
    · rw [if_pos (by simp [pteHeld, h5])]
    · rw [if_neg (by simp [pteHeld, h5])]
    · have hbase : s1.walkEntry asid va kind cls lslot n a o e = _ := (if_neg (hvalid h1)).trans (if_neg (ne_true_of_eq_false hm))
      have hnot (h : leaf) : ¬ (!pteLeaf e) = true := by simp [hleaf.2 h]
      rw [hbase]
      refine ⟨fun hl => if_pos (by simpa using mt hleaf.1 hl), fun hl hno => (if_neg (hnot hl)).trans (if_pos (by simpa using mt hok.1 hno)),
        fun hl hyes he => ⟨leafEntry asid va n e set, (if_neg (hnot hl)).trans ((if_neg (by simpa using hok.2 hyes)).trans ?_), rfl, rfl, rfl, rfl, rfl, rfl, rfl⟩,
        fun hl hyes he s2 b2 w2 p2 hw => ⟨leafEntry asid va n e set, (if_neg (hnot hl)).trans ((if_neg (by simpa using hok.2 hyes)).trans ?_), rfl, rfl⟩⟩
      · rw [hset]
        exact if_pos he
      · rw [hset]
        refine (if_neg he).trans ?_
        rw [show s1.rangeWrite a _ _ none = _ from hw]
        rfl
  · refine if_pos ?_
    obtain h | h := h
    · simp [h]
    · rw [decide_eq_true h, Bool.or_true]
  · have hfail := (execPageWalk_of_only hq ha hva).1 how hw
    rw [hwho] at hfail
    refine ⟨_, hfail, State.not_mem_walkDone (by simp), rfl, ?_⟩
    refine (State.crew_updCrew _ _ _ _).trans ((if_pos rfl).trans ?_)
    exact congrArg (Option.map _) hd
  · have hfill := (execPageWalk_of_only hq ha hva).2 t hw
    have hunit : (u.walkDone (r.asid, r.va / 65536) (fun _ => true)).waiterUnit (.split key en) = .core d.core := by
      have hd' : (u.walkDone (r.asid, r.va / 65536) (fun _ => true)).crew key = some d := hd
      simp only [State.waiterUnit, hd']
    rw [hwho, hunit] at hfill
    refine ⟨_, hfill, State.not_mem_walkDone rfl, rfl, rfl, ?_, ?_⟩
    · have hcore := State.core_updCore (u.walkDone (r.asid, r.va / 65536) (fun _ => true)) d.core (fun k => { k with tlb := tlbPut k.tlb t 64 }) d.core
      rw [if_pos rfl] at hcore
      exact congrArg CoreSt.tlb hcore
    · have hcl := State.cluster_updCluster ((u.walkDone (r.asid, r.va / 65536) (fun _ => true)).updCore d.core (fun k => { k with tlb := tlbPut k.tlb t 64 }))
        (clusterOf d.core) (fun k => { k with tlb := tlbPut k.tlb t 2048 }) (clusterOf d.core)
      rw [if_pos rfl] at hcl
      refine (congrArg ClusterSt.tlb hcl).trans ?_
      exact congrArg (tlbPut · t 2048) (State.tlb_walkDone (s := u) _ _ _)

end Sys2Proof.Machine
end

section
/-! SUPPORT. Doorbells, the dispatcher's records and the completion of launches (R291 to R297). -/

namespace Sys2Proof.Machine

section
variable {s : State} {q lslot : Nat} {l : Launch}

theorem State.closed_eq_false (h1 : s.fw.recovery = false) (h2 : s.pwr.degraded = false) : s.closed = false := by
  simp only [State.closed, h1, h2, Bool.or_self]

/-- R292: a doorbell. -/
theorem exec_doorbell (hq : q < 16384) (hr : s.fw.recovery = false) (hc : s.closed = false) (v : W32) :
    exec (.doorbell q v) s = .next (
      if (s.queue q).qcfg.getLsbD 31 = true ∧ (s.queue q).qcfg.getLsbD 30 = false ∧ (v - (s.queue q).qhead).toNat ≤ 2 ^ fld (s.queue q).qcfg.toNat 25 5 ∧
          (v - (s.queue q).qtail).toNat < 2 ^ 31 then s.setQueue q { s.queue q with qtail := v }
      else s.setQueue q { s.queue q with qstat := (s.queue q).qstat ||| 1 }) := by
  have hrun : exec (.doorbell q v) s = .next (s.doorbell q v) := congrArg Host.Outcome.next (if_pos (by simp [hq, hr]))
  rw [hrun, State.doorbell]
  simp only [hc, Bool.not_false, Bool.and_true, Bool.and_eq_true, Bool.not_eq_true', decide_eq_true_eq, and_assoc]
  rfl

/-- A record that has been read enters the launch table, after the queue's previous one where it must (R293). -/
def State.enterRecord (s1 : State) (q : Nat) (r : QueueRegs) (lslot : Nat) (l : Launch) : State :=
  match s1.prevLaunch q r.qhead with
  | some (pslot, pl) =>
    if l.ser || !s1.dispatched pslot pl then s1
    else (s1.setLaunch lslot l).setQueue q { r with qhead := r.qhead + 1 }
  | none => (s1.setLaunch lslot l).setQueue q { r with qhead := r.qhead + 1 }

theorem State.enterRecord_of_none {r : QueueRegs} (h : s.prevLaunch q r.qhead = none) :
    s.enterRecord q r lslot l = (s.setLaunch lslot l).setQueue q { r with qhead := r.qhead + 1 } := by
  simp only [State.enterRecord, h]

/-- The dispatcher at a queue none of whose records waits for its checks. -/
theorem execDispatchConsume_of_none (hq : q < 16384) (hc : s.closed = false) (hw : s.engWaits = []) (hl : ∀ l ∈ s.launches, l.2.queue ≠ q)
    (hen : (s.queue q).qcfg.getLsbD 31 = true) (hst : (s.queue q).qstat.getLsbD 1 = false) :
    ((s.queue q).qhead = (s.queue q).qtail → exec (.dispatchConsume q) s = .next s) ∧
    ((s.queue q).qhead ≠ (s.queue q).qtail → ∀ lslot, Tab.firstFree s.launches 0 4096 = some lslot →
      (∀ u, s.dispRead (s.queue q).asid ((s.queue q).slot (s.queue q).qhead.toNat) 64 = .fail u →
        exec (.dispatchConsume q) s = .next (u.setQueue q { s.queue q with qstat := (s.queue q).qstat ||| 2 })) ∧
      (∀ u bs, s.dispRead (s.queue q).asid ((s.queue q).slot (s.queue q).qhead.toNat) 64 = .ok u bs → u.prevLaunch q (s.queue q).qhead = none →
        exec (.dispatchConsume q) s = .next ((u.setLaunch lslot
          { queue := q, asid := (s.queue q).asid, part := (s.queue q).part, index := (s.queue q).qhead, record := bs, desc := [], contDesc := [],
            params := [], nextG := 0, gangsLeft := 0, contLeft := 0, cmdsLeft := 0, nextAge := 0, bins := [],
            contCount := [], flushed := true, status := 0, detail := 0, hold := false }).setQueue q { s.queue q with qhead := (s.queue q).qhead + 1 }))) := by
  have hfind : s.launches.find? (fun l => l.2.queue == q && l.2.desc.isEmpty) = none := by
    rw [List.find?_eq_none]
    intro l hm
    simp [hl l hm]
  have hen' : (s.queue q).en = true := hen
  have hstop : ¬ (decide (16384 ≤ q) || s.closed || s.engWaits.any (fun w => w.what == 2 && w.id == q)) = true := by
    simp [hc, hw, hq]
  refine ⟨fun h => congrArg Host.Outcome.next ((if_neg hstop).trans ?_), fun h lslot hfree =>
    ⟨fun u hu => congrArg Host.Outcome.next ((if_neg hstop).trans ?_), fun u bs hu hp => congrArg Host.Outcome.next ((if_neg hstop).trans ?_)⟩⟩
  · rw [hfind]
    exact if_pos (by simp [h])
  · rw [hfind, hfree]
    refine (if_neg (by rw [hen', hst]; simpa using h)).trans ?_
    rw [hu]
  · rw [hfind, hfree]
    refine (if_neg (by rw [hen', hst]; simpa using h)).trans ?_
    rw [hu]
    exact State.enterRecord_of_none hp

/-- R296: a record whose reserved bits are set completes as MALFORMED with check 1. -/
theorem execDispatchConsume_of_reserved (hq : q < 16384) (hc : s.closed = false) (hw : s.engWaits = []) (hs : s.launches = [(lslot, l)])
    (hlq : l.queue = q) (hd : l.desc = []) (hb : fld (leVal l.record) 59 5 ≠ 0) :
    exec (.dispatchConsume q) s = .next (s.setLaunch lslot (l.stopped [] 1 1)) := by
  have hstop : ¬ (decide (16384 ≤ q) || s.closed || s.engWaits.any (fun w => w.what == 2 && w.id == q)) = true := by
    simp [hc, hw, hq]
  have hfind : s.launches.find? (fun l => l.2.queue == q && l.2.desc.isEmpty) = some (lslot, l) := by simp [hs, hlq, hd]
  have hcheck : l.check1 = false := by
    have h59 : (l.r 59 5 == 0) = false := by simpa [Launch.r] using hb
    simp only [Launch.check1, h59, Bool.false_and]
  refine congrArg Host.Outcome.next ((if_neg hstop).trans ?_)
  rw [hfind]
  exact if_pos (by simp [hcheck])

/-! ## Completion (R297) -/

/-- The entry of a completed launch freed, with the interrupt that its record asks for. -/
def State.launchEnded (u : State) (lslot : Nat) (l : Launch) (vec : Nat) : State :=
  let s1 : State := { u with launches := Tab.erase u.launches lslot,
                             cores := Tab.mapV u.cores (fun _ k => if k.lastL = some lslot then { k with lastL := none } else k) }
  if l.irq then s1.raiseIrq vec else s1

/-- The completion word of a launch. -/
def Launch.doneWord (l : Launch) : Nat := l.tag * 2 ^ 32 + l.detail % 65536 * 2 ^ 16 + l.status

theorem execLaunchComplete_of_running (hl : s.launch lslot = some l) (hg : l.gangsLeft ≠ 0) : exec (.launchComplete lslot) s = .next s := by
  have h : execLaunchComplete lslot s = .next s := by
    simp only [execLaunchComplete, hl]
    exact congrArg _ (if_pos (by simp [hg]))
  exact h

theorem execLaunchComplete_of_ended (hl : s.launch lslot = some l) (hd : l.desc ≠ []) (hg : l.gangsLeft = 0) (hcl : l.contLeft = 0) (hm : l.cmdsLeft = 0)
    (hf : l.flushed = true) (hst : s.strayWrites = false) (hw : s.engWaits = []) :
    (l.donea = 0 → exec (.launchComplete lslot) s = .next (s.launchEnded lslot l (s.queue l.queue).vec)) ∧
    (∀ u pa v bs ts b, l.donea ≠ 0 → l.donea < 2 ^ 57 → s.engXlate l.asid l.donea 1 = .ok u pa →
      u.directWrite pa (leBytes l.doneWord 8) u.clockMax none (u.launchFinder lslot l.donea) = .ok v bs ts b →
      exec (.launchComplete lslot) s = .next (v.launchEnded lslot l (s.queue l.queue).vec)) := by
  have hno : ¬ (l.desc.isEmpty || decide (l.gangsLeft ≠ 0) || decide (l.contLeft ≠ 0) || decide (l.cmdsLeft ≠ 0) || !l.flushed || s.strayWrites ||
      s.engWaits.any (fun w => w.what == 3 && w.id == lslot)) = true := by
    simp [hd, hg, hcl, hm, hf, hst, hw]
  have hrun : exec (.launchComplete lslot) s = execLaunchComplete lslot s := rfl
  rw [hrun, execLaunchComplete, hl]
  refine ⟨fun h0 => congrArg _ ((if_neg hno).trans (if_pos h0)), fun u pa v bs ts b h0 h57 hx hwr => congrArg _ ((if_neg hno).trans ((if_neg h0).trans
    ((if_neg (Nat.not_le.2 h57)).trans ?_)))⟩
  rw [hx]
  dsimp only
  rw [show u.directWrite pa (leBytes (l.tag * 2 ^ 32 + l.detail % 65536 * 2 ^ 16 + l.status) 8) u.clockMax none (u.launchFinder lslot l.donea) = _ from hwr]
  rfl

end

/-- Settles O42: doorbells, records and completions, each by the branch its hypotheses choose. -/
theorem launchQueues : Obligations.LaunchQueues := by
  unfold Obligations.LaunchQueues
  intro s q hq hrec hdeg r k
  have hc := State.closed_eq_false hrec hdeg
  refine ⟨exec_doorbell hq hrec hc, fun hw hl hen hst => ⟨(execDispatchConsume_of_none hq hc hw hl hen hst).1, fun hne lslot hfree => ?_⟩,
    fun lslot l hw hs hlq => ⟨fun hd hb => ?_, fun hg => ?_, fun hd hg hcl hm hf hst => ?_⟩⟩
  · obtain ⟨hfail, hok⟩ := (execDispatchConsume_of_none hq hc hw hl hen hst).2 hne lslot hfree
    exact ⟨hfail, fun u bs hu hp => ⟨_, hok u bs hu hp, rfl, rfl, rfl, rfl, rfl, rfl, rfl⟩⟩
  · exact ⟨_, execDispatchConsume_of_reserved hq hc hw hs hlq hd hb, rfl, rfl, rfl, rfl, List.cons_ne_nil _ _⟩
  · exact execLaunchComplete_of_running (l := l) (by simp [State.launch, hs, Tab.get]) hg
  · have hlaunch : s.launch lslot = some l := by simp [State.launch, hs, Tab.get]
    intro free ends done
    have hirq : l.irq = true ↔ fld (leVal l.record) 48 1 = 1 := beq_iff_eq
    have hends (u : State) (hu : u.queues = s.queues) : u.launchEnded lslot l (s.queue l.queue).vec = ends u := by
      have hvec : (s.queue l.queue).vec = fld (u.queue q).qcfg.toNat 0 8 := by
        rw [hlq, State.queue, ← hu]
        rfl
      rw [hvec]
      by_cases hi : l.irq = true
      · exact (if_pos hi).trans (if_pos (hirq.1 hi)).symm
      · exact (if_neg hi).trans (if_neg (mt hirq.2 hi)).symm
    obtain ⟨h0, h1⟩ := execLaunchComplete_of_ended hlaunch hd hg hcl hm hf hst hw
    refine ⟨fun hz => (h0 hz).trans (congrArg _ (hends s rfl)), fun u pa v bs ts b hz h57 hx hu hv hwr => ?_⟩
    exact (h1 u pa v bs ts b hz h57 hx hwr).trans (congrArg _ (hends v hv))

end Sys2Proof.Machine
end

section
/-! SUPPORT. Blocks, donations and the start of gangs (R299 to R302, R306, R9 to R16, R35). -/

namespace Sys2Proof.Machine

section
variable {s : State}

/-! ## Blocks handed out -/

theorem bestBlk_mem {l : List (Nat × Blk)} {x : Nat × Blk} (h : bestBlk l = some x) : x ∈ l := by
  induction l generalizing x with
  | nil => cases h
  | cons b t ih =>
    unfold bestBlk at h
    split at h
    · cases h
      exact List.mem_cons_self ..
    · rename_i c hc
      cases h
      split
      · exact List.mem_cons_self ..
      · exact List.mem_cons_of_mem _ (ih hc)

/-- The dispatcher's next block of a launch has not been handed out (R300). -/
theorem State.place_of_headBlock {lslot id : Nat} {b : Blk} (h : s.headBlock lslot = some (id, b)) : b.place = 0 := by
  have hmem := (List.mem_filter.1 (bestBlk_mem h)).2
  simp only [Bool.and_eq_true, beq_iff_eq] at hmem
  exact hmem.1.2

/-- R299: the next block of a launch, in ascending gang index. -/
theorem State.makeBlock_of_ready {lslot : Nat} {l : Launch} (hl : s.launch lslot = some l) (hd : l.desc ≠ []) (hst : l.status = 0) (hcl : l.clu = false)
    (hn : l.nextG < l.rw * l.rh) (hb : s.blocks = []) :
    ∃ n, (s.makeBlock lslot).blocks = [(s.nextId, n)] ∧ n.lslot = lslot ∧ n.gx = l.nextG % l.rw ∧ n.gy = l.nextG / l.rw ∧
      n.prio = l.prio ∧ n.age = l.nextAge ∧ n.kind = 0 ∧ n.place = 0 ∧
      (s.makeBlock lslot).launch lslot = some { l with nextG := l.nextG + 1, nextAge := l.nextAge + 1 } := by
  have hpool : s.poolFull l.part = false := by simp [State.poolFull, hb]
  have hunits : l.units = l.rw * l.rh := by simp [Launch.units, hcl]
  have hno : ¬ (l.desc.isEmpty || decide (l.status ≠ 0) || decide (l.units ≤ l.nextG) ||
      s.blocks.any (fun b => b.2.lslot == lslot && b.2.kind == 0 && b.2.cont.isNone && b.2.place == 0) || s.poolFull l.part) = true := by
    simp [hd, hst, hunits, hn, hb, hpool]
  rw [State.makeBlock, hl]
  dsimp only
  rw [if_neg hno]
  simp only [hcl, Bool.false_eq_true, if_false, Nat.one_mul]
  refine ⟨_, by rw [show (s.setLaunch lslot _).blocks = [] from hb]; rfl, rfl, rfl, rfl, rfl, rfl, rfl, rfl, ?_⟩
  exact (Tab.get_set _ _ _ _).trans (if_pos rfl)

/-- R300, R301: a block that is served next goes to the core that the order chooses. -/
theorem execBlockPlace_of_head {s0 : State} {id core : Nat} {b : Blk} (hs : (Tab.keys s0.launches).foldl State.makeBlock s0 = s)
    (hb : Tab.get s.blocks id = some b) (hh : s.headBlock b.lslot = some (id, b)) :
    (b.kind = 0 → s.served b.lslot b = true → s.chooseCore id b = some core → ∃ u, exec (.blockPlace id core) s0 = .next u ∧
      Tab.get u.blocks id = some { b with place := 1, core := core } ∧ u.gangs = s.gangs ∧ u.launches = s.launches) ∧
    (s.chooseCore id b ≠ some core → exec (.blockPlace id core) s0 = .next s) := by
  have hrun : exec (.blockPlace id core) s0 = execBlockPlace id core s0 := rfl
  rw [hrun, execBlockPlace, hs, hb]
  dsimp only
  rw [hh]
  refine ⟨fun hk hserved hc => ?_, fun hc => congrArg _ (if_neg (by simp [hc]))⟩
  have hmates : (s.unitBlocks id b).map Prod.fst = [id] := by
    unfold State.unitBlocks
    split
    · rw [if_neg (by simp [hk])]
      rfl
    · rfl
  refine ⟨_, congrArg _ (if_pos (by simp [hserved, hc])), ?_, rfl, rfl⟩
  rw [Tab.get_mapV, hb, hmates]
  exact congrArg some (if_pos (by simp [State.place_of_headBlock hh]))

/-! ## Donation (R302) -/

/-- The blocks that a victim ships are on their way to the core that asked. -/
def State.shipOut (s : State) (out : List Nat) (core : Nat) : State :=
  { s with blocks := Tab.mapV s.blocks (fun i b => if out.contains i then { b with place := 2, core := core } else b) }

theorem State.get_blocks_shipOut {i : Nat} {x : Blk} (h : Tab.get s.blocks i = some x) (out : List Nat) (core : Nat) :
    Tab.get (s.shipOut out core).blocks i = some (if i ∈ out then { x with place := 2, core := core } else x) := by
  rw [State.shipOut, Tab.get_mapV, h, Option.map_some]
  simp only [List.contains_iff_mem]

/-- The blocks on their way to a core wait in its queue. -/
def State.shipIn (s : State) (core : Nat) : State :=
  { s with blocks := Tab.mapV s.blocks (fun _ b => if b.place = 2 && b.core = core then { b with place := 1 } else b) }

theorem State.get_blocks_shipIn {i : Nat} {x : Blk} (h : Tab.get s.blocks i = some x) (core : Nat) :
    Tab.get (s.shipIn core).blocks i = some (if x.place = 2 ∧ x.core = core then { x with place := 1 } else x) := by
  rw [State.shipIn, Tab.get_mapV, h, Option.map_some]
  simp only [Bool.and_eq_true, decide_eq_true_eq]

theorem execStealRequest_of_idle {core lslot v : Nat} {rest : List Nat} (hc : core < 512) (hst : (s.core core).steal = none)
    (hl : (s.core core).lastL = some lslot) (hi : s.idleFor core lslot = true) (hv : victims core = v :: rest) :
    exec (.stealRequest core v) s = .next (if (s.shipped v lslot (s.unitAsks core lslot)).isEmpty
      then s.updCore core (fun k => { k with steal := some (lslot, 1, v :: rest) })
      else (s.shipOut (s.shipped v lslot (s.unitAsks core lslot)) core).updCore core (fun k => { k with steal := some (lslot, 2, []) })) := by
  have hno : ¬ (decide (v ≠ v) || decide (512 ≤ core)) = true := by simpa using hc
  have hrun : exec (.stealRequest core v) s = execStealRequest core v s := rfl
  rw [hrun, execStealRequest]
  simp only [hst, hl, hi, hv, if_true]
  exact congrArg _ (if_neg hno)

end

/-! ## Gangs that start -/

section
variable {s : State} {f : Crew → Nat}

theorem State.foldl_setCrew_eq (cs : List Crew) (s : State) :
    cs.foldl (fun (s : State) c => s.setCrew (f c) c) s = { s with crews := (cs.foldl (fun (s : State) c => s.setCrew (f c) c) s).crews } :=
  List.foldlRecOn cs _ (motive := fun t : State => t = { s with crews := t.crews }) rfl (fun t ht c _ => by rw [ht]; rfl)

theorem State.crew_foldl_setCrew_of_not {cs : List Crew} {k : Nat} (h : ∀ c ∈ cs, f c ≠ k) (s : State) :
    (cs.foldl (fun (s : State) c => s.setCrew (f c) c) s).crew k = s.crew k := by
  induction cs generalizing s with
  | nil => rfl
  | cons d ds ih =>
    rw [List.foldl_cons, ih (fun c hc => h c (List.mem_cons_of_mem _ hc)), State.crew_setCrew, if_neg (Ne.symm (h d (List.mem_cons_self ..)))]

/-- Crews of different keys put in place one after another. -/
theorem State.crew_foldl_setCrew {cs : List Crew} {c : Crew} (hc : c ∈ cs) (huniq : ∀ d ∈ cs, f d = f c → d = c) (s : State) :
    (cs.foldl (fun (s : State) c => s.setCrew (f c) c) s).crew (f c) = some c := by
  induction cs generalizing s with
  | nil => cases hc
  | cons d ds ih =>
    rw [List.foldl_cons]
    by_cases hmem : c ∈ ds
    · exact ih hmem (fun d hd => huniq d (List.mem_cons_of_mem _ hd)) _
    · have hdc : c = d := (List.mem_cons.1 hc).resolve_right hmem
      subst hdc
      rw [State.crew_foldl_setCrew_of_not (fun e he heq => hmem (huniq e (List.mem_cons_of_mem _ he) heq ▸ he)), State.crew_setCrew, if_pos rfl]

end

/-- The new crew of an index (R16, R139, R273). -/
def newCrew (l : Launch) (gid core : Nat) (d : List Byte) (pipes slots : List Nat) (pts : Ts) (g i : Nat) (p : Nat × Nat × Nat) : Crew :=
  { Crew.start gid i core (slots.getD i 0) (pipes.getD i 0) p.1 p.2.1 p.2.2 (descCode d)
      ((l.spillb + (g * descCrews d + i) * descSpill d) % 2 ^ 64) (descSpill d) pts (fld (leVal d) 137 1 == 1)
      (BitVec.ofNat 32 (2 ^ 32 - 1)) with bind := firstBind (tileBase d i) p.2.2 }

section
variable {l : Launch} {gid core g : Nat} {d : List Byte} {pipes slots : List Nat} {pts : Ts}

theorem mem_newCrews {c : Crew} : c ∈ newCrews l gid core d pipes slots pts g ↔
    ∃ i p, (crewPlan d)[i]? = some p ∧ c = newCrew l gid core d pipes slots pts g i p := by
  have hzip : (crewPlan d).zip (List.range (descCrews d)) = (crewPlan d).zipIdx := by
    rw [List.zipIdx_eq_zip_range', List.range_eq_range']
    rfl
  rw [newCrews, hzip]
  constructor
  · intro h
    obtain ⟨⟨p, i⟩, hm, rfl⟩ := List.mem_map.1 h
    exact ⟨i, p, List.mk_mem_zipIdx_iff_getElem?.1 hm, rfl⟩
  · rintro ⟨i, p, hp, rfl⟩
    exact List.mem_map.2 ⟨(p, i), List.mk_mem_zipIdx_iff_getElem?.2 hp, rfl⟩

/-- The crews of a new gang in place. -/
theorem State.crew_newCrews (s : State) {i : Nat} (hi : i < descCrews d) :
    ∃ p, ((newCrews l gid core d pipes slots pts g).foldl (fun (s : State) c => s.setCrew (crewKey gid c.idx) c) s).crew (crewKey gid i) =
      some (newCrew l gid core d pipes slots pts g i p) := by
  have hget : (crewPlan d)[i]? = some (crewPlan d)[i] := List.getElem?_eq_getElem hi
  refine ⟨(crewPlan d)[i], State.crew_foldl_setCrew (f := fun c => crewKey gid c.idx) (mem_newCrews.2 ⟨i, _, hget, rfl⟩) (fun e he hk => ?_) s⟩
  obtain ⟨j, q, hq, rfl⟩ := mem_newCrews.1 he
  have hij : j = i := by
    have hk' : gid * 32 + j = gid * 32 + i := hk
    omega
  subst hij
  rw [Option.some.inj (hq.symm.trans hget)]

end

section
variable {s : State} {core id lslot : Nat} {b : Blk} {l : Launch}

/-- The state in which a core serves a launch of its own partition (R124). -/
theorem State.coreServes_of_same (hp : (s.core core).part = some l.part) :
    s.coreServes core l.part lslot = s.updCore core (fun k => { k with part := some l.part, lastL := some lslot }) := by
  unfold State.coreServes
  dsimp only
  rw [if_neg (by simp [hp])]

/-- A gang comes to residence on a core that serves its partition (R9, R11, R16). -/
theorem State.residentNew_of_fits {pipes : List Nat} (hl : s.launch b.lslot = some l) (hcont : b.cont = none) (hp : (s.core core).part = some l.part)
    (hpipes : placePipes (s.pipeUse core) ((crewPlan l.desc).map (·.2.1)) = some pipes) (gx gy : Nat) :
    ∃ u g slots k, s.residentNew b l gx gy core = u ∧ u = { s with nextId := u.nextId, cores := u.cores, gangs := u.gangs, crews := u.crews } ∧
      u.gang s.nextId = some g ∧ g = newGang l b gx gy core l.desc l.rw ∧
      ∀ i, i < descCrews l.desc → ∃ p, u.crew (crewKey s.nextId i) = some (newCrew l s.nextId core l.desc pipes slots s.clockMax k i p) := by
  have hdesc : s.blkDesc b = l.desc := by simp [State.blkDesc, hl, hcont]
  let s0 := s.updCore core (fun k => { k with part := some l.part, lastL := some b.lslot })
  let s1 := ({ s0 with nextId := s.nextId + 1 } : State).setGang s.nextId (newGang l b gx gy core l.desc l.rw)
  have hres : s.residentNew b l gx gy core =
      (newCrews l s.nextId core l.desc pipes (s0.freeSlots core) s.clockMax (gy * l.rw + gx)).foldl
        (fun (s2 : State) c => s2.setCrew (crewKey s.nextId c.idx) c) s1 := by
    unfold State.residentNew
    simp only [hdesc, hpipes, hcont, Option.isSome_none, Bool.false_eq_true, if_false, State.coreServes_of_same hp]
    rfl
  have hframe := State.foldl_setCrew_eq (f := fun c => crewKey s.nextId c.idx)
    (newCrews l s.nextId core l.desc pipes (s0.freeSlots core) s.clockMax (gy * l.rw + gx)) s1
  refine ⟨_, newGang l b gx gy core l.desc l.rw, s0.freeSlots core, gy * l.rw + gx, hres, ?_, ?_, rfl, fun i hi => State.crew_newCrews s1 hi⟩
  · rw [hframe]
    rfl
  · rw [hframe]
    exact (State.gang_setGang _ _ _ _).trans (if_pos rfl)

/-! ## The flush (R35) -/

theorem chunks32_nil {α : Type} (n : Nat) : chunks32 n ([] : List α) = [] := by cases n <;> rfl

theorem chunks32_cons {α : Type} (n : Nat) (e : α) (es : List α) : chunks32 (n + 1) (e :: es) = (e :: es).take 32 :: chunks32 n ((e :: es).drop 32) := rfl

theorem chunks32_of_short {α : Type} {es : List α} {n : Nat} (h0 : 0 < es.length) (h : es.length ≤ 32) : chunks32 (n + 1) es = [es] := by
  obtain ⟨e, es, rfl⟩ := List.exists_cons_of_length_pos h0
  rw [chunks32_cons, List.drop_eq_nil_of_le h, chunks32_nil, List.take_of_length_le h]

theorem chunks32_of_two {α : Type} {es : List α} {n : Nat} (h0 : 32 < es.length) (h : es.length ≤ 64) : chunks32 (n + 2) es = [es.take 32, es.drop 32] := by
  obtain ⟨e, es, rfl⟩ := List.exists_cons_of_length_pos (Nat.zero_lt_of_lt h0)
  rw [chunks32_cons, chunks32_of_short (by rw [List.length_drop]; omega) (by rw [List.length_drop]; omega)]

theorem execReorderFlush_of_ended (hl : s.launch lslot = some l) (hf : l.flushed = false) (hg : l.gangsLeft = 0) (hst : l.status = 0) :
    exec (.reorderFlush lslot) s = .next (l.keys.foldl (fun s key => (chunks32 (l.binOrder key).length (l.binOrder key)).foldl
      (fun s c => s.startCont lslot key c) s) (s.setLaunch lslot { l with bins := [], flushed := true })) := by
  have h : execReorderFlush lslot s = .next (l.keys.foldl (fun s key => (chunks32 (l.binOrder key).length (l.binOrder key)).foldl
      (fun s c => s.startCont lslot key c) s) (s.setLaunch lslot { l with bins := [], flushed := true })) := by
    simp only [execReorderFlush, hl]
    exact congrArg _ (if_neg (by simp [hf, hg, hst]))
  exact h

end

/-- Settles O43: blocks, donations, the start of a gang and the flush, each by the branch that its hypotheses choose. -/
theorem blocksAndGangs : Obligations.BlocksAndGangs := by
  unfold Obligations.BlocksAndGangs
  refine ⟨fun s id core b l => ⟨fun hl hd hst hcl hn hb => State.makeBlock_of_ready hl hd hst hcl hn hb, ?_, fun lslot v rest hc hst hl hi hv => ?_,
    fun lslot v rest hst => ?_, fun lslot vs hst => ?_⟩, fun s core id lslot b l hl => ⟨fun hb hnext hcan hk hu hcont hgid hp pipes hpipes => ?_, fun hf hg hst => ?_, fun hg => ?_⟩⟩
  · intro t hb hh
    exact execBlockPlace_of_head rfl hb hh
  · intro out
    have hrun := execStealRequest_of_idle hc hst hl hi hv
    refine ⟨fun hout => hrun.trans (congrArg _ (if_pos (List.isEmpty_iff.2 hout))), fun hout =>
      ⟨_, hrun.trans (congrArg _ (if_neg (mt List.isEmpty_iff.1 hout))), ?_, fun i x hx => ?_⟩⟩
    · simp only [State.core_updCore, if_true]
    · exact State.get_blocks_shipOut hx _ _
  · have hrun : execStealRefusal core s = .next (s.updCore core (fun k => { k with steal := if rest.isEmpty then none else some (lslot, 0, rest) })) := by
      simp only [execStealRefusal, hst]
    simp only [List.isEmpty_iff] at hrun
    exact hrun
  · have hrun : execDonationArrival core s = .next ((s.shipIn core).updCore core (fun k => { k with steal := none })) := by
      simp only [execDonationArrival, hst]
      rfl
    refine ⟨_, hrun, ?_, fun i x hx => ?_⟩
    · simp only [State.core_updCore, if_true]
    · exact State.get_blocks_shipIn hx _
  · let s1 : State := { s with blocks := Tab.erase s.blocks id }
    have hrun : execGangStart core s = .next (s.startBlock id b core) := by
      simp only [execGangStart, hnext, hcan, hk, Bool.not_true, Bool.false_eq_true, if_false, if_true]
    have hl1 : s1.launch b.lslot = some l := by rw [hb]; exact hl
    have hstart : s.startBlock id b core = s1.residentNew b l b.gx b.gy core := by
      have hlb : s.launch b.lslot = some l := hl1
      simp only [State.startBlock, hlb, unitGangs, hu, Bool.false_eq_true, if_false, List.foldl_cons, List.foldl_nil]
      rfl
    obtain ⟨u, g, slots, k, hres, hframe, hgang, hg, hcrews⟩ := State.residentNew_of_fits (s := s1) hl1 hcont hp hpipes b.gx b.gy
    subst hg
    refine ⟨u, _, hrun.trans (congrArg _ (hstart.trans hres)), ?_, hgang, hb, rfl, rfl, rfl, rfl, rfl, rfl, ?_, fun i hi => ?_⟩
    · rw [hframe]
      exact Tab.get_erase_same _ _
    · rw [hframe]
    · obtain ⟨p, hp⟩ := hcrews i hi
      exact ⟨_, hp, rfl, rfl, rfl, rfl, rfl, rfl, rfl, rfl, rfl, rfl⟩
  · have hrun := execReorderFlush_of_ended hl hf hg hst
    intro t
    refine ⟨fun hbins => ?_, fun key hkeys h0 h32 => ?_, fun key hkeys h32 h64 => ?_⟩
    · rw [hrun, Launch.keys, hbins]
      rfl
    · obtain ⟨n, hn⟩ := Nat.exists_eq_succ_of_ne_zero (Nat.pos_iff_ne_zero.1 h0)
      have hchunks : chunks32 (l.binOrder key).length (l.binOrder key) = [l.binOrder key] := by
        rw [hn]
        exact chunks32_of_short h0 h32
      rw [hrun, hkeys, List.foldl_cons, List.foldl_nil, hchunks]
      rfl
    · obtain ⟨n, hn⟩ := Nat.exists_eq_add_of_le' (show 2 ≤ (l.binOrder key).length by omega)
      have hchunks : chunks32 (l.binOrder key).length (l.binOrder key) = [(l.binOrder key).take 32, (l.binOrder key).drop 32] := by
        rw [hn]
        exact chunks32_of_two h32 h64
      rw [hrun, hkeys, List.foldl_cons, List.foldl_nil, hchunks]
      rfl
  · have hrun : execReorderFlush lslot s = .next s := by
      simp only [execReorderFlush, hl]
      exact congrArg _ (if_pos (by simp [hg]))
    exact hrun

end Sys2Proof.Machine
end

section
/-! SUPPORT. O44: pre-emption, saving, restoring, and the service of held pages. -/

namespace Sys2Proof.Machine

/-! ## A field set in every entry of a list -/

theorem State.launch_foldl_updLaunch (f : Launch → Launch) (hf : ∀ l, f (f l) = f l) (k : Nat) (ls : List Nat) (s : State) :
    (ls.foldl (fun s k => s.updLaunch k f) s).launch k = if k ∈ ls then (s.launch k).map f else s.launch k := by
  induction ls generalizing s with
  | nil => simp
  | cons x xs ih =>
    rw [List.foldl_cons, ih, State.launch_updLaunch]
    rcases eq_or_ne k x with rfl | hne
    · cases s.launch k <;> simp [hf]
    · simp [hne]

theorem State.gangs_foldl_updLaunch (f : Launch → Launch) (ls : List Nat) (s : State) :
    (ls.foldl (fun s k => s.updLaunch k f) s).gangs = s.gangs ∧ (ls.foldl (fun s k => s.updLaunch k f) s).mem = s.mem ∧
      (ls.foldl (fun s k => s.updLaunch k f) s).crews = s.crews ∧ (ls.foldl (fun s k => s.updLaunch k f) s).parts = s.parts := by
  induction ls generalizing s with
  | nil => exact ⟨rfl, rfl, rfl, rfl⟩
  | cons x xs ih => exact ih _

theorem State.gang_foldl_updGang (f : Gang → Gang) (hf : ∀ g, f (f g) = f g) (k : Nat) (gs : List Nat) (s : State) :
    (gs.foldl (fun s k => s.updGang k f) s).gang k = if k ∈ gs then (s.gang k).map f else s.gang k := by
  induction gs generalizing s with
  | nil => simp
  | cons x xs ih =>
    rw [List.foldl_cons, ih, State.gang_updGang]
    rcases eq_or_ne k x with rfl | hne
    · cases s.gang k <;> simp [hf]
    · simp [hne]

theorem State.launches_foldl_updGang (f : Gang → Gang) (gs : List Nat) (s : State) :
    (gs.foldl (fun s k => s.updGang k f) s).launches = s.launches ∧ (gs.foldl (fun s k => s.updGang k f) s).mem = s.mem ∧
      (gs.foldl (fun s k => s.updGang k f) s).crews = s.crews ∧ (gs.foldl (fun s k => s.updGang k f) s).parts = s.parts := by
  induction gs generalizing s with
  | nil => exact ⟨rfl, rfl, rfl, rfl⟩
  | cons x xs ih => exact ih _

/-! ## The launches and the gangs that PRECTL names -/

theorem Tab.mem_keys_of_get {α : Type} {t : Tab α} {k : Nat} {v : α} (h : Tab.get t k = some v) : k ∈ Tab.keys t :=
  List.mem_map_of_mem (Tab.mem_of_get h)

theorem Tab.get_of_mem {α : Type} {t : Tab α} (hnd : (Tab.keys t).Nodup) {e : Nat × α} (he : e ∈ t) : Tab.get t e.1 = some e.2 := by
  induction t with
  | nil => cases he
  | cons x xs ih =>
    obtain ⟨hx, hxs⟩ := List.nodup_cons.mp hnd
    rcases List.mem_cons.mp he with rfl | he
    · simp [Tab.get]
    · have hne : x.1 ≠ e.1 := fun h => hx (h ▸ List.mem_map_of_mem he)
      simp [Tab.get, hne, ih hxs he]

theorem State.mem_named {s : State} {part : Nat} {v : W64} {k : Nat} {l : Launch} (h : s.launch k = some l) :
    k ∈ s.named part v ↔ l.part = part ∧ (v.getLsbD 12 = true ∨ k = fld v.toNat 0 12) := by
  have hk : k ∈ Tab.keys s.launches := Tab.mem_keys_of_get h
  simp [State.named, State.launchPart, h, hk]

/-- The gangs of the launches that a value names. -/
def State.namedGangs (s : State) (part : Nat) (v : W64) : List Nat :=
  (s.gangs.filter (fun g => (s.named part v).contains g.2.lslot)).map Prod.fst

theorem State.mem_namedGangs {s : State} (hnd : (Tab.keys s.gangs).Nodup) {part : Nat} {v : W64} {k : Nat} {g : Gang}
    (h : s.gang k = some g) : k ∈ s.namedGangs part v ↔ g.lslot ∈ s.named part v := by
  constructor
  · intro hk
    obtain ⟨e, he, rfl⟩ := List.mem_map.mp hk
    obtain ⟨hmem, hl⟩ := List.mem_filter.mp he
    have : e.2 = g := Option.some.inj ((Tab.get_of_mem hnd hmem).symm.trans h)
    simpa [this] using hl
  · intro hk
    exact List.mem_map.mpr ⟨(k, g), List.mem_filter.mpr ⟨Tab.mem_of_get h, by simpa using hk⟩, rfl⟩

theorem State.unitHeld_of_none {s : State} (h : ∀ g ∈ s.gangs, g.2.heldFault = none) (gid : Nat) : s.unitHeld gid = false := by
  refine List.any_eq_false.mpr fun m _ => ?_
  cases hg : s.gang m with
  | none => simp
  | some g =>
    have hn : g.heldFault = none := h _ (Tab.mem_of_get hg)
    simp [Gang.residentHold, hn]

/-- The launches marked by the HOLD bit of PRECTL. -/
def State.holdMarked (s : State) (part : Nat) (v : W64) : State :=
  if v.getLsbD 13 then (s.named part v).foldl (fun s k => s.updLaunch k (fun l => { l with hold := true })) s else s

/-- The state in which PRECTL has marked the launches and the gangs. -/
def State.precMarked (s : State) (part : Nat) (v : W64) : State :=
  (s.namedGangs part v).foldl (fun s g => s.updGang g (fun x => { x with stop := true }))
    (s.holdMarked part v)

theorem State.prectl_of_none {s : State} (h : ∀ g ∈ s.gangs, g.2.heldFault = none) {part : Nat} (v : W64)
    (hp : (s.part part).prestat.getLsbD 0 = false) :
    s.prectl part v = ((s.precMarked part v).setPart part
      { (s.precMarked part v).part part with prestat := 1, preGangs := s.namedGangs part v }).preDone part := by
  have hu := s.unitHeld_of_none h
  simp only [State.prectl, hp, hu, Bool.false_eq_true, if_false, Bool.not_false, List.filter_true, List.filter_false,
    List.isEmpty_nil, if_true]
  rfl

/-- PRESTAT of a request whose last gang has left. -/
def Part.done (q : Part) : Part := { q with prestat := (q.prestat &&& ~~~1#64) ||| 2#64 }

theorem State.preDone_eq (s : State) (p : Nat) :
    s.preDone p = if (s.part p).prestat.getLsbD 0 && (s.part p).preGangs.isEmpty
      then (s.setPart p (s.part p).done).raiseIrq ((s.setPart p (s.part p).done).part p).fvec else s := rfl

theorem State.frame_preDone (s : State) (p : Nat) :
    (s.preDone p).gangs = s.gangs ∧ (s.preDone p).launches = s.launches ∧ (s.preDone p).mem = s.mem ∧ (s.preDone p).crews = s.crews ∧
      ((s.preDone p).part p).ptcfg = (s.part p).ptcfg := by
  rw [State.preDone_eq]
  split
  · refine ⟨rfl, rfl, rfl, rfl, ?_⟩
    have h : (s.setPart p (s.part p).done).part p = (s.part p).done := by simp
    exact (congrArg Part.ptcfg h).trans rfl
  · exact ⟨rfl, rfl, rfl, rfl, rfl⟩

theorem State.frame_holdMarked (s : State) (part : Nat) (v : W64) :
    (s.holdMarked part v).gangs = s.gangs ∧ (s.holdMarked part v).mem = s.mem ∧ (s.holdMarked part v).crews = s.crews ∧
      (s.holdMarked part v).parts = s.parts := by
  unfold State.holdMarked
  split
  · exact State.gangs_foldl_updLaunch _ _ _
  · exact ⟨rfl, rfl, rfl, rfl⟩

theorem State.launch_holdMarked {s : State} {part : Nat} {v : W64} {k : Nat} {l : Launch} (h : s.launch k = some l) :
    (s.holdMarked part v).launch k =
      some { l with hold := l.hold || (v.getLsbD 13 && decide (l.part = part ∧ (v.getLsbD 12 = true ∨ k = fld v.toNat 0 12))) } := by
  unfold State.holdMarked
  cases hv : v.getLsbD 13
  · simp [h]
  · rw [if_pos rfl, State.launch_foldl_updLaunch (fun l => { l with hold := true }) (fun _ => rfl), h]
    by_cases hk : k ∈ s.named part v
    · have := (State.mem_named h).mp hk
      rw [if_pos hk, decide_eq_true this]; simp
    · have := fun hc => hk ((State.mem_named h).mpr hc)
      rw [if_neg hk, decide_eq_false this]; simp

theorem State.frame_precMarked (s : State) (part : Nat) (v : W64) :
    (s.precMarked part v).launches = (s.holdMarked part v).launches ∧
    (s.precMarked part v).mem = s.mem ∧ (s.precMarked part v).crews = s.crews ∧ (s.precMarked part v).parts = s.parts := by
  obtain ⟨hl, hm, hc, hp⟩ := State.launches_foldl_updGang (fun x => { x with stop := true }) (s.namedGangs part v) (s.holdMarked part v)
  obtain ⟨-, hm', hc', hp'⟩ := s.frame_holdMarked part v
  exact ⟨hl, hm.trans hm', hc.trans hc', hp.trans hp'⟩

theorem State.gang_precMarked {s : State} (hnd : (Tab.keys s.gangs).Nodup) {part : Nat} {v : W64} {k : Nat} {g : Gang} {l : Launch}
    (hg : s.gang k = some g) (hl : s.launch g.lslot = some l) :
    (s.precMarked part v).gang k =
      some { g with stop := g.stop || decide (l.part = part ∧ (v.getLsbD 12 = true ∨ g.lslot = fld v.toNat 0 12)) } := by
  have hg' : (s.holdMarked part v).gang k = some g := (congrArg (Tab.get · k) (s.frame_holdMarked part v).1).trans hg
  refine (State.gang_foldl_updGang (fun x => { x with stop := true }) (fun _ => rfl) k _ (s.holdMarked part v)).trans ?_
  rw [hg']
  by_cases hk : k ∈ s.namedGangs part v
  · have := (State.mem_named hl).mp ((State.mem_namedGangs hnd hg).mp hk)
    rw [if_pos hk, decide_eq_true this]; simp
  · have := fun hc => hk ((State.mem_namedGangs hnd hg).mpr ((State.mem_named (v := v) hl).mpr hc))
    rw [if_neg hk, decide_eq_false this]; simp

/-- The state that PRECTL leaves where no gang is held: the gangs marked, the request noted, and over at once if it names none. -/
def State.precDone (s : State) (part : Nat) (v : W64) : State :=
  ((s.precMarked part v).setPart part
    { (s.precMarked part v).part part with prestat := 1, preGangs := s.namedGangs part v }).preDone part

theorem State.precDone_spec {s : State} (hnd : (Tab.keys s.gangs).Nodup) (part : Nat) (v : W64) :
    (∀ k g l, s.gang k = some g → s.launch g.lslot = some l → (s.precDone part v).gang k =
      some { g with stop := g.stop || decide (l.part = part ∧ (v.getLsbD 12 = true ∨ g.lslot = fld v.toNat 0 12)) }) ∧
    (∀ k l, s.launch k = some l → (s.precDone part v).launch k =
      some { l with hold := l.hold || (v.getLsbD 13 && decide (l.part = part ∧ (v.getLsbD 12 = true ∨ k = fld v.toNat 0 12))) }) ∧
    (s.precDone part v).mem = s.mem ∧ (s.precDone part v).crews = s.crews ∧
      ((s.precDone part v).part part).ptcfg = (s.part part).ptcfg := by
  obtain ⟨fl, fm, fc, fp⟩ := s.frame_precMarked part v
  obtain ⟨hg, hl, hm, hc, hq⟩ := State.frame_preDone ((s.precMarked part v).setPart part
    { (s.precMarked part v).part part with prestat := 1, preGangs := s.namedGangs part v }) part
  have hpart : (s.precMarked part v).part part = s.part part := congrArg (Tab.getD · part Part.init) fp
  refine ⟨fun k g l hk hkl => ?_, fun k l hk => ?_, hm.trans fm, hc.trans fc, hq.trans ?_⟩
  · exact (congrArg (Tab.get · k) hg).trans (State.gang_precMarked hnd hk hkl)
  · exact (congrArg (Tab.get · k) (hl.trans fl)).trans (State.launch_holdMarked hk)
  · rw [State.part_setPart, if_pos rfl, hpart]

/-! ## RESUME -/

theorem State.resume_spec (s : State) (part : Nat) (v : W64) {k : Nat} {l : Launch} (h : s.launch k = some l) :
    ((s.named part v).foldl (fun s k => s.updLaunch k (fun l => { l with hold := false })) s).launch k =
      some { l with hold := l.hold && !decide (l.part = part ∧ (v.getLsbD 12 = true ∨ k = fld v.toNat 0 12)) } := by
  rw [State.launch_foldl_updLaunch (fun l => { l with hold := false }) (fun _ => rfl), h]
  by_cases hk : k ∈ s.named part v
  · have := (State.mem_named h).mp hk
    rw [if_pos hk, decide_eq_true this]; simp
  · have := fun hc => hk ((State.mem_named h).mpr hc)
    rw [if_neg hk, decide_eq_false this]; simp

end Sys2Proof.Machine
end

section
/-! SUPPORT. O44: gangs saved and restored, FLTNEXT, FLTDONE, ENGREQ and ENGDONE. -/

namespace Sys2Proof.Machine

set_option Elab.async false -- one proof at a time: the threads of many at once take too much memory

/-! ## What the device's own writes leave as it is -/

/-- Two states alike but for device memory, its check state, timestamps at the slices, and requests to the host. -/
def State.RawOnly (s t : State) : Prop :=
  t = { s with mem := t.mem, poison := t.poison, badChk := t.badChk, slices := t.slices, outReqs := t.outReqs, nextId := t.nextId }

theorem State.RawOnly.refl (s : State) : s.RawOnly s := rfl

theorem State.rawOnly_of_fields (s : State) (m : Cells 8) (p : List Nat) (b : Tab (BitVec 16)) (n : Tab Slice) :
    s.RawOnly { s with mem := m, poison := p, badChk := b, slices := n } := rfl

theorem State.RawOnly.trans {s t u : State} (h1 : s.RawOnly t) (h2 : t.RawOnly u) : s.RawOnly u := by
  unfold State.RawOnly at *
  rw [h2, h1]

section
variable {s t : State} (h : s.RawOnly t)
include h
theorem State.RawOnly.gangs : t.gangs = s.gangs := by unfold State.RawOnly at h; rw [h]
theorem State.RawOnly.blocks : t.blocks = s.blocks := by unfold State.RawOnly at h; rw [h]
theorem State.RawOnly.launches : t.launches = s.launches := by unfold State.RawOnly at h; rw [h]
end

theorem State.RawOnly.foldl {α : Type} (f : State → α → State) (hf : ∀ (s : State) (a : α), s.RawOnly (f s a)) (xs : List α) (s : State) :
    s.RawOnly (xs.foldl f s) := by
  induction xs generalizing s with
  | nil => exact .refl _
  | cons x xs ih => exact (hf s x).trans (ih _)

theorem State.mirrorSectors_rawOnly (s : State) (line : Nat) (secs : List Nat) (w : Ts) : s.RawOnly (s.mirrorSectors line secs w) := by
  unfold State.mirrorSectors
  split
  · exact .refl _
  · refine .foldl _ ?_ _ _
    intro s k
    exact State.rawOnly_of_fields _ _ _ _ _

theorem State.rawWrite_rawOnly (s : State) (o : Nat) (bs : List Byte) : s.RawOnly (s.rawWrite o bs) := by
  unfold State.rawWrite
  dsimp only
  split
  · exact .refl _
  · exact State.RawOnly.trans (t := { s with mem := _, poison := _, badChk := _ }) rfl
      (.foldl _ (fun s l => s.mirrorSectors_rawOnly l _ _) _ _)

theorem State.physWrite_rawOnly (s : State) (pa : Nat) (bs : List Byte) : s.RawOnly (s.physWrite pa bs) := by
  unfold State.physWrite
  split
  · exact s.rawWrite_rawOnly _ _
  · rfl

theorem State.frame_errRecord (s : State) (pa va count detail ukind unit lslot asid part cls kind : Nat) :
    (s.errRecord pa va count detail ukind unit lslot asid part cls kind).blocks = s.blocks ∧
    (s.errRecord pa va count detail ukind unit lslot asid part cls kind).gangs = s.gangs := by
  unfold State.errRecord
  dsimp only
  split
  · exact ⟨rfl, rfl⟩
  · exact ⟨(s.physWrite_rawOnly _ _).blocks, (s.physWrite_rawOnly _ _).gangs⟩

/-! ## A gang saved -/

theorem State.gangs_updBatches (s : State) (key : Nat) (f : Crew → Crew) :
    (s.updBatches key f).gangs = s.gangs ∧ (s.updBatches key f).launches = s.launches := by
  unfold State.updBatches
  split
  · exact ⟨rfl, rfl⟩
  · split
    · split
      · dsimp only
        unfold State.imgPut
        split
        · exact ⟨(State.rawWrite_rawOnly _ _ _).gangs, (State.rawWrite_rawOnly _ _ _).launches⟩
        · exact ⟨rfl, rfl⟩
      · exact ⟨rfl, rfl⟩
    · exact ⟨rfl, rfl⟩

/-- What the end of a command does to the batch that it belongs to. -/
def Cmd.ended (k : Cmd) (c : Crew) : Crew :=
  match k.batch with
  | none => { c with openCmds := c.openCmds - 1, openPts := Ts.smax c.openPts k.pts }
  | some n => { c with batches := c.batches.map (fun b =>
      if b.num = n then { b with left := b.left - 1, pts := Ts.smax b.pts k.pts } else b) }

theorem State.gangs_cmdEnd (s : State) (id : Nat) (k : Cmd) : (s.cmdEnd id k).gangs = s.gangs :=
  (State.gangs_updBatches s k.crew k.ended).1

theorem State.launch_cmdEnd (s : State) (id : Nat) (k : Cmd) (n : Nat) :
    (s.cmdEnd id k).launch n =
      if n = k.lslot then (s.launch k.lslot).map (fun l => { l with cmdsLeft := l.cmdsLeft - 1 }) else s.launch n := by
  have h := (State.gangs_updBatches s k.crew k.ended).2
  refine (State.launch_updLaunch _ _ _ _).trans ?_
  exact congrArg (fun t => if n = k.lslot then (Tab.get t k.lslot).map (fun l : Launch => { l with cmdsLeft := l.cmdsLeft - 1 }) else Tab.get t n) h

theorem State.gangLaunch_ne_none {s : State} {gid : Nat} : s.gangLaunch gid ≠ none ↔ ∃ g l, s.gang gid = some g ∧ s.launch g.lslot = some l := by
  unfold State.gangLaunch
  cases s.gang gid with
  | none => simp
  | some g => simp [Option.ne_none_iff_exists']

theorem State.gangLaunch_cmdEnd {s : State} {gid : Nat} (h : s.gangLaunch gid ≠ none) (id : Nat) (k : Cmd) :
    (s.cmdEnd id k).gangLaunch gid ≠ none := by
  obtain ⟨g, l, hg, hl⟩ := State.gangLaunch_ne_none.mp h
  refine State.gangLaunch_ne_none.mpr ?_
  have hg' : (s.cmdEnd id k).gang gid = some g := (congrArg (Tab.get · gid) (s.gangs_cmdEnd id k)).trans hg
  by_cases hk : g.lslot = k.lslot
  · exact ⟨g, { l with cmdsLeft := l.cmdsLeft - 1 }, hg', by rw [State.launch_cmdEnd, if_pos hk, ← hk, hl]; rfl⟩
  · exact ⟨g, l, hg', by rw [State.launch_cmdEnd, if_neg hk, hl]⟩

theorem State.gangLaunch_dropCmds {s : State} {g : Nat} (h : s.gangLaunch g ≠ none) (gid : Nat) :
    (s.dropCmds gid).gangLaunch g ≠ none := by
  unfold State.dropCmds
  induction s.cmds.filter (fun k => keyGid k.2.crew == gid) generalizing s with
  | nil => exact h
  | cons x xs ih => exact ih (State.gangLaunch_cmdEnd h x.1 x.2)

theorem State.gangLaunch_ite_dropCmds {s : State} {gid : Nat} (h : s.gangLaunch gid ≠ none) (c : Prop) [Decidable c] :
    (if c then s.dropCmds gid else s).gangLaunch gid ≠ none := by
  split
  · exact State.gangLaunch_dropCmds h gid
  · exact h

theorem State.gang_saveTo {s : State} {gid : Nat} (h : s.gangLaunch gid ≠ none) (a : Nat) : (s.saveTo gid a).gang gid = none := by
  obtain ⟨g, l, hg, hl⟩ := State.gangLaunch_ne_none.mp h
  unfold State.saveTo
  split
  · exact Tab.get_erase_same _ _
  · rename_i hno
    exact absurd (show s.gangLaunch gid = some l by simp only [State.gangLaunch, hg, hl]) (hno g l hg)

theorem State.gang_saveAll {s w : State} {gid : Nat} (hw : s.saveAll [gid] = some w) (h : s.gangLaunch gid ≠ none) :
    w.gang gid = none := by
  unfold State.saveAll at hw
  dsimp only at hw
  split at hw
  · exact absurd hw nofun
  · obtain rfl := Option.some.inj hw
    exact State.gang_saveTo (State.gangLaunch_ite_dropCmds h _) _

end Sys2Proof.Machine
end

section
/-! SUPPORT. O44: the driver's events as their states. -/

namespace Sys2Proof.Machine

/-! ## PRECTL and RESUME -/

theorem State.exec_prectl {s : State} {part : Nat} (hp : part < 64) (hf : s.fw.recovery = false) (v : W64) :
    exec (.prectl part v) s = .next (s.prectl part v) := by
  have h : execPrectl part v s = .next (s.prectl part v) := by simp only [execPrectl, hp, hf, decide_true, Bool.not_false, Bool.and_self, if_true]
  exact h

theorem State.exec_resume {s : State} {part : Nat} (hf : s.fw.recovery = false) (v : W64) :
    exec (.resume part v) s = .next ((s.named part v).foldl (fun s k => s.updLaunch k (fun l => { l with hold := false })) s) := by
  have h : execResume part v s = .next ((s.named part v).foldl (fun s k => s.updLaunch k (fun l => { l with hold := false })) s) := by
    simp only [execResume, hf, Bool.false_eq_true, if_false]
  exact h

/-! ## A gang saved -/

section
variable {s u w : State} {gid : Nat} {g : Gang} (hg : s.gang gid = some g)
include hg

theorem State.exec_gangSave_running (hs : g.stop = false) : exec (.gangSave gid) s = .next s := by
  have h : execGangSave gid s = .next s := by simp only [execGangSave, hg, hs, Bool.not_false, if_true]
  exact h

variable (hs : g.stop = true) (hu : s.unitOf gid = [gid])
include hs hu

theorem State.exec_gangSave_draining (hd : s.drain [gid] = (u, false)) : exec (.gangSave gid) s = .next u := by
  have h : execGangSave gid s = .next u := by
    simp only [execGangSave, hg, hs, hu, hd, Bool.not_true, Bool.not_false, Bool.true_or, Bool.false_eq_true, if_false, if_true]
  exact h

variable (hd : s.drain [gid] = (u, true)) (hi : g.inIdem = false) (hf : g.heldFault = none)
include hd hi hf

theorem State.exec_gangSave_noSlot (hw : u.saveAll [gid] = none) :
    exec (.gangSave gid) s = .next (u.leaveRunning [gid] (s.gangPart gid)) := by
  have h : execGangSave gid s = .next (u.leaveRunning [gid] (s.gangPart gid)) := by
    simp [execGangSave, hg, hs, hu, hd, hw, State.saveKind, hi, hf]
  exact h

theorem State.exec_gangSave_saved (hw : u.saveAll [gid] = some w) :
    exec (.gangSave gid) s = .next (if (w.part (s.gangPart gid)).preGangs.contains gid then
        (w.setPart (s.gangPart gid) { w.part (s.gangPart gid) with
          preGangs := (w.part (s.gangPart gid)).preGangs.filter (· != gid)
          prestat := (w.part (s.gangPart gid)).prestat + 0x10000#64 }).preDone (s.gangPart gid)
      else w) := by
  have h : execGangSave gid s = .next (if (w.part (s.gangPart gid)).preGangs.contains gid then
        (w.setPart (s.gangPart gid) { w.part (s.gangPart gid) with
          preGangs := (w.part (s.gangPart gid)).preGangs.filter (· != gid)
          prestat := (w.part (s.gangPart gid)).prestat + 0x10000#64 }).preDone (s.gangPart gid)
      else w) := by
    by_cases hc : (w.part (s.gangPart gid)).preGangs.contains gid = true
    · simp [execGangSave, hg, hs, hu, hd, hw, State.saveKind, hi, hf, List.contains_iff_mem.mp hc]
    · have hc' : gid ∉ (w.part (s.gangPart gid)).preGangs := fun h => hc (List.contains_iff_mem.mpr h)
      simp [execGangSave, hg, hs, hu, hd, hw, State.saveKind, hi, hf, hc']
  exact h

end

/-! ## A gang restored -/

section
variable {s : State} {blk core a : Nat} {b : Blk} (hb : s.nextLocal core = some (blk, b)) (hk : b.kind = 1 ∨ b.kind = 2)
  (hc : s.canStart blk b core = true)
include hb hk hc

theorem State.exec_gangRestore : exec (.gangRestore blk core) s = .next (s.restoreUnit blk b core) := by
  have h : execGangRestore blk core s = .next (s.restoreUnit blk b core) := by
    simp [execGangRestore, hb, hk, hc]
  exact h

end

section
variable {s : State} {blk a : Nat} {b : Blk} (hsw : s.sweep = none) (hu : s.unitBlocks blk b = [(blk, b)])
  (hg : Tab.get s.blocks blk = some b) (ha : b.save = some a)
include hsw hu hg ha

theorem State.restoreUnit_of_good (core : Nat) (h : s.imgGood b a (s.blkDesc b) = true) :
    s.restoreUnit blk b core = s.restoreGang blk b (s.restoreCore b core) := by
  have hs : s.sweepBlock blk = s := by simp [State.sweepBlock, hsw]
  simp [State.restoreUnit, hu, hs, hg, ha, h]

theorem State.restoreUnit_of_bad (core : Nat) (h : s.imgGood b a (s.blkDesc b) = false) :
    s.restoreUnit blk b core = s.rejectImage b a := by
  have hs : s.sweepBlock blk = s := by simp [State.sweepBlock, hsw]
  simp [State.restoreUnit, hu, hs, hg, ha, h]

end

theorem State.part_updPart (s : State) (part : Nat) (f : Part → Part) : (s.updPart part f).part part = f (s.part part) := by
  simp [State.updPart]

theorem State.part_rdata (s : State) (v : W64) (part : Nat) : ({ s with rdata := v } : State).part part = s.part part := rfl

/-! ## The lists of announced faults and of engine requests -/

section
variable {s : State} {part : Nat} (hp : part < 64) (hf : s.fw.recovery = false)
include hp hf

theorem State.exec_fltnext_nil (h : (s.part part).announce = []) : exec (.fltnextRead part) s = .next { s with rdata := 0 } := by
  have e : execFltnextRead part s = .next { s with rdata := 0 } := by
    simp only [execFltnextRead, Nat.not_le.mpr hp, hf, h, Bool.false_eq_true, if_false]
  exact e

theorem State.exec_fltnext_cons {v : Nat} {rest : List Nat} (h : (s.part part).announce = v :: rest) :
    exec (.fltnextRead part) s =
      .next { s.updPart part (fun q => { q with announce := rest }) with rdata := BitVec.ofNat 64 v } := by
  have e : execFltnextRead part s =
      .next { s.updPart part (fun q => { q with announce := rest }) with rdata := BitVec.ofNat 64 v } := by
    simp only [execFltnextRead, Nat.not_le.mpr hp, hf, h, Bool.false_eq_true, if_false]
  exact e

theorem State.exec_engreq_nil (h : (s.part part).engreq = []) : exec (.engreqRead part) s = .next { s with rdata := 0 } := by
  have e : execEngreqRead part s = .next { s with rdata := 0 } := by
    simp only [execEngreqRead, Nat.not_le.mpr hp, hf, h, Bool.false_eq_true, if_false]
  exact e

theorem State.exec_engreq_cons {p : Nat × Nat} {rest : List (Nat × Nat)} (h : (s.part part).engreq = p :: rest) :
    exec (.engreqRead part) s =
      .next { s.updPart part (fun q => { q with engreq := rest, engAnnounced := q.engAnnounced ++ [p] }) with
        rdata := BitVec.ofNat 64 (engValue p) } := by
  have e : execEngreqRead part s =
      .next { s.updPart part (fun q => { q with engreq := rest, engAnnounced := q.engAnnounced ++ [p] }) with
        rdata := BitVec.ofNat 64 (engValue p) } := by
    simp only [execEngreqRead, Nat.not_le.mpr hp, hf, h, Bool.false_eq_true, if_false]
  exact e

theorem State.exec_fltdone (v : W64) : exec (.fltdone part v) s = .next (s.fltdone part v) := by
  have e : execFltdone part v s = .next (s.fltdone part v) := by
    simp [execFltdone, hp, hf]
  exact e

theorem State.exec_engdone (v : W64) : exec (.engdone part v) s = .next (s.engdone part v) := by
  have e : execEngdone part v s = .next (s.engdone part v) := by
    simp [execEngdone, hp, hf]
  exact e

end

/-! ## FLTDONE with the SAVE address of a held block -/

/-- The state in which an announcement has been answered. -/
def State.answered (s : State) (part v : Nat) : State :=
  s.updPart part (fun q => { q with announce := q.announce.filter (· != v) })

theorem State.not_mem_announce_answered (s : State) (part v : Nat) : v ∉ ((s.answered part v).part part).announce := by
  simp [State.answered, State.updPart]

section
variable {s : State} {id a part : Nat} {b : Blk} {l : Launch} (hb : s.blocks = [(id, b)]) (hh : b.held = true) (hv : b.save = some a)
  (hl : s.launch b.lslot = some l) (hp : l.part = part)
include hb hh hv hl hp

theorem State.fltdoneBlock_of_held (kill : Bool) :
    s.fltdoneBlock part a kill =
      if kill then (s.answered part a).killLaunch b.lslot ((s.answered part a).imgHdr a 1136 4)
      else { s.answered part a with blocks := Tab.set (s.answered part a).blocks id { b with held := false } } := by
  simp only [State.fltdoneBlock, hb, List.find?_cons, hh, hv, State.launchPart, hl, Option.map_some, hp, beq_self_eq_true, Bool.and_self]
  rfl

end

theorem fltdone_of_block {a k : Nat} (h4 : a % 4 = 0) (ha : a < 2 ^ 52) (hk : k < 2) (s : State) (part : Nat) :
    s.fltdone part (BitVec.ofNat 64 (a + k)) = s.fltdoneBlock part a (decide (k = 1)) := by
  have hn : (BitVec.ofNat 64 (a + k)).toNat = a + k := by
    rw [BitVec.toNat_ofNat]; exact Nat.mod_eq_of_lt (by omega)
  have h1 : (BitVec.ofNat 64 (a + k)).getLsbD 1 = false := by
    rw [BitVec.getLsbD, hn, Nat.testBit_eq_decide_div_mod_eq]; simp; omega
  have h0 : (BitVec.ofNat 64 (a + k)).getLsbD 0 = decide (k = 1) := by
    rw [BitVec.getLsbD, hn, Nat.testBit_eq_decide_div_mod_eq]; simp; omega
  have hx : (a + k) / 2 * 2 = a := by omega
  simp only [State.fltdone, h1, h0, hn, hx, Bool.false_eq_true, if_false]

/-! ## ENGDONE -/

theorem engValue_of_lt {asid page : Nat} (ha : asid < 256) (hp : page < 2 ^ 41) : engValue (asid, page) = asid + page * 256 + 2 ^ 63 := by
  simp only [engValue, Nat.mod_eq_of_lt ha, Nat.mod_eq_of_lt hp]

theorem engValue_lt (p : Nat × Nat) : engValue p < 2 ^ 64 := by
  have h1 : p.1 % 256 < 256 := Nat.mod_lt _ (by decide)
  have h2 : p.2 % 2 ^ 41 < 2 ^ 41 := Nat.mod_lt _ (by decide)
  unfold engValue
  omega

section
variable {s : State} {w : EngWait} {part : Nat} (hw : s.engWaits = [w])
include hw

theorem State.engdone_of_other {v : W64} (hv : v ≠ BitVec.ofNat 64 (engValue (w.asid, w.page))) : s.engdone part v = s := by
  have hne : (engValue (w.asid, w.page) == v.toNat) = false := by
    refine beq_eq_false_iff_ne.mpr fun h => hv (BitVec.eq_of_toNat_eq ?_)
    rw [BitVec.toNat_ofNat, h, Nat.mod_eq_of_lt v.isLt]
  simp [State.engdone, hw, hne]

theorem State.engdone_of_hit (hk : w.what = 0 ∨ w.what = 2 ∨ w.what = 3) (hp : s.asidPart w.asid = part) :
    s.engdone part (BitVec.ofNat 64 (engValue (w.asid, w.page))) =
      { s.updPart part (fun q => { q with engAnnounced := q.engAnnounced.filter (fun p => !(engValue p == engValue (w.asid, w.page))) }) with
        engWaits := [] } := by
  have hn : (BitVec.ofNat 64 (engValue (w.asid, w.page))).toNat = engValue (w.asid, w.page) := by
    rw [BitVec.toNat_ofNat]; exact Nat.mod_eq_of_lt (engValue_lt _)
  have h4 : (w.what != 4) = true := by rcases hk with h | h | h <;> rw [h] <;> rfl
  have h1 : (w.what == 1) = false := by rcases hk with h | h | h <;> rw [h] <;> rfl
  simp [State.engdone, State.updPart, State.setPart, hw, hn, h4, h1, hp]

end

/-! ## The obligation -/

/-- Settles O44: PRECTL and RESUME mark exactly the launches and gangs that they name, a drained gang is saved or left running, a saved
one is restored or its launch killed, and the lists of announcements give their oldest entries. -/
theorem preemption : Obligations.Preemption := by
  unfold Obligations.Preemption
  refine ⟨fun s part gid blk core v hp hf => ?_, fun s part hp hf => ?_⟩
  · intro q named
    refine ⟨fun h => ?_, fun h hnd hh => ?_, ?_, ?_, ?_⟩
    · exact (State.exec_prectl hp hf v).trans (congrArg Host.Outcome.next (if_pos h))
    · obtain ⟨hg, hl, hm, hc, hq⟩ := State.precDone_spec hnd part v
      exact ⟨s.precDone part v, (State.exec_prectl hp hf v).trans (congrArg Host.Outcome.next (State.prectl_of_none hh v h)),
        hg, hl, hm, hc, hq⟩
    · exact ⟨_, State.exec_resume hf v, (State.gangs_foldl_updLaunch _ _ _).1, fun k l h => State.resume_spec s part v h⟩
    · intro g u w hg hu hpt hi hfl
      refine ⟨State.exec_gangSave_running hg, fun hs hd => State.exec_gangSave_draining hg hs hu hd, fun hs hd hw hq => ?_,
        fun hs hd hw => ?_⟩
      · refine ⟨?_, fun _ hl => State.gang_saveAll hw hl⟩
        have h := State.exec_gangSave_saved hg hs hu hd hi hfl hw
        rw [hpt, hq] at h
        exact h
      · have h := State.exec_gangSave_noSlot hg hs hu hd hi hfl hw
        rw [hpt] at h
        exact h
    · intro b hb hk hc hsw hub hget a ha
      refine ⟨fun h => ?_, fun h => ?_⟩
      · rw [State.exec_gangRestore hb hk hc, State.restoreUnit_of_good hsw hub hget ha core h]
      · rw [State.exec_gangRestore hb hk hc, State.restoreUnit_of_bad hsw hub hget ha core h]
        exact ⟨_, rfl, State.frame_errRecord _ _ _ _ _ _ _ _ _ _ _ _⟩
  · intro q
    refine ⟨State.exec_fltnext_nil hp hf, fun v rest h => ?_, State.exec_engreq_nil hp hf, fun asid page rest h ha hpg => ?_,
      fun id b a l hb hh hv hl hpt h4 ha => ?_, fun w hw hk ha hpg hpt => ?_⟩
    · refine ⟨_, State.exec_fltnext_cons hp hf h, rfl, ?_, rfl, rfl, rfl⟩
      exact congrArg Part.announce (s.part_updPart part (fun q => { q with announce := rest }))
    · refine ⟨_, State.exec_engreq_cons hp hf h, ?_, ?_, ?_, rfl⟩
      · exact congrArg (BitVec.ofNat 64) (engValue_of_lt ha hpg)
      · rw [State.part_rdata]
        exact congrArg Part.engreq (s.part_updPart part (fun q => { q with engreq := rest, engAnnounced := q.engAnnounced ++ [(asid, page)] }))
      · rw [State.part_rdata]
        exact congrArg Part.engAnnounced (s.part_updPart part (fun q => { q with engreq := rest, engAnnounced := q.engAnnounced ++ [(asid, page)] }))
    · refine ⟨?_, ?_⟩
      · have e := (fltdone_of_block h4 ha (k := 0) (by decide) s part).trans (State.fltdoneBlock_of_held hb hh hv hl hpt _)
        refine ⟨_, (State.exec_fltdone hp hf _).trans (congrArg Host.Outcome.next e), ?_, rfl, ?_⟩
        · exact (Tab.get_set _ _ _ _).trans (if_pos rfl)
        · exact s.not_mem_announce_answered part a
      · have e := (fltdone_of_block h4 ha (k := 1) (by decide) s part).trans (State.fltdoneBlock_of_held hb hh hv hl hpt _)
        exact ⟨s.answered part a, (State.exec_fltdone hp hf _).trans (congrArg Host.Outcome.next e), rfl⟩
    · rw [← engValue_of_lt ha hpg]
      refine ⟨⟨_, (State.exec_engdone hp hf _).trans (congrArg Host.Outcome.next (State.engdone_of_hit hw hk hpt)), rfl, rfl, rfl⟩,
        fun v hv => (State.exec_engdone hp hf v).trans (congrArg Host.Outcome.next (State.engdone_of_other hw hv))⟩

end Sys2Proof.Machine
end

section
/-! SUPPORT. O46: protected ranges and their mirrors. -/

namespace Sys2Proof.Machine

/-! ## PRBASE and its checks -/

theorem fld_eq_extractLsb {w : Nat} (v : BitVec w) (lo len : Nat) : fld v.toNat lo len = (v.extractLsb' lo len).toNat := by
  rw [BitVec.extractLsb'_toNat, Nat.shiftRight_eq_div_pow]; rfl

theorem fld_and_of_ones {w : Nat} {v m : BitVec w} {lo len : Nat} (h : ∀ i, i < len → m.getLsbD (lo + i) = true) :
    fld (v &&& m).toNat lo len = fld v.toNat lo len := by
  rw [fld_eq_extractLsb, fld_eq_extractLsb]
  refine congrArg BitVec.toNat (BitVec.eq_of_getLsbD_eq fun i hi => ?_)
  simp only [BitVec.getLsbD_extractLsb', BitVec.getLsbD_and, h i hi, Bool.and_true]

theorem fld_prbase (v : W64) : fld (v &&& 0xFFC0000001#64).toNat 30 10 = fld v.toNat 30 10 :=
  fld_and_of_ones (by decide)

theorem getLsbD_prbase (v : W64) : (v &&& 0xFFC0000001#64).getLsbD 0 = v.getLsbD 0 := by
  rw [BitVec.getLsbD_and]; simp

/-- The registers of a block after a write of PRBASE. -/
def ProtRegs.based (p : ProtRegs) (v : W64) : ProtRegs := { p with base := v &&& 0xFFC0000001#64 }

theorem State.prbase_eq (s : State) (k : Nat) (v : W64) :
    s.prbase k v = if v.getLsbD 0 then (if (s.protReg k).en || !s.protFits k ((s.protReg k).based v) then s else s.setProt k ((s.protReg k).based v))
      else s.setProt k ((s.protReg k).based v) := by
  have hm : bitsOf 39 30 ||| 1 = 0xFFC0000001#64 := by decide
  simp only [State.prbase, hm, getLsbD_prbase]
  rfl

theorem overlap_iff {a n b m : Nat} : overlap a n b m = true ↔ a < b + m ∧ b < a + n := by simp [overlap]

section
variable {s : State} {k : Nat} {v : W64} (hk : k < 8) (hf : s.fw.recovery = false)
include hk hf

theorem State.exec_protEnable : exec (.protEnable k v) s = .next (s.prbase k v) := by
  have h : execProtEnable k v s = .next (s.prbase k v) := by simp [execProtEnable, hk, hf]
  exact h

end

section
variable {s : State} {k : Nat} (hlen : s.prot.length = 8)
include hlen

theorem State.getElem?_prot {j : Nat} (hj : j < 8) : s.prot[j]? = some (s.protReg j) := by
  rw [State.protReg, List.getD_eq_getElem?_getD, List.getElem?_eq_getElem (hlen ▸ hj)]; rfl

/-- Whether a range or its mirror meets that of another block. -/
def ProtRegs.meets (p q : ProtRegs) : Bool :=
  overlap p.lo p.gib q.lo q.gib || overlap p.lo p.gib q.mlo q.gib || overlap p.mlo p.gib q.lo q.gib || overlap p.mlo p.gib q.mlo q.gib

theorem State.protFits_iff (p : ProtRegs) : s.protFits k p = true ↔
    (1 ≤ p.gib ∧ p.gib ≤ 288 ∧ p.lo + p.gib ≤ 576 ∧ p.mlo + p.gib ≤ 576 ∧ overlap p.lo p.gib p.mlo p.gib = false) ∧
    ∀ j, j < 8 → j ≠ k → (s.protReg j).en = true → p.meets (s.protReg j) = false := by
  simp only [State.protFits, Bool.and_eq_true, decide_eq_true_eq, Bool.not_eq_true', and_assoc, List.all_eq_true, List.mem_filter,
    List.mem_range, bne_iff_ne, and_imp]
  refine and_congr_right fun _ => and_congr_right fun _ => and_congr_right fun _ => and_congr_right fun _ => and_congr_right fun _ => ?_
  refine forall_congr' fun j => forall_congr' fun hj => forall_congr' fun _ => ?_
  rw [State.getElem?_prot hlen hj]
  cases h : (s.protReg j).en <;> simp [ProtRegs.meets, h]

end

/-! ## The copy into the mirror -/

theorem fld_or_of_zeros {w : Nat} {v m : BitVec w} {lo len : Nat} (h : ∀ i, i < len → m.getLsbD (lo + i) = false) :
    fld (v ||| m).toNat lo len = fld v.toNat lo len := by
  rw [fld_eq_extractLsb, fld_eq_extractLsb]
  refine congrArg BitVec.toNat (BitVec.eq_of_getLsbD_eq fun i hi => ?_)
  simp only [BitVec.getLsbD_extractLsb', BitVec.getLsbD_or, h i hi, Bool.or_false]

/-- The lowest bits exchanged by a XOR leave the GiB of an offset. -/
theorem xor_lt_gib {x n : Nat} (h : x < n * 2 ^ 30) : Nat.xor x 0x1000 < n * 2 ^ 30 := by
  have hd : (x ^^^ 0x1000) / 2 ^ 30 = x / 2 ^ 30 := by
    rw [Nat.xor_div_two_pow, show 0x1000 / 2 ^ 30 = 0 from by decide, Nat.xor_zero]
  exact (Nat.div_lt_iff_lt_mul (by decide)).mp (hd ▸ (Nat.div_lt_iff_lt_mul (by decide)).mpr h)

section
variable (p : ProtRegs) {o o' : Nat}

theorem ProtRegs.mirror_mem (h1 : p.lo * 2 ^ 30 ≤ o) (h2 : o < p.lo * 2 ^ 30 + p.gib * 2 ^ 30) :
    p.mlo * 2 ^ 30 ≤ p.mirror o ∧ p.mirror o < p.mlo * 2 ^ 30 + p.gib * 2 ^ 30 := by
  have h := xor_lt_gib (x := o - p.lo * 2 ^ 30) (n := p.gib) (by omega)
  exact ⟨Nat.le_add_right _ _, Nat.add_lt_add_left h _⟩

theorem ProtRegs.mirror_inj (h1 : p.lo * 2 ^ 30 ≤ o) (h2 : p.lo * 2 ^ 30 ≤ o') (h : p.mirror o = p.mirror o') : o = o' := by
  have hx : (o - p.lo * 2 ^ 30) ^^^ 0x1000 = (o' - p.lo * 2 ^ 30) ^^^ 0x1000 := Nat.add_left_cancel h
  have := Nat.xor_left_inj.mp hx
  omega

end

theorem Cells.get_of_mem {w : Nat} {m : Cells w} (hm : Tab.Rising m) {e : Nat × BitVec w} (he : e ∈ m) : Cells.get m e.1 = e.2 := by
  induction m with
  | nil => cases he
  | cons x xs ih =>
    obtain ⟨hx, hxs⟩ := List.pairwise_cons.mp hm
    unfold Cells.get
    rcases List.mem_cons.mp he with rfl | he
    · exact if_pos rfl
    · rw [if_neg (Nat.ne_of_lt (hx _ (List.mem_map_of_mem he)))]
      exact ih hxs he

theorem Cells.get_of_not_mem {w : Nat} {m : Cells w} {a : Nat} (h : ∀ e ∈ m, e.1 ≠ a) : Cells.get m a = 0 := by
  induction m with
  | nil => rfl
  | cons x xs ih =>
    unfold Cells.get
    rw [if_neg (h x List.mem_cons_self)]
    exact ih fun e he => h e (List.mem_cons_of_mem _ he)

theorem nodup_keys_map {β : Type} {l : List (Nat × β)} (hl : l.Nodup) (f : Nat → Nat) (hf : ∀ x ∈ l, ∀ y ∈ l, f x.1 = f y.1 → x = y) :
    ((l.map (fun c => (f c.1, c.2))).map Prod.fst).Nodup := by
  rw [List.map_map]
  exact (List.nodup_map_iff_inj_on hl).mpr hf

/-- The bytes of a range. -/
def ProtRegs.inside (p : ProtRegs) (m : Cells 8) : Cells 8 :=
  m.filter (fun c => decide (p.lo * 2 ^ 30 ≤ c.1) && decide (c.1 < p.lo * 2 ^ 30 + p.gib * 2 ^ 30))

/-- The bytes of a range at their mirror places. -/
def ProtRegs.copied (p : ProtRegs) (m : Cells 8) : Cells 8 :=
  (p.inside m).foldl (fun m c => Cells.set m (p.mirror c.1) c.2) (Cells.clear m (p.mlo * 2 ^ 30) (p.mlo * 2 ^ 30 + p.gib * 2 ^ 30))

/-- The bytes of a range, each with its mirror place. -/
def ProtRegs.moved (p : ProtRegs) (m : Cells 8) : List (Nat × Byte) :=
  (p.inside m).map (fun c => (p.mirror c.1, c.2))

section
variable (p : ProtRegs) {m : Cells 8}

theorem ProtRegs.copied_eq : p.copied m =
    (p.moved m).foldl (fun m e => Cells.set m e.1 (id e.2)) (Cells.clear m (p.mlo * 2 ^ 30) (p.mlo * 2 ^ 30 + p.gib * 2 ^ 30)) := by
  rw [ProtRegs.moved, List.foldl_map]; rfl

theorem ProtRegs.mem_inside {e : Nat × Byte} : e ∈ p.inside m ↔ e ∈ m ∧ p.lo * 2 ^ 30 ≤ e.1 ∧ e.1 < p.lo * 2 ^ 30 + p.gib * 2 ^ 30 := by
  simp only [ProtRegs.inside, List.mem_filter, Bool.and_eq_true, decide_eq_true_eq]

theorem ProtRegs.mem_moved {e : Nat × Byte} : e ∈ p.moved m ↔
    ∃ c ∈ m, (p.lo * 2 ^ 30 ≤ c.1 ∧ c.1 < p.lo * 2 ^ 30 + p.gib * 2 ^ 30) ∧ (p.mirror c.1, c.2) = e := by
  simp only [ProtRegs.moved, List.mem_map, p.mem_inside, and_assoc]

variable (hm : Cells.wf m = true)
include hm

theorem ProtRegs.nodup_moved : ((p.moved m).map Prod.fst).Nodup := by
  have hr : (m.map Prod.fst).Nodup := (Cells.rising_of_wf hm).imp Nat.ne_of_lt
  have hn : m.Nodup := hr.of_map _
  refine nodup_keys_map (hn.filter _) p.mirror fun x hx y hy hxy => ?_
  obtain ⟨hxm, hxl, -⟩ := p.mem_inside.mp hx
  obtain ⟨hym, hyl, -⟩ := p.mem_inside.mp hy
  exact List.inj_on_of_nodup_map hr hxm hym (p.mirror_inj hxl hyl hxy)

theorem ProtRegs.get_copied_in {o : Nat} (h1 : p.lo * 2 ^ 30 ≤ o) (h2 : o < p.lo * 2 ^ 30 + p.gib * 2 ^ 30) :
    Cells.get (p.copied m) (p.mirror o) = Cells.get m o := by
  rw [p.copied_eq]
  by_cases h : ∃ e ∈ m, e.1 = o
  · obtain ⟨e, he, rfl⟩ := h
    rw [Cells.get_of_mem (Cells.rising_of_wf hm) he]
    exact Cells.get_foldl_set_of_mem id (p.nodup_moved hm) (p.mem_moved.mpr ⟨e, he, ⟨h1, h2⟩, rfl⟩) _
  · have h0 : ∀ e ∈ m, e.1 ≠ o := fun e he hc => h ⟨e, he, hc⟩
    rw [Cells.get_of_not_mem h0, Cells.get_foldl_set_of_not_mem, Cells.get_clear, if_pos (p.mirror_mem h1 h2)]
    intro hmem
    obtain ⟨e, he, heo⟩ := List.mem_map.mp hmem
    obtain ⟨c, hc, ⟨hc1, -⟩, rfl⟩ := p.mem_moved.mp he
    exact h0 c hc (p.mirror_inj hc1 h1 heo)

omit hm in
theorem ProtRegs.get_copied_out {o : Nat} (h : o < p.mlo * 2 ^ 30 ∨ p.mlo * 2 ^ 30 + p.gib * 2 ^ 30 ≤ o) :
    Cells.get (p.copied m) o = Cells.get m o := by
  rw [p.copied_eq, Cells.get_foldl_set_of_not_mem, Cells.get_clear, if_neg (by omega)]
  intro hmem
  obtain ⟨e, he, heo⟩ := List.mem_map.mp hmem
  obtain ⟨c, hc, ⟨hc1, hc2⟩, rfl⟩ := p.mem_moved.mp he
  have := p.mirror_mem hc1 hc2
  have heo' : p.mirror c.1 = o := heo
  omega

end

/-! ## PROT_MIRROR_READY -/

theorem State.frame_foldl_slices {α : Type} (f : State → α → State) (hf : ∀ (s : State) (a : α), f s a = { s with slices := (f s a).slices }) (xs : List α)
    (s : State) : xs.foldl f s = { s with slices := (xs.foldl f s).slices } := by
  induction xs generalizing s with
  | nil => rfl
  | cons x xs ih => rw [List.foldl_cons, ih, hf s x]

theorem State.frame_mirrorTs (s : State) (p : ProtRegs) (inR : Nat → Bool) : s.mirrorTs p inR = { s with slices := (s.mirrorTs p inR).slices } := by
  unfold State.mirrorTs
  refine State.frame_foldl_slices _ (fun s n => ?_) _ _
  refine (State.frame_foldl_slices _ (fun s e => ?_) _ _).trans rfl
  split <;> rfl

theorem execProtMirrorReady_eq (k : Nat) (s : State) : ∃ (t : State) (inR : Nat → Bool),
    execProtMirrorReady k s = .next (if 8 ≤ k || !(s.protReg k).en || (s.protReg k).base.getLsbD 1 then s
      else (t.mirrorTs (s.protReg k) inR).setProt k { s.protReg k with base := (s.protReg k).base ||| 2 }) ∧
    t.mem = (s.protReg k).copied s.mem ∧ t.crews = s.crews ∧ t.prot = s.prot :=
  ⟨_, _, rfl, rfl, rfl, rfl⟩

theorem State.crews_setProt (s : State) (k : Nat) (p : ProtRegs) : (s.setProt k p).crews = s.crews := rfl

theorem State.crews_mirrorTs (s : State) (p : ProtRegs) (inR : Nat → Bool) : (s.mirrorTs p inR).crews = s.crews := by
  rw [State.frame_mirrorTs]

theorem State.mem_setProt (s : State) (k : Nat) (p : ProtRegs) : (s.setProt k p).mem = s.mem := rfl

theorem State.mem_mirrorTs (s : State) (p : ProtRegs) (inR : Nat → Bool) : (s.mirrorTs p inR).mem = s.mem := by
  rw [State.frame_mirrorTs]

theorem State.prot_mirrorTs (s : State) (p : ProtRegs) (inR : Nat → Bool) : (s.mirrorTs p inR).prot = s.prot := by
  rw [State.frame_mirrorTs]

theorem State.protReg_setProt {s : State} {k : Nat} (hk : k < s.prot.length) (p : ProtRegs) : (s.setProt k p).protReg k = p := by
  simp [State.protReg, State.setProt, List.getD_eq_getElem?_getD, hk]

/-- Settles O46: PRBASE enables exactly the blocks that fit beside the others, and the copy fills the mirror. -/
theorem protectedRanges : Obligations.ProtectedRanges := by
  unfold Obligations.ProtectedRanges
  intro s k v hk hlen hf hwf p lo n m a
  have hex : exec (.protEnable k v) s = .next (s.prbase k v) := State.exec_protEnable hk hf
  have hb := s.prbase_eq k v
  have hlo : (p.based v).lo = a := fld_prbase v
  refine ⟨fun hv hp => ?_, fun hv j q hjk hj hq hen hov => ?_, fun hv hoff h1 hn ha hm hdis => ?_, fun hv => ?_, fun h => ?_, fun hen hrdy => ?_⟩
  · have hpen : (s.protReg k).en = true := hp
    rw [hex, hb, if_pos hv, hpen, if_pos (Bool.true_or _)]
  · have hno : s.protFits k (p.based v) = false := by
      refine Bool.eq_false_iff.mpr fun hfit => ?_
      have hmeet := ((State.protFits_iff hlen (p.based v)).mp hfit).2 j hj hjk (by rw [hq]; exact hen)
      rw [hq] at hmeet
      refine Bool.eq_false_iff.mp hmeet ?_
      simp only [ProtRegs.meets, Bool.or_eq_true, overlap_iff, hlo, or_assoc]
      exact hov
    have hno' : s.protFits k ((s.protReg k).based v) = false := hno
    rw [hex, hb, if_pos hv, hno', if_pos (by simp)]
  · have hfit : s.protFits k ((s.protReg k).based v) = true := by
      refine (State.protFits_iff hlen _).mpr ⟨⟨h1, hn, hlo ▸ ha, hm, ?_⟩, fun j hj _ hen => ?_⟩
      · refine Bool.eq_false_iff.mpr fun ho => ?_
        have ho' : (p.based v).lo < m + n ∧ m < (p.based v).lo + n := overlap_iff.mp ho
        rw [hlo] at ho'
        omega
      · exact absurd hen (by rw [ProtRegs.en, hoff j hj]; decide)
    have hpen : (s.protReg k).en = false := hoff k hk
    rw [hex, hb, if_pos hv, hfit, hpen, if_neg (by decide)]
    rfl
  · rw [hex, hb, hv]
    rfl
  · obtain ⟨t, inR, h', -⟩ := execProtMirrorReady_eq k s
    have hc : (8 ≤ k || !(s.protReg k).en || (s.protReg k).base.getLsbD 1) = true := by
      rcases h with h | h
      · have h0 : (s.protReg k).en = false := h
        rw [h0]; simp
      · have h1 : (s.protReg k).base.getLsbD 1 = true := h
        rw [h1]; simp
    rw [if_pos hc] at h'
    exact h'
  · obtain ⟨t, inR, h', hmem, hcrews, hprot⟩ := execProtMirrorReady_eq k s
    have hc : ¬ (8 ≤ k || !(s.protReg k).en || (s.protReg k).base.getLsbD 1) = true := by
      have h0 : (s.protReg k).en = true := hen
      have h1 : (s.protReg k).base.getLsbD 1 = false := hrdy
      rw [h0, h1]; simp [hk]
    rw [if_neg hc] at h'
    refine ⟨_, h', ?_, ?_, ?_, ?_⟩
    · exact State.protReg_setProt (by rw [State.prot_mirrorTs, hprot, hlen]; exact hk) _
    · intro o h1 h2
      have hm : m * 2 ^ 30 + Nat.xor (o - lo) 0x1000 = p.mirror o := rfl
      rw [hm]
      have hlo : lo = p.lo * 2 ^ 30 := rfl
      have hn : n = p.gib := rfl
      rw [hlo] at h1 h2
      rw [hn] at h2
      have hget : Cells.get (p.copied s.mem) (p.mirror o) = Cells.get s.mem o := p.get_copied_in hwf h1 h2
      rw [← hget, State.mem_setProt, State.mem_mirrorTs, hmem]
    · intro o ho
      rw [Nat.add_mul] at ho
      have hget : Cells.get (p.copied s.mem) o = Cells.get s.mem o := p.get_copied_out ho
      rw [← hget, State.mem_setProt, State.mem_mirrorTs, hmem]
    · rw [State.crews_setProt, State.crews_mirrorTs, hcrews]

end Sys2Proof.Machine
end

section
/-! SUPPORT. O50: power, thermal limits, hot cores and telemetry. -/

namespace Sys2Proof.Machine

/-! ## The duties of an interval -/

/-- The cores with the duties that a function gives. -/
def State.dutied (s : State) (f : Nat → Nat × Nat) (cs : List Nat) : State :=
  (cs.map (fun c => (c, f c))).foldl (fun s e => if (s.core e.1).duty = e.2.1 then s else s.updCore e.1 (fun k => { k with duty := e.2.1 })) s

theorem State.duty_dutied (f : Nat → Nat × Nat) (j : Nat) (cs : List Nat) (s : State) :
    ((s.dutied f cs).core j).duty = if j ∈ cs then (f j).1 else (s.core j).duty := by
  unfold State.dutied
  induction cs generalizing s with
  | nil => simp
  | cons c cs ih =>
    rw [List.map_cons, List.foldl_cons, ih]
    by_cases hj : j ∈ cs
    · simp [hj]
    · rcases eq_or_ne j c with rfl | hne
      · rw [if_neg hj, if_pos List.mem_cons_self]
        by_cases hd : (s.core j).duty = (f j).1
        · rw [if_pos hd, hd]
        · rw [if_neg hd, State.core_updCore, if_pos rfl]
      · rw [if_neg hj, if_neg (show j ∉ c :: cs from fun h => hj ((List.mem_cons.mp h).resolve_left hne))]
        split
        · rfl
        · rw [State.core_updCore, if_neg hne]

theorem State.frame_dutied (f : Nat → Nat × Nat) (cs : List Nat) (s : State) : s.dutied f cs = { s with cores := (s.dutied f cs).cores } := by
  unfold State.dutied
  induction cs generalizing s with
  | nil => rfl
  | cons c cs ih =>
    rw [List.map_cons, List.foldl_cons]
    split
    · exact ih s
    · rw [ih]; rfl

/-- The sensors of the dies at an interval. -/
def State.dieTemps (s : State) (ts : List Int) : List Int := (List.range 6).map (fun d => ts.getD d (s.pwr.tempd.getD d 0))

/-- Whether an interval left a core below its request. -/
def capped (ds : List (Nat × Nat)) (duties : List (Nat × Nat × Nat)) : Bool :=
  duties.any (fun e => decide (e.2.1 < dutyRequest (ds.getD e.1 (0, 64)).2))

/-- The limiting of each die after an interval with the sensors `td`. -/
def State.intervalTherm (s : State) (td : List Int) (duties : List (Nat × Nat × Nat)) : List Bool :=
  (List.range 6).map (fun d => decide (celsius 100 ≤ td.getD d 0) || (s.pwr.therm.getD d false &&
    (decide (celsius 97 ≤ td.getD d 0) || duties.any (fun e => coreDie e.1 == d && decide (e.2.1 < e.2.2)))))

/-- The state after an interval with the grant `g`. -/
def State.interval (s : State) (v0 v1 vh vm g : Nat) (ds : List (Nat × Nat)) (ts : List Int) (cs : List Nat) : State :=
  let td := s.dieTemps ts
  let f := s.newDuty g ds td
  let t := s.dutied f cs
  let duties := cs.map (fun c => (c, f c))
  { t with
    svc := { t.svc with
      pcap := s.svc.pcapNew
      pwrst := pwrstOf (capped ds duties) ((s.intervalTherm td duties).any id) t.pwr.degraded }
    pwr := { t.pwr with
      rails := [v0, v1, vh, vm], pkgpwr := v0 + v1 + vh + vm, tempd := td
      tempm := (List.range 12).map (fun k => ts.getD (6 + k) (s.pwr.tempm.getD k 0))
      therm := s.intervalTherm td duties
      capcnt := if capped ds duties then t.pwr.capcnt + 1 else t.pwr.capcnt } }

theorem execPowerInterval_eq (v0 v1 vh vm : Nat) (ds : List (Nat × Nat)) (ts : List Int) (s : State) :
    execPowerInterval v0 v1 vh vm ds ts s = .next (s.interval v0 v1 vh vm (coreGrant (s.svc.pcapNew.toNat * 1000 - (vh + vm) - 40000)
      (((List.range 512).map (fun c => (ds.getD c (0, 64)).1)).foldl (· + ·) 0)) ds ts (List.range 512)) := by
  unfold execPowerInterval
  generalize List.range 512 = cs
  rfl

theorem State.dieTemps_lt {s : State} {ts : List Int} (hl : ts.length = 18) (h : ∀ t ∈ ts, t < 1552) (d : Nat) :
    (s.dieTemps ts).getD d 0 < 1552 := by
  unfold State.dieTemps
  by_cases hd : d < 6
  · rw [getD_map_range _ _ hd, List.getD_eq_getElem _ _ (by omega)]
    exact h _ (List.getElem_mem _)
  · rw [List.getD_eq_default _ _ (by simpa using hd)]
    decide

theorem getD_replicate_false (n d : Nat) : (List.replicate n false).getD d false = false := by
  rw [List.getD_eq_getElem?_getD, List.getElem?_replicate]
  split <;> rfl

theorem limitedDuty_of_cool {temp : Int} (h : temp < 1552) (prev grant : Nat) : limitedDuty false temp prev grant = grant := by
  have hn : ¬ celsius 100 ≤ temp := by simp only [celsius]; omega
  simp [limitedDuty, hn]

theorem State.newDuty_of_cool {s : State} (hth : s.pwr.therm = List.replicate 6 false) {temps : List Int} (ht : ∀ d, temps.getD d 0 < 1552)
    (g : Nat) (ds : List (Nat × Nat)) (c : Nat) : (s.newDuty g ds temps c).1 = min g (dutyRequest (ds.getD c (0, 64)).2) := by
  have hf : s.pwr.therm.getD (coreDie c) false = false := by rw [hth]; exact getD_replicate_false _ _
  simp only [State.newDuty, hf]
  exact limitedDuty_of_cool (ht _) _ _

theorem State.intervalTherm_of_cool {s : State} (hth : s.pwr.therm = List.replicate 6 false) {td : List Int} (ht : ∀ d, td.getD d 0 < 1552)
    (duties : List (Nat × Nat × Nat)) : s.intervalTherm td duties = List.replicate 6 false := by
  unfold State.intervalTherm
  refine List.eq_replicate_iff.mpr ⟨by simp, fun b hb => ?_⟩
  obtain ⟨d, -, rfl⟩ := List.mem_map.mp hb
  have h100 : ¬ celsius 100 ≤ td.getD d 0 := by have := ht d; simp only [celsius]; omega
  rw [hth, getD_replicate_false, decide_eq_false h100, Bool.false_and, Bool.or_false]

theorem State.frame_interval (s : State) (v0 v1 vh vm g : Nat) (ds : List (Nat × Nat)) (ts : List Int) (cs : List Nat) :
    (s.interval v0 v1 vh vm g ds ts cs).svc.pcap = s.svc.pcapNew ∧
    (s.interval v0 v1 vh vm g ds ts cs).pwr = { s.pwr with
      rails := [v0, v1, vh, vm], pkgpwr := v0 + v1 + vh + vm, tempd := s.dieTemps ts
      tempm := (s.interval v0 v1 vh vm g ds ts cs).pwr.tempm
      therm := s.intervalTherm (s.dieTemps ts) (cs.map (fun c => (c, s.newDuty g ds (s.dieTemps ts) c)))
      capcnt := (s.interval v0 v1 vh vm g ds ts cs).pwr.capcnt } ∧
    (s.interval v0 v1 vh vm g ds ts cs).mem = s.mem ∧ (s.interval v0 v1 vh vm g ds ts cs).crews = s.crews := by
  have h := State.frame_dutied (s.newDuty g ds (s.dieTemps ts)) cs s
  have hp : (s.dutied (s.newDuty g ds (s.dieTemps ts)) cs).pwr = s.pwr := by rw [h]
  have hm : (s.dutied (s.newDuty g ds (s.dieTemps ts)) cs).mem = s.mem := by rw [h]
  have hc : (s.dutied (s.newDuty g ds (s.dieTemps ts)) cs).crews = s.crews := by rw [h]
  exact ⟨rfl, by rw [← hp]; rfl, hm, hc⟩

/-! ## Thermal limits -/

theorem execThermalLimit_of_lt {temp : Int} (h : temp < 1600) (die : Nat) (s : State) : execThermalLimit die temp s = .next s := by
  have hc : temp < celsius 100 := h
  simp [execThermalLimit, hc]

/-- The cores of a die at half their duties. -/
def State.halved (s : State) (cs : List Nat) : State :=
  cs.foldl (fun s c => s.updCore c (fun k => { k with duty := max 8 (k.duty / 2) })) s

theorem State.core_halved (j : Nat) {cs : List Nat} (hnd : cs.Nodup) (s : State) :
    (s.halved cs).core j = if j ∈ cs then { s.core j with duty := max 8 ((s.core j).duty / 2) } else s.core j := by
  unfold State.halved
  induction cs generalizing s with
  | nil => rfl
  | cons c cs ih =>
    obtain ⟨hc, hcs⟩ := List.nodup_cons.mp hnd
    rw [List.foldl_cons, ih hcs, State.core_updCore]
    rcases eq_or_ne j c with rfl | hne
    · simp [hc]
    · simp [hne]

theorem State.frame_halved (cs : List Nat) (s : State) : s.halved cs = { s with cores := (s.halved cs).cores } := by
  unfold State.halved
  induction cs generalizing s with
  | nil => rfl
  | cons c cs ih => rw [List.foldl_cons, ih]; rfl

/-- The cores when a die reaches its limit: halved where it was not limiting. -/
def State.limited (s : State) (die : Nat) : State :=
  if s.pwr.therm.getD die false then s else s.halved ((List.range 512).filter (fun c => coreDie c == die))

theorem State.frame_limited (s : State) (die : Nat) : s.limited die = { s with cores := (s.limited die).cores } := by
  unfold State.limited
  split
  · rfl
  · exact s.frame_halved _

theorem State.duty_limited (s : State) (die : Nat) {core : Nat} (hc : core < 512) :
    ((s.limited die).core core).duty =
      if coreDie core = die ∧ s.pwr.therm.getD die false = false then max 8 ((s.core core).duty / 2) else (s.core core).duty := by
  unfold State.limited
  cases ht : s.pwr.therm.getD die false with
  | true => simp
  | false =>
    rw [if_neg (by decide), State.core_halved _ (List.nodup_range.filter _)]
    by_cases hd : coreDie core = die
    · have hm : core ∈ (List.range 512).filter (fun c => coreDie c == die) := List.mem_filter.mpr ⟨List.mem_range.mpr hc, by simp [hd]⟩
      rw [if_pos hm, if_pos ⟨hd, rfl⟩]
    · have hm : core ∉ (List.range 512).filter (fun c => coreDie c == die) := fun h => hd (by simpa using (List.mem_filter.mp h).2)
      rw [if_neg hm, if_neg (fun h => hd h.1)]

theorem execThermalLimit_of_le {temp : Int} (h : 1600 ≤ temp) {die : Nat} (hd : die < 2) (s : State) : execThermalLimit die temp s =
    .next { s.limited die with
      pwr := { (s.limited die).pwr with therm := (s.limited die).pwr.therm.set die true, tempd := (s.limited die).pwr.tempd.set die temp }
      svc := { (s.limited die).svc with pwrst := (s.limited die).svc.pwrst ||| 2 } } := by
  have hc : ¬ (decide (6 ≤ die) || decide (temp < celsius 100)) = true := by
    have h1 : ¬ 6 ≤ die := by omega
    have h2 : ¬ temp < celsius 100 := by simp only [celsius]; omega
    simp [h1, h2]
  exact congrArg Host.Outcome.next (if_neg hc)

/-! ## Hot cores -/

theorem CoreSt.judge_hot (k : CoreSt) (now : Nat) : (k.judge now).hot =
    (k.hot || decide (1520 ≤ k.temp) || decide (4 ≤ (k.droops.filter (fun t => decide (now ≤ t + 270000))).length)) := rfl

theorem execCoreHot_eq {core : Nat} (hc : core < 512) (temp : Int) (s : State) :
    execCoreHot core temp s = .next (s.updCore core (fun k => (k.sense s.now temp).judge s.now)) :=
  congrArg Host.Outcome.next (if_neg (Nat.not_le.mpr hc))

/-- A core that has met a droop. -/
def CoreSt.drooped (k : CoreSt) (now : Nat) : CoreSt := ({ k with droops := now :: k.recent now, coolSince := now }).judge now

theorem execDroopEvent_eq {core : Nat} (hc : core < 512) (s : State) :
    execDroopEvent core s = .next { s.updCore core (fun k => k.drooped s.now) with pwr := { s.pwr with droop := s.pwr.droop + 1 } } :=
  congrArg Host.Outcome.next (if_neg (Nat.not_le.mpr hc))

theorem CoreSt.drooped_hot {k : CoreSt} {now : Nat} (h : 3 ≤ (k.droops.filter (fun t => decide (now ≤ t + 270000))).length) :
    (k.drooped now).hot = true := by
  have hr : (now :: k.recent now).filter (fun t => decide (now ≤ t + 270000)) = now :: k.recent now := by
    refine List.filter_eq_self.mpr fun t ht => ?_
    rcases List.mem_cons.mp ht with rfl | ht
    · simp
    · exact (List.mem_filter.mp ht).2
  have hl : 4 ≤ (now :: k.recent now).length := Nat.succ_le_succ h
  rw [CoreSt.drooped, CoreSt.judge_hot, hr, decide_eq_true hl, Bool.or_true]

/-- A core's sensor read below 89 °C. -/
def CoreSt.cooled (k : CoreSt) (now : Nat) (temp : Int) : CoreSt :=
  if (k.sense now temp).coolSince + usCycles 2000 ≤ now then { k.sense now temp with hot := false } else k.sense now temp

theorem execCoreCool_eq {core : Nat} (hc : core < 512) {temp : Int} (h : temp < 1424) (s : State) :
    execCoreCool core temp s = .next (s.updCore core (fun k => k.cooled s.now temp)) := by
  have hn : ¬ celsius 89 ≤ temp := by simp only [celsius]; omega
  refine congrArg Host.Outcome.next ((if_neg (Nat.not_le.mpr hc)).trans ?_)
  simp only [hn, if_false]
  rfl

theorem CoreSt.cooled_spec {k : CoreSt} {temp : Int} (h : temp < 1424) (hk : k.temp < 1424) (now : Nat) :
    (k.cooled now temp).hot = (k.hot && decide (now < k.coolSince + 5400000)) ∧ (k.cooled now temp).temp = temp := by
  have h1 : ¬ celsius 89 ≤ temp := by simp only [celsius]; omega
  have h2 : ¬ celsius 89 ≤ k.temp := by simp only [celsius]; omega
  have hs : k.sense now temp = { k with temp := temp } := by simp [CoreSt.sense, h1, h2]
  have hu : usCycles 2000 = 5400000 := by decide
  rw [CoreSt.cooled, hs, hu]
  split
  · next hle => exact ⟨by rw [decide_eq_false (Nat.not_lt.mpr hle), Bool.and_false], rfl⟩
  · next hle => exact ⟨by rw [decide_eq_true (Nat.not_le.mp hle), Bool.and_true], rfl⟩

/-! ## Telemetry -/

theorem coreBits_eq (w : Nat) (f : Nat → Bool) : coreBits w f = missingBits (fun k => !f (64 * w + k)) 64 := by
  unfold coreBits missingBits
  refine congrArg (fun g => (List.range 64).foldl g 0) (funext fun m => funext fun e => ?_)
  cases h : f (64 * w + e) <;> simp [h]

theorem getLsbD_coreBits (f : Nat → Bool) (core : Nat) : (BitVec.ofNat 64 (coreBits (core / 64) f)).getLsbD (core % 64) = f core := by
  have h : core % 64 < 64 := Nat.mod_lt _ (by decide)
  have hc : 64 * (core / 64) + core % 64 = core := Nat.div_add_mod _ _
  rw [BitVec.getLsbD_ofNat, coreBits_eq, testBit_missingBits, hc]
  simp [h]

theorem execTlmloRead_eq (s : State) : execTlmloRead s = .next { s with
    svc := { s.svc with latch := s.tlmItem (s.svc.tlmidx.toNat % 65536) }
    rdata := BitVec.ofNat 64 (fld (s.tlmItem (s.svc.tlmidx.toNat % 65536)).toNat 0 32) } := by
  have h : fld s.svc.tlmidx.toNat 0 16 = s.svc.tlmidx.toNat % 65536 := by simp [fld]
  simp only [execTlmloRead, h]

theorem latched_low (x : W64) : (BitVec.ofNat 64 (fld x.toNat 0 32)).toNat = x.toNat % 2 ^ 32 := by
  simp [fld]
  omega

section
variable (s : State)

theorem State.tlmItem_hot {w : Nat} (hw : w < 8) : s.tlmItem (0x40 + w) = BitVec.ofNat 64 (coreBits w (fun c => (s.core c).hot)) := by
  have h : 0x40 + w ≠ 0 ∧ 0x40 + w ≠ 1 ∧ 0x40 + w ≠ 2 ∧ 0x40 + w ≠ 3 ∧ ¬ (0x10 ≤ 0x40 + w ∧ 0x40 + w ≤ 0x15) ∧
      ¬ (0x18 ≤ 0x40 + w ∧ 0x40 + w ≤ 0x23) ∧ (0x40 ≤ 0x40 + w ∧ 0x40 + w ≤ 0x47) := by omega
  obtain ⟨h0, h1, h2, h3, h4, h5, h6⟩ := h
  unfold State.tlmItem
  dsimp only
  rw [if_neg h0, if_neg h1, if_neg h2, if_neg h3, if_neg h4, if_neg h5, if_pos h6, Nat.add_sub_cancel_left]

theorem State.tlmItem_oos {w : Nat} (hw : w < 8) : s.tlmItem (0x48 + w) = BitVec.ofNat 64 (coreBits w (fun c => (s.core c).oos)) := by
  have h : 0x48 + w ≠ 0 ∧ 0x48 + w ≠ 1 ∧ 0x48 + w ≠ 2 ∧ 0x48 + w ≠ 3 ∧ ¬ (0x10 ≤ 0x48 + w ∧ 0x48 + w ≤ 0x15) ∧
      ¬ (0x18 ≤ 0x48 + w ∧ 0x48 + w ≤ 0x23) ∧ ¬ (0x40 ≤ 0x48 + w ∧ 0x48 + w ≤ 0x47) ∧ (0x48 ≤ 0x48 + w ∧ 0x48 + w ≤ 0x4F) := by omega
  obtain ⟨h0, h1, h2, h3, h4, h5, h6, h7⟩ := h
  unfold State.tlmItem
  dsimp only
  rw [if_neg h0, if_neg h1, if_neg h2, if_neg h3, if_neg h4, if_neg h5, if_neg h6, if_pos h7, Nat.add_sub_cancel_left]

theorem State.tlmItem_counts : s.tlmItem 0 = BitVec.ofNat 64 s.pwr.pkgpwr ∧ s.tlmItem 2 = s.pwr.capcnt ∧ s.tlmItem 3 = s.pwr.tripcnt ∧
    s.tlmItem 0x50 = s.pwr.droop ∧ s.tlmItem 0x61 = s.pwr.retrain ∧ s.tlmItem 0x7F = 0 := by
  simp [State.tlmItem]

end

/-! ## The obligation -/

/-- Settles O50: an interval's grants and records, the thermal limit of a die, hot and cool cores, and the items of telemetry. -/
theorem powerAndTelemetry : Obligations.PowerAndTelemetry := by
  unfold Obligations.PowerAndTelemetry
  intro s core hc k
  refine ⟨?_, fun v => ?_, fun die temp hd hlen => ⟨fun h => execThermalLimit_of_lt h die s, fun h => ?_⟩, fun temp => ?_, ?_,
    fun temp h hk => ?_, ?_⟩
  · intro v0 v1 vh vm ds hth _ ts hl hts req draw budget
    have ht := State.dieTemps_lt (s := s) hl hts
    have he := execPowerInterval_eq v0 v1 vh vm ds ts s
    have hb : s.svc.pcapNew.toNat * 1000 - (vh + vm) - 40000 = budget := rfl
    have hd : ((List.range 512).map (fun c => (ds.getD c (0, 64)).1)).foldl (· + ·) 0 = draw := rfl
    rw [hb, hd] at he
    clear_value budget draw
    have hmem : core ∈ List.range 512 := List.mem_range.mpr hc
    revert hmem he
    generalize List.range 512 = cs
    intro he hcs
    obtain ⟨hsvc, hpwr, hmem, hcrews⟩ := s.frame_interval v0 v1 vh vm (coreGrant budget draw) ds ts cs
    refine ⟨_, he, hsvc, congrArg Pwr.pkgpwr hpwr, congrArg Pwr.rails hpwr, ?_, (congrArg Pwr.therm hpwr).trans ?_, hmem, hcrews⟩
    · refine (State.duty_dutied _ core cs s).trans ?_
      rw [if_pos hcs]
      exact State.newDuty_of_cool hth ht _ ds core
    · exact State.intervalTherm_of_cool hth ht _
  · exact congrArg Host.Outcome.next rfl
  · have hf := s.frame_limited die
    have hp : (s.limited die).pwr = s.pwr := by rw [hf]
    have hm : (s.limited die).mem = s.mem := by rw [hf]
    refine ⟨_, execThermalLimit_of_le h hd s, ?_, ?_, s.duty_limited die hc, hm⟩
    · have hdie : die < s.pwr.therm.length := by omega
      show ((s.limited die).pwr.therm.set die true).getD die false = true
      rw [hp, List.getD_eq_getElem?_getD, List.getElem?_set_self hdie]
      rfl
    · show ((s.limited die).svc.pwrst ||| 2#32).getLsbD 1 = true
      rw [BitVec.getLsbD_or, show (2#32).getLsbD 1 = true from rfl, Bool.or_true]
  · refine ⟨_, execCoreHot_eq hc temp s, ?_, ?_⟩
    · rw [State.core_updCore, if_pos rfl]; rfl
    · rw [State.core_updCore, if_pos rfl, CoreSt.judge_hot]; rfl
  · have hk : ((s.updCore core (fun k => k.drooped s.now)).core core) = k.drooped s.now := by rw [State.core_updCore, if_pos rfl]
    refine ⟨_, execDroopEvent_eq hc s, rfl, ?_, ?_, fun h => ?_⟩
    · exact hk ▸ (List.mem_cons_self : s.now ∈ (k.drooped s.now).droops)
    · exact congrArg CoreSt.coolSince hk
    · exact (congrArg CoreSt.hot hk).trans (CoreSt.drooped_hot h)
  · refine ⟨_, execCoreCool_eq hc h s, ?_⟩
    rw [State.core_updCore, if_pos rfl]
    exact CoreSt.cooled_spec h hk s.now
  · have hw : core / 64 < 8 := by omega
    obtain ⟨h0, h2, h3, h50, h61, h7f⟩ := s.tlmItem_counts
    refine ⟨_, execTlmloRead_eq s, rfl, ?_, h0, h2, h3, h50, h61, ?_, ?_, h7f⟩
    · exact latched_low _
    · rw [s.tlmItem_hot hw]; exact getLsbD_coreBits _ core
    · rw [s.tlmItem_oos hw]; exact getLsbD_coreBits _ core

end Sys2Proof.Machine
end

section
/-! SUPPORT. O48: a read from outside whose check values write the error log. -/

namespace Sys2Proof.Machine

set_option Elab.async false -- one proof at a time: the threads of many at once take too much memory

/-- The error log at offset 64 of a protected range whose mirror starts at 1 GiB; sector 0 is poisoned, and the second sector of its
mirror line has a check value that its bytes do not meet. -/
def mirroredLogSt : State :=
  { State.reset with
    prot := [{ base := 3, size := 1, mir := 0x40000000 }]
    err := { State.reset.err with base := 64, cfg := 0x21#64 }
    poison := [0]
    badChk := [(2 ^ 25 + 129, 1)] }

/-- The mirror of offset 0. -/
def mirroredLogAddr : Nat := 2 ^ 30 + 0x1000

/-- The state when the reader's holds have been ended. -/
def mirroredLogClear : State := (mirroredLogSt.clearOwnRange 0 mirroredLogAddr 64 false).1

/-- The state when the check values have been verified: the record that this wrote has been mirrored, and its line's poison with it. -/
def mirroredLogChecked : State := (mirroredLogClear.checkRange mirroredLogAddr 64 Finder.nobody).1

theorem mirroredLog_clearOwnRange : mirroredLogSt.clearOwnRange 0 mirroredLogAddr 64 false = (mirroredLogClear, true) :=
  Prod.ext (by rw [mirroredLogClear]) (by decide +kernel)

theorem mirroredLog_checkRange : mirroredLogClear.checkRange mirroredLogAddr 64 Finder.nobody = (mirroredLogChecked, false) :=
  Prod.ext (by rw [mirroredLogChecked]) (by decide +kernel)

/-- The number of error records that an outcome's state has written. -/
def errTailOf (o : Host.Outcome State Fault Refusal) : Nat := match o with | .next s => s.err.tail.toNat | _ => 0

theorem errTailOf_next_sent (s : State) (v : Sent) : errTailOf (.next { s with sent := v }) = s.err.tail.toNat := rfl

theorem mirroredLog_errTail : errTailOf (exec (.hostMemrd 0 mirroredLogAddr 64 none) mirroredLogSt) = 2 := by decide +kernel

theorem mirroredLogChecked_errTail : mirroredLogChecked.err.tail.toNat = 1 := by decide +kernel

/-- Refutes O48: verifying the second sector of a read writes an error record into a protected range, whose mirror is the line being read;
that brings poison into the first sector, which the check has passed, so the read's end records poison that goes out. -/
theorem not_hostAccess : ¬ Obligations.HostAccess := by
  unfold Obligations.HostAccess
  intro h
  obtain ⟨-, -, hread, -⟩ := h mirroredLogSt 0 0 (by decide) (by decide)
  have hx := hread mirroredLogAddr 64 mirroredLogClear mirroredLogChecked (by decide) (by decide) (by decide +kernel) (by decide +kernel)
    mirroredLog_clearOwnRange mirroredLog_checkRange
  have ht := congrArg errTailOf hx
  rw [mirroredLog_errTail, errTailOf_next_sent, mirroredLogChecked_errTail] at ht
  exact absurd ht (by decide)

end Sys2Proof.Machine
end

section
/-! SUPPORT. What the operations on memory, spans, counters and gangs keep: device memory canonical, the cores in service, and the launches. -/

namespace Sys2Proof.Machine

/-! ## What writes at the homes leave as it is -/

/-- Two states alike but for device memory, its check state, the homes, error records and requests to the outside. -/
def State.HomeWide (s t : State) : Prop :=
  t = { s with
    mem := t.mem, poison := t.poison, badChk := t.badChk, slices := t.slices, homes := t.homes, err := t.err, irqs := t.irqs
    outReqs := t.outReqs, nextId := t.nextId }

theorem State.HomeWide.refl (s : State) : s.HomeWide s := rfl

theorem State.HomeWide.trans {s t u : State} (h1 : s.HomeWide t) (h2 : t.HomeWide u) : s.HomeWide u := by
  unfold State.HomeWide at *
  rw [h2, h1]

theorem State.HomeWide.foldl {α : Type} (f : State → α → State) (hf : ∀ (s : State) (a : α), s.HomeWide (f s a)) (xs : List α) (s : State) :
    s.HomeWide (xs.foldl f s) := by
  induction xs generalizing s with
  | nil => exact .refl _
  | cons x xs ih => exact (hf s x).trans (ih _)

theorem State.HomeWide.foldl_pair {α β : Type} (f : State × β → α → State × β) (hf : ∀ (p : State × β) (a : α), p.1.HomeWide (f p a).1)
    (xs : List α) (p : State × β) : p.1.HomeWide (xs.foldl f p).1 := by
  induction xs generalizing p with
  | nil => exact .refl _
  | cons x xs ih => exact (hf p x).trans (ih _)

theorem State.RawOnly.homeWide {s t : State} (h : s.RawOnly t) : s.HomeWide t := by
  unfold State.RawOnly at h
  unfold State.HomeWide
  rw [h]

theorem State.homeWide_of_fields (s : State) (m : Cells 8) (p : List Nat) (b : Tab (BitVec 16)) (n : Tab Slice) (hs : List Home) (e : ErrRegs)
    (i : List Nat) (o : Tab OutReq) (x : Nat) : s.HomeWide
      { s with mem := m, poison := p, badChk := b, slices := n, homes := hs, err := e, irqs := i, outReqs := o, nextId := x } := rfl

theorem State.errRecord_homeWide (s : State) (pa va count detail ukind unit lslot asid part cls kind : Nat) :
    s.HomeWide (s.errRecord pa va count detail ukind unit lslot asid part cls kind) := by
  unfold State.errRecord
  dsimp only
  split
  · exact State.homeWide_of_fields _ _ _ _ _ _ _ _ _ _
  · exact (s.physWrite_rawOnly _ _).homeWide.trans (State.homeWide_of_fields _ _ _ _ _ _ _ _ _ _)

theorem State.verify_homeWide (s : State) (sec : Nat) (f : Finder) : s.HomeWide (s.verify sec f) := by
  unfold State.verify
  split
  · exact .refl _
  · exact (State.homeWide_of_fields s _ _ _ _ _ _ _ _ _).trans (State.errRecord_homeWide _ _ _ _ _ _ _ _ _ _ _ _)

theorem State.mergeSector_homeWide (s : State) (sec : Nat) (bs : List (Nat × Byte)) (f : Finder) : s.HomeWide (s.mergeSector sec bs f) := by
  unfold State.mergeSector
  split
  · exact State.homeWide_of_fields _ _ _ _ _ _ _ _ _ _
  · dsimp only
    split
    · exact s.verify_homeWide sec f
    · exact (s.verify_homeWide sec f).trans (State.homeWide_of_fields _ _ _ _ _ _ _ _ _ _)

theorem State.homeWrite_homeWide (s : State) (line : Nat) (bs : LineBytes) (p : Ts) (f : Finder) : s.HomeWide (s.homeWrite line bs p f).1 := by
  unfold State.homeWrite
  split
  · exact .refl _
  · refine .trans ?_ (State.mirrorSectors_rawOnly _ _ _ _).homeWide
    refine .trans ?_ (.foldl _ (fun s k => s.mergeSector_homeWide _ _ _) _ _)
    exact State.homeWide_of_fields _ _ _ _ _ _ _ _ _ _

theorem State.devWrite_homeWide (s : State) (o : Nat) (bs : List Byte) (p : Ts) (f : Finder) : s.HomeWide (s.devWrite o bs p f).1 := by
  unfold State.devWrite
  refine .foldl_pair _ (fun q l => ?_) _ (s, p)
  exact q.1.homeWrite_homeWide _ _ _ _

theorem State.checkRange_homeWide (s : State) (o n : Nat) (f : Finder) : s.HomeWide (s.checkRange o n f).1 := by
  unfold State.checkRange
  refine .foldl_pair _ (fun q l => ?_) _ (s, false)
  exact q.1.verify_homeWide _ _

theorem State.ctrUpd_homeWide (s : State) (o : Nat) (f : CtrRec → CtrRec) : s.HomeWide (s.ctrUpd o f) := State.homeWrite_homeWide _ _ _ _ _

theorem State.imgPut_homeWide (s : State) (a : Nat) (bs : List Byte) : s.HomeWide (s.imgPut a bs) := by
  unfold State.imgPut
  split
  · exact (s.rawWrite_rawOnly a bs).homeWide
  · exact .refl _

theorem State.imgMerge_homeWide (s : State) (a : Nat) (bs : List Byte) : s.HomeWide (s.imgMerge a bs) := by
  unfold State.imgMerge
  split
  · exact .refl _
  · exact .trans (.foldl _ (fun s k => s.mergeSector_homeWide _ _ _) _ _) (.foldl _ (fun s l => (s.mirrorSectors_rawOnly _ _ _).homeWide) _ _)

section
variable {s t : State} (h : s.HomeWide t)
include h
theorem State.HomeWide.cores : t.cores = s.cores := by unfold State.HomeWide at h; rw [h]
theorem State.HomeWide.launches : t.launches = s.launches := by unfold State.HomeWide at h; rw [h]
theorem State.HomeWide.gangs : t.gangs = s.gangs := by unfold State.HomeWide at h; rw [h]
theorem State.HomeWide.crews : t.crews = s.crews := by unfold State.HomeWide at h; rw [h]
theorem State.HomeWide.blocks : t.blocks = s.blocks := by unfold State.HomeWide at h; rw [h]
theorem State.HomeWide.ctrHomes : t.ctrHomes = s.ctrHomes := by unfold State.HomeWide at h; rw [h]
theorem State.HomeWide.prot : t.prot = s.prot := by unfold State.HomeWide at h; rw [h]
theorem State.HomeWide.cmds : t.cmds = s.cmds := by unfold State.HomeWide at h; rw [h]
end

/-! ## States that keep memory canonical, the cores in service, and the launches -/

/-- What an operation keeps that neither takes a core out of service nor ends a launch. -/
structure State.Persists (s t : State) : Prop where
  inv : s.inv → t.inv
  oos : ∀ c, (t.core c).oos = (s.core c).oos
  launch : ∀ l, s.launch l ≠ none → t.launch l ≠ none

theorem State.Persists.refl (s : State) : s.Persists s := ⟨id, fun _ => rfl, fun _ => id⟩

theorem State.Persists.trans {s t u : State} (h1 : s.Persists t) (h2 : t.Persists u) : s.Persists u :=
  ⟨fun h => h2.inv (h1.inv h), fun c => (h2.oos c).trans (h1.oos c), fun l h => h2.launch l (h1.launch l h)⟩

theorem State.Persists.same {s t : State} (hm : t.mem = s.mem) (hc : t.cores = s.cores) (hl : t.launches = s.launches) : s.Persists t :=
  ⟨State.inv_of_mem hm, fun c => by rw [State.core, hc]; rfl, fun l => by simp only [State.launch, hl]; exact id⟩

theorem State.HomeWide.persists {s t : State} (h : s.HomeWide t) (hi : s.inv → t.inv) : s.Persists t :=
  ⟨hi, fun c => by rw [State.core, h.cores]; rfl, fun l => by simp only [State.launch, h.launches]; exact id⟩

theorem State.Persists.foldl {α : Type} (f : State → α → State) (hf : ∀ (s : State) (a : α), s.Persists (f s a)) (xs : List α) (s : State) :
    s.Persists (xs.foldl f s) := by
  induction xs generalizing s with
  | nil => exact .refl _
  | cons x xs ih => exact (hf s x).trans (ih _)

theorem State.Persists.foldl_pair {α β : Type} (f : State × β → α → State × β) (hf : ∀ (p : State × β) (a : α), p.1.Persists (f p a).1)
    (xs : List α) (p : State × β) : p.1.Persists (xs.foldl f p).1 := by
  induction xs generalizing p with
  | nil => exact .refl _
  | cons x xs ih => exact (hf p x).trans (ih _)

section
variable (s : State)

theorem State.updCore_persists (c : Nat) {f : CoreSt → CoreSt} (hf : ∀ k, (f k).oos = k.oos) : s.Persists (s.updCore c f) := by
  refine ⟨id, fun j => ?_, fun _ => id⟩
  rw [State.core_updCore]
  split
  · next h => rw [hf, h]
  · rfl

theorem State.updLaunch_persists (l : Nat) (f : Launch → Launch) : s.Persists (s.updLaunch l f) := by
  refine ⟨State.inv_of_mem rfl, fun _ => rfl, fun j hj => ?_⟩
  rw [State.launch_updLaunch]
  split
  · next h => rw [← h]; simpa using hj
  · exact hj

theorem State.updCrew_persists (k : Nat) (f : Crew → Crew) : s.Persists (s.updCrew k f) := .same rfl rfl rfl
theorem State.setCrew_persists (k : Nat) (c : Crew) : s.Persists (s.setCrew k c) := .same rfl rfl rfl
theorem State.updGang_persists (g : Nat) (f : Gang → Gang) : s.Persists (s.updGang g f) := .same rfl rfl rfl
theorem State.setGang_persists (g : Nat) (v : Gang) : s.Persists (s.setGang g v) := .same rfl rfl rfl
theorem State.updCluster_persists (k : Nat) (f : ClusterSt → ClusterSt) : s.Persists (s.updCluster k f) := .same rfl rfl rfl
theorem State.updSlice_persists (n : Nat) (f : Slice → Slice) : s.Persists (s.updSlice n f) := .same rfl rfl rfl
theorem State.setCtrHome_persists (o : Nat) (v : CtrHome) : s.Persists (s.setCtrHome o v) := .same rfl rfl rfl
theorem State.setPart_persists (p : Nat) (v : Part) : s.Persists (s.setPart p v) := .same rfl rfl rfl
theorem State.updPart_persists (p : Nat) (f : Part → Part) : s.Persists (s.updPart p f) := .same rfl rfl rfl
theorem State.send_persists (p : Pkt) : s.Persists (s.send p) := .same rfl rfl rfl
theorem State.ask_persists (r : OutReq) : s.Persists (s.ask r) := .same rfl rfl rfl

theorem State.setFarAgent_persists (k : Nat) (b : Bridge) : s.Persists (s.setFarAgent k b) := by
  unfold State.setFarAgent
  split <;> exact .same rfl rfl rfl

theorem State.setNht_persists (d : Dest) (l : List NHolder) : s.Persists (s.setNht d l) := by
  cases d <;> exact .same rfl rfl rfl

theorem State.setSpans_persists (u : Agent) (t : Tab Span) : s.Persists (s.setSpans u t) := by
  unfold State.setSpans
  split
  · exact s.updCore_persists _ fun _ => rfl
  · exact s.updCluster_persists _ _
  · exact .refl _

theorem State.setSpan_persists (u : Agent) (line : Nat) (v : Span) : s.Persists (s.setSpan u line v) := s.setSpans_persists _ _
theorem State.dropSpan_persists (u : Agent) (line : Nat) : s.Persists (s.dropSpan u line) := s.setSpans_persists _ _

/-! ## Writes at the homes -/

theorem State.errRecord_persists (pa va count detail ukind unit lslot asid part cls kind : Nat) :
    s.Persists (s.errRecord pa va count detail ukind unit lslot asid part cls kind) :=
  (s.errRecord_homeWide ..).persists (s.errRecord_inv pa va count detail ukind unit lslot asid part cls kind)
theorem State.physWrite_persists (pa : Nat) (bs : List Byte) : s.Persists (s.physWrite pa bs) :=
  (s.physWrite_rawOnly pa bs).homeWide.persists (s.physWrite_inv pa bs)
theorem State.verify_persists (sec : Nat) (f : Finder) : s.Persists (s.verify sec f) := (s.verify_homeWide sec f).persists (s.verify_inv sec f)
theorem State.homeWrite_persists (line : Nat) (bs : LineBytes) (p : Ts) (f : Finder) : s.Persists (s.homeWrite line bs p f).1 :=
  (s.homeWrite_homeWide ..).persists (s.homeWrite_inv line bs p f)
theorem State.devWrite_persists (o : Nat) (bs : List Byte) (p : Ts) (f : Finder) : s.Persists (s.devWrite o bs p f).1 :=
  (s.devWrite_homeWide ..).persists (s.devWrite_inv o bs p f)
theorem State.checkRange_persists (o n : Nat) (f : Finder) : s.Persists (s.checkRange o n f).1 :=
  (s.checkRange_homeWide ..).persists (s.checkRange_inv o n f)
theorem State.ctrPut_persists (o : Nat) (r : CtrRec) (p : Ts) : s.Persists (s.ctrPut o r p).1 := s.homeWrite_persists _ _ _ _
theorem State.ctrUpd_persists (o : Nat) (f : CtrRec → CtrRec) : s.Persists (s.ctrUpd o f) := s.ctrPut_persists _ _ _
theorem State.imgPut_persists (a : Nat) (bs : List Byte) : s.Persists (s.imgPut a bs) := (s.imgPut_homeWide a bs).persists (s.imgPut_inv a bs)
theorem State.imgMerge_persists (a : Nat) (bs : List Byte) : s.Persists (s.imgMerge a bs) :=
  (s.imgMerge_homeWide a bs).persists (s.imgMerge_inv a bs)

end

end Sys2Proof.Machine
end

section
/-! SUPPORT. The operations on spans, counters, scratch, buffers and traps persist: memory canonical, cores in service, launches there. -/

namespace Sys2Proof.Machine

theorem State.Persists.ite {s t u : State} {c : Prop} [Decidable c] (ht : s.Persists t) (hu : s.Persists u) : s.Persists (if c then t else u) := by
  split <;> assumption

theorem State.Persists.ite_fst {β : Type} {s : State} {p q : State × β} {c : Prop} [Decidable c] (hp : s.Persists p.1) (hq : s.Persists q.1) :
    s.Persists (if c then p else q).1 := by
  split <;> assumption

section
variable (s : State)

/-! ## Spans -/

theorem State.publishLine_persists (u : Agent) (line : Nat) (sel : Dirty → Bool) : s.Persists (s.publishLine u line sel) := by
  unfold State.publishLine
  split
  · exact .refl _
  · refine .trans ?_ (State.setSpan_persists _ _ _ _)
    refine .foldl_pair _ (fun q d => ?_) _ (s, [])
    dsimp only
    split
    · exact (q.1.send_persists _).trans (State.updCrew_persists _ _ _)
    · exact .refl _

theorem State.publishCrew_persists (key : Nat) (sel : Scope → Bool) : s.Persists (s.publishCrew key sel) := by
  unfold State.publishCrew
  split
  · exact .refl _
  · exact .foldl _ (fun s u => .foldl _ (fun s line => s.publishLine_persists _ _ _) _ _) _ _

theorem State.mergeAck_persists (u : Agent) (line : Nat) (bs : LineBytes) (w : Ts) : s.Persists (s.mergeAck u line bs w) := by
  unfold State.mergeAck
  split
  · exact .refl _
  · exact s.setSpan_persists _ _ _

theorem State.roomForDirty_persists (u : Agent) (line : Nat) : s.Persists (s.roomForDirty u line) := by
  unfold State.roomForDirty
  dsimp only
  split
  · exact .refl _
  · split
    · exact s.publishLine_persists _ _ _
    · exact .refl _

theorem State.narrowPut_persists (u : Agent) (key : Nat) (sc : Scope) (line : Nat) (bs : LineBytes) :
    s.Persists (s.narrowPut u key sc line bs) := by
  unfold State.narrowPut
  dsimp only
  have h (v : Span) (n : Nat) : s.Persists { s.setSpan u line v with nextId := n } := (s.setSpan_persists u line v).trans (.same rfl rfl rfl)
  split
  · exact (h _ _).trans (State.send_persists _ _)
  · exact h _ _

theorem State.narrowKept_persists (u : Agent) (key line : Nat) (bs : LineBytes) : s.Persists (s.narrowKept u key line bs).1 := by
  unfold State.narrowKept
  refine .foldl_pair _ (fun q k => ?_) _ (s, bs)
  have hv : q.1.Persists (match q.1.target (line * 128) with
    | .dev _ => q.1.verify (line * 4 + k) { q.1.finder (keyGid key) 0 with core := some u.reporter }
    | _ => q.1) := by
    split
    · exact q.1.verify_persists _ _
    · exact .refl _
  exact .ite_fst (.refl _) (.ite_fst hv hv)

theorem State.narrowStore_persists (u : Agent) (key : Nat) (sc : Scope) (line : Nat) (bs : LineBytes) :
    s.Persists (s.narrowStore u key sc line bs) := by
  unfold State.narrowStore
  dsimp only
  split
  · exact s.narrowKept_persists _ _ _ _
  · exact (s.narrowKept_persists _ _ _ _).trans (State.narrowPut_persists _ _ _ _ _ _)

theorem State.gangNarrow_persists (gid : Nat) (g : Gang) (sc : Scope) (bs : List (Nat × Nat × Nat × Byte)) :
    s.Persists (s.gangNarrow gid g sc bs) := by
  unfold State.gangNarrow
  exact .foldl _ (fun s key => .foldl _ (fun s l => (s.roomForDirty_persists _ _).trans (State.narrowStore_persists _ _ _ _ _ _)) _ _) _ _

/-! ## Counters in cores -/

theorem State.ctrUse_persists (core o : Nat) (f : CtrEntry → CtrEntry) : s.Persists (s.ctrUse core o f) := by
  unfold State.ctrUse
  split
  · exact .refl _
  · exact s.updCore_persists _ fun _ => rfl

theorem State.ctrRecallAt_persists (o core : Nat) (half : Bool) : s.Persists (s.ctrRecallAt o core half).1 := by
  unfold State.ctrRecallAt
  split
  · exact .refl _
  · exact (s.ctrUse_persists _ _ _).trans (State.setCtrHome_persists _ _ _)

theorem State.ctrSync_persists (o : Nat) : s.Persists (s.ctrSync o).1 := by
  unfold State.ctrSync
  split
  · exact .refl _
  · split
    · exact .refl _
    · exact .foldl _ (fun s h => (s.ctrRecallAt_persists _ _ _).trans (State.ctrUpd_persists _ _ _)) _ _

theorem State.ctrSyncBytes_persists (line : Nat) (bs : LineBytes) : s.Persists (s.ctrSyncBytes line bs) := by
  unfold State.ctrSyncBytes
  split
  · exact .foldl _ (fun s o => s.ctrSync_persists o) _ _
  · exact .refl _

theorem State.ctrSyncRange_persists (o n : Nat) : s.Persists (s.ctrSyncRange o n).1 := by
  unfold State.ctrSyncRange
  split
  · exact .refl _
  · refine .foldl_pair _ (fun q i => ?_) _ (s, true)
    exact q.1.ctrSync_persists _

/-! ## Holds recalled -/

theorem State.writeBackNow_persists (u : Agent) (line : Nat) (sel : Dirty → Bool) : s.Persists (s.writeBackNow u line sel) := by
  unfold State.writeBackNow
  split
  · exact .refl _
  · next v _ =>
    generalize hr : v.dirty.foldl _ (s, ([] : List Dirty)) = r
    have hp : s.Persists r.1 := by
      rw [← hr]
      refine .foldl_pair _ (fun q d => ?_) _ (s, [])
      dsimp only
      split
      · split
        · exact .refl _
        · exact (q.1.ctrSyncBytes_persists _ _).trans ((State.homeWrite_persists _ _ _ _ _).trans
            ((State.updCrew_persists _ _ _).trans (State.mergeAck_persists _ _ _ _ _)))
      · exact .refl _
    dsimp only
    split
    · exact hp.trans (State.setSpan_persists _ _ _ _)
    · exact hp

end

end Sys2Proof.Machine
end

section
/-! SUPPORT. Holds, far lines, scratch and DET buffers persist; gangs and launches that end. -/

namespace Sys2Proof.Machine

/-- The state of a direct access's answer. -/
def Dir.st : Dir → State
  | .ok s _ _ _ => s
  | .later s => s

section
variable (s : State)

/-! ## Holds recalled -/

theorem State.missBits_persists (h : NHolder) (acquire : Bool) (crew : Option Nat) : s.Persists (s.missBits h acquire crew) := by
  unfold State.missBits
  refine .ite ?_ (.refl _)
  cases crew with
  | none => exact .ite (s.updCrew_persists _ _) (.refl _)
  | some k => exact (s.updCrew_persists k _).trans (.ite (State.updCrew_persists _ _ _) (.refl _))

theorem State.recallNow_persists (n : Nat) (h : NHolder) (acquire : Bool) (crew : Option Nat) : s.Persists (s.recallNow n h acquire crew) := by
  unfold State.recallNow
  dsimp only
  refine .trans ?_ (State.missBits_persists _ _ _ _)
  refine .trans ?_ (State.updSlice_persists _ _ _)
  refine .trans ?_ (State.writeBackNow_persists _ _ _ _)
  split
  · exact .foldl _ (fun s u => .foldl _ (fun s l => s.writeBackNow_persists _ _ _) _ _) _ _
  · exact .refl _

theorem State.askHard_persists (line : Nat) (write : Bool) : s.Persists (s.askHard line write) := s.updSlice_persists _ _

theorem State.clearLine_persists (line : Nat) (write acquire : Bool) (crew : Option Nat) : s.Persists (s.clearLine line write acquire crew).1 := by
  unfold State.clearLine
  refine .ite_fst (.refl _) (.ite_fst (s.askHard_persists _ _) (.ite_fst (.refl _) ?_))
  exact .foldl _ (fun s h => s.recallNow_persists _ _ _ _) _ _

theorem State.clearRange_persists (o n : Nat) (write acquire : Bool) (crew : Option Nat) : s.Persists (s.clearRange o n write acquire crew).1 := by
  unfold State.clearRange
  have h0 : s.Persists (if write then s.ctrSyncRange o n else (s, true)).1 := .ite_fst (s.ctrSyncRange_persists o n) (.refl _)
  refine h0.trans (.foldl_pair _ (fun q l => ?_) _ _)
  exact q.1.clearLine_persists _ _ _ _

theorem State.sendRecall_persists (d : Dest) (h : NHolder) (all : Bool) : s.Persists (s.sendRecall d h all) :=
  (s.setNht_persists _ _).trans (State.send_persists _ _)

theorem State.clearFar_persists (pa : Nat) (write acquire : Bool) (crew : Option Nat) : s.Persists (s.clearFar pa write acquire crew).1 := by
  unfold State.clearFar
  refine .ite_fst (.refl _) ?_
  refine .foldl _ (fun s h => .ite (.refl _) ?_) _ _
  exact (s.sendRecall_persists _ _ _).trans (State.missBits_persists _ _ _ _)

/-! ## Far lines -/

theorem State.farStore_persists (pa : Nat) (bs : List Byte) (p : Ts) : s.Persists (s.farStore pa bs p).1 := by
  unfold State.farStore State.farPut State.farTouch
  dsimp only
  split
  · exact .refl _
  · exact s.setFarAgent_persists _ _

theorem State.askFar_persists (asid pa what : Nat) : s.Persists (s.askFar asid pa what) := by
  unfold State.askFar State.askFarIn
  exact .ite (.refl _) (s.ask_persists _)

theorem State.directWrite_persists (pa : Nat) (bs : List Byte) (p : Ts) (crew : Option Nat) (f : Finder) :
    s.Persists (s.directWrite pa bs p crew f).st := by
  have hr := s.clearFar_persists pa true false crew
  unfold State.directWrite
  split
  · next o _ =>
    have h := s.clearRange_persists o bs.length true false crew
    dsimp only
    split
    · exact h.trans (State.devWrite_persists _ _ _ _ _)
    · exact h
  · exact .refl _
  · dsimp only
    split
    · exact hr
    · split
      · split
        · split
          · exact hr.trans (State.farStore_persists _ _ _ _)
          · exact hr.trans (State.askFar_persists _ _ _ _)
        · exact hr.trans (State.askFar_persists _ _ _ _)
      · exact hr.trans ((State.setFarAgent_persists _ _ _).trans (State.physWrite_persists _ _ _))
      · exact hr.trans (State.physWrite_persists _ _ _)

/-! ## The stores of a DET buffer -/

theorem State.gangStore_persists (gid : Nat) (bs : List (Nat × Byte)) (p : Ts) : s.Persists (s.gangStore gid bs p).1 := by
  unfold State.gangStore
  refine .foldl_pair _ (fun q l => ?_) _ (s, p)
  split
  · exact q.1.homeWrite_persists _ _ _ _
  · refine .foldl_pair _ (fun q r => ?_) _ q
    have h := q.1.directWrite_persists r.1 r.2 p none (q.1.finder gid 0)
    split
    · next hd => rw [hd] at h; exact h
    · next hd => rw [hd] at h; exact h

theorem State.scrVerify_persists (gid sec : Nat) : s.Persists (s.scrVerify gid sec) := by
  unfold State.scrVerify
  split
  · exact .refl _
  · exact .ite (.refl _) ((s.setGang_persists _ _).trans (State.errRecord_persists _ _ _ _ _ _ _ _ _ _ _ _))

theorem State.scrSector_persists (gid sec : Nat) (bs : List (Nat × Byte)) : s.Persists (s.scrSector gid sec bs) := by
  unfold State.scrSector
  exact .ite (s.updGang_persists _ _) ((s.scrVerify_persists _ _).trans (State.updGang_persists _ _ _))

theorem State.scrPutAll_persists (gid : Nat) (bs : List (Nat × Byte)) : s.Persists (s.scrPutAll gid bs) := by
  unfold State.scrPutAll
  exact .foldl _ (fun s sec => s.scrSector_persists _ _ _) _ _

theorem State.releaseFloor_persists (core : Nat) (sc : Scope) (p : Ts) : s.Persists (s.releaseFloor core sc p) := by
  unfold State.releaseFloor
  split
  · exact s.updCore_persists _ fun _ => rfl
  · exact s.updCore_persists _ fun _ => rfl
  · exact s.updCluster_persists _ _
  · exact .refl _

theorem State.imgRaisePts_persists (b : Blk) (a : Nat) (p : Ts) : s.Persists (s.imgRaisePts b a p) := by
  unfold State.imgRaisePts
  exact .foldl _ (fun s i => s.imgPut_persists _ _) _ _

theorem State.merge_persists (gid : Nat) (sc : Scope) : s.Persists (s.merge gid sc) := by
  unfold State.merge
  refine .ite (.refl _) ?_
  dsimp only
  split
  · next g _ =>
    refine .trans (.trans (.trans (.ite (s.gangNarrow_persists _ _ _ _) ?_) (State.scrPutAll_persists _ _ _)) (State.updGang_persists _ _ _))
      (.foldl _ (fun s e => ?_) _ _)
    · exact (s.gangStore_persists _ _ _).trans (.foldl _ (fun s c => s.updCrew_persists _ _) _ _)
    · split
      · exact s.releaseFloor_persists _ _ _
      · exact .refl _
  · split
    · refine .trans (.trans (.trans (s.gangStore_persists _ _ _) (.foldl _ (fun s e => s.imgMerge_persists _ _) _ _))
        (State.imgRaisePts_persists _ _ _ _)) (.same rfl rfl rfl)
    · exact .refl _

/-! ## Gangs and launches that end -/

theorem State.preDone_persists (p : Nat) : s.Persists (s.preDone p) := by
  obtain ⟨-, hl, hm, -, -⟩ := s.frame_preDone p
  refine .same hm ?_ hl
  rw [State.preDone_eq]
  split <;> rfl

theorem State.preDrop_persists (gid : Nat) (saved leftRunning : Bool) : s.Persists (s.preDrop gid saved leftRunning) := by
  unfold State.preDrop
  exact .ite ((s.setPart_persists _ _).trans (State.preDone_persists _ _)) (.refl _)

theorem State.leaveTrap_persists (key core : Nat) : s.Persists (s.leaveTrap key core) := s.updCluster_persists _ _

theorem State.flipIdem_persists (gid : Nat) : s.Persists (s.flipIdem gid) := by
  unfold State.flipIdem
  split
  · exact .refl _
  · exact .ite (.same rfl rfl rfl) (.same rfl rfl rfl)

theorem State.endGang_persists (gid : Nat) : s.Persists (s.endGang gid) := by
  unfold State.endGang
  split
  · exact .refl _
  · have h := (s.merge_persists gid .dv).trans (State.preDrop_persists _ gid false false)
    refine .trans ?_ (State.updLaunch_persists _ _ _)
    exact h.trans (.same rfl rfl rfl)

theorem State.finishCrew_persists (key : Nat) : s.Persists (s.finishCrew key) := by
  unfold State.finishCrew
  split
  · next c g _ _ =>
    have hleft : s.Persists (((if g.bars.any (·.finishes c.idx) then s.merge (keyGid key) .gg else s).publishCrew key (fun _ => true)).leaveTrap
        key c.core) :=
      ((State.Persists.ite (s.merge_persists _ _) (.refl _)).trans (State.publishCrew_persists _ _ _)).trans (State.leaveTrap_persists _ _ _)
    dsimp only
    have hend (t : State) (p : Prop) [Decidable p] (g : Nat) : t.Persists (if p then t.endGang g else t) := .ite (t.endGang_persists _) (.refl _)
    have hflip (t : State) (p : Prop) [Decidable p] (g : Nat) : t.Persists (if p then t.flipIdem g else t) := .ite (t.flipIdem_persists _) (.refl _)
    refine .trans (.trans ?_ (hflip _ _ _)) (hend _ _ _)
    refine .trans ?_ (State.updGang_persists _ _ _)
    exact .ite (hleft.trans (State.setCrew_persists _ _ _)) (hleft.trans (.same rfl rfl rfl))
  · exact .refl _

theorem State.killGang_persists (gid : Nat) : s.Persists (s.killGang gid) :=
  (s.updGang_persists _ _).trans ((State.Persists.foldl _ (fun s e => s.finishCrew_persists _) _ _).trans (State.endGang_persists _ _))

theorem State.killLaunch_persists (lslot detail : Nat) : s.Persists (s.killLaunch lslot detail) := by
  unfold State.killLaunch
  split
  · exact .refl _
  · have h := State.Persists.foldl _ (fun s (g : Nat × Gang) => s.killGang_persists g.1) (s.gangs.filter (fun g => g.2.lslot == lslot)) s
    refine .trans ?_ (State.updLaunch_persists _ _ _)
    exact h.trans (.same rfl rfl rfl)

end

end Sys2Proof.Machine
end

section
/-! SUPPORT. Traps, replies and the homes of counters persist. -/

namespace Sys2Proof.Machine

/-- The state in which a word's effect leaves the machine. -/
def Act.st : Act → State
  | .done s => s
  | .jump s _ => s
  | .post s _ => s
  | .wait s _ => s
  | .blocked s => s
  | .trap s _ => s

section
variable (s : State)

/-! ## Traps and splits that go on -/

theorem State.takeTrap_persists (key : Nat) (t : Trap) : s.Persists (s.takeTrap key t) := by
  unfold State.takeTrap
  split
  · refine .ite (.refl _) (.ite ?_ (s.killLaunch_persists _ _))
    exact (s.setCrew_persists _ _).trans (State.updCluster_persists _ _ _)
  · exact .refl _

theorem State.boundary_persists (key : Nat) : s.Persists (s.boundary key) := by
  unfold State.boundary
  split
  · exact .refl _
  · split
    · exact (s.updCrew_persists _ _).trans (State.takeTrap_persists _ _ _)
    · exact .refl _

theorem State.wakeSplit_persists (key e : Nat) (ws : List RegWrite) : s.Persists (s.wakeSplit key e ws) :=
  (s.updCrew_persists _ _).trans (State.boundary_persists _ _)

theorem State.resumeWord_persists {a : Act} (key e : Nat) (h : s.Persists a.st) : s.Persists (s.resumeWord key e a) := by
  unfold State.resumeWord
  cases a with
  | done t => exact h.trans (t.wakeSplit_persists _ _ _)
  | jump t es => exact h.trans (t.boundary_persists _)
  | post t tr => exact h.trans ((t.wakeSplit_persists _ _ _).trans (State.takeTrap_persists _ _ _))
  | wait t w => exact h.trans (t.updCrew_persists _ _)
  | blocked t => exact h
  | trap t tr => exact h.trans (t.takeTrap_persists _ _)

/-! ## Replies -/

theorem State.sendAtoms_persists (x : Ctx) (c : Crew) (a : AtomOp) (ls : List AtomLane) : s.Persists (sendAtoms x c s a ls).1 := by
  unfold sendAtoms
  dsimp only
  refine .foldl_pair _ (fun q line => ?_) _ (s, [])
  refine .trans (.trans ?_ (State.send_persists _ _)) (State.updCrew_persists _ _ _)
  exact .foldl _ (fun s u => s.publishLine_persists _ _ _) _ _

theorem State.pendNow_persists (x : Ctx) (ws : List RegWrite) : s.Persists (pendNow x s ws).st := s.updCrew_persists _ _

theorem State.peerAnswer_persists (x : Ctx) (c : Crew) (ea : Nat) {f : Nat → Act} (hf : ∀ v, s.Persists (f v).st) :
    s.Persists (Machine.peerAnswer x c s ea f).st := by
  unfold Machine.peerAnswer
  split
  · exact .refl _
  · split
    · exact .refl _
    · exact hf _

theorem State.barAnswer_persists (x : Ctx) (c : Crew) (ea : Nat) {f : Nat → Act} (hf : ∀ v, s.Persists (f v).st) :
    s.Persists (barAnswer x c s ea f).st := by
  refine s.peerAnswer_persists x c ea fun v => ?_
  split
  · exact .refl _
  · split
    · split <;> exact .refl _
    · exact hf _

theorem State.atomReply_persists (x : Ctx) (c : Crew) (o : Mem) (a : AtomOp) : s.Persists (atomReply x c s o a).st := by
  unfold atomReply
  dsimp only
  split
  · exact s.pendNow_persists x _
  · split <;> exact .refl _

theorem State.peerAcquire_persists (key : Nat) : s.Persists (s.peerAcquire key) := s.updCrew_persists _ _

theorem State.replyAct_persists (x : Ctx) (c : Crew) (i : Instr) : s.Persists (replyAct x c s i).st := by
  unfold replyAct
  split
  · exact s.atomReply_persists x c _ _
  · exact s.atomReply_persists x c _ _
  · exact s.peerAnswer_persists x c _ fun v => s.pendNow_persists x _
  · exact s.barAnswer_persists x c _ fun v => s.pendNow_persists x _
  · refine s.barAnswer_persists x c _ fun v => ?_
    exact (State.Persists.ite (s.peerAcquire_persists _) (.refl _)).trans (State.pendNow_persists _ x _)
  · exact s.barAnswer_persists x c _ fun v => .refl _
  · exact s.barAnswer_persists x c _ fun v => .refl _
  · exact s.barAnswer_persists x c _ fun v => s.peerAcquire_persists _
  · unfold countsNow
    split
    · exact s.sendAtoms_persists _ _ _ _
    · exact .refl _
  · exact s.pendNow_persists x _
  · exact s.pendNow_persists x _
  · refine s.peerAnswer_persists x c _ fun v => ?_
    unfold putDone
    dsimp only
    split <;> exact s.updCrew_persists _ _
  · exact .refl _

theorem State.tryReply_persists (key e : Nat) : s.Persists (s.tryReply key e) := by
  unfold State.tryReply
  split
  · exact .refl _
  · dsimp only
    split
    · refine .ite ?_ (.refl _)
      split
      · next t tr ha =>
        have h := ha ▸ s.replyAct_persists (s.waitCtx key e _) _ _
        exact h.trans ((State.updCrew_persists _ _ _).trans ((State.updCrew_persists _ _ _).trans (State.takeTrap_persists _ _ _)))
      · exact (s.resumeWord_persists _ _ (s.replyAct_persists _ _ _)).trans (State.updCrew_persists _ _ _)
    · exact .refl _

theorem State.replyTo_persists (key pkt : Nat) (vals : List Nat) (poison : Bool) : s.Persists (s.replyTo key pkt vals poison) := by
  unfold State.replyTo
  split
  · exact .refl _
  · split
    · exact .refl _
    · exact (s.setCrew_persists _ _).trans (State.tryReply_persists _ _ _)

/-! ## The home of a counter -/

theorem State.ctrExact_persists (o : Nat) (q : CtrReq) : s.Persists (s.ctrExact o q) := by
  unfold State.ctrExact
  exact ((s.ctrPut_persists _ _ _).trans (State.setCtrHome_persists _ _ _)).trans
    ((State.updCrew_persists _ _ _).trans (State.replyTo_persists _ _ _ _ _))

theorem State.ctrAnswer_persists (o : Nat) (q : CtrReq) (g : Option Nat) : s.Persists (s.ctrAnswer o q g) := by
  unfold State.ctrAnswer
  refine .ite (s.setCtrHome_persists _ _) (.trans ?_ (State.setCtrHome_persists _ _ _))
  cases g with
  | none => exact .refl _
  | some g => exact s.ctrUpd_persists _ _

theorem State.ctrEval_persists (o n : Nat) : s.Persists (s.ctrEval o n) := by
  induction n generalizing s with
  | zero => exact .refl _
  | succ n ih =>
    unfold State.ctrEval
    dsimp only
    split
    · exact .refl _
    · refine .ite (.refl _) (.ite (s.ctrExact_persists _ _) (.ite (s.ctrAnswer_persists _ _ _) (.ite ?_ (s.ctrAnswer_persists _ _ _))))
      exact (s.setCtrHome_persists _ _).trans (ih _)

theorem State.ctrBegin_persists (o : Nat) (q : CtrReq) : s.Persists (s.ctrBegin o q) := by
  unfold State.ctrBegin
  refine .ite (.ite (s.ctrAnswer_persists _ _ _) ?_) ?_
  · exact (s.setCtrHome_persists _ _).trans (State.ctrEval_persists _ _ _)
  · exact (s.ctrUpd_persists _ _).trans ((State.setCtrHome_persists _ _ _).trans (State.ctrEval_persists _ _ _))

theorem State.ctrPump_persists (o n : Nat) : s.Persists (s.ctrPump o n) := by
  induction n generalizing s with
  | zero => exact .refl _
  | succ n ih =>
    unfold State.ctrPump
    dsimp only
    split
    · exact .ite ((s.setCtrHome_persists _ _).trans ((State.ctrBegin_persists _ _ _).trans (ih _))) (.refl _)
    · exact .refl _

/-! ## Cores that leave service -/

theorem State.forfeit_persists (core : Nat) : s.Persists (s.forfeit core) := by
  unfold State.forfeit
  refine .trans ?_ (.foldl _ (fun s o => ?_) _ _)
  · refine .trans ?_ (State.updCore_persists _ _ fun _ => rfl)
    exact .foldl _ (fun s e => .ite (.refl _) (s.ctrUpd_persists _ _)) _ _
  dsimp only
  have h (t : State) (hl : Nat) : t.Persists (if hl = 0 then t else t.ctrUpd o (fun r => r.addLost hl)) := .ite (.refl _) (t.ctrUpd_persists _ _)
  refine .ite ?_ ?_
  · exact (s.setCtrHome_persists _ _).trans ((h _ _).trans ((State.ctrEval_persists _ _ _).trans (State.ctrPump_persists _ _ _)))
  · exact (s.setCtrHome_persists _ _).trans (h _ _)

theorem State.unhold_persists (u : Agent) : s.Persists (s.unhold u) :=
  (s.setSpans_persists u []).trans (.same rfl rfl rfl)

end

end Sys2Proof.Machine
end

section
/-! SUPPORT. O47: what the failure of a home die leaves as it is. -/

namespace Sys2Proof.Machine

theorem State.RawOnly.homes {s t : State} (h : s.RawOnly t) : t.homes = s.homes := by unfold State.RawOnly at h; rw [h]
theorem State.RawOnly.prot {s t : State} (h : s.RawOnly t) : t.prot = s.prot := by unfold State.RawOnly at h; rw [h]

/-- Two states with the same homes and protected ranges. -/
def State.SameHomes (s t : State) : Prop := t.homes = s.homes ∧ t.prot = s.prot

theorem State.SameHomes.refl (s : State) : s.SameHomes s := ⟨rfl, rfl⟩
theorem State.SameHomes.trans {s t u : State} (h1 : s.SameHomes t) (h2 : t.SameHomes u) : s.SameHomes u :=
  ⟨h2.1.trans h1.1, h2.2.trans h1.2⟩

theorem State.SameHomes.ite {s t u : State} {c : Prop} [Decidable c] (ht : s.SameHomes t) (hu : s.SameHomes u) :
    s.SameHomes (if c then t else u) := by
  split <;> assumption

theorem State.SameHomes.foldl {α : Type} (f : State → α → State) (hf : ∀ (s : State) (a : α), s.SameHomes (f s a)) (xs : List α) (s : State) :
    s.SameHomes (xs.foldl f s) := by
  induction xs generalizing s with
  | nil => exact .refl _
  | cons x xs ih => exact (hf s x).trans (ih _)

theorem State.SameHomes.foldl_pair {α β : Type} (f : State × β → α → State × β) (hf : ∀ (p : State × β) (a : α), p.1.SameHomes (f p a).1)
    (xs : List α) (p : State × β) : p.1.SameHomes (xs.foldl f p).1 := by
  induction xs generalizing p with
  | nil => exact .refl _
  | cons x xs ih => exact (hf p x).trans (ih _)

section
variable (s : State)

theorem State.setSpans_sameHomes (u : Agent) (t : Tab Span) : s.SameHomes (s.setSpans u t) := by
  unfold State.setSpans
  split <;> exact ⟨rfl, rfl⟩

theorem State.publishLine_sameHomes (u : Agent) (line : Nat) (sel : Dirty → Bool) : s.SameHomes (s.publishLine u line sel) := by
  unfold State.publishLine
  split
  · exact .refl _
  · refine .trans ?_ (State.setSpans_sameHomes _ _ _)
    refine .foldl_pair _ (fun q d => ?_) _ (s, [])
    dsimp only
    split <;> exact ⟨rfl, rfl⟩

theorem State.unask_sameHomes (u : Agent) (line : Nat) : s.SameHomes (s.unask u line) := by
  unfold State.unask
  split
  · exact s.setSpans_sameHomes _ _
  · exact .refl _

end

/-- A state in which the cluster's wait for a failed request has ended. -/
def State.failAsk (s : State) (id : Nat) (p : Pkt) : State :=
  match s.span (.cluster p.src.clusterUnit) p.line with
  | some v => if v.pending = some (if p.kind.request then id else p.req) then s.unask (.cluster p.src.clusterUnit) p.line else s
  | none => s

/-- A state in which a unit has taken back a request that failed. -/
def State.failBack (s : State) (id : Nat) (p : Pkt) : State :=
  match s.span p.src p.line with
  | some v =>
    let s1 := s.dropPkt id
    if v.dirty.isEmpty && v.cnt = 0 then s1.dropSpan p.src p.line else s1.setSpan p.src p.line { v with pending := none, hold := 0 }
  | none => s.dropPkt id

section
variable (s : State)

theorem State.failAsk_sameHomes (id : Nat) (p : Pkt) : s.SameHomes (s.failAsk id p) := by
  unfold State.failAsk
  split
  · exact .ite (s.unask_sameHomes _ _) (.refl _)
  · exact .refl _

theorem State.dropPkt_sameHomes (id : Nat) : s.SameHomes (s.dropPkt id) := ⟨rfl, rfl⟩

theorem State.failBack_sameHomes (id : Nat) (p : Pkt) : s.SameHomes (s.failBack id p) := by
  unfold State.failBack
  split
  · exact .ite ((s.dropPkt_sameHomes id).trans (State.setSpans_sameHomes _ _ _)) ((s.dropPkt_sameHomes id).trans (State.setSpans_sameHomes _ _ _))
  · exact s.dropPkt_sameHomes id

theorem State.failPkt_sameHomes (id : Nat) (p : Pkt) : s.SameHomes (s.failPkt id p) := by
  have ht := s.failAsk_sameHomes id p
  have hback := ht.trans (State.failBack_sameHomes _ id p)
  have hdrop := ht.trans (State.dropPkt_sameHomes _ id)
  have hsend (q : Pkt) : s.SameHomes (((s.failAsk id p).dropPkt id).send q) := hdrop.trans ⟨rfl, rfl⟩
  obtain ⟨kind, place, src, dst, line, first, cnt, pts, crew⟩ := p
  cases kind with
  | renew _ | data _ _ | ext _ | hold _ => exact hback
  | write | wb | atom _ _ _ _ => exact hsend _
  | ack _ => exact ht.trans ⟨rfl, rfl⟩
  | _ => exact hdrop -- a RECALL: `recall` is also a command's name

theorem State.repack_sameHomes (id : Nat) (p : Pkt) : s.SameHomes (s.repack id p) := by
  unfold State.repack
  dsimp only
  split
  · exact ⟨rfl, rfl⟩
  · exact ⟨rfl, rfl⟩
  · exact ⟨rfl, rfl⟩
  · split <;> exact ⟨rfl, rfl⟩
  · exact ⟨rfl, rfl⟩

theorem State.packetsFail_sameHomes (hit : Nat → Bool) : s.SameHomes (s.packetsFail hit) := by
  unfold State.packetsFail
  refine .trans (t := List.foldl _ s s.net) (.foldl _ (fun s e => ?_) _ _) ⟨rfl, rfl⟩
  split
  · exact .refl _
  · exact .ite (.refl _) (.ite (s.failPkt_sameHomes _ _) (s.repack_sameHomes _ _))

theorem State.dropClean_sameHomes (u : Agent) (line : Nat) : s.SameHomes (s.dropClean u line) := by
  unfold State.dropClean
  split
  · exact .refl _
  · exact .ite (s.setSpans_sameHomes _ _) (s.setSpans_sameHomes _ _)

theorem State.spansFail_sameHomes (hit : Nat → Bool) : s.SameHomes (s.spansFail hit) := by
  unfold State.spansFail
  refine .foldl _ (fun s u => .foldl _ (fun s line => .ite (.refl _) ((s.dropClean_sameHomes u line).trans (.ite ?_ ?_))) _ _) _ _
  · split
    · exact .refl _
    · exact State.setSpans_sameHomes _ _ _
  · exact State.publishLine_sameHomes _ _ _ _

theorem State.setSlice_sameHomes (n : Nat) (v : Slice) : s.SameHomes (s.setSlice n v) := ⟨rfl, rfl⟩
theorem State.updCrew_sameHomes (k : Nat) (f : Crew → Crew) : s.SameHomes (s.updCrew k f) := ⟨rfl, rfl⟩

theorem State.slicesFail_sameHomes (hd : Nat) : s.SameHomes (s.slicesFail hd) := by
  unfold State.slicesFail
  refine .foldl _ (fun s k => ?_) _ _
  exact (s.setSlice_sameHomes _ _).trans (State.setSlice_sameHomes _ _ _)

theorem State.countersFail_sameHomes (lostRec : Nat → Bool) : s.SameHomes (s.countersFail lostRec) := by
  unfold State.countersFail
  dsimp only
  generalize h1 : List.foldl _ s _ = s1
  have hs1 : s.SameHomes s1 := h1 ▸ .foldl _ (fun s q => s.updCrew_sameHomes _ _) _ _
  generalize h2 : List.foldl _ s1 _ = s2
  have hs2 : s1.SameHomes s2 := by
    rw [← h2]
    refine .foldl _ (fun s t => ?_) _ _
    split
    · exact s.updCrew_sameHomes _ _
    · exact .refl _
  exact (hs1.trans hs2).trans ⟨rfl, rfl⟩

theorem State.errRecord_sameHomes (pa va count detail ukind unit lslot asid part cls kind : Nat) :
    s.SameHomes (s.errRecord pa va count detail ukind unit lslot asid part cls kind) := by
  unfold State.errRecord
  dsimp only
  split
  · exact ⟨rfl, rfl⟩
  · have h := s.physWrite_rawOnly (s.err.base.toNat + 64 * (s.err.tail.toNat % 2 ^ fld s.err.cfg.toNat 1 5))
      (errBytes s.pkgNs pa va count detail ukind unit lslot asid part cls kind)
    exact ⟨h.homes, h.prot⟩

end

end Sys2Proof.Machine
end

section
/-! SUPPORT. O47: the failure of a home die, cores out of service, and the records of errors. -/

namespace Sys2Proof.Machine

/-! ## A home die fails -/

/-- The homes when a die has failed: its buddy's clock is at least the last one reconciled. -/
def State.dieLost (s : State) (hd : Nat) : State :=
  let s1 := s.setHome hd { s.home hd with failed := true }
  s1.setHome (Nat.xor hd 1) { s1.home (Nat.xor hd 1) with clock := Ts.smax (s1.home (Nat.xor hd 1)).clock s1.lastRec }

/-- What the loss of a die does besides: mirrors taken over, slices, packets, spans, slots and counters of its lines failed. -/
def State.dieFailedOver (s : State) (t : State) (hd : Nat) : State :=
  let hit (line : Nat) : Bool := s.servedBy hd line
  let s3 := ((t.takeMirror (fun l => hit l && !t.lost l)).slicesFail hd).packetsFail hit
  ((s3.spansFail hit).slotsFail hit).countersFail (fun o => hit (o / 128) && s3.lost (o / 128))

/-- The commands of the engines on a die fail with it. -/
def State.enginesFail (s : State) (hd : Nat) : State :=
  { s with cmds := Tab.mapV s.cmds (fun id (k : Cmd) => if Config.engineDie id = hd then { k with failed := true } else k) }

theorem execHomeDieFailure_of_up {s : State} {hd : Nat} (h4 : hd < 4) (hf : (s.home hd).failed = false) :
    execHomeDieFailure hd s = .next (((s.dieFailedOver (s.dieLost hd) hd).enginesFail hd).errRecord 0 0 1 hd 3 0 0xFFF 0 0 0 5) := by
  have hc : ¬ (decide (4 ≤ hd) || s.dieFailed hd) = true := by
    simp [State.dieFailed, hf, h4]
  exact congrArg Host.Outcome.next (if_neg hc)

theorem State.takeMirror_sameHomes (s : State) (hit : Nat → Bool) : s.SameHomes (s.takeMirror hit) := ⟨rfl, rfl⟩
theorem State.slotsFail_sameHomes (s : State) (hit : Nat → Bool) : s.SameHomes (s.slotsFail hit) := ⟨rfl, rfl⟩

theorem State.dieFailedOver_sameHomes (s t : State) (hd : Nat) : t.SameHomes (s.dieFailedOver t hd) := by
  unfold State.dieFailedOver
  refine .trans ?_ (State.countersFail_sameHomes _ _)
  refine .trans ?_ (State.slotsFail_sameHomes _ _)
  refine .trans ?_ (State.spansFail_sameHomes _ _)
  refine .trans ?_ (State.packetsFail_sameHomes _ _)
  exact (t.takeMirror_sameHomes _).trans (State.slicesFail_sameHomes _ _)

theorem State.enginesFail_sameHomes (s : State) (hd : Nat) : s.SameHomes (s.enginesFail hd) := ⟨rfl, rfl⟩

theorem State.dieFail_sameHomes (s : State) (hd : Nat) :
    (s.dieLost hd).SameHomes (((s.dieFailedOver (s.dieLost hd) hd).enginesFail hd).errRecord 0 0 1 hd 3 0 0xFFF 0 0 0 5) := by
  exact .trans (.trans (s.dieFailedOver_sameHomes _ hd) (State.enginesFail_sameHomes _ hd))
    (State.errRecord_sameHomes _ _ _ _ _ _ _ _ _ _ _ _)

section
variable {s t : State} (h : s.SameHomes t)
include h

theorem State.SameHomes.home (k : Nat) : t.home k = s.home k := by
  rw [State.home, h.1]; rfl

theorem State.SameHomes.lost (line : Nat) : t.lost line = s.lost line := by
  obtain ⟨h1, h2⟩ := h
  unfold State.lost State.dieFailed State.home State.protOf
  rw [h1, h2]

end

theorem State.home_setHome_ne (s : State) {h j : Nat} (v : Home) (hj : j ≠ h) : (s.setHome h v).home j = s.home j := by
  simp [State.home, State.setHome, List.getD_eq_getElem?_getD, List.getElem?_set_ne hj.symm]

theorem xor_one_ne (n : Nat) : Nat.xor n 1 ≠ n := by
  intro h
  have h0 : n ^^^ 1 = n ^^^ 0 := h.trans (Nat.xor_zero n).symm
  exact absurd (Nat.xor_right_inj.mp h0) (by decide)

section
variable {s : State} (hlen : s.homes.length = 4) {hd : Nat} (h4 : hd < 4)
include hlen h4

theorem State.home_dieLost (h : Nat) : (s.dieLost hd).home h =
    if h = Nat.xor hd 1 then { s.home h with clock := Ts.smax (s.home h).clock s.lastRec }
    else if h = hd then { s.home h with failed := true } else s.home h := by
  have hx : Nat.xor hd 1 < 4 := by
    have : ∀ k, k < 4 → Nat.xor k 1 < 4 := by decide
    exact this hd h4
  have hb : (s.setHome hd { s.home hd with failed := true }).home (Nat.xor hd 1) = s.home (Nat.xor hd 1) := State.home_setHome_ne _ _ (xor_one_ne hd)
  unfold State.dieLost
  dsimp only
  by_cases h1 : h = Nat.xor hd 1
  · rw [if_pos h1, h1, State.home_setHome _ _ (by simp only [State.setHome, List.length_set, hlen]; exact hx), hb]
    rfl
  · rw [if_neg h1, State.home_setHome_ne _ _ h1]
    by_cases h2 : h = hd
    · rw [if_pos h2, h2, State.home_setHome _ _ (by omega)]
    · rw [if_neg h2, State.home_setHome_ne _ _ h2]

theorem State.dieFailed_dieLost (h : Nat) : (s.dieLost hd).dieFailed h = if h = hd then true else s.dieFailed h := by
  have hx := xor_one_ne hd
  unfold State.dieFailed
  rw [State.home_dieLost hlen h4]
  by_cases h1 : h = Nat.xor hd 1
  · rw [if_pos h1, if_neg (h1 ▸ hx)]
  · rw [if_neg h1]
    split <;> rfl

theorem State.lost_dieLost {line : Nat} (hl : lineDie line = hd) :
    (s.dieLost hd).lost line = ((s.protOf (line * 128)).isNone || s.dieFailed (Nat.xor hd 1)) := by
  have hp : (s.dieLost hd).protOf (line * 128) = s.protOf (line * 128) := rfl
  simp only [State.lost, hl, State.dieFailed_dieLost hlen h4, hp, if_pos, if_neg (xor_one_ne hd), Bool.true_and]

end

end Sys2Proof.Machine
end

section
/-! SUPPORT. O47: cores out of service, and the records of errors. -/

namespace Sys2Proof.Machine

/-! ## Cores out of service -/

theorem State.launch_killLaunch {s : State} {lslot : Nat} (h : s.launch lslot ≠ none) (detail : Nat) :
    ∃ l, (s.killLaunch lslot detail).launch lslot = some l ∧ l.status = 2 ∧ l.detail = detail := by
  obtain ⟨l0, hl0⟩ := Option.ne_none_iff_exists'.mp h
  have hp := State.Persists.foldl _ (fun s (g : Nat × Gang) => s.killGang_persists g.1) (s.gangs.filter (fun g => g.2.lslot == lslot)) s
  obtain ⟨l, hl⟩ := Option.ne_none_iff_exists'.mp (hp.launch lslot h)
  unfold State.killLaunch
  rw [hl0]
  refine ⟨{ l with bins := [], nextG := l.rw * l.rh, gangsLeft := 0, contLeft := 0, flushed := true, status := 2, detail := detail }, ?_, rfl, rfl⟩
  exact (State.launch_updLaunch _ _ _ _).trans ((if_pos rfl).trans (congrArg (Option.map _) hl))

theorem State.forfeit_of_noHomes {s : State} (h : s.ctrHomes = []) (core : Nat) :
    ∃ t, s.HomeWide t ∧ s.forfeit core = t.updCore core (fun k => { k with ctrs := [] }) := by
  have hw : s.HomeWide ((s.core core).ctrs.foldl (fun s e => if e.allow = 0 then s else s.ctrUpd e.addr (fun r => r.addLost e.allow)) s) := by
    refine .foldl _ (fun s e => ?_) _ _
    split
    · exact .refl _
    · exact s.ctrUpd_homeWide _ _
  refine ⟨_, hw, ?_⟩
  have hk : Tab.keys ((s.core core).ctrs.foldl (fun s e => if e.allow = 0 then s else s.ctrUpd e.addr (fun r => r.addLost e.allow)) s).ctrHomes = [] := by
    rw [hw.ctrHomes, h]; rfl
  unfold State.forfeit
  refine (congrArg (fun l => List.foldl _ _ l) (show Tab.keys (State.ctrHomes (State.updCore _ core _)) = [] from hk)).trans rfl

/-- The state in which a core's allowances, spans and holds are given up. -/
def State.coreEmptied (s : State) (core : Nat) : State := (s.forfeit core).unhold (.core core)

theorem State.coreEmptied_persists (s : State) (core : Nat) : s.Persists (s.coreEmptied core) :=
  (s.forfeit_persists core).trans (State.unhold_persists _ _)

theorem State.frame_coreEmptied {s : State} (h : s.ctrHomes = []) (core : Nat) :
    (s.coreEmptied core).gangs = s.gangs ∧ (s.coreEmptied core).blocks = s.blocks ∧ (s.coreEmptied core).launches = s.launches := by
  obtain ⟨t, ht, he⟩ := State.forfeit_of_noHomes h core
  unfold State.coreEmptied
  rw [he]
  exact ⟨ht.gangs, ht.blocks, ht.launches⟩

/-- The launches of a core's gangs, each once. -/
def State.coreLaunches (s : State) (core : Nat) : List Nat :=
  (s.coreGangs core).foldl (fun l g => if l.contains g.2.lslot then l else l ++ [g.2.lslot]) []

/-- The state in which a core is out of service and the launches of its gangs are killed. -/
def State.coreKilled (s : State) (core : Nat) : State :=
  ((s.coreEmptied core).coreLaunches core).foldl (fun s l => s.killLaunch l (11 + 64))
    ((s.coreEmptied core).updCore core (fun k => { k with oos := true }))

/-- The state in which the queue of a core has gone back to the dispatcher. -/
def State.requeued (s : State) (core : Nat) : State :=
  let low := (clusterCores (clusterOf core)).getD 0 0
  { s with blocks := Tab.mapV s.blocks (fun _ b =>
      if (b.place = 1 || b.place = 2) && (b.core = core || (b.core = low && s.needsCluster b)) then { b with place := 0 } else b) }

/-- What a core keeps out of service. -/
def CoreSt.out (k : CoreSt) : CoreSt := { CoreSt.init with oos := true, temp := k.temp, hot := k.hot, coolSince := k.coolSince }

theorem State.coreOut_eq {s : State} {core : Nat} (hc : core < 512) (ho : (s.core core).oos = false) :
    s.coreOut core = ((s.coreKilled core).requeued core).setCore core (s.core core).out := by
  have hn : ¬ ((s.core core).oos || decide (512 ≤ core)) = true := by simp [ho, hc]
  exact if_neg hn

theorem State.coreOut_of_out {s : State} {core : Nat} (ho : (s.core core).oos = true) : s.coreOut core = s :=
  if_pos (by rw [ho]; rfl)

theorem State.oos_coreOut_self {s : State} {core : Nat} (hc : core < 512) : ((s.coreOut core).core core).oos = true := by
  cases ho : (s.core core).oos with
  | true => rw [State.coreOut_of_out ho, ho]
  | false => rw [State.coreOut_eq hc ho, State.core_setCore, if_pos rfl]; rfl

theorem State.oos_coreOut {s : State} {core j : Nat} (hj : (s.core j).oos = true) : ((s.coreOut core).core j).oos = true := by
  by_cases hc : core < 512
  · rcases eq_or_ne j core with rfl | hne
    · exact State.oos_coreOut_self hc
    · cases ho : (s.core core).oos with
      | true => rw [State.coreOut_of_out ho, hj]
      | false =>
        rw [State.coreOut_eq hc ho, State.core_setCore, if_neg hne]
        have h1 := (s.coreEmptied_persists core).oos j
        have h2 : ((s.coreEmptied core).updCore core (fun k => { k with oos := true })).core j = (s.coreEmptied core).core j := by
          rw [State.core_updCore, if_neg hne]
        have h3 := (State.Persists.foldl _ (fun s (l : Nat) => s.killLaunch_persists l (11 + 64)) ((s.coreEmptied core).coreLaunches core)
          ((s.coreEmptied core).updCore core (fun k => { k with oos := true }))).oos j
        exact h3.trans ((congrArg CoreSt.oos h2).trans (h1.trans hj))
  · have hn : ((s.core core).oos || decide (512 ≤ core)) = true := by simp; omega
    rw [State.coreOut, if_pos hn, hj]

theorem State.oos_foldl_coreOut (cs : List Nat) (hcs : ∀ c ∈ cs, c < 512) (s : State) {j : Nat} (hj : (s.core j).oos = true ∨ j ∈ cs) :
    ((cs.foldl State.coreOut s).core j).oos = true := by
  induction cs generalizing s with
  | nil => exact hj.resolve_right List.not_mem_nil
  | cons c cs ih =>
    refine ih (fun c h => hcs c (List.mem_cons_of_mem _ h)) _ ?_
    rcases hj with hj | hj
    · exact .inl (State.oos_coreOut hj)
    · rcases List.mem_cons.mp hj with rfl | hj
      · exact .inl (State.oos_coreOut_self (hcs _ List.mem_cons_self))
      · exact .inr hj

theorem clusterCores_lt {k c : Nat} (hk : k < 128) (hc : c ∈ clusterCores k) : c < 512 := by
  simp only [clusterCores, List.mem_cons, List.not_mem_nil, or_false] at hc
  omega

theorem execCoreOutOfService_core {core : Nat} (hc : core < 512) (s : State) : execCoreOutOfService core s = .next (s.coreOut core) :=
  congrArg Host.Outcome.next (if_pos hc)

theorem execCoreOutOfService_cluster {k : Nat} (hk : k < 128) (s : State) : execCoreOutOfService (512 + k) s =
    .next (((clusterCores k).foldl State.coreOut (s.unhold (.cluster k))).setCluster k { ClusterSt.init with oos := true }) := by
  have h1 : ¬ 512 + k < 512 := by omega
  have h2 : 512 + k < 640 := by omega
  have h3 : 512 + k - 512 = k := by omega
  refine congrArg Host.Outcome.next ((if_neg h1).trans ((if_pos h2).trans ?_))
  rw [h3]

theorem State.coreGangs_congr {s t : State} (h : t.gangs = s.gangs) (core : Nat) : t.coreGangs core = s.coreGangs core := by
  rw [State.coreGangs, h]; rfl

theorem State.get_blocks_requeued {s : State} {core i : Nat} {x : Blk} (hx : Tab.get s.blocks i = some x) (hp : x.place = 1) (hc : x.core = core) :
    Tab.get (s.requeued core).blocks i = some { x with place := 0 } := by
  unfold State.requeued
  dsimp only
  rw [Tab.get_mapV, hx]
  simp [hp, hc]

theorem State.blocks_coreOut {s : State} {core i : Nat} {x : Blk} (hc : core < 512) (ho : (s.core core).oos = false)
    (hg : s.coreGangs core = []) (hh : s.ctrHomes = []) (hx : Tab.get s.blocks i = some x) (hp : x.place = 1) (hxc : x.core = core) :
    Tab.get (s.coreOut core).blocks i = some { x with place := 0 } := by
  obtain ⟨hgs, hbs, -⟩ := State.frame_coreEmptied hh core
  have hl : (s.coreEmptied core).coreLaunches core = [] := by
    have : (s.coreEmptied core).coreGangs core = [] := (State.coreGangs_congr hgs core).trans hg
    rw [State.coreLaunches, this]; rfl
  have hb : (s.coreKilled core).blocks = s.blocks := by
    rw [State.coreKilled, hl]; exact hbs
  rw [State.coreOut_eq hc ho]
  exact State.get_blocks_requeued (hb ▸ hx) hp hxc

theorem State.launch_coreOut {s : State} {core gid : Nat} {g : Gang} (hc : core < 512) (ho : (s.core core).oos = false)
    (hg : s.coreGangs core = [(gid, g)]) (hh : s.ctrHomes = []) (hl : s.launch g.lslot ≠ none) :
    ∃ l, (s.coreOut core).launch g.lslot = some l ∧ l.status = 2 ∧ l.detail = 75 := by
  obtain ⟨hgs, -, -⟩ := State.frame_coreEmptied hh core
  have hls : (s.coreEmptied core).coreLaunches core = [g.lslot] := by
    have : (s.coreEmptied core).coreGangs core = [(gid, g)] := (State.coreGangs_congr hgs core).trans hg
    rw [State.coreLaunches, this]; rfl
  have hk : s.coreKilled core = ((s.coreEmptied core).updCore core (fun k => { k with oos := true })).killLaunch g.lslot 75 := by
    rw [State.coreKilled, hls]; rfl
  rw [State.coreOut_eq hc ho]
  have h := State.launch_killLaunch (s := (s.coreEmptied core).updCore core (fun k => { k with oos := true }))
    ((s.coreEmptied_persists core).launch _ hl) 75
  rw [← hk] at h
  exact h

end Sys2Proof.Machine
end

section
/-! SUPPORT. O47: error records, and corrected and uncorrectable errors. -/

namespace Sys2Proof.Machine

/-! ## Bytes put and read -/

theorem Cells.get_putBytes (m : Cells 8) (a : Nat) (bs : List Byte) (x : Nat) :
    Cells.get (Cells.putBytes m a bs) x = if a ≤ x ∧ x < a + bs.length then bs.getD (x - a) 0 else Cells.get m x := by
  induction bs generalizing m a with
  | nil => simp [Cells.putBytes]
  | cons b bs ih =>
    rw [Cells.putBytes, ih, Cells.get_set, List.length_cons]
    rcases Nat.lt_trichotomy x a with h | rfl | h
    · rw [if_neg (by omega), if_neg (by omega), if_neg (by omega)]
    · rw [if_neg (by omega), if_pos rfl, if_pos (by omega), Nat.sub_self]; rfl
    · have hx : x - a = x - (a + 1) + 1 := by omega
      rw [if_neg (show x ≠ a by omega), hx]
      by_cases hb : x < a + 1 + bs.length
      · rw [if_pos (by omega), if_pos (by omega)]; rfl
      · rw [if_neg (by omega), if_neg (by omega)]

theorem Cells.bytes_putBytes (m : Cells 8) (a : Nat) (bs : List Byte) : Cells.bytes (Cells.putBytes m a bs) a bs.length = bs := by
  rw [Cells.bytes_eq_map]
  refine List.ext_getElem (by simp) fun i h1 h2 => ?_
  rw [List.getElem_map, List.getElem_range, Cells.get_putBytes, if_pos (by omega), Nat.add_sub_cancel_left, List.getD_eq_getElem _ _ h2]

/-! ## Error records -/

section
variable {s : State} {o : Nat} (ho : o % 64 = 0) (hl : s.lost (o / 128) = false) (hp : s.protOf (o / 128 * 128) = none)
include ho hl hp

theorem State.rawWrite_of_unprotected {bs : List Byte} (hb : bs.length = 64) :
    (s.rawWrite o bs).mem = Cells.putBytes s.mem o bs := by
  have hn : (o + bs.length + 127) / 128 - o / 128 = 1 := by omega
  have hlines : (List.range 1).map (· + o / 128) = [o / 128] := by simp
  unfold State.rawWrite
  dsimp only
  rw [hn, hlines, if_neg (by simp [hl]), List.foldl_cons, List.foldl_nil]
  unfold State.mirrorSectors
  split
  · rfl
  · next p h =>
    have h' : s.protOf (o / 128 * 128) = some p := h
    rw [hp] at h'
    cases h'

end

theorem length_errBytes (time pa va cnt det uk un ls as pt cls kind : Nat) : (errBytes time pa va cnt det uk un ls as pt cls kind).length = 64 := by
  rw [errBytes, length_leBytes]

section
variable {s : State} (pa va cnt det uk un ls as pt cls kind : Nat)

theorem State.errRecord_of_full (h : s.err.cfg.getLsbD 0 = false ∨ (s.err.tail - s.err.head).toNat = 2 ^ fld s.err.cfg.toNat 1 5) :
    s.errRecord pa va cnt det uk un ls as pt cls kind =
      { s with err := { s.err with lost := if s.err.lost = 0xFFFFFFFF#32 then s.err.lost else s.err.lost + 1 } } := by
  have hc : (!s.err.cfg.getLsbD 0 || (s.err.tail - s.err.head).toNat == 2 ^ fld s.err.cfg.toNat 1 5) = true := by
    rcases h with h | h
    · rw [h]; rfl
    · rw [h]; simp
  have hl : (s.err.lost.toNat = 2 ^ 32 - 1) = (s.err.lost = 0xFFFFFFFF#32) := propext
    ⟨fun h => BitVec.eq_of_toNat_eq (h.trans (by decide)), fun h => by rw [h]; decide⟩
  refine (if_pos hc).trans ?_
  simp only [hl]

theorem State.errRecord_of_room (h : s.err.cfg.getLsbD 0 = true) (hn : (s.err.tail - s.err.head).toNat ≠ 2 ^ fld s.err.cfg.toNat 1 5)
    {o : Nat} (ha : s.err.base.toNat + 64 * (s.err.tail.toNat % 2 ^ fld s.err.cfg.toNat 1 5) = o) (ho : o < devSize) :
    s.errRecord pa va cnt det uk un ls as pt cls kind = { s.rawWrite o (errBytes s.pkgNs pa va cnt det uk un ls as pt cls kind) with
      err := { s.err with tail := s.err.tail + 1 }
      irqs := (s.rawWrite o (errBytes s.pkgNs pa va cnt det uk un ls as pt cls kind)).irqs ++ [fld s.err.cfg.toNat 8 8] } := by
  have hc : ¬ (!s.err.cfg.getLsbD 0 || (s.err.tail - s.err.head).toNat == 2 ^ fld s.err.cfg.toNat 1 5) = true := by
    rw [h, beq_eq_false_iff_ne.mpr hn]; decide
  have ht : s.target o = .dev o := if_pos ho
  refine (if_neg hc).trans ?_
  simp only [ha, State.physWrite, ht]
  rfl

end

/-! ## Corrected errors -/

theorem usCycles_1000 : usCycles 1000 = 2700000 := by decide

section
variable {s : State} {uk un arr t : Nat}

theorem execEccError_corrected (s : State) (uk un arr : Nat) : execEccError (.corrected uk un arr) s =
    .next { s with err := { s.err with corrected := s.err.corrected ++ [(uk, un, arr, s.now / 2700000)] } } := by
  simp only [execEccError, usCycles_1000]

theorem State.ecccRecords_of_nil (h : s.err.corrected = []) (n : Nat) : s.ecccRecords uk un n = s := by
  cases n with
  | zero => rfl
  | succ n => simp [State.ecccRecords, h]

theorem State.corrected_errRecord (s : State) (pa va cnt det uk un ls as pt cls kind : Nat) :
    (s.errRecord pa va cnt det uk un ls as pt cls kind).err.corrected = s.err.corrected := by
  unfold State.errRecord
  dsimp only
  split <;> rfl

/-- The records of an interval that is over, all of one unit: one record. -/
theorem State.ecccRecords_of_past {l : List (Nat × Nat × Nat × Nat)} (h : s.err.corrected = (uk, un, arr, t) :: l)
    (hl : ∀ c ∈ l, c = (uk, un, arr, t)) (ht : t < s.now / 2700000) (n : Nat) :
    s.ecccRecords uk un (n + 1) = ({ s with err := { s.err with corrected := [] } } : State).errRecord 0 0 (l.length + 1) arr uk un 0xFFF 0 0 0 3 := by
  have hall : ∀ c ∈ s.err.corrected, sameEccc (uk, un, arr, t) c = true := by
    intro c hc
    rw [h] at hc
    have : c = (uk, un, arr, t) := (List.mem_cons.mp hc).elim id (hl c)
    rw [this]; simp [sameEccc]
  have hsame : s.err.corrected.filter (sameEccc (uk, un, arr, t)) = s.err.corrected := List.filter_eq_self.mpr hall
  have hrest : s.err.corrected.filter (fun x => !sameEccc (uk, un, arr, t) x) = [] := by
    refine List.filter_eq_nil_iff.mpr fun c hc => ?_
    rw [hall c hc]; decide
  have hfind : s.err.corrected.find? (fun c => c.1 == uk && c.2.1 == un && decide (c.2.2.2 < s.now / usCycles 1000)) = some (uk, un, arr, t) := by
    rw [h, usCycles_1000]
    exact List.find?_cons_of_pos (by simp [ht])
  have hlen : s.err.corrected.length = l.length + 1 := by rw [h]; rfl
  unfold State.ecccRecords
  rw [hfind]
  simp only [hsame, hrest, hlen]
  exact State.ecccRecords_of_nil ((State.corrected_errRecord _ _ _ _ _ _ _ _ _ _ _ _).trans rfl) n

theorem State.ecccRecords_of_now {l : List (Nat × Nat × Nat × Nat)} (h : s.err.corrected = l) (hl : ∀ c ∈ l, s.now / 2700000 ≤ c.2.2.2) (n : Nat) :
    s.ecccRecords uk un n = s := by
  cases n with
  | zero => rfl
  | succ n =>
    have hfind : s.err.corrected.find? (fun c => c.1 == uk && c.2.1 == un && decide (c.2.2.2 < s.now / usCycles 1000)) = none := by
      rw [h, usCycles_1000]
      refine List.find?_eq_none.mpr fun c hc => ?_
      have := hl c hc
      simp [Nat.not_lt.mpr this]
    unfold State.ecccRecords
    rw [hfind]

end

/-! ## Uncorrectable errors -/

section
variable {s : State}

theorem execEccError_sector {sec : Nat} (hd : sec * 32 < devSize) (hl : s.lost (sec / 4) = false) (hp : s.secPoison sec = false) (arr : Nat) :
    execEccError (.sector arr sec) s = .next (({ s with poison := sec :: s.poison } : State).errRecord
      (sec * 32) 0 1 arr 1 (s.servSlice (sec / 4)) 0xFFF 0 0 0 2) := by
  have hc : ¬ (decide (devSize ≤ sec * 32) || s.lost (sec / 4) || s.secPoison sec) = true := by
    rw [hl, hp, decide_eq_false (Nat.not_le.mpr hd)]; decide
  exact congrArg Host.Outcome.next (if_neg hc)

/-- The state with a sector's bytes changed and its old check value kept. -/
def State.escaped (s : State) (sec : Nat) (bs : List Byte) : State :=
  { s with
    mem := Cells.putBytes s.mem (sec * 32) bs
    badChk := Tab.set s.badChk sec (crc16 (Cells.bytes s.mem (sec * 32) 32)) }

theorem execEccError_escaped {sec : Nat} (hd : sec * 32 < devSize) (hl : s.lost (sec / 4) = false) (hc : Tab.get s.badChk sec = none)
    {bs : List Byte} (hb : bs.length = 32) : execEccError (.escaped sec bs) s = .next (s.escaped sec bs) := by
  have hn : ¬ (decide (devSize ≤ sec * 32) || s.lost (sec / 4)) = true := by
    rw [hl, decide_eq_false (Nat.not_le.mpr hd)]; decide
  have ht : (bs ++ List.replicate 32 0).take 32 = bs := by rw [← hb, List.take_left]
  refine congrArg Host.Outcome.next ((if_neg hn).trans ?_)
  rw [hc, ht]
  rfl

theorem State.escaped_spec (s : State) (sec : Nat) {bs : List Byte} (hb : bs.length = 32) :
    Cells.bytes (s.escaped sec bs).mem (sec * 32) 32 = bs ∧
    (s.escaped sec bs).chkOk sec = (crc16 (Cells.bytes s.mem (sec * 32) 32) == crc16 bs) ∧
    (∀ a, a / 32 ≠ sec → Cells.get (s.escaped sec bs).mem a = Cells.get s.mem a) := by
  have hbytes : Cells.bytes (s.escaped sec bs).mem (sec * 32) 32 = bs := by
    have := Cells.bytes_putBytes s.mem (sec * 32) bs
    rw [hb] at this
    exact this
  refine ⟨hbytes, ?_, fun a ha => ?_⟩
  · have hg : Tab.get (s.escaped sec bs).badChk sec = some (crc16 (Cells.bytes s.mem (sec * 32) 32)) := by
      rw [State.escaped, Tab.get_set, if_pos rfl]
    simp only [State.chkOk, hg, hbytes]
  · rw [State.escaped, Cells.get_putBytes, if_neg (by omega)]

theorem State.gang_eccuGang (s : State) (gid va array cls k : Nat) : (s.eccuGang gid va array cls).gang k = s.gang k ∧
    (s.eccuGang gid va array cls).crew k = s.crew k := by
  unfold State.eccuGang
  split
  · have h := s.errRecord_homeWide 0 va 1 array 0
    exact ⟨congrArg (Tab.get · k) (h _ _ _ _ _ _).gangs, congrArg (Tab.get · k) (h _ _ _ _ _ _).crews⟩
  · exact ⟨rfl, rfl⟩

theorem execEccError_scratch {gid sec : Nat} {g : Gang} (hg : s.gang gid = some g) (hp : sec ∉ g.scrPoison) (hs : sec * 32 < g.scrSz) :
    execEccError (.scratch gid sec) s = .next ((s.setGang gid { g with scrPoison := sec :: g.scrPoison }).eccuGang gid (sec * 32) 4 0) := by
  simp [execEccError, hg, hp, hs]

theorem execEccError_register {key r lane : Nat} {c : Crew} (hc : s.crew key = some c) (hb : (r, lane) ∉ c.bad) (hl : lane < 32) :
    execEccError (.register key r lane) s = .next ((s.setCrew key { c with bad := (r, lane) :: c.bad }).eccuGang (keyGid key) 0 5 8) := by
  simp [execEccError, hc, hb, hl]

theorem execEccError_tile {gid t : Nat} {g : Gang} (hg : s.gang gid = some g) (hp : t ∉ g.tilePoison) (ht : t < g.ntiles) :
    execEccError (.tile gid t) s = .next ((s.setGang gid { g with tilePoison := t :: g.tilePoison }).eccuGang gid 0 6 8) := by
  simp [execEccError, hg, hp, ht]

end

/-! ## The obligation -/

theorem State.failed_enginesFail {s : State} {hd id : Nat} {k : Cmd} (hk : Tab.get (s.enginesFail hd).cmds id = some k)
    (hdie : Config.engineDie id = hd) : k.failed = true := by
  rw [State.enginesFail, Tab.get_mapV] at hk
  obtain ⟨v, -, rfl⟩ := Option.map_eq_some_iff.mp hk
  rw [if_pos hdie]

/-- The state when a home die has failed. -/
def State.dieDown (s : State) (hd : Nat) : State :=
  ((s.dieFailedOver (s.dieLost hd) hd).enginesFail hd).errRecord 0 0 1 hd 3 0 0xFFF 0 0 0 5

theorem State.dieDown_spec {s : State} (hlen : s.homes.length = 4) {hd : Nat} (h4 : hd < 4) :
    ((s.dieDown hd).home hd).failed = true ∧ (∀ h, h ≠ hd → ((s.dieDown hd).home h).failed = (s.home h).failed) ∧
    ((s.dieDown hd).home (Nat.xor hd 1)).clock = Ts.smax (s.home (Nat.xor hd 1)).clock s.lastRec ∧
    (∀ line, lineDie line = hd → (s.dieDown hd).lost line = ((s.protOf (line * 128)).isNone || (s.home (Nat.xor hd 1)).failed)) ∧
    (∀ id k, Tab.get (s.dieDown hd).cmds id = some k → Config.engineDie id = hd → k.failed = true) := by
  have hsame : (s.dieLost hd).SameHomes (s.dieDown hd) := s.dieFail_sameHomes hd
  have hcmds : (s.dieDown hd).cmds = ((s.dieFailedOver (s.dieLost hd) hd).enginesFail hd).cmds :=
    (State.errRecord_homeWide _ _ _ _ _ _ _ _ _ _ _ _).cmds
  refine ⟨?_, fun h hne => ?_, ?_, fun line hl => ?_, fun id k hk => State.failed_enginesFail (hcmds ▸ hk)⟩
  · rw [hsame.home, State.home_dieLost hlen h4, if_neg (xor_one_ne hd).symm, if_pos rfl]
  · rw [hsame.home, State.home_dieLost hlen h4, if_neg hne]
    split <;> rfl
  · rw [hsame.home, State.home_dieLost hlen h4, if_pos rfl]
  · rw [hsame.lost, State.lost_dieLost hlen h4 hl]
    rfl

theorem execHomeDieFailure_of_failed {s : State} {hd : Nat} (hf : (s.home hd).failed = true) : execHomeDieFailure hd s = .next s := by
  have hc : (decide (4 ≤ hd) || s.dieFailed hd) = true := by rw [State.dieFailed, hf, Bool.or_true]
  exact congrArg Host.Outcome.next (if_pos hc)

theorem State.errRecord_spec {s : State} (pa va cnt det uk un ls as pt cls kind : Nat) (h : s.err.cfg.getLsbD 0 = true)
    (hn : (s.err.tail - s.err.head).toNat ≠ 2 ^ fld s.err.cfg.toNat 1 5) {o : Nat}
    (ha : s.err.base.toNat + 64 * (s.err.tail.toNat % 2 ^ fld s.err.cfg.toNat 1 5) = o) (ho : o < devSize)
    (hl : s.lost (o / 128) = false) (hp : s.protOf (o / 128 * 128) = none) (h64 : o % 64 = 0) :
    ∃ u, s.errRecord pa va cnt det uk un ls as pt cls kind = u ∧
      Cells.bytes u.mem o 64 = errBytes s.pkgNs pa va cnt det uk un ls as pt cls kind ∧
      (∀ a, a < o ∨ o + 64 ≤ a → Cells.get u.mem a = Cells.get s.mem a) ∧ u.err = { s.err with tail := s.err.tail + 1 } ∧
      u.irqs = s.irqs ++ [fld s.err.cfg.toNat 8 8] := by
  have hmem := State.rawWrite_of_unprotected h64 hl hp (length_errBytes s.pkgNs pa va cnt det uk un ls as pt cls kind)
  have hirq : (s.rawWrite o (errBytes s.pkgNs pa va cnt det uk un ls as pt cls kind)).irqs = s.irqs := by
    have h := s.rawWrite_rawOnly o (errBytes s.pkgNs pa va cnt det uk un ls as pt cls kind)
    unfold State.RawOnly at h
    rw [h]
  refine ⟨_, State.errRecord_of_room pa va cnt det uk un ls as pt cls kind h hn ha ho, ?_, fun a ha => ?_, rfl, ?_⟩
  · refine (congrArg (fun m => Cells.bytes m o 64) hmem).trans ?_
    have := Cells.bytes_putBytes s.mem o (errBytes s.pkgNs pa va cnt det uk un ls as pt cls kind)
    rwa [length_errBytes] at this
  · refine (congrArg (Cells.get · a) hmem).trans ?_
    rw [Cells.get_putBytes, length_errBytes, if_neg (by omega)]
  · exact congrArg (· ++ [fld s.err.cfg.toNat 8 8]) hirq

theorem execEcccInterval_of_past {s : State} {uk un arr t : Nat} {l : List (Nat × Nat × Nat × Nat)} (h : s.err.corrected = (uk, un, arr, t) :: l)
    (hl : ∀ c ∈ l, c = (uk, un, arr, t)) (ht : t < s.now / 2700000) {n : Nat} (hn : l.length + 1 = n) : execEcccInterval uk un s =
      .next (({ s with err := { s.err with corrected := [] } } : State).errRecord 0 0 n arr uk un 0xFFF 0 0 0 3) := by
  subst hn
  have hlen : s.err.corrected.length = l.length + 1 := by rw [h]; rfl
  exact congrArg Host.Outcome.next ((congrArg (s.ecccRecords uk un) hlen).trans (State.ecccRecords_of_past h hl ht l.length))

/-- Settles O47: what fails with a home die or a core, the records of the error log, and what corrected and uncorrectable errors do. -/
theorem failuresAndErrors : Obligations.FailuresAndErrors := by
  unfold Obligations.FailuresAndErrors
  refine ⟨fun s hlen => ⟨fun hd h4 hf => execHomeDieFailure_of_failed hf, fun hd h4 hf => ?_, fun core hc => ⟨fun ho => ?_, fun ho => ?_⟩,
    fun k hk => ?_⟩, ?_, fun s uk un arr => ⟨execEccError_corrected s uk un arr, fun h => ?_, fun t h => ⟨fun ht => ?_, fun ht => ?_⟩,
    fun t h ht => ?_⟩, ?_⟩
  · obtain ⟨h1, h2, h3, h5, h6⟩ := State.dieDown_spec hlen h4
    refine ⟨s.dieDown hd, execHomeDieFailure_of_up h4 hf, h1, h2, h3, fun line hl hp => ?_, fun line hl hp hb => ?_, h6⟩
    · rw [h5 line hl, hp]; rfl
    · rw [h5 line hl, hb, Bool.or_false]
      exact Option.isNone_eq_false_iff.mpr (Option.isSome_iff_ne_none.mpr hp)
  · exact (execCoreOutOfService_core hc s).trans (congrArg Host.Outcome.next (State.coreOut_of_out ho))
  · refine ⟨_, execCoreOutOfService_core hc s, ?_, fun i x hg hh hx hp hxc => State.blocks_coreOut hc ho hg hh hx hp hxc,
      fun gid g l hg hh hl => State.launch_coreOut hc ho hg hh (by rw [hl]; exact nofun)⟩
    rw [State.coreOut_eq hc ho, State.core_setCore, if_pos rfl]
    rfl
  · refine ⟨_, execCoreOutOfService_cluster hk s, ?_, fun c hc => ?_⟩
    · rw [State.cluster_setCluster, if_pos rfl]
    · exact State.oos_foldl_coreOut _ (fun c hc => clusterCores_lt hk hc) _ (.inr hc)
  · intro s pa va cnt det uk un ls as pt cls kind o e k
    exact ⟨fun h => State.errRecord_of_full pa va cnt det uk un ls as pt cls kind h,
      fun h hn ha ho hl hp h64 => State.errRecord_spec pa va cnt det uk un ls as pt cls kind h hn ha ho hl hp h64⟩
  · exact congrArg Host.Outcome.next (State.ecccRecords_of_nil h _)
  · exact congrArg Host.Outcome.next (State.ecccRecords_of_now h (by simpa using ht) _)
  · exact execEcccInterval_of_past h nofun ht rfl
  · exact execEcccInterval_of_past h (by simp) ht rfl
  · intro s arr sec gid key r lane t bs
    refine ⟨fun hd hl => ⟨fun hp => execEccError_sector hd hl hp arr, fun hc hb => ?_⟩, fun g hg hp hs => ?_, fun c hc hb hl => ?_,
      fun g hg hp ht => ?_⟩
    · obtain ⟨h1, h2, h3⟩ := s.escaped_spec sec hb
      exact ⟨_, execEccError_escaped hd hl hc hb, h1, h2, h3, rfl⟩
    · exact ⟨_, execEccError_scratch hg hp hs, (State.gang_eccuGang _ _ _ _ _ _).1.trans ((State.gang_setGang _ _ _ _).trans (if_pos rfl))⟩
    · exact ⟨_, execEccError_register hc hb hl, (State.gang_eccuGang _ _ _ _ _ _).2.trans ((State.crew_setCrew _ _ _ _).trans (if_pos rfl))⟩
    · exact ⟨_, execEccError_tile hg hp ht, (State.gang_eccuGang _ _ _ _ _ _).1.trans ((State.gang_setGang _ _ _ _).trans (if_pos rfl))⟩

end Sys2Proof.Machine
end

section
/-! SUPPORT. O35: `hret` for a crew whose gang belongs to no launch. -/

namespace Sys2Proof.Machine

set_option Elab.async false -- one proof at a time: the threads of many at once take too much memory

/-- The trap that the crew took. -/
def orphanTrap : Trap := { mkTrap 5 0 0xFFFFFFFF#32 0 7 with inService := true }

/-- The trapped crew. -/
def orphanCrew : Crew := { placeCrew 0 with trap := some orphanTrap }

/-- Its trap is in service, and its gang's launch entry is empty. -/
def orphanTrapSt : State :=
  { State.reset.placed [] with
    launches := []
    crews := [(crewKey 0 0, orphanCrew)]
    clusters := [(0, { ClusterSt.init with mc := { Mgmt.init with crew := some (crewKey 0 0) } })]
    cur := .mgmt 0 }

/-- The header of a word without a guard. -/
def unguarded : Hdr := { stall := 0, pn := false, pred := 7 }

/-- Whether gang `gid` of an outcome's state has a save pending. -/
def stopOf (gid : Nat) (o : Host.Outcome State Fault Refusal) : Option Bool :=
  match o with
  | .next s => (s.gang gid).map (·.stop)
  | _ => none

theorem stopOf_next {gid : Nat} {s : State} {v : Gang} (h : s.gang gid = some v) : stopOf gid (.next s) = some v.stop := by
  rw [stopOf, h]
  rfl

theorem orphanTrap_hret : stopOf 0 (exec (.hret unguarded) orphanTrapSt) = some false := by decide +kernel

/-- Refutes O35: `hret` sets the save of the gangs of the crew's unit, and a gang without a launch is in no unit, not even its own. -/
theorem not_handlers : ¬ Obligations.Handlers := by
  unfold Obligations.Handlers
  intro h
  have hcrew : orphanTrapSt.crew (crewKey 0 0) = some orphanCrew := by decide +kernel
  have hgang : ∃ g, orphanTrapSt.gang (keyGid (crewKey 0 0)) = some g := Option.isSome_iff_exists.mp (by decide +kernel)
  obtain ⟨g, hg⟩ := hgang
  obtain ⟨hwords, -⟩ := h.1 orphanTrapSt 0 (crewKey 0 0) orphanCrew orphanTrap unguarded 0 (.imm 0) 0
  obtain ⟨-, -, -, -, -, -, -, u, hu, -, -, -, hstop⟩ := hwords (by decide +kernel) (by decide +kernel) hcrew rfl (by decide +kernel)
  obtain ⟨v, hv, hvs, -⟩ := hstop g hg
  have hs : stopOf 0 (exec (.hret unguarded) orphanTrapSt) = some true := by
    rw [hu]
    exact (stopOf_next hv).trans (congrArg some hvs)
  rw [orphanTrap_hret] at hs
  exact absurd hs (by decide)

end Sys2Proof.Machine
end

section
/-! SUPPORT. The words of a slice on its pump, and on a crew (R150, R253 to R257). -/

namespace Sys2Proof.Machine

/-- A slice word on the pump of its gang. -/
theorem sliceWord_of_pump {s : State} {gid : Nat} {g : Gang} {p : Pump} (hcur : s.cur = .pump gid) (hg : s.gang gid = some g) (hp : g.pump = some p)
    (i : Instr) (h : Hdr) (f : PBody) : sliceWord i h f s = .next (f gid g p s) := by
  simp only [sliceWord, hcur, hg, hp]

/-- A slice word on a crew is no instruction. -/
theorem sliceWord_ill {s : State} {key e : Nat} {c0 : Crew} (hcur : s.cur = .crew key e) (hc : s.crew key = some c0) (i : Instr) (h : Hdr) (f : PBody) :
    sliceWord i h f s = .next (((s.setCrew key (c0.settle s.now)).markIssued (c0.settle s.now)).takeTrap key
      (mkTrap 0 e ((c0.settle s.now).guard h.pred h.pn ((c0.settle s.now).split e).mask) 0 i.word.toNat)) := by
  have hword : sliceWord i h f s = refusedWord i h 0 none s := by simp only [sliceWord, hcur]
  exact hword.trans (refusedWord_ill hcur hc i h none)

/-- Parameters that end before the bytes asked for (R254). -/
theorem State.pm_eq_none {s : State} {gid x k : Nat} (h : (s.params gid).length < x + k) : s.pm gid x k = none := if_pos h

section
variable {s : State} {gid : Nat} {g : Gang} {p : Pump} (hcur : s.cur = .pump gid) (hg : s.gang gid = some g) (hp : g.pump = some p)
include hcur hg hp

/-- `ax.loop` of a count above 0 opens a loop (R254). -/
theorem execAxLoop_opens {h : Hdr} {pr : Bool} {n : BitVec 16} {m : Nat} (hm : (if pr then s.pm gid (4 * n.toNat) 4 else some n.toNat) = some m)
    (hroom : p.loops.length < 4) (h0 : 0 < m) : execAxLoop h pr n s = .next (s.pumpNext gid { p with loops := p.loops ++ [(m, 0)] }) := by
  simp only [execAxLoop, sliceWord_of_pump hcur hg hp, hm, if_neg (Nat.not_le.mpr hroom), if_neg (Nat.ne_of_gt h0)]

/-- `ax.loop` of a count of 0 passes its loop by (R254). -/
theorem execAxLoop_skips {h : Hdr} {pr : Bool} {n : BitVec 16} {va : Nat} (hm : (if pr then s.pm gid (4 * n.toNat) 4 else some n.toNat) = some 0)
    (hroom : p.loops.length < 4) (hf : s.findLoop gid g p false sliceWords (p.pc + 8) 0 = .addr va) :
    execAxLoop h pr n s = .next (s.pumpDone gid p (va + 8)) := by
  simp only [execAxLoop, sliceWord_of_pump hcur hg hp, hm, if_neg (Nat.not_le.mpr hroom), hf, State.withFound, if_true]

/-- The access registers after a turn of the loop at level `l`. -/
def Pump.stepped (p : Pump) (l : Nat) : List W64 := (List.range 8).map (fun i => p.a.getD i 0 + p.stride i l)

/-- `ax.end` of a loop's last turn closes it (R254). -/
theorem execAxEnd_closes {h : Hdr} {ls : List (Nat × Nat)} {m cn : Nat} (hl : p.loops = ls ++ [(m, cn)]) (hlast : m ≤ cn + 1) :
    execAxEnd h s = .next (s.pumpNext gid { p with
      a := (List.range 8).map (fun i => (p.stepped ls.length).getD i 0 - BitVec.ofNat 64 m * p.stride i ls.length), loops := ls }) := by
  simp only [execAxEnd, sliceWord_of_pump hcur hg hp, hl, List.getLast?_append, List.getLast?_singleton, Option.or_some, Option.some_or, if_neg (Nat.not_lt.mpr hlast), List.length_append, List.length_singleton,
    Nat.add_sub_cancel, List.dropLast_concat, Pump.stepped]

/-- `ax.end` of another turn goes back to its `ax.loop` (R254). -/
theorem execAxEnd_repeats {h : Hdr} {ls : List (Nat × Nat)} {m cn va : Nat} (hl : p.loops = ls ++ [(m, cn)]) (hmore : cn + 1 < m)
    (hf : s.findLoop gid g p true sliceWords (p.pc - 8) 0 = .addr va) :
    execAxEnd h s = .next (s.pumpDone gid { p with a := p.stepped ls.length, loops := ls ++ [(m, cn + 1)] } (va + 8)) := by
  simp only [execAxEnd, sliceWord_of_pump hcur hg hp, hl, List.getLast?_append, List.getLast?_singleton, Option.or_some, Option.some_or, if_pos hmore, hf, State.withFound, List.length_append,
    List.length_singleton, Nat.add_sub_cancel, List.dropLast_concat, Pump.stepped]

/-- What `ax.base` multiplies its second parameter by (R254). -/
def axScale (s : State) (gid : Nat) (g : Gang) (k : BitVec 2) : Nat := if k = 0 then 0 else if k = 1 then g.gx else if k = 2 then g.gy else s.gangG gid

/-- `ax.base` with its parameters there (R254). -/
theorem execAxBase_of_params {h : Hdr} {d : Reg} {k : BitVec 2} {off : BitVec 12} {z y : Nat} (hz : s.pm gid (8 * off.toNat) 8 = some z)
    (hy : (if k = 0 then some 0 else s.pm gid (8 * off.toNat + 8) 8) = some y) :
    execAxBase h d k off s = .next (s.pumpNext gid { p with a := p.a.set d.toNat (BitVec.ofNat 64 (z + axScale s gid g k * y)) }) := by
  refine (sliceWord_of_pump hcur hg hp _ _ _).trans (congrArg Host.Outcome.next ?_)
  have hscale : (match k.toNat with | 0 => 0 | 1 => g.gx | 2 => g.gy | _ => s.gangG gid) = axScale s gid g k := by
    rcases k with ⟨k, hk⟩
    interval_cases k <;> rfl
  simp only [hz, hy]
  exact congrArg (fun n => s.pumpNext gid { p with a := p.a.set d.toNat (BitVec.ofNat 64 (z + n * y)) }) hscale

/-- `ax.base` beyond the parameters (R254). -/
theorem execAxBase_past {h : Hdr} {d : Reg} {k : BitVec 2} {off : BitVec 12} (hz : (s.params gid).length < 8 * off.toNat + 8) :
    execAxBase h d k off s = .next (s.pumpTrap gid 6 0 (8 * off.toNat) 0) := by
  refine (sliceWord_of_pump hcur hg hp _ _ _).trans (congrArg Host.Outcome.next ?_)
  simp only [State.pm_eq_none hz]

/-- `ax.strd` (R254). -/
theorem execAxStrd_of_value {h : Hdr} {pr : Bool} {d : Reg} {l : BitVec 2} {n : BitVec 16} {v : W64}
    (hv : (if pr then (s.pm gid (8 * n.toNat) 8).map (BitVec.ofNat 64) else some (n.signExtend 64)) = some v) :
    execAxStrd h pr d l n s = .next (s.pumpNext gid { p with strd := p.strd.set (4 * d.toNat + l.toNat) v }) := by
  simp only [execAxStrd, sliceWord_of_pump hcur hg hp, hv]

/-- The addresses that an `ax.ld` reads: its well's size in pieces of 16 bytes (R255). -/
def ldAddrs (p : Pump) (a : Reg) (w : Well) : List Nat :=
  (List.range (w.size / 16)).map (fun j => ((p.a.getD a.toNat 0).toNat + 16 * j) % 2 ^ 64)

/-- `ax.ld` into a full well waits (R255). -/
theorem execAxLd_full {h : Hdr} {d a : Reg} {w : Well} (hw : Tab.get g.wells d.toNat = some w) (hpumped : w.pumped = true) (htiles : w.tiles = false)
    (hfull : w.full pumpIdx = true) : execAxLd h d a s = .next (s.pumpWait gid (.axLd h d a) (.well d.toNat)) := by
  simp only [execAxLd, sliceWord_of_pump hcur hg hp, hw, hpumped, htiles, hfull, Bool.not_true, Bool.or_false, Bool.false_eq_true, if_false, if_true]

/-- `ax.ld` pushes the entry that it has read (R255). -/
theorem execAxLd_of_room {h : Hdr} {d a : Reg} {w : Well} {u : State} {bs : List (List Byte)} (hw : Tab.get g.wells d.toNat = some w)
    (hpumped : w.pumped = true) (htiles : w.tiles = false) (hroom : w.full pumpIdx = false)
    (hread : s.pumpReads gid g p 16 (ldAddrs p a w) = .ok u bs) :
    execAxLd h d a s = .next ((((u.scrPut gid (w.entry w.tail) bs.flatten).releaseFloor g.core .gg p.pts).setWell gid d.toNat
      { w with ents := w.ents ++ [(pumpIdx, 0, 0)] }).pumpNext gid p) := by
  rw [ldAddrs] at hread
  simp only [execAxLd, sliceWord_of_pump hcur hg hp, hw, hpumped, htiles, hroom, hread, Bool.not_true, Bool.or_false, Bool.false_eq_true, if_false]

/-- `ax.ldt` pushes the tile that it holds (R256). -/
theorem execAxLdt_of_held {h : Hdr} {d a b c : Reg} {wd wb : Well} {t : Nat} {v : W32} {u : State} (hd : Tab.get g.wells d.toNat = some wd)
    (hb : Tab.get g.wells b.toNat = some wb) (hdp : wd.pumped = true) (hdt : wd.tiles = true) (hbp : wb.pumped = false) (hbt : wb.tiles = true)
    (hheld : p.held = some (t, v)) (hv : Tc.v v = true) (hroom : wd.full pumpIdx = false)
    (hload : s.pumpTile gid g p { name := 0, phys := t, tc := v } (p.a.getD a.toNat 0).toNat (p.a.getD c.toNat 0).toNat = .ok u) :
    execAxLdt h d a b c s = .next (((u.releaseFloor g.core .gg p.pts).setWell gid d.toNat
      { wd with ents := wd.ents ++ [(pumpIdx, t, v)] }).pumpNext gid { p with held := none }) := by
  simp only [execAxLdt, sliceWord_of_pump hcur hg hp, hd, hb, hdp, hdt, hbp, hbt, hheld, hv, hroom, hload, Bool.not_true, Bool.or_false, Bool.false_eq_true, if_false]

/-- `ax.sig` whose arrival is taken (R257). -/
theorem execAxSig_of_taken {h : Hdr} {n : BitVec 16} {u : State} {old : BarObj} {ts : Ts} (hin : 16 * n.toNat + 16 ≤ g.scrSz) (hpoison : g.scrPoison = [])
    (hchk : g.scrBadChk = []) (hscope : (barOf (leVal (g.scrBytes (16 * n.toNat) 16))).scope = 1)
    (harr : s.pumpArrive (.scr gid (16 * n.toNat)) p = .ok u old ts) :
    execAxSig h n s = .next ((u.releaseFloor g.core .gg p.pts).pumpRetire gid) := by
  have hgang : s.barScope (.scr gid (16 * n.toNat)) = .gg := by
    rw [State.barScope_scratch hg, hscope]
    rfl
  simp only [execAxSig, sliceWord_of_pump hcur hg hp, if_neg (Nat.not_lt.mpr hin), State.scrCheck_of_sound hg hpoison hchk, Bool.false_eq_true, if_false, hgang, bne_self_eq_false, harr]

/-- `ax.halt` halts its pump (R257). -/
theorem execAxHalt_of_pump {h : Hdr} : execAxHalt h s = .next (s.pumpHalt gid) := sliceWord_of_pump hcur hg hp _ _ _

/-- A pump that halts keeps its place (R257). -/
theorem State.gang_pumpHalt : (s.pumpHalt gid).gang gid = some { g.closePumped with pump := some { p with halted := true, wait := .none, word := none } } := by
  simp only [State.pumpHalt, State.gang_updGang, if_true, hg, hp, Option.map_some]

end

/-- The wells that a pump fills close as it ends (R116). -/
theorem Gang.closed_of_closePumped {g : Gang} {k : Nat} {w : Well} (hw : Tab.get g.closePumped.wells k = some w) (hp : w.pumped = true) : w.closed = true := by
  simp only [Gang.closePumped, Tab.get_mapV, Option.map_eq_some_iff] at hw
  obtain ⟨v, -, rfl⟩ := hw
  split at hp
  · rename_i h44
    rw [if_pos h44]
  · rename_i h44
    exact absurd hp h44

namespace Slices

/-- Settles O31. -/
theorem sliceWords : Obligations.SliceWords := by
  refine fun s gid g p h n d a b c k l off => ⟨fun hcur hg hp => ⟨fun pr m hm hroom => ⟨fun h0 => ?_, fun va h0 hf => ?_⟩,
    fun ls m cn hl => ⟨fun hlast => ?_, fun va hmore hf => ?_⟩, fun z y hz hy => ?_, fun hz => ?_, fun pr v hv => ?_,
    fun w u bs hw hpumped htiles => ⟨fun hfull => ?_, fun hfull hread => ?_⟩,
    fun wd wb t v u hd hb hdp hdt hbp hbt hheld hv hroom hload => ?_, fun u old ts hin hpo hchk hscope harr => ?_, ?_⟩, fun key e v hcur hv => ?_⟩
  · exact execAxLoop_opens hcur hg hp hm hroom h0
  · exact execAxLoop_skips hcur hg hp (h0 ▸ hm) hroom hf
  · exact execAxEnd_closes hcur hg hp hl hlast
  · exact execAxEnd_repeats hcur hg hp hl hmore hf
  · exact execAxBase_of_params hcur hg hp hz hy
  · exact execAxBase_past hcur hg hp hz
  · exact execAxStrd_of_value hcur hg hp hv
  · exact execAxLd_full hcur hg hp hw hpumped htiles hfull
  · exact execAxLd_of_room hcur hg hp hw hpumped htiles hfull hread
  · exact execAxLdt_of_held hcur hg hp hd hb hdp hdt hbp hbt hheld hv hroom hload
  · exact execAxSig_of_taken hcur hg hp hin hpo hchk hscope harr
  · exact ⟨_, _, _, execAxHalt_of_pump hcur hg hp, State.gang_pumpHalt hcur hg hp, rfl, rfl, rfl, fun _ _ => Gang.closed_of_closePumped, rfl⟩
  · refine ⟨?_, ?_, ?_, ?_, ?_, ?_, ?_, ?_⟩
    all_goals simp only [exec, execAxHalt, execAxEnd, execAxLd, execAxSig, execAxLoop, execAxBase, execAxStrd, execAxLdt, sliceWord_ill hcur hv]

end Slices

end Sys2Proof.Machine
end

section
/-! SUPPORT. `launch`, `reord` and the `idem` forms (R34, R35, R244 to R246). -/

namespace Sys2Proof.Machine

/-! ## `launch` (R244) -/

section
variable {s : State} {x : Ctx} {c : Crew} {t u : State} {h : Hdr} {d a : Reg} {b : Opnd} {pa : Nat}

/-- The result of a `launch`: the ring index, which reads 0 in DET, and the status. -/
def launchWrite (x : Ctx) (d : Reg) (seq st : Nat) (c : Crew) : Crew := c.addPend x.e [sWrite d.toNat ((if x.det then 0 else seq * 2 ^ 32) + st)]

variable (hr : s.ready [Hdr.use h ([sReg a] ++ Opnd.span b 1) [sReg d]] = some (x, c, t))
include hr

theorem execLaunch_of_no_queue (hn : 16384 ≤ c.sval b) :
    execLaunch h d a b s = .next ((t.markIssued c).takeTrap x.key (mkTrap 6 x.e x.act 0 0)) :=
  exec_trap_of_ready (mg := none) (.launch h d a b) hr rfl (if_pos hn)

theorem execLaunch_misaligned (hn : c.sval b < 16384) (hva : c.rs a.toNat % 64 ≠ 0) :
    execLaunch h d a b s = .next ((t.markIssued c).takeTrap x.key
      (laneTrap 1 x.e [(x.act.lanes.getD 0 0, c.rs a.toNat, if c.rs a.toNat < 2 ^ 57 then 4 else 8)] 0)) := by
  have hdetail : (if 2 ^ 57 ≤ c.rs a.toNat then dNoncanon else dMisalign) = if c.rs a.toNat < 2 ^ 57 then 4 else 8 := by
    rcases Nat.lt_or_ge (c.rs a.toNat) (2 ^ 57) with hlt | hge
    · rw [if_neg (Nat.not_le.mpr hlt), if_pos hlt, dMisalign]
    · rw [if_pos hge, if_neg (Nat.not_lt.mpr hge), dNoncanon]
  refine exec_trap_of_ready (mg := none) (.launch h d a b) hr rfl ((if_neg (Nat.not_le.mpr hn)).trans ((if_pos hva).trans ?_))
  rw [hdetail]

variable (hn : c.sval b < 16384) (hva : c.rs a.toNat % 64 = 0)
  (hrec : t.checkAll (.core c.core) (.split x.key x.e) (keyGid x.key) c.walks .gl 0 64 [(x.act.lanes.getD 0 0, c.rs a.toNat)] =
    .ok [(x.act.lanes.getD 0 0, .phys pa)])
  (hrel : t.releaseReady x.key .dv = (u, true))
include hn hva hrec hrel

theorem execLaunch_unassigned (hq : (u.queue (c.sval b)).assigned (u.gangAsid (keyGid x.key)) (u.gangPart (keyGid x.key)) = false) :
    execLaunch h d a b s = .next (x.retires 8 h.stall.toNat (u.updCrew x.key (launchWrite x d 0 2))) := by
  refine exec_done_of_ready (mg := none) (.launch h d a b) hr rfl ?_
  simp only [if_neg (Nat.not_le.mpr hn), if_neg (not_not.mpr hva), checked_of_ok hrec, hrel, hq, Bool.not_true, Bool.not_false, Bool.false_eq_true,
    if_false, if_true]
  rfl

variable (hq : (u.queue (c.sval b)).assigned (u.gangAsid (keyGid x.key)) (u.gangPart (keyGid x.key)) = true)
include hq

theorem execLaunch_full (hfull : ((u.queue (c.sval b)).qtail - (u.queue (c.sval b)).qhead).toNat = 2 ^ (u.queue (c.sval b)).k) :
    execLaunch h d a b s = .next (x.retires 8 h.stall.toNat (u.updCrew x.key (launchWrite x d 0 1))) := by
  refine exec_done_of_ready (mg := none) (.launch h d a b) hr rfl ?_
  simp only [if_neg (Nat.not_le.mpr hn), if_neg (not_not.mpr hva), checked_of_ok hrec, hrel, hq, hfull, Bool.not_true, Bool.false_eq_true,
    if_false, if_true]
  rfl

theorem execLaunch_submits {dst : Nat} {u1 u2 : State} {bs bs2 : List Byte} {ts ts2 : Ts} {po : Bool}
    (hroom : ((u.queue (c.sval b)).qtail - (u.queue (c.sval b)).qhead).toNat ≠ 2 ^ (u.queue (c.sval b)).k)
    (hslot : u.checkAll (.core c.core) (.split x.key x.e) (keyGid x.key) c.walks .gl 1 64
      [(x.act.lanes.getD 0 0, (u.queue (c.sval b)).slot (u.queue (c.sval b)).qtail.toNat)] = .ok [(x.act.lanes.getD 0 0, .phys dst)])
    (hown : u.notOwned dst = none) (hread : u.directRead pa 64 c.pts false (some x.key) = .ok u1 bs ts false)
    (hwrite : u1.directWrite dst (if x.det then u1.ownBytes (keyGid x.key) (u1.logicalLane x.key (x.act.lanes.getD 0 0)) pa bs else bs) c.pts
      (some x.key) = .ok u2 bs2 ts2 po) :
    execLaunch h d a b s = .next (x.retires 8 h.stall.toNat (((u2.updCrew x.key (fun c => { c with pts := Ts.smax c.pts ts2 })).setQueue (c.sval b)
      { u.queue (c.sval b) with qtail := (u.queue (c.sval b)).qtail + 1 }).updCrew x.key
        (launchWrite x d (u.queue (c.sval b)).qtail.toNat 0))) := by
  have howes : u.owes [(x.act.lanes.getD 0 0, .phys dst)] = [] :=
    State.owes_eq_nil (fun l hl p hp => by
      rw [List.mem_singleton.mp hl] at hp
      exact Loc.phys.inj hp ▸ hown)
  refine exec_done_of_ready (mg := none) (.launch h d a b) hr rfl ?_
  simp only [if_neg (Nat.not_le.mpr hn), if_neg (not_not.mpr hva), checked_of_ok hrec, hrel, hq, if_neg hroom, checked_of_owned howes hslot, hread, hwrite,
    Bool.not_true, Bool.false_eq_true, if_false]
  rfl

end

/-! ## `reord` (R34, R35, R245) -/

section
variable {s : State} {x : Ctx} {c : Crew} {t u : State} {h : Hdr} {a b : Reg} {g : Gang} {l : Launch}

/-- What `reord` deposits: the keys and payloads of the active lanes, in ascending order. -/
def reordEntries (x : Ctx) (c : Crew) (t : State) (a b : Reg) : List BinEntry :=
  x.act.lanes.map (fun n => { key := c.rv a.toNat n % 65536, payload := c.rvs b.toNat n 2, lane := t.logicalLane x.key n })

/-- The deposits, one after another. -/
def reordDeposits (x : Ctx) (c : Crew) (u : State) (lslot : Nat) (es : List BinEntry) : State × Option Nat :=
  u.deposits (fun v e => if x.det then v.binPut lslot e c.pts else v.deposit lslot e c.pts) es

/-- What `reord` does with a gang that may deposit, and nothing left to release. -/
def reordAct (x : Ctx) (c : Crew) (t u : State) (g : Gang) (l : Launch) (a b : Reg) : Act :=
  if x.det && decide (l.reordN < l.bins.length + (reordEntries x c t a b).length) then .jump (u.killLaunch g.lslot 9) []
  else match (reordDeposits x c u g.lslot (reordEntries x c t a b)).2 with
    | some va => .blocked (u.binAsk g.lslot va)
    | none => endSome x c (reordDeposits x c u g.lslot (reordEntries x c t a b)).1 x.act

/-- The body of `reord` (R245). -/
def reordBody (a b : Reg) : Body := fun x c s =>
  match s.gang (keyGid x.key), s.gangLaunch (keyGid x.key) with
  | some g, some l =>
    if l.contDesc.isEmpty || l.reordN = 0 || g.cont || g.inIdem then .trap s (mkTrap 7 x.e x.act 0 0)
    else if !(s.releaseReady x.key .dv).2 then .blocked (s.releaseReady x.key .dv).1
    else reordAct x c s (s.releaseReady x.key .dv).1 g l a b
  | _, _ => .done s

theorem execReord_eq : exec (.reord h a b) s = fullWord (.reord h a b) h (Hdr.use h [vReg a 1, vReg b 2] []) 8 (reordBody a b) none s := rfl

theorem reordBody_of_launch (hg : t.gang (keyGid x.key) = some g) (hl : t.gangLaunch (keyGid x.key) = some l) (hcont : l.contDesc ≠ []) (hn : l.reordN ≠ 0)
    (hgc : g.cont = false) (hidem : g.inIdem = false) (hrel : t.releaseReady x.key .dv = (u, true)) : reordBody a b x c t = reordAct x c t u g l a b := by
  have hmay : (l.contDesc.isEmpty || l.reordN = 0 || g.cont || g.inIdem) = false := by simp [hcont, hn, hgc, hidem]
  simp only [reordBody, hg, hl, hmay, hrel, Bool.not_true, Bool.false_eq_true, if_false]

/-- A word that ends lanes in the state `v` that it has made. -/
theorem ends_of_endSome {i : Instr} {use : WUse} {body : Body} {v : State} {m : Mask} (hr : s.ready [use] = some (x, c, t))
    (hi : exec i s = fullWord i h use 8 body none s) (hb : body x c t = endSome x c v m) : Ends i s x c v h.stall.toNat m := by
  obtain ⟨hstay, hmove, hlast, hdet⟩ := endSome_cases x c v m
  refine ⟨fun hl hs => exec_jump_of_ready i hr hi (hb.trans (hstay hl hs)), fun hl hs w es hw => ?_,
    fun hl hd => exec_jump_of_ready i hr hi (hb.trans (hlast hl hd)), fun hl hd w hw => exec_jump_of_ready i hr hi (hb.trans (hdet hl hd w hw))⟩
  exact exec_jump_of_ready i hr hi (hb.trans ((hmove hl hs).trans (recMoves_of_jump hw (fun s1 => .jump (endedAt x c m s1) [x.e]))))

end

/-! ## Idempotent regions (R246) -/

section
variable {s : State} {x : Ctx} {c : Crew} {t u : State} {h : Hdr} {g : Gang}

/-- An `idem` form that its gang is at the wrong side of (R246). -/
theorem idemWord_ill {i : Instr} {ending : Bool} (hg : t.gang (keyGid x.key) = some g) (harr : c.arr = none)
    (hbad : ((if ending then !g.inIdem else g.inIdem) || (!ending && g.pump.isSome)) = true) :
    idemWord x c t i ending = .trap t (illTrap i x.e x.act) := by
  simp only [idemWord, hg, harr, hbad, Bool.not_false, Bool.true_and, if_true]

/-- The state in which an `idem` form arrives. -/
def idemArrives (x : Ctx) (t u : State) (ending : Bool) : State :=
  if ending then u else u.updCrew x.key (fun v => { v with cap := some (v.capture x.e t.now) })

/-- An `idem` form of a whole crew on the right side of its region (R246). -/
theorem idemWord_arrives {i : Instr} {ending : Bool} (hg : t.gang (keyGid x.key) = some g) (harr : c.arr = none)
    (hok : ((if ending then !g.inIdem else g.inIdem) || (!ending && g.pump.isSome)) = false) (hmask : (c.split x.e).mask = c.live)
    (hrel : t.releaseReady x.key .gg = (u, true)) : idemWord x c t i ending = impArrive x c (idemArrives x t u ending) 4 := by
  simp only [idemWord, hg, harr, hok, hmask, hrel, Bool.not_false, Bool.true_and, Bool.false_eq_true, if_false, ne_eq, not_true, Bool.not_true,
    Bool.or_false]
  rfl

/-- A word that does what `impArrive` does in the state `v`. -/
theorem impArrives_of_ready {i : Instr} {use : WUse} {body : Body} {v : State} {k : Nat} (hr : s.ready [use] = some (x, c, t))
    (hi : exec i s = fullWord i h use 8 body none s) (hbody : body x c t = impArrive x c v k) (harr : c.arr = none) :
    ImpArrives i s x c h.stall.toNat v k := by
  intro u u1 old g hrel hdo w hg
  have himp := hbody.trans (impArrive_of_ok harr hrel hdo hg)
  split
  · exact exec_wait_of_ready i hr hi (himp.trans (if_pos ‹_›))
  · exact exec_done_of_ready i hr hi (himp.trans (if_neg ‹_›))

end

/-- Settles O33. -/
theorem launchReorderIdem : Obligations.LaunchReorderIdem := by
  refine ⟨fun s x c t u h d a b pa dst => ?launch, fun s x c t u h a b g l => ⟨?reord, ?idem⟩⟩
  case launch =>
    intro gid lane va n q check gives hr
    refine ⟨execLaunch_of_no_queue hr, execLaunch_misaligned hr, fun hn hva hrec hrel => ⟨execLaunch_unassigned hr hn hva hrec hrel,
      execLaunch_full hr hn hva hrec hrel, fun hq hroom hslot hown u1 bs ts u2 bs2 ts2 po hread hwrite => ?_⟩⟩
    exact execLaunch_submits hr hn hva hrec hrel hq hroom hslot hown hread hwrite
  case reord =>
    intro hr hg hl hcont hn hgc hidem hrel es dep
    have hbody : reordBody a b x c t = reordAct x c t u g l a b := reordBody_of_launch hg hl hcont hn hgc hidem hrel
    refine ⟨fun hdet hover => ?_, fun hfit => ?_⟩
    · have hkill : reordAct x c t u g l a b = .jump (u.killLaunch g.lslot 9) [] := if_pos (Bool.and_eq_true_iff.mpr ⟨hdet, decide_eq_true hover⟩)
      exact exec_jump_of_ready _ hr execReord_eq (hbody.trans hkill)
    · have hno : ¬ (x.det && decide (l.reordN < l.bins.length + (reordEntries x c t a b).length)) = true := by
        rw [Bool.and_eq_true_iff, decide_eq_true_iff]
        rintro ⟨hdet, hover⟩
        exact hfit.elim (fun h => absurd hdet (by simp [h])) (fun h => absurd hover (Nat.not_lt.mpr h))
      refine ⟨fun va hva => ?_, fun hnone => ?_⟩
      · have hva' : (reordDeposits x c u g.lslot (reordEntries x c t a b)).2 = some va := hva
        exact exec_blocked_of_ready _ hr execReord_eq (hbody.trans ((if_neg hno).trans (by rw [hva'])))
      · have hnone' : (reordDeposits x c u g.lslot (reordEntries x c t a b)).2 = none := hnone
        exact ends_of_endSome hr execReord_eq (hbody.trans ((if_neg hno).trans (by rw [hnone']; rfl)))
  case idem =>
    intro hr hg harr ill
    refine ⟨fun hbad => ?_, fun hbad => ?_, fun hmask hrel => ⟨fun hin hpump => ?_, fun hin => ?_⟩⟩
    · refine exec_trap_of_ready (mg := none) (.idemBegin h) hr rfl (idemWord_ill (ending := false) hg harr ?_)
      simpa [Option.isSome_iff_ne_none] using hbad
    · exact exec_trap_of_ready (mg := none) (.idemEnd h) hr rfl (idemWord_ill (ending := true) hg harr (by simp [hbad]))
    · exact impArrives_of_ready hr rfl (idemWord_arrives (ending := false) hg harr (by simp [hin, hpump]) hmask hrel) harr
    · exact impArrives_of_ready hr rfl (idemWord_arrives (ending := true) hg harr (by simp [hin]) hmask hrel) harr

end Sys2Proof.Machine
end

section
/-! SUPPORT. The elements of a tile (R92, R220). -/

namespace Sys2Proof.Machine

set_option Elab.async false -- one proof at a time: the threads of many at once take too much memory

theorem size_arrPut (a : TileArr) (n v : Nat) : (arrPut a n v).size = a.size := Array.size_setIfInBounds

theorem arrByte_lt (a : TileArr) (n : Nat) : arrByte a n < 256 := (a.getD n 0).isLt

/-- A byte of a tile replaced. -/
theorem arrByte_arrPut {a : TileArr} {n : Nat} (hn : n < a.size) (v m : Nat) : arrByte (arrPut a n v) m = if m = n then v % 256 else arrByte a m := by
  simp only [arrByte, arrPut, Array.getD_eq_getD_getElem?, Array.getElem?_setIfInBounds]
  by_cases h : n = m
  · subst h
    simp [hn]
  · rw [if_neg h, if_neg (Ne.symm h)]

/-- The place of an element lies within its tile. -/
theorem Tc.off_lt {t : Tc} {i j : Nat} (hi : i < t.rows) (hj : j < t.cols) : t.off i j < t.rows * t.cols := by
  unfold Tc.off
  split
  · calc j * t.rows + i < j * t.rows + t.rows := by omega
      _ = t.rows * (j + 1) := by ring
      _ ≤ t.rows * t.cols := Nat.mul_le_mul_left _ hj
  · calc i * t.cols + j < i * t.cols + t.cols := by omega
      _ = (i + 1) * t.cols := by ring
      _ ≤ t.rows * t.cols := Nat.mul_le_mul_right _ hi

/-- Elements of a tile at one place are one element. -/
theorem Tc.off_inj {t : Tc} {i j k l : Nat} (hi : i < t.rows) (hj : j < t.cols) (hk : k < t.rows) (hl : l < t.cols) :
    t.off k l = t.off i j ↔ k = i ∧ l = j := by
  have hsplit {n a b c d : Nat} (hb : b < n) (hd : d < n) (h : a * n + b = c * n + d) : a = c ∧ b = d := by
    have hmod : (a * n + b) % n = (c * n + d) % n := congrArg (· % n) h
    rw [Nat.mul_add_mod_self_right, Nat.mul_add_mod_self_right, Nat.mod_eq_of_lt hb, Nat.mod_eq_of_lt hd] at hmod
    subst hmod
    exact ⟨Nat.eq_of_mul_eq_mul_right (Nat.lt_of_le_of_lt (Nat.zero_le _) hb) (Nat.add_right_cancel h), rfl⟩
  refine ⟨fun h => ?_, fun ⟨hki, hlj⟩ => by rw [hki, hlj]⟩
  unfold Tc.off at h
  split at h
  · exact (hsplit hk hi h).symm
  · exact hsplit hl hj h

/-- The width of a legal tile's elements, and their extent in bits. -/
theorem Tc.bits_of_legal {t : Tc} (h : t.legal = true) :
    (t.ty.bits = 4 ∨ t.ty.bits = 8 ∨ t.ty.bits = 16 ∨ t.ty.bits = 32) ∧ t.rows * t.cols * t.ty.bits ≤ 32768 := by
  simp only [Tc.legal, Bool.and_eq_true, decide_eq_true_eq] at h
  obtain ⟨⟨⟨-, hty⟩, hsize⟩, -⟩ := h
  refine ⟨?_, hsize⟩
  revert hty
  generalize Tc.ty t = ty
  cases ty <;> decide

theorem size_elPut (a : TileArr) (t : Tc) (i j v : Nat) : (elPut a t i j v).size = a.size := by
  unfold elPut
  split <;> simp only [size_arrPut]

section
variable {a : TileArr} {t : Tc} {i j k l v : Nat}

theorem elGet_of_bits_4 (h : t.ty.bits = 4) : elGet a t k l = arrByte a (t.off k l / 2) / 16 ^ (t.off k l % 2) % 16 := by
  simp only [elGet, h]
theorem elGet_of_bits_8 (h : t.ty.bits = 8) : elGet a t k l = arrByte a (t.off k l) := by
  simp only [elGet, h]
theorem elGet_of_bits_16 (h : t.ty.bits = 16) : elGet a t k l = arrByte a (2 * t.off k l) + 256 * arrByte a (2 * t.off k l + 1) := by
  simp only [elGet, h]
theorem elGet_of_bits_32 (h : t.ty.bits = 32) : elGet a t k l = arrByte a (4 * t.off k l) + 256 * arrByte a (4 * t.off k l + 1) +
    65536 * arrByte a (4 * t.off k l + 2) + 16777216 * arrByte a (4 * t.off k l + 3) := by
  simp only [elGet, h]
theorem elPut_of_bits_4 (h : t.ty.bits = 4) : elPut a t i j v = arrPut a (t.off i j / 2)
    (if t.off i j % 2 = 0 then arrByte a (t.off i j / 2) / 16 * 16 + v % 16 else arrByte a (t.off i j / 2) % 16 + v % 16 * 16) := by
  simp only [elPut, h]
theorem elPut_of_bits_8 (h : t.ty.bits = 8) : elPut a t i j v = arrPut a (t.off i j) v := by
  simp only [elPut, h]
theorem elPut_of_bits_16 (h : t.ty.bits = 16) : elPut a t i j v = arrPut (arrPut a (2 * t.off i j) v) (2 * t.off i j + 1) (v / 256) := by
  simp only [elPut, h]
theorem elPut_of_bits_32 (h : t.ty.bits = 32) : elPut a t i j v = arrPut (arrPut (arrPut (arrPut a (4 * t.off i j) v) (4 * t.off i j + 1) (v / 256))
    (4 * t.off i j + 2) (v / 65536)) (4 * t.off i j + 3) (v / 16777216) := by
  simp only [elPut, h]

/-- A half byte replaced. -/
theorem nibble_arrPut {o o' : Nat} (ho : o / 2 < a.size) :
    arrByte (arrPut a (o / 2) (if o % 2 = 0 then arrByte a (o / 2) / 16 * 16 + v % 16 else arrByte a (o / 2) % 16 + v % 16 * 16)) (o' / 2) /
      16 ^ (o' % 2) % 16 = if o' = o then v % 16 else arrByte a (o' / 2) / 16 ^ (o' % 2) % 16 := by
  have hb := arrByte_lt a (o / 2)
  rw [arrByte_arrPut ho]
  by_cases hhalf : o' / 2 = o / 2
  · rw [if_pos hhalf, hhalf]
    generalize arrByte a (o / 2) = b at hb
    rcases Nat.mod_two_eq_zero_or_one o with h | h <;> rcases Nat.mod_two_eq_zero_or_one o' with h' | h'
    · rw [if_pos h, h', if_pos (by omega)]
      omega
    · rw [if_pos h, h', if_neg (by omega)]
      omega
    · rw [if_neg (by omega), h', if_neg (by omega)]
      omega
    · rw [if_neg (by omega), h', if_pos (by omega)]
      omega
  · rw [if_neg hhalf, if_neg fun h => hhalf (congrArg (· / 2) h)]

/-- R92: an element written is read back, truncated to its type; every other place reads as before. -/
theorem elGet_elPut_off (hsize : a.size = 4096) (hlegal : t.legal = true) (hi : i < t.rows) (hj : j < t.cols) :
    elGet (elPut a t i j v) t k l = if t.off k l = t.off i j then v % 2 ^ t.ty.bits else elGet a t k l := by
  obtain ⟨hbits, hext⟩ := Tc.bits_of_legal hlegal
  have hoff := Tc.off_lt hi hj
  generalize t.rows * t.cols = n at hext hoff
  rcases hbits with hb | hb | hb | hb
  · rw [hb] at hext
    rw [elPut_of_bits_4 hb, elGet_of_bits_4 hb, elGet_of_bits_4 hb, hb, nibble_arrPut (by omega)]
    rfl
  · rw [hb] at hext
    rw [elPut_of_bits_8 hb, elGet_of_bits_8 hb, elGet_of_bits_8 hb, hb, arrByte_arrPut (by omega)]
    rfl
  · rw [hb] at hext
    rw [elPut_of_bits_16 hb, elGet_of_bits_16 hb, elGet_of_bits_16 hb, hb]
    simp only [arrByte_arrPut (n := 2 * t.off i j + 1) (a := arrPut a (2 * t.off i j) v) (by rw [size_arrPut]; omega), arrByte_arrPut (n := 2 * t.off i j) (a := a) (by omega)]
    by_cases h : t.off k l = t.off i j
    · rw [h, if_pos rfl]
      simp only [if_true, Nat.add_eq_left, one_ne_zero, if_false, Nat.left_eq_add]
      omega
    · rw [if_neg h, if_neg (by omega), if_neg (by omega), if_neg (by omega), if_neg (by omega)]
  · rw [hb] at hext
    rw [elPut_of_bits_32 hb, elGet_of_bits_32 hb, elGet_of_bits_32 hb, hb]
    generalize t.off i j = o at hoff
    have hput0 (m : Nat) := arrByte_arrPut (a := a) (n := 4 * o) (by omega) v m
    have hput1 (m : Nat) := arrByte_arrPut (a := arrPut a (4 * o) v) (n := 4 * o + 1) (by rw [size_arrPut]; omega) (v / 256) m
    have hput2 (m : Nat) := arrByte_arrPut (a := arrPut (arrPut a (4 * o) v) (4 * o + 1) (v / 256)) (n := 4 * o + 2)
      (by rw [size_arrPut, size_arrPut]; omega) (v / 65536) m
    have hput3 (m : Nat) := arrByte_arrPut (a := arrPut (arrPut (arrPut a (4 * o) v) (4 * o + 1) (v / 256)) (4 * o + 2) (v / 65536)) (n := 4 * o + 3)
      (by rw [size_arrPut, size_arrPut, size_arrPut]; omega) (v / 16777216) m
    by_cases h : t.off k l = o
    · simp only [h, hput3, hput2, hput1, hput0, if_true, Nat.add_left_cancel_iff, Nat.add_eq_left, Nat.left_eq_add, Nat.reduceEqDiff, if_false]
      omega
    · have hother (m : Nat) (hm : m / 4 ≠ o) : arrByte (arrPut (arrPut (arrPut (arrPut a (4 * o) v) (4 * o + 1) (v / 256)) (4 * o + 2) (v / 65536))
          (4 * o + 3) (v / 16777216)) m = arrByte a m := by
        rw [hput3, hput2, hput1, hput0, if_neg (by omega), if_neg (by omega), if_neg (by omega), if_neg (by omega)]
      rw [if_neg h, hother _ (by omega), hother _ (by omega), hother _ (by omega), hother _ (by omega)]

end

end Sys2Proof.Machine
end

section
/-! SUPPORT. The tile words (R91, R222 to R230). -/

namespace Sys2Proof.Machine

section
variable {s : State} {x : Ctx} {c : Crew} {t : State} {i : Instr}

/-- A word on free, configured tiles. -/
theorem tileAct_of_free {reads writes : List Nat} {ts : List TRef} {f : List TRef → Act} (hfree : c.tileWait t.now reads writes = false)
    (hts : c.tref? (reads ++ writes) = some ts) : tileAct x c t i reads writes f = f ts := by
  simp only [tileAct, hfree, hts, Bool.false_eq_true, if_false]

/-- A word on a tile that is not configured raises ILL (R222). -/
theorem tileAct_unconfigured {reads writes : List Nat} {f : List TRef → Act} (hfree : c.tileWait t.now reads writes = false)
    (hts : c.tref? (reads ++ writes) = none) : tileAct x c t i reads writes f = .trap t (illTrap i x.e x.act) := by
  simp only [tileAct, hfree, hts, Bool.false_eq_true, if_false]

/-- The end of a word that has written a tile. -/
def tileStored (x : Ctx) (t : State) (td : TRef) (arr : TileArr) (fl : Flags) : State :=
  ((t.setTile (keyGid x.key) td arr).freshTile (keyGid x.key) td x.act).updCrew x.key (fun c => c.orFlags fl)

theorem tileDone_eq (x : Ctx) (t : State) (td : TRef) (arr : TileArr) (fl : Flags) : tileDone x t td arr fl = .done (tileStored x t td arr fl) := rfl

/-- A word that needs the matrix unit, with its grant. -/
theorem matrixAct_of_grant {cycles : Nat} {f : State → Act} (hg : (t.core c.core).grants c.pipe t.now = true) :
    matrixAct c t cycles f = f (t.grantMatrix c.core c.pipe cycles) := if_pos hg

end

/-! ## Configuration (R225) -/

section
variable {s : State} {x : Ctx} {c : Crew} {t : State} {h : Hdr} {d a : Reg}

theorem execTcfg_ill (hr : s.ready [Hdr.use h [sReg a] []] = some (x, c, t)) (hfree : c.tileWait t.now [] [d.toNat] = false)
    (hbad : c.ntiles ≤ d.toNat ∨ Tc.legal (BitVec.ofNat 32 (c.rs a.toNat)) = false) :
    exec (.tcfg h d a) s = .next ((t.markIssued c).takeTrap x.key (illTrap (.tcfg h d a) x.e x.act)) := by
  have hcond : (decide (c.ntiles ≤ d.toNat) || !Tc.legal (BitVec.ofNat 32 (c.rs a.toNat))) = true := by
    rcases hbad with hn | hl
    · rw [decide_eq_true hn, Bool.true_or]
    · rw [hl, Bool.not_false, Bool.or_true]
  refine exec_trap_of_ready (mg := none) (.tcfg h d a) hr rfl ?_
  simp only [hfree, hcond, Bool.false_eq_true, if_false, if_true]

theorem execTcfg_writes (hr : s.ready [Hdr.use h [sReg a] []] = some (x, c, t)) (hfree : c.tileWait t.now [] [d.toNat] = false)
    (hd : d.toNat < c.ntiles) (hlegal : Tc.legal (BitVec.ofNat 32 (c.rs a.toNat)) = true)
    (hbound : Tc.v (BitVec.ofNat 32 (c.rs a.toNat)) = false ∨ (c.bind.getD d.toNat none).isSome = true) :
    exec (.tcfg h d a) s = .next (x.retires 8 h.stall.toNat
      (t.updCrew x.key (fun v => { v with tc := v.tc.set d.toNat (BitVec.ofNat 32 (c.rs a.toNat)) }))) := by
  have hcond : (decide (c.ntiles ≤ d.toNat) || !Tc.legal (BitVec.ofNat 32 (c.rs a.toNat))) = false := by
    rw [hlegal, decide_eq_false (Nat.not_le.mpr hd), Bool.not_true, Bool.or_false]
  have hname : (Tc.v (BitVec.ofNat 32 (c.rs a.toNat)) && (c.bind.getD d.toNat none).isNone) = false := by
    rcases hbound with hv | hb
    · rw [hv, Bool.false_and]
    · rw [Option.isNone_eq_false_iff.mpr hb, Bool.and_false]
  refine exec_done_of_ready (mg := none) (.tcfg h d a) hr rfl ?_
  simp only [hfree, hcond, hname, Bool.false_eq_true, if_false]

theorem execTcfgr_reads (hr : s.ready [Hdr.use h [] [sReg d]] = some (x, c, t)) (ha : a.toNat < c.ntiles) :
    exec (.tcfgr h d a) s = .next (x.retires 8 h.stall.toNat (t.updCrew x.key (fun v => v.addPend x.e
      [sWrite d.toNat (if (c.bind.getD a.toNat none).isNone || !Tc.v (c.tc.getD a.toNat 0) then 0 else (c.tc.getD a.toNat 0).toNat)]))) :=
  exec_done_of_ready (mg := none) (.tcfgr h d a) hr rfl (if_neg (Nat.not_le.mpr ha))

end

/-! ## Tile to tile (R229) -/

section
variable {s : State} {x : Ctx} {c : Crew} {t : State} {h : Hdr} {d a : Reg} {ta td : TRef} (hr : s.ready [Hdr.use h [] []] = some (x, c, t))
include hr

theorem execTzero_ill (hfree : c.tileWait t.now [] [d.toNat] = false) (hts : c.tref? [d.toNat] = none) :
    exec (.tzero h d) s = .next ((t.markIssued c).takeTrap x.key (illTrap (.tzero h d) x.e x.act)) :=
  exec_trap_of_ready (mg := none) (.tzero h d) hr rfl (tileAct_unconfigured hfree hts)

theorem execTzero_fills (hfree : c.tileWait t.now [] [d.toNat] = false) (hts : c.tref? [d.toNat] = some [td]) :
    exec (.tzero h d) s = .next (x.retires 8 h.stall.toNat (tileStored x t td
      (elFill (t.tile (keyGid x.key) td) td.tc (td.rowsIn x.act) (Tc.cols td.tc) (fun _ _ => some 0)) 0)) :=
  exec_done_of_ready (mg := none) (.tzero h d) hr rfl (tileAct_of_free hfree hts)

variable (hfree : c.tileWait t.now [a.toNat] [d.toNat] = false) (hts : c.tref? [a.toNat, d.toNat] = some [ta, td])
include hfree hts

theorem execTmov_ill (hshape : sameShape ta.tc td.tc = false) :
    exec (.tmov h d a) s = .next ((t.markIssued c).takeTrap x.key (illTrap (.tmov h d a) x.e x.act)) :=
  exec_trap_of_ready (mg := none) (.tmov h d a) hr rfl ((tileAct_of_free hfree hts).trans (if_pos (by simpa [trefAt] using hshape)))

variable (hclean : tilesBad x t [ta] = none)
include hclean

theorem execTmov_copies (hshape : sameShape ta.tc td.tc = true) :
    exec (.tmov h d a) s = .next (x.retires 8 h.stall.toNat (tileStored x t td (elFill (t.tile (keyGid x.key) td) td.tc (td.rowsIn x.act) (Tc.cols td.tc)
      (fun i j => some (elGet (t.tile (keyGid x.key) ta) ta.tc i j))) 0)) := by
  refine exec_done_of_ready (mg := none) (.tmov h d a) hr rfl ((tileAct_of_free hfree hts).trans ?_)
  simp only [trefAt, List.getD_cons_zero, List.getD_cons_succ, hshape, hclean, Bool.not_true, Bool.false_eq_true, if_false]
  rfl

/-- The state in which a transposition has the matrix unit's grant and its tiles are busy (R223, R234). -/
def transposing (x : Ctx) (c : Crew) (t : State) (ta : TRef) (d a : Reg) : State :=
  (t.grantMatrix c.core c.pipe (Tc.rows ta.tc)).updCrew x.key (fun c => c.holdTiles (t.now + Tc.rows ta.tc) [a.toNat] [d.toNat])

theorem execMtr_transposes (hty : Tc.ty ta.tc = Tc.ty td.tc) (hdx : Ty.isDx (Tc.ty ta.tc) = false) (hrows : Tc.rows td.tc = Tc.cols ta.tc)
    (hcols : Tc.cols td.tc = Tc.rows ta.tc) (hne : d ≠ a) (hg : (t.core c.core).grants c.pipe t.now = true) :
    exec (.mtr h d a) s = .next (x.retires 8 h.stall.toNat (tileStored x (transposing x c t ta d a) td
      (elFill ((transposing x c t ta d a).tile (keyGid x.key) td) td.tc (td.rowsIn x.act) (Tc.cols td.tc)
        (fun i j => some (elGet ((t.grantMatrix c.core c.pipe (Tc.rows ta.tc)).tile (keyGid x.key) ta) ta.tc j i))) 0)) := by
  have hok : (Tc.ty ta.tc != Tc.ty td.tc || Ty.isDx (Tc.ty ta.tc) || Tc.rows td.tc != Tc.cols ta.tc || Tc.cols td.tc != Tc.rows ta.tc ||
      (d == a && Tc.rows ta.tc != Tc.cols ta.tc)) = false := by
    simp only [hty, hrows, hcols, bne_self_eq_false, beq_false_of_ne hne, Bool.false_and, Bool.or_false, Bool.false_or]
    rw [← hty, hdx]
  refine exec_done_of_ready (mg := none) (.mtr h d a) hr rfl ((tileAct_of_free hfree hts).trans ?_)
  simp only [trefAt, List.getD_cons_zero, List.getD_cons_succ, hok, hclean, Bool.false_eq_true, if_false]
  exact matrixAct_of_grant hg

end

/-! ## Memory transfers (R226) -/

section
variable {s : State} {x : Ctx} {c : Crew} {t : State} {h : Hdr} {d a b : Reg} {td : TRef} {sc : Scope} {ord : Order} {space : Space}
  {locs : List (Nat × Loc)} {u : State}

/-- The accesses of a transfer: lane and address. -/
def moveAddrs (mv : List (Nat × Nat × Nat) × Nat × Nat) : List (Nat × Nat) := mv.1.map (fun m => (m.1, m.2.2))

/-- A tile with the loaded elements in place. -/
def tileLoaded (mv : List (Nat × Nat × Nat) × Nat × Nat) (t : Tc) (bs : List (Nat × List Byte)) (arr : TileArr) : TileArr :=
  (mv.1.zip bs).foldl (fun arr m => elPut arr t m.1.1 m.1.2.1 (leVal m.2.2)) arr

/-- A tile loaded, with zeros in the columns that did not move where the word asks for them (R226). -/
def tileLoadedFull (x : Ctx) (mv : List (Nat × Nat × Nat) × Nat × Nat) (t : TRef) (zf : Bool) (bs : List (Nat × List Byte)) (arr : TileArr) : TileArr :=
  if zf then elFill (tileLoaded mv t.tc bs arr) t.tc (t.rowsIn x.act) (Tc.cols t.tc) (fun _ j => if mv.2.2 ≤ j then some 0 else none)
  else tileLoaded mv t.tc bs arr

theorem execTld_loads {zf : Bool} {bs : List (Nat × List Byte)} (hr : s.ready [Hdr.use h [sReg a, sReg b] []] = some (x, c, t))
    (hfree : c.tileWait t.now [] [d.toNat] = false) (hts : c.tref? [d.toNat] = some [td])
    (hcheck : t.checkAll (.core c.core) (.split x.key x.e) (keyGid x.key) c.walks space 0 (tileMoves x c t td space a b).2.1
      (moveAddrs (tileMoves x c t td space a b)) = .ok locs)
    (hload : t.load x.key x.e c sc ord false x.det (tileMoves x c t td space a b).2.1 (moveAddrs (tileMoves x c t td space a b)) locs = .bytes u bs)
    (hbits : (Tc.ty td.tc).bits ≠ 4) :
    exec (.tld h sc ord space zf d a b) s = .next (x.retires 8 h.stall.toNat ((u.setTile (keyGid x.key) td
      (tileLoadedFull x (tileMoves x c t td space a b) td zf bs (u.tile (keyGid x.key) td))).updCrew x.key
        (fun v => { v with pts := u.loadPts x.key c sc ord (tileMoves x c t td space a b).2.1 locs }))) := by
  refine exec_done_of_ready (mg := none) (.tld h sc ord space zf d a b) hr rfl ((tileAct_of_free hfree hts).trans ((checked_of_ok hcheck).trans ?_))
  rw [moveAddrs] at hload
  simp only [trefAt, List.getD_cons_zero, hload, beq_false_of_ne hbits, Bool.false_eq_true, if_false]
  rfl

/-- What a `tst` stores: lane, place and bytes of each element. -/
def tileStores (mv : List (Nat × Nat × Nat) × Nat × Nat) (t : Tc) (locs : List (Nat × Loc)) (arr : TileArr) : List (Nat × Loc × List Byte) :=
  (mv.1.zip locs).map (fun m => (m.1.1, m.2.2, leBytes (elGet arr t m.1.1 m.1.2.1) mv.2.1))

theorem execTst_stores (hr : s.ready [Hdr.use h [sReg a, sReg b] []] = some (x, c, t)) (hfree : c.tileWait t.now [d.toNat] [] = false)
    (hts : c.tref? [d.toNat] = some [td]) (hclean : tilesBad x t [td] = none)
    (hcheck : t.checkAll (.core c.core) (.split x.key x.e) (keyGid x.key) c.walks space 1 (tileMoves x c t td space a b).2.1
      (moveAddrs (tileMoves x c t td space a b)) = .ok locs)
    (hown : ∀ l ∈ locs, ∀ pa, l.2 = .phys pa → t.notOwned pa = none) (hbits : (Tc.ty td.tc).bits ≠ 4)
    (hstore : storeAct x c t sc ord (moveAddrs (tileMoves x c t td space a b))
      (tileStores (tileMoves x c t td space a b) td.tc locs (t.tile (keyGid x.key) td)) = .done u) :
    exec (.tst h sc ord space false d a b) s = .next (x.retires 8 h.stall.toNat u) := by
  refine exec_done_of_ready (mg := none) (.tst h sc ord space false d a b) hr rfl
    ((tileAct_of_free hfree hts).trans ((checked_of_owned (State.owes_eq_nil hown) hcheck).trans ?_))
  refine Eq.trans ?_ hstore
  simp only [trefAt, List.getD_cons_zero, hclean, if_neg hbits, Bool.false_eq_true, if_false]
  rfl

end

/-! ## Tile to register and back (R230) -/

section
variable {s : State} {x : Ctx} {c : Crew} {t : State} {h : Hdr} {nr : BitVec 2} {d a : Reg} {b : Opnd} {td : TRef}

/-- A tile with elements of registers in the columns from `j0` on. -/
def columnsPut (x : Ctx) (c : Crew) (td : TRef) (n j0 : Nat) (a : Reg) (arr : TileArr) : TileArr :=
  (td.rowsIn x.act).foldl (fun arr i => (List.range (n * (32 / (Tc.ty td.tc).bits))).foldl (fun arr e =>
    elPut arr td.tc i (j0 + e) (c.rvs a.toNat i n / 2 ^ ((Tc.ty td.tc).bits * e) % 2 ^ (Tc.ty td.tc).bits)) arr) arr

theorem execTv2t_puts (hr : s.ready [Hdr.use h (vReg a (2 ^ nr.toNat) :: Opnd.span b 1) []] = some (x, c, t))
    (hfree : c.tileWait t.now [] [d.toNat] = false) (hts : c.tref? [d.toNat] = some [td])
    (hfit : colsFit td (2 ^ nr.toNat) (c.sval b % 2 ^ 32) = true) :
    exec (.tv2t h nr d a b) s = .next (x.retires 8 h.stall.toNat (t.setTile (keyGid x.key) td
      (columnsPut x c td (2 ^ nr.toNat) (c.sval b % 2 ^ 32) a (t.tile (keyGid x.key) td)))) := by
  refine exec_done_of_ready (mg := none) (.tv2t h nr d a b) hr rfl ((tileAct_of_free hfree hts).trans ?_)
  simp only [trefAt, List.getD_cons_zero, hfit, Bool.not_true, Bool.false_eq_true, if_false]
  rfl

/-- The elements of one row's columns from `j0` on, as a register's value. -/
def columnsGet (td : TRef) (n j0 : Nat) (arr : TileArr) (i : Nat) : Nat :=
  (List.range (n * (32 / (Tc.ty td.tc).bits))).foldl (fun v e => v + elGet arr td.tc i (j0 + e) * 2 ^ ((Tc.ty td.tc).bits * e)) 0

/-- The register of a column start, where it is one. -/
def startSpans : Opnd → List Span1
  | .s r => [sReg r]
  | _ => []

theorem execTt2v_gets (hr : s.ready [Hdr.use h (startSpans b) [vReg d (2 ^ nr.toNat)]] = some (x, c, t))
    (hfree : c.tileWait t.now [a.toNat] [] = false) (hts : c.tref? [a.toNat] = some [td]) (hclean : tilesBad x t [td] = none)
    (hfit : colsFit td (2 ^ nr.toNat) (c.sval b % 2 ^ 32) = true) :
    exec (.tt2v h nr false d a b) s = .next (x.retires 8 h.stall.toNat (t.updCrew x.key (fun v => v.addPend x.e
      (c.vecWrites d.toNat (2 ^ nr.toNat) (Mask.ofLanes (td.rowsIn x.act))
        (columnsGet td (2 ^ nr.toNat) (c.sval b % 2 ^ 32) (t.tile (keyGid x.key) td)))))) := by
  have hi : exec (.tt2v h nr false d a b) s = fullWord (.tt2v h nr false d a b) h
    (Hdr.use h (startSpans b) [vReg d (2 ^ nr.toNat)]) 8 _ none s := rfl
  refine exec_done_of_ready (mg := none) (.tt2v h nr false d a b) hr hi ((tileAct_of_free hfree hts).trans ?_)
  simp only [trefAt, List.getD_cons_zero, hfit, hclean, Bool.not_true, Bool.false_eq_true, if_false]
  rfl

end

/-! ## Histograms (R102, R103, R227, R228) -/

section
variable {s : State} {x : Ctx} {c : Crew} {t u v : State} {ps : List Nat} {va : Nat} {bs : List Byte} {ts : Ts}

/-- Counts are sent at once where every WRITE that is unacknowledged was so before the word (R227). -/
theorem countsAfter_of_acks {cs : List (Nat × Nat)} (hacks : (v.crew x.key).map (·.acks) = some c.acks) :
    countsAfter x c v ps cs = .done (sendCounts x c v ps cs) := by
  obtain ⟨w, hw, hwa⟩ := Option.map_eq_some_iff.mp hacks
  have hnone : (c.acks.filter (fun a => !a.bytes.isEmpty && !c.acks.any (fun b => b.pkt == a.pkt))).isEmpty = true := by
    rw [List.isEmpty_iff, List.filter_eq_nil_iff]
    intro a ha hbad
    have hany : c.acks.any (fun b => b.pkt == a.pkt) = true := List.any_eq_true.mpr ⟨a, ha, beq_self_eq_true _⟩
    rw [hany, Bool.not_true, Bool.and_false] at hbad
    exact Bool.false_ne_true hbad
  simp only [countsAfter, hw, hwa, hnone, if_true]

variable {bins : Int → List Nat} (hat : ∀ k, histAt x c t va k = k ps) (hmust : ∀ p ∈ ps, c.mustWait x.act p 32 = false)
  (hunits : t.unitsClean c.core (ps.map (· / 128)) = (u, true))
  (hread : u.directRead (ps.getD 4 0) 32 c.pts false (some x.key) { t.finder (keyGid x.key) 8 with core := some c.core, va := va + 128 } = .ok v bs ts false)
include hat hmust hunits hread

/-- A word whose values are counted, with a good record (R103). -/
theorem histThen_counts (hgood : histGood (leVal bs) = true) :
    histThen x c t va bins (fun s => .done s) = countsAfter x c v ps (histCounts (bins (histBase (leVal bs)))) := by
  have hany : ps.any (fun p => c.mustWait x.act p 32) = false := List.any_eq_false.mpr fun p hp => by simp [hmust p hp]
  refine (hat _).trans ?_
  simp only [hany, hunits, hread, hgood, Bool.not_true, Bool.false_eq_true, if_false]

/-- A word whose values are counted, with a malformed record (R227). -/
theorem histThen_malformed (hbad : histGood (leVal bs) = false) : histThen x c t va bins (fun s => .done s) =
    .post v { laneTrap 6 x.e [(x.act.lanes.getD 0 0, va, dWrite)] va with aux := va } := by
  have hany : ps.any (fun p => c.mustWait x.act p 32) = false := List.any_eq_false.mpr fun p hp => by simp [hmust p hp]
  refine (hat _).trans ?_
  simp only [hany, hunits, hread, hbad, Bool.not_true, Bool.not_false, Bool.false_eq_true, if_false, if_true]

end

section
variable {s : State} {x : Ctx} {c : Crew} {t : State} {h : Hdr} {a b : Reg} {ta : TRef} (hr : s.ready [Hdr.use h [sReg b] []] = some (x, c, t))
  (hfree : c.tileWait t.now [a.toNat] [] = false) (hts : c.tref? [a.toNat] = some [ta])
include hr hfree hts

theorem execHist_ill (hty : histTy (Tc.ty ta.tc) = false) :
    exec (.hist h a b) s = .next ((t.markIssued c).takeTrap x.key (illTrap (.hist h a b) x.e x.act)) := by
  refine exec_trap_of_ready (mg := none) (.hist h a b) hr rfl ((tileAct_of_free hfree hts).trans (if_pos ?_))
  simpa [trefAt] using hty

/-- The bins of a tile's elements, in the rows of the active lanes (R228). -/
def tileBins (x : Ctx) (ta : TRef) (arr : TileArr) (base : Int) : List Nat :=
  (ta.rowsIn x.act).flatMap (fun i => (List.range (Tc.cols ta.tc)).map (fun j => elBin (Tc.ty ta.tc) base (elGet arr ta.tc i j)))

variable (hty : histTy (Tc.ty ta.tc) = true) (hclean : tilesBad x t [ta] = none) {ps : List Nat} {u v : State} {bs : List Byte} {ts : Ts}
  (hat : ∀ k, histAt x c t (c.rs b.toNat) k = k ps) (hmust : ∀ p ∈ ps, c.mustWait x.act p 32 = false)
  (hunits : t.unitsClean c.core (ps.map (· / 128)) = (u, true))
  (hread : u.directRead (ps.getD 4 0) 32 c.pts false (some x.key)
    { t.finder (keyGid x.key) 8 with core := some c.core, va := c.rs b.toNat + 128 } = .ok v bs ts false)
include hty hclean hat hmust hunits hread

theorem execHist_counts (hgood : histGood (leVal bs) = true) (hacks : (v.crew x.key).map (·.acks) = some c.acks) :
    exec (.hist h a b) s = .next (x.retires 8 h.stall.toNat (sendCounts x c v ps
      (histCounts (tileBins x ta (t.tile (keyGid x.key) ta) (histBase (leVal bs)))))) := by
  refine exec_done_of_ready (mg := none) (.hist h a b) hr rfl ((tileAct_of_free hfree hts).trans ?_)
  simp only [trefAt, List.getD_cons_zero, hty, hclean, Bool.not_true, Bool.false_eq_true, if_false]
  exact (histThen_counts hat hmust hunits hread hgood).trans (countsAfter_of_acks hacks)

theorem execHist_malformed (hbad : histGood (leVal bs) = false) :
    exec (.hist h a b) s = .next (t.finish (.hist h a b) x.key x.e 8 h.stall.toNat
      (.post v { laneTrap 6 x.e [(x.act.lanes.getD 0 0, c.rs b.toNat, dWrite)] (c.rs b.toNat) with aux := c.rs b.toNat })) := by
  refine (word_ready hr (.hist h a b) h _).trans (congrArg (fun act => Host.Outcome.next (t.finish (.hist h a b) x.key x.e 8 h.stall.toNat act)) ?_)
  refine (tileAct_of_free hfree hts).trans ?_
  simp only [trefAt, List.getD_cons_zero, hty, hclean, Bool.not_true, Bool.false_eq_true, if_false]
  exact histThen_malformed hat hmust hunits hread hbad

end

/-- Settles O29. -/
theorem tileWords : Obligations.TileWords := by
  refine ⟨fun a t i j k l v hsize hlegal hi hj hk hl => ⟨(size_elPut a t i j v).trans hsize, ?elements⟩,
    fun s x c t h d a b bo ta td sc ord space zf nr => ⟨fun hr hfree => ⟨?_, ?_⟩, ?_, fun hr => ⟨?_, ?_, fun hfree hts hclean => ⟨?_, ?_, ?_⟩⟩,
      fun hr => ⟨?_, ?_⟩, ⟨?_, ?_⟩, fun hr hfree hts => ⟨?_, ?_⟩⟩⟩
  case elements =>
    rw [elGet_elPut_off hsize hlegal hi hj]
    exact if_congr (Tc.off_inj hi hj hk hl) rfl rfl
  · exact execTcfg_ill hr hfree
  · exact execTcfg_writes hr hfree
  · exact execTcfgr_reads
  · exact execTzero_ill hr
  · exact execTzero_fills hr
  · exact execTmov_copies hr hfree hts hclean
  · exact execTmov_ill hr hfree hts
  · exact execMtr_transposes hr hfree hts hclean
  · exact fun hfree hts locs u bs hcheck hload hbits => execTld_loads hr hfree hts hcheck hload hbits
  · exact fun hfree hts hclean locs u hcheck hown hbits hstore => execTst_stores hr hfree hts hclean hcheck hown hbits hstore
  · exact execTv2t_puts
  · exact fun hr hfree hts hclean hfit => ⟨_, execTt2v_gets hr hfree hts hclean hfit, vecGives_vecWrites _ _ _ _ _ _ fun _ _ => rfl⟩
  · exact execHist_ill hr hfree hts
  · intro hty hclean ps u v bs ts hat hmust hunits hread bins
    exact ⟨execHist_counts hr hfree hts hty hclean hat hmust hunits hread, execHist_malformed hr hfree hts hty hclean hat hmust hunits hread⟩

end Sys2Proof.Machine
end

section
/-! SUPPORT. The format word and late reads of the matrix words (R94, R151), and the scale bytes in a quad of registers (R96, R236). -/

namespace Sys2Proof.Machine

/-! ## What a matrix word meets first -/

/-- A word that is ready has an active lane. -/
theorem State.act_of_ready {s : State} {us : List WUse} {x : Ctx} {c : Crew} {t : State} (h : s.ready us = some (x, c, t)) : x.act ≠ 0 := by
  unfold State.ready at h
  split at h
  · split at h
    · simp at h
    · dsimp only at h
      split at h
      · rename_i hok
        simp only [Option.some.injEq, Prod.mk.injEq] at h
        obtain ⟨rfl, rfl, rfl⟩ := h
        simp only [Bool.and_eq_true, bne_iff_ne, ne_eq] at hok
        exact hok.1.1.2
      · simp at h
  · simp at h

theorem Mask.lanes_ne_nil {m : Mask} (h : m ≠ 0) : m.lanes ≠ [] := by
  intro hnil
  refine h (BitVec.eq_of_getLsbD_eq fun l hl => ?_)
  have hno : l ∉ m.lanes := hnil ▸ List.not_mem_nil
  rw [Mask.mem_lanes, Bool.not_eq_true] at hno
  rw [hno, BitVec.ofNat_eq_ofNat, BitVec.getLsbD_zero]

/-- R94: the format word that the active lanes agree on. -/
theorem fmtWord_of_agreed {x : Ctx} {c : Crew} {t : State} {r : Reg} {w : Nat} {f : Nat → Act} (hact : x.act ≠ 0)
    (hag : ∀ l ∈ x.act.lanes, c.rv r.toNat l = w) : fmtWord x c t r f = f w := by
  obtain ⟨l0, ls, hls⟩ := List.exists_cons_of_ne_nil (Mask.lanes_ne_nil hact)
  have hfirst : ((x.act.lanes.map (fun l => (l, c.rv r.toNat l))).getD 0 (0, 0)).2 = w := by
    rw [hls]
    exact hag l0 (hls ▸ List.mem_cons_self)
  have hall : (x.act.lanes.map (fun l => (l, c.rv r.toNat l))).all (fun v => v.2 == w) = true := by
    rw [List.all_map, List.all_eq_true]
    exact fun l hl => beq_iff_eq.mpr (hag l hl)
  simp only [fmtWord, hfirst, hall, if_true]

/-- The registers `us` that a word reads late. -/
def lateUse (us : List Span1) : WUse := { pred := 7, pn := false, src := us, dst := [], det := none }

/-- Registers that a word reads late without a fault (R145, R344). -/
def ReadsLate (x : Ctx) (c : Crew) (us : List Span1) : Prop :=
  (if x.det || c.status.getLsbD 9 then c.shortRead x.e (lateUse us) else none) = none ∧ c.badLanes (lateUse us) (2 ^ 32 - 1) = []

theorem lateReads_of_readsLate {x : Ctx} {c : Crew} {t : State} {us : List Span1} {free : Bool} {k : Act} (h : ReadsLate x c us) (hfree : free = true) :
    lateReads x c t us free k = k := by
  obtain ⟨hshort, hbad⟩ := h
  have hbad' : c.badLanes { pred := 7, pn := false, src := us, dst := [], det := none } (2 ^ 32 - 1) = [] := hbad
  unfold lateReads
  rw [hfree]
  simp only [Bool.not_true, Bool.false_eq_true, if_false, hbad', List.isEmpty_nil, if_true]
  split
  · rename_i aux haux
    exact absurd (haux.symm.trans hshort) (by simp)
  · rfl

/-! ## Bytes of a quad of registers -/

/-- Four 32-bit words. -/
def Quad (ws : List Nat) : Prop := ws.length = 4 ∧ ∀ w ∈ ws, w < 2 ^ 32

/-- Byte `k` of a quad. -/
def quadByte (ws : List Nat) (k : Nat) : Nat := fld (ws.getD (k / 4) 0) (8 * (k % 4)) 8

/-- The value of a list of 32-bit words. -/
def wordsVal (ws : List Nat) : Nat := ws.foldr (fun w v => w + 2 ^ 32 * v) 0

theorem fld_byte_add {w v k : Nat} (hw : w < 2 ^ 32) : fld (w + 2 ^ 32 * v) (8 * k) 8 = if k < 4 then fld w (8 * k) 8 else fld v (8 * (k - 4)) 8 := by
  split
  · simp only [fld]
    interval_cases k <;> omega
  · obtain ⟨m, rfl⟩ : ∃ m, k = 4 + m := ⟨k - 4, by omega⟩
    have hpow : 2 ^ (8 * (4 + m)) = 2 ^ 32 * 2 ^ (8 * m) := by rw [← pow_add]; ring_nf
    have hdiv : (w + 2 ^ 32 * v) / 2 ^ 32 = v := by omega
    rw [fld, fld, hpow, ← Nat.div_div_eq_div_mul, hdiv, Nat.add_sub_cancel_left]

/-- A byte of the words' value is that byte of its word. -/
theorem fld_wordsVal {ws : List Nat} (hw : ∀ w ∈ ws, w < 2 ^ 32) (k : Nat) : fld (wordsVal ws) (8 * k) 8 = quadByte ws k := by
  induction ws generalizing k with
  | nil => simp [wordsVal, quadByte, fld]
  | cons w ws ih =>
    have hval : wordsVal (w :: ws) = w + 2 ^ 32 * wordsVal ws := rfl
    rw [hval, fld_byte_add (hw w List.mem_cons_self)]
    split
    · rename_i hk
      rw [quadByte, Nat.div_eq_of_lt hk, Nat.mod_eq_of_lt hk]
      rfl
    · rename_i hk
      obtain ⟨m, rfl⟩ : ∃ m, k = 4 + m := ⟨k - 4, by omega⟩
      rw [Nat.add_sub_cancel_left, ih fun v hv => hw v (List.mem_cons_of_mem _ hv), quadByte, quadByte,
        show (4 + m) / 4 = m / 4 + 1 by omega, show (4 + m) % 4 = m % 4 by omega]
      rfl

/-- A byte of a word replaced. -/
theorem setFld_byte {w p v : Nat} (hw : w < 2 ^ 32) (hp : p < 4) : setFld w (8 * p) 8 v < 2 ^ 32 ∧
    ∀ q, q < 4 → fld (setFld w (8 * p) 8 v) (8 * q) 8 = if q = p then v % 256 else fld w (8 * q) 8 := by
  simp only [setFld, fld]
  interval_cases p
  all_goals
    refine ⟨by omega, fun q hq => ?_⟩
    interval_cases q
    all_goals
      norm_num
      omega

theorem Quad.word_lt {ws : List Nat} (h : Quad ws) (k : Nat) : ws.getD k 0 < 2 ^ 32 := by
  rw [List.getD_eq_getElem?_getD]
  cases hk : ws[k]? with
  | none => exact Nat.two_pow_pos 32
  | some w => exact h.2 w (List.mem_of_getElem? hk)

theorem Quad.putByte {ws : List Nat} (h : Quad ws) (b v : Nat) : Quad (putByte ws b v) := by
  refine ⟨(List.length_set ..).trans h.1, fun w hw => ?_⟩
  rcases List.mem_or_eq_of_mem_set hw with hold | rfl
  · exact h.2 w hold
  · exact (setFld_byte (h.word_lt _) (Nat.mod_lt _ (by decide))).1

theorem quadByte_putByte {ws : List Nat} (h : Quad ws) {b : Nat} (hb : b < 16) (v k : Nat) :
    quadByte (putByte ws b v) k = if k = b then v % 256 else quadByte ws k := by
  have hin : b / 4 < ws.length := by rw [h.1]; omega
  by_cases hword : k / 4 = b / 4
  · have hget : (putByte ws b v).getD (k / 4) 0 = setFld (ws.getD (b / 4) 0) (8 * (b % 4)) 8 v := by
      rw [putByte, hword, List.getD_eq_getElem?_getD, List.getElem?_set_self hin, Option.getD_some]
    rw [quadByte, hget, (setFld_byte (h.word_lt _) (Nat.mod_lt b (by decide))).2 _ (Nat.mod_lt k (by decide)), quadByte, hword]
    exact if_congr (by omega) rfl rfl
  · have hget : (putByte ws b v).getD (k / 4) 0 = ws.getD (k / 4) 0 := by
      rw [putByte, List.getD_eq_getElem?_getD, List.getElem?_set_ne (Ne.symm hword), ← List.getD_eq_getElem?_getD]
    rw [quadByte, hget, if_neg (fun hk => hword (congrArg (· / 4) hk)), quadByte]

/-! ## Scale bytes of quantised blocks (R236) -/

/-- The quad with two scale bytes for each block. -/
def scalesPut (o : Nat) (qs : List (Nat × List Nat × Nat × Nat × Flags)) (ws : List Nat) : List Nat :=
  qs.foldl (fun ws q => putByte (putByte ws (o + 2 * q.1) q.2.2.1) (o + 2 * q.1 + 1) q.2.2.2.1) ws

variable {o : Nat} {qs : List (Nat × List Nat × Nat × Nat × Flags)}

theorem Quad.scalesPut {ws : List Nat} (h : Quad ws) : Quad (scalesPut o qs ws) := by
  induction qs generalizing ws with
  | nil => exact h
  | cons q qs ih => exact ih ((h.putByte _ _).putByte _ _)

/-- The bytes of one block's scales. -/
theorem quadByte_scalesPut {ws : List Nat} (h : Quad ws) (hin : ∀ q ∈ qs, o + 2 * q.1 + 1 < 16) (k : Nat) :
    (∀ q ∈ qs, k ≠ o + 2 * q.1 ∧ k ≠ o + 2 * q.1 + 1) → quadByte (scalesPut o qs ws) k = quadByte ws k := by
  intro hk
  induction qs generalizing ws with
  | nil => rfl
  | cons q qs ih =>
    have hq := hin q List.mem_cons_self
    obtain ⟨hk0, hk1⟩ := hk q List.mem_cons_self
    refine (ih ((h.putByte _ _).putByte _ _) (fun p hp => hin p (List.mem_cons_of_mem _ hp)) fun p hp => hk p (List.mem_cons_of_mem _ hp)).trans ?_
    rw [quadByte_putByte (h.putByte _ _) hq, if_neg hk1, quadByte_putByte h (Nat.lt_of_succ_lt hq), if_neg hk0]

theorem quadByte_scalesPut_of_mem {ws : List Nat} (h : Quad ws) (hin : ∀ q ∈ qs, o + 2 * q.1 + 1 < 16) (hnodup : (qs.map Prod.fst).Nodup)
    {q : Nat × List Nat × Nat × Nat × Flags} (hq : q ∈ qs) : quadByte (scalesPut o qs ws) (o + 2 * q.1) = q.2.2.1 % 256 ∧
      quadByte (scalesPut o qs ws) (o + 2 * q.1 + 1) = q.2.2.2.1 % 256 := by
  induction qs generalizing ws with
  | nil => exact absurd hq List.not_mem_nil
  | cons p qs ih =>
    rw [List.map_cons, List.nodup_cons] at hnodup
    obtain ⟨hp, hrest⟩ := hnodup
    have hquad := (h.putByte (o + 2 * p.1) p.2.2.1).putByte (o + 2 * p.1 + 1) p.2.2.2.1
    have hinrest : ∀ q ∈ qs, o + 2 * q.1 + 1 < 16 := fun q hq => hin q (List.mem_cons_of_mem _ hq)
    rcases List.mem_cons.mp hq with rfl | htail
    · have hlt := hin q List.mem_cons_self
      have hne : ∀ r ∈ qs, r.1 ≠ q.1 := fun r hr he => hp (he ▸ List.mem_map_of_mem hr)
      have h0 := quadByte_scalesPut hquad hinrest (o + 2 * q.1) fun r hr => by have := hne r hr; omega
      have h1 := quadByte_scalesPut hquad hinrest (o + 2 * q.1 + 1) fun r hr => by have := hne r hr; omega
      refine ⟨h0.trans ?_, h1.trans ?_⟩
      · rw [quadByte_putByte (h.putByte _ _) hlt, if_neg (by omega), quadByte_putByte h (Nat.lt_of_succ_lt hlt), if_pos rfl]
      · rw [quadByte_putByte (h.putByte _ _) hlt, if_pos rfl]
    · exact ih hquad hinrest hrest htail

end Sys2Proof.Machine
end

section
/-! SUPPORT. The matrix words (R231 to R240). -/

namespace Sys2Proof.Machine

/-! ## `mma` (R231 to R234) -/

section
variable {s : State} {x : Ctx} {c : Crew} {t : State} {h : Hdr} {nsel : BitVec 2} {msk zc : Bool} {mq : BitVec 4} {scl : BitVec 3} {d a b r : Reg}
  {ta : TRef} {tbs tds : List TRef} {w k : Nat}

/-- The columns of B and D that a word computes, and the tiles in the groups of B and of D (R231). -/
def mmaN (nsel : BitVec 2) : Nat := 8 * 2 ^ nsel.toNat
def mmaGb (nsel : BitVec 2) : Nat := if mmaN nsel = 64 then 2 else 1
def mmaGd (nsel : BitVec 2) (w : Nat) : Nat := if mmaN nsel = 64 && (fmtC w == .f32 || fmtC w == .i32) then 2 else 1

/-- The shape of a tile. -/
def Shaped (t : TRef) (ty : Ty) (r c : Nat) : Prop := Tc.ty t.tc = ty ∧ Tc.rows t.tc = r ∧ Tc.cols t.tc = c

/-- Whether the mask in a scalar register enables a column or depth. -/
def mmaOn (msk : Bool) (v bit : Nat) : Bool := !msk || fld v bit 1 == 1

/-- The operands of an `mma`. -/
def mmaIn (c : Crew) (nsel : BitVec 2) (msk : Bool) (mq : BitVec 4) (scl : BitVec 3) (w k : Nat) : MmaIn :=
  { ty := fmtA w, cty := fmtC w, k := k, n := mmaN nsel, nd := mmaN nsel / mmaGd nsel w, fmt := w, scl := 8 * scl.toNat,
    deps := (List.range k).filter (fun j => if j < 64 then mmaOn msk (c.rs (4 * mq.toNat + 1)) j else mmaOn msk (c.rs (4 * mq.toNat + 2)) (j - 64)),
    cols := (List.range (mmaN nsel)).filter (fun j => mmaOn msk (c.rs (4 * mq.toNat)) j) }

/-- The result of an `mma` in a state in which it has its grant. -/
def mmaResult (x : Ctx) (c : Crew) (u : State) (zc : Bool) (m : MmaIn) (ta : TRef) (tbs tds : List TRef) : List TileArr × Flags :=
  let get (v : TRef) : TileArr × Tc := (u.tile (keyGid x.key) v, v.tc)
  mmaRun x c m zc (get ta) (tbs.map get) (tds.map get)

/-- The state after an `mma`: its tiles written, the flags, the tiles busy (R234). -/
def mmaStored (x : Ctx) (u : State) (o : List TileArr × Flags) (tds : List TRef) (till : Nat) (reads writes : List Nat) : State :=
  ((tds.zip o.1).foldl (fun s v => s.setTile (keyGid x.key) v.1 v.2) u).updCrew x.key (fun c => (c.orFlags o.2).holdTiles till reads writes)

/-- The tiles of an `mma` suit it. -/
theorem mmaAct_of_shaped {i : Instr} (hfree : c.tileWait t.now (a.toNat :: tileGroup b.toNat (mmaGb nsel)) (tileGroup d.toNat (mmaGd nsel w)) = false)
    (hta : c.tref? [a.toNat] = some [ta]) (htbs : c.tref? (tileGroup b.toNat (mmaGb nsel)) = some tbs)
    (htds : c.tref? (tileGroup d.toNat (mmaGd nsel w)) = some tds) (hsa : Shaped ta (fmtA w) 32 k)
    (hsb : ∀ v ∈ tbs, Shaped v (fmtA w) (min (mmaN nsel) 32) k) (hsd : ∀ v ∈ tds, Shaped v (fmtC w) 32 (mmaN nsel / mmaGd nsel w))
    (hab : a.toNat ∉ tileGroup b.toNat (mmaGb nsel)) (had : a.toNat ∉ tileGroup d.toNat (mmaGd nsel w))
    (hbd : ∀ v ∈ tileGroup b.toNat (mmaGb nsel), v ∉ tileGroup d.toNat (mmaGd nsel w)) (hb : b.toNat % mmaGb nsel = 0) (hd : d.toNat % mmaGd nsel w = 0)
    (hscl : Ty.isDx (fmtA w) = true → 8 * scl.toNat + 8 ≤ c.win) (hclean : tilesBad x t ((ta :: tbs) ++ (if zc then [] else tds)) = none)
    (hgrant : (t.core c.core).grants c.pipe t.now = true) :
    mmaAct x c t i nsel msk zc mq scl d.toNat a.toNat b.toNat w k = .done (mmaStored x (t.grantMatrix c.core c.pipe (mmaCycles (fmtA w) (mmaN nsel)))
      (mmaResult x c (t.grantMatrix c.core c.pipe (mmaCycles (fmtA w) (mmaN nsel))) zc (mmaIn c nsel msk mq scl w k) ta tbs tds) tds
      (t.now + mmaCycles (fmtA w) (mmaN nsel)) (a.toNat :: tileGroup b.toNat (mmaGb nsel)) (tileGroup d.toNat (mmaGd nsel w))) := by
  have hshape {v : TRef} {ty : Ty} {r cn : Nat} (hv : Shaped v ty r cn) : (Tc.ty v.tc == ty && Tc.rows v.tc == r && Tc.cols v.tc == cn) = true := by
    obtain ⟨h1, h2, h3⟩ := hv
    rw [h1, h2, h3, beq_self_eq_true, beq_self_eq_true, beq_self_eq_true]
    rfl
  have hok : (!(Tc.ty ta.tc == fmtA w && Tc.rows ta.tc == 32 && Tc.cols ta.tc == k &&
        tbs.all (fun t => Tc.ty t.tc == fmtA w && Tc.rows t.tc == min (mmaN nsel) 32 && Tc.cols t.tc == k) &&
        tds.all (fun t => Tc.ty t.tc == fmtC w && Tc.rows t.tc == 32 && Tc.cols t.tc == mmaN nsel / mmaGd nsel w)) ||
      !(!(tileGroup b.toNat (mmaGb nsel)).contains a.toNat && !(tileGroup d.toNat (mmaGd nsel w)).contains a.toNat &&
        !(tileGroup b.toNat (mmaGb nsel)).any (tileGroup d.toNat (mmaGd nsel w)).contains) ||
      b.toNat % mmaGb nsel != 0 || d.toNat % mmaGd nsel w != 0 || (Ty.isDx (fmtA w) && decide (c.win < 8 * scl.toNat + 8))) = false := by
    have hany : (tileGroup b.toNat (mmaGb nsel)).any (tileGroup d.toNat (mmaGd nsel w)).contains = false :=
      List.any_eq_false.mpr fun v hv => by simpa using hbd v hv
    have hdx : (Ty.isDx (fmtA w) && decide (c.win < 8 * scl.toNat + 8)) = false := by
      cases hx : Ty.isDx (fmtA w)
      · rfl
      · rw [Bool.true_and, decide_eq_false (Nat.not_lt.mpr (hscl hx))]
    have hnot {l : List Nat} {v : Nat} (hv : v ∉ l) : l.contains v = false := by rw [← Bool.not_eq_true, List.contains_iff_mem]; exact hv
    rw [hshape hsa, List.all_eq_true.mpr fun v hv => hshape (hsb v hv), List.all_eq_true.mpr fun v hv => hshape (hsd v hv), hb, hd, hany, hdx,
      hnot hab, hnot had]
    rfl
  have hn : 8 * 2 ^ nsel.toNat = mmaN nsel := rfl
  have hgb : (if mmaN nsel = 64 then 2 else 1) = mmaGb nsel := rfl
  have hgd : (if mmaN nsel = 64 && (fmtC w == .f32 || fmtC w == .i32) then 2 else 1) = mmaGd nsel w := rfl
  simp only [mmaAct, hn, hgb, hgd, hfree, hta, htbs, htds, hok, hclean, matrixAct_of_grant hgrant, Bool.false_eq_true, if_false]
  rfl

/-- The scale registers and the second mask register, which an `mma` reads late. -/
def mmaLate (c : Crew) (msk : Bool) (mq : BitVec 4) (scl : BitVec 3) (w k : Nat) : List Span1 :=
  (if Ty.isDx (fmtA w) && decide ((BitVec.ofNat 6 (8 * scl.toNat) : Reg).toNat + 8 ≤ c.win) then [vReg (BitVec.ofNat 6 (8 * scl.toNat)) 8] else []) ++
    (if msk && decide (64 < k) then [sReg ((BitVec.ofNat 6 (4 * mq.toNat) : Reg) + 2)] else [])

theorem toNat_scaleReg (scl : BitVec 3) : (BitVec.ofNat 6 (8 * scl.toNat) : Reg).toNat = 8 * scl.toNat := by
  rw [BitVec.toNat_ofNat]
  exact Nat.mod_eq_of_lt (by omega)

/-- R231: an `mma` whose format word is agreed and whose late registers are there does what its format asks for. -/
theorem execMma_of_format {v : State} (hr : s.ready [Hdr.use h (vReg r 1 :: (if msk then [sRegs (BitVec.ofNat 6 (4 * mq.toNat)) 2] else [])) []] = some (x, c, t))
    (hag : ∀ l ∈ x.act.lanes, c.rv r.toNat l = w) (hk : fmtMma w = some k) (hlate : ReadsLate x c (mmaLate c msk mq scl w k))
    (hgroup : Ty.isDx (fmtA w) = true → (BitVec.ofNat 6 (8 * scl.toNat) : Reg).toNat + 8 ≤ c.win →
      c.groupFree (BitVec.ofNat 6 (8 * scl.toNat) : Reg).toNat 8 = true)
    (hscalar : (msk && decide (64 < k)) = true → c.scalarFree ((BitVec.ofNat 6 (4 * mq.toNat) : Reg).toNat + 2) = true)
    (hact : mmaAct x c t (.mma h nsel msk zc mq scl d a b r) nsel msk zc mq scl d.toNat a.toNat b.toNat w k = .done v) :
    exec (.mma h nsel msk zc mq scl d a b r) s = .next (x.retires 8 h.stall.toNat v) := by
  have hfree : ((!(Ty.isDx (fmtA w) && decide ((BitVec.ofNat 6 (8 * scl.toNat) : Reg).toNat + 8 ≤ c.win)) ||
      c.groupFree (BitVec.ofNat 6 (8 * scl.toNat) : Reg).toNat 8) &&
      (!(msk && decide (64 < k)) || c.scalarFree ((BitVec.ofNat 6 (4 * mq.toNat) : Reg).toNat + 2))) = true := by
    rw [Bool.and_eq_true, Bool.or_eq_true, Bool.or_eq_true, Bool.not_eq_true', Bool.not_eq_true']
    refine ⟨?_, ?_⟩
    · rw [← Bool.not_eq_true, Bool.and_eq_true, decide_eq_true_eq]
      exact or_iff_not_imp_left.mpr fun hn => (not_not.mp hn).elim hgroup
    · exact or_iff_not_imp_left.mpr fun hn => hscalar (Bool.not_eq_false _ ▸ hn)
  refine exec_done_of_ready (mg := none) (.mma h nsel msk zc mq scl d a b r) hr rfl ((fmtWord_of_agreed (State.act_of_ready hr) hag).trans ?_)
  rw [mmaLate] at hlate
  simp only [hk]
  exact (lateReads_of_readsLate hlate hfree).trans hact

end

/-! ## Conversion (R235 to R237) -/

section
variable {s : State} {x : Ctx} {c : Crew} {t : State} {h : Hdr} {d a b r : Reg} {ta td : TRef} {w : Nat} {soff : BitVec 2}

/-- Elements of some rows computed one after another, with the flags of all. -/
def eachPut (td : TRef) (f : Nat → Nat → FRes) (is : List Nat) (arr : TileArr) : TileArr × Flags :=
  is.foldl (fun acc i => (List.range (Tc.cols td.tc)).foldl (fun acc j => (elPut acc.1 td.tc i j (f i j).bits, acc.2 ||| (f i j).fl)) acc) (arr, 0)

/-- Whether the scoreboard leaves the vector groups that a word reads late. -/
def Crew.groupsFree (c : Crew) (us : List Span1) : Bool := us.all (fun u => match u.reg with | .v n => c.groupFree n u.n | _ => true)

theorem Crew.groupsFree_vReg (c : Crew) (b : Reg) (n : Nat) : c.groupsFree [vReg b n] = c.groupFree b.toNat n := Bool.and_true _

/-- A conversion whose tiles suit its format word. -/
theorem cvtTiles_of_shaped {i : Instr} {scales : Nat → List Span1} {ok : Nat → Bool} {f : Nat → TRef → TRef → Act}
    (hact : x.act ≠ 0) (hag : ∀ l ∈ x.act.lanes, c.rv r.toNat l = w)
    (hfree : c.tileWait t.now [a.toNat] [d.toNat] = false) (hts : c.tref? [a.toNat, d.toNat] = some [ta, td]) (htya : Tc.ty ta.tc = fmtA w)
    (htyd : Tc.ty td.tc = fmtC w) (hrows : Tc.rows ta.tc = Tc.rows td.tc) (hcols : Tc.cols ta.tc = Tc.cols td.tc) (hne : d ≠ a) (hok : ok w = true)
    (hlate : ReadsLate x c (scales w)) (hgroups : c.groupsFree (scales w) = true) :
    cvtTiles x c t i d a r scales ok f = f w ta td := by
  have hfit : (Tc.ty ta.tc != fmtA w || Tc.ty td.tc != fmtC w || Tc.rows ta.tc != Tc.rows td.tc || Tc.cols ta.tc != Tc.cols td.tc || d == a) = false := by
    rw [htya, htyd, hrows, hcols, beq_false_of_ne hne]
    simp only [bne_self_eq_false, Bool.or_false]
  refine (if_neg (by rw [hfree]; exact Bool.false_ne_true)).trans ((fmtWord_of_agreed hact hag).trans ((lateReads_of_readsLate hlate hgroups).trans ?_))
  simp only [hok, hts, hfit, Bool.not_true, Bool.false_eq_true, if_false]

/-- The value of an element that a `tcvt` converts (R237). -/
def cvtVal (c : Crew) (w : Nat) (soff : BitVec 2) (b : Reg) (ta : TRef) (src : TileArr) (i j : Nat) : FVal :=
  if Ty.isDx (fmtA w) then
    dxVal (fmtA w) (elGet src ta.tc i j) (c.scalesAt true b.toNat i (4 * soff.toNat) j).1 (c.scalesAt true b.toNat i (4 * soff.toNat) j).2
  else if fmtA w == .i32 then .num (decide (iVal .i32 (elGet src ta.tc i j) < 0)) (iVal .i32 (elGet src ta.tc i j)).natAbs 0
  else fDec (fmtA w) (elGet src ta.tc i j)

theorem cvtVal_eq (c : Crew) (w : Nat) (soff : BitVec 2) (b : Reg) (ta : TRef) (src : TileArr) (i j : Nat) : cvtVal c w soff b ta src i j =
    if Ty.isDx (fmtA w) then
      dxVal (fmtA w) (elGet src ta.tc i j) (c.scalesAt true b.toNat i (4 * soff.toNat) j).1 (c.scalesAt true b.toNat i (4 * soff.toNat) j).2
    else if fmtA w = .i32 then .num (decide (iVal .i32 (elGet src ta.tc i j) < 0)) (iVal .i32 (elGet src ta.tc i j)).natAbs 0
    else fDec (fmtA w) (elGet src ta.tc i j) := by
  simp only [cvtVal, beq_iff_eq]

/-- The scale registers that a `tcvt` reads. -/
def cvtScales (c : Crew) (b : Reg) (w : Nat) : List Span1 := if Ty.isDx (fmtA w) && decide (b.toNat + 4 ≤ c.win) then [vReg b 4] else []

variable (hag : ∀ l ∈ x.act.lanes, c.rv r.toNat l = w) (hfree : c.tileWait t.now [a.toNat] [d.toNat] = false)
  (hts : c.tref? [a.toNat, d.toNat] = some [ta, td]) (htya : Tc.ty ta.tc = fmtA w) (htyd : Tc.ty td.tc = fmtC w)
  (hrows : Tc.rows ta.tc = Tc.rows td.tc) (hcols : Tc.cols ta.tc = Tc.cols td.tc) (hne : d ≠ a) (hclean : tilesBad x t [ta] = none)
include hag hfree hts htya htyd hrows hcols hne hclean

theorem execTcvt_converts (hr : s.ready [Hdr.use h [vReg r 1] []] = some (x, c, t)) (hok : fmtCvt w = true) (hlate : ReadsLate x c (cvtScales c b w))
    (hgroups : c.groupsFree (cvtScales c b w) = true)
    (hdx : Ty.isDx (fmtA w) = true → 4 * soff.toNat + 2 * (Tc.cols ta.tc / 32) ≤ 16 ∧ b.toNat + 4 ≤ c.win) (hno : Ty.isDx (fmtA w) = false → b = 0) :
    exec (.tcvt h soff d a b r) s = .next (x.retires 8 h.stall.toNat (tileStored x t td
      (eachPut td (fun i j => cvtElem (fmtC w) (fmtRnd w) (fmtSat w) (cvtVal c w soff b ta (t.tile (keyGid x.key) ta) i j)) (ta.rowsIn x.act)
        (t.tile (keyGid x.key) td)).1
      (eachPut td (fun i j => cvtElem (fmtC w) (fmtRnd w) (fmtSat w) (cvtVal c w soff b ta (t.tile (keyGid x.key) ta) i j)) (ta.rowsIn x.act)
        (t.tile (keyGid x.key) td)).2)) := by
  have hfit : ((Ty.isDx (fmtA w) && (decide (16 < 4 * soff.toNat + 2 * (Tc.cols ta.tc / 32)) || decide (c.win < b.toNat + 4))) ||
      (!Ty.isDx (fmtA w) && b != 0)) = false := by
    cases hx : Ty.isDx (fmtA w)
    · rw [hno hx]
      rfl
    · obtain ⟨h1, h2⟩ := hdx hx
      rw [decide_eq_false (Nat.not_lt.mpr h1), decide_eq_false (Nat.not_lt.mpr h2)]
      rfl
  refine exec_done_of_ready (mg := none) (.tcvt h soff d a b r) hr rfl
    ((cvtTiles_of_shaped (State.act_of_ready hr) hag hfree hts htya htyd hrows hcols hne hok hlate hgroups).trans ?_)
  simp only [hfit, hclean, Bool.false_eq_true, if_false]
  rfl

/-- The blocks of 32 elements of a tile's rows, quantised (R236). -/
def quantBlocks (x : Ctx) (w : Nat) (ta : TRef) (src : TileArr) : List (Nat × List (List Nat × Nat × Nat × Flags)) :=
  (ta.rowsIn x.act).map (fun i => (i, (List.range (Tc.cols ta.tc / 32)).map (fun q =>
    quantBlock (fmtA w) (fmtC w) (fmtRnd w) (fmtSat w) ((List.range 32).map (fun j => elGet src ta.tc i (32 * q + j))))))

/-- The blocks put into their tile. -/
def blocksPut (nb : Nat) (td : TRef) (blocks : List (Nat × List (List Nat × Nat × Nat × Flags))) (arr : TileArr) : TileArr :=
  blocks.foldl (fun arr row => ((List.range nb).zip row.2).foldl (fun arr q =>
    ((List.range 32).zip q.2.1).foldl (fun arr e => elPut arr td.tc row.1 (32 * q.1 + e.1) e.2) arr) arr) arr

/-- The flags of all blocks. -/
def blocksFlags (blocks : List (Nat × List (List Nat × Nat × Nat × Flags))) : Flags := Flags.any (blocks.flatMap (fun row => row.2.map (fun q => q.2.2.2)))

/-- The four registers of a lane with the scale bytes of its row's blocks. -/
def quantQuad (c : Crew) (b : Reg) (o nb : Nat) (blocks : List (Nat × List (List Nat × Nat × Nat × Flags))) (i : Nat) : List Nat :=
  match blocks.find? (fun row => row.1 == i) with
  | none => (List.range 4).map (fun k => c.rv (b.toNat + k) i)
  | some row => scalesPut o ((List.range nb).zip row.2) ((List.range 4).map (fun k => c.rv (b.toNat + k) i))

theorem execTquant_quantises (hr : s.ready [Hdr.use h [vReg b 4, vReg r 1] [vReg b 4]] = some (x, c, t)) (hlate : ReadsLate x c []) (hok : fmtQuant w = true)
    (hfit : 4 * soff.toNat + 2 * (Tc.cols ta.tc / 32) ≤ 16) :
    exec (.tquant h soff d a b r) s = .next (x.retires 8 h.stall.toNat ((tileStored x t td
      (blocksPut (Tc.cols ta.tc / 32) td (quantBlocks x w ta (t.tile (keyGid x.key) ta)) (t.tile (keyGid x.key) td))
      (blocksFlags (quantBlocks x w ta (t.tile (keyGid x.key) ta)))).updCrew x.key (fun v => v.addPend x.e
        (c.vecWrites b.toNat 4 (Mask.ofLanes (ta.rowsIn x.act)) (fun i =>
          wordsVal (quantQuad c b (4 * soff.toNat) (Tc.cols ta.tc / 32) (quantBlocks x w ta (t.tile (keyGid x.key) ta)) i)))))) := by
  refine exec_done_of_ready (mg := none) (.tquant h soff d a b r) hr rfl
    ((cvtTiles_of_shaped (State.act_of_ready hr) hag hfree hts htya htyd hrows hcols hne hok hlate rfl).trans ?_)
  simp only [if_neg (Nat.not_lt.mpr hfit), hclean]
  rfl

end

theorem quad_regs (c : Crew) (b i : Nat) : Quad ((List.range 4).map (fun k => c.rv (b + k) i)) := by
  refine ⟨List.length_map _, fun w hw => ?_⟩
  obtain ⟨k, -, rfl⟩ := List.mem_map.mp hw
  exact (Cells.get c.vr _).isLt

theorem fst_zip_sublist {α β : Type} (l : List α) (m : List β) : ((l.zip m).map Prod.fst).Sublist l := by
  induction l generalizing m with
  | nil => exact List.Sublist.refl []
  | cons a l ih =>
    cases m with
    | nil => exact List.nil_sublist _
    | cons b m => exact (ih m).cons_cons a

/-- R236: the two scale bytes of a block in its row's registers. -/
theorem fld_quantQuad {c : Crew} {b : Reg} {o nb i q : Nat} {blocks : List (Nat × List (List Nat × Nat × Nat × Flags))} {blk : List Nat × Nat × Nat × Flags}
    (hq : q < nb) (hfit : o + 2 * nb ≤ 16) (hblk : ((blocks.find? (fun row => row.1 == i)).map Prod.snd).bind (fun bs => bs[q]?) = some blk) :
    fld (wordsVal (quantQuad c b o nb blocks i)) (8 * (o + 2 * q)) 8 = blk.2.1 % 256 ∧
      fld (wordsVal (quantQuad c b o nb blocks i)) (8 * (o + 2 * q + 1)) 8 = blk.2.2.1 % 256 := by
  obtain ⟨bs, hbs, hget⟩ := Option.bind_eq_some_iff.mp hblk
  obtain ⟨row, hrow, rfl⟩ := Option.map_eq_some_iff.mp hbs
  have hquad := quad_regs c b.toNat i
  have hval : quantQuad c b o nb blocks i = scalesPut o ((List.range nb).zip row.2) ((List.range 4).map (fun k => c.rv (b.toNat + k) i)) := by
    rw [quantQuad, hrow]
  have hmem : (q, blk) ∈ (List.range nb).zip row.2 :=
    List.mem_of_getElem? (List.getElem?_zip_eq_some.mpr ⟨by rw [List.getElem?_range hq], hget⟩)
  have hnodup : (((List.range nb).zip row.2).map Prod.fst).Nodup := (fst_zip_sublist _ _).nodup List.nodup_range
  have hin : ∀ p ∈ (List.range nb).zip row.2, o + 2 * p.1 + 1 < 16 := fun p hp => by
    have := List.mem_range.mp (List.of_mem_zip hp).1
    omega
  obtain ⟨h0, h1⟩ := quadByte_scalesPut_of_mem hquad hin hnodup hmem
  rw [hval, fld_wordsVal hquad.scalesPut.2, fld_wordsVal hquad.scalesPut.2]
  exact ⟨h0, h1⟩

/-! ## Reduction and elementwise arithmetic (R238 to R240) -/

section
variable {s : State} {x : Ctx} {c : Crew} {t : State} {h : Hdr} {op : BitVec 4} {rnd : Rnd} {sat colm : Bool} {d a b r : Reg} {bo : Opnd} {ta tb td : TRef}

/-- The reduction of one row of a tile. -/
def reducedRow (op : BitVec 4) (rnd : Rnd) (cn : Nat) (ta : TRef) (src : TileArr) (i : Nat) : FRes :=
  tredRow (Tc.ty ta.tc) op.toNat rnd ((List.range cn).map (fun j => elGet src ta.tc i j))

/-- The results of a `tred`, lane by lane. -/
def reducedRows (op : BitVec 4) (rnd : Rnd) (cn : Nat) (ta : TRef) (src : TileArr) (rows : List Nat) : List FRes :=
  (List.range 32).map (fun i => if rows.contains i then reducedRow op rnd cn ta src i else { bits := 0, fl := 0 })

theorem execTred_reduces (hr : s.ready [Hdr.use h (Opnd.span bo 1) [vReg d 1]] = some (x, c, t)) (hfree : c.tileWait t.now [a.toNat] [] = false)
    (hts : c.tref? [a.toNat] = some [ta]) (hty : (Tc.ty ta.tc).isInt = decide (op.toNat < 6)) (hclean : tilesBad x t [ta] = none) :
    exec (.tred h op rnd d a bo) s = .next (x.retires 8 h.stall.toNat ((t.updCrew x.key (fun v => v.orFlags (Flags.any
      ((reducedRows op rnd (min (c.sval bo % 2 ^ 32) (Tc.cols ta.tc)) ta (t.tile (keyGid x.key) ta) (ta.rowsIn x.act)).map FRes.fl)))).updCrew x.key
      (fun v => v.addPend x.e (c.vecWrites d.toNat 1 (Mask.ofLanes (ta.rowsIn x.act)) (fun i =>
        ((reducedRows op rnd (min (c.sval bo % 2 ^ 32) (Tc.cols ta.tc)) ta (t.tile (keyGid x.key) ta) (ta.rowsIn x.act)).getD i
          { bits := 0, fl := 0 }).bits))))) := by
  refine exec_done_of_ready (mg := none) (.tred h op rnd d a bo) hr rfl ((tileAct_of_free hfree hts).trans ?_)
  simp only [trefAt, List.getD_cons_zero, hty, bne_self_eq_false, Bool.false_eq_true, if_false, hclean]
  rfl

/-- The flags of a `tred` are those of its rows. -/
theorem reducedRows_flags {cn : Nat} {src : TileArr} {rows : List Nat} : (reducedRows op rnd cn ta src rows).map FRes.fl =
    (List.range 32).map (fun i => if rows.contains i then (reducedRow op rnd cn ta src i).fl else 0) := by
  rw [reducedRows, List.map_map]
  refine List.map_congr_left fun i _ => ?_
  rw [Function.comp_apply, apply_ite FRes.fl]

/-- The result of a `tred` in a lane of its rows. -/
theorem reducedRows_getD {cn : Nat} {src : TileArr} {rows : List Nat} {l : Nat} (hl : (Mask.ofLanes rows).getLsbD l = true) :
    ((reducedRows op rnd cn ta src rows).getD l { bits := 0, fl := 0 }) = reducedRow op rnd cn ta src l := by
  have h32 := Mask.lt_of_lane hl
  rw [Mask.getLsbD_ofLanes rows h32, decide_eq_true_eq] at hl
  rw [reducedRows, getD_map_range _ _ h32, if_pos (List.contains_iff_mem.mpr hl)]

theorem execTadd_combines (hr : s.ready [Hdr.use h [] []] = some (x, c, t)) (hfree : c.tileWait t.now [a.toNat, b.toNat] [d.toNat] = false)
    (hts : c.tref? [a.toNat, b.toNat, d.toNat] = some [ta, tb, td]) (hsa : sameShape ta.tc td.tc = true) (hsb : sameShape tb.tc td.tc = true)
    (hty : Tc.ty td.tc = .f16 ∨ Tc.ty td.tc = .bf16 ∨ Tc.ty td.tc = .f32 ∨ (Tc.ty td.tc = .i32 ∧ rnd = .rne ∧ (op = 2 → sat = false)))
    (hop : op.toNat < 3 ∨ (rnd = .rne ∧ sat = false)) (hclean : tilesBad x t [ta, tb] = none) :
    exec (.tadd h op rnd sat d a b) s = .next (x.retires 8 h.stall.toNat (tileStored x t td
      (eachPut td (fun i j => taddElem (Tc.ty td.tc) op.toNat rnd sat (elGet (t.tile (keyGid x.key) ta) ta.tc i j)
        (elGet (t.tile (keyGid x.key) tb) tb.tc i j)) (td.rowsIn x.act) (t.tile (keyGid x.key) td)).1
      (eachPut td (fun i j => taddElem (Tc.ty td.tc) op.toNat rnd sat (elGet (t.tile (keyGid x.key) ta) ta.tc i j)
        (elGet (t.tile (keyGid x.key) tb) tb.tc i j)) (td.rowsIn x.act) (t.tile (keyGid x.key) td)).2)) := by
  have htypes : (Tc.ty td.tc == .i32 || Tc.ty td.tc == .f16 || Tc.ty td.tc == .bf16 || Tc.ty td.tc == .f32) = true := by
    rcases hty with h1 | h1 | h1 | ⟨h1, -, -⟩ <;> rw [h1] <;> rfl
  have hminmax : (decide (3 ≤ op.toNat) && (rnd != .rne || sat)) = false := by
    rcases hop with h1 | ⟨rfl, rfl⟩
    · rw [decide_eq_false (Nat.not_le.mpr h1), Bool.false_and]
    · exact Bool.and_false _
  have hint : (Tc.ty td.tc == .i32 && (rnd != .rne || (op.toNat == 2 && sat))) = false := by
    rcases hty with h1 | h1 | h1 | ⟨-, rfl, h2⟩
    · rw [h1]; rfl
    · rw [h1]; rfl
    · rw [h1]; rfl
    · have hsat : (op.toNat == 2 && sat) = false := by
        cases hs : sat
        · exact Bool.and_false _
        · have hne : op ≠ 2 := fun he => absurd (h2 he) (by rw [hs]; decide)
          have htwo : (op.toNat == 2) = false := beq_false_of_ne fun he => hne (BitVec.eq_of_toNat_eq he)
          rw [htwo, Bool.false_and]
      rw [hsat]
      exact Bool.and_false _
  refine exec_done_of_ready (mg := none) (.tadd h op rnd sat d a b) hr rfl ((tileAct_of_free hfree hts).trans ?_)
  simp only [trefAt, List.getD_cons_zero, List.getD_cons_succ, hsa, hsb, htypes, hminmax, hint, Bool.not_true, Bool.or_false, Bool.false_eq_true,
    if_false, hclean]
  rfl

/-- The factor or summand of a `tmulv` for an element: of its column or its row. -/
def mulvReg (c : Crew) (colm : Bool) (g : Reg) (i j : Nat) : Nat := if colm then c.rv (g.toNat + j / 32) (j % 32) else c.rv g.toNat i

/-- One element of a `tmulv` (R240). -/
def mulvElem (c : Crew) (colm : Bool) (rnd : Rnd) (sat : Bool) (b r : Reg) (ty : Ty) (ta : TRef) (src : TileArr) (i j : Nat) : FRes :=
  fFma ty rnd sat (fDec ty (elGet src ta.tc i j)) (fDec .f32 (mulvReg c colm b i j)) (fDec .f32 (mulvReg c colm r i j))

theorem execTmulv_combines (hr : s.ready [Hdr.use h (if colm then [] else [vReg b 1, vReg r 1]) []] = some (x, c, t))
    (hfree : c.tileWait t.now [a.toNat] [d.toNat] = false) (hts : c.tref? [a.toNat, d.toNat] = some [ta, td]) (hshape : sameShape ta.tc td.tc = true)
    (hty : Tc.ty td.tc = .f16 ∨ Tc.ty td.tc = .bf16 ∨ Tc.ty td.tc = .f32)
    (hcol : colm = true → b.toNat + (Tc.cols ta.tc + 31) / 32 ≤ c.win ∧ r.toNat + (Tc.cols ta.tc + 31) / 32 ≤ c.win ∧
      c.groupQuiet b.toNat ((Tc.cols ta.tc + 31) / 32) = true ∧ c.groupQuiet r.toNat ((Tc.cols ta.tc + 31) / 32) = true)
    (hlate : ReadsLate x c (if colm then [vReg b ((Tc.cols ta.tc + 31) / 32), vReg r ((Tc.cols ta.tc + 31) / 32)] else []))
    (hclean : tilesBad x t [ta] = none) :
    exec (.tmulv h colm rnd sat d a b r) s = .next (x.retires 8 h.stall.toNat (tileStored x t td
      (eachPut td (mulvElem c colm rnd sat b r (Tc.ty td.tc) ta (t.tile (keyGid x.key) ta)) (td.rowsIn x.act) (t.tile (keyGid x.key) td)).1
      (eachPut td (mulvElem c colm rnd sat b r (Tc.ty td.tc) ta (t.tile (keyGid x.key) ta)) (td.rowsIn x.act) (t.tile (keyGid x.key) td)).2)) := by
  have htypes : (Tc.ty td.tc == .f16 || Tc.ty td.tc == .bf16 || Tc.ty td.tc == .f32) = true := by
    rcases hty with h1 | h1 | h1 <;> rw [h1] <;> rfl
  have hwin : (colm && (decide (c.win < b.toNat + (Tc.cols ta.tc + 31) / 32) || decide (c.win < r.toNat + (Tc.cols ta.tc + 31) / 32))) = false := by
    cases hc : colm
    · rfl
    · obtain ⟨h1, h2, -, -⟩ := hcol hc
      rw [decide_eq_false (Nat.not_lt.mpr h1), decide_eq_false (Nat.not_lt.mpr h2)]
      rfl
  have hquiet : (colm && (!c.groupQuiet b.toNat ((Tc.cols ta.tc + 31) / 32) || !c.groupQuiet r.toNat ((Tc.cols ta.tc + 31) / 32))) = false := by
    cases hc : colm
    · rfl
    · obtain ⟨-, -, h1, h2⟩ := hcol hc
      rw [h1, h2]
      rfl
  refine exec_done_of_ready (mg := none) (.tmulv h colm rnd sat d a b r) hr rfl ((tileAct_of_free hfree hts).trans ?_)
  simp only [trefAt, List.getD_cons_zero, List.getD_cons_succ, hshape, htypes, hwin, hquiet, Bool.not_true, Bool.or_false, Bool.false_eq_true, if_false]
  refine (lateReads_of_readsLate hlate rfl).trans ?_
  rw [hclean]
  rfl

end

/-- Settles O30. -/
theorem matrixWords : Obligations.MatrixWords := by
  intro s x c t h d a b r bo ta tb td tbs tds nsel soff op mq scl rnd msk sat zc colm w k gid done stored each clean agreed dx late
  refine ⟨?mma, fun hfree hts htya htyd hrows hcols hne hclean hag => ⟨?tcvt, ?tquant⟩, ?tred, ?tadd, ?tmulv⟩
  case mma =>
    intro n gb gd bs ds q shape qr g far hr hag hk hlate hgroup hscalar hfree hta htbs htds hsa hsb hsd hab had hbd hb hd hscl hclean hgrant
    refine execMma_of_format hr hag hk hlate hgroup hscalar ?_
    exact mmaAct_of_shaped hfree hta htbs htds hsa hsb hsd hab had hbd hb hd (fun hx => toNat_scaleReg scl ▸ hscl hx) hclean hgrant
  case tcvt =>
    intro hr hok hcond val o
    have hscales : ReadsLate x c (cvtScales c b w) ∧ c.groupsFree (cvtScales c b w) = true ∧
        (Ty.isDx (fmtA w) = true → 4 * soff.toNat + 2 * (Tc.cols ta.tc / 32) ≤ 16 ∧ b.toNat + 4 ≤ c.win) ∧ (Ty.isDx (fmtA w) = false → b = 0) := by
      split at hcond
      · rename_i hx
        have hx' : Ty.isDx (fmtA w) = true := hx
        obtain ⟨hfit, hwin, hgroup, hl⟩ := hcond
        rw [cvtScales, hx', decide_eq_true hwin]
        exact ⟨hl, (Crew.groupsFree_vReg c b 4).trans hgroup, fun _ => ⟨hfit, hwin⟩, fun he => absurd he Bool.noConfusion⟩
      · rename_i hx
        have hx' : Ty.isDx (fmtA w) = false := Bool.eq_false_iff.mpr hx
        obtain ⟨hb, hl⟩ := hcond
        rw [cvtScales, hx']
        exact ⟨hl, rfl, fun he => absurd he Bool.false_ne_true, fun _ => hb⟩
    obtain ⟨hlate, hgroups, hdx, hno⟩ := hscales
    have hexec := execTcvt_converts (soff := soff) hag hfree hts htya htyd hrows hcols hne hclean hr hok hlate hgroups hdx hno
    simp only [cvtVal_eq] at hexec
    exact hexec
  case tquant =>
    intro hr hlate hok hfit blocks arr
    refine ⟨_, execTquant_quantises hag hfree hts htya htyd hrows hcols hne hclean hr hlate hok hfit, fun i q hi hq blk hblk => ?_⟩
    exact ⟨_, vecGives_vecWrites _ _ _ _ _ _ fun _ _ => rfl, fld_quantQuad hq hfit hblk⟩
  case tred =>
    intro hr hfree hts hty hclean cn rows row fl
    have hexec := execTred_reduces (rnd := rnd) hr hfree hts hty hclean
    rw [reducedRows_flags] at hexec
    exact ⟨_, hexec, vecGives_vecWrites _ _ _ _ _ _ fun l hl => congrArg FRes.bits (reducedRows_getD hl)⟩
  case tadd => exact fun hr hfree hts hsa hsb hty hop hclean => execTadd_combines hr hfree hts hsa hsb hty hop hclean
  case tmulv =>
    intro hr hfree hts hshape hty hcol hrow hclean
    refine execTmulv_combines hr hfree hts hshape hty (fun hc => ?_) ?_ hclean
    · obtain ⟨hb, hr', hqb, hqr, -⟩ := hcol hc
      exact ⟨hb, hr', hqb, hqr⟩
    · cases hc : colm
      · exact hrow hc
      · obtain ⟨-, -, -, -, hl⟩ := hcol hc
        exact hl

end Sys2Proof.Machine
end

section
/-! SUPPORT. O60: what it means that every state inside a result meets the invariant, and the invariant along folds. -/

namespace Sys2Proof.Machine

/-! ## Results that carry a state -/

def Act.inv : Act → Prop
  | .done s | .jump s _ | .post s _ | .wait s _ | .blocked s | .trap s _ => s.inv
def Dir.inv : Dir → Prop
  | .ok s _ _ _ | .later s => s.inv
def EngX.inv : EngX → Prop
  | .ok s _ | .fail s | .held s _ | .later s => s.inv
def EngR.inv : EngR → Prop
  | .ok s _ | .fail s | .held s _ | .later s => s.inv
def EngIO.inv : EngIO → Prop
  | .ok s _ | .poison s | .fail s | .held s _ | .later s => s.inv
def BarLive.inv : BarLive → Prop
  | .later s => s.inv
  | _ => True
def DispRead.inv : DispRead → Prop
  | .ok s _ | .fail s | .held s _ | .later s => s.inv
def Fetched.inv : Fetched → Prop
  | .later s => s.inv
  | _ => True
def Chk.inv : Chk → Prop
  | .miss s => s.inv
  | _ => True
def BarAt.inv : BarAt → Prop
  | .none => True
  | .loc s _ | .bad s | .held s _ | .later s => s.inv
def PartOut.inv : PartOut → Prop
  | .ok s _ _ | .held s _ | .later s => s.inv
def Credited.inv : Credited → Prop
  | .ok s _ _ | .later s => s.inv
def CmbTo.inv : CmbTo → Prop
  | .at s _ | .fault s | .held s _ | .later s => s.inv
def PumpRead.inv : PumpRead → Prop
  | .ok s _ | .stop s => s.inv
def InAt.inv : InAt → Prop
  | .at s _ | .nack s | .later s => s.inv
def Found.inv : Found → Prop
  | .later s => s.inv
  | _ => True
def BarOut.inv : BarOut → Prop
  | .ok s _ _ | .waits s | .sync s | .poison s | .later s => s.inv
def Walked.inv : Walked → Prop
  | .ok s _ | .fail s _ | .later s => s.inv
def Loaded.inv : Loaded → Prop
  | .bytes s _ | .poison s _ | .later s => s.inv
def CtrTake.inv : CtrTake → Prop
  | .took s | .waits s | .full s => s.inv
def CmbPlace.inv : CmbPlace → Prop
  | .at s _ => s.inv
  | .stop a => a.inv
def Sel.inv : Sel → Prop
  | .idle s | .exec _ s => s.inv

/-- The state of an outcome that goes on. -/
def outcomeInv : Host.Outcome State Fault Refusal → Prop
  | .next s => s.inv
  | _ => True

theorem outcomeInv_of_next {o : Host.Outcome State Fault Refusal} (h : ∀ t, o = .next t → t.inv) : outcomeInv o := by
  cases o with
  | next t => exact h t rfl
  | fault => trivial
  | refused => trivial

/-! ## Folds -/

theorem foldl_keeps {α β : Type} (P : β → Prop) (f : β → α → β) (l : List α) (b : β) (h : P b)
    (hf : ∀ b a, P b → P (f b a)) : P (l.foldl f b) := by
  induction l generalizing b with
  | nil => exact h
  | cons a l ih => exact ih (f b a) (hf b a h)

theorem State.foldl_inv {α : Type} (f : State → α → State) (l : List α) (s : State) (h : s.inv) (hf : ∀ s a, State.inv s → State.inv (f s a)) :
    (l.foldl f s).inv := foldl_keeps State.inv f l s h hf

theorem State.foldl_fst_inv {α β : Type} (f : State × β → α → State × β) (l : List α) (b : State × β) (h : b.1.inv)
    (hf : ∀ b a, b.1.inv → (f b a).1.inv) : (l.foldl f b).1.inv := foldl_keeps (fun b => b.1.inv) f l b h hf

theorem Dir.foldl_inv {α : Type} (f : Dir → α → Dir) (l : List α) (b : Dir) (h : b.inv) (hf : ∀ b a, Dir.inv b → (f b a).inv) :
    (l.foldl f b).inv := foldl_keeps Dir.inv f l b h hf

theorem Dir.foldl_fst_inv {α β : Type} (f : Dir × β → α → Dir × β) (l : List α) (b : Dir × β) (h : b.1.inv)
    (hf : ∀ b a, b.1.inv → (f b a).1.inv) : (l.foldl f b).1.inv := foldl_keeps (fun b => b.1.inv) f l b h hf

theorem EngR.foldl_inv {α : Type} (f : EngR → α → EngR) (l : List α) (b : EngR) (h : b.inv) (hf : ∀ b a, EngR.inv b → (f b a).inv) :
    (l.foldl f b).inv := foldl_keeps EngR.inv f l b h hf

theorem PumpRead.foldl_inv {α : Type} (f : PumpRead → α → PumpRead) (l : List α) (b : PumpRead) (h : b.inv)
    (hf : ∀ b a, PumpRead.inv b → (f b a).inv) : (l.foldl f b).inv := foldl_keeps PumpRead.inv f l b h hf

/-! ## Stops of folds over rows and places, and a choice between two states -/

/-- The stop of a row that fails has a state that meets the invariant. -/
def spillInv {α : Type} (r : Except Act α) : Prop := ∀ a, r = .error a → a.inv

/-- The state of the places found so far, and that of a stop, meet the invariant. -/
def placesInv (r : (State × List Nat) × Option Act) : Prop := r.1.1.inv ∧ ∀ a, r.2 = some a → a.inv

theorem State.ite_inv {p : Prop} [Decidable p] (s t : State) (hs : s.inv) (ht : t.inv) : (if p then s else t).inv := by
  split
  · exact hs
  · exact ht

end Sys2Proof.Machine
end

section
/-! SUPPORT. O60: device memory stays canonical in the lines, the homes, the narrow units and the register file:
one lemma per function of the model, from those of the functions that it calls. -/

namespace Sys2Proof.Machine

set_option Elab.async false -- one proof at a time: the threads of many at once take too much memory

/-! ## Machine/Access.lean -/

theorem State.setCore_inv (s : State) (c : Nat) (v : CoreSt) (h : s.inv) : (s.setCore c v).inv := h

theorem State.updCore_inv (s : State) (c : Nat) (f : CoreSt → CoreSt) (h : s.inv) : (s.updCore c f).inv := h

theorem State.setCluster_inv (s : State) (k : Nat) (v : ClusterSt) (h : s.inv) : (s.setCluster k v).inv := h

theorem State.updCluster_inv (s : State) (k : Nat) (f : ClusterSt → ClusterSt) (h : s.inv) : (s.updCluster k f).inv := h

theorem State.updMgmt_inv (s : State) (k : Nat) (f : Mgmt → Mgmt) (h : s.inv) : (s.updMgmt k f).inv := h

theorem State.setCrew_inv (s : State) (k : Nat) (c : Crew) (h : s.inv) : (s.setCrew k c).inv := h

theorem State.updCrew_inv (s : State) (k : Nat) (f : Crew → Crew) (h : s.inv) : (s.updCrew k f).inv := h

theorem State.setGang_inv (s : State) (g : Nat) (v : Gang) (h : s.inv) : (s.setGang g v).inv := h

theorem State.updGang_inv (s : State) (g : Nat) (f : Gang → Gang) (h : s.inv) : (s.updGang g f).inv := h

theorem State.setSlice_inv (s : State) (n : Nat) (v : Slice) (h : s.inv) : (s.setSlice n v).inv := h

theorem State.updSlice_inv (s : State) (n : Nat) (f : Slice → Slice) (h : s.inv) : (s.updSlice n f).inv := h

theorem State.setQueue_inv (s : State) (q : Nat) (v : QueueRegs) (h : s.inv) : (s.setQueue q v).inv := h

theorem State.setPart_inv (s : State) (p : Nat) (v : Part) (h : s.inv) : (s.setPart p v).inv := h

theorem State.updPart_inv (s : State) (p : Nat) (f : Part → Part) (h : s.inv) : (s.updPart p f).inv := h

theorem State.setAsid_inv (s : State) (a : Nat) (v : AsidRegs) (h : s.inv) : (s.setAsid a v).inv := h

theorem State.setLaunch_inv (s : State) (l : Nat) (v : Launch) (h : s.inv) : (s.setLaunch l v).inv := h

theorem State.updLaunch_inv (s : State) (l : Nat) (f : Launch → Launch) (h : s.inv) : (s.updLaunch l f).inv := h

theorem State.setChan_inv (s : State) (k : Nat) (v : Chan) (h : s.inv) : (s.setChan k v).inv := h

theorem State.setCtrHome_inv (s : State) (o : Nat) (v : CtrHome) (h : s.inv) : (s.setCtrHome o v).inv := h

theorem State.setHome_inv (s : State) (hd : Nat) (v : Home) (h : s.inv) : (s.setHome hd v).inv := h

theorem State.setBridge_inv (s : State) (k : Nat) (v : Bridge) (h : s.inv) : (s.setBridge k v).inv := h

theorem State.raiseIrq_inv (s : State) (v : Nat) (h : s.inv) : (s.raiseIrq v).inv := h

theorem State.raiseFvec_inv (s : State) (p : Nat) (h : s.inv) : (s.raiseFvec p).inv := h

theorem State.announce_inv (s : State) (p v : Nat) (h : s.inv) : (s.announce p v).inv := by
  unfold State.announce
  grind [State.inv, State.setPart_inv, State.raiseFvec_inv]

/-! ## Machine/Lines.lean -/

theorem State.ask_inv (s : State) (r : OutReq) (h : s.inv) : (s.ask r).inv := h

theorem State.linkRecord_inv (s : State) (k pa kind : Nat) (h : s.inv) : (s.linkRecord k pa kind).inv := by
  unfold State.linkRecord
  grind [State.inv, State.errRecord_inv]

theorem State.homeRenew_inv (s : State) (line first cnt : Nat) (p : Ts) (w : Option Ts) (h : s.inv) : (s.homeRenew line first cnt p w).1.inv := h

theorem State.homeAtom_inv (s : State) (line op : Nat) (cas : Bool) (t : Ty) (ops : List (Nat × Nat × Nat × Nat)) (p : Ts) (ret acquire : Bool)
    (f : Finder) (h : s.inv) : (s.homeAtom line op cas t ops p ret acquire f).1.inv := by
  unfold State.homeAtom
  grind [State.inv, State.homeWrite_inv, State.homeRenew_inv, State.verify_inv, State.foldl_inv, State.foldl_fst_inv]

theorem State.setSpans_inv (s : State) (u : Agent) (t : Tab Span) (h : s.inv) : (s.setSpans u t).inv :=
  (State.setSpans_persists _ _ _).inv h

theorem State.setSpan_inv (s : State) (u : Agent) (line : Nat) (v : Span) (h : s.inv) : (s.setSpan u line v).inv :=
  (State.setSpan_persists _ _ _ _).inv h

theorem State.dropSpan_inv (s : State) (u : Agent) (line : Nat) (h : s.inv) : (s.dropSpan u line).inv :=
  (State.dropSpan_persists _ _ _).inv h

theorem State.install_inv (s : State) (u : Agent) (line first cnt : Nat) (bytes : Cells 8) (w r : Ts) (poison : List Nat) (h : s.inv) :
    (s.install u line first cnt bytes w r poison).inv := by
  unfold State.install
  grind [State.inv, State.setSpan_inv]

theorem State.extend_inv (s : State) (u : Agent) (line first cnt : Nat) (r : Ts) (h : s.inv) : (s.extend u line first cnt r).inv := by
  unfold State.extend
  grind [State.inv, State.setSpan_inv]

theorem State.unask_inv (s : State) (u : Agent) (line : Nat) (h : s.inv) : (s.unask u line).inv := by
  unfold State.unask
  grind [State.inv, State.setSpan_inv]

theorem State.forgetClean_inv (s : State) (u : Agent) (line : Nat) (h : s.inv) : (s.forgetClean u line).inv := by
  unfold State.forgetClean
  grind [State.inv, State.setSpan_inv, State.dropSpan_inv]

theorem State.mergeAck_inv (s : State) (u : Agent) (line : Nat) (bs : LineBytes) (w : Ts) (h : s.inv) : (s.mergeAck u line bs w).inv :=
  (State.mergeAck_persists _ _ _ _ _).inv h

theorem State.send_inv (s : State) (p : Pkt) (h : s.inv) : (s.send p).inv := h

theorem State.publishLine_inv (s : State) (u : Agent) (line : Nat) (sel : Dirty → Bool) (h : s.inv) : (s.publishLine u line sel).inv :=
  (State.publishLine_persists _ _ _ _).inv h

theorem State.publishCrew_inv (s : State) (key : Nat) (sel : Scope → Bool) (h : s.inv) : (s.publishCrew key sel).inv :=
  (State.publishCrew_persists _ _ _).inv h

theorem State.ctrUpd_inv (s : State) (o : Nat) (f : CtrRec → CtrRec) (h : s.inv) : (s.ctrUpd o f).inv :=
  (State.ctrUpd_persists _ _ _).inv h

theorem State.ctrUse_inv (s : State) (core o : Nat) (f : CtrEntry → CtrEntry) (h : s.inv) : (s.ctrUse core o f).inv :=
  (State.ctrUse_persists _ _ _ _).inv h

theorem State.ctrRecallAt_inv (s : State) (o core : Nat) (half : Bool) (h : s.inv) : (s.ctrRecallAt o core half).1.inv :=
  (State.ctrRecallAt_persists _ _ _ _).inv h

theorem State.ctrSync_inv (s : State) (o : Nat) (h : s.inv) : (s.ctrSync o).1.inv :=
  (State.ctrSync_persists _ _).inv h

theorem State.ctrSyncRange_inv (s : State) (o n : Nat) (h : s.inv) : (s.ctrSyncRange o n).1.inv :=
  (State.ctrSyncRange_persists _ _ _).inv h

theorem State.ctrSyncBytes_inv (s : State) (line : Nat) (bs : LineBytes) (h : s.inv) : (s.ctrSyncBytes line bs).inv :=
  (State.ctrSyncBytes_persists _ _ _).inv h

theorem State.writeBackNow_inv (s : State) (u : Agent) (line : Nat) (sel : Dirty → Bool) (h : s.inv) : (s.writeBackNow u line sel).inv :=
  (State.writeBackNow_persists _ _ _ _).inv h

theorem State.scopeMiss_inv (s : State) (key : Nat) (h : s.inv) : (s.scopeMiss key).inv := h

theorem State.dropHolder_inv (s : State) (n line : Nat) (u : Agent) (key : Nat) (h : s.inv) : (s.dropHolder n line u key).inv := h

theorem State.missBits_inv (s : State) (hd : NHolder) (acquire : Bool) (crew : Option Nat) (h : s.inv) : (s.missBits hd acquire crew).inv :=
  (State.missBits_persists _ _ _ _).inv h

theorem State.recallNow_inv (s : State) (n : Nat) (hd : NHolder) (acquire : Bool) (crew : Option Nat) (h : s.inv) :
    (s.recallNow n hd acquire crew).inv :=
  (State.recallNow_persists _ _ _ _ _).inv h

theorem State.askHard_inv (s : State) (line : Nat) (write : Bool) (h : s.inv) : (s.askHard line write).inv := h

theorem State.clearLine_inv (s : State) (line : Nat) (write acquire : Bool) (crew : Option Nat) (h : s.inv) :
    (s.clearLine line write acquire crew).1.inv :=
  (State.clearLine_persists _ _ _ _ _).inv h

theorem State.setNht_inv (s : State) (d : Dest) (l : List NHolder) (h : s.inv) : (s.setNht d l).inv :=
  (State.setNht_persists _ _ _).inv h

theorem State.sendRecall_inv (s : State) (d : Dest) (hd : NHolder) (all : Bool) (h : s.inv) : (s.sendRecall d hd all).inv :=
  (State.sendRecall_persists _ _ _ _).inv h

theorem State.clearRange_inv (s : State) (o n : Nat) (write acquire : Bool) (crew : Option Nat) (h : s.inv) :
    (s.clearRange o n write acquire crew).1.inv :=
  (State.clearRange_persists _ _ _ _ _ _).inv h

theorem State.devRead_inv (s : State) (o n : Nat) (p : Ts) (h : s.inv) : (s.devRead o n p).1.inv := by
  unfold State.devRead
  grind [State.inv, State.homeRenew_inv, State.foldl_fst_inv]

theorem State.devPoison_inv (s : State) (o n : Nat) (p : Ts) (h : s.inv) : (s.devPoison o n p).1.inv := by
  unfold State.devPoison
  grind [State.inv, State.homeWrite_inv, State.mirrorSectors_inv, State.foldl_fst_inv]

theorem State.setFarAgent_inv (s : State) (k : Nat) (b : Bridge) (h : s.inv) : (s.setFarAgent k b).inv :=
  (State.setFarAgent_persists _ _ _).inv h

theorem State.farRefused_inv (s : State) (pa : Nat) (h : s.inv) : ∀ w0, (s.farRefused pa) = some w0 → w0.inv := by
  unfold State.farRefused
  grind [State.inv, State.setFarAgent_inv]

theorem State.askFarIn_inv (s : State) (asid crew entry pa what : Nat) (h : s.inv) : (s.askFarIn asid crew entry pa what).inv := by
  unfold State.askFarIn
  grind [State.inv, State.ask_inv]

theorem State.askFarFor_inv (s : State) (crew entry pa what : Nat) (h : s.inv) : (s.askFarFor crew entry pa what).inv := by
  unfold State.askFarFor
  grind [State.inv, State.askFarIn_inv]

theorem State.askFar_inv (s : State) (asid pa what : Nat) (h : s.inv) : (s.askFar asid pa what).inv :=
  (State.askFar_persists _ _ _ _).inv h

/-! ## Machine/Direct.lean -/

theorem State.dropFar_inv (s : State) (pa : Nat) (h : s.inv) : (s.dropFar pa).inv := by
  unfold State.dropFar
  grind [State.inv, State.setFarAgent_inv]

theorem State.clearFar_inv (s : State) (pa : Nat) (write acquire : Bool) (crew : Option Nat) (h : s.inv) : (s.clearFar pa write acquire crew).1.inv :=
  (State.clearFar_persists _ _ _ _ _).inv h

theorem State.directRead_inv (s : State) (pa n : Nat) (p : Ts) (acquire : Bool) (crew : Option Nat) (f : Finder) (h : s.inv) :
    (s.directRead pa n p acquire crew f).inv := by
  unfold State.directRead
  grind [State.inv, Dir.inv, State.checkRange_inv, State.askFar_inv, State.devRead_inv, State.dropFar_inv, State.clearRange_inv, State.clearFar_inv]

theorem State.farTouch_inv (s : State) (pa : Nat) (secs : List Nat) (p : Ts) (change : FarLine → FarLine) (h : s.inv) :
    (s.farTouch pa secs p change).1.inv := by
  unfold State.farTouch
  grind [State.inv, State.setFarAgent_inv]

theorem State.farPut_inv (s : State) (pa : Nat) (es : List (Nat × Byte)) (p : Ts) (h : s.inv) : (s.farPut pa es p).1.inv := by
  unfold State.farPut
  grind [State.inv, State.farTouch_inv]

theorem State.farStore_inv (s : State) (pa : Nat) (bs : List Byte) (p : Ts) (h : s.inv) : (s.farStore pa bs p).1.inv :=
  (State.farStore_persists _ _ _ _).inv h

theorem State.directWrite_inv (s : State) (pa : Nat) (bs : List Byte) (p : Ts) (crew : Option Nat) (f : Finder) (h : s.inv) :
    (s.directWrite pa bs p crew f).inv := by
  have hst := (s.directWrite_persists pa bs p crew f).inv h
  revert hst
  cases s.directWrite pa bs p crew f <;> exact id

theorem State.blockHeld_inv (s : State) (b : Nat × Nat) (acquire : Bool) (crew : Option Nat) (f : Finder) (h : s.inv) :
    (s.blockHeld b acquire crew f).1.inv := by
  unfold State.blockHeld
  grind [State.inv, State.askFar_inv, State.clearRange_inv, State.clearFar_inv]

theorem State.rangeHeld_inv (s : State) (pa n : Nat) (acquire : Bool) (crew : Option Nat) (f : Finder) (h : s.inv) :
    (s.rangeHeld pa n acquire crew f).1.inv := by
  unfold State.rangeHeld
  grind [State.inv, State.blockHeld_inv, State.foldl_fst_inv]

theorem State.rangeRead_inv (s : State) (pa n : Nat) (p : Ts) (acquire : Bool) (crew : Option Nat) (f : Finder) (h : s.inv) :
    (s.rangeRead pa n p acquire crew f).inv := by
  unfold State.rangeRead
  grind [State.inv, Dir.inv, State.rangeHeld_inv, State.directRead_inv, Dir.foldl_inv]

theorem State.rangeReady_inv (s : State) (pa n : Nat) (crew : Option Nat) (f : Finder) (h : s.inv) : (s.rangeReady pa n crew f).1.inv := by
  unfold State.rangeReady
  grind [State.inv, State.askFar_inv, State.clearRange_inv, State.clearFar_inv, State.foldl_fst_inv]

theorem State.rangeWrite_inv (s : State) (pa : Nat) (bs : List Byte) (p : Ts) (crew : Option Nat) (f : Finder) (h : s.inv) :
    (s.rangeWrite pa bs p crew f).inv := by
  unfold State.rangeWrite
  grind [State.inv, Dir.inv, State.rangeReady_inv, State.directWrite_inv, Dir.foldl_inv]

theorem State.sendPoison_inv (s : State) (pa n : Nat) (h : s.inv) : (s.sendPoison pa n).inv := by
  unfold State.sendPoison
  grind [State.inv, State.ask_inv, State.linkRecord_inv]

theorem State.rangePoison_inv (s : State) (pa n : Nat) (p : Ts) (crew : Option Nat) (f : Finder) (h : s.inv) : (s.rangePoison pa n p crew f).inv := by
  unfold State.rangePoison
  grind [State.inv, Dir.inv, State.rangeReady_inv, State.farTouch_inv, State.sendPoison_inv, State.devPoison_inv, Dir.foldl_inv]

/-! ## Machine/Narrow.lean -/

theorem State.narrowKept_inv (s : State) (u : Agent) (key line : Nat) (bs : LineBytes) (h : s.inv) : (s.narrowKept u key line bs).1.inv :=
  (State.narrowKept_persists _ _ _ _ _).inv h

theorem State.narrowPut_inv (s : State) (u : Agent) (key : Nat) (sc : Scope) (line : Nat) (bs : LineBytes) (h : s.inv) :
    (s.narrowPut u key sc line bs).inv :=
  (State.narrowPut_persists _ _ _ _ _ _).inv h

theorem State.narrowStore_inv (s : State) (u : Agent) (key : Nat) (sc : Scope) (line : Nat) (bs : LineBytes) (h : s.inv) :
    (s.narrowStore u key sc line bs).inv :=
  (State.narrowStore_persists _ _ _ _ _ _).inv h

theorem State.roomForDirty_inv (s : State) (u : Agent) (line : Nat) (h : s.inv) : (s.roomForDirty u line).inv :=
  (State.roomForDirty_persists _ _ _).inv h

theorem State.narrowReady_inv (s : State) (core : Nat) (sc : Scope) (ls : List (Nat × LineBytes)) (h : s.inv) : (s.narrowReady core sc ls).1.inv := by
  unfold State.narrowReady
  grind [State.inv, State.publishLine_inv, State.foldl_inv]

theorem State.releaseFloor_inv (s : State) (core : Nat) (sc : Scope) (p : Ts) (h : s.inv) : (s.releaseFloor core sc p).inv :=
  (State.releaseFloor_persists _ _ _ _).inv h

theorem State.awaitLine_inv (s : State) (key : Nat) (u : Agent) (line : Nat) (sel : Dirty → Bool) (h : s.inv) : (s.awaitLine key u line sel).inv := by
  unfold State.awaitLine
  grind [State.inv, State.updCrew_inv]

theorem State.publishSeen_inv (s : State) (key : Nat) (sel : Scope → Bool) (h : s.inv) : (s.publishSeen key sel).inv := by
  unfold State.publishSeen
  grind [State.inv, State.publishLine_inv, State.awaitLine_inv, State.foldl_inv]

theorem State.releaseReady_inv (s : State) (key : Nat) (sc : Scope) (h : s.inv) : (s.releaseReady key sc).1.inv := by
  unfold State.releaseReady
  grind [State.inv, State.publishSeen_inv]

/-! ## Machine/Images.lean -/

theorem State.imgPoisonPut_inv (s : State) (a n : Nat) (h : s.inv) : (s.imgPoisonPut a n).inv := by
  unfold State.imgPoisonPut
  grind [State.inv, State.devPoison_inv]

theorem State.updBatches_inv (s : State) (key : Nat) (f : Crew → Crew) (h : s.inv) : (s.updBatches key f).inv := by
  unfold State.updBatches
  grind [State.inv, State.imgPut_inv, State.setCrew_inv]

theorem State.imgRaisePts_inv (s : State) (b : Blk) (a : Nat) (p : Ts) (h : s.inv) : (s.imgRaisePts b a p).inv :=
  (State.imgRaisePts_persists _ _ _ _).inv h

/-! ## Machine/Ending.lean -/

theorem State.scrVerify_inv (s : State) (gid sec : Nat) (h : s.inv) : (s.scrVerify gid sec).inv :=
  (State.scrVerify_persists _ _ _).inv h

theorem State.scrCheck_inv (s : State) (gid off n : Nat) (h : s.inv) : (s.scrCheck gid off n).1.inv := by
  unfold State.scrCheck
  grind [State.inv, State.scrVerify_inv, State.foldl_fst_inv]

theorem State.scrSector_inv (s : State) (gid sec : Nat) (bs : List (Nat × Byte)) (h : s.inv) : (s.scrSector gid sec bs).inv :=
  (State.scrSector_persists _ _ _ _).inv h

theorem State.scrPutAll_inv (s : State) (gid : Nat) (bs : List (Nat × Byte)) (h : s.inv) : (s.scrPutAll gid bs).inv :=
  (State.scrPutAll_persists _ _ _).inv h

theorem State.scrPut_inv (s : State) (gid off : Nat) (bs : List Byte) (h : s.inv) : (s.scrPut gid off bs).inv := by
  unfold State.scrPut
  grind [State.inv, State.scrPutAll_inv]

theorem State.mergeReady_inv (s : State) (gid : Nat) (sc : Scope) (h : s.inv) : (s.mergeReady gid sc).1.inv := by
  unfold State.mergeReady
  grind [State.inv, State.narrowReady_inv, State.rangeReady_inv, State.releaseReady_inv, State.foldl_fst_inv]

theorem State.gangStore_inv (s : State) (gid : Nat) (bs : List (Nat × Byte)) (p : Ts) (h : s.inv) : (s.gangStore gid bs p).1.inv :=
  (State.gangStore_persists _ _ _ _).inv h

theorem State.gangNarrow_inv (s : State) (gid : Nat) (g : Gang) (sc : Scope) (bs : List (Nat × Nat × Nat × Byte)) (h : s.inv) :
    (s.gangNarrow gid g sc bs).inv :=
  (State.gangNarrow_persists _ _ _ _ _).inv h

theorem State.merge_inv (s : State) (gid : Nat) (sc : Scope) (h : s.inv) : (s.merge gid sc).inv :=
  (State.merge_persists _ _ _).inv h

theorem State.preDone_inv (s : State) (p : Nat) (h : s.inv) : (s.preDone p).inv :=
  (State.preDone_persists _ _).inv h

theorem State.preDrop_inv (s : State) (gid : Nat) (saved leftRunning : Bool) (h : s.inv) : (s.preDrop gid saved leftRunning).inv :=
  (State.preDrop_persists _ _ _ _).inv h

theorem State.endGang_inv (s : State) (gid : Nat) (h : s.inv) : (s.endGang gid).inv :=
  (State.endGang_persists _ _).inv h

theorem State.leaveTrap_inv (s : State) (key core : Nat) (h : s.inv) : (s.leaveTrap key core).inv := h

theorem State.flipIdem_inv (s : State) (gid : Nat) (h : s.inv) : (s.flipIdem gid).inv :=
  (State.flipIdem_persists _ _).inv h

theorem State.finishCrew_inv (s : State) (key : Nat) (h : s.inv) : (s.finishCrew key).inv :=
  (State.finishCrew_persists _ _).inv h

theorem State.exitReady_inv (s : State) (key : Nat) (h : s.inv) : (s.exitReady key).1.inv := by
  unfold State.exitReady
  grind [State.inv, State.mergeReady_inv]

theorem State.endLanes_inv (s : State) (key : Nat) (m : Mask) (h : s.inv) : (s.endLanes key m).inv := by
  unfold State.endLanes
  grind [State.inv, State.finishCrew_inv, State.updCrew_inv]

theorem State.killGang_inv (s : State) (gid : Nat) (h : s.inv) : (s.killGang gid).inv :=
  (State.killGang_persists _ _).inv h

theorem State.killLaunch_inv (s : State) (lslot detail : Nat) (h : s.inv) : (s.killLaunch lslot detail).inv :=
  (State.killLaunch_persists _ _ _).inv h

end Sys2Proof.Machine
end

section
/-! SUPPORT. O60: device memory stays canonical in the words of the integer, floating-point, lane and half instructions, and issue:
one lemma per function of the model, from those of the functions that it calls. -/

namespace Sys2Proof.Machine

set_option Elab.async false -- one proof at a time: the threads of many at once take too much memory

/-! ## Machine/Ops.lean -/

theorem State.takeTrap_inv (s : State) (key : Nat) (t : Trap) (h : s.inv) : (s.takeTrap key t).inv :=
  (State.takeTrap_persists _ _ _).inv h

theorem State.escalate_inv (s : State) (k : Nat) (wdog : Bool) (h : s.inv) : (s.escalate k wdog).inv := by
  unfold State.escalate
  grind [State.inv, State.killLaunch_inv, State.errRecord_inv, State.updMgmt_inv]

theorem State.pumpTrap_inv (s : State) (gid cls detail addr aux : Nat) (h : s.inv) : (s.pumpTrap gid cls detail addr aux).inv := by
  unfold State.pumpTrap
  grind [State.inv, State.updCrew_inv, State.updGang_inv, State.takeTrap_inv]

theorem State.boundary_inv (s : State) (key : Nat) (h : s.inv) : (s.boundary key).inv :=
  (State.boundary_persists _ _).inv h

theorem State.markIssued_inv (s : State) (c : Crew) (h : s.inv) : (s.markIssued c).inv := h

theorem State.retire_inv (s : State) (key e size stall : Nat) (h : s.inv) : (s.retire key e size stall).inv := by
  unfold State.retire
  grind [State.inv, State.setCrew_inv, State.markIssued_inv]

theorem State.retireAt_inv (s : State) (key : Nat) (es : List Nat) (stall : Nat) (h : s.inv) : (s.retireAt key es stall).inv := by
  unfold State.retireAt
  grind [State.inv, State.setCrew_inv, State.markIssued_inv]

theorem State.tryLater_inv (s : State) (key e : Nat) (h : s.inv) : (s.tryLater key e).inv := h

theorem State.holdWord_inv (s : State) (key e : Nat) (i : Instr) (w : Wait) (h : s.inv) : (s.holdWord key e i w).inv := by
  unfold State.holdWord
  grind [State.inv, Act.inv, State.setCrew_inv, State.markIssued_inv]

theorem State.finish_inv (s : State) (i : Instr) (key e size stall : Nat) (a6 : Act) (h : s.inv) (h_a6 : a6.inv) :
    (s.finish i key e size stall a6).inv := by
  unfold State.finish
  grind [State.inv, Act.inv, State.holdWord_inv, State.retire_inv, State.boundary_inv, State.markIssued_inv, State.retireAt_inv, State.takeTrap_inv,
    State.tryLater_inv]

theorem State.issue_inv (s : State) (i : Instr) (us : List WUse) (stall size : Nat) (body : Body) (key e : Nat) (c0 : Crew) (h : s.inv)
    (h_body : ∀ y0 y1 y2, y2.inv → (body y0 y1 y2).inv) : (s.issue i us stall size body key e c0).inv := by
  unfold State.issue
  grind [State.inv, Act.inv, State.setCrew_inv, State.finish_inv, State.tryLater_inv]

theorem State.mgmtFinish_inv (s : State) (k size stall : Nat) (i : Instr) (a5 : Act) (h : s.inv) (h_a5 : a5.inv) :
    (s.mgmtFinish k size stall i a5).inv := by
  unfold State.mgmtFinish
  grind [State.inv, Act.inv, State.escalate_inv, State.updMgmt_inv]

theorem State.mgmtIssue_inv (s : State) (k : Nat) (i : Instr) (hd : Hdr) (size : Nat) (f : MBody) (h : s.inv)
    (h_f : ∀ y0 y1 y2, y2.inv → (f y0 y1 y2).inv) : (s.mgmtIssue k i hd size f).inv := by
  unfold State.mgmtIssue
  grind [State.inv, Act.inv, State.mgmtFinish_inv]

theorem State.pumpIll_inv (s : State) (i : Instr) (g : Nat) (h : s.inv) : (s.pumpIll i g).inv := by
  unfold State.pumpIll
  grind [State.inv, Act.inv, State.pumpTrap_inv]

theorem fullWord_inv (i : Instr) (hd : Hdr) (u : WUse) (size : Nat) (body : Body) (mg : Option MBody) (s : State) (h : ∀ x c v, v.inv → (body x c v).inv)
    (hm : ∀ f, mg = some f → ∀ k m v, v.inv → (f k m v).inv) (h_s : s.inv) : outcomeInv (fullWord i hd u size body mg s) := by
  unfold fullWord
  split
  · trivial
  · split
    · trivial
    · exact State.issue_inv _ _ _ _ _ _ _ _ _ h_s h
  · split
    · exact State.mgmtIssue_inv _ _ _ _ _ _ h_s (hm _ rfl)
    · exact State.escalate_inv _ _ _ h_s
  · exact State.pumpIll_inv _ _ _ h_s

theorem fullWord_ite_inv (i : Instr) (hd : Hdr) (u : WUse) (size : Nat) (body : Body) (b : Bool) (f : MBody) (s : State)
    (h : ∀ x c v, v.inv → (body x c v).inv) (hf : ∀ k m v, v.inv → (f k m v).inv) (h_s : s.inv) :
    outcomeInv (fullWord i hd u size body (if b then some f else none) s) := by
  cases b with
  | false => exact fullWord_inv i hd u size body none s h (fun _ hg => nomatch hg) h_s
  | true => exact fullWord_inv i hd u size body (some f) s h (fun _ hg => Option.some.inj hg ▸ hf) h_s

theorem fullWord_some_inv (i : Instr) (hd : Hdr) (u : WUse) (size : Nat) (body : Body) (f : MBody) (s : State) (h : ∀ x c v, v.inv → (body x c v).inv)
    (hf : ∀ k m v, v.inv → (f k m v).inv) (h_s : s.inv) : outcomeInv (fullWord i hd u size body (some f) s) :=
  fullWord_ite_inv i hd u size body true f s h hf h_s

theorem word_inv (i : Instr) (hd : Hdr) (u : WUse) (body : Body) (s : State) (h : ∀ x c v, v.inv → (body x c v).inv) (h_s : s.inv) :
    outcomeInv (word i hd u body s) :=
  fullWord_inv i hd u 8 body none s h (fun _ hg => nomatch hg) h_s

theorem pairWord_inv (i : Instr) (stall : BitVec 3) (x y : Half) (body : Body) (s : State) (h : ∀ y0 y1 y2, y2.inv → (body y0 y1 y2).inv)
    (h_s : s.inv) : outcomeInv (pairWord i stall x y body s) := by
  unfold pairWord
  grind [State.inv, Act.inv, outcomeInv, State.issue_inv, State.escalate_inv, State.pumpIll_inv]

theorem pairBody_inv (a b : Half) (x : Ctx) (c : Crew) (s : State) (h : s.inv) : (pairBody a b x c s).inv := h

theorem refusedWord_inv (i : Instr) (hd : Hdr) (cls : Nat) (mg : Option MBody) (s : State) (hm : ∀ f, mg = some f → ∀ k m v, v.inv → (f k m v).inv)
    (h : s.inv) : 
    outcomeInv (refusedWord i hd cls mg s) := by
  unfold refusedWord
  split
  · trivial
  · split
    · trivial
    · exact State.finish_inv _ _ _ _ _ _ _ (State.setCrew_inv _ _ _ h) (State.setCrew_inv _ _ _ h)
  · split
    · exact State.mgmtIssue_inv _ _ _ _ _ _ h (hm _ rfl)
    · exact State.escalate_inv _ _ _ h
  · exact State.pumpIll_inv _ _ _ h

theorem refusedWord_some_inv (i : Instr) (hd : Hdr) (cls : Nat) (f : MBody) (s : State) (hf : ∀ k m v, v.inv → (f k m v).inv) (h : s.inv) :
    outcomeInv (refusedWord i hd cls (some f) s) :=
  refusedWord_inv i hd cls (some f) s (fun _ hg => Option.some.inj hg ▸ hf) h

theorem refusedWord_none_inv (i : Instr) (hd : Hdr) (cls : Nat) (s : State) (h : s.inv) : outcomeInv (refusedWord i hd cls none s) :=
  refusedWord_inv i hd cls none s (fun _ hg => nomatch hg) h

theorem Ctx.fix_inv (x : Ctx) (c : Crew) (s : State) (lat : Nat) (ws : List RegWrite) (fl : Flags) (h : s.inv) : (Ctx.fix x c s lat ws fl).inv := h

theorem Ctx.pend_inv (x : Ctx) (c : Crew) (s : State) (ws : List RegWrite) (fl : Flags) (h : s.inv) : (Ctx.pend x c s ws fl).inv := h

theorem State.resumeCrew_inv (s : State) (k key : Nat) (h : s.inv) : (s.resumeCrew k key).inv := h

/-! ## Machine/IntAlu.lean -/

theorem aluFixed_inv (i : Instr) (o : Alu) (u : AluUse) (lat : Nat) (f : AluFn) (s : State) (h : s.inv) : outcomeInv (aluFixed i o u lat f s) :=
  fullWord_ite_inv _ _ _ _ _ _ _ _ (fun _ _ _ hv => hv) (fun _ _ _ hv => hv) h

theorem aluVar_inv (i : Instr) (o : Alu) (u : AluUse) (f : AluFn) (s : State) (h : s.inv) : outcomeInv (aluVar i o u f s) :=
  fullWord_ite_inv _ _ _ _ _ _ _ _ (fun x c v hv => x.pend_inv c v _ _ hv) (fun _ _ _ hv => hv) h

theorem execNop_inv (hd : Hdr) (s : State) (h : s.inv) : outcomeInv (execNop hd s) :=
  fullWord_some_inv _ _ _ _ _ _ _ (fun _ _ _ hv => hv) (fun _ _ _ hv => hv) h

theorem execMovl_inv (hd : Hdr) (sc : Bool) (ty : Ty) (d : Reg) (lit : W64) (s : State) (h : s.inv) : outcomeInv (execMovl hd sc ty d lit s) :=
  fullWord_ite_inv _ _ _ _ _ _ _ _ (fun _ _ _ hv => hv) (fun _ _ _ hv => hv) h

theorem execSel_inv (o : Alu) (ps : BitVec 3) (psn : Bool) (s : State) (h : s.inv) : outcomeInv (execSel o ps psn s) := by
  unfold execSel
  grind [State.inv, Act.inv, outcomeInv, Ctx.fix_inv, word_inv]

theorem execIdiv_inv (o : Alu) (s : State) (h : s.inv) : outcomeInv (execIdiv o s) := by
  unfold execIdiv
  grind [State.inv, outcomeInv, aluVar_inv]

theorem execIrem_inv (o : Alu) (s : State) (h : s.inv) : outcomeInv (execIrem o s) := by
  unfold execIrem
  grind [State.inv, outcomeInv, aluVar_inv]

theorem execIcmp_inv (o : Alu) (cc : BitVec 3) (s : State) (h : s.inv) : outcomeInv (execIcmp o cc s) := by
  unfold execIcmp
  grind [State.inv, Act.inv, outcomeInv, refusedWord_some_inv, Ctx.fix_inv, word_inv, State.updMgmt_inv]

theorem execPrmt_inv (o : Alu) (s : State) (h : s.inv) : outcomeInv (execPrmt o s) := by
  unfold execPrmt
  grind [State.inv, Act.inv, outcomeInv, Ctx.fix_inv, word_inv]

/-! ## Machine/FloatAlu.lean -/

theorem fltWord_inv (i : Instr) (o : Flt) (u : WUse) (n : Nat) (lat : Option Nat) (f : Crew → Nat → FRes) (s : State) (h : s.inv) :
    outcomeInv (fltWord i o u n lat f s) := by
  unfold fltWord
  grind [State.inv, Act.inv, outcomeInv, Ctx.fix_inv, Ctx.pend_inv, word_inv]

theorem fltTwo_inv (i : Instr) (o : Flt) (f : Ty → Nat → Nat → FRes) (s : State) (h : s.inv) : outcomeInv (fltTwo i o f s) := by
  unfold fltTwo
  grind [State.inv, outcomeInv, fltWord_inv]

theorem fltOne_inv (i : Instr) (o : Flt) (lat : Option Nat) (f : Ty → Rnd → Bool → FVal → FRes) (s : State) (h : s.inv) :
    outcomeInv (fltOne i o lat f s) := by
  unfold fltOne
  grind [State.inv, outcomeInv, fltWord_inv]

theorem execFadd_inv (o : Flt) (s : State) (h : s.inv) : outcomeInv (execFadd o s) := by
  unfold execFadd
  grind [State.inv, outcomeInv, fltTwo_inv]

theorem execFsub_inv (o : Flt) (s : State) (h : s.inv) : outcomeInv (execFsub o s) := by
  unfold execFsub
  grind [State.inv, outcomeInv, fltTwo_inv]

theorem execFmul_inv (o : Flt) (s : State) (h : s.inv) : outcomeInv (execFmul o s) := by
  unfold execFmul
  grind [State.inv, outcomeInv, fltTwo_inv]

theorem execFma_inv (o : Flt) (s : State) (h : s.inv) : outcomeInv (execFma o s) := by
  unfold execFma
  grind [State.inv, outcomeInv, fltWord_inv]

theorem execFmin_inv (o : Flt) (s : State) (h : s.inv) : outcomeInv (execFmin o s) := by
  unfold execFmin
  grind [State.inv, outcomeInv, fltTwo_inv]

theorem execFmax_inv (o : Flt) (s : State) (h : s.inv) : outcomeInv (execFmax o s) := by
  unfold execFmax
  grind [State.inv, outcomeInv, fltTwo_inv]

theorem execFdiv_inv (o : Flt) (s : State) (h : s.inv) : outcomeInv (execFdiv o s) := by
  unfold execFdiv
  grind [State.inv, outcomeInv, fltWord_inv]

theorem execFsqrt_inv (o : Flt) (s : State) (h : s.inv) : outcomeInv (execFsqrt o s) := by
  unfold execFsqrt
  grind [State.inv, outcomeInv, fltOne_inv]

theorem execFrcp_inv (o : Flt) (s : State) (h : s.inv) : outcomeInv (execFrcp o s) := by
  unfold execFrcp
  grind [State.inv, outcomeInv, fltOne_inv]

theorem execFrsq_inv (o : Flt) (s : State) (h : s.inv) : outcomeInv (execFrsq o s) := by
  unfold execFrsq
  grind [State.inv, outcomeInv, fltOne_inv]

theorem execFexp2_inv (o : Flt) (s : State) (h : s.inv) : outcomeInv (execFexp2 o s) := by
  unfold execFexp2
  grind [State.inv, outcomeInv, fltOne_inv]

theorem execFlog2_inv (o : Flt) (s : State) (h : s.inv) : outcomeInv (execFlog2 o s) := by
  unfold execFlog2
  grind [State.inv, outcomeInv, fltOne_inv]

theorem execFsin_inv (o : Flt) (s : State) (h : s.inv) : outcomeInv (execFsin o s) := by
  unfold execFsin
  grind [State.inv, outcomeInv, fltOne_inv]

theorem execFcos_inv (o : Flt) (s : State) (h : s.inv) : outcomeInv (execFcos o s) := by
  unfold execFcos
  grind [State.inv, outcomeInv, fltOne_inv]

theorem execFcmp_inv (o : Flt) (cc : BitVec 4) (s : State) (h : s.inv) : outcomeInv (execFcmp o cc s) := by
  unfold execFcmp
  grind [State.inv, Act.inv, outcomeInv, Ctx.fix_inv, word_inv]

theorem execFclass_inv (o : Flt) (s : State) (h : s.inv) : outcomeInv (execFclass o s) := by
  unfold execFclass
  grind [State.inv, outcomeInv, fltWord_inv]

theorem execFscale_inv (o : Flt) (s : State) (h : s.inv) : outcomeInv (execFscale o s) := by
  unfold execFscale
  grind [State.inv, outcomeInv, fltWord_inv]

theorem execFround_inv (o : Flt) (s : State) (h : s.inv) : outcomeInv (execFround o s) := by
  unfold execFround
  grind [State.inv, outcomeInv, fltOne_inv]

theorem execF2f_inv (o : Flt) (st : Ty) (s : State) (h : s.inv) : outcomeInv (execF2f o st s) := by
  unfold execF2f
  grind [State.inv, outcomeInv, fltWord_inv]

theorem execF2i_inv (o : Flt) (st : Ty) (s : State) (h : s.inv) : outcomeInv (execF2i o st s) := by
  unfold execF2i
  grind [State.inv, outcomeInv, fltWord_inv]

theorem execI2f_inv (o : Flt) (st : Ty) (s : State) (h : s.inv) : outcomeInv (execI2f o st s) := by
  unfold execI2f
  grind [State.inv, outcomeInv, fltWord_inv]

theorem execFdot2_inv (o : Flt) (st : Ty) (s : State) (h : s.inv) : outcomeInv (execFdot2 o st s) := by
  unfold execFdot2
  grind [State.inv, outcomeInv, fltWord_inv]

theorem execFma2_inv (o : Flt) (s : State) (h : s.inv) : outcomeInv (execFma2 o s) := by
  unfold execFma2
  grind [State.inv, outcomeInv, fltWord_inv]

theorem execPack_inv (o : Flt) (s : State) (h : s.inv) : outcomeInv (execPack o s) := by
  unfold execPack
  grind [State.inv, outcomeInv, fltWord_inv]

theorem execUnpack_inv (o : Flt) (s : State) (h : s.inv) : outcomeInv (execUnpack o s) := by
  unfold execUnpack
  grind [State.inv, outcomeInv, fltWord_inv]

/-! ## Machine/LaneOps.lean -/

theorem execShfl_inv (hd : Hdr) (ty : Ty) (mode : BitVec 2) (seg : BitVec 3) (d a : Reg) (b : Opnd) (s : State) (h : s.inv) :
    outcomeInv (execShfl hd ty mode seg d a b s) := by
  unfold execShfl
  grind [State.inv, Act.inv, outcomeInv, Ctx.fix_inv, word_inv]

theorem execVote_inv (hd : Hdr) (mode : BitVec 2) (negs : Bool) (d a : Reg) (s : State) (h : s.inv) : outcomeInv (execVote hd mode negs d a s) := by
  unfold execVote
  grind [State.inv, Act.inv, outcomeInv, Ctx.fix_inv, word_inv]

theorem execRedux_inv (hd : Hdr) (ty : Ty) (op : BitVec 4) (rnd : Rnd) (d a : Reg) (s : State) (h : s.inv) :
    outcomeInv (execRedux hd ty op rnd d a s) := by
  unfold execRedux
  grind [State.inv, Act.inv, outcomeInv, Ctx.pend_inv, word_inv]

theorem execScan_inv (hd : Hdr) (ty : Ty) (op : BitVec 4) (rnd : Rnd) (excl : Bool) (d a : Reg) (s : State) (h : s.inv) :
    outcomeInv (execScan hd ty op rnd excl d a s) := by
  unfold execScan
  grind [State.inv, Act.inv, outcomeInv, Ctx.pend_inv, word_inv]

theorem execMrd_inv (hd : Hdr) (ds : Bool) (d num : Reg) (s : State) (h : s.inv) : outcomeInv (execMrd hd ds d num s) := by
  unfold execMrd
  grind [State.inv, Act.inv, outcomeInv, Ctx.fix_inv, word_inv]

theorem execS2v_inv (hd : Hdr) (ty : Ty) (d a : Reg) (s : State) (h : s.inv) : outcomeInv (execS2v hd ty d a s) := by
  unfold execS2v
  grind [State.inv, Act.inv, outcomeInv, Ctx.fix_inv, word_inv]

theorem execV2s_inv (hd : Hdr) (ty : Ty) (first : Bool) (d a : Reg) (b : Opnd) (s : State) (h : s.inv) :
    outcomeInv (execV2s hd ty first d a b s) := by
  unfold execV2s
  grind [State.inv, Act.inv, outcomeInv, Ctx.fix_inv, word_inv]

theorem execPmov_inv (hd : Hdr) (lut : BitVec 4) (dir : BitVec 2) (d a b : Reg) (s : State) (h : s.inv) :
    outcomeInv (execPmov hd lut dir d a b s) := by
  unfold execPmov
  grind [State.inv, Act.inv, outcomeInv, Ctx.fix_inv, word_inv]

theorem execRng_inv (hd : Hdr) (ty : Ty) (d a : Reg) (b : Opnd) (s : State) (h : s.inv) : outcomeInv (execRng hd ty d a b s) := by
  unfold execRng
  grind [State.inv, Act.inv, outcomeInv, Ctx.fix_inv, word_inv]

/-! ## Machine/Translate.lean -/

theorem State.askWalk_inv (s : State) (u : Agent) (who : Waiter) (asid va kind : Nat) (h : s.inv) : (s.askWalk u who asid va kind).inv := by
  unfold State.askWalk
  grind [State.inv, State.setCluster_inv]

theorem State.longService_inv (s : State) (gid idx va detail : Nat) (h : s.inv) : (s.longService gid idx va detail).inv := by
  unfold State.longService
  grind [State.inv, State.updGang_inv, State.foldl_inv]

/-! ## Machine/Sched.lean -/

theorem State.chooseDet_inv (s : State) (ds : List (Nat × Crew)) (h : s.inv) : (s.chooseDet ds).1.inv := by
  unfold State.chooseDet
  grind [State.inv, State.updCrew_inv, State.foldl_inv]

theorem State.detCand_inv (s : State) (k : Option Nat) (h : s.inv) : (s.detCand k).1.inv := by
  unfold State.detCand
  grind [State.inv, State.setCrew_inv]

theorem State.pick_inv (s : State) (core pipe : Nat) (h : s.inv) : (s.pick core pipe).1.inv := by
  unfold State.pick
  grind [State.inv, State.chooseDet_inv, State.detCand_inv]

theorem State.fetchWord_inv (s : State) (u : Agent) (who : Waiter) (asid va : Nat) (walks : List WalkFail) (tail : Bool) (h : s.inv) :
    ∀ w0, (s.fetchWord u who asid va walks tail) = .inl w0 → w0.inv := by
  unfold State.fetchWord
  grind [State.inv, Fetched.inv, State.askWalk_inv, State.askFar_inv]

theorem State.fetch_inv (s : State) (u : Agent) (who : Waiter) (asid va : Nat) (walks : List WalkFail) (h : s.inv) :
    (s.fetch u who asid va walks).inv := by
  unfold State.fetch
  grind [State.inv, Act.inv, Fetched.inv, State.fetchWord_inv]

theorem State.startGang_inv (s : State) (gid : Nat) (h : s.inv) : (s.startGang gid).inv := by
  unfold State.startGang
  grind [State.inv, State.setGang_inv]

theorem State.pipeMove_inv (s : State) (core pipe : Nat) (h : s.inv) : (s.pipeMove core pipe).inv := by
  unfold State.pipeMove
  grind [State.inv, Act.inv, Fetched.inv, Sel.inv, State.holdWord_inv, State.startGang_inv, State.pick_inv, State.fetch_inv, State.longService_inv,
    State.tryLater_inv]

theorem State.mgmtMove_inv (s : State) (k : Nat) (h : s.inv) : (s.mgmtMove k).inv := by
  unfold State.mgmtMove
  grind [State.inv, Act.inv, Fetched.inv, Sel.inv, State.fetch_inv]

theorem State.pumpMove_inv (s : State) (gid : Nat) (h : s.inv) : (s.pumpMove gid).inv := by
  unfold State.pumpMove
  grind [State.inv, Act.inv, Fetched.inv, Sel.inv, State.fetch_inv, State.longService_inv]

theorem State.tick_inv (s : State) (n : Nat) (h : s.inv) : (s.tick n).inv := h

theorem State.nextMove_inv (s : State) (h : s.inv) : s.nextMove.inv := by
  unfold State.nextMove
  grind [State.inv, Sel.inv, State.mgmtMove_inv, State.pumpMove_inv, State.tick_inv, State.pipeMove_inv]

end Sys2Proof.Machine
end

section
/-! SUPPORT. O60: device memory stays canonical in memory words, control and barriers:
one lemma per function of the model, from those of the functions that it calls. -/

namespace Sys2Proof.Machine

set_option Elab.async false -- one proof at a time: the threads of many at once take too much memory

/-! ## Machine/MemPath.lean -/

theorem State.checkAll_inv (s : State) (u : Agent) (who : Waiter) (gid : Nat) (walks : List WalkFail) (space : Space) (kind n : Nat)
    (eas : List (Nat × Nat)) (h : s.inv) : (s.checkAll u who gid walks space kind n eas).inv := by
  unfold State.checkAll
  grind [State.inv, Chk.inv, State.askWalk_inv, State.foldl_inv]

theorem State.poisonMet_inv (s : State) (key core n : Nat) (as : List (Nat × Nat × Loc)) (h : s.inv) : (s.poisonMet key core n as).1.inv := by
  unfold State.poisonMet
  grind [State.inv, State.scrCheck_inv, State.verify_inv, State.foldl_fst_inv]

theorem failTrap_inv (x : Ctx) (c : Crew) (s : State) (space : Space) (kind n : Nat) (reads : Bool) (eas : List (Nat × Nat)) (cls : Nat)
    (ls : List (Nat × Nat × Nat)) (aux : Nat) (h : s.inv) : (failTrap x c s space kind n reads eas cls ls aux).inv := by
  unfold failTrap
  grind [State.inv, Act.inv, State.poisonMet_inv]

theorem checked_inv (x : Ctx) (c : Crew) (s : State) (space : Space) (kind n : Nat) (eas : List (Nat × Nat)) (k : List (Nat × Loc) → Act)
    (reads own : Bool) (h : s.inv) (h_k : ∀ y0, (k y0).inv) : (checked x c s space kind n eas k reads own).inv := by
  unfold checked
  grind [State.inv, Act.inv, Chk.inv, State.checkAll_inv, State.askFarFor_inv, failTrap_inv, State.longService_inv, State.foldl_inv]

theorem State.askLine_inv (s : State) (key e : Nat) (c : Crew) (line lo hi : Nat) (whole : Bool) (sc : Scope) (ord : Order) (h : s.inv) :
    (s.askLine key e c line lo hi whole sc ord).inv := by
  unfold State.askLine
  grind [State.inv, State.setSpan_inv, State.updCrew_inv, State.send_inv]

theorem State.loadVerify_inv (s : State) (key core pa va : Nat) (h : s.inv) : (s.loadVerify key core pa va).inv := by
  unfold State.loadVerify
  grind [State.inv, State.verify_inv]

theorem State.load_inv (s : State) (key e : Nat) (c : Crew) (sc : Scope) (ord : Order) (whole det : Bool) (n : Nat) (eas : List (Nat × Nat))
    (locs : List (Nat × Loc)) (h : s.inv) : (s.load key e c sc ord whole det n eas locs).inv := by
  unfold State.load
  grind [State.inv, Loaded.inv, State.askLine_inv, State.scrCheck_inv, State.loadVerify_inv, State.foldl_inv, State.foldl_fst_inv]

theorem State.sendWrite_inv (s : State) (key e core line : Nat) (bs : LineBytes) (sc : Scope) (ord : Order) (h : s.inv) :
    (s.sendWrite key e core line bs sc ord).inv := by
  unfold State.sendWrite
  grind [State.inv, State.publishLine_inv, State.updCrew_inv, State.send_inv, State.foldl_inv]

theorem State.writeReady_inv (s : State) (core : Nat) (lines : List Nat) (h : s.inv) : (s.writeReady core lines).1.inv := by
  unfold State.writeReady
  grind [State.inv, State.publishLine_inv, State.foldl_inv]

theorem State.storeReady_inv (s : State) (core : Nat) (sc : Scope) (ls : List (Nat × LineBytes)) (h : s.inv) : (s.storeReady core sc ls).1.inv := by
  unfold State.storeReady
  grind [State.inv, State.narrowReady_inv, State.writeReady_inv]

theorem State.storePhys_inv (s : State) (key e core : Nat) (sc : Scope) (ord : Order) (bs : List (Nat × Byte)) (h : s.inv) :
    (s.storePhys key e core sc ord bs).inv := by
  unfold State.storePhys
  grind [State.inv, State.roomForDirty_inv, State.sendWrite_inv, State.narrowStore_inv, State.foldl_inv]

theorem storeAct_inv (x : Ctx) (c : Crew) (s : State) (sc : Scope) (ord : Order) (eas : List (Nat × Nat)) (ls : List (Nat × Loc × List Byte))
    (h : s.inv) : (storeAct x c s sc ord eas ls).inv := by
  unfold storeAct
  grind [State.inv, Act.inv, State.storePhys_inv, State.releaseFloor_inv, State.storeReady_inv, State.setGang_inv, State.releaseReady_inv,
    State.scrPutAll_inv]

/-! ## Machine/Mem.lean -/

theorem State.mgmtCheck_inv (s : State) (k : Nat) (m : Mgmt) (kind ea n : Nat) (h : s.inv) :
    ∀ w0, (s.mgmtCheck k m kind ea n) = some w0 → (∀ w1, w0 = .error w1 → w1.inv) := by
  unfold State.mgmtCheck
  grind [State.inv, State.askWalk_inv]

theorem loadAct_inv (x : Ctx) (c : Crew) (s : State) (o : Mem) (line : Bool) (eas : List (Nat × Nat)) (k : State → List (Nat × Nat) → Act)
    (h : s.inv) (h_k : ∀ y0, y0.inv → ∀ y1, (k y0 y1).inv) : (loadAct x c s o line eas k).inv := by
  unfold loadAct
  grind [State.inv, Act.inv, Loaded.inv, checked_inv, State.load_inv, State.updCrew_inv]

theorem pendNow_inv (x : Ctx) (s : State) (ws : List RegWrite) (h : s.inv) : (pendNow x s ws).inv := h

theorem execLd_inv (o : Mem) (line : Bool) (s : State) (h : s.inv) : outcomeInv (execLd o line s) := by
  unfold execLd
  grind [State.inv, Act.inv, outcomeInv, pendNow_inv, loadAct_inv, word_inv]

theorem mgmtLoad_inv (o : Mem) (k : Nat) (m : Mgmt) (s : State) (f : State → Nat → Act) (h : s.inv) (h_f : ∀ y0, y0.inv → ∀ y1, (f y0 y1).inv) :
    (mgmtLoad o k m s f).inv := by
  unfold mgmtLoad
  grind [State.inv, Act.inv, Dir.inv, State.mgmtCheck_inv, State.directRead_inv, State.updMgmt_inv]

theorem execLds_inv (o : Mem) (line : Bool) (s : State) (h : s.inv) : outcomeInv (execLds o line s) := by
  unfold execLds
  grind [State.inv, Act.inv, outcomeInv, pendNow_inv, loadAct_inv, fullWord_some_inv, mgmtLoad_inv, State.updMgmt_inv]

theorem storeWord_inv (x : Ctx) (c : Crew) (s : State) (o : Mem) (eas : List (Nat × Nat)) (f : Nat → Nat) (h : s.inv) :
    (storeWord x c s o eas f).inv := by
  unfold storeWord
  grind [State.inv, Act.inv, checked_inv, storeAct_inv]

theorem execSt_inv (o : Mem) (s : State) (h : s.inv) : outcomeInv (execSt o s) := by
  unfold execSt
  grind [State.inv, Act.inv, outcomeInv, storeWord_inv, word_inv]

theorem execSts_inv (o : Mem) (s : State) (h : s.inv) : outcomeInv (execSts o s) := by
  unfold execSts
  grind [State.inv, Act.inv, Dir.inv, outcomeInv, State.mgmtCheck_inv, storeWord_inv, fullWord_some_inv, State.directWrite_inv, State.updMgmt_inv]

theorem execLdp_inv (o : Mem) (cc : BitVec 4) (s : State) (h : s.inv) : outcomeInv (execLdp o cc s) := by
  unfold execLdp
  grind [State.inv, Act.inv, Loaded.inv, outcomeInv, State.askLine_inv, pendNow_inv, checked_inv, State.load_inv, State.updCrew_inv,
    fullWord_some_inv, mgmtLoad_inv, State.updMgmt_inv, State.foldl_inv]

theorem atomScratch_inv (x : Ctx) (c : Crew) (s : State) (a : AtomOp) (eas : List (Nat × Nat)) (ls : List AtomLane) (h : s.inv) :
    (atomScratch x c s a eas ls).inv := by
  unfold atomScratch
  grind [State.inv, Act.inv, pendNow_inv, State.scrPut_inv, State.releaseFloor_inv, State.scrCheck_inv, State.updCrew_inv, State.foldl_fst_inv]

theorem State.disarm_inv (s : State) (u : Agent) (line : Nat) (h : s.inv) : (s.disarm u line).inv := by
  unfold State.disarm
  grind [State.inv, State.setSpan_inv]

theorem atomNarrow_inv (x : Ctx) (c : Crew) (s : State) (a : AtomOp) (eas : List (Nat × Nat)) (ls : List AtomLane) (h : s.inv) :
    (atomNarrow x c s a eas ls).inv := by
  delta atomNarrow
  extract_lets u n pas others blockers s0 room hidden armed ord pendingAck waits base byte bad r s1 p s2
  have h0 : s0.inv := State.foldl_inv _ _ _ h (fun v t hv =>
    State.foldl_inv _ _ _ (State.forgetClean_inv _ _ _ hv) (fun v a hv => State.disarm_inv _ _ _ (State.publishLine_inv _ _ _ _ hv)))
  have hroom : room.1.inv := State.narrowReady_inv _ _ _ _ h
  clear_value room s0 base
  split
  · exact h0
  split
  · exact hroom
  split
  · refine State.foldl_inv _ _ _ h (fun v t hv => ?_)
    split
    · split
      · exact hv
      · exact State.setSpan_inv _ _ _ _ (State.send_inv _ _ (State.ite_inv _ _ (State.send_inv _ _ hv) hv))
    · exact State.setSpan_inv _ _ _ _ (State.send_inv _ _ (State.send_inv _ _ hv))
  have hr : r.1.inv := by
    refine State.foldl_fst_inv _ _ _ h (fun b q hb => ?_)
    split
    · exact State.ite_inv _ _ (State.narrowStore_inv _ _ _ _ _ _ hb) hb
    · exact hb
  have h1 : s1.inv := State.ite_inv _ _ (State.releaseFloor_inv _ _ _ _ hr) hr
  have h2 : s2.inv := State.updCrew_inv _ _ _ h1
  clear_value s2 p s1 r
  split
  · refine State.foldl_inv _ _ _ h (fun v l hv => ?_)
    split
    · exact State.loadVerify_inv _ _ _ _ _ hv
    · exact hv
  split
  · exact pendNow_inv _ _ _ h2
  · exact h2

theorem sendAtoms_inv (x : Ctx) (c : Crew) (s : State) (a : AtomOp) (ls : List AtomLane) (h : s.inv) : (sendAtoms x c s a ls).1.inv := by
  unfold sendAtoms
  grind [State.inv, State.publishLine_inv, State.updCrew_inv, State.send_inv, State.foldl_inv, State.foldl_fst_inv]

theorem sendCounts_inv (x : Ctx) (c : Crew) (s : State) (ps : List Nat) (cs : List (Nat × Nat)) (h : s.inv) : (sendCounts x c s ps cs).inv := by
  unfold sendCounts
  grind [State.inv, sendAtoms_inv]

theorem atomHome_inv (x : Ctx) (c : Crew) (s0 : State) (a : AtomOp) (eas : List (Nat × Nat)) (ls : List AtomLane) (h : s0.inv) :
    (atomHome x c s0 a eas ls).inv := by
  unfold atomHome
  grind [State.inv, Act.inv, State.updCrew_inv, State.writeReady_inv, State.poisonMet_inv, sendAtoms_inv]

theorem atomWord_inv (x : Ctx) (c : Crew) (s : State) (o : Mem) (a : AtomOp) (f : Nat → Nat × Nat) (h : s.inv) : (atomWord x c s o a f).inv := by
  unfold atomWord
  grind [State.inv, Act.inv, atomNarrow_inv, checked_inv, atomScratch_inv, atomHome_inv, State.releaseReady_inv]

theorem execAtom_inv (o : Mem) (op : BitVec 4) (s : State) (h : s.inv) : outcomeInv (execAtom o op s) := by
  unfold execAtom
  grind [State.inv, Act.inv, outcomeInv, atomWord_inv, word_inv]

theorem execAcas_inv (o : Mem) (s : State) (h : s.inv) : outcomeInv (execAcas o s) := by
  unfold execAcas
  grind [State.inv, Act.inv, outcomeInv, atomWord_inv, word_inv]

theorem execRed_inv (o : Mem) (op : BitVec 4) (s : State) (h : s.inv) : outcomeInv (execRed o op s) := by
  unfold execRed
  grind [State.inv, Act.inv, outcomeInv, atomWord_inv, word_inv]

theorem execFence_inv (hd : Hdr) (scope : Scope) (order : Order) (s : State) (h : s.inv) : outcomeInv (execFence hd scope order s) := by
  unfold execFence
  grind [State.inv, Act.inv, outcomeInv, State.updCrew_inv, fullWord_some_inv, State.releaseReady_inv]

theorem execPrf_inv (o : Mem) (line : Bool) (s : State) (h : s.inv) : outcomeInv (execPrf o line s) := by
  unfold execPrf
  grind [State.inv, Act.inv, outcomeInv, State.askLine_inv, word_inv, State.foldl_inv]

theorem execLease_inv (o : Mem) (cls : BitVec 4) (s : State) (h : s.inv) : outcomeInv (execLease o cls s) := by
  unfold execLease
  grind [State.inv, Act.inv, outcomeInv, State.setSpan_inv, State.publishLine_inv, checked_inv, State.dropSpan_inv, word_inv, State.send_inv,
    State.foldl_inv]

theorem execTsget_inv (hd : Hdr) (f : Bool) (d a : Reg) (s : State) (h : s.inv) : outcomeInv (execTsget hd f d a s) := by
  unfold execTsget
  grind [State.inv, Act.inv, outcomeInv, pendNow_inv, checked_inv, State.ask_inv, State.updCrew_inv, word_inv]

/-! ## Machine/Control.lean -/

theorem spillRows_inv (x : Ctx) (c : Crew) (s : State) (kind : Nat) (rows : List (Nat × List (Nat × Nat)))
    (tr : Nat → List (Nat × Nat × Nat) → Nat → Trap) (f : List (Nat × List (Nat × Loc)) → Act) (h : s.inv) (hf : ∀ l, (f l).inv) :
    (spillRows x c s kind rows tr f).inv := by
  unfold spillRows
  dsimp only
  split
  next a hr => exact foldl_keeps spillInv _ _ _ (by simp [spillInv]) (by grind [State.inv, spillInv, Act.inv, Chk.inv, State.checkAll_inv,
    State.longService_inv]) a hr
  next ls hr => exact hf ls

theorem spillWords_inv (x : Ctx) (c : Crew) (s : State) (ws : List (Loc × Nat)) (f : State → Act) (h : s.inv) (h_f : ∀ y0, y0.inv → (f y0).inv) :
    (spillWords x c s ws f).inv := by
  unfold spillWords
  grind [State.inv, Act.inv, State.storePhys_inv, State.storeReady_inv]

theorem recMoves_inv (x : Ctx) (c : Crew) (s : State) (after : Crew) (f : State → List (Nat × Rec) → Act) (h : s.inv)
    (h_f : ∀ y0, y0.inv → ∀ y1, (f y0 y1).inv) : (recMoves x c s after f).inv := by
  unfold recMoves
  grind [State.inv, Act.inv, Loaded.inv, spillRows_inv, spillWords_inv, State.load_inv]

theorem reshaped_inv (x : Ctx) (c : Crew) (s : State) (after : Crew) (f : State → Act) (h : s.inv) (h_f : ∀ y0, y0.inv → (f y0).inv) :
    (reshaped x c s after f).inv := by
  unfold reshaped
  grind [State.inv, Act.inv, State.setCrew_inv, recMoves_inv, State.updCrew_inv]

theorem divided_inv (x : Ctx) (c : Crew) (s : State) (r : Crew × List Nat) (h : s.inv) : (divided x c s r).inv := by
  unfold divided
  grind [State.inv, Act.inv, reshaped_inv]

theorem goWhole_inv (x : Ctx) (c : Crew) (s : State) (pc : Nat) (h : s.inv) : (goWhole x c s pc).inv := h

theorem execBra_inv (hd : Hdr) (off : BitVec 20) (s : State) (h : s.inv) : outcomeInv (execBra hd off s) := by
  unfold execBra
  grind [State.inv, Act.inv, outcomeInv, goWhole_inv, divided_inv, fullWord_some_inv, State.updMgmt_inv]

theorem execBrx_inv (hd : Hdr) (a : Opnd) (s : State) (h : s.inv) : outcomeInv (execBrx hd a s) := by
  unfold execBrx
  grind [State.inv, Act.inv, outcomeInv, goWhole_inv, divided_inv, word_inv]

theorem execJoin_inv (hd : Hdr) (s : State) (h : s.inv) : outcomeInv (execJoin hd s) := by
  unfold execJoin
  grind [State.inv, Act.inv, outcomeInv, reshaped_inv, State.updCrew_inv, word_inv]

theorem spillChecked_inv (x : Ctx) (c : Crew) (s : State) (kind lo hi : Nat) (f : List (Nat × List (Nat × Loc)) → Act) (h : s.inv)
    (h_f : ∀ y0, (f y0).inv) : (spillChecked x c s kind lo hi f).inv := by
  unfold spillChecked
  grind [State.inv, Act.inv, spillRows_inv]

theorem spillOut_inv (x : Ctx) (c : Crew) (s : State) (ls : List (Nat × List (Nat × Loc))) (f : State → Act) (h : s.inv)
    (h_f : ∀ y0, y0.inv → (f y0).inv) : (spillOut x c s ls f).inv := by
  unfold spillOut
  grind [State.inv, Act.inv, spillWords_inv]

theorem callWord_inv (x : Ctx) (c : Crew) (s : State) (i : Instr) (f target : Nat) (h : s.inv) : (callWord x c s i f target).inv := by
  unfold callWord
  grind [State.inv, Act.inv, spillOut_inv, spillChecked_inv, State.updCrew_inv]

theorem execCall_inv (hd : Hdr) (f : Reg) (t : Target) (s : State) (h : s.inv) : outcomeInv (execCall hd f t s) := by
  cases t <;> unfold execCall <;> dsimp only <;> split
  · exact refusedWord_some_inv _ _ _ _ _ (fun _ _ _ hv => hv) h
  · exact word_inv _ _ _ _ _ (fun x c v hv => callWord_inv x c v _ _ _ hv) h
  · exact refusedWord_none_inv _ _ _ _ h
  · exact word_inv _ _ _ _ _ (fun x c v hv => callWord_inv x c v _ _ _ hv) h

theorem retWord_inv (x : Ctx) (c : Crew) (s : State) (i : Instr) (f target : Nat) (h : s.inv) : (retWord x c s i f target).inv := by
  unfold retWord
  grind [State.inv, Act.inv, Loaded.inv, spillChecked_inv, State.load_inv, State.updCrew_inv]

theorem execRet_inv (hd : Hdr) (f a : Reg) (s : State) (h : s.inv) : outcomeInv (execRet hd f a s) := by
  unfold execRet
  grind [State.inv, Act.inv, outcomeInv, refusedWord_some_inv, retWord_inv, word_inv, State.updMgmt_inv]

theorem endSome_inv (x : Ctx) (c : Crew) (s : State) (m : Mask) (h : s.inv) : (endSome x c s m).inv := by
  unfold endSome
  grind [State.inv, Act.inv, State.endLanes_inv, State.exitReady_inv, recMoves_inv, State.updCrew_inv]

theorem execExit_inv (hd : Hdr) (s : State) (h : s.inv) : outcomeInv (execExit hd s) := by
  unfold execExit
  grind [State.inv, Act.inv, outcomeInv, endSome_inv, word_inv]

theorem execKill_inv (hd : Hdr) (s : State) (h : s.inv) : outcomeInv (execKill hd s) := by
  unfold execKill
  grind [State.inv, Act.inv, outcomeInv, endSome_inv, word_inv]

theorem execYield_inv (hd : Hdr) (s : State) (h : s.inv) : outcomeInv (execYield hd s) := by
  unfold execYield
  grind [State.inv, Act.inv, outcomeInv, State.setCrew_inv, State.markIssued_inv, word_inv]

theorem execLoop_inv (hd : Hdr) (d : Reg) (off : BitVec 20) (s : State) (h : s.inv) : outcomeInv (execLoop hd d off s) :=
  fullWord_some_inv _ _ _ _ _ _ _ (fun x c v hv => goWhole_inv x (c.addFix x.e _ _) v _ hv) (fun k _ v hv => State.updMgmt_inv v k _ hv) h

theorem execTrapi_inv (hd : Hdr) (n : BitVec 16) (s : State) (h : s.inv) : outcomeInv (execTrapi hd n s) := by
  unfold execTrapi
  grind [State.inv, Act.inv, outcomeInv, word_inv]

theorem execTfence_inv (hd : Hdr) (mask : BitVec 5) (s : State) (h : s.inv) : outcomeInv (execTfence hd mask s) := by
  unfold execTfence
  grind [State.inv, Act.inv, outcomeInv, word_inv]

/-! ## Machine/Barriers.lean -/

theorem State.barFetch_inv (s : State) (b : BarLoc) (p : Ts) (who : Option Nat) (write : Bool) (h : s.inv) :
    (∀ w0, (s.barFetch b p who write) = .error w0 → w0.inv) ∧ (∀ w0, (s.barFetch b p who write) = .ok w0 → w0.1.inv) := by
  unfold State.barFetch
  grind [State.inv, BarOut.inv, State.checkRange_inv, State.scrCheck_inv, State.devRead_inv, State.clearRange_inv]

theorem State.barStore_inv (s : State) (b : BarLoc) (v : Nat) (p : Ts) (h : s.inv) : (s.barStore b v p).1.inv := by
  unfold State.barStore
  grind [State.inv, State.scrPut_inv, State.updGang_inv, State.devWrite_inv, State.imgMerge_inv]

theorem State.mergesReady_inv (s : State) (gs : List Nat) (sc : Scope) (h : s.inv) : (s.mergesReady gs sc).1.inv := by
  unfold State.mergesReady
  grind [State.inv, State.mergeReady_inv, State.foldl_fst_inv]

theorem State.mergeAll_inv (s : State) (gs : List Nat) (sc : Scope) (p : Ts) (h : s.inv) : (s.mergeAll gs sc p).1.inv := by
  unfold State.mergeAll
  grind [State.inv, State.merge_inv, State.releaseFloor_inv, State.foldl_fst_inv]

theorem State.impFlip_inv (s : State) (b : BarLoc) (h : s.inv) : (s.impFlip b).inv := by
  unfold State.impFlip
  grind [State.inv, State.flipIdem_inv, State.updGang_inv]

theorem State.barDo_inv (s : State) (b : BarLoc) (a : BarAct) (p : Ts) (det : Option Nat) (idx : Nat) (who : Option Nat) (h : s.inv) :
    (s.barDo b a p det idx who).inv := by
  obtain ⟨herr, hok⟩ := State.barFetch_inv s b p who (a != .look) h
  unfold State.barDo
  grind [State.inv, BarOut.inv, State.barStore_inv, State.mergesReady_inv, State.mergeAll_inv, State.impFlip_inv, State.updGang_inv]

theorem State.barSee_inv (s : State) (b : BarLoc) (q : Bool) (p : Ts) (who : Option Nat) (h : s.inv) : (s.barSee b q p who).inv := by
  obtain ⟨herr, hok⟩ := State.barFetch_inv s b p who false h
  unfold State.barSee
  grind [State.inv, BarOut.inv]

theorem State.barReleased_inv (s : State) (key core : Nat) (sc : Scope) (ts : Ts) (h : s.inv) : (s.barReleased key core sc ts).inv := by
  unfold State.barReleased
  grind [State.inv, State.releaseFloor_inv, State.updCrew_inv]

theorem State.barAcquired_inv (s : State) (key core : Nat) (b : BarLoc) (sc : Scope) (ts : Ts) (h : s.inv) : (s.barAcquired key core b sc ts).inv := h

theorem barAt_inv (x : Ctx) (c : Crew) (s : State) (o : Bar) (kind : Nat) (k : BarLoc → Act) (h : s.inv) (h_k : ∀ y0, (k y0).inv) :
    (barAt x c s o kind k).inv := by
  unfold barAt
  grind [State.inv, Act.inv, checked_inv]

theorem barPeer_inv (x : Ctx) (s : State) (p va what n : Nat) (w : Wait) (h : s.inv) : (barPeer x s p va what n w).inv := h

theorem execBarInit_inv (o : Bar) (s : State) (h : s.inv) : outcomeInv (execBarInit o s) := by
  unfold execBarInit
  grind [State.inv, Act.inv, Dir.inv, outcomeInv, State.barStore_inv, State.rangeWrite_inv, barPeer_inv, State.updCrew_inv, word_inv, barAt_inv]

theorem barFinish_inv (x : Ctx) (ea : Nat) (b : BarLoc) (r : BarOut) (k : State → BarObj → Ts → Act) (h : r.inv)
    (h_k : ∀ y0, y0.inv → ∀ y1 y2, (k y0 y1 y2).inv) : (barFinish x ea b r k).inv := by
  unfold barFinish
  grind [State.inv, Act.inv, BarOut.inv]

theorem execBarArr_inv (o : Bar) (s : State) (h : s.inv) : outcomeInv (execBarArr o s) := by
  unfold execBarArr
  grind [State.inv, Act.inv, BarOut.inv, outcomeInv, State.merge_inv, State.mergeReady_inv, pendNow_inv, barPeer_inv, barFinish_inv, word_inv,
    barAt_inv, State.barReleased_inv, State.releaseReady_inv, State.barDo_inv]

theorem execBarExp_inv (o : Bar) (s : State) (h : s.inv) : outcomeInv (execBarExp o s) := by
  unfold execBarExp
  grind [State.inv, Act.inv, BarOut.inv, outcomeInv, barPeer_inv, barFinish_inv, word_inv, barAt_inv, State.barDo_inv]

theorem execBarWait_inv (o : Bar) (s : State) (h : s.inv) : outcomeInv (execBarWait o s) := by
  unfold execBarWait
  grind [State.inv, Act.inv, BarOut.inv, outcomeInv, barPeer_inv, State.barAcquired_inv, barFinish_inv, word_inv, barAt_inv, State.barDo_inv]

theorem execBarTry_inv (o : Bar) (s : State) (h : s.inv) : outcomeInv (execBarTry o s) := by
  unfold execBarTry
  grind [State.inv, Act.inv, BarOut.inv, outcomeInv, pendNow_inv, barPeer_inv, State.barAcquired_inv, barFinish_inv, word_inv, barAt_inv,
    State.barDo_inv]

theorem State.wakeSplit_inv (s : State) (key e : Nat) (ws : List RegWrite) (h : s.inv) : (s.wakeSplit key e ws).inv :=
  (State.wakeSplit_persists _ _ _ _).inv h

theorem State.resumeWord_inv (s : State) (key e : Nat) (a : Act) (h_a : a.inv) : (s.resumeWord key e a).inv := by
  cases a
  case done t => exact State.wakeSplit_inv _ _ _ _ h_a
  case jump t es => exact State.boundary_inv _ _ h_a
  case post t tr => exact State.takeTrap_inv _ _ _ (State.wakeSplit_inv _ _ _ _ h_a)
  case wait t w => exact State.updCrew_inv _ _ _ h_a
  case blocked t => exact h_a
  case trap t tr => exact State.takeTrap_inv _ _ _ h_a

theorem impWait_inv (x : Ctx) (c : Crew) (s : State) (k : Nat) (q : Bool) (h : s.inv) : (impWait x c s k q).inv := by
  unfold impWait
  grind [State.inv, Act.inv, State.barAcquired_inv, State.updCrew_inv]

theorem impArrive_inv (x : Ctx) (c : Crew) (s : State) (k : Nat) (h : s.inv) : (impArrive x c s k).inv := by
  unfold impArrive
  grind [State.inv, Act.inv, BarOut.inv, impWait_inv, barFinish_inv, State.updCrew_inv, State.barReleased_inv, State.releaseReady_inv,
    State.barDo_inv]

theorem execBsync_inv (hd : Hdr) (k : BitVec 2) (s : State) (h : s.inv) : outcomeInv (execBsync hd k s) := by
  unfold execBsync
  grind [State.inv, Act.inv, outcomeInv, impArrive_inv, word_inv]

theorem State.wakeBar_inv (s : State) (key e : Nat) (c : Crew) (h : s.inv) : (s.wakeBar key e c).inv := by
  unfold State.wakeBar
  grind [State.inv, Act.inv, BarOut.inv, impWait_inv, barPeer_inv, State.resumeWord_inv, State.barAcquired_inv, State.barSee_inv, State.wakeSplit_inv,
    impArrive_inv, State.barReleased_inv, State.barDo_inv]

theorem State.pumpArrive_inv (s : State) (b : BarLoc) (p : Pump) (h : s.inv) : (s.pumpArrive b p).inv := by
  unfold State.pumpArrive
  grind [State.inv, BarOut.inv, State.barDo_inv]

theorem State.pumpRetire_inv (s : State) (gid : Nat) (h : s.inv) : (s.pumpRetire gid).inv := h

theorem State.wakePumpBar_inv (s : State) (gid : Nat) (g : Gang) (p : Pump) (h : s.inv) : (s.wakePumpBar gid g p).inv := by
  unfold State.wakePumpBar
  grind [State.inv, BarOut.inv, State.pumpArrive_inv, State.releaseFloor_inv, State.pumpTrap_inv, State.pumpRetire_inv]

theorem execBarrierWakeup_inv (w : Waiter) (s : State) (h : s.inv) : outcomeInv (execBarrierWakeup w s) := by
  unfold execBarrierWakeup
  grind [State.inv, outcomeInv, State.wakePumpBar_inv, State.wakeBar_inv]

end Sys2Proof.Machine
end

section
/-! SUPPORT. O60: device memory stays canonical in wells, walks and the copy engines:
one lemma per function of the model, from those of the functions that it calls. -/

namespace Sys2Proof.Machine

set_option Elab.async false -- one proof at a time: the threads of many at once take too much memory

/-! ## Machine/Wells.lean -/

theorem State.setWell_inv (s : State) (gid k : Nat) (w : Well) (h : s.inv) : (s.setWell gid k w).inv := h

theorem execWellCfg_inv (hd : Hdr) (well : BitVec 4) (a b : Reg) (s : State) (h : s.inv) : outcomeInv (execWellCfg hd well a b s) := by
  unfold execWellCfg
  grind [State.inv, Act.inv, outcomeInv, State.setWell_inv, word_inv]

theorem pushTo_inv (x : Ctx) (c : Crew) (s : State) (k : Nat) (fits : Well → Bool) (f : State → Well → Act) (h : s.inv)
    (h_f : ∀ y0, y0.inv → ∀ y1, (f y0 y1).inv) : (pushTo x c s k fits f).inv := by
  unfold pushTo
  grind [State.inv, Act.inv, State.releaseFloor_inv, State.releaseReady_inv]

theorem pushAct_inv (x : Ctx) (c : Crew) (s : State) (k nreg r : Nat) (h : s.inv) : (pushAct x c s k nreg r).inv := by
  unfold pushAct
  grind [State.inv, Act.inv, State.setWell_inv, State.scrPut_inv, pushTo_inv]

theorem execWellPush_inv (hd : Hdr) (well : BitVec 4) (nreg : BitVec 2) (r : Reg) (s : State) (h : s.inv) :
    outcomeInv (execWellPush hd well nreg r s) := by
  unfold execWellPush
  grind [State.inv, Act.inv, outcomeInv, pushAct_inv, word_inv]

theorem tpushAct_inv (x : Ctx) (c : Crew) (s : State) (i : Instr) (k t : Nat) (h : s.inv) : (tpushAct x c s i k t).inv := by
  unfold tpushAct
  grind [State.inv, Act.inv, State.setWell_inv, pushTo_inv, State.updCrew_inv]

theorem execWellTpush_inv (hd : Hdr) (well : BitVec 4) (a : Reg) (s : State) (h : s.inv) : outcomeInv (execWellTpush hd well a s) := by
  unfold execWellTpush
  grind [State.inv, Act.inv, outcomeInv, tpushAct_inv, word_inv]

theorem State.popAcquire_inv (s : State) (key core : Nat) (h : s.inv) : (s.popAcquire key core).inv := h

theorem popFrom_inv (x : Ctx) (c : Crew) (s : State) (k : Nat) (pr : BitVec 3) (fits : Well → Bool) (f : State → Well → Nat × Nat × W32 → Act)
    (h : s.inv) (h_f : ∀ y0, y0.inv → ∀ y1 y2, (f y0 y1 y2).inv) : (popFrom x c s k pr fits f).inv := by
  unfold popFrom
  grind [State.inv, Act.inv, pendNow_inv]

theorem popAct_inv (x : Ctx) (c : Crew) (s : State) (k nreg d : Nat) (pr : BitVec 3) (h : s.inv) : (popAct x c s k nreg d pr).inv := by
  unfold popAct
  grind [State.inv, Act.inv, State.setWell_inv, pendNow_inv, State.scrCheck_inv, State.popAcquire_inv, popFrom_inv]

theorem execWellPop_inv (hd : Hdr) (well : BitVec 4) (nreg : BitVec 2) (pr : BitVec 3) (d : Reg) (s : State) (h : s.inv) :
    outcomeInv (execWellPop hd well nreg pr d s) := by
  unfold execWellPop
  grind [State.inv, Act.inv, outcomeInv, popAct_inv, word_inv]

theorem tpopAct_inv (x : Ctx) (c : Crew) (s : State) (k t : Nat) (pr : BitVec 3) (h : s.inv) : (tpopAct x c s k t pr).inv := by
  unfold tpopAct
  grind [State.inv, Act.inv, State.setWell_inv, pendNow_inv, State.popAcquire_inv, State.updCrew_inv, popFrom_inv]

theorem execWellTpop_inv (hd : Hdr) (well : BitVec 4) (pr : BitVec 3) (d : Reg) (s : State) (h : s.inv) :
    outcomeInv (execWellTpop hd well pr d s) := by
  unfold execWellTpop
  grind [State.inv, Act.inv, outcomeInv, word_inv, tpopAct_inv]

theorem execBatchClose_inv (hd : Hdr) (d : Reg) (s : State) (h : s.inv) : outcomeInv (execBatchClose hd d s) := by
  unfold execBatchClose
  grind [State.inv, Act.inv, outcomeInv, State.setCrew_inv, pendNow_inv, word_inv]

theorem batchAct_inv (x : Ctx) (c : Crew) (s : State) (d : Nat) (n : W32) (h : s.inv) : (batchAct x c s d n).inv := by
  unfold batchAct
  grind [State.inv, Act.inv, pendNow_inv, State.updCrew_inv]

theorem execBatchWait_inv (hd : Hdr) (d : Reg) (b : Opnd) (s : State) (h : s.inv) : outcomeInv (execBatchWait hd d b s) := by
  unfold execBatchWait
  grind [State.inv, Act.inv, outcomeInv, batchAct_inv, word_inv]

theorem State.retryWord_inv (s : State) (key e : Nat) (a : Act) (h : s.inv) (h_a : a.inv) : (s.retryWord key e a).inv := by
  unfold State.retryWord
  grind [State.inv, Act.inv, State.resumeWord_inv]

theorem State.wakeWell_inv (s : State) (key e : Nat) (c : Crew) (h : s.inv) : (s.wakeWell key e c).inv := by
  unfold State.wakeWell
  grind [State.inv, Act.inv, popAct_inv, State.retryWord_inv, pushAct_inv, tpushAct_inv, tpopAct_inv]

theorem State.wakePumpWell_inv (s : State) (gid : Nat) (g : Gang) (p : Pump) (h : s.inv) : (s.wakePumpWell gid g p).inv := by
  unfold State.wakePumpWell
  grind [State.inv, Act.inv, State.setGang_inv]

theorem execWellWakeup_inv (w : Waiter) (s : State) (h : s.inv) : outcomeInv (execWellWakeup w s) := by
  unfold execWellWakeup
  grind [State.inv, outcomeInv, State.wakePumpWell_inv, State.wakeWell_inv]

theorem execBatchWakeup_inv (w : Waiter) (s : State) (h : s.inv) : outcomeInv (execBatchWakeup w s) := by
  unfold execBatchWakeup
  grind [State.inv, Act.inv, outcomeInv, State.retryWord_inv, batchAct_inv]

/-! ## Machine/Walk.lean -/

theorem State.walkAt_inv (s : State) (asid va kind cls lslot n a : Nat) (h : s.inv) : (s.walkAt asid va kind cls lslot n a).inv := by
  induction n generalizing s a with
  | zero => exact h
  | succ n ih =>
    unfold State.walkAt
    grind [State.inv, Walked.inv, Dir.inv, State.errRecord_inv, State.rangeRead_inv, State.rangeWrite_inv]

theorem State.walk_inv (s : State) (asid va kind cls lslot : Nat) (h : s.inv) : (s.walk asid va kind cls lslot).inv := by
  unfold State.walk
  grind [State.inv, Walked.inv, State.walkAt_inv]

theorem State.fillTlb_inv (s : State) (u : Agent) (t : TlbEntry) (h : s.inv) : (s.fillTlb u t).inv := by
  unfold State.fillTlb
  grind [State.inv, State.updCore_inv, State.updCluster_inv]

theorem State.walkFailed_inv (s : State) (w : Waiter) (f : WalkFail) (h : s.inv) : (s.walkFailed w f).inv := by
  unfold State.walkFailed
  grind [State.inv, State.updCrew_inv, State.updGang_inv, State.updMgmt_inv]

theorem execPageWalk_inv (asid va : Nat) (s : State) (h : s.inv) : outcomeInv (execPageWalk asid va s) := by
  unfold execPageWalk
  grind [State.inv, Walked.inv, outcomeInv, State.fillTlb_inv, State.walkFailed_inv, State.walk_inv, State.foldl_inv]

theorem State.engWait_inv (s : State) (w : EngWait) (h : s.inv) : (s.engWait w).inv := by
  unfold State.engWait
  grind [State.inv, State.setPart_inv, State.raiseFvec_inv]

theorem State.engXlate_inv (s : State) (asid va kind lslot : Nat) (h : s.inv) : (s.engXlate asid va kind lslot).inv := by
  unfold State.engXlate
  grind [State.inv, EngX.inv, Walked.inv, State.walk_inv, State.farRefused_inv]

theorem State.engRange_inv (s : State) (asid va n kind lslot : Nat) (h : s.inv) : (s.engRange asid va n kind lslot).inv := by
  unfold State.engRange
  grind [State.inv, EngX.inv, EngR.inv, State.engXlate_inv, EngR.foldl_inv]

theorem State.piecesHeld_inv (s : State) (ps : List (Nat × Nat)) (f : Finder) (h : s.inv) : (s.piecesHeld ps f).1.inv := by
  unfold State.piecesHeld
  grind [State.inv, State.rangeHeld_inv, State.foldl_fst_inv]

theorem State.piecesRead_inv (s : State) (ps : List (Nat × Nat)) (p : Ts) (f : Finder) (h : s.inv) : (s.piecesRead ps p f).inv := by
  unfold State.piecesRead
  grind [State.inv, Dir.inv, State.rangeRead_inv, State.piecesHeld_inv, Dir.foldl_inv]

theorem State.piecesReady_inv (s : State) (ps : List (Nat × Nat)) (f : Finder) (h : s.inv) : (s.piecesReady ps f).1.inv := by
  unfold State.piecesReady
  grind [State.inv, State.rangeReady_inv, State.foldl_fst_inv]

theorem State.piecesWrite_inv (s : State) (ps : List (Nat × Nat)) (bs : List Byte) (p : Ts) (f : Finder) (h : s.inv) :
    (s.piecesWrite ps bs p f).inv := by
  unfold State.piecesWrite
  grind [State.inv, Dir.inv, State.rangeWrite_inv, State.piecesReady_inv, Dir.foldl_fst_inv]

theorem State.piecesPoison_inv (s : State) (ps : List (Nat × Nat)) (p : Ts) (f : Finder) (h : s.inv) : (s.piecesPoison ps p f).inv := by
  unfold State.piecesPoison
  grind [State.inv, Dir.inv, State.piecesReady_inv, State.rangePoison_inv, Dir.foldl_inv]

/-! ## Machine/Copy.lean -/

theorem State.cmdEnd_inv (s : State) (id : Nat) (k : Cmd) (h : s.inv) : (s.cmdEnd id k).inv := by
  unfold State.cmdEnd
  grind [State.inv, State.updLaunch_inv, State.updBatches_inv]

theorem State.cmdStatus_inv (s : State) (k : Cmd) (st : BitVec 4) (h : s.inv) : (s.cmdStatus k st).inv := by
  unfold State.cmdStatus
  grind [State.inv, State.updBatches_inv]

theorem copyAct_inv (x : Ctx) (c : Crew) (s : State) (o : Cpy) (op : Nat) (hasB : Bool) (h : s.inv) : (copyAct x c s o op hasB).inv := by
  unfold copyAct
  grind [State.inv, Act.inv, State.cmdEnd_inv, State.updCrew_inv, State.updLaunch_inv, State.releaseReady_inv]

theorem execCpyG2s_inv (o : Cpy) (s : State) (h : s.inv) : outcomeInv (execCpyG2s o s) := by
  unfold execCpyG2s
  grind [State.inv, Act.inv, outcomeInv, copyAct_inv, word_inv]

theorem execCpyS2g_inv (o : Cpy) (s : State) (h : s.inv) : outcomeInv (execCpyS2g o s) := by
  unfold execCpyS2g
  grind [State.inv, Act.inv, outcomeInv, copyAct_inv, word_inv]

theorem execCpyG2g_inv (o : Cpy) (s : State) (h : s.inv) : outcomeInv (execCpyG2g o s) := by
  unfold execCpyG2g
  grind [State.inv, Act.inv, outcomeInv, copyAct_inv, word_inv]

theorem execCpyMcast_inv (o : Cpy) (s : State) (h : s.inv) : outcomeInv (execCpyMcast o s) := by
  unfold execCpyMcast
  grind [State.inv, Act.inv, outcomeInv, copyAct_inv, word_inv]

theorem execCpyT2d_inv (o : Cpy) (s : State) (h : s.inv) : outcomeInv (execCpyT2d o s) := by
  unfold execCpyT2d
  grind [State.inv, Act.inv, outcomeInv, copyAct_inv, word_inv]

theorem execCpyGather_inv (o : Cpy) (s : State) (h : s.inv) : outcomeInv (execCpyGather o s) := by
  unfold execCpyGather
  grind [State.inv, Act.inv, outcomeInv, copyAct_inv, word_inv]

theorem execCpyRed_inv (o : Cpy) (s : State) (h : s.inv) : outcomeInv (execCpyRed o s) := by
  unfold execCpyRed
  grind [State.inv, Act.inv, outcomeInv, copyAct_inv, word_inv]

theorem execCpyDom_inv (o : Cpy) (s : State) (h : s.inv) : outcomeInv (execCpyDom o s) := by
  unfold execCpyDom
  grind [State.inv, Act.inv, outcomeInv, copyAct_inv, word_inv]

theorem execCpySwr_inv (o : Cpy) (s : State) (h : s.inv) : outcomeInv (execCpySwr o s) := by
  unfold execCpySwr
  grind [State.inv, Act.inv, outcomeInv, copyAct_inv, word_inv]

theorem execCpyStat_inv (hd : Hdr) (d : Reg) (s : State) (h : s.inv) : outcomeInv (execCpyStat hd d s) := by
  unfold execCpyStat
  grind [State.inv, Act.inv, outcomeInv, pendNow_inv, word_inv]

theorem State.engRead_inv (s : State) (k : Cmd) (scr : Bool) (a n : Nat) (h : s.inv) : (s.engRead k scr a n).inv := by
  unfold State.engRead
  grind [State.inv, Dir.inv, EngR.inv, EngIO.inv, State.checkRange_inv, State.scrCheck_inv, State.piecesRead_inv, State.engRange_inv]

theorem State.engScrPut_inv (s : State) (gid a : Nat) (bs : List Byte) (h : s.inv) : (s.engScrPut gid a bs).1.inv := by
  unfold State.engScrPut
  grind [State.inv, State.scrPut_inv, State.imgMerge_inv]

theorem State.engRed_inv (s : State) (k : Cmd) (pa x : Nat) (h : s.inv) : (s.engRed k pa x).inv := by
  unfold State.engRed
  grind [State.inv, Dir.inv, State.rangeReady_inv, State.homeAtom_inv, State.clearRange_inv, State.directRead_inv, State.directWrite_inv]

theorem State.engWrite_inv (s : State) (k : Cmd) (a : Nat) (bs : List Byte) (h : s.inv) : (s.engWrite k a bs).1.inv := by
  have hfind := @State.engRange_inv
  unfold State.engWrite
  obtain ⟨find, hf⟩ : ∃ f, f = @State.engRange := ⟨_, rfl⟩ -- a name keeps the kernel from computing the range
  rw [← hf] at hfind ⊢
  clear hf
  grind [State.inv, Dir.inv, EngR.inv, EngIO.inv, State.engScrPut_inv, State.piecesWrite_inv, State.engRed_inv]

theorem State.engPoison_inv (s : State) (k : Cmd) (a n : Nat) (h : s.inv) : (s.engPoison k a n).1.inv := by
  unfold State.engPoison
  grind [State.inv, Dir.inv, EngR.inv, EngIO.inv, State.piecesPoison_inv, State.imgPoisonPut_inv, State.updGang_inv, State.engRange_inv]

theorem State.cmdBar_inv (s : State) (asid gid bar : Nat) (bsp : Bool) (lslot : Nat) (h : s.inv) : (s.cmdBar asid gid bar bsp lslot).inv := by
  unfold State.cmdBar
  grind [State.inv, EngX.inv, BarAt.inv, State.engXlate_inv]

theorem State.creditFloor_inv (s : State) (b : BarLoc) (p : Ts) (h : s.inv) : (s.creditFloor b p).inv := by
  unfold State.creditFloor
  grind [State.inv, State.releaseFloor_inv, State.imgRaisePts_inv]

theorem State.barLive_inv (s : State) (b : BarLoc) (h : s.inv) : (s.barLive b).inv := by
  obtain ⟨herr, -⟩ := State.barFetch_inv s b 0 none true h
  unfold State.barLive
  grind [State.inv, BarLive.inv, BarOut.inv]

theorem State.partBytes_inv (s : State) (k : Cmd) (p : Part1) (h : s.inv) : (s.partBytes k p).inv := by
  unfold State.partBytes
  grind [State.inv, EngIO.inv, State.engRead_inv]

theorem EngIO.ends_inv (r : EngIO × Ts) (st : BitVec 4) (h : r.1.inv) : (EngIO.ends r st).inv := by
  unfold EngIO.ends
  grind [State.inv, EngIO.inv, PartOut.inv]

theorem State.partMove_inv (s : State) (k : Cmd) (p : Part1) (h : s.inv) : (s.partMove k p).inv := by
  unfold State.partMove
  grind [State.inv, EngIO.inv, PartOut.inv, EngIO.ends_inv, State.engWrite_inv, State.partBytes_inv, State.engPoison_inv]

theorem State.credit_inv (s : State) (b : BarLoc) (n : Nat) (p : Ts) (h : s.inv) : (s.credit b n p).inv := by
  unfold State.credit
  grind [State.inv, Credited.inv, BarOut.inv, State.creditFloor_inv, State.barDo_inv]

theorem State.partDone_inv (s : State) (id : Nat) (k : Cmd) (part : Nat) (st : BitVec 4) (p : Ts) (h : s.inv) : (s.partDone id k part st p).inv := by
  unfold State.partDone
  grind [State.inv, State.cmdEnd_inv, State.cmdStatus_inv]

theorem State.creditPeer_inv (s : State) (id : Nat) (k : Cmd) (part p va n : Nat) (st : BitVec 4) (h : s.inv) :
    (s.creditPeer id k part p va n st).inv := h

theorem State.partCredit_inv (s : State) (id : Nat) (k : Cmd) (part n : Nat) (b : Option BarLoc) (st : BitVec 4) (ts : Ts) (h : s.inv) :
    (s.partCredit id k part n b st ts).inv := by
  unfold State.partCredit
  grind [State.inv, Credited.inv, State.credit_inv, State.creditPeer_inv, State.partDone_inv]

theorem State.partWith_inv (s : State) (id : Nat) (k : Cmd) (part : Nat) (p : Part1) (b : Option BarLoc) (h : s.inv) :
    (s.partWith id k part p b).inv := by
  unfold State.partWith
  grind [State.inv, BarLive.inv, PartOut.inv, Credited.inv, State.credit_inv, State.engWait_inv, State.partDone_inv, State.partCredit_inv,
    State.partMove_inv, State.barLive_inv]

theorem State.domFinish_inv (s : State) (id : Nat) (k : Cmd) (part n : Nat) (st : BitVec 4) (h : s.inv) : (s.domFinish id k part n st).inv := by
  unfold State.domFinish
  grind [State.inv, BarLive.inv, BarAt.inv, State.creditPeer_inv, State.engWait_inv, State.partDone_inv, State.partCredit_inv, State.cmdBar_inv,
    State.barLive_inv]

theorem State.domPart_inv (s : State) (id : Nat) (k : Cmd) (part : Nat) (p : Part1) (h : s.inv) : (s.domPart id k part p).inv := by
  unfold State.domPart
  grind [State.inv, EngIO.inv, State.engWait_inv, State.domFinish_inv, State.ask_inv, State.engRead_inv, State.linkRecord_inv]

theorem execCopyPartComplete_inv (cmd part : Nat) (s : State) (h : s.inv) : outcomeInv (execCopyPartComplete cmd part s) := by
  unfold execCopyPartComplete
  grind [State.inv, BarAt.inv, outcomeInv, State.engWait_inv, State.partDone_inv, State.cmdBar_inv, State.partWith_inv, State.domPart_inv]

theorem State.landDone_inv (s : State) (id : Nat) (k : Cmd) (t part : Nat) (st : BitVec 4) (h : s.inv) : (s.landDone id k t part st).inv := by
  unfold State.landDone
  grind [State.inv, State.cmdEnd_inv, State.cmdStatus_inv]

theorem State.land_inv (s : State) (id : Nat) (k : Cmd) (t part : Nat) (p : Part1) (h : s.inv) : (s.land id k t part p).inv := by
  unfold State.land
  split <;> grind [State.inv, BarLive.inv, PartOut.inv, Credited.inv, State.credit_inv, State.engWait_inv, State.landDone_inv, State.partMove_inv,
    State.barLive_inv]

theorem execMcastLanding_inv (cmd target part : Nat) (s : State) (h : s.inv) : outcomeInv (execMcastLanding cmd target part s) := by
  unfold execMcastLanding
  grind [State.inv, outcomeInv, State.landDone_inv, State.land_inv]

/-! ## Machine/Switch.lean -/

theorem State.setSwr_inv (s : State) (g : Nat) (v : SwrGroup) (h : s.inv) : (s.setSwr g v).inv := h

theorem State.swrClose_inv (s : State) (id : Nat) (k : Cmd) (st : BitVec 4) (h : s.inv) : (s.swrClose id k st).inv := by
  unfold State.swrClose
  grind [State.inv, State.cmdEnd_inv, State.cmdStatus_inv, State.updBatches_inv]

theorem State.swrCredit_inv (s : State) (id : Nat) (k : Cmd) (st : BitVec 4) (h : s.inv) : (s.swrCredit id k st).inv := by
  unfold State.swrCredit
  grind [State.inv, BarLive.inv, BarAt.inv, Credited.inv, State.credit_inv, State.creditPeer_inv, State.engWait_inv, State.cmdBar_inv,
    State.swrClose_inv, State.barLive_inv]

theorem State.swrDeliver_inv (s : State) (id : Nat) (k : Cmd) (r : SwrRound) (h : s.inv) : (s.swrDeliver id k r).inv := by
  unfold State.swrDeliver
  grind [State.inv, Dir.inv, EngR.inv, EngIO.inv, PartOut.inv, EngIO.ends_inv, State.engWait_inv, State.engWrite_inv, State.swrCredit_inv,
    State.piecesWrite_inv, State.engRange_inv]

theorem State.swrEnd_inv (s : State) (grp : Nat) (r : SwrRound) (abort : Bool) (h : s.inv) : (s.swrEnd grp r abort).inv := by
  unfold State.swrEnd
  grind [State.inv, State.setSwr_inv, State.swrDeliver_inv, State.foldl_inv]

theorem State.swrTake_inv (s : State) (grp num : Nat) (c : SwrContribution) (h : s.inv) : (s.swrTake grp num c).inv := by
  unfold State.swrTake
  grind [State.inv, State.setSwr_inv, State.swrEnd_inv, State.swrDeliver_inv]

theorem State.swrOwn_inv (s : State) (grp id : Nat) (k : Cmd) (h : s.inv) : (s.swrOwn grp id k).inv := by
  unfold State.swrOwn
  grind [State.inv, EngIO.inv, PartOut.inv, EngIO.ends_inv, State.engWait_inv, State.swrCredit_inv, State.engRead_inv, State.cmdEnd_inv,
    State.swrTake_inv, State.swrDeliver_inv, State.engPoison_inv]

theorem execSwrRound_inv (group : Nat) (c : SwrIn) (s : State) (h : s.inv) : outcomeInv (execSwrRound group c s) := by
  unfold execSwrRound
  grind [State.inv, outcomeInv, State.setSwr_inv, State.swrOwn_inv, State.swrTake_inv, State.swrEnd_inv]

theorem execSwrRoundTimeout_inv (group : Nat) (s : State) (h : s.inv) : outcomeInv (execSwrRoundTimeout group s) := by
  unfold execSwrRoundTimeout
  grind [State.inv, outcomeInv, State.swrEnd_inv]

/-! ## Machine/Replies.lean -/

theorem atomReply_inv (x : Ctx) (c : Crew) (s : State) (o : Mem) (a : AtomOp) (h : s.inv) : (atomReply x c s o a).inv := by
  unfold atomReply
  grind [State.inv, Act.inv, pendNow_inv]

theorem peerAnswer_inv (x : Ctx) (c : Crew) (s : State) (ea : Nat) (f : Nat → Act) (h : s.inv) (h_f : ∀ y0, (f y0).inv) :
    (peerAnswer x c s ea f).inv := by
  unfold peerAnswer
  grind [State.inv, Act.inv]

theorem State.peerAcquire_inv (s : State) (key : Nat) (h : s.inv) : (s.peerAcquire key).inv := h

theorem barAnswer_inv (x : Ctx) (c : Crew) (s : State) (ea : Nat) (f : Nat → Act) (h : s.inv) (h_f : ∀ y0, (f y0).inv) :
    (barAnswer x c s ea f).inv := by
  unfold barAnswer
  grind [State.inv, Act.inv, peerAnswer_inv]

theorem putDone_inv (x : Ctx) (c : Crew) (s : State) (lt : Bool) (d : Reg) (st : Nat) (h : s.inv) : (putDone x c s lt d st).inv := by
  unfold putDone
  grind [State.inv, Act.inv, State.updCrew_inv]

theorem countsNow_inv (x : Ctx) (c : Crew) (s : State) (h : s.inv) : (countsNow x c s).inv := by
  unfold countsNow
  grind [State.inv, Act.inv, sendCounts_inv]

theorem replyAct_inv (x : Ctx) (c : Crew) (s : State) (i : Instr) (h : s.inv) : (replyAct x c s i).inv := by
  unfold replyAct
  grind [State.inv, Act.inv, pendNow_inv, atomReply_inv, countsNow_inv, putDone_inv, State.peerAcquire_inv, barAnswer_inv, peerAnswer_inv]

theorem State.tryReply_inv (s : State) (key e : Nat) (h : s.inv) : (s.tryReply key e).inv :=
  (State.tryReply_persists _ _ _).inv h

theorem State.replyTo_inv (s : State) (key pkt : Nat) (vals : List Nat) (poison : Bool) (h : s.inv) : (s.replyTo key pkt vals poison).inv :=
  (State.replyTo_persists _ _ _ _ _).inv h

end Sys2Proof.Machine
end

section
/-! SUPPORT. O60: device memory stays canonical in counters, cisterns, the system words and handlers:
one lemma per function of the model, from those of the functions that it calls. -/

namespace Sys2Proof.Machine

set_option Elab.async false -- one proof at a time: the threads of many at once take too much memory

/-! ## Machine/Counters.lean -/

theorem State.ctrAnswer_inv (s : State) (o : Nat) (q : CtrReq) (g : Option Nat) (h : s.inv) : (s.ctrAnswer o q g).inv :=
  (State.ctrAnswer_persists _ _ _ _).inv h

theorem State.ctrExact_inv (s : State) (o : Nat) (q : CtrReq) (h : s.inv) : (s.ctrExact o q).inv :=
  (State.ctrExact_persists _ _ _).inv h

theorem State.ctrEval_inv (s : State) (o a2 : Nat) (h : s.inv) : (s.ctrEval o a2).inv :=
  (State.ctrEval_persists _ _ _).inv h

theorem State.ctrBegin_inv (s : State) (o : Nat) (q : CtrReq) (h : s.inv) : (s.ctrBegin o q).inv :=
  (State.ctrBegin_persists _ _ _).inv h

theorem State.ctrPump_inv (s : State) (o a2 : Nat) (h : s.inv) : (s.ctrPump o a2).inv :=
  (State.ctrPump_persists _ _ _).inv h

theorem State.ctrEnqueue_inv (s : State) (o : Nat) (q : CtrReq) (h : s.inv) : (s.ctrEnqueue o q).inv := by
  unfold State.ctrEnqueue
  grind [State.inv, State.setCtrHome_inv, State.ctrPump_inv]

theorem execCtrRefill_inv (o : Nat) (s : State) (h : s.inv) : outcomeInv (execCtrRefill o s) := by
  unfold execCtrRefill
  grind [State.inv, outcomeInv, State.setCtrHome_inv, State.ctrBegin_inv, State.ctrPump_inv]

theorem execCtrRecall_inv (o core : Nat) (s : State) (h : s.inv) : outcomeInv (execCtrRecall o core s) := by
  unfold execCtrRecall
  grind [State.inv, outcomeInv, State.ctrRecallAt_inv, State.setCtrHome_inv]

theorem execCtrRecallReply_inv (o core : Nat) (s : State) (h : s.inv) : outcomeInv (execCtrRecallReply o core s) := by
  unfold execCtrRecallReply
  grind [State.inv, outcomeInv, State.setCtrHome_inv, State.ctrEval_inv, State.ctrPump_inv, State.ctrUpd_inv]

theorem State.ctrAllow_inv (s : State) (core o : Nat) (f : Nat → Nat) (h : s.inv) : (s.ctrAllow core o f).inv := by
  unfold State.ctrAllow
  grind [State.inv, State.ctrUse_inv, State.ctrUpd_inv]

theorem State.ctrReturn_inv (s : State) (core o : Nat) (h : s.inv) : (s.ctrReturn core o).inv := by
  unfold State.ctrReturn
  grind [State.inv, State.updCore_inv, State.ctrUpd_inv]

theorem State.ctrReturnAll_inv (s : State) (core : Nat) (h : s.inv) : (s.ctrReturnAll core).inv := by
  unfold State.ctrReturnAll
  grind [State.inv, State.ctrReturn_inv, State.foldl_inv]

theorem State.ctrRoom_inv (s : State) (core o : Nat) (h : s.inv) : (s.ctrRoom core o).1.inv := by
  unfold State.ctrRoom
  grind [State.inv, State.ctrReturn_inv, State.updCore_inv]

theorem State.ctrRefill_inv (s : State) (core o n id : Nat) (h : s.inv) : (s.ctrRefill core o n id).inv := by
  unfold State.ctrRefill
  grind [State.inv, State.ctrUse_inv, State.ctrEnqueue_inv]

theorem State.ctrTake_inv (s : State) (core o n id : Nat) (h : s.inv) : (s.ctrTake core o n id).inv := by
  unfold State.ctrTake
  grind [State.inv, CtrTake.inv, State.ctrRoom_inv, State.ctrUse_inv, State.ctrRefill_inv]

theorem State.ctrGive_inv (s : State) (core o n : Nat) (h : s.inv) : (s.ctrGive core o n).inv := by
  unfold State.ctrGive
  grind [State.inv, State.ctrAllow_inv, State.ctrUpd_inv]

theorem recordAt_inv (x : Ctx) (c : Crew) (s : State) (ea align n : Nat) (k : Nat → Act) (h : s.inv) (h_k : ∀ y0, (k y0).inv) :
    (recordAt x c s ea align n k).inv := by
  unfold recordAt
  grind [State.inv, Act.inv, checked_inv]

theorem ctrWord_inv (x : Ctx) (c : Crew) (s : State) (a : Reg) (u : CtrUse) (k : State → Nat → Act) (h : s.inv)
    (h_k : ∀ y0, y0.inv → ∀ y1, (k y0 y1).inv) : (ctrWord x c s a u k).inv := by
  unfold ctrWord
  grind [State.inv, Act.inv, State.clearLine_inv, State.checkRange_inv, State.ctrUse_inv, recordAt_inv]

theorem ctrExactWord_inv (x : Ctx) (c : Crew) (s : State) (i : Instr) (o op b0 b1 : Nat) (h : s.inv) : (ctrExactWord x c s i o op b0 b1).inv := by
  unfold ctrExactWord
  grind [State.inv, Act.inv, State.updCrew_inv, replyAct_inv, State.ctrEnqueue_inv]

theorem execCtrInit_inv (o : Ctr) (s : State) (h : s.inv) : outcomeInv (execCtrInit o s) := by
  unfold execCtrInit
  grind [State.inv, Act.inv, outcomeInv, word_inv, ctrWord_inv, ctrExactWord_inv]

theorem State.nameTake_inv (s : State) (x : Ctx) (h : s.inv) : (s.nameTake x).1.inv := h

theorem execCtrTake_inv (o : Ctr) (s : State) (h : s.inv) : outcomeInv (execCtrTake o s) := by
  unfold execCtrTake
  grind [State.inv, Act.inv, CtrTake.inv, outcomeInv, pendNow_inv, State.nameTake_inv, State.updCrew_inv, word_inv, State.ctrTake_inv, ctrWord_inv]

theorem execCtrGive_inv (o : Ctr) (s : State) (h : s.inv) : outcomeInv (execCtrGive o s) := by
  unfold execCtrGive
  grind [State.inv, Act.inv, outcomeInv, word_inv, State.ctrGive_inv, ctrWord_inv]

theorem execCtrRead_inv (o : Ctr) (s : State) (h : s.inv) : outcomeInv (execCtrRead o s) := by
  unfold execCtrRead
  grind [State.inv, Act.inv, outcomeInv, pendNow_inv, word_inv, ctrWord_inv]

theorem execCtrReadx_inv (o : Ctr) (s : State) (h : s.inv) : outcomeInv (execCtrReadx o s) := by
  unfold execCtrReadx
  grind [State.inv, Act.inv, outcomeInv, word_inv, ctrWord_inv, ctrExactWord_inv]

theorem execCtrCap_inv (o : Ctr) (s : State) (h : s.inv) : outcomeInv (execCtrCap o s) := by
  unfold execCtrCap
  grind [State.inv, Act.inv, outcomeInv, State.ctrPut_inv, State.updCrew_inv, word_inv, ctrWord_inv]

theorem execCtrDrain_inv (o : Ctr) (s : State) (h : s.inv) : outcomeInv (execCtrDrain o s) := by
  unfold execCtrDrain
  grind [State.inv, Act.inv, outcomeInv, word_inv, ctrWord_inv, ctrExactWord_inv]

/-! ## Machine/Cistern.lean -/

theorem State.hdrPut_inv (s : State) (o hd : Nat) (p : Ts) (h : s.inv) : (s.hdrPut o hd p).1.inv := by
  unfold State.hdrPut
  grind [State.inv, State.devWrite_inv]

theorem State.hdrUpd_inv (s : State) (o : Nat) (f : Nat → Nat) (h : s.inv) : (s.hdrUpd o f).inv := by
  unfold State.hdrUpd
  grind [State.inv, State.hdrPut_inv]

theorem State.recUpd_inv (s : State) (o : Nat) (f : Nat → Nat) (h : s.inv) : (s.recUpd o f).inv := by
  unfold State.recUpd
  grind [State.inv, State.devWrite_inv]

theorem State.cmbPoison_inv (s : State) (k : CmbSlot) (hd : Nat) (h : s.inv) : (s.cmbPoison k hd).1.inv := by
  unfold State.cmbPoison
  grind [State.inv, State.checkRange_inv, State.foldl_fst_inv]

theorem State.cmbTo_inv (s : State) (asid va n kind : Nat) (h : s.inv) : (s.cmbTo asid va n kind).inv := by
  unfold State.cmbTo
  grind [State.inv, EngR.inv, CmbTo.inv, State.engRange_inv]

theorem State.cmbWrite_inv (s : State) (o : Nat) (k : CmbSlot) (hd : Nat) (out : List Byte) (dest bar : CmbTo) (h : s.inv) (h_dest : dest.inv)
    (h_bar : bar.inv) : (s.cmbWrite o k hd out dest bar).1.inv := by
  unfold State.cmbWrite
  grind [State.inv, Dir.inv, Credited.inv, CmbTo.inv, State.credit_inv, State.piecesPoison_inv, State.piecesWrite_inv, State.cmbPoison_inv]

theorem State.cmbRelease_inv (s : State) (o n : Nat) (h : s.inv) : (s.cmbRelease o n).inv := by
  induction n generalizing s o with
  | zero => exact h
  | succ n ih =>
    unfold State.cmbRelease
    split
    · exact h
    next k _ =>
    extract_lets r hr turn wait nx
    have hwait (v : State) (pg : Nat) (hv : v.inv) : (wait v pg).inv := State.engWait_inv _ _ hv
    split
    · exact State.hdrUpd_inv _ _ _ h
    split
    · exact h
    have hd := State.cmbTo_inv s k.asid (fld hr 64 64) r.rowBytes 1 h
    generalize s.cmbTo k.asid (fld hr 64 64) r.rowBytes 1 = dest at hd ⊢
    cases dest
    case held v pg => exact hwait v pg hd
    case later v => exact hd
    all_goals
      dsimp -zeta only
      extract_lets s1 bar
      have hs1 : s1.inv := hd
      have hb : bar.inv := by
        dsimp only [bar]
        split
        · exact hs1
        split
        · exact hs1
        · exact State.cmbTo_inv _ _ _ _ _ hs1
      clear_value bar
      cases bar
      case held v pg => exact hwait v pg hb
      case later v => exact hb
      all_goals
        dsimp -zeta only
        extract_lets s2
        have hw := State.cmbWrite_inv s2 o k hr (s2.combine k r hr).1 _ _ hb hd hb
        generalize s2.cmbWrite _ _ _ _ _ _ = w at hw ⊢
        obtain ⟨s3, f⟩ := w
        cases f with
        | none => exact hw
        | some f =>
          dsimp -zeta only
          extract_lets s4 s5
          have h4 : s4.inv := State.hdrUpd_inv s3 o _ hw
          have h5 : s5.inv := State.recUpd_inv s4 _ _ h4
          split
          · split
            · exact ih _ _ h5
            · exact h5
          · exact h4

theorem State.cmbComplete_inv (s : State) (o miss : Nat) (h : s.inv) : (s.cmbComplete o miss).inv := by
  unfold State.cmbComplete
  grind [State.inv, State.hdrPut_inv, State.cmbRelease_inv]

theorem State.cmbDue_inv (s : State) (o : Nat) (h : s.inv) : (s.cmbDue o).inv := by
  unfold State.cmbDue
  grind [State.inv, State.cmbComplete_inv]

theorem execCmbTimeout_inv (slot : Nat) (s : State) (h : s.inv) : outcomeInv (execCmbTimeout slot s) := by
  unfold execCmbTimeout
  grind [State.inv, outcomeInv, State.cmbComplete_inv, State.cmbRelease_inv]

theorem State.cmbLate_inv (s : State) (rec o : Nat) (h : s.inv) : (s.cmbLate rec o).inv := by
  unfold State.cmbLate
  grind [State.inv, State.hdrUpd_inv, State.recUpd_inv]

theorem State.cmbStore_inv (s : State) (r : CmbRec) (o e chunk off : Nat) (bytes : List Byte) (p : Ts) (poison : Bool) (h : s.inv) :
    (s.cmbStore r o e chunk off bytes p poison).1.inv := by
  unfold State.cmbStore
  grind [State.inv, State.cmbComplete_inv, State.hdrUpd_inv, State.devPoison_inv, State.devWrite_inv]

theorem placeAt_inv (x : Ctx) (c : Crew) (s : State) (kind n : Nat) (anywhere : Bool) (va : Nat) (h : s.inv) :
    (placeAt x c s kind n anywhere va).inv := by
  unfold placeAt
  grind [State.inv, CmbPlace.inv, Act.inv, Walked.inv, State.walk_inv, State.fillTlb_inv, State.longService_inv]

theorem placesAt_inv (x : Ctx) (c : Crew) (s : State) (kind n : Nat) (vas : List Nat) (k : State → List Nat → Act) (h : s.inv)
    (hk : ∀ v, v.inv → ∀ l, (k v l).inv) : (placesAt x c s kind n vas k).inv := by
  unfold placesAt
  dsimp only
  generalize hf : vas.foldl _ _ = r
  have hr : placesInv r := by
    rw [← hf]
    exact foldl_keeps placesInv _ _ _ ⟨h, by simp⟩ (by grind [placesInv, CmbPlace.inv, placeAt_inv])
  obtain ⟨hs, ht⟩ := hr
  split
  next t he => exact ht t he
  next he => exact hk _ hs _

theorem atHome_inv (x : Ctx) (c : Crew) (s : State) (write : Bool) (ps : List (Nat × Nat × Nat)) (k : State → Act) (h : s.inv)
    (h_k : ∀ y0, y0.inv → (k y0).inv) : (atHome x c s write ps k).inv := by
  unfold atHome
  grind [State.inv, Act.inv, State.checkRange_inv, State.clearRange_inv, State.foldl_fst_inv]

theorem cmbWord_inv (x : Ctx) (c : Crew) (s : State) (a : Reg) (k : State → Nat → CmbRec → Act) (h : s.inv)
    (h_k : ∀ y0, y0.inv → ∀ y1 y2, (k y0 y1 y2).inv) : (cmbWord x c s a k).inv := by
  unfold cmbWord
  grind [State.inv, Act.inv, atHome_inv, recordAt_inv]

theorem slotWord_inv (x : Ctx) (c : Crew) (s : State) (a : Reg) (r : CmbRec) (slot : Nat) (k : State → Nat → Act) (h : s.inv)
    (h_k : ∀ y0, y0.inv → ∀ y1, (k y0 y1).inv) : (slotWord x c s a r slot k).inv := by
  unfold slotWord
  grind [State.inv, Act.inv, State.cmbDue_inv, atHome_inv, placesAt_inv]

theorem execCmbCfg_inv (hd : Hdr) (a b : Reg) (s : State) (h : s.inv) : outcomeInv (execCmbCfg hd a b s) := by
  unfold execCmbCfg
  refine word_inv _ _ _ _ _ (fun x c v hv => ?_) h
  have hp := placeAt_inv x c v 2 64 true (c.rs b.toNat) hv
  refine recordAt_inv _ _ _ _ _ _ _ hv (fun o => ?_)
  generalize placeAt x c v 2 64 true (c.rs b.toNat) = place at hp ⊢
  obtain ⟨s1, im⟩ | t := place
  · have hq := State.releaseReady_inv s1 x.key .dv hp
    dsimp only
    split
    · exact hq
    refine atHome_inv _ _ _ _ _ _ hq (fun s2 h2 => ?_)
    have hr := State.rangeRead_inv s2 im 64 c.pts false none { s2.finder (keyGid x.key) 8 with va := c.rs b.toNat } h2
    generalize s2.rangeRead im 64 c.pts false none _ = r at hr ⊢
    cases r with
    | later s3 => exact hr
    | ok s3 bs ts po =>
      dsimp only
      split
      · exact hr
      split
      · exact hr
      refine placesAt_inv _ _ _ _ _ _ _ hr (fun s4 h4 os => ?_)
      split
      · exact h4
      · exact State.updCrew_inv _ _ _ (State.devWrite_inv _ _ _ _ _ h4)
  · exact hp

theorem giveBack_inv (core ctr : Nat) (a2 : Act) (h : a2.inv) : (giveBack core ctr a2).inv := by
  unfold giveBack
  grind [State.inv, Act.inv, State.ctrGive_inv]

theorem seekFree_inv (x : Ctx) (c : Crew) (r : CmbRec) (full : State → Act) (k : State → Nat → Nat → Act) (n : Nat) (s : State)
    (hfull : ∀ v, v.inv → (full v).inv) (hk : ∀ v, v.inv → ∀ i o, (k v i o).inv) (h : s.inv) : (seekFree x c r full k n s).inv := by
  induction n generalizing s with
  | zero => exact hfull s h
  | succ n ih =>
    have hp := placeAt_inv x c s 2 1 false (r.slotAt (r.nslots - (n + 1))) h
    unfold seekFree
    grind [State.inv, CmbPlace.inv, Act.inv]

theorem openAct_inv (x : Ctx) (c : Crew) (s : State) (rec : Nat) (r : CmbRec) (desc d ea : Nat) (h : s.inv) :
    (openAct x c s rec r desc d ea).inv := by
  unfold openAct
  grind [State.inv, Act.inv, pendNow_inv, State.updCrew_inv, seekFree_inv, State.hdrPut_inv, State.clearRange_inv, placesAt_inv]

theorem descWord_inv (x : Ctx) (c : Crew) (s : State) (dsp : Bool) (va : Nat) (k : State → Nat → Act) (h : s.inv)
    (h_k : ∀ y0, y0.inv → ∀ y1, (k y0 y1).inv) : (descWord x c s dsp va k).inv := by
  unfold descWord
  grind [State.inv, Act.inv, Dir.inv, checked_inv, State.scrCheck_inv, State.directRead_inv, Dir.foldl_inv]

theorem openWord_inv (x : Ctx) (c : Crew) (s : State) (dsp : Bool) (a b : Reg) (k : State → Nat → Nat → CmbRec → Nat → Act) (h : s.inv)
    (h_k : ∀ y0, y0.inv → ∀ y1 y2, ∀ y3 y4, (k y0 y1 y2 y3 y4).inv) : (openWord x c s dsp a b k).inv := by
  unfold openWord
  grind [State.inv, Act.inv, descWord_inv, atHome_inv, State.releaseReady_inv, recordAt_inv, cmbWord_inv]

theorem execCmbOpen_inv (hd : Hdr) (dsp : Bool) (d a b : Reg) (s : State) (h : s.inv) : outcomeInv (execCmbOpen hd dsp d a b s) := by
  unfold execCmbOpen
  grind [State.inv, Act.inv, CtrTake.inv, outcomeInv, State.nameTake_inv, openWord_inv, giveBack_inv, State.updCrew_inv, word_inv, State.ctrTake_inv,
    openAct_inv]

theorem putAct_inv (x : Ctx) (c : Crew) (s : State) (lt : Bool) (d a : Reg) (token w : Nat) (bytes : List Byte) (h : s.inv) :
    (putAct x c s lt d a token w bytes).inv := by
  unfold putAct
  grind [State.inv, Act.inv, State.cmbStore_inv, State.cmbLate_inv, putDone_inv, State.updCrew_inv, State.clearRange_inv, cmbWord_inv, slotWord_inv,
    placesAt_inv]

theorem execCmbPut_inv (hd : Hdr) (lt : Bool) (d a b r : Reg) (s : State) (h : s.inv) : outcomeInv (execCmbPut hd lt d a b r s) := by
  unfold execCmbPut
  grind [State.inv, Act.inv, outcomeInv, putAct_inv, State.ask_inv, State.updCrew_inv, word_inv, State.releaseReady_inv]

theorem execCmbStat_inv (hd : Hdr) (lates : Bool) (d a : Reg) (b : Opnd) (s : State) (h : s.inv) : outcomeInv (execCmbStat hd lates d a b s) := by
  unfold execCmbStat
  grind [State.inv, Act.inv, outcomeInv, pendNow_inv, word_inv, cmbWord_inv, slotWord_inv]

theorem execCmbClose_inv (hd : Hdr) (d a : Reg) (b : Opnd) (s : State) (h : s.inv) : outcomeInv (execCmbClose hd d a b s) := by
  unfold execCmbClose
  grind [State.inv, Act.inv, outcomeInv, pendNow_inv, State.hdrUpd_inv, word_inv, atHome_inv, State.ctrGive_inv, recordAt_inv, cmbWord_inv,
    slotWord_inv]

theorem State.takeOver_inv (s : State) (o key e : Nat) (c : Crew) (ok : Bool) (h : s.inv) : (s.takeOver o key e c ok).inv := by
  unfold State.takeOver
  grind [State.inv, Act.inv, State.resumeWord_inv, openWord_inv, giveBack_inv, State.updCrew_inv, State.wakeSplit_inv, openAct_inv]

theorem State.nextTakes_inv (s : State) (core o n : Nat) (h : s.inv) : (s.nextTakes core o n).inv := by
  induction n generalizing s with
  | zero => exact h
  | succ n ih =>
    unfold State.nextTakes
    grind [State.inv, State.ctrUse_inv, State.takeOver_inv, State.ctrRefill_inv]

theorem execCtrGrant_inv (o core : Nat) (s : State) (h : s.inv) : outcomeInv (execCtrGrant o core s) := by
  unfold execCtrGrant
  grind [State.inv, outcomeInv, State.takeOver_inv, State.setCtrHome_inv, State.ctrAllow_inv, State.nextTakes_inv, State.ctrUse_inv, State.ctrUpd_inv]

/-! ## Machine/System.lean -/

theorem execCsrr_inv (hd : Hdr) (d : Reg) (num : BitVec 12) (s : State) (h : s.inv) : outcomeInv (execCsrr hd d num s) := by
  unfold execCsrr
  grind [State.inv, Act.inv, outcomeInv, pendNow_inv, word_inv]

theorem csrWrite_inv (i : Instr) (hd : Hdr) (num : BitVec 12) (a : Reg) (f : W64 → W64 → W64) (s : State) (h : s.inv) :
    outcomeInv (csrWrite i hd num a f s) := by
  unfold csrWrite
  grind [State.inv, Act.inv, outcomeInv, State.updCrew_inv, word_inv]

theorem execCsrw_inv (hd : Hdr) (num : BitVec 12) (a : Reg) (s : State) (h : s.inv) : outcomeInv (execCsrw hd num a s) := by
  unfold execCsrw
  grind [State.inv, outcomeInv, csrWrite_inv]

theorem execCsrwSet_inv (hd : Hdr) (num : BitVec 12) (a : Reg) (s : State) (h : s.inv) : outcomeInv (execCsrwSet hd num a s) := by
  unfold execCsrwSet
  grind [State.inv, outcomeInv, csrWrite_inv]

theorem execCsrwClr_inv (hd : Hdr) (num : BitVec 12) (a : Reg) (s : State) (h : s.inv) : outcomeInv (execCsrwClr hd num a s) := by
  unfold execCsrwClr
  grind [State.inv, outcomeInv, csrWrite_inv]

theorem launchDone_inv (x : Ctx) (s : State) (d : Reg) (seq st : Nat) (h : s.inv) : (launchDone x s d seq st).inv := h

theorem execLaunch_inv (hd : Hdr) (d a : Reg) (b : Opnd) (s : State) (h : s.inv) : outcomeInv (execLaunch hd d a b s) := by
  unfold execLaunch
  refine word_inv _ _ _ _ _ (fun x c v hv => ?_) h
  dsimp only
  split
  · exact hv
  split
  · exact hv
  refine checked_inv _ _ _ _ _ _ _ _ _ _ hv (fun locs => ?_)
  split
  · have hr := State.releaseReady_inv v x.key .dv hv
    split
    · exact hr
    split
    · exact launchDone_inv _ _ _ _ _ hr
    split
    · exact launchDone_inv _ _ _ _ _ hr
    refine checked_inv _ _ _ _ _ _ _ _ _ _ hr (fun ring => ?_)
    grind [Dir.inv, Act.inv, State.setQueue_inv, launchDone_inv, State.updCrew_inv, State.directRead_inv, State.directWrite_inv]
  · exact hv

theorem State.startCont_inv (s : State) (lslot key : Nat) (es : List BinEntry) (h : s.inv) : (s.startCont lslot key es).inv := by
  unfold State.startCont
  grind [State.inv, State.setLaunch_inv]

theorem State.emptyBin_inv (s : State) (lslot key : Nat) (h : s.inv) : (s.emptyBin lslot key).inv := by
  unfold State.emptyBin
  grind [State.inv, State.setLaunch_inv, State.startCont_inv]

theorem State.binPut_inv (s : State) (lslot : Nat) (e : BinEntry) (p : Ts) (h : s.inv) : (s.binPut lslot e p).1.inv := by
  have hfind := @State.engRange_inv
  unfold State.binPut
  obtain ⟨find, hf⟩ : ∃ f, f = @State.engRange := ⟨_, rfl⟩ -- a name keeps the kernel from computing the range
  rw [← hf] at hfind ⊢
  clear hf
  grind [EngR.inv, Dir.inv, State.setLaunch_inv, State.piecesWrite_inv]

theorem State.binAsk_inv (s : State) (lslot va : Nat) (h : s.inv) : (s.binAsk lslot va).inv := by
  unfold State.binAsk
  grind [State.inv, EngR.inv, State.piecesReady_inv, State.engRange_inv]

theorem State.deposit_inv (s : State) (lslot : Nat) (e : BinEntry) (p : Ts) (h : s.inv) : (s.deposit lslot e p).1.inv := by
  unfold State.deposit
  grind [State.inv, State.emptyBin_inv, State.binPut_inv]

theorem State.deposits_inv (s : State) (put : State → BinEntry → State × Option Nat) (es : List BinEntry) (h : s.inv)
    (h_put : ∀ y0, y0.inv → ∀ y1, (put y0 y1).1.inv) : (s.deposits put es).1.inv := by
  unfold State.deposits
  grind [State.inv, State.foldl_fst_inv]

theorem execReord_inv (hd : Hdr) (a b : Reg) (s : State) (h : s.inv) : outcomeInv (execReord hd a b s) := by
  unfold execReord
  grind [State.inv, Act.inv, outcomeInv, State.killLaunch_inv, State.binPut_inv, State.deposits_inv, State.binAsk_inv, endSome_inv, word_inv,
    State.deposit_inv, State.releaseReady_inv]

theorem idemWord_inv (x : Ctx) (c : Crew) (s : State) (i : Instr) (ending : Bool) (h : s.inv) : (idemWord x c s i ending).inv := by
  unfold idemWord
  grind [State.inv, Act.inv, State.updCrew_inv, impArrive_inv, State.releaseReady_inv]

theorem execIdemBegin_inv (hd : Hdr) (s : State) (h : s.inv) : outcomeInv (execIdemBegin hd s) := by
  unfold execIdemBegin
  grind [State.inv, Act.inv, outcomeInv, idemWord_inv, word_inv]

theorem execIdemEnd_inv (hd : Hdr) (s : State) (h : s.inv) : outcomeInv (execIdemEnd hd s) := by
  unfold execIdemEnd
  grind [State.inv, Act.inv, outcomeInv, idemWord_inv, word_inv]

theorem execSleep_inv (hd : Hdr) (b : Opnd) (s : State) (h : s.inv) : outcomeInv (execSleep hd b s) := by
  unfold execSleep
  grind [State.inv, Act.inv, outcomeInv, State.setCrew_inv, State.markIssued_inv, word_inv]

theorem execClkr_inv (hd : Hdr) (k : BitVec 2) (d : Reg) (s : State) (h : s.inv) : outcomeInv (execClkr hd k d s) := by
  unfold execClkr
  grind [State.inv, Act.inv, outcomeInv, pendNow_inv, fullWord_some_inv, State.updMgmt_inv]

theorem execSleepExpiry_inv (w : Waiter) (s : State) (h : s.inv) : outcomeInv (execSleepExpiry w s) := by
  unfold execSleepExpiry
  grind [State.inv, outcomeInv, State.updCrew_inv]

theorem execLdpAttempt_inv (w : Waiter) (s : State) (h : s.inv) : outcomeInv (execLdpAttempt w s) := by
  unfold execLdpAttempt
  grind [State.inv, Act.inv, outcomeInv, State.updCrew_inv, State.updMgmt_inv]

/-! ## Machine/Handler.lean -/

theorem served_inv (k : Nat) (s : State) (f : Nat → Crew → Trap → Act) (h : s.inv) (h_f : ∀ y0 y1 y2, (f y0 y1 y2).inv) : (served k s f).inv := by
  unfold served
  grind [State.inv, Act.inv]

theorem execHwinR_inv (hd : Hdr) (d : Reg) (item : ItemRef) (s : State) (h : s.inv) : outcomeInv (execHwinR hd d item s) := by
  unfold execHwinR
  grind [State.inv, Act.inv, outcomeInv, refusedWord_some_inv, served_inv, State.updMgmt_inv]

theorem execHwinW_inv (hd : Hdr) (a : Reg) (item : ItemRef) (s : State) (h : s.inv) : outcomeInv (execHwinW hd a item s) := by
  unfold execHwinW
  grind [State.inv, Act.inv, outcomeInv, refusedWord_some_inv, State.setCrew_inv, served_inv]

theorem execHresume_inv (hd : Hdr) (s : State) (h : s.inv) : outcomeInv (execHresume hd s) := by
  unfold execHresume
  grind [State.inv, Act.inv, outcomeInv, refusedWord_some_inv, served_inv, State.resumeCrew_inv]

theorem execHkill_inv (hd : Hdr) (all : Bool) (s : State) (h : s.inv) : outcomeInv (execHkill hd all s) := by
  unfold execHkill
  grind [State.inv, Act.inv, outcomeInv, refusedWord_some_inv, State.killLaunch_inv, State.leaveTrap_inv, State.endLanes_inv, State.exitReady_inv,
    served_inv, State.updMgmt_inv]

theorem State.holdTrapped_inv (s : State) (gid idx detail : Nat) (h : s.inv) : (s.holdTrapped gid idx detail).inv := by
  unfold State.holdTrapped
  grind [State.inv, State.updGang_inv, State.foldl_inv]

theorem execHret_inv (hd : Hdr) (s : State) (h : s.inv) : outcomeInv (execHret hd s) := by
  unfold execHret
  grind [State.inv, Act.inv, outcomeInv, refusedWord_some_inv, State.leaveTrap_inv, served_inv, State.updMgmt_inv, State.holdTrapped_inv]

theorem execTrapDelivery_inv (cluster : Nat) (s : State) (h : s.inv) : outcomeInv (execTrapDelivery cluster s) := by
  unfold execTrapDelivery
  grind [State.inv, outcomeInv, State.setCrew_inv, State.updCluster_inv]

theorem execWatchdogExpiry_inv (cluster : Nat) (s : State) (h : s.inv) : outcomeInv (execWatchdogExpiry cluster s) := by
  unfold execWatchdogExpiry
  grind [State.inv, outcomeInv, State.escalate_inv]

end Sys2Proof.Machine
end

section
/-! SUPPORT. O60: device memory stays canonical in tiles, matrices, slices, the homes and the fabric:
one lemma per function of the model, from those of the functions that it calls. -/

namespace Sys2Proof.Machine

set_option Elab.async false -- one proof at a time: the threads of many at once take too much memory

/-! ## Machine/Tiles.lean -/

theorem State.setTile_inv (s : State) (gid : Nat) (t : TRef) (a : TileArr) (h : s.inv) : (s.setTile gid t a).inv := h

theorem State.freshTile_inv (s : State) (gid : Nat) (t : TRef) (act : Mask) (h : s.inv) : (s.freshTile gid t act).inv := by
  unfold State.freshTile
  grind [State.inv, State.updGang_inv]

theorem tileAct_inv (x : Ctx) (c : Crew) (s : State) (i : Instr) (reads : List Nat) (writes : List Nat) (f : List TRef → Act) (h : s.inv)
    (h_f : ∀ y0, (f y0).inv) : (tileAct x c s i reads writes f).inv := by
  unfold tileAct
  grind [State.inv, Act.inv]

theorem tileDone_inv (x : Ctx) (s : State) (t : TRef) (a : TileArr) (fl : Flags) (h : s.inv) : (tileDone x s t a fl).inv := by
  unfold tileDone
  grind [State.inv, Act.inv, State.updCrew_inv, State.setTile_inv, State.freshTile_inv]

theorem execTcfg_inv (hd : Hdr) (d a : Reg) (s : State) (h : s.inv) : outcomeInv (execTcfg hd d a s) := by
  unfold execTcfg
  grind [State.inv, Act.inv, outcomeInv, State.updCrew_inv, word_inv]

theorem execTcfgr_inv (hd : Hdr) (d a : Reg) (s : State) (h : s.inv) : outcomeInv (execTcfgr hd d a s) := by
  unfold execTcfgr
  grind [State.inv, Act.inv, outcomeInv, pendNow_inv, word_inv]

theorem execTzero_inv (hd : Hdr) (d : Reg) (s : State) (h : s.inv) : outcomeInv (execTzero hd d s) := by
  unfold execTzero
  grind [State.inv, Act.inv, outcomeInv, tileAct_inv, tileDone_inv, word_inv]

theorem execTmov_inv (hd : Hdr) (d a : Reg) (s : State) (h : s.inv) : outcomeInv (execTmov hd d a s) := by
  unfold execTmov
  grind [State.inv, Act.inv, outcomeInv, tileAct_inv, tileDone_inv, word_inv]

theorem State.grantMatrix_inv (s : State) (core pipe cycles : Nat) (h : s.inv) : (s.grantMatrix core pipe cycles).inv := h

theorem State.wantMatrix_inv (s : State) (core pipe : Nat) (h : s.inv) : (s.wantMatrix core pipe).inv := h

theorem matrixAct_inv (c : Crew) (s : State) (cycles : Nat) (f : State → Act) (h : s.inv) (h_f : ∀ y0, y0.inv → (f y0).inv) :
    (matrixAct c s cycles f).inv := by
  unfold matrixAct
  grind [State.inv, Act.inv, State.wantMatrix_inv, State.grantMatrix_inv]

theorem execMtr_inv (hd : Hdr) (d a : Reg) (s : State) (h : s.inv) : outcomeInv (execMtr hd d a s) := by
  unfold execMtr
  grind [State.inv, Act.inv, outcomeInv, tileAct_inv, tileDone_inv, State.updCrew_inv, word_inv, matrixAct_inv]

theorem execTv2t_inv (hd : Hdr) (nreg : BitVec 2) (d a : Reg) (b : Opnd) (s : State) (h : s.inv) : outcomeInv (execTv2t hd nreg d a b s) := by
  unfold execTv2t
  grind [State.inv, Act.inv, outcomeInv, tileAct_inv, State.setTile_inv, word_inv]

theorem histAt_inv (x : Ctx) (c : Crew) (s : State) (va : Nat) (k : List Nat → Act) (h : s.inv) (h_k : ∀ y0, (k y0).inv) :
    (histAt x c s va k).inv := by
  unfold histAt
  grind [State.inv, Act.inv, checked_inv]

theorem State.unitsClean_inv (s : State) (core : Nat) (lines : List Nat) (h : s.inv) : (s.unitsClean core lines).1.inv := by
  unfold State.unitsClean
  grind [State.inv, State.publishLine_inv, State.foldl_inv, State.foldl_fst_inv]

theorem countsAfter_inv (x : Ctx) (c : Crew) (s : State) (ps : List Nat) (cs : List (Nat × Nat)) (h : s.inv) : (countsAfter x c s ps cs).inv := by
  unfold countsAfter
  grind [State.inv, Act.inv, sendCounts_inv, State.updCrew_inv]

theorem histThen_inv (x : Ctx) (c : Crew) (s : State) (va : Nat) (bins : Int → List Nat) (data : State → Act) (h : s.inv)
    (h_data : ∀ y0, y0.inv → (data y0).inv) : (histThen x c s va bins data).inv := by
  unfold histThen
  grind [State.inv, Act.inv, Dir.inv, countsAfter_inv, State.unitsClean_inv, State.directRead_inv, histAt_inv]

theorem execHist_inv (hd : Hdr) (a b : Reg) (s : State) (h : s.inv) : outcomeInv (execHist hd a b s) := by
  unfold execHist
  grind [State.inv, Act.inv, outcomeInv, tileAct_inv, histThen_inv, word_inv]

theorem execTt2v_inv (hd : Hdr) (nreg : BitVec 2) (hs : Bool) (d a : Reg) (b : Opnd) (s : State) (h : s.inv) :
    outcomeInv (execTt2v hd nreg hs d a b s) := by
  unfold execTt2v
  grind [State.inv, Act.inv, outcomeInv, tileAct_inv, pendNow_inv, histThen_inv, word_inv]

theorem execTld_inv (hd : Hdr) (scope : Scope) (order : Order) (space : Space) (zf : Bool) (d a b : Reg) (s : State) (h : s.inv) :
    outcomeInv (execTld hd scope order space zf d a b s) := by
  unfold execTld
  grind [State.inv, Act.inv, Loaded.inv, outcomeInv, tileAct_inv, checked_inv, State.load_inv, State.updCrew_inv, State.setTile_inv, word_inv]

theorem execTst_inv (hd : Hdr) (scope : Scope) (order : Order) (space : Space) (hs : Bool) (d a b : Reg) (s : State) (h : s.inv) :
    outcomeInv (execTst hd scope order space hs d a b s) := by
  unfold execTst
  grind [State.inv, Act.inv, outcomeInv, tileAct_inv, checked_inv, histThen_inv, word_inv, storeAct_inv]

/-! ## Machine/Matrix.lean -/

theorem fmtWord_inv (x : Ctx) (c : Crew) (s : State) (r : Reg) (f : Nat → Act) (h : s.inv) (h_f : ∀ y0, (f y0).inv) : (fmtWord x c s r f).inv := by
  unfold fmtWord
  grind [State.inv, Act.inv]

theorem lateReads_inv (x : Ctx) (c : Crew) (s : State) (us : List Span1) (free : Bool) (k : Act) (h : s.inv) (h_k : k.inv) :
    (lateReads x c s us free k).inv := by
  unfold lateReads
  grind [State.inv, Act.inv]

theorem mmaAct_inv (x : Ctx) (c : Crew) (s : State) (i : Instr) (nsel : BitVec 2) (msk zc : Bool) (mq : BitVec 4) (scl : BitVec 3)
    (d a b w k : Nat) (h : s.inv) : (mmaAct x c s i nsel msk zc mq scl d a b w k).inv := by
  delta mmaAct
  extract_lets ill ty cty n gb gd bs ds q
  split
  · exact h
  split
  · extract_lets shape apart fits dx g
    split
    · exact h
    split
    · exact h
    refine matrixAct_inv _ _ _ _ h (fun v hv => State.updCrew_inv _ _ _ (State.foldl_inv _ _ _ hv (fun v t hv => ?_)))
    exact State.setTile_inv v _ t.1 t.2 hv
  · exact h

theorem execMma_inv (hd : Hdr) (nsel : BitVec 2) (msk zc : Bool) (mq : BitVec 4) (scl : BitVec 3) (d a b r : Reg) (s : State) (h : s.inv) :
    outcomeInv (execMma hd nsel msk zc mq scl d a b r s) := by
  unfold execMma
  grind [State.inv, Act.inv, outcomeInv, fmtWord_inv, mmaAct_inv, word_inv, lateReads_inv]

theorem cvtTiles_inv (x : Ctx) (c : Crew) (s : State) (i : Instr) (d a r : Reg) (scales : Nat → List Span1) (ok : Nat → Bool)
    (f : Nat → TRef → TRef → Act) (h : s.inv) (h_f : ∀ y0 y1 y2, (f y0 y1 y2).inv) : (cvtTiles x c s i d a r scales ok f).inv := by
  unfold cvtTiles
  grind [State.inv, Act.inv, fmtWord_inv, lateReads_inv]

theorem execTquant_inv (hd : Hdr) (soff : BitVec 2) (d a b r : Reg) (s : State) (h : s.inv) : outcomeInv (execTquant hd soff d a b r s) := by
  unfold execTquant
  grind [State.inv, Act.inv, outcomeInv, tileDone_inv, pendNow_inv, cvtTiles_inv, word_inv]

theorem execTcvt_inv (hd : Hdr) (soff : BitVec 2) (d a b r : Reg) (s : State) (h : s.inv) : outcomeInv (execTcvt hd soff d a b r s) := by
  unfold execTcvt
  grind [State.inv, Act.inv, outcomeInv, tileDone_inv, cvtTiles_inv, word_inv]

theorem execTred_inv (hd : Hdr) (op : BitVec 4) (rnd : Rnd) (d a : Reg) (b : Opnd) (s : State) (h : s.inv) :
    outcomeInv (execTred hd op rnd d a b s) := by
  unfold execTred
  grind [State.inv, Act.inv, outcomeInv, tileAct_inv, pendNow_inv, State.updCrew_inv, word_inv]

theorem execTadd_inv (hd : Hdr) (op : BitVec 4) (rnd : Rnd) (sat : Bool) (d a b : Reg) (s : State) (h : s.inv) :
    outcomeInv (execTadd hd op rnd sat d a b s) := by
  unfold execTadd
  grind [State.inv, Act.inv, outcomeInv, tileAct_inv, tileDone_inv, word_inv]

theorem execTmulv_inv (hd : Hdr) (colm : Bool) (rnd : Rnd) (sat : Bool) (d a b r : Reg) (s : State) (h : s.inv) :
    outcomeInv (execTmulv hd colm rnd sat d a b r s) := by
  unfold execTmulv
  grind [State.inv, Act.inv, outcomeInv, tileAct_inv, tileDone_inv, word_inv, lateReads_inv]

/-! ## Machine/Slices.lean -/

theorem sliceWord_inv (i : Instr) (hd : Hdr) (f : PBody) (s : State) (h : ∀ gid g u v, v.inv → (f gid g u v).inv) (h_s : s.inv) :
    outcomeInv (sliceWord i hd f s) := by
  unfold sliceWord
  grind [State.inv, outcomeInv, refusedWord_none_inv]

theorem State.setPump_inv (s : State) (gid : Nat) (p : Pump) (h : s.inv) : (s.setPump gid p).inv := h

theorem State.pumpDone_inv (s : State) (gid : Nat) (p : Pump) (pc : Nat) (h : s.inv) : (s.pumpDone gid p pc).inv := h

theorem State.pumpNext_inv (s : State) (gid : Nat) (p : Pump) (h : s.inv) : (s.pumpNext gid p).inv := h

theorem State.pumpLater_inv (s : State) (gid : Nat) (h : s.inv) : (s.pumpLater gid).inv := h

theorem State.pumpWait_inv (s : State) (gid : Nat) (i : Instr) (w : Wait) (h : s.inv) : (s.pumpWait gid i w).inv := h

theorem State.findLoop_inv (s : State) (gid : Nat) (g : Gang) (p : Pump) (back : Bool) (n va depth : Nat) (h : s.inv) :
    (s.findLoop gid g p back n va depth).inv := by
  induction n generalizing va depth with
  | zero => trivial
  | succ n ih =>
    have hf := State.fetchWord_inv s (.core g.core) (.pump gid) (s.gangAsid gid) va p.walks false h
    unfold State.findLoop
    grind [State.inv, Found.inv, Fetched.inv]

theorem State.withFound_inv (s : State) (gid : Nat) (i : Instr) (r : Found) (f : Nat → State) (h : s.inv) (h_r : r.inv) (h_f : ∀ y0, (f y0).inv) :
    (s.withFound gid i r f).inv := by
  unfold State.withFound
  grind [State.inv, Found.inv, State.pumpLater_inv, State.pumpTrap_inv, State.pumpIll_inv, State.longService_inv]

theorem execAxLoop_inv (hd : Hdr) (p : Bool) (n : BitVec 16) (s : State) (h : s.inv) : outcomeInv (execAxLoop hd p n s) := by
  unfold execAxLoop
  grind [State.inv, Act.inv, Found.inv, outcomeInv, State.withFound_inv, sliceWord_inv, State.pumpDone_inv, State.pumpTrap_inv, State.findLoop_inv,
    State.pumpNext_inv, State.pumpIll_inv]

theorem execAxEnd_inv (hd : Hdr) (s : State) (h : s.inv) : outcomeInv (execAxEnd hd s) := by
  unfold execAxEnd
  grind [State.inv, Act.inv, Found.inv, outcomeInv, State.withFound_inv, sliceWord_inv, State.pumpDone_inv, State.findLoop_inv, State.pumpNext_inv,
    State.pumpIll_inv]

theorem execAxBase_inv (hd : Hdr) (d : Reg) (k : BitVec 2) (off : BitVec 12) (s : State) (h : s.inv) : outcomeInv (execAxBase hd d k off s) := by
  unfold execAxBase
  grind [State.inv, Act.inv, outcomeInv, sliceWord_inv, State.pumpTrap_inv, State.pumpNext_inv]

theorem execAxStrd_inv (hd : Hdr) (p : Bool) (d : Reg) (l : BitVec 2) (imm : BitVec 16) (s : State) (h : s.inv) :
    outcomeInv (execAxStrd hd p d l imm s) := by
  unfold execAxStrd
  grind [State.inv, Act.inv, outcomeInv, sliceWord_inv, State.pumpTrap_inv, State.pumpNext_inv]

theorem State.pumpReads_inv (s : State) (gid : Nat) (g : Gang) (p : Pump) (n : Nat) (vas : List Nat) (h : s.inv) :
    (s.pumpReads gid g p n vas).inv := by
  unfold State.pumpReads
  grind [State.inv, Dir.inv, PumpRead.inv, State.pumpLater_inv, State.askWalk_inv, State.pumpTrap_inv, State.directRead_inv, State.longService_inv,
    PumpRead.foldl_inv]

theorem execAxLd_inv (hd : Hdr) (d a : Reg) (s : State) (h : s.inv) : outcomeInv (execAxLd hd d a s) := by
  unfold execAxLd
  grind [State.inv, Act.inv, PumpRead.inv, outcomeInv, State.pumpWait_inv, State.setWell_inv, sliceWord_inv, State.scrPut_inv, State.releaseFloor_inv,
    State.pumpTrap_inv, State.pumpReads_inv, State.pumpNext_inv]

theorem State.pumpHalt_inv (s : State) (gid : Nat) (h : s.inv) : (s.pumpHalt gid).inv := h

theorem State.pumpTile_inv (s : State) (gid : Nat) (g : Gang) (u : Pump) (t : TRef) (base sb : Nat) (h : s.inv) :
    (∀ w0, (s.pumpTile gid g u t base sb) = .error w0 → w0.inv) ∧ (∀ w0, (s.pumpTile gid g u t base sb) = .ok w0 → w0.inv) := by
  unfold State.pumpTile
  grind [State.inv, PumpRead.inv, State.pumpReads_inv, State.setTile_inv, State.freshTile_inv]

theorem execAxLdt_inv (hd : Hdr) (d a b c : Reg) (s : State) (h : s.inv) : outcomeInv (execAxLdt hd d a b c s) := by
  unfold execAxLdt
  refine sliceWord_inv _ _ _ _ (fun gid g u v hv => ?_) h
  have hpump := @State.pumpTile_inv
  obtain ⟨tile, hf⟩ : ∃ f, f = @State.pumpTile := ⟨_, rfl⟩ -- a name keeps the kernel from computing the tile's elements
  rw [← hf] at hpump ⊢
  clear hf
  grind [State.pumpWait_inv, State.setWell_inv, State.pumpHalt_inv, State.releaseFloor_inv, State.pumpTrap_inv, State.pumpNext_inv,
    State.setPump_inv]

theorem execAxSig_inv (hd : Hdr) (off : BitVec 16) (s : State) (h : s.inv) : outcomeInv (execAxSig hd off s) := by
  unfold execAxSig
  grind [State.inv, Act.inv, BarOut.inv, outcomeInv, State.pumpLater_inv, State.pumpWait_inv, sliceWord_inv, State.pumpArrive_inv,
    State.releaseFloor_inv, State.pumpTrap_inv, State.scrCheck_inv, State.pumpRetire_inv]

theorem execAxHalt_inv (hd : Hdr) (s : State) (h : s.inv) : outcomeInv (execAxHalt hd s) := by
  unfold execAxHalt
  grind [State.inv, Act.inv, outcomeInv, sliceWord_inv, State.pumpHalt_inv]

theorem execIllegalEncoding_inv (w : W64) (s : State) (h : s.inv) : outcomeInv (execIllegalEncoding w s) := by
  unfold execIllegalEncoding
  grind [State.inv, Act.inv, outcomeInv, State.setCrew_inv, State.escalate_inv, State.pumpTrap_inv, State.finish_inv]

theorem execFetchFault_inv (va : W64) (tail : Bool) (s : State) (h : s.inv) : outcomeInv (execFetchFault va tail s) := by
  unfold execFetchFault
  grind [State.inv, Act.inv, outcomeInv, State.escalate_inv, State.pumpTrap_inv, State.finish_inv]

/-! ## Machine/Homes.lean -/

theorem State.putPkt_inv (s : State) (id : Nat) (p : Pkt) (h : s.inv) : (s.putPkt id p).inv := h

theorem State.dropPkt_inv (s : State) (id : Nat) (h : s.inv) : (s.dropPkt id).inv := h

theorem State.reply_inv (s : State) (id : Nat) (p : Pkt) (h : s.inv) : (s.reply id p).inv := h

theorem State.meetNarrow_inv (s : State) (id : Nat) (p : Pkt) (write : Bool) (h : s.inv) : (s.meetNarrow id p write).1.inv := by
  unfold State.meetNarrow
  grind [State.inv, State.missBits_inv, State.sendRecall_inv, State.foldl_inv]

theorem State.relStamp_inv (s : State) (d : Dest) (line : Nat) (h : s.inv) : (s.relStamp d line).inv := by
  unfold State.relStamp
  grind [State.inv, State.setFarAgent_inv, State.updSlice_inv]

theorem State.awaitWbs_inv (s : State) (id : Nat) (p : Pkt) (h : s.inv) : (s.awaitWbs id p).1.inv := by
  unfold State.awaitWbs
  grind [State.inv, State.relStamp_inv]

theorem State.meet_inv (s : State) (id : Nat) (p : Pkt) (write : Bool) (offs : List Nat) (h : s.inv) : (s.meet id p write offs).1.inv := by
  unfold State.meet
  grind [State.inv, State.awaitWbs_inv, State.meetNarrow_inv, State.ctrSyncRange_inv, State.askHard_inv, State.foldl_fst_inv]

theorem State.farReady_inv (s : State) (p : Pkt) (own : Bool) (bs : List Nat) (h : s.inv) : (s.farReady p own bs).1.inv := by
  unfold State.farReady
  grind [State.inv, State.askFarFor_inv, State.foldl_fst_inv]

theorem State.farRenew_inv (s : State) (a : Nat) (secs : List Nat) (p : Ts) (acc : Ts × Ts) (h : s.inv) : (s.farRenew a secs p acc).1.inv := by
  unfold State.farRenew
  grind [State.inv, State.setFarAgent_inv]

theorem State.serveFarRenew_inv (s : State) (id : Nat) (p : Pkt) (w : Option Ts) (h : s.inv) : (s.serveFarRenew id p w).inv := by
  unfold State.serveFarRenew
  repeat' split
  all_goals grind [State.inv, State.setFarAgent_inv, State.reply_inv, State.farRenew_inv, State.dropFar_inv, State.farReady_inv, State.foldl_inv,
    State.foldl_fst_inv]

theorem State.farWrite_inv (s : State) (line : Nat) (bs : LineBytes) (p : Ts) (h : s.inv) : (s.farWrite line bs p).1.inv := by
  unfold State.farWrite
  grind [State.inv, State.farPut_inv, State.foldl_fst_inv]

theorem State.farKeep_inv (s : State) (line : Nat) (offs : List Nat) (p : Ts) (h : s.inv) : (s.farKeep line offs p).inv := by
  unfold State.farKeep
  grind [State.inv, State.farRenew_inv, State.foldl_inv]

theorem State.askPool_inv (s : State) (id : Nat) (p : Pkt) (what : Nat) (bytes : List Byte) (h : s.inv) : (s.askPool id p what bytes).inv := by
  unfold State.askPool
  grind [State.inv, State.ask_inv]

theorem State.poolClock_inv (s : State) (line : Nat) (p : Ts) (h : s.inv) : (s.poolClock line p).1.inv := by
  unfold State.poolClock
  grind [State.inv, State.setFarAgent_inv]

theorem execHomeRenew_inv (id : Nat) (s : State) (h : s.inv) : outcomeInv (execHomeRenew id s) := by
  unfold execHomeRenew
  split <;> grind [State.inv, outcomeInv, State.reply_inv, State.updSlice_inv, State.homeRenew_inv, State.serveFarRenew_inv, State.meet_inv]

theorem State.serveWrite_inv (s : State) (id : Nat) (p : Pkt) (wb : Bool) (h : s.inv) : (s.serveWrite id p wb).inv := by
  unfold State.serveWrite
  grind [State.inv, State.reply_inv, State.homeWrite_inv, State.farWrite_inv, State.poolClock_inv, State.setNht_inv, State.meet_inv,
    State.farReady_inv, State.askPool_inv]

theorem execHomeWrite_inv (id : Nat) (s : State) (h : s.inv) : outcomeInv (execHomeWrite id s) := by
  unfold execHomeWrite
  grind [State.inv, outcomeInv, State.serveWrite_inv]

theorem execHomeWb_inv (id : Nat) (s : State) (h : s.inv) : outcomeInv (execHomeWb id s) := by
  unfold execHomeWb
  grind [State.inv, outcomeInv, State.serveWrite_inv]

theorem execHomeAtom_inv (id : Nat) (s : State) (h : s.inv) : outcomeInv (execHomeAtom id s) := by
  unfold execHomeAtom
  grind [State.inv, outcomeInv, State.reply_inv, State.farWrite_inv, State.poolClock_inv, State.farKeep_inv, State.homeAtom_inv, State.meet_inv,
    State.farReady_inv, State.askPool_inv]

theorem execHomeHold_inv (id : Nat) (s : State) (h : s.inv) : outcomeInv (execHomeHold id s) := by
  unfold execHomeHold
  grind [State.inv, outcomeInv, State.dropPkt_inv, State.setNht_inv, State.sendRecall_inv]

theorem State.forkTo_inv (s : State) (p : Pkt) (ids : List Nat) (place : Place) (h : s.inv) : (s.forkTo p ids place).inv := by
  unfold State.forkTo
  grind [State.inv, State.dropPkt_inv, State.send_inv, State.foldl_inv]

theorem State.forkRest_inv (s : State) (p : Pkt) (h : s.inv) : (s.forkRest p).inv := by
  unfold State.forkRest
  grind [State.inv, State.forkTo_inv, State.foldl_inv]

theorem State.noteReply_inv (s : State) (u : Agent) (line : Nat) (h : s.inv) : (s.noteReply u line).inv := by
  unfold State.noteReply
  grind [State.inv]

theorem State.armHold_inv (s : State) (u : Agent) (line : Nat) (h : s.inv) : (s.armHold u line).inv := by
  unfold State.armHold
  grind [State.inv, State.setSpan_inv]

theorem State.makeRoom_inv (s : State) (u : Agent) (line : Nat) (h : s.inv) : (s.makeRoom u line).inv := by
  unfold State.makeRoom
  grind [State.inv, State.dropSpan_inv, State.foldl_inv]

theorem State.putData_inv (s : State) (u : Agent) (p : Pkt) (bytes : Cells 8) (w r : Ts) (poison : List Nat) (h : s.inv) :
    (s.putData u p bytes w r poison).inv := by
  unfold State.putData
  grind [State.inv, State.makeRoom_inv, State.install_inv]

theorem State.dataAt_inv (s : State) (p : Pkt) (w r : Ts) (h : s.inv) : (s.dataAt p w r).inv := by
  unfold State.dataAt
  grind [State.inv, State.putData_inv]

theorem execData_inv (id : Nat) (s : State) (h : s.inv) : outcomeInv (execData id s) := by
  unfold execData
  grind [State.inv, outcomeInv, State.dropPkt_inv, State.forkRest_inv, State.dataAt_inv, State.armHold_inv, State.noteReply_inv]

theorem State.extAt_inv (s : State) (p : Pkt) (r : Ts) (h : s.inv) : (s.extAt p r).inv := by
  unfold State.extAt
  grind [State.inv, State.setSpan_inv, State.unask_inv, State.putData_inv, State.extend_inv]

theorem execExt_inv (id : Nat) (s : State) (h : s.inv) : outcomeInv (execExt id s) := by
  unfold execExt
  grind [State.inv, outcomeInv, State.dropPkt_inv, State.forkRest_inv, State.armHold_inv, State.noteReply_inv, State.extAt_inv]

theorem State.cleaned_inv (s : State) (u : Agent) (line pkt : Nat) (h : s.inv) : (s.cleaned u line pkt).inv := by
  unfold State.cleaned
  grind [State.inv, State.setSpan_inv, State.dropSpan_inv, State.forgetClean_inv, State.foldl_inv]

theorem State.ackAt_inv (s : State) (p : Pkt) (w : Ts) (h : s.inv) : (s.ackAt p w).inv := by
  unfold State.ackAt
  grind [State.inv, State.setCrew_inv, State.replyTo_inv, State.mergeAck_inv, State.cleaned_inv]

theorem execAck_inv (id : Nat) (s : State) (h : s.inv) : outcomeInv (execAck id s) := by
  unfold execAck
  grind [State.inv, outcomeInv, State.dropPkt_inv, State.ackAt_inv]

theorem execRecall_inv (id : Nat) (s : State) (h : s.inv) : outcomeInv (execRecall id s) := by
  unfold execRecall
  grind [State.inv, outcomeInv, State.dropPkt_inv, State.setSpan_inv, State.publishLine_inv, State.publishCrew_inv, State.send_inv]

/-! ## Machine/Fabric.lean -/

theorem State.absorb_inv (s : State) (id : Nat) (p : Pkt) (w : Option Ts) (die x y : Nat) (h : s.inv) : (s.absorb id p w die x y).1.inv := by
  unfold State.absorb
  grind [State.inv]

theorem State.fork_inv (s : State) (p : Pkt) (die x y : Nat) (h : s.inv) : (s.fork p die x y).inv := by
  unfold State.fork
  grind [State.inv, State.forkTo_inv, State.foldl_inv]

theorem State.clusterAsks_inv (s : State) (id : Nat) (p : Pkt) (h : s.inv) : (s.clusterAsks id p).1.inv := by
  unfold State.clusterAsks
  grind [State.inv, State.setSpan_inv]

theorem execRouterPacket_inv (id : Nat) (s : State) (h : s.inv) : outcomeInv (execRouterPacket id s) := by
  unfold execRouterPacket
  grind [State.inv, outcomeInv, State.dropPkt_inv, State.putPkt_inv, State.absorb_inv, State.clusterAsks_inv, State.send_inv, State.fork_inv]

theorem execBridgePacket_inv (id : Nat) (s : State) (h : s.inv) : outcomeInv (execBridgePacket id s) := by
  unfold execBridgePacket
  grind [State.inv, outcomeInv, State.putPkt_inv, State.setChan_inv]

theorem State.chanDown_inv (s : State) (cd hd c : Nat) (h : s.inv) : (s.chanDown cd hd c).inv := h

theorem execFlitError_inv (cd hd c : Nat) (s : State) (h : s.inv) : outcomeInv (execFlitError cd hd c s) := by
  unfold execFlitError
  grind [State.inv, outcomeInv, State.setChan_inv]

theorem execRetrainTimeout_inv (cd hd c : Nat) (s : State) (h : s.inv) : outcomeInv (execRetrainTimeout cd hd c s) := by
  unfold execRetrainTimeout
  grind [State.inv, outcomeInv, State.chanDown_inv]

theorem execRetrainDone_inv (cd hd c : Nat) (s : State) (h : s.inv) : outcomeInv (execRetrainDone cd hd c s) := by
  unfold execRetrainDone
  grind [State.inv, outcomeInv, State.setChan_inv]

theorem execPacketCrcError_inv (id : Nat) (s : State) (h : s.inv) : outcomeInv (execPacketCrcError id s) := by
  unfold execPacketCrcError
  grind [State.inv, outcomeInv, State.chanDown_inv]

theorem execMirrorWrite_inv (id : Nat) (s : State) (h : s.inv) : outcomeInv (execMirrorWrite id s) := by
  unfold execMirrorWrite
  grind [State.inv, outcomeInv, State.putPkt_inv, State.updSlice_inv]

theorem execClockReconcile_inv (s : State) (h : s.inv) : outcomeInv (execClockReconcile s) := by
  unfold execClockReconcile
  grind [State.inv, outcomeInv]

theorem State.sweepUnit_inv (s : State) (t : Ts) (u : Agent) (h : s.inv) : (s.sweepUnit t u).inv := by
  unfold State.sweepUnit
  grind [State.inv, State.setSpan_inv, State.publishLine_inv, State.dropSpan_inv, State.foldl_inv]

theorem State.sweepAll_inv (s : State) (t : Ts) (h : s.inv) : (s.sweepAll t).inv := by
  unfold State.sweepAll
  grind [State.inv, State.updSlice_inv, State.sweepUnit_inv, State.updCore_inv, State.updCluster_inv, State.foldl_inv]

theorem execRolloverSweep_inv (s : State) (h : s.inv) : outcomeInv (execRolloverSweep s) := by
  unfold execRolloverSweep
  grind [State.inv, outcomeInv, State.sweepAll_inv]

theorem State.sweepImage_inv (s : State) (t : Ts) (b : Blk) (a : Nat) (h : s.inv) : (s.sweepImage t b a).inv := by
  unfold State.sweepImage
  grind [State.inv, State.imgPut_inv, State.foldl_inv]

theorem State.sweepBlock_inv (s : State) (id : Nat) (h : s.inv) : (s.sweepBlock id).inv := by
  unfold State.sweepBlock
  grind [State.inv, State.sweepImage_inv]

theorem execImagePtsSweep_inv (image : Nat) (s : State) (h : s.inv) : outcomeInv (execImagePtsSweep image s) := by
  unfold execImagePtsSweep
  grind [State.inv, outcomeInv, State.sweepBlock_inv]

end Sys2Proof.Machine
end

section
/-! SUPPORT. O60: device memory stays canonical in launches, saves, pre-emption and the driver:
one lemma per function of the model, from those of the functions that it calls. -/

namespace Sys2Proof.Machine

set_option Elab.async false -- one proof at a time: the threads of many at once take too much memory

/-! ## Machine/Launching.lean -/

theorem State.doorbell_inv (s : State) (q : Nat) (v : W32) (h : s.inv) : (s.doorbell q v).inv := by
  unfold State.doorbell
  grind [State.inv, State.setQueue_inv]

theorem execDoorbell_inv (q : Nat) (v : W32) (s : State) (h : s.inv) : outcomeInv (execDoorbell q v s) := by
  unfold execDoorbell
  grind [State.inv, outcomeInv, State.doorbell_inv]

theorem State.dispRead_inv (s : State) (asid va n : Nat) (h : s.inv) : (s.dispRead asid va n).inv := by
  have hfind := @State.engRange_inv
  unfold State.dispRead
  obtain ⟨find, hf⟩ : ∃ f, f = @State.engRange := ⟨_, rfl⟩ -- a name keeps the kernel from computing the range
  rw [← hf] at hfind ⊢
  clear hf
  grind [State.inv, Dir.inv, EngR.inv, DispRead.inv, State.piecesRead_inv]

theorem State.checkRecord_inv (s : State) (lslot : Nat) (l : Launch) (h : s.inv) : (s.checkRecord lslot l).inv := by
  unfold State.checkRecord
  repeat' split
  all_goals grind [State.inv, DispRead.inv, State.engWait_inv, State.setLaunch_inv, State.dispRead_inv]

theorem execDispatchConsume_inv (q : Nat) (s : State) (h : s.inv) : outcomeInv (execDispatchConsume q s) := by
  unfold execDispatchConsume
  have hread := @State.dispRead_inv
  obtain ⟨read, hf⟩ : ∃ f, f = @State.dispRead := ⟨_, rfl⟩ -- a name keeps the kernel from computing the read
  rw [← hf] at hread ⊢
  clear hf
  grind [State.inv, DispRead.inv, outcomeInv, State.engWait_inv, State.setQueue_inv, State.checkRecord_inv, State.setLaunch_inv]

theorem State.makeBlock_inv (s : State) (lslot : Nat) (h : s.inv) : (s.makeBlock lslot).inv := by
  unfold State.makeBlock
  grind [State.inv, State.setLaunch_inv]

theorem execBlockPlace_inv (blk core : Nat) (s0 : State) (h : s0.inv) : outcomeInv (execBlockPlace blk core s0) := by
  unfold execBlockPlace
  grind [State.inv, outcomeInv, State.makeBlock_inv, State.foldl_inv]

theorem State.coreServes_inv (s : State) (core part lslot : Nat) (h : s.inv) : (s.coreServes core part lslot).inv := by
  unfold State.coreServes
  grind [State.inv, State.updCore_inv, State.ctrReturnAll_inv]

theorem State.residentNew_inv (s : State) (b : Blk) (l : Launch) (gx gy core : Nat) (h : s.inv) : (s.residentNew b l gx gy core).inv := by
  unfold State.residentNew
  grind [State.inv, State.coreServes_inv, State.setCrew_inv, State.setGang_inv, State.foldl_inv]

theorem State.startBlock_inv (s : State) (id : Nat) (b : Blk) (core : Nat) (h : s.inv) : (s.startBlock id b core).inv := by
  unfold State.startBlock
  grind [State.inv, State.residentNew_inv, State.foldl_inv]

theorem execStealRequest_inv (idle victim : Nat) (s : State) (h : s.inv) : outcomeInv (execStealRequest idle victim s) := by
  unfold execStealRequest
  grind [State.inv, outcomeInv, State.updCore_inv]

theorem execStealRefusal_inv (idle : Nat) (s : State) (h : s.inv) : outcomeInv (execStealRefusal idle s) := by
  unfold execStealRefusal
  grind [State.inv, outcomeInv, State.updCore_inv]

theorem execDonationArrival_inv (idle : Nat) (s : State) (h : s.inv) : outcomeInv (execDonationArrival idle s) := by
  unfold execDonationArrival
  grind [State.inv, outcomeInv, State.updCore_inv]

theorem execReorderFlush_inv (lslot : Nat) (s : State) (h : s.inv) : outcomeInv (execReorderFlush lslot s) := by
  unfold execReorderFlush
  grind [State.inv, outcomeInv, State.setLaunch_inv, State.startCont_inv, State.foldl_inv]

theorem execLaunchComplete_inv (lslot : Nat) (s : State) (h : s.inv) : outcomeInv (execLaunchComplete lslot s) := by
  unfold execLaunchComplete
  grind [State.inv, Act.inv, Dir.inv, EngX.inv, outcomeInv, State.engWait_inv, State.setQueue_inv, State.engXlate_inv, State.raiseIrq_inv,
    State.directWrite_inv]

/-! ## Machine/Saves.lean -/

theorem State.drainCrew_inv (s : State) (key : Nat) (h : s.inv) : (s.drainCrew key).1.inv := by
  unfold State.drainCrew
  grind [State.inv, State.publishCrew_inv]

theorem State.drain_inv (s : State) (gids : List Nat) (h : s.inv) : (s.drain gids).1.inv := by
  unfold State.drain
  grind [State.inv, State.drainCrew_inv, State.foldl_fst_inv]

theorem State.putDetbuf_inv (s : State) (gid : Nat) (g : Gang) (h : s.inv) : (s.putDetbuf gid g).inv := by
  unfold State.putDetbuf
  grind [State.inv, Dir.inv, EngR.inv, State.piecesWrite_inv, State.engRange_inv]

theorem State.saveTo_inv (s : State) (gid a : Nat) (h : s.inv) : (s.saveTo gid a).inv := by
  unfold State.saveTo
  grind [State.inv, State.leaveTrap_inv, State.putDetbuf_inv, State.writeImage_inv, State.foldl_inv]

theorem State.dropCmds_inv (s : State) (gid : Nat) (h : s.inv) : (s.dropCmds gid).inv := by
  unfold State.dropCmds
  grind [State.inv, State.cmdEnd_inv, State.foldl_inv]

theorem State.saveAll_inv (s : State) (l : List Nat) (h : s.inv) : ∀ t, s.saveAll l = some t → t.inv := by
  induction l generalizing s with
  | nil =>
    intro t ht
    exact Option.some.inj ht ▸ h
  | cons g rest ih =>
    unfold State.saveAll
    grind [State.inv, State.saveTo_inv, State.dropCmds_inv]

theorem State.leaveRunning_inv (s : State) (unit : List Nat) (part : Nat) (h : s.inv) : (s.leaveRunning unit part).inv := by
  unfold State.leaveRunning
  grind [State.inv, State.preDrop_inv, State.announce_inv, State.updGang_inv, State.foldl_inv]

theorem execGangSave_inv (gid : Nat) (s : State) (h : s.inv) : outcomeInv (execGangSave gid s) := by
  unfold execGangSave
  split <;> grind [State.inv, outcomeInv, State.preDone_inv, State.setPart_inv, State.leaveRunning_inv, State.announce_inv, State.saveAll_inv,
    State.drain_inv, State.foldl_inv]

/-! ## Machine/Restores.lean -/

theorem State.clearL1_inv (s : State) (core : Nat) (h : s.inv) : (s.clearL1 core).inv := by
  unfold State.clearL1
  grind [State.inv, State.setSpan_inv, State.dropSpan_inv, State.foldl_inv]

theorem State.rejectImage_inv (s : State) (b : Blk) (a : Nat) (h : s.inv) : (s.rejectImage b a).inv := by
  unfold State.rejectImage
  grind [State.inv, State.killLaunch_inv, State.errRecord_inv]

theorem State.restoreGang_inv (s : State) (id : Nat) (b : Blk) (core : Nat) (h : s.inv) : (s.restoreGang id b core).inv := by
  unfold State.restoreGang
  grind [State.inv, State.coreServes_inv, State.clearL1_inv, State.setCrew_inv, State.updCore_inv, State.setGang_inv, State.updCluster_inv,
    State.foldl_inv]

theorem State.restoreUnit_inv (s : State) (id : Nat) (b : Blk) (core : Nat) (h : s.inv) : (s.restoreUnit id b core).inv := by
  unfold State.restoreUnit
  grind [State.inv, State.rejectImage_inv, State.restoreGang_inv, State.sweepBlock_inv, State.foldl_inv]

theorem execGangStart_inv (core : Nat) (s : State) (h : s.inv) : outcomeInv (execGangStart core s) := by
  unfold execGangStart
  grind [State.inv, outcomeInv, State.startBlock_inv, State.restoreUnit_inv]

theorem execGangRestore_inv (blk core : Nat) (s : State) (h : s.inv) : outcomeInv (execGangRestore blk core s) := by
  unfold execGangRestore
  grind [State.inv, outcomeInv, State.restoreUnit_inv]

/-! ## Machine/Preempt.lean -/

theorem State.prectl_inv (s : State) (part : Nat) (v : W64) (h : s.inv) : (s.prectl part v).inv := by
  unfold State.prectl
  grind [State.inv, State.preDone_inv, State.setPart_inv, State.updLaunch_inv, State.updGang_inv, State.foldl_inv]

theorem execPrectl_inv (part : Nat) (v : W64) (s : State) (h : s.inv) : outcomeInv (execPrectl part v s) := by
  unfold execPrectl
  grind [State.inv, outcomeInv, State.prectl_inv]

theorem execResume_inv (part : Nat) (v : W64) (s : State) (h : s.inv) : outcomeInv (execResume part v s) := by
  unfold execResume
  grind [State.inv, outcomeInv, State.updLaunch_inv, State.foldl_inv]

theorem execFltnextRead_inv (part : Nat) (s : State) (h : s.inv) : outcomeInv (execFltnextRead part s) := by
  unfold execFltnextRead
  grind [State.inv, outcomeInv, State.updPart_inv]

theorem State.releaseHeld_inv (s : State) (gid : Nat) (h : s.inv) : (s.releaseHeld gid).inv := h

theorem State.fltdoneToken_inv (s : State) (part v : Nat) (kill : Bool) (h : s.inv) : (s.fltdoneToken part v kill).inv := by
  unfold State.fltdoneToken
  grind [State.inv, State.killLaunch_inv, State.errRecord_inv, State.releaseHeld_inv, State.updPart_inv, State.foldl_inv]

theorem State.fltdoneBlock_inv (s : State) (part v : Nat) (kill : Bool) (h : s.inv) : (s.fltdoneBlock part v kill).inv := by
  unfold State.fltdoneBlock
  grind [State.inv, State.killLaunch_inv, State.updPart_inv]

theorem State.fltdone_inv (s : State) (part : Nat) (v : W64) (h : s.inv) : (s.fltdone part v).inv := by
  unfold State.fltdone
  grind [State.inv, State.fltdoneBlock_inv, State.fltdoneToken_inv]

theorem execFltdone_inv (part : Nat) (v : W64) (s : State) (h : s.inv) : outcomeInv (execFltdone part v s) := by
  unfold execFltdone
  grind [State.inv, outcomeInv, State.fltdone_inv]

theorem execEngreqRead_inv (part : Nat) (s : State) (h : s.inv) : outcomeInv (execEngreqRead part s) := by
  unfold execEngreqRead
  grind [State.inv, outcomeInv, State.updPart_inv]

theorem State.engdone_inv (s : State) (part : Nat) (v : W64) (h : s.inv) : (s.engdone part v).inv := by
  unfold State.engdone
  grind [State.inv, State.cmbRelease_inv, State.updPart_inv, State.foldl_inv]

theorem execEngdone_inv (part : Nat) (v : W64) (s : State) (h : s.inv) : outcomeInv (execEngdone part v s) := by
  unfold execEngdone
  grind [State.inv, outcomeInv, State.engdone_inv]

/-! ## Machine/Driver.lean -/

theorem State.queueWrite_inv (s : State) (q : Nat) (w : BusW) (h : s.inv) : (s.queueWrite q w).inv := by
  unfold State.queueWrite
  grind [State.inv, Act.inv, State.setQueue_inv, State.doorbell_inv]

theorem State.trapWrite_inv (s : State) (a : Nat) (w : BusW) (h : s.inv) : (s.trapWrite a w).inv := by
  unfold State.trapWrite
  grind [State.inv, Act.inv]

theorem State.asinv_inv (s : State) (a : Nat) (v : W64) (h : s.inv) : (s.asinv a v).inv := h

theorem State.asidWrite_inv (s : State) (a : Nat) (w : BusW) (h : s.inv) : (s.asidWrite a w).inv := by
  unfold State.asidWrite
  grind [State.inv, Act.inv, State.setAsid_inv, State.asinv_inv]

theorem execAsinv_inv (asid : Nat) (v : W64) (s : State) (h : s.inv) : outcomeInv (execAsinv asid v s) := by
  unfold execAsinv
  grind [State.inv, outcomeInv, State.asinv_inv]

theorem State.publishPages_inv (s : State) (asid : Nat) (ps : List (Nat × Nat)) (h : s.inv) : (s.publishPages asid ps).inv := by
  unfold State.publishPages
  grind [State.inv, State.publishLine_inv, State.foldl_inv]

theorem State.forget_inv (s : State) (asid : Nat) (r : Nat × Nat) (ps : List (Nat × Nat)) (h : s.inv) : (s.forget asid r ps).inv := h

theorem execAsinvComplete_inv (asid : Nat) (s : State) (h : s.inv) : outcomeInv (execAsinvComplete asid s) := by
  unfold execAsinvComplete
  grind [State.inv, outcomeInv, State.setAsid_inv, State.forget_inv, State.publishPages_inv]

theorem State.ctlWrite_inv (s : State) (p : Nat) (w : BusW) (h : s.inv) : (s.ctlWrite p w).inv := by
  unfold State.ctlWrite
  grind [State.inv, Act.inv, State.setPart_inv, State.fltdone_inv, State.prectl_inv, State.updLaunch_inv, State.foldl_inv]

theorem State.measure_inv (s : State) (i : Nat) (x : MeasItem) (h : s.inv) : (s.measure i x).inv := h

theorem State.ptcfg_inv (s : State) (p : Nat) (v : W64) (h : s.inv) : (s.ptcfg p v).inv := by
  unfold State.ptcfg
  grind [State.inv, State.setPart_inv, State.measure_inv]

theorem State.quotaPut_inv (s : State) (p : Nat) (bs : List (Nat × Byte)) (h : s.inv) : (s.quotaPut p bs).inv := by
  unfold State.quotaPut
  grind [State.inv, State.setPart_inv, State.measure_inv]

theorem State.partWrite_inv (s : State) (p : Nat) (w : BusW) (h : s.inv) : (s.partWrite p w).inv := by
  unfold State.partWrite
  grind [State.inv, Act.inv, State.setPart_inv, State.ptcfg_inv, State.quotaPut_inv, State.engdone_inv]

theorem execPtcfgWrite_inv (part : Nat) (v : W64) (s : State) (h : s.inv) : outcomeInv (execPtcfgWrite part v s) := by
  unfold execPtcfgWrite
  grind [State.inv, outcomeInv, State.ptcfg_inv]

theorem execQuotaWrite_inv (part off size : Nat) (v : W64) (s : State) (h : s.inv) : outcomeInv (execQuotaWrite part off size v s) := by
  unfold execQuotaWrite
  grind [State.inv, outcomeInv, State.quotaPut_inv]

theorem State.prbase_inv (s : State) (k : Nat) (v : W64) (h : s.inv) : (s.prbase k v).inv := by
  unfold State.prbase
  grind [State.inv, State.setProt_inv]

theorem State.protWrite_inv (s : State) (k : Nat) (w : BusW) (h : s.inv) : (s.protWrite k w).inv := by
  unfold State.protWrite
  grind [State.inv, Act.inv, State.setProt_inv, State.prbase_inv]

theorem execProtEnable_inv (k : Nat) (v : W64) (s : State) (h : s.inv) : outcomeInv (execProtEnable k v s) := by
  unfold execProtEnable
  grind [State.inv, outcomeInv, State.prbase_inv]

theorem State.errWrite_inv (s : State) (w : BusW) (h : s.inv) : (s.errWrite w).inv := by
  unfold State.errWrite
  grind [State.inv, Act.inv]

theorem State.domWrite_inv (s : State) (w : BusW) (h : s.inv) : (s.domWrite w).inv := by
  unfold State.domWrite
  grind [State.inv, Act.inv]

theorem State.poolWrite_inv (s : State) (k : Nat) (w : BusW) (h : s.inv) : (s.poolWrite k w).inv := by
  unfold State.poolWrite
  grind [State.inv, Act.inv]

theorem State.atctl_inv (s : State) (v : W64) (h : s.inv) : (s.atctl v).inv := by
  unfold State.atctl
  grind [State.inv]

theorem State.mailWrite_inv (s : State) (w : BusW) (h : s.inv) : (s.mailWrite w).inv := by
  unfold State.mailWrite
  grind [State.inv, Act.inv, State.atctl_inv]

theorem State.pcapSet_inv (s : State) (v : W32) (h : s.inv) : (s.pcapSet v).inv := by
  unfold State.pcapSet
  grind [State.inv]

theorem State.fwGo_inv (s : State) (v : W32) (h : s.inv) : (s.fwGo v).inv := by
  unfold State.fwGo
  grind [State.inv]

theorem State.svcWrite_inv (s : State) (w : BusW) (h : s.inv) : (s.svcWrite w).inv := by
  delta State.svcWrite
  extract_lets v half on s1 s2 s3 s4
  have on_inv (s : State) (off : Nat) (old : W32) (f : State → W32 → State) (h : s.inv) (hf : ∀ v x, v.inv → (f v x).inv) :
      (on s off old f).inv := by
    dsimp only [on]
    split
    · exact hf _ _ h
    · exact h
  have h1 : s1.inv := on_inv _ _ _ (fun s x => { s with svc := { s.svc with tlmidx := x &&& 0xFFFF } }) h (fun _ _ => id)
  have h2 : s2.inv := on_inv _ _ _ _ h1 State.pcapSet_inv
  have h3 : s3.inv := on_inv _ _ _ (fun s x => { s with svc := { s.svc with fwaddrl := x &&& 0xFFFFFFC0 } }) h2 (fun _ _ => id)
  have h4 : s4.inv := on_inv _ _ _ (fun s x => { s with svc := { s.svc with fwaddrh := x } }) h3 (fun _ _ => id)
  exact on_inv _ _ _ _ h4 State.fwGo_inv

theorem execPcapWrite_inv (v : W32) (s : State) (h : s.inv) : outcomeInv (execPcapWrite v s) := by
  unfold execPcapWrite
  grind [State.inv, outcomeInv, State.pcapSet_inv]

theorem State.bar0Write_inv (s : State) (off n v : Nat) (h : s.inv) : (s.bar0Write off n v).inv :=
  State.ite_inv _ _ (State.mailWrite_inv _ _ h) (State.ite_inv _ _ h (State.ite_inv _ _ (State.queueWrite_inv _ _ _ h)
    (State.ite_inv _ _ (State.trapWrite_inv _ _ _ h) (State.ite_inv _ _ (State.asidWrite_inv _ _ _ h)
    (State.ite_inv _ _ (State.ctlWrite_inv _ _ _ h) (State.ite_inv _ _ (State.partWrite_inv _ _ _ h)
    (State.ite_inv _ _ (State.protWrite_inv _ _ _ h) (State.ite_inv _ _ (State.errWrite_inv _ _ h)
    (State.ite_inv _ _ (State.domWrite_inv _ _ h) (State.ite_inv _ _ (State.poolWrite_inv _ _ _ h) (State.ite_inv _ _ h h)))))))))))

theorem State.regWrite_inv (s : State) (bar off n v : Nat) (h : s.inv) : (s.regWrite bar off n v).inv := by
  unfold State.regWrite
  grind [State.inv, Act.inv, State.bar0Write_inv, State.doorbell_inv, State.svcWrite_inv]

end Sys2Proof.Machine
end

section
/-! SUPPORT. O60: device memory stays canonical in failures, trust, the fleet and what is outside:
one lemma per function of the model, from those of the functions that it calls. -/

namespace Sys2Proof.Machine

set_option Elab.async false -- one proof at a time: the threads of many at once take too much memory

/-! ## Machine/Failures.lean -/

theorem State.dropClean_inv (s : State) (u : Agent) (line : Nat) (h : s.inv) : (s.dropClean u line).inv := by
  unfold State.dropClean
  grind [State.inv, State.setSpan_inv, State.dropSpan_inv]

theorem State.spansFail_inv (s : State) (hit : Nat → Bool) (h : s.inv) : (s.spansFail hit).inv := by
  unfold State.spansFail
  grind [State.inv, State.setSpan_inv, State.publishLine_inv, State.dropClean_inv, State.foldl_inv]

theorem State.slicesFail_inv (s : State) (hd : Nat) (h : s.inv) : (s.slicesFail hd).inv := by
  unfold State.slicesFail
  grind [State.inv, State.setSlice_inv, State.foldl_inv]

theorem State.repack_inv (s : State) (id : Nat) (p : Pkt) (h : s.inv) : (s.repack id p).inv := by
  unfold State.repack
  grind [State.inv, State.dropPkt_inv]

theorem State.failPkt_inv (s : State) (id : Nat) (p : Pkt) (h : s.inv) : (s.failPkt id p).inv := by
  unfold State.failPkt
  grind [State.inv, State.dropPkt_inv, State.setSpan_inv, State.unask_inv, State.dropSpan_inv, State.send_inv]

theorem State.packetsFail_inv (s : State) (hit : Nat → Bool) (h : s.inv) : (s.packetsFail hit).inv := by
  unfold State.packetsFail
  grind [State.inv, State.failPkt_inv, State.repack_inv, State.foldl_inv]

theorem State.countersFail_inv (s : State) (lostRec : Nat → Bool) (h : s.inv) : (s.countersFail lostRec).inv := by
  unfold State.countersFail
  grind [State.inv, State.updCrew_inv, State.foldl_inv]

theorem State.slotsFail_inv (s : State) (hit : Nat → Bool) (h : s.inv) : (s.slotsFail hit).inv := h

theorem execHomeDieFailure_inv (hd : Nat) (s : State) (h : s.inv) : outcomeInv (execHomeDieFailure hd s) := by
  unfold execHomeDieFailure
  grind [State.inv, outcomeInv, State.packetsFail_inv, State.countersFail_inv, State.errRecord_inv, State.setHome_inv, State.slicesFail_inv,
    State.spansFail_inv, State.takeMirror_inv, State.slotsFail_inv]

theorem State.forfeit_inv (s : State) (core : Nat) (h : s.inv) : (s.forfeit core).inv :=
  (State.forfeit_persists _ _).inv h

theorem State.unhold_inv (s : State) (u : Agent) (h : s.inv) : (s.unhold u).inv :=
  (State.unhold_persists _ _).inv h

theorem State.coreOut_inv (s : State) (core : Nat) (h : s.inv) : (s.coreOut core).inv := by
  unfold State.coreOut
  grind [State.inv, State.killLaunch_inv, State.forfeit_inv, State.updCore_inv, State.unhold_inv, State.setCore_inv, State.foldl_inv]

theorem execCoreOutOfService_inv (core : Nat) (s : State) (h : s.inv) : outcomeInv (execCoreOutOfService core s) := by
  unfold execCoreOutOfService
  grind [State.inv, outcomeInv, State.setCluster_inv, State.coreOut_inv, State.unhold_inv, State.foldl_inv]

theorem State.eccuGang_inv (s : State) (gid va array cls : Nat) (h : s.inv) : (s.eccuGang gid va array cls).inv := by
  unfold State.eccuGang
  grind [State.inv, State.errRecord_inv]

theorem State.eccSector_inv (s : State) (sec array ukind unit : Nat) (h : s.inv) : (s.eccSector sec array ukind unit).inv := by
  unfold State.eccSector
  grind [State.inv, State.errRecord_inv]

theorem State.eccSpan_inv (s : State) (u : Agent) (unit array line k : Nat) (h : s.inv) : (s.eccSpan u unit array line k).inv := by
  unfold State.eccSpan
  grind [State.inv, State.setSpan_inv, State.errRecord_inv]

theorem execEccError_inv (e : Ecc) (s : State) (h : s.inv) : outcomeInv (execEccError e s) := by
  cases e
  case escaped sec bytes => exact execEccError_escaped_inv sec bytes s _ h rfl
  all_goals
    unfold execEccError
    grind [State.inv, outcomeInv, State.eccSpan_inv, State.eccuGang_inv, State.setCrew_inv, State.setGang_inv, State.eccSector_inv]

theorem State.ecccRecords_inv (s : State) (ukind unit n : Nat) (h : s.inv) : (s.ecccRecords ukind unit n).inv := by
  induction n generalizing s with
  | zero => exact h
  | succ n ih =>
    unfold State.ecccRecords
    grind [State.inv, State.errRecord_inv]

theorem execEcccInterval_inv (ukind unit : Nat) (s : State) (h : s.inv) : outcomeInv (execEcccInterval ukind unit s) := by
  unfold execEcccInterval
  grind [State.inv, outcomeInv, State.ecccRecords_inv]

/-! ## Machine/Trust.lean -/

theorem State.romBoot_inv (s : State) (h : s.inv) : s.romBoot.inv := by
  unfold State.romBoot
  grind [State.inv]

theorem State.raiseFloor_inv (s : State) (body : List Byte) (h : s.inv) : (s.raiseFloor body).inv := by
  unfold State.raiseFloor
  grind [State.inv]

theorem State.fwEnd_inv (s : State) (bits : W32) (h : s.inv) : (s.fwEnd bits).inv := h

theorem execFirmwareUpdate_inv (image : Option (List Byte)) (s : State) (h : s.inv) : outcomeInv (execFirmwareUpdate image s) := by
  unfold execFirmwareUpdate
  grind [State.inv, outcomeInv, State.fwEnd_inv, State.fwGo_inv, State.raiseFloor_inv, State.measure_inv]

theorem State.atEnd_inv (s : State) (out : List Byte) (h : s.inv) : (s.atEnd out).inv := h

theorem State.atError_inv (s : State) (h : s.inv) : s.atError.inv := h

theorem execAttestReport_inv (s : State) (h : s.inv) : outcomeInv (execAttestReport s) := by
  have h1 := State.atctl_inv s 1 h
  unfold execAttestReport
  dsimp only
  generalize s.atctl 1 = s1 at h1 ⊢
  split
  · exact State.atEnd_inv _ _ h1
  · split
    · exact State.atError_inv _ h1
    · exact h1
  · exact h1

theorem execIdentityPublicKey_inv (s : State) (h : s.inv) : outcomeInv (execIdentityPublicKey s) := by
  have h1 := State.atctl_inv s 3 h
  unfold execIdentityPublicKey
  dsimp only
  generalize s.atctl 3 = s1 at h1 ⊢
  split
  · exact State.atEnd_inv _ _ h1
  · exact h1

theorem execAtctlRefused_inv (op : BitVec 2) (s : State) (h : s.inv) : outcomeInv (execAtctlRefused op s) := by
  have h1 : (if 2 ≤ op.toNat then s.atctl (BitVec.ofNat 64 (1 + 2 * op.toNat)) else s).inv := State.ite_inv _ _ (State.atctl_inv _ _ h) h
  unfold execAtctlRefused
  dsimp only
  generalize (if 2 ≤ op.toNat then s.atctl (BitVec.ofNat 64 (1 + 2 * op.toNat)) else s) = s1 at h1 ⊢
  split
  · exact State.atError_inv _ h1
  · exact State.atError_inv _ h1
  · exact h1

/-! ## Machine/Fleet.lean -/

theorem execPowerInterval_inv (vcore0 vcore1 vhome vhbm : Nat) (core : List (Nat × Nat)) (temps : List Int) (s : State) (h : s.inv) :
    outcomeInv (execPowerInterval vcore0 vcore1 vhome vhbm core temps s) := by
  unfold execPowerInterval
  grind [State.inv, outcomeInv, State.updCore_inv, State.foldl_inv]

theorem execThermalLimit_inv (die : Nat) (temp : Int) (s : State) (h : s.inv) : outcomeInv (execThermalLimit die temp s) := by
  unfold execThermalLimit
  grind [State.inv, outcomeInv, State.updCore_inv, State.foldl_inv]

theorem execCoreHot_inv (core : Nat) (temp : Int) (s : State) (h : s.inv) : outcomeInv (execCoreHot core temp s) := by
  unfold execCoreHot
  grind [State.inv, outcomeInv, State.updCore_inv]

theorem execDroopEvent_inv (core : Nat) (s : State) (h : s.inv) : outcomeInv (execDroopEvent core s) := by
  unfold execDroopEvent
  grind [State.inv, outcomeInv, State.updCore_inv]

theorem execCoreCool_inv (core : Nat) (temp : Int) (s : State) (h : s.inv) : outcomeInv (execCoreCool core temp s) := by
  unfold execCoreCool
  grind [State.inv, outcomeInv, State.updCore_inv]

theorem execTlmloRead_inv (s : State) (h : s.inv) : outcomeInv (execTlmloRead s) := h

theorem State.wiped_inv (s : State) (h : s.inv) : s.wiped.inv := by
  unfold State.wiped
  grind [State.inv, State.reset_inv]

theorem State.probe_inv (s : State) (failedCores : List Nat) (failedHomes : List Nat) (h : s.inv) : (s.probe failedCores failedHomes).inv := by
  unfold State.probe
  grind [State.inv, State.updCore_inv, State.setHome_inv, State.updCluster_inv, State.foldl_inv]

theorem State.rebooted_inv (s : State) (failedCores : List Nat) (failedHomes : List Nat) (h : s.inv) : (s.rebooted failedCores failedHomes).inv := by
  unfold State.rebooted
  grind [State.inv, State.romBoot_inv, State.wiped_inv, State.probe_inv]

theorem execPackageReset_inv (v : W32) (failedCores : List Nat) (failedHomes : List Nat) (s : State) (h : s.inv) :
    outcomeInv (execPackageReset v failedCores failedHomes s) := by
  unfold execPackageReset
  grind [State.inv, outcomeInv, State.rebooted_inv]

theorem execCxlReset_inv (failedCores : List Nat) (failedHomes : List Nat) (s : State) (h : s.inv) :
    outcomeInv (execCxlReset failedCores failedHomes s) := by
  unfold execCxlReset
  grind [State.inv, outcomeInv, State.rebooted_inv]

theorem execRegisterWrite_inv (bar off size : Nat) (v : W64) (s : State) (h : s.inv) : outcomeInv (execRegisterWrite bar off size v s) := by
  unfold execRegisterWrite
  grind [State.inv, Act.inv, outcomeInv, State.rebooted_inv, State.regWrite_inv]

theorem State.tripComplete_inv (s : State) (l : Launch) (h : s.inv) : (s.tripComplete l).inv := by
  unfold State.tripComplete
  grind [State.inv, Act.inv, EngX.inv, State.engXlate_inv, State.raiseIrq_inv, State.physWrite_inv]

theorem execThermalTrip_inv (temp : Int) (s : State) (h : s.inv) : outcomeInv (execThermalTrip temp s) := by
  unfold execThermalTrip
  grind [State.inv, outcomeInv, State.killLaunch_inv, State.rebooted_inv, State.tripComplete_inv, State.foldl_inv]

theorem execPowerLoss_inv (s : State) (h : s.inv) : outcomeInv (execPowerLoss s) := by
  unfold execPowerLoss
  grind [State.inv, outcomeInv, State.wiped_inv]

theorem execPowerOn_inv (failedCores : List Nat) (failedHomes : List Nat) (s : State) (h : s.inv) :
    outcomeInv (execPowerOn failedCores failedHomes s) := by
  unfold execPowerOn
  grind [State.inv, outcomeInv, State.rebooted_inv]

/-! ## Machine/Outside.lean -/

theorem State.failCrew_inv (s : State) (key pa how : Nat) (kinds : List Nat) (h : s.inv) : (s.failCrew key pa how kinds).inv := by
  unfold State.failCrew
  grind [State.inv, State.setCrew_inv]

theorem State.failOthers_inv (s : State) (pa how : Nat) (h : s.inv) : (s.failOthers pa how).inv := by
  unfold State.failOthers
  grind [State.inv, State.setFarAgent_inv, State.failCrew_inv, State.foldl_inv]

theorem State.farFailed_inv (s : State) (r : OutReq) (how : Nat) (h : s.inv) : (s.farFailed r how).inv := by
  unfold State.farFailed
  grind [State.inv, State.failOthers_inv, State.failPkt_inv, State.failCrew_inv, State.foldl_inv]

theorem State.evictFar_inv (s : State) (k line : Nat) (h : s.inv) : (s.evictFar k line).inv := by
  unfold State.evictFar
  grind [State.inv, State.setFarAgent_inv, State.ask_inv, State.linkRecord_inv]

theorem State.fillFar_inv (s : State) (k line st dtid : Nat) (bytes : List Byte) (poison : Bool) (h : s.inv) :
    (s.fillFar k line st dtid bytes poison).inv := by
  unfold State.fillFar
  grind [State.inv, State.setFarAgent_inv, State.linkRecord_inv, State.evictFar_inv]

theorem State.dropReq_inv (s : State) (id : Nat) (h : s.inv) : (s.dropReq id).inv := h

theorem execHostGrant_inv (port line : Nat) (excl : Bool) (bytes : List Byte) (poison : Bool) (s : State) (h : s.inv) :
    outcomeInv (execHostGrant port line excl bytes poison s) := by
  unfold execHostGrant
  grind [State.inv, outcomeInv, State.dropReq_inv, State.fillFar_inv]

theorem State.recallFar_inv (s : State) (d : Dest) (line : Nat) (h : s.inv) : (s.recallFar d line).1.inv := by
  unfold State.recallFar
  grind [State.inv, State.sendRecall_inv, State.foldl_inv]

theorem State.snoop_inv (s : State) (k : Nat) (d : Dest) (line mode : Nat) (h : s.inv) : (s.snoop k d line mode).inv := by
  unfold State.snoop
  grind [State.inv, State.setFarAgent_inv, State.recallFar_inv, State.linkRecord_inv]

theorem execSnpinv_inv (port line : Nat) (s : State) (h : s.inv) : outcomeInv (execSnpinv port line s) := by
  unfold execSnpinv
  grind [State.inv, outcomeInv, State.snoop_inv]

theorem execSnpdata_inv (port line : Nat) (s : State) (h : s.inv) : outcomeInv (execSnpdata port line s) := by
  unfold execSnpdata
  grind [State.inv, outcomeInv, State.snoop_inv]

theorem execSnpcur_inv (port line : Nat) (s : State) (h : s.inv) : outcomeInv (execSnpcur port line s) := by
  unfold execSnpcur
  grind [State.inv, outcomeInv, State.snoop_inv]

theorem execDomainRecall_inv (line : Nat) (s : State) (h : s.inv) : outcomeInv (execDomainRecall line s) := by
  unfold execDomainRecall
  grind [State.inv, outcomeInv, State.snoop_inv]

theorem State.raiseIn_inv (s : State) (agent : Nat) (w : Ts) (h : s.inv) : (s.raiseIn agent w).inv := by
  unfold State.raiseIn
  grind [State.inv, State.setBridge_inv]

theorem State.mapHard_inv (s : State) (l64 : Nat) (f : List HardHold → List HardHold) (h : s.inv) : (s.mapHard l64 f).inv := h

theorem State.clearOwn_inv (s : State) (agent line : Nat) (write : Bool) (h : s.inv) : (s.clearOwn agent line write).1.inv := by
  unfold State.clearOwn
  grind [State.inv, State.updSlice_inv, State.clearLine_inv]

theorem State.clearOwnRange_inv (s : State) (agent o n : Nat) (write : Bool) (h : s.inv) : (s.clearOwnRange agent o n write).1.inv := by
  unfold State.clearOwnRange
  grind [State.inv, State.ctrSyncRange_inv, State.clearOwn_inv, State.foldl_fst_inv]

theorem State.inRead_inv (s : State) (agent o n : Nat) (f : Finder) (h : s.inv) : (s.inRead agent o n f).1.inv := by
  unfold State.inRead
  grind [State.inv, State.checkRange_inv, State.clearOwnRange_inv, State.linkRecord_inv]

theorem State.inWrite_inv (s : State) (agent o : Nat) (bs : List Byte) (f : Finder) (h : s.inv) : (s.inWrite agent o bs f).1.inv := by
  unfold State.inWrite
  grind [State.inv, State.raiseIn_inv, State.clearOwnRange_inv, State.devWrite_inv]

theorem State.inPoison_inv (s : State) (agent o n : Nat) (h : s.inv) : (s.inPoison agent o n).inv := by
  unfold State.inPoison
  grind [State.inv, State.mirrorSectors_inv, State.linkRecord_inv, State.foldl_inv]

theorem State.addHard_inv (s : State) (agent l64 : Nat) (excl : Bool) (h : s.inv) : (s.addHard agent l64 excl).1.inv := by
  unfold State.addHard
  grind [State.inv, State.mapHard_inv, State.askHard_inv]

theorem execHostMemrd_inv (port addr n : Nat) (hold : Option Bool) (s : State) (h : s.inv) : outcomeInv (execHostMemrd port addr n hold s) := by
  unfold execHostMemrd
  grind [State.inv, outcomeInv, State.inRead_inv, State.addHard_inv]

theorem execHostMemwr_inv (port addr : Nat) (bytes : List Byte) (wb keep poison : Bool) (s : State) (h : s.inv) :
    outcomeInv (execHostMemwr port addr bytes wb keep poison s) := by
  unfold execHostMemwr
  grind [State.inv, outcomeInv, State.inWrite_inv, State.inPoison_inv, State.mapHard_inv]

theorem execBisnpResponse_inv (slice line : Nat) (dirty : Option (List Byte × Bool)) (s : State) (h : s.inv) :
    outcomeInv (execBisnpResponse slice line dirty s) := by
  unfold execBisnpResponse
  grind [State.inv, outcomeInv, State.inWrite_inv, State.inPoison_inv, State.mapHard_inv]

theorem execHeartbeat_inv (agent : Nat) (s : State) (h : s.inv) : outcomeInv (execHeartbeat agent s) := h

theorem execHardHoldExpiry_inv (slice line : Nat) (s : State) (h : s.inv) : outcomeInv (execHardHoldExpiry slice line s) := by
  unfold execHardHoldExpiry
  grind [State.inv, outcomeInv, State.errRecord_inv]

theorem State.sideDead_inv (s : State) (k side : Nat) (h : s.inv) : (s.sideDead k side).inv := h

theorem State.poolAck_inv (s : State) (pkt : Nat) (h : s.inv) : (s.poolAck pkt).inv := by
  unfold State.poolAck
  grind [State.inv, State.reply_inv]

theorem State.poolDone_inv (s : State) (id : Nat) (r : OutReq) (ok poison : Bool) (bytes : List Byte) (h : s.inv) :
    (s.poolDone id r ok poison bytes).inv := by
  unfold State.poolDone
  grind [State.inv, State.sideDead_inv, State.dropReq_inv, State.poolAck_inv, State.farFailed_inv, State.linkRecord_inv, State.fillFar_inv]

theorem execPoolCompletion_inv (req : Nat) (ok poison : Bool) (bytes : List Byte) (s : State) (h : s.inv) :
    outcomeInv (execPoolCompletion req ok poison bytes s) := by
  unfold execPoolCompletion
  grind [State.inv, outcomeInv, State.dropReq_inv, State.poolDone_inv]

theorem execPoolSideTimeout_inv (req : Nat) (s : State) (h : s.inv) : outcomeInv (execPoolSideTimeout req s) := by
  unfold execPoolSideTimeout
  grind [State.inv, outcomeInv, State.poolDone_inv]

theorem State.moveServers_inv (s : State) (h : s.inv) : s.moveServers.inv := h

theorem execCxlPortDown_inv (port : Nat) (s : State) (h : s.inv) : outcomeInv (execCxlPortDown port s) := by
  unfold execCxlPortDown
  grind [State.inv, outcomeInv, State.dropReq_inv, State.farFailed_inv, State.moveServers_inv, State.failPkt_inv, State.setBridge_inv,
    State.poolDone_inv, State.foldl_inv]

theorem execCxlPortUp_inv (port : Nat) (s : State) (h : s.inv) : outcomeInv (execCxlPortUp port s) := by
  unfold execCxlPortUp
  grind [State.inv, outcomeInv, State.moveServers_inv, State.setBridge_inv]

theorem State.nack_inv (s : State) (h : s.inv) : s.nack.inv := h

theorem State.inXlate_inv (s : State) (asid va n kind : Nat) (h : s.inv) : (s.inXlate asid va n kind).inv := by
  unfold State.inXlate
  grind [State.inv, EngR.inv, InAt.inv, State.engRange_inv]

theorem State.inReadAll_inv (s : State) (agent : Nat) (ps : List (Nat × Nat)) (f : Finder) (h : s.inv) : (s.inReadAll agent ps f).1.inv := by
  unfold State.inReadAll
  grind [State.inv, State.inRead_inv, State.foldl_fst_inv]

theorem State.inWriteAll_inv (s : State) (agent : Nat) (ps : List (Nat × Nat)) (bs : List Byte) (poison : Bool) (f : Finder) (h : s.inv) :
    (s.inWriteAll agent ps bs poison f).1.inv := by
  unfold State.inWriteAll
  grind [State.inv, State.inWrite_inv, State.inPoison_inv, State.clearOwnRange_inv, State.foldl_inv, State.foldl_fst_inv]

theorem State.inAtom_inv (s : State) (agent o op : Nat) (cas : Bool) (ty : Ty) (x new : Nat) (f : Finder) (h : s.inv) :
    (s.inAtom agent o op cas ty x new f).inv := by
  unfold State.inAtom
  grind [State.inv, State.raiseIn_inv, State.homeAtom_inv, State.clearOwnRange_inv]

theorem State.inPut_inv (s : State) (agent asid va token slot expert chunk : Nat) (bytes : List Byte) (poison : Bool) (h : s.inv) :
    (s.inPut agent asid va token slot expert chunk bytes poison).inv := by
  unfold State.inPut
  extract_lets status
  have hst (v : State) (n : Nat) (hv : v.inv) : (status v n).inv := hv
  clear_value status
  split
  · exact hst _ _ h
  have hx := State.inXlate_inv s asid va 64 2 h
  generalize s.inXlate asid va 64 2 = a at hx ⊢
  obtain ⟨s1, ps⟩ | s1 | s1 := a
  · dsimp -zeta only
    extract_lets rec1 c v r
    have hc : c.1.inv := State.clearOwnRange_inv _ _ _ _ _ hx
    have hv : v.1.inv := State.checkRange_inv _ _ _ _ hc
    clear_value r v c rec1
    split
    · exact hc
    split
    · exact hv
    split
    · exact hst _ _ hv
    split
    · exact hst _ _ hv
    have hy := State.inXlate_inv v.1 asid (r.slotAt slot) 256 2 hv
    generalize v.1.inXlate asid (r.slotAt slot) 256 2 = b at hy ⊢
    obtain ⟨s2, qs⟩ | s2 | s2 := b
    · dsimp -zeta only
      extract_lets o q s3 t
      have hq : q.1.inv := State.clearOwnRange_inv _ _ _ _ _ hy
      have h3 : s3.inv := State.cmbDue_inv _ _ hq
      clear_value t s3 q o
      split
      · exact hq
      split
      · have hz := State.inXlate_inv s3 asid (r.chunkAt slot t.2 chunk) 256 2 h3
        generalize s3.inXlate asid (r.chunkAt slot t.2 chunk) 256 2 = d at hz ⊢
        obtain ⟨s4, cs⟩ | s4 | s4 := d
        · dsimp -zeta only
          extract_lets off z w
          have hz' : z.1.inv := State.clearOwnRange_inv _ _ _ _ _ hz
          have hw : w.1.inv := State.cmbStore_inv _ _ _ _ _ _ _ _ _ hz'
          split
          · exact hz'
          · exact hst _ _ (State.raiseIn_inv _ _ _ hw)
        · exact State.nack_inv _ hz
        · exact hz
      · exact hst _ _ (State.cmbLate_inv _ _ _ h3)
      · exact hst _ _ h3
    · exact State.nack_inv _ hy
    · exact hy
  · exact State.nack_inv _ hx
  · exact hx

theorem State.inBar_inv (s : State) (agent o op n : Nat) (h : s.inv) : (s.inBar agent o op n).inv := by
  unfold State.inBar
  grind [State.inv, BarOut.inv, State.inWrite_inv, State.raiseIn_inv, State.barSee_inv, State.barDo_inv]

theorem State.inDo_inv (s : State) (agent asid va : Nat) (op : DomOp) (ps : List (Nat × Nat)) (h : s.inv) : (s.inDo agent asid va op ps).inv := by
  unfold State.inDo
  grind [State.inv, State.nack_inv, State.inPut_inv, State.inReadAll_inv, State.addHard_inv, State.mapHard_inv, State.inAtom_inv, State.inBar_inv,
    State.inWriteAll_inv]

theorem execDomainInbound_inv (peer dtid va : Nat) (op : DomOp) (s : State) (h : s.inv) : outcomeInv (execDomainInbound peer dtid va op s) := by
  unfold execDomainInbound
  grind [State.inv, InAt.inv, outcomeInv, State.inXlate_inv, State.nack_inv, State.inDo_inv]

theorem State.peerAnswer_inv (s : State) (id : Nat) (r : OutReq) (ok poison : Bool) (bytes : List Byte) (h : s.inv) :
    (s.peerAnswer id r ok poison bytes).inv := by
  unfold State.peerAnswer
  extract_lets s0 came part
  have h0 : s0.inv := State.dropReq_inv s id h
  have hcame (v : State) (hv : v.inv) : (came v).inv := State.ite_inv _ _ (State.linkRecord_inv _ _ _ _ hv) hv
  have hpart (f : Cmd → Part1 → State) (hf : ∀ k p, (f k p).inv) : (part f).inv := by
    dsimp only [part]
    split
    · exact h0
    · split
      · exact hf _ _
      · exact h0
  clear_value part
  clear_value came s0
  split
  · exact State.ite_inv _ _ (State.fillFar_inv _ _ _ _ _ _ _ h0) (State.farFailed_inv _ _ _ h0)
  · exact State.ite_inv _ _ (State.fillFar_inv _ _ _ _ _ _ _ h0) (State.farFailed_inv _ _ _ h0)
  · exact h0
  · exact h0
  · split
    · exact h0
    · exact State.ite_inv _ _ (State.swrClose_inv _ _ _ _ h0) (State.partDone_inv _ _ _ _ _ _ h0)
  · exact hpart _ (fun k p => State.domFinish_inv _ _ _ _ _ _ h0)
  · refine hpart _ (fun k p => State.ite_inv _ _ (State.domFinish_inv _ _ _ _ _ _ h0) ?_)
    have hq : (if poison then EngIO.ends (s.engPoison k p.dst p.n) 2
        else EngIO.ends (s.engWrite k p.dst ((bytes ++ List.replicate p.n 0).take p.n)) 0).inv := by
      split
      · exact EngIO.ends_inv _ _ (State.engPoison_inv _ _ _ _ h)
      · exact EngIO.ends_inv _ _ (State.engWrite_inv _ _ _ _ h)
    generalize (if poison then EngIO.ends (s.engPoison k p.dst p.n) 2
        else EngIO.ends (s.engWrite k p.dst ((bytes ++ List.replicate p.n 0).take p.n)) 0) = q at hq ⊢
    cases q with
    | later s1 => exact hq
    | held s1 pg => exact State.engWait_inv _ _ (State.dropReq_inv _ _ hq)
    | ok s1 st ts => exact State.domFinish_inv _ _ _ _ _ _ (hcame _ (State.dropReq_inv _ _ hq))
  · exact State.ite_inv _ _ (State.replyTo_inv _ _ _ _ _ (hcame _ h0)) (State.replyTo_inv _ _ _ _ _ h0)

theorem execPeerReply_inv (req : Nat) (ok poison : Bool) (bytes : List Byte) (s : State) (h : s.inv) :
    outcomeInv (execPeerReply req ok poison bytes s) := by
  unfold execPeerReply
  grind [State.inv, outcomeInv, State.peerAnswer_inv]

theorem execDomainLinkTimeout_inv (l : Nat) (s : State) (h : s.inv) : outcomeInv (execDomainLinkTimeout l s) := by
  unfold execDomainLinkTimeout
  grind [State.inv, outcomeInv, State.peerAnswer_inv, State.foldl_inv]

theorem execResultWritten_inv (crew idx : Nat) (s : State) (h : s.inv) : outcomeInv (execResultWritten crew idx s) := by
  unfold execResultWritten
  grind [State.inv, outcomeInv, State.setCrew_inv]

end Sys2Proof.Machine
end

section
/-! SUPPORT. O60: a step keeps device memory canonical. -/

namespace Sys2Proof.Machine

theorem exec_inv (i : Instr) (s : State) (hs : s.inv) : outcomeInv (exec i s) := by
  cases i with
  | mov | iadd | isub | imul | imulh | imad | imin | imax | iabs | iaddsat | isubsat | and | or | xor | andn | shl | shr | sar | rot | bfe |
  bfi | popc | clz | brev | lea =>
    exact aluFixed_inv _ _ _ _ _ _ hs
  | hnop | hmov | hiadd | hisub | himul | hand | hor | hxor | hshl | hshr | hsar | himin | himax | hfadd | hfsub | hfmul | hfmin | hfmax |
  hicmp | hfcmp | hsel | hneg | habs | hfneg | hf2i | hi2f | hpopc | hclz | hmrd | hs2v | hshflx =>
    exact pairWord_inv _ _ _ _ _ _ (pairBody_inv _ _) hs
  | nop h => exact execNop_inv h s hs
  | movl h sc ty d lit => exact execMovl_inv h sc ty d lit s hs
  | sel o ps psn => exact execSel_inv o ps psn s hs
  | idiv o => exact execIdiv_inv o s hs
  | irem o => exact execIrem_inv o s hs
  | icmp o cc => exact execIcmp_inv o cc s hs
  | prmt o => exact execPrmt_inv o s hs
  | fadd o => exact execFadd_inv o s hs
  | fsub o => exact execFsub_inv o s hs
  | fmul o => exact execFmul_inv o s hs
  | fma o => exact execFma_inv o s hs
  | fmin o => exact execFmin_inv o s hs
  | fmax o => exact execFmax_inv o s hs
  | fdiv o => exact execFdiv_inv o s hs
  | fsqrt o => exact execFsqrt_inv o s hs
  | frcp o => exact execFrcp_inv o s hs
  | frsq o => exact execFrsq_inv o s hs
  | fexp2 o => exact execFexp2_inv o s hs
  | flog2 o => exact execFlog2_inv o s hs
  | fsin o => exact execFsin_inv o s hs
  | fcos o => exact execFcos_inv o s hs
  | fcmp o cc => exact execFcmp_inv o cc s hs
  | fclass o => exact execFclass_inv o s hs
  | fscale o => exact execFscale_inv o s hs
  | fround o => exact execFround_inv o s hs
  | f2f o st => exact execF2f_inv o st s hs
  | f2i o st => exact execF2i_inv o st s hs
  | i2f o st => exact execI2f_inv o st s hs
  | fdot2 o st => exact execFdot2_inv o st s hs
  | fma2 o => exact execFma2_inv o s hs
  | shfl h ty mode seg d a b => exact execShfl_inv h ty mode seg d a b s hs
  | vote h mode negs d a => exact execVote_inv h mode negs d a s hs
  | redux h ty op rnd d a => exact execRedux_inv h ty op rnd d a s hs
  | scan h ty op rnd excl d a => exact execScan_inv h ty op rnd excl d a s hs
  | mrd h ds d num => exact execMrd_inv h ds d num s hs
  | s2v h ty d a => exact execS2v_inv h ty d a s hs
  | v2s h ty first d a b => exact execV2s_inv h ty first d a b s hs
  | pmov h lut dir d a b => exact execPmov_inv h lut dir d a b s hs
  | rng h ty d a b => exact execRng_inv h ty d a b s hs
  | pack o => exact execPack_inv o s hs
  | unpack o => exact execUnpack_inv o s hs
  | bra h off => exact execBra_inv h off s hs
  | brx h a => exact execBrx_inv h a s hs
  | join h => exact execJoin_inv h s hs
  | call h f t => exact execCall_inv h f t s hs
  | ret h f a => exact execRet_inv h f a s hs
  | exit h => exact execExit_inv h s hs
  | yield h => exact execYield_inv h s hs
  | loop h d off => exact execLoop_inv h d off s hs
  | kill h => exact execKill_inv h s hs
  | trapi h n => exact execTrapi_inv h n s hs
  | tfence h mask => exact execTfence_inv h mask s hs
  | ld o line => exact execLd_inv o line s hs
  | st o => exact execSt_inv o s hs
  | lds o line => exact execLds_inv o line s hs
  | sts o => exact execSts_inv o s hs
  | ldp o cc => exact execLdp_inv o cc s hs
  | atom o op => exact execAtom_inv o op s hs
  | acas o => exact execAcas_inv o s hs
  | red o op => exact execRed_inv o op s hs
  | fence h scope order => exact execFence_inv h scope order s hs
  | prf o line => exact execPrf_inv o line s hs
  | lease o cls => exact execLease_inv o cls s hs
  | tsget h f d a => exact execTsget_inv h f d a s hs
  | barInit o => exact execBarInit_inv o s hs
  | barArr o => exact execBarArr_inv o s hs
  | barExp o => exact execBarExp_inv o s hs
  | barWait o => exact execBarWait_inv o s hs
  | barTry o => exact execBarTry_inv o s hs
  | bsync h k => exact execBsync_inv h k s hs
  | wellPush h well nreg c => exact execWellPush_inv h well nreg c s hs
  | wellPop h well nreg pr d => exact execWellPop_inv h well nreg pr d s hs
  | wellTpush h well a => exact execWellTpush_inv h well a s hs
  | wellTpop h well pr d => exact execWellTpop_inv h well pr d s hs
  | wellCfg h well a b => exact execWellCfg_inv h well a b s hs
  | batchClose h d => exact execBatchClose_inv h d s hs
  | batchWait h d b => exact execBatchWait_inv h d b s hs
  | cpyG2s o => exact execCpyG2s_inv o s hs
  | cpyS2g o => exact execCpyS2g_inv o s hs
  | cpyG2g o => exact execCpyG2g_inv o s hs
  | cpyMcast o => exact execCpyMcast_inv o s hs
  | cpyT2d o => exact execCpyT2d_inv o s hs
  | cpyGather o => exact execCpyGather_inv o s hs
  | cpyRed o => exact execCpyRed_inv o s hs
  | cpyDom o => exact execCpyDom_inv o s hs
  | cpySwr o => exact execCpySwr_inv o s hs
  | cpyStat h d => exact execCpyStat_inv h d s hs
  | ctrInit o => exact execCtrInit_inv o s hs
  | ctrTake o => exact execCtrTake_inv o s hs
  | ctrGive o => exact execCtrGive_inv o s hs
  | ctrRead o => exact execCtrRead_inv o s hs
  | ctrReadx o => exact execCtrReadx_inv o s hs
  | ctrCap o => exact execCtrCap_inv o s hs
  | ctrDrain o => exact execCtrDrain_inv o s hs
  | cmbOpen h dsp d a b => exact execCmbOpen_inv h dsp d a b s hs
  | cmbPut h lt d a b c => exact execCmbPut_inv h lt d a b c s hs
  | cmbStat h lates d a b => exact execCmbStat_inv h lates d a b s hs
  | cmbClose h d a b => exact execCmbClose_inv h d a b s hs
  | cmbCfg h a b => exact execCmbCfg_inv h a b s hs
  | tcfg h d a => exact execTcfg_inv h d a s hs
  | tcfgr h d a => exact execTcfgr_inv h d a s hs
  | tld h scope order space zf d a b => exact execTld_inv h scope order space zf d a b s hs
  | tst h scope order space hist d a b => exact execTst_inv h scope order space hist d a b s hs
  | tzero h d => exact execTzero_inv h d s hs
  | tmov h d a => exact execTmov_inv h d a s hs
  | tv2t h nreg d a b => exact execTv2t_inv h nreg d a b s hs
  | tt2v h nreg hist d a b => exact execTt2v_inv h nreg hist d a b s hs
  | mma h nsel msk zc mq scl d a b c => exact execMma_inv h nsel msk zc mq scl d a b c s hs
  | mtr h d a => exact execMtr_inv h d a s hs
  | tquant h soff d a b c => exact execTquant_inv h soff d a b c s hs
  | tcvt h soff d a b c => exact execTcvt_inv h soff d a b c s hs
  | hist h a b => exact execHist_inv h a b s hs
  | tred h op rnd d a b => exact execTred_inv h op rnd d a b s hs
  | tadd h op rnd sat d a b => exact execTadd_inv h op rnd sat d a b s hs
  | tmulv h colm rnd sat d a b c => exact execTmulv_inv h colm rnd sat d a b c s hs
  | csrr h d num => exact execCsrr_inv h d num s hs
  | csrw h num a => exact execCsrw_inv h num a s hs
  | csrwSet h num a => exact execCsrwSet_inv h num a s hs
  | csrwClr h num a => exact execCsrwClr_inv h num a s hs
  | launch h d a b => exact execLaunch_inv h d a b s hs
  | reord h a b => exact execReord_inv h a b s hs
  | idemBegin h => exact execIdemBegin_inv h s hs
  | idemEnd h => exact execIdemEnd_inv h s hs
  | hret h => exact execHret_inv h s hs
  | hwinR h d item => exact execHwinR_inv h d item s hs
  | hwinW h a item => exact execHwinW_inv h a item s hs
  | hresume h => exact execHresume_inv h s hs
  | hkill h launch => exact execHkill_inv h launch s hs
  | sleep h b => exact execSleep_inv h b s hs
  | clkr h k d => exact execClkr_inv h k d s hs
  | axLoop h p n => exact execAxLoop_inv h p n s hs
  | axEnd h => exact execAxEnd_inv h s hs
  | axBase h d g off => exact execAxBase_inv h d g off s hs
  | axStrd h p d l imm => exact execAxStrd_inv h p d l imm s hs
  | axLd h d a => exact execAxLd_inv h d a s hs
  | axLdt h d a b c => exact execAxLdt_inv h d a b c s hs
  | axSig h off => exact execAxSig_inv h off s hs
  | axHalt h => exact execAxHalt_inv h s hs
  | barrierWakeup w => exact execBarrierWakeup_inv w s hs
  | wellWakeup w => exact execWellWakeup_inv w s hs
  | batchWakeup w => exact execBatchWakeup_inv w s hs
  | ldpAttempt w => exact execLdpAttempt_inv w s hs
  | sleepExpiry w => exact execSleepExpiry_inv w s hs
  | ctrRefill c => exact execCtrRefill_inv c s hs
  | ctrRecall c core => exact execCtrRecall_inv c core s hs
  | ctrRecallReply c core => exact execCtrRecallReply_inv c core s hs
  | ctrGrant c core => exact execCtrGrant_inv c core s hs
  | cmbTimeout slot => exact execCmbTimeout_inv slot s hs
  | copyPartComplete cmd part => exact execCopyPartComplete_inv cmd part s hs
  | mcastLanding cmd target part => exact execMcastLanding_inv cmd target part s hs
  | swrRound group c => exact execSwrRound_inv group c s hs
  | swrRoundTimeout group => exact execSwrRoundTimeout_inv group s hs
  | homeRenew p => exact execHomeRenew_inv p s hs
  | homeWrite p => exact execHomeWrite_inv p s hs
  | homeAtom p => exact execHomeAtom_inv p s hs
  | homeWb p => exact execHomeWb_inv p s hs
  | homeHold p => exact execHomeHold_inv p s hs
  | data p => exact execData_inv p s hs
  | ext p => exact execExt_inv p s hs
  | ack p => exact execAck_inv p s hs
  | routerPacket p => exact execRouterPacket_inv p s hs
  | bridgePacket p => exact execBridgePacket_inv p s hs
  | flitError cd hd c => exact execFlitError_inv cd hd c s hs
  | retrainTimeout cd hd c => exact execRetrainTimeout_inv cd hd c s hs
  | retrainDone cd hd c => exact execRetrainDone_inv cd hd c s hs
  | packetCrcError p => exact execPacketCrcError_inv p s hs
  | domainLinkTimeout l => exact execDomainLinkTimeout_inv l s hs
  | mirrorWrite p => exact execMirrorWrite_inv p s hs
  | clockReconcile => exact execClockReconcile_inv s hs
  | rolloverSweep => exact execRolloverSweep_inv s hs
  | imagePtsSweep image => exact execImagePtsSweep_inv image s hs
  | pageWalk asid va => exact execPageWalk_inv asid va s hs
  | trapDelivery cluster => exact execTrapDelivery_inv cluster s hs
  | watchdogExpiry cluster => exact execWatchdogExpiry_inv cluster s hs
  | doorbell q v => exact execDoorbell_inv q v s hs
  | dispatchConsume q => exact execDispatchConsume_inv q s hs
  | blockPlace blk core => exact execBlockPlace_inv blk core s hs
  | gangStart core => exact execGangStart_inv core s hs
  | stealRequest idle victim => exact execStealRequest_inv idle victim s hs
  | donationArrival idle => exact execDonationArrival_inv idle s hs
  | launchComplete lslot => exact execLaunchComplete_inv lslot s hs
  | reorderFlush lslot => exact execReorderFlush_inv lslot s hs
  | prectl part v => exact execPrectl_inv part v s hs
  | gangSave gid => exact execGangSave_inv gid s hs
  | gangRestore blk core => exact execGangRestore_inv blk core s hs
  | resume part v => exact execResume_inv part v s hs
  | fltnextRead part => exact execFltnextRead_inv part s hs
  | fltdone part v => exact execFltdone_inv part v s hs
  | engreqRead part => exact execEngreqRead_inv part s hs
  | engdone part v => exact execEngdone_inv part v s hs
  | asinv asid v => exact execAsinv_inv asid v s hs
  | asinvComplete asid => exact execAsinvComplete_inv asid s hs
  | ptcfgWrite part v => exact execPtcfgWrite_inv part v s hs
  | quotaWrite part off size v => exact execQuotaWrite_inv part off size v s hs
  | protEnable k v => exact execProtEnable_inv k v s hs
  | protMirrorReady k => exact outcomeInv_of_next (fun t => execProtMirrorReady_inv k s t hs)
  | homeDieFailure hd => exact execHomeDieFailure_inv hd s hs
  | coreOutOfService core => exact execCoreOutOfService_inv core s hs
  | eccError e => exact execEccError_inv e s hs
  | ecccInterval ukind unit => exact execEcccInterval_inv ukind unit s hs
  | snpinv port line => exact execSnpinv_inv port line s hs
  | snpdata port line => exact execSnpdata_inv port line s hs
  | snpcur port line => exact execSnpcur_inv port line s hs
  | hostGrant port line excl bytes poison => exact execHostGrant_inv port line excl bytes poison s hs
  | hostMemrd port addr n hold => exact execHostMemrd_inv port addr n hold s hs
  | hostMemwr port addr bytes wb keep poison => exact execHostMemwr_inv port addr bytes wb keep poison s hs
  | bisnpResponse slice line dirty => exact execBisnpResponse_inv slice line dirty s hs
  | heartbeat agent => exact execHeartbeat_inv agent s hs
  | hardHoldExpiry slice line => exact execHardHoldExpiry_inv slice line s hs
  | poolCompletion req ok poison bytes => exact execPoolCompletion_inv req ok poison bytes s hs
  | poolSideTimeout req => exact execPoolSideTimeout_inv req s hs
  | domainInbound peer dtid va op => exact execDomainInbound_inv peer dtid va op s hs
  | domainRecall line => exact execDomainRecall_inv line s hs
  | cxlPortDown port => exact execCxlPortDown_inv port s hs
  | powerInterval vcore0 vcore1 vhome vhbm core temps => exact execPowerInterval_inv vcore0 vcore1 vhome vhbm core temps s hs
  | pcapWrite v => exact execPcapWrite_inv v s hs
  | thermalLimit die temp => exact execThermalLimit_inv die temp s hs
  | thermalTrip temp => exact execThermalTrip_inv temp s hs
  | coreHot core temp => exact execCoreHot_inv core temp s hs
  | droopEvent core => exact execDroopEvent_inv core s hs
  | coreCool core temp => exact execCoreCool_inv core temp s hs
  | tlmloRead => exact execTlmloRead_inv s hs
  | firmwareUpdate image => exact execFirmwareUpdate_inv image s hs
  | attestReport => exact execAttestReport_inv s hs
  | identityPublicKey => exact execIdentityPublicKey_inv s hs
  | atctlRefused op => exact execAtctlRefused_inv op s hs
  | packageReset v failedCores failedHomes => exact execPackageReset_inv v failedCores failedHomes s hs
  | cxlReset failedCores failedHomes => exact execCxlReset_inv failedCores failedHomes s hs
  | registerWrite bar off size v => exact execRegisterWrite_inv bar off size v s hs
  | illegalEncoding w => exact execIllegalEncoding_inv w s hs
  | fetchFault va tail => exact execFetchFault_inv va tail s hs
  | resultWritten crew idx => exact execResultWritten_inv crew idx s hs
  | peerReply req ok poison bytes => exact execPeerReply_inv req ok poison bytes s hs
  | stealRefusal idle => exact execStealRefusal_inv idle s hs
  | powerLoss => exact execPowerLoss_inv s hs
  | powerOn failedCores failedHomes => exact execPowerOn_inv failedCores failedHomes s hs
  | cxlPortUp port => exact execCxlPortUp_inv port s hs
  | _ => exact execRecall_inv _ s hs -- what remains: `recall` is also a command's name

theorem endWord_inv (a0 : Host.Outcome State Fault Refusal) (h : outcomeInv a0) : outcomeInv (endWord a0) := by
  unfold endWord
  grind [State.inv, outcomeInv]

theorem step_inv (s : State) (h : s.inv) : outcomeInv (step s) := by
  have hn := State.nextMove_inv s h
  unfold step
  cases hm : s.nextMove with
  | idle t =>
    rw [hm] at hn
    exact hn
  | exec i t =>
    rw [hm] at hn
    exact endWord_inv _ (exec_inv i t hn)

/-- Settles O60: every instruction and event (`exec_inv`), and the choice of the next move, keep the canonical form. -/
theorem memoryStaysCanonical : Obligations.MemoryStaysCanonical := by
  intro s t hs ht
  have h := step_inv s hs
  rw [ht] at h
  exact h

end Sys2Proof.Machine
end
